-- ==== Sys2Proof/Word.lean ====
section
/-!
DEFINITION. The word types of the GR9 and the canonical key-value list that holds sparse state.
Values are named as the manual names them: a scalar (64 bits), a row (64 lanes of 32 bits) and a
tile (8 rows), R34 and R120.
-/

namespace Sys2Proof

/-- A scalar value or memory word, 64 bits (R34). -/
abbrev Word := BitVec 64
/-- One byte of memory (R3). -/
abbrev Byte := BitVec 8
/-- One tile row: lane `i` stands at bits `[32 i + 31 : 32 i]`, which is the row image of R120. -/
abbrev Row := BitVec 2048
/-- One tile: row `k` stands at bits `[2048 k + 2047 : 2048 k]`, which is the tile image of R120. -/
abbrev Tile := BitVec 16384
/-- A value tag: gradient buffer id [19:8] and row [7:0] (R240). -/
abbrev Tag := BitVec 20
/-- The six sticky flags NX, UF, OF, DZ, NV, SAT in the bit order of R90. -/
abbrev Flg := BitVec 6

/-- Sparse state: keys strictly rising. -/
abbrev KMap (α : Type) := List (Nat × α)

/-- The value held under key `i`, or `d` where the list has no entry. -/
def KMap.get {α : Type} (d : α) : KMap α → Nat → α
  | [], _ => d
  | (k, v) :: m, i => if i = k then v else KMap.get d m i

/-- Write `v` under key `i`, whatever `v` is. -/
def KMap.put {α : Type} : KMap α → Nat → α → KMap α
  | [], i, v => [(i, v)]
  | (k, w) :: m, i, v =>
    if i < k then (i, v) :: (k, w) :: m
    else if i = k then (i, v) :: m
    else (k, w) :: KMap.put m i v

/-- Drop key `i`. -/
def KMap.del {α : Type} : KMap α → Nat → KMap α
  | [], _ => []
  | (k, w) :: m, i => if i = k then KMap.del m i else (k, w) :: KMap.del m i

/-- Write `v` under key `i`, keeping the canonical form in which no entry equals the default `d`. -/
def KMap.set {α : Type} [DecidableEq α] (d : α) (m : KMap α) (i : Nat) (v : α) : KMap α :=
  if v = d then m.del i else m.put i v

/-- Keys strictly rising. -/
def KMap.sorted {α : Type} : KMap α → Bool
  | [] => true
  | [_] => true
  | (k, _) :: (k', w) :: m => decide (k < k') && KMap.sorted ((k', w) :: m)

/-- The canonical form: keys strictly rising and no entry equal to the default. -/
def KMap.wf {α : Type} [DecidableEq α] (d : α) (m : KMap α) : Bool :=
  m.sorted && m.all (fun e => decide (e.2 ≠ d))

end Sys2Proof
end

