-- ==== Sys2Proof/Syntax.lean ====
section
/-!
DEFINITION. The syntax: one constructor per row of spec/opcode_table.json. The rows with an encoding are
24-bit moves (R31): `g` is GUARD, `src` the source code, `u` the unit bit of SA0/SA1 and TA0/TA1, `f` and `p`
the unit and port of an operand write, `r` and `t` a register number. The other rows are steps of the machine
without an encoding; their arguments name the item that the step acts on: `n` a context number (R9), `c` a
module core number, `d` a die, `h` a flow-entry holder or router index, `ch` an input channel, `l` a link,
`kid` a kernel instance, `pid` a pattern, `id` the serial number of a request or access in flight.
-/

namespace Sys2Proof

inductive Instr where
  /-- OPERAND_PORT_WRITE (R36). A move into operand or argument port 0-3 of a unit writes the held operand value, which starts nothing. -/
  | operandPortWrite (g : BitVec 4) (f : BitVec 5) (p : BitVec 2) (src : BitVec 9)
  /-- SCALAR_REGISTER_WRITE (R103). A move through FU 31 ports 0-31 writes all 64 bits of scalar register sn at the end of the issue clk. -/
  | scalarRegisterWrite (g : BitVec 4) (r : BitVec 5) (src : BitVec 9)
  /-- GUARD_WRITE (R103). A move through FU 31 ports 32-39 writes bit 0 of the value into guard gn. -/
  | guardWrite (g : BitVec 4) (r : BitVec 3) (src : BitVec 9)
  /-- TILE_ROW_WRITE (R40). A one-row move through FU 31 ports 0-15 in slot 4 or 5 writes row WROWk of tile tn at the end of the issue clk. -/
  | tileRowWrite (g : BitVec 4) (t : BitVec 4) (src : BitVec 9)
  /-- WHOLE_TILE_WRITE (R40). A whole-tile move through FU 31 ports 16-31 writes row k of tn at the end of clk c + k. -/
  | wholeTileWrite (g : BitVec 4) (t : BitVec 4) (src : BitVec 9)
  /-- SA_ADD (R108). Lands a + T. -/
  | saAdd (g : BitVec 4) (u : BitVec 1) (src : BitVec 9)
  /-- SA_SUB (R108). Lands a - T. -/
  | saSub (g : BitVec 4) (u : BitVec 1) (src : BitVec 9)
  /-- SA_AND (R108). Lands a and T. -/
  | saAnd (g : BitVec 4) (u : BitVec 1) (src : BitVec 9)
  /-- SA_OR (R108). Lands a or T. -/
  | saOr (g : BitVec 4) (u : BitVec 1) (src : BitVec 9)
  /-- SA_XOR (R108). Lands a xor T. -/
  | saXor (g : BitVec 4) (u : BitVec 1) (src : BitVec 9)
  /-- SA_ANDN (R108). Lands a and not T. -/
  | saAndn (g : BitVec 4) (u : BitVec 1) (src : BitVec 9)
  /-- SA_SHL (R108). Lands a shifted left by T[5:0]. -/
  | saShl (g : BitVec 4) (u : BitVec 1) (src : BitVec 9)
  /-- SA_SHR (R108). Lands a shifted right logically by T[5:0]. -/
  | saShr (g : BitVec 4) (u : BitVec 1) (src : BitVec 9)
  /-- SA_SRA (R108). Lands a shifted right arithmetically by T[5:0]. -/
  | saSra (g : BitVec 4) (u : BitVec 1) (src : BitVec 9)
  /-- SA_ROTL (R108). Lands a rotated left by T[5:0]. -/
  | saRotl (g : BitVec 4) (u : BitVec 1) (src : BitVec 9)
  /-- SA_EQ (R108). Lands 1 if a = T, else 0. -/
  | saEq (g : BitVec 4) (u : BitVec 1) (src : BitVec 9)
  /-- SA_NE (R108). Lands 1 if a differs from T, else 0. -/
  | saNe (g : BitVec 4) (u : BitVec 1) (src : BitVec 9)
  /-- SA_LT (R108). Lands 1 if a < T signed. -/
  | saLt (g : BitVec 4) (u : BitVec 1) (src : BitVec 9)
  /-- SA_LTU (R108). Lands 1 if a < T unsigned. -/
  | saLtu (g : BitVec 4) (u : BitVec 1) (src : BitVec 9)
  /-- SA_LE (R108). Lands 1 if a <= T signed. -/
  | saLe (g : BitVec 4) (u : BitVec 1) (src : BitVec 9)
  /-- SA_LEU (R108). Lands 1 if a <= T unsigned. -/
  | saLeu (g : BitVec 4) (u : BitVec 1) (src : BitVec 9)
  /-- SA_MIN (R108). Lands the signed smaller of a and T. -/
  | saMin (g : BitVec 4) (u : BitVec 1) (src : BitVec 9)
  /-- SA_MINU (R108). Lands the unsigned smaller of a and T. -/
  | saMinu (g : BitVec 4) (u : BitVec 1) (src : BitVec 9)
  /-- SA_MAX (R108). Lands the signed larger of a and T. -/
  | saMax (g : BitVec 4) (u : BitVec 1) (src : BitVec 9)
  /-- SA_MAXU (R108). Lands the unsigned larger of a and T. -/
  | saMaxu (g : BitVec 4) (u : BitVec 1) (src : BitVec 9)
  /-- SA_SEL (R108). Lands a if b[0] = 1, else T. -/
  | saSel (g : BitVec 4) (u : BitVec 1) (src : BitVec 9)
  /-- SA_CLZ (R108). Lands the count of leading zero bits of T. -/
  | saClz (g : BitVec 4) (u : BitVec 1) (src : BitVec 9)
  /-- SA_CTZ (R108). Lands the count of trailing zero bits of T. -/
  | saCtz (g : BitVec 4) (u : BitVec 1) (src : BitVec 9)
  /-- SA_POPC (R108). Lands the count of 1 bits in T. -/
  | saPopc (g : BitVec 4) (u : BitVec 1) (src : BitVec 9)
  /-- SA_SXT (R108). Lands a sign-extended from bit T[5:0]. -/
  | saSxt (g : BitVec 4) (u : BitVec 1) (src : BitVec 9)
  /-- SA_LEA (R108). Lands a + (b << T[1:0]). -/
  | saLea (g : BitVec 4) (u : BitVec 1) (src : BitVec 9)
  /-- SM_MUL (R109). Lands the low 64 bits of a times T at latency 3. -/
  | smMul (g : BitVec 4) (src : BitVec 9)
  /-- SM_MULH (R109). Lands the signed high 64 bits of a times T. -/
  | smMulh (g : BitVec 4) (src : BitVec 9)
  /-- SM_MULHU (R109). Lands the unsigned high 64 bits of a times T. -/
  | smMulhu (g : BitVec 4) (src : BitVec 9)
  /-- SM_DIV (R109). Holds the divider 20 clks and lands a divided by T, signed, truncating. -/
  | smDiv (g : BitVec 4) (src : BitVec 9)
  /-- SM_DIVU (R109). Holds the divider 20 clks and lands the unsigned quotient. -/
  | smDivu (g : BitVec 4) (src : BitVec 9)
  /-- SM_REM (R109). Holds the divider 20 clks and lands the signed remainder. -/
  | smRem (g : BitVec 4) (src : BitVec 9)
  /-- SM_REMU (R109). Holds the divider 20 clks and lands the unsigned remainder. -/
  | smRemu (g : BitVec 4) (src : BitVec 9)
  /-- BR_JMP (R112). Branches to T after one delay bundle, checking the target. -/
  | brJmp (g : BitVec 4) (src : BitVec 9)
  /-- BR_CALL (R111). Branches to T after one delay bundle and lands PCb + 64 as the return address. -/
  | brCall (g : BitVec 4) (src : BitVec 9)
  /-- BR_RET (R111). Branches to T after one delay bundle, marked as a return for hints. -/
  | brRet (g : BitVec 4) (src : BitVec 9)
  /-- BR_JREL (R111). Branches PC-relative by T bundles after one delay bundle. -/
  | brJrel (g : BitVec 4) (src : BitVec 9)
  /-- LP_LOOP (R114). Sets LPCNT from a and LPSTART from T, clearing BRK. -/
  | lpLoop (g : BitVec 4) (src : BitVec 9)
  /-- LP_BRK (R114). Sets LPSTART.BRK so the loop ends at its next back edge. -/
  | lpBrk (g : BitVec 4) (src : BitVec 9)
  /-- LP_CNT (R114). Lands LPCNT as it stood at the start of the issue clk. -/
  | lpCnt (g : BitVec 4) (src : BitVec 9)
  /-- BACK_EDGE_ACTION (R115). A bundle with header bit LEND performs the loop back edge: decrement LPCNT and go to LPSTART, or end the loop. -/
  | backEdgeAction (n : Nat)
  /-- CX_RD (R117). Lands control register T at latency 2, after the register-number and privilege checks. -/
  | cxRd (g : BitVec 4) (src : BitVec 9)
  /-- CX_WR (R118). Writes control register T from a at the end of the issue clk, with the refusal rules for LIMIT, CURWIN and FMT. -/
  | cxWr (g : BitVec 4) (src : BitVec 9)
  /-- CX_FMT (R88). Writes FMT from T under the four-clk shadow and the RM check. -/
  | cxFmt (g : BitVec 4) (src : BitVec 9)
  /-- CX_FLG (R91). Lands FLAGS and then clears the bits set in T. -/
  | cxFlg (g : BitVec 4) (src : BitVec 9)
  /-- FMT_SHADOW_EXPIRY (R88). Five unfrozen clks after an FMT write, the new value governs operations. -/
  | fmtShadowExpiry (n : Nat)
  /-- CT_ADD (R403). Queues a release add of T to the counter at a, sent after every earlier access of the context is performed. -/
  | ctAdd (g : BitVec 4) (src : BitVec 9)
  /-- CT_WAIT (R404). Sends a wait for the counter at a to reach T and blocks until a reply or notice arrives; lands the value as an acquire. -/
  | ctWait (g : BitVec 4) (src : BitVec 9)
  /-- CT_OWAIT (R405). Blocks until OLD, OST or both are at most T and lands both counts. -/
  | ctOwait (g : BitVec 4) (src : BitVec 9)
  /-- CT_TWAIT (R406). Blocks until token T is written and lands its value; traps on an idle token. -/
  | ctTwait (g : BitVec 4) (src : BitVec 9)
  /-- CT_ARV (R407). Arrives at barrier bT as a release and lands the phase the arrival counts towards. -/
  | ctArv (g : BitVec 4) (src : BitVec 9)
  /-- CT_BWT (R408). Blocks until barrier bT's PHASE reaches a and lands PHASE as an acquire. -/
  | ctBwt (g : BitVec 4) (src : BitVec 9)
  /-- CT_BCFG (R409). Configures barrier bT from a and resets its ARRC and PHASE. -/
  | ctBcfg (g : BitVec 4) (src : BitVec 9)
  /-- SY_TRAP (R436). Performs every slot and then takes software trap 0x80 + T[6:0] with TRAPVAL from a. -/
  | syTrap (g : BitVec 4) (src : BitVec 9)
  /-- SY_RFE (R437). Returns from the handler to resume, ignore or escalate, after the handler's work in flight lands. -/
  | syRfe (g : BitVec 4) (src : BitVec 9)
  /-- SY_STOP (R430). Sets STOPF of context a, making an inspection stop. -/
  | syStop (g : BitVec 4) (src : BitVec 9)
  /-- SY_REL (R438). Releases the fenced context, engine queue or holder named by the function word T. -/
  | syRel (g : BitVec 4) (src : BitVec 9)
  /-- SY_SNAP (R439). Lands one snapshot descriptor or data word of context a on the core. -/
  | sySnap (g : BitVec 4) (src : BitVec 9)
  /-- LS_LDS (R187). Scalar load of SIZE bytes at T from the local vault, landing at latency 6. -/
  | lsLds (g : BitVec 4) (src : BitVec 9)
  /-- LS_STS (R187). Scalar store of T at b into the local vault. -/
  | lsSts (g : BitVec 4) (src : BitVec 9)
  /-- LS_LDR (R187). Row load of 256 bytes at T, landing as a row. -/
  | lsLdr (g : BitVec 4) (src : BitVec 9)
  /-- LS_STR (R187). Row store of T at b. -/
  | lsStr (g : BitVec 4) (src : BitVec 9)
  /-- LS_LDT (R187). Tile load of eight rows at T, row k landing at c + 6 + k. -/
  | lsLdt (g : BitVec 4) (src : BitVec 9)
  /-- LS_STT (R187). Tile store of T at b, one row per clk. -/
  | lsStt (g : BitVec 4) (src : BitVec 9)
  /-- LS_LDP (R188). Bit-plane load of half a matrix patch transposed into a tile. -/
  | lsLdp (g : BitVec 4) (src : BitVec 9)
  /-- LS_STP (R188). Transposing bit-plane store of tile T into half a matrix patch at b. -/
  | lsStp (g : BitVec 4) (src : BitVec 9)
  /-- LS_LAT (R189). Lateral load at T over the lateral network, completing through token TOK. -/
  | lsLat (g : BitVec 4) (src : BitVec 9)
  /-- AT_SWAP (R194). Atomically writes T at a and returns the old value. -/
  | atSwap (g : BitVec 4) (src : BitVec 9)
  /-- AT_CAS (R194). Writes T at a if the old value equals b and returns the old value. -/
  | atCas (g : BitVec 4) (src : BitVec 9)
  /-- AT_ADD (R194). Atomically adds T at a and returns the old value. -/
  | atAdd (g : BitVec 4) (src : BitVec 9)
  /-- AT_AND (R194). Atomic bitwise and of T at a. -/
  | atAnd (g : BitVec 4) (src : BitVec 9)
  /-- AT_OR (R194). Atomic bitwise or of T at a. -/
  | atOr (g : BitVec 4) (src : BitVec 9)
  /-- AT_XOR (R194). Atomic bitwise xor of T at a. -/
  | atXor (g : BitVec 4) (src : BitVec 9)
  /-- AT_MIN (R194). Atomic signed minimum of T at a. -/
  | atMin (g : BitVec 4) (src : BitVec 9)
  /-- AT_MAX (R194). Atomic signed maximum of T at a. -/
  | atMax (g : BitVec 4) (src : BitVec 9)
  /-- AT_MINU (R194). Atomic unsigned minimum of T at a. -/
  | atMinu (g : BitVec 4) (src : BitVec 9)
  /-- AT_MAXU (R194). Atomic unsigned maximum of T at a. -/
  | atMaxu (g : BitVec 4) (src : BitVec 9)
  /-- AT_AADDX (R194). Saturating aligned-integer add of T at a, returning the old value. -/
  | atAaddx (g : BitVec 4) (src : BitVec 9)
  /-- TA_FADD (R128). One-row FP32 add a + T. -/
  | taFadd (g : BitVec 4) (u : BitVec 1) (src : BitVec 9)
  /-- TA_FSUB (R128). One-row FP32 subtract a - T. -/
  | taFsub (g : BitVec 4) (u : BitVec 1) (src : BitVec 9)
  /-- TA_FMUL (R128). One-row FP32 multiply a x T. -/
  | taFmul (g : BitVec 4) (u : BitVec 1) (src : BitVec 9)
  /-- TA_FMA (R128). One-row fused a x b + T with one rounding. -/
  | taFma (g : BitVec 4) (u : BitVec 1) (src : BitVec 9)
  /-- TA_FMAX (R128). One-row FP32 maximum of a and T. -/
  | taFmax (g : BitVec 4) (u : BitVec 1) (src : BitVec 9)
  /-- TA_FMIN (R128). One-row FP32 minimum of a and T. -/
  | taFmin (g : BitVec 4) (u : BitVec 1) (src : BitVec 9)
  /-- TA_FCMP (R130). One-row float compare by relation c[2:0], landing INT32 1 or 0. -/
  | taFcmp (g : BitVec 4) (u : BitVec 1) (src : BitVec 9)
  /-- TA_IADD (R128). One-row INT32 wrapping add. -/
  | taIadd (g : BitVec 4) (u : BitVec 1) (src : BitVec 9)
  /-- TA_ISUB (R128). One-row INT32 wrapping subtract. -/
  | taIsub (g : BitVec 4) (u : BitVec 1) (src : BitVec 9)
  /-- TA_IMUL (R128). One-row INT32 multiply keeping the low 32 bits. -/
  | taImul (g : BitVec 4) (u : BitVec 1) (src : BitVec 9)
  /-- TA_IMIN (R128). One-row signed INT32 minimum. -/
  | taImin (g : BitVec 4) (u : BitVec 1) (src : BitVec 9)
  /-- TA_IMAX (R128). One-row signed INT32 maximum. -/
  | taImax (g : BitVec 4) (u : BitVec 1) (src : BitVec 9)
  /-- TA_AND (R128). One-row bitwise and. -/
  | taAnd (g : BitVec 4) (u : BitVec 1) (src : BitVec 9)
  /-- TA_OR (R128). One-row bitwise or. -/
  | taOr (g : BitVec 4) (u : BitVec 1) (src : BitVec 9)
  /-- TA_XOR (R128). One-row bitwise xor. -/
  | taXor (g : BitVec 4) (u : BitVec 1) (src : BitVec 9)
  /-- TA_SHL (R128). One-row shift left by T[4:0]. -/
  | taShl (g : BitVec 4) (u : BitVec 1) (src : BitVec 9)
  /-- TA_SHR (R128). One-row logical shift right by T[4:0]. -/
  | taShr (g : BitVec 4) (u : BitVec 1) (src : BitVec 9)
  /-- TA_SRA (R128). One-row arithmetic shift right by T[4:0]. -/
  | taSra (g : BitVec 4) (u : BitVec 1) (src : BitVec 9)
  /-- TA_ICMP (R130). One-row integer compare by relation c[2:0]. -/
  | taIcmp (g : BitVec 4) (u : BitVec 1) (src : BitVec 9)
  /-- TA_SEL (R128). One-row select: b nonzero ? a : T per lane. -/
  | taSel (g : BitVec 4) (u : BitVec 1) (src : BitVec 9)
  /-- TA_FADDT (R131). Whole-tile FP32 add of d and T, row by row. -/
  | taFaddt (g : BitVec 4) (u : BitVec 1) (src : BitVec 9)
  /-- TA_FSUBT (R131). Whole-tile FP32 subtract of d and T. -/
  | taFsubt (g : BitVec 4) (u : BitVec 1) (src : BitVec 9)
  /-- TA_FMULT (R131). Whole-tile FP32 multiply of d and T. -/
  | taFmult (g : BitVec 4) (u : BitVec 1) (src : BitVec 9)
  /-- TA_FMAXT (R131). Whole-tile FP32 maximum of d and T. -/
  | taFmaxt (g : BitVec 4) (u : BitVec 1) (src : BitVec 9)
  /-- TX_CVT (R135). Converts each lane of T from format SF to DF. -/
  | txCvt (g : BitVec 4) (src : BitVec 9)
  /-- TX_QNT (R137). Quantises the row into two 4-bit or 8-bit blocks with scale bytes. -/
  | txQnt (g : BitVec 4) (src : BitVec 9)
  /-- TX_DQNT (R138). Decodes a packed block row into 64 elements. -/
  | txDqnt (g : BitVec 4) (src : BitVec 9)
  /-- TX_EXP (R136). Correctly rounded e to the power T per lane. -/
  | txExp (g : BitVec 4) (src : BitVec 9)
  /-- TX_LOG (R136). Correctly rounded natural log per lane. -/
  | txLog (g : BitVec 4) (src : BitVec 9)
  /-- TX_RCP (R136). Correctly rounded reciprocal per lane. -/
  | txRcp (g : BitVec 4) (src : BitVec 9)
  /-- TX_RSQ (R136). Correctly rounded reciprocal square root per lane. -/
  | txRsq (g : BitVec 4) (src : BitVec 9)
  /-- TX_SQRT (R136). Correctly rounded square root per lane. -/
  | txSqrt (g : BitVec 4) (src : BitVec 9)
  /-- TX_TANH (R136). Correctly rounded tanh per lane. -/
  | txTanh (g : BitVec 4) (src : BitVec 9)
  /-- TX_SIGM (R136). Correctly rounded logistic sigmoid per lane. -/
  | txSigm (g : BitVec 4) (src : BitVec 9)
  /-- TX_ERF (R136). Correctly rounded error function per lane. -/
  | txErf (g : BitVec 4) (src : BitVec 9)
  /-- TS_PERM (R141). Permutes the lanes of T by the indices in port a. -/
  | tsPerm (g : BitVec 4) (src : BitVec 9)
  /-- TS_XPOSE (R142). Transposes each row's 8 x 8 lane block of tile T. -/
  | tsXpose (g : BitVec 4) (src : BitVec 9)
  /-- TS_RSUM (R143). Lands the FP32 pairwise-tree sum of the row. -/
  | tsRsum (g : BitVec 4) (src : BitVec 9)
  /-- TS_RMAX (R143). Lands the row maximum. -/
  | tsRmax (g : BitVec 4) (src : BitVec 9)
  /-- TS_RMIN (R143). Lands the row minimum. -/
  | tsRmin (g : BitVec 4) (src : BitVec 9)
  /-- TS_AMAX (R143). Lands the lowest lane index of the maximum. -/
  | tsAmax (g : BitVec 4) (src : BitVec 9)
  /-- TS_SCAN (R144). Lands the inclusive prefix sum of the row over the fixed tree. -/
  | tsScan (g : BitVec 4) (src : BitVec 9)
  /-- TS_SMAX (R144). Lands the inclusive running maximum of the row. -/
  | tsSmax (g : BitVec 4) (src : BitVec 9)
  /-- TS_MASK (R145). Lands 1 in lanes from start b over length T, else 0. -/
  | tsMask (g : BitVec 4) (src : BitVec 9)
  /-- TS_BIAS (R146). Lands relative-position bias values read from the table at BIASB. -/
  | tsBias (g : BitVec 4) (src : BitVec 9)
  /-- MX_CALL (R208). Runs one step of microprogram routine T with mp0-mp7 as they stand at issue. -/
  | mxCall (g : BitVec 4) (src : BitVec 9)
  /-- MX_MLD (R210). Writes microprogram word a with b and T (privileged). -/
  | mxMld (g : BitVec 4) (src : BitVec 9)
  /-- MX_PARM (R210). Sets parameter register mp(T[2:0]) from a. -/
  | mxParm (g : BitVec 4) (src : BitVec 9)
  /-- SC_XLD (R211). Sets the held scale SC.XS from T. -/
  | scXld (g : BitVec 4) (src : BitVec 9)
  /-- SC_XADD (R211). Latches PSL.X from SC.XS and the origin patch from T. -/
  | scXadd (g : BitVec 4) (src : BitVec 9)
  /-- STEP_OPERAND_READ (R209). At c + 3 a matrix step reads every vault byte and buffer slot it needs. -/
  | stepOperandRead (c : Nat)
  /-- LATCH_SAMPLE (R211). At the end of clk c + O the step samples the exponent and origin latch. -/
  | latchSample (c : Nat)
  /-- STEP_COMMIT (R209). At the end of c + S - 1 the step commits its working copy, writes DRAIN and GRAD bytes and releases buffer slots. -/
  | stepCommit (c : Nat)
  /-- CE_GO (R270). Enqueues a tensor copy of up to 8 dimensions with optional conversion and padding. -/
  | ceGo (g : BitVec 4) (src : BitVec 9)
  /-- CE_CMP (R271). Enqueues a byte compare of two endpoints. -/
  | ceCmp (g : BitVec 4) (src : BitVec 9)
  /-- GE_GO (R272). Enqueues an index gather of table rows. -/
  | geGo (g : BitVec 4) (src : BitVec 9)
  /-- GE_SKG (R273). Enqueues a gather of skein slots below the handle's committed length. -/
  | geSkg (g : BitVec 4) (src : BitVec 9)
  /-- WE_GO (R274). Enqueues window expansion of B patches for convolution into a circular buffer. -/
  | weGo (g : BitVec 4) (src : BitVec 9)
  /-- RS_GO (R366). Enqueues a reshard that installs transient flow entries and runs its exchange phases. -/
  | rsGo (g : BitVec 4) (src : BitVec 9)
  /-- RS_QRY (R367). Enqueues derivation of a reshard exchange, writing a result record only. -/
  | rsQry (g : BitVec 4) (src : BitVec 9)
  /-- NP_SEND (R305). Enqueues a send of bytes from an endpoint as flow packets. -/
  | npSend (g : BitVec 4) (src : BitVec 9)
  /-- NP_ROW (R304). Enqueues a send of the captured row T as one flow packet. -/
  | npRow (g : BitVec 4) (src : BitVec 9)
  /-- CB_SET (R281). Configures circular-buffer handle T and zeroes its cursors. -/
  | cbSet (g : BitVec 4) (src : BitVec 9)
  /-- CB_ADV (R281). Blocks until m slots are free, then advances PP by m three clks later. -/
  | cbAdv (g : BitVec 4) (src : BitVec 9)
  /-- CB_REL (R281). Releases m consumed slots, raising RP and CC. -/
  | cbRel (g : BitVec 4) (src : BitVec 9)
  /-- CB_QRY (R281). Lands FREE, AV and PP of the handle. -/
  | cbQry (g : BitVec 4) (src : BitVec 9)
  /-- CB_ADV_PP_ADVANCE (R281). At the end of clk issue + 3 a cb.adv adds m to PP. -/
  | cbAdvPpAdvance (n : Nat)
  /-- SK_OPEN (R233). Binds a skein handle to a descriptor and checks it at the home. -/
  | skOpen (g : BitVec 4) (src : BitVec 9)
  /-- SK_RES (R229). Reserves n slots of the skein, allocating blocks, waiting for the window if needed. -/
  | skRes (g : BitVec 4) (src : BitVec 9)
  /-- SK_CMT (R230). Commits m slots and advances CLEN over the gap-free prefix, as a release. -/
  | skCmt (g : BitVec 4) (src : BitVec 9)
  /-- SK_FORK (R231). Makes a child skein sharing the first k slots of the parent. -/
  | skFork (g : BitVec 4) (src : BitVec 9)
  /-- SK_REL (R232). Releases the skein, dropping block references and freeing blocks after shoot-down. -/
  | skRel (g : BitVec 4) (src : BitVec 9)
  /-- SK_LEN (R233). Reads CLEN at the home as an acquire. -/
  | skLen (g : BitVec 4) (src : BitVec 9)
  /-- SK_PIDX (R386). Looks up a key and digest in the prefix index. -/
  | skPidx (g : BitVec 4) (src : BitVec 9)
  /-- SK_PINS (R386). Inserts or deletes a prefix-index entry. -/
  | skPins (g : BitVec 4) (src : BitVec 9)
  /-- SK_CMPT (R233). Compares the token column of the first n slots with an array. -/
  | skCmpt (g : BitVec 4) (src : BitVec 9)
  /-- SK_RES_WINDOW_GRANT (R229). A reservation waiting in the descriptor's wait list is granted when the window allows it. -/
  | skResWindowGrant (pa : Nat)
  /-- SK_COMMAND_COMPLETE (R228). An SK command performed at its home writes its token and the handle's CLEN register. -/
  | skCommandComplete (n : Nat)
  /-- BL_BAST (R253). Turns record mode on and fetches the log's RLEN and LIMIT, optionally setting LIMIT. -/
  | blBast (g : BitVec 4) (src : BitVec 9)
  /-- BL_BSTOP (R253). Turns record mode off. -/
  | blBstop (g : BitVec 4) (src : BitVec 9)
  /-- BL_MARK (R250). Appends a one-slot mark entry with id T. -/
  | blMark (g : BitVec 4) (src : BitVec 9)
  /-- BL_UNPK (R255). Runs an unpick backwards through the log to a mark, seam mark or the start. -/
  | blUnpk (g : BitVec 4) (src : BitVec 9)
  /-- BL_FLAG (R253). Tags a register and sets the flag word for the next recorded operation. -/
  | blFlag (g : BitVec 4) (src : BitVec 9)
  /-- LOG_ENTRY_WRITE (R248). The log writer appends a staged entry's images and header and advances CLEN. -/
  | logEntryWrite (n : Nat)
  /-- UNPICK_ENTRY (R256). The unpick reads one log entry, brings back its operands and adds its adjoint contributions into gradient buffers. -/
  | unpickEntry (n : Nat)
  /-- LN_LNCH (R319). Sends the launch record at T to the distributor as a release at .pk. -/
  | lnLnch (g : BitVec 4) (src : BitVec 9)
  /-- LN_QUIT (R320). Ends the context's membership; the member drains and then retires. -/
  | lnQuit (g : BitVec 4) (src : BitVec 9)
  /-- MEMBER_RETIRE (R320). After drain a member retires, freeing its context; the last member makes the completion add and frees the arenas. -/
  | memberRetire (n : Nat)
  /-- PT_LOAD (R342). Sends a pattern image to the pattern loader for validation and installation. -/
  | ptLoad (g : BitVec 4) (src : BitVec 9)
  /-- PT_UNLD (R342). Retires an installed pattern. -/
  | ptUnld (g : BitVec 4) (src : BitVec 9)
  /-- PT_QRY (R342). Returns the state of a pattern id. -/
  | ptQry (g : BitVec 4) (src : BitVec 9)
  /-- PT_STRY (R344). Copies the oldest visible stray-queue entries of a holder to the vault. -/
  | ptStry (g : BitVec 4) (src : BitVec 9)
  /-- PT_CLR (R342). Frees the oldest visible stray-queue entries of a holder. -/
  | ptClr (g : BitVec 4) (src : BitVec 9)
  /-- XL_SDA (R376). Shoots down translation entries of an address range in the buffers of the scope. -/
  | xlSda (g : BitVec 4) (src : BitVec 9)
  /-- XL_SDK (R376). Shoots down skein block entries of a pool and skein in the buffers of the scope. -/
  | xlSdk (g : BitVec 4) (src : BitVec 9)
  /-- XL_PRB (R379). Probes the quad translation buffer for T and lands the cached leaf. -/
  | xlPrb (g : BitVec 4) (src : BitVec 9)
  /-- SHOOTDOWN_COMPLETE (R377). A shoot-down writes its token after every access that used a removed entry is performed. -/
  | shootdownComplete (n : Nat)
  /-- PW_REQ (R441). Asks the die's leave arbiter for a grant of weight T, or releases with T = 0. -/
  | pwReq (g : BitVec 4) (src : BitVec 9)
  /-- PW_LIM (R442). Sets CURLIM and CURWIN and restarts the window. -/
  | pwLim (g : BitVec 4) (src : BitVec 9)
  /-- LEAVE_GRANT (R457). The leave arbiter grants a waiting request when the die's budget has room, writing its token. -/
  | leaveGrant (d : Nat)
  /-- BLOCKED_BUNDLE_ISSUE (R21). A blocked bundle issues whole in the clk after its condition clears. -/
  | blockedBundleIssue (n : Nat)
  /-- RESULT_LANDING (R42). A result lands in its unit's output-queue image at c + L, ageing the entries and ORing its flags. -/
  | resultLanding (n : Nat)
  /-- TILE_SEQUENCER_ROW (R41). A row sequencer reads or writes row k of a whole-tile transfer at clk c + k. -/
  | tileSequencerRow (n : Nat)
  /-- LOCAL_ACCESS_PERFORM (R154). A local vault access is performed at its bank at c + 3 under bank arbitration. -/
  | localAccessPerform (c : Nat)
  /-- LATERAL_PERFORM (R156). A lateral access or remote atomic is performed at the owning bank. -/
  | lateralPerform (n : Nat) (id : Nat)
  /-- LATERAL_COMPLETION (R190). A lateral load or remote atomic completes, writing its token and any tile rows. -/
  | lateralCompletion (n : Nat) (id : Nat)
  /-- TRANSLATION_WALK (R371). A translation-buffer miss walks the page tables, freezing a CT operation until the last read returns. -/
  | translationWalk (n : Nat)
  /-- WINDOW_EXPIRY (R456). At the end of each CURWIN window CURW resets to 0 and a held bundle may issue. -/
  | windowExpiry (c : Nat)
  /-- FAULT_DELIVERY (R417). A class-A fault of a command is delivered in the clk the context would next issue. -/
  | faultDelivery (n : Nat)
  /-- STOP_REQUEST (R427). A stop request sets STOPF and stops non-issuing contexts where they stand. -/
  | stopRequest (n : Nat)
  /-- ENGINE_QUIESCE_COMPLETE (R285). At a stop each engine queue abandons incomplete chunks and writes re-issue records once its sent writes are performed. -/
  | engineQuiesceComplete (n : Nat)
  /-- PREEMPTION_SAVE (R429). After capture the live bytes are written to the save area at 512 B per clk, completing the pre-emption. -/
  | preemptionSave (kid : Nat)
  /-- LATE_PRODUCER_SAVE_WRITE (R433). A producer completing after the save writes its token or flags into the save area. -/
  | lateProducerSaveWrite (key : Nat)
  /-- RESUMPTION (R434). A pre-empted kernel is restored, its arena migrated and its records re-issued, once its saved items complete. -/
  | resumption (kid : Nat)
  /-- DEPENDENCE_MET (R312). A counter dependence or pattern liveness is met, making a Queued record Ready. -/
  | dependenceMet (kid : Nat)
  /-- ENGINE_CHUNK_COMPLETE (R277). An engine chunk completes, adding its bytes to the counter and advancing PP of a buffer destination. -/
  | engineChunkComplete (n : Nat) (fu : Nat)
  /-- ENGINE_ACCESS_FAULT (R279). A fault at an engine access stops the command for containment. -/
  | engineAccessFault (n : Nat) (fu : Nat)
  /-- PACKET_HEADER_ARRIVAL (R293). A header written into a router input is routed onward or matched at its hop target. -/
  | packetHeaderArrival (h : Nat) (ch : Nat)
  /-- OUTPUT_PORT_GRANT (R296). Each clk an output port grants one flit to a circuit slot or round-robin input channel. -/
  | outputPortGrant (h : Nat) (p : Nat)
  /-- VC_CREDIT_RETURN (R294). Two clks after a flit leaves a downstream buffer, the sender's free-slot count rises. -/
  | vcCreditReturn (h : Nat) (ch : Nat)
  /-- CIRCUIT_SLOT (R297). In slot k a valid slot-table entry moves one S-channel flit one hop. -/
  | circuitSlot (h : Nat)
  /-- FLOW_PACKET_ACCEPT (R327). A matched packet is checked for input, sequence and slot and stored in its data slot. -/
  | flowPacketAccept (h : Nat) (ch : Nat)
  /-- EMISSION (R328). An entry emits a packet copy to each target once its credit allows. -/
  | emission (h : Nat) (e : Nat)
  /-- CREDIT_REPLY_ARRIVAL (R329). A credit reply adds its count to the named credit field of the target entry. -/
  | creditReplyArrival (h : Nat) (ch : Nat)
  /-- DELIVER_CHUNK (R332). A DELIVER entry writes a chunk to its endpoint when its member runs, then adds to its counter and ORs flags. -/
  | deliverChunk (h : Nat) (e : Nat)
  /-- NP_INJECTION (R330). A waiting NP packet is injected when its source entry can take it. -/
  | npInjection (n : Nat)
  /-- PATTERN_ACTIVATION (R339). When ACNT reaches AVAL every holder makes the pattern's entries live. -/
  | patternActivation (pid : Nat)
  /-- PATTERN_RETIREMENT (R339). When ACNT reaches RVAL, on unload or owner kill, entries retire and resources are freed. -/
  | patternRetirement (pid : Nat)
  /-- RESHARD_PHASE_START (R366). A reshard phase starts once every participant of its group has installed its entries. -/
  | reshardPhaseStart (id : Nat)
  /-- GATEWAY_PACKET_FORWARD (R299). A seam gateway or switch port forwards a whole packet once all its flits have arrived. -/
  | gatewayPacketForward (id : Nat)
  /-- PAIR_DIGEST_COMPARE (R460). A partner's digest is compared with the local one, raising code 0x44 on mismatch. -/
  | pairDigestCompare (k : Nat)
  /-- LINK_FLIT_RECEIVE (R298). A link flit is checked by CRC and sequence, acknowledged or discarded with a resend request. -/
  | linkFlitReceive (l : Nat)
  /-- LINK_RESEND (R298). The sender resends from the first unacknowledged link flit. -/
  | linkResend (l : Nat)
  /-- RETRAIN_COMPLETE (R451). A retrain ends; after three failures the link is down. -/
  | retrainComplete (l : Nat)
  /-- COUNTER_ADD_PERFORMED (R391). A counter add is performed at its home, saturating with an overflow fault, and notifies satisfied waits. -/
  | counterAddPerformed (id : Nat)
  /-- COUNTER_WAIT_PERFORMED (R393). A counter wait at its home replies at once or registers in the waiter table. -/
  | counterWaitPerformed (id : Nat)
  /-- COUNTER_WAIT_RESEND (R393). A wait answered not registered is sent again 256 clks later. -/
  | counterWaitResend (id : Nat)
  /-- REQUEST_TIMEOUT (R302). A request unanswered for 8,192 clks is resent, and after the third raises the fabric-timeout fault. -/
  | requestTimeout (id : Nat)
  /-- BARRIER_REPORT (R397). A core's phase report reaches the barrier node, which completes the phase with NPART reports. -/
  | barrierReport (id : Nat)
  /-- BARRIER_PHASE_UPDATE (R398). The completed phase becomes readable as PHASE at every reporting core. -/
  | barrierPhaseUpdate (id : Nat)
  /-- POD_BARRIER_PACKET (R399). A pod barrier report or completion packet arrives at ROOT or a module. -/
  | podBarrierPacket (id : Nat)
  /-- GO_WORD_WRITE (R162). A control-space write of a go word issues one command into a context's engine queue. -/
  | goWordWrite (n : Nat) (fu : Nat) (port : Nat) (v : BitVec 64)
  /-- CONTROL_BLOCK_REGISTER_WRITE (R162). A control-space write of a context's control register acts as a privileged cx.wr, ignored for a running member except STOPF. -/
  | controlBlockRegisterWrite (n : Nat) (no : Nat) (v : BitVec 64)
  /-- REGISTER_WRITE (R445). A write to a register with no behaviour of its own stores its value. -/
  | registerWrite (off : Nat) (v : BitVec 64)
  /-- BOOTLEN_WRITE (R454). A write of BOOTLEN in boot-hold starts verification of the firmware image. -/
  | bootlenWrite (v : BitVec 64)
  /-- MODN_WRITE (R447). A MODN write takes effect only while no kernel is Placing, Running or Pre-empted. -/
  | modnWrite (v : BitVec 64)
  /-- PLIM_WRITE (R446). A PLIM write above 3,600 or of 0 is ignored. -/
  | plimWrite (v : BitVec 64)
  /-- SVBASE_WRITE (R446). An SVBASE write outside the HBM range is ignored. -/
  | svbaseWrite (v : BitVec 64)
  /-- YELNAK_READ (R453). A host read message returns LEN bytes. -/
  | yelnakRead (tag : Nat)
  /-- YELNAK_WRITE (R453). A host write message writes its payload. -/
  | yelnakWrite (tag : Nat)
  /-- YELNAK_LAUNCH (R311). A host launch message submits an inline record and returns the instance number or refusal. -/
  | yelnakLaunch (tag : Nat)
  /-- YELNAK_COUNTER_ADD (R453). A host counter-add message adds VAL to a counter. -/
  | yelnakCounterAdd (tag : Nat)
  /-- YELNAK_COUNTER_WAIT (R453). A host counter-wait message responds when the counter reaches VAL. -/
  | yelnakCounterWait (tag : Nat)
  /-- YELNAK_PATTERN_LOAD (R343). A host pattern-load message loads a pattern owned by the host. -/
  | yelnakPatternLoad (tag : Nat)
  /-- YELNAK_BLACK_BOX_READ (R459). A host message reads up to 8 black-box entries from a sequence number. -/
  | yelnakBlackBoxRead (tag : Nat)
  /-- YELNAK_ATTESTATION (R455). A host message returns a doubly signed attestation report over a nonce. -/
  | yelnakAttestation (tag : Nat)
  /-- LOSS_OF_LOCK (R298). A seam, switch or Yelnak link loses lock and starts a retrain. -/
  | lossOfLock (l : Nat)
  /-- LINK_TRAINING_COMPLETE (R445). A link's initial training ends and LSTAT.ST goes from training to up with link sequence numbers at 0. -/
  | linkTrainingComplete (l : Nat)
  /-- PT_COMMAND_COMPLETE (R342). A pt.qry, pt.stry or pt.clr is performed at the loader or holder and writes its token, copying or freeing stray entries. -/
  | ptCommandComplete (n : Nat)
  /-- BL_BAST_HOME_DONE (R253). The log home performs a bl.bast, optionally setting LIMIT, then sets LRLEN, LLIM and LRDY, ending the freeze of a recorded operation. -/
  | blBastHomeDone (n : Nat)
  /-- MEMBERS_START (R18). When the code regions are copied, the arenas zeroed and every start state written, all members of a Placing crew start in one clk and the kernel becomes Running. -/
  | membersStart (kid : Nat)
  /-- SELECTION_ROUND (R316). Every 16 clks the distributor places Ready and Pre-empted records in order, counting bypasses and reserving. -/
  | selectionRound
  /-- RECORD_ACCEPTANCE (R309). The distributor accepts or refuses a launch record and assigns its kernel instance number. -/
  | recordAcceptance
  /-- PATTERN_VALIDATE (R337). The pattern loader reads, checks and installs or refuses a pattern image. -/
  | patternValidate
  /-- BOOT_VERIFY_DONE (R454). The boot ROM finishes verifying both signatures, refusing or running the firmware. -/
  | bootVerifyDone
  /-- POWER_SAMPLE (R458). Every 1 ms power and junction temperatures are sampled, halving, restoring or stopping. -/
  | powerSample
  /-- COLD_RESET (R445). A cold reset clears the module, black box and sequence state to boot-hold. -/
  | coldReset
  /-- WARM_RESET (R164). A warm reset writes back dirty lines, keeps the black box and enters boot-hold. -/
  | warmReset
  /-- BUNDLE_BLOCK (R21). A bundle whose move lacks queue space, slots, a token or a satisfied wait performs nothing and is retried each clk. -/
  | bundleBlock
  deriving DecidableEq, Repr

end Sys2Proof
end

