-- ==== Sys2Proof/Machine/Encoding.lean ====
section
/-!
DEFINITION. The encoding tables of a move: slot classes (R33), source codes (R34, R71), the kinds of ports (R57),
and the move that each constructor of `Instr` stands for.
-/

namespace Sys2Proof

/-- The kinds of R34. -/
inductive Kind where
  | s | r | t
  deriving DecidableEq, Repr

/-- What a source code reads, decoded by R34. -/
inductive Src where
  | sreg (n : Nat)
  | limmZ
  | limmS
  | bc
  | guard (n : Nat)
  | imm (v : BitVec 6)
  | ent (fu age : Nat)
  | trow (t k : Nat)
  | tile (t : Nat)
  | cb (n : Nat)
  deriving DecidableEq, Repr

/-- The slot classes of R33. -/
inductive Class where
  | scalar | control | memory | tile | matrix | engine
  deriving DecidableEq, Repr

/-- The 24-bit move of R31. -/
structure Move where
  g : BitVec 4
  fu : BitVec 5
  port : BitVec 6
  src : BitVec 9
  deriving DecidableEq, Repr

/-- The move's 24 bits (R31): the base of its unit's table (R263 for CE, GE, WE, RS, CB), 0x200 for each port, SRC, and
GUARD << 20. -/
def Move.word (m : Move) : BitVec 24 := m.g ++ (m.fu ++ (m.port ++ m.src))

/-- The fields of a 24-bit move (R31). -/
def Move.ofWord (w : BitVec 24) : Move :=
  ⟨w.extractLsb' 20 4, w.extractLsb' 15 5, w.extractLsb' 9 6, w.extractLsb' 0 9⟩

/-- The empty slot, 0x80_0000 (R32). -/
def emptySlot : BitVec 24 := 0x800000

/-- R34 and R71: what a source code names; none where it is reserved. -/
def srcOf (c : BitVec 9) : Option Src :=
  let n := c.toNat
  if n < 0x20 then some (.sreg n)
  else if n = 0x20 then some .limmZ
  else if n = 0x21 then some .limmS
  else if n = 0x22 then some .bc
  else if n < 0x28 then none
  else if n < 0x30 then some (.guard (n - 0x28))
  else if n < 0x40 then none
  else if n < 0x80 then some (.imm (c.extractLsb' 0 6))
  else if n < 0xF0 then some (.ent ((n - 0x80) / 4) (n % 4))
  else if n < 0x100 then none
  else if n < 0x180 then some (.trow ((n - 0x100) / 8) (n % 8))
  else if n < 0x190 then some (.tile (n - 0x180))
  else if n < 0x1A0 then some (.cb (n - 0x190))
  else none

/-- The kind of a source where the encoding fixes it; none for an output-queue entry (R35). -/
def Src.kind : Src → Option Kind
  | .sreg _ | .limmZ | .limmS | .bc | .guard _ | .imm _ => some .s
  | .ent _ _ => none
  | .trow _ _ | .cb _ => some .r
  | .tile _ => some .t

/-- R33: the class of slot k. -/
def slotClass (k : Nat) : Class :=
  if k < 2 then .scalar else if k = 2 then .control else if k = 3 then .memory else if k < 6 then .tile
  else if k = 6 then .matrix else .engine

/-- R33, R263: the units a class accepts. -/
def Class.accepts : Class → Nat → Bool
  | .scalar, fu => fu = 0 || fu = 1 || fu = 2 || fu = 5 || fu = 31
  | .control, fu => (3 ≤ fu && fu ≤ 7) || fu = 31
  | .memory, fu => fu = 8 || fu = 9
  | .tile, fu => (10 ≤ fu && fu ≤ 13) || fu = 31
  | .matrix, fu => fu = 14 || fu = 15 || fu = 27
  | .engine, fu => 16 ≤ fu && fu ≤ 26

/-- R57, R263: the kinds of operand and argument ports, in ascending port number. -/
def operandKinds (fu : Nat) : List Kind :=
  if fu ≤ 1 then [.s, .s]
  else if fu = 2 then [.s]
  else if fu = 3 then []
  else if fu ≤ 7 then [.s]
  else if fu = 8 then [.s, .s]
  else if fu = 9 then [.s, .s, .s]
  else if fu ≤ 11 then [.r, .r, .s, .t]
  else if fu = 12 then [.s]
  else if fu = 13 then [.r, .s]
  else if fu = 14 then [.s, .s]
  else if fu = 15 then []
  else if fu ≤ 20 then [.s, .s, .s, .s]
  else if fu ≤ 26 then [.s, .s, .s]
  else if fu = 27 then [.s]
  else []

/-- R57, R263: the last trigger port of a unit; triggers run from 4. -/
def lastTrigger (fu : Nat) : Nat :=
  if fu ≤ 1 then 29 else if fu = 2 then 10 else if fu = 3 then 7 else if fu = 4 then 6 else if fu = 5 then 7
  else if fu = 6 then 10 else if fu = 7 then 8 else if fu = 8 then 12 else if fu = 9 then 14
  else if fu ≤ 11 then 27 else if fu = 12 then 14 else if fu = 13 then 13 else if fu = 14 then 6
  else if fu = 15 then 5 else if fu = 18 then 4 else if fu ≤ 20 then 5 else if fu = 21 then 7 else if fu = 22 then 12
  else if fu = 23 then 8 else if fu = 24 then 5 else if fu = 25 then 8 else if fu = 26 then 6 else if fu = 27 then 5
  else 0

/-- R64-R70: the kind of a trigger port. -/
def triggerKind (fu port : Nat) : Kind :=
  if fu = 8 then (if port = 7 then .r else if port = 9 || port = 11 then .t else .s)
  else if fu = 10 || fu = 11 then (if port ≥ 24 then .t else .r)
  else if fu = 12 then .r
  else if fu = 13 then (if port = 5 then .t else .r)
  else if fu = 20 && port = 5 then .r
  else .s

/-- R57, R58: the kind of a port of units 0-27; none where it is unassigned. -/
def portKind (fu port : Nat) : Option Kind :=
  if fu > 27 then none
  else if port < 4 then (operandKinds fu)[port]?
  else if port ≤ lastTrigger fu then some (triggerKind fu port)
  else none

/-- R33: the kind of a port of FU 31 in a slot class; none where it is unassigned. -/
def regPortKind (c : Class) (port : Nat) : Option Kind :=
  match c with
  | .scalar | .control => if port < 40 then some .s else none
  | .tile => if port < 16 then some .r else if port < 32 then some .t else none
  | _ => none

/-- The kind of the port a move names in a slot class. -/
def destKind (c : Class) (fu port : Nat) : Option Kind :=
  if fu = 31 then regPortKind c port else portKind fu port

/-- R35: a scalar is accepted by every kind, another kind by its own only. -/
def kindAccepted (src dst : Kind) : Bool := src = .s || src = dst

/-- The slot in which the host's single move of a unit stands: the first of the unit's class (R33). -/
def firstSlot (fu : Nat) : Nat :=
  if fu ≤ 2 then 0 else if fu ≤ 7 then (if fu = 5 then 0 else 2) else if fu ≤ 9 then 3 else if fu ≤ 13 then 4
  else if fu ≤ 15 then 6 else if fu ≤ 26 then 7 else if fu = 27 then 6 else 0

/-- The move that an instruction stands for, from the match column of the opcode table (R31, R57, R64-R70, R263); none for a
step without an encoding. -/
def Instr.move : Instr → Option Move
  | .operandPortWrite g f p src => some ⟨g, f, 0#4 ++ p, src⟩
  | .scalarRegisterWrite g r src => some ⟨g, 31, 0#1 ++ r, src⟩
  | .guardWrite g r src => some ⟨g, 31, 4#3 ++ r, src⟩
  | .tileRowWrite g t src => some ⟨g, 31, 0#2 ++ t, src⟩
  | .wholeTileWrite g t src => some ⟨g, 31, 1#2 ++ t, src⟩
  | .saAdd g u src => some ⟨g, 0#4 ++ u, 4, src⟩
  | .saSub g u src => some ⟨g, 0#4 ++ u, 5, src⟩
  | .saAnd g u src => some ⟨g, 0#4 ++ u, 6, src⟩
  | .saOr g u src => some ⟨g, 0#4 ++ u, 7, src⟩
  | .saXor g u src => some ⟨g, 0#4 ++ u, 8, src⟩
  | .saAndn g u src => some ⟨g, 0#4 ++ u, 9, src⟩
  | .saShl g u src => some ⟨g, 0#4 ++ u, 10, src⟩
  | .saShr g u src => some ⟨g, 0#4 ++ u, 11, src⟩
  | .saSra g u src => some ⟨g, 0#4 ++ u, 12, src⟩
  | .saRotl g u src => some ⟨g, 0#4 ++ u, 13, src⟩
  | .saEq g u src => some ⟨g, 0#4 ++ u, 14, src⟩
  | .saNe g u src => some ⟨g, 0#4 ++ u, 15, src⟩
  | .saLt g u src => some ⟨g, 0#4 ++ u, 16, src⟩
  | .saLtu g u src => some ⟨g, 0#4 ++ u, 17, src⟩
  | .saLe g u src => some ⟨g, 0#4 ++ u, 18, src⟩
  | .saLeu g u src => some ⟨g, 0#4 ++ u, 19, src⟩
  | .saMin g u src => some ⟨g, 0#4 ++ u, 20, src⟩
  | .saMinu g u src => some ⟨g, 0#4 ++ u, 21, src⟩
  | .saMax g u src => some ⟨g, 0#4 ++ u, 22, src⟩
  | .saMaxu g u src => some ⟨g, 0#4 ++ u, 23, src⟩
  | .saSel g u src => some ⟨g, 0#4 ++ u, 24, src⟩
  | .saClz g u src => some ⟨g, 0#4 ++ u, 25, src⟩
  | .saCtz g u src => some ⟨g, 0#4 ++ u, 26, src⟩
  | .saPopc g u src => some ⟨g, 0#4 ++ u, 27, src⟩
  | .saSxt g u src => some ⟨g, 0#4 ++ u, 28, src⟩
  | .saLea g u src => some ⟨g, 0#4 ++ u, 29, src⟩
  | .smMul g src => some ⟨g, 2, 4, src⟩
  | .smMulh g src => some ⟨g, 2, 5, src⟩
  | .smMulhu g src => some ⟨g, 2, 6, src⟩
  | .smDiv g src => some ⟨g, 2, 7, src⟩
  | .smDivu g src => some ⟨g, 2, 8, src⟩
  | .smRem g src => some ⟨g, 2, 9, src⟩
  | .smRemu g src => some ⟨g, 2, 10, src⟩
  | .brJmp g src => some ⟨g, 3, 4, src⟩
  | .brCall g src => some ⟨g, 3, 5, src⟩
  | .brRet g src => some ⟨g, 3, 6, src⟩
  | .brJrel g src => some ⟨g, 3, 7, src⟩
  | .lpLoop g src => some ⟨g, 4, 4, src⟩
  | .lpBrk g src => some ⟨g, 4, 5, src⟩
  | .lpCnt g src => some ⟨g, 4, 6, src⟩
  | .backEdgeAction _ => none
  | .cxRd g src => some ⟨g, 5, 4, src⟩
  | .cxWr g src => some ⟨g, 5, 5, src⟩
  | .cxFmt g src => some ⟨g, 5, 6, src⟩
  | .cxFlg g src => some ⟨g, 5, 7, src⟩
  | .fmtShadowExpiry _ => none
  | .ctAdd g src => some ⟨g, 6, 4, src⟩
  | .ctWait g src => some ⟨g, 6, 5, src⟩
  | .ctOwait g src => some ⟨g, 6, 6, src⟩
  | .ctTwait g src => some ⟨g, 6, 7, src⟩
  | .ctArv g src => some ⟨g, 6, 8, src⟩
  | .ctBwt g src => some ⟨g, 6, 9, src⟩
  | .ctBcfg g src => some ⟨g, 6, 10, src⟩
  | .syTrap g src => some ⟨g, 7, 4, src⟩
  | .syRfe g src => some ⟨g, 7, 5, src⟩
  | .syStop g src => some ⟨g, 7, 6, src⟩
  | .syRel g src => some ⟨g, 7, 7, src⟩
  | .sySnap g src => some ⟨g, 7, 8, src⟩
  | .lsLds g src => some ⟨g, 8, 4, src⟩
  | .lsSts g src => some ⟨g, 8, 5, src⟩
  | .lsLdr g src => some ⟨g, 8, 6, src⟩
  | .lsStr g src => some ⟨g, 8, 7, src⟩
  | .lsLdt g src => some ⟨g, 8, 8, src⟩
  | .lsStt g src => some ⟨g, 8, 9, src⟩
  | .lsLdp g src => some ⟨g, 8, 10, src⟩
  | .lsStp g src => some ⟨g, 8, 11, src⟩
  | .lsLat g src => some ⟨g, 8, 12, src⟩
  | .atSwap g src => some ⟨g, 9, 4, src⟩
  | .atCas g src => some ⟨g, 9, 5, src⟩
  | .atAdd g src => some ⟨g, 9, 6, src⟩
  | .atAnd g src => some ⟨g, 9, 7, src⟩
  | .atOr g src => some ⟨g, 9, 8, src⟩
  | .atXor g src => some ⟨g, 9, 9, src⟩
  | .atMin g src => some ⟨g, 9, 10, src⟩
  | .atMax g src => some ⟨g, 9, 11, src⟩
  | .atMinu g src => some ⟨g, 9, 12, src⟩
  | .atMaxu g src => some ⟨g, 9, 13, src⟩
  | .atAaddx g src => some ⟨g, 9, 14, src⟩
  | .taFadd g u src => some ⟨g, 5#4 ++ u, 4, src⟩
  | .taFsub g u src => some ⟨g, 5#4 ++ u, 5, src⟩
  | .taFmul g u src => some ⟨g, 5#4 ++ u, 6, src⟩
  | .taFma g u src => some ⟨g, 5#4 ++ u, 7, src⟩
  | .taFmax g u src => some ⟨g, 5#4 ++ u, 8, src⟩
  | .taFmin g u src => some ⟨g, 5#4 ++ u, 9, src⟩
  | .taFcmp g u src => some ⟨g, 5#4 ++ u, 10, src⟩
  | .taIadd g u src => some ⟨g, 5#4 ++ u, 11, src⟩
  | .taIsub g u src => some ⟨g, 5#4 ++ u, 12, src⟩
  | .taImul g u src => some ⟨g, 5#4 ++ u, 13, src⟩
  | .taImin g u src => some ⟨g, 5#4 ++ u, 14, src⟩
  | .taImax g u src => some ⟨g, 5#4 ++ u, 15, src⟩
  | .taAnd g u src => some ⟨g, 5#4 ++ u, 16, src⟩
  | .taOr g u src => some ⟨g, 5#4 ++ u, 17, src⟩
  | .taXor g u src => some ⟨g, 5#4 ++ u, 18, src⟩
  | .taShl g u src => some ⟨g, 5#4 ++ u, 19, src⟩
  | .taShr g u src => some ⟨g, 5#4 ++ u, 20, src⟩
  | .taSra g u src => some ⟨g, 5#4 ++ u, 21, src⟩
  | .taIcmp g u src => some ⟨g, 5#4 ++ u, 22, src⟩
  | .taSel g u src => some ⟨g, 5#4 ++ u, 23, src⟩
  | .taFaddt g u src => some ⟨g, 5#4 ++ u, 24, src⟩
  | .taFsubt g u src => some ⟨g, 5#4 ++ u, 25, src⟩
  | .taFmult g u src => some ⟨g, 5#4 ++ u, 26, src⟩
  | .taFmaxt g u src => some ⟨g, 5#4 ++ u, 27, src⟩
  | .txCvt g src => some ⟨g, 12, 4, src⟩
  | .txQnt g src => some ⟨g, 12, 5, src⟩
  | .txDqnt g src => some ⟨g, 12, 6, src⟩
  | .txExp g src => some ⟨g, 12, 7, src⟩
  | .txLog g src => some ⟨g, 12, 8, src⟩
  | .txRcp g src => some ⟨g, 12, 9, src⟩
  | .txRsq g src => some ⟨g, 12, 10, src⟩
  | .txSqrt g src => some ⟨g, 12, 11, src⟩
  | .txTanh g src => some ⟨g, 12, 12, src⟩
  | .txSigm g src => some ⟨g, 12, 13, src⟩
  | .txErf g src => some ⟨g, 12, 14, src⟩
  | .tsPerm g src => some ⟨g, 13, 4, src⟩
  | .tsXpose g src => some ⟨g, 13, 5, src⟩
  | .tsRsum g src => some ⟨g, 13, 6, src⟩
  | .tsRmax g src => some ⟨g, 13, 7, src⟩
  | .tsRmin g src => some ⟨g, 13, 8, src⟩
  | .tsAmax g src => some ⟨g, 13, 9, src⟩
  | .tsScan g src => some ⟨g, 13, 10, src⟩
  | .tsSmax g src => some ⟨g, 13, 11, src⟩
  | .tsMask g src => some ⟨g, 13, 12, src⟩
  | .tsBias g src => some ⟨g, 13, 13, src⟩
  | .mxCall g src => some ⟨g, 14, 4, src⟩
  | .mxMld g src => some ⟨g, 14, 5, src⟩
  | .mxParm g src => some ⟨g, 14, 6, src⟩
  | .scXld g src => some ⟨g, 15, 4, src⟩
  | .scXadd g src => some ⟨g, 15, 5, src⟩
  | .stepOperandRead _ => none
  | .latchSample _ => none
  | .stepCommit _ => none
  | .ceGo g src => some ⟨g, 16, 4, src⟩
  | .ceCmp g src => some ⟨g, 16, 5, src⟩
  | .geGo g src => some ⟨g, 17, 4, src⟩
  | .geSkg g src => some ⟨g, 17, 5, src⟩
  | .weGo g src => some ⟨g, 18, 4, src⟩
  | .rsGo g src => some ⟨g, 19, 4, src⟩
  | .rsQry g src => some ⟨g, 19, 5, src⟩
  | .npSend g src => some ⟨g, 20, 4, src⟩
  | .npRow g src => some ⟨g, 20, 5, src⟩
  | .cbSet g src => some ⟨g, 21, 4, src⟩
  | .cbAdv g src => some ⟨g, 21, 5, src⟩
  | .cbRel g src => some ⟨g, 21, 6, src⟩
  | .cbQry g src => some ⟨g, 21, 7, src⟩
  | .cbAdvPpAdvance _ => none
  | .skOpen g src => some ⟨g, 22, 4, src⟩
  | .skRes g src => some ⟨g, 22, 5, src⟩
  | .skCmt g src => some ⟨g, 22, 6, src⟩
  | .skFork g src => some ⟨g, 22, 7, src⟩
  | .skRel g src => some ⟨g, 22, 8, src⟩
  | .skLen g src => some ⟨g, 22, 9, src⟩
  | .skPidx g src => some ⟨g, 22, 10, src⟩
  | .skPins g src => some ⟨g, 22, 11, src⟩
  | .skCmpt g src => some ⟨g, 22, 12, src⟩
  | .skResWindowGrant _ => none
  | .skCommandComplete _ => none
  | .blBast g src => some ⟨g, 23, 4, src⟩
  | .blBstop g src => some ⟨g, 23, 5, src⟩
  | .blMark g src => some ⟨g, 23, 6, src⟩
  | .blUnpk g src => some ⟨g, 23, 7, src⟩
  | .blFlag g src => some ⟨g, 23, 8, src⟩
  | .logEntryWrite _ => none
  | .unpickEntry _ => none
  | .lnLnch g src => some ⟨g, 24, 4, src⟩
  | .lnQuit g src => some ⟨g, 24, 5, src⟩
  | .memberRetire _ => none
  | .ptLoad g src => some ⟨g, 25, 4, src⟩
  | .ptUnld g src => some ⟨g, 25, 5, src⟩
  | .ptQry g src => some ⟨g, 25, 6, src⟩
  | .ptStry g src => some ⟨g, 25, 7, src⟩
  | .ptClr g src => some ⟨g, 25, 8, src⟩
  | .xlSda g src => some ⟨g, 26, 4, src⟩
  | .xlSdk g src => some ⟨g, 26, 5, src⟩
  | .xlPrb g src => some ⟨g, 26, 6, src⟩
  | .shootdownComplete _ => none
  | .pwReq g src => some ⟨g, 27, 4, src⟩
  | .pwLim g src => some ⟨g, 27, 5, src⟩
  | .leaveGrant _ => none
  | .bundleBlock => none
  | .blockedBundleIssue _ => none
  | .resultLanding _ => none
  | .tileSequencerRow _ => none
  | .localAccessPerform _ => none
  | .lateralPerform _ _ => none
  | .lateralCompletion _ _ => none
  | .translationWalk _ => none
  | .windowExpiry _ => none
  | .faultDelivery _ => none
  | .stopRequest _ => none
  | .engineQuiesceComplete _ => none
  | .preemptionSave _ => none
  | .lateProducerSaveWrite _ => none
  | .selectionRound => none
  | .resumption _ => none
  | .recordAcceptance => none
  | .dependenceMet _ => none
  | .engineChunkComplete _ _ => none
  | .engineAccessFault _ _ => none
  | .packetHeaderArrival _ _ => none
  | .outputPortGrant _ _ => none
  | .vcCreditReturn _ _ => none
  | .circuitSlot _ => none
  | .flowPacketAccept _ _ => none
  | .emission _ _ => none
  | .creditReplyArrival _ _ => none
  | .deliverChunk _ _ => none
  | .npInjection _ => none
  | .patternValidate => none
  | .patternActivation _ => none
  | .patternRetirement _ => none
  | .reshardPhaseStart _ => none
  | .gatewayPacketForward _ => none
  | .pairDigestCompare _ => none
  | .linkFlitReceive _ => none
  | .linkResend _ => none
  | .retrainComplete _ => none
  | .counterAddPerformed _ => none
  | .counterWaitPerformed _ => none
  | .counterWaitResend _ => none
  | .requestTimeout _ => none
  | .barrierReport _ => none
  | .barrierPhaseUpdate _ => none
  | .podBarrierPacket _ => none
  | .goWordWrite _ _ _ _ => none
  | .controlBlockRegisterWrite _ _ _ => none
  | .registerWrite _ _ => none
  | .bootlenWrite _ => none
  | .bootVerifyDone => none
  | .modnWrite _ => none
  | .plimWrite _ => none
  | .svbaseWrite _ => none
  | .yelnakRead _ => none
  | .yelnakWrite _ => none
  | .yelnakLaunch _ => none
  | .yelnakCounterAdd _ => none
  | .yelnakCounterWait _ => none
  | .yelnakPatternLoad _ => none
  | .yelnakBlackBoxRead _ => none
  | .yelnakAttestation _ => none
  | .powerSample => none
  | .coldReset => none
  | .warmReset => none
  | .lossOfLock _ => none
  | .linkTrainingComplete _ => none
  | .ptCommandComplete _ => none
  | .blBastHomeDone _ => none
  | .membersStart _ => none

end Sys2Proof
end

