-- ==== Sys2Proof/WellFormed.lean ====
section
/-!
DEFINITION. The checks that make an instruction well formed: for a move, a guard that is not the empty-slot code
(R31, R32), an assigned port, a source code that is not reserved and a kind the port accepts (R33-R35, R47); for a
step without an encoding, item numbers in range (R9).
-/

namespace Sys2Proof

/-- The slot class in which a constructor's move stands. -/
def Instr.moveClass : Instr → Move → Class
  | .tileRowWrite _ _ _, _ => .tile
  | .wholeTileWrite _ _ _, _ => .tile
  | _, m => slotClass (firstSlot m.fu.toNat)

/-- R31-R35: a legal move of a slot class. -/
def Move.legal (c : Class) (m : Move) : Bool :=
  m.g ≠ 8 && c.accepts m.fu.toNat &&
  match destKind c m.fu.toNat m.port.toNat, srcOf m.src with
  | some dk, some sc => (match sc.kind with | some sk => kindAccepted sk dk | none => true)
  | _, _ => false

/-- The item numbers of a step without an encoding lie in the module's ranges (R9, R322). -/
def Instr.argsOk : Instr → Bool
  | .operandPortWrite _ _ _ _ => true
  | .scalarRegisterWrite _ _ _ => true
  | .guardWrite _ _ _ => true
  | .tileRowWrite _ _ _ => true
  | .wholeTileWrite _ _ _ => true
  | .saAdd _ _ _ => true
  | .saSub _ _ _ => true
  | .saAnd _ _ _ => true
  | .saOr _ _ _ => true
  | .saXor _ _ _ => true
  | .saAndn _ _ _ => true
  | .saShl _ _ _ => true
  | .saShr _ _ _ => true
  | .saSra _ _ _ => true
  | .saRotl _ _ _ => true
  | .saEq _ _ _ => true
  | .saNe _ _ _ => true
  | .saLt _ _ _ => true
  | .saLtu _ _ _ => true
  | .saLe _ _ _ => true
  | .saLeu _ _ _ => true
  | .saMin _ _ _ => true
  | .saMinu _ _ _ => true
  | .saMax _ _ _ => true
  | .saMaxu _ _ _ => true
  | .saSel _ _ _ => true
  | .saClz _ _ _ => true
  | .saCtz _ _ _ => true
  | .saPopc _ _ _ => true
  | .saSxt _ _ _ => true
  | .saLea _ _ _ => true
  | .smMul _ _ => true
  | .smMulh _ _ => true
  | .smMulhu _ _ => true
  | .smDiv _ _ => true
  | .smDivu _ _ => true
  | .smRem _ _ => true
  | .smRemu _ _ => true
  | .brJmp _ _ => true
  | .brCall _ _ => true
  | .brRet _ _ => true
  | .brJrel _ _ => true
  | .lpLoop _ _ => true
  | .lpBrk _ _ => true
  | .lpCnt _ _ => true
  | .backEdgeAction n => decide (n < 4096)
  | .cxRd _ _ => true
  | .cxWr _ _ => true
  | .cxFmt _ _ => true
  | .cxFlg _ _ => true
  | .fmtShadowExpiry n => decide (n < 4096)
  | .ctAdd _ _ => true
  | .ctWait _ _ => true
  | .ctOwait _ _ => true
  | .ctTwait _ _ => true
  | .ctArv _ _ => true
  | .ctBwt _ _ => true
  | .ctBcfg _ _ => true
  | .syTrap _ _ => true
  | .syRfe _ _ => true
  | .syStop _ _ => true
  | .syRel _ _ => true
  | .sySnap _ _ => true
  | .lsLds _ _ => true
  | .lsSts _ _ => true
  | .lsLdr _ _ => true
  | .lsStr _ _ => true
  | .lsLdt _ _ => true
  | .lsStt _ _ => true
  | .lsLdp _ _ => true
  | .lsStp _ _ => true
  | .lsLat _ _ => true
  | .atSwap _ _ => true
  | .atCas _ _ => true
  | .atAdd _ _ => true
  | .atAnd _ _ => true
  | .atOr _ _ => true
  | .atXor _ _ => true
  | .atMin _ _ => true
  | .atMax _ _ => true
  | .atMinu _ _ => true
  | .atMaxu _ _ => true
  | .atAaddx _ _ => true
  | .taFadd _ _ _ => true
  | .taFsub _ _ _ => true
  | .taFmul _ _ _ => true
  | .taFma _ _ _ => true
  | .taFmax _ _ _ => true
  | .taFmin _ _ _ => true
  | .taFcmp _ _ _ => true
  | .taIadd _ _ _ => true
  | .taIsub _ _ _ => true
  | .taImul _ _ _ => true
  | .taImin _ _ _ => true
  | .taImax _ _ _ => true
  | .taAnd _ _ _ => true
  | .taOr _ _ _ => true
  | .taXor _ _ _ => true
  | .taShl _ _ _ => true
  | .taShr _ _ _ => true
  | .taSra _ _ _ => true
  | .taIcmp _ _ _ => true
  | .taSel _ _ _ => true
  | .taFaddt _ _ _ => true
  | .taFsubt _ _ _ => true
  | .taFmult _ _ _ => true
  | .taFmaxt _ _ _ => true
  | .txCvt _ _ => true
  | .txQnt _ _ => true
  | .txDqnt _ _ => true
  | .txExp _ _ => true
  | .txLog _ _ => true
  | .txRcp _ _ => true
  | .txRsq _ _ => true
  | .txSqrt _ _ => true
  | .txTanh _ _ => true
  | .txSigm _ _ => true
  | .txErf _ _ => true
  | .tsPerm _ _ => true
  | .tsXpose _ _ => true
  | .tsRsum _ _ => true
  | .tsRmax _ _ => true
  | .tsRmin _ _ => true
  | .tsAmax _ _ => true
  | .tsScan _ _ => true
  | .tsSmax _ _ => true
  | .tsMask _ _ => true
  | .tsBias _ _ => true
  | .mxCall _ _ => true
  | .mxMld _ _ => true
  | .mxParm _ _ => true
  | .scXld _ _ => true
  | .scXadd _ _ => true
  | .stepOperandRead c => decide (c < 1024)
  | .latchSample c => decide (c < 1024)
  | .stepCommit c => decide (c < 1024)
  | .ceGo _ _ => true
  | .ceCmp _ _ => true
  | .geGo _ _ => true
  | .geSkg _ _ => true
  | .weGo _ _ => true
  | .rsGo _ _ => true
  | .rsQry _ _ => true
  | .npSend _ _ => true
  | .npRow _ _ => true
  | .cbSet _ _ => true
  | .cbAdv _ _ => true
  | .cbRel _ _ => true
  | .cbQry _ _ => true
  | .cbAdvPpAdvance n => decide (n < 4096)
  | .skOpen _ _ => true
  | .skRes _ _ => true
  | .skCmt _ _ => true
  | .skFork _ _ => true
  | .skRel _ _ => true
  | .skLen _ _ => true
  | .skPidx _ _ => true
  | .skPins _ _ => true
  | .skCmpt _ _ => true
  | .skResWindowGrant _ => true
  | .skCommandComplete n => decide (n < 4096)
  | .blBast _ _ => true
  | .blBstop _ _ => true
  | .blMark _ _ => true
  | .blUnpk _ _ => true
  | .blFlag _ _ => true
  | .logEntryWrite n => decide (n < 4096)
  | .unpickEntry n => decide (n < 4096)
  | .lnLnch _ _ => true
  | .lnQuit _ _ => true
  | .memberRetire n => decide (n < 4096)
  | .ptLoad _ _ => true
  | .ptUnld _ _ => true
  | .ptQry _ _ => true
  | .ptStry _ _ => true
  | .ptClr _ _ => true
  | .xlSda _ _ => true
  | .xlSdk _ _ => true
  | .xlPrb _ _ => true
  | .shootdownComplete n => decide (n < 4096)
  | .pwReq _ _ => true
  | .pwLim _ _ => true
  | .leaveGrant d => decide (d < 4)
  | .bundleBlock => true
  | .blockedBundleIssue n => decide (n < 4096)
  | .resultLanding n => decide (n < 4096)
  | .tileSequencerRow n => decide (n < 4096)
  | .localAccessPerform c => decide (c < 1024)
  | .lateralPerform n _ => decide (n < 4096)
  | .lateralCompletion n _ => decide (n < 4096)
  | .translationWalk n => decide (n < 4096)
  | .windowExpiry c => decide (c < 1024)
  | .faultDelivery n => decide (n < 4096)
  | .stopRequest n => decide (n < 4096)
  | .engineQuiesceComplete n => decide (n < 4096)
  | .preemptionSave _ => true
  | .lateProducerSaveWrite _ => true
  | .selectionRound => true
  | .resumption _ => true
  | .recordAcceptance => true
  | .dependenceMet _ => true
  | .engineChunkComplete n fu => decide (n < 4096) && decide (fu ≤ 26)
  | .engineAccessFault n fu => decide (n < 4096) && decide (fu ≤ 26)
  | .packetHeaderArrival _ _ => true
  | .outputPortGrant _ _ => true
  | .vcCreditReturn _ _ => true
  | .circuitSlot _ => true
  | .flowPacketAccept _ _ => true
  | .emission _ _ => true
  | .creditReplyArrival _ _ => true
  | .deliverChunk _ _ => true
  | .npInjection n => decide (n < 4096)
  | .patternValidate => true
  | .patternActivation _ => true
  | .patternRetirement _ => true
  | .reshardPhaseStart _ => true
  | .gatewayPacketForward _ => true
  | .pairDigestCompare k => decide (k < 64)
  | .linkFlitReceive l => decide (l < 49)
  | .linkResend l => decide (l < 49)
  | .retrainComplete l => decide (l < 49)
  | .counterAddPerformed _ => true
  | .counterWaitPerformed _ => true
  | .counterWaitResend _ => true
  | .requestTimeout _ => true
  | .barrierReport _ => true
  | .barrierPhaseUpdate _ => true
  | .podBarrierPacket _ => true
  | .goWordWrite n fu port _ => decide (n < 4096) && decide (fu ≤ 26) && decide (port ≤ 5)
  | .controlBlockRegisterWrite n no _ => decide (n < 4096) && decide (no ≤ 34)
  | .registerWrite _ _ => true
  | .bootlenWrite _ => true
  | .bootVerifyDone => true
  | .modnWrite _ => true
  | .plimWrite _ => true
  | .svbaseWrite _ => true
  | .yelnakRead _ => true
  | .yelnakWrite _ => true
  | .yelnakLaunch _ => true
  | .yelnakCounterAdd _ => true
  | .yelnakCounterWait _ => true
  | .yelnakPatternLoad _ => true
  | .yelnakBlackBoxRead _ => true
  | .yelnakAttestation _ => true
  | .powerSample => true
  | .coldReset => true
  | .warmReset => true
  | .lossOfLock l => decide (l < 49)
  | .linkTrainingComplete l => decide (l < 49)
  | .ptCommandComplete n => decide (n < 4096)
  | .blBastHomeDone n => decide (n < 4096)
  | .membersStart _ => true

/-- A well-formed instruction. An operand-port write never names FU 31, whose ports 0-3 are registers (R33). -/
def Instr.wellFormed (i : Instr) : Bool :=
  i.argsOk &&
  match i.move with
  | some m => m.legal (i.moveClass m) && (match i with | .operandPortWrite _ f _ _ => decide (f ≠ 31) | _ => true)
  | none => true

end Sys2Proof
end

