-- ==== Sys2Proof/Decode.lean ====
section
/-!
DEFINITION. The decoder of moves and bundles, total on any bytes and rejecting by name (R29-R35, R47), and after it
the encoder.
-/

namespace Sys2Proof

/-- Why a slot or a bundle is refused; each is one cause of R47. -/
inductive DecodeError where
  | reservedUnit | wrongClass | unassignedPort | reservedSource | kindRefused | scalarMask | tileMask | broadcast
  | rowNumber | headerBit | emptyNonzero | sameDestination
  deriving DecidableEq, Repr

/-- The cause number of R47. -/
def DecodeError.cause : DecodeError → Nat
  | .reservedUnit => 1 | .wrongClass => 2 | .unassignedPort => 3 | .reservedSource => 4 | .kindRefused => 5
  | .scalarMask => 6 | .tileMask => 7 | .broadcast => 8 | .rowNumber => 9 | .headerBit => 10 | .emptyNonzero => 11
  | .sameDestination => 12

/-- Triggers of SA by port. -/
def triggerSA (port : Nat) (g : BitVec 4) (u : BitVec 1) (src : BitVec 9) : Option Instr :=
  match port with
  | 4 => some (.saAdd g u src)
  | 5 => some (.saSub g u src)
  | 6 => some (.saAnd g u src)
  | 7 => some (.saOr g u src)
  | 8 => some (.saXor g u src)
  | 9 => some (.saAndn g u src)
  | 10 => some (.saShl g u src)
  | 11 => some (.saShr g u src)
  | 12 => some (.saSra g u src)
  | 13 => some (.saRotl g u src)
  | 14 => some (.saEq g u src)
  | 15 => some (.saNe g u src)
  | 16 => some (.saLt g u src)
  | 17 => some (.saLtu g u src)
  | 18 => some (.saLe g u src)
  | 19 => some (.saLeu g u src)
  | 20 => some (.saMin g u src)
  | 21 => some (.saMinu g u src)
  | 22 => some (.saMax g u src)
  | 23 => some (.saMaxu g u src)
  | 24 => some (.saSel g u src)
  | 25 => some (.saClz g u src)
  | 26 => some (.saCtz g u src)
  | 27 => some (.saPopc g u src)
  | 28 => some (.saSxt g u src)
  | 29 => some (.saLea g u src)
  | _ => none

/-- Triggers of SM by port. -/
def triggerSM (port : Nat) (g : BitVec 4) (src : BitVec 9) : Option Instr :=
  match port with
  | 4 => some (.smMul g src)
  | 5 => some (.smMulh g src)
  | 6 => some (.smMulhu g src)
  | 7 => some (.smDiv g src)
  | 8 => some (.smDivu g src)
  | 9 => some (.smRem g src)
  | 10 => some (.smRemu g src)
  | _ => none

/-- Triggers of BR by port. -/
def triggerBR (port : Nat) (g : BitVec 4) (src : BitVec 9) : Option Instr :=
  match port with
  | 4 => some (.brJmp g src)
  | 5 => some (.brCall g src)
  | 6 => some (.brRet g src)
  | 7 => some (.brJrel g src)
  | _ => none

/-- Triggers of LP by port. -/
def triggerLP (port : Nat) (g : BitVec 4) (src : BitVec 9) : Option Instr :=
  match port with
  | 4 => some (.lpLoop g src)
  | 5 => some (.lpBrk g src)
  | 6 => some (.lpCnt g src)
  | _ => none

/-- Triggers of CX by port. -/
def triggerCX (port : Nat) (g : BitVec 4) (src : BitVec 9) : Option Instr :=
  match port with
  | 4 => some (.cxRd g src)
  | 5 => some (.cxWr g src)
  | 6 => some (.cxFmt g src)
  | 7 => some (.cxFlg g src)
  | _ => none

/-- Triggers of CT by port. -/
def triggerCT (port : Nat) (g : BitVec 4) (src : BitVec 9) : Option Instr :=
  match port with
  | 4 => some (.ctAdd g src)
  | 5 => some (.ctWait g src)
  | 6 => some (.ctOwait g src)
  | 7 => some (.ctTwait g src)
  | 8 => some (.ctArv g src)
  | 9 => some (.ctBwt g src)
  | 10 => some (.ctBcfg g src)
  | _ => none

/-- Triggers of SY by port. -/
def triggerSY (port : Nat) (g : BitVec 4) (src : BitVec 9) : Option Instr :=
  match port with
  | 4 => some (.syTrap g src)
  | 5 => some (.syRfe g src)
  | 6 => some (.syStop g src)
  | 7 => some (.syRel g src)
  | 8 => some (.sySnap g src)
  | _ => none

/-- Triggers of LS by port. -/
def triggerLS (port : Nat) (g : BitVec 4) (src : BitVec 9) : Option Instr :=
  match port with
  | 4 => some (.lsLds g src)
  | 5 => some (.lsSts g src)
  | 6 => some (.lsLdr g src)
  | 7 => some (.lsStr g src)
  | 8 => some (.lsLdt g src)
  | 9 => some (.lsStt g src)
  | 10 => some (.lsLdp g src)
  | 11 => some (.lsStp g src)
  | 12 => some (.lsLat g src)
  | _ => none

/-- Triggers of AT by port. -/
def triggerAT (port : Nat) (g : BitVec 4) (src : BitVec 9) : Option Instr :=
  match port with
  | 4 => some (.atSwap g src)
  | 5 => some (.atCas g src)
  | 6 => some (.atAdd g src)
  | 7 => some (.atAnd g src)
  | 8 => some (.atOr g src)
  | 9 => some (.atXor g src)
  | 10 => some (.atMin g src)
  | 11 => some (.atMax g src)
  | 12 => some (.atMinu g src)
  | 13 => some (.atMaxu g src)
  | 14 => some (.atAaddx g src)
  | _ => none

/-- Triggers of TA by port. -/
def triggerTA (port : Nat) (g : BitVec 4) (u : BitVec 1) (src : BitVec 9) : Option Instr :=
  match port with
  | 4 => some (.taFadd g u src)
  | 5 => some (.taFsub g u src)
  | 6 => some (.taFmul g u src)
  | 7 => some (.taFma g u src)
  | 8 => some (.taFmax g u src)
  | 9 => some (.taFmin g u src)
  | 10 => some (.taFcmp g u src)
  | 11 => some (.taIadd g u src)
  | 12 => some (.taIsub g u src)
  | 13 => some (.taImul g u src)
  | 14 => some (.taImin g u src)
  | 15 => some (.taImax g u src)
  | 16 => some (.taAnd g u src)
  | 17 => some (.taOr g u src)
  | 18 => some (.taXor g u src)
  | 19 => some (.taShl g u src)
  | 20 => some (.taShr g u src)
  | 21 => some (.taSra g u src)
  | 22 => some (.taIcmp g u src)
  | 23 => some (.taSel g u src)
  | 24 => some (.taFaddt g u src)
  | 25 => some (.taFsubt g u src)
  | 26 => some (.taFmult g u src)
  | 27 => some (.taFmaxt g u src)
  | _ => none

/-- Triggers of TX by port. -/
def triggerTX (port : Nat) (g : BitVec 4) (src : BitVec 9) : Option Instr :=
  match port with
  | 4 => some (.txCvt g src)
  | 5 => some (.txQnt g src)
  | 6 => some (.txDqnt g src)
  | 7 => some (.txExp g src)
  | 8 => some (.txLog g src)
  | 9 => some (.txRcp g src)
  | 10 => some (.txRsq g src)
  | 11 => some (.txSqrt g src)
  | 12 => some (.txTanh g src)
  | 13 => some (.txSigm g src)
  | 14 => some (.txErf g src)
  | _ => none

/-- Triggers of TS by port. -/
def triggerTS (port : Nat) (g : BitVec 4) (src : BitVec 9) : Option Instr :=
  match port with
  | 4 => some (.tsPerm g src)
  | 5 => some (.tsXpose g src)
  | 6 => some (.tsRsum g src)
  | 7 => some (.tsRmax g src)
  | 8 => some (.tsRmin g src)
  | 9 => some (.tsAmax g src)
  | 10 => some (.tsScan g src)
  | 11 => some (.tsSmax g src)
  | 12 => some (.tsMask g src)
  | 13 => some (.tsBias g src)
  | _ => none

/-- Triggers of MX by port. -/
def triggerMX (port : Nat) (g : BitVec 4) (src : BitVec 9) : Option Instr :=
  match port with
  | 4 => some (.mxCall g src)
  | 5 => some (.mxMld g src)
  | 6 => some (.mxParm g src)
  | _ => none

/-- Triggers of SC by port. -/
def triggerSC (port : Nat) (g : BitVec 4) (src : BitVec 9) : Option Instr :=
  match port with
  | 4 => some (.scXld g src)
  | 5 => some (.scXadd g src)
  | _ => none

/-- Triggers of CE by port (R263). -/
def triggerCE (port : Nat) (g : BitVec 4) (src : BitVec 9) : Option Instr :=
  match port with
  | 4 => some (.ceGo g src)
  | 5 => some (.ceCmp g src)
  | _ => none

/-- Triggers of GE by port (R263). -/
def triggerGE (port : Nat) (g : BitVec 4) (src : BitVec 9) : Option Instr :=
  match port with
  | 4 => some (.geGo g src)
  | 5 => some (.geSkg g src)
  | _ => none

/-- Triggers of WE by port (R263). -/
def triggerWE (port : Nat) (g : BitVec 4) (src : BitVec 9) : Option Instr :=
  match port with
  | 4 => some (.weGo g src)
  | _ => none

/-- Triggers of RS by port (R263). -/
def triggerRS (port : Nat) (g : BitVec 4) (src : BitVec 9) : Option Instr :=
  match port with
  | 4 => some (.rsGo g src)
  | 5 => some (.rsQry g src)
  | _ => none

/-- Triggers of NP by port. -/
def triggerNP (port : Nat) (g : BitVec 4) (src : BitVec 9) : Option Instr :=
  match port with
  | 4 => some (.npSend g src)
  | 5 => some (.npRow g src)
  | _ => none

/-- Triggers of CB by port (R263). -/
def triggerCB (port : Nat) (g : BitVec 4) (src : BitVec 9) : Option Instr :=
  match port with
  | 4 => some (.cbSet g src)
  | 5 => some (.cbAdv g src)
  | 6 => some (.cbRel g src)
  | 7 => some (.cbQry g src)
  | _ => none

/-- Triggers of SK by port. -/
def triggerSK (port : Nat) (g : BitVec 4) (src : BitVec 9) : Option Instr :=
  match port with
  | 4 => some (.skOpen g src)
  | 5 => some (.skRes g src)
  | 6 => some (.skCmt g src)
  | 7 => some (.skFork g src)
  | 8 => some (.skRel g src)
  | 9 => some (.skLen g src)
  | 10 => some (.skPidx g src)
  | 11 => some (.skPins g src)
  | 12 => some (.skCmpt g src)
  | _ => none

/-- Triggers of BL by port. -/
def triggerBL (port : Nat) (g : BitVec 4) (src : BitVec 9) : Option Instr :=
  match port with
  | 4 => some (.blBast g src)
  | 5 => some (.blBstop g src)
  | 6 => some (.blMark g src)
  | 7 => some (.blUnpk g src)
  | 8 => some (.blFlag g src)
  | _ => none

/-- Triggers of LN by port. -/
def triggerLN (port : Nat) (g : BitVec 4) (src : BitVec 9) : Option Instr :=
  match port with
  | 4 => some (.lnLnch g src)
  | 5 => some (.lnQuit g src)
  | _ => none

/-- Triggers of PT by port. -/
def triggerPT (port : Nat) (g : BitVec 4) (src : BitVec 9) : Option Instr :=
  match port with
  | 4 => some (.ptLoad g src)
  | 5 => some (.ptUnld g src)
  | 6 => some (.ptQry g src)
  | 7 => some (.ptStry g src)
  | 8 => some (.ptClr g src)
  | _ => none

/-- Triggers of XL by port. -/
def triggerXL (port : Nat) (g : BitVec 4) (src : BitVec 9) : Option Instr :=
  match port with
  | 4 => some (.xlSda g src)
  | 5 => some (.xlSdk g src)
  | 6 => some (.xlPrb g src)
  | _ => none

/-- Triggers of PW by port. -/
def triggerPW (port : Nat) (g : BitVec 4) (src : BitVec 9) : Option Instr :=
  match port with
  | 4 => some (.pwReq g src)
  | 5 => some (.pwLim g src)
  | _ => none

/-- The trigger of unit `m.fu` at port `m.port`. -/
def decodeTrigger (m : Move) : Option Instr :=
  let p := m.port.toNat
  match m.fu.toNat with
  | 0 => triggerSA p m.g 0 m.src
  | 1 => triggerSA p m.g 1 m.src
  | 2 => triggerSM p m.g m.src
  | 3 => triggerBR p m.g m.src
  | 4 => triggerLP p m.g m.src
  | 5 => triggerCX p m.g m.src
  | 6 => triggerCT p m.g m.src
  | 7 => triggerSY p m.g m.src
  | 8 => triggerLS p m.g m.src
  | 9 => triggerAT p m.g m.src
  | 10 => triggerTA p m.g 0 m.src
  | 11 => triggerTA p m.g 1 m.src
  | 12 => triggerTX p m.g m.src
  | 13 => triggerTS p m.g m.src
  | 14 => triggerMX p m.g m.src
  | 15 => triggerSC p m.g m.src
  | 16 => triggerCE p m.g m.src
  | 17 => triggerGE p m.g m.src
  | 18 => triggerWE p m.g m.src
  | 19 => triggerRS p m.g m.src
  | 20 => triggerNP p m.g m.src
  | 21 => triggerCB p m.g m.src
  | 22 => triggerSK p m.g m.src
  | 23 => triggerBL p m.g m.src
  | 24 => triggerLN p m.g m.src
  | 25 => triggerPT p m.g m.src
  | 26 => triggerXL p m.g m.src
  | 27 => triggerPW p m.g m.src
  | _ => none
/-- The register write that FU 31 performs at a port in a slot class (R33). -/
def decodeRegister (c : Class) (m : Move) : Option Instr :=
  match c with
  | .scalar | .control =>
    if m.port.toNat < 32 then some (.scalarRegisterWrite m.g (m.port.extractLsb' 0 5) m.src)
    else if m.port.toNat < 40 then some (.guardWrite m.g (m.port.extractLsb' 0 3) m.src)
    else none
  | .tile =>
    if m.port.toNat < 16 then some (.tileRowWrite m.g (m.port.extractLsb' 0 4) m.src)
    else if m.port.toNat < 32 then some (.wholeTileWrite m.g (m.port.extractLsb' 0 4) m.src)
    else none
  | _ => none

/-- The operation of a legal move in a slot class. -/
def decodeOp (c : Class) (m : Move) : Option Instr :=
  if m.fu = 31 then decodeRegister c m
  else if m.port.toNat < 4 then some (.operandPortWrite m.g m.fu (m.port.extractLsb' 0 2) m.src)
  else decodeTrigger m

/-- Decode slot `k`: none for an empty slot (R32), else the instruction, or the lowest cause of R47 that the slot
alone shows. -/
def decodeSlot (k : Nat) (w : BitVec 24) : Except DecodeError (Option Instr) :=
  let m := Move.ofWord w
  if w = emptySlot then .ok none
  else if m.g = 8 then .error .emptyNonzero
  else if 28 ≤ m.fu.toNat && m.fu.toNat ≤ 30 then .error .reservedUnit
  else if !(slotClass k).accepts m.fu.toNat then .error .wrongClass
  else match destKind (slotClass k) m.fu.toNat m.port.toNat, srcOf m.src with
    | none, _ => .error .unassignedPort
    | some _, none => .error .reservedSource
    | some dk, some sc =>
      match sc.kind with
      | some sk => if kindAccepted sk dk then
            (match decodeOp (slotClass k) m with | some i => .ok (some i) | none => .error .unassignedPort)
          else .error .kindRefused
      | none => (match decodeOp (slotClass k) m with | some i => .ok (some i) | none => .error .unassignedPort)

/-! ## Bundles -/

/-- Little-endian number of a byte list (R3). -/
def leNat : List Byte → Nat
  | [] => 0
  | b :: bs => b.toNat + 256 * leNat bs

/-- A bundle's header and slots from its 32 bytes (R29). -/
def bundleOfNat (n : Nat) : Word × List (BitVec 24) :=
  (BitVec.ofNat 64 n, (List.range 8).map fun k => BitVec.ofNat 24 (n >>> (64 + 24 * k)))

/-- Does cause `e` of R47 hold in slot `k` (causes 1-5, 8, 9, 11)? DESIGN CHOICE (log 51): a slot with GUARD 0b1000 and
another field nonzero shows cause 11 alone, and counts as empty for causes 6, 7 and 12, whatever its other fields name. -/
def slotHas (hdr : Word) (e : DecodeError) (k : Nat) (w : BitVec 24) : Bool :=
  let m := Move.ofWord w
  if w = emptySlot then (e = .rowNumber && k = 4 && hdr.extractLsb' 57 3 ≠ 0)
    || (e = .rowNumber && k = 5 && hdr.extractLsb' 60 3 ≠ 0)
  else match e with
  | .emptyNonzero => m.g = 8
  | .reservedUnit => m.g ≠ 8 && 28 ≤ m.fu.toNat && m.fu.toNat ≤ 30
  | .wrongClass => m.g ≠ 8 && !(28 ≤ m.fu.toNat && m.fu.toNat ≤ 30) && !(slotClass k).accepts m.fu.toNat
  | .unassignedPort => m.g ≠ 8 && (slotClass k).accepts m.fu.toNat
      && (destKind (slotClass k) m.fu.toNat m.port.toNat).isNone
  | .reservedSource => m.g ≠ 8 && (srcOf m.src).isNone
  | .kindRefused =>
      m.g ≠ 8 && (match destKind (slotClass k) m.fu.toNat m.port.toNat, (srcOf m.src).bind Src.kind with
        | some dk, some sk => !kindAccepted sk dk
        | _, _ => false)
  | .broadcast => m.g ≠ 8 && m.src = 0x22 && (k ≠ 4 && k ≠ 5 || !hdr.getLsbD 53)
  | .rowNumber =>
      let oneRow := m.g ≠ 8 && m.fu = 31 && m.port.toNat < 16
      (k = 4 && hdr.extractLsb' 57 3 ≠ 0 && !oneRow) || (k = 5 && hdr.extractLsb' 60 3 ≠ 0 && !oneRow)
  | _ => false

/-- A non-empty slot's move. -/
def slotMove (w : BitVec 24) : Option Move :=
  if (Move.ofWord w).g = 8 then none else some (Move.ofWord w)

/-- The mask of slots whose source satisfies `p`. -/
def sourceMask (p : BitVec 9 → Bool) : List (BitVec 24) → Nat → Nat
  | [], _ => 0
  | w :: ws, k =>
    (match slotMove w with
     | some m => if p m.src then 2 ^ k else 0
     | none => 0) + sourceMask p ws (k + 1)

/-- Number of 1 bits among the low `n` bits. -/
def popCount (v : Nat) : Nat → Nat
  | 0 => 0
  | n + 1 => (if v.testBit n then 1 else 0) + popCount v n

/-- A guard code and its complement for the same register n = 1-7 (R47 cause 12, R48). -/
def complementary (a b : BitVec 4) : Bool := a ^^^ b = 8 && a ≠ 0 && a ≠ 8

/-- Two non-empty slots that cause 12 of R47 refuses. -/
def clash (ka : Nat) (a : Move) (kb : Nat) (b : Move) : Bool :=
  let sameReg := a.fu = 31 && b.fu = 31 &&
    (if slotClass ka = .tile && slotClass kb = .tile then a.port.toNat % 16 = b.port.toNat % 16
     else a.port = b.port && (slotClass ka = .tile) = (slotClass kb = .tile))
  let samePort := a.fu ≠ 31 && a.fu = b.fu && (a.port = b.port || (4 ≤ a.port.toNat && 4 ≤ b.port.toNat))
  (sameReg || samePort) && !complementary a.g b.g

/-- The non-empty moves of a bundle with their slot numbers. -/
def numbered : List (BitVec 24) → Nat → List (Nat × Move)
  | [], _ => []
  | w :: ws, k => (match slotMove w with | some m => [(k, m)] | none => []) ++ numbered ws (k + 1)

/-- The lowest slot that clashes with another slot of the bundle. -/
def firstClash : List (Nat × Move) → Option Nat
  | [] => none
  | (k, a) :: ms => if ms.any (fun b => clash k a b.1 b.2) then some k else firstClash ms

/-- The lowest slot in which a slot cause holds. -/
def firstSlotWith (hdr : Word) (e : DecodeError) : List (BitVec 24) → Nat → Option Nat
  | [], _ => none
  | w :: ws, k => if slotHas hdr e k w then some k else firstSlotWith hdr e ws (k + 1)

/-- The lowest slot where two masks of slots differ, 0 where they agree. -/
def lowestDiff (a b : Nat) : Nat → Nat
  | 0 => 0
  | n + 1 => if a.testBit (7 - n) ≠ b.testBit (7 - n) then 7 - n else lowestDiff a b n

/-- The lowest slot in which a cause of R47 holds, or none. For a mask cause it is the lowest slot whose bit is
wrong, or of a marked slot where only the count is too high; for a header cause 0. -/
def causeSlot (hdr : Word) (ws : List (BitVec 24)) (e : DecodeError) : Option Nat :=
  match e with
  | .scalarMask =>
      let want := sourceMask (fun c => decide (c.toNat < 0x20)) ws 0
      let got := (hdr.extractLsb' 32 8).toNat
      if want ≠ got then some (lowestDiff want got 8)
      else if popCount got 8 > 4 then some (lowestDiff got 0 8) else none
  | .tileMask =>
      let want := sourceMask (fun c => decide (0x100 ≤ c.toNat ∧ c.toNat < 0x190)) ws 0
      let got := (hdr.extractLsb' 40 8).toNat
      if want ≠ got then some (lowestDiff want got 8)
      else if popCount got 8 > 4 then some (lowestDiff got 0 8) else none
  | .broadcast =>
      let used := sourceMask (fun c => c = 0x22) ws 0 ≠ 0
      match firstSlotWith hdr e ws 0 with
      | some k => some k
      | none => if (hdr.getLsbD 53 && !used) || (!hdr.getLsbD 53 && hdr.extractLsb' 48 5 ≠ 0) then some 0 else none
  | .headerBit => if hdr.getLsbD 63 then some 0 else none
  | .sameDestination => firstClash (numbered ws 0)
  | e => firstSlotWith hdr e ws 0

/-- The causes in ascending number (R47). -/
def allCauses : List DecodeError :=
  [.reservedUnit, .wrongClass, .unassignedPort, .reservedSource, .kindRefused, .scalarMask, .tileMask, .broadcast,
   .rowNumber, .headerBit, .emptyNonzero, .sameDestination]

/-- The first cause of a list that holds, with its slot. -/
def firstCause (hdr : Word) (ws : List (BitVec 24)) : List DecodeError → Option (DecodeError × Nat)
  | [] => none
  | e :: es => match causeSlot hdr ws e with
    | some k => some (e, k)
    | none => firstCause hdr ws es

/-- The lowest cause of R47 that holds in a bundle, with the lowest slot in which it holds. -/
def illegal (hdr : Word) (ws : List (BitVec 24)) : Option (DecodeError × Nat) := firstCause hdr ws allCauses

/-- The instructions of a legal bundle's non-empty slots. -/
def bundleInstrs : List (BitVec 24) → Nat → List (Nat × Instr)
  | [], _ => []
  | w :: ws, k => (match decodeSlot k w with | .ok (some i) => [(k, i)] | _ => []) ++ bundleInstrs ws (k + 1)

/-- The slot in which a single move is read: by its unit, and for FU 31 by the kind of its source (log 14). -/
def slotFor (m : Move) : Nat :=
  if m.fu = 31 then
    (match (srcOf m.src).bind Src.kind with
     | some .r | some .t => 4
     | _ => 0)
  else firstSlot m.fu.toNat

/-- The instruction of a table word: a 24-bit move in the first slot that takes it. -/
def decodeTableWord (nbits w : Nat) : Option Instr :=
  if nbits = 24 ∧ w < 2 ^ 24 then
    match decodeSlot (slotFor (Move.ofWord (BitVec.ofNat 24 w))) (BitVec.ofNat 24 w) with
    | .ok i => i
    | .error _ => none
  else none

/-! ## Encoder -/

/-- The 24-bit word of a move instruction (R31); none for a step without an encoding. -/
def encode (i : Instr) : Option (BitVec 24) := i.move.map Move.word

/-- The slot in which an encoded instruction is read: 4 for tile-register writes, else the unit's first slot. -/
def slotOf (i : Instr) : Nat :=
  match i with
  | .tileRowWrite _ _ _ => 4
  | .wholeTileWrite _ _ _ => 4
  | i => match i.move with
    | some m => if m.fu = 31 then 0 else firstSlot m.fu.toNat
    | none => 0

/-- The header of a bundle whose only move is `m` in slot `k`: SRM, TRM and, for the broadcast, BCV (R30). -/
def headerFor (k : Nat) (m : Move) : Word :=
  if m.src.toNat < 0x20 then BitVec.ofNat 64 (2 ^ (32 + k))
  else if 0x100 ≤ m.src.toNat ∧ m.src.toNat < 0x190 then BitVec.ofNat 64 (2 ^ (40 + k))
  else if m.src = 0x22 then BitVec.ofNat 64 (2 ^ 53)
  else 0

/-- The 256 bits of a bundle that holds one word in slot `k` (R29). -/
def bundleNat (hdr : Word) (k : Nat) (w : BitVec 24) : Nat :=
  hdr.toNat + (List.range 8).foldl
    (fun a j => a + (if j = k then w.toNat else emptySlot.toNat) * 2 ^ (64 + 24 * j)) 0

end Sys2Proof
end

