-- ==== Sys2Proof/Machine/Bits.lean ====
section
/-!
DEFINITION. Bit fields, byte order, lanes of a row, rows of a tile, and the byte memory. Every multi-byte value is
little-endian (R3); a lane, a row and a tile lie as R120 gives.
-/

namespace Sys2Proof.Machine

/-! ## Bit fields -/

/-- Bits [lo + len - 1 : lo] of a number. -/
def bits (v lo len : Nat) : Nat := (v >>> lo) % 2 ^ len

/-- Bits [lo + len - 1 : lo] of a word. -/
def fld (w : Word) (lo len : Nat) : Nat := bits w.toNat lo len

/-- The number of 64 bits. -/
def w64 (n : Nat) : Word := BitVec.ofNat 64 n

/-- 1 for true, as a word. -/
def wBool (b : Bool) : Word := if b then 1 else 0

/-- The smaller of a list's numbers, `d` where it is empty. -/
def listMin (d : Nat) (l : List Nat) : Nat := l.foldl min d

/-- The larger of a list's numbers, 0 where it is empty. -/
def listMax (l : List Nat) : Nat := l.foldl max 0

/-- The sum of a list's numbers. -/
def listSum (l : List Nat) : Nat := l.foldl (· + ·) 0

/-- `n` divided by `d`, rounded up. -/
def ceilDiv (n d : Nat) : Nat := (n + d - 1) / d

/-- Replace the elements that satisfy `p`. -/
def listUpd {α : Type} (p : α → Bool) (f : α → α) (l : List α) : List α := l.map fun x => if p x then f x else x

/-- Bits [lo + len - 1 : lo] of `w` replaced by the low bits of `v`. -/
def setFld (w : Word) (lo len v : Nat) : Word :=
  let msk := (2 ^ len - 1) <<< lo
  w64 ((w.toNat ^^^ (w.toNat &&& msk)) ||| ((v % 2 ^ len) <<< lo))

/-! ## Two's complement -/

/-- The signed reading of the low `n` bits of `v` (R72). -/
def sint (n v : Nat) : Int := let x := v % 2 ^ n; if 2 * x < 2 ^ n then (x : Int) else (x : Int) - (2 ^ n : Nat)

/-- An integer modulo 2^n. -/
def wrap (n : Nat) (i : Int) : Nat := (i % ((2 ^ n : Nat) : Int)).toNat

/-- The low `n` bits of `v` sign-extended into a field of `m` bits. -/
def sext (n m v : Nat) : Nat := wrap m (sint n v)

/-! ## Lanes, rows and tiles -/

/-- Lane `i` of a row (R120). -/
def lane (r : Row) (i : Nat) : BitVec 32 := BitVec.ofNat 32 (r.toNat >>> (32 * i))

/-- The number whose `n` fields of `w` bits are `f 0`, `f 1`, …, from the lowest. -/
def packNat (w : Nat) (f : Nat → Nat) : Nat → Nat
  | 0 => 0
  | n + 1 => packNat w f n + (f n % 2 ^ w) <<< (w * n)

/-- The row whose lane `i` is `f i`. -/
def rowOf (f : Nat → BitVec 32) : Row := BitVec.ofNat 2048 (packNat 32 (fun i => (f i).toNat) 64)

/-- The row with one value in every lane (R35). -/
def rowFill (v : BitVec 32) : Row := rowOf fun _ => v

/-- Row `k` of a tile (R120). -/
def tileRow (t : Tile) (k : Nat) : Row := BitVec.ofNat 2048 (t.toNat >>> (2048 * k))

/-- A tile with row `k` replaced. -/
def tileSet (t : Tile) (k : Nat) (r : Row) : Tile :=
  let old := (t.toNat >>> (2048 * k)) % 2 ^ 2048
  BitVec.ofNat 16384 (t.toNat - old <<< (2048 * k) + r.toNat <<< (2048 * k))

/-- The tile whose row `k` is `f k`. -/
def tileOf (f : Nat → Row) : Tile := BitVec.ofNat 16384 (packNat 2048 (fun k => (f k).toNat) 8)

/-- The tile with one row in every row. -/
def tileFill (r : Row) : Tile := tileOf fun _ => r

/-- Byte `i` of a number (R3). -/
def byteAt (v i : Nat) : Nat := (v >>> (8 * i)) % 256

/-- The bytes of a number, lowest first. -/
def natBytes : Nat → Nat → List Byte
  | 0, _ => []
  | n + 1, v => BitVec.ofNat 8 v :: natBytes n (v >>> 8)

/-- The number of a list of bytes, lowest first. -/
def bytesNat : List Byte → Nat
  | [] => 0
  | b :: bs => b.toNat + bytesNat bs <<< 8

/-- Words of a list of bytes. -/
def bytesWords : Nat → List Byte → List Word
  | 0, _ => []
  | n + 1, bs => w64 (bytesNat (bs.take 8)) :: bytesWords n (bs.drop 8)

/-- Element `i` of a list of words, 0 beyond its end. -/
def wordAt (l : List Word) (i : Nat) : Word := l[i]?.getD 0

/-! ## Memory -/

/-- What a byte that nothing has written reads as (R170; log 3). -/
def Memory.unlisted : Byte := 0

/-- The byte at a physical address. -/
def Memory.read (m : List Host.Cell) (a : Nat) : Byte := KMap.get Memory.unlisted m a

/-- Write one byte, keeping the canonical form. -/
def Memory.write (m : List Host.Cell) (a : Nat) (v : Byte) : List Host.Cell := KMap.set Memory.unlisted m a v

/-- The canonical form: addresses strictly rising, no entry equal to the unlisted byte. -/
def Memory.wf (m : List Host.Cell) : Bool := KMap.wf Memory.unlisted m

/-- `n` bytes from address `a`, as a little-endian number. -/
def Memory.readN : List Host.Cell → Nat → Nat → Nat
  | [], _, _ => 0
  | (k, b) :: m, a, n =>
    if k < a then Memory.readN m a n
    else if k < a + n then b.toNat <<< (8 * (k - a)) + Memory.readN m a n
    else 0

/-- The entries of the `n` low bytes of `v` from address `a` up. -/
def Memory.cells (a v : Nat) : Nat → List Host.Cell
  | 0 => []
  | n + 1 =>
    if BitVec.ofNat 8 v = Memory.unlisted then Memory.cells (a + 1) (v >>> 8) n
    else (a, BitVec.ofNat 8 v) :: Memory.cells (a + 1) (v >>> 8) n

/-- The entries from address `a` on. -/
def Memory.above (a : Nat) : List Host.Cell → List Host.Cell
  | [] => []
  | (k, b) :: m => if k < a then Memory.above a m else (k, b) :: m

/-- Write the `n` low bytes of `v` from address `a` up. -/
def Memory.writeN : List Host.Cell → Nat → Nat → Nat → List Host.Cell
  | [], a, v, n => Memory.cells a v n
  | (k, b) :: m, a, v, n =>
    if k < a then (k, b) :: Memory.writeN m a v n
    else Memory.cells a v n ++ Memory.above (a + n) ((k, b) :: m)

end Sys2Proof.Machine
end

