-- ==== Sys2Proof/Machine/Flags.lean ====
section
/-!
DEFINITION. Number formats, rounding and every flag computation of chapter "Number formats and arithmetic"
(R72-R100). A value is exact, or given with enough leading bits and a mark that it lies strictly above them, which
is all that the rounding of R82 asks.
-/

namespace Sys2Proof.Machine

/-! ## Flags (R90) -/

def flgNX : Flg := 0x01
def flgUF : Flg := 0x02
def flgOF : Flg := 0x04
def flgDZ : Flg := 0x08
def flgNV : Flg := 0x10
def flgSAT : Flg := 0x20

/-- A flag where a condition holds. -/
def flgIf (b : Bool) (f : Flg) : Flg := if b then f else 0

/-- The flags of a list of results, ORed. -/
def flgAll (l : List Flg) : Flg := l.foldl (· ||| ·) 0

/-! ## Formats (R73) -/

/-- A floating-point format: mantissa bits, exponent bits, bias, and whether it is E4M3. -/
structure Fmt where
  mant : Nat
  expb : Nat
  bias : Nat
  e4m3 : Bool
  deriving DecidableEq, Repr

def fp32 : Fmt := ⟨23, 8, 127, false⟩
def bf16 : Fmt := ⟨7, 8, 127, false⟩
def fp16 : Fmt := ⟨10, 5, 15, false⟩
def e5m2 : Fmt := ⟨2, 5, 15, false⟩
def e4m3 : Fmt := ⟨3, 4, 7, true⟩

/-- The floating-point format of a format code (R76). -/
def fmtOf (code : Nat) : Option Fmt :=
  match code with
  | 4 => some e4m3
  | 5 => some e5m2
  | 6 => some fp16
  | 7 => some bf16
  | 8 => some fp32
  | _ => none

/-- The width of the integer format of a format code (R76). -/
def intOf (code : Nat) : Option Nat :=
  match code with
  | 0 => some 8
  | 1 => some 16
  | 2 => some 32
  | 3 => some 64
  | _ => none

/-- Bytes of one element of a format code; B4 counts half bytes, see the callers (R76). -/
def codeBytes (code : Nat) : Nat :=
  match code with
  | 0 | 4 | 5 | 10 => 1
  | 1 | 6 | 7 => 2
  | 2 | 8 => 4
  | 3 => 8
  | _ => 1

/-- All bits of a format. -/
def Fmt.width (f : Fmt) : Nat := 1 + f.expb + f.mant

/-- Exponent of the smallest normal (R82). -/
def Fmt.emin (f : Fmt) : Int := 1 - (f.bias : Int)

/-- Exponent and significand (as a multiple of 2^(e - mant)) of the largest finite value (R73). -/
def Fmt.maxE (f : Fmt) : Int := if f.e4m3 then 8 else (f.bias : Int)
def Fmt.maxN (f : Fmt) : Nat := if f.e4m3 then 14 else 2 ^ (f.mant + 1) - 1

/-- A value: a NaN, an infinity, or (m + δ) × 2^e with δ = 0, or 0 < δ < 1 where `st`. -/
inductive Num where
  | nan (snan : Bool)
  | inf (neg : Bool)
  | fin (neg : Bool) (m : Nat) (e : Int) (st : Bool)
  deriving DecidableEq, Repr

/-- The exact value m × 2^e. -/
def dy (neg : Bool) (m : Nat) (e : Int) : Num := .fin neg m e false

/-- An exact integer. -/
def ofInt (i : Int) : Num := .fin (decide (i < 0)) i.natAbs 0 false

def Num.isNan : Num → Bool
  | .nan _ => true
  | _ => false

def Num.isSnan : Num → Bool
  | .nan s => s
  | _ => false

def Num.neg : Num → Bool
  | .nan _ => false
  | .inf n => n
  | .fin n _ _ _ => n

/-- The value with the opposite sign. -/
def Num.flip : Num → Num
  | .nan s => .nan s
  | .inf n => .inf (!n)
  | .fin n m e st => .fin (!n) m e st

/-- Is the value a zero? -/
def Num.isZero : Num → Bool
  | .fin _ m _ st => m = 0 && !st
  | _ => false

/-- The value of a bit pattern (R73, R74). -/
def Fmt.decode (f : Fmt) (b : Nat) : Num :=
  let mant := b % 2 ^ f.mant
  let ex := bits b f.mant f.expb
  let neg := b.testBit (f.mant + f.expb)
  if f.e4m3 then
    if ex = 15 ∧ mant = 7 then .nan false
    else if ex = 0 then dy neg mant (f.emin - 3)
    else dy neg (8 + mant) ((ex : Int) - 7 - 3)
  else if ex = 2 ^ f.expb - 1 then
    if mant = 0 then .inf neg else .nan (!mant.testBit (f.mant - 1))
  else if ex = 0 then dy neg mant (f.emin - f.mant)
  else dy neg (2 ^ f.mant + mant) ((ex : Int) - f.bias - f.mant)

/-- The canonical NaN (R74). -/
def Fmt.canonNan (f : Fmt) : Nat :=
  if f.e4m3 then 0x7F else (2 ^ f.expb - 1) <<< f.mant + 2 ^ (f.mant - 1)

/-- The sign bit in place. -/
def Fmt.signBit (f : Fmt) (neg : Bool) : Nat := if neg then 2 ^ (f.mant + f.expb) else 0

/-- The bits of an infinity; the caller has excluded E4M3. -/
def Fmt.infBits (f : Fmt) (neg : Bool) : Nat := f.signBit neg + (2 ^ f.expb - 1) <<< f.mant

/-- The bits of n × 2^(e - mant), where e is the exponent of R82 and n at most 2^(mant + 1) - 1. -/
def Fmt.encode (f : Fmt) (neg : Bool) (n : Nat) (e : Int) : Nat :=
  f.signBit neg +
    (if n < 2 ^ f.mant then n else ((e + f.bias).toNat) <<< f.mant + (n - 2 ^ f.mant))

/-- The bits of the largest finite value. -/
def Fmt.maxBits (f : Fmt) (neg : Bool) : Nat := f.encode neg f.maxN f.maxE

/-- `RsdHash` of R84. -/
def rsdHash (seed idx stp : BitVec 32) : BitVec 32 :=
  let h := seed ^^^ idx
  let h := h * 0x2C1B3C6D
  let h := h ^^^ (h >>> 15)
  let h := h ^^^ stp
  let h := h * 0x297A2D39
  let h := h ^^^ (h >>> 12)
  let h := h * 0x5A1F83C7
  h ^^^ (h >>> 16)

/-- The fields of FMT (R87). -/
def fmtRM (w : Word) : Nat := fld w 0 3
def fmtFTZ (w : Word) : Bool := w.getLsbD 3
def fmtDAZ (w : Word) : Bool := w.getLsbD 4
def fmtOVS (w : Word) : Bool := w.getLsbD 5
def fmtRSTEP (w : Word) : BitVec 32 := BitVec.ofNat 32 (fld w 16 16)
def fmtSEED (w : Word) : BitVec 32 := BitVec.ofNat 32 (fld w 32 32)

/-- The random 32 bits of RSD for one element (R82, R84). -/
def rsdBits (w : Word) (idx : Nat) : Nat := (rsdHash (fmtSEED w) (BitVec.ofNat 32 idx) (fmtRSTEP w)).toNat

/-- Does a magnitude with integer part `n` and fraction `rem` / 2^k (above it where `st`) round up (R82)? -/
def roundsUp (w : Word) (rm idx : Nat) (neg : Bool) (n rem k : Nat) (st : Bool) : Bool :=
  let pos := rem ≠ 0 || st
  match rm with
  | 0 => (2 * rem > 2 ^ k) || (2 * rem = 2 ^ k && (st || n % 2 = 1))
  | 1 => false
  | 2 => pos && !neg
  | 3 => pos && neg
  | _ => decide ((rem <<< 32) >>> k + rsdBits w idx ≥ 2 ^ 32)

/-- The position of the leading 1 bit. -/
def log2i (m : Nat) (e : Int) : Int := (Nat.log2 m : Int) + e

/-- Integer part and fraction of (m + δ) × 2^s: the integer, the remainder and its number of bits. -/
def splitAt (m : Nat) (s : Int) : Nat × Nat × Nat :=
  if 0 ≤ s then (m <<< s.toNat, 0, 0)
  else let k := (-s).toNat; (m >>> k, m % 2 ^ k, k)

/-- `RoundFmt` of R82, with the FMT word that governs (R83): the bits and the flags. -/
def roundFmt (w : Word) (f : Fmt) (rm idx : Nat) (x : Num) : Nat × Flg :=
  match x with
  | .nan _ => (f.canonNan, 0)
  | .inf neg => if f.e4m3 then (f.maxBits neg, flgSAT) else (f.infBits neg, 0)
  | .fin neg m e st =>
    if m = 0 then (f.signBit neg, 0)
    else
      let tiny := decide (log2i m e < f.emin)
      let ex := max (log2i m e) f.emin
      let (n, rem, k) := splitAt m (e + f.mant - ex)
      let d := rem ≠ 0 || st
      let n' := n + (if roundsUp w rm idx neg n rem k st then 1 else 0)
      let flg := flgIf d flgNX ||| flgIf (d && tiny) flgUF
      let (n', ex') := if n' = 2 ^ (f.mant + 1) then (2 ^ f.mant, ex + 1) else (n', ex)
      if ex' > f.maxE || (ex' = f.maxE && n' > f.maxN) then
        let flg := flg ||| flgOF ||| flgNX
        if f.e4m3 || fmtOVS w || rm = 1 || (rm = 2 && neg) || (rm = 3 && !neg) then
          (f.maxBits neg, flg ||| flgIf (f.e4m3 || fmtOVS w) flgSAT)
        else (f.infBits neg, flg)
      else if fmtFTZ w && n' ≠ 0 && n' < 2 ^ f.mant then (f.signBit neg, flg ||| flgUF ||| flgNX)
      else (f.encode neg n' ex', flg)

/-- `ToInt` of R86: the two's-complement bits of width `n` and the flags. -/
def toInt (w : Word) (n rm idx : Nat) (x : Num) : Nat × Flg :=
  match x with
  | .nan _ => (0, flgNV)
  | .inf true => (2 ^ (n - 1), flgNV ||| flgSAT)
  | .inf false => (2 ^ (n - 1) - 1, flgNV ||| flgSAT)
  | .fin neg m e st =>
    let (q, rem, k) := splitAt m e
    let q' := q + (if roundsUp w rm idx neg q rem k st then 1 else 0)
    if !neg && q' ≥ 2 ^ (n - 1) then (2 ^ (n - 1) - 1, flgNV ||| flgSAT)
    else if neg && q' > 2 ^ (n - 1) then (2 ^ (n - 1), flgNV ||| flgSAT)
    else (wrap n (if neg then -(q' : Int) else q'), flgIf (rem ≠ 0 || st) flgNX)

/-- Integer to a narrower integer, saturating (R86). -/
def satInt (n : Nat) (i : Int) : Nat × Flg :=
  if i > (2 : Int) ^ (n - 1) - 1 then (2 ^ (n - 1) - 1, flgSAT)
  else if i < -(2 : Int) ^ (n - 1) then (2 ^ (n - 1), flgSAT)
  else (wrap n i, 0)

/-! ## Exact arithmetic on finite values -/

/-- The signed integer of a finite value at exponent `e0`, which is at most its own. -/
def Num.scaled (e0 : Int) : Num → Int
  | .fin neg m e _ => let v : Int := (m <<< (e - e0).toNat : Nat); if neg then -v else v
  | _ => 0

/-- The exponent of a value. -/
def Num.exp : Num → Int
  | .fin _ _ e _ => e
  | _ => 0

/-- The exact value of an integer at an exponent; a zero takes the sign `z`. -/
def ofScaled (z : Bool) (v : Int) (e : Int) : Num := if v = 0 then dy z 0 0 else dy (decide (v < 0)) v.natAbs e

/-- Exact sum of two exact values, with the specials of R129; an exact zero sum of opposite signs is +0, or -0 under
RDN (R74). -/
def addNum (rm : Nat) (x y : Num) : Num × Flg :=
  match x, y with
  | .nan a, _ => (.nan false, flgIf (a || y.isSnan) flgNV)
  | _, .nan b => (.nan false, flgIf b flgNV)
  | .inf a, .inf b => if a = b then (.inf a, 0) else (.nan false, flgNV)
  | .inf a, _ => (.inf a, 0)
  | _, .inf b => (.inf b, 0)
  | x, y =>
    let e := min x.exp y.exp
    let z := if x.isZero && y.isZero && x.neg = y.neg then x.neg else decide (rm = 3)
    (ofScaled z (x.scaled e + y.scaled e) e, 0)

/-- Exact product with the specials of R129. -/
def mulNum (x y : Num) : Num × Flg :=
  match x, y with
  | .nan a, _ => (.nan false, flgIf (a || y.isSnan) flgNV)
  | _, .nan b => (.nan false, flgIf b flgNV)
  | .inf a, y => if y.isZero then (.nan false, flgNV) else (.inf (a != y.neg), 0)
  | x, .inf b => if x.isZero then (.nan false, flgNV) else (.inf (x.neg != b), 0)
  | .fin a m e _, .fin b n g _ => (dy (a != b) (m * n) (e + g), 0)

/-- Order of two values that are not NaN, with -0 below +0 where `z` (R100). -/
def ltNum (z : Bool) (x y : Num) : Bool :=
  match x, y with
  | .nan _, _ | _, .nan _ => false
  | .inf a, .inf b => a && !b
  | .inf a, _ => a
  | _, .inf b => !b
  | x, y =>
    let e := min x.exp y.exp
    let vx := x.scaled e
    let vy := y.scaled e
    if vx < vy then true else z && decide (vx = vy) && vx = 0 && x.neg && !y.neg

/-- The value of an operand under DAZ (R85): a subnormal reads as a zero of its sign. -/
def Fmt.operand (f : Fmt) (daz : Bool) (b : Nat) : Num :=
  if daz && bits b f.mant f.expb = 0 then dy (b.testBit (f.mant + f.expb)) 0 0 else f.decode b

/-! ## FP32 operations -/

/-- A rounded FP32 result with the flags of its specials. -/
def ieee (w : Word) (rm idx : Nat) (r : Num × Flg) : BitVec 32 × Flg :=
  let (b, f) := roundFmt w fp32 rm idx r.1
  (BitVec.ofNat 32 b, f ||| r.2)

/-- FP32 sum of two values (R129). -/
def fAdd (w : Word) (rm idx : Nat) (x y : Num) : BitVec 32 × Flg := ieee w rm idx (addNum rm x y)

/-- FP32 product (R129). -/
def fMul (w : Word) (rm idx : Nat) (x y : Num) : BitVec 32 × Flg := ieee w rm idx (mulNum x y)

/-- x × z + y with one rounding (R128, R129). A signalling NaN in any operand sets NV; 0 × ∞ does so too. -/
def fFma (w : Word) (rm idx : Nat) (x z y : Num) : BitVec 32 × Flg :=
  let (p, f) := mulNum x z
  let (s, g) := addNum rm p y
  ieee w rm idx (s, f ||| g)

/-- The FP32 value of a lane, with no DAZ. -/
def fval (b : BitVec 32) : Num := fp32.decode b.toNat

/-- Maximum by R100; `lt` orders the values. -/
def fMax (x y : BitVec 32) (vx vy : Num) : BitVec 32 × Flg :=
  if vx.isNan || vy.isNan then (BitVec.ofNat 32 fp32.canonNan, flgIf (vx.isSnan || vy.isSnan) flgNV)
  else (if ltNum true vx vy then y else x, 0)

/-- Minimum by R100. -/
def fMin (x y : BitVec 32) (vx vy : Num) : BitVec 32 × Flg :=
  if vx.isNan || vy.isNan then (BitVec.ofNat 32 fp32.canonNan, flgIf (vx.isSnan || vy.isSnan) flgNV)
  else (if ltNum true vy vx then y else x, 0)

/-- FP32 division of finite nonzero values, for the adjoints and NORM: exact quotient bits with a sticky mark. -/
def divNum (x y : Num) : Num × Flg :=
  match x, y with
  | .nan a, _ => (.nan false, flgIf (a || y.isSnan) flgNV)
  | _, .nan b => (.nan false, flgIf b flgNV)
  | .inf _, .inf _ => (.nan false, flgNV)
  | .inf a, y => (.inf (a != y.neg), 0)
  | x, .inf b => (dy (x.neg != b) 0 0, 0)
  | .fin a m e _, .fin b n g _ =>
    if n = 0 then (if m = 0 then (.nan false, flgNV) else (.inf (a != b), flgDZ))
    else if m = 0 then (dy (a != b) 0 0, 0)
    else
      let q := (m <<< 200) / n
      (.fin (a != b) q (e - g - 200) (decide ((m <<< 200) % n ≠ 0)), 0)

/-! ## Block formats (R77-R80) -/

/-- The magnitude of positive code `k` of a block TYPE as (m, e), meaning m × 2^e; `b8` selects R79. -/
def blockMag (b8 : Bool) (ty k : Nat) : Nat × Int :=
  if b8 then
    match ty with
    | 0 => (k, 0)
    | 1 => (match e4m3.decode k with | .fin _ m e _ => (m, e) | _ => (0, 0))
    | _ => (match e5m2.decode k with | .fin _ m e _ => (m, e) | _ => (0, 0))
  else
    match ty with
    | 0 => (k, 0)
    | 1 => ([0, 1, 2, 3, 4, 6, 8, 12][k]?.getD 0, -1)
    | 2 => (if k = 0 then 0 else 2 ^ (k - 1), -6)
    | _ => ([0, 1, 2, 3, 4, 5, 8, 12][k]?.getD 0, 0)

/-- The largest positive code, whose magnitude is Vt (R78, R79). -/
def blockTop (b8 : Bool) (ty : Nat) : Nat :=
  if b8 then (match ty with | 0 => 127 | 1 => 0x7E | _ => 0x7B) else 7

/-- The code of magnitude code `k` with a sign (R78, R79). -/
def blockCode (b8 : Bool) (ty k : Nat) (neg : Bool) : Nat :=
  let n := if b8 then 256 else 16
  if neg then (if ty = 0 then (n - k) % n else n / 2 + k) else k

/-- `Decode` of R78 and R79 for a code and its scale byte. -/
def blockDecode (b8 : Bool) (scale c : Nat) : Num :=
  let ty := bits scale 6 2
  let s : Int := (bits scale 0 6 : Int) - 32
  if ty = 0 then
    let v := sint (if b8 then 8 else 4) c
    dy (decide (v < 0)) v.natAbs s
  else if b8 then
    match (if ty = 1 then e4m3 else e5m2).decode c with
    | .fin neg m e st => .fin neg m (e + s) st
    | x => x
  else
    let (m, e) := blockMag false ty (c % 8)
    dy (c.testBit 3) m (e + s)

/-- The largest code not above the magnitude m × 2^e, searching down from `k`. -/
def blockFloor (b8 : Bool) (ty m : Nat) (e : Int) : Nat → Nat
  | 0 => 0
  | k + 1 =>
    let (vm, ve) := blockMag b8 ty (k + 1)
    if ltNum false (dy false m e) (dy false vm ve) then blockFloor b8 ty m e k else k + 1

/-- `NearCode` of R80 for a value within ±Vt, where y = (-1)^neg × m × 2^e. -/
def nearCode (w : Word) (b8 : Bool) (ty rm idx : Nat) (neg : Bool) (m : Nat) (e : Int) : Nat × Flg :=
  let k := blockFloor b8 ty m e (blockTop b8 ty)
  let (lm, le) := blockMag b8 ty k
  let (hm, he) := blockMag b8 ty (k + 1)
  let e0 := min e (min le he)
  let y := m <<< (e - e0).toNat
  let lo := lm <<< (le - e0).toNat
  let hi := hm <<< (he - e0).toNat
  if y = lo then (blockCode b8 ty k neg, 0)
  else
    let up := match rm with
      | 0 => decide (2 * y > lo + hi) || (decide (2 * y = lo + hi) && k % 2 = 1)
      | 1 => false
      | 2 => !neg
      | 3 => neg
      | _ => decide (((y - lo) <<< 32) / (hi - lo) + rsdBits w idx ≥ 2 ^ 32)
    let k' := if up then k + 1 else k
    (blockCode b8 ty k' neg, flgNX ||| flgIf (k' = 0) flgUF)

/-- The least s of R80, from `s` upward within `n` candidates, clamped to 63. -/
def blockScale (top : Num) (mx : Num) : Nat → Nat → Nat
  | 0, _ => 63
  | n + 1, s =>
    match top with
    | .fin _ m e _ => if ltNum false (dy false m (e + s - 32)) mx then blockScale top mx n (s + 1) else s
    | _ => 63

/-- The largest finite magnitude of a list. -/
def maxMag (l : List Num) : Num :=
  l.foldl (fun a x => match x with
    | .fin _ m e _ => if ltNum false a (dy false m e) then dy false m e else a
    | _ => a) (dy false 0 0)

/-- `Quantise` of R80: the codes, the scale byte and the flags. -/
def quantise (w : Word) (b8 : Bool) (ty rm base : Nat) (xs : List Num) : List Nat × Nat × Flg :=
  let mx := maxMag xs
  let (tm, te) := blockMag b8 ty (blockTop b8 ty)
  let sexp := if mx.isZero then 0 else blockScale (dy false tm te) mx 64 0
  let one (j : Nat) (x : Num) : Nat × Flg :=
    match x with
    | .nan _ => (0, flgNV)
    | .inf neg => (blockCode b8 ty (blockTop b8 ty) neg, flgSAT ||| flgNX)
    | .fin neg m e _ =>
      let e' := e - ((sexp : Int) - 32)
      if ltNum false (dy false tm te) (dy false m e') then
        (blockCode b8 ty (blockTop b8 ty) neg, flgSAT ||| flgNX)
      else nearCode w b8 ty rm (base + j) neg m e'
  let rs := xs.zipIdx.map fun p => one p.2 p.1
  (rs.map (·.1), ty * 64 + sexp, flgAll (rs.map (·.2)))

/-! ## Aligned integers (R92-R96) -/

/-- `Align` of R93. -/
def align (x : Num) (e f : Int) : Int × Flg :=
  match x with
  | .fin neg m g _ =>
    let (n, rem, k) := splitAt m (g + f - e)
    let n' := n + (if roundsUp 0 0 0 neg n rem k false then 1 else 0)
    (if neg then -(n' : Int) else n', flgIf (rem ≠ 0) flgNX)
  | _ => (0, 0)

/-- The shared exponent of R92: the largest of the finite nonzero elements, -150 where there is none. -/
def alignExp (xs : List Num) : Int :=
  xs.foldl (fun a x => match x with
    | .fin _ m e _ => if m = 0 then a else max a (log2i m e)
    | _ => a) (-150)

/-- An exact value as an AI64 word, saturating with SAT and OF (R94). -/
def ai64Sat (s : Int) : Word × Flg :=
  if s > 2 ^ 63 - 1 then (w64 (2 ^ 63 - 1), flgSAT ||| flgOF)
  else if s < -(2 ^ 63) then (w64 (2 ^ 63), flgSAT ||| flgOF)
  else (BitVec.ofInt 64 s, 0)

/-- An AI64 addition (R94). -/
def ai64Add (a b : Word) : Word × Flg := ai64Sat (a.toInt + b.toInt)

/-- `AlignedToFp` of R96, without rounding: the exact value S × 2^(E - F). -/
def alignedNum (s : Int) (e f : Int) : Num := ofScaled false s (e - f)

/-! ## Trees and scans (R98, R99) -/

/-- One level of the pairwise tree: nodes N(k, j) from N(k - 1, 2j) and N(k - 1, 2j + 1). -/
def treeLevel (w : Word) (rm fu k : Nat) (xs : List Num) : List (BitVec 32 × Flg) :=
  (List.range (xs.length / 2)).map fun j =>
    fAdd w rm (fu <<< 24 + 64 * k + j) (xs[2 * j]?.getD (dy false 0 0)) (xs[2 * j + 1]?.getD (dy false 0 0))

/-- The levels of the tree from level `k` up, as bit patterns; flags of every node. -/
def treeFrom (w : Word) (rm fu : Nat) : Nat → Nat → List Num → List (List (BitVec 32)) × Flg
  | 0, _, _ => ([], 0)
  | n + 1, k, xs =>
    let l := treeLevel w rm fu k xs
    let (up, f) := treeFrom w rm fu n (k + 1) (l.map fun p => fval p.1)
    (l.map (·.1) :: up, flgAll (l.map (·.2)) ||| f)

/-- The 64 lanes of a row as FP32 operands under DAZ. -/
def rowVals (daz : Bool) (r : Row) : List Num := (List.range 64).map fun i => fp32.operand daz (lane r i).toNat

/-- `PairTree` of R98: N(6, 0) and the flags of every node. -/
def pairTree (w : Word) (rm fu : Nat) (daz : Bool) (r : Row) : BitVec 32 × Flg :=
  let (ls, f) := treeFrom w rm fu 6 1 (rowVals daz r)
  ((ls[5]?.bind (·[0]?)).getD 0, f)

/-- A level-0 node as bits: a lane under DAZ. -/
def lane0 (daz : Bool) (r : Row) (i : Nat) : BitVec 32 :=
  let b := lane r i
  if daz && bits b.toNat 23 8 = 0 then b &&& 0x80000000#32 else b

/-- Node N(k, j). -/
def treeNode (daz : Bool) (r : Row) (ls : List (List (BitVec 32))) (k j : Nat) : BitVec 32 :=
  if k = 0 then lane0 daz r j else (ls[k - 1]?.bind (·[j]?)).getD 0

/-- The aligned tree blocks that make up lanes 0 to n - 1, in ascending lane order (R99). -/
def scanBlocks : Nat → Nat → Nat → List (Nat × Nat)
  | 0, _, _ => []
  | k + 1, at0, n =>
    if n ≥ 2 ^ k then (k, at0 >>> k) :: scanBlocks k (at0 + 2 ^ k) (n - 2 ^ k) else scanBlocks k at0 n

/-- A delivered FP32 value: a NaN is the canonical one (R74). -/
def canonFp (b : BitVec 32) : BitVec 32 := if (fval b).isNan then BitVec.ofNat 32 fp32.canonNan else b

/-- One lane of `ts.scan` (R99): the first block's node, each further node added in turn. -/
def scanLane (w : Word) (rm fu : Nat) (daz : Bool) (r : Row) (ls : List (List (BitVec 32))) (i : Nat) :
    BitVec 32 × Flg :=
  match scanBlocks 7 0 (i + 1) with
  | [] => (0, 0)
  | (k, j) :: [] => (canonFp (treeNode daz r ls k j), 0)
  | (k, j) :: rest =>
    rest.zipIdx.foldl (fun (acc, f) (b, pos) =>
      let (v, g) := fAdd w rm (fu <<< 24 + 0x800000 + 64 * i + pos) (fval acc) (fval (treeNode daz r ls b.1 b.2))
      (v, f ||| g)) (treeNode daz r ls k j, 0)

/-- A row from lane results with their flags. -/
def rowFlg (f : Nat → BitVec 32 × Flg) : Row × Flg :=
  let l := (List.range 64).map f
  (rowOf fun i => ((l[i]?).getD (0, 0)).1, flgAll (l.map (·.2)))

/-- The inclusive scan of R99 with the flags of every rounding it makes. -/
def scanRow (w : Word) (rm fu : Nat) (daz : Bool) (r : Row) : Row × Flg :=
  let (ls, f) := treeFrom w rm fu 6 1 (rowVals daz r)
  let (v, g) := rowFlg (scanLane w rm fu daz r ls)
  (v, f ||| g)

end Sys2Proof.Machine
end

