-- ==== Sys2Proof/Config.lean ====
section
/-!
DEFINITION. What one module leaves open or fixes: the free values (opaque, so that nothing can be proved of
them but what holds for every value) and the boot firmware's standard values of R454.
-/

namespace Sys2Proof

/-- A free number, drawn by the counter `State.free` (log 2): latencies inside a stated bound and other
choices the manual leaves open. -/
opaque Config.freeNat : Nat → Nat
/-- A free 64-bit value (log 12): trap values that no rule states. -/
opaque Config.freeWord : Nat → Word
/-- The context or holder field of a black-box entry that has neither, and its value where no rule states one (log 50). -/
opaque Config.bboxWho : Nat → BitVec 12
opaque Config.bboxValue : Nat → Word
/-- Free bytes: device signatures and firmware hashes, for which the manual gives no keys (log 10). -/
opaque Config.freeByte : Nat → Byte
/-- The root page table under which a host message of an ASID is translated (log 28). -/
opaque Config.hostRoot : BitVec 16 → BitVec 36
/-- The verdict of the boot ROM on the firmware image: modulo 6, 0 passes, else the WHY of R454 (log 9). -/
opaque Config.bootVerdict : Nat → Nat
/-- Module power in W at a sample (log 11). -/
opaque Config.power : Nat → Nat
/-- Junction temperature of a die at a sample (log 11). -/
opaque Config.junction : Nat → Nat → BitVec 8

/-- Is the firmware image of the k-th verification the standard one, and the words in which another carries its limits: the
form of an image is not stated (log 9). -/
opaque Config.standardImage : Nat → Bool
opaque Config.imageWord : Nat → Nat → Word

/-- The standard firmware image's CURLIM, which never binds (R454). -/
def Config.curlim : BitVec 24 := 0xFFFFFF
/-- The standard firmware image's CURWIN (R454). -/
def Config.curwin : BitVec 12 := 4095
/-- The standard firmware image's LBUD and LTHR (R454). -/
def Config.lbud : BitVec 16 := 0xFFFF
/-- The standard firmware image's PLIM (R454). -/
def Config.plim : BitVec 12 := 3600
/-- Wall clks of one power sample, 1 ms at 1.8 GHz (R458, R1). -/
def Config.samplePeriod : Nat := 1800000

end Sys2Proof
end

