-- ==== Sys2Proof/Machine/State.lean ====
section
/-!
DEFINITION. The state of one GR9 module as plain data. Names follow the manual's registers and entries.
Contexts, cores, routers and every other numbered item stand in sparse lists keyed by their number (R9);
an item that is not listed holds its reset value.
-/

namespace Sys2Proof.Machine

/-- Why a machine stops with a fault. No meaning raises it: every fault of the manual is a next state
(R415-R428). Safe. -/
inductive Fault where
  /-- Reserved; raised by no meaning of this model. Safe. -/
  | unreachable
  deriving DecidableEq, Repr

/-- Why a step has no meaning. -/
inductive Refusal where
  /-- An instruction of the opcode table without a meaning in this model; raised by `exec` alone. Safe. -/
  | notModelled (mnemonic : String)
  deriving DecidableEq, Repr

/-! ## Values in a context -/

/-- A value of one of the three kinds of R34. -/
inductive Val where
  | s (v : Word)
  | r (v : Row)
  | t (v : Tile)
  deriving DecidableEq, Repr

/-- The tag of a result: row 0's value tag, and in bit 20 whether its operation was recorded (R240). -/
abbrev OutTag := BitVec 21

/-- One output-queue entry (R57, R71). `id` ties rows still to land to their entry (log 1). -/
structure QEnt where
  id : Nat
  val : Val
  tag : OutTag
  deriving DecidableEq, Repr

/-- What a result in flight brings: a new entry, or row `k` of the entry already landed (R42). -/
inductive Landing where
  | entry (v : Val)
  | row (k : Nat) (v : Row)
  deriving DecidableEq, Repr

/-- A result in flight: `rem` unfrozen clks until it lands (R42, R412). -/
structure Flight where
  rem : Nat
  fu : Nat
  id : Nat
  what : Landing
  flg : Flg
  tag : OutTag
  /-- It stands in the context's snapshot (R412, R444). -/
  snap : Bool
  deriving DecidableEq, Repr

/-- Where a row sequencer reads (R41, R124). An entry's rows still to land follow it by `id`. -/
inductive JobSrc where
  | reg (t : Nat)
  | ent (id : Nat) (buf : Tile)
  | const (v : Row)
  deriving DecidableEq, Repr

/-- What a row sequencer feeds (R122). -/
inductive JobDst where
  | reg (t : Nat)
  | portD (fu : Nat)
  | ta (fu port : Nat)
  | xpose
  | stt (addr : Word)
  | stp (addr : Word) (npl : Nat) (half : Nat)
  deriving DecidableEq, Repr

/-- A row sequencer at work: row `k` is read next (R41). `stage` is the baste entry it feeds, 0 for none. -/
structure Job where
  k : Nat
  src : JobSrc
  dst : JobDst
  buf : Tile
  fmt : Word
  id : Nat
  tag : OutTag
  tagSrc : OutTag
  stage : Nat
  snap : Bool
  deriving DecidableEq, Repr

/-- What a local access does once its last bank row is performed. -/
inductive AccFin where
  | lds (bytes : Nat) (sx : Bool)
  | row
  | tileRow (k : Nat)
  | ldp (npl : Nat) (half : Nat) (sx : Bool)
  | store
  | atom (op : Nat) (cmp : Word) (arg : Word)
  /-- Bank rows of a matrix step: they only take their turn at the banks (R209). -/
  | mat
  deriving DecidableEq, Repr

/-- One bank row's part of a local access: `len` bytes at physical `pa`, standing at byte `off` of the data. -/
structure Seg where
  pa : Nat
  len : Nat
  off : Nat
  deriving DecidableEq, Repr

/-- A bundle read at issue: its header and its slots' words (R29). -/
structure Bundle where
  hdr : Word
  slots : List (BitVec 24)
  deriving DecidableEq, Repr

def Bundle.none : Bundle := ⟨0, []⟩

/-- What the replay buffer needs of a bundle with a memory access: the bundle, its address, and per slot the
performed bit, the guard at issue and the source value read at issue (R414). -/
structure Issued where
  bundle : Bundle
  pc : Word
  slots : List (Bool × Bool × Val)
  deriving DecidableEq, Repr

/-- A local LS or AT access issued and not yet performed (R154, R186, R194). `segs` are the bank rows not yet
granted, `won` those granted in this clk (R155). `data` holds the bytes to be stored, or those read so far,
little-endian. `dead` marks an access whose data error takes the ignore fate (R196), `va` is its address, `acq` marks an
acquire load (R174). An access that a freeze waits for goes on in wall clks (`wall`, log 49); `early` counts the frozen
clks in which it did. -/
structure LocalAcc where
  rem : Nat
  id : Nat
  segs : List Seg
  won : List Seg
  data : Nat
  fin : AccFin
  lastOld : Bool
  lastOst : Bool
  dead : Bool
  va : Word
  acq : Bool
  wall : Bool
  early : Nat
  deriving DecidableEq, Repr

/-- A lateral load or remote atomic (R156, R189, R195), issued at wall clk `wclk`. `after` names the local accesses that
are performed before it (R172, R176); `bad` tells of an uncorrectable error at its owning bank (R197). -/
structure LatAcc where
  id : Nat
  va : Word
  pa : Nat
  len : Nat
  atom : Option (Nat × Word × Word)
  acq : Bool
  tok : Nat
  lk : Nat
  sx : Bool
  treg : Nat
  trow : Nat
  seqNo : BitVec 8
  sent : Bool
  performed : Bool
  data : Nat
  flg : Flg
  wclk : Nat
  after : List Nat
  bad : Bool
  deriving DecidableEq, Repr

/-- The states of a token register (R395). -/
inductive TokSt where
  | idle | pending | written
  deriving DecidableEq, Repr

/-- A token register (R395). -/
structure Token where
  st : TokSt
  val : Word
  deriving DecidableEq, Repr

def Token.reset : Token := ⟨.idle, 0⟩

/-- A circular-buffer handle (R280). PQ names the producer: 0 none, FU 16-18 for a queue, 1 for a flow (log 51). `line`
holds the producers that have reached the buffer, in order, the holder first: FU, or 1024 + 512 h + entry for a flow
(R284). -/
structure Cb where
  cfg : Bool
  base : BitVec 15
  ssz : BitVec 9
  ns : BitVec 13
  gr : BitVec 13
  pp : BitVec 40
  cc : BitVec 48
  rp : BitVec 40
  pq : BitVec 5
  line : List Nat
  deriving DecidableEq, Repr

def Cb.reset : Cb := ⟨false, 0, 0, 0, 0, 0, 0, 0, 0, []⟩

/-- A skein handle (R225). -/
structure Sk where
  cfg : Bool
  desc : BitVec 56
  id : BitVec 24
  shape : BitVec 6
  clen : BitVec 40
  deriving DecidableEq, Repr

def Sk.reset : Sk := ⟨false, 0, 0, 0, 0⟩

/-- Where a queued command stands: not in service, in service, waiting for the phases of its reshard with the engine free
for other queues (R264, R366), stopped at a faulting access (R279), complete but for its last counter add (R277), or kept in
a fenced queue after its kernel was killed (R426). -/
inductive CmdSt where
  | waiting
  | running
  | away
  | faulted (code : Nat) (val : Word)
  | closing
  | dead
  deriving DecidableEq, Repr

/-- What a chunk did: its bytes, its flags, whether it is the command's last, the slots filled once it is complete, and
the value of a compare. -/
structure Chunk where
  n : Nat
  flg : Flg
  last : Bool
  pp : Nat
  val : Option Nat
  deriving DecidableEq, Repr

/-- One command of an engine-slot queue (R264, R286). For SK, BL, LN, PT and XL, a0-a2 are ports a, b, c and
`go` is T. -/
structure Cmd where
  id : Nat
  fu : Nat
  port : Nat
  a0 : Word
  a1 : Word
  a2 : Word
  a3 : Word
  go : Word
  fmt : Word
  asid : BitVec 16
  ptroot : BitVec 36
  priv : Bool
  row : Row
  shape : List Word
  bound : BitVec 40
  done : Nat
  chunk : Nat
  flg : Flg
  st : CmdSt
  /-- Row additions already made for the current entry of an unpick (R261), or a stage marker. -/
  aux : Nat
  /-- Accesses of the context that were open at the go bundle (R176). -/
  after : List Nat
  /-- A chunk whose control-space writes are still to be performed (R162, R277). -/
  held : Option Chunk
  deriving DecidableEq, Repr

/-- A counter request of a context without a reply (R401, R403). `after` names the accesses of the context that were
outstanding when it issued: it is sent once they are performed. -/
structure CReq where
  id : Nat
  isWait : Bool
  va : Word
  pa : Nat
  val : Word
  sent : Bool
  after : List Nat
  deriving DecidableEq, Repr

/-- A barrier report that waits for the accesses its arrival covers (R407). -/
structure Report where
  bar : Nat
  conf : BitVec 58
  phase : Word
  after : List Nat
  deriving DecidableEq, Repr

/-- The context's one wait slot (R404). -/
structure WaitSlot where
  id : Nat
  pa : Nat
  want : Word
  got : Option Word
  deriving DecidableEq, Repr

/-- An image of a recorded matrix step: its key, the arena ranges it stands in, and their bytes once read (R247). -/
structure RawImg where
  key : Nat
  ranges : List (Nat × Nat)
  data : Nat
  deriving DecidableEq, Repr

/-- A baste entry staged in the core and not yet written (R242, R246, R247). Images stand as values; `missing`
counts rows still to be read or landed. -/
structure Stage where
  id : Nat
  hdr : List Word
  imgs : List (Nat × Val)
  raws : List RawImg
  missing : Nat
  len : Nat
  /-- Its write met a fault whose fate is not yet known. -/
  held : Bool
  deriving DecidableEq, Repr

/-- The snapshot of R412: everything in flight, each with the clks it still needs. -/
structure Inflight where
  flights : List Flight
  jobs : List Job
  fmtEff : Word
  fmtPend : List (Nat × Word)
  cbAdv : List (Nat × Nat × Nat)
  held : KMap Nat
  deriving DecidableEq, Repr

def Inflight.none : Inflight := ⟨[], [], 0, [], [], []⟩

/-- The replay buffer (R414): the issued bundle, the address that follows it, and the access of slot 3 that is to be
performed again, with the sequencer that feeds it. -/
structure Replay where
  org : Issued
  next : Word
  npc : Option Word
  accs : List LocalAcc
  deriving DecidableEq, Repr

/-- The trap frame (R418). -/
structure Frame where
  inf : Inflight
  oq : KMap (List QEnt)
  ports : KMap Val
  portSk : KMap (Option Word)
  portTags : KMap Tag
  lpcnt : BitVec 32
  lplen : BitVec 14
  lpstart : BitVec 18
  lpbrk : Bool
  replay : Option Replay
  npc : Option Word
  skip : Bool
  /-- What the handler was entered for: 0 a class-I trap, 1 `sy.trap`, 2 a data error, 3 a delivered fault of the
  command queue `fu` (0 for none); and the TRAPPC of the entry. -/
  cls : Nat
  fu : Nat
  pc : Word
  deriving DecidableEq, Repr

/-- What a hardware context is doing (R18, R162, R320, R426, R430). -/
inductive CtxSt where
  | empty
  | running
  | draining
  | inspect
  | frozenV
  | saving
  deriving DecidableEq, Repr

/-! ## Context -/

/-- Scalar, guard and tile state (R103, R121) and the value tags (R239). Tag keys: scalar register n at n, row k
of tile register t at 32 + 8 t + k, operand port p of unit FU at 256 + 32 FU + 8 p + row, mp register n at
2000 + n. `wrote` names the tile rows (8 t + k) that bundles and row sequencers have written in this clk (R191). -/
structure Regs where
  s : KMap Word
  g : BitVec 8
  t : KMap Tile
  tags : KMap Tag
  wrote : List Nat
  deriving DecidableEq, Repr

/-- The per-context control registers (R107). -/
structure Ctl where
  fmt : Word
  flags : Flg
  kid : BitVec 32
  rank : BitVec 10
  crewn : BitVec 11
  excl : Bool
  priv : Bool
  arenaBase : BitVec 8
  arenaSize : BitVec 8
  asid : BitVec 16
  ptroot : BitVec 36
  stopf : Bool
  lpcnt : BitVec 32
  lplen : BitVec 14
  lpbrk : Bool
  lpstart : BitVec 18
  old : BitVec 16
  ost : BitVec 16
  cpol : BitVec 10
  trappc : BitVec 18
  trapcode : BitVec 8
  trapval : Word
  trapvec : BitVec 18
  logsk : BitVec 3
  bsRec : Bool
  bsRun : Bool
  bsStat : BitVec 2
  bsCursor : BitVec 40
  gbase : BitVec 50
  biasb : BitVec 17
  deriving DecidableEq, Repr

/-- Lanes of a contribution: none where nothing is sent. -/
abbrev Lanes := List (Option (BitVec 32))

/-- A contribution to row `row` of gradient buffer `gid` (R256). -/
structure Contr where
  gid : Nat
  row : Nat
  lanes : Lanes
  deriving DecidableEq, Repr

/-- Baste state of a context (R239). -/
structure Baste where
  fw : Word
  adAB : Word
  adTY : Word
  lrlen : BitVec 40
  llim : BitVec 40
  lrdy : Bool
  prods : List (BitVec 12 × BitVec 40)
  stages : List Stage
  /-- The contributions of an unpick's current entry that are still to be added (R256). -/
  contrs : List Contr
  deriving DecidableEq, Repr

/-- One hardware context (R8). -/
structure Ctx where
  st : CtxSt
  pc : Word
  npc : Option Word
  regs : Regs
  ctl : Ctl
  oq : KMap (List QEnt)
  /-- Held operand ports, key 4 FU + port (R36). -/
  ports : KMap Val
  /-- The scalar from which the held value of a row or tile port came (R246). -/
  portSk : KMap (Option Word)
  inf : Inflight
  accs : List LocalAcc
  lats : List LatAcc
  latSeq : BitVec 8
  toks : KMap Token
  creqs : List CReq
  reports : List Report
  wait : Option WaitSlot
  cbs : KMap Cb
  sks : KMap Sk
  queues : KMap (List Cmd)
  side : KMap Word
  baste : Baste
  hdep : Bool
  frame : Option Frame
  replay : Option Replay
  /-- Faults to be delivered: code, value, and the unit of the stopped command queue, 0 for none (R417). -/
  delivered : List (Nat × Word × Nat)
  /-- Engine queues frozen and fenced (R426), keyed by FU. -/
  qfence : KMap Bool
  fenced : Bool
  /-- The bundle at `pc` is blocked (R21). -/
  blocked : Bool
  readySince : Nat
  /-- A stop asked for by the distributor (true) or by sy.stop or STOPF (false) (R427, R430). -/
  stopDist : Bool
  /-- Stopped for a pre-emption, its queues quiesced too (R285, R429). -/
  quiet : Bool
  /-- A `sy.rfe` that has performed, with its function code: its return waits for the handler's work (R437). -/
  rfe : Option (BitVec 2)
  /-- From the launch record: PRIV, BMASK, the crew's quads on this die in ascending node order (R307, R151). -/
  recPriv : Bool
  bmask : BitVec 128
  quads : List Nat
  /-- The arena's base on each of those quads (R16). -/
  bases : List (BitVec 8)
  /-- Issued bundles whose local accesses or matrix step are not yet performed, by the number of the access (R414). -/
  recent : List (Nat × Issued)
  /-- The level and the retries made of a containment walk that is retrying this context's bundle (R422). -/
  walk : Option (Nat × Nat)
  /-- The same for the command of a unit, or for a lateral access (unit 8), that is being retried. -/
  walks : KMap (Nat × Nat)
  /-- The bundle at `pc` is to be taken as issued with every guard false (R423). -/
  skip : Bool
  /-- A table walk of the CT operation at `pc` (R401): under way, or done. -/
  xwalk : Option Bool
  /-- Restored, released or returned, and not yet issued from: what its snapshot holds waits for that clk (R413). -/
  parked : Bool
  /-- Its kernel has been killed: it is freed once it has stopped (R424). -/
  doomed : Bool
  /-- Tile registers (32 + t as a bit) that lateral loads pending at the stop name (R191). -/
  kept : Nat
  deriving DecidableEq, Repr

def Regs.reset : Regs := ⟨[], 0, [], [], []⟩

def Ctl.reset : Ctl :=
  { fmt := 0, flags := 0, kid := 0, rank := 0, crewn := 0, excl := false, priv := false, arenaBase := 0,
    arenaSize := 0, asid := 0, ptroot := 0, stopf := false, lpcnt := 0, lplen := 0, lpbrk := false, lpstart := 0,
    old := 0, ost := 0, cpol := 0, trappc := 0, trapcode := 0, trapval := 0, trapvec := 0, logsk := 0,
    bsRec := false, bsRun := false, bsStat := 0, bsCursor := 0, gbase := 0, biasb := 0 }

def Baste.reset : Baste := ⟨0, 0, 0, 0, 0, false, [], [], []⟩

/-- A hardware context that holds no member. -/
def Ctx.reset : Ctx :=
  { st := .empty, pc := 0, npc := none, regs := Regs.reset, ctl := Ctl.reset, oq := [], ports := [], portSk := [],
    inf := Inflight.none, accs := [], lats := [], latSeq := 0, toks := [], creqs := [], reports := [], wait := none, cbs := [],
    sks := [], queues := [], side := [], baste := Baste.reset, hdep := false, frame := none, replay := none,
    delivered := [], qfence := [], fenced := false, blocked := false, readySince := 0, stopDist := false, quiet := false,
    rfe := none, recPriv := false, bmask := 0, quads := [], bases := [], recent := [], walk := none, walks := [], skip := false, xwalk := none, parked := false, doomed := false, kept := 0 }

/-! ## Core -/

/-- A named barrier of a core (R396, R397). -/
structure Barrier where
  cfg : Bool
  conf : BitVec 58
  arrc : Word
  phase : Word
  deriving DecidableEq, Repr

def Barrier.reset : Barrier := ⟨false, 0, 0, 0⟩

/-- A matrix step in flight (R209). `age` counts unfrozen clks since issue; `latchX`, `latchP` are sampled at clk O.
`ops` holds the operand bytes A, B and C of each word, read at c + 3. `held` while its context is in a handler that it
did not issue from (R418); `dead` where erroneous words are to read as 0 (R212); `stage` its staged log entry. -/
structure MStep where
  n : Nat
  id : Nat
  age : Nat
  routine : Nat
  dir : BitVec 128
  words : List (BitVec 128)
  mp : List Word
  fmt : Word
  ops : List (Nat × Nat × Nat)
  readDone : Bool
  latchX : BitVec 16
  latchP : BitVec 6
  /-- Circular buffers read: handle, first slot, highest slot offset. -/
  bufs : List (Nat × Nat × Nat)
  /-- Arena ranges that the step reads at c + 3. -/
  reads : List (Nat × Nat)
  held : Bool
  dead : Bool
  /-- Its operands have been read again before the first resumed clk (R212, R213). -/
  early : Bool
  stage : Nat
  /-- Bank rows granted before the last of them, by physical address, as they were read (R186, R209). -/
  got : KMap Nat
  deriving DecidableEq, Repr

/-- Matrix state of a core (R203). -/
structure Matrix where
  owner : Option Nat
  acc : KMap (BitVec 49152)
  wb : Word
  ustore : KMap (BitVec 128)
  mp : KMap Word
  xs : BitVec 16
  pslX : BitVec 16
  pslP : BitVec 6
  step : Option MStep
  grant : BitVec 16
  /-- The pending `pw.req`: context, weight, token, NTK (R441). -/
  leave : Option (Nat × BitVec 16 × Nat × Bool)
  deriving DecidableEq, Repr

def Matrix.reset : Matrix := ⟨none, [], 0, [], [], 0, 0, 0, none, 0, none⟩

/-- One core (R8, R107, R203, R411). `frz` counts frozen clks; `icd` the clks of an entry, return or walk freeze
still to come. -/
structure Core where
  limit : BitVec 14
  frz : Word
  curw : BitVec 24
  curlim : BitVec 24
  curwin : BitVec 12
  wstart : Nat
  evsel : BitVec 32
  evc : KMap (BitVec 48)
  /-- What each counter adds at the end of this clk, and the counters that a write of EVSEL sets to 0 there (R410). -/
  evp : KMap (BitVec 48)
  evz : BitVec 4
  runFloor : BitVec 14
  run : Option Nat
  /-- The context that ran last has blocked in shared mode: the core goes to the one ready longest (R23). -/
  gave : Bool
  icd : Nat
  /-- The cause of the freeze of the last clk, by its event number of R410; 0 for none. -/
  froze : Nat
  /-- A bank freeze has begun since a stop was asked for (R428). -/
  bankHeld : Bool
  matrix : Matrix
  bars : KMap Barrier
  staged : Nat
  /-- Clks for which the core stays frozen until the images of a large entry are staged (R242). -/
  spill : Nat
  /-- The context of the core that engine FU 16-19 serves next (R264). -/
  turn : KMap Nat
  deriving DecidableEq, Repr

def Core.reset : Core :=
  { limit := 2048, frz := 0, curw := 0, curlim := Config.curlim, curwin := Config.curwin, wstart := 0, evsel := 0,
    evc := [], evp := [], evz := 0, runFloor := 0, run := none, gave := false, icd := 0, froze := 0, bankHeld := false, matrix := Matrix.reset, bars := [], staged := 0, spill := 0,
    turn := [] }

/-! ## Fabric -/

/-- A packet (R288): header fields and payload. `ext` is header words w3-w7. `np` names the NP command that injects it, at
its source router only (R305), 0 for none; `sumOut` marks one that an ALIGNED COMBINE has emitted with AOUT = 1 (R354). -/
structure Packet where
  flow : BitVec 20
  pk : BitVec 4
  snode : BitVec 6
  sdie : BitVec 2
  smod : BitVec 10
  tk : BitVec 3
  tnode : BitVec 6
  tdie : BitVec 2
  tmod : BitVec 10
  seqn : BitVec 32
  chunk : BitVec 32
  npay : BitVec 5
  xd : BitVec 2
  yd : BitVec 2
  flg : Flg
  last : Bool
  nb : BitVec 11
  fmtc : BitVec 4
  ext : List Word
  pay : BitVec 8192
  np : Nat
  sumOut : Bool
  deriving DecidableEq, Repr

/-- One flit in a buffer: flit `i` of its packet, written at wall clk `at`. Flit 0 is the header. -/
structure Flit where
  pkt : Packet
  i : Nat
  wclk : Nat
  /-- A header that an entry of this router has emitted: it leaves a clk sooner (R296, hop-target column). -/
  early : Bool
  deriving DecidableEq, Repr

/-- An input channel: its flits, the output port and channel allotted to the packet at its head, whether that packet is
consumed here, at one flit per clk (R294, R327), and, once it is routed, its flow, its source node and the clk in which it
entered the router (R295). -/
structure Chan where
  flits : List Flit
  out : Option (Nat × Nat)
  drop : Bool
  who : Option (BitVec 20 × BitVec 6 × Nat)
  deriving DecidableEq, Repr

def Chan.reset : Chan := ⟨[], none, false, none⟩

/-- A router's transport state (R294, R296, R297). Channel keys are 5 port + VC with VC 0-4 = A0, A1, E0, E1, S; holder key
500 says that a packet has output port 0 (R292). -/
structure Router where
  chans : KMap Chan
  free : KMap Nat
  holders : KMap Bool
  rr : KMap Nat
  slots : KMap (BitVec 7)
  /-- Packets waiting at the local input: client (0 the quad's interface, 1 the row's gateway; 2 and 3 the same with a circuit
  flow; 4 and 5 the interface, without and with a circuit flow, for what an entry of the router emits), packet, flits already
  injected, channel. `rr` key 100 holds the client served last. -/
  inject : List (Nat × Packet × Nat × Option Nat)
  deriving DecidableEq, Repr

def Router.reset : Router := ⟨[], [], [], [], [], []⟩

/-- A chunk slot of a flow entry: chunk, inputs arrived with their packets, and what is still to be emitted. For
ALIGNED COMBINE the running sums stand in `sum` (element code and value). -/
structure Slot where
  chunk : BitVec 32
  pkts : List (Nat × Packet)
  sum : List (BitVec 2 × BitVec 64)
  cnt : Nat
  flg : Flg
  /-- Packets still to be emitted, with the target copies each has been sent to. -/
  outq : List (Packet × List Nat)
  /-- The clk from which the processed slot may be emitted or delivered. -/
  due : Nat
  deriving DecidableEq, Repr

def Slot.reset : Slot := ⟨0, [], [], 0, 0, [], 0⟩

/-- An upstream word (R325). -/
structure Upstream where
  kind : BitVec 3
  num : BitVec 6
  die : BitVec 2
  mod : BitVec 10
  entry : BitVec 9
  cfield : BitVec 3
  valid : Bool
  deriving DecidableEq, Repr

/-- A flow entry with its reservation (R324, R325, R332): words w0-w3, parameter words, S0, data slots and S2. -/
structure FEntry where
  w0 : Word
  w1 : Word
  w2 : Word
  w3 : Word
  prm : List Word
  seqs : KMap (BitVec 32)
  slots : KMap Slot
  ring : List Nat
  ups : KMap Upstream
  /-- ASID and PTROOT captured at load (R332). -/
  asid : BitVec 16
  ptroot : BitVec 36
  deriving DecidableEq, Repr

def FEntry.reset : FEntry := ⟨0, 0, 0, 0, [], [], [], [], [], 0, 0⟩

/-- A packet at its hop target: the entry that its header matched and that entry's pattern, if any (R326, R340), whether NP
injected it there (R301), and the clk in which it is accepted. -/
structure Arrival where
  pkt : Packet
  hit : Option (Nat × BitVec 32)
  own : Bool
  due : Nat
  deriving DecidableEq, Repr

/-- A holder of flow entries (R322, R323) with its stray queue and counters (R303, R306). -/
structure Holder where
  ents : KMap FEntry
  /-- Reservations of the spool store: pattern slot, SPB and SPN (R325). -/
  spoolUsed : List (Nat × Nat × Nat)
  strays : List (Packet × BitVec 512)
  malf : BitVec 32
  dupd : BitVec 32
  strayd : BitVec 32
  conf : BitVec 32
  abnd : BitVec 32
  fence : Bool
  /-- Packets whose header has reached this hop target. -/
  inbox : List Arrival
  deriving DecidableEq, Repr

def Holder.reset : Holder := ⟨[], [], [], 0, 0, 0, 0, 0, false, []⟩

/-- A link flit (R290): its link sequence number, the serial number of its packet, whether it is the last of it, and its
bytes. -/
structure LinkFlit where
  seq : BitVec 16
  id : Nat
  last : Bool
  data : Nat
  deriving DecidableEq, Repr

/-- A seam (0-31), switch (32-47) or Yelnak (48) link: link sequence numbers, retry buffer, errors of the window
and retrain state (R298, R451). Number 64 + g holds what seam link g sends from the base die to its die; its other
fields are those of link g. -/
structure Link where
  sendSeq : BitVec 16
  recvSeq : BitVec 16
  /-- Unacknowledged link flits. -/
  retry : List LinkFlit
  /-- Link flits of the retry buffer that packets hold which are not acknowledged whole (R299). -/
  held : Nat
  errs : List Nat
  /-- Clk at which a running retrain ends, and the retrains failed in succession. -/
  training : Option Nat
  fails : Nat
  st : BitVec 2
  nrt : BitVec 48
  crcNext : Nat
  deriving DecidableEq, Repr

def Link.reset : Link := ⟨0, 0, [], 0, [], none, 0, 0, 0, 0⟩

/-- The state of an installed pattern (R336, R337). Holder records keep its entries. -/
structure Pattern where
  pid : BitVec 32
  slot : Nat
  owner : Option (BitVec 32)
  ownerPriv : Bool
  acnt : Nat
  aval : Word
  rval : Word
  flo : BitVec 20
  fhi : BitVec 20
  st : BitVec 2
  ents : List (Nat × Nat)
  circ : List (Nat × Nat)
  wasLive : Bool
  unloadTok : List (Nat × Nat)
  deriving DecidableEq, Repr

/-- A pattern load waiting at the loader: who asked, the image address and the address space (R337, R343). -/
structure PatLoad where
  owner : Option (BitVec 32)
  priv : Bool
  n : Nat
  cmd : Nat
  tag : Option Nat
  image : Word
  asid : BitVec 16
  ptroot : BitVec 36
  /-- `image` is a physical address (R452). -/
  phys : Bool
  deriving DecidableEq, Repr

/-- A reshard of a crew (R366): the participants that have installed their entries, each with the phases it has
completed and its source shard as read, and those whose command has ended. -/
structure Reshard where
  kid : BitVec 32
  base : BitVec 20
  ready : List (Nat × Nat)
  bufs : List (Nat × Nat)
  ended : List Nat
  /-- Free values of the exponents of ALIGNED reductions (log 26). -/
  free : Nat
  /-- What transient entries hold: router, rank, table entries, spool entries. -/
  room : List (Nat × Nat × Nat × Nat)
  deriving DecidableEq, Repr

/-! ## Requests, barriers, distributor, management -/

/-- Who sent a counter request (R302, R392). -/
inductive ReqSrc where
  | ctxAdd (n : Nat)
  | ctxWait (n : Nat)
  | engine (n : Nat) (fu : Nat)
  | queue (n : Nat) (fu : Nat)
  | holder (h : Nat) (pid : BitVec 32)
  | retire (kid : BitVec 32)
  | depend (kid : BitVec 32) (i : Nat)
  | pattern (pid : BitVec 32)
  | hostAdd (tag : Nat)
  | hostWait (tag : Nat)
  deriving DecidableEq, Repr

/-- What a home answers to a request and keeps (R302): done with a value, registered as a wait (R393), no room for the wait,
a fault with its value, or what a command has read there (R228, R253). -/
inductive Reply where
  | done (v : Word)
  | registered
  | full
  | fault (code : Nat) (v : Word)
  | data (v : Word) (w : List Word)
  deriving DecidableEq, Repr

/-- A request without a reply, or a registered wait (R302, R393). `seqNo` is the SEQ of its source; `tries` counts how often
it was sent: none yet where eight of its source are out. A `queue` request is a command of FU 22, 24, 25 or 26 on its way:
`pa` is the home of SK and of `bl.bast`, `val` the bound of its service. -/
structure Req where
  src : ReqSrc
  va : Word
  pa : Nat
  val : Word
  sentAt : Nat
  tries : Nat
  performed : Bool
  registered : Bool
  seqNo : BitVec 32
  /-- The source has its reply. -/
  answered : Bool
  /-- The value with which a wait was satisfied. -/
  got : Option Word
  /-- The wall clk in which it last reached its home. -/
  arrived : Nat
  deriving DecidableEq, Repr

/-- A barrier report of context `n`, or a completion on its way to the contexts `tos` (R397-R399). -/
structure BarMsg where
  n : Nat
  bar : Nat
  conf : BitVec 58
  phase : Word
  tos : List Nat
  deriving DecidableEq, Repr

/-- A node's count of one phase: NPART, the contexts whose cores have reported, and at ROOT the modules. -/
structure BarCount where
  phase : Word
  npart : Nat
  ctxs : List Nat
  mods : List Nat
  deriving DecidableEq, Repr

/-- A key of a barrier node (R397): SCOPE, instance, barrier number and GROUP; `done` is the last phase completed.
Level 6 is the ROOT count of a `.pd` barrier. -/
structure BarNode where
  level : Nat
  inst : Nat
  bar : Nat
  group : BitVec 16
  nmodm : Nat
  done : Word
  counts : List BarCount
  deriving DecidableEq, Repr

/-- What a pod barrier packet says (R399). -/
structure PodMsg where
  kind : Bool
  bar : BitVec 7
  group : BitVec 16
  nmodm : BitVec 10
  src : BitVec 10
  phase : Word
  /-- At ROOT: the module to which a completion is still to be sent (R398). -/
  dest : Option Nat
  deriving DecidableEq, Repr

/-- A request at a leave arbiter, oldest first; `due` is the clk at which an admitted one arrives (R457). -/
structure LeaveReq where
  core : Nat
  w : BitVec 16
  due : Option Nat
  deriving DecidableEq, Repr

/-- Where a kernel instance stands (R18). -/
inductive KSt where
  | queued | ready | placing | running | stopping | preempted
  deriving DecidableEq, Repr

/-- A member's saved image: its context, its core's matrix and barrier items, the number of its save area, w12 of its
header, the counter adds of the context that were under way, and what was live: SL, TL with the targets of pending lateral
loads (R191), and QL (R431-R433). -/
structure Saved where
  rank : Nat
  n : Nat
  ctx : Ctx
  matrix : Option Matrix
  bars : KMap Barrier
  area : Nat
  wait : BitVec 17
  adds : List Nat
  live : Nat
  deriving DecidableEq, Repr

/-- An unretired kernel instance: the distributor's record copy and state (R308, R321). `run` is the longest
straight-line run of its image, `resv` its reservation target (contexts, and per quad its arena base), `resvAt` the
order of the reservation. `members` and `arenas` are in rank and quad order, `retired` holds ranks, `oldArenas` the
arenas that a resumption has still to move, and `areas` the save areas taken for a pre-emption. -/
structure Kern where
  kid : BitVec 32
  words : List Word
  st : KSt
  accNo : Nat
  byp : Nat
  resv : Option (List Nat × List (Nat × Nat))
  resvAt : Nat
  run : Nat
  parent : Option (BitVec 32)
  deps : List Bool
  pats : List Bool
  members : List Nat
  arenas : List (Nat × Nat)
  oldArenas : List (Nat × Nat)
  retired : List Nat
  placedAt : Nat
  areas : List Nat
  saved : List Saved
  nodes : List BarNode
  aov : Option Word
  deriving DecidableEq, Repr

/-- A launch record on its way to the distributor (R309, R319). -/
structure Launch where
  fromHost : Option Nat
  n : Nat
  cmd : Nat
  addr : Word
  words : List Word
  aov : Option Word
  deriving DecidableEq, Repr

/-- A table pointer met on a walk (R372): the table of level `lvl` for the range of addresses that begins at `base`. -/
structure TlbPtr where
  lvl : Nat
  base : Nat
  tbl : Nat
  deriving DecidableEq, Repr

/-- A translation-buffer entry: page (ASID, page base, size exponent, leaf) and the table pointers of its walk (R372). -/
structure TlbEnt where
  buf : Nat
  asid : BitVec 16
  va : Nat
  ps : Nat
  leaf : Word
  ptrs : List TlbPtr
  deriving DecidableEq, Repr

/-- A cached skein block: pool physical address, skein id, logical block and physical block (R372). -/
structure SkbEnt where
  buf : Nat
  pool : Nat
  id : BitVec 24
  lb : Nat
  blk : Nat
  deriving DecidableEq, Repr

/-- A Yelnak message (R452). -/
structure HostMsg where
  typ : BitVec 8
  tag : BitVec 16
  phys : Bool
  rel : Bool
  acq : Bool
  scope : BitVec 3
  asid : BitVec 16
  addr : BitVec 56
  len : BitVec 16
  val : Word
  payload : List Byte
  deriving DecidableEq, Repr

/-- A Yelnak response, or a notice of a kill (typ 0) (R453, R424). -/
structure HostResp where
  typ : BitVec 8
  tag : BitVec 16
  status : BitVec 8
  code : BitVec 8
  cnt : BitVec 8
  result : Word
  payload : List Byte
  deriving DecidableEq, Repr

/-- What comes from outside the module (log 17). -/
inductive InKind where
  | msg (b : List Byte)
  | lossOfLock (l : Nat)
  | crcError (l : Nat)
  | linkUp (l : Nat)
  | packet (port : Nat) (p : Packet)
  | digest (src : BitVec 10) (flow : BitVec 20) (seqn : BitVec 32) (dig : BitVec 32)
  | dataError (pa : Nat)
  | coldReset
  | warmReset
  deriving DecidableEq, Repr

/-- An input and the wall clk at which it arrives. -/
structure Input where
  wclk : Nat
  what : InKind
  deriving DecidableEq, Repr

/-- A step of the machine that is due at wall clk `due`: at its start, or, where `late`, after its bundles. -/
structure Timed where
  due : Nat
  late : Bool
  ev : Instr
  deriving DecidableEq, Repr

/-- An engine, flow or lateral access that waits at its banks (R155): its class (0 lateral, 1 engine, 2 flow), the clk from
which it has waited, the bank rows (by physical address ÷ 256) not yet granted, and the step that makes it. -/
structure BankClaim where
  kind : Nat
  since : Nat
  rows : List Nat
  ev : Instr
  deriving DecidableEq, Repr

/-- A black-box entry (R459). `src` ranks its source among those of one clk: dies 0-3, seam gateways 4, switch ports 5,
the distributor 6, the power controller 7; 8 once the clk has ended. -/
structure BBox where
  seqn : Word
  clk : Word
  kind : BitVec 8
  code : BitVec 8
  kid : BitVec 32
  who : BitVec 12
  val : Word
  src : Nat
  /-- The level of a containment record (R425): 0 core to 4 pod; 5 for an entry without one. -/
  level : Nat
  deriving DecidableEq, Repr

/-- The management block (R445). -/
structure Mgmt where
  boot : BitVec 3
  why : BitVec 5
  warm : Bool
  bootlen : BitVec 32
  modn : BitVec 10
  plim : BitVec 12
  lbud : KMap (BitVec 16)
  lthr : KMap (BitVec 16)
  lheld : KMap (BitVec 16)
  tj : KMap (BitVec 8)
  svbase : BitVec 27
  svcnt : BitVec 16
  route : KMap (BitVec 5)
  ldrop : KMap (BitVec 32)
  nrdrop : BitVec 32
  pair0 : KMap (BitVec 42)
  pair1 : KMap (BitVec 26)
  /-- Halvings in force and the values before the first (R458). -/
  halved : Nat
  lbud0 : KMap (BitVec 16)
  curlim0 : KMap (BitVec 24)
  cool : Nat
  samples : Nat
  bootcnt : BitVec 32
  /-- SHA-384 of the running firmware image (R455). -/
  imgHash : Nat
  deriving DecidableEq, Repr

/-- A record for which room is being made (R317): its die, 4 for all dies, the victims, and what they leave and is held for
it: contexts, each with whether it is its core's only one, whether it has the matrix unit, and its barriers; arenas (quad,
base, units). -/
structure Making where
  die : Nat
  kid : BitVec 32
  victims : List (BitVec 32)
  ctxs : List (Nat × Bool × Bool × BitVec 128)
  arenas : List (Nat × Nat × Nat)
  deriving DecidableEq, Repr

/-- The distributor (R309, R316, R321). -/
structure Dist where
  kerns : List Kern
  nextKid : BitVec 32
  nextAcc : Nat
  nextResv : Nat
  arriving : List Launch
  making : List Making
  deriving DecidableEq, Repr

/-- What the move just executed met at issue: nothing, a trap (the step of R48 that raised it, its code and value), a
block (R21), or a hold that freezes the core before issue (R22). -/
inductive Note where
  | quiet
  | trap (rank code : Nat) (val : Word)
  | block
  | hold (event : Nat)
  deriving DecidableEq, Repr

/-- The issue latch: the context and bundle now issuing and the context and core as they stood at the start of
the clk, from which every source, guard and check reads (R37). The model's own field (log 1). -/
structure Latch where
  n : Nat
  slot : Nat
  hdr : Word
  pc : Word
  slots : List (BitVec 24)
  ctx : Ctx
  core : Core
  note : Note
  /-- Weights charged by the bundle so far (R61). -/
  weight : Nat
  /-- The walk has ignored the bundle's trap: the bundle counts as issued (R423). -/
  passed : Bool
  deriving DecidableEq, Repr

/-- One GR9 module. -/
structure State where
  clk : Nat
  free : Nat
  serial : Nat
  mem : List Host.Cell
  /-- Aligned 8-byte words with an uncorrectable error (R169, R196). -/
  bad : List Nat
  ctxs : KMap Ctx
  cores : KMap Core
  bankPtr : KMap Nat
  /-- Accesses other than the cores' that wait at a bank (R155), and per bank the first clk in which one that has waited 16
  clks may be granted. -/
  bankq : List BankClaim
  bankNext : KMap Nat
  /-- The model's own: banks granted in this clk, and the bank rows that the step under trial touches (log 5). -/
  bankNow : List Nat
  trace : Option (List Nat)
  /-- Control-space writes to be performed at the end of the clk, each with its source: a context, or 2^20 for the host; in order
  (R160, R162). -/
  ctlw : List (Nat × Instr)
  replyCache : KMap (List (BitVec 8 × Word))
  tlb : List TlbEnt
  skb : List SkbEnt
  reqs : KMap Req
  /-- The next SEQ of each request source, by its 16-bit id (R302). -/
  srcSeq : KMap (BitVec 32)
  /-- The reply caches: for 65,536 × home slice + source id, the last eight pairs, newest first (R302, R228). -/
  replies : KMap (List (BitVec 32 × Reply))
  waiters : List Nat
  routers : KMap Router
  holders : KMap Holder
  links : KMap Link
  /-- Packets off the routers, by serial number: on the base-die fabric (0), on seam link g to the base die (1) or from it
  (100 + g), leaving by switch port p (2 + p), or waiting for room on link l (200 + l). -/
  transit : KMap (Nat × Packet)
  pats : List Pattern
  nextPid : BitVec 32
  /-- Patterns that have been live and are retired (R312). -/
  oncePats : List (BitVec 32)
  loads : List PatLoad
  reshards : KMap Reshard
  skWait : KMap (List (Nat × Nat))
  barMsgs : KMap BarMsg
  barNodes : List BarNode
  podMsgs : KMap PodMsg
  portOut : List (Nat × Packet)
  leaveReqs : KMap (List LeaveReq)
  dist : Dist
  mgmt : Mgmt
  bb : List BBox
  bbseq : Word
  /-- Host messages without a response, and the tags of those not yet performed, in arrival order (R453). -/
  host : List HostMsg
  hostq : List (BitVec 16)
  resps : List HostResp
  digests : List (Nat × BitVec 20 × BitVec 32 × BitVec 32 × Bool)
  /-- Digests sent to partners: the module number, FLOW, SEQ and the digest (R460). -/
  digestOut : List (BitVec 10 × BitVec 20 × BitVec 32 × BitVec 32)
  /-- Messages whose link flits the Yelnak link has not received yet, and how many responses have been put onto it (R452). -/
  yelIn : List (List Byte)
  yelSent : Nat
  /-- Compute dies fenced by a seam link that went down (R28, R451). -/
  dieFence : List Nat
  cal : List Timed
  inputs : List Input
  iss : Latch
  deriving DecidableEq, Repr

def Mgmt.reset : Mgmt :=
  { boot := 0, why := 0, warm := false, bootlen := 0, modn := 0, plim := Config.plim, lbud := [], lthr := [],
    lheld := [], tj := [], svbase := 0, svcnt := 0, route := [], ldrop := [], nrdrop := 0, pair0 := [], pair1 := [],
    halved := 0, lbud0 := [], curlim0 := [], cool := 0, samples := 0, bootcnt := 0, imgHash := 0 }

def Dist.reset : Dist := ⟨[], 1, 0, 0, [], []⟩

def Latch.reset : Latch := ⟨0, 0, 0, 0, [], Ctx.reset, Core.reset, .quiet, 0, false⟩

/-- The module after a cold reset: boot-hold, HBM scrubbed, nothing placed (R445, R454, R170). -/
def State.reset : State :=
  { clk := 0, free := 0, serial := 1, mem := [], bad := [], ctxs := [], cores := [], bankPtr := [], bankq := [], bankNext := [], bankNow := [], trace := none, ctlw := [], replyCache := [],
    tlb := [], skb := [], reqs := [], srcSeq := [], replies := [], waiters := [], routers := [], holders := [], links := [], transit := [],
    pats := [], nextPid := 1, oncePats := [], loads := [], reshards := [], skWait := [], barMsgs := [], barNodes := [], podMsgs := [],
    portOut := [], leaveReqs := [], dist := Dist.reset, mgmt := Mgmt.reset, bb := [], bbseq := 0,
    host := [], hostq := [], resps := [], digests := [], digestOut := [], yelIn := [], yelSent := 0, dieFence := [], cal := [], inputs := [], iss := Latch.reset }

end Sys2Proof.Machine
end

