-- ==== Sys2Proof/Machine/Ops.lean ====
section
/-!
DEFINITION. The named operations over the state: numbering (R9), access to items, free values, time, memory,
vault addresses (R151-R153), address translation (R369-R373), landings (R42-R43), tokens (R395), the black box
(R459), taking a trap and returning from one (R412-R420), and the containment walk (R422-R426).
-/

namespace Sys2Proof.Machine

abbrev Out := Host.Outcome State Fault Refusal

/-! ## Numbering (R9) -/

def coreOf (n : Nat) : Nat := n / 4
/-- The module node number 64 × die + node of a context. -/
def quadOf (n : Nat) : Nat := n / 16
def nodeOf (n : Nat) : Nat := n / 16 % 64
def dieOf (n : Nat) : Nat := n / 1024

/-- The scope instances of R10 meet: do contexts `a` and `b` lie in one instance of scope code `sc`? -/
def meets (sc a b : Nat) : Bool :=
  match sc with
  | 0 => decide (a = b)
  | 1 => decide (a / 4 = b / 4)
  | 2 => decide (a / 16 = b / 16)
  | 3 => decide (a / 1024 = b / 1024)
  | _ => true

/-! ## Items -/

def State.ctx (s : State) (n : Nat) : Ctx := KMap.get Ctx.reset s.ctxs n
def State.setCtx (s : State) (n : Nat) (c : Ctx) : State := { s with ctxs := KMap.put s.ctxs n c }
def State.updCtx (s : State) (n : Nat) (f : Ctx → Ctx) : State := s.setCtx n (f (s.ctx n))
def State.core (s : State) (c : Nat) : Core := KMap.get Core.reset s.cores c
def State.setCore (s : State) (c : Nat) (k : Core) : State := { s with cores := KMap.put s.cores c k }
def State.updCore (s : State) (c : Nat) (f : Core → Core) : State := s.setCore c (f (s.core c))
def State.holder (s : State) (h : Nat) : Holder := KMap.get Holder.reset s.holders h
def State.updHolder (s : State) (h : Nat) (f : Holder → Holder) : State :=
  { s with holders := KMap.put s.holders h (f (s.holder h)) }
def State.router (s : State) (h : Nat) : Router := KMap.get Router.reset s.routers h
def State.updRouter (s : State) (h : Nat) (f : Router → Router) : State :=
  { s with routers := KMap.put s.routers h (f (s.router h)) }
def State.link (s : State) (l : Nat) : Link := KMap.get Link.reset s.links l
def State.updLink (s : State) (l : Nat) (f : Link → Link) : State :=
  { s with links := KMap.put s.links l (f (s.link l)) }

def Ctx.updCtl (c : Ctx) (f : Ctl → Ctl) : Ctx := { c with ctl := f c.ctl }
def Ctx.updInf (c : Ctx) (f : Inflight → Inflight) : Ctx := { c with inf := f c.inf }
def Ctx.updRegs (c : Ctx) (f : Regs → Regs) : Ctx := { c with regs := f c.regs }
def Ctx.updBaste (c : Ctx) (f : Baste → Baste) : Ctx := { c with baste := f c.baste }

/-- Scalar register n (R103). -/
def Regs.sreg (r : Regs) (n : Nat) : Word := KMap.get 0 r.s n
/-- Tile register n (R120). -/
def Regs.treg (r : Regs) (n : Nat) : Tile := KMap.get 0 r.t n
/-- A value tag (R239). -/
def Regs.tag (r : Regs) (k : Nat) : Tag := KMap.get 0 r.tags k
def Regs.setS (r : Regs) (n : Nat) (v : Word) : Regs := { r with s := KMap.set 0 r.s n v }
def Regs.setT (r : Regs) (n : Nat) (v : Tile) : Regs := { r with t := KMap.set 0 r.t n v }
/-- Write a tile row; the row counts as written in this clk (R191). -/
def Regs.setRow (r : Regs) (n k : Nat) (v : Row) : Regs :=
  { r.setT n (tileSet (r.treg n) k v) with wrote := (8 * n + k) :: r.wrote }
def Regs.setTag (r : Regs) (k : Nat) (v : Tag) : Regs := { r with tags := KMap.set 0 r.tags k v }
def Regs.setG (r : Regs) (n : Nat) (b : Bool) : Regs :=
  { r with g := if b then r.g ||| BitVec.ofNat 8 (2 ^ n) else r.g &&& ~~~(BitVec.ofNat 8 (2 ^ n)) }

/-- Token register n (R395). -/
def Ctx.tok (c : Ctx) (n : Nat) : Token := KMap.get Token.reset c.toks n
def Ctx.setTok (c : Ctx) (n : Nat) (t : Token) : Ctx := { c with toks := KMap.put c.toks n t }
/-- A producer that names token n issues (R395). -/
def Ctx.tokPend (c : Ctx) (n : Nat) : Ctx := c.setTok n { c.tok n with st := .pending }
/-- The producer of token n completes with a value (R395). -/
def Ctx.tokWrite (c : Ctx) (n : Nat) (v : Word) : Ctx := c.setTok n ⟨.written, v⟩

def Ctx.cb (c : Ctx) (n : Nat) : Cb := KMap.get Cb.reset c.cbs n
def Ctx.setCb (c : Ctx) (n : Nat) (b : Cb) : Ctx := { c with cbs := KMap.put c.cbs n b }
def Ctx.sk (c : Ctx) (n : Nat) : Sk := KMap.get Sk.reset c.sks n
def Ctx.setSk (c : Ctx) (n : Nat) (b : Sk) : Ctx := { c with sks := KMap.put c.sks n b }
def Ctx.queue (c : Ctx) (fu : Nat) : List Cmd := KMap.get [] c.queues fu
def Ctx.setQueue (c : Ctx) (fu : Nat) (q : List Cmd) : Ctx := { c with queues := KMap.set [] c.queues fu q }
def Core.bar (k : Core) (b : Nat) : Barrier := KMap.get Barrier.reset k.bars b
def Core.setBar (k : Core) (b : Nat) (x : Barrier) : Core := { k with bars := KMap.put k.bars b x }

/-- The operand port of a unit as it stands: a scalar port holds a word (R36). -/
def Ctx.portW (c : Ctx) (fu port : Nat) : Word :=
  match KMap.get (.s 0) c.ports (4 * fu + port) with
  | .s v => v
  | _ => 0
/-- A row operand port. -/
def Ctx.portR (c : Ctx) (fu port : Nat) : Row :=
  match KMap.get (.s 0) c.ports (4 * fu + port) with
  | .r v => v
  | .s v => rowFill (v.setWidth 32)
  | .t _ => 0
/-- A tile operand port. -/
def Ctx.portT (c : Ctx) (fu port : Nat) : Tile :=
  match KMap.get (.s 0) c.ports (4 * fu + port) with
  | .t v => v
  | .s v => tileFill (rowFill (v.setWidth 32))
  | .r _ => 0

/-- Is a member present and its work going on? -/
def Ctx.live (c : Ctx) : Bool := c.st ≠ .empty
def Ctx.active (c : Ctx) : Bool := c.st = .running || c.st = .draining

/-! ## Free values, serial numbers, time -/

/-- A free number from `lo` to `hi` (log 2). -/
def drawNat (s : State) (lo hi : Nat) : Nat × State :=
  (lo + Config.freeNat s.free % (hi - lo + 1), { s with free := s.free + 1 })

/-- A free word (log 12). -/
def drawWord (s : State) : Word × State := (Config.freeWord s.free, { s with free := s.free + 1 })

/-- A fresh serial number. -/
def fresh (s : State) : Nat × State := (s.serial, { s with serial := s.serial + 1 })

/-- Insert an event in the order of its clk, after those of the same clk. -/
def calInsert (t : Timed) : List Timed → List Timed
  | [] => [t]
  | x :: xs => if t.due < x.due then t :: x :: xs else x :: calInsert t xs

/-- Let a step of the machine happen at wall clk `due`. -/
def State.at (s : State) (due : Nat) (late : Bool) (ev : Instr) : State :=
  { s with cal := calInsert ⟨due, late, ev⟩ s.cal }

/-- The trial of a step (R155) notes the vault bank rows that an access of n bytes touches. -/
def State.touch (s : State) (pa n : Nat) : State :=
  match s.trace with
  | none => s
  | some l =>
    if n = 0 ∨ pa < 0xF00000000000 ∨ 0xF00080000000 ≤ pa then s
    else
      let new := (List.range ((pa + n - 1) / 256 - pa / 256 + 1)).map fun i => pa / 256 + i
      { s with trace := some (new.foldl (fun l r => if l.contains r then l else r :: l) l) }

/-- Let it happen within lo to hi clks from now. -/
def State.within (s : State) (lo hi : Nat) (ev : Instr) : State :=
  let (d, s) := drawNat s lo hi
  s.at (s.clk + d) false ev

/-- `n` events of number `ev` on a core, which its counters add at the end of the clk (R410). -/
def Core.count (k : Core) (ev n : Nat) : Core :=
  (List.range 4).foldl (fun k i =>
    if bits k.evsel.toNat (8 * i) 8 = ev ∧ ev ≠ 0 then
      { k with evp := KMap.set 0 k.evp i (KMap.get 0 k.evp i + BitVec.ofNat 48 n) } else k) k

/-- The end of a clk: each counter adds its events of the clk, and is 0 where EVSEL changed its number (R410). -/
def Core.countEnd (k : Core) : Core :=
  if k.evp = [] ∧ k.evz = 0 then k
  else { k with
    evp := []
    evz := 0
    evc := (List.range 4).foldl (fun m i =>
      KMap.set 0 m i (if k.evz.getLsbD i then 0 else KMap.get 0 m i + KMap.get 0 k.evp i)) k.evc }

/-- `n` events of number `ev` of the router of quad h, for each core of the quad (R410). -/
def State.countQuad (s : State) (h ev n : Nat) : State :=
  if n = 0 then s else { s with cores := s.cores.map fun p => (p.1, if p.1 / 4 = h then p.2.count ev n else p.2) }

/-- A change of holder h, with an event for each rise of MALF, DUPD, STRAYD, CONF and ABND (R306, R323, R410). -/
def State.holderCounts (s : State) (h : Nat) (f : Holder → Holder) : State :=
  let x := s.holder h
  let y := f x
  (((((s.updHolder h fun _ => y).countQuad h 0x40 (y.malf - x.malf).toNat).countQuad h 0x41 (y.dupd - x.dupd).toNat).countQuad
    h 0x42 (y.strayd - x.strayd).toNat).countQuad h 0x43 (y.conf - x.conf).toNat).countQuad h 0x44 (y.abnd - x.abnd).toNat

/-! ## Holders (R322)

Holders 0-255 are the routers, 256-287 the seam gateways (8 die + number), 288-303 the switch ports. -/

def holdKind (h : Nat) : Nat := if h < 256 then 0 else if h < 288 then 1 else 2
def holdNum (h : Nat) : Nat := if h < 256 then h % 64 else if h < 288 then (h - 256) % 8 else h - 288
def holdDie (h : Nat) : Nat := if h < 256 then h / 64 else if h < 288 then (h - 256) / 8 else 0

/-- The holder word of a holder (R322). -/
def holdWord (h : Nat) : Nat := holdKind h + holdNum h * 8 + holdDie h * 512

/-- The holder of a kind, number and die. -/
def holderAt (kind num die : Nat) : Option Nat :=
  match kind with
  | 0 => some (64 * die + num)
  | 1 => if num < 8 then some (256 + 8 * die + num) else none
  | 2 => if num < 16 then some (288 + num) else none
  | _ => none

/-- The holder of a holder word. -/
def holderOf (w : Nat) : Option Nat := holderAt (bits w 0 3) (bits w 3 6) (bits w 9 2)

/-! ## Black box (R459) -/

/-- The last `n` elements of a list. -/
def newest {α : Type} (n : Nat) (l : List α) : List α := (l.reverse.take n).reverse

/-- The `who` of an entry: a context number, or one of these for a holder and for an entry that has neither. -/
def whoHolder (h : Nat) : Nat := 4096 + holdWord h
def whoNone : Nat := 8192

/-- The rank of an entry's source (R459, log 50). -/
def bbSource (kind who : Nat) : Nat :=
  if who < 4096 then who / 1024
  else if who < 8192 then
    match bits who 0 3 with | 0 => bits who 9 2 | 1 => 4 | _ => 5
  else if kind = 4 then 7 else 6

/-- Write an entry of a level of the containment walk (R425); the value of an entry that records no code is not stated
(log 50). -/
def State.bbAddL (s : State) (level kind code : Nat) (kid : BitVec 32) (who : Nat) (v : Word) : State :=
  let q := s.bbseq.toNat
  let e : BBox := ⟨s.bbseq, w64 s.clk, BitVec.ofNat 8 kind, BitVec.ofNat 8 code, kid,
    if who < 8192 then BitVec.ofNat 12 who else Config.bboxWho q, if kind = 1 then v else Config.bboxValue q,
    bbSource kind who, level⟩
  { s with bb := newest 4096 (s.bb ++ [e]), bbseq := s.bbseq + 1 }

/-- Write an entry that has no level. -/
def State.bbAdd (s : State) (kind code : Nat) (kid : BitVec 32) (who : Nat) (v : Word) : State :=
  s.bbAddL 5 kind code kid who v

/-- The entries of a clk stand in the order of their sources (R459). -/
def bbOrder (s : State) : State :=
  match s.bb.getLast? with
  | none => s
  | some e =>
    if e.src = 8 then s
    else
      let old := s.bb.takeWhile fun e => e.src = 8
      let new := s.bb.drop old.length
      let first := ((new.head?).map (·.seqn)).getD 0
      let new := (List.range 8).flatMap fun k => new.filter fun e => e.src = k
      { s with bb := old ++ new.zipIdx.map fun p => { p.1 with seqn := first + BitVec.ofNat 64 p.2, src := 8 } }

/-! ## Memory and the vault -/

def State.rd (s : State) (pa n : Nat) : Nat := Memory.readN s.mem pa n
/-- Store bytes. A word written whole no longer holds its error (R196). -/
def State.wr (s : State) (pa v n : Nat) : State :=
  { s with
    mem := Memory.writeN s.mem pa v n
    bad := s.bad.filter fun b => !(decide (pa ≤ b ∧ b + 8 ≤ pa + n)) }
def State.rd64 (s : State) (pa : Nat) : Word := w64 (s.rd pa 8)
def State.wr64 (s : State) (pa : Nat) (v : Word) : State := s.wr pa v.toNat 8

/-- Physical address of the vault aperture byte (R161); `q` is the module node number. -/
def vaultPA (q sa : Nat) : Nat := 0xF00000000000 + q * 2 ^ 23 + sa

/-- Physical address of an arena offset on quad q (R153). -/
def arenaPA (c : Ctx) (q off : Nat) : Nat := vaultPA q (65536 * c.ctl.arenaBase.toNat + off)

/-- The module node number of quad index qi of the crew on the context's die (R151). -/
def quadAt (c : Ctx) (n qi : Nat) : Nat := 64 * dieOf n + (c.quads[qi]?.getD 0)

/-- Physical address of an offset in the crew's arena on the quad of index qi, where its base is that quad's (R16,
R153). -/
def crewPA (c : Ctx) (n qi off : Nat) : Nat :=
  let b := if quadAt c n qi = quadOf n then c.ctl.arenaBase else (c.bases[qi]?).getD c.ctl.arenaBase
  vaultPA (quadAt c n qi) (65536 * b.toNat + off)

/-- Physical address of a vault-window address (R151-R153). -/
def windowPA (c : Ctx) (n : Nat) (a : Word) : Nat := crewPA c n (fld a 23 6) (fld a 0 23)

/-- The context image that was running in context n and satisfies `p`: the live one, else a saved member's (R191,
R433). -/
def findImage (s : State) (n : Nat) (p : Ctx → Bool) : Option Ctx :=
  if p (s.ctx n) then some (s.ctx n)
  else (s.dist.kerns.flatMap (·.saved)).find? (fun m => m.n = n && p m.ctx) |>.map (·.ctx)

/-- Change that image. -/
def updImage (s : State) (n : Nat) (p : Ctx → Bool) (f : Ctx → Ctx) : State :=
  if p (s.ctx n) then s.updCtx n f
  else { s with dist := { s.dist with kerns := s.dist.kerns.map fun k =>
    { k with saved := listUpd (fun m => m.n = n && p m.ctx) (fun m => { m with ctx := f m.ctx }) k.saved } } }

/-- Bytes of the arena. -/
def arenaBytes (c : Ctx) : Nat := 65536 * c.ctl.arenaSize.toNat

/-- The bytes n from an arena offset of the context's own quad. -/
def State.rdArena (s : State) (n off k : Nat) : Nat := s.rd (arenaPA (s.ctx n) (quadOf n) off) k

/-- Does a range hold a word with an uncorrectable error (R169)? The lowest such address. -/
def State.badIn (s : State) (pa n : Nat) : Option Nat := s.bad.find? fun b => pa < b + 8 ∧ b < pa + n

/-- Bundles of the code region: NBUN of the table bundle (R388). -/
def nbun (s : State) (n : Nat) : Nat := s.rdArena n 0 4

/-- Is a PC in the code region and aligned (R29, R113)? -/
def inCode (s : State) (n : Nat) (pc : Word) : Bool :=
  pc.toNat % 32 = 0 && pc.toNat < 32 * nbun s n && pc.toNat + 32 ≤ arenaBytes (s.ctx n)

/-- The address conditions of R169 in the order of R185 step 4. -/
def vaultCheck (c : Ctx) (a : Word) (isLocal : Bool) (algn size : Nat) : Option (Nat × Word) :=
  if isLocal && a.toNat ≥ 2 ^ 23 then some (0x20, a)
  else if !isLocal && (a.toNat ≥ 2 ^ 29 || c.quads.length ≤ fld a 23 6) then some (0x20, a)
  else if a.toNat % algn ≠ 0 then some (0x21, a)
  else if fld a 0 23 + size > arenaBytes c then some (0x20, a)
  else none

/-! ## Translation (R369-R373) -/

/-- A fault: its code and value. -/
abbrev Flt := Nat × Word

/-- Page bits of PS (R370). -/
def pageBits (ps : Nat) : Nat := match ps with | 0 => 16 | 1 => 21 | 2 => 26 | _ => 30

/-- Is a leaf of size PS allowed at a level (R369)? -/
def leafAt (lvl ps : Nat) : Bool :=
  (lvl = 2 && ps = 3) || (lvl = 1 && (ps = 1 || ps = 2)) || (lvl = 0 && ps = 0)

/-- Index bits of a level: lowest bit and width (R369). -/
def lvlBits (lvl : Nat) : Nat × Nat :=
  match lvl with
  | 4 => (47, 9) | 3 => (38, 9) | 2 => (30, 8) | 1 => (21, 9) | _ => (16, 5)

/-- Is a physical address in the HBM range (R161)? -/
def inHbm (pa n : Nat) : Bool := pa + n ≤ 0x7FE0000000

/-- The entry that a translation uses where it meets a leaf of a 64 MiB page: any one of the 32 of its group, a free choice
where they differ (R370). -/
def groupEntry (s : State) (ea : Nat) (e : Word) : Word :=
  if e.getLsbD 0 && !e.getLsbD 1 && fld e 2 2 = 2 then
    let es := (List.range 32).map fun i => s.rd64 (ea - ea % 256 + 8 * i)
    if es.all fun x => x = e then e else es[Config.freeNat s.free % 32]?.getD e
  else e

/-- The range of addresses that a table of level k covers begins at this address for `va`. -/
def tableBase (k : Nat) (va : Word) : Nat := let n := (lvlBits k).1 + (lvlBits k).2; va.toNat >>> n <<< n

/-- The walk of R371 from the table at `t` of level k: the leaf, and the table pointers met. -/
def walkFrom (s : State) (va : Word) (ps : List TlbPtr) : Nat → Nat → Except Flt (Word × List TlbPtr)
  | 0, _ => .error (0x22, va)
  | k + 1, t =>
    let (lo, w) := lvlBits k
    let ea := t + 8 * fld va lo w
    if !inHbm ea 8 then .error (0x26, w64 t)
    else
      let e := s.rd64 ea
      let e := if k = 1 then groupEntry s ea e else e
      if !e.getLsbD 0 || fld e 4 4 ≠ 0 || fld e 55 9 ≠ 0 then .error (0x22, va)
      else
        let ad := fld e 8 40 * 256
        if e.getLsbD 1 then
          (match k with
           | 0 => .error (0x22, va)
           | j + 1 => if ad % (8 * 2 ^ (lvlBits j).2) ≠ 0 then .error (0x22, va) else walkFrom s va (⟨j, tableBase j va, ad⟩ :: ps) k ad)
        else if !leafAt k (fld e 2 2) || ad % 2 ^ pageBits (fld e 2 2) ≠ 0 then .error (0x22, va)
        else .ok (e, ps)

/-- The table pointers of a buffer from which a walk may begin (R372, R373). -/
def heldPtrs (s : State) (buf : Nat) (asid : BitVec 16) (va : Word) : List TlbPtr :=
  ((s.tlb.filter fun e => e.buf = buf ∧ e.asid = asid).flatMap (·.ptrs)).filter fun p => p.base = tableBase p.lvl va

/-- The leaf of a virtual address by the tables (R371), from the root or from a table pointer that the buffer holds: which
is a free choice (R373). -/
def walkTables (s : State) (buf : Nat) (asid : BitVec 16) (root : BitVec 36) (va : Word) : Except Flt (Word × List TlbPtr) :=
  let ps := heldPtrs s buf asid va
  if fld va 56 8 ≠ 0 then .error (0x22, va)
  else if ps = [] then walkFrom s va [] 5 (root.toNat * 4096)
  else match ps[Config.freeNat s.free % (ps.length + 1)]? with
    | some p => walkFrom s va [p] (p.lvl + 1) p.tbl
    | none => walkFrom s va [] 5 (root.toNat * 4096)

/-- The page entry that a buffer holds for an address (R372). -/
def tlbFind (s : State) (buf : Nat) (asid : BitVec 16) (va : Word) : Option TlbEnt :=
  s.tlb.find? fun e => e.buf = buf ∧ e.asid = asid ∧ e.va = va.toNat >>> pageBits e.ps <<< pageBits e.ps

/-- The leaf that a translation through a buffer uses (R373, log 6). -/
def leafOf (s : State) (buf : Nat) (asid : BitVec 16) (root : BitVec 36) (va : Word) : Except Flt Word :=
  if fld va 56 8 ≠ 0 then .error (0x22, va)
  else match tlbFind s buf asid va with
    | some e => .ok e.leaf
    | none => (walkTables s buf asid root va).map (·.1)

/-- A buffer's share of a list of cached entries with a new one: where it is full, the new one replaces one of them, a free
choice (R372, R373). -/
def replaceIn {α : Type} [DecidableEq α] (mine : α → Bool) (cap pick : Nat) (l : List α) (x : α) : List α :=
  let own := l.filter mine
  if own.length < cap then l ++ [x]
  else match own[pick % own.length]? with
    | some y => l.erase y ++ [x]
    | none => l ++ [x]

/-- Fill a buffer with the leaf a walk found (R372): 1,024 pages in a quad's, 4,096 in the base die's. -/
def tlbFill (s : State) (buf : Nat) (asid : BitVec 16) (root : BitVec 36) (va : Word) : State :=
  match tlbFind s buf asid va with
  | some _ => s
  | none => match walkTables s buf asid root va with
    | .ok (e, ptrs) =>
      let ps := fld e 2 2
      { s with
        free := s.free + 2
        tlb := replaceIn (fun e => e.buf = buf) (if buf < 256 then 1024 else 4096) (Config.freeNat (s.free + 1)) s.tlb
          ⟨buf, asid, va.toNat >>> pageBits ps <<< pageBits ps, ps, e, ptrs⟩ }
    | .error _ => s

/-- Physical address of va through a leaf. -/
def leafPA (e va : Word) : Nat := fld e 8 40 * 256 + va.toNat % 2 ^ pageBits (fld e 2 2)

/-- Does the page of a leaf lie in the range of its KIND (R161)? -/
def leafRange (e : Word) : Bool :=
  let b := fld e 8 40 * 256
  let n := 2 ^ pageBits (fld e 2 2)
  match fld e 48 2 with
  | 0 | 1 => inHbm b n
  | 2 => decide (0xFF0000000000 ≤ b ∧ b + n ≤ 0xFF0002000000)
  | _ => decide (0xF00000000000 ≤ b ∧ b + n ≤ 0xF00080000000)

/-- What an access asks of a page. -/
inductive Want where
  | read | write | add | wait
  deriving DecidableEq, Repr

/-- The attribute checks of R169 in the order of its table; `n` is the access size. -/
def leafCheck (e va : Word) (w : Want) (priv : Bool) (n : Nat) : Option Flt :=
  let kind := fld e 48 2
  let ctr := w = .add || w = .wait
  if ((w = .write || w = .add) && !e.getLsbD 52) || (!priv && (e.getLsbD 53 || kind = 2 || kind = 3)) then
    some (0x23, va)
  else if (ctr && (kind ≠ 1 || va.toNat % 8 ≠ 0)) || (!ctr && kind = 1) then some (0x24, va)
  else if kind = 2 && (n ≠ 8 || va.toNat % 8 ≠ 0) then some (0x25, va)
  else if !leafRange e then some (0x26, w64 (leafPA e va))
  else none

/-- Translate and check one access within a page: its physical address. -/
def xlate (s : State) (buf : Nat) (asid : BitVec 16) (root : BitVec 36) (va : Word) (w : Want) (priv : Bool)
    (n : Nat) : Except Flt Nat :=
  match leafOf s buf asid root va with
  | .error f => .error f
  | .ok e => match leafCheck e va w priv n with
    | some f => .error f
    | none => .ok (leafPA e va)

/-- The base-die translation buffer; buffers 0-255 are those of the quads (R372). -/
def baseBuf : Nat := 256

/-! ## Landings (R42, R43) -/

/-- The queue image of a unit. -/
def Ctx.image (c : Ctx) (fu : Nat) : List QEnt := KMap.get [] c.oq fu

/-- Entry of age a: the scalar 0 where nothing has landed (R71). -/
def Ctx.entry (c : Ctx) (fu age : Nat) : QEnt := (c.image fu)[age]?.getD ⟨0, .s 0, 0⟩

/-- One landing: a new entry ages the others (R43), a row fills its entry; flags are ORed (R91). -/
def landOne (c : Ctx) (f : Flight) : Ctx :=
  let c := c.updCtl fun l => { l with flags := l.flags ||| f.flg }
  match f.what with
  | .entry v => { c with oq := KMap.put c.oq f.fu (⟨f.id, v, f.tag⟩ :: (c.image f.fu).take 3) }
  | .row k v =>
    let fill (t : Tile) : Tile := tileSet t k v
    let q := (c.image f.fu).map fun e => if e.id = f.id then
      { e with val := match e.val with | .t t => .t (fill t) | x => x } else e
    let jobs := c.inf.jobs.map fun j => match j.src with
      | .ent i b => if i = f.id then { j with src := .ent i (fill b) } else j
      | _ => j
    { c with oq := KMap.put c.oq f.fu q, inf := { c.inf with jobs := jobs } }

/-- Every landing that is due. -/
def landDue (c : Ctx) : Ctx :=
  let due := c.inf.flights.filter fun f => f.rem = 0
  due.foldl landOne (c.updInf fun i => { i with flights := i.flights.filter fun f => f.rem ≠ 0 })

/-- Put a result in flight with latency `lat` (R42). -/
def Ctx.fly (c : Ctx) (lat fu id : Nat) (v : Landing) (flg : Flg) (tag : OutTag) : Ctx :=
  c.updInf fun i => { i with flights := i.flights ++ [⟨lat, fu, id, v, flg, tag, false⟩] }

/-- Hold a unit for an interval (R60); key 100 is SM's divider, LS and AT share key 8 (R183). -/
def unitKey (fu port : Nat) : Nat := if fu = 2 ∧ 7 ≤ port then 100 else if fu = 9 then 8 else fu
def Ctx.hold (c : Ctx) (fu port int : Nat) : Ctx :=
  if int ≤ 1 then c else c.updInf fun i => { i with held := KMap.put i.held (unitKey fu port) int }

/-- One unfrozen clk of everything in flight: counts fall (R45). -/
def tickInf (i : Inflight) : Inflight :=
  { i with
    flights := i.flights.map fun f => { f with rem := f.rem - 1 }
    fmtPend := i.fmtPend.map fun p => (p.1 - 1, p.2)
    cbAdv := i.cbAdv.map fun p => (p.1 - 1, p.2)
    held := (i.held.map fun p => (p.1, p.2 - 1)).filter fun p => p.2 ≠ 0 }

/-- One clk of an access. One whose bank has not granted every row claims again (R155). -/
def LocalAcc.tick (a : LocalAcc) : LocalAcc := { a with rem := if a.rem = 1 ∧ a.segs ≠ [] then 1 else a.rem - 1 }

/-- An unfrozen clk of one context's work. -/
def tickCtx (c : Ctx) : Ctx :=
  { c with inf := tickInf c.inf, accs := c.accs.map fun a => { a.tick with wall := false } }

/-- A frozen clk of the accesses that the freeze waits for (log 49). -/
def tickWall (c : Ctx) : Ctx :=
  { c with accs := c.accs.map fun a =>
    if a.wall then { a.tick with early := a.early + if a.tick.rem < a.rem then 1 else 0 } else a }

/-- FMT writes whose shadow has ended (R88). -/
def fmtDue (c : Ctx) : Ctx :=
  let due := c.inf.fmtPend.filter fun p => p.1 = 0
  c.updInf fun i => { i with
    fmtEff := (due.getLast?.map (·.2)).getD i.fmtEff
    fmtPend := i.fmtPend.filter fun p => p.1 ≠ 0 }

/-- Write FMT with its four-clk shadow (R88). -/
def writeFmt (c : Ctx) (v : Word) : Ctx :=
  let v := v &&& 0xFFFFFFFFFFFF003F
  { c with ctl := { c.ctl with fmt := v }, inf := { c.inf with fmtPend := c.inf.fmtPend ++ [(5, v)] } }

/-! ## Local accesses (R154, R186, R194) -/

/-- The 64-bit result of an AT operation: the new word, if any, and its flags (R194). -/
def atomicOp (op : Nat) (old cmp arg : Word) : Option Word × Flg :=
  match op with
  | 4 => (some arg, 0)
  | 5 => (if old = cmp then some arg else none, 0)
  | 6 => (some (old + arg), 0)
  | 7 => (some (old &&& arg), 0)
  | 8 => (some (old ||| arg), 0)
  | 9 => (some (old ^^^ arg), 0)
  | 10 => (some (if arg.toInt < old.toInt then arg else old), 0)
  | 11 => (some (if old.toInt < arg.toInt then arg else old), 0)
  | 12 => (some (if arg.toNat < old.toNat then arg else old), 0)
  | 13 => (some (if old.toNat < arg.toNat then arg else old), 0)
  | _ => let (v, f) := ai64Add old arg; (some v, f)

/-- The bytes of an access's data that a segment covers. -/
def segSlice (a : LocalAcc) (g : Seg) : Nat := bits a.data (8 * g.off) (8 * g.len)

/-- A scalar load's value (R187). -/
def loadScalar (bytes : Nat) (sx : Bool) (v : Nat) : Word :=
  w64 (if sx then sext (8 * bytes) 64 v else v % 2 ^ (8 * bytes))

/-- The lanes of a bit-plane load from the bytes of one half of a patch's planes (R188): plane q holds 64 bytes. -/
def planeTile (npl : Nat) (sx : Bool) (data : Nat) : Tile :=
  tileOf fun r => rowOf fun i =>
    let j := 64 * r + i
    let v := packNat 1 (fun b => if data.testBit (512 * (npl - 1 - b) + j) then 1 else 0) npl
    BitVec.ofNat 32 (if sx then sext npl 32 v else v)

/-- Bytes with each erroneous 8-byte word read as 0 (R196). -/
def State.rdDead (s : State) (pa n : Nat) : Nat :=
  packNat 8 (fun i => if s.bad.any fun b => decide (b ≤ pa + i ∧ pa + i < b + 8) then 0 else s.rd (pa + i) 1) n

/-- Reads of a segment into an access's data (a store has none). -/
def accRead (s : State) (a : LocalAcc) (g : Seg) : LocalAcc :=
  match a.fin with
  | .store => a
  | .mat => a
  | _ => { a with data := a.data + (if a.dead then s.rdDead g.pa g.len else s.rd g.pa g.len) <<< (8 * g.off) }

/-- Perform one bank row of an access (R154). -/
def performSeg (s : State) (a : LocalAcc) (g : Seg) : State × LocalAcc :=
  match a.fin with
  | .store => (if a.dead then s else s.wr g.pa (segSlice a g) g.len, a)
  | .atom op cmp arg =>
    if a.dead then (s, a)
    else
      let old := s.rd64 g.pa
      let s := match (atomicOp op old cmp arg).1 with | some v => s.wr64 g.pa v | none => s
      (s, { a with data := old.toNat })
  | _ => (s, accRead s a g)

/-- Perform all bank rows of an access that are still to be performed. -/
def performSegs (s : State) (a : LocalAcc) : State × LocalAcc :=
  (a.won ++ a.segs).foldl (fun (s, a) g => performSeg s a g) (s, a)

/-- What a performed access sends on its way: its landing (R187, R194), and the counts of R193. A landing counts the
unfrozen clks that an access has not used which was performed before its own (R155, R412, log 49). -/
def accDone (c : Ctx) (a : LocalAcc) : Ctx :=
  let e := a.early + a.rem
  let c := match a.fin with
    | .lds b sx => c.fly (3 + e) 8 a.id (.entry (.s (loadScalar b sx a.data))) 0 0
    | .row => c.fly (3 + e) 8 a.id (.entry (.r (BitVec.ofNat 2048 a.data))) 0 0
    | .tileRow k =>
      let r : Row := BitVec.ofNat 2048 a.data
      if k = 0 then c.fly (3 + e) 8 a.id (.entry (.t (tileSet 0 0 r))) 0 0 else c.fly (3 + e) 8 a.id (.row k r) 0 0
    | .ldp npl _ sx =>
      let t := planeTile npl sx a.data
      (List.range 8).foldl (fun c k =>
        if k = 0 then c.fly (3 + e) 8 a.id (.entry (.t (tileSet 0 0 (tileRow t 0)))) 0 0
        else c.fly (3 + e + k) 8 a.id (.row k (tileRow t k)) 0 0) c
    | .store => c
    | .mat => c
    | .atom op cmp arg =>
      c.fly (7 + e) 9 a.id (.entry (.s (w64 a.data))) (if a.dead then 0 else (atomicOp op (w64 a.data) cmp arg).2) 0
  c.updCtl fun l => { l with
    old := if a.lastOld then l.old - 1 else l.old
    ost := if a.lastOst then l.ost - 1 else l.ost }

/-- Perform one access whole. -/
def performAcc (s : State) (n : Nat) (a : LocalAcc) : State :=
  let (s, a') := performSegs s a
  s.updCtx n fun c => accDone { c with accs := c.accs.filter fun x => x ≠ a } a'

/-- The lowest erroneous word that bank rows of an access would read: of a load, an atomic, or a store of part of a
word (R196). -/
def segsBad (s : State) (a : LocalAcc) (l : List Seg) : Option Nat :=
  if a.dead then none
  else (l.filterMap fun g => match a.fin with
    | .store => if g.len < 8 then s.badIn g.pa g.len else none
    | .mat => none
    | _ => s.badIn g.pa g.len).head?

/-- The bundle of an access, by number (R414). -/
def issuedBy (c : Ctx) (id : Nat) : Issued :=
  ((c.recent.find? fun p => p.1 = id).map (·.2)).getD ⟨Bundle.none, c.pc, []⟩

/-- The rows of a list of pieces. -/
def rowCount (l : List Seg) : Nat := (l.map fun g => g.pa / 256).eraseDups.length

/-- Perform one access whole, with its bank rows counted (R410). -/
def performCounted (s : State) (n : Nat) (a : LocalAcc) : State :=
  performAcc (s.updCore (coreOf n) fun k => k.count 0x0B (rowCount (a.won ++ a.segs))) n a

/-- Keep an access in the context's replay buffer, whole (R196, R414). -/
def keepReplay (c : Ctx) (a : LocalAcc) : Ctx :=
  let a' := { a with segs := a.won ++ a.segs, won := [], wall := false }
  { c with
    accs := c.accs.filter fun x => x ≠ a
    replay := some (match c.replay with
      | some r => { r with accs := r.accs ++ [a'] }
      | none => ⟨issuedBy c a.id, c.pc, c.npc, [a']⟩) }

/-- Perform some issued accesses of a context now; one that meets an erroneous word stays in the replay buffer, and those of a
matrix step fall away: the step claims its rows again (R196, R213, R412). -/
def performSome (s : State) (n : Nat) (l : List LocalAcc) : State :=
  l.foldl (fun s a =>
    if a.fin = .mat then s.updCtx n fun c => accDone { c with accs := c.accs.filter fun x => x ≠ a } a
    else if (segsBad s a (a.won ++ a.segs)).isSome then s.updCtx n fun c => keepReplay c a
    else performCounted s n a) s

/-- Perform every issued access of a context, as a capture does (R412). -/
def performAll (s : State) (n : Nat) : State := performSome s n (s.ctx n).accs

/-- The reply cache of the owning quad's atomic unit for a source context (R195). -/
def replyOf (s : State) (q src : Nat) : List (BitVec 8 × Word) := KMap.get [] s.replyCache (q * 4096 + src)

/-- The module node number of a vault aperture address. -/
def quadOfPA (pa : Nat) : Nat := (pa - 0xF00000000000) / 2 ^ 23 % 256

/-- Perform a lateral access at its owning bank (R156, R195): the data or old value, and the memory. One that meets a word
with an uncorrectable error does nothing (R197). -/
def performLat (s : State) (n : Nat) (l : LatAcc) : State × LatAcc :=
  if (s.badIn l.pa l.len).isSome then (s, { l with performed := true, bad := true })
  else match l.atom with
  | none => (s, { l with performed := true, data := s.rd l.pa l.len })
  | some (op, cmp, arg) =>
    let q := quadOfPA l.pa
    match (replyOf s q n).find? fun p => p.1 = l.seqNo with
    | some p => (s, { l with performed := true, data := p.2.toNat, flg := (atomicOp op p.2 cmp arg).2 })
    | none =>
      let old := s.rd64 l.pa
      let (v, f) := atomicOp op old cmp arg
      let s := match v with | some v => s.wr64 l.pa v | none => s
      ({ s with replyCache := KMap.put s.replyCache (q * 4096 + n) (((l.seqNo, old) :: replyOf s q n).take 4) },
        { l with performed := true, data := old.toNat, flg := f })

/-- Perform every lateral access that a context has issued, as the capture of a killed member does (R412, R424). -/
def performLats (s : State) (n : Nat) : State :=
  ((s.ctx n).lats.filter fun l => !l.performed).foldl (fun s l => (performLat s n l).1) s

/-- The row sequencers of a context, those that its trap frame keeps among them (R418). -/
def allJobs (c : Ctx) : List Job := c.inf.jobs ++ (match c.frame with | some f => f.inf.jobs | none => [])

/-- The bytes that a sequencer's store covers: of whole rows, or of plane halves (R186, R188). -/
def jobRange (j : Job) : Option (Nat × Nat) :=
  match j.dst with
  | .stt a => some (a.toNat, 2048)
  | .stp a npl _ => some (a.toNat, 32 + 128 * npl)
  | _ => none

/-- Accesses of context n that are not yet performed: local, lateral, sequencer stores, its matrix step (R403). -/
def openIds (s : State) (n : Nat) (c : Ctx) : List Nat :=
  c.accs.map (·.id) ++ (c.lats.filter fun l => !l.performed).map (·.id) ++
    ((allJobs c).filter fun j => (jobRange j).isSome).map (·.id) ++
    (match (s.core (coreOf n)).matrix.step with | some m => if m.n = n then [m.id] else [] | none => [])

/-! ## The next bundle (R112, R115) -/

/-- LEND of a bundle header (R30). -/
def hdrLend (h : Word) : Bool := h.getLsbD 54

/-- Does the back edge of a LEND bundle branch to the loop start (R115)? -/
def backTaken (c : Ctx) (brk : Bool) : Bool := decide (1 < c.ctl.lpcnt.toNat) && !(c.ctl.lpbrk || brk)

/-- The loop start address. -/
def loopStart (c : Ctx) : Word := w64 (32 * c.ctl.lpstart.toNat)

/-- Body length by R115 as an integer, and whether it is out of range. -/
def loopLen (c : Ctx) (pcb : Word) : Int := ((pcb.toNat : Int) - 32 * c.ctl.lpstart.toNat) / 32 + 1
def loopBad (c : Ctx) (k : Core) (pcb : Word) : Bool :=
  pcb.toNat < 32 * c.ctl.lpstart.toNat || decide (loopLen c pcb > k.limit.toNat)

/-- The back-edge action's registers (R115). -/
def backEdge (c : Ctx) (pcb : Word) (brk : Bool) : Ctx :=
  c.updCtl fun l =>
    if backTaken c brk then { l with lpcnt := l.lpcnt - 1, lplen := BitVec.ofInt 14 (loopLen c pcb) }
    else { l with lpcnt := 0, lpbrk := false }

/-- The bundle that follows the one at `pcb`: a pending branch target, else the loop start or the next address
(R112, R115). -/
def nextPc (c : Ctx) (pcb : Word) (lend brk : Bool) : Word :=
  match c.npc with
  | some t => t
  | none => if lend && backTaken c brk then loopStart c else pcb + 32

/-- Move on past a bundle: the pc and the pending target; LEND's registers too. -/
def advance (c : Ctx) (pcb : Word) (lend brk : Bool) : Ctx :=
  let c' := { c with
    pc := nextPc c pcb lend brk, npc := none, blocked := false, walk := none, skip := false, xwalk := none }
  if lend then { c' with ctl := (backEdge c pcb brk).ctl } else c'

/-! ## Taking a trap (R412, R416-R420) -/

/-- Has the context a handler that a trap may enter now (R416)? -/
def hasHandler (c : Ctx) : Bool := c.ctl.trapvec ≠ 0 && !c.hdep

/-- Keep a context's matrix step whole in its snapshot (R412, R418). -/
def holdStep (k : Core) (n : Nat) : Core :=
  { k with matrix := { k.matrix with step := k.matrix.step.map fun m =>
    if m.n = n then { m with held := true, early := m.early && m.held, got := [] } else m } }

/-- The buffer advances of a context that are due (R281). -/
def advDue (c : Ctx) : Ctx :=
  let due := c.inf.cbAdv.filter fun p => p.1 = 0
  due.foldl (fun c p => c.setCb p.2.1 { c.cb p.2.1 with pp := (c.cb p.2.1).pp + BitVec.ofNat 40 p.2.2 })
    (c.updInf fun i => { i with cbAdv := i.cbAdv.filter fun p => p.1 ≠ 0 })

/-- Everything in flight stands in the snapshot. -/
def Inflight.snapped (i : Inflight) : Inflight :=
  { i with flights := i.flights.map fun f => { f with snap := true }, jobs := i.jobs.map fun j => { j with snap := true } }

/-- Let the erroneous words of a context's matrix step read as 0 (R212). -/
def deadStep (k : Core) (n : Nat) : Core :=
  { k with matrix := { k.matrix with step := k.matrix.step.map fun m => if m.n = n then { m with dead := true } else m } }

/-- Withdraw the wait of a context (R404). -/
def withdrawWait (s : State) (n : Nat) : State :=
  match (s.ctx n).wait with
  | none => s
  | some w =>
    { s.updCtx n fun c => { c with wait := none, creqs := c.creqs.filter fun r => r.id ≠ w.id } with
      reqs := s.reqs.del w.id, waiters := s.waiters.filter fun i => i ≠ w.id }

/-- The capture of a context (R412): its accesses are performed, its step is held, and what is in flight is its snapshot. A
wait is withdrawn (R404). -/
def capture (s : State) (n : Nat) : State :=
  ((withdrawWait (performAll s n) n).updCtx n fun c => (advDue c).updInf Inflight.snapped).updCore (coreOf n) fun k =>
    holdStep k n

/-- The bundle at which a context resumes: that of the replay buffer, else that at its pc (R414, R417). -/
def Ctx.resumePc (c : Ctx) : Word := match c.replay with | some r => r.org.pc | none => c.pc

/-- A replay buffer with the accesses of another. -/
def Replay.join (a b : Option Replay) : Option Replay :=
  match a, b with
  | some x, some y => some { x with accs := x.accs ++ y.accs }
  | some x, none => some x
  | none, y => y

/-- What a context that goes on does: it drains where an `ln.quit` waits in its LN queue, else it issues (R320). -/
def Ctx.workSt (c : Ctx) : CtxSt := if (c.queue 24).any fun q => q.port = 5 then .draining else .running

/-- Trap entry (R417-R419): the capture, the frame, the trap registers, PRIV and the handler's address. `cls` and
`fu` say what the handler is entered for. -/
def trapEntry (s : State) (n code : Nat) (val resume : Word) (cls fu : Nat) (rp : Option Replay) : State :=
  let s := capture s n
  let s := s.updCtx n fun c =>
    { c with
      pc := w64 (32 * c.ctl.trapvec.toNat)
      npc := none
      hdep := true
      blocked := false
      walk := none, xwalk := none, skip := false, parked := false
      ports := [], portSk := []
      regs := { c.regs with tags := c.regs.tags.filter fun p => p.1 < 256 ∨ 2000 ≤ p.1 }
      oq := []
      inf := { Inflight.none with fmtEff := c.inf.fmtEff }
      replay := none
      frame := some {
        inf := c.inf, oq := c.oq, ports := c.ports, portSk := c.portSk
        portTags := c.regs.tags.filter fun p => 256 ≤ p.1 ∧ p.1 < 2000
        lpcnt := c.ctl.lpcnt, lplen := c.ctl.lplen, lpstart := c.ctl.lpstart, lpbrk := c.ctl.lpbrk
        replay := Replay.join rp c.replay, npc := c.npc, skip := c.skip, cls := cls, fu := fu, pc := resume }
      ctl := { c.ctl with
        trappc := BitVec.ofNat 18 (resume.toNat / 32), trapcode := BitVec.ofNat 8 code, trapval := val, priv := true
        lpcnt := 0, lplen := 0, lpstart := 0, lpbrk := false } }
  s.updCore (coreOf n) fun k => ({ k with icd := 4, run := some (n % 4), gave := false } : Core).count 0x0A 1

/-- A word of the microprogram store without its reserved bits (R6, R205, R206). -/
def storeWord (i : Nat) (w : BitVec 128) : BitVec 128 := w &&& BitVec.ofNat 128 (if i < 256 then 2 ^ 50 - 1 else 2 ^ 84 - 1)

/-! ## Barriers (R396, R397) -/

def cfScope (c : BitVec 58) : Nat := bits c.toNat 0 3
def cfLcnt (c : BitVec 58) : Nat := bits c.toNat 3 8
def cfNpart (c : BitVec 58) : Nat := bits c.toNat 11 11
def cfNmodm (c : BitVec 58) : Nat := bits c.toNat 22 10
def cfGroup (c : BitVec 58) : BitVec 16 := c.extractLsb' 32 16
def cfRoot (c : BitVec 58) : Nat := bits c.toNat 48 10

/-- The instance of a scope that holds a context (R10). -/
def barInst (scope n : Nat) : Nat :=
  match scope with | 0 => n / 4 | 1 => n / 4 | 2 => n / 16 | 3 => n / 1024 | _ => 0

/-- Is this the node record of a key? -/
def BarNode.is (x : BarNode) (level inst bar : Nat) (group : BitVec 16) : Bool :=
  decide (x.level = level ∧ x.inst = inst ∧ x.bar = bar ∧ x.group = group)

/-- The distributor resets a barrier of a core and clears its key at its node, and for `.pd` at ROOT where that is this module
(R397). -/
def resetBarrier (s : State) (n b : Nat) : State :=
  let x := (s.core (coreOf n)).bar b
  let s := s.updCore (coreOf n) fun k => { k with bars := k.bars.del b }
  if x.cfg then
    let sc := cfScope x.conf
    let root := sc = 5 ∧ cfRoot x.conf = s.mgmt.modn.toNat
    { s with barNodes := s.barNodes.filter fun y =>
        !(y.is sc (barInst sc n) b (cfGroup x.conf) || (decide root && y.is 6 0 b (cfGroup x.conf))) }
  else s

/-- Reset the barriers of a member's BMASK (R315, R424). -/
def resetBarriers (s : State) (n : Nat) (mask : BitVec 128) : State :=
  ((s.core (coreOf n)).bars.filter fun p => mask.getLsbD p.1).foldl (fun s p => resetBarrier s n p.1) s

/-! ## Containment (R422-R426) -/

/-- What a level of the walk answers. -/
inductive Fate where
  | ignore | retry | kill | killParent
  deriving DecidableEq, Repr

/-- CPOL's policy at a level (R27). -/
def policy (cpol : BitVec 10) (lvl : Nat) : Fate :=
  match bits cpol.toNat (2 * lvl) 2 with
  | 0 => .ignore
  | 1 => .retry
  | 2 => .kill
  | _ => .killParent

/-- The codes of class V (R415). -/
def isClassV (code : Nat) : Bool := code = 0x02 || code = 0x23 || code = 0x25 || code = 0x26

/-- The kernel instance that a context's member belongs to. -/
def kidOf (s : State) (n : Nat) : BitVec 32 := (s.ctx n).ctl.kid

/-- Die d's LHELD falls by a released grant (R457); waiting requests are looked at again in the next clk. -/
def dropGrant (s : State) (d : Nat) (w : BitVec 16) : State :=
  if w = 0 then s
  else
    { s with mgmt := { s.mgmt with lheld := KMap.set 0 s.mgmt.lheld d (KMap.get 0 s.mgmt.lheld d - w) } }.at (s.clk + 1)
      false (.leaveGrant d)

/-- Release the leave grant of a core and drop its request (R443). -/
def releaseGrant (s : State) (c : Nat) : State :=
  let m := (s.core c).matrix
  let d := c / 256
  let s := { s with leaveReqs := KMap.set [] s.leaveReqs d ((KMap.get [] s.leaveReqs d).filter fun r => r.core ≠ c || r.due.isSome) }
  dropGrant (s.updCore c fun k => { k with matrix := { k.matrix with grant := 0, leave := none } }) d m.grant

/-- Commands that a fenced queue of a killed kernel keeps until `sy.rel` releases it (R426). -/
def Ctx.dead (c : Ctx) : KMap (List Cmd) :=
  (c.queues.map fun p => (p.1, p.2.filter fun q => q.st = .dead)).filter fun p => p.2 ≠ []

/-- Its kernel is killed: the commands of its fenced queues are kept (R424, R426). -/
def Ctx.entomb (c : Ctx) : Ctx :=
  { c with queues := (c.queues.filter fun p => KMap.get false c.qfence p.1).map fun p =>
    (p.1, p.2.map fun q => { q with st := .dead }) }

/-- A hardware context that its member has left. Its registers, ports, queue images, tokens, handles and side arguments stand
until something that their rules name changes them (R36, R71, R103, R107, R121, R162, R225, R239, R280, R395), and so do
fenced queues of a killed kernel (R426). -/
def Ctx.freed (c : Ctx) : Ctx :=
  { Ctx.reset with
    regs := c.regs, ctl := c.ctl, oq := c.oq, ports := c.ports, portSk := c.portSk, toks := c.toks, sks := c.sks
    cbs := c.cbs.map fun p => (p.1, { p.2 with pq := 0, line := [] })
    inf := { Inflight.none with fmtEff := c.inf.fmtEff }
    side := c.side, latSeq := c.latSeq, queues := c.dead, qfence := c.dead.map fun p => (p.1, true)
    baste := { c.baste with stages := [], contrs := [] } }

/-- Bytes of the core's staging buffer that a context's entries take (R242). -/
def stagedBytes (c : Ctx) : Nat := 64 * listSum (c.baste.stages.map (·.len))

/-- The longest straight-line run of an image with a live member on core c is the core's run floor (R118). -/
def setFloor (s : State) (c : Nat) : State :=
  let runs := [0, 1, 2, 3].map fun i =>
    let x := s.ctx (4 * c + i)
    if x.live then ((s.dist.kerns.find? fun k => k.kid = x.ctl.kid).map (·.run)).getD 0 else 0
  s.updCore c fun k => { k with runFloor := BitVec.ofNat 14 (listMax runs) }

/-- The context that a step of a queue or of the stop sequence acts on. -/
def eventCtx (e : Instr) : Option Nat :=
  match e with
  | .engineChunkComplete n _ => some n
  | .engineAccessFault n _ => some n
  | .npInjection n => some n
  | .skCommandComplete n => some n
  | .blBastHomeDone n => some n
  | .unpickEntry n => some n
  | .logEntryWrite n => some n
  | .memberRetire n => some n
  | .ptCommandComplete n => some n
  | .shootdownComplete n => some n
  | .translationWalk n => some n
  | .engineQuiesceComplete n => some n
  | _ => none

/-- Drop the steps that a context's work still had before it, unless a saved image of the context waits for one. -/
def dropEvents (s : State) (n : Nat) : State :=
  if s.dist.kerns.any fun k => k.saved.any fun m => m.n = n then s
  else { s with cal := s.cal.filter fun t => eventCtx t.ev ≠ some n }

/-- The counter requests of a context that end with it: its waits and the adds of its commands (R424). -/
def dropReqs (s : State) (n : Nat) : State :=
  let gone (r : Req) : Bool := match r.src with
    | .ctxWait m => decide (m = n)
    | .engine m _ => decide (m = n)
    | .queue m _ => decide (m = n)
    | _ => false
  let ids := (s.reqs.filter fun p => gone p.2).map (·.1)
  { s with reqs := s.reqs.filter fun p => !gone p.2, waiters := s.waiters.filter fun i => !ids.contains i }

/-- A context's reservations leave the wait lists of their descriptors, where those behind them look again (R229, R238). -/
def withdrawSk (s : State) (n : Nat) : State :=
  let hit := s.skWait.filter fun p => p.2.any fun w => w.1 = n
  let left : KMap (List (Nat × Nat)) := s.skWait.map fun p => (p.1, p.2.filter fun w => w.1 ≠ n)
  hit.foldl (fun s p => s.at (s.clk + 1) false (.skResWindowGrant p.1)) { s with skWait := left.filter fun p => p.2 ≠ [] }

/-- Free a hardware context, its core's matrix unit where it owns that, and the barriers of its BMASK (R320, R397,
R424). -/
def freeCtx (s : State) (n : Nat) : State :=
  let c := s.ctx n
  let s := resetBarriers s n c.bmask
  let s := if (s.core (coreOf n)).matrix.owner = some n then
      (releaseGrant s (coreOf n)).updCore (coreOf n) fun k => { k with matrix := { k.matrix with owner := none, step := none } }
    else s
  let s := s.updCore (coreOf n) fun k => { k with staged := k.staged - stagedBytes c }
  setFloor (withdrawSk ((dropReqs (dropEvents s n) n).setCtx n c.freed) n) (coreOf n)

/-- Does context n hold its core, so that it goes on to its next test point when it is asked to stop (R427)? Of the freezes
only that of a bank holds a stop back (R428). -/
def holdsCore (s : State) (n : Nat) : Bool :=
  let k := s.core (coreOf n)
  decide (k.run = some (n % 4)) && !(s.ctx n).blocked && decide ((s.ctx n).st = .running ∧ (k.froze = 0 ∨ k.froze = 4))

/-- A member of a killed kernel has stopped: its accesses are performed, and it is freed (R412, R424). One frozen by a class-V
code stays until `sy.rel` frees it (R426). -/
def endMember (s : State) (n : Nat) : State :=
  if (s.ctx n).st = .frozenV then s else freeCtx (performLats (performAll s n) n) n

/-- The work of a member ends in this clk with its kernel: its core does not go on with it (R424). -/
def endWork (s : State) (n : Nat) : State := s.updCtx n fun c => { c with blocked := true }

/-- Stop a member of a kernel that is killed (R424): its queues, requests and faults are dropped; one that holds its core goes
on to its next test point (R427), any other is freed at once. -/
def freeMember (s : State) (n : Nat) : State :=
  let go := holdsCore s n
  let s := withdrawSk (dropReqs (dropEvents (s.updCtx n Ctx.entomb) n) n) n
  let s := s.updCtx n fun c => { c with creqs := [], reports := [], delivered := [], wait := none }
  if go then s.updCtx n fun c => { c with doomed := true, ctl := { c.ctl with stopf := true } } else endMember s n

/-- An entry with its ST field changed (R324). -/
def FEntry.setSt (x : FEntry) (st : Nat) : FEntry := { x with w0 := setFld x.w0 0 2 st }

/-- Change an entry that stands in a holder's table. -/
def Holder.updEnt (x : Holder) (e : Nat) (f : FEntry → FEntry) : Holder :=
  { x with ents := x.ents.map fun p => if p.1 = e then (p.1, f p.2) else p }

/-- A pattern begins to retire (R339): its entries match no header and emit nothing from now on; the end of its retirement
follows. -/
def startRetire (s : State) (p : Pattern) : State :=
  let s := p.ents.foldl (fun s e => s.updHolder e.1 fun x => x.updEnt e.2 fun y => y.setSt 3) s
  { s with pats := listUpd (fun q => q.pid = p.pid) (fun q => { q with st := 2 }) s.pats }.within 1 300
    (.patternRetirement p.pid.toNat)

/-- Patterns that a kernel instance owns begin to retire at its kill (R339, R424). -/
def retirePatterns (s : State) (kid : BitVec 32) : State :=
  (s.pats.filter fun p => p.owner = some kid ∧ p.st ≠ 2).foldl startRetire s

/-- The contexts that hold live members of a kernel instance. -/
def liveMembers (s : State) (k : Kern) : List Nat :=
  k.members.filter fun n => (s.ctx n).live && decide ((s.ctx n).ctl.kid = k.kid)

/-- Kill one kernel instance (R424). The caller records it (log 50). -/
def killOne (s : State) (kid : BitVec 32) : State :=
  match s.dist.kerns.find? fun k => k.kid = kid with
  | none => s
  | some k =>
    let s := retirePatterns s kid
    let live := liveMembers s k
    let gone (r : Req) : Bool := match r.src with | .depend i _ => decide (i = kid) | _ => false
    let ids := (s.reqs.filter fun p => gone p.2).map (·.1)
    let s := { s with
      reqs := s.reqs.filter fun p => !gone p.2
      waiters := s.waiters.filter fun i => !ids.contains i
      reshards := s.reshards.filter fun p => p.2.kid ≠ kid
      dist := { s.dist with
        kerns := s.dist.kerns.filter fun x => x.kid ≠ kid
        making := s.dist.making.filter fun m => m.kid ≠ kid } }
    let s := if k.st = .placing then k.members.foldl (fun s n =>
        if (s.core (coreOf n)).matrix.owner = none then releaseGrant s (coreOf n) else s) s
      else s
    live.foldl freeMember s

/-- Record a kill and carry it out (R424, R425). -/
def killRecorded (s : State) (kid : BitVec 32) (code : Nat) (v : Word) : State :=
  if s.dist.kerns.any fun k => k.kid = kid then killOne (s.bbAdd 1 code kid whoNone v) kid else s

/-- Carry out a kill, which the walk has recorded, or a kill parent (R424, R27). The host is told where it launched the
kernel. -/
def killKernel (s : State) (kid : BitVec 32) (code : Nat) (v : Word) (parent : Bool) : State :=
  let p := (s.dist.kerns.find? fun k => k.kid = kid).bind (·.parent)
  let s := killOne s kid
  if !parent then s
  else match p with
    | some q => killRecorded s q code v
    | none =>
      { s with resps := s.resps ++ [⟨0, 0, 0, BitVec.ofNat 8 code, 0, kid.setWidth 64, []⟩] }

/-- The walk from a level for work whose retries all end as the first try did: levels visited and the fate
(R422; `soft` where retry acts as ignore). -/
def walkLevels (cpol : BitVec 10) (soft : Bool) : Nat → Nat → List Nat × Fate
  | 0, _ => ([], .kill)
  | f + 1, lvl =>
    match policy cpol lvl with
    | .retry =>
      if soft then ([lvl], .ignore)
      else if 4 ≤ lvl then ([lvl, lvl], .kill)
      else let (ls, x) := walkLevels cpol soft f (lvl + 1); (lvl :: ls, x)
    | x => ([lvl], x)

/-- The walk for a code attributed to a context (class A), with its black-box records; true where the operation
takes the ignore fate. -/
def walkCtx (s : State) (n code lvl : Nat) (v : Word) (soft : Bool) : State × Bool :=
  let c := s.ctx n
  let (ls, x) := walkLevels c.ctl.cpol (soft || isClassV code) 6 lvl
  let s := ls.foldl (fun s l => s.bbAddL l 1 code c.ctl.kid n v) s
  match x with
  | .kill => (killKernel s c.ctl.kid code v false, false)
  | .killParent => (killKernel s c.ctl.kid code v true, false)
  | _ => (s, true)

/-- CPOL of a kernel's record (R307). -/
def kernCpol (k : Kern) : BitVec 10 := ((k.words[3]?).getD 0).extractLsb' 16 10

/-- The walk of an event that has no operation to retry (R338, R422): by its owner's CPOL where the owner lives, else
absorbed at its starting level. `who` is the context number or holder word of the record. -/
def eventWalk (s : State) (owner : Option (BitVec 32)) (lvl code : Nat) (v : Word) (who : Nat) : State :=
  match owner.bind fun o => s.dist.kerns.find? fun k => k.kid = o with
  | none => s.bbAddL lvl 1 code 0 who v
  | some k =>
    let (ls, x) := walkLevels (kernCpol k) true 6 lvl
    let s := ls.foldl (fun s l => s.bbAddL l 1 code k.kid who v) s
    match x with
    | .kill => killKernel s k.kid code v false
    | .killParent => killKernel s k.kid code v true
    | _ => s

/-- Freeze a context under R426; the fence is recorded (R425). -/
def freezeCtx (s : State) (n code : Nat) (v : Word) : State :=
  let s := s.bbAddL 0 1 code (s.ctx n).ctl.kid n v
  (capture s n).updCtx n fun c => { c with st := .frozenV, fenced := true, blocked := false }

/-- Move a context past the bundle in the latch with every guard false: the bundle counts as issued (R423). -/
def skipBundle (s : State) (n : Nat) : State :=
  { s with iss := { s.iss with passed := true } }.updCtx n fun c =>
    advance c s.iss.pc (hdrLend s.iss.hdr) (loopBad c (s.core (coreOf n)) s.iss.pc)

/-- The walk for a class-I trap of the bundle in the issue latch. Under retry the bundle issues again whole, up to
three times a level (R422, R423); under ignore it is taken as issued with every guard false, and a back edge out of
range then ends its loop (log 20). -/
def walkIssue (s : State) (n code : Nat) (v : Word) : State :=
  let c := s.ctx n
  if isClassV code then
    let s := freezeCtx s n code v
    let (s, ign) := walkCtx s n code 0 v true
    if ign then (skipBundle s n).updCtx n fun c => { c with st := .frozenV } else s
  else
    let start := match c.walk with
      | none => some 0
      | some (lvl, k) => if k < 3 then none else some (lvl + 1)
    match start with
    | none => s.updCtx n fun c => { c with walk := c.walk.map fun p => (p.1, p.2 + 1) }
    | some lvl =>
      let s := s.bbAddL (min lvl 4) 1 code c.ctl.kid n v
      if 4 < lvl then killKernel (endWork s n) c.ctl.kid code v false
      else match policy c.ctl.cpol lvl with
        | .ignore => skipBundle s n
        | .retry => s.updCtx n fun c => { c with walk := some (lvl, 1) }
        | .kill => killKernel (endWork s n) c.ctl.kid code v false
        | .killParent => killKernel (endWork s n) c.ctl.kid code v true

/-- A class-I trap of the bundle in the issue latch (R416, R417). That of a bundle which a walk retries goes on with the
walk (R422); that of a killed member ends it (R424). -/
def takeTrap (s : State) (n code : Nat) (v : Word) : State :=
  if (s.ctx n).doomed then endMember s n
  else if hasHandler (s.ctx n) && (s.ctx n).walk.isNone then trapEntry s n code v s.iss.pc 0 0 none else walkIssue s n code v

/-! ## Queues -/

/-- The step that goes on with a command at the head of its queue. -/
def queueEvent (n : Nat) (q : Cmd) : Instr :=
  match q.fu, q.port with
  | 20, _ => .npInjection n
  | 22, _ => .skCommandComplete n
  | 23, 4 => .blBastHomeDone n
  | 23, 7 => .unpickEntry n
  | 23, _ => .logEntryWrite n
  | 24, 5 => .memberRetire n
  | 24, _ => .recordAcceptance
  | 25, 4 => .patternValidate
  | 25, _ => .ptCommandComplete n
  | 26, _ => .shootdownComplete n
  | fu, _ => .engineChunkComplete n fu

/-- Drop the head of a queue. -/
def Ctx.popCmd (c : Ctx) (fu : Nat) : Ctx := c.setQueue fu (c.queue fu).tail

/-- The token that a go word names (R265). -/
def goTok (t : Word) : Option Nat := if t.getLsbD 60 then none else some (fld t 56 4)

/-- Endpoint kind of an endpoint word (R267). -/
def ek (a : Word) : Nat := fld a 60 3

/-- Buffer b with the producers that have reached it in line: PQ names the first (R280, R284). -/
def Cb.inLine (b : Cb) (l : List Nat) : Cb :=
  { b with line := l, pq := match l with | [] => 0 | i :: _ => if i < 1024 then BitVec.ofNat 5 i else 1 }

/-- A producer reaches a buffer (R284). -/
def Cb.reach (b : Cb) (i : Nat) : Cb := if b.line.contains i then b else b.inLine (b.line ++ [i])

/-- A producer gives a buffer up, or no longer waits for it (R284). -/
def Cb.leave (b : Cb) (i : Nat) : Cb := if b.line.contains i then b.inLine (b.line.filter (· ≠ i)) else b

/-- A command gives up its circular buffer at its end (R284). -/
def Ctx.dropPq (c : Ctx) (q : Cmd) : Ctx :=
  let h := fld q.a1 0 4
  if decide (16 ≤ q.fu ∧ q.fu ≤ 18 ∧ ek q.a1 = 2) then c.setCb h ((c.cb h).leave q.fu) else c

/-- PP passes the last, partly written slot of a command that ends by the ignore fate (R279, R284). -/
def Ctx.passPart (c : Ctx) (q : Cmd) : Ctx :=
  let h := fld q.a1 0 4
  if decide (ek q.a1 = 2 ∧ (q.fu = 16 ∨ q.fu = 17) ∧ q.port = 4 ∧ q.done % (256 * (c.cb h).ssz.toNat) ≠ 0) then
    c.setCb h { c.cb h with pp := (c.cb h).pp + 1 }
  else c

/-- The end of an engine command: FLAGS, its token, its buffer and its queue entry (R277, R284). -/
def Ctx.endCmd (c : Ctx) (q : Cmd) (tok : Option Nat) (v : Word) : Ctx :=
  let c := ((c.popCmd q.fu).dropPq q).updCtl fun l => { l with flags := l.flags ||| q.flg }
  let c := { c with walks := c.walks.del q.fu }
  match tok with
  | some t => c.tokWrite t v
  | none => c

/-- The fate of a log write that met a fault: it is made again, or its entry is dropped (R248, R423). -/
def logFate (s : State) (n : Nat) (ignore : Bool) : State :=
  match (s.ctx n).baste.stages with
  | [] => s
  | e :: l =>
    if !e.held then s
    else if ignore then
      (s.updCtx n fun c => c.updBaste fun b => { b with stages := l }).updCore (coreOf n) fun k =>
        { k with staged := k.staged - 64 * e.len }
    else s.updCtx n fun c => c.updBaste fun b => { b with stages := { e with held := false } :: l }

/-- The unit number by which a fault, its walk and its fate name a lateral access, or a counter request. -/
def latUnit (id : Nat) : Nat := 1000 + 2 * id
def reqUnit (id : Nat) : Nat := 1001 + 2 * id

/-- The fate of a lateral access that met an uncorrectable error: it is made again, or it ends without its token
(R423). -/
def latFate (c : Ctx) (fu : Nat) (ignore : Bool) : Ctx :=
  match c.lats.find? fun l => l.bad && decide (latUnit l.id = fu) with
  | none => c
  | some l =>
    if ignore then { c with lats := c.lats.filter fun x => x.id ≠ l.id, walks := c.walks.del fu }
    else
      { c with
        lats := listUpd (fun x => x.id = l.id) (fun x => { x with sent := false, performed := false, bad := false }) c.lats
        ctl := { c.ctl with old := c.ctl.old + 1, ost := if l.atom.isSome then c.ctl.ost + 1 else c.ctl.ost } }

/-- The same request for the context that now makes it. -/
def ReqSrc.onCtx (n : Nat) : ReqSrc → ReqSrc
  | .ctxAdd _ => .ctxAdd n
  | .ctxWait _ => .ctxWait n
  | .engine _ fu => .engine n fu
  | x => x

/-- The fate of a counter request that failed, in the next clk: it is made again, or it ends with no further effect
(R423). -/
def reqFate (s : State) (n fu : Nat) (ignore : Bool) : State :=
  let id := (fu - 1001) / 2
  match s.reqs.find? fun p => p.1 = id with
  | none => s
  | some (_, r) =>
    let r := { r with src := r.src.onCtx n, answered := ignore, performed := ignore, tries := 0 }
    { s with reqs := KMap.put s.reqs id r }.at (s.clk + 1) false (.requestTimeout id)

/-- The fate of the faulted command at the head of a queue (R279, R423): it is taken up again, or it ends: an engine's
token takes the bytes of its completed chunks; another unit's command writes none, and `bl.bast` clears REC (R253). A
fault of unit 23 without such a command is the log writer's. A lateral access or a counter request has a number of its own. -/
def commandFate (s : State) (n fu : Nat) (ignore : Bool) : State :=
  if 1000 ≤ fu then (if fu % 2 = 0 then s.updCtx n fun c => latFate c fu ignore else reqFate s n fu ignore)
  else match (s.ctx n).queue fu with
  | [] => if fu = 23 then logFate s n ignore else s
  | q :: l => match q.st with
    | .faulted _ _ =>
      if ignore then
        s.updCtx n fun c =>
          let c := (c.passPart q).endCmd q (if fu ≤ 20 then goTok q.go else none) (w64 q.done)
          if q.fu = 23 ∧ q.port = 4 then c.updCtl fun k => { k with bsRec := false } else c
      else s.updCtx n fun c => c.setQueue fu ({ q with st := .waiting } :: l)
    | _ => if fu = 23 then logFate s n ignore else s

/-- The codes for which retry acts as ignore by their own rules (R391, R397). -/
def isSoft (code : Nat) : Bool := code = 0x2A || code = 0x3E

/-- The walk for a class-A fault of a context's command or lateral access, whose retries make it again (R422, R423): it
goes on where the retries of a level have failed. -/
def walkRetry (s : State) (n code : Nat) (v : Word) (fu : Nat) : State :=
  let c := s.ctx n
  let again (s : State) (lvl k : Nat) : State :=
    commandFate (s.updCtx n fun c => { c with walks := KMap.put c.walks fu (lvl, k) }) n fu false
  let visit (lvl : Nat) : State :=
    let s := s.bbAddL (min lvl 4) 1 code c.ctl.kid n v
    if 4 < lvl then killKernel s c.ctl.kid code v false
    else match policy c.ctl.cpol lvl with
      | .ignore => commandFate (s.updCtx n fun c => { c with walks := c.walks.del fu }) n fu true
      | .retry => again s lvl 1
      | .kill => killKernel s c.ctl.kid code v false
      | .killParent => killKernel s c.ctl.kid code v true
  match c.walks.find? fun p => p.1 = fu with
  | none => visit 0
  | some (_, lvl, k) => if k < 3 then again s lvl (k + 1) else visit (lvl + 1)

/-- The walk for a class-A fault of a context (R422, R426): a class-V code of a command first fences its queue, whose
command then waits for `sy.rel` (R279). -/
def walkFault (s : State) (n code : Nat) (v : Word) (fu : Nat) : State :=
  if isClassV code then
    let s := if fu ≠ 0 then
        (s.bbAddL 0 1 code (s.ctx n).ctl.kid n v).updCtx n fun c => { c with qfence := KMap.put c.qfence fu true }
      else s
    (walkCtx s n code 0 v true).1
  else if fu = 0 ∨ isSoft code then
    let (s, ign) := walkCtx s n code 0 v (isSoft code)
    if ign then commandFate s n fu true else s
  else walkRetry s n code v fu

/-- A class-A fault of a command or of an event attributed to a context: it waits for delivery, or starts the walk at
once where 16 wait (R417); that of work which a walk retries goes on with the walk. -/
def deliverFault (s : State) (n code : Nat) (v : Word) (fu : Nat) : State :=
  let c := s.ctx n
  if decide (c.delivered.length < 16) && !(c.walks.any fun p => p.1 = fu) then
    s.setCtx n { c with delivered := c.delivered ++ [(code, v, fu)] }
  else walkFault s n code v fu

/-- The same for the image of context n that satisfies `p`: a saved one keeps the fault (R433). -/
def deliverImage (s : State) (n : Nat) (p : Ctx → Bool) (code : Nat) (v : Word) (fu : Nat) : State :=
  if p (s.ctx n) then deliverFault s n code v fu
  else updImage s n p fun c => { c with delivered := c.delivered ++ [(code, v, fu)] }

/-! ## Return from a trap (R437) -/

/-- Restore the trap frame (R418) and leave the handler; what the frame held goes on with resumed clk 1 (R413); `fate` is that of the trapped work (true: ignore), none where
a delivered fault is still to be judged. `resume` is TRAPPC as it stands. -/
def trapReturn (s : State) (n : Nat) (fate : Option Bool) : State :=
  let ignore := fate = some true
  let s := match (s.ctx n).frame with
    | some f =>
      if f.cls = 3 then (match fate with | some x => commandFate s n f.fu x | none => s)
      else if f.cls = 2 && ignore then s.updCore (coreOf n) fun k => deadStep k n
      else s
    | none => s
  let s := s.updCtx n fun c =>
    let resume := w64 (32 * c.ctl.trappc.toNat)
    match c.frame with
    | none => { c with parked := true, hdep := false, pc := resume, npc := none, ctl := { c.ctl with priv := c.recPriv } }
    | some f =>
      { c with
        parked := true
        hdep := false
        pc := resume
        npc := if resume = f.pc then f.npc else none
        frame := none
        ports := f.ports, portSk := f.portSk, oq := f.oq
        regs := { c.regs with
          tags := f.portTags.foldl (fun t p => KMap.put t p.1 p.2)
            (c.regs.tags.filter fun p => p.1 < 256 ∨ 2000 ≤ p.1) }
        inf := { f.inf with fmtEff := c.inf.fmtEff }
        replay := if resume = f.pc then f.replay.map fun r =>
            { r with accs := r.accs.map fun a => { a with dead := a.dead || ignore } } else none
        skip := (ignore && f.cls = 0 || f.skip) && decide (resume = f.pc)
        xwalk := none
        ctl := { c.ctl with
          priv := c.recPriv, lpcnt := f.lpcnt, lplen := f.lplen, lpstart := f.lpstart, lpbrk := f.lpbrk } }
  (s.updCtx n fun c => { c with rfe := none }).updCore (coreOf n) fun k => { k with icd := 4 }

/-! ## Raising what a move met at issue -/

/-- Carry out what a move met: a trap is taken, a blocked bundle is marked, a hold freezes the core (the step counts
the frozen clk). -/
def raiseNote (s : State) (w : Note) : State :=
  let n := s.iss.n
  let s := { s with iss := { s.iss with note := w } }
  match w with
  | .quiet => s
  | .trap _ code v => takeTrap s n code v
  | .block => s.updCtx n fun c => { c with blocked := true }
  | .hold _ => s

end Sys2Proof.Machine
end

