-- ==== Sys2Proof/Machine/Operands.lean ====
section
/-!
DEFINITION. Operand forms: guards (R31, R37), sources (R34, R35, R125), value tags of sources (R240), the checks made
at issue (R48, R60), and the combinator through which every move performs (R37-R39). Every guard, source and check
reads the issue latch, which holds the context as it stood at the start of the issue clk.
-/

namespace Sys2Proof.Machine

/-! ## Guards and sources -/

/-- Is a guard true (R31, R37)? -/
def guardTrue (s : State) (g : BitVec 4) : Bool :=
  if g = 0 then true else if g = 8 then false
  else s.iss.ctx.regs.g.getLsbD (g.toNat % 8) != g.getLsbD 3

/-- Rows per slot of a circular buffer (R280). -/
def Cb.rps (b : Cb) : Nat := b.ssz.toNat
/-- FREE and AV of R280. -/
def Cb.free (b : Cb) : Int := (b.ns.toNat : Int) - (b.pp.toNat - b.rp.toNat)
def Cb.avail (b : Cb) : Int := (b.pp.toNat : Int) - (b.cc.toNat / b.rps : Nat)
/-- Vault offset of stream row r (R280). -/
def Cb.rowOff (b : Cb) (r : Nat) : Nat :=
  256 * b.base.toNat + 256 * b.ssz.toNat * (r / b.rps % b.ns.toNat) + 256 * (r % b.rps)
/-- Is the grain that holds the cursor's slot filled (R282)? -/
def Cb.readable (b : Cb) : Bool :=
  decide (b.pp.toNat ≥ b.gr.toNat * (b.cc.toNat / b.rps / b.gr.toNat + 1))

/-- The value of a source (R34). -/
def readSource (s : State) (x : Src) : Val :=
  let c := s.iss.ctx
  match x with
  | .sreg n => .s (c.regs.sreg n)
  | .limmZ => .s (w64 (fld s.iss.hdr 0 32))
  | .limmS => .s (w64 (sext 32 64 (fld s.iss.hdr 0 32)))
  | .bc => .s (c.regs.sreg (fld s.iss.hdr 48 5))
  | .guard n => .s (wBool (c.regs.g.getLsbD n))
  | .imm v => .s (v.signExtend 64)
  | .ent fu age => (c.entry fu age).val
  | .trow t k => .r (tileRow (c.regs.treg t) k)
  | .tile t => .t (c.regs.treg t)
  | .cb n =>
    let b := c.cb n
    .r (BitVec.ofNat 2048 (s.rdArena s.iss.n (b.rowOff b.cc.toNat) 256))

/-- The value of a source code; a reserved code never reaches issue (R47). -/
def readCode (s : State) (src : BitVec 9) : Val :=
  match srcOf src with
  | some x => readSource s x
  | none => .s 0

def Val.kind : Val → Kind
  | .s _ => .s
  | .r _ => .r
  | .t _ => .t

/-- A value at a scalar port. -/
def Val.word : Val → Word
  | .s v => v
  | _ => 0
/-- A value at a row port (R35). -/
def Val.row : Val → Row
  | .s v => rowFill (v.setWidth 32)
  | .r v => v
  | .t v => tileRow v 0
/-- A value at a tile port (R35). -/
def Val.tile : Val → Tile
  | .s v => tileFill (rowFill (v.setWidth 32))
  | .r v => tileFill v
  | .t v => v

/-- The value tag of row k of a result: rows count on from row 0's where its operation was recorded, else 0 (R240). -/
def tagRow (t : OutTag) (k : Nat) : Tag :=
  if t.getLsbD 20 then (t.setWidth 20 &&& 0xFFF00) ||| ((t.setWidth 20 + BitVec.ofNat 20 k) &&& 0x000FF) else 0

/-- The tag of row k of a source (R240); one-row and scalar sources have k = 0. -/
def srcTag (s : State) (x : Src) (k : Nat) : Tag :=
  let c := s.iss.ctx
  match x with
  | .sreg n => c.regs.tag n
  | .bc => c.regs.tag (fld s.iss.hdr 48 5)
  | .ent fu age =>
    if 10 ≤ fu ∧ fu ≤ 13 then
      let e := c.entry fu age
      (match e.val with | .t _ => tagRow e.tag k | _ => tagRow e.tag 0)
    else 0
  | .trow t r => c.regs.tag (32 + 8 * t + r)
  | .tile t => c.regs.tag (32 + 8 * t + k)
  | _ => 0

def codeTag (s : State) (src : BitVec 9) (k : Nat) : Tag :=
  match srcOf src with
  | some x => srcTag s x k
  | none => 0

/-! ## What a move meets at issue (R48) -/

/-- The first note that is not quiet. -/
def firstNote : List Note → Note
  | [] => .quiet
  | .quiet :: l => firstNote l
  | w :: _ => w

/-- A trap at step 5 of R48 where a condition holds. -/
def trapIf (b : Bool) (code : Nat) (v : Word) : Note := if b then .trap 5 code v else .quiet
/-- A trap for a fault found by a check. -/
def trapFlt : Option Flt → Note
  | some (code, v) => .trap 5 code v
  | none => .quiet
/-- A block where a condition holds (R21). -/
def blockIf (b : Bool) : Note := if b then .block else .quiet
/-- A hold before issue where a condition holds; `ev` is its event of R410. -/
def holdIf (b : Bool) (ev : Nat) : Note := if b then .hold ev else .quiet
/-- A value that no rule states (log 12). -/
def unstated (s : State) : Word := Config.freeWord s.free

/-- Ports marked (P) (R63, R65, R69, R70). -/
def portPriv (fu port : Nat) : Bool :=
  (fu = 7 && 5 ≤ port && port ≤ 8) || (fu = 14 && port = 5) || (fu = 27 && port = 5) ||
    (fu = 26 && (port = 4 || port = 5))

/-- Is the context limited to the privilege of a handler (R420)? -/
def limitedPriv (c : Ctx) : Bool := c.hdep && !c.recPriv

/-- R48 step 2, R420. -/
def privNote (s : State) (fu port : Nat) : Note :=
  let c := s.iss.ctx
  if portPriv fu port && (!c.ctl.priv || (limitedPriv c && !(fu = 7 && port = 5))) then .trap 2 0x02 (unstated s)
  else .quiet

/-- R60 rule 1: is the unit held by an earlier trigger of this context? -/
def heldNow (c : Ctx) (fu port : Nat) : Bool := KMap.get 0 c.inf.held (unitKey fu port) ≠ 0

/-- R60: a trigger inside its unit's interval; a move able to block, in shared mode, inside any interval. -/
def busyNote (s : State) (fu port : Nat) (canBlock : Bool) : Note :=
  let c := s.iss.ctx
  if heldNow c fu port || (canBlock && !c.ctl.excl && c.inf.held ≠ []) then .trap 3 0x03 (unstated s) else .quiet

/-- Is a source a circular-buffer head? -/
def isHead (src : BitVec 9) : Bool := match srcOf src with | some (.cb _) => true | _ => false

/-- A circular-buffer head source: the busy rule of R60, the block of R282, the handle fault of R19. -/
def headBusy (s : State) (src : BitVec 9) : Note :=
  if isHead src && !s.iss.ctx.ctl.excl && s.iss.ctx.inf.held ≠ [] then .trap 3 0x03 (unstated s) else .quiet
def headBlock (s : State) (src : BitVec 9) : Note :=
  match srcOf src with
  | some (.cb n) => blockIf ((s.iss.ctx.cb n).cfg && !(s.iss.ctx.cb n).readable)
  | _ => .quiet
def headFault (s : State) (src : BitVec 9) : Note :=
  match srcOf src with
  | some (.cb n) => trapIf (!(s.iss.ctx.cb n).cfg) 0x0D (w64 n)
  | _ => .quiet

/-- The operand-kind check of R35 for an output-queue source. -/
def kindNote (s : State) (src : BitVec 9) (dst : Kind) : Note :=
  match srcOf src with
  | some (.ent fu age) => trapIf (!kindAccepted (s.iss.ctx.entry fu age).val.kind dst) 0x04 (unstated s)
  | _ => .quiet

/-! ## Performing -/

/-- A performing head read moves the cursor one row on, once per bundle (R125, R282). -/
def consume (s : State) (src : BitVec 9) : State :=
  match srcOf src with
  | some (.cb n) =>
    let b := s.iss.ctx.cb n
    s.updCtx s.iss.n fun c => c.setCb n { c.cb n with cc := b.cc + 1 }
  | _ => s

/-- Charge a weight to the core's window (R61, R456). -/
def charge (s : State) (w : Nat) : State :=
  { s.updCore (coreOf s.iss.n) fun k => { k with curw := k.curw + BitVec.ofNat 24 w } with
    iss := { s.iss with weight := s.iss.weight + w } }

/-- Perform a move: nothing where its guard is false (R39); else what the first failing check raises; else its
effect (R37, R48). DESIGN CHOICE (log 51): steps 2 and 3 of R48, of which R47 does not say it, pass over a slot whose
guard is false as the later steps do. -/
def issue (s : State) (g : BitVec 4) (notes : List Note) (eff : State → State) : Out :=
  if guardTrue s g then
    match firstNote notes with
    | .quiet => .next (eff s)
    | w => .next (raiseNote { s with free := s.free + 1 } w)
  else .next s

/-- Perform a trigger of unit `fu` at `port`: `blk` are its blocks and holds, `chk` its own checks, `int` its
interval and `w` its weight. -/
def trigger (fu port int w : Nat) (canBlock : Bool) (blk chk : List Note) (g : BitVec 4) (src : BitVec 9)
    (eff : Val → State → State) (s : State) : Out :=
  issue s g
    ([privNote s fu port, busyNote s fu port canBlock, headBusy s src, headBlock s src] ++ blk ++
      [headFault s src, kindNote s src (triggerKind fu port)] ++ chk)
    (fun s =>
      let s := eff (readCode s src) (charge (consume s src) w)
      s.updCtx s.iss.n fun c => c.hold fu port int)

/-- Change the issuing context. -/
def onCtx (f : Ctx → Ctx) (s : State) : State := s.updCtx s.iss.n f

/-- Put one result of the issuing context in flight. -/
def flyNew (s : State) (lat fu : Nat) (v : Val) (flg : Flg) (tag : OutTag) : State :=
  let (id, s) := fresh s
  s.updCtx s.iss.n fun c => c.fly lat fu id (.entry v) flg tag

/-! ## Register and port writes -/

/-- The busy, head and kind notes of a move that triggers nothing. -/
def moveNotes (s : State) (src : BitVec 9) (dst : Kind) : List Note :=
  [headBusy s src, headBlock s src, headFault s src, kindNote s src dst]

/-- The start of a whole-tile move: row 0 is read now, rows 1-7 by the sequencer (R41, R123). -/
def jobSource (s : State) (src : BitVec 9) : JobSrc :=
  match srcOf src with
  | some (.tile t) => .reg t
  | some (.ent fu age) =>
    let e := s.iss.ctx.entry fu age
    (match e.val with | .t v => .ent e.id v | v => .const v.row)
  | _ => .const (readCode s src).row

/-- Row k that a sequencer reads from a context as it stood at the start of the clk (R41). -/
def seqRead (c : Ctx) (x : JobSrc) (k : Nat) : Row :=
  match x with
  | .reg t => tileRow (c.regs.treg t) k
  | .ent _ b => tileRow b k
  | .const v => v

/-- The tag of row k that a sequencer reads (R240); `t0` is the tag of row 0 of an entry or a scalar. -/
def seqTag (c : Ctx) (x : JobSrc) (k : Nat) (t0 : OutTag) : Tag :=
  match x with
  | .reg t => c.regs.tag (32 + 8 * t + k)
  | .ent _ _ => tagRow t0 k
  | .const _ => t0.setWidth 20

/-- The key of an operand port's tag for a row (R239). -/
def portTag (fu port row : Nat) : Nat := 256 + 32 * fu + 8 * port + row

end Sys2Proof.Machine
end

