-- ==== Sys2Proof/Machine/Control.lean ====
section
/-!
DEFINITION. The branch unit BR (R111-R113), the loop unit LP and the back-edge action (R114-R116), and the
control-register unit CX with every control register (R105-R107, R117-R119, R88, R91).
-/

namespace Sys2Proof.Machine

/-! ## Branches (R111-R113) -/

/-- The branch-target check of R113. -/
def targetNote (s : State) (t : Word) : Note := trapIf (!inCode s s.iss.n t) 0x07 t

/-- The source word of a move, for checks that read it. -/
def tWord (s : State) (src : BitVec 9) : Word := (readCode s src).word

/-- A taken branch: the bundle after the delay bundle is the target (R112). -/
def takeBranch (t : Word) (s : State) : State := onCtx (fun c => { c with npc := some t }) s

/-- BR_JMP (R111, R112). -/
def execBrJmp (g : BitVec 4) (src : BitVec 9) (s : State) : Out :=
  trigger 3 4 1 1 false [] [targetNote s (tWord s src)] g src (fun v s => takeBranch v.word s) s

/-- BR_CALL (R111): as jmp, and PCb + 64 lands. -/
def execBrCall (g : BitVec 4) (src : BitVec 9) (s : State) : Out :=
  trigger 3 5 1 1 false [] [targetNote s (tWord s src)] g src
    (fun v s => flyNew (takeBranch v.word s) 2 3 (.s (s.iss.pc + 64)) 0 0) s

/-- BR_RET (R111): as jmp; the hint has no architected effect. -/
def execBrRet (g : BitVec 4) (src : BitVec 9) (s : State) : Out :=
  trigger 3 6 1 1 false [] [targetNote s (tWord s src)] g src (fun v s => takeBranch v.word s) s

/-- BR_JREL (R111): PC-relative by T bundles. -/
def execBrJrel (g : BitVec 4) (src : BitVec 9) (s : State) : Out :=
  trigger 3 7 1 1 false [] [targetNote s (s.iss.pc + 32 * tWord s src)] g src
    (fun v s => takeBranch (s.iss.pc + 32 * v.word) s) s

/-! ## Loops (R114, R115) -/

/-- LP_LOOP (R114). -/
def execLpLoop (g : BitVec 4) (src : BitVec 9) (s : State) : Out :=
  trigger 4 4 1 1 false [] [targetNote s (tWord s src)] g src (fun v s =>
    onCtx (fun c => c.updCtl fun l =>
      { l with
        lpcnt := (s.iss.ctx.portW 4 0).setWidth 32, lpstart := v.word.extractLsb' 5 18, lpbrk := false }) s) s

/-- LP_BRK (R114). In a LEND bundle the back-edge action has already consumed it (R115). -/
def execLpBrk (g : BitVec 4) (src : BitVec 9) (s : State) : Out :=
  trigger 4 5 1 1 false [] [] g src (fun _ s =>
    if hdrLend s.iss.hdr then s else onCtx (fun c => c.updCtl fun l => { l with lpbrk := true }) s) s

/-- LP_CNT (R114). -/
def execLpCnt (g : BitVec 4) (src : BitVec 9) (s : State) : Out :=
  trigger 4 6 1 1 false [] [] g src
    (fun _ s => flyNew s 1 4 (.s (s.iss.ctx.ctl.lpcnt.setWidth 64)) 0 0) s

/-- Does the bundle in the latch perform `lp.brk` (R115)? -/
def bundleBrk (s : State) : Bool :=
  match s.iss.slots[2]?.bind slotMove with
  | some m => m.fu = 4 && m.port = 5 && guardTrue s m.g
  | none => false

/-- BACK_EDGE_ACTION (R115) of the bundle in the latch: the loop-range trap, or the loop registers. -/
def execBackEdgeAction (n : Nat) (s : State) : Out :=
  let c := s.iss.ctx
  if s.iss.n = n ∧ hdrLend s.iss.hdr then
    if backTaken c (bundleBrk s) && loopBad c s.iss.core s.iss.pc then
      .next (raiseNote { s with free := s.free + 1 } (.trap 5 0x08 (unstated s)))
    else .next (s.updCtx n fun d => { d with ctl :=
      { d.ctl with
        lpcnt := (backEdge c s.iss.pc (bundleBrk s)).ctl.lpcnt
        lplen := (backEdge c s.iss.pc (bundleBrk s)).ctl.lplen
        lpbrk := (backEdge c s.iss.pc (bundleBrk s)).ctl.lpbrk } })
  else .next s

/-! ## Control registers (R105-R107) -/

/-- CTXID of context n (R107). -/
def ctxid (s : State) (n : Nat) : Word :=
  w64 (n % 4 + (n / 4 % 4) * 4 + nodeOf n * 16 + dieOf n * 1024 + s.mgmt.modn.toNat * 4096)

/-- Control register `no` of context n as it stands, reserved bits 0 (R107). -/
def ctlRead (s : State) (n : Nat) (c : Ctx) (k : Core) (no : Nat) : Word :=
  let l := c.ctl
  match no with
  | 0 => l.fmt
  | 1 => l.flags.setWidth 64
  | 2 => ctxid s n
  | 3 => l.kid.setWidth 64
  | 4 => l.rank.setWidth 64
  | 5 => l.crewn.setWidth 64
  | 6 => wBool l.excl + 2 * wBool l.priv
  | 7 => l.arenaBase.setWidth 64 + (l.arenaSize.setWidth 64 <<< 8)
  | 8 => l.asid.setWidth 64
  | 9 => l.ptroot.setWidth 64 <<< 12
  | 10 => k.limit.setWidth 64
  | 11 => wBool l.stopf
  | 12 => l.lpcnt.setWidth 64
  | 13 => l.lplen.setWidth 64
  | 14 => wBool l.lpbrk + (l.lpstart.setWidth 64 <<< 5)
  | 15 => l.old.setWidth 64
  | 16 => l.ost.setWidth 64
  | 17 => k.frz
  | 18 => k.curw.setWidth 64
  | 19 => k.curlim.setWidth 64
  | 20 => k.curwin.setWidth 64
  | 21 => l.cpol.setWidth 64
  | 22 => l.trappc.setWidth 64 <<< 5
  | 23 => l.trapcode.setWidth 64
  | 24 => l.trapval
  | 25 => l.trapvec.setWidth 64 <<< 5
  | 26 => l.logsk.setWidth 64
  | 27 => wBool l.bsRec + 2 * wBool l.bsRun + (l.bsStat.setWidth 64 <<< 2) + (l.bsCursor.setWidth 64 <<< 8)
  | 28 => l.gbase.setWidth 64 <<< 6
  | 29 => l.biasb.setWidth 64 <<< 6
  | 30 => k.evsel.setWidth 64
  | 31 => (KMap.get 0 k.evc 0).setWidth 64
  | 32 => (KMap.get 0 k.evc 1).setWidth 64
  | 33 => (KMap.get 0 k.evc 2).setWidth 64
  | 34 => (KMap.get 0 k.evc 3).setWidth 64
  | _ => 0

/-- Registers whose write is privileged (R105). -/
def ctlPriv (no : Nat) : Bool := (8 ≤ no && no ≤ 11) || (19 ≤ no && no ≤ 25)

/-- What refuses a write of `v` to register `no`: the trap code and value (R88, R118). -/
def ctlRefuse (k : Core) (no : Nat) (v : Word) : Option Flt :=
  match no with
  | 0 => if 5 ≤ fmtRM v then some (0x05, w64 (fmtRM v)) else none
  | 10 => let x := fld v 0 14
          if x = 0 || 8192 < x || x < k.runFloor.toNat then some (0x06, w64 no) else none
  | 20 => if fld v 0 12 = 0 then some (0x06, w64 no) else none
  | _ => none

/-- A write of EVSEL: counters whose number changes are set to 0 at the end of the clk (R410). -/
def writeEvsel (k : Core) (v : BitVec 32) : Core :=
  { k with
    evsel := v
    evz := (List.range 4).foldl (fun m i =>
      if bits k.evsel.toNat (8 * i) 8 = bits v.toNat (8 * i) 8 then m else m ||| 1#4 <<< i) k.evz }

/-- A per-context control-register write that nothing refuses (R118). Registers marked "—" are not changed. -/
def ctlWriteCtx (c : Ctx) (no : Nat) (v : Word) : Ctx :=
  match no with
  | 0 => writeFmt c v
  | 1 => c.updCtl fun l => { l with flags := v.setWidth 6 }
  | 8 => c.updCtl fun l => { l with asid := v.setWidth 16 }
  | 9 => c.updCtl fun l => { l with ptroot := v.extractLsb' 12 36 }
  | 11 => { c with stopDist := c.stopDist && v.getLsbD 0, ctl := { c.ctl with stopf := v.getLsbD 0 } }
  | 12 => c.updCtl fun l => { l with lpcnt := v.setWidth 32 }
  | 14 => c.updCtl fun l => { l with lpbrk := v.getLsbD 0, lpstart := v.extractLsb' 5 18 }
  | 21 => c.updCtl fun l => { l with cpol := v.setWidth 10 }
  | 22 => c.updCtl fun l => { l with trappc := v.extractLsb' 5 18 }
  | 23 => c.updCtl fun l => { l with trapcode := v.setWidth 8 }
  | 24 => c.updCtl fun l => { l with trapval := v }
  | 25 => c.updCtl fun l => { l with trapvec := v.extractLsb' 5 18 }
  | 26 => c.updCtl fun l => { l with logsk := v.setWidth 3 }
  | 28 => c.updCtl fun l => { l with gbase := v.extractLsb' 6 50 }
  | 29 => c.updCtl fun l => { l with biasb := v.extractLsb' 6 17 }
  | _ => c

/-- A core-scope control-register write that nothing refuses (R118). -/
def ctlWriteCore (k : Core) (no : Nat) (v : Word) : Core :=
  match no with
  | 10 => { k with limit := v.setWidth 14 }
  | 19 => { k with curlim := v.setWidth 24 }
  | 20 => { k with curwin := v.setWidth 12 }
  | 30 => writeEvsel k (v.setWidth 32)
  | _ => k

/-- A control-register write of context n (R118). -/
def ctlWrite (s : State) (n no : Nat) (v : Word) : State :=
  (s.updCtx n fun c => ctlWriteCtx c no v).updCore (coreOf n) fun k => ctlWriteCore k no v

/-- Is T above 34 (R117)? -/
def numberNote (t : Word) : Note := trapIf (decide (34 < t.toNat)) 0x06 t

/-- The privilege check of `cx.wr` (R63, R420). -/
def ctlPrivNote (s : State) (t : Word) : Note :=
  let c := s.iss.ctx
  let no := t.toNat
  trapIf (ctlPriv no && (!c.ctl.priv || (limitedPriv c && !(22 ≤ no && no ≤ 24)))) 0x02 (unstated s)

/-- CX_RD (R117). -/
def execCxRd (g : BitVec 4) (src : BitVec 9) (s : State) : Out :=
  trigger 5 4 1 1 false [] [numberNote (tWord s src)] g src
    (fun v s => flyNew s 2 5 (.s (ctlRead s s.iss.n s.iss.ctx s.iss.core v.word.toNat)) 0 0) s

/-- CX_WR (R118). -/
def execCxWr (g : BitVec 4) (src : BitVec 9) (s : State) : Out :=
  trigger 5 5 1 1 false []
    [numberNote (tWord s src), ctlPrivNote s (tWord s src),
      trapFlt (ctlRefuse s.iss.core (tWord s src).toNat (s.iss.ctx.portW 5 0))] g src
    (fun v s => ctlWrite s s.iss.n v.word.toNat (s.iss.ctx.portW 5 0)) s

/-- CX_FMT (R88, R119). -/
def execCxFmt (g : BitVec 4) (src : BitVec 9) (s : State) : Out :=
  trigger 5 6 1 1 false [] [trapFlt (ctlRefuse s.iss.core 0 (tWord s src))] g src
    (fun v s => onCtx (fun c => writeFmt c v.word) s) s

/-- CX_FLG (R91): lands FLAGS, then clears the bits set in T. -/
def execCxFlg (g : BitVec 4) (src : BitVec 9) (s : State) : Out :=
  trigger 5 7 1 1 false [] [] g src (fun v s =>
    flyNew (onCtx (fun c => c.updCtl fun l => { l with flags := l.flags &&& ~~~(v.word.setWidth 6) }) s) 1 5
      (.s (s.iss.ctx.ctl.flags.setWidth 64)) 0 0) s

/-- FMT_SHADOW_EXPIRY (R88). -/
def execFmtShadowExpiry (n : Nat) (s : State) : Out := .next (s.updCtx n fmtDue)

end Sys2Proof.Machine
end

