-- ==== Sys2Proof/Machine/Buffer.lean ====
section
/-!
DEFINITION. The circular-buffer unit CB (R280-R284).
-/

namespace Sys2Proof.Machine

/-- Is a handle named by an outstanding engine command or by the context's step in flight (R281)? -/
def cbNamed (s : State) (h : Nat) : Bool :=
  let c := s.iss.ctx
  ([16, 17, 18].any fun fu => (c.queue fu).any fun q => decide (ek q.a1 = 2 ∧ fld q.a1 0 4 = h)) ||
    (match s.iss.core.matrix.step with
     | some m => decide (m.n = s.iss.n) && m.bufs.any fun b => b.1 = h
     | none => false)

/-- CB_SET (R281). -/
def execCbSet (g : BitVec 4) (src : BitVec 9) (s : State) : Out :=
  let c := s.iss.ctx
  let a := c.portW 21 0
  let b := c.portW 21 1
  let h := fld (tWord s src) 0 4
  let ssz := fld a 32 9
  let ns := fld b 0 13
  let gr := fld b 16 13
  let top := fld a 0 23 + 256 * ssz * ns
  trigger 21 4 1 1 false []
    [trapIf (decide (ssz = 0 ∨ 256 < ssz ∨ fld a 0 8 ≠ 0)) 0x0A a,
      trapIf (decide (ns = 0 ∨ 4096 < ns ∨ gr = 0 ∨ ns < gr)) 0x0A b,
      trapIf (decide (arenaBytes c < top)) 0x20 (w64 top),
      trapIf (cbNamed s h || decide ((c.cb h).pq ≠ 0)) 0x0E (w64 h)] g src
    (fun _ s => onCtx (fun x => x.setCb h
      { Cb.reset with
        cfg := true, base := BitVec.ofNat 15 (fld a 8 15), ssz := BitVec.ofNat 9 ssz, ns := BitVec.ofNat 13 ns
        gr := BitVec.ofNat 13 gr }) s) s

/-- Is m outside 1 to NS? -/
def slotsBad (b : Cb) (m : Nat) : Bool := decide (m = 0 ∨ b.ns.toNat < m)

/-- CB_ADV (R281): it blocks while FREE is below m, whoever holds PQ, as R48 has blocks before the unit's checks; PP advances at
the end of clk issue + 3. -/
def execCbAdv (g : BitVec 4) (src : BitVec 9) (s : State) : Out :=
  let c := s.iss.ctx
  let h := fld (c.portW 21 2) 0 4
  let b := c.cb h
  let t := tWord s src
  trigger 21 5 1 1 true
    [blockIf (b.cfg && !slotsBad b t.toNat && decide (b.free < (t.toNat : Int)))]
    [trapIf (!b.cfg) 0x0D (w64 h), trapIf (slotsBad b t.toNat) 0x0A t, trapIf (decide (b.pq ≠ 0)) 0x0E (w64 h)] g src
    (fun v s => onCtx (fun x => x.updInf fun i => { i with cbAdv := i.cbAdv ++ [(3, h, v.word.toNat)] }) s) s

/-- RP and CC after slots up to `rp` are released (R281, R282). -/
def Cb.releaseTo (b : Cb) (rp : Nat) : Cb :=
  let r := max b.rp.toNat rp
  { b with rp := BitVec.ofNat 40 r, cc := BitVec.ofNat 48 (max b.cc.toNat (b.rps * r)) }

/-- CB_REL (R281). -/
def execCbRel (g : BitVec 4) (src : BitVec 9) (s : State) : Out :=
  let c := s.iss.ctx
  let h := fld (c.portW 21 2) 0 4
  let b := c.cb h
  let t := tWord s src
  trigger 21 6 1 1 false []
    [trapIf (!b.cfg) 0x0D (w64 h), trapIf (slotsBad b t.toNat || decide (b.pp.toNat < b.rp.toNat + t.toNat)) 0x0A t] g
    src (fun v s => onCtx (fun x => x.setCb h ((x.cb h).releaseTo (b.rp.toNat + v.word.toNat))) s) s

/-- CB_QRY (R281). -/
def execCbQry (g : BitVec 4) (src : BitVec 9) (s : State) : Out :=
  let h := fld (tWord s src) 0 4
  let b := s.iss.ctx.cb h
  trigger 21 7 1 1 false [] [trapIf (!b.cfg) 0x0D (w64 h)] g src (fun _ s =>
    flyNew s 2 21 (.s (w64 (wrap 13 b.free + wrap 13 b.avail * 2 ^ 16 + b.pp.toNat % 2 ^ 32 * 2 ^ 32))) 0 0) s

/-- CB_ADV_PP_ADVANCE (R281): the advances of context n whose clk has come. -/
def execCbAdvPpAdvance (n : Nat) (s : State) : Out :=
  .next (s.updCtx n advDue)

end Sys2Proof.Machine
end

