-- ==== Sys2Proof/Machine/Scalar.lean ====
section
/-!
DEFINITION. The scalar units SA0, SA1 and SM (R108-R110) and the register and operand-port writes
(R36, R37, R40, R103, R104, R123).
-/

namespace Sys2Proof.Machine

/-! ## SA (R108) -/

/-- T[5:0]. -/
def shAmt (t : Word) : Nat := t.toNat % 64
/-- Leading zero bits, 0-64. -/
def clz64 (t : Word) : Nat := if t = 0 then 64 else 63 - Nat.log2 t.toNat
/-- Trailing zero bits from bit `i` up, within `n` bits. -/
def ctzFrom (t : Nat) : Nat → Nat → Nat
  | 0, i => i
  | n + 1, i => if t.testBit i then i else ctzFrom t n (i + 1)
/-- Trailing zero bits, 0-64. -/
def ctz64 (t : Word) : Nat := ctzFrom t.toNat 64 0

/-- An SA trigger: the unit's ports a and b and T give a 64-bit result at latency 1 (R64). -/
def saTrigger (port : Nat) (f : Word → Word → Word → Word) (g : BitVec 4) (u : BitVec 1) (src : BitVec 9)
    (s : State) : Out :=
  trigger u.toNat port 1 1 false [] [] g src (fun v s =>
    flyNew s 1 u.toNat (.s (f (s.iss.ctx.portW u.toNat 0) (s.iss.ctx.portW u.toNat 1) v.word)) 0 0) s

/-- The result of `sa.add` (R108). -/
def saAddVal (a _b t : Word) : Word := a + t
/-- SA_ADD (R108). -/
def execSaAdd (g : BitVec 4) (u : BitVec 1) (src : BitVec 9) (s : State) : Out := saTrigger 4 saAddVal g u src s

/-- The result of `sa.sub` (R108). -/
def saSubVal (a _b t : Word) : Word := a - t
/-- SA_SUB (R108). -/
def execSaSub (g : BitVec 4) (u : BitVec 1) (src : BitVec 9) (s : State) : Out := saTrigger 5 saSubVal g u src s

/-- The result of `sa.and` (R108). -/
def saAndVal (a _b t : Word) : Word := a &&& t
/-- SA_AND (R108). -/
def execSaAnd (g : BitVec 4) (u : BitVec 1) (src : BitVec 9) (s : State) : Out := saTrigger 6 saAndVal g u src s

/-- The result of `sa.or` (R108). -/
def saOrVal (a _b t : Word) : Word := a ||| t
/-- SA_OR (R108). -/
def execSaOr (g : BitVec 4) (u : BitVec 1) (src : BitVec 9) (s : State) : Out := saTrigger 7 saOrVal g u src s

/-- The result of `sa.xor` (R108). -/
def saXorVal (a _b t : Word) : Word := a ^^^ t
/-- SA_XOR (R108). -/
def execSaXor (g : BitVec 4) (u : BitVec 1) (src : BitVec 9) (s : State) : Out := saTrigger 8 saXorVal g u src s

/-- The result of `sa.andn` (R108). -/
def saAndnVal (a _b t : Word) : Word := a &&& ~~~t
/-- SA_ANDN (R108). -/
def execSaAndn (g : BitVec 4) (u : BitVec 1) (src : BitVec 9) (s : State) : Out := saTrigger 9 saAndnVal g u src s

/-- The result of `sa.shl` (R108). -/
def saShlVal (a _b t : Word) : Word := a <<< shAmt t
/-- SA_SHL (R108). -/
def execSaShl (g : BitVec 4) (u : BitVec 1) (src : BitVec 9) (s : State) : Out := saTrigger 10 saShlVal g u src s

/-- The result of `sa.shr` (R108). -/
def saShrVal (a _b t : Word) : Word := a >>> shAmt t
/-- SA_SHR (R108). -/
def execSaShr (g : BitVec 4) (u : BitVec 1) (src : BitVec 9) (s : State) : Out := saTrigger 11 saShrVal g u src s

/-- The result of `sa.sra` (R108). -/
def saSraVal (a _b t : Word) : Word := a.sshiftRight (shAmt t)
/-- SA_SRA (R108). -/
def execSaSra (g : BitVec 4) (u : BitVec 1) (src : BitVec 9) (s : State) : Out := saTrigger 12 saSraVal g u src s

/-- The result of `sa.rotl` (R108). -/
def saRotlVal (a _b t : Word) : Word := a.rotateLeft (shAmt t)
/-- SA_ROTL (R108). -/
def execSaRotl (g : BitVec 4) (u : BitVec 1) (src : BitVec 9) (s : State) : Out := saTrigger 13 saRotlVal g u src s

/-- The result of `sa.eq` (R108). -/
def saEqVal (a _b t : Word) : Word := wBool (decide (a = t))
/-- SA_EQ (R108). -/
def execSaEq (g : BitVec 4) (u : BitVec 1) (src : BitVec 9) (s : State) : Out := saTrigger 14 saEqVal g u src s

/-- The result of `sa.ne` (R108). -/
def saNeVal (a _b t : Word) : Word := wBool (decide (a ≠ t))
/-- SA_NE (R108). -/
def execSaNe (g : BitVec 4) (u : BitVec 1) (src : BitVec 9) (s : State) : Out := saTrigger 15 saNeVal g u src s

/-- The result of `sa.lt` (R108). -/
def saLtVal (a _b t : Word) : Word := wBool (a.slt t)
/-- SA_LT (R108). -/
def execSaLt (g : BitVec 4) (u : BitVec 1) (src : BitVec 9) (s : State) : Out := saTrigger 16 saLtVal g u src s

/-- The result of `sa.ltu` (R108). -/
def saLtuVal (a _b t : Word) : Word := wBool (a.ult t)
/-- SA_LTU (R108). -/
def execSaLtu (g : BitVec 4) (u : BitVec 1) (src : BitVec 9) (s : State) : Out := saTrigger 17 saLtuVal g u src s

/-- The result of `sa.le` (R108). -/
def saLeVal (a _b t : Word) : Word := wBool (a.sle t)
/-- SA_LE (R108). -/
def execSaLe (g : BitVec 4) (u : BitVec 1) (src : BitVec 9) (s : State) : Out := saTrigger 18 saLeVal g u src s

/-- The result of `sa.leu` (R108). -/
def saLeuVal (a _b t : Word) : Word := wBool (a.ule t)
/-- SA_LEU (R108). -/
def execSaLeu (g : BitVec 4) (u : BitVec 1) (src : BitVec 9) (s : State) : Out := saTrigger 19 saLeuVal g u src s

/-- The result of `sa.min` (R108). -/
def saMinVal (a _b t : Word) : Word := if t.slt a then t else a
/-- SA_MIN (R108). -/
def execSaMin (g : BitVec 4) (u : BitVec 1) (src : BitVec 9) (s : State) : Out := saTrigger 20 saMinVal g u src s

/-- The result of `sa.minu` (R108). -/
def saMinuVal (a _b t : Word) : Word := if t.ult a then t else a
/-- SA_MINU (R108). -/
def execSaMinu (g : BitVec 4) (u : BitVec 1) (src : BitVec 9) (s : State) : Out := saTrigger 21 saMinuVal g u src s

/-- The result of `sa.max` (R108). -/
def saMaxVal (a _b t : Word) : Word := if a.slt t then t else a
/-- SA_MAX (R108). -/
def execSaMax (g : BitVec 4) (u : BitVec 1) (src : BitVec 9) (s : State) : Out := saTrigger 22 saMaxVal g u src s

/-- The result of `sa.maxu` (R108). -/
def saMaxuVal (a _b t : Word) : Word := if a.ult t then t else a
/-- SA_MAXU (R108). -/
def execSaMaxu (g : BitVec 4) (u : BitVec 1) (src : BitVec 9) (s : State) : Out := saTrigger 23 saMaxuVal g u src s

/-- The result of `sa.sel` (R108). -/
def saSelVal (a b t : Word) : Word := if b.getLsbD 0 then a else t
/-- SA_SEL (R108). -/
def execSaSel (g : BitVec 4) (u : BitVec 1) (src : BitVec 9) (s : State) : Out := saTrigger 24 saSelVal g u src s

/-- The result of `sa.clz` (R108). -/
def saClzVal (_a _b t : Word) : Word := w64 (clz64 t)
/-- SA_CLZ (R108). -/
def execSaClz (g : BitVec 4) (u : BitVec 1) (src : BitVec 9) (s : State) : Out := saTrigger 25 saClzVal g u src s

/-- The result of `sa.ctz` (R108). -/
def saCtzVal (_a _b t : Word) : Word := w64 (ctz64 t)
/-- SA_CTZ (R108). -/
def execSaCtz (g : BitVec 4) (u : BitVec 1) (src : BitVec 9) (s : State) : Out := saTrigger 26 saCtzVal g u src s

/-- The result of `sa.popc` (R108). -/
def saPopcVal (_a _b t : Word) : Word := w64 (popCount t.toNat 64)
/-- SA_POPC (R108). -/
def execSaPopc (g : BitVec 4) (u : BitVec 1) (src : BitVec 9) (s : State) : Out := saTrigger 27 saPopcVal g u src s

/-- The result of `sa.sxt` (R108). -/
def saSxtVal (a _b t : Word) : Word := w64 (sext (shAmt t + 1) 64 a.toNat)
/-- SA_SXT (R108). -/
def execSaSxt (g : BitVec 4) (u : BitVec 1) (src : BitVec 9) (s : State) : Out := saTrigger 28 saSxtVal g u src s

/-- The result of `sa.lea` (R108). -/
def saLeaVal (a b t : Word) : Word := a + (b <<< (t.toNat % 4))
/-- SA_LEA (R108). -/
def execSaLea (g : BitVec 4) (u : BitVec 1) (src : BitVec 9) (s : State) : Out := saTrigger 29 saLeaVal g u src s

/-! ## SM (R109, R110) -/

/-- An SM trigger: port a and T give a 64-bit result (R65). -/
def smTrigger (port lat int w : Nat) (f : Word → Word → Word) (g : BitVec 4) (src : BitVec 9) (s : State) : Out :=
  trigger 2 port int w false [] [] g src (fun v s => flyNew s lat 2 (.s (f (s.iss.ctx.portW 2 0) v.word)) 0 0) s

/-- The result of `sm.mul` (R109). -/
def smMulVal (a t : Word) : Word := a * t
/-- SM_MUL (R109). -/
def execSmMul (g : BitVec 4) (src : BitVec 9) (s : State) : Out := smTrigger 4 3 1 2 smMulVal g src s

/-- The result of `sm.mulh` (R109). -/
def smMulhVal (a t : Word) : Word := BitVec.ofInt 64 (a.toInt * t.toInt / 2 ^ 64)
/-- SM_MULH (R109). -/
def execSmMulh (g : BitVec 4) (src : BitVec 9) (s : State) : Out := smTrigger 5 3 1 2 smMulhVal g src s

/-- The result of `sm.mulhu` (R109). -/
def smMulhuVal (a t : Word) : Word := w64 (a.toNat * t.toNat / 2 ^ 64)
/-- SM_MULHU (R109). -/
def execSmMulhu (g : BitVec 4) (src : BitVec 9) (s : State) : Out := smTrigger 6 3 1 2 smMulhuVal g src s

/-- The result of `sm.div` (R109). -/
def smDivVal (a t : Word) : Word := if t = 0 then 0xFFFFFFFFFFFFFFFF else BitVec.ofInt 64 (Int.tdiv a.toInt t.toInt)
/-- SM_DIV (R109). -/
def execSmDiv (g : BitVec 4) (src : BitVec 9) (s : State) : Out := smTrigger 7 20 20 3 smDivVal g src s

/-- The result of `sm.divu` (R109). -/
def smDivuVal (a t : Word) : Word := if t = 0 then 0xFFFFFFFFFFFFFFFF else w64 (a.toNat / t.toNat)
/-- SM_DIVU (R109). -/
def execSmDivu (g : BitVec 4) (src : BitVec 9) (s : State) : Out := smTrigger 8 20 20 3 smDivuVal g src s

/-- The result of `sm.rem` (R109). -/
def smRemVal (a t : Word) : Word := if t = 0 then a else BitVec.ofInt 64 (Int.tmod a.toInt t.toInt)
/-- SM_REM (R109). -/
def execSmRem (g : BitVec 4) (src : BitVec 9) (s : State) : Out := smTrigger 9 20 20 3 smRemVal g src s

/-- The result of `sm.remu` (R109). -/
def smRemuVal (a t : Word) : Word := if t = 0 then a else w64 (a.toNat % t.toNat)
/-- SM_REMU (R109). -/
def execSmRemu (g : BitVec 4) (src : BitVec 9) (s : State) : Out := smTrigger 10 20 20 3 smRemuVal g src s

/-! ## Register writes (R33, R40, R103, R104) -/

/-- SCALAR_REGISTER_WRITE (R103): all 64 bits of sn, with the tag of the source (R240). -/
def execScalarRegisterWrite (g : BitVec 4) (r : BitVec 5) (src : BitVec 9) (s : State) : Out :=
  issue s g (moveNotes s src .s) (fun s =>
    onCtx (fun c => c.updRegs fun x => (x.setS r.toNat (readCode s src).word).setTag r.toNat (codeTag s src 0))
      (consume s src))

/-- GUARD_WRITE (R103): guard gn from bit 0 of the value. -/
def execGuardWrite (g : BitVec 4) (r : BitVec 3) (src : BitVec 9) (s : State) : Out :=
  issue s g (moveNotes s src .s) (fun s =>
    onCtx (fun c => c.updRegs fun x => x.setG r.toNat ((readCode s src).word.getLsbD 0)) (consume s src))

/-- The row number WROW4 or WROW5 of the issuing slot (R30, R33). -/
def wrowOf (s : State) : Nat := fld s.iss.hdr (if s.iss.slot = 5 then 60 else 57) 3

/-- TILE_ROW_WRITE (R40): row WROWk of tn at the end of the issue clk. -/
def execTileRowWrite (g : BitVec 4) (t : BitVec 4) (src : BitVec 9) (s : State) : Out :=
  issue s g (moveNotes s src .r) (fun s =>
    onCtx (fun c => c.updRegs fun x =>
      (x.setRow t.toNat (wrowOf s) (readCode s src).row).setTag (32 + 8 * t.toNat + wrowOf s) (codeTag s src 0))
      (consume s src))

/-- The tag of the item that a whole-tile move reads: that of the result in the queue (R240). -/
def jobTag (s : State) (src : BitVec 9) : OutTag :=
  match srcOf src with
  | some (.ent fu age) => if 10 ≤ fu ∧ fu ≤ 13 then (s.iss.ctx.entry fu age).tag else 0
  | _ => (codeTag s src 0).setWidth 21

/-- The row-sequencer job of a move issued now, from row 1 on. -/
def newJob (s : State) (src : BitVec 9) (dst : JobDst) (fmt : Word) (id : Nat) : Job :=
  { k := 1, src := jobSource s src, dst := dst, buf := 0, fmt := fmt, id := id, tag := 0, tagSrc := jobTag s src,
    stage := 0, snap := false }

/-- WHOLE_TILE_WRITE (R40): row k of tn at the end of clk c + k. -/
def execWholeTileWrite (g : BitVec 4) (t : BitVec 4) (src : BitVec 9) (s : State) : Out :=
  issue s g (moveNotes s src .t) (fun s =>
    let (id, s) := fresh s
    onCtx (fun c =>
      let c := c.updRegs fun x =>
        (x.setRow t.toNat 0 (seqRead s.iss.ctx (jobSource s src) 0)).setTag (32 + 8 * t.toNat) (codeTag s src 0)
      c.updInf fun i => { i with jobs := i.jobs ++ [newJob s src (.reg t.toNat) 0 id] })
      (consume s src))

/-! ## Operand-port writes (R36, R123) -/

/-- The value as it stands in a port of a kind (R35). -/
def atKind (k : Kind) (v : Val) : Val :=
  match k with
  | .s => .s v.word
  | .r => .r v.row
  | .t => .t v.tile

/-- Write a port of the issuing context with its source kind and tag (R36, R240, R246). -/
def setPort (c : Ctx) (fu port : Nat) (v : Val) (sk : Option Word) (tag : Tag) : Ctx :=
  { c with
    ports := KMap.put c.ports (4 * fu + port) v
    portSk := KMap.set none c.portSk (4 * fu + port) sk
    regs := c.regs.setTag (portTag fu port 0) tag }

/-- OPERAND_PORT_WRITE (R36). A move into port d of TA0 or TA1 writes row k at the end of clk c + k (R123). -/
def execOperandPortWrite (g : BitVec 4) (f : BitVec 5) (p : BitVec 2) (src : BitVec 9) (s : State) : Out :=
  let k := (portKind f.toNat p.toNat).getD .s
  issue s g (moveNotes s src k) (fun s =>
    let v := readCode s src
    let sk := if v.kind = .s ∧ k ≠ .s then some v.word else none
    if k = .t then
      let (id, s) := fresh s
      onCtx (fun c =>
        let old := c.portT f.toNat p.toNat
        let c := setPort c f.toNat p.toNat (.t (tileSet old 0 (seqRead s.iss.ctx (jobSource s src) 0))) sk (codeTag s src 0)
        c.updInf fun i => { i with jobs := i.jobs ++ [newJob s src (.portD f.toNat) 0 id] }) (consume s src)
    else onCtx (fun c => setPort c f.toNat p.toNat (atKind k v) sk (codeTag s src 0)) (consume s src))

end Sys2Proof.Machine
end

