-- ==== Sys2Proof/Machine/LoadStore.lean ====
section
/-!
DEFINITION. Loads, stores, lateral loads and atomics (R182-R196): LS and AT.
-/

namespace Sys2Proof.Machine

/-! ## The mode word (R184) -/

def lsSize (a : Word) : Nat := 2 ^ fld a 0 2
def lsSx (a : Word) : Bool := a.getLsbD 2
def lsOrd (a : Word) : Bool := a.getLsbD 3
def lsScope (a : Word) : Nat := fld a 4 3
def lsNpl (a : Word) : Nat := fld a 7 5
def lsHalf (a : Word) : Nat := fld a 12 1
def lsLk (a : Word) : Nat := fld a 13 2
def lsTok (a : Word) : Nat := fld a 15 4
def lsTreg (a : Word) : Nat := fld a 19 4
def lsTrow (a : Word) : Nat := fld a 23 3

/-! ## Checks and holds -/

/-- Step 1 of R185. -/
def scopeNote (a : Word) : Note := trapIf (lsOrd a && decide (6 ≤ lsScope a)) 0x09 (w64 (lsScope a))

/-- The context's own quad index (R152). -/
def ownQi (c : Ctx) (n : Nat) : Nat := c.quads.idxOf (nodeOf n)

/-- Do two byte ranges reach one 256-byte row? -/
def oneRow (pa n qa m : Nat) : Bool := decide (pa / 256 ≤ (qa + m - 1) / 256 ∧ qa / 256 ≤ (pa + n - 1) / 256)

/-- Do pieces and a lateral access reach one 256-byte row? -/
def sameRow (gs : List Seg) (l : LatAcc) : Bool := gs.any fun g => oneRow g.pa g.len l.pa l.len

/-- Is this a local atomic to a row that pieces reach, not yet performed? -/
def atomRow (gs : List Seg) (a : LocalAcc) : Bool :=
  (match a.fin with | .atom _ _ _ => true | _ => false) &&
    (a.won ++ a.segs).any fun h => gs.any fun g => oneRow g.pa g.len h.pa h.len

/-- The lateral accesses for which a local form that touches `gs` waits (R192). -/
def holdLats (c : Ctx) (gs : List Seg) (release : Bool) : List LatAcc :=
  c.lats.filter fun l => !l.performed && (l.acq || release || sameRow gs l)

/-- The holds of R192 for a local form that touches `gs`. -/
def localHold (c : Ctx) (gs : List Seg) (release : Bool) : Note :=
  holdIf (holdLats c gs release ≠ [] || c.accs.any (atomRow gs)) 7

/-- A form held under R192 freezes the core, but not the local accesses it waits for: atomics, and those that are performed
before the lateral accesses `ls` (log 49). -/
def letGo (gs : List Seg) (ls : List LatAcc) (o : Out) : Out :=
  match o with
  | .next t =>
    let ids := (ls.filter fun l => !l.sent).flatMap (·.after)
    let mine (a : LocalAcc) : Bool := a.fin ≠ .mat && (atomRow gs a || ids.contains a.id)
    if t.iss.note = .hold 7 ∧ t.iss.ctx.accs.any mine then
      .next (t.updCtx t.iss.n fun c => { c with accs := c.accs.map fun a => if mine a then { a with wall := true } else a })
    else .next t
  | o => o

/-- The bundle in the latch as the replay buffer would hold it, with slot 3 unperformed (R196, R414). -/
def issuedNow (s : State) : Issued :=
  { bundle := ⟨s.iss.hdr, s.iss.slots⟩
    pc := s.iss.pc
    slots := s.iss.slots.zipIdx.map fun p =>
      let m := Move.ofWord p.1
      (p.2 ≠ 3, guardTrue s m.g, readCode s m.src) }

/-! ## Bank rows -/

/-- Cut `len` bytes at `pa` into pieces that stay within one bank row; `off` is their place in the data. -/
def segsOf (pa off len : Nat) : List Seg :=
  let room := 256 - pa % 256
  if len ≤ room then [⟨pa, len, off⟩] else [⟨pa, room, off⟩, ⟨pa + room, len - room, off + room⟩]

/-- The pieces of one half of a patch's planes (R188). -/
def planeSegs (pa npl half : Nat) : List Seg :=
  (List.range npl).flatMap fun q => segsOf (pa + 32 + 128 * q + 64 * half) (64 * q) 64

/-- Bytes from a patch base to the end of the touched range (R188). -/
def planeSpan (a : Word) : Nat := 96 + 128 * (lsNpl a - 1) + 64 * lsHalf a

/-- The bytes of one half of a tile's planes (R188). -/
def planeData (npl : Nat) (t : Tile) : Nat :=
  packNat 512 (fun q => packNat 1 (fun j =>
    if (lane (tileRow t (j / 64)) (j % 64)).getLsbD (npl - 1 - q) then 1 else 0) 512) npl

/-- Count an issued access (R193). -/
def countAcc (c : Ctx) (ld st : Bool) : Ctx :=
  c.updCtl fun l => { l with old := if ld then l.old + 1 else l.old, ost := if st then l.ost + 1 else l.ost }

/-- Enter local accesses of the issuing context. -/
def addAccs (l : List LocalAcc) (c : Ctx) : Ctx := { c with accs := c.accs ++ l }

/-- Physical address of a local vault-window address of the issuing context. -/
def localPA (s : State) (a : Word) : Nat := arenaPA s.iss.ctx (quadOf s.iss.n) (fld a 0 23)

/-- A local LS trigger: address, alignment, size, the pieces it touches, timing and what it enters (R185, R186). -/
def lsLocal (port int w : Nat) (addr : Word) (algn size : Nat) (gs : List Seg) (store : Bool) (more : List Note)
    (g : BitVec 4) (src : BitVec 9) (eff : Val → Nat → State → State) (s : State) : Out :=
  let a := s.iss.ctx.portW 8 0
  letGo gs (holdLats s.iss.ctx gs (store && lsOrd a)) (trigger 8 port int w false
    [localHold s.iss.ctx gs (store && lsOrd a)] ([scopeNote a] ++ more ++ [trapFlt (vaultCheck s.iss.ctx addr true algn size)]) g src
    (fun v s =>
      let (id, s) := fresh s
      onCtx (fun c => countAcc c (!store) store) (eff v id s)) s)

/-- NPL outside 1-24 (R185 step 2). -/
def nplNote (a : Word) : Note := trapIf (decide (lsNpl a = 0 ∨ 24 < lsNpl a)) 0x0A a

/-- One access of a store or of a matrix step. -/
def oneAcc (id rem : Nat) (va : Word) (segs : List Seg) (data : Nat) (fin : AccFin) (ld st : Bool) : LocalAcc :=
  ⟨rem, id, segs, [], data, fin, ld, st, false, va, false, false, 0⟩

/-- One access of a load with mode word a. -/
def loadAcc (id rem : Nat) (va : Word) (segs : List Seg) (fin : AccFin) (ld : Bool) (a : Word) : LocalAcc :=
  { oneAcc id rem va segs 0 fin ld false with acq := lsOrd a }

/-- LS_LDS (R186, R187). -/
def execLsLds (g : BitVec 4) (src : BitVec 9) (s : State) : Out :=
  let a := s.iss.ctx.portW 8 0
  let t := (readCode s src).word
  lsLocal 4 1 4 t (lsSize a) (lsSize a) (segsOf (localPA s t) 0 (lsSize a)) false [] g src (fun _ id s =>
    onCtx (addAccs [loadAcc id 3 t (segsOf (localPA s t) 0 (lsSize a)) (.lds (lsSize a) (lsSx a)) true a]) s) s

/-- LS_STS (R186, R187). -/
def execLsSts (g : BitVec 4) (src : BitVec 9) (s : State) : Out :=
  let a := s.iss.ctx.portW 8 0
  let b := s.iss.ctx.portW 8 1
  lsLocal 5 1 4 b (lsSize a) (lsSize a) (segsOf (localPA s b) 0 (lsSize a)) true [] g src (fun v id s =>
    onCtx (addAccs [oneAcc id 3 b (segsOf (localPA s b) 0 (lsSize a)) v.word.toNat .store false true]) s) s

/-- LS_LDR (R186, R187). -/
def execLsLdr (g : BitVec 4) (src : BitVec 9) (s : State) : Out :=
  let a := s.iss.ctx.portW 8 0
  let t := (readCode s src).word
  lsLocal 6 1 4 t 256 256 (segsOf (localPA s t) 0 256) false [] g src (fun _ id s =>
    onCtx (addAccs [loadAcc id 3 t (segsOf (localPA s t) 0 256) .row true a]) s) s

/-- LS_STR (R186, R187). -/
def execLsStr (g : BitVec 4) (src : BitVec 9) (s : State) : Out :=
  let b := s.iss.ctx.portW 8 1
  lsLocal 7 1 4 b 256 256 (segsOf (localPA s b) 0 256) true [] g src (fun v id s =>
    onCtx (addAccs [oneAcc id 3 b (segsOf (localPA s b) 0 256) v.row.toNat .store false true]) s) s

/-- LS_LDT (R186, R187): row k at c + 3 + k. -/
def execLsLdt (g : BitVec 4) (src : BitVec 9) (s : State) : Out :=
  let a := s.iss.ctx.portW 8 0
  let t := (readCode s src).word
  lsLocal 8 8 16 t 256 2048 [⟨localPA s t, 2048, 0⟩] false [] g src (fun _ id s =>
    onCtx (addAccs ((List.range 8).map fun k =>
      loadAcc id (3 + k) t (segsOf (localPA s t + 256 * k) 0 256) (.tileRow k) (decide (k = 7)) a)) s) s

/-- LS_STT (R186, R187): the sequencer reads row k in clk c + k, and it is performed at c + 3 + k. -/
def execLsStt (g : BitVec 4) (src : BitVec 9) (s : State) : Out :=
  let b := s.iss.ctx.portW 8 1
  lsLocal 9 8 16 b 256 2048 [⟨localPA s b, 2048, 0⟩] true [] g src (fun _ id s =>
    let r0 := seqRead s.iss.ctx (jobSource s src) 0
    onCtx (fun c =>
      (addAccs [oneAcc id 3 b (segsOf (localPA s b) 0 256) r0.toNat .store false false] c).updInf fun i =>
        { i with jobs := i.jobs ++ [newJob s src (.stt (w64 (localPA s b))) 0 id] }) s) s

/-- LS_LDP (R186, R188): every bank row at c + 3. -/
def execLsLdp (g : BitVec 4) (src : BitVec 9) (s : State) : Out :=
  let a := s.iss.ctx.portW 8 0
  let t := (readCode s src).word
  lsLocal 10 8 16 t 32 (planeSpan a) (planeSegs (localPA s t) (lsNpl a) (lsHalf a)) false [nplNote a] g src (fun _ id s =>
    onCtx (addAccs [loadAcc id 3 t (planeSegs (localPA s t) (lsNpl a) (lsHalf a))
      (.ldp (lsNpl a) (lsHalf a) (lsSx a)) true a]) s) s

/-- LS_STP (R186, R188): every bank row at c + 10, once the sequencer has read row 7. -/
def execLsStp (g : BitVec 4) (src : BitVec 9) (s : State) : Out :=
  let a := s.iss.ctx.portW 8 0
  let b := s.iss.ctx.portW 8 1
  lsLocal 11 8 16 b 32 (planeSpan a) (planeSegs (localPA s b) (lsNpl a) (lsHalf a)) true [nplNote a] g src (fun _ id s =>
    let r0 := seqRead s.iss.ctx (jobSource s src) 0
    onCtx (fun c => c.updInf fun i => { i with jobs := i.jobs ++
      [{ newJob s src (.stp (w64 (localPA s b)) (lsNpl a) (lsHalf a)) 0 id with buf := tileSet 0 0 r0 }] }) s) s

/-! ## Lateral accesses (R156, R189-R192, R195) -/

/-- Do two byte ranges meet? -/
def meet (pa n qa m : Nat) : Bool := decide (pa < qa + m ∧ qa < pa + n)

/-- The local accesses of a context that are performed before a lateral access to `n` bytes at `pa`: those to its
location (R172) and its acquire loads (R176). -/
def latAfter (c : Ctx) (pa n : Nat) : List Nat :=
  (c.accs.filter fun a => a.acq || (a.won ++ a.segs).any fun g => meet pa n g.pa g.len).map (·.id) ++
    ((allJobs c).filter fun j => match jobRange j with | some r => meet pa n r.1 r.2 | none => false).map (·.id)

/-- Let a lateral access cross the network: when it reaches its banks, 8 clks after its issue at the earliest, and when it
completes, 20 to 90 or 96 clks after its issue unless it waited longer to be sent (R156, R189, R195). It reaches them early
enough for its waits there (R155; DEDUCED, log 5). -/
def sendLat (s : State) (n : Nat) (l : LatAcc) : State :=
  let last := l.wclk + (if l.atom.isSome then 96 else 90)
  let lo := max (l.wclk + 9) (s.clk + 1)
  let (d, s) := drawNat s lo (max lo (l.wclk + 30))
  let lo := max (l.wclk + 20) d
  let (e, s) := drawNat s lo (max lo last)
  (s.at d true (.lateralPerform n l.id)).at e true (.lateralCompletion n l.id)

/-- Send the lateral accesses of an image's queue that nothing holds back (R192): one waits for the local accesses before
it, behind an acquire-marked `ls.lat`, and behind an access to a location of its own, until that is performed. DESIGN CHOICE
(log 39): those of a saved image, which has no local access left but its sequencers', do not wait for these. -/
def sendLats (s : State) (n : Nat) : State :=
  let unsent (c : Ctx) : Bool := c.lats.any fun l => !l.sent
  match findImage s n unsent with
  | none => s
  | some c =>
    let open' := if unsent (s.ctx n) then openIds s n c else []
    let rec go (s : State) (seen : List LatAcc) : List LatAcc → State
      | [] => s
      | l :: ls =>
        let held := (l.after.any fun i => open'.contains i) ||
          seen.any fun e => !e.performed && (e.acq || meet e.pa e.len l.pa l.len)
        let s :=
          if l.sent || held then s
          else updImage (sendLat s n l) n (fun c => c.lats.any fun x => x.id = l.id) fun c =>
            { c with lats := listUpd (fun x => x.id = l.id) (fun x => { x with sent := true }) c.lats }
        go s (seen ++ [l]) ls
    go s [] c.lats

/-- Bytes of a lateral load (R189). -/
def latBytes (a : Word) : Nat := match lsLk a with | 0 => lsSize a | 1 => 256 | _ => 2048

/-- LS_LAT (R185, R189). -/
def execLsLat (g : BitVec 4) (src : BitVec 9) (s : State) : Out :=
  let c := s.iss.ctx
  let n := s.iss.n
  let a := c.portW 8 0
  let t := (readCode s src).word
  let algn := if lsLk a = 0 then lsSize a else 256
  trigger 8 12 1 4 false []
    [scopeNote a, trapIf (decide (lsLk a = 3)) 0x0A a,
      trapIf (decide ((c.tok (lsTok a)).st = .pending)) 0x0B (w64 (lsTok a)),
      trapFlt (vaultCheck c t false algn (latBytes a))] g src
    (fun _ s =>
      let (id, s) := fresh s
      let l : LatAcc := { id := id, va := t, pa := windowPA c n t, len := latBytes a, atom := none, acq := lsOrd a,
                          tok := lsTok a, lk := lsLk a, sx := lsSx a, treg := lsTreg a, trow := lsTrow a, seqNo := 0,
                          sent := false, performed := false, data := 0, flg := 0, wclk := s.clk
                          after := latAfter c (windowPA c n t) (latBytes a), bad := false }
      onCtx (fun c => countAcc { c.tokPend (lsTok a) with lats := c.lats ++ [l] } true false) s) s

/-! ## Atomics (R194, R195) -/

/-- Remote atomics of a context that have not completed (R192). -/
def remoteCount (c : Ctx) : Nat := (c.lats.filter fun l => l.atom.isSome).length

/-- An AT trigger: local at the bank unit, or remote to token c (R194, R195). DESIGN CHOICE (log 51): a remote one tests its
token before its address, as R185 does for `ls.lat`. -/
def atTrigger (port : Nat) (g : BitVec 4) (src : BitVec 9) (s : State) : Out :=
  let c := s.iss.ctx
  let n := s.iss.n
  let a := c.portW 9 0
  let cmp := c.portW 9 1
  let tk := fld (c.portW 9 2) 0 4
  let remote := decide (fld a 23 6 ≠ ownQi c n)
  let pa := windowPA c n a
  let gs : List Seg := [⟨pa, 8, 0⟩]
  let o := trigger 9 port 1 4 false
    [if remote then holdIf (decide (4 ≤ remoteCount c)) 7 else localHold c gs false]
    [trapIf (remote && decide ((c.tok tk).st = .pending)) 0x0B (w64 tk), trapFlt (vaultCheck c a false 8 8)] g src
    (fun v s =>
      let (id, s) := fresh s
      if remote then
        let l : LatAcc := { id := id, va := a, pa := pa, len := 8, atom := some (port, cmp, v.word), acq := false, tok := tk,
                            lk := 0, sx := false, treg := 0, trow := 0, seqNo := c.latSeq, sent := false,
                            performed := false, data := 0, flg := 0, wclk := s.clk, after := latAfter c pa 8
                            bad := false }
        onCtx (fun c => countAcc { c.tokPend tk with lats := c.lats ++ [l], latSeq := c.latSeq + 1 } true true) s
      else onCtx (fun c => countAcc (addAccs [oneAcc id 3 a [⟨pa, 8, 0⟩] 0 (.atom port cmp v.word) true true] c)
        true true) s) s
  if remote then letGo [] (c.lats.filter fun l => l.atom.isSome) o else letGo gs (holdLats c gs false) o

/-- AT_SWAP (R194, R195). -/
def execAtSwap (g : BitVec 4) (src : BitVec 9) (s : State) : Out := atTrigger 4 g src s

/-- AT_CAS (R194, R195). -/
def execAtCas (g : BitVec 4) (src : BitVec 9) (s : State) : Out := atTrigger 5 g src s

/-- AT_ADD (R194, R195). -/
def execAtAdd (g : BitVec 4) (src : BitVec 9) (s : State) : Out := atTrigger 6 g src s

/-- AT_AND (R194, R195). -/
def execAtAnd (g : BitVec 4) (src : BitVec 9) (s : State) : Out := atTrigger 7 g src s

/-- AT_OR (R194, R195). -/
def execAtOr (g : BitVec 4) (src : BitVec 9) (s : State) : Out := atTrigger 8 g src s

/-- AT_XOR (R194, R195). -/
def execAtXor (g : BitVec 4) (src : BitVec 9) (s : State) : Out := atTrigger 9 g src s

/-- AT_MIN (R194, R195). -/
def execAtMin (g : BitVec 4) (src : BitVec 9) (s : State) : Out := atTrigger 10 g src s

/-- AT_MAX (R194, R195). -/
def execAtMax (g : BitVec 4) (src : BitVec 9) (s : State) : Out := atTrigger 11 g src s

/-- AT_MINU (R194, R195). -/
def execAtMinu (g : BitVec 4) (src : BitVec 9) (s : State) : Out := atTrigger 12 g src s

/-- AT_MAXU (R194, R195). -/
def execAtMaxu (g : BitVec 4) (src : BitVec 9) (s : State) : Out := atTrigger 13 g src s

/-- AT_AADDX (R194, R195). -/
def execAtAaddx (g : BitVec 4) (src : BitVec 9) (s : State) : Out := atTrigger 14 g src s

/-! ## Lateral events -/

/-- Has an image this lateral access? -/
def hasLat (id : Nat) (c : Ctx) : Bool := c.lats.any fun l => l.id = id

/-- LATERAL_PERFORM (R156, R189, R195): the access is performed; OLD and OST fall (R193). -/
def execLateralPerform (n id : Nat) (s : State) : Out :=
  match (findImage s n (hasLat id)).bind fun c => c.lats.find? fun l => l.id = id with
  | none => .next s
  | some l =>
    if l.performed || !l.sent then .next s
    else
      let (s, l') := performLat (s.touch l.pa l.len) n l
      .next (updImage s n (hasLat id) fun c =>
        { c with
          lats := listUpd (fun x => x.id = id) (fun _ => l') c.lats
          ctl := { c.ctl with
            old := c.ctl.old - 1
            ost := if l.atom.isSome then c.ctl.ost - 1 else c.ctl.ost } })

/-- One row that a completed lateral load brings: a write of a bundle or a sequencer to the row in this clk remains
(R191). -/
def latRow (t k : Nat) (v : Row) (r : Regs) : Regs :=
  if r.wrote.contains (8 * t + k) then r else { (r.setRow t k v).setTag (32 + 8 * t + k) 0 with wrote := r.wrote }

/-- What a completed lateral access writes into a context (R190, R191, R195). -/
def latWrites (c : Ctx) (l : LatAcc) : Ctx :=
  let c := { c with lats := c.lats.filter fun x => x.id ≠ l.id }
  let c := c.updCtl fun x => { x with flags := x.flags ||| l.flg }
  if l.atom.isSome then c.tokWrite l.tok (w64 l.data)
  else match l.lk with
    | 0 => c.tokWrite l.tok (loadScalar l.len l.sx l.data)
    | 1 => (c.updRegs (latRow l.treg l.trow (BitVec.ofNat 2048 l.data))).tokWrite l.tok 256
    | _ => (c.updRegs fun r => (List.range 8).foldl (fun r k =>
        latRow l.treg k (BitVec.ofNat 2048 (bits l.data (2048 * k) 2048)) r) r).tokWrite l.tok 2048

/-- LATERAL_COMPLETION (R190, R191): token and rows together; a word with an uncorrectable error is reported as a
data-error fault and the token stays unwritten (R197). The access stands until its fate is known (R423). -/
def execLateralCompletion (n id : Nat) (s : State) : Out :=
  match (findImage s n (hasLat id)).bind fun c => c.lats.find? fun l => l.id = id with
  | none => .next s
  | some l =>
    if !l.performed then .next (if l.sent then s.at (s.clk + 1) true (.lateralCompletion n id) else s)
    else
      let s := s.updCore (coreOf n) fun k => k.count 0x0C 1
      if l.bad then .next (deliverImage s n (hasLat id) 0x27 l.va (latUnit id))
      else .next (updImage s n (hasLat id) fun c => latWrites { c with walks := c.walks.del (latUnit id) } l)

end Sys2Proof.Machine
end

