-- ==== Sys2Proof/Machine/Power.lean ====
section
/-!
DEFINITION. The power unit PW (R440-R443) and the leave arbiter (R457).
-/

namespace Sys2Proof.Machine

/-- Is the issuing context the owner of its core's matrix unit (R204)? -/
def ownsMatrix (s : State) : Bool := decide (s.iss.core.matrix.owner = some s.iss.n)

/-- PW_REQ (R441). A request of weight 0 releases the grant at the end of the clk; its token is written in the next. -/
def execPwReq (g : BitVec 4) (src : BitVec 9) (s : State) : Out :=
  let t := tWord s src
  let a := s.iss.ctx.portW 27 0
  let tk := fld a 0 4
  let ntk := a.getLsbD 4
  let n := s.iss.n
  let c := coreOf n
  trigger 27 4 1 1 false []
    [trapIf (!ownsMatrix s) 0x0F 0, trapIf (decide (2 ^ 16 ≤ t.toNat)) 0x0A t,
      trapIf s.iss.core.matrix.leave.isSome 0x11 t,
      trapIf (!ntk && decide ((s.iss.ctx.tok tk).st = .pending)) 0x0B (w64 tk)] g src
    (fun v s =>
      let w : BitVec 16 := v.word.setWidth 16
      let s := if ntk then s else onCtx (fun x => x.tokPend tk) s
      let s := if w = 0 then releaseGrant s c else s
      let s := s.updCore c fun k => { k with matrix := { k.matrix with leave := some (n, w, tk, ntk) } }
      let l := KMap.get [] s.leaveReqs (c / 256) ++ [⟨c, w, if w = 0 then some (s.clk + 1) else none⟩]
      { s with leaveReqs := KMap.set [] s.leaveReqs (c / 256) l }.at (s.clk + 1) false (.leaveGrant (c / 256))) s

/-- PW_LIM (R442): a new limit and window; the window in progress ends. -/
def execPwLim (g : BitVec 4) (src : BitVec 9) (s : State) : Out :=
  let t := tWord s src
  trigger 27 5 1 1 false [] [trapIf (decide (fld t 0 12 = 0 ∨ 4096 ≤ t.toNat)) 0x06 20] g src
    (fun v s => s.updCore (coreOf s.iss.n) fun k =>
      { k with
        curlim := (s.iss.ctx.portW 27 0).setWidth 24, curwin := v.word.setWidth 12, curw := 0, wstart := s.clk + 1 }) s

/-! ## The arbiter (R457) -/

/-- The token of an answered request, in the live context or its saved image. -/
def grantToken (s : State) (n tk : Nat) (ntk : Bool) (w : BitVec 16) : State :=
  if ntk then s
  else updImage s n (fun c => decide ((c.tok tk).st = .pending)) fun c => c.tokWrite tk (w.setWidth 64)

/-- A request is answered with a weight (0 for none). A grant replaces the core's older one. -/
def answerLeave (s : State) (d c : Nat) (w : BitVec 16) : State :=
  match (s.core c).matrix.leave with
  | none => dropGrant s d w
  | some (n, _, tk, ntk) =>
    let s := grantToken s n tk ntk w
    let s := if w = 0 then s else dropGrant s d (s.core c).matrix.grant
    s.updCore c fun k =>
      { k with matrix := { k.matrix with leave := none, grant := if w = 0 then k.matrix.grant else w } }

/-- LBUD and LHELD of a die. -/
def lbudOf (s : State) (d : Nat) : BitVec 16 := KMap.get Config.lbud s.mgmt.lbud d
def lheldOf (s : State) (d : Nat) : BitVec 16 := KMap.get 0 s.mgmt.lheld d

/-- Requests of more than LBUD are answered at once with 0, whatever waits before them; the others keep their order. -/
def refuseReqs (d : Nat) : List LeaveReq → State → List LeaveReq × State
  | [], s => ([], s)
  | r :: l, s =>
    if r.due.isNone ∧ lbudOf s d < r.w then refuseReqs d l (answerLeave s d r.core 0)
    else let (l', s') := refuseReqs d l s; (r :: l', s')

/-- Admit requests oldest first while LHELD + W fits LBUD; an admitted weight counts at once, and the grant arrives
within 40 clks. -/
def admitReqs (d : Nat) : List LeaveReq → State → List LeaveReq × State
  | [], s => ([], s)
  | r :: l, s =>
    match r.due with
    | some _ => let (l', s') := admitReqs d l s; (r :: l', s')
    | none =>
      if (lheldOf s d).toNat + r.w.toNat ≤ (lbudOf s d).toNat then
        let (k, s) := drawNat s 1 39
        let s := { s with mgmt := { s.mgmt with lheld := KMap.set 0 s.mgmt.lheld d (lheldOf s d + r.w) } }
        let (l', s') := admitReqs d l (s.at (s.clk + k) false (.leaveGrant d))
        ({ r with due := some (s.clk + k) } :: l', s')
      else (r :: l, s)

/-- LEAVE_GRANT (R457): grants that arrive now, then the admission of waiting requests of die d. -/
def execLeaveGrant (d : Nat) (s : State) : Out :=
  let l := KMap.get [] s.leaveReqs d
  let now (r : LeaveReq) : Bool := match r.due with | some k => decide (k ≤ s.clk) | none => false
  let s := (l.filter now).foldl (fun s r => answerLeave s d r.core r.w) s
  let (l, s) := refuseReqs d (l.filter fun r => !now r) s
  let (l', s') := admitReqs d l s
  .next { s' with leaveReqs := KMap.set [] s'.leaveReqs d l' }

end Sys2Proof.Machine
end

