-- ==== Sys2Proof/Machine/Elem.lean ====
section
/-!
DEFINITION. The eight function operations of TX (R136). Quotients and roots are exact with a sticky mark. The
transcendental functions are formed to more than 350 bits beyond any operand's magnitude, with the sticky mark set,
since no such value but the stated special ones is representable (log 19).
-/

namespace Sys2Proof.Machine

/-- Fraction bits of the fixed-point forms. -/
def fxP : Nat := 512

/-- ln 2 × 2^512, truncated. -/
def fxLn2 : Nat :=
  9293584264128987901384440660653081117630633404975079641076009770578364573633075645167623918067512986930843040596952636663673675798576024949780480621393957

/-- 2 ÷ √π × 2^512, truncated. -/
def fxErf : Nat :=
  15129091144565236318728102021357054465931501868382697344855376898009540746382886124033677943963406588385143660408145906714304807668551155560290336851985570

/-- Sum of r^i / i! from the term `t` on, r in fixed point. -/
def fxTaylor (r : Nat) : Nat → Nat → Nat → Nat → Nat
  | 0, _, _, acc => acc
  | n + 1, i, t, acc => fxTaylor r n (i + 1) ((t * r) >>> fxP / (i + 1)) (acc + t)

/-- e^x for x in fixed point: (v, k) with the value v × 2^(k - 512), 2^512 ≤ v < 2^513. -/
def fxExp (x : Int) : Nat × Int :=
  let k := x / (fxLn2 : Int)
  (fxTaylor (x - k * fxLn2).toNat 120 0 (2 ^ fxP) 0, k)

/-- Sum of z^(2i+1) / (2i+1), with z2 = z². -/
def fxAtanh (z2 : Nat) : Nat → Nat → Nat → Nat → Nat
  | 0, _, _, acc => acc
  | n + 1, i, t, acc => fxAtanh z2 n (i + 1) ((t * z2) >>> fxP) (acc + t / (2 * i + 1))

/-- ln of m × 2^e in fixed point. -/
def fxLog (m : Nat) (e : Int) : Int :=
  let l := Nat.log2 m
  let y := m <<< (fxP - l)
  let z := ((y - 2 ^ fxP) <<< fxP) / (y + 2 ^ fxP)
  ((l : Int) + e) * fxLn2 + 2 * (fxAtanh ((z * z) >>> fxP) 170 0 z 0 : Nat)

/-- Sum of 2^i x^(2i) / (2i+1)!!, with x2 = x². -/
def fxErfSum (x2 : Nat) : Nat → Nat → Nat → Nat → Nat
  | 0, _, _, acc => acc
  | n + 1, i, t, acc => fxErfSum x2 n (i + 1) ((2 * t * x2) >>> fxP / (2 * i + 3)) (acc + t)

/-- A value above every finite number of every format. -/
def hugeNum : Num := .fin false 1 1000 true
/-- A positive value below every subnormal. -/
def tinyNum : Num := .fin false 1 (-1000) true
/-- A value just below 1. -/
def almostOne (neg : Bool) : Num := .fin neg (2 ^ fxP - 1) (-(fxP : Int)) true

/-- m × 2^e in fixed point. -/
def fxOf (m : Nat) (e : Int) : Nat := (splitAt m (e + fxP)).1

/-- Is m × 2^e at least n? -/
def geNat (m : Nat) (e : Int) (n : Nat) : Bool := !ltNum false (dy false m e) (dy false n 0)

/-- e^x for finite x. -/
def numExp (neg : Bool) (m : Nat) (e : Int) : Num :=
  if geNat m e 300 then (if neg then tinyNum else hugeNum)
  else
    let x : Int := (fxOf m e : Nat)
    let (v, k) := fxExp (if neg then -x else x)
    .fin false v (k - fxP) true

/-- tanh of a finite nonzero value. -/
def numTanh (neg : Bool) (m : Nat) (e : Int) : Num :=
  if geNat m e 100 then almostOne neg
  else
    let (v, k) := fxExp (2 * (fxOf m e : Nat))
    let big := v <<< k.toNat
    .fin neg (((big - 2 ^ fxP) <<< fxP) / (big + 2 ^ fxP)) (-(fxP : Int)) true

/-- 1 / (1 + e^-x) for finite nonzero x. -/
def numSigm (neg : Bool) (m : Nat) (e : Int) : Num :=
  if geNat m e 300 then (if neg then tinyNum else almostOne false)
  else
    let (v, k) := fxExp (fxOf m e : Nat)
    let big := v <<< k.toNat
    if neg then .fin false (2 ^ (3 * fxP) / (big + 2 ^ fxP)) (-(2 * fxP : Int)) true
    else .fin false ((big <<< fxP) / (big + 2 ^ fxP)) (-(fxP : Int)) true

/-- erf of a finite nonzero value. -/
def numErf (neg : Bool) (m : Nat) (e : Int) : Num :=
  if geNat m e 10 then almostOne neg
  else
    let x := fxOf m e
    let x2 := (x * x) >>> fxP
    let (v, k) := fxExp (-(x2 : Int))
    let s := fxErfSum x2 420 0 (2 ^ fxP) 0
    .fin neg (m * v * s * fxErf) (e + k - 3 * fxP) true

/-- 1 / x for finite nonzero x. -/
def numRcp (neg : Bool) (m : Nat) (e : Int) : Num :=
  .fin neg (2 ^ fxP / m) (-(fxP : Int) - e) (decide (2 ^ fxP % m ≠ 0))

/-- The integer square root by Newton's method from above. -/
def isqrtLoop (n : Nat) : Nat → Nat → Nat
  | 0, x => x
  | f + 1, x => let y := (x + n / x) / 2; if y < x then isqrtLoop n f y else x

/-- The integer square root. -/
def isqrt (n : Nat) : Nat := if n = 0 then 0 else isqrtLoop n 600 (2 ^ (Nat.log2 n / 2 + 1))

/-- √x for finite positive x. -/
def numSqrt (m : Nat) (e : Int) : Num :=
  let (m, e) := if e % 2 = 0 then (m, e) else (2 * m, e - 1)
  let n := m <<< fxP
  let r := isqrt n
  .fin false r ((e - fxP) / 2) (decide (r * r ≠ n))

/-- 1 / √x for finite positive x. -/
def numRsq (m : Nat) (e : Int) : Num :=
  let (m, e) := if e % 2 = 0 then (m, e) else (2 * m, e - 1)
  let r := isqrt (2 ^ (2 * fxP) / m)
  .fin false r (-(fxP : Int) - e / 2) (decide (r * r * m ≠ 2 ^ (2 * fxP)))

/-- f(x) for the TX function at port `op` with the flags of its special operands (R136). -/
def txFun (op : Nat) (x : Num) : Num × Flg :=
  match x with
  | .nan s => (.nan false, flgIf s flgNV)
  | .inf neg =>
    match op with
    | 7 => (if neg then dy false 0 0 else .inf false, 0)
    | 8 => if neg then (.nan false, flgNV) else (.inf false, 0)
    | 9 => (dy neg 0 0, 0)
    | 10 => if neg then (.nan false, flgNV) else (dy false 0 0, 0)
    | 11 => if neg then (.nan false, flgNV) else (.inf false, 0)
    | 12 => (dy neg 1 0, 0)
    | 13 => (if neg then dy false 0 0 else dy false 1 0, 0)
    | _ => (dy neg 1 0, 0)
  | .fin neg m e _ =>
    if m = 0 then
      match op with
      | 7 => (dy false 1 0, 0)
      | 8 => (.inf true, flgDZ)
      | 9 => (.inf neg, flgDZ)
      | 10 => (.inf neg, flgDZ)
      | 11 => (dy neg 0 0, 0)
      | 12 => (dy neg 0 0, 0)
      | 13 => (dy false 1 (-1), 0)
      | _ => (dy neg 0 0, 0)
    else
      match op with
      | 7 => (numExp neg m e, 0)
      | 8 => if neg then (.nan false, flgNV)
             else if ltNum false (dy false m e) (dy false 1 0) || ltNum false (dy false 1 0) (dy false m e) then
               let v := fxLog m e
               (.fin (decide (v < 0)) v.natAbs (-(fxP : Int)) true, 0)
             else (dy false 0 0, 0)
      | 9 => (numRcp neg m e, 0)
      | 10 => if neg then (.nan false, flgNV) else (numRsq m e, 0)
      | 11 => if neg then (.nan false, flgNV) else (numSqrt m e, 0)
      | 12 => (numTanh neg m e, 0)
      | 13 => (numSigm neg m e, 0)
      | _ => (numErf neg m e, 0)

end Sys2Proof.Machine
end

