-- ==== Sys2Proof/Machine/Record.lean ====
section
/-!
DEFINITION. Record mode at issue: what is recorded, its checks and holds, the staged entry, BL.FW and the producer
table (R241-R249). The log writer and unpick stand in Machine/Baste.lean.
-/

namespace Sys2Proof.Machine

/-! ## Checksums and images (R245, R247) -/

/-- One bit step of CRC-32C. -/
def crcBit (c : Nat) : Nat := if c % 2 = 1 then (c / 2) ^^^ 0x82F63B78 else c / 2

/-- CRC-32C over the low `n` bytes of a number, from a running value. -/
def crcRun (c v : Nat) : Nat → Nat
  | 0 => c
  | n + 1 =>
    let x := c ^^^ (v % 256)
    crcRun (crcBit (crcBit (crcBit (crcBit (crcBit (crcBit (crcBit (crcBit x)))))))) (v / 256) n

/-- CRC-32C of the low `n` bytes of a number (R245). -/
def crc32c (v n : Nat) : Nat := crcRun 0xFFFFFFFF v n ^^^ 0xFFFFFFFF

/-- Byte length and number of an operand image. -/
def imgLen : Val → Nat
  | .s _ => 8
  | .r _ => 256
  | .t _ => 2048
def imgNat : Val → Nat
  | .s v => v.toNat
  | .r v => v.toNat
  | .t v => v.toNat
/-- Slots of 64 bytes of an image (R247). -/
def imgSlots (v : Val) : Nat := (imgLen v + 63) / 64

/-! ## The flag word (R243, R253) -/

def fwFlag (fw : Word) (i : Nat) : Nat := fld fw (2 * i) 2
def fwSticky (fw : Word) : Bool := fw.getLsbD 8
def fwInc (fw : Word) : Bool := fw.getLsbD 9
def fwRgid (fw : Word) : Nat := fld fw 10 12
def fwRrow (fw : Word) : Nat := fld fw 22 8

/-- BL.FW after a recorded operation has issued (R243). -/
def nextFw (fw : Word) (oneRow : Bool) : Word :=
  if !fwSticky fw then 0
  else if !fwInc fw then fw
  else if oneRow then
    if fwRrow fw = 255 then setFld (setFld fw 22 8 0) 10 12 (fwRgid fw + 1) else setFld fw 22 8 (fwRrow fw + 1)
  else setFld fw 10 12 (fwRgid fw + 1)

/-- The tag of row k of a recorded result (R240). -/
def resultTag (fw : Word) (k : Nat) : Tag := BitVec.ofNat 20 (fwRgid fw * 256 + (fwRrow fw + k) % 256)

/-! ## A recorded operation -/

/-- An operand of a recorded operation: whether its adjoint reads it (R244), its image's value as far as it is known
at issue, its size in slots when saved, its tag, and whether a scalar stood in a row or tile port. -/
structure Opnd where
  used : Bool
  val : Val
  slots : Nat
  tag : Tag
  tagOk : Bool
  sk : Bool
  /-- REFER is refused (a B operand read through a circular buffer, R245); SAVE range in bytes (R247). -/
  noRefer : Bool
  range : Nat
  deriving DecidableEq, Repr

/-- An operand that the operation does not have. -/
def Opnd.none : Opnd := ⟨false, .s 0, 1, 0, true, false, false, 0⟩

/-- A recorded operation's operands in the order a (A), b (B), T, y, and the slots that are no operand's. -/
structure RecOp where
  fu : Nat
  port : Nat
  kind : Nat
  rout : Nat
  ops : List Opnd
  extra : Nat
  oneRow : Bool
  scw : Word
  /-- Byte images of a matrix step. -/
  raws : List RawImg := []
  deriving DecidableEq, Repr

/-- Is record mode on for the issuing bundle (R242)? -/
def recOn (s : State) : Bool := s.iss.ctx.ctl.bsRec && !s.iss.ctx.hdep

/-- The flag of operand i as recorded (R244): NONE where the adjoint does not read it. -/
def opndFlag (fw : Word) (i : Nat) (o : Opnd) : Nat := if o.used then fwFlag fw i else 3

/-- Slots of operand i's image (R247). -/
def opndSlots (fw : Word) (i : Nat) (o : Opnd) : Nat :=
  match opndFlag fw i o with
  | 0 => o.slots
  | 1 => 1
  | _ => 0

/-- Sum over the operands with their numbers. -/
def opndSum (f : Nat → Opnd → Nat) : Nat → List Opnd → Nat
  | _, [] => 0
  | i, o :: os => f i o + opndSum f (i + 1) os

/-- LEN: slots of the entry (R246, R247). -/
def RecOp.len (r : RecOp) (fw : Word) : Nat := 1 + r.extra + opndSum (opndSlots fw) 0 r.ops

/-- The producer's header slot of a GID (R239). -/
def producerOf (b : Baste) (gid : Nat) : Option Nat :=
  if gid = 0 then none else (b.prods.reverse.find? fun p => p.1.toNat = gid).map fun p => p.2.toNat

/-- Slots of entries staged and not yet appended. -/
def stagedSlots (b : Baste) : Nat := listSum (b.stages.map (·.len))

/-- The context's log length with every entry staged ahead (R249; log 21). -/
def logNext (b : Baste) : Nat := b.lrlen.toNat + stagedSlots b

/-- The baste-flag condition of operand i (R244, R245, R247). -/
def flagBad (b : Baste) (i : Nat) (o : Opnd) : Bool :=
  o.used &&
    match fwFlag b.fw i with
    | 0 => decide (32768 < o.range)
    | 1 => i ≠ 3 && (producerOf b (fld (o.tag.setWidth 64) 8 12)).isNone
    | 2 => o.noRefer
    | _ => true

/-- The first operand with a property, from number i. -/
def firstOpnd (p : Nat → Opnd → Bool) : Nat → List Opnd → Option Nat
  | _, [] => none
  | i, o :: os => if p i o then some i else firstOpnd p (i + 1) os

/-- The holds of R242 for a recorded operation: BL.LRDY, and room in the core's staging buffer. DESIGN CHOICE (log 51): a
bundle that finds the buffer empty issues whatever its entries take together; else it could never issue. -/
def recHold (s : State) (r : RecOp) : Note :=
  if !recOn s then .quiet
  else
    let b := (s.ctx s.iss.n).baste
    let n := 64 * r.len b.fw
    let used := (s.core (coreOf s.iss.n)).staged
    holdIf (!b.lrdy || decide (s.iss.core.staged ≠ 0 ∧ 16384 < used + n)) 7

/-- The traps of R262 that a recorded operation raises at issue. -/
def recTrap (s : State) (r : RecOp) : Note :=
  if !recOn s then .quiet
  else
    let b := (s.ctx s.iss.n).baste
    match firstOpnd (fun _ o => !o.tagOk) 0 r.ops, firstOpnd (flagBad b) 0 r.ops with
    | some i, _ => .trap 5 0x15 (w64 i)
    | none, some i => .trap 5 0x16 (w64 i)
    | none, none => trapIf (decide (b.llim.toNat < logNext b + r.len b.fw)) 0x18 (w64 (logNext b + r.len b.fw))

/-- Header words of an entry (R246); the checksums of w4 and w5 are filled when it is written. -/
def recHeader (b : Baste) (r : RecOp) (fmt : Word) : List Word :=
  let fw := b.fw
  let fl := opndSum (fun i o => opndFlag fw i o * 4 ^ i) 0 r.ops
  let tag (i : Nat) : Nat := ((r.ops[i]?).map (·.tag.toNat)).getD 0
  let sk := if r.kind = 2 then 0 else opndSum (fun i o => if o.sk then 2 ^ (60 + i) else 0) 0 (r.ops.take 3)
  let ad (i : Nat) (w : Word) (lo : Nat) (sh : Nat) : Nat :=
    match r.ops[i]? with
    | some o => if opndFlag fw i o = 2 then (if r.kind = 2 then imgNat o.val else fld w lo 23) * 2 ^ sh else 0
    | none => 0
  [ w64 (r.kind + r.fu * 2 ^ 4 + r.port * 2 ^ 9 + (if r.kind = 2 then r.rout else fwRrow fw) * 2 ^ 15 + fl * 2 ^ 24
      + r.len fw * 2 ^ 32 + fwRgid fw * 2 ^ 44),
    fmt,
    w64 (tag 0 + tag 1 * 2 ^ 20 + tag 2 * 2 ^ 40 + sk),
    r.scw, 0, 0,
    w64 (ad 0 b.adAB 0 0 + ad 1 b.adAB 23 23),
    w64 (ad 2 b.adTY 0 0 + ad 3 b.adTY 23 23) ]

/-- The images of an entry as far as they are known at issue: key i for SAVE, 10 + i for REFER, 20 + i for
RECOMPUTE. `hs` is the entry's own header slot, which RECOMPUTE of y names. -/
def recImages (b : Baste) (hs : Nat) : Nat → List Opnd → List (Nat × Val)
  | _, [] => []
  | i, o :: os =>
    (match opndFlag b.fw i o with
     | 0 => [(i, o.val)]
     | 1 => [(20 + i, .s (w64 (if i = 3 then hs else
              (producerOf b (fld (o.tag.setWidth 64) 8 12)).getD 0)))]
     | 2 => [(10 + i, o.val)]
     | _ => []) ++ recImages b hs (i + 1) os

/-- What an entry waits for before it can be written (R242, R246): the result row where the entry keeps it, rows 1-7 of
whole tiles whose rows it keeps, the operands and the latch of a matrix step. An entry that keeps no result is complete
without its landing, as the run of R475 needs (log 33). -/
def RecOp.missing (r : RecOp) (fw : Word) : Nat :=
  let keeps (p : Nat → Opnd → Bool) : Bool :=
    (firstOpnd (fun i o => p i o && (opndFlag fw i o = 0 || opndFlag fw i o = 2)) 0 r.ops).isSome
  if r.kind = 2 then 2
  else if r.oneRow then (if keeps fun i _ => decide (i = 3) then 1 else 0)
  else if keeps fun _ o => !o.sk then 7 else 0

/-- Stage the entry of a recorded operation at its issue (R242, R243, R239); `id` ties its result's rows to it. -/
def recStage (s : State) (r : RecOp) (id : Nat) (fmt : Word) : State :=
  if !recOn s then s
  else
    let n := s.iss.n
    let b := (s.ctx n).baste
    let len := r.len b.fw
    let hs := logNext b + len - 1
    let st : Stage := { id := id, hdr := recHeader b r fmt,
                        imgs := (recImages b hs 0 r.ops).filter fun p => r.kind ≠ 2 || 20 ≤ p.1,
                        raws := r.raws, missing := r.missing b.fw, len := len, held := false }
    let s := s.updCtx n fun c => c.updBaste fun b =>
      { b with
        fw := nextFw b.fw r.oneRow
        prods := if fwRgid b.fw = 0 then b.prods
                 else (b.prods ++ [(BitVec.ofNat 12 (fwRgid b.fw), BitVec.ofNat 40 hs)]).drop (b.prods.length + 1 - 16)
        stages := b.stages ++ [st] }
    s.updCore (coreOf n) fun k => { k with staged := k.staged + 64 * len }

/-- The tag that the result takes: that of the flag word where the operation is recorded (R240). -/
def recTag (s : State) : OutTag := if recOn s then 1#1 ++ resultTag (s.ctx s.iss.n).baste.fw 0 else 0

/-- Change the staged entry of a number. -/
def updStage (c : Ctx) (id : Nat) (f : Stage → Stage) : Ctx :=
  c.updBaste fun b => { b with stages := listUpd (fun e => e.id = id) f b.stages }

/-- Set an image of a staged entry (also one kept for its checksum). -/
def stageImg (c : Ctx) (id i : Nat) (f : Val → Val) : Ctx :=
  updStage c id fun e => { e with imgs := e.imgs.map fun p => if p.1 = i ∨ p.1 = 10 + i then (p.1, f p.2) else p }

/-- Put row k into a tile image. -/
def imgRow (k : Nat) (r : Row) : Val → Val
  | .t v => .t (tileSet v k r)
  | v => v

/-- One thing that a staged entry waits for has come. -/
def stageLanded (c : Ctx) (id : Nat) : Ctx := updStage c id fun e => { e with missing := e.missing - 1 }

end Sys2Proof.Machine
end

