-- ==== Sys2Proof/Machine/TileAlu.lean ====
section
/-!
DEFINITION. The tile ALUs TA0 and TA1 (R128-R132): the one-row forms and the whole-tile forms.
-/

namespace Sys2Proof.Machine

/-! ## Lane functions (R128) -/

/-- What a lane function computes: FMT, element index, relation code c[2:0], and the lanes x of a, y of T, z of b. -/
abbrev LaneFn := Word → Nat → Nat → BitVec 32 → BitVec 32 → BitVec 32 → BitVec 32 × Flg

/-- A lane's float operand under DAZ (R85). -/
def fop (w : Word) (b : BitVec 32) : Num := fp32.operand (fmtDAZ w) b.toNat
/-- The bits of a lane's float operand under DAZ. -/
def fbits (w : Word) (b : BitVec 32) : BitVec 32 :=
  if fmtDAZ w && bits b.toNat 23 8 = 0 then b &&& 0x80000000#32 else b

/-- The relation of `fcmp` with its flags (R130). -/
def relF (c : Nat) (x y : Num) : Bool × Flg :=
  let un := x.isNan || y.isNan
  let sn := x.isSnan || y.isSnan
  let lt := ltNum false x y
  let gt := ltNum false y x
  let eq := !un && !lt && !gt
  match c with
  | 0 => (eq, flgIf sn flgNV)
  | 1 => (!eq, flgIf sn flgNV)
  | 2 => (lt, flgIf un flgNV)
  | 3 => (lt || eq, flgIf un flgNV)
  | 4 => (gt, flgIf un flgNV)
  | 5 => (gt || eq, flgIf un flgNV)
  | 6 => (un, flgIf sn flgNV)
  | _ => (!un, flgIf sn flgNV)

/-- The relation of `icmp` (R130). -/
def relI (c : Nat) (x y : BitVec 32) : Bool :=
  match c with
  | 0 => decide (x = y)
  | 1 => decide (x ≠ y)
  | 2 => x.slt y
  | 3 => x.sle y
  | 4 => y.slt x
  | 5 => y.sle x
  | 6 => x.ult y
  | _ => x.ule y

def b32 (b : Bool) : BitVec 32 := if b then 1 else 0

def laneFadd : LaneFn := fun w i _ x y _ => fAdd w (fmtRM w) i (fop w x) (fop w y)
def laneFsub : LaneFn := fun w i _ x y _ => fAdd w (fmtRM w) i (fop w x) (fop w y).flip
def laneFmul : LaneFn := fun w i _ x y _ => fMul w (fmtRM w) i (fop w x) (fop w y)
def laneFma : LaneFn := fun w i _ x y z => fFma w (fmtRM w) i (fop w x) (fop w z) (fop w y)
def laneFmax : LaneFn := fun w _ _ x y _ => fMax (fbits w x) (fbits w y) (fop w x) (fop w y)
def laneFmin : LaneFn := fun w _ _ x y _ => fMin (fbits w x) (fbits w y) (fop w x) (fop w y)
def laneFcmp : LaneFn := fun w _ c x y _ => let (b, f) := relF c (fop w x) (fop w y); (b32 b, f)
def laneIadd : LaneFn := fun _ _ _ x y _ => (x + y, 0)
def laneIsub : LaneFn := fun _ _ _ x y _ => (x - y, 0)
def laneImul : LaneFn := fun _ _ _ x y _ => (x * y, 0)
def laneImin : LaneFn := fun _ _ _ x y _ => (if y.slt x then y else x, 0)
def laneImax : LaneFn := fun _ _ _ x y _ => (if x.slt y then y else x, 0)
def laneAnd : LaneFn := fun _ _ _ x y _ => (x &&& y, 0)
def laneOr : LaneFn := fun _ _ _ x y _ => (x ||| y, 0)
def laneXor : LaneFn := fun _ _ _ x y _ => (x ^^^ y, 0)
def laneShl : LaneFn := fun _ _ _ x y _ => (x <<< (y.toNat % 32), 0)
def laneShr : LaneFn := fun _ _ _ x y _ => (x >>> (y.toNat % 32), 0)
def laneSra : LaneFn := fun _ _ _ x y _ => (x.sshiftRight (y.toNat % 32), 0)
def laneIcmp : LaneFn := fun _ _ c x y _ => (b32 (relI c x y), 0)
def laneSel : LaneFn := fun _ _ _ x y z => (if z ≠ 0 then x else y, 0)

/-- Apply a lane function to row k: idx = (FU << 24) + 64 k + lane (R126). -/
def laneRow (f : LaneFn) (w : Word) (fu k c : Nat) (a t b : Row) : Row × Flg :=
  rowFlg fun i => f w (fu * 2 ^ 24 + 64 * k + i) c (lane a i) (lane t i) (lane b i)

/-! ## One-row forms -/

/-- A row operand of a recorded operation from a port; a scalar port has only its tag to give (R246). -/
def portOpnd (s : State) (used : Bool) (fu port : Nat) : Opnd :=
  let c := s.iss.ctx
  let x := KMap.get none c.portSk (4 * fu + port)
  let v := match x with | some w => Val.s w | none => Val.r (c.portR fu port)
  { Opnd.none with
    used := used, val := v, slots := imgSlots v, tag := c.regs.tag (portTag fu port 0), sk := x.isSome }

/-- A row operand T of a recorded operation. -/
def rowOpnd (s : State) (used : Bool) (src : BitVec 9) : Opnd :=
  let v := readCode s src
  let img := if v.kind = .s then v else Val.r v.row
  { Opnd.none with
    used := used, val := img, slots := imgSlots img, tag := codeTag s src 0, sk := decide (v.kind = .s) }

/-- The result y of a recorded operation. -/
def resOpnd (used : Bool) (v : Val) : Opnd := { Opnd.none with used := used, val := v, slots := imgSlots v }

/-- A tile operation that lands one result: its value and flags, its recording and its flight. -/
def landTile (s : State) (fu lat : Nat) (v : Val) (flg : Flg) (r : RecOp) : State :=
  let (id, s) := fresh s
  let tag := recTag s
  let s := recStage s r id s.iss.ctx.inf.fmtEff
  s.updCtx s.iss.n fun c => c.fly lat fu id (.entry v) flg tag

/-- A one-row TA trigger (R67): `ua`, `ub`, `ut` say which operands the adjoint reads (R244). -/
def taRow (port : Nat) (f : LaneFn) (ua ub ut : Bool) (g : BitVec 4) (u : BitVec 1) (src : BitVec 9)
    (s : State) : Out :=
  let fu := 10 + u.toNat
  let c := s.iss.ctx
  let res : Row × Flg := laneRow f c.inf.fmtEff fu 0 (fld (c.portW fu 2) 0 3) (c.portR fu 0) (readCode s src).row
    (c.portR fu 1)
  let r : RecOp := { fu := fu, port := port, kind := 1, rout := 0, extra := 0, oneRow := true,
                     scw := c.portW fu 2,
                     ops := [portOpnd s ua fu 0, portOpnd s ub fu 1, rowOpnd s ut src, Opnd.none] }
  trigger fu port 1 8 false [recHold s r] [recTrap s r] g src (fun _ s => landTile s fu 4 (.r res.1) res.2 r) s

/-- TA_FADD (R128). -/
def execTaFadd (g : BitVec 4) (u : BitVec 1) (src : BitVec 9) (s : State) : Out :=
  taRow 4 laneFadd false false false g u src s

/-- TA_FSUB (R128). -/
def execTaFsub (g : BitVec 4) (u : BitVec 1) (src : BitVec 9) (s : State) : Out :=
  taRow 5 laneFsub false false false g u src s

/-- TA_FMUL (R128). -/
def execTaFmul (g : BitVec 4) (u : BitVec 1) (src : BitVec 9) (s : State) : Out :=
  taRow 6 laneFmul true false true g u src s

/-- TA_FMA (R128). -/
def execTaFma (g : BitVec 4) (u : BitVec 1) (src : BitVec 9) (s : State) : Out :=
  taRow 7 laneFma true true false g u src s

/-- TA_FMAX (R128). -/
def execTaFmax (g : BitVec 4) (u : BitVec 1) (src : BitVec 9) (s : State) : Out :=
  taRow 8 laneFmax true false true g u src s

/-- TA_FMIN (R128). -/
def execTaFmin (g : BitVec 4) (u : BitVec 1) (src : BitVec 9) (s : State) : Out :=
  taRow 9 laneFmin true false true g u src s

/-- TA_FCMP (R128). -/
def execTaFcmp (g : BitVec 4) (u : BitVec 1) (src : BitVec 9) (s : State) : Out :=
  taRow 10 laneFcmp false false false g u src s

/-- TA_IADD (R128). -/
def execTaIadd (g : BitVec 4) (u : BitVec 1) (src : BitVec 9) (s : State) : Out :=
  taRow 11 laneIadd false false false g u src s

/-- TA_ISUB (R128). -/
def execTaIsub (g : BitVec 4) (u : BitVec 1) (src : BitVec 9) (s : State) : Out :=
  taRow 12 laneIsub false false false g u src s

/-- TA_IMUL (R128). -/
def execTaImul (g : BitVec 4) (u : BitVec 1) (src : BitVec 9) (s : State) : Out :=
  taRow 13 laneImul false false false g u src s

/-- TA_IMIN (R128). -/
def execTaImin (g : BitVec 4) (u : BitVec 1) (src : BitVec 9) (s : State) : Out :=
  taRow 14 laneImin false false false g u src s

/-- TA_IMAX (R128). -/
def execTaImax (g : BitVec 4) (u : BitVec 1) (src : BitVec 9) (s : State) : Out :=
  taRow 15 laneImax false false false g u src s

/-- TA_AND (R128). -/
def execTaAnd (g : BitVec 4) (u : BitVec 1) (src : BitVec 9) (s : State) : Out :=
  taRow 16 laneAnd false false false g u src s

/-- TA_OR (R128). -/
def execTaOr (g : BitVec 4) (u : BitVec 1) (src : BitVec 9) (s : State) : Out :=
  taRow 17 laneOr false false false g u src s

/-- TA_XOR (R128). -/
def execTaXor (g : BitVec 4) (u : BitVec 1) (src : BitVec 9) (s : State) : Out :=
  taRow 18 laneXor false false false g u src s

/-- TA_SHL (R128). -/
def execTaShl (g : BitVec 4) (u : BitVec 1) (src : BitVec 9) (s : State) : Out :=
  taRow 19 laneShl false false false g u src s

/-- TA_SHR (R128). -/
def execTaShr (g : BitVec 4) (u : BitVec 1) (src : BitVec 9) (s : State) : Out :=
  taRow 20 laneShr false false false g u src s

/-- TA_SRA (R128). -/
def execTaSra (g : BitVec 4) (u : BitVec 1) (src : BitVec 9) (s : State) : Out :=
  taRow 21 laneSra false false false g u src s

/-- TA_ICMP (R128). -/
def execTaIcmp (g : BitVec 4) (u : BitVec 1) (src : BitVec 9) (s : State) : Out :=
  taRow 22 laneIcmp false false false g u src s

/-- TA_SEL (R128). -/
def execTaSel (g : BitVec 4) (u : BitVec 1) (src : BitVec 9) (s : State) : Out :=
  taRow 23 laneSel false true false g u src s

/-! ## Whole-tile forms (R123, R131) -/

/-- The lane function of a whole-tile port. -/
def tileFn (port : Nat) : LaneFn :=
  match port with
  | 24 => laneFadd
  | 25 => laneFsub
  | 26 => laneFmul
  | _ => laneFmax

/-- Row k of a whole-tile form: row k of d in place of a (R131). -/
def taTileRow (port : Nat) (w : Word) (fu k : Nat) (d t : Row) : Row × Flg := laneRow (tileFn port) w fu k 0 d t 0

/-- The tag of row k of a source as a sequencer will read it `o` clks from the issue clk, whose context is `c`: rows that
whole-tile moves in progress will have written by then have the tags of those moves (R240, R123). A move reads row k in
the clk in which it writes it; the fuel is that every such clk lies earlier. DESIGN CHOICE (log 51): one-row writes of
the same and of later bundles are not foreseen. -/
def futureTag (c : Ctx) : Nat → JobSrc → OutTag → Nat → Nat → Tag
  | 0, x, t0, k, _ => seqTag c x k t0
  | fuel + 1, x, t0, k, o =>
    match x with
    | .reg t =>
      match c.inf.jobs.reverse.find? fun j => decide (j.dst = .reg t ∧ j.k ≤ k ∧ k < o + j.k) with
      | some j => futureTag c fuel j.src j.tagSrc k (k - j.k)
      | none => seqTag c x k t0
    | x => seqTag c x k t0

/-- Tag of row k of port d in the clk in which a whole-tile trigger that now issues processes it, with the rows that a d
move still in progress will write (R240, R123). -/
def dTag (s : State) (fu k : Nat) : Tag :=
  let c := s.ctx s.iss.n
  match c.inf.jobs.reverse.find? fun j => decide (j.dst = .portD fu ∧ j.k ≤ k) with
  | some j => futureTag s.iss.ctx 8 j.src j.tagSrc k (k + 1 - j.k)
  | none => c.regs.tag (portTag fu 3 k)

/-- Are eight row tags consistent (R241): all 0, or (g, b + k) for one g? -/
def tagsOk (f : Nat → Tag) : Bool :=
  ((List.range 8).all fun k => f k = 0) ||
    (List.range 8).all fun k => f k = (f 0 &&& 0xFFF00) ||| ((f 0 + BitVec.ofNat 20 k) &&& 0x000FF)

/-- A tile operand of a recorded operation; its rows are captured as the sequencers read them. -/
def tileOpnd (used : Bool) (row0 : Row) (tags : Nat → Tag) (sk : Option Word) : Opnd :=
  let v := match sk with | some w => Val.s w | none => Val.t (tileSet 0 0 row0)
  { Opnd.none with
    used := used, val := v, slots := imgSlots v, tag := tags 0, tagOk := sk.isSome || tagsOk tags, sk := sk.isSome }

/-- The scalar that a source moves into a tile port, if it is one. -/
def scalarIn (s : State) (src : BitVec 9) : Option Word :=
  let v := readCode s src
  if v.kind = .s then some v.word else none

/-- Tags of the rows of a whole-tile trigger source as its sequencer will read them. -/
def trigTags (s : State) (src : BitVec 9) (k : Nat) : Tag :=
  futureTag s.iss.ctx 8 (jobSource s src) (jobTag s src) k k

/-- A whole-tile TA trigger: row 0 now, rows 1-7 by the sequencer, each landing 4 clks after it is processed. -/
def taTile (port : Nat) (used : Bool) (g : BitVec 4) (u : BitVec 1) (src : BitVec 9) (s : State) : Out :=
  let fu := 10 + u.toNat
  let w := s.iss.ctx.inf.fmtEff
  let d0 := tileRow ((s.ctx s.iss.n).portT fu 3) 0
  let t0 := seqRead s.iss.ctx (jobSource s src) 0
  let res := taTileRow port w fu 0 d0 t0
  let c := s.ctx s.iss.n
  let r : RecOp :=
    { fu := fu, port := port, kind := 1, rout := 0, extra := 0, oneRow := false, scw := s.iss.ctx.portW fu 2,
      ops := [tileOpnd used d0 (fun k => dTag s fu k) (KMap.get none c.portSk (4 * fu + 3)), portOpnd s false fu 1,
              tileOpnd used t0 (trigTags s src) (scalarIn s src), Opnd.none] }
  trigger fu port 8 64 false [recHold s r] [recTrap s r] g src (fun _ s =>
    let (id, s) := fresh s
    let tag := recTag s
    let st := if recOn s then id else 0
    let s := recStage s r id w
    s.updCtx s.iss.n fun c =>
      (c.fly 4 fu id (.entry (.t (tileSet 0 0 res.1))) res.2 tag).updInf fun i =>
        { i with jobs := i.jobs ++ [{ newJob s src (.ta fu port) w id with tag := tag, stage := st }] }) s

/-- TA_FADDT (R131). -/
def execTaFaddt (g : BitVec 4) (u : BitVec 1) (src : BitVec 9) (s : State) : Out := taTile 24 false g u src s

/-- TA_FSUBT (R131). -/
def execTaFsubt (g : BitVec 4) (u : BitVec 1) (src : BitVec 9) (s : State) : Out := taTile 25 false g u src s

/-- TA_FMULT (R131). -/
def execTaFmult (g : BitVec 4) (u : BitVec 1) (src : BitVec 9) (s : State) : Out := taTile 26 true g u src s

/-- TA_FMAXT (R131). -/
def execTaFmaxt (g : BitVec 4) (u : BitVec 1) (src : BitVec 9) (s : State) : Out := taTile 27 true g u src s

end Sys2Proof.Machine
end

