-- ==== Sys2Proof/Machine/Matrix.lean ====
section
/-!
DEFINITION. The matrix unit MX and the scale unit SC (R198-R218): the microprogram store with the standard library,
the arithmetic of a step, the triggers, and the clks of a step in flight.
-/

namespace Sys2Proof.Machine

/-! ## Directory and microwords (R205, R206) -/

abbrev MWord := BitVec 128

def mf (w : MWord) (lo n : Nat) : Nat := bits w.toNat lo n
def mwMop (w : MWord) : Nat := mf w 0 3
def mwLast (w : MWord) : Bool := w.getLsbD 3
def mwAreg (w : MWord) : Nat := mf w 4 3
def mwAoff (w : MWord) : Nat := mf w 7 18
def mwBreg (w : MWord) : Nat := mf w 25 3
def mwBoff (w : MWord) : Nat := mf w 28 18
def mwDr (w : MWord) : Nat := mf w 46 3
def mwDc (w : MWord) : Nat := mf w 49 3
def mwNpl (w : MWord) : Nat := mf w 52 5
def mwDig (w : MWord) : Nat := mf w 57 2
def mwD (w : MWord) : Nat := mf w 59 2
def mwAcc (w : MWord) : Bool := w.getLsbD 61
def mwDf (w : MWord) : Nat := mf w 62 4
def mwCoff (w : MWord) : Nat := mf w 66 18
def mdEntry (d : MWord) : Nat := mf d 0 12
def mdS (d : MWord) : Nat := mf d 12 7
def mdO (d : MWord) : Nat := mf d 19 6
def mdWt (d : MWord) : Nat := mf d 25 16
def mdAdj (d : MWord) : Nat := mf d 41 8
def mdValid (d : MWord) : Bool := d.getLsbD 49

/-- A microword from its fields. -/
def mkWord (mop : Nat) (last : Bool) (areg aoff breg boff dr dc npl dig d : Nat) (acc : Bool) (df coff : Nat) : MWord :=
  BitVec.ofNat 128 (mop + (if last then 8 else 0) + areg * 2 ^ 4 + aoff * 2 ^ 7 + breg * 2 ^ 25 + boff * 2 ^ 28 +
    dr * 2 ^ 46 + dc * 2 ^ 49 + npl * 2 ^ 52 + dig * 2 ^ 57 + d * 2 ^ 59 + (if acc then 2 ^ 61 else 0) + df * 2 ^ 62 +
    coff * 2 ^ 66)

/-! ## The standard library (R216) -/

/-- A library routine: words, S, O, WT, ADJ, MOP, columns, NPL, D. -/
structure LibRow where
  words : Nat
  s : Nat
  o : Nat
  wt : Nat
  adj : Nat
  mop : Nat
  npl : Nat
  d : Nat
  deriving DecidableEq, Repr

/-- The table of R216. -/
def library : List LibRow :=
  [⟨16, 16, 12, 16, 255, 1, 0, 0⟩, ⟨16, 64, 12, 2048, 10, 0, 4, 1⟩, ⟨8, 64, 12, 1792, 11, 0, 8, 1⟩,
   ⟨4, 48, 12, 1152, 12, 0, 12, 2⟩, ⟨2, 48, 12, 1152, 13, 0, 24, 3⟩, ⟨2, 48, 12, 1152, 255, 0, 24, 3⟩,
   ⟨2, 48, 12, 1152, 255, 0, 24, 3⟩, ⟨8, 64, 12, 1792, 14, 0, 8, 1⟩] ++
  [⟨16, 64, 12, 256, 255, 2, 0, 0⟩, ⟨16, 64, 12, 256, 255, 2, 0, 0⟩, ⟨16, 64, 12, 1024, 255, 4, 4, 1⟩,
   ⟨8, 32, 12, 512, 255, 4, 8, 1⟩, ⟨2, 8, 4, 128, 255, 4, 12, 2⟩, ⟨2, 8, 4, 128, 255, 4, 24, 3⟩,
   ⟨8, 32, 12, 512, 255, 4, 8, 1⟩, ⟨16, 64, 12, 256, 255, 3, 0, 0⟩]

/-- First word of library routine r: the routines stand one after another from word 256 (log 8). -/
def libEntry (r : Nat) : Nat := 256 + listSum ((library.take r).map (·.words))

/-- Directory entry of library routine r. -/
def libDir (r : Nat) (x : LibRow) : MWord :=
  BitVec.ofNat 128 (libEntry r + x.s * 2 ^ 12 + x.o * 2 ^ 19 + x.wt * 2 ^ 25 + x.adj * 2 ^ 41 + 2 ^ 49)

/-- Word w of library routine r (R216). -/
def libWordOf (r : Nat) (x : LibRow) (w : Nat) : MWord :=
  let wide := decide (8 ≤ x.words)
  let dr := if wide then w / 4 else 0
  let dc := if r = 3 then w / 2 else if wide then w % 4 else w
  let dig := match r with | 3 => w % 2 | 5 => 1 | 6 => 2 | _ => 0
  let last := decide (w + 1 = x.words)
  match x.mop with
  | 1 => mkWord 1 last 0 0 0 0 dr dc 0 0 0 false 0 0
  | 2 => let df := if r = 8 then 8 else 7
         mkWord 2 last 2 (128 * (4 * dr + dc) * codeBytes df / 4) 0 0 dr dc 0 0 0 false df 0
  | 3 => mkWord 3 last 2 (128 * (4 * dr + dc)) 0 0 dr dc 0 0 0 false 0 0
  | m =>
    let aoff := dr * ((32 + 128 * x.npl) / 32)
    let boff := if r = 7 ∨ r = 14 then dc else dc * ((32 + 1024 * x.d) / 32)
    mkWord m last 0 aoff 1 boff dr dc x.npl dig x.d (m = 0) 0 (if m = 4 then 128 * (4 * dr + dc) else 0)

/-- The routine of a library word address. -/
def libFind (i : Nat) : Nat → List LibRow → Option (Nat × LibRow × Nat)
  | _, [] => none
  | r, x :: l => if libEntry r ≤ i ∧ i < libEntry r + x.words then some (r, x, i - libEntry r) else libFind i (r + 1) l

/-- Microprogram word i as boot firmware leaves it (R203). -/
def libWord (i : Nat) : MWord :=
  if i < 16 then (match library[i]? with | some x => libDir i x | none => 0)
  else match libFind i 0 library with
    | some (r, x, w) => libWordOf r x w
    | none => 0

/-- Microprogram word i of a core: words not listed hold the library (log 8). -/
def Matrix.word (m : Matrix) (i : Nat) : MWord := (m.ustore.find? fun p => p.1 = i).elim (libWord i) (·.2)

/-- The words of a routine from address `a` up to LAST: those found, and whether LAST was met within `fuel` words. -/
def wordsFrom (m : Matrix) : Nat → Nat → List MWord × Bool
  | 0, _ => ([], false)
  | k + 1, a =>
    if 4096 ≤ a then ([], false)
    else
      let w := m.word a
      if mwLast w then ([w], true) else let (l, b) := wordsFrom m k (a + 1); (w :: l, b)

/-! ## Operand addresses (R200, R207) -/

def dXax (d : Word) : Bool := d.getLsbD 23
def dCbh (d : Word) : Nat := fld d 24 4
def dCbv (d : Word) : Bool := d.getLsbD 28

/-- An operand of a word: mp register, offset in units of its descriptor, bytes, patch bytes, whether it is read, and
0 for A, 1 for B, 2 for other data. -/
structure MOpnd where
  reg : Nat
  off : Nat
  lo : Nat
  len : Nat
  patch : Nat
  read : Bool
  role : Nat
  deriving DecidableEq, Repr

/-- What a word reads and writes (R207, R218). Of B a MAC word reads the scales and one digit. -/
def wordOpnds (w : MWord) : List MOpnd :=
  let a : MOpnd := ⟨mwAreg w, mwAoff w, 0, 32 + 128 * mwNpl w, 32 + 128 * mwNpl w, true, 0⟩
  let pb := 32 + 1024 * mwD w
  match mwMop w with
  | 0 => [a, ⟨mwBreg w, mwBoff w, 0, 32, pb, true, 1⟩, ⟨mwBreg w, mwBoff w, 32 + 1024 * mwDig w, 1024, pb, true, 1⟩]
  | 2 => [⟨mwAreg w, mwAoff w, 0, 1024 * codeBytes (mwDf w), 1024 * codeBytes (mwDf w), false, 2⟩]
  | 3 => [⟨mwAreg w, mwAoff w, 0, 4096, 4096, true, 2⟩]
  | 4 => [a, ⟨mwBreg w, mwBoff w, 0, pb, pb, true, 1⟩, ⟨5, mwCoff w, 0, 4096, 4096, true, 2⟩,
          ⟨6, mwCoff w, 0, 4096, 4096, false, 2⟩, ⟨7, mwCoff w, 0, 4096, 4096, false, 2⟩]
  | _ => []

def mpAt (mp : List Word) (r : Nat) : Word := (mp[r]?).getD 0

/-- Does an operand stand in a circular buffer? -/
def inCb (mp : List Word) (o : MOpnd) : Bool := dCbv (mpAt mp o.reg)

/-- The buffers that a step reads: handle, first slot (that of the cursor), highest slot offset (R208, R282). -/
def bufsOf (c : Ctx) (mp : List Word) (words : List MWord) : List (Nat × Nat × Nat) :=
  let hs := (words.flatMap wordOpnds).filter fun o => o.read && inCb mp o
  (List.range 16).filterMap fun h =>
    match (hs.filter fun o => dCbh (mpAt mp o.reg) = h).map (·.off) with
    | [] => none
    | l => some (h, (c.cb h).cc.toNat / (c.cb h).rps, listMax l)

/-- Arena offset of an operand's first byte. -/
def opndOff (c : Ctx) (mp : List Word) (bufs : List (Nat × Nat × Nat)) (o : MOpnd) : Nat :=
  let d := mpAt mp o.reg
  if dCbv d then
    let b := c.cb (dCbh d)
    let s0 := ((bufs.find? fun x => x.1 = dCbh d).map (·.2.1)).getD (b.cc.toNat / b.rps)
    b.rowOff (b.rps * (s0 + o.off)) + o.lo
  else fld d 0 23 + 32 * o.off + o.lo

/-! ## Arithmetic (R201, R207, R218) -/

/-- An integer as an exact value times 2^e. -/
def dyInt (p e : Int) : Num := dy (decide (p < 0)) p.natAbs e

/-- Saturation to 48 bits (R201). -/
def sat48 (v : Int) : Int × Flg :=
  if 2 ^ 47 - 1 < v then (2 ^ 47 - 1, flgSAT ||| flgOF)
  else if v < -(2 ^ 47) then (-(2 ^ 47), flgSAT ||| flgOF) else (v, 0)

/-- AInt(m, k) of an A patch (R198). -/
def aInt (npl a m k : Nat) : Int :=
  sint npl (packNat 1 (fun b => if a.testBit (256 + 1024 * (npl - 1 - b) + 32 * m + k) then 1 else 0) npl)
/-- Scale exponent of a patch's row or column (R198, R199). -/
def sexp (p i : Nat) : Int := (bits p (8 * i) 6 : Int) - 32
/-- Digit g of element (k, n) of a B patch (R199). -/
def bDig (b k n g : Nat) : Int :=
  let v := bits b (8 * (32 + 1024 * g + 32 * k + n)) 8
  if g = 0 then sint 8 v else (v : Int)
/-- The integer of element (k, n) of a B patch of D digits (R199). -/
def bInt (d b k n : Nat) : Int := (List.range d).foldl (fun v g => v * 256 + bDig b k n g) 0

/-- Sum of integers. -/
def isum (f : Nat → Int) (n : Nat) : Int := (List.range n).foldl (fun a i => a + f i) 0

/-- An accumulator of a patch. -/
def accAt (p : BitVec 49152) (i : Nat) : Int := sint 48 (bits p.toNat (48 * i) 48)

/-- A patch from its 1,024 accumulators. -/
def patchOf (l : List Int) : BitVec 49152 := BitVec.ofNat 49152 (l.foldr (fun v a => wrap 48 v + a <<< 48) 0)

/-- One MAC word over a patch (R201). -/
def macPatch (w : MWord) (x : Int) (a b : Nat) (p : BitVec 49152) : BitVec 49152 × Flg :=
  let l := (List.range 1024).map fun i =>
    let m := i / 32
    let n := i % 32
    let s := isum (fun k => aInt (mwNpl w) a m k * bDig b k n (mwDig w)) 32
    let e := sexp a m + sexp b n + 8 * ((mwD w : Int) - 1 - mwDig w)
    let (t, f) := align (dyInt s e) x 0
    let (v, g) := sat48 (if mwAcc w then accAt p i + t else t)
    (v, f ||| g)
  (patchOf (l.map (·.1)), flgAll (l.map (·.2)))

/-- DRAIN: the bytes of a patch in format DF (R207). -/
def drainPatch (fmt : Word) (df patch : Nat) (x : Int) (p : BitVec 49152) : Nat × Flg :=
  match fmtOf df with
  | none => (0, 0)
  | some f =>
    let l := (List.range 1024).map fun i =>
      roundFmt fmt f (fmtRM fmt) (14 * 2 ^ 24 + 1024 * patch + i) (alignedNum (accAt p i) x 0)
    (l.foldr (fun v a => v.1 + a <<< (8 * codeBytes df)) 0, flgAll (l.map (·.2)))

/-- LOAD: a patch from FP32 bytes (R207). -/
def loadPatch (x : Int) (data : Nat) : BitVec 49152 × Flg :=
  let l : List (Int × Flg) := (List.range 1024).map fun i =>
    match fp32.decode (bits data (32 * i) 32) with
    | .nan _ => (0, flgNV)
    | .inf neg => (if neg then -(2 ^ 47) else 2 ^ 47 - 1, flgSAT ||| flgOF)
    | v => let (t, f) := align v x 0; let (t, g) := sat48 t; (t, f ||| g)
  (patchOf (l.map (·.1)), flgAll (l.map (·.2)))

/-- An exact sum of terms; NaNs and infinities act as R95 gives, whatever their order. -/
def exactSum (l : List Num) : Num × Flg :=
  let clash := l.contains (.inf false) && l.contains (.inf true)
  let flg := flgIf (clash || l.any Num.isSnan) flgNV
  if clash || l.any Num.isNan then (.nan false, flg)
  else (l.foldl (fun a t => (addNum 0 a t).1) (dy false 0 0), flg)

/-- An exact sum of 32 terms, rounded once to FP32 with FMT 0 (R218, R83, R95). -/
def gradSum (f : Nat → Num × Flg) : Nat × Flg :=
  let ts := (List.range 32).map f
  let (s, g) := exactSum (ts.map (·.1))
  let (v, h) := roundFmt 0 fp32 0 0 s
  (v, g ||| h ||| flgAll (ts.map (·.2)))

/-- The contribution patches dA and dB of a GRAD word (R218). -/
def gradPatches (w : MWord) (a b dc : Nat) : (Nat × Nat) × Flg :=
  let c (m n : Nat) : Num := fp32.decode (bits dc (32 * (32 * m + n)) 32)
  let av (m k : Nat) : Num := dyInt (aInt (mwNpl w) a m k) (sexp a m)
  let bv (k n : Nat) : Num := dyInt (bInt (mwD w) b k n) (sexp b n)
  let da := (List.range 1024).map fun i => gradSum fun n => mulNum (c (i / 32) n) (bv (i % 32) n)
  let db := (List.range 1024).map fun i => gradSum fun m => mulNum (av m (i / 32)) (c m (i % 32))
  let cat (l : List (Nat × Flg)) : Nat := l.foldr (fun v acc => v.1 + acc <<< 32) 0
  ((cat da, cat db), flgAll (da.map (·.2)) ||| flgAll (db.map (·.2)))

/-! ## A step's words (R207) -/

/-- The working copy and what the step has written: arena offset, bytes and data of each store in order. -/
structure Work where
  acc : KMap (BitVec 49152)
  wb : Word
  outs : List (MOpnd × Nat)
  flg : Flg
  deriving DecidableEq, Repr

/-- The target patch of a word (R206). -/
def wordPatch (origin : BitVec 6) (w : MWord) : Nat :=
  8 * ((origin.toNat / 8 + mwDr w) % 8) + (origin.toNat % 8 + mwDc w) % 8

/-- WB with bit i set or cleared. -/
def setWb (wb : Word) (i : Nat) (b : Bool) : Word :=
  if b then wb ||| w64 (2 ^ i) else wb &&& ~~~(w64 (2 ^ i))

/-- One word of a step. -/
def runWord (fmt : Word) (x : Int) (origin : BitVec 6) (k : Work) (w : MWord) (d : Nat × Nat × Nat) : Work :=
  let i := wordPatch origin w
  let p := KMap.get 0 k.acc i
  match mwMop w with
  | 0 =>
    let (q, f) := macPatch w x d.1 d.2.1 p
    { k with acc := KMap.set 0 k.acc i q, wb := setWb k.wb i true, flg := k.flg ||| f }
  | 1 => { k with acc := KMap.set 0 k.acc i 0, wb := setWb k.wb i false }
  | 2 =>
    let (v, f) := drainPatch fmt (mwDf w) i x p
    { k with outs := k.outs ++ (wordOpnds w).map fun o => (o, v), flg := k.flg ||| f }
  | 3 =>
    let (q, f) := loadPatch x d.2.2
    { k with acc := KMap.set 0 k.acc i q, wb := setWb k.wb i true, flg := k.flg ||| f }
  | 4 =>
    let ((va, vb), f) := gradPatches w d.1 d.2.1 d.2.2
    let os := (wordOpnds w).filter fun o => !o.read
    { k with outs := k.outs ++ os.zip [va, vb], flg := k.flg ||| f }
  | _ => k

/-- All words of a step in order. -/
def runWords (fmt : Word) (x : Int) (origin : BitVec 6) : List (MWord × (Nat × Nat × Nat)) → Work → Work
  | [], k => k
  | (w, d) :: l, k => runWords fmt x origin l (runWord fmt x origin k w d)

/-- The operand bytes of a word as read from the arena: A, B and other data. -/
def wordData (rd : Nat → Nat → Nat) (c : Ctx) (mp : List Word) (bufs : List (Nat × Nat × Nat)) (w : MWord) :
    Nat × Nat × Nat :=
  let get (role : Nat) : Nat :=
    match (wordOpnds w).find? fun o => o.read && o.role = role with
    | some o => rd (opndOff c mp bufs { o with lo := 0 }) o.patch
    | none => 0
  (get 0, get 1, get 2)

/-! ## Checks of a call (R208) -/

/-- The first refused field of a routine's words: the trap code and value. DESIGN CHOICE (log 51): NPL, D and DIG are
checked in the words that have the operands A and B, MAC and GRAD. -/
def wordCheck : Nat → List MWord → Option Flt
  | _, [] => none
  | a, w :: l =>
    let mop := mwMop w
    let mac := mop = 0 || mop = 4
    if 5 ≤ mop || (mac && (mwNpl w = 0 || 24 < mwNpl w || mwD w = 0 || mwD w ≤ mwDig w)) then some (0x1B, w64 a)
    else wordCheck (a + 1) l

/-- Clks of a word (R206). -/
def wordClks (w : MWord) : Nat := match mwMop w with | 0 => mwNpl w | 1 => 1 | _ => 4

/-- The microprogram faults of R208. DESIGN CHOICE (log 51): an S of 0 or above 64, which R205 excludes and R208 does not
name, is one of them, with the routine as its value; of several causes a refused field of a word comes first, then a missing
LAST or an address above 4,095, then the directory entry's. -/
def routineCheck (m : Matrix) (t : Nat) : Option Flt :=
  let d := m.word t
  let (ws, ok) := wordsFrom m 64 (mdEntry d)
  if !mdValid d || mdEntry d < 256 then some (0x1B, w64 t)
  else match wordCheck (mdEntry d) ws with
    | some f => some f
    | none =>
      if !ok then some (0x1B, w64 (mdEntry d + ws.length))
      else if mdS d = 0 || 64 < mdS d || mdS d < listSum (ws.map wordClks) || mdS d ≤ mdO d ||
          (mdS d < 4 && ws.any fun w => mwMop w = 0) then some (0x1B, w64 t)
      else none

/-- Formats that DRAIN takes (R206). -/
def drainFmt (df : Nat) : Bool := df = 6 || df = 7 || df = 8

/-- The first of a list of options. -/
def firstFlt : List (Option Flt) → Option Flt
  | [] => none
  | some f :: _ => some f
  | none :: l => firstFlt l

/-- The checks of R208 after the microprogram faults, in the order of its table. -/
def callCheck (c : Ctx) (mp : List Word) (ws : List MWord) : Option Flt :=
  let os := ws.flatMap wordOpnds
  let bufs := bufsOf c mp ws
  let df := ws.find? fun w => mwMop w = 2 && !drainFmt (mwDf w)
  let xax := os.find? fun o => dXax (mpAt mp o.reg)
  let hnd := os.find? fun o => inCb mp o &&
    (!(c.cb (dCbh (mpAt mp o.reg))).cfg || decide (256 * (c.cb (dCbh (mpAt mp o.reg))).rps < o.patch))
  let mis := os.find? fun o => !inCb mp o && fld (mpAt mp o.reg) 0 5 ≠ 0
  let out := os.filterMap fun o =>
    let a := opndOff c mp bufs o
    if arenaBytes c < a + o.len then some (max a (arenaBytes c)) else none
  firstFlt [df.map fun w => (0x05, w64 (mwDf w)), xax.map fun o => (0x19, w64 o.reg),
    hnd.map fun o => (0x0D, w64 (dCbh (mpAt mp o.reg))), mis.map fun o => (0x21, mpAt mp o.reg),
    (match out with | [] => none | l => some (0x20, w64 (listMin (2 ^ 64) l)))]

/-- LTHR of a die (R445). -/
def lthrOf (s : State) (d : Nat) : BitVec 16 := KMap.get Config.lbud s.mgmt.lthr d

/-! ## The triggers -/

/-- The unit-busy conditions of R418 and R259: a step of the context in its trap frame, an unpick outstanding. -/
def matrixBusy (s : State) : Note :=
  let held := match s.iss.core.matrix.step with | some m => decide (m.n = s.iss.n) && m.held | none => false
  if held || ((s.iss.ctx.queue 23).any fun q => q.port = 7) then .trap 3 0x03 (unstated s) else .quiet

/-- The matrix-owner check (R204). -/
def ownerNote (s : State) : Note := trapIf (!ownsMatrix s) 0x0F 0

/-- Change the core's matrix state. -/
def onMatrix (f : Matrix → Matrix) (s : State) : State :=
  s.updCore (coreOf s.iss.n) fun k => { k with matrix := f k.matrix }

/-- mp0-mp7 of a matrix unit. -/
def mpList (m : Matrix) : List Word := (List.range 8).map fun i => KMap.get 0 m.mp i

/-- Cut a range into pieces of bank rows, each row once. -/
def rowSegs (s : State) (n : Nat) (rs : List (Nat × Nat)) : List Seg :=
  let base := arenaPA (s.ctx n) (quadOf n) 0
  let rows := rs.flatMap fun r => (List.range ((r.1 % 256 + r.2 + 255) / 256)).map fun i => r.1 / 256 + i
  rows.eraseDups.map fun r => ⟨base + 256 * r, 256, 0⟩

/-- The arena ranges of the operands that a list selects. -/
def rangesOf (c : Ctx) (mp : List Word) (bufs : List (Nat × Nat × Nat)) (os : List MOpnd) : List (Nat × Nat) :=
  os.map fun o => (opndOff c mp bufs o, o.len)

/-- A recorded operand A (0) or B (1) of a call: the ranges of its image, and its Opnd (R244-R247). DESIGN CHOICE (log 51):
of a B whose words read both buffers and other bytes, the image holds the slots and then the other bytes' range. -/
def stepOpnd (c : Ctx) (m : Matrix) (mp : List Word) (ws : List MWord) (adj role : Nat) : List (Nat × Nat) × Opnd :=
  let (aw, _) := wordsFrom m 64 (mdEntry (m.word adj))
  let all := ws ++ (if adj = 0xFF then [] else aw)
  let os := (all.flatMap wordOpnds).filter fun o => o.read && o.role = role
  let tag := match ws.find? fun w => mwMop w = 0 with
    | some w => c.regs.tag (2000 + if role = 0 then mwAreg w else mwBreg w)
    | none => 0
  let cb := role = 1 && os.any (inCb mp)
  let rs := rangesOf c mp (bufsOf c mp all) (os.filter fun o => !(cb && inCb mp o))
  let lo := listMin (2 ^ 23) (rs.map (·.1))
  let hi := listMax (rs.map fun r => r.1 + r.2)
  let slots := (List.range 16).flatMap fun h =>
    let b := c.cb h
    let mine := os.filter fun o => inCb mp o && dCbh (mpAt mp o.reg) = h
    (mine.foldl (fun l o => KMap.put l o.off ()) []).map fun p => (b.rowOff (b.rps * (b.cc.toNat / b.rps + p.1)), 256 * b.rps)
  let ranges := (if cb then slots else []) ++ if rs = [] then [] else [(lo, hi - lo)]
  let len := listSum (ranges.map (·.2))
  (ranges, { Opnd.none with
    used := adj ≠ 0xFF && os ≠ [], val := .s (w64 lo), slots := (len + 63) / 64, tag := tag, noRefer := cb, range := len })

/-- MX_CALL (R208, R209). -/
def execMxCall (g : BitVec 4) (src : BitVec 9) (s : State) : Out :=
  let n := s.iss.n
  let c := s.iss.ctx
  let m := s.iss.core.matrix
  let mp := mpList m
  let t := fld (tWord s src) 0 8
  let dir := m.word t
  let ws := if !mdValid dir || mdEntry dir < 256 then [] else (wordsFrom m 64 (mdEntry dir)).1
  let bufs := bufsOf c mp ws
  let S := mdS dir
  let fmt := c.inf.fmtEff
  let ra := stepOpnd c m mp ws (mdAdj dir) 0
  let rb := stepOpnd c m mp ws (mdAdj dir) 1
  let scw := w64 (fwRrow (s.ctx n).baste.fw * 2 ^ 22)
  let r : RecOp :=
    { fu := 14, port := 4, kind := 2, rout := t, extra := 1, oneRow := false, scw := scw,
      ops := [ra.2, rb.2, Opnd.none, Opnd.none] }
  let raws := ((if opndFlag (s.ctx n).baste.fw 0 ra.2 = 0 then [RawImg.mk 0 ra.1 0] else []) ++
      (if opndFlag (s.ctx n).baste.fw 0 ra.2 = 2 then [RawImg.mk 10 ra.1 0] else []) ++
      (if opndFlag (s.ctx n).baste.fw 1 rb.2 = 0 then [RawImg.mk 1 rb.1 0] else []) ++
      (if opndFlag (s.ctx n).baste.fw 1 rb.2 = 2 then [RawImg.mk 11 rb.1 0] else [])) ++
    [⟨30, [], packNat 64 (fun i => (mpAt mp i).toNat) 8⟩]
  let needs (b : Nat × Nat × Nat) : Bool := (c.cb b.1).cfg && decide ((c.cb b.1).avail < (b.2.2 : Int) + 1)
  trigger 14 4 S (mdWt dir) (bufs ≠ [])
    [matrixBusy s, blockIf (bufs.any needs), recHold s { r with raws := raws }]
    [ownerNote s, trapFlt (routineCheck m t), trapFlt (callCheck c mp ws),
      trapIf (decide (lthrOf s (dieOf n) < BitVec.ofNat 16 (mdWt dir) ∧ m.grant < BitVec.ofNat 16 (mdWt dir))) 0x10
        (w64 (mdWt dir)),
      recTrap s r] g src
    (fun _ s =>
      let (id, s) := fresh s
      let os := ws.flatMap wordOpnds
      let reads := rangesOf c mp bufs (os.filter (·.read))
      let writes := rangesOf c mp bufs (os.filter fun o => !o.read)
      let st := if recOn s then id else 0
      let s := recStage s { r with raws := raws } id fmt
      let wr := ws.any fun w => mwMop w = 2 || mwMop w = 4
      let s := onCtx (fun c => countAcc (addAccs
        ((if reads = [] then [] else [oneAcc id 3 0 (rowSegs s n reads) 0 .mat false false]) ++
          (if wr then [oneAcc id (S - 1) 0 (rowSegs s n writes) 0 .mat false false] else []) ++
          (if S < 4 then [oneAcc id 3 0 [] 0 .mat true false] else [])) c) true wr) s
      let st0 : MStep :=
        { n := n, id := id, age := 0, routine := t, dir := dir, words := ws, mp := mp, fmt := fmt, ops := [],
          readDone := false, latchX := m.pslX, latchP := m.pslP, bufs := bufs, reads := reads, held := false,
          dead := false, early := false, stage := st, got := [] }
      onMatrix (fun m => { m with step := some st0 }) s) s

/-- MX_MLD (R210). -/
def execMxMld (g : BitVec 4) (src : BitVec 9) (s : State) : Out :=
  trigger 14 5 1 2 false [matrixBusy s] [] g src (fun v s =>
    let i := fld (s.iss.ctx.portW 14 0) 0 12
    onMatrix (fun m => { m with ustore := KMap.put m.ustore i (storeWord i (v.word ++ s.iss.ctx.portW 14 1)) }) s) s

/-- MX_PARM (R210, R240). -/
def execMxParm (g : BitVec 4) (src : BitVec 9) (s : State) : Out :=
  trigger 14 6 1 1 false [matrixBusy s] [ownerNote s] g src (fun v s =>
    let i := fld v.word 0 3
    onCtx (fun c => { c with regs := c.regs.setTag (2000 + i) (s.iss.ctx.regs.tag (portTag 14 0 0)) })
      (onMatrix (fun m => { m with mp := KMap.set 0 m.mp i (s.iss.ctx.portW 14 0) }) s)) s

/-- SC_XLD (R211). -/
def execScXld (g : BitVec 4) (src : BitVec 9) (s : State) : Out :=
  trigger 15 4 1 1 false [matrixBusy s] [ownerNote s] g src
    (fun v s => onMatrix (fun m => { m with xs := v.word.setWidth 16 }) s) s

/-- SC_XADD (R211). -/
def execScXadd (g : BitVec 4) (src : BitVec 9) (s : State) : Out :=
  trigger 15 5 1 2 false [matrixBusy s] [ownerNote s] g src
    (fun v s => onMatrix (fun m => { m with pslX := s.iss.core.matrix.xs, pslP := v.word.setWidth 6 }) s) s

/-! ## The clks of a step (R209) -/

/-- An unfrozen clk of the step in flight. -/
def tickStep (k : Core) : Core :=
  { k with matrix := { k.matrix with
    step := k.matrix.step.map fun m => if m.held then m else { m with age := m.age + 1 } } }

/-- Read arena bytes for a step, erroneous words as 0 where its data error is ignored (R212). Bank rows that were granted in
earlier clks hold what they held then (R186). -/
def stepRd (s : State) (n : Nat) (dead : Bool) (got : KMap Nat) (off len : Nat) : Nat :=
  let pa := arenaPA (s.ctx n) (quadOf n) off
  let now := if dead then s.rdDead pa len else s.rd pa len
  if got = [] then now
  else packNat 8 (fun i => match got.find? fun p => p.1 = (pa + i) / 256 with
    | some p => bits p.2 (8 * ((pa + i) % 256)) 8
    | none => bits now (8 * i) 8) len

/-- The bank rows that an access of context n's step was granted while its core was still frozen are read (R186, R209). -/
def gotRows (s : State) (n : Nat) (gs : List Seg) : State :=
  s.updCore (coreOf n) fun k => { k with matrix := { k.matrix with step := k.matrix.step.map fun m =>
    if m.n = n && !m.readDone then { m with got := gs.foldl (fun t g =>
      KMap.put t (g.pa / 256) (if m.dead then s.rdDead g.pa g.len else s.rd g.pa g.len)) m.got } else m } }

/-- The step's operand bytes, and the images of its log entry; its first read is what the entry waits for. -/
def readStep (s : State) (m : MStep) : State × MStep :=
  let rd := stepRd s m.n m.dead m.got
  let ops := m.words.map (wordData rd (s.ctx m.n) m.mp m.bufs)
  let fill (x : RawImg) : RawImg :=
    if x.key = 30 then x
    else
      let p := x.ranges.foldl (fun (a, k) r => (a + rd r.1 r.2 <<< (8 * k), k + r.2)) (0, 0)
      { x with data := p.1 }
  let s := if m.stage = 0 then s else s.updCtx m.n fun c =>
    let c := updStage c m.stage fun e => { e with raws := e.raws.map fill }
    if m.readDone || m.early then c else stageLanded c m.stage
  (s, { m with ops := ops })

/-- The step of core c reads its operands before the first resumed clk (R212, R213). -/
def rereadStep (s : State) (c : Nat) : State :=
  match (s.core c).matrix.step with
  | some m =>
    let (s, m) := readStep s m
    s.updCore c fun k => { k with matrix := { k.matrix with step := some { m with early := true } } }
  | none => s

/-! ## The images of a large entry (R242) -/

/-- Does the step of core c read its operands in this unfrozen clk for an entry above 16 KiB? The length of its header
says so. -/
def spillDue (s : State) (c : Nat) : Bool :=
  match (s.core c).matrix.step with
  | some m => m.age = 2 && !m.held && !m.early && !m.readDone && m.stage ≠ 0 &&
      (s.ctx m.n).baste.stages.any fun e => e.id = m.stage && decide (256 < e.len)
  | none => false

/-- The step reads its operands, and its core is frozen while the log writer reads what the staging buffer cannot hold
(R242): for as many clks as the entry has slots at most (DESIGN CHOICE, log 51). -/
def startSpill (s : State) (c : Nat) : State :=
  match (s.core c).matrix.step with
  | some m =>
    let len := listMax (((s.ctx m.n).baste.stages.filter fun e => e.id = m.stage).map (·.len))
    let s := rereadStep { s with free := s.free + 1 } c
    s.updCore c fun k => { k with spill := 1 + (Config.freeWord (s.free - 1)).toNat % len }
  | none => s

/-- The images of an entry when the last of them is staged: what lies in the entry's first 16 KiB as the step read it, the
rest as it stands now. `at` is the place of the images not yet passed. -/
def spillRaws (rd : Nat → Nat → Nat) : Nat → List RawImg → List RawImg
  | _, [] => []
  | p, x :: l =>
    if 10 ≤ x.key then x :: spillRaws rd p l
    else
      let n := listSum (x.ranges.map (·.2))
      let now := (x.ranges.foldl (fun (a, k) r => (a + rd r.1 r.2 <<< (8 * k), k + r.2)) (0, 0)).1
      let keep := 8 * (16384 - p)
      { x with data := bits x.data 0 keep + (now >>> keep) <<< keep } :: spillRaws rd (p + 64 * ceilDiv n 64) l

/-- The last image is staged: the core goes on. -/
def endSpill (s : State) (c : Nat) : State :=
  let s := s.updCore c fun k => { k with spill := 0 }
  match (s.core c).matrix.step with
  | some m => s.updCtx m.n fun x => updStage x m.stage fun e => { e with raws := spillRaws (stepRd s m.n m.dead []) 64 e.raws }
  | none => s

/-- STEP_OPERAND_READ (R209): at clk c + 3; OLD falls even where the operands have been read before. -/
def execStepOperandRead (c : Nat) (s : State) : Out :=
  match (s.core c).matrix.step with
  | none => .next s
  | some m =>
    if m.readDone then .next s
    else
      let (s, m) := if m.early then (s, m) else readStep s m
      let s := s.updCtx m.n fun x => x.updCtl fun l => { l with old := l.old - 1 }
      .next (s.updCore c fun k => { k with matrix := { k.matrix with step := some { m with readDone := true, got := [] } } })

/-- The log entry takes the latch of its step (R246). -/
def stageLatch (c : Ctx) (m : MStep) : Ctx :=
  if m.stage = 0 then c
  else stageLanded (updStage c m.stage fun e => { e with
    hdr := e.hdr.set 3 ((e.hdr[3]?).getD 0 ||| m.latchX.setWidth 64 ||| (m.latchP.setWidth 64 <<< 16)) }) m.stage

/-- LATCH_SAMPLE (R209, R211): at the end of clk c + O. -/
def execLatchSample (c : Nat) (s : State) : Out :=
  let mx := (s.core c).matrix
  match mx.step with
  | none => .next s
  | some m =>
    let m := { m with latchX := mx.pslX, latchP := mx.pslP }
    let s := s.updCore c fun k => { k with matrix := { k.matrix with step := some m } }
    .next (if m.stage = 0 then s else s.updCtx m.n fun x => stageLatch x m)

/-- STEP_COMMIT (R209): at the end of clk c + S - 1. OLD of a step with S below 4 falls with an access of its own that claims
no bank. -/
def execStepCommit (c : Nat) (s : State) : Out :=
  match (s.core c).matrix.step with
  | none => .next s
  | some m0 =>
    let n := m0.n
    let (s, m) := if m0.readDone then (s, m0) else readStep s m0
    let mx := (s.core c).matrix
    let k := runWords m.fmt m.latchX.toInt m.latchP (m.words.zip m.ops) ⟨mx.acc, mx.wb, [], 0⟩
    let x := s.ctx n
    let s := k.outs.foldl (fun s o => s.wr (arenaPA x (quadOf n) (opndOff x m.mp m.bufs o.1)) o.2 o.1.len) s
    let wr := m.words.any fun w => mwMop w = 2 || mwMop w = 4
    let s := s.updCtx n fun x =>
      let x := m.bufs.foldl (fun x b => x.setCb b.1 ((x.cb b.1).releaseTo (b.2.1 + b.2.2 + 1))) x
      x.updCtl fun l => { l with flags := l.flags ||| k.flg, ost := if wr then l.ost - 1 else l.ost }
    .next (s.updCore c fun q =>
      ({ q with matrix := { q.matrix with acc := k.acc, wb := k.wb, step := none } } : Core).count 0x0D 1)

/-- The step's events at the start of an unfrozen clk. -/
def stepStart (k : Core) (c : Nat) : List Instr :=
  match k.matrix.step with
  | some m => if m.age = 3 ∧ !m.held ∧ !m.readDone then [.stepOperandRead c] else []
  | none => []

/-- The step's events at the end of a clk. -/
def stepEnd (k : Core) (c : Nat) : List Instr :=
  match k.matrix.step with
  | some m =>
    if m.held then []
    else (if m.age = mdO m.dir then [.latchSample c] else []) ++
      (if mdS m.dir ≤ m.age + 1 then [.stepCommit c] else [])
  | none => []

/-! ## What a local load issued now reads (R146, R154, R269) -/

/-- The step of core c in the clk that is `e` unfrozen clks ahead: its sample and its commit. -/
def soonStep (s : State) (c e : Nat) : State :=
  let run (s : State) (o : State → Out) : State := match o s with | .next t => t | _ => s
  match (s.core c).matrix.step with
  | some m =>
    if m.held then s
    else
      let s := if m.age + e = mdO m.dir then run s (execLatchSample c) else s
      if mdS m.dir ≤ m.age + e + 1 then run s (execStepCommit c) else s
  | none => s

/-- The local accesses and steps of context n's quad that are performed in the clk after d clks, over a trial state. The
cores after its own have this clk still before them. -/
def soonClk (s0 : State) (n d : Nat) (s : State) : State :=
  (List.range 4).foldl (fun s i =>
    let c := 4 * quadOf n + i
    let e := if coreOf n < c then d + 1 else d
    let l := (List.range 4).flatMap fun j => (s0.ctx (4 * c + j)).accs
    soonStep (l.foldl (fun s a => if a.rem = e then (performSegs s a).1 else s) s) c e) s

/-- A trial state whose memory is what a local load that context n issues in this clk reads: at the start of the third
unfrozen clk from now (R154). -/
def soon (s : State) (n : Nat) : State := (List.range 3).foldl (fun t d => soonClk s n d t) s

/-- Enter the access that reads ranges of the issuing context's arena with a local load's timing, and claims their
banks. -/
def readsNow (s : State) (rs : List (Nat × Nat)) : State :=
  let (id, s) := fresh s
  onCtx (addAccs [oneAcc id 3 0 (rowSegs s s.iss.n rs) 0 .mat false false]) s

end Sys2Proof.Machine
end

