-- ==== Sys2Proof/Machine/Links.lean ====
section
/-!
DEFINITION. Packets (R288-R290), the local inputs into which agents put them (R292), the links (R298, R299) and the base-die
fabric (R486).
-/

namespace Sys2Proof.Machine

/-! ## Packets (R288-R290) -/

/-- Bytes of a packet's payload. -/
def Packet.byte (p : Packet) (off n : Nat) : Nat := bits p.pay.toNat (8 * off) (8 * n)

/-- A header with a reserved code or an impossible length (R289). -/
def Packet.malformed (p : Packet) : Bool :=
  decide (3 < p.pk.toNat ∨ 3 < p.tk.toNat ∨ p.xd = 3 ∨ p.yd = 3 ∨ 16 < p.npay.toNat ∨ 64 * p.npay.toNat < p.nb.toNat)

/-- The header flit as eight words (R288). -/
def Packet.header (p : Packet) : List Word :=
  [ w64 (p.flow.toNat + p.pk.toNat * 2 ^ 20 + p.snode.toNat * 2 ^ 24 + p.sdie.toNat * 2 ^ 30 + p.smod.toNat * 2 ^ 32
      + p.tnode.toNat * 2 ^ 42 + p.tdie.toNat * 2 ^ 48 + p.tmod.toNat * 2 ^ 50 + p.tk.toNat * 2 ^ 60),
    w64 (p.seqn.toNat + p.chunk.toNat * 2 ^ 32),
    w64 (p.npay.toNat + p.xd.toNat * 2 ^ 5 + p.yd.toNat * 2 ^ 7 + p.flg.toNat * 2 ^ 9 + (if p.last then 2 ^ 15 else 0)
      + p.nb.toNat * 2 ^ 16 + p.fmtc.toNat * 2 ^ 27),
    wordAt p.ext 0, wordAt p.ext 1, wordAt p.ext 2, wordAt p.ext 3, wordAt p.ext 4 ]

def Packet.none : Packet :=
  ⟨0, 0, 0, 0, 0, 0, 0, 0, 0, 0, 0, 0, 0, 0, 0, false, 0, 0, [], 0, 0, false⟩

/-! ## Sending -/

/-- Put a packet into the local input of a router (R292). -/
def injectAt (s : State) (h client : Nat) (p : Packet) : State :=
  s.updRouter h fun r => { r with inject := r.inject ++ [(client, p, 0, Option.none)] }

/-! ## Links (R290, R298, R299) -/

/-- The link that a direction belongs to. -/
def linkBase (l : Nat) : Nat := if 64 ≤ l then l - 64 else l

def linkDown (s : State) (l : Nat) : Bool := decide (3 ≤ (s.link (linkBase l)).fails)

/-- On-die flits in a link flit (R290). -/
def flitsPer (l : Nat) : Nat := if 32 ≤ l ∧ l < 48 then 4 else 2

/-- Link flits of a packet on a link (R290). -/
def linkFlits (l : Nat) (p : Packet) : Nat := ceilDiv (p.npay.toNat + 1) (flitsPer l)

/-- Link flits of a packet on the seam. -/
def seamFlits (p : Packet) : Nat := linkFlits 0 p

/-- On-die flit i of a packet: its header, or 64 bytes of its payload (R288). -/
def flitBytes (p : Packet) (i : Nat) : Nat :=
  if i = 0 then packNat 64 (fun k => (wordAt p.header k).toNat) 8 else p.byte (64 * (i - 1)) 64

/-- Link flit j of a packet: on-die flits in their places, the unused places 0 (R290). -/
def linkBytes (l : Nat) (p : Packet) (j : Nat) : Nat :=
  packNat 512 (fun t => let i := flitsPer l * j + t; if i ≤ p.npay.toNat then flitBytes p i else 0) (flitsPer l)

/-- Link flits that a retry buffer holds (R298, R452). -/
def retryRoom (l : Nat) : Nat := if 32 ≤ l ∧ l ≤ 48 then 128 else 64

/-- Has a sender's buffer room for a packet (R299)? -/
def linkRoom (s : State) (l : Nat) (p : Packet) : Bool := decide ((s.link l).held + linkFlits l p ≤ retryRoom l)

/-- A packet's buffers at a link's sender are taken, until all its link flits are acknowledged (R299). -/
def linkHold (s : State) (l : Nat) (p : Packet) : State := s.updLink l fun k => { k with held := k.held + linkFlits l p }

/-- Put the link flits of a packet whose buffers are held into the retry buffer; the first moves in the next clk (R298).
`k` says what becomes of the packet beyond the link. -/
def sendLink (s : State) (l k : Nat) (p : Packet) : State :=
  let (id, s) := fresh s
  let n := linkFlits l p
  let b := s.link l
  let new := (List.range n).map fun i => (⟨b.sendSeq + BitVec.ofNat 16 i, id, decide (i + 1 = n), linkBytes l p i⟩ : LinkFlit)
  let s := { s with transit := KMap.put s.transit id (k, p) }.updLink l fun b =>
    { b with retry := b.retry ++ new, sendSeq := b.sendSeq + BitVec.ofNat 16 n }
  if b.retry = [] then s.at (s.clk + 1) false (.linkFlitReceive l) else s

/-- What becomes of a packet beyond a link (the first part of its transit entry). -/
def beyond (l : Nat) : Nat := if l < 32 then 1 else if l < 48 then l - 30 else l + 36

/-- A packet goes onto a link once its sender has room and none waits there before it. -/
def enterLink (s : State) (l : Nat) (p : Packet) : State :=
  if linkRoom s l p && !(s.transit.any fun x => decide (x.2.1 = 200 + l)) then sendLink (linkHold s l p) l (beyond l) p
  else
    let (id, s) := fresh s
    { s with transit := KMap.put s.transit id (200 + l, p) }.at (s.clk + 1) false (.gatewayPacketForward id)

/-! ## The base-die fabric (R295, R486) -/

/-- The clk before which a packet of the fabric is not handed on: that of the packets of its flow and source before it
(R295). -/
def fabricFloor (s : State) (p : Packet) : Nat :=
  listMax (s.cal.filterMap fun t => match t.ev with
    | .gatewayPacketForward i =>
      if s.transit.any fun x => decide (x.1 = i ∧ x.2.1 ≤ 1 ∧ x.2.2.flow = p.flow ∧ x.2.2.snode = p.snode ∧
          x.2.2.sdie = p.sdie ∧ x.2.2.smod = p.smod) then some t.due else none
    | _ => none)

/-- A packet of the base-die fabric is handed on within the bound that R486 leaves beside the links on its way: of
64 + 2n clks or 48 + 2n, 40 + n (log 51). -/
def crossFabric (s : State) (id : Nat) (p : Packet) : State :=
  let (d, s) := drawNat s 1 (40 + seamFlits p)
  s.at (max (s.clk + d) (fabricFloor s p)) false (.gatewayPacketForward id)

/-- A packet enters the base-die fabric. -/
def enterFabric (s : State) (p : Packet) : State :=
  let (id, s) := fresh s
  let s := crossFabric s id p
  { s with transit := KMap.put s.transit id (0, p) }

/-- Send a packet from a holder: a router injects it; a seam gateway injects it into a router of its row (R292) or sends it
on its link; a switch port hands it to the fabric. -/
def sendFrom (s : State) (h : Nat) (cir : Bool) (p : Packet) : State :=
  if h < 256 then injectAt s h (if p.np ≠ 0 then (if cir then 2 else 0) else if cir then 5 else 4) p
  else if h < 288 then
    if p.tk = 0 ∧ p.tmod = s.mgmt.modn ∧ p.tdie.toNat = holdDie h ∧ p.tnode.toNat / 8 = holdNum h then
      injectAt s (64 * p.tdie.toNat + p.tnode.toNat) (if cir then 3 else 1) p
    else enterLink s (h - 256) p
  else enterFabric s p

end Sys2Proof.Machine
end

