-- ==== Sys2Proof/Machine/Counter.lean ====
section
/-!
DEFINITION. Monotonic counters (R391-R394), token waits and access-count waits (R405, R406): the counter operations
of CT and the counter requests of every agent at their homes.
-/

namespace Sys2Proof.Machine

/-! ## Requests (R302, R391, R393) -/

/-- The home slice of an HBM address (R164). -/
def homeSlice (p : Nat) : Nat := 16 * (bits p 8 3 ^^^ bits p 19 3) + (bits p 11 4 ^^^ bits p 22 4)

/-- A request of the table, by number. -/
def State.req (s : State) (id : Nat) : Option Req := (s.reqs.find? fun p => p.1 = id).map (·.2)

/-- The seam link of a context's quad: its die's gateway of its row (R293). -/
def seamOf (n : Nat) : Nat := 8 * dieOf n + nodeOf n / 8

/-- The 16-bit source id of a request (R302). -/
def ReqSrc.sid : ReqSrc → Nat
  | .ctxAdd n => n
  | .ctxWait n => n
  | .engine n fu => 4096 * (fu - 15) + n
  | .queue n fu => 4096 * (fu - 15) + n
  | .holder h _ => 61440 + holdWord h
  | .retire _ => 49152
  | .depend _ _ => 49152
  | .pattern _ => 53248
  | .hostAdd _ => 57344
  | .hostWait _ => 57344

/-- Does a source ask for a wait? -/
def ReqSrc.isWait : ReqSrc → Bool
  | .ctxWait _ => true
  | .depend _ _ => true
  | .pattern _ => true
  | .hostWait _ => true
  | _ => false

/-- The context whose own request this is. -/
def ReqSrc.ctx? : ReqSrc → Option Nat
  | .ctxAdd n => some n
  | .ctxWait n => some n
  | .engine n _ => some n
  | .queue n _ => some n
  | _ => none

/-- Does the path of a launch, pattern or translation command stand on a seam link that is retraining or down (R298, R451)? -/
def linkHeld (s : State) (src : ReqSrc) : Bool :=
  match src.ctx? with
  | some n => (s.link (seamOf n)).training.isSome || decide (3 ≤ (s.link (seamOf n)).fails)
  | none => false

/-- The holder at which an agent's requests enter the network: its quad's router, or the holder itself; none for the agents of
the base die (R292, R302). -/
def ReqSrc.place : ReqSrc → Option Nat
  | .holder h _ => some h
  | src => src.ctx?.map quadOf

/-- Does a request go to a home slice: every one but a launch, pattern or translation command (R302)? -/
def ReqSrc.toHome : ReqSrc → Bool
  | .queue _ fu => fu = 22 || fu = 23
  | _ => true

/-- A launch command goes to the distributor (R309, R319). -/
def sendLaunch (s : State) (n : Nat) (q : Cmd) : State :=
  if q.fu = 24 ∧ q.port = 4 then
    let aov := if q.a2.getLsbD 5 then some q.a0 else none
    { s with dist := { s.dist with arriving := s.dist.arriving ++ [⟨none, n, q.id, q.go, [], aov⟩] } }
  else s

/-- The command in service that a queue's request carries. -/
def reqCmd (s : State) (id n fu : Nat) : Option Cmd :=
  let mine (q : Cmd) : Bool := q.id = id && q.st = .running
  (findImage s n fun c => (c.queue fu).head?.any mine).bind fun c => (c.queue fu).head?

/-- Does a home slice perform a counter operation in clk t? -/
def sliceBusy (s : State) (slice t : Nat) : Bool :=
  let at' (i : Nat) : Bool := (s.req i).any fun r => r.got.isNone && decide (homeSlice r.pa = slice)
  s.cal.any fun x => decide (x.due = t) && (match x.ev with
    | .counterAddPerformed i => at' i
    | .counterWaitPerformed i => at' i
    | _ => false)

/-- The first clk from t on in which a home slice performs no other counter operation: it performs one in a clk (R393). -/
def sliceFree (s : State) (slice t : Nat) : Nat → Nat
  | 0 => t
  | f + 1 => if sliceBusy s slice t then sliceFree s slice (t + 1) f else t

/-- The packet of a request (R288, R302): its words w3-w7, which no rule lays down, hold its address and value (log 15). -/
def reqPacket (s : State) (h : Nat) (r : Req) : Packet :=
  let l := homeSlice r.pa
  { Packet.none with
    flow := BitVec.ofNat 20 r.src.sid, pk := 1, snode := BitVec.ofNat 6 (holdNum h), sdie := BitVec.ofNat 2 (holdDie h)
    smod := s.mgmt.modn, tk := 3, tnode := BitVec.ofNat 6 (l % 64), tdie := BitVec.ofNat 2 (l / 64), tmod := s.mgmt.modn
    seqn := r.seqNo, ext := [0, r.va, r.val, 0, 0] }

/-- The packet of its reply, from the home slice. -/
def replyPacket (s : State) (h : Nat) (r : Req) : Packet :=
  let l := homeSlice r.pa
  { reqPacket s h r with
    pk := 2, snode := BitVec.ofNat 6 (l % 64), sdie := BitVec.ofNat 2 (l / 64), tk := BitVec.ofNat 3 (holdKind h)
    tnode := BitVec.ofNat 6 (holdNum h), tdie := BitVec.ofNat 2 (holdDie h) }

/-- A request of the base die's own agents, or a command for one of them, is on its way: one step within its bound (R62, R394;
log 15). -/
def stepReq (s : State) (id : Nat) (r : Req) : State :=
  match r.src with
  | .queue n fu =>
    match reqCmd s id n fu with
    | none => { s with reqs := s.reqs.del id }
    | some q =>
      let s := { s with reqs := s.reqs.del id }
      let s := if fu = 25 ∧ q.port = 4 then
          { s with loads := s.loads ++ [⟨none, q.priv, n, q.id, none, q.go, q.asid, q.ptroot, false⟩] }
        else s
      (sendLaunch s n q).within 1 (max 1 r.val.toNat) (queueEvent n q)
  | src =>
    let (d, s) := drawNat s 1 300
    let t := sliceFree s (homeSlice r.pa) (s.clk + d) s.cal.length
    if src.isWait then s.at t true (.counterWaitPerformed id) else s.at t false (.counterAddPerformed id)

/-- A request leaves its source: as a packet, by the local port of its quad or from its holder (R292, R293). -/
def deliverReq (s : State) (id : Nat) (r : Req) : State :=
  match r.src.place with
  | some h =>
    if !r.src.toHome then stepReq s id r
    else if h < 256 then injectAt s h 0 (reqPacket s h r) else sendFrom s h false (reqPacket s h r)
  | none => stepReq s id r

/-- Waits that have reached their home in this clk on the counter of an add. -/
def waitsHere (s : State) (pa : Nat) : List Nat :=
  s.cal.filterMap fun x => match x.ev with
    | .counterWaitPerformed i => if (s.req i).any fun r => decide (r.pa = pa ∧ r.arrived = s.clk) && r.got.isNone then some i else none
    | _ => none

/-- A counter operation that has reached its home slice takes the slice's next free clk; an add goes before the waits on its
counter that arrive with it (R393). -/
def slicePut (s : State) (id : Nat) (r : Req) : State :=
  let next (s : State) : Nat := sliceFree s (homeSlice r.pa) (s.clk + 1) s.cal.length
  if r.src.isWait then s.at (next s) true (.counterWaitPerformed id)
  else
    let ws := waitsHere s r.pa
    let s := { s with cal := s.cal.filter fun x => match x.ev with | .counterWaitPerformed i => !ws.contains i | _ => true }
    ws.foldl (fun s i => s.at (next s) true (.counterWaitPerformed i)) (s.at (next s) false (.counterAddPerformed id))

/-- The request that a packet belongs to. -/
def reqOf (s : State) (p : Packet) : Option (Nat × Req) :=
  s.reqs.find? fun x => decide (x.2.src.sid = p.flow.toNat ∧ x.2.seqNo = p.seqn ∧ 0 < x.2.tries)

/-- A request packet has reached its home slice: a counter operation takes its turn there, a command is performed within its
bound (R62), of which 200 clks are left for its packets. -/
def homeArrive (s : State) (p : Packet) : State :=
  match reqOf s p with
  | none => s
  | some (id, r) =>
    let r := { r with arrived := s.clk }
    let s := { s with reqs := KMap.put s.reqs id r }
    match r.src with
    | .queue n fu =>
      (match reqCmd s id n fu with
       | none => s
       | some q => s.within 1 (max 1 (r.val.toNat - 200)) (queueEvent n q))
    | _ => slicePut s id r

/-- Send a request (R302). One that is not a packet gets no reply where its path is held, and is resent after 8,192 clks. -/
def sendReq (s : State) (id : Nat) (r : Req) : State :=
  let r := { r with sentAt := s.clk, tries := r.tries + 1 }
  let s := { s with reqs := KMap.put s.reqs id r }.at (s.clk + 8192) false (.requestTimeout id)
  if !r.src.toHome && linkHeld s r.src then s else deliverReq s id r

/-- The requests of a source id that are out without a reply. -/
def openOf (s : State) (sid : Nat) : Nat :=
  (s.reqs.filter fun p => decide (p.2.src.sid = sid ∧ 0 < p.2.tries) && !p.2.answered).length

/-- A source sends its oldest request that waits for room among its eight (R302). -/
def nextReq (s : State) (sid : Nat) : State :=
  if 8 ≤ openOf s sid then s
  else match s.reqs.find? fun p => decide (p.2.src.sid = sid ∧ p.2.tries = 0) with
    | some p => sendReq s p.1 p.2
    | none => s

/-- Post a new request under a number: it takes the next SEQ of its source, and is sent once that has fewer than eight
without replies (R302). -/
def postAs (s : State) (id : Nat) (src : ReqSrc) (va : Word) (pa : Nat) (v : Word) : State :=
  let q := KMap.get 0 s.srcSeq src.sid
  let r : Req := { src := src, va := va, pa := pa, val := v, sentAt := 0, tries := 0, performed := false,
                   registered := false, seqNo := q, answered := false, got := none, arrived := 0 }
  let s := { s with srcSeq := KMap.set 0 s.srcSeq src.sid (q + 1) }
  if 8 ≤ openOf s src.sid then { s with reqs := KMap.put s.reqs id r } else sendReq s id r

/-- Post a new request and answer its number. -/
def postReq (s : State) (src : ReqSrc) (va : Word) (pa : Nat) (v : Word) : Nat × State :=
  let (id, s) := fresh s
  (id, postAs s id src va pa v)

/-- Forget a request; its source may send the next. -/
def dropReq (s : State) (id : Nat) : State :=
  match s.req id with
  | none => s
  | some r =>
    nextReq { s with reqs := s.reqs.del id, waiters := s.waiters.filter fun i => i ≠ id } r.src.sid

/-- The key of a request's pairs at its home (R302). -/
def replyKey (r : Req) : Nat := 65536 * homeSlice r.pa + r.src.sid

/-- The reply that the home keeps for a request it has performed (R302). -/
def keptReply (s : State) (r : Req) : Option Reply :=
  ((KMap.get [] s.replies (replyKey r)).find? fun p => p.1 = r.seqNo).map (·.2)

/-- The home keeps a reply among the last eight of its source (R302). -/
def keepReply (s : State) (r : Req) (x : Reply) : State :=
  { s with replies := KMap.put s.replies (replyKey r) (((r.seqNo, x) :: KMap.get [] s.replies (replyKey r)).take 8) }

/-- Notices to the waits on a counter that an add has satisfied, in registration order (R393): each as a packet to its source,
or one step to an agent of the base die, within 300 clks (R394). -/
def notifyWaits (s : State) (pa : Nat) : State :=
  let v := s.rd64 pa
  let hit (i : Nat) : Bool := match s.req i with
    | some r => decide (r.pa = pa ∧ r.val.toNat ≤ v.toNat)
    | none => false
  let ids := s.waiters.filter hit
  let s := { s with waiters := s.waiters.filter fun i => !hit i }
  ids.foldl (fun s i =>
    match s.req i with
    | none => s
    | some r =>
      let s := { s with reqs := KMap.put s.reqs i { r with got := some v } }
      match r.src.place with
      | some h => enterFabric s (replyPacket s h r)
      | none => s.within 1 300 (.counterWaitPerformed i)) s

/-- Does an image hold this counter request? -/
def hasReq (id : Nat) (c : Ctx) : Bool := c.creqs.any fun x => x.id = id

/-- A response to the host (R453). -/
def respond (s : State) (typ tag status code : Nat) (v : Word) (pay : List Byte) : State :=
  { s with
    resps := s.resps ++ [⟨BitVec.ofNat 8 (typ + 0x80), BitVec.ofNat 16 tag, BitVec.ofNat 8 status, BitVec.ofNat 8 code,
      0, v, pay⟩]
    host := s.host.filter fun m => m.tag.toNat ≠ tag }

/-- A fault of a context's counter add: it waits in the saved image that the add belongs to, or is delivered to the
live context (R391, R417). -/
def ctxAddFault (s : State) (id n code : Nat) (v : Word) (fu : Nat) : State :=
  if s.dist.kerns.any fun k => k.saved.any fun m => m.adds.contains id then
    let tell (m : Saved) : Saved := { m with ctx := { m.ctx with delivered := m.ctx.delivered ++ [(code, v, fu)] } }
    let ks := s.dist.kerns.map fun k => { k with saved := listUpd (fun m => m.adds.contains id) tell k.saved }
    { s with dist := { s.dist with kerns := ks } }
  else deliverFault s n code v fu

/-- A fault of a dependence read is judged at the launcher's level (R310). -/
def launcherFault (s : State) (kid : BitVec 32) (code : Nat) (v : Word) : State :=
  match (s.dist.kerns.find? fun k => k.kid = kid).bind (·.parent) with
  | some p => eventWalk s (some p) 0 code v whoNone
  | none => eventWalk s none 3 code v whoNone

/-- What a failed or faulted request raises, by its source (R391, R310); `fu` names a context's request whose fate is still
to be judged, 0 for one that has ended. -/
def addFault (s : State) (id : Nat) (r : Req) (code fu : Nat) : State :=
  match r.src with
  | .ctxAdd n => ctxAddFault s id n code r.va fu
  | .ctxWait n => deliverFault s n code r.va fu
  | .engine n _ => ctxAddFault s id n code r.va fu
  | .queue _ _ => s
  | .holder h pid =>
    eventWalk s ((s.pats.find? fun p => p.pid = pid).bind (·.owner)) (if h < 256 then 1 else if h < 288 then 2 else 3)
      code r.va (whoHolder h)
  | .retire _ => s.bbAdd 1 code 0 whoNone r.va
  | .depend kid _ => launcherFault s kid code r.va
  | .pattern pid => eventWalk s ((s.pats.find? fun p => p.pid = pid).bind (·.owner)) 3 code r.va whoNone
  | .hostAdd tag => respond s 0x04 tag 1 code r.va []
  | .hostWait tag => respond s 0x05 tag 1 code r.va []

/-- What an add that has been performed tells its source. -/
def addDone (s : State) (id : Nat) (r : Req) : State :=
  match r.src with
  | .ctxAdd n => updImage s n (hasReq id) fun c =>
      { c with creqs := c.creqs.filter fun x => x.id ≠ id, walks := c.walks.del (reqUnit id) }
  | .ctxWait n => s.updCtx n fun c =>
      { c with creqs := c.creqs.filter fun x => x.id ≠ id, wait := none, walks := c.walks.del (reqUnit id) }
  | .engine n fu =>
    let s := s.updCtx n fun c => { c with walks := c.walks.del (reqUnit id) }
    if s.reqs.any fun p => p.2.src = r.src then s
    else s.updCtx n fun c => match (c.queue fu).head? with
      | some q => if q.st = .closing then c.popCmd fu else c
      | none => c
  | .hostAdd tag => respond s 0x04 tag 0 0 0 []
  | _ => s

/-- Does a request of a context wait for its fate (R423)? An overflow has none: its add is not made again (R391). -/
def ReqSrc.judged (src : ReqSrc) (code : Nat) : Bool :=
  !isSoft code && (match src with | .ctxAdd _ => true | .ctxWait _ => true | .engine _ _ => true | _ => false)

/-- Is an earlier add of the same source still to be performed (R277, R332)? -/
def earlierAdd (s : State) (id : Nat) (r : Req) : Bool :=
  s.reqs.any fun p => decide (p.1 < id ∧ p.2.src = r.src) && !p.2.performed

/-- Change a request of the table. -/
def updReq (s : State) (id : Nat) (f : Req → Req) : State :=
  match s.req id with
  | some r => { s with reqs := KMap.put s.reqs id (f r) }
  | none => s

/-- A request that fails with a fault is answered by the fault (R391, R453); a context's stands until its fate is known
(R423). -/
def failReq (s : State) (id : Nat) (r : Req) (code : Nat) : State :=
  if r.src.judged code then
    addFault (nextReq (updReq s id fun r => { r with answered := true, performed := true }) r.src.sid) id r code (reqUnit id)
  else
    let s := dropReq s id
    match r.src with
    | .hostAdd _ => addFault s id r code 0
    | _ => addFault (addDone s id r) id r code 0

/-- The fate of a failed request (R423): it is made again as a new request, or it ends; a `ct.wait` that ends so lets its
bundle go on with every guard false. -/
def endFate (s : State) (id : Nat) (r : Req) : State :=
  if !r.answered then postAs s id r.src r.va r.pa r.val
  else
    let s := addDone (dropReq s id) id r
    match r.src with
    | .ctxWait n => s.updCtx n fun c => if c.blocked then { c with skip := true, blocked := false, readySince := s.clk } else c
    | _ => s

/-- Perform an add at its home (R391, R393): the saturating sum, the notices and the reply. -/
def performAdd (s : State) (r : Req) : State × Reply :=
  match s.badIn r.pa 8 with
  | some _ => (s, .fault 0x27 r.va)
  | none =>
    let c := s.rd64 r.pa
    if 2 ^ 64 ≤ c.toNat + r.val.toNat then (notifyWaits (s.wr64 r.pa (-1)) r.pa, .fault 0x2A r.va)
    else (notifyWaits (s.wr64 r.pa (c + r.val)) r.pa, .done 0)

/-- The source of an add has its reply. -/
def addReply (s : State) (id : Nat) (r : Req) (x : Reply) : State :=
  match x with
  | .fault code _ => failReq s id r code
  | _ => addDone (dropReq s id) id r

/-- The source of a wait learns the value that satisfied it (R393). -/
def waitDone (s : State) (id : Nat) (r : Req) (v : Word) : State :=
  let s := dropReq s id
  match r.src with
  | .ctxWait n =>
    s.updCtx n fun c => { c with
      walks := c.walks.del (reqUnit id)
      creqs := c.creqs.filter fun x => x.id ≠ id
      wait := c.wait.map fun w => if w.id = id then { w with got := some v } else w }
  | .depend kid i =>
    let ks := listUpd (fun k => k.kid = kid) (fun k => { k with deps := k.deps.set i true }) s.dist.kerns
    { s with dist := { s.dist with kerns := ks } }.at (s.clk + 1) false (.dependenceMet kid.toNat)
  | .pattern pid =>
    (match s.pats.find? fun p => p.pid = pid with
     | none => s
     | some p => s.at (s.clk + 1) false (if p.st = 0 then .patternActivation pid.toNat else .patternRetirement pid.toNat))
  | .hostWait tag => respond s 0x05 tag 0 0 v []
  | _ => s

/-- A wait's registration is acknowledged to its source (R393, R401). -/
def waitAcked (s : State) (id : Nat) (r : Req) : State :=
  let s := nextReq (updReq s id fun r => { r with answered := true }) r.src.sid
  match r.src with
  | .ctxWait n => s.updCtx n fun c =>
      { c with creqs := c.creqs.filter fun x => x.id ≠ id, walks := c.walks.del (reqUnit id) }
  | _ => s

/-- Waits registered at a slice. -/
def waitersAt (s : State) (slice : Nat) : Nat :=
  (s.waiters.filter fun i => match s.req i with | some r => decide (homeSlice r.pa = slice) | none => false).length

/-- Perform a wait at its home (R393): satisfied at once, registered, or refused for want of room. -/
def performWait (s : State) (id : Nat) (r : Req) : State × Reply :=
  let c := s.rd64 r.pa
  if (s.badIn r.pa 8).isSome then (s, .fault 0x27 r.va)
  else if r.val.toNat ≤ c.toNat then (s, .done c)
  else if 512 ≤ waitersAt s (homeSlice r.pa) then (s, .full)
  else ({ updReq s id fun r => { r with registered := true } with waiters := s.waiters ++ [id] }, .registered)

/-- The source of a wait has its reply; one that found no room is sent again 256 clks later (R393). -/
def waitReply (s : State) (id : Nat) (r : Req) (x : Reply) : State :=
  match x with
  | .done v => waitDone s id r v
  | .data _ _ => s
  | .registered => waitAcked s id r
  | .full =>
    (nextReq (updReq s id fun r => { r with answered := true }) r.src.sid).at (s.clk + 256) false (.counterWaitResend id)
  | .fault code _ => failReq s id r code

/-- A counter request's source has its reply. -/
def ctrReply (s : State) (id : Nat) (r : Req) (x : Reply) : State :=
  if r.src.isWait then waitReply s id r x else addReply s id r x

/-- A home slice's reply leaves as a packet; an agent of the base die has it at once (R302, log 15). -/
def sendReply (s : State) (id : Nat) (r : Req) (x : Reply) : State :=
  match r.src.place with
  | some h => enterFabric s (replyPacket s h r)
  | none => ctrReply s id r x

/-- A reply, or the notice of a registered wait, has reached the source of a counter request. -/
def ctrTake (s : State) (id : Nat) (r : Req) : State :=
  match r.got with
  | some v => waitDone s id r v
  | none => if r.answered then s else match keptReply s r with | some x => ctrReply s id r x | none => s

/-- COUNTER_ADD_PERFORMED (R391, R393): the add at its home, or the kept reply of one that was sent again (R302). -/
def execCounterAddPerformed (id : Nat) (s : State) : Out :=
  match s.req id with
  | none => .next s
  | some r =>
    if earlierAdd s id r then
      .next (s.at (sliceFree s (homeSlice r.pa) (s.clk + 1) s.cal.length) false (.counterAddPerformed id))
    else
      let (s, x) := match keptReply s r with
        | some x => (s, x)
        | none =>
          let (s, x) := performAdd s r
          (keepReply (updReq s id fun r => { r with performed := true }) r x, x)
      .next (sendReply s id r x)

/-- COUNTER_WAIT_PERFORMED (R393): the wait at its home, or the kept reply of one that was sent again (R302). Also the arrival
of a notice at an agent of the base die. -/
def execCounterWaitPerformed (id : Nat) (s : State) : Out :=
  match s.req id with
  | none => .next s
  | some r =>
    match r.got with
    | some v => .next (waitDone s id r v)
    | none =>
      if r.answered && r.registered then .next s
      else
        let (s, x) := match keptReply s r with
          | some x => (s, x)
          | none =>
            let (s, x) := performWait s id r
            (keepReply (updReq s id fun r => { r with performed := true }) r x, x)
        .next (sendReply s id r x)

/-- COUNTER_WAIT_RESEND (R393): a wait that found the table full is sent again, as a new request of its source. -/
def execCounterWaitResend (id : Nat) (s : State) : Out :=
  match s.req id with
  | none => .next s
  | some r => if r.registered then .next s else .next (postAs s id r.src r.va r.pa r.val)

/-! ## The context's request queue (R401, R403) -/

/-- Send the head of the context's counter request queue if the accesses before it are performed (R403). -/
def sendHead (s : State) (n : Nat) (p : Ctx → Bool) : State :=
  match findImage s n p with
  | none => s
  | some c =>
    match c.creqs with
    | [] => s
    | q :: _ =>
      if q.sent || q.after.any (fun i => (openIds s n c).contains i) then s
      else
        let s := updImage s n p fun c => { c with creqs := listUpd (fun x => x.id = q.id) (fun x => { x with sent := true }) c.creqs }
        postAs s q.id (if q.isWait then .ctxWait n else .ctxAdd n) q.va q.pa q.val

/-! ## Counter operands (R401, R402) -/

/-- The counter operand: scope and address. -/
def ctScope (a : Word) : Nat := fld a 0 3
def ctAddr (a : Word) : Word := a &&& ~~~7

/-- Must the operation walk the tables first (R401)? -/
def needWalk (s : State) (va : Word) : Bool :=
  let c := s.iss.ctx
  fld va 56 8 = 0 && (tlbFind s (quadOf s.iss.n) c.ctl.asid va).isNone && !(c.xwalk = some true)

/-- Translate a counter address for an add or a wait of the issuing context. -/
def ctXlate (s : State) (va : Word) (w : Want) : Except Flt Nat :=
  let c := s.iss.ctx
  xlate s (quadOf s.iss.n) c.ctl.asid c.ctl.ptroot va w c.ctl.priv 8

/-- The checks of R402 for `ct.add` and `ct.wait`, with the walk's hold and that of a ninth request. -/
def counterNotes (s : State) (w : Want) : List Note :=
  let a := s.iss.ctx.portW 6 0
  [trapIf (decide (6 ≤ ctScope a)) 0x09 (w64 (ctScope a)),
    holdIf (needWalk s (ctAddr a)) 7,
    (match ctXlate s (ctAddr a) w with | .error f => trapFlt (some f) | .ok _ => .quiet),
    holdIf (decide (8 ≤ s.iss.ctx.creqs.length)) 7]

/-- Begin the walk that a held counter operation waits for (R401). -/
def beginWalk (s : State) (o : Out) : Out :=
  match o with
  | .next t =>
    if t.iss.note = .hold 7 && needWalk s (ctAddr (s.iss.ctx.portW 6 0)) && (t.ctx t.iss.n).xwalk = none then
      .next ((t.updCtx t.iss.n fun c => { c with xwalk := some false }).within 1 1200 (.translationWalk t.iss.n))
    else .next t
  | o => o

/-- The physical address of a counter that has passed its checks. -/
def ctPA (s : State) (w : Want) : Nat :=
  match ctXlate s (ctAddr (s.iss.ctx.portW 6 0)) w with
  | .ok p => p
  | .error _ => 0

/-- CT_ADD (R403): the add enters the context's request queue. -/
def execCtAdd (g : BitVec 4) (src : BitVec 9) (s : State) : Out :=
  beginWalk s (trigger 6 4 1 2 false [] (counterNotes s .add) g src (fun v s =>
    let (id, s) := fresh s
    let n := s.iss.n
    s.updCtx n fun c => { c with creqs := c.creqs ++
      [⟨id, false, ctAddr (s.iss.ctx.portW 6 0), ctPA s .add, v.word, false, openIds s n (s.ctx n)⟩] }) s)

/-- A wait's first attempt: it takes the wait slot and enters the request queue, and the bundle blocks (R404). -/
def beginWait (s : State) (t : Word) (o : Out) : Out :=
  match o with
  | .next r =>
    if r.iss.note = .block && s.iss.ctx.wait.isNone then
      let (id, r) := fresh r
      let va := ctAddr (s.iss.ctx.portW 6 0)
      let pa := ctPA s .wait
      .next (r.updCtx r.iss.n fun c => { c with
        wait := some ⟨id, pa, t, none⟩
        creqs := c.creqs ++ [⟨id, true, va, pa, t, false, []⟩] })
    else .next r
  | o => o

/-- CT_WAIT (R404): blocks until a value of at least T has come, then lands it. DESIGN CHOICE (log 51): the first attempt, which
R404 has translate and send before it blocks, makes the checks of R402 before its own block, other than the order of R48. -/
def execCtWait (g : BitVec 4) (src : BitVec 9) (s : State) : Out :=
  let w := s.iss.ctx.wait
  beginWait s (tWord s src) (beginWalk s (trigger 6 5 1 1 true
    ((if w.isNone then counterNotes s .wait else []) ++ [blockIf ((w.bind (·.got)).isNone)]) [] g src
    (fun _ s => flyNew (onCtx (fun c => { c with wait := none }) s) 1 6 (.s ((w.bind (·.got)).getD 0)) 0 0) s))

/-- Does `ct.owait` block (R405)? -/
def owaitBlocks (c : Ctx) (a t : Word) : Bool :=
  let old := decide (t.toNat < c.ctl.old.toNat)
  let ost := decide (t.toNat < c.ctl.ost.toNat)
  match a.toNat with
  | 0 => old
  | 1 => ost
  | 2 => old || ost
  | _ => false

/-- CT_OWAIT (R405). -/
def execCtOwait (g : BitVec 4) (src : BitVec 9) (s : State) : Out :=
  let c := s.iss.ctx
  let a := c.portW 6 0
  trigger 6 6 1 1 true [blockIf (owaitBlocks c a (tWord s src))] [trapIf (decide (2 < a.toNat)) 0x0A a] g src
    (fun _ s => flyNew s 1 6 (.s (c.ctl.old.setWidth 64 + (c.ctl.ost.setWidth 64 <<< 16))) 0 0) s

/-- CT_TWAIT (R406). -/
def execCtTwait (g : BitVec 4) (src : BitVec 9) (s : State) : Out :=
  let c := s.iss.ctx
  let t := tWord s src
  let tk := c.tok t.toNat
  trigger 6 7 1 1 true [blockIf (decide (t.toNat ≤ 15) && decide (tk.st = .pending))]
    [trapIf (decide (15 < t.toNat)) 0x0A t, trapIf (decide (tk.st = .idle)) 0x0C t] g src
    (fun _ s => flyNew s 1 6 (.s tk.val) 0 0) s

end Sys2Proof.Machine
end

