-- ==== Sys2Proof/Machine/Space.lean ====
section
/-!
DEFINITION. The control space (R161-R163, R445): what its words read as, and the step that a write to one of them
starts.
-/

namespace Sys2Proof.Machine

/-! ## Context control blocks (R162) -/

/-- The side argument word a<port> of an engine (R162). -/
def Ctx.sideArg (c : Ctx) (fu port : Nat) : Word := KMap.get 0 c.side (4 * fu + port)

/-- A word of a context control block. Go words are write-only. -/
def blockRead (s : State) (n off : Nat) : Word :=
  if off / 8 ≤ 34 then ctlRead s n (s.ctx n) (s.core (coreOf n)) (off / 8)
  else if 0x400 ≤ off ∧ off < 0x540 ∧ off % 64 < 32 then (s.ctx n).sideArg (16 + (off - 0x400) / 64) (off % 64 / 8)
  else 0

/-! ## The management block (R445) -/

/-- A word of the management block; +0x2280 is NRDROP (log 24). -/
def mgmtRead (s : State) (off : Nat) : Word :=
  let m := s.mgmt
  if off = 0 then m.boot.setWidth 64 + (m.why.setWidth 64 <<< 3) + (wBool m.warm <<< 8)
  else if off = 0x10 then m.modn.setWidth 64
  else if off = 0x18 then m.plim.setWidth 64
  else if 0x20 ≤ off ∧ off < 0x40 then
    let d := (off - 0x20) / 8
    (KMap.get Config.lbud m.lbud d).setWidth 64 + ((KMap.get Config.lbud m.lthr d).setWidth 64 <<< 16) +
      ((KMap.get 0 m.lheld d).setWidth 64 <<< 32)
  else if 0x40 ≤ off ∧ off < 0x60 then (KMap.get 0 m.tj ((off - 0x40) / 8)).setWidth 64
  else if off = 0x60 then m.svbase.setWidth 64 <<< 21
  else if off = 0x68 then m.svcnt.setWidth 64
  else if off = 0x70 then s.bbseq
  else if 0x100 ≤ off ∧ off < 0x2100 then (KMap.get 0 m.route ((off - 0x100) / 8)).setWidth 64
  else if 0x2100 ≤ off ∧ off < 0x2180 then
    let l := s.link (32 + (off - 0x2100) / 8)
    l.st.setWidth 64 + (l.nrt.setWidth 64 <<< 16)
  else if 0x2180 ≤ off ∧ off < 0x2200 then (KMap.get 0 m.ldrop ((off - 0x2180) / 8)).setWidth 64
  else if off = 0x2280 then m.nrdrop.setWidth 64
  else if 0x2200 ≤ off ∧ off < 0x2600 then
    if off % 16 = 0 then (KMap.get 0 m.pair0 ((off - 0x2200) / 16)).setWidth 64
    else (KMap.get 0 m.pair1 ((off - 0x2200) / 16)).setWidth 64
  else 0

/-! ## Control-space accesses -/

def ctxSpace : Nat := 0xFF0000000000
def mgmtSpace : Nat := 0xFF0001000000

/-- Does a physical address lie in the control space? -/
def inControl (pa : Nat) : Bool := decide (ctxSpace ≤ pa ∧ pa < 0xFF0002000000)

/-- A control-space word. -/
def spaceRead (s : State) (pa : Nat) : Word :=
  if pa < mgmtSpace then blockRead s ((pa - ctxSpace) / 4096) (pa % 4096) else mgmtRead s (pa - mgmtSpace)

/-- The step that a control-space write of `v` starts; none for an unassigned word. -/
def spaceEvent (pa : Nat) (v : Word) : Option Instr :=
  if pa < mgmtSpace then
    let n := (pa - ctxSpace) / 4096
    let off := pa % 4096
    if off / 8 ≤ 34 then some (.controlBlockRegisterWrite n (off / 8) v)
    else if 0x400 ≤ off ∧ off < 0x540 ∧ off % 64 < 48 then
      some (.goWordWrite n (16 + (off - 0x400) / 64) (off % 64 / 8) v)
    else none
  else
    let off := pa - mgmtSpace
    some (match off with
      | 0x008 => .bootlenWrite v
      | 0x010 => .modnWrite v
      | 0x018 => .plimWrite v
      | 0x060 => .svbaseWrite v
      | _ => .registerWrite off v)

/-- Is a queue closed to go moves: full, or fenced (R70, R426)? -/
def queueFull (c : Ctx) (fu : Nat) : Bool := decide (16 ≤ (c.queue fu).length) || KMap.get false c.qfence fu

/-- Must a control-space write wait: a go word whose queue stands full, or fenced (R162, R426)? -/
def spaceWaits (s : State) (e : Instr) : Bool :=
  match e with
  | .goWordWrite n fu port _ => decide (4 ≤ port) && (s.ctx n).live && queueFull (s.ctx n) fu
  | _ => false

/-- The source of the host's control-space writes. -/
def hostSrc : Nat := 1048576

/-- Is a member of the context running, so that writes of its registers are ignored (R162)? One that a pre-emption stops
runs until it is saved. -/
def memberRuns (c : Ctx) : Bool := c.st = .running || c.st = .draining || c.st = .saving

/-- What a writer of a context register is told: the refusing code (R162). -/
def blockRefuse (s : State) (pa : Nat) (v : Word) : Option Nat :=
  let n := (pa - ctxSpace) / 4096
  let no := pa % 4096 / 8
  if pa < mgmtSpace ∧ no ≤ 34 ∧ !memberRuns (s.ctx n) then (ctlRefuse (s.core (coreOf n)) no v).map (·.1) else none

end Sys2Proof.Machine
end

