-- ==== Sys2Proof/Machine/Queues.lean ====
section
/-!
DEFINITION. Command queues (R70, R264-R266), the accesses that commands, homes, flows and the host make (R166-R169),
endpoints (R267), the end and the faults of a command (R277, R279), and the service of the queues.
-/

namespace Sys2Proof.Machine

/-! ## Accesses -/

/-- A piece of work on the state that may meet a fault; what it did before the fault stays (R168). The fault code 0
says that it must wait. -/
abbrev Acc (α : Type) := ExceptT Flt (StateM State) α

/-- The fault that says: not now. -/
def waitFlt : Flt := (0, 0)

/-- Raise a fault where a condition holds. -/
def faultIf (b : Bool) (code : Nat) (v : Word) : Acc Unit := if b then throw (code, v) else pure ()

/-- On whose behalf an access is made: a context with its image, a translation buffer, an address space, whether it is
privileged and whether it is the host (R169, R264, R372, R445). -/
structure Agent where
  n : Nat
  img : Ctx
  buf : Nat
  asid : BitVec 16
  root : BitVec 36
  priv : Bool
  host : Bool
  deriving DecidableEq, Repr

/-- The agent of a context's command. -/
def cmdAgent (n : Nat) (c : Ctx) (q : Cmd) : Agent := ⟨n, c, quadOf n, q.asid, q.ptroot, q.priv, false⟩

/-- The same agent at a home: privileged, through the base-die buffer (R222, R372). -/
def Agent.home (g : Agent) : Agent := { g with buf := baseBuf, priv := true }

/-- Translate an address and check its page; the buffer keeps the entry (R169, R371, R372). -/
def translate (g : Agent) (va : Word) (w : Want) (n : Nat) : Acc Nat := do
  let s ← get
  match xlate s g.buf g.asid g.root va w g.priv n with
  | .error f => throw f
  | .ok p =>
    set (tlbFill s g.buf g.asid g.root va)
    pure p

/-- Read bytes at a physical address that the agent names `a` (R163, R169). -/
def readPhys (pa n : Nat) (a : Word) : Acc Nat := do
  let s ← get
  if inControl pa then pure (spaceRead s pa).toNat
  else match s.badIn pa n with
    | some b => throw (0x27, a + w64 b - w64 pa)
    | none =>
      set (s.touch pa n)
      pure (s.rd pa n)

/-- The lowest erroneous word of which a write covers only a part (R196). -/
def partBad (s : State) (pa n : Nat) : Option Nat :=
  s.bad.find? fun b => decide (pa < b + 8 ∧ b < pa + n ∧ ¬(pa ≤ b ∧ b + 8 ≤ pa + n))

/-- Write bytes at a physical address. -/
def writePhys (pa v n : Nat) (a : Word) : Acc Unit := do
  let s ← get
  if inControl pa then pure ()
  else match partBad s pa n with
    | some b => throw (0x27, a + w64 b - w64 pa)
    | none => set ((s.touch pa n).wr pa v n)

/-- A word of the management block that a host write alone changes: BOOTLEN, SVBASE and SVCNT (R445). -/
def hostOnly (pa : Nat) : Bool := decide (pa = mgmtSpace + 8 ∨ pa = mgmtSpace + 0x60 ∨ pa = mgmtSpace + 0x68)

/-- An agent's write. A control-space word is written at the end of the clk, in the order of its source's writes (R160, R162);
one that the host alone changes ignores the others (R445). -/
def writeBy (g : Agent) (pa v n : Nat) (a : Word) : Acc Unit := do
  let s ← get
  if hostOnly pa && !g.host then pure ()
  else if inControl pa then
    match blockRefuse s pa (w64 v) with
    | some code => throw (code, a)
    | none => set { s with ctlw := s.ctlw ++ ((spaceEvent pa (w64 v)).map fun e => (if g.host then hostSrc else g.n, e)).toList }
  else writePhys pa v n a

/-- Cut a range at 64 KiB boundaries, so that no piece crosses a page (R168). -/
def pieces (a n : Nat) : Nat → List (Nat × Nat)
  | 0 => []
  | f + 1 =>
    if n = 0 then []
    else
      let k := min n (65536 - a % 65536)
      (a, k) :: pieces (a + k) (n - k) f

/-- The pieces of a range. -/
def piecesOf (a n : Nat) : List (Nat × Nat) := pieces a n (n / 65536 + 2)

/-- The width that a piece of an access shows to its page: a control-space access wider than its piece is none of 8 bytes
(R163). -/
def pieceWidth (n : Nat) (p : Nat × Nat) : Nat := if p.2 = n then n else 0

/-- Read n bytes of virtual memory (R168, R169). -/
def readVirt (g : Agent) (va : Word) (n : Nat) : Acc Nat :=
  (piecesOf va.toNat n).foldlM (fun v p => do
    let pa ← translate g (w64 p.1) .read (pieceWidth n p)
    let x ← readPhys pa p.2 (w64 p.1)
    pure (v + x <<< (8 * (p.1 - va.toNat)))) 0

/-- Write n bytes of virtual memory. -/
def writeVirt (g : Agent) (va : Word) (v n : Nat) : Acc Unit :=
  (piecesOf va.toNat n).forM fun p => do
    let pa ← translate g (w64 p.1) .write (pieceWidth n p)
    writeBy g pa (bits v (8 * (p.1 - va.toNat)) (8 * p.2)) p.2 (w64 p.1)

/-- A virtual word. -/
def readWord (g : Agent) (va : Word) : Acc Word := do pure (w64 (← readVirt g va 8))
def writeWord (g : Agent) (va v : Word) : Acc Unit := writeVirt g va v.toNat 8

/-! ## Endpoints (R267) -/

/-- The bits that a kind of endpoint uses. -/
def epMask (k : Nat) : Nat :=
  match k with
  | 0 => 2 ^ 56 - 1
  | 1 => 2 ^ 29 - 1
  | 2 => 15
  | 3 => 2 ^ 40 - 1 + 7 * 2 ^ 56
  | 4 => 2 ^ 48 - 1
  | _ => 0

/-- A reserved endpoint kind, one that the operation does not take, or a nonzero bit that the kind does not use. -/
def epBad (a : Word) (ks : List Nat) : Bool :=
  !ks.contains (ek a) || decide (a.toNat - a.toNat % 2 ^ 60 ≠ ek a * 2 ^ 60) ||
    decide (a.toNat % 2 ^ 60 &&& epMask (ek a) ≠ a.toNat % 2 ^ 60)

/-- A vault endpoint's quad and the lowest offset outside the arena of a range (R169). -/
def vaultOut (c : Ctx) (a : Word) (off : Int) (n : Nat) : Option Flt :=
  let o : Int := (fld a 0 23 : Int) + off
  let base : Int := (fld a 23 6 * 2 ^ 23 : Nat)
  if n = 0 then none
  else if o < 0 ∨ c.quads.length ≤ fld a 23 6 then some (0x20, w64 (wrap 64 (base + o)))
  else if (arenaBytes c : Int) < o + n then some (0x20, w64 (wrap 64 (base + max o (arenaBytes c))))
  else none

/-- Physical address and name of `n` bytes at an offset from an endpoint of kind 0, 1 or 4; `width` is what the access
shows to control space. -/
def epAddr (g : Agent) (a : Word) (off : Int) (n width : Nat) (w : Want) : Acc (Nat × Word) :=
  match ek a with
  | 0 => do
    let va : Int := (fld a 0 56 : Int) + off
    faultIf (decide (va < 0 ∨ 2 ^ 56 < va + n)) 0x22 (w64 (wrap 64 va))
    let pa ← translate g (w64 va.toNat) w width
    pure (pa, w64 va.toNat)
  | 1 =>
    match vaultOut g.img a off n with
    | some f => throw f
    | none =>
      let o := ((fld a 0 23 : Int) + off).toNat
      pure (crewPA g.img g.n (fld a 23 6) o, w64 (fld a 23 6 * 2 ^ 23 + o))
  | _ => do
    let pa : Int := (fld a 0 48 : Int) + off
    let p := pa.toNat
    faultIf (inControl p && decide (width ≠ 8 ∨ p % 8 ≠ 0)) 0x25 (w64 (wrap 64 pa))
    faultIf (decide (pa < 0) || !(inHbm p n || decide (0xF00000000000 ≤ p ∧ p + n ≤ 0xF00080000000) || inControl p)) 0x26
      (w64 (wrap 64 pa))
    pure (p, w64 p)

/-- The bytes from an address up to the page end that hold a range's first piece. -/
def epPieces (a : Word) (off : Int) (n : Nat) : List (Nat × Nat) :=
  (piecesOf (wrap 64 ((fld a 0 (if ek a = 0 then 56 else 48) : Int) + off)) n).map fun p =>
    (p.1 - wrap 64 ((fld a 0 (if ek a = 0 then 56 else 48) : Int) + off), p.2)

/-- Read n bytes at an offset from an endpoint. -/
def readEp (g : Agent) (a : Word) (off : Int) (n : Nat) : Acc Nat :=
  (epPieces a off n).foldlM (fun v p => do
    let x ← epAddr g a (off + p.1) p.2 (pieceWidth n p) .read
    let y ← readPhys x.1 p.2 x.2
    pure (v + y <<< (8 * p.1))) 0

/-- Write n bytes at an offset from an endpoint of kind 0, 1 or 4. -/
def writeEp (g : Agent) (a : Word) (off : Int) (v n : Nat) : Acc Unit :=
  (epPieces a off n).forM fun p => do
    let x ← epAddr g a (off + p.1) p.2 (pieceWidth n p) .write
    writeBy g x.1 (bits v (8 * p.1) (8 * p.2)) p.2 x.2

/-! ## Go moves (R70, R264, R266) -/

/-- The first checks of R266 on a go word. -/
def goNotes (s : State) (t : Word) : List Note :=
  [trapIf (decide (6 ≤ fld t 0 3)) 0x09 (w64 (fld t 0 3)),
    trapIf ((goTok t).any fun k => decide ((s.iss.ctx.tok k).st = .pending)) 0x0B (w64 (fld t 56 4)),
    trapIf (t.getLsbD 63) 0x0A t]

/-- The command that a trigger captures (R38, R264). -/
def newCmd (c : Ctx) (id fu port : Nat) (go : Word) : Cmd :=
  { id := id, fu := fu, port := port, a0 := c.portW fu 0, a1 := c.portW fu 1, a2 := c.portW fu 2, a3 := c.portW fu 3,
    go := go, fmt := c.inf.fmtEff, asid := c.ctl.asid, ptroot := c.ctl.ptroot, priv := c.ctl.priv, row := 0, shape := [],
    bound := 0, done := 0, chunk := 0, flg := 0, st := .waiting, aux := 0, after := []
    held := none }

/-- Enter a command at the tail of a queue; its token is unwritten from then on. -/
def Ctx.enter (c : Ctx) (q : Cmd) (tok : Option Nat) : Ctx :=
  (match tok with | some t => c.tokPend t | none => c).setQueue q.fu (c.queue q.fu ++ [q])

/-- A go move: it blocks on a full queue; `chk` are the checks of its unit, `tok` its token, `fix` completes the
command and `eff` is what else it does at issue. -/
def goMove (fu port : Nat) (blk chk : List Note) (tok : Option Nat) (fix : Val → Cmd → Cmd) (eff : Val → State → State)
    (g : BitVec 4) (src : BitVec 9) (s : State) : Out :=
  let c := s.iss.ctx
  trigger fu port 1 2 true ([blockIf (queueFull c fu)] ++ blk) chk g src (fun v s =>
    let (id, s) := fresh s
    let open' := openIds s s.iss.n c ++ c.creqs.map (·.id)
    eff v (onCtx (fun x => x.enter { fix v (newCmd c id fu port v.word) with after := open' } tok) s)) s

/-! ## The end and the faults of a command (R277, R279) -/

/-- Is an image's head command of a unit in service? -/
def inService (fu : Nat) (c : Ctx) : Bool :=
  match (c.queue fu).head? with
  | some q => q.st = .running
  | none => false

/-- The image of context n whose head command of a unit is in service, with that command. -/
def served (s : State) (n fu : Nat) : Option (Ctx × Cmd) :=
  match findImage s n (inService fu) with
  | some c => (c.queue fu).head?.map fun q => (c, q)
  | none => none

/-- Change the image whose command is in service. -/
def onServed (s : State) (n fu : Nat) (f : Ctx → Ctx) : State := updImage s n (inService fu) f

/-- Change the head command of a queue. -/
def Ctx.updCmd (c : Ctx) (fu : Nat) (f : Cmd → Cmd) : Ctx :=
  match c.queue fu with
  | [] => c
  | q :: l => c.setQueue fu (f q :: l)

/-- A command in service ends with a token value. -/
def endServed (s : State) (n fu : Nat) (tok : Option Nat) (v : Word) : State :=
  onServed s n fu fun c => match (c.queue fu).head? with
    | some q => c.endCmd q tok v
    | none => c

/-- Put a command in service back: it is served again later. -/
def putBack (s : State) (n fu : Nat) : State := onServed s n fu fun c => c.updCmd fu fun q => { q with st := .waiting }

/-- A command in service meets a fault: it stops there and the fault is delivered (R279). -/
def faultServed (s : State) (n fu code : Nat) (v : Word) : State :=
  if code = 0 then putBack s n fu
  else
    let live := inService fu (s.ctx n)
    let f (c : Ctx) : Ctx :=
      let c := c.updCmd fu fun q => { q with st := .faulted code v }
      if live then c else { c with delivered := c.delivered ++ [(code, v, fu)] }
    let s := onServed s n fu f
    if live then deliverFault s n code v fu else s

/-- Translate and post an engine's counter add (R277, R392). -/
def postAdd (g : Agent) (src : ReqSrc) (va : Word) (k : Nat) : Acc Unit := do
  let pa ← translate g va .add 8
  let s ← get
  set (postReq s src va pa (w64 k)).2

/-! ## Service -/

/-- May a context's queue be served: its member is not to stop for a pre-emption and not killed, and the queue is not fenced
(R285, R424, R426, R429)? -/
def queueServed (c : Ctx) (fu : Nat) : Bool :=
  (c.st = .running || c.st = .draining || c.st = .inspect || c.st = .frozenV) && !c.stopDist && !c.doomed &&
    !KMap.get false c.qfence fu

/-- Is a command ordered after its context's earlier accesses: an engine go with the acquire flag, a commit, `sk.pidx`,
`sk.pins`, a launch, a pattern load, an unpick, a shoot-down (R176, R230, R233, R255, R319, R343, R377)? -/
def ordersAfter (q : Cmd) : Bool :=
  (q.fu ≤ 20 && q.go.getLsbD 61) || q.fu = 24 || (q.fu = 25 && q.port = 4) || (q.fu = 23 && q.port = 7) || q.fu = 26 ||
    (q.fu = 22 && (q.port = 6 || q.port = 10 || q.port = 11))

/-- Is a counter add of a command of context n still to be performed (R277)? -/
def engineAdds (s : State) (n : Nat) : Bool :=
  s.reqs.any fun p => match p.2.src with | .engine m _ => decide (m = n) | _ => false

/-- Has a member that quits drained (R320): its results, accesses, requests and commands but the quit itself? -/
def drained (s : State) (n : Nat) (c : Ctx) : Bool :=
  c.st = .draining && c.inf.flights = [] && c.inf.jobs = [] && c.inf.fmtPend = [] && c.inf.cbAdv = [] && c.accs = [] &&
    c.lats = [] && c.ctl.old = 0 && c.ctl.ost = 0 && c.creqs = [] && c.reports = [] && c.baste.stages = [] &&
    c.delivered = [] && (c.queues.all fun p => decide (p.1 = 24) || p.2 = []) &&
    !((s.core (coreOf n)).matrix.step.any fun m => m.n = n) && !engineAdds s n

/-- Has the context copies of the engines before a pattern load to complete (R343)? -/
def copiesAhead (c : Ctx) (q : Cmd) : Bool :=
  q.fu = 25 && q.port = 4 && [16, 17, 18, 19].any fun fu => (c.queue fu).any fun x => decide (x.id < q.id)

/-- Does the head of a queue of context n wait for service, with the accesses before it performed? -/
def headWaits (s : State) (n fu : Nat) : Bool :=
  let c := s.ctx n
  match (c.queue fu).head? with
  | some q => q.st = .waiting && queueServed c fu && !(fu = 23 && c.baste.stages.any fun e => e.id ≤ q.id) &&
      (q.fu ≠ 24 || q.port ≠ 5 || drained s n c) && !copiesAhead c q &&
      !(ordersAfter q && q.after.any fun i => (openIds s n c).contains i || c.creqs.any fun r => r.id = i)
  | none => false

/-! ## What a command of CE, GE or WE is to write (R268, R269, R272, R273) -/

def ceSF (a3 : Word) : Nat := fld a3 0 4
def ceDF (a3 : Word) : Nat := fld a3 4 4
def cePM (a3 : Word) : Nat := fld a3 8 2

/-- One used dimension: CNT, PADLO, PADHI and the strides. -/
structure Dim where
  cnt : Nat
  lo : Nat
  hi : Nat
  ss : Int
  ds : Int
  deriving DecidableEq, Repr

/-- The used dimensions of a shape descriptor (R269). -/
def dimsOf (w : List Word) : List Dim :=
  (List.range (fld (wordAt w 0) 0 3 + 1)).map fun d =>
    let x := wordAt w (1 + 3 * d)
    ⟨fld x 0 32, fld x 32 16, fld x 48 16, (wordAt w (2 + 3 * d)).toInt, (wordAt w (3 + 3 * d)).toInt⟩

/-- Positions of a dimension that the copy visits for written element indices: the data alone where padding is
skipped. -/
def Dim.ext (d : Dim) (pm : Nat) : Nat := if pm = 1 then d.lo + d.cnt + d.hi else d.cnt

/-- Elements that a copy writes. -/
def ceCount (ds : List Dim) (pm : Nat) : Nat := ds.foldl (fun n d => n * d.ext pm) 1

def geRB (a3 : Word) : Nat := fld a3 0 20
def geN (a3 : Word) : Nat := fld a3 20 24
def geIW (a3 : Word) : Nat := 4 * 2 ^ fld a3 44 1

def skgF (a0 : Word) : Nat := fld a0 8 40
def skgN (a2 : Word) : Nat := fld a2 0 40
def skgOff (a3 : Word) : Nat := fld a3 0 16
def skgLen (a3 : Word) : Nat := fld a3 16 17
/-- Bytes of a command's next chunk (R276). -/
def chunkBytes (q : Cmd) : Nat :=
  match q.fu, q.port with
  | 16, 4 => min 2048 (ceCount (dimsOf q.shape) (cePM q.a3) * codeBytes (ceDF q.a3) - q.done)
  | 16, _ => min 2048 (fld q.a2 0 40 - q.done)
  | 17, 4 => min 2048 (geRB q.a3 * geN q.a3 - q.done)
  | 17, _ =>
    let b := (wordAt q.shape 1).toNat
    min (skgN q.a2 * skgLen q.a3 - q.done) ((b - (skgF q.a0 + q.done / skgLen q.a3) % b) * skgLen q.a3)
  | _, _ => 1056

/-- Does an endpoint of context n's command lie in HBM or on another die (R62)? -/
def isFar (n : Nat) (a : Word) : Bool :=
  match ek a with
  | 1 | 2 => false
  | 4 => decide (fld a 31 17 ≠ 0x1E000 ∨ fld a 29 2 ≠ dieOf n)
  | _ => true

/-- The longest service of the next piece of context n's command in clks (R62): its first, or a further chunk. -/
def serviceBound (n : Nat) (q : Cmd) : Nat :=
  let far := isFar n q.a0 || isFar n q.a1 || (q.fu = 17 && isFar n q.a2)
  let k := chunkBytes q
  let first (b : Nat) : Nat := if q.done = 0 ∧ q.chunk = 0 then b else 0
  match q.fu, q.port with
  | 16, 5 => first 1200 + k / 32
  | 17, 5 => first 1600 + 40 + k / 64
  | 16, _ => first (if far then 1200 else 200) + k / 64
  | 17, _ => first (if far then 1200 else 200) + k / 64
  | 18, _ => first (if far then 1200 else 200) + k / 64
  | 19, 4 => if q.aux = 0 then 300 else 1
  | 19, _ => 500
  | 20, _ => 12
  | 22, _ => 700
  | 23, 7 => if q.chunk = 0 then 1 else 29
  | 23, _ => 60
  | 24, 5 => 64
  | 24, _ => 300
  | 25, 4 => 2000
  | 25, 5 => 100
  | 25, _ => 400
  | _, _ => 1000

/-- Is a command a request to a home, the distributor, the pattern loader or the buffers (R302)? -/
def isRequest (q : Cmd) : Bool :=
  q.fu = 22 || (q.fu = 23 && q.port = 4) || (q.fu = 24 && q.port = 4) || q.fu = 25 || q.fu = 26

/-- The home of an SK command or of `bl.bast`: that of its descriptor's first line, or of its index (R221, R253, R385). -/
def skHome (s : State) (n : Nat) (c : Ctx) (q : Cmd) : Nat :=
  let g := (cmdAgent n c q).home
  if q.fu ≠ 22 ∧ q.fu ≠ 23 then 0
  else match xlate s g.buf g.asid g.root (if q.fu = 22 ∧ (q.port = 10 ∨ q.port = 11) then q.a1 else q.a3) .read g.priv 8 with
    | .ok pa => pa
    | .error _ => 0

/-- Take the head of a queue into service; a request is sent on its way (R302). Another command's next piece leaves a quarter of
its bound for the banks that it may have to wait for (R62). -/
def serve (s : State) (n fu : Nat) : State :=
  match ((s.ctx n).queue fu).head? with
  | none => s
  | some q =>
    let s := s.updCtx n fun c => c.updCmd fu fun q => { q with st := .running }
    if isRequest q then postAs s q.id (.queue n fu) q.a3 (skHome s n (s.ctx n) q) (w64 (serviceBound n q))
    else s.within 1 (max 1 (serviceBound n q - serviceBound n q / 4)) (queueEvent n q)

/-- REQUEST_TIMEOUT (R302): no reply 8,192 clks after sending. It is sent again up to three times; then the
fabric-timeout fault is raised. Also the fate of one that failed (R423). -/
def execRequestTimeout (id : Nat) (s : State) : Out :=
  match s.req id with
  | none => .next s
  | some r =>
    if r.tries = 0 then .next (endFate s id r)
    else if r.answered || decide (s.clk < r.sentAt + 8192) then .next s
    else if r.tries < 4 then .next (sendReq s id r)
    else match r.src with
      | .queue n fu =>
        .next (if (reqCmd s id n fu).isSome then faultServed (dropReq s id) n fu 0x3D r.va else dropReq s id)
      | _ => .next (failReq s id r 0x3D)

/-- Is an engine of core c free? -/
def engineIdle (s : State) (c fu : Nat) : Bool :=
  !([0, 1, 2, 3].any fun i => inService fu (s.ctx (4 * c + i)))

/-- Engine `fu` of core c takes its next chunk, from the four queues in turn (R264). -/
def serveEngine (s : State) (c fu : Nat) : State :=
  let p := KMap.get 0 (s.core c).turn fu
  match ([0, 1, 2, 3].map fun i => (p + i) % 4).find? fun i => headWaits s (4 * c + i) fu with
  | none => s
  | some i =>
    if engineIdle s c fu then
      (serve s (4 * c + i) fu).updCore c fun k => { k with turn := KMap.put k.turn fu ((i + 1) % 4) }
    else s

/-- The queues of core c at the end of a clk: each idle engine, and each idle queue of the other units. -/
def serveCore (s : State) (c : Nat) : State :=
  let s := [16, 17, 18, 19].foldl (fun s fu => serveEngine s c fu) s
  [0, 1, 2, 3].foldl (fun s i =>
    ((s.ctx (4 * c + i)).queues.filter fun p => 20 ≤ p.1 && headWaits s (4 * c + i) p.1).foldl
      (fun s p => serve s (4 * c + i) p.1) s) s

end Sys2Proof.Machine
end

