-- ==== Sys2Proof/Machine/Skein.lean ====
section
/-!
DEFINITION. Skeins: descriptors, pools and the inverted block table (R220-R224, R380-R383), the prefix index (R385,
R386), fills and gathers (R236), and the SK unit (R225-R238).
-/

namespace Sys2Proof.Machine

/-! ## Descriptors (R220) -/

/-- A skein descriptor as read: its virtual address and words w0-w8. -/
structure Desc where
  va : Word
  w : List Word
  deriving DecidableEq, Repr

def Desc.id (d : Desc) : Nat := fld (wordAt d.w 0) 0 24
def Desc.slog (d : Desc) : Nat := fld (wordAt d.w 0) 24 4
def Desc.blog (d : Desc) : Nat := fld (wordAt d.w 0) 28 2
def Desc.valid (d : Desc) : Bool := (wordAt d.w 0).getLsbD 32
def Desc.rel (d : Desc) : Bool := (wordAt d.w 0).getLsbD 33
def Desc.logk (d : Desc) : Bool := (wordAt d.w 0).getLsbD 34
def Desc.tcv (d : Desc) : Bool := (wordAt d.w 0).getLsbD 35
def Desc.depth (d : Desc) : Nat := fld (wordAt d.w 0) 36 3
def Desc.clen (d : Desc) : Nat := fld (wordAt d.w 1) 0 40
def Desc.rlen (d : Desc) : Nat := fld (wordAt d.w 2) 0 40
def Desc.limit (d : Desc) : Nat := fld (wordAt d.w 3) 0 40
def Desc.parent (d : Desc) : Word := w64 (fld (wordAt d.w 4) 0 56)
def Desc.forkpt (d : Desc) : Nat := fld (wordAt d.w 5) 0 40
def Desc.pool (d : Desc) : Word := w64 (fld (wordAt d.w 6) 0 56)
def Desc.tcaddr (d : Desc) : Word := w64 (fld (wordAt d.w 7) 0 56)
/-- Slots of a block and bytes of a slot. -/
def Desc.b (d : Desc) : Nat := 8 * 2 ^ d.blog
def Desc.slot (d : Desc) : Nat := 2 ^ (d.slog + 6)

/-- The words of a number read from memory. -/
def wordsOf (v n : Nat) : List Word := (List.range n).map fun i => w64 (v >>> (64 * i))

/-- The descriptor at an address (R220). -/
def readDesc (g : Agent) (va : Word) : Acc Desc := do
  faultIf (decide (va.toNat % 1024 ≠ 0)) 0x30 va
  let v ← readVirt g va 72
  pure ⟨va, wordsOf v 9⟩

/-- The address of word i of a descriptor. -/
def Desc.word (d : Desc) (i : Nat) : Word := d.va + w64 (8 * i)

/-- Change a word of memory. -/
def updWord (g : Agent) (va : Word) (f : Word → Word) : Acc Unit := do
  let w ← readWord g va
  writeWord g va (f w)

/-- The checks of R221 and R237 that an operation makes at its start on the descriptor it names. -/
def checkStart (d : Desc) : Acc Unit :=
  faultIf (!d.valid || decide (10 < d.slog ∨ d.rlen < d.clen ∨ d.clen + 4096 < d.rlen ∨ d.limit < d.rlen)) 0x30 d.va

/-- The same with the test of REL (R237). -/
def checkDesc (d : Desc) : Acc Unit := do
  checkStart d
  faultIf d.rel 0x30 d.va

/-! ## Pools and the inverted block table (R223, R380-R382) -/

/-- A block pool as read, with its physical address. -/
structure Pool where
  va : Word
  pa : Nat
  w : List Word
  deriving DecidableEq, Repr

def Pool.base (p : Pool) : Nat := fld (wordAt p.w 0) 0 48
def Pool.nblk (p : Pool) : Nat := fld (wordAt p.w 1) 0 32
def Pool.free (p : Pool) : Nat := fld (wordAt p.w 2) 0 32
def Pool.nfree (p : Pool) : Nat := fld (wordAt p.w 3) 0 32
def Pool.bblog (p : Pool) : Nat := fld (wordAt p.w 4) 0 5
def Pool.ibt (p : Pool) : Word := w64 (fld (wordAt p.w 5) 0 56)
/-- Physical address of block k. -/
def Pool.block (p : Pool) (k : Nat) : Nat := p.base + k * 2 ^ p.bblog
/-- Address of word i of the table entry k. -/
def Pool.ent (p : Pool) (k i : Nat) : Word := p.ibt + w64 (32 * k + 8 * i)

def noBlock : Nat := 0xFFFFFFFF

/-- The pool of a descriptor. -/
def loadPool (g : Agent) (d : Desc) : Acc Pool := do
  let pa ← translate g d.pool .read 64
  let v ← readVirt g d.pool 48
  pure ⟨d.pool, pa, wordsOf v 6⟩

/-- The pool of a descriptor that an SK operation names, with the shape check of R223. -/
def readPool (g : Agent) (d : Desc) : Acc Pool := do
  let p ← loadPool g d
  faultIf (decide (d.slog + 9 + d.blog ≠ p.bblog)) 0x33 d.va
  pure p

/-- The home position of (ID, j) (R381). -/
def Pool.hpos (p : Pool) (id j : Nat) : Nat :=
  (rsdHash (BitVec.ofNat 32 id) (BitVec.ofNat 32 j) (BitVec.ofNat 32 (bits j 32 8))).toNat % p.nblk

/-- Words w0 and w1 of a table entry name an owner, a logical block, a count and USED. -/
def entNames (w0 w1 : Word) (id j : Nat) : Bool := w1.getLsbD 16 && decide (fld w0 0 24 = id ∧ fld w0 24 40 = j)

/-- Words w0 and w1 of the table entry k, read as one access: its fault names the entry (R470). -/
def readEnt (g : Agent) (p : Pool) (k : Nat) : Acc (Word × Word) := do
  let v ← readVirt g (p.ent k 0) 16
  pure (w64 v, w64 (v >>> 64))

/-- Does block k hold (ID, j)? -/
def blockIs (g : Agent) (p : Pool) (k id j : Nat) : Acc Bool := do
  let (w0, w1) ← readEnt g p k
  pure (entNames w0 w1 id j)

/-- The eight hash slots of a lookup. -/
def findHash (g : Agent) (p : Pool) (id j h : Nat) : List Nat → Acc (Option Nat)
  | [] => pure none
  | q :: l => do
    let (_, w1) ← readEnt g p ((h + q) % p.nblk)
    if w1.getLsbD 18 then
      if ← blockIs g p (fld w1 32 32) id j then pure (some (fld w1 32 32)) else findHash g p id j h l
    else findHash g p id j h l

/-- The overflow list of a lookup. -/
def findOver (g : Agent) (p : Pool) (id j : Nat) : Nat → Nat → Acc (Option Nat)
  | 0, _ => pure none
  | f + 1, k => do
    if k = noBlock then pure none
    else if ← blockIs g p k id j then pure (some k)
    else
      let w2 ← readWord g (p.ent k 2)
      findOver g p id j f (fld w2 0 32)

/-- A lookup in the table (R381). -/
def findBlock (g : Agent) (p : Pool) (id j : Nat) : Acc Nat := do
  let bad : Flt := (0x22, w64 (id * 2 ^ 40 + j))
  if p.nblk = 0 then throw bad
  else
    match ← findHash g p id j (p.hpos id j) [0, 1, 2, 3, 4, 5, 6, 7] with
    | some k => pure k
    | none =>
      let w2 ← readWord g (p.ent (p.hpos id j) 2)
      match ← findOver g p id j p.nblk (fld w2 32 32) with
      | some k => pure k
      | none => throw bad

/-- The skein whose own table entry holds logical block j: itself or an ancestor (R222, R381). -/
def ownerOf (g : Agent) (d : Desc) (j : Nat) : Nat → Desc → Acc Desc
  | 0, _ => throw (0x30, d.va)
  | f + 1, x => do
    if x.parent ≠ 0 ∧ j < x.forkpt / x.b then
      let y ← readDesc g x.parent
      ownerOf g d j f y
    else pure x

/-- Logical block j of a skein: its physical block and the skein that owns it (R222). The buffer keeps the
entry: 256 in a quad's, 1,024 in the base die's (R372). -/
def resolve (g : Agent) (d : Desc) (p : Pool) (j : Nat) : Acc (Nat × Desc) := do
  let o ← ownerOf g d j 8 d
  let s ← get
  match s.skb.find? fun e => e.buf = g.buf && e.pool = p.pa && e.id.toNat = o.id && e.lb = j with
  | some e => pure (e.blk, o)
  | none =>
    let k ← findBlock g p o.id j
    modify fun s => { s with
      free := s.free + 1
      skb := replaceIn (fun e => e.buf = g.buf) (if g.buf < 256 then 256 else 1024) (Config.freeNat s.free) s.skb
        ⟨g.buf, p.pa, BitVec.ofNat 24 o.id, j, k⟩ }
    pure (k, o)

/-- Remove cached skein blocks (R376, R383). -/
def shootBlocks (s : State) (hit : SkbEnt → Bool) : State := { s with skb := s.skb.filter fun e => !hit e }

/-- Enter block k for (ID, j) into the table (R382). -/
def insertBlock (g : Agent) (p : Pool) (k id j : Nat) : List Nat → Acc Unit
  | [] => do
    let h := p.hpos id j
    let o ← readWord g (p.ent h 2)
    updWord g (p.ent k 2) fun w => setFld w 0 32 (fld o 32 32)
    updWord g (p.ent h 2) fun w => setFld w 32 32 k
    updWord g (p.ent k 1) fun w => setFld w 17 1 1
    updWord g (p.ent k 3) fun w => setFld w 0 32 h
  | q :: l => do
    let i := (p.hpos id j + q) % p.nblk
    let w1 ← readWord g (p.ent i 1)
    if w1.getLsbD 18 then insertBlock g p k id j l
    else
      updWord g (p.ent i 1) fun w => setFld (setFld w 18 1 1) 32 32 k
      updWord g (p.ent k 1) fun w => setFld w 17 1 0
      updWord g (p.ent k 3) fun w => setFld w 0 32 i

/-- Allocate a block for logical block j of a skein (R223, R382): the pool as it then stands, and the block. -/
def allocBlock (g : Agent) (d : Desc) (p : Pool) (j : Nat) : Acc (Pool × Nat) := do
  let k := p.free
  faultIf (decide (p.nfree = 0 ∨ k = noBlock)) 0x34 p.va
  let nx ← readPhys (p.block k) 8 (w64 (p.block k))
  let p' : Pool := { p with w := (p.w.set 2 (setFld (wordAt p.w 2) 0 32 nx)).set 3 (setFld (wordAt p.w 3) 0 32 (p.nfree - 1)) }
  writeWord g (p.va + 16) (wordAt p'.w 2)
  writeWord g (p.va + 24) (wordAt p'.w 3)
  writeWord g (p.ent k 0) (w64 (d.id + j * 2 ^ 24))
  updWord g (p.ent k 1) fun w => setFld (setFld w 0 16 1) 16 1 1
  insertBlock g p k d.id j [0, 1, 2, 3, 4, 5, 6, 7]
  updWord g (d.word 8) fun w => setFld w 0 32 (fld w 0 32 + 1)
  pure (p', k)

/-- Allocate blocks for logical blocks j, j + 1, … -/
def allocBlocks (g : Agent) (d : Desc) : Nat → Pool → Nat → Acc Unit
  | 0, _, _ => pure ()
  | n + 1, p, j => do
    let (p, _) ← allocBlock g d p j
    allocBlocks g d n p (j + 1)

/-- Unlink block k from an overflow list, from list member i on. -/
def unlinkOver (g : Agent) (p : Pool) (k nx : Nat) : Nat → Nat → Acc Unit
  | 0, _ => pure ()
  | f + 1, i => do
    let w2 ← readWord g (p.ent i 2)
    if fld w2 0 32 = k then writeWord g (p.ent i 2) (setFld w2 0 32 nx)
    else if fld w2 0 32 = noBlock then pure ()
    else unlinkOver g p k nx f (fld w2 0 32)

/-- Free block k, which skein `o` owned (R223, R382). -/
def freeBlock (g : Agent) (o : Desc) (p : Pool) (k : Nat) : Acc Unit := do
  let w1 ← readWord g (p.ent k 1)
  let w2 ← readWord g (p.ent k 2)
  let w3 ← readWord g (p.ent k 3)
  let h := fld w3 0 32
  if w1.getLsbD 17 then
    let o2 ← readWord g (p.ent h 2)
    if fld o2 32 32 = k then writeWord g (p.ent h 2) (setFld o2 32 32 (fld w2 0 32))
    else unlinkOver g p k (fld w2 0 32) p.nblk (fld o2 32 32)
  else updWord g (p.ent h 1) fun w => setFld w 18 1 0
  updWord g (p.ent k 1) fun w => setFld w 0 18 0
  let f ← readWord g (p.va + 16)
  let n ← readWord g (p.va + 24)
  writePhys (p.block k) (fld f 0 32) 8 (w64 (p.block k))
  writeWord g (p.va + 16) (setFld f 0 32 k)
  writeWord g (p.va + 24) (setFld n 0 32 (fld n 0 32 + 1))
  updWord g (o.word 8) fun w => setFld w 0 32 (fld w 0 32 - 1)

/-! ## Slots (R222, R236) -/

/-- Physical address of slot i of a skein. -/
def slotPA (g : Agent) (d : Desc) (p : Pool) (i : Nat) : Acc Nat := do
  let (k, _) ← resolve g d p (i / d.b)
  let a := p.block k + i % d.b * d.slot
  faultIf (!inHbm a d.slot) 0x26 (w64 a)
  pure a

/-- Is slot i committed in BMAP? -/
def bmapBit (g : Agent) (d : Desc) (i : Nat) : Acc Bool := do
  let w ← readWord g (d.word (16 + i % 4096 / 64))
  pure (w.getLsbD (i % 64))

/-- Read n bytes of slot i from byte `off` of it (R236, R273). -/
def readSlot (g : Agent) (da : Word) (i off n : Nat) : Acc Nat := do
  let g := { g with priv := true }
  let d ← readDesc g da
  faultIf (decide (d.clen ≤ i)) 0x31 (w64 i)
  let p ← loadPool g d
  let a ← slotPA g d p i
  readPhys (a + off) n (w64 (a + off))

/-- Fill n bytes of slot i from byte `off` of it (R236). DEDUCED (log 51): a released descriptor, which R232 lets refuse the
fill, does so with the same fault. -/
def fillSlot (g : Agent) (da : Word) (i off v n : Nat) : Acc Unit := do
  let g := { g with priv := true }
  let d ← readDesc g da
  let c ← bmapBit g d i
  faultIf (c || d.rel || decide (i < d.clen ∨ d.rlen ≤ i)) 0x35 (w64 i)
  let p ← loadPool g d
  let a ← slotPA g d p i
  writePhys (a + off) v n (w64 (a + off))

/-! ## SK at issue (R226-R228) -/

def skTok (c : Word) : Option Nat := if c.getLsbD 4 then none else some (fld c 0 4)
def skScope (c : Word) : Nat := fld c 5 3
def skHnd (c : Word) : Nat := fld c 8 3

/-- The first checks of a control word with SCOPE, TOK and NTK (R227, R252, R375). -/
def ctlNotes (s : State) (c : Word) : List Note :=
  [trapIf (decide (6 ≤ skScope c)) 0x09 (w64 (skScope c)),
    trapIf ((skTok c).any fun k => decide ((s.iss.ctx.tok k).st = .pending)) 0x0B (w64 (fld c 0 4))]

/-- An SK trigger: `range` is its operand check, `named` whether it names a configured handle; `eff` its effect on the
handles at issue. The descriptor's address is captured as a3. -/
def skGo (port : Nat) (range : Note) (named : Bool) (more : List Note) (eff : Word → Ctx → Ctx) (g : BitVec 4)
    (src : BitVec 9) (s : State) : Out :=
  let c := s.iss.ctx
  let w := c.portW 22 2
  let h := skHnd w
  goMove 22 port [] (ctlNotes s w ++ [range, trapIf (named && !(c.sk h).cfg) 0x0D (w64 h)] ++ more) (skTok w)
    (fun v q => { q with a3 := if port = 4 then v.word else (c.sk h).desc.setWidth 64 })
    (fun v s => onCtx (eff v.word) s) g src s

/-- A handle bound to a descriptor address at issue (R225). -/
def bindSk (h : Nat) (a : Word) (c : Ctx) : Ctx :=
  c.setSk h { c.sk h with cfg := true, desc := a.setWidth 56, clen := 0 }

/-- Is a count outside 1 to 4,096? -/
def countBad (n : Word) : Bool := decide (n.toNat = 0 ∨ 4096 < n.toNat)

/-- SK_OPEN (R228, R233). -/
def execSkOpen (g : BitVec 4) (src : BitVec 9) (s : State) : Out :=
  skGo 4 .quiet false [] (fun v => bindSk (skHnd (s.iss.ctx.portW 22 2)) v) g src s

/-- SK_RES (R228, R229). -/
def execSkRes (g : BitVec 4) (src : BitVec 9) (s : State) : Out :=
  let t := tWord s src
  skGo 5 (trapIf (countBad t) 0x0A t) true [] (fun _ c => c) g src s

/-- SK_CMT (R228, R230). -/
def execSkCmt (g : BitVec 4) (src : BitVec 9) (s : State) : Out :=
  let a := s.iss.ctx.portW 22 0
  skGo 6 (trapIf (countBad a) 0x0A a) true [] (fun _ c => c) g src s

/-- SK_FORK (R228, R231): the child handle is bound at issue. -/
def execSkFork (g : BitVec 4) (src : BitVec 9) (s : State) : Out :=
  let t := tWord s src
  let c := s.iss.ctx
  let h := fld (c.portW 22 1) 0 3
  skGo 7 (trapIf (decide (2 ^ 40 ≤ t.toNat)) 0x0A t) true
    [trapIf (decide (h = skHnd (c.portW 22 2))) 0x0D (w64 h)] (fun _ => bindSk h (c.portW 22 0)) g src s

/-- SK_REL (R228, R232): the handle is unbound at issue. -/
def execSkRel (g : BitVec 4) (src : BitVec 9) (s : State) : Out :=
  let h := skHnd (s.iss.ctx.portW 22 2)
  skGo 8 .quiet true [] (fun _ c => c.setSk h { c.sk h with cfg := false }) g src s

/-- SK_LEN (R228, R233). -/
def execSkLen (g : BitVec 4) (src : BitVec 9) (s : State) : Out := skGo 9 .quiet true [] (fun _ c => c) g src s

/-- SK_PIDX (R228, R233). -/
def execSkPidx (g : BitVec 4) (src : BitVec 9) (s : State) : Out := skGo 10 .quiet false [] (fun _ c => c) g src s

/-- SK_PINS (R228, R233). -/
def execSkPins (g : BitVec 4) (src : BitVec 9) (s : State) : Out := skGo 11 .quiet false [] (fun _ c => c) g src s

/-- SK_CMPT (R228, R233). -/
def execSkCmpt (g : BitVec 4) (src : BitVec 9) (s : State) : Out :=
  let a := s.iss.ctx.portW 22 0
  skGo 12 (trapIf (decide (2 ^ 40 ≤ a.toNat)) 0x0A a) true [] (fun _ c => c) g src s

/-! ## SK at the homes (R229-R233) -/

/-- The descriptor that a command names, checked (R221, R237). -/
def cmdDesc (g : Agent) (q : Cmd) : Acc (Desc × Pool) := do
  let d ← readDesc g q.a3
  checkDesc d
  let p ← readPool g d
  pure (d, p)

/-- `sk.open` at the home: the CLEN that it completes with. -/
def skOpenAt (g : Agent) (q : Cmd) : Acc Desc := do
  let (d, _) ← cmdDesc g q
  faultIf (decide (d.id ≠ fld q.a0 0 24)) 0x30 d.va
  pure d

/-- `sk.res` at the home once the window holds it (R229): the base. The descriptor was checked on arrival. -/
def skResAt (g : Agent) (q : Cmd) : Acc Word := do
  let d ← readDesc g q.a3
  let p ← readPool g d
  let n := q.go.toNat
  let need := ceilDiv (d.rlen + n) d.b - ceilDiv d.rlen d.b
  faultIf (decide (p.nfree < need)) 0x34 p.va
  allocBlocks g d need p (ceilDiv d.rlen d.b)
  writeWord g (d.word 2) (setFld (wordAt d.w 2) 0 40 (d.rlen + n))
  pure (w64 d.rlen)

/-- Does the window hold the slots of a reservation (R229)? -/
def skResOpen (g : Agent) (q : Cmd) : Acc Bool := do
  let d ← readDesc g q.a3
  pure (decide (d.rlen + q.go.toNat ≤ d.clen + 4096))

/-- `sk.res` on its arrival: the checks that come before its window, which are made once (R229); may it be granted now? -/
def skResWindow (g : Agent) (q : Cmd) : Acc Bool := do
  let (d, _) ← cmdDesc g q
  let n := q.go.toNat
  faultIf d.logk 0x30 d.va
  faultIf (decide (d.limit < d.rlen + n)) 0x32 (w64 (d.rlen + n))
  skResOpen g q

/-- Set or clear the BMAP bit of a slot. -/
def setBmap (g : Agent) (d : Desc) (v i : Nat) : Acc Unit :=
  updWord g (d.word (16 + i % 4096 / 64)) fun w => setFld w (i % 64) 1 v

/-- The CLEN advance of R230: from `c` on, at most 4,096 slots. -/
def advanceClen (g : Agent) (d : Desc) : Nat → Nat → Acc Nat
  | 0, c => pure c
  | f + 1, c => do
    if ← bmapBit g d c then
      setBmap g d 0 c
      advanceClen g d f (c + 1)
    else pure c

/-- `sk.cmt` at the home (R230): the new CLEN. DESIGN CHOICE (log 51): the slot that a commit beyond RLEN reports (R237) is
its first at or above RLEN. -/
def skCmtAt (g : Agent) (q : Cmd) : Acc Word := do
  let (d, _) ← cmdDesc g q
  let f := q.go.toNat
  let m := q.a0.toNat
  faultIf (d.logk || decide (f < d.clen)) 0x30 d.va
  let set ← (List.range (min m (d.clen + 4096 - f))).anyM fun i => bmapBit g d (f + i)
  faultIf set 0x30 d.va
  faultIf (decide (d.rlen < f + m)) 0x31 (w64 (max f d.rlen))
  (List.range m).forM fun i => setBmap g d 1 (f + i)
  let c ← advanceClen g d 4096 d.clen
  writeWord g (d.word 1) (setFld (wordAt d.w 1) 0 40 c)
  pure (w64 c)

/-- Add `k` to the reference count of a block (R224). -/
def addCount (g : Agent) (p : Pool) (b : Nat) : Acc Unit := do
  let w ← readWord g (p.ent b 1)
  faultIf (decide (fld w 0 16 = 65535)) 0x32 (w64 b)
  writeWord g (p.ent b 1) (setFld w 0 16 (fld w 0 16 + 1))

/-- `sk.fork` at the parent's home (R231): the child as read. -/
def skForkAt (g : Agent) (q : Cmd) : Acc Desc := do
  let d ← readDesc g q.a3
  checkStart d
  let p ← readPool g d
  let k := q.go.toNat
  let c ← readDesc g q.a0
  faultIf (!c.valid || c.rel || decide (c.rlen ≠ 0 ∨ c.parent ≠ 0 ∨ c.slog ≠ d.slog ∨ c.blog ≠ d.blog ∨ c.pool ≠ d.pool))
    0x33 c.va
  faultIf (decide (d.depth = 7)) 0x33 d.va
  faultIf d.rel 0x30 d.va
  faultIf (decide (d.clen < k)) 0x31 (w64 k)
  (List.range (k / d.b)).forM fun j => do
    let (b, _) ← resolve g d p j
    addCount g p b
  if k % d.b ≠ 0 then
    let (o, _) ← resolve g d p (k / d.b)
    let (p, b) ← allocBlock g c p (k / d.b)
    let n := k % d.b * d.slot
    let v ← readPhys (p.block o) n (w64 (p.block o))
    writePhys (p.block b) v n (w64 (p.block b))
  writeWord g (c.word 4) (setFld (wordAt c.w 4) 0 56 d.va.toNat)
  writeWord g (c.word 5) (setFld (wordAt c.w 5) 0 40 k)
  writeWord g (c.word 0) (setFld (wordAt c.w 0) 36 3 (d.depth + 1))
  writeWord g (c.word 1) (setFld (wordAt c.w 1) 0 40 k)
  writeWord g (c.word 2) (setFld (wordAt c.w 2) 0 40 k)
  pure c

/-- `sk.rel` at the home (R232, R383). -/
def skRelAt (g : Agent) (q : Cmd) : Acc Unit := do
  let (d, p) ← cmdDesc g q
  faultIf (decide (d.rlen ≠ d.clen) && !q.a0.getLsbD 0) 0x30 d.va
  (List.range (ceilDiv d.rlen d.b)).forM fun j => do
    let (b, o) ← resolve g d p j
    let w ← readWord g (p.ent b 1)
    writeWord g (p.ent b 1) (setFld w 0 16 (fld w 0 16 - 1))
    if fld w 0 16 ≤ 1 then
      modify fun s => shootBlocks s fun e => e.pool = p.pa && e.id.toNat = o.id && e.lb = j
      freeBlock g o p b
  updWord g (d.word 0) fun w => setFld w 33 1 1
  modify fun s => shootBlocks s fun e => e.pool = p.pa && e.id.toNat = d.id

/-- The bucket of a key in a prefix index (R385). -/
def bucketOf (g : Agent) (ix key : Word) : Acc Word := do
  let h ← readWord g ix
  let n := fld h 0 32
  faultIf (decide (n = 0 ∨ 2 ^ Nat.log2 n ≠ n)) 0x30 ix
  let k := (rsdHash (key.setWidth 32) (BitVec.ofNat 32 (fld key 32 32)) 0).toNat % n
  pure (ix + w64 (64 + 512 * k))

/-- The first entry of a bucket that satisfies a condition, from entry i on. -/
def findEntry (g : Agent) (b : Word) (p : List Word → Bool) : List Nat → Acc (Option Word)
  | [] => pure none
  | i :: l => do
    let v ← readVirt g (b + w64 (64 * i)) 48
    if p (wordsOf v 6) then pure (some (b + w64 (64 * i))) else findEntry g b p l

/-- An entry in use with this key and digest (R386). -/
def entryHits (key d0 d1 : Word) (w : List Word) : Bool :=
  (wordAt w 5).getLsbD 0 && decide (wordAt w 0 = key ∧ wordAt w 1 = d0 ∧ wordAt w 2 = d1)

/-- Physical address of the 32-byte record of `sk.pidx` and `sk.pins` (R233). -/
def recordPA (g : Agent) (t : Word) : Acc Nat :=
  match vaultCheck g.img t true 1 32 with
  | some f => throw f
  | none => pure (arenaPA g.img (quadOf g.n) t.toNat)

/-- `sk.pidx` and `sk.pins` at the index's home (R386); `g` is the command's own agent. -/
def prefixAt (g : Agent) (q : Cmd) : Acc Word := do
  let pa ← recordPA g q.go
  let v ← readPhys pa 32 q.go
  let r := wordsOf v 4
  let h := g.home
  let b ← bucketOf h q.a1 q.a0
  let eight := [0, 1, 2, 3, 4, 5, 6, 7]
  let hit ← findEntry h b (entryHits q.a0 (wordAt r 0) (wordAt r 1)) eight
  if q.port = 10 then
    match hit with
    | none => pure 0
    | some e =>
      let w3 ← readWord h (e + 24)
      let w4 ← readWord h (e + 32)
      writePhys (pa + 16) (fld w3 0 56 + fld w4 0 40 * 2 ^ 64) 16 (q.go + 16)
      pure 1
  else if fld (wordAt r 3) 0 40 = 0 then
    match hit with
    | none => pure 2
    | some e => do
      updWord h (e + 40) fun w => setFld w 0 1 0
      pure 2
  else
    match hit with
    | some _ => pure 0
    | none =>
      match ← findEntry h b (fun w => !(wordAt w 5).getLsbD 0) eight with
      | none => pure 3
      | some e => do
        writeWord h e q.a0
        writeWord h (e + 8) (wordAt r 0)
        writeWord h (e + 16) (wordAt r 1)
        writeWord h (e + 24) (w64 (fld (wordAt r 2) 0 56))
        writeWord h (e + 32) (w64 (fld (wordAt r 3) 0 40))
        updWord h (e + 40) fun w => setFld w 0 1 1
        pure 1

/-- The first of n 4-byte entries that differs, from entry i on. -/
def firstDiff (g : Agent) (a b : Word) : Nat → Nat → Acc Nat
  | 0, i => pure i
  | n + 1, i => do
    let x ← readVirt g (a + w64 (4 * i)) 4
    let y ← readVirt g (b + w64 (4 * i)) 4
    if x = y then firstDiff g a b n (i + 1) else pure i

/-- `sk.cmpt` (R233): the compare is made with the command's own privilege. DESIGN CHOICE (log 51): the slot that a count
beyond CLEN reports (R237) is the first at or above CLEN. -/
def skCmptAt (g : Agent) (q : Cmd) : Acc Word := do
  let (d, _) ← cmdDesc g.home q
  faultIf (!d.tcv) 0x30 d.va
  faultIf (decide (d.clen < q.a0.toNat)) 0x31 (w64 d.clen)
  let i ← firstDiff g d.tcaddr q.a1 q.a0.toNat 0
  pure (w64 i)

/-! ## Completion (R225, R234) -/

/-- A handle learns the CLEN value of a command that names it (R234). -/
def learnLen (h : Nat) (v : Word) (c : Ctx) : Ctx :=
  c.setSk h { c.sk h with clen := if (c.sk h).clen.toNat < v.toNat then v.setWidth 40 else (c.sk h).clen }

/-- A handle learns the ID and SHAPE of the descriptor that a command of its binding named (R225). -/
def learnDesc (h : Nat) (d : Desc) (c : Ctx) : Ctx :=
  c.setSk h { c.sk h with id := BitVec.ofNat 24 d.id, shape := BitVec.ofNat 6 (d.slog + 16 * d.blog) }

/-- Perform a command at its home: its token value, and the descriptor whose ID and SHAPE it brings. -/
def skPerform (g : Agent) (q : Cmd) : Acc (Word × Option Desc) := do
  match q.port with
  | 4 =>
    let d ← skOpenAt g.home q
    pure (w64 d.clen, some d)
  | 5 =>
    let v ← skResAt g.home q
    pure (v, none)
  | 6 =>
    let v ← skCmtAt g.home q
    pure (v, none)
  | 7 =>
    let c ← skForkAt g.home q
    pure (q.go, some c)
  | 8 =>
    skRelAt g.home q
    pure (0, none)
  | 9 =>
    let (d, _) ← cmdDesc g.home q
    pure (w64 d.clen, none)
  | 12 =>
    let v ← skCmptAt g q
    pure (v, none)
  | _ =>
    let v ← prefixAt g q
    pure (v, none)

/-- What a completed command does to the handles of its context (R225, R234). -/
def skLearn (q : Cmd) (v : Word) (d : Option Desc) (c : Ctx) : Ctx :=
  let h := skHnd q.a2
  let k := if q.port = 7 then fld q.a1 0 3 else h
  let c := if q.port = 4 ∨ q.port = 6 ∨ q.port = 7 ∨ q.port = 9 then learnLen h v c else c
  let c := if q.port = 7 then learnLen k v c else c
  match d with
  | some d => learnDesc k d c
  | none => c

/-- Waiting reservations of every descriptor look again in the next clk (R229). -/
def wakeWindows (s : State) : State :=
  s.skWait.foldl (fun s p => s.at (s.clk + 1) false (.skResWindowGrant p.1)) s

/-- The reply to an SK command has reached context n: the command ends, or its fault is delivered. -/
def skEnd (s : State) (n : Nat) (q : Cmd) (x : Reply) : State :=
  let s := dropReq s q.id
  match x with
  | .fault code v => faultServed s n 22 code v
  | .data v (va :: w) => endServed (onServed s n 22 (skLearn q v (some ⟨va, w⟩))) n 22 (skTok q.a2) v
  | .data v [] => endServed (onServed s n 22 (skLearn q v none)) n 22 (skTok q.a2) v
  | _ => s

/-- The home answers an SK command of context n: it keeps the reply with the command's SEQ (R228, R302), which leaves as a
packet. -/
def skReply (s : State) (n : Nat) (q : Cmd) (x : Reply) : State :=
  match s.req q.id with
  | some r => enterFabric (keepReply s r x) (replyPacket s (quadOf n) r)
  | none => skEnd s n q x

/-- Perform the SK command in service of context n: a fault changes nothing (R237). -/
def skFinish (s : State) (n : Nat) (g : Agent) (q : Cmd) : State :=
  match (skPerform g q).run s with
  | (.error f, _) => skReply s n q (.fault f.1 f.2)
  | (.ok (v, d), t) => skReply (wakeWindows t) n q (.data v (match d with | some d => d.va :: d.w | none => []))

/-- A reservation that must wait joins the list of its descriptor, which is its reply for R302 (log 51), or is sent again
where the list is full. One of a context that is stopped for a pre-emption stays unperformed (R238). -/
def skEnlist (s : State) (n : Nat) (g : Agent) (q : Cmd) : State :=
  if !inService 22 (s.ctx n) || (s.ctx n).st = .saving then putBack (dropReq s q.id) n 22
  else match (translate g.home q.a3 .read 8).run s with
  | (.error f, _) => skReply s n q (.fault f.1 f.2)
  | (.ok pa, _) =>
    let l := KMap.get [] s.skWait pa
    if 16 ≤ l.length then match s.req q.id with
      | some r => sendReq s q.id { r with tries := 0 }
      | none => s.within 1 700 (.skCommandComplete n)
    else if l.any fun w => w.2 = q.id then s
    else { updReq s q.id (fun r => { r with answered := true }) with skWait := KMap.set [] s.skWait pa (l ++ [(n, q.id)]) }

/-- Does an earlier reservation wait at the descriptor? -/
def othersWait (s : State) (g : Agent) (q : Cmd) : Bool :=
  match (translate g.home q.a3 .read 8).run s with
  | (.error _, _) => false
  | (.ok pa, _) => KMap.get [] s.skWait pa ≠ []

/-- SK_COMMAND_COMPLETE (R221, R229-R234): the SK command in service of context n is performed at its home. -/
def execSkCommandComplete (n : Nat) (s : State) : Out :=
  match served s n 22 with
  | none => .next s
  | some (c, q) =>
    let g := cmdAgent n c q
    match (s.req q.id).bind (keptReply s) with
    | some x => .next (skReply s n q x)
    | none =>
      if q.port ≠ 5 then .next (skFinish s n g q)
      else match (skResWindow g.home q).run s with
        | (.error f, _) => .next (skReply s n q (.fault f.1 f.2))
        | (.ok open?, _) =>
          if open? && !othersWait s g q then .next (skFinish s n g q) else .next (skEnlist s n g q)

/-- Serve the reservations that wait at a descriptor, in the order of their arrival (R229). -/
def grantWindows (pa : Nat) : List (Nat × Nat) → State → State
  | [], s => { s with skWait := s.skWait.del pa }
  | (n, id) :: l, s =>
    match served s n 22 with
    | none => grantWindows pa l s
    | some (c, q) =>
      if q.id ≠ id then grantWindows pa l s
      else
        let g := cmdAgent n c q
        match (skResOpen g.home q).run s with
        | (.error f, _) => grantWindows pa l (skReply s n q (.fault f.1 f.2))
        | (.ok true, _) => grantWindows pa l (skFinish s n g q)
        | (.ok false, _) => { s with skWait := KMap.set [] s.skWait pa ((n, id) :: l) }

/-- SK_RES_WINDOW_GRANT (R229): the reservations that wait at the descriptor of physical address pa. -/
def execSkResWindowGrant (pa : Nat) (s : State) : Out := .next (grantWindows pa (KMap.get [] s.skWait pa) s)

end Sys2Proof.Machine
end

