-- ==== Sys2Proof/Machine/TileFun.lean ====
section
/-!
DEFINITION. The tile unit TX (R133-R138): conversions, block quantisation and the function operations.
-/

namespace Sys2Proof.Machine

/-- Fields of TX.a (R133). -/
def txSF (a : Word) : Nat := fld a 0 4
def txDF (a : Word) : Nat := fld a 4 4
def txQtype (a : Word) : Nat := fld a 8 2
def txAxis (a : Word) : Bool := a.getLsbD 10

/-- The float operand of a lane in a format, under DAZ (R75, R85). -/
def elemF (w : Word) (f : Fmt) (b : BitVec 32) : Num := f.operand (fmtDAZ w) (b.toNat % 2 ^ f.width)

/-- One element of `tx.cvt` (R135, R86). -/
def cvtElem (w : Word) (sf df idx : Nat) (b : BitVec 32) : BitVec 32 × Flg :=
  match intOf sf, fmtOf sf, intOf df, fmtOf df with
  | some n, _, some m, _ =>
    if m < n then (let (v, f) := satInt m (sint n b.toNat); (BitVec.ofNat 32 (sext m 32 v), f))
    else (BitVec.ofNat 32 (sext n 32 b.toNat), 0)
  | some n, _, _, some f => let (v, g) := roundFmt w f (fmtRM w) idx (ofInt (sint n b.toNat)); (BitVec.ofNat 32 v, g)
  | _, some f, some m, _ =>
    let (v, g) := toInt w m (fmtRM w) idx (elemF w f b)
    (BitVec.ofNat 32 (sext m 32 v), g)
  | _, some f, _, some f' =>
    let x := elemF w f b
    let nv := flgIf x.isSnan flgNV
    if sf = df then
      (if x.isNan then (BitVec.ofNat 32 f.canonNan, nv)
       else if x.isZero then (BitVec.ofNat 32 (f.signBit x.neg), 0)
       else (BitVec.ofNat 32 (b.toNat % 2 ^ f.width), 0))
    else let (v, g) := roundFmt w f' (fmtRM w) idx x; (BitVec.ofNat 32 v, g ||| nv)
  | _, _, _, _ => (0, 0)

/-- One element of a function operation (R136). -/
def funElem (op : Nat) (w : Word) (sf df idx : Nat) (b : BitVec 32) : BitVec 32 × Flg :=
  match fmtOf sf, fmtOf df with
  | some f, some f' =>
    let (y, g) := txFun op (elemF w f b)
    let (v, h) := roundFmt w f' (fmtRM w) idx y
    (BitVec.ofNat 32 v, g ||| h)
  | _, _ => (0, 0)

/-- `tx.qnt` of a row (R137). -/
def qntRow (w : Word) (a : Word) (t : Row) : Row × Flg :=
  let b8 := decide (txDF a = 0xA)
  match fmtOf (txSF a) with
  | some f =>
    let blk (k : Nat) := quantise w b8 (txQtype a) (fmtRM w) (12 * 2 ^ 24 + 32 * k)
      ((List.range 32).map fun j => elemF w f (lane t (32 * k + j)))
    let (c0, s0, f0) := blk 0
    let (c1, s1, f1) := blk 1
    let codes := c0 ++ c1
    let wd := if b8 then 8 else 4
    let at0 := if b8 then 64 else 32
    (BitVec.ofNat 2048 (packNat wd (fun i => codes[i]?.getD 0) 64 + s0 * 2 ^ (8 * at0) + s1 * 2 ^ (8 * at0 + 8)),
      f0 ||| f1)
  | none => (0, 0)

/-- Byte offset of element i's scale byte in a packed row (R137, R138). -/
def scaleAt (b8 axis : Bool) (i : Nat) : Nat := (if b8 then 64 else 32) + (if axis then i else i / 32)

/-- One element of `tx.dqnt` (R138). DESIGN CHOICE (log 51): DAZ zeroes no subnormal code of the packed row, as R138 decodes each
exactly and R85 names lanes as operands. -/
def dqntElem (w a : Word) (idx : Nat) (t : Row) (i : Nat) : BitVec 32 × Flg :=
  let b8 := decide (txSF a = 0xA)
  let scale := byteAt t.toNat (scaleAt b8 (txAxis a) i)
  let code := if b8 then byteAt t.toNat i else bits t.toNat (4 * i) 4
  match fmtOf (txDF a) with
  | some f =>
    let x := blockDecode b8 scale code
    let (v, g) := roundFmt w f (fmtRM w) idx x
    (BitVec.ofNat 32 v, g ||| flgIf x.isSnan flgNV)
  | none => (0, 0)

/-- The scale bytes that `tx.dqnt` of a B8 row reads. -/
def dqntBad (a : Word) (t : Row) : Option Nat :=
  if txSF a = 0xA then
    ((List.range (if txAxis a then 64 else 2)).map fun i => 64 + i).find? fun o => 192 ≤ byteAt t.toNat o
  else none

/-! ## Format checks (R134) -/

def cvtOk (c : Nat) : Bool := c ≤ 2 || (4 ≤ c && c ≤ 8)
def floatOk (c : Nat) : Bool := 6 ≤ c && c ≤ 8
def qntOk (c : Nat) : Bool := 4 ≤ c && c ≤ 8
def blkOk (c : Nat) : Bool := c = 9 || c = 10

/-- SF is checked before DF (R134). -/
def fmtNotes (a : Word) (sf df : Nat → Bool) : List Note :=
  [trapIf (!sf (txSF a)) 0x05 (w64 (txSF a)), trapIf (!df (txDF a)) 0x05 (w64 (txDF a))]

/-- A TX trigger (R68, R133). -/
def txTrigger (port lat wt : Nat) (ut uy : Bool) (chk : Word → Row → List Note)
    (f : Word → Word → Row → Row × Flg) (g : BitVec 4) (src : BitVec 9) (s : State) : Out :=
  let a := s.iss.ctx.portW 12 0
  let t := (readCode s src).row
  let res : Row × Flg := f s.iss.ctx.inf.fmtEff a t
  let r : RecOp := { fu := 12, port := port, kind := 1, rout := 0, extra := 0, oneRow := true, scw := a,
                     ops := [portOpnd s false 12 0, Opnd.none, rowOpnd s ut src, resOpnd uy (.r res.1)] }
  trigger 12 port 1 wt false [recHold s r] (chk a t ++ [recTrap s r]) g src
    (fun _ s => landTile s 12 lat (.r res.1) res.2 r) s

/-- Lane by lane, with idx = (12 << 24) + lane (R126). -/
def txLanes (f : Word → Nat → Nat → Nat → BitVec 32 → BitVec 32 × Flg) (w a : Word) (t : Row) : Row × Flg :=
  rowFlg fun i => f w (txSF a) (txDF a) (12 * 2 ^ 24 + i) (lane t i)

/-- TX_CVT (R135). -/
def execTxCvt (g : BitVec 4) (src : BitVec 9) (s : State) : Out :=
  txTrigger 4 8 8 false false (fun a _ => fmtNotes a cvtOk cvtOk) (txLanes cvtElem) g src s

/-- TX_QNT (R137). DESIGN CHOICE (log 51): where the format-value trap and the scale-axis fault both hold, the former is raised; so
too for the block-type fault of `tx.dqnt`. R134 orders SF and DF alone. -/
def execTxQnt (g : BitVec 4) (src : BitVec 9) (s : State) : Out :=
  txTrigger 5 12 12 false false (fun a _ => fmtNotes a qntOk blkOk ++
    [trapIf (txDF a = 0xA && txQtype a = 3) 0x05 0xA, trapIf (txAxis a) 0x19 0]) qntRow g src s

/-- TX_DQNT (R138). -/
def execTxDqnt (g : BitVec 4) (src : BitVec 9) (s : State) : Out :=
  txTrigger 6 10 10 false false (fun a t => fmtNotes a blkOk floatOk ++
    [match dqntBad a t with | some o => .trap 5 0x1A (w64 o) | none => .quiet])
    (fun w a t => rowFlg fun i => dqntElem w a (12 * 2 ^ 24 + i) t i) g src s

/-- TX_EXP (R136). -/
def execTxExp (g : BitVec 4) (src : BitVec 9) (s : State) : Out :=
  txTrigger 7 14 12 false true (fun a _ => fmtNotes a floatOk floatOk) (txLanes (funElem 7)) g src s

/-- TX_LOG (R136). -/
def execTxLog (g : BitVec 4) (src : BitVec 9) (s : State) : Out :=
  txTrigger 8 14 12 true false (fun a _ => fmtNotes a floatOk floatOk) (txLanes (funElem 8)) g src s

/-- TX_RCP (R136). -/
def execTxRcp (g : BitVec 4) (src : BitVec 9) (s : State) : Out :=
  txTrigger 9 12 12 false true (fun a _ => fmtNotes a floatOk floatOk) (txLanes (funElem 9)) g src s

/-- TX_RSQ (R136). -/
def execTxRsq (g : BitVec 4) (src : BitVec 9) (s : State) : Out :=
  txTrigger 10 12 12 false true (fun a _ => fmtNotes a floatOk floatOk) (txLanes (funElem 10)) g src s

/-- TX_SQRT (R136). -/
def execTxSqrt (g : BitVec 4) (src : BitVec 9) (s : State) : Out :=
  txTrigger 11 14 12 false true (fun a _ => fmtNotes a floatOk floatOk) (txLanes (funElem 11)) g src s

/-- TX_TANH (R136). -/
def execTxTanh (g : BitVec 4) (src : BitVec 9) (s : State) : Out :=
  txTrigger 12 16 14 false true (fun a _ => fmtNotes a floatOk floatOk) (txLanes (funElem 12)) g src s

/-- TX_SIGM (R136). -/
def execTxSigm (g : BitVec 4) (src : BitVec 9) (s : State) : Out :=
  txTrigger 13 16 14 false true (fun a _ => fmtNotes a floatOk floatOk) (txLanes (funElem 13)) g src s

/-- TX_ERF (R136). -/
def execTxErf (g : BitVec 4) (src : BitVec 9) (s : State) : Out :=
  txTrigger 14 16 14 true false (fun a _ => fmtNotes a floatOk floatOk) (txLanes (funElem 14)) g src s

end Sys2Proof.Machine
end

