-- ==== Sys2Proof/Machine/Engine.lean ====
section
/-!
DEFINITION. The copy, gather and window-expansion engines: their go moves (R263-R269), and one chunk of each command
(R270-R277, R284).
-/

namespace Sys2Proof.Machine

/-! ## Checks of R266 -/

/-- A mode-value trap for an endpoint word that the operation does not take (R267). -/
def epMode (a : Word) (ks : List Nat) : Note := trapIf (epBad a ks) 0x0A a

def srcKinds : List Nat := [0, 1, 4]
def dstKinds : List Nat := [0, 1, 2, 3, 4]

/-- The offending address of a vault endpoint's extent: `lo` is the offset of its lowest byte. -/
def epOut (c : Ctx) (a : Word) (lo : Int) (n : Nat) : Option Flt := if ek a = 1 then vaultOut c a lo n else none

/-- The bytes of an arena range that the go bundle reads. -/
def arenaOut (c : Ctx) (off n : Nat) : Option Flt :=
  if arenaBytes c < off + n then some (0x20, w64 (max off (arenaBytes c))) else none

/-- The lowest of several offending addresses. -/
def lowestFlt (l : List (Option Flt)) : Note :=
  match l.filterMap id with
  | [] => .quiet
  | f :: fs => trapFlt (some (fs.foldl (fun (x y : Flt) => if y.2.toNat < x.2.toNat then y else x) f))

/-- The checks of R266 from the physical endpoint on: endpoints with their lowest offset and length, the least slot of a
buffer destination, and what else is read from the arena. -/
def epNotes (c : Ctx) (eps : List (Word × Int × Nat)) (need : Nat) (more : List (Option Flt)) : List Note :=
  [ (match eps.find? fun e => ek e.1 = 4 && !c.ctl.priv with | some e => .trap 5 0x02 e.1 | none => .quiet),
    (match eps.find? fun e => (ek e.1 = 2 && !(c.cb (fld e.1 0 4)).cfg) || (ek e.1 = 3 && !(c.sk (fld e.1 56 3)).cfg) with
     | some e => .trap 5 0x0D (w64 (if ek e.1 = 2 then fld e.1 0 4 else fld e.1 56 3))
     | none => .quiet),
    (match eps.find? fun e => ek e.1 = 2 && decide (256 * (c.cb (fld e.1 0 4)).rps < need) with
     | some e => .trap 5 0x0D (w64 (fld e.1 0 4))
     | none => .quiet),
    lowestFlt (more ++ eps.map fun e => epOut c e.1 e.2.1 e.2.2) ]

/-! ## Copies: the shape (R268-R270) -/

/-- A dimension's part of the offsets over the position range [a, b]: the least and the greatest. -/
def spanOf (str : Int) (a b : Int) : Int × Int := (min (a * str) (b * str), max (a * str) (b * str))

/-- The lowest offset and the length of a copy's source and destination. -/
def ceExtent (ds : List Dim) (a3 : Word) : (Int × Nat) × (Int × Nat) :=
  let pm := cePM a3
  let add (p q : Int × Int) : Int × Int := (p.1 + q.1, p.2 + q.2)
  let s := ds.foldl (fun p d => add p (spanOf d.ss 0 (d.cnt - 1 : Int))) (0, 0)
  let t := ds.foldl (fun p d =>
    add p (if pm = 1 then spanOf d.ds 0 (d.lo + d.cnt + d.hi - 1 : Int)
      else spanOf d.ds d.lo (d.lo + d.cnt - 1 : Int))) (0, 0)
  ((s.1, (s.2 - s.1).toNat + codeBytes (ceSF a3)), (t.1, (t.2 - t.1).toNat + codeBytes (ceDF a3)))

/-- Element number w of the written ones: its element index e, its source offset (none at a fill position) and its
destination offset (R270). `lin` is the product of the full extents below. -/
def cePos (pm : Nat) : List Dim → Nat → Nat → Nat × Option Int × Int
  | [], _, _ => (0, some 0, 0)
  | d :: ds, w, lin =>
    let k := w % d.ext pm
    let j := if pm = 1 then k else d.lo + k
    let r := cePos pm ds (w / d.ext pm) (lin * (d.lo + d.cnt + d.hi))
    let inside := decide (d.lo ≤ j ∧ j < d.lo + d.cnt)
    (j * lin + r.1, if inside then r.2.1.map fun x => x + (j - d.lo : Int) * d.ss else none, r.2.2 + j * d.ds)

/-- Is a field of a copy's arguments outside its range (R268, R269)? The offending word is a3, a2 or the descriptor's word
that holds CNT, PADLO and PADHI. -/
def ceRange (a2 a3 : Word) (w : List Word) (readable : Bool) : Note :=
  if cePM a3 = 3 then .trap 5 0x0A a3
  else if fld a2 0 8 ≠ 0 then .trap 5 0x0A a2
  else
    let bad (d : Dim) : Bool := decide (d.cnt = 0 ∨ cePM a3 = 0 ∧ (d.lo ≠ 0 ∨ d.hi ≠ 0))
    match if readable then (dimsOf w).findIdx? bad else none with
    | some d => .trap 5 0x0A (wordAt w (1 + 3 * d))
    | none => .quiet

/-! ## Go moves -/

/-- The shape descriptor that the go bundle reads as a local load of its clk would (R269): 32 words. -/
def shapeAt (s : State) (a2 : Word) : List Word := wordsOf ((soon s s.iss.n).rdArena s.iss.n (fld a2 0 23) 256) 32

/-- CE_GO (R266-R269). -/
def execCeGo (g : BitVec 4) (src : BitVec 9) (s : State) : Out :=
  let c := s.iss.ctx
  let t := tWord s src
  let a2 := c.portW 16 2
  let a3 := c.portW 16 3
  let ok := (arenaOut c (fld a2 0 23) 256).isNone
  let w := if ok then shapeAt s a2 else []
  let x := ceExtent (dimsOf w) a3
  goMove 16 4 []
    (goNotes s t ++ [epMode (c.portW 16 0) srcKinds, epMode (c.portW 16 1) dstKinds, ceRange a2 a3 w ok,
      trapIf (decide (8 < ceSF a3)) 0x05 (w64 (ceSF a3)), trapIf (decide (8 < ceDF a3)) 0x05 (w64 (ceDF a3))] ++
      epNotes c [(c.portW 16 0, x.1.1, if ok then x.1.2 else 0), (c.portW 16 1, x.2.1, if ok then x.2.2 else 0)] 0
        [arenaOut c (fld a2 0 23) 256])
    (goTok t) (fun _ q => { q with shape := w }) (fun _ s => readsNow s [(fld a2 0 23, 256)]) g src s

/-- CE_CMP (R271). -/
def execCeCmp (g : BitVec 4) (src : BitVec 9) (s : State) : Out :=
  let c := s.iss.ctx
  let t := tWord s src
  let n := fld (c.portW 16 2) 0 40
  goMove 16 5 []
    (goNotes s t ++ [epMode (c.portW 16 0) srcKinds, epMode (c.portW 16 1) srcKinds,
      trapIf (decide (n = 0)) 0x0A (c.portW 16 2)] ++
      epNotes c [(c.portW 16 0, 0, n), (c.portW 16 1, 0, n)] 0 [])
    (goTok t) (fun _ q => q) (fun _ s => s) g src s

/-- GE_GO (R272). -/
def execGeGo (g : BitVec 4) (src : BitVec 9) (s : State) : Out :=
  let c := s.iss.ctx
  let t := tWord s src
  let a3 := c.portW 17 3
  goMove 17 4 []
    (goNotes s t ++ [epMode (c.portW 17 0) [1], epMode (c.portW 17 1) dstKinds, epMode (c.portW 17 2) srcKinds,
      trapIf (decide (geRB a3 % 4 ≠ 0 ∨ geRB a3 = 0 ∨ 65536 < geRB a3 ∨ geN a3 = 0)) 0x0A a3] ++
      epNotes c [(c.portW 17 0, 0, geN a3 * geIW a3), (c.portW 17 1, 0, geRB a3 * geN a3), (c.portW 17 2, 0, 0)] 0 [])
    (goTok t) (fun _ q => q) (fun _ s => s) g src s

/-- Slot bytes and block slots of a handle's SHAPE (R225). -/
def Sk.slot (k : Sk) : Nat := 2 ^ (bits k.shape.toNat 0 4 + 6)
def Sk.blk (k : Sk) : Nat := 8 * 2 ^ bits k.shape.toNat 4 2

/-- GE_SKG (R273). SLEN 0 is a multiple of 4: the command moves no byte (log 25). -/
def execGeSkg (g : BitVec 4) (src : BitVec 9) (s : State) : Out :=
  let c := s.iss.ctx
  let t := tWord s src
  let a0 := c.portW 17 0
  let a2 := c.portW 17 2
  let a3 := c.portW 17 3
  let h := fld a0 0 3
  let k := c.sk h
  goMove 17 5 []
    (goNotes s t ++ [epMode (c.portW 17 1) dstKinds, trapIf (decide (skgN a2 = 0)) 0x0A a2,
      trapIf (decide (skgLen a3 % 4 ≠ 0) || (k.cfg && decide (k.slot < skgOff a3 + skgLen a3))) 0x0A a3,
      (match epNotes c [(c.portW 17 1, 0, skgN a2 * skgLen a3)] (skgLen a3) [] with | p :: _ => p | [] => .quiet),
      trapIf (!k.cfg) 0x0D (w64 h)] ++
      epNotes c [(c.portW 17 1, 0, skgN a2 * skgLen a3)] (skgLen a3) [] ++
      [trapIf (decide (k.clen.toNat < skgF a0 + skgN a2)) 0x31 (w64 (skgF a0 + skgN a2))])
    (goTok t) (fun _ q => { q with shape := [k.desc.setWidth 64, w64 k.blk], bound := k.clen }) (fun _ s => s) g src s

/-- The fields of a2 of `we.go` (R274). -/
def weH (a2 : Word) : Int := fld a2 0 12
def weW (a2 : Word) : Int := fld a2 12 12
def weG (a2 : Word) : Nat := fld a2 24 8
def weKH (a2 : Word) : Nat := fld a2 32 4 + 1
def weKW (a2 : Word) : Nat := fld a2 36 4 + 1
def weSY (a2 : Word) : Nat := fld a2 40 3 + 1
def weSX (a2 : Word) : Nat := fld a2 43 3 + 1
def wePY (a2 : Word) : Nat := fld a2 46 4
def wePX (a2 : Word) : Nat := fld a2 50 4
def weOH (a2 : Word) : Int := (weH a2 + 2 * wePY a2 - weKH a2).fdiv (weSY a2) + 1
def weOW (a2 : Word) : Int := (weW a2 + 2 * wePX a2 - weKW a2).fdiv (weSX a2) + 1

/-- The record of pixel (y, x) of the patch column n, or none for a zero column (R274). -/
def weRecord (a2 : Word) (patch n : Nat) : Option Nat :=
  let t := patch % (weKH a2 * weKW a2 * weG a2)
  let pb := patch / (weKH a2 * weKW a2 * weG a2)
  let gr := t % weG a2
  let kw := t / weG a2 % weKW a2
  let kh := t / (weG a2 * weKW a2)
  let p : Int := 32 * pb + n
  let y := p / weOW a2 * weSY a2 - wePY a2 + kh
  let x := p % weOW a2 * weSX a2 - wePX a2 + kw
  if weOH a2 * weOW a2 ≤ p ∨ y < 0 ∨ weH a2 ≤ y ∨ x < 0 ∨ weW a2 ≤ x then none
  else some (64 * ((y * weW a2 + x).toNat * weG a2 + gr))

/-- The lowest and the highest record offset that patches q to q + n - 1 read (R266, R274); no patch above the last
block of output pixels reads one. -/
def weSpan (a2 : Word) (q n : Nat) : Option (Nat × Nat) :=
  let top := weKH a2 * weKW a2 * weG a2 * ceilDiv (weOH a2 * weOW a2).toNat 32
  (List.range (min n (top - q))).foldl (fun r i => (List.range 32).foldl (fun r k =>
    match r, weRecord a2 (q + i) k with
    | some (a, b), some o => some (min a o, max b o)
    | none, some o => some (o, o)
    | r, none => r) r) none

/-- WE_GO (R274). -/
def execWeGo (g : BitVec 4) (src : BitVec 9) (s : State) : Out :=
  let c := s.iss.ctx
  let t := tWord s src
  let a2 := c.portW 18 2
  let a3 := c.portW 18 3
  let span := match (if ek (c.portW 18 0) = 1 then weSpan a2 (fld a3 0 32) (fld a3 32 32) else none) with
    | some (a, b) => (a, b - a + 33)
    | none => (0, 0)
  goMove 18 4 []
    (goNotes s t ++ [epMode (c.portW 18 0) srcKinds, epMode (c.portW 18 1) [2],
      trapIf (decide (weH a2 = 0 ∨ weW a2 = 0 ∨ weG a2 = 0 ∨ weOH a2 < 1 ∨ weOW a2 < 1)) 0x0A a2,
      trapIf (decide (fld a3 32 32 = 0)) 0x0A a3] ++
      epNotes c [(c.portW 18 0, span.1, span.2), (c.portW 18 1, 0, 0)] 1280 [])
    (goTok t) (fun _ q => q) (fun _ s => s) g src s

/-! ## Destinations -/

/-- The image of context n that runs or keeps the command in service. -/
def Agent.cb (g : Agent) (h : Nat) : Cb := g.img.cb h

/-- Bytes of a buffer's slot. -/
def Cb.slotBytes (b : Cb) : Nat := 256 * b.rps

/-- Write n bytes into slot k of a stream from byte `off` (R280). -/
def writeCb (g : Agent) (b : Cb) (k off v n : Nat) : Acc Unit :=
  let a := b.rowOff (b.rps * k) + off
  writePhys (arenaPA g.img (quadOf g.n) a) v n (w64 a)

/-- Cut a range of a destination stream at the ends of buffer or skein slots of `sb` bytes: slot, offset in it, place in
the data and length. -/
def streamCut (sb : Nat) : Nat → Nat → Nat → Nat → List (Nat × Nat × Nat × Nat)
  | 0, _, _, _ => []
  | f + 1, pos, at0, n =>
    if n = 0 ∨ sb = 0 then []
    else
      let k := min n (sb - pos % sb)
      (pos / sb, pos % sb, at0, k) :: streamCut sb f (pos + k) (at0 + k) (n - k)

/-- Write n bytes at byte `pos` of a command's destination: for a buffer, of the stream that began at stream slot
`s0`; for a skein, from the endpoint's slot on; else at the endpoint's offset `off` (R267, R284). -/
def writeDst (g : Agent) (a : Word) (s0 pos : Nat) (off : Int) (v n : Nat) : Acc Unit :=
  match ek a with
  | 2 =>
    let b := g.cb (fld a 0 4)
    (streamCut b.slotBytes (n + 1) pos 0 n).forM fun p =>
      writeCb g b (s0 + p.1) p.2.1 (bits v (8 * p.2.2.1) (8 * p.2.2.2)) p.2.2.2
  | 3 => do
    let k := g.img.sk (fld a 56 3)
    faultIf (!k.cfg) 0x0D (w64 (fld a 56 3))
    let p : Int := (fld a 0 40 * k.slot : Nat) + off
    faultIf (decide (p < 0)) 0x35 (w64 (wrap 64 (p.fdiv k.slot)))
    (streamCut k.slot (n + 1) p.toNat 0 n).forM fun x =>
      fillSlot g (k.desc.setWidth 64) x.1 x.2.1 (bits v (8 * x.2.2.1) (8 * x.2.2.2)) x.2.2.2
  | _ => writeEp g a off v n

/-- A buffer destination: may the command write slots below `top` of its stream now (R284)? The buffer of a producer that
reached it earlier must be waited for. -/
def reachCb (g : Agent) (q : Cmd) (s0 top : Nat) : Acc Unit :=
  if ek q.a1 ≠ 2 then pure ()
  else do
    let h := fld q.a1 0 4
    let b := g.cb h
    faultIf (!b.cfg) 0x0D (w64 h)
    if b.line.head?.any fun i => i ≠ q.fu then throw waitFlt
    else if b.rp.toNat + b.ns.toNat < s0 + top then throw waitFlt
    else pure ()

/-- The stream slot at which a command began (R284): `unit` bytes count one slot. -/
def startSlot (g : Agent) (q : Cmd) (unit : Nat) : Nat :=
  if ek q.a1 = 2 then (g.cb (fld q.a1 0 4)).pp.toNat - q.done / unit else 0

/-! ## Chunks (R270-R276) -/

/-- One element converted by a copy (R270, R86): bits unchanged where the formats are the same. -/
def ceConvert (w : Word) (sf df idx v : Nat) : Nat × Flg :=
  if sf = df then (v, 0)
  else
    let w := w &&& ~~~0x10
    match intOf sf, intOf df, fmtOf df with
    | some 64, some m, _ => satInt m (sint 64 v)
    | some 64, none, some f => roundFmt w f (fmtRM w) idx (ofInt (sint 64 v))
    | some n, some 64, _ => (wrap 64 (sint n v), 0)
    | none, some 64, _ => (match fmtOf sf with
        | some f => toInt w 64 (fmtRM w) idx (f.decode v)
        | none => (0, 0))
    | _, _, _ => let (r, f) := cvtElem w sf df idx (BitVec.ofNat 32 v); (r.toNat % 2 ^ (8 * codeBytes df), f)

/-- The engine-alignment fault of an element address (R270); its value is not stated (log 12). A slot of a skein begins on
a multiple of every format's size, and the elements of a buffer's stream follow one another. -/
def alignCheck (a : Word) (off : Int) (z : Nat) : Acc Unit := do
  let s ← get
  let b : Int := match ek a with | 0 => fld a 0 56 | 1 => fld a 0 29 | 4 => fld a 0 48 | _ => 0
  if ek a ≠ 2 ∧ (b + off) % z ≠ 0 then
    set { s with free := s.free + 1 }
    throw (0x28, unstated s)
  else pure ()

/-- One element of a copy. -/
def ceElem (g : Agent) (q : Cmd) (ds : List Dim) (s0 w : Nat) : Acc Flg := do
  let sf := ceSF q.a3
  let df := ceDF q.a3
  let z := codeBytes df
  let (e, src, dst) := cePos (cePM q.a3) ds w 1
  let (v, f) ← (match src with
    | none => pure (bits q.a3.toNat 32 (8 * min z 4), (0 : Flg))
    | some o => do
      alignCheck q.a0 o (codeBytes sf)
      let x ← readEp g q.a0 o (codeBytes sf)
      pure (ceConvert q.fmt sf df (0xFF000000 + e % 2 ^ 24) x) : Acc (Nat × Flg))
  alignCheck q.a1 dst z
  writeDst g q.a1 s0 (w * z) dst v z
  pure f

/-- A chunk of `ce.go` (R270, R276). -/
def ceChunk (g : Agent) (q : Cmd) : Acc Chunk := do
  let ds := dimsOf q.shape
  let z := codeBytes (ceDF q.a3)
  let tot := ceCount ds (cePM q.a3)
  let w0 := q.done / z
  let k := min (2048 / z) (tot - w0)
  let sb := (g.cb (fld q.a1 0 4)).slotBytes
  let s0 := startSlot g q sb
  reachCb g q s0 (ceilDiv (q.done + k * z) sb)
  let f ← (List.range k).foldlM (fun f i => do
    let x ← ceElem g q ds s0 (w0 + i)
    pure (f ||| x)) 0
  let done := q.done + k * z
  let last := decide (tot ≤ w0 + k)
  pure ⟨k * z, f, last, s0 + (if last then ceilDiv done sb else done / sb), none⟩

/-- The first byte in which two numbers of n bytes differ. -/
def diffByte (x y n : Nat) : Option Nat := (List.range n).find? fun i => byteAt x i ≠ byteAt y i

/-- A chunk of `ce.cmp` (R271). -/
def cmpChunk (g : Agent) (q : Cmd) : Acc Chunk := do
  let tot := fld q.a2 0 40
  let n := min 2048 (tot - q.done)
  let x ← readEp g q.a0 q.done n
  let y ← readEp g q.a1 q.done n
  match diffByte x y n with
  | some i => pure ⟨n, 0, true, 0, some (q.done + i)⟩
  | none => pure ⟨n, 0, decide (tot ≤ q.done + n), 0, some tot⟩

/-- The gather-index fault; its value is not stated (log 12). -/
def gatherFault : Acc Unit := do
  let s ← get
  set { s with free := s.free + 1 }
  throw (0x29, unstated s)

/-- A part of row i of a gather: bytes [b, b + n) of it. -/
def gePart (g : Agent) (q : Cmd) (s0 i b n : Nat) : Acc Unit := do
  let z := geIW q.a3
  let x ← readEp g q.a0 (i * z) z
  let k := sint (8 * z) x
  if k < 0 then gatherFault
  let v ← readEp g q.a2 (k * geRB q.a3 + b) n
  writeDst g q.a1 s0 (i * geRB q.a3 + b) (i * geRB q.a3 + b) v n

/-- A chunk of `ge.go` (R272, R276). -/
def geChunk (g : Agent) (q : Cmd) : Acc Chunk := do
  let rb := geRB q.a3
  let tot := rb * geN q.a3
  let n := min 2048 (tot - q.done)
  let sb := (g.cb (fld q.a1 0 4)).slotBytes
  let s0 := startSlot g q sb
  reachCb g q s0 (ceilDiv (q.done + n) sb)
  (streamCut rb (n + 1) q.done 0 n).forM fun p => gePart g q s0 p.1 p.2.1 p.2.2.2
  let done := q.done + n
  let last := decide (tot ≤ done)
  pure ⟨n, 0, last, s0 + (if last then ceilDiv done sb else done / sb), none⟩

/-- A chunk of `ge.skg`: the command's slots in one skein block (R273, R276). Where no byte is taken per slot, the blocks
done are counted (log 25). -/
def skgChunk (g : Agent) (q : Cmd) : Acc Chunk := do
  let len := skgLen q.a3
  let f := skgF q.a0
  let b := (wordAt q.shape 1).toNat
  let i0 := if len = 0 then (f / b + q.chunk) * b - (if q.chunk = 0 then f / b * b else f) else q.done / len
  let k := min (skgN q.a2 - i0) (b - (f + i0) % b)
  let s0 := if ek q.a1 = 2 then (g.cb (fld q.a1 0 4)).pp.toNat - i0 else 0
  reachCb g q s0 (i0 + k)
  (List.range k).forM fun j => do
    let v ← readSlot g (wordAt q.shape 0) (f + i0 + j) (skgOff q.a3) len
    if ek q.a1 = 2 then writeCb g (g.cb (fld q.a1 0 4)) (s0 + i0 + j) 0 v len
    else writeDst g q.a1 0 ((i0 + j) * len) ((i0 + j) * len) v len
  pure ⟨k * len, 0, decide (skgN q.a2 ≤ i0 + k), s0 + i0 + k, none⟩

/-- Column n of a patch: its 33 bytes, channels then scale. -/
def weColumn (g : Agent) (q : Cmd) (patch n : Nat) : Acc Nat :=
  match weRecord q.a2 patch n with
  | none => pure (0x20 * 2 ^ 256)
  | some o => readEp g q.a0 o 33

/-- A chunk of `we.go`: one patch in the layout of R199 (R274, R276). -/
def weChunk (g : Agent) (q : Cmd) : Acc Chunk := do
  let i := q.done / 1056
  let s0 := startSlot g q 1056
  reachCb g q s0 (i + 1)
  let cols ← (List.range 32).mapM fun n => weColumn g q (fld q.a3 0 32 + i) n
  let v := packNat 8 (fun j =>
    if j < 32 then byteAt (cols[j]?.getD 0) 32 else byteAt (cols[(j - 32) % 32]?.getD 0) ((j - 32) / 32)) 1056
  writeCb g (g.cb (fld q.a1 0 4)) (s0 + i) 0 v 1056
  pure ⟨1056, 0, decide (fld q.a3 32 32 ≤ i + 1), s0 + i + 1, none⟩

/-- The next chunk of a command of CE, GE or WE. -/
def nextChunk (g : Agent) (q : Cmd) : Acc Chunk :=
  match q.fu, q.port with
  | 16, 4 => ceChunk g q
  | 16, _ => cmpChunk g q
  | 17, 4 => geChunk g q
  | 17, _ => skgChunk g q
  | _, _ => weChunk g q

/-! ## Completion (R277, R284) -/

/-- A complete chunk's counter add (R277). -/
def chunkAdd (g : Agent) (q : Cmd) (n : Nat) : Acc Unit :=
  if fld q.go 3 53 = 0 ∨ n = 0 then pure () else postAdd g (.engine g.n q.fu) (w64 (fld q.go 3 53 * 8)) n

/-- A command that has reached its buffer stands in its line, and holds it from the head (R284). -/
def Ctx.takePq (q : Cmd) (c : Ctx) : Ctx :=
  let h := fld q.a1 0 4
  if ek q.a1 = 2 ∧ ¬(q.fu = 16 ∧ q.port = 5) ∧ (c.cb h).cfg then c.setCb h ((c.cb h).reach q.fu) else c

/-- PP passes the slots that a complete chunk of the buffer's producer fills (R284). -/
def fillPp (q : Cmd) (pp : Nat) (c : Ctx) : Ctx :=
  let c := { c.takePq q with walks := c.walks.del q.fu }
  if ek q.a1 = 2 ∧ ¬(q.fu = 16 ∧ q.port = 5) then
    let h := fld q.a1 0 4
    c.setCb h { c.cb h with pp := BitVec.ofNat 40 (max (c.cb h).pp.toNat pp) }
  else c

/-- A command whose last chunk is complete: it ends, or keeps its entry until its last add where it writes no token
(R277). -/
def endEngine (s : State) (n : Nat) (q : Cmd) (v : Word) : State :=
  match goTok q.go with
  | some t => endServed s n q.fu (some t) v
  | none =>
    if s.reqs.any fun p => p.2.src = .engine n q.fu then
      onServed s n q.fu fun c =>
        ((c.updCtl fun l => { l with flags := l.flags ||| q.flg }).dropPq q).updCmd q.fu fun q => { q with st := .closing }
    else endServed s n q.fu none 0

/-- A chunk met a fault (R279): the command, which has reached its buffer (R284), stops at the faulting access, or is served
again where it must wait. -/
def stopChunk (s : State) (n : Nat) (q : Cmd) (f : Flt) : State :=
  let s := onServed s n q.fu (Ctx.takePq q)
  if f.1 = 0 then putBack s n q.fu
  else (onServed s n q.fu fun c => c.updCmd q.fu fun q => { q with st := .faulted f.1 f.2 }).at s.clk true
    (.engineAccessFault n q.fu)

/-- A chunk of `k` bytes completes for context n (event 0x0E of R410). -/
def chunkCount (s : State) (n k : Nat) : State :=
  if k = 0 then s else s.updCore (coreOf n) fun c => c.count 0x0E 1

/-- A chunk whose writes are all performed is complete: its add, its flags, and the end of the command with the last (R277). -/
def endChunk (s : State) (n : Nat) (c : Ctx) (q : Cmd) (k : Chunk) : State :=
  match (chunkAdd (cmdAgent n c q) q k.n).run s with
  | (.error f, t) => stopChunk t n q f
  | (.ok _, t) =>
    let t := chunkCount t n k.n
    let q' : Cmd := { q with done := q.done + k.n, chunk := q.chunk + 1, flg := q.flg ||| k.flg, st := .waiting, held := none }
    if k.last then
      let t := onServed t n q.fu fun c => (fillPp q k.pp c).updCmd q.fu fun _ => { q' with st := .running }
      endEngine t n q' (w64 (k.val.getD q'.done))
    else onServed t n q.fu fun c => (fillPp q k.pp c).updCmd q.fu fun _ => q'

/-- One chunk of a command in service. Where its control-space writes wait (R162), it is complete once they are performed. -/
def runChunk (s : State) (n : Nat) (c : Ctx) (q : Cmd) : State :=
  let waits (s : State) : Bool := s.ctlw.any fun w => w.1 = n
  let hold (s : State) (k : Chunk) : State :=
    putBack (onServed s n q.fu fun c => c.updCmd q.fu fun q => { q with held := some k }) n q.fu
  match q.held with
  | some k => if waits s then hold s k else endChunk s n c q k
  | none => match (nextChunk (cmdAgent n c q) q).run s with
    | (.error f, t) => stopChunk t n q f
    | (.ok k, t) => if waits t then hold t k else endChunk t n c q k

/-- The faulting access at which a command stands. -/
def CmdSt.flt : CmdSt → Option Flt
  | .faulted code v => some (code, v)
  | _ => none

/-- The faulting access at which the head command of a queue stands. -/
def headFlt (fu : Nat) (c : Ctx) : Option Flt := (c.queue fu).head?.bind fun q => q.st.flt

/-- ENGINE_ACCESS_FAULT (R279): the fault of the command that stopped is delivered to its context. -/
def execEngineAccessFault (n fu : Nat) (s : State) : Out :=
  let p (c : Ctx) : Bool := (headFlt fu c).isSome
  match (findImage s n p).bind (headFlt fu) with
  | none => .next s
  | some f =>
    if p (s.ctx n) then .next (deliverFault s n f.1 f.2 fu)
    else .next (updImage s n p fun c => { c with delivered := c.delivered ++ [(f.1, f.2, fu)] })

end Sys2Proof.Machine
end

