-- ==== Sys2Proof/Machine/Reduce.lean ====
section
/-!
DEFINITION. The element arithmetic of the fabric's actions and of reshards (R348-R357): ordered and aligned sums,
maxima, the normaliser, and aligned chunks. The arithmetic is RNE and reads no FMT.
-/

namespace Sys2Proof.Machine

/-- The index of element j for rounding (R349). -/
def redIdx (j : Nat) : Nat := 0xFF000000 + j

/-- The value of an element in EF. -/
def redVal (ef v : Nat) : Num :=
  match fmtOf ef with
  | some f => f.decode v
  | none => ofInt (sint 32 v)

/-- Round a value to EF at the end of an action. -/
def redRound (ef j : Nat) (r : Num × Flg) : Nat × Flg :=
  match fmtOf ef with
  | some f => let (b, g) := roundFmt 0 f 0 (redIdx j) r.1; (b, g ||| r.2)
  | none => (0, r.2)

/-- The running sum of R349: each addition rounds to FP32. -/
def redAdd (j : Nat) (a : Num × Flg) (x : Num) : Num × Flg :=
  let (b, f) := fAdd 0 0 (redIdx j) a.1 x
  (fval b, a.2 ||| f)

/-- Element j of an ORDERED sum of inputs in ascending order (R349); a signalling NaN sets NV, be it the one input (R74). -/
def sumOrdered (ef j : Nat) (xs : List Nat) : Nat × Flg :=
  if (fmtOf ef).isNone then (listSum xs % 2 ^ 32, 0)
  else match xs with
    | [] => (0, 0)
    | x :: l => redRound ef j ((l.map (redVal ef)).foldl (redAdd j) (redVal ef x, flgIf (redVal ef x).isSnan flgNV))

/-- Element j of a maximum (R351). -/
def redMax (ef : Nat) (xs : List Nat) : Nat × Flg :=
  match xs with
  | [] => (0, 0)
  | x :: l =>
    match fmtOf ef with
    | none => (l.foldl (fun a y => if sint 32 a < sint 32 y then y else a) x, 0)
    | some f =>
      let vs := xs.map f.decode
      if vs.any Num.isNan then (f.canonNan, flgIf (vs.any Num.isSnan) flgNV)
      else (l.foldl (fun a y => if ltNum true (f.decode a) (f.decode y) then y else a) x, 0)

/-- Element j of a normalised packet (R357). -/
def redDiv (j x d : Nat) : Nat × Flg := redRound 8 j (divNum (fp32.decode x) (fp32.decode d))

/-! ## Aligned sums (R352-R354) -/

/-- The code and integer of a float term at exponent `e`, with its flags (R353). -/
def alignTerm (x : Num) (e : Int) : (BitVec 2 × Int) × Flg :=
  match x with
  | .nan s => ((3, 0), flgIf s flgNV)
  | .inf neg => ((if neg then 2 else 1, 0), 0)
  | x =>
    let (m, f) := align x e 38
    ((0, m), f ||| flgIf (decide (2 ^ 39 < m.natAbs)) flgOF)

/-- A term as the first of a running sum. DESIGN CHOICE (log 51): one beyond 64 bits, which R353's assignment leaves without a
form, saturates with SAT and OF as R94 has a sum do. -/
def alignFirst (t : BitVec 2 × Int) : (BitVec 2 × Word) × Flg := let (s, f) := ai64Sat t.2; ((t.1, s), f)

/-- Add a term to a running sum (R353). -/
def alignAdd (a : BitVec 2 × Word) (t : BitVec 2 × Int) : (BitVec 2 × Word) × Flg :=
  let (s, f) := ai64Sat (a.2.toInt + t.2)
  let clash := (a.1 = 1 && t.1 = 2) || (a.1 = 2 && t.1 = 1)
  let c : BitVec 2 := if a.1 = 3 || t.1 = 3 || clash then 3 else a.1 ||| t.1
  ((c, s), f ||| flgIf clash flgNV)

/-- The flag of infinities of both signs among the terms of a sum (R95), in whatever order they and a NaN come (R360). -/
def infClash (codes : List (BitVec 2)) : Flg := flgIf (codes.contains 1 && codes.contains 2) flgNV

/-- The element that a complete sum gives in EF (R354, R96). -/
def alignOut (ef j : Nat) (a : BitVec 2 × Word) (e : Int) : Nat × Flg :=
  match a.1.toNat with
  | 0 => redRound ef j (alignedNum a.2.toInt e 38, 0)
  | 1 => redRound ef j (.inf false, 0)
  | 2 => redRound ef j (.inf true, 0)
  | _ => redRound ef j (.nan false, 0)

/-- An ALIGNED sum of float elements at exponent `e`, rounded once to EF. -/
def sumAligned (ef j : Nat) (e : Int) (xs : List Nat) : Nat × Flg :=
  let ts := xs.map fun x => alignTerm (redVal ef x) e
  match ts with
  | [] => (0, 0)
  | t :: l =>
    let (a, f) := (l.map (·.1)).foldl (fun (p : (BitVec 2 × Word) × Flg) t =>
      let (b, g) := alignAdd p.1 t; (b, p.2 ||| g)) (alignFirst t.1)
    let (v, g) := alignOut ef j a e
    (v, f ||| g ||| flgAll (ts.map (·.2)) ||| infClash (ts.map (·.1.1)))

end Sys2Proof.Machine
end

