-- ==== Sys2Proof/Machine/Flow.lean ====
section
/-!
DEFINITION. Flow entries (R322-R335): matching, acceptance, actions, emission, credits, deliveries and strays.
-/

namespace Sys2Proof.Machine

/-! ## Holders and entries (R322-R325) -/

def FEntry.st (x : FEntry) : Nat := fld x.w0 0 2
def FEntry.key (x : FEntry) : Nat := fld x.w0 2 20
def FEntry.iw (x : FEntry) : Nat := fld x.w0 22 3
def FEntry.act (x : FEntry) : Nat := fld x.w0 25 4
def FEntry.cm (x : FEntry) : Bool := x.w0.getLsbD 29
def FEntry.aout (x : FEntry) : Bool := x.w0.getLsbD 30
def FEntry.incl (x : FEntry) : Bool := x.w0.getLsbD 31
def FEntry.nin (x : FEntry) : Nat := fld x.w0 32 4 + 1
def FEntry.ef (x : FEntry) : Nat := fld x.w0 36 4
def FEntry.chf (x : FEntry) : Nat := fld x.w0 40 4 + 1
def FEntry.dep (x : FEntry) : Nat := fld x.w0 44 4 + 1
def FEntry.pslot (x : FEntry) : Nat := fld x.w0 48 10
def FEntry.cir (x : FEntry) : Bool := x.w0.getLsbD 58
def FEntry.cont (x : FEntry) : Bool := x.w0.getLsbD 59
def FEntry.spn (x : FEntry) : Nat := fld x.w1 10 11
def FEntry.prv (x : FEntry) : Bool := x.w1.getLsbD 21
def FEntry.nxt (x : FEntry) : Option Nat := if x.w1.getLsbD 31 then some (fld x.w1 22 9) else none
def FEntry.scnt (x : FEntry) : Nat := fld x.w1 32 32
def FEntry.eflow (x : FEntry) : Nat := fld x.w2 30 20
def FEntry.etv (x : FEntry) : Bool := x.w2.getLsbD 50
def FEntry.pmask (x : FEntry) : Nat := fld x.w2 25 4
def FEntry.cri (x : FEntry) : Nat := fld x.w3 25 5
def FEntry.credit (x : FEntry) (k : Nat) : Nat := fld x.w3 (5 * k) 5
def FEntry.setCredit (x : FEntry) (k v : Nat) : FEntry := { x with w3 := setFld x.w3 (5 * k) 5 v }
def FEntry.upstream (x : FEntry) (i : Nat) : Upstream := KMap.get ⟨0, 0, 0, 0, 0, 0, false⟩ x.ups i
def FEntry.slot (x : FEntry) (k : Nat) : Slot := KMap.get Slot.reset x.slots k

/-- Actions that take one input (R327). -/
def FEntry.single (x : FEntry) : Bool := x.act = 0 || x.act = 1 || x.act = 8 || x.act = 9

/-- Actions that compute (R347). -/
def FEntry.computes (x : FEntry) : Bool := x.act = 2 || x.act = 4 || x.act = 6 || x.act = 7

/-- Does a flow id lie in an entry's key range (R326)? -/
def keyHits (key iw flow : Nat) : Bool := decide (flow / 2 ^ iw = key / 2 ^ iw)

def Holder.entry (x : Holder) (e : Nat) : FEntry := KMap.get FEntry.reset x.ents e

def State.updEntry (s : State) (h e : Nat) (f : FEntry → FEntry) : State :=
  s.updHolder h fun x => { x with ents := KMap.put x.ents e (f (x.entry e)) }

/-- The live entry that a flow packet matches (R326). -/
def matchEntry (x : Holder) (flow : Nat) : Option Nat :=
  (x.ents.find? fun p => p.2.st = 2 && !p.2.cont && keyHits p.2.key p.2.iw flow).map (·.1)

/-- The pattern that owns an entry. -/
def ownerPat (s : State) (x : FEntry) : Option Pattern := s.pats.find? fun p => p.slot = x.pslot

/-! ## Events (R338) -/

/-- The level at which events of a holder start. -/
def holdLevel (h : Nat) : Nat := holdKind h + 1

/-- An event of class E at a holder for a pattern's owner (R338): a live owner at the level of the holder, the host at
the package, an owner that has retired, or none, at the die. -/
def patEvent (s : State) (h : Nat) (p : Option Pattern) (code : Nat) (v : Word) : State :=
  match p with
  | none => eventWalk s none 2 code v (whoHolder h)
  | some p => match p.owner with
    | none => eventWalk s none 3 code v (whoHolder h)
    | some k =>
      eventWalk s (some k) (if s.dist.kerns.any fun x => x.kid = k then holdLevel h else 2) code v (whoHolder h)

/-- The same with a value that no rule states (log 12). -/
def flowEvent (s : State) (h : Nat) (p : Option Pattern) (code : Nat) : State :=
  let (v, s) := drawWord s
  patEvent s h p code v

/-- A saturating 32-bit count. -/
def sat32 (c : BitVec 32) : BitVec 32 := if c = 0xFFFFFFFF then c else c + 1

/-! ## Strays (R303) -/

/-- A stray packet at holder h. Its event carries the header: its word w0 is the event's value (DESIGN CHOICE, log 51), and
the queue keeps it whole. -/
def stray (s : State) (h : Nat) (p : Packet) : State :=
  let x := s.holder h
  if 16 ≤ x.strays.length then s.holderCounts h fun x => { x with strayd := sat32 x.strayd }
  else
    let s := s.updHolder h fun x => { x with strays := x.strays ++ [({ p with np := 0 }, p.pay.setWidth 512)] }
    let s := s.bbAdd 5 0 0 (whoHolder h) 0
    patEvent s h (s.pats.find? fun q => decide (q.flo.toNat ≤ p.flow.toNat ∧ p.flow.toNat ≤ q.fhi.toNat)) 0x40
      (wordAt p.header 0)

/-! ## Sending -/

/-- Is a packet's target the holder itself (R328)? -/
def targetsSelf (s : State) (h : Nat) (p : Packet) : Bool :=
  decide (p.tk.toNat = holdKind h ∧ p.tnode.toNat = holdNum h ∧ p.tmod = s.mgmt.modn) &&
    (holdKind h = 2 || decide (p.tdie.toNat = holdDie h))

/-! ## Credits (R329) -/

/-- Add credits to a field of a live entry; its waiting packets are looked at again. -/
def addCredit (s : State) (h e k n : Nat) : State :=
  if ((s.holder h).entry e).st = 2 then
    (s.updEntry h e fun x => x.setCredit k (x.credit k + n)).at s.clk true (.emission h e)
  else s

/-- Return one credit to the upstream of input i of an entry. -/
def returnCredit (s : State) (h : Nat) (x : FEntry) (i : Nat) : State :=
  let u := x.upstream i
  if !u.valid || u.kind = 7 then s
  else match holderAt u.kind.toNat u.num.toNat u.die.toNat with
    | some g =>
      if g = h ∧ u.mod = s.mgmt.modn then addCredit s h u.entry.toNat u.cfield.toNat 1
      else
        let w := w64 (0xC1 + u.entry.toNat * 2 ^ 8 + u.cfield.toNat * 2 ^ 17 + 2 ^ 20)
        let p : Packet := { Packet.none with
          pk := 2, snode := BitVec.ofNat 6 (holdNum h), sdie := BitVec.ofNat 2 (holdDie h), smod := s.mgmt.modn
          tk := u.kind, tnode := u.num, tdie := u.die, tmod := u.mod, ext := [w, 0, 0, 0, 0] }
        sendFrom s h false p
    | Option.none => s

/-! ## Actions (R331, R348-R354) -/

/-- The packets of a slot in ascending input order. -/
def Slot.inputs (k : Slot) (nin : Nat) : List Packet :=
  (List.range nin).filterMap fun i => (k.pkts.find? fun p => p.1 = i).map (·.2)

/-- Emitted header fields that do not depend on the copy (R328). -/
def outPacket (x : FEntry) (p : Packet) (chunk : Nat) (last : Bool) (nb pay : Nat) (fmtc : Nat) (flg : Flg) : Packet :=
  { p with
    flow := BitVec.ofNat 20 x.eflow, pk := 0, chunk := BitVec.ofNat 32 chunk, last := last, nb := BitVec.ofNat 11 nb
    npay := BitVec.ofNat 5 (ceilDiv nb 64), pay := BitVec.ofNat 8192 (pay % 2 ^ (8 * nb)), fmtc := BitVec.ofNat 4 fmtc
    flg := flg, ext := [], sumOut := false }

/-- Elementwise work over n elements of z bytes: packed results and flags. -/
def eachElem (n z : Nat) (f : Nat → Nat × Flg) : Nat × Flg :=
  let l := (List.range n).map f
  (packNat (8 * z) (fun j => (l[j]?.getD (0, 0)).1) n, flgAll (l.map (·.2)))

/-- Element j of a packet. -/
def elemOf (z j : Nat) (p : Packet) : Nat := p.byte (z * j) z

/-- The code and integer of element j of an input of an ALIGNED slot, with its flags (R353). -/
def alignElem (x : FEntry) (p : Packet) (j : Nat) : (BitVec 2 × Int) × Flg :=
  if p.fmtc = 3 then ((BitVec.ofNat 2 (bits p.pay.toNat (64 + 2 * j) 2), sint 64 (p.byte (40 + 8 * j) 8)), 0)
  else alignTerm (redVal x.ef (bits p.pay.toNat (320 + 64 * j) (8 * codeBytes x.ef))) (sint 16 (p.byte 0 2))

/-- The packets that a complete slot emits, or none where the slot conflicts (R331, R348). Each carries every flag that the
slot raised (R358). -/
def slotOut (x : FEntry) (k : Slot) : Option (List Packet) :=
  let ps := k.inputs x.nin
  let p0 := ps[0]?.getD Packet.none
  let nb := p0.nb.toNat
  let c := k.chunk.toNat
  let n := x.nin
  let z := codeBytes x.ef
  let last := ps.all (·.last)
  let fl := k.flg ||| flgAll (ps.map (·.flg))
  let out (ch : Nat) (l : Bool) (r : Nat × Flg) (m fm : Nat) : Packet := outPacket x p0 ch l m r.1 fm (fl ||| r.2)
  let many (m : Nat) (f : Nat → Nat × Flg) (w : Nat) : List Packet :=
    let rs := (List.range m).map f
    rs.zipIdx.map fun r => out (c * m + r.2) (last && decide (r.2 + 1 = m)) (r.1.1, flgAll (rs.map (·.2))) w x.ef
  let cnt := nb / z
  let al := decide (x.act = 2) && x.cm
  if x.computes && ((if al then decide (nb < 48 ∨ nb % 8 ≠ 0) else decide (nb % z ≠ 0)) ||
      (al && ps.any (·.sumOut)) ||
      ps.any fun p => decide (p.fmtc.toNat ≠ x.ef) && !(al && decide (p.fmtc = 3))) then none
  else match x.act with
    | 0 | 1 => some [{ p0 with flow := BitVec.ofNat 20 x.eflow, fmtc := BitVec.ofNat 4 x.ef, flg := fl }]
    | 2 =>
      if x.cm then
        let e := sint 16 (p0.byte 0 2)
        let m := k.sum.length
        let nv := flgAll ((List.range m).map fun j => infClash (ps.map fun p => (alignElem x p j).1.1))
        if x.aout then
          let r := eachElem m 4 fun j => alignOut 8 j (k.sum[j]?.getD (0, 0)) e
          some [{ out c last (r.1, r.2 ||| nv) (4 * m) 8 with sumOut := true }]
        else
          let spc := packNat 2 (fun j => (k.sum[j]?.getD (0, 0)).1.toNat) m
          let els := packNat 64 (fun j => let a := k.sum[j]?.getD (0, 0); if a.1 = 0 then a.2.toNat else 0) m
          some [out c last (wrap 16 e + k.cnt % 2 ^ 24 * 2 ^ 16 + spc * 2 ^ 64 + els * 2 ^ 320, nv) (40 + 8 * m) 3]
      else some [out c last (eachElem cnt z fun j => sumOrdered x.ef j (ps.map (elemOf z j))) nb x.ef]
    | 3 => some (many n (fun i => ((ps[i]?.getD p0).pay.toNat, 0)) nb)
    | 4 => some (many n (fun i =>
        let used := ps.take (if x.incl then i + 1 else i)
        eachElem cnt z fun j => sumOrdered x.ef j (used.map (elemOf z j))) nb)
    | 5 =>
      if nb % (4 * n) ≠ 0 then none
      else
        let w := nb / n
        some (many n (fun i => (packNat (8 * w) (fun a => (ps[a]?.getD p0).byte (w * i) w) n, 0)) nb)
    | 6 => some [out c last (eachElem cnt z fun j => redMax x.ef (ps.map (elemOf z j))) nb x.ef]
    | 7 => some (many (n - 1) (fun i =>
        eachElem cnt 4 fun j => redDiv j (elemOf 4 j (ps[i + 1]?.getD p0)) (elemOf 4 j p0)) nb)
    | _ => some []

/-- ALU clks of an action after its slot completes (R359). -/
def aluClks (x : FEntry) : Nat :=
  match x.act with
  | 2 => if x.cm then (if x.aout then 2 * x.chf else 0) else (x.nin - 1) * x.chf + 2
  | 4 => x.nin * x.chf + 2
  | 6 => (x.nin - 1) * x.chf + 2
  | 7 => 4 * (x.nin - 1) * x.chf + 16
  | _ => 0

/-- One input of an ALIGNED slot added to its running sums (R353); none where its exponent conflicts. Its format code and its
size are judged when the slot is complete (R348; that a size other than 40 + 8n is such a conflict: log 51). -/
def alignInput (x : FEntry) (k : Slot) (p : Packet) : Option Slot :=
  let e := sint 16 (p.byte 0 2)
  let n := (p.nb.toNat - 40) / 8
  let e0 := match k.pkts with | (_, q) :: _ => sint 16 (q.byte 0 2) | [] => e
  if e < -150 ∨ 127 < e ∨ e ≠ e0 then none
  else
    let ts := (List.range n).map (alignElem x p)
    let sums := if k.pkts = [] then ts.map fun t => alignFirst t.1 else (k.sum.zip ts).map fun p => alignAdd p.1 p.2.1
    let cnt := k.cnt + (if p.fmtc = 3 then bits p.pay.toNat 16 24 else 1)
    some { k with
      sum := sums.map (·.1), cnt := cnt
      flg := k.flg ||| flgAll (ts.map (·.2)) ||| flgAll (sums.map (·.2)) ||| flgIf (decide (2 ^ 23 - 1 < cnt)) flgOF }

/-! ## Acceptance (R326, R327) -/

/-- Free a slot: its inputs' credits return (R329). -/
def freeSlot (s : State) (h e k : Nat) : State :=
  let x := (s.holder h).entry e
  let s := (x.slot k).pkts.foldl (fun s p => returnCredit s h x p.1) s
  s.updEntry h e fun x => { x with slots := x.slots.del k, ring := x.ring.filter fun i => i ≠ k }

/-- A discarded packet of a live entry: CONF, its event, and its credit. -/
def discard (s : State) (h : Nat) (x : FEntry) (i code : Nat) : State :=
  let s := s.holderCounts h fun y => { y with conf := sat32 y.conf }
  returnCredit (flowEvent s h (ownerPat s x) code) h x i

/-- The slot that R327 gives a packet: none where it is occupied against it. -/
def slotFor' (x : FEntry) (i : Nat) (p : Packet) : Option Nat :=
  if x.single then (List.range x.dep).find? fun k => (x.slots.find? fun q => q.1 = k).isNone
  else
    let k := p.chunk.toNat % x.dep
    let sl := x.slot k
    if sl.pkts = [] then some k
    else if sl.chunk ≠ p.chunk || (sl.pkts.any fun q => q.1 = i) || (sl.pkts.any fun q => q.2.nb ≠ p.nb) ||
        decide (x.nin ≤ sl.pkts.length) then none
    else some k

/-- A conflict of a whole slot: all its packets are discarded (R348). -/
def discardSlot (s : State) (h e k : Nat) : State :=
  let x := (s.holder h).entry e
  freeSlot (flowEvent (s.holderCounts h fun y => { y with conf := sat32 y.conf }) h (ownerPat s x) 0x42) h e k

/-- A complete slot is processed (R331): what it emits leaves once the ALU clks of the action are over (R359). -/
def completeSlot (s : State) (h e k : Nat) : State :=
  let x := (s.holder h).entry e
  match slotOut x (x.slot k) with
  | none => discardSlot s h e k
  | some ps =>
    let due := max s.clk (x.slot k).due + aluClks x
    let s := s.updEntry h e fun x => { x with
      slots := KMap.put x.slots k { x.slot k with outq := ps.map fun p => (p, []), due := due }, ring := x.ring ++ [k] }
    s.at due true (if x.act = 8 then .deliverChunk h e else .emission h e)

/-- Store a packet in its slot; the action proceeds (R327 step 5). Each input of an ALIGNED slot takes its own ALU clks, one
after another (R359). -/
def storePacket (s : State) (h e i k : Nat) (p : Packet) : State :=
  let x := (s.holder h).entry e
  let sl := x.slot k
  let put (sl : Slot) (s : State) : State :=
    s.updEntry h e fun x => { x with slots := KMap.put x.slots k { sl with chunk := p.chunk, pkts := sl.pkts ++ [(i, p)] } }
  if x.act = 2 && x.cm then
    match alignInput x sl p with
    | none => discardSlot (put sl s) h e k
    | some sl' =>
      let s := put { sl' with due := max s.clk sl.due + 2 * x.chf } s
      if sl.pkts.length + 1 = x.nin then completeSlot s h e k else s
  else
    let s := put sl s
    if sl.pkts.length + 1 = x.nin then completeSlot s h e k else s

/-- Accept a packet that entry e of holder h matched (R327); `own` where NP injects it there and it takes the expected SEQ
(R301). -/
def acceptMatched (s : State) (h e : Nat) (own : Bool) (p : Packet) : State :=
  let x := (s.holder h).entry e
  let i := p.flow.toNat % 2 ^ x.iw
  let want := KMap.get 0 x.seqs i
  let p := { p with seqn := if own then want else p.seqn, np := 0 }
  let d := (p.seqn - want).toNat
  if x.nin ≤ i then discard s h x i 0x41
  else if 2 ^ 31 ≤ d then
    returnCredit (s.holderCounts h fun y => { y with dupd := sat32 y.dupd }) h x i
  else
    let s := if d = 0 then s else flowEvent s h (ownerPat s x) 0x43
    let seen (s : State) : State := s.updEntry h e fun x => { x with seqs := KMap.put x.seqs i (p.seqn + 1) }
    if x.act = 9 then returnCredit (seen s) h x i
    else match slotFor' x i p with
      | none => discard s h x i 0x42
      | some k => storePacket (seen s) h e i k p

/-- What a flow packet matches at a holder as its header arrives (R326, R340): an entry and its pattern. A fenced holder
matches nothing (R426). -/
def matched (s : State) (h : Nat) (p : Packet) : Option (Nat × BitVec 32) :=
  if (s.holder h).fence then none
  else (matchEntry (s.holder h) p.flow.toNat).map fun e =>
    (e, ((ownerPat s ((s.holder h).entry e)).map (·.pid)).getD 0)

/-- Does the entry that an arrival matched still stand, live, for the same pattern? -/
def stillLive (s : State) (h : Nat) (m : Nat × BitVec 32) : Bool :=
  let x := (s.holder h).entry m.1
  decide (x.st = 2) && decide (((ownerPat s x).map (·.pid)).getD 0 = m.2)

/-- Accept an arrival at a holder (R326, R327). One that matched an entry which has begun to retire since is abandoned
(DESIGN CHOICE, log 51). -/
def acceptFlow (s : State) (h : Nat) (a : Arrival) : State :=
  match a.hit with
  | none => stray s h a.pkt
  | some m =>
    if stillLive s h m then acceptMatched s h m.1 a.own a.pkt
    else s.holderCounts h fun x => { x with abnd := sat32 x.abnd }

/-- FLOW_PACKET_ACCEPT (R326, R327): the oldest packet that is whole at holder h. -/
def execFlowPacketAccept (h ch : Nat) (s : State) : Out :=
  let _ := ch
  match (s.holder h).inbox.find? fun a => a.pkt.pk = 0 && decide (a.due ≤ s.clk) with
  | none => .next s
  | some a => .next (acceptFlow (s.updHolder h fun x => { x with inbox := x.inbox.erase a }) h a)

/-- CREDIT_REPLY_ARRIVAL (R329): the count goes to the named credit field of a live entry. -/
def execCreditReplyArrival (h ch : Nat) (s : State) : Out :=
  let _ := ch
  match (s.holder h).inbox.find? fun a => a.pkt.pk = 2 with
  | none => .next s
  | some a =>
    let w := wordAt a.pkt.ext 0
    let s := s.updHolder h fun x => { x with inbox := x.inbox.erase a }
    if fld w 0 8 = 0xC1 then .next (addCredit s h (fld w 8 9) (fld w 17 3) (fld w 20 5)) else .next s

/-! ## Emission (R328, R329) -/

/-- The copies of an entry's emitted packets: 0 the explicit target, 1-4 a neighbour through a port. -/
def copiesOf (h : Nat) (x : FEntry) : List Nat :=
  (if x.etv then [0] else []) ++
    (if h < 256 then [1, 2, 3, 4].filter fun p => x.pmask.testBit (p - 1) else [])

/-- The chain of a DUP entry: the entry and each that follows it. -/
def chainOf (x : Holder) : Nat → Nat → List Nat
  | 0, _ => []
  | f + 1, e => e :: (match (x.entry e).nxt with | some n => chainOf x f n | none => [])

/-- The neighbour of router h through a port (R291). -/
def neighbour (h port : Nat) : Nat :=
  let x := h % 8
  let y := h / 8 % 8
  let d := h / 64 * 64
  match port with
  | 1 => d + 8 * y + (x + 1) % 8
  | 2 => d + 8 * y + (x + 7) % 8
  | 3 => d + 8 * ((y + 1) % 8) + x
  | 4 => d + 8 * ((y + 7) % 8) + x
  | _ => h

/-- One copy of an emitted packet (R328). -/
def copyOf (s : State) (h : Nat) (x : FEntry) (k : Nat) (seqn : Nat) (p : Packet) : Packet :=
  let p := { p with
    flow := BitVec.ofNat 20 x.eflow, snode := BitVec.ofNat 6 (holdNum h), sdie := BitVec.ofNat 2 (holdDie h)
    smod := s.mgmt.modn, seqn := BitVec.ofNat 32 seqn }
  if k = 0 then
    { p with
      tk := BitVec.ofNat 3 (fld x.w2 0 3), tnode := BitVec.ofNat 6 (fld x.w2 3 6), tdie := BitVec.ofNat 2 (fld x.w2 9 2)
      tmod := BitVec.ofNat 10 (fld x.w2 11 10), xd := BitVec.ofNat 2 (fld x.w2 21 2), yd := BitVec.ofNat 2 (fld x.w2 23 2) }
  else
    { p with tk := 0, tnode := BitVec.ofNat 6 (neighbour h k % 64), tdie := BitVec.ofNat 2 (holdDie h),
             tmod := s.mgmt.modn, xd := 0, yd := 0 }

/-- Send one copy of a packet; one to the holder itself is accepted there at once. -/
def sendCopy (s : State) (h e k : Nat) (seqn : Nat) (p : Packet) : State :=
  let x := (s.holder h).entry e
  let s := s.updEntry h e fun x => x.setCredit k (x.credit k - 1)
  let q := copyOf s h x k seqn p
  if targetsSelf s h q then acceptFlow s h ⟨q, matched s h q, false, s.clk⟩ else sendFrom s h x.cir q

/-- Count one emitted packet at an entry and its chain. -/
def countSent (s : State) (h e : Nat) : State :=
  (chainOf (s.holder h) 512 e).foldl (fun s i => s.updEntry h i fun x => { x with w1 := setFld x.w1 32 32 (x.scnt + 1) }) s

/-- Send the copies of the packet at the front of an entry's oldest processed slot, as credits allow. -/
def emitFrom : Nat → State → Nat → Nat → State
  | 0, s, _, _ => s
  | f + 1, s, h, e =>
    let x := (s.holder h).entry e
    match x.ring with
    | [] => s
    | k :: _ =>
      let sl := x.slot k
      if x.act = 8 ∨ s.clk < sl.due then s
      else match sl.outq with
        | [] => emitFrom f (freeSlot s h e k) h e
        | (p, sent) :: rest =>
          let all := (chainOf (s.holder h) 512 e).flatMap fun i =>
            (copiesOf h ((s.holder h).entry i)).map fun c => (i, c)
          let ready := all.filter fun a => !sent.contains (8 * a.1 + a.2) &&
            decide (0 < ((s.holder h).entry a.1).credit a.2)
          let s := ready.foldl (fun s a => sendCopy s h a.1 a.2 x.scnt p) s
          let sent := sent ++ ready.map fun a => 8 * a.1 + a.2
          let put (q : List (Packet × List Nat)) (s : State) : State :=
            s.updEntry h e fun x => { x with slots := KMap.put x.slots k { x.slot k with outq := q } }
          if all.all fun a => sent.contains (8 * a.1 + a.2) then emitFrom f (put rest (countSent s h e)) h e
          else put ((p, sent) :: rest) s

/-- EMISSION (R328, R329): entry e of holder h emits what its credits allow; a chain entry's credits serve its head. -/
def execEmission (h e : Nat) (s : State) : Out :=
  if (s.holder h).fence then .next s
  else
    let x := s.holder h
    let head := if (x.entry e).cont then
        ((x.ents.find? fun p => !p.2.cont && (chainOf x 512 p.1).contains e).map (·.1)).getD e
      else e
    if (x.entry head).st = 2 then .next (emitFrom 300 s h head) else .next s

/-! ## Deliveries (R332, R333) -/

def FEntry.ep (x : FEntry) : Word := wordAt x.prm 0
def FEntry.ctx (x : FEntry) : Nat := fld (wordAt x.prm 1) 0 12
def FEntry.stride (x : FEntry) : Nat := fld (wordAt x.prm 2) 0 40
def FEntry.done (x : FEntry) : Word := wordAt x.prm 3

/-- Does a kernel own a pattern or name it in its record (R333)? -/
def namesPat (k : Kern) (p : Pattern) : Bool :=
  decide (p.owner = some k.kid) ||
    [0, 1, 2, 3].any fun i => fld (wordAt k.words (20 + i / 2)) (32 * (i % 2)) 32 = p.pid.toNat && p.pid ≠ 0

/-- The kernel instance with a member on context n that owns the pattern or names it (R333): the live member's, or, while
none is there, one with a saved member of that context. -/
def kernFor (s : State) (n : Nat) (p : Pattern) : Option Kern :=
  if (s.ctx n).live then s.dist.kerns.find? fun k => decide (k.kid = (s.ctx n).ctl.kid) && namesPat k p
  else s.dist.kerns.find? fun k => (k.saved.any fun m => m.n = n) && namesPat k p

/-- The target kernel of a delivery. -/
def targetKern (s : State) (x : FEntry) : Option Kern := (ownerPat s x).bind (kernFor s x.ctx)

/-- The number of entry e of holder h among the producers of a buffer (R284). -/
def flowPq (h e : Nat) : Nat := 1024 + 512 * h + e

/-- Change the buffer that an entry delivers to, in the image of its context that satisfies `p`. -/
def onFlowCb (s : State) (h e : Nat) (p : Ctx → Bool) (f : Cb → Cb) : State :=
  let x := (s.holder h).entry e
  let b := fld x.ep 0 4
  if x.act = 8 ∧ ek x.ep = 2 then updImage s x.ctx p fun c => c.setCb b (f (c.cb b)) else s

/-- An entry no longer fills its buffer, or waits for it (R284). -/
def leaveCb (s : State) (h e : Nat) : State :=
  let b := fld ((s.holder h).entry e).ep 0 4
  onFlowCb s h e (fun c => (c.cb b).line.contains (flowPq h e)) fun b => b.leave (flowPq h e)

/-- Write one chunk of a delivery (R332): the member's context where its endpoint names one. `i` is the entry's number as
a producer. -/
def deliverWrite (g : Agent) (x : FEntry) (i : Nat) (p : Packet) : Acc (Ctx → Ctx) := do
  let c := p.chunk.toNat
  let nb := p.nb.toNat
  match ek x.ep with
  | 2 =>
    let h := fld x.ep 0 4
    let b := g.cb h
    faultIf (!b.cfg) 0x0D (w64 h)
    let m := ceilDiv nb b.slotBytes
    faultIf (decide (b.ns.toNat < m)) 0x0D (w64 h)
    if b.line.head?.any (fun j => j ≠ i) || decide (b.free < (m : Int)) then throw waitFlt
    (streamCut b.slotBytes (nb + 1) 0 0 nb).forM fun a =>
      writeCb g b (b.pp.toNat + a.1) a.2.1 (p.byte a.2.2.1 a.2.2.2) a.2.2.2
    pure fun y => y.setCb h { y.cb h with pp := (y.cb h).pp + BitVec.ofNat 40 m }
  | 3 =>
    let k := g.img.sk (fld x.ep 56 3)
    faultIf (!k.cfg) 0x0D (w64 (fld x.ep 56 3))
    faultIf (decide (k.slot < nb)) 0x33 (w64 (fld x.ep 56 3))
    fillSlot g (k.desc.setWidth 64) (fld x.ep 0 40 + c * x.stride) 0 (p.byte 0 nb) nb
    pure id
  | _ =>
    writeEp g x.ep ((c * x.stride : Nat) : Int) (p.byte 0 nb) nb
    pure id

/-- A chunk that is not written: ABND, its event, its slot (R333). A class-V code fences the holder, which is recorded
(R425, R426). -/
def deliverFail (s : State) (h e k code : Nat) (v : Word) : State :=
  let x := (s.holder h).entry e
  let s := (leaveCb s h e).holderCounts h fun y => { y with abnd := sat32 y.abnd, fence := y.fence || isClassV code }
  let kid := ((ownerPat s x).bind (·.owner)).getD 0
  let s := if isClassV code then s.bbAdd 1 code kid (whoHolder h) v else s
  patEvent (freeSlot s h e k) h (ownerPat s x) code v

/-- The agent of a delivery: a vault endpoint is relative to the member's own arena (R333). -/
def deliverAgent (s : State) (h : Nat) (x : FEntry) : Agent :=
  ⟨x.ctx, { s.ctx x.ctx with quads := [nodeOf x.ctx] }, if h < 256 then h else baseBuf, x.asid, x.ptroot, ((ownerPat s x).map (·.ownerPriv)).getD false, false⟩

/-- Deliver the oldest chunk of an entry. -/
def deliverOne (s : State) (h e k : Nat) : State :=
  let x := (s.holder h).entry e
  let p := ((x.slot k).pkts[0]?.map (·.2)).getD Packet.none
  let needs := ek x.ep = 1 || ek x.ep = 2 || ek x.ep = 3
  let again (s : State) : State := s.at (s.clk + 1) true (.deliverChunk h e)
  let c := s.ctx x.ctx
  match targetKern s x with
  | none => if needs then let (v, s) := drawWord s; deliverFail s h e k 0x45 v else write s x p none
  | some t => if needs && c.st ≠ .running then again s else write s x p (some t.kid)
where
  /-- Write, add, and OR the flags. -/
  write (s : State) (x : FEntry) (p : Packet) (dest : Option (BitVec 32)) : State :=
    let g := deliverAgent s h x
    match (deliverWrite g x (flowPq h e) p).run s with
    | (.error f, t) =>
      if f.1 = 0 then (onFlowCb t h e Ctx.live fun b => b.reach (flowPq h e)).at (t.clk + 1) true (.deliverChunk h e)
      else deliverFail t h e k f.1 f.2
    | (.ok up, t) =>
      let t := leaveCb (t.updCtx x.ctx fun y => if y.live then up y else y) h e
      let pid := ((ownerPat t x).map (·.pid)).getD 0
      let add : Acc Unit :=
        if fld x.done 3 53 = 0 then pure () else postAdd g (.holder h pid) (w64 (fld x.done 3 53 * 8)) p.nb.toNat
      match add.run t with
      | (.error f, u) => deliverFail u h e k f.1 f.2
      | (.ok _, u) =>
        let u := match dest with
          | some kid => updImage u x.ctx (fun y => y.live && decide (y.ctl.kid = kid)) fun y =>
              y.updCtl fun l => { l with flags := l.flags ||| p.flg }
          | none => u
        (freeSlot u h e k).at u.clk true (.deliverChunk h e)

/-- DELIVER_CHUNK (R332, R333): entry e of holder h writes its oldest chunk. -/
def execDeliverChunk (h e : Nat) (s : State) : Out :=
  let x := (s.holder h).entry e
  if x.st ≠ 2 || (s.holder h).fence then .next s
  else match x.ring with
    | [] => .next s
    | k :: _ => if s.clk < (x.slot k).due then .next s else .next (deliverOne s h e k)

end Sys2Proof.Machine
end

