-- ==== Sys2Proof/Machine/Barrier.lean ====
section
/-!
DEFINITION. Named barriers (R396-R400): arrival, wait and configuration in CT, the nodes' counts, the phase updates
and the pod packets.
-/

namespace Sys2Proof.Machine

/-! ## The configuration word (R396) -/

/-- The most cores of an instance of a scope (R396). -/
def maxPart (scope : Nat) : Nat :=
  match scope with | 0 => 1 | 1 => 1 | 2 => 4 | 3 => 256 | _ => 1024

/-- Is a configuration word refused (R402)? -/
def cfBad (c : BitVec 58) : Bool :=
  decide (6 ≤ cfScope c) || decide (cfLcnt c = 0) || decide (cfNpart c = 0) || decide (maxPart (cfScope c) < cfNpart c)

/-- Phases that a core has reported: ⌊ARRC ÷ LCNT⌋ (R397). -/
def Barrier.reported (b : Barrier) : Nat := b.arrc.toNat / cfLcnt b.conf

/-! ## CT -/

/-- The checks of R402 that the barrier operations share. -/
def barrierNotes (s : State) (t : Word) (needCfg : Bool) : List Note :=
  [trapIf (decide (127 < t.toNat)) 0x0A t, trapIf (!s.iss.ctx.bmask.getLsbD t.toNat) 0x12 t,
    trapIf (needCfg && !(s.iss.core.bar t.toNat).cfg) 0x13 t]

/-- CT_ARV (R407): an arrival at bT; its report waits for the context's earlier accesses. -/
def execCtArv (g : BitVec 4) (src : BitVec 9) (s : State) : Out :=
  let t := tWord s src
  let b := s.iss.core.bar t.toNat
  let q := b.reported + 1
  trigger 6 8 1 1 true [blockIf (decide (t.toNat ≤ 127) && b.cfg && decide (b.phase.toNat + 3 ≤ q))]
    (barrierNotes s t true) g src (fun _ s =>
      let n := s.iss.n
      let b' := { b with arrc := b.arrc + 1 }
      let s := s.updCore (coreOf n) fun k => k.setBar t.toNat b'
      let s := if q ≤ b'.reported then
          s.updCtx n fun c => { c with reports := c.reports ++
            [⟨t.toNat, b.conf, w64 q, openIds s n (s.ctx n) ++ (s.ctx n).creqs.map (·.id)⟩] }
        else s
      flyNew s 1 6 (.s (w64 q)) 0 0) s

/-- CT_BWT (R408). -/
def execCtBwt (g : BitVec 4) (src : BitVec 9) (s : State) : Out :=
  let t := tWord s src
  let b := s.iss.core.bar t.toNat
  trigger 6 9 1 1 true
    [blockIf (decide (t.toNat ≤ 127) && b.cfg && decide (b.phase.toNat < (s.iss.ctx.portW 6 0).toNat))]
    (barrierNotes s t true) g src (fun _ s => flyNew s 1 6 (.s b.phase) 0 0) s

/-- CT_BCFG (R409). -/
def execCtBcfg (g : BitVec 4) (src : BitVec 9) (s : State) : Out :=
  let t := tWord s src
  let a := s.iss.ctx.portW 6 0
  let b := s.iss.core.bar t.toNat
  trigger 6 10 1 1 false []
    (barrierNotes s t false ++ [trapIf (cfBad (a.setWidth 58)) 0x0A a,
      trapIf (b.cfg && decide (b.phase.toNat < b.reported)) 0x14 t]) g src
    (fun v s => s.updCore (coreOf s.iss.n) fun k => k.setBar v.word.toNat ⟨true, a.setWidth 58, 0, 0⟩) s

/-! ## Reports (R397) -/

/-- Enter a barrier message and let it happen. -/
def postBar (s : State) (m : BarMsg) (due : Nat) (late : Bool) (ev : Nat → Instr) : State :=
  let (id, s) := fresh s
  { s with barMsgs := KMap.put s.barMsgs id m }.at due late (ev id)

/-- Send the reports of a context whose earlier accesses are performed (R407). A saved member's are sent after its
resumption, from its new context (R400). -/
def sendReports (s : State) (n : Nat) : State :=
  let c := s.ctx n
  if c.reports = [] then s
  else
    let held := openIds s n c ++ c.creqs.map (·.id)
    let free (r : Report) : Bool := !(r.after.any fun i => held.contains i)
    let ready := c.reports.takeWhile free
    let s := s.updCtx n fun c => { c with reports := c.reports.dropWhile free }
    ready.foldl (fun s r => postBar s ⟨n, r.bar, r.conf, r.phase, []⟩ s.clk true .barrierReport) s

/-- Keys a node holds (R397). -/
def nodeCap (scope : Nat) : Nat := match scope with | 1 => 128 | 2 => 512 | _ => 1024

/-- Clks from the last report to the new PHASE (R398). -/
def barDelay (scope : Nat) : Nat :=
  match scope with | 0 => 1 | 1 => 2 | 2 => 4 | 3 => 25 | 4 => 121 | _ => 400

/-- The barrier-config fault, delivered to reporting contexts (R397). -/
def barFault (s : State) (ns : List Nat) : State :=
  ns.foldl (fun s n => let (v, s) := drawWord s; deliverImage s n Ctx.live 0x3E v 0) s

/-- Let a phase become readable at the reporting cores (R398). -/
def completeAt (s : State) (ns : List Nat) (bar : Nat) (conf : BitVec 58) (q : Word) : State :=
  postBar s ⟨0, bar, conf, q, ns⟩ (s.clk + barDelay (cfScope conf)) false .barrierPhaseUpdate

/-- Close phase q of a key: later reports of it are answered at once. -/
def closePhase (x : BarNode) (q : Word) : BarNode :=
  { x with done := q, counts := x.counts.filter fun c => c.phase ≠ q }

/-- A barrier learns a completed phase of its configuration. -/
def raisePhase (b : Barrier) (conf : BitVec 58) (q : Word) : Barrier :=
  if b.cfg ∧ cfScope b.conf = cfScope conf ∧ cfGroup b.conf = cfGroup conf ∧ b.phase.toNat < q.toNat then
    { b with phase := q } else b

/-- The same for barrier `bar` of a core or an image. -/
def raiseBar (bar : Nat) (conf : BitVec 58) (q : Word) (bs : KMap Barrier) : KMap Barrier :=
  KMap.put bs bar (raisePhase (KMap.get Barrier.reset bs bar) conf q)

/-- The contexts whose reports of a phase a node has counted. -/
def BarNode.reporters (x : BarNode) (q : Word) : List Nat := (x.counts.filter fun c => c.phase = q).flatMap (·.ctxs)

/-- The part of a completed `.pd` phase that a saved crew has: its node's counts and its barriers stand in its image (R400). -/
def podSaved (bar : Nat) (group : BitVec 16) (q : Word) (conf : BitVec 58) (k : Kern) : Kern :=
  match k.nodes.find? fun x => x.is 5 0 bar group with
  | none => k
  | some x =>
    { k with
      nodes := listUpd (fun y => y.is 5 0 bar group) (fun y => closePhase y q) k.nodes
      saved := listUpd (fun m => (x.reporters q).contains m.n) (fun m => { m with bars := raiseBar bar conf q m.bars }) k.saved }

/-- The own module's part of a completed `.pd` phase, at its cores and in the images of saved crews (R397, R399, R400). -/
def podComplete (s : State) (bar : Nat) (group : BitVec 16) (q : Word) (conf : BitVec 58) : State :=
  let s := { s with dist := { s.dist with kerns := s.dist.kerns.map (podSaved bar group q conf) } }
  match s.barNodes.find? fun x => x.is 5 0 bar group with
  | none => s
  | some x =>
    completeAt { s with barNodes := listUpd (fun y => y.is 5 0 bar group) (fun y => closePhase y q) s.barNodes }
      (x.reporters q) bar conf q

/-- The barrier packet of a message to a module (R288, R399). It names router 0 of die 0, which it never reaches, since a
barrier packet goes to the barrier network of its module (R300; DESIGN CHOICE, log 51: the spec gives its TK and TNODE no
value). -/
def podPacket (s : State) (mod : Nat) (m : PodMsg) : Packet :=
  { Packet.none with
    pk := 3, smod := s.mgmt.modn, tmod := BitVec.ofNat 10 mod
    ext := [w64 ((if m.kind then 1 else 0) + m.bar.toNat * 2 + m.group.toNat * 2 ^ 8 + m.nmodm.toNat * 2 ^ 24 +
      m.src.toNat * 2 ^ 34), m.phase, 0, 0, 0] }

/-- Send a barrier message to another module over the base-die fabric and a switch port (R300). -/
def podSend (s : State) (mod : Nat) (m : PodMsg) : State := enterFabric s (podPacket s mod m)

/-- ROOT tells a module that a phase is complete (R399). -/
def rootAnswer (s : State) (bar : Nat) (group : BitVec 16) (nmodm : Nat) (q : Word) (conf : BitVec 58) (m : Nat) : State :=
  if m = s.mgmt.modn.toNat then podComplete s bar group q conf
  else podSend s m ⟨true, BitVec.ofNat 7 bar, group, BitVec.ofNat 10 nmodm, s.mgmt.modn, q, none⟩

/-- It tells it 400 clks after the last report (R398). -/
def rootLater (s : State) (bar : Nat) (group : BitVec 16) (nmodm : Nat) (q : Word) (m : Nat) : State :=
  let (id, s) := fresh s
  let x : PodMsg := ⟨true, BitVec.ofNat 7 bar, group, BitVec.ofNat 10 nmodm, s.mgmt.modn, q, some m⟩
  { s with podMsgs := KMap.put s.podMsgs id x }.at (s.clk + 400) false (.podBarrierPacket id)

/-- A pod node that has no room for a key: the fault goes to the contexts of the own module that reported; a report from
another module has none here (R397). -/
def rootFull (s : State) (bar : Nat) (group : BitVec 16) (src : Nat) (q : Word) : State :=
  if src = s.mgmt.modn.toNat then
    match s.barNodes.find? fun x => x.is 5 0 bar group with
    | some x => barFault s ((x.counts.filter fun c => c.phase = q).flatMap (·.ctxs))
    | none => s
  else let (v, s) := drawWord s; eventWalk s none 3 0x3E v whoNone

/-- A module report counted at ROOT; the last one completes the phase at every module that reported, and one of a phase that
is complete is answered at once (R397, R399). -/
def rootReport (s : State) (bar : Nat) (group : BitVec 16) (nmodm src : Nat) (q : Word) (conf : BitVec 58) : State :=
  let full := 1024 ≤ (s.barNodes.filter fun x => x.level = 6).length
  let known := s.barNodes.any fun x => x.is 6 0 bar group
  let s := if known || full then s else { s with barNodes := s.barNodes ++ [⟨6, 0, bar, group, nmodm, 0, []⟩] }
  match s.barNodes.find? fun x => x.is 6 0 bar group with
  | none => rootFull s bar group src q
  | some x =>
    if q.toNat ≤ x.done.toNat then rootAnswer s bar group nmodm q conf src
    else
    let old := ((x.counts.find? fun c => c.phase = q).map (·.mods)).getD []
    let mods := if old.contains src then old else old ++ [src]
    if mods.length = x.nmodm + 1 then
      let s := { s with barNodes := listUpd (fun y => y.is 6 0 bar group) (fun y => closePhase y q) s.barNodes }
      mods.foldl (fun s m => rootLater s bar group nmodm q m) s
    else
      let cs := (x.counts.filter fun c => c.phase ≠ q) ++ [⟨q, 0, [], mods⟩]
      { s with barNodes := listUpd (fun y => y.is 6 0 bar group) (fun y => { y with counts := cs }) s.barNodes }

/-- A phase that has all its reports at its node: it completes, or for `.pd` the module reports to ROOT. -/
def phaseFull (s : State) (m : BarMsg) (ns : List Nat) : State :=
  let sc := cfScope m.conf
  let inst := barInst sc m.n
  let gr := cfGroup m.conf
  if sc = 5 then
    let own := s.mgmt.modn.toNat
    if cfRoot m.conf = own then rootReport s m.bar gr (cfNmodm m.conf) own m.phase m.conf
    else podSend s (cfRoot m.conf)
      ⟨false, BitVec.ofNat 7 m.bar, gr, BitVec.ofNat 10 (cfNmodm m.conf), BitVec.ofNat 10 own, m.phase, none⟩
  else
    completeAt { s with barNodes := listUpd (fun y => y.is sc inst m.bar gr) (fun y => closePhase y m.phase) s.barNodes }
      ns m.bar m.conf m.phase

/-- Count a report at a key that its node holds. -/
def countReport (s : State) (m : BarMsg) (x : BarNode) : State :=
  let sc := cfScope m.conf
  let inst := barInst sc m.n
  let gr := cfGroup m.conf
  let put (cs : List BarCount) (s : State) : State :=
    { s with barNodes := listUpd (fun y => y.is sc inst m.bar gr) (fun y => { y with counts := cs }) s.barNodes }
  if m.phase.toNat ≤ x.done.toNat then completeAt s [m.n] m.bar m.conf m.phase
  else
    let rest := x.counts.filter fun c => c.phase ≠ m.phase
    match x.counts.find? fun c => c.phase = m.phase with
    | some c =>
      if c.npart ≠ cfNpart m.conf then barFault (put rest s) (c.ctxs ++ [m.n])
      else
        let ns := c.ctxs ++ [m.n]
        let s := put (rest ++ [{ c with ctxs := ns }]) s
        if ns.length = c.npart then phaseFull s m ns else s
    | none =>
      let s := put (x.counts ++ [⟨m.phase, cfNpart m.conf, [m.n], []⟩]) s
      if cfNpart m.conf = 1 then phaseFull s m [m.n] else s

/-- BARRIER_REPORT (R397): a core's report reaches the node of its instance; a phase of `.ln`, which has none, is complete. -/
def execBarrierReport (id : Nat) (s : State) : Out :=
  match (s.barMsgs.find? fun p => p.1 = id).map (·.2) with
  | none => .next s
  | some m =>
    let s := { s with barMsgs := s.barMsgs.del id }
    let sc := cfScope m.conf
    let inst := barInst sc m.n
    let gr := cfGroup m.conf
    if sc = 0 then .next (completeAt s [m.n] m.bar m.conf m.phase)
    else match s.barNodes.find? fun x => x.is sc inst m.bar gr with
    | some x => .next (countReport s m x)
    | none =>
      if nodeCap sc ≤ (s.barNodes.filter fun x => x.level = sc ∧ x.inst = inst).length then .next (barFault s [m.n])
      else
        let x : BarNode := ⟨sc, inst, m.bar, gr, cfNmodm m.conf, 0, []⟩
        .next (countReport { s with barNodes := s.barNodes ++ [x] } m x)

/-! ## Completions (R398, R399) -/

/-- At the reporting context's core, or in the saved image of its member (R400). -/
def phaseAt (m : BarMsg) (s : State) (n : Nat) : State :=
  let up := raiseBar m.bar m.conf m.phase
  if (s.ctx n).live then
    s.updCore (coreOf n) fun k => ({ k with bars := up k.bars } : Core).count 0x0F 1
  else
    let ks := s.dist.kerns.map fun k =>
      { k with saved := listUpd (fun x => x.n = n) (fun x => { x with bars := up x.bars }) k.saved }
    { s with dist := { s.dist with kerns := ks } }

/-- BARRIER_PHASE_UPDATE (R398): PHASE becomes readable at every reporting core. -/
def execBarrierPhaseUpdate (id : Nat) (s : State) : Out :=
  match (s.barMsgs.find? fun p => p.1 = id).map (·.2) with
  | none => .next s
  | some m => .next (m.tos.foldl (phaseAt m) { s with barMsgs := s.barMsgs.del id })

/-- Does ROOT hold the key of a packet: has one of its cores configured it, or has a report been counted? -/
def rootHolds (s : State) (bar : Nat) (group : BitVec 16) : Option Nat :=
  match s.barNodes.find? fun x => x.is 6 0 bar group with
  | some x => some x.nmodm
  | none =>
    (s.cores.findSome? fun k =>
      let b := k.2.bar bar
      if b.cfg ∧ cfScope b.conf = 5 ∧ cfGroup b.conf = group then some (cfNmodm b.conf) else none)

/-- The configuration that a pod packet's key stands for. -/
def podConf (m : PodMsg) : BitVec 58 :=
  BitVec.ofNat 58 (5 + m.nmodm.toNat * 2 ^ 22 + m.group.toNat * 2 ^ 32)

/-- POD_BARRIER_PACKET (R399): a module report at ROOT, a completion from ROOT, or one that ROOT now sends (R398). -/
def execPodBarrierPacket (id : Nat) (s : State) : Out :=
  match (s.podMsgs.find? fun p => p.1 = id).map (·.2) with
  | none => .next s
  | some m =>
    let s := { s with podMsgs := s.podMsgs.del id }
    let bar := m.bar.toNat
    if let some d := m.dest then .next (rootAnswer s bar m.group m.nmodm.toNat m.phase (podConf m) d)
    else if m.kind then .next (podComplete s bar m.group m.phase (podConf m))
    else match rootHolds s bar m.group with
      | some k =>
        if k = m.nmodm.toNat then .next (rootReport s bar m.group k m.src.toNat m.phase (podConf m))
        else let (v, s) := drawWord s; .next (eventWalk s none 3 0x3E v whoNone)
      | none => let (v, s) := drawWord s; .next (eventWalk s none 3 0x3E v whoNone)

end Sys2Proof.Machine
end

