-- ==== Sys2Proof/Machine/TileShuffle.lean ====
section
/-!
DEFINITION. The tile unit TS (R140-R146): permutation, transpose, reductions, scans, masks and bias buckets.
-/

namespace Sys2Proof.Machine

/-- `ts.perm` (R141). -/
def permRow (a t : Row) : Row := rowOf fun i => lane t ((lane a i).toNat % 64)

/-- One row of `ts.xpose`: lane 8q + p takes lane 8p + q (R142). -/
def xposeRow (t : Row) : Row := rowOf fun i => lane t (8 * (i % 8) + i / 8)

/-- The row's maximum or minimum by R100, with the flags of R143. -/
def rowFold (f : BitVec 32 → BitVec 32 → Num → Num → BitVec 32 × Flg) (w : Word) (t : Row) : BitVec 32 × Flg :=
  (List.range 63).foldl (fun (acc, g) j =>
    let y := fbits w (lane t (j + 1))
    let (v, h) := f acc y (fval acc) (fval y)
    (v, g ||| h)) (canonFp (fbits w (lane t 0)), flgIf (fval (lane t 0)).isSnan flgNV)

/-- Is y greater than x in the order of `ts.amax`: any NaN above every number, -0 below +0 (R143)? -/
def amaxLt (x y : Num) : Bool := !x.isNan && (y.isNan || ltNum true x y)

/-- `ts.amax`: the lowest index of the greatest element (R143). -/
def amaxIdx (w : Word) (t : Row) : Nat :=
  (List.range 63).foldl (fun i j => if amaxLt (fop w (lane t i)) (fop w (lane t (j + 1))) then j + 1 else i) 0

/-- The running maxima of lanes 0 to i (R144). -/
def smaxList (w : Word) (t : Row) : Nat → List (BitVec 32 × Flg)
  | 0 => []
  | n + 1 =>
    let l := smaxList w t n
    let y := fbits w (lane t n)
    let ny := flgIf (fval (lane t n)).isSnan flgNV
    match l.getLast? with
    | none => [(canonFp y, ny)]
    | some (acc, _) => let (v, h) := fMax acc y (fval acc) (fval y); l ++ [(v, h)]

/-- `ts.smax` (R144). -/
def smaxRow (w : Word) (t : Row) : Row × Flg :=
  let l := smaxList w t 64
  (rowOf fun i => ((l[i]?).getD (0, 0)).1, flgAll (l.map (·.2)))

/-- `ts.mask` (R145). -/
def maskRow (b : Word) (t : Row) : Row :=
  let s := sint 32 b.toNat
  rowOf fun i => b32 (decide (s ≤ i ∧ (i : Int) < s + (lane t i).toInt))

/-- The bucket of a distance: the largest j below NB with THR[j] ≤ n, or 0 (R146). -/
def biasBucket (thr : Nat → Nat) (n : Nat) : Nat → Nat
  | 0 => 0
  | j + 1 => if thr j ≤ n then j else biasBucket thr n j

/-- `ts.bias` from the bytes of the table (R146). -/
def biasRow (tab : Nat) (b : Word) (t : Row) : Row :=
  let nb0 := bits tab 0 6
  let nb := if nb0 = 0 ∨ 32 < nb0 then 32 else nb0
  let bid := tab.testBit 6
  let h := fld b 0 6
  rowOf fun i =>
    let d := (lane t i).toInt
    let k := biasBucket (fun j => bits tab (8 * (64 + 4 * j)) 32) d.natAbs nb
    let k := if bid && decide (d < 0) then k + nb else k
    BitVec.ofNat 32 (bits tab (8 * (256 + 256 * h + 4 * k)) 32)

/-! ## Triggers -/

/-- A one-row TS trigger (R68, R140); `more` is what else the clk does. -/
def tsTrigger (port : Nat) (ua ut : Bool) (chk : List Note) (more : State → State) (f : Word → Ctx → Row → Val × Flg) (g : BitVec 4)
    (src : BitVec 9) (s : State) : Out :=
  let c := s.iss.ctx
  let t := (readCode s src).row
  let res : Val × Flg := f c.inf.fmtEff c t
  let r : RecOp := { fu := 13, port := port, kind := 1, rout := 0, extra := 0, oneRow := true,
                     scw := c.portW 13 1,
                     ops := [portOpnd s ua 13 0, portOpnd s false 13 1, rowOpnd s ut src, Opnd.none] }
  trigger 13 port 1 6 false [recHold s r] (chk ++ [recTrap s r]) g src
    (fun _ s => landTile (more s) 13 6 res.1 res.2 r) s

/-- A 32-bit scalar result (R140). -/
def s32 (p : BitVec 32 × Flg) : Val × Flg := (.s (p.1.setWidth 64), p.2)
/-- A row result. -/
def rowVal (p : Row × Flg) : Val × Flg := (.r p.1, p.2)

/-- TS_PERM (R141). -/
def execTsPerm (g : BitVec 4) (src : BitVec 9) (s : State) : Out :=
  tsTrigger 4 true false [] id (fun _ c t => rowVal (permRow (c.portR 13 0) t, 0)) g src s

/-- TS_XPOSE (R142): row 0 now, rows 1-7 by the sequencer. -/
def execTsXpose (g : BitVec 4) (src : BitVec 9) (s : State) : Out :=
  let w := s.iss.ctx.inf.fmtEff
  let t0 := seqRead s.iss.ctx (jobSource s src) 0
  let r : RecOp :=
    { fu := 13, port := 5, kind := 1, rout := 0, extra := 0, oneRow := false, scw := s.iss.ctx.portW 13 1,
      ops := [portOpnd s false 13 0, portOpnd s false 13 1, tileOpnd false t0 (trigTags s src) (scalarIn s src),
              Opnd.none] }
  trigger 13 5 8 48 false [recHold s r] [recTrap s r] g src (fun _ s =>
    let (id, s) := fresh s
    let tag := recTag s
    let st := if recOn s then id else 0
    let s := recStage s r id w
    s.updCtx s.iss.n fun c =>
      (c.fly 6 13 id (.entry (.t (tileSet 0 0 (xposeRow t0)))) 0 tag).updInf fun i =>
        { i with jobs := i.jobs ++ [{ newJob s src .xpose w id with tag := tag, stage := st }] }) s

/-- TS_RSUM (R143, R98). -/
def execTsRsum (g : BitVec 4) (src : BitVec 9) (s : State) : Out :=
  tsTrigger 6 false false [] id (fun w _ t => s32 (pairTree w (fmtRM w) 13 (fmtDAZ w) t)) g src s

/-- TS_RMAX (R143, R100). -/
def execTsRmax (g : BitVec 4) (src : BitVec 9) (s : State) : Out :=
  tsTrigger 7 false true [] id (fun w _ t => s32 (rowFold fMax w t)) g src s

/-- TS_RMIN (R143, R100). -/
def execTsRmin (g : BitVec 4) (src : BitVec 9) (s : State) : Out :=
  tsTrigger 8 false true [] id (fun w _ t => s32 (rowFold fMin w t)) g src s

/-- TS_AMAX (R143). -/
def execTsAmax (g : BitVec 4) (src : BitVec 9) (s : State) : Out :=
  tsTrigger 9 false false [] id (fun w _ t =>
    (.s (w64 (amaxIdx w t)), flgAll ((List.range 64).map fun i => flgIf (fval (lane t i)).isSnan flgNV))) g src s

/-- TS_SCAN (R144, R99). -/
def execTsScan (g : BitVec 4) (src : BitVec 9) (s : State) : Out :=
  tsTrigger 10 false false [] id (fun w _ t => rowVal (scanRow w (fmtRM w) 13 (fmtDAZ w) t)) g src s

/-- TS_SMAX (R144). -/
def execTsSmax (g : BitVec 4) (src : BitVec 9) (s : State) : Out :=
  tsTrigger 11 false true [] id (fun w _ t => rowVal (smaxRow w t)) g src s

/-- TS_MASK (R145). -/
def execTsMask (g : BitVec 4) (src : BitVec 9) (s : State) : Out :=
  tsTrigger 12 false false [] id (fun _ c t => rowVal (maskRow (c.portW 13 1) t, 0)) g src s

/-- Byte offset of the bias table (R107). -/
def biasOff (c : Ctx) : Nat := 64 * c.ctl.biasb.toNat

/-- The arena ranges of the bias table that one `ts.bias` reads: its header and thresholds, and the values of head h.
DESIGN CHOICE (log 51): these rows, all as those of one local load, claim their banks; the spec says only that a conflict freezes the
core. -/
def biasReads (c : Ctx) : List (Nat × Nat) :=
  [(biasOff c, 192), (biasOff c + 256 + 256 * fld (c.portW 13 1) 0 6, 256)]

/-- TS_BIAS (R146): the table is read as a local load of the issue clk reads it, with its claims of banks. -/
def execTsBias (g : BitVec 4) (src : BitVec 9) (s : State) : Out :=
  let c := s.iss.ctx
  tsTrigger 13 false false
    [trapIf (decide (arenaBytes c < biasOff c + 16640)) 0x20 (w64 (biasOff c + 16640))] (fun s => readsNow s (biasReads c))
    (fun _ c t => rowVal (biasRow ((soon s s.iss.n).rdArena s.iss.n (biasOff c) 16640) (c.portW 13 1) t, 0)) g src s

end Sys2Proof.Machine
end

