-- ==== Sys2Proof/Machine/Baste.lean ====
section
/-!
DEFINITION. The baste unit BL (R239-R262): its triggers, the log writer, and unpick with the adjoints of R67, R68,
R132, R139, R147 and R218.
-/

namespace Sys2Proof.Machine

/-! ## The triggers (R251-R253) -/

/-- The log's handle. -/
def logHnd (c : Ctx) : Nat := c.ctl.logsk.toNat
/-- The address of the log's descriptor. -/
def logDesc (c : Ctx) : Word := (c.sk (logHnd c)).desc.setWidth 64

/-- The handle check of R252. -/
def logNote (c : Ctx) : Note := trapIf (!(c.sk (logHnd c)).cfg) 0x0D (w64 (logHnd c))

/-- BL_BAST (R253): REC is set and LRDY cleared at issue; the home's work follows. -/
def execBlBast (g : BitVec 4) (src : BitVec 9) (s : State) : Out :=
  let c := s.iss.ctx
  goMove 23 4 [] [logNote c] none (fun _ q => { q with a3 := logDesc c })
    (fun _ s => onCtx (fun c => (c.updBaste fun b => { b with lrdy := false }).updCtl fun l => { l with bsRec := true }) s)
    g src s

/-- BL_BSTOP (R253). -/
def execBlBstop (g : BitVec 4) (src : BitVec 9) (s : State) : Out :=
  goMove 23 5 [] [] none (fun _ q => q) (fun _ s => onCtx (fun c => c.updCtl fun l => { l with bsRec := false }) s) g src s

/-- Stage a mark under the number of its command (R246, R250). -/
def stageMark (v : Word) (s : State) : State :=
  let n := s.iss.n
  let id := (((s.ctx n).queue 23).getLast?.map (·.id)).getD 0
  let e : Stage := { id := id, hdr := [w64 (3 + 2 ^ 32), 0, 0, w64 (fld v 0 32), 0, 0, 0, 0], imgs := [], raws := [],
                     missing := 0, len := 1, held := false }
  (onCtx (fun c => c.updBaste fun b => { b with stages := b.stages ++ [e] }) s).updCore (coreOf n) fun k =>
    { k with staged := k.staged + 64 }

/-- BL_MARK (R250, R253): without REC it does nothing. -/
def execBlMark (g : BitVec 4) (src : BitVec 9) (s : State) : Out :=
  goMove 23 6 [] [] none (fun _ q => q) (fun v s => if recOn s then stageMark v.word s else s) g src s

/-- BL_UNPK (R252, R255). -/
def execBlUnpk (g : BitVec 4) (src : BitVec 9) (s : State) : Out :=
  let c := s.iss.ctx
  let w := c.portW 23 2
  goMove 23 7 []
    (ctlNotes s w ++ [logNote c, trapIf (c.ctl.bsRec || (c.queue 23).any fun q => q.port = 7) 0x17 7])
    (skTok w) (fun _ q => { q with a3 := logDesc c }) (fun _ s => s) g src s

/-- The tags that the other moves of the latched bundle write in this clk. -/
def bundleTags (s : State) : List Nat :=
  s.iss.slots.zipIdx.flatMap fun p =>
    let m := Move.ofWord p.1
    let r := m.port.toNat
    if m.fu ≠ 31 || !guardTrue s m.g then []
    else if p.2 = 4 ∨ p.2 = 5 then
      (if r < 16 then [32 + 8 * r + fld s.iss.hdr (if p.2 = 5 then 60 else 57) 3]
       else if r < 32 then [32 + 8 * (r - 16)] else [])
    else if r < 32 then [r] else []

/-- The tags that a `bl.flag` gives: keys and values (R253). -/
def flagTags (t : Word) : List (Nat × Tag) :=
  let r := fld t 2 5
  let g := fld t 7 12
  let row := fld t 19 8
  if !t.getLsbD 0 then []
  else if t.getLsbD 1 then [(r, BitVec.ofNat 20 (g * 256 + row))]
  else (List.range 8).map fun k => (32 + 8 * r + k, BitVec.ofNat 20 (g * 256 + (row + k) % 256))

/-- BL_FLAG (R253). A move of the bundle that writes the tagged register wins. -/
def execBlFlag (g : BitVec 4) (src : BitVec 9) (s : State) : Out :=
  let t := tWord s src
  goMove 23 8 [] [trapIf (t.getLsbD 0 && !t.getLsbD 1 && t.getLsbD 6) 0x0A t] none (fun _ q => q) (fun v s =>
    let c := s.iss.ctx
    let skip := bundleTags s
    let tags := (flagTags v.word).filter fun p => !skip.contains p.1
    onCtx (fun x =>
      (x.updRegs fun r => tags.foldl (fun r p => r.setTag p.1 p.2) r).updBaste fun b =>
        { b with fw := w64 (fld v.word 32 30), adAB := c.portW 23 0, adTY := c.portW 23 1 }) s) g src s

/-! ## The log writer (R245-R248) -/

/-- An image of a staged entry: its bytes and its length. -/
def stageImage (e : Stage) (key : Nat) : Option (Nat × Nat) :=
  match e.raws.find? fun x => x.key = key with
  | some x => some (x.data, if key = 30 then 64 else listSum (x.ranges.map (·.2)))
  | none => (e.imgs.find? fun p => p.1 = key).map fun p => (imgNat p.2, imgLen p.2)

/-- Images one after another, each padded to whole slots: the bytes and the slots. -/
def joinImages : List (Nat × Nat) → Nat × Nat
  | [] => (0, 0)
  | (v, n) :: l =>
    let k := (n + 63) / 64
    let (w, m) := joinImages l
    (v % 2 ^ (8 * n) + w <<< (512 * k), k + m)

/-- The checksum of operand i's REFER image, 0 where it has none. -/
def stageCrc (e : Stage) (i : Nat) : Nat :=
  match stageImage e (10 + i) with
  | some (v, n) => crc32c v n
  | none => 0

/-- The bytes of an entry: images, then the header with its checksums (R246, R247). -/
def stageBytes (e : Stage) : Nat :=
  let (v, k) := joinImages ([30, 0, 20, 1, 21, 2, 22, 3, 23].filterMap (stageImage e))
  let ck (i j : Nat) : Nat := stageCrc e i + stageCrc e j * 2 ^ 32
  let refers := (List.range 4).any fun i => (stageImage e (10 + i)).isSome
  let h := if refers then (e.hdr.set 4 (w64 (ck 0 1))).set 5 (w64 (ck 2 3)) else e.hdr
  v + (packNat 64 (fun i => (wordAt h i).toNat) 8) <<< (512 * k)

/-- Write the slots of an entry, from slot `i` of it on. -/
def writeSlots (g : Agent) (d : Desc) (p : Pool) (v : Nat) : Nat → Nat → Acc Unit
  | 0, _ => pure ()
  | n + 1, i => do
    let a ← slotPA g d p (d.rlen + i)
    writePhys a (bits v (512 * i) 512) 64 (w64 a)
    writeSlots g d p v n (i + 1)

/-- Append one entry to the log (R248); `known` is BL.LRLEN. -/
def appendEntry (g : Agent) (da : Word) (known : Nat) (e : Stage) : Acc Unit := do
  let d ← readDesc g da
  checkDesc d
  faultIf (decide (known ≠ d.rlen)) 0x30 da
  faultIf (decide (d.limit < d.rlen + e.len)) 0x32 (w64 (d.rlen + e.len))
  let p ← readPool g d
  let need := ceilDiv (d.rlen + e.len) d.b - ceilDiv d.rlen d.b
  faultIf (decide (p.nfree < need)) 0x34 p.va
  allocBlocks g d need p (ceilDiv d.rlen d.b)
  writeWord g (d.word 2) (setFld (wordAt d.w 2) 0 40 (d.rlen + e.len))
  writeSlots g d p (stageBytes e) e.len 0
  writeWord g (d.word 1) (setFld (wordAt d.w 1) 0 40 (d.rlen + e.len))

/-- The entry that the log writer of a context may write now: complete, and after every BL command before it. -/
def stageReady (c : Ctx) : Option Stage :=
  match c.baste.stages with
  | [] => none
  | e :: _ =>
    if e.missing = 0 && !e.held && !(c.queue 23).any (fun q => q.id < e.id) && !KMap.get false c.qfence 23 then some e
    else none

/-- A context as the agent of its log. -/
def logAgent (n : Nat) (c : Ctx) : Agent := ⟨n, c, baseBuf, c.ctl.asid, c.ctl.ptroot, true, false⟩

/-- Write the entry at the head of a context's staging buffer. -/
def writeStage (s : State) (n : Nat) : State :=
  let c := s.ctx n
  match stageReady c with
  | none => s
  | some e =>
    match (appendEntry (logAgent n c) (logDesc c) c.baste.lrlen.toNat e).run s with
    | (.ok _, t) =>
      (t.updCtx n fun c => { c.updBaste fun b =>
        { b with stages := b.stages.tail, lrlen := b.lrlen + BitVec.ofNat 40 e.len } with walks := c.walks.del 23 }).updCore (coreOf n) fun k =>
          { k with staged := k.staged - 64 * e.len }
    | (.error f, _) =>
      deliverFault (s.updCtx n fun c => updStage c e.id fun x => { x with held := true }) n f.1 f.2 23

/-- LOG_ENTRY_WRITE (R248, R251): the log writer's next entry, or the end of a BL command without work at a home. -/
def execLogEntryWrite (n : Nat) (s : State) : Out :=
  match served s n 23 with
  | some (_, q) => if q.port = 5 ∨ q.port = 6 ∨ q.port = 8 then .next (endServed s n 23 none 0) else .next s
  | none => .next (writeStage s n)

/-- Start the log writer of a live context where it has an entry to write. DEDUCED (log 33): it is performed in the next clk,
as the log of R473 holds the last entry when the bundle after its operation issues. -/
def serveLog (s : State) (n : Nat) : State :=
  let c := s.ctx n
  if (stageReady c).isSome && queueServed c 23 && !(s.cal.any fun t => t.ev = .logEntryWrite n) then
    s.at (s.clk + 1) false (.logEntryWrite n)
  else s

/-- `bl.bast` at the log's home (R253): the reserved length and the limit. -/
def bastAt (g : Agent) (q : Cmd) : Acc (Nat × Nat) := do
  let d ← readDesc g q.a3
  checkDesc d
  faultIf (!d.logk || decide (d.slog ≠ 0)) 0x30 d.va
  if q.go.getLsbD 63 then
    faultIf (decide (fld q.go 0 40 < d.rlen)) 0x32 (w64 d.rlen)
    writeWord g (d.word 3) (setFld (wordAt d.w 3) 0 40 (fld q.go 0 40))
    pure (d.rlen, fld q.go 0 40)
  else pure (d.rlen, d.limit)

/-- The reply to `bl.bast` has reached context n: recording is ready, or the fault is delivered (R253). -/
def bastEnd (s : State) (n : Nat) (q : Cmd) (x : Reply) : State :=
  let s := dropReq s q.id
  match x with
  | .fault code v => faultServed s n 23 code v
  | .data r l => endServed (onServed s n 23 fun c => c.updBaste fun b =>
      { b with lrlen := r.setWidth 40, llim := (wordAt l 0).setWidth 40, lrdy := true }) n 23 none 0
  | _ => s

/-- BL_BAST_HOME_DONE (R253): `bl.bast` is performed at its home, or has its kept reply; the reply leaves as a packet (R302). -/
def execBlBastHomeDone (n : Nat) (s : State) : Out :=
  match served s n 23 with
  | none => .next s
  | some (c, q) =>
    let reply (s : State) (x : Reply) : State := match s.req q.id with
      | some r => enterFabric (keepReply s r x) (replyPacket s (quadOf n) r)
      | none => bastEnd s n q x
    match (s.req q.id).bind (keptReply s) with
    | some x => .next (reply s x)
    | none =>
      match (bastAt (cmdAgent n c q).home q).run s with
      | (.error f, t) => .next (reply t (.fault f.1 f.2))
      | (.ok (r, l), t) => .next (reply t (.data (w64 r) [w64 l]))

/-! ## Gradient buffers (R254) -/

/-- Virtual address of a buffer row, through the gradient map. -/
def mapRow (g : Agent) (gbase : Word) (gid row : Nat) : Acc Word := do
  let e ← readVirt g (gbase + w64 (16 * gid)) 16
  let w1 := w64 (e >>> 64)
  faultIf (!w1.getLsbD 63 || decide (fld w1 0 9 ≤ row)) 0x38 (w64 gid)
  pure (w64 (e % 2 ^ 56) + w64 (256 * row))

/-- Virtual address of the gradient map. -/
def gbaseOf (c : Ctx) : Word := c.ctl.gbase.setWidth 64 <<< 6

/-- A row of a gradient buffer. -/
def readBuf (g : Agent) (gid row : Nat) : Acc Row := do
  let a ← mapRow g (gbaseOf g.img) gid row
  pure (BitVec.ofNat 2048 (← readVirt g a 256))

/-- Set flags of the command in service. -/
def cmdFlags (n : Nat) (f : Flg) : Acc Unit :=
  modify fun s => onServed s n 23 fun c => c.updCmd 23 fun q => { q with flg := q.flg ||| f }

/-- Add one contribution row (R256). -/
def addContr (g : Agent) (k : Contr) : Acc Unit := do
  let a ← mapRow g (gbaseOf g.img) k.gid k.row
  let old : Row := BitVec.ofNat 2048 (← readVirt g a 256)
  let l := k.lanes.zipIdx.map fun p =>
    match p.1 with
    | some v => fAdd 0 0 p.2 (fval (lane old p.2)) (fval v)
    | none => (lane old p.2, 0)
  writeVirt g a (rowOf fun i => ((l[i]?).map (·.1)).getD 0).toNat 256
  cmdFlags g.n (flgAll (l.map (·.2)))
  modify fun s => onServed s g.n 23 fun c => c.updCmd 23 fun q => { q with aux := q.aux + 1 }

/-- The contributions of an entry that are still to be added: those already added are skipped, and buffer 0 takes none
(R254, R261). -/
def toAdd (added : Nat) (l : List Contr) : List Contr := (l.filter fun k => k.gid ≠ 0).drop added

/-! ## Headers and images (R246, R258) -/

/-- Read n bytes of the log from a slot on. -/
def readLog (g : Agent) (da : Word) (slot : Nat) : Nat → Acc Nat
  | 0 => pure 0
  | k + 1 => do
    let v ← readSlot g da slot 0 64
    let w ← readLog g da (slot + 1) k
    pure (v + w <<< 512)

/-- An entry as read: its header slot and header words. -/
structure Entry where
  slot : Nat
  w : List Word
  deriving DecidableEq, Repr

def Entry.kind (e : Entry) : Nat := fld (wordAt e.w 0) 0 4
def Entry.fu (e : Entry) : Nat := fld (wordAt e.w 0) 4 5
def Entry.port (e : Entry) : Nat := fld (wordAt e.w 0) 9 6
def Entry.rrow (e : Entry) : Nat := fld (wordAt e.w 0) 15 8
def Entry.flag (e : Entry) (i : Nat) : Nat := fld (wordAt e.w 0) (24 + 2 * i) 2
def Entry.len (e : Entry) : Nat := fld (wordAt e.w 0) 32 12
def Entry.rgid (e : Entry) : Nat := fld (wordAt e.w 0) 44 12
def Entry.fmt (e : Entry) : Word := wordAt e.w 1
def Entry.tag (e : Entry) (i : Nat) : Nat := fld (wordAt e.w 2) (20 * i) 20
def Entry.sk (e : Entry) (i : Nat) : Bool := i < 3 && (wordAt e.w 2).getLsbD (60 + i)
def Entry.scw (e : Entry) : Word := wordAt e.w 3
def Entry.crc (e : Entry) (i : Nat) : Nat := fld (wordAt e.w (4 + i / 2)) (32 * (i % 2)) 32
def Entry.off (e : Entry) (i : Nat) : Nat := fld (wordAt e.w (6 + i / 2)) (23 * (i % 2)) 23
/-- The entry's first slot, as an integer. -/
def Entry.first (e : Entry) : Int := (e.slot : Int) - e.len + 1

/-- Read a header. -/
def readEntry (g : Agent) (da : Word) (slot : Nat) : Acc Entry := do
  let v ← readLog g da slot 1
  pure ⟨slot, wordsOf v 8⟩

/-- Is it a whole-tile operation? -/
def Entry.whole (e : Entry) : Bool := ((e.fu = 10 || e.fu = 11) && 24 ≤ e.port) || (e.fu = 13 && e.port = 5)
/-- Does it land a scalar? -/
def Entry.scalar (e : Entry) : Bool := e.fu = 13 && 6 ≤ e.port && e.port ≤ 9

/-- Bytes of operand i of a tile operation: a, b, T, y (R247). -/
def Entry.bytes (e : Entry) (i : Nat) : Nat :=
  if e.sk i || (i = 3 && e.scalar) then 8 else if e.whole && i ≠ 1 then 2048 else 256

/-- Slots of operand i's image. -/
def Entry.slots (e : Entry) (i : Nat) : Nat :=
  match e.flag i with
  | 0 => (e.bytes i + 63) / 64
  | 1 => 1
  | _ => 0

/-- The first slot of operand i's image in a tile operation's entry. -/
def Entry.pos (e : Entry) (i : Nat) : Nat := (e.first + listSum ((List.range i).map e.slots)).toNat

/-- A value of n bytes. -/
def valOf (n v : Nat) : Val :=
  if n = 8 then .s (w64 v) else if n = 256 then .r (BitVec.ofNat 2048 v) else .t (BitVec.ofNat 16384 v)

/-- Arena bytes under REFER, with their checksum (R258). -/
def readRefer (g : Agent) (slot off n crc : Nat) : Acc Nat := do
  match vaultOut g.img (w64 off) 0 n with
  | some f => throw f
  | none =>
    let v ← readPhys (arenaPA g.img (quadOf g.n) off) n (w64 off)
    faultIf (decide (crc32c v n ≠ crc)) 0x39 (w64 slot)
    pure v

/-! ## Running a producer forward (R258) -/

/-- The result of a recorded operation from its operands a and T, for those whose operands a log can hold. -/
def forwardOp (e : Entry) (a t : Val) : Option Val :=
  let tile := (e.port = 26 || e.port = 27) && (e.fu = 10 || e.fu = 11)
  if tile then
    some (.t (tileOf fun k => (taTileRow e.port e.fmt e.fu k (tileRow a.tile k) (tileRow t.tile k)).1))
  else match e.fu, e.port with
    | 12, 8 => some (.r (txLanes (funElem 8) e.fmt e.scw t.row).1)
    | 12, 14 => some (.r (txLanes (funElem 14) e.fmt e.scw t.row).1)
    | 13, 7 => some (s32 (rowFold fMax e.fmt t.row)).1
    | 13, 8 => some (s32 (rowFold fMin e.fmt t.row)).1
    | 13, 11 => some (.r (smaxRow e.fmt t.row).1)
    | 12, _ => none
    | 13, _ => none
    | fu, 6 => some (.r (laneRow laneFmul e.fmt fu 0 0 a.row t.row 0).1)
    | fu, 8 => some (.r (laneRow laneFmax e.fmt fu 0 0 a.row t.row 0).1)
    | fu, 9 => some (.r (laneRow laneFmin e.fmt fu 0 0 a.row t.row 0).1)
    | _, _ => none

/-- Does the forward run read operand a? -/
def forwardReadsA (e : Entry) : Bool := e.fu = 10 || e.fu = 11

/-- What a forward run gives: the row of its buffer at which the result begins, a scalar result, and rows by number. -/
structure Result where
  rrow : Nat
  scalar : Option Word
  rows : List (Nat × Row)
  deriving DecidableEq, Repr

/-- The result of a tile operation. -/
def resultOf (rrow : Nat) (v : Val) : Result :=
  match v with
  | .s w => ⟨rrow, some w, [(0, v.row)]⟩
  | .r r => ⟨rrow, none, [(0, r)]⟩
  | .t t => ⟨rrow, none, (List.range 8).map fun k => (k, tileRow t k)⟩

/-- Row i of a result. -/
def Result.row (r : Result) (i : Nat) : Option Row := (r.rows.find? fun p => p.1 = i).map (·.2)

/-- The bytes of rows i, i + 1, … of a result, for an operand of n bytes. -/
def Result.bytes (r : Result) (i n : Nat) : Option Nat :=
  if n = 8 then
    match r.scalar with
    | some w => if i = 0 then some w.toNat else none
    | none => (r.row i).map fun x => (lane x 0).toNat
  else
    let l := (List.range (ceilDiv n 256)).map fun k => r.row (i + k)
    if l.all (·.isSome) then some (packNat 2048 (fun k => (((l[k]?).getD none).getD 0).toNat) l.length % 2 ^ (8 * n))
    else none

/-- Bring back operand i of an entry, n bytes of it, its image at slot `pos` (R258): `run` runs a producer forward. A fault
names the header slot of this entry, and where the operand is recorded NONE that of the entry that names this one as its
producer, `root` (R475). -/
def fetchOpnd (g : Agent) (da : Word) (root : Nat) (run : Nat → Acc Result) (e : Entry) (i n pos : Nat) : Acc Nat := do
  let broken : Flt := (0x3A, w64 e.slot)
  match e.flag i with
  | 0 => do
    let v ← readLog g da pos ((n + 63) / 64)
    pure (v % 2 ^ (8 * n))
  | 2 => readRefer g e.slot (e.off i) n (e.crc i)
  | 1 => do
    let v ← readLog g da pos 1
    let r ← run (fld (w64 v) 0 40)
    let row := if i = 3 then r.rrow else bits (e.tag i) 0 8
    if row < r.rrow then throw broken
    else match r.bytes (row - r.rrow) n with
      | some x => pure x
      | none => throw broken
  | _ => throw (0x3A, w64 root)

/-- Bytes of an image that stands for arena ranges, at an arena offset. -/
def imageAt : List (Nat × Nat) → Nat → Nat → Nat → Option Nat
  | [], _, _, _ => none
  | r :: l, v, off, n =>
    if r.1 ≤ off ∧ off + n ≤ r.1 + r.2 then some (bits v (8 * (off - r.1)) (8 * n)) else imageAt l (v >>> (8 * r.2)) off n

/-- Slots of a matrix operand's image. -/
def matrixSlots (e : Entry) (i : Nat) (rs : List (Nat × Nat)) : Nat :=
  match e.flag i with
  | 0 => (listSum (rs.map (·.2)) + 63) / 64
  | 1 => 1
  | _ => 0

/-- The operands A and B of a matrix entry, where `reads` says that they are read: for each its arena ranges and its bytes. -/
def matrixOpnds (g : Agent) (da : Word) (root : Nat) (run : Nat → Acc Result) (m : Matrix) (e : Entry) (mp : List Word)
    (fw : List MWord) (reads : Nat → Bool) : Acc ((List (Nat × Nat) × Nat) × (List (Nat × Nat) × Nat)) := do
  let adj := mdAdj (m.word e.rrow)
  let ra := (stepOpnd g.img m mp fw adj 0).1
  let rb := (stepOpnd g.img m mp fw adj 1).1
  let pos := e.first.toNat + 1
  let va ← if reads 0 then fetchOpnd g da root run e 0 (listSum (ra.map (·.2))) pos else pure 0
  let vb ← if reads 1 then fetchOpnd g da root run e 1 (listSum (rb.map (·.2))) (pos + matrixSlots e 0 ra) else pure 0
  pure ((ra, va), (rb, vb))

/-- The accumulators at the start of a forward run, which no entry holds: free values (log 34). -/
def freePatches (free : Nat) (ps : List Nat) : KMap (BitVec 49152) :=
  ps.zipIdx.foldl (fun m p => KMap.put m p.1
    (BitVec.ofNat 49152 (packNat 8 (fun j => (Config.freeByte (free + 6144 * p.2 + j)).toNat) 6144))) []

/-- The forward run of a matrix step's entry (R258). DEDUCED (log 34): its result is the patches that the step writes, each
as FP32 in the rows that R260 gives its target, scaled by the recorded latch. The accumulators from before the step are
free values; the data of LOAD and GRAD words are operands that no entry records. -/
def forwardStep (g : Agent) (da : Word) (root : Nat) (run : Nat → Acc Result) (e : Entry) : Acc Result := do
  let s ← get
  let m := (s.core (coreOf g.n)).matrix
  let broken : Flt := (0x3A, w64 root)
  let origin : BitVec 6 := e.scw.extractLsb' 16 6
  let ws := (wordsFrom m 64 (mdEntry (m.word e.rrow))).1
  if m.owner ≠ some g.n then throw (0x0F, 0)
  else if (routineCheck m e.rrow).isSome || ws.any (fun w => 2 < mwMop w) then throw broken
  else
    let v ← readLog g da e.first.toNat 1
    let mp := wordsOf v 8
    let (a, b) ← matrixOpnds g da root run m e mp ws fun i =>
      ws.any fun w => (wordOpnds w).any fun o => o.read && decide (o.role = i)
    let bufs := bufsOf g.img mp ws
    let data := ws.map fun w =>
      let get (role : Nat) (x : List (Nat × Nat) × Nat) : Nat :=
        match (wordOpnds w).find? fun o => o.read && o.role = role with
        | some o => (imageAt x.1 x.2 (opndOff g.img mp bufs { o with lo := 0 }) o.patch).getD 0
        | none => 0
      (w, (get 0 a, get 1 b, 0))
    let x : BitVec 16 := e.scw.setWidth 16
    let ps := (ws.filter fun w => mwMop w = 0).map (wordPatch origin)
    let free := (← get).free
    modify fun s => { s with free := free + 6144 * ps.length }
    let r := runWords e.fmt x.toInt origin data ⟨freePatches free ps, 0, [], 0⟩
    let rows := (ws.filter fun w => mwMop w < 2).flatMap fun w =>
      let p := wordPatch origin w
      let v := (drainPatch e.fmt 6 p x.toInt (KMap.get 0 r.acc p)).1
      (List.range 16).map fun i => (16 * (4 * mwDr w + mwDc w) + i, BitVec.ofNat 2048 (bits v (2048 * i) 2048))
    pure ⟨fld e.scw 22 8, none, rows⟩

/-- Run the entry at a header slot forward (R258), for the entry at header slot `root` that names it; the fuel bounds the
nesting of such runs. -/
def forwardRun (g : Agent) (da : Word) : Nat → Nat → Nat → Acc Result
  | root, 0, _ => throw (0x3A, w64 root)
  | root, fuel + 1, slot => do
    let p ← readEntry g da slot
    let opnd (i : Nat) : Acc Val := do
      pure (valOf (p.bytes i) (← fetchOpnd g da root (fun x => forwardRun g da p.slot fuel x) p i (p.bytes i) (p.pos i)))
    match p.kind with
    | 1 => do
      let a ← if forwardReadsA p then opnd 0 else pure (.s 0)
      let t ← opnd 2
      match forwardOp p a t with
      | some v => pure (resultOf p.rrow v)
      | none => throw (0x3A, w64 root)
    | 2 => forwardStep g da root (fun x => forwardRun g da p.slot fuel x) p
    | _ => throw (0x3A, w64 root)

/-- Bring back operand i of a tile entry (R258). -/
def bringBack (g : Agent) (da : Word) (e : Entry) (i : Nat) : Acc Val := do
  pure (valOf (e.bytes i) (← fetchOpnd g da e.slot (fun x => forwardRun g da e.slot 4 x) e i (e.bytes i) (e.pos i)))

/-! ## Adjoints (R67, R68, R132, R139, R147) -/

/-- A lane with its flags. -/
abbrev LF := BitVec 32 × Flg

def rneMul (x y : LF) : LF := let (v, f) := fMul 0 0 0 (fval x.1) (fval y.1); (v, x.2 ||| y.2 ||| f)
def rneAdd (x y : LF) : LF := let (v, f) := fAdd 0 0 0 (fval x.1) (fval y.1); (v, x.2 ||| y.2 ||| f)
def rneDiv (x y : LF) : LF := let (v, f) := ieee 0 0 0 (divNum (fval x.1) (fval y.1)); (v, x.2 ||| y.2 ||| f)
def negLane (x : LF) : LF := (x.1 ^^^ 0x80000000#32, x.2)
def lf (v : BitVec 32) : LF := (v, 0)

/-- The FP32 bits of a lane in a float format. -/
def toFp32 (code : Nat) (b : BitVec 32) : LF :=
  match fmtOf code with
  | some f => lf (BitVec.ofNat 32 (roundFmt 0 fp32 0 0 (f.decode (b.toNat % 2 ^ f.width))).1)
  | none => lf 0

/-- The adjoint of a function operation in one lane: dy, and the FP32 values of y and T. DEDUCED (log 35): the y³ of
`tx.rsq` is taken factor by factor from the left, (((-0.5 × dy) × y) × y) × y. -/
def funAdj (port : Nat) (d y t : LF) : LF :=
  let one := lf 0x3F800000
  match port with
  | 7 => rneMul d y
  | 8 => rneDiv d t
  | 9 => rneMul (rneMul (negLane d) y) y
  | 10 => rneMul (rneMul (rneMul (rneMul (lf 0xBF000000) d) y) y) y
  | 11 => rneDiv (rneMul (lf 0x3F000000) d) y
  | 12 => rneMul d (rneAdd one (negLane (rneMul y y)))
  | 13 => rneMul (rneMul d y) (rneAdd one (negLane y))
  | _ =>
    let x := negLane (rneMul t t)
    let (v, f) := ieee 0 0 0 (txFun 7 (fval x.1))
    rneMul (rneMul d (lf 0x3F906EBB)) (v, x.2 ||| f)

/-- A row of contributions with its flags. -/
def lanesOf (f : Nat → Option LF) : Lanes × Flg :=
  let l := (List.range 64).map f
  (l.map fun x => x.map (·.1), flgAll (l.map fun x => (x.map (·.2)).getD 0))

/-- Contributions to a, b and T of one row of a TA operation. -/
def taAdj (port : Nat) (dy a b t : Row) : List (Nat × Lanes × Flg) :=
  let d (i : Nat) : LF := lf (lane dy i)
  let x (r : Row) (i : Nat) : LF := lf (lane r i)
  let both (f h : Nat → Option LF) : List (Nat × Lanes × Flg) := [(0, lanesOf f), (2, lanesOf h)]
  match port with
  | 4 => both (fun i => some (d i)) fun i => some (d i)
  | 5 => both (fun i => some (d i)) fun i => some (negLane (d i))
  | 6 => both (fun i => some (rneMul (d i) (x t i))) fun i => some (rneMul (d i) (x a i))
  | 7 => [(0, lanesOf fun i => some (rneMul (d i) (x b i))), (1, lanesOf fun i => some (rneMul (d i) (x a i))),
          (2, lanesOf fun i => some (d i))]
  | 8 => let p (i : Nat) : Bool := (relF 5 (fval (lane a i)) (fval (lane t i))).1
         both (fun i => if p i then some (d i) else none) fun i => if p i then none else some (d i)
  | 9 => let p (i : Nat) : Bool := (relF 3 (fval (lane a i)) (fval (lane t i))).1
         both (fun i => if p i then some (d i) else none) fun i => if p i then none else some (d i)
  | 23 => let p (i : Nat) : Bool := lane b i ≠ 0
          both (fun i => if p i then some (d i) else none) fun i => if p i then none else some (d i)
  | _ => []

/-- The one-row form of a whole-tile port. -/
def rowForm (port : Nat) : Nat := match port with | 24 => 4 | 25 => 5 | 26 => 6 | 27 => 8 | p => p

/-- dT of one row of a TX operation. -/
def txAdj (port : Nat) (scw : Word) (dy y t : Row) : List (Nat × Lanes × Flg) :=
  let sf := txSF scw
  let df := txDF scw
  if port = 4 ∧ (sf < 4 ∨ df < 4) then []
  else if port < 7 then [(2, lanesOf fun i => some (lf (lane dy i)))]
  else [(2, lanesOf fun i => some (funAdj port (lf (lane dy i)) (toFp32 df (lane y i)) (toFp32 sf (lane t i))))]

/-- Add into lane j of an ascending sum. -/
def addLane (l : List (Option LF)) (j : Nat) (v : BitVec 32) : List (Option LF) :=
  l.set j (some (match (l[j]?).getD none with | none => lf v | some x => rneAdd x (lf v)))

/-- Contributions summed into lanes: for each i in ascending order, dy_i into lane `f i`. -/
def scatter (dy : Row) (f : Nat → Nat) : Lanes × Flg :=
  let l := (List.range 64).foldl (fun l i => addLane l (f i) (lane dy i)) (List.replicate 64 none)
  lanesOf fun i => (l[i]?).getD none

/-- Do two values agree as delivered: equal bits, or both NaN? -/
def sameLane (a b : BitVec 32) : Bool := a = b || ((fval a).isNan && (fval b).isNan)

/-- The lowest lane of a row up to n that holds a value. -/
def lowestLane (t : Row) (v : BitVec 32) (n : Nat) : Nat :=
  ((List.range n).find? fun j => sameLane (lane t j) v).getD 0

/-- dT of one row of a TS operation. -/
def tsAdj (port : Nat) (dy a t : Row) : List (Nat × Lanes × Flg) :=
  let d0 := lf (lane dy 0)
  let rev (r : Row) : Row := rowOf fun i => lane r (63 - i)
  match port with
  | 4 => [(2, scatter dy fun i => (lane a i).toNat % 64)]
  | 5 => [(2, lanesOf fun i => some (lf (lane (xposeRow dy) i)))]
  | 6 => [(2, lanesOf fun _ => some d0)]
  | 7 => let j := lowestLane t (rowFold fMax 0 t).1 64
         [(2, lanesOf fun i => if i = j then some d0 else none)]
  | 8 => let j := lowestLane t (rowFold fMin 0 t).1 64
         [(2, lanesOf fun i => if i = j then some d0 else none)]
  | 10 => let (r, f) := scanRow 0 0 23 false (rev dy)
          let (l, g) := lanesOf fun i => some (lf (lane (rev r) i))
          [(2, l, f ||| g)]
  | 11 => let m := (smaxRow 0 t).1
          [(2, scatter dy fun i => lowestLane t (lane m i) (i + 1))]
  | _ => []

/-- The operands that an operation's adjoint reads, by number (R244). -/
def adjReads (fu port : Nat) : List Nat :=
  match fu, rowForm port with
  | 12, p => if p = 8 ∨ p = 14 then [2] else if 7 ≤ p ∧ p ≤ 13 then [3] else []
  | 13, p => if p = 4 then [0] else if p = 7 ∨ p = 8 ∨ p = 11 then [2] else []
  | _, 6 => [0, 2]
  | _, 8 => [0, 2]
  | _, 9 => [0, 2]
  | _, 7 => [0, 1]
  | _, 23 => [1]
  | _, _ => []

/-- Row k of a brought-back operand. -/
def opRow (v : Val) (k : Nat) : Row := match v with | .t t => tileRow t k | v => v.row

/-- The adjoint's contributions for row k of an entry. -/
def entryAdj (e : Entry) (dy : Row) (v : Nat → Row) : List (Nat × Lanes × Flg) :=
  match e.fu with
  | 12 => txAdj e.port e.scw dy (v 3) (v 2)
  | 13 => tsAdj e.port dy (v 0) (v 2)
  | _ => taAdj (rowForm e.port) dy (v 0) (v 1) (v 2)

/-- The lanes of a contribution as a row. -/
def lanesRow (l : Lanes) : Row := rowOf fun i => ((l[i]?).getD none).getD 0

/-- The contributions of a scalar source: the row sums in FP32 RNE, summed in ascending row order (R257). -/
def scalarContr (rows : List Lanes) : LF :=
  let sums := rows.map fun l => pairTree 0 0 23 false (lanesRow l)
  match sums with
  | [] => lf 0
  | x :: l => l.foldl (fun a y => rneAdd a (y.1, y.2)) (x.1, x.2)

/-- The contributions of operand i over the rows of an entry (R257). -/
def operandContr (e : Entry) (i : Nat) (rows : List (List (Nat × Lanes × Flg))) : List Contr × Flg :=
  let mine := rows.zipIdx.filterMap fun p => (p.1.find? fun x => x.1 = i).map fun x => (p.2, x.2)
  let g := e.tag i / 256
  let r := e.tag i % 256
  let f := flgAll (mine.map fun x => x.2.2)
  if mine = [] then ([], 0)
  else if e.sk i then
    let (v, h) := scalarContr (mine.map fun x => x.2.1)
    ([⟨g, r, some v :: List.replicate 63 none⟩], f ||| h)
  else (mine.map fun x => ⟨g, r + x.1, x.2.1⟩, f)

/-- Process a tile entry: its contributions (R256, R257). -/
def tileEntry (g : Agent) (da : Word) (e : Entry) : Acc (List Contr) := do
  let n := if e.whole then 8 else 1
  let dys ← (List.range n).mapM fun k => readBuf g e.rgid (e.rrow + k)
  let ops ← (adjReads e.fu e.port).mapM fun i => do
    let v ← bringBack g da e i
    pure (i, v)
  let val (i : Nat) : Val := ((ops.find? fun p => p.1 = i).map (·.2)).getD (.s 0)
  let rows := dys.zipIdx.map fun p => entryAdj e p.1 fun i => opRow (val i) p.2
  let cs := [0, 1, 2].map fun i => operandContr e i rows
  cmdFlags g.n (flgAll (cs.map (·.2)))
  pure (cs.flatMap (·.1))

/-! ## Matrix entries (R259, R260) -/

/-- Write arena bytes of the context's own quad. -/
def writeArena (g : Agent) (off v n : Nat) : Acc Unit := writePhys (arenaPA g.img (quadOf g.n) off) v n (w64 off)
/-- Read them. -/
def readArena (g : Agent) (off n : Nat) : Acc Nat := readPhys (arenaPA g.img (quadOf g.n) off) n (w64 off)

/-- The scratch test of R259. -/
def scratchBad (c : Ctx) (b : Word) : Bool := decide (b.toNat % 65536 ≠ 0 ∨ arenaBytes c < b.toNat + 196608)

/-- Rows of a contribution patch, from row `r` of buffer `gid` on. -/
def patchContr (gid r v : Nat) : List Contr :=
  (List.range 16).map fun i =>
    ⟨gid, r + i, (List.range 64).map fun j => some (BitVec.ofNat 32 (v >>> (32 * (64 * i + j))))⟩

/-- Process a matrix entry (R260): the adjoint routine runs as one step on the operands brought back. -/
def matrixEntry (g : Agent) (da : Word) (q : Cmd) (e : Entry) : Acc (List Contr) := do
  let s ← get
  let c := g.img
  let k := coreOf g.n
  let m := (s.core k).matrix
  let adj := mdAdj (m.word e.rrow)
  if adj = 0xFF then pure []
  else
    faultIf (scratchBad c q.a1) 0x20 q.a1
    faultIf (decide (m.owner ≠ some g.n)) 0x0F 0
    let mpImg ← readLog g da e.first.toNat 1
    let rec0 := wordsOf mpImg 8
    let sc := q.a1.toNat
    let mp := rec0.take 5 ++ [w64 sc, w64 (sc + 65536), w64 (sc + 131072)]
    let (ws, _) := wordsFrom m 64 (mdEntry (m.word adj))
    let (fw, _) := wordsFrom m 64 (mdEntry (m.word e.rrow))
    match firstFlt [routineCheck m adj, callCheck c mp ws,
        (if lthrOf s (dieOf g.n) < BitVec.ofNat 16 (mdWt (m.word adj)) ∧ m.grant < BitVec.ofNat 16 (mdWt (m.word adj)) then
          some (0x10, w64 (mdWt (m.word adj))) else none)] with
    | some f => throw f
    | none => pure ()
    let (oa, ob) ← matrixOpnds g da e.slot (fun x => forwardRun g da e.slot 4 x) m e rec0 fw fun _ => true
    let rrow := fld e.scw 22 8
    let tgt (w : MWord) : Nat := 4 * mwDr w + mwDc w
    let gs := ws.filter fun w => mwMop w = 4
    gs.forM fun w => (List.range 16).forM fun i => do
      let r ← readBuf g e.rgid (rrow + 16 * tgt w + i)
      writeArena g (sc + 4096 * tgt w + 256 * i) r.toNat 256
    let bufs := bufsOf c mp ws
    let data ← ws.mapM fun w => do
      let get (role : Nat) : Acc Nat :=
        match (wordOpnds w).find? fun o => o.read && o.role = role with
        | none => pure 0
        | some o =>
          let off := opndOff c mp bufs { o with lo := 0 }
          match (if role = 0 then imageAt oa.1 oa.2 off o.patch else if role = 1 then imageAt ob.1 ob.2 off o.patch else none) with
          | some v => pure v
          | none => readArena g off o.patch
      let a ← get 0
      let b ← get 1
      let x ← get 2
      pure (w, (a, b, x))
    let x : BitVec 16 := e.scw.setWidth 16
    let r := runWords e.fmt x.toInt (e.scw.extractLsb' 16 6) data ⟨m.acc, m.wb, [], 0⟩
    r.outs.forM fun o => writeArena g (opndOff c mp bufs o.1) o.2 o.1.len
    modify fun s => s.updCore k fun y =>
      { y with curw := y.curw + BitVec.ofNat 24 (mdWt (m.word adj)), matrix := { y.matrix with acc := r.acc, wb := r.wb } }
    cmdFlags g.n r.flg
    let cs ← gs.mapM fun w => do
      let da ← readArena g (sc + 65536 + 32 * mwCoff w) 4096
      let db ← readArena g (sc + 131072 + 32 * mwCoff w) 4096
      let ja := 32 * mwAoff w / (32 + 128 * mwNpl w)
      let jb := 32 * mwBoff w / (32 + 1024 * mwD w)
      pure (patchContr (e.tag 0 / 256) (e.tag 0 % 256 + 16 * ja) da ++
        patchContr (e.tag 1 / 256) (e.tag 1 % 256 + 16 * jb) db)
    pure cs.flatten

/-! ## The walk (R255, R256, R261) -/

/-- How an entry leaves the walk: it goes on below, or the unpick ends with a status. -/
inductive Walk where
  | on (cursor : Nat)
  | ends (status : Nat)
  deriving DecidableEq, Repr

/-- After an entry: the one before it, or the end at slot 0. -/
def walkOn (e : Entry) : Walk := if e.first ≤ 0 then .ends 3 else .on (e.slot - e.len)

/-- Process the entry at the cursor: how the walk leaves it, and its contributions; `fresh` says that a mark there is to
be judged (R255). -/
def unpickOne (g : Agent) (q : Cmd) (cursor : Nat) (fresh : Bool) : Acc (Walk × List Contr) := do
  let e ← readEntry g q.a3 cursor
  match e.kind with
  | 1 => pure (walkOn e, toAdd q.aux (← if e.rgid = 0 then pure [] else tileEntry g q.a3 e))
  | 2 => pure (walkOn e, toAdd q.aux (← if e.rgid = 0 then pure [] else matrixEntry g q.a3 q e))
  | 3 => pure (if fresh && fld (wordAt e.w 3) 0 32 = fld q.go 0 32 then .ends 1 else walkOn e, [])
  | 4 => pure (if fresh then .ends 2 else walkOn e, [])
  | _ => pure (walkOn e, [])

/-- The end of an unpick: the token, STAT and RUN together. -/
def unpickEnds (s : State) (n : Nat) (q : Cmd) (st : Nat) : State :=
  endServed (onServed s n 23 fun c => c.updCtl fun l =>
    { l with bsStat := if st = 2 then 2 else 1, bsRun := decide (st = 2) }) n 23 (skTok q.a2) (w64 st)

/-- Start an unpick at its cursor (R255). -/
def unpickStart (g : Agent) (q : Cmd) (c : Ctx) : Acc (Option Nat) := do
  if q.a0.getLsbD 0 then pure (some c.ctl.bsCursor.toNat)
  else do
    let d ← readDesc g q.a3
    pure (if d.clen = 0 then none else some (d.clen - 1))

/-- Set the cursor of an unpick, and note that it has started: `chunk` is 1 while a mark at the cursor is skipped. -/
def setCursor (s : State) (n cursor chunk : Nat) : State :=
  onServed s n 23 fun c => (c.updCtl fun l => { l with bsRun := true, bsCursor := BitVec.ofNat 40 cursor }).updCmd 23
    fun q => { q with chunk := chunk, aux := if q.chunk = 0 then q.aux else 0 }

/-- Set the contributions of the current entry that an unpick still has to add. -/
def setContrs (s : State) (n : Nat) (l : List Contr) : State :=
  onServed s n 23 fun c => c.updBaste fun b => { b with contrs := l }

/-- After an entry: the unpick ends, or goes on within 29 clks. With up to 30 clks for an entry's rows, it keeps to the 60
clks per entry of R62. -/
def walkStep (s : State) (n : Nat) (q : Cmd) : Walk → State
  | .ends st => unpickEnds s n q st
  | .on cur => (setCursor s n cur 2).within 1 29 (.unpickEntry n)

/-- Rows that an unpick adds in one clk: one, and more only where an entry has more than 30 (DESIGN CHOICE, log 51). -/
def rowsPerClk (q : Cmd) (l : List Contr) : Nat := ceilDiv (q.aux + l.length) 30

/-- One clk of an unpick's additions (R256, R261). A fault leaves the rows added, and the entry is processed again. -/
def addSome (s : State) (n : Nat) (g : Agent) (q : Cmd) (l : List Contr) : State :=
  let k := rowsPerClk q l
  match ((l.take k).forM (addContr g)).run s with
  | (.error f, t) => faultServed (setContrs t n []) n 23 f.1 f.2
  | (.ok _, t) =>
    let t := setContrs t n (l.drop k)
    if l.drop k ≠ [] then t.within 1 1 (.unpickEntry n)
    else match (readEntry g q.a3 g.img.ctl.bsCursor.toNat).run t with
      | (.error f, t) => faultServed t n 23 f.1 f.2
      | (.ok e, t) => walkStep t n q (walkOn e)

/-- UNPICK_ENTRY (R255-R261): the unpick of context n begins, processes the entry at its cursor, or adds a row of its
contributions. -/
def execUnpickEntry (n : Nat) (s : State) : Out :=
  match served s n 23 with
  | none => .next s
  | some (c, q) =>
    if q.port ≠ 7 then .next s
    else
      let g := cmdAgent n c q
      if q.chunk = 0 then
        match (unpickStart g.home q c).run s with
        | (.error f, t) => .next (faultServed t n 23 f.1 f.2)
        | (.ok none, t) => .next (unpickEnds (setCursor t n 0 2) n q 3)
        | (.ok (some cur), t) =>
          .next ((setCursor t n cur (if q.a0.getLsbD 0 then 1 else 2)).within 1 29 (.unpickEntry n))
      else if c.baste.contrs ≠ [] then .next (addSome s n g q c.baste.contrs)
      else
        match (unpickOne g q c.ctl.bsCursor.toNat (q.chunk = 2)).run s with
        | (.error f, t) => .next (faultServed t n 23 f.1 f.2)
        | (.ok (w, []), t) => .next (walkStep t n q w)
        | (.ok (_, l), t) => .next ((setContrs t n l).within 1 1 (.unpickEntry n))

end Sys2Proof.Machine
end

