-- ==== Sys2Proof/Machine/CoreEvents.lean ====
section
/-!
DEFINITION. The steps of a core that no move of its own names: landings, row sequencers, bank arbitration and local
accesses, blocks, windows, table walks of a CT operation, the data-error fault and the delivery of faults.
-/

namespace Sys2Proof.Machine

/-! ## Landings and sequencers -/

/-- RESULT_LANDING (R42, R43, R91): every result of context n that is due lands; a staged entry that
waits for the result has it (R247). -/
def execResultLanding (n : Nat) (s : State) : Out :=
  .next (s.updCtx n fun c =>
    let due := c.inf.flights.filter fun f => f.rem = 0
    let row (f : Flight) : Bool := match f.what with | .entry (.t _) => false | .entry _ => true | .row _ _ => false
    (due.filter row).foldl (fun c f => stageLanded c f.id) (landDue c))

/-- Row k of one sequencer; `c0` is the context as it stood at the start of the clk (R41, R123, R124). -/
def jobRow (c0 c : Ctx) (j : Job) : Ctx :=
  let r := seqRead c0 j.src j.k
  let tg := seqTag c0 j.src j.k j.tagSrc
  let img (i : Nat) (v : Row) (c : Ctx) : Ctx := if j.stage = 0 then c else stageImg c j.stage i (imgRow j.k v)
  match j.dst with
  | .reg t => c.updRegs fun x => (x.setRow t j.k r).setTag (32 + 8 * t + j.k) tg
  | .portD fu =>
    { c with
      ports := KMap.put c.ports (4 * fu + 3) (.t (tileSet (c.portT fu 3) j.k r))
      regs := c.regs.setTag (portTag fu 3 j.k) tg }
  | .ta fu port =>
    let d := tileRow (c.portT fu 3) j.k
    let res := taTileRow port j.fmt fu j.k d r
    let c := img 0 d (img 2 r (c.fly 4 fu j.id (.row j.k res.1) res.2 0))
    if j.stage = 0 then c else stageLanded c j.stage
  | .xpose => img 2 r (c.fly 6 13 j.id (.row j.k (xposeRow r)) 0 0)
  | .stt addr =>
    addAccs [oneAcc j.id 3 0 (segsOf (addr.toNat + 256 * j.k) 0 256) r.toNat .store false (decide (j.k = 7))] c
  | .stp addr npl half =>
    if j.k = 7 then
      addAccs [oneAcc j.id 3 0 (planeSegs addr.toNat npl half) (planeData npl (tileSet j.buf 7 r)) .store false true] c
    else c

/-- Is a job the writer of a port d? Those come before the triggers that read the port in the same clk (R123). -/
def isPortD (j : Job) : Bool := match j.dst with | .portD _ => true | _ => false

/-- TILE_SEQUENCER_ROW (R40, R41, R123): every row sequencer of context n moves one row. DESIGN CHOICE (log 51): two whole-tile
moves into one port d, or by one slot into registers, fewer than 8 clks apart, for which no interval is given, run both, in their
order. -/
def execTileSequencerRow (n : Nat) (s : State) : Out :=
  .next (s.updCtx n fun c0 =>
    let js := c0.inf.jobs
    let c := ((js.filter isPortD) ++ (js.filter fun j => !isPortD j)).foldl (jobRow c0) c0
    c.updInf fun i => { i with
      jobs := (js.filter fun j => decide (j.k < 7)).map fun j =>
        { j with k := j.k + 1, buf := tileSet j.buf j.k (seqRead c0 j.src j.k) } })

/-! ## Banks (R153-R155) -/

/-- The bank of a physical vault address. -/
def bankOf (pa : Nat) : Nat := pa / 256 % 32

/-- Does an exclusive block freeze the core of a context (R24)? -/
def exclBlock (c : Ctx) : Bool := c.blocked && c.ctl.excl && decide (c.st = .running) && c.delivered = []

/-- DEDUCED (log 49): the local accesses for which an acquire go waits that the context has queued. An exclusive block can end
with that command alone, so it does not hold them (R24, R176, R464). -/
def awaited (c : Ctx) : List Nat :=
  c.queues.flatMap fun q => (q.2.filter fun x => decide (x.fu ≤ 20) && x.go.getLsbD 61).flatMap (·.after)

/-- Mark accesses that a frozen clk lets go on. -/
def goOn (c : Ctx) (p : LocalAcc → Bool) : Ctx :=
  { c with accs := c.accs.map fun a => if a.fin ≠ .mat && p a then { a with wall := true } else a }

/-- A frozen clk of core c: the accesses that its freeze waits for go on, and with them every access that is performed no later,
so that all keep their order (log 49). -/
def wallClk (s : State) (c : Nat) : State :=
  let on (i : Nat) : Ctx :=
    let x := s.ctx (4 * c + i)
    if exclBlock x then goOn x fun a => (awaited x).contains a.id else x
  let l := [0, 1, 2, 3].flatMap fun i => (on i).accs.filter (·.wall)
  if l = [] then s
  else
    let r := listMax (l.map (·.rem))
    [0, 1, 2, 3].foldl (fun s i =>
      if (s.ctx (4 * c + i)).accs = [] then s
      else s.setCtx (4 * c + i) (tickWall (goOn (on i) fun a => decide (a.rem ≤ r)))) s

/-- Does an access of context n reach its bank in this clk (R45, R154)? -/
def comes (s : State) (n : Nat) (a : LocalAcc) : Bool :=
  decide ((s.core (coreOf n)).icd = 0 ∧ a.rem = 1) && (a.wall || !exclBlock (s.ctx n))

/-- The bank rows that core c claims in this clk: those of accesses that reach their bank (R154). -/
def claims (s : State) (c : Nat) : List Seg :=
  (List.range 4).flatMap fun i =>
    ((s.ctx (4 * c + i)).accs.filter fun a => comes s (4 * c + i) a).flatMap (·.segs)

/-- The first core of a quad at or after its bank's pointer that claims bank b. -/
def bankWinner (s : State) (q b : Nat) : Option Nat :=
  let p := KMap.get 0 s.bankPtr (32 * q + b)
  ((List.range 4).map fun i => (p + i) % 4).find? fun i => (claims s (4 * q + i)).any fun g => bankOf g.pa = b

/-- Grant the first claimed row of bank b in a list of accesses, with every piece of the access in that row; `p` says
which of them claim. -/
def grantIn (p : LocalAcc → Bool) (b : Nat) : List LocalAcc → List LocalAcc × Bool
  | [] => ([], false)
  | a :: l =>
    match (if p a then a.segs.find? fun g => bankOf g.pa = b else none) with
    | some g =>
      let (hit, rest) := a.segs.partition fun x => x.pa / 256 = g.pa / 256
      ({ a with segs := rest, won := a.won ++ hit } :: l, true)
    | none => let (l', d) := grantIn p b l; (a :: l', d)

/-- Grant bank b's row to core c: to its lowest context that claims it. -/
def grantCore (s : State) (c b : Nat) : State :=
  let rec go (s : State) : List Nat → State
    | [] => s
    | i :: l =>
      let (as, d) := grantIn (comes s (4 * c + i)) b (s.ctx (4 * c + i)).accs
      if d then s.updCtx (4 * c + i) fun x => { x with accs := as } else go s l
  go s [0, 1, 2, 3]

/-- The bank of a row of the vaults (R153), counted over all quads. -/
def bankKey (row : Nat) : Nat := 32 * quadOfPA (256 * row) + row % 32

/-- The claim that has waited longest, of equals the lowest class (R155). -/
def oldestClaim : List BankClaim → Option BankClaim
  | [] => none
  | c :: l => match oldestClaim l with
    | none => some c
    | some d => if d.since < c.since ∨ (d.since = c.since ∧ d.kind < c.kind) then some d else some c

/-- Grant bank `key` to a waiting claim: one of its rows there. -/
def grantClaim (s : State) (key : Nat) (c : BankClaim) : State :=
  let row := (c.rows.find? fun r => bankKey r = key).getD 0
  { s with bankq := listUpd (fun x => decide (x = c)) (fun x => { x with rows := x.rows.erase row }) s.bankq }

/-- One clk of bank b of quad q (R155): first an access other than a core's that has waited 16 clks, in one of four clks;
then the cores in rotation; then the other accesses, oldest first. -/
def grantBank (s : State) (q b : Nat) : State :=
  let key := 32 * q + b
  let mine := s.bankq.filter fun c => c.rows.any fun r => bankKey r = key
  let took (s : State) : State := { s with bankNow := key :: s.bankNow }
  if s.bankNow.contains key then s
  else match (if KMap.get 0 s.bankNext key ≤ s.clk then oldestClaim (mine.filter fun c => c.since + 16 ≤ s.clk) else none) with
    | some c => took { grantClaim s key c with bankNext := KMap.put s.bankNext key (s.clk + 4) }
    | none => match bankWinner s q b with
      | some i => took { grantCore s (4 * q + i) b with bankPtr := KMap.put s.bankPtr key ((i + 1) % 4) }
      | none => match oldestClaim mine with
        | some c => took (grantClaim s key c)
        | none => s

/-- One clk of a quad's banks: each grants one row (R155). -/
def arbitrate (s : State) (q : Nat) : State := (List.range 32).foldl (fun s b => grantBank s q b) s

/-- The class of a step that makes engine, flow or lateral accesses to vaults (R155). -/
def bankKind (e : Instr) : Option Nat :=
  match e with
  | .lateralPerform _ _ => some 0
  | .engineChunkComplete _ _ => some 1
  | .npInjection _ => some 1
  | .unpickEntry _ => some 1
  | .logEntryWrite _ => some 1
  | .ptCommandComplete _ => some 1
  | .deliverChunk _ _ => some 2
  | _ => none

/-- May a step take its bank rows at once: each of another bank that has granted none in this clk, for which no access
waits, and which, before the cores have claimed (`late` is false), no core claims? -/
def banksFree (s : State) (late : Bool) (rows : List Nat) : Bool :=
  decide (rows.map bankKey).Nodup && rows.all fun r =>
    let key := bankKey r
    !s.bankNow.contains key && !(s.bankq.any fun c => c.rows.any fun x => bankKey x = key) &&
      (late || !(List.range 4).any fun i => (claims s (4 * (key / 32) + i)).any fun g => bankOf g.pa = key % 32)

/-- Is core c refused a bank row that it claims in this clk? One that an exclusive block freezes claims again. -/
def bankRefused (s : State) (c : Nat) : Bool :=
  decide (claims s c ≠ []) && !((List.range 4).any fun i => exclBlock (s.ctx (4 * c + i)))

/-- Context n gives back the rows it won in a clk in which its core froze: its accesses reach their banks in the next
unfrozen clk (R45, R154), but for those that the freeze waits for. -/
def giveBack (s : State) (n : Nat) : State :=
  let back (a : LocalAcc) : LocalAcc := if a.wall then a else { a with segs := a.won ++ a.segs, won := [] }
  s.updCtx n fun c => { c with accs := c.accs.map back }

/-! ## Data errors (R196, R212) -/

/-- The lowest erroneous word that context n's matrix step is still to read (R212). -/
def stepBad (s : State) (n : Nat) : Option Nat :=
  match (s.core (coreOf n)).matrix.step with
  | some m =>
    if m.n = n && !m.readDone && !m.early && !m.dead then
      (m.reads.filterMap fun r => s.badIn (arenaPA (s.ctx n) (quadOf n) r.1) r.2).head?
    else none
  | none => none

/-- TRAPVAL of an erroneous word that a matrix step reads: its arena offset. -/
def stepVal (s : State) (n b : Nat) : Word := w64 (b - arenaPA (s.ctx n) (quadOf n) 0)

/-- The fault of a context's accesses or step, if any: its address (R197). -/
def faultOf (s : State) (n : Nat) (l : List LocalAcc) : Option Word :=
  match l.find? fun a => (segsBad s a (a.won ++ a.segs)).isSome with
  | some a => some a.va
  | none => (stepBad s n).map (stepVal s n)

/-- Take a data-error fault: the accesses of the replay buffer stay to be performed, and a matrix step stays in the
snapshot (R212, R414, R417); without a handler that the context can still enter (R320) the walk starts at the core level, and
true says that its fate is ignore. A killed member ends (R424). -/
def takeDataError (s : State) (n : Nat) (r : Replay) (v : Word) : State × Bool :=
  let c := s.ctx n
  if c.doomed then (endMember s n, false)
  else if hasHandler c && decide (c.st = .running) then
    let s := s.updCtx n fun c =>
      { c with replay := none, accs := c.accs.filter fun a => !(r.accs.any fun x => x.id = a.id && x.fin = a.fin) }
    (trapEntry s n 0x27 v r.org.pc 2 0 (some r), false)
  else walkCtx s n 0x27 0 v false

/-- The check of R196 and R212 for the accesses and the step that the bundle in the latch has entered, as their banks will
find them (R417: the capture clk of a data error is its bundle's issue clk). Bank rows before the erroneous one are
performed (R196). DEDUCED (log 40): the banks are looked at as the quad's local accesses and steps will leave them. -/
def dataErrors (s : State) (n : Nat) : State :=
  let new := (s.ctx n).accs.filter fun a => !(s.iss.ctx.accs.any fun x => x.id = a.id)
  let m := (s.core (coreOf n)).matrix.step.filter fun m => m.n = n ∧ m.age = 0
  let ids := (new.map (·.id) ++ m.toList.map (·.id)).eraseDups
  if ids = [] then s
  else
    let org := issuedNow s
    let s := s.updCtx n fun c => { c with recent :=
      (c.recent.filter fun p => (openIds s n c).contains p.1) ++ ids.map fun i => (i, org) }
    if s.bad = [] then s
    else
      let t := { s with bad := (soon s n).bad }
      let bad (a : LocalAcc) : Bool := (segsBad t a a.segs).isSome
      let left := new.dropWhile fun a => !bad a
      let r : Replay := ⟨org, (s.ctx n).pc, (s.ctx n).npc, left⟩
      match left with
      | a :: _ =>
        let (u, ign) := takeDataError s n r a.va
        if ign then u.updCtx n fun c => { c with accs := c.accs.map fun x => if left.contains x then { x with dead := true } else x }
        else u
      | [] => match m.bind fun _ => stepBad t n with
        | some b =>
          let (u, ign) := takeDataError s n r (stepVal s n b)
          if ign then u.updCore (coreOf n) fun k => deadStep k n else u
        | none => s

/-- A word found erroneous in the bank clk that was none at issue: the bundle of the access is in the replay buffer and
the context goes on at its pc (R196, R414). True where the access goes on with the word read as 0. -/
def bankError (s : State) (n : Nat) (a : LocalAcc) : Option (State × Bool) :=
  match segsBad s a a.won with
  | none => none
  | some _ =>
    let c := s.ctx n
    let left := (c.accs.filter fun x => x.id = a.id).map fun x => { x with segs := x.won ++ x.segs, won := [] }
    some (takeDataError (s.updCtx n fun c => { c with accs := c.accs.map fun x =>
      { x with segs := x.won ++ x.segs, won := [] } }) n ⟨issuedBy c a.id, c.pc, c.npc, left⟩ a.va)

/-- Perform the bank rows that one access of context n has won; one whose last row is performed is done (R193). Rows of a step
that are granted before the last are read now. -/
def performOne (s : State) (n : Nat) (a : LocalAcc) : State :=
  let (s, a') := a.won.foldl (fun (s, a) g => performSeg s a g) (s, a)
  let a' := { a' with won := [] }
  let s := if a.fin = .mat then gotRows s n a.won else s.updCore (coreOf n) fun k => k.count 0x0B (rowCount a.won)
  s.updCtx n fun c =>
    if a'.segs = [] && (decide (a'.rem = 0) || a.won ≠ []) then accDone { c with accs := c.accs.filter (· ≠ a) } a'
    else { c with accs := c.accs.map fun x => if x = a then a' else x }

/-- Perform the bank rows that context n has won. -/
def performWon (s : State) (n : Nat) : State :=
  let rec go (s : State) : List LocalAcc → State
    | [] => s
    | a :: l =>
      match bankError s n a with
      | none => go (performOne s n a) l
      | some (t, ign) =>
        if ign then
          let a' := { a with dead := true }
          go (performOne (s.updCtx n fun c => { c with accs := c.accs.map fun x => if x = a then a' else x }) n a') l
        else t
  go s (s.ctx n).accs

/-- LOCAL_ACCESS_PERFORM (R154): the bank rows that the contexts of core c were granted in this clk. -/
def execLocalAccessPerform (c : Nat) (s : State) : Out :=
  .next ((List.range 4).foldl (fun s i => if (s.ctx (4 * c + i)).accs = [] then s else performWon s (4 * c + i)) s)

/-- The accesses of the replay buffer, or the erroneous words of the step, read as 0 (R196, R212). -/
def deadReplay (s : State) (n : Nat) : State :=
  (s.updCtx n fun c =>
    { c with replay := c.replay.map fun r => { r with accs := r.accs.map fun a => { a with dead := true } } }).updCore
    (coreOf n) fun k => deadStep k n

/-- The held step of context n on core c, if its core has one. -/
def heldStep (s : State) (n : Nat) : Option MStep :=
  (s.core (coreOf n)).matrix.step.filter fun m => m.n = n && m.held

/-- What a context that resumes would meet at the accesses of its replay buffer or at its step's operands (R196, R212). -/
def resumeFault (s : State) (n : Nat) : Option (Replay × Word) :=
  let c := s.ctx n
  let r := c.replay.getD ⟨issuedBy c (((heldStep s n).map (·.id)).getD 0), c.pc, c.npc, []⟩
  match r.accs.find? fun a => (segsBad s a (a.won ++ a.segs)).isSome with
  | some a => some (r, a.va)
  | none => match heldStep s n with
    | some m =>
      if m.early || m.dead then none
      else ((m.reads.filterMap fun x => s.badIn (arenaPA c (quadOf n) x.1) x.2).head?).map fun b => (r, stepVal s n b)
    | none => none

/-- The work before the first resumed clk (R196, R212, R213, R414): slot 3 of the buffered bundle is performed again, its
result landing at its clk, and a step in the snapshot reads its operands again. -/
def rework (s : State) (n : Nat) : State :=
  let l := ((s.ctx n).replay.map (·.accs)).getD []
  let s := s.updCtx n fun c => { c with accs := c.accs ++ l, replay := c.replay.map fun r => { r with accs := [] } }
  let s := l.foldl (fun s a => performCounted s n a) s
  match heldStep s n with
  | some m => if m.early then s else rereadStep s (coreOf n)
  | none => s

/-- Before the first resumed clk of context n: what it is to perform again, or the fault that meets (none where it goes on).
A fault that a retry of the walk meets again goes on with the walk (R422). -/
def resumeWork (s : State) (n : Nat) : State × Bool :=
  match resumeFault s n with
  | none => (rework s n, true)
  | some (r, v) =>
    let (t, ign) := match (s.ctx n).walk.filter fun _ => (s.ctx n).replay.isSome with
      | none => takeDataError s n r v
      | some (lvl, _) => walkCtx (s.updCtx n fun c => { c with walk := none }) n 0x27 (lvl + 1) v false
    if ign then (rework (deadReplay t n) n, true) else (t, false)

/-- The context goes on with its snapshot (R413): its step too, whose stores claim their banks. -/
def wake (s : State) (n : Nat) : State :=
  let m := heldStep s n
  let s := s.updCore (coreOf n) fun k => { k with matrix := { k.matrix with
    step := k.matrix.step.map fun m => if m.n = n then { m with held := false } else m } }
  s.updCtx n fun c =>
    let c := { c with parked := false }
    match m with
    | none => c
    | some m =>
      let ws := rangesOf c m.mp m.bufs ((m.words.flatMap wordOpnds).filter fun o => !o.read)
      if ws = [] ∨ mdS m.dir ≤ m.age + 1 then c
      else addAccs [oneAcc m.id (mdS m.dir - 1 - m.age) 0 (rowSegs s n ws) 0 .mat false false] c

/-- The buffered bundle has issued again (R414): the bundle that follows it is next. -/
def endReplay (c : Ctx) : Ctx :=
  match c.replay with
  | none => c
  | some r => { c with pc := r.next, npc := r.npc, replay := none, walk := none }

/-- A context goes on after a trap, a stop or a class-V freeze: with its next issue, or, where it issues no more, at once
(R413, R320). -/
def goAgain (s : State) (n : Nat) : State :=
  let c := s.ctx n
  if c.workSt = .running && c.rfe.isNone then s.updCtx n fun c => { c with parked := true }
  else
    let (s, ok) := resumeWork s n
    if ok then (wake s n).updCtx n endReplay else s

/-- An erroneous word that the matrix step of core c meets in this clk (R212): the fault, or the step with the word read
as 0 where the walk ignores it (true). -/
def stepError (s : State) (c : Nat) : Option (State × Bool) :=
  match (s.core c).matrix.step with
  | none => none
  | some m =>
    if m.age ≠ 2 || m.held then none
    else (stepBad s m.n).map fun b =>
      let x := s.ctx m.n
      let (t, ign) := takeDataError s m.n ⟨issuedBy x m.id, x.pc, x.npc, []⟩ (stepVal s m.n b)
      (if ign then t.updCore c fun k => deadStep k m.n else t, ign)

/-! ## Blocks, windows, walks, delivery -/

/-- BUNDLE_BLOCK (R21): the bundle in the latch is blocked; it performs none of its moves. In shared mode its context no
longer keeps the core (R23). -/
def execBundleBlock (s : State) : Out :=
  .next ((s.updCtx s.iss.n fun c => { c with blocked := true }).updCore (coreOf s.iss.n) fun k =>
    { k with gave := k.gave || !s.iss.ctx.ctl.excl })

/-- BLOCKED_BUNDLE_ISSUE (R21, R23): the condition has cleared, so the context is ready from this clk on and its
bundle issues whole when the core next issues from it. -/
def execBlockedBundleIssue (n : Nat) (s : State) : Out :=
  .next (s.updCtx n fun c => if c.blocked then { c with blocked := false, readySince := s.clk } else c)

/-- WINDOW_EXPIRY (R456). -/
def execWindowExpiry (c : Nat) (s : State) : Out := .next (s.updCore c fun k => { k with curw := 0 })

/-- TRANSLATION_WALK (R371, R401): the walk of the CT operation at the pc has made its last read. -/
def execTranslationWalk (n : Nat) (s : State) : Out :=
  let c := s.ctx n
  if c.xwalk = some false then
    .next ((tlbFill s (quadOf n) c.ctl.asid c.ctl.ptroot (c.portW 6 0 &&& ~~~7)).updCtx n fun c =>
      { c with xwalk := some true })
  else .next s

/-- FAULT_DELIVERY (R417): the first waiting fault of context n is delivered before the bundle at its pc, which is
abandoned unissued; in a handler, or without one, or in a member that drains and issues no more (R320), it starts the
walk (R416, R420). -/
def execFaultDelivery (n : Nat) (s : State) : Out :=
  match (s.ctx n).delivered with
  | [] => .next s
  | (code, v, fu) :: l =>
    let s := s.updCtx n fun c => { c with delivered := l, blocked := false, readySince := s.clk }
    if hasHandler (s.ctx n) && (s.ctx n).st = .running then .next (trapEntry s n code v (s.ctx n).resumePc 3 fu none)
    else .next (walkFault s n code v fu)

end Sys2Proof.Machine
end

