-- ==== Sys2Proof/Machine/Launch.lean ====
section
/-!
DEFINITION. Launch records (R307, R308), their acceptance (R309-R311), readiness (R312), the LN unit (R318-R320) and the
retirement of members and kernels (R20, R320).
-/

namespace Sys2Proof.Machine

/-! ## The record (R307) -/

def rPrio (w : List Word) : Nat := fld (wordAt w 0) 0 3
def rShape (w : List Word) : Nat := fld (wordAt w 0) 3 3
def rGn (w : List Word) : Nat := fld (wordAt w 0) 6 4
def rExcl (w : List Word) : Bool := (wordAt w 0).getLsbD 10
def rPriv (w : List Word) : Bool := (wordAt w 0).getLsbD 11
def rMxu (w : List Word) : Bool := (wordAt w 0).getLsbD 12
def rAsz (w : List Word) : Nat := fld (wordAt w 0) 13 8
def rPdie (w : List Word) : Nat := fld (wordAt w 0) 21 2
def rPinv (w : List Word) : Bool := (wordAt w 0).getLsbD 23
def rImage (w : List Word) : Word := w64 (fld (wordAt w 1) 0 56)
def rImgb (w : List Word) : Nat := fld (wordAt w 2) 0 32
def rEntry (w : List Word) : Nat := fld (wordAt w 2) 32 23
def rAsid (w : List Word) : BitVec 16 := (wordAt w 3).extractLsb' 0 16
def rCpol (w : List Word) : BitVec 10 := (wordAt w 3).extractLsb' 16 10
def rTrapvec (w : List Word) : Nat := fld (wordAt w 3) 32 23
def rRoot (w : List Word) : BitVec 36 := (wordAt w 4).extractLsb' 12 36
def rFmt (w : List Word) : Word := wordAt w 5
def rArg (w : List Word) (i : Nat) : Word := wordAt w (6 + i)
def rCaddr (w : List Word) : Word := w64 (fld (wordAt w 10) 0 56)
def rCadd (w : List Word) : Word := wordAt w 11
def rDaddr (w : List Word) (i : Nat) : Word := w64 (fld (wordAt w (12 + 2 * i)) 0 56)
def rDval (w : List Word) (i : Nat) : Word := wordAt w (13 + 2 * i)
def rPat (w : List Word) (i : Nat) : Nat := fld (wordAt w (20 + i / 2)) (32 * (i % 2)) 32
def rRimg (w : List Word) : Word := w64 (fld (wordAt w 22) 0 56)
def rDirn (w : List Word) : Nat := fld (wordAt w 23) 0 8
def rMwn (w : List Word) : Nat := fld (wordAt w 23) 12 12
def rBmask (w : List Word) : BitVec 128 := wordAt w 25 ++ wordAt w 24

/-- Quads of a crew (R14); a core crew stands on one. -/
def rQuads (w : List Word) : Nat := match rShape w with | 2 => rGn w | 3 => 64 | 4 => 256 | _ => 1

/-- Members of a crew (R14). -/
def rMembers (w : List Word) : Nat := if rShape w = 0 then 1 else 4 * rQuads w

/-- The bits of word i that a record may use. -/
def rMask (i : Nat) : Nat :=
  if i = 0 then 0xFFFFFF
  else if i = 2 then 0x7FFFFFFFFFFFFF
  else if i = 3 then 0x7FFFFF03FFFFFF
  else if i = 4 then 0xFFFFFFFFF000
  else if i = 23 then 0xFFF0FF
  else if i = 1 ∨ i = 10 ∨ i = 12 ∨ i = 14 ∨ i = 16 ∨ i = 18 ∨ i = 22 then 2 ^ 56 - 1
  else if i < 26 then 2 ^ 64 - 1
  else 0

/-- Code 1 of R310. -/
def recordReserved (w : List Word) : Bool :=
  ((List.range 32).any fun i => (wordAt w i).toNat &&& rMask i ≠ (wordAt w i).toNat) || decide (4 < rShape w) ||
    decide (240 < rDirn w) || decide (3584 < rMwn w)

/-- Codes 2 and 3 of R310. -/
def recordGn (w : List Word) : Bool := if rShape w = 2 then decide (rGn w < 2 ∨ 8 < rGn w) else decide (rGn w ≠ 0)
def recordSize (w : List Word) : Bool :=
  decide (rAsz w = 0 ∨ 128 < rAsz w ∨ rImgb w < 32 ∨ rAsz w * 65536 < rImgb w)

/-- The part of code 4 that needs no image, and that of code 8. -/
def recordAlign (w : List Word) : Bool :=
  decide (rEntry w % 32 ≠ 0 ∨ rTrapvec w % 32 ≠ 0 ∨ 5 ≤ fmtRM (rFmt w))
def recordCounters (w : List Word) : Bool :=
  decide ((rCaddr w).toNat % 8 ≠ 0) || [0, 1, 2, 3].any fun i => decide ((rDaddr w i).toNat % 8 ≠ 0)

/-! ## The image (R116, R308) -/

/-- Does a bundle end a straight-line run (R116): LEND, or an unguarded BR trigger? -/
def endsRun (b : Nat) : Bool :=
  let p := bundleOfNat b
  hdrLend p.1 || p.2.any fun w => match slotMove w with
    | some m => decide (m.g = 0 ∧ m.fu = 3 ∧ 4 ≤ m.port.toNat)
    | none => false

/-- The longest run of consecutive bundles that end none: the run so far and the longest (R116). -/
def longestRun (code n : Nat) : Nat :=
  ((List.range n).foldl (fun (p : Nat × Nat) i =>
    if endsRun (bits code (256 * i) 256) then (0, p.2) else (p.1 + 1, max p.2 (p.1 + 1))) (0, 0)).2

/-- The distributor's agent for a record's address space. -/
def distAgent (w : List Word) : Agent := ⟨0, Ctx.reset, baseBuf, rAsid w, rRoot w, true, false⟩

/-- NBUN of an image, at most the bundles that it holds, and its longest straight-line run. -/
def scanImage (w : List Word) : Acc (Nat × Nat) := do
  let h ← readVirt (distAgent w) (rImage w) 4
  let n := min h (rImgb w / 32)
  let code ← readVirt (distAgent w) (rImage w) (32 * n)
  pure (n, longestRun code n)

/-! ## Acceptance (R309, R310) -/

/-- Who launches: a context's kernel with its privilege and address space, or the host. -/
structure Launcher where
  kid : Option (BitVec 32)
  priv : Bool
  prio : Nat
  asid : BitVec 16
  root : BitVec 36
  deriving DecidableEq, Repr

def hostLauncher : Launcher := ⟨none, true, 7, 0, 0⟩

/-- The first cause of R310 that holds, if any; `img` is what the read of the image gave. An image that cannot be read is
cause 8 for a context (DEDUCED, log 36), and none for the host (R311): its placement meets the fault. -/
def refusal (s : State) (l : Launcher) (w : List Word) (img : Except Flt (Nat × Nat)) : Option Nat :=
  let outside := match img with
    | .ok p => decide (32 * p.1 ≤ rEntry w ∨ 32 * p.1 ≤ rTrapvec w)
    | .error _ => false
  let long := match img with | .ok p => decide (8192 < p.2) | .error _ => false
  let unread := match img with | .ok _ => false | .error _ => true
  if recordReserved w then some 1
  else if recordGn w then some 2
  else if recordSize w then some 3
  else if recordAlign w || outside then some 4
  else if !l.priv && rPriv w then some 5
  else if !l.priv && decide (l.prio < rPrio w) then some 6
  else if !l.priv && decide (rAsid w ≠ l.asid ∨ rRoot w ≠ l.root) then some 7
  else if recordCounters w || (unread && l.kid.isSome) then some 8
  else if 2048 ≤ s.dist.kerns.length then some 9
  else if long then some 10
  else none

/-- The next kernel instance number: never 0, and none that an unretired record holds (R309). -/
def freeKid (s : State) : Nat → BitVec 32 → BitVec 32
  | 0, k => k
  | f + 1, k => if k = 0 || s.dist.kerns.any fun x => x.kid = k then freeKid s f (k + 1) else k

/-- Has a pattern been live, be it retired since (R312)? -/
def patMet (s : State) (pid : Nat) : Bool :=
  decide (pid = 0) || (s.pats.any fun p => decide (p.pid.toNat = pid) && p.wasLive) || s.oncePats.any fun p => p.toNat = pid

/-- Watch the dependences of a new record with counter waits (R312). -/
def watchDeps (s : State) (k : Kern) : State :=
  [0, 1, 2, 3].foldl (fun s i =>
    let va := rDaddr k.words i
    if va = 0 then s
    else match (translate (distAgent k.words) va .wait 8).run s with
      | (.ok pa, t) => (postReq t (.depend k.kid i) va pa (rDval k.words i)).2
      | (.error f, t) => launcherFault t k.kid f.1 f.2) s

/-- Accept or refuse a record (R309, R310): its kernel instance number or the code. -/
def acceptRecord (s : State) (l : Launcher) (w : List Word) (aov : Option Word) : Except Nat (BitVec 32) × State :=
  let (img, s) := if recordReserved w || recordSize w then (.ok (0, 0), s) else (scanImage w).run s
  match refusal s l w img with
  | some c => (.error c, s)
  | none =>
    let kid := freeKid s 2050 s.dist.nextKid
    let k : Kern :=
      { kid := kid, words := w, st := .queued, accNo := s.dist.nextAcc, byp := 0, resv := none, resvAt := 0
        run := (match img with | .ok p => p.2 | .error _ => 0), parent := l.kid
        deps := [0, 1, 2, 3].map fun i => decide (rDaddr w i = 0)
        pats := [0, 1, 2, 3].map fun i => patMet s (rPat w i)
        members := [], arenas := [], oldArenas := [], retired := [], placedAt := 0, areas := [], saved := [], nodes := []
        aov := aov }
    let s := { s with dist := { s.dist with
      kerns := s.dist.kerns ++ [k], nextKid := kid + 1, nextAcc := s.dist.nextAcc + 1 } }
    (.ok kid, (watchDeps s k).at (s.clk + 1) false (.dependenceMet kid.toNat))

/-- `ln.lnch` carried out (R319): the record is read and judged, and the token or the fault tells of it. -/
def contextLaunch (s : State) (l : Launch) : State :=
  match served s l.n 24 with
  | none => s
  | some (c, q) =>
    if q.id ≠ l.cmd then s
    else
      let g : Agent := { cmdAgent l.n c q with buf := baseBuf }
      let tok := if q.a2.getLsbD 4 then none else some (fld q.a2 0 4)
      let refuse (s : State) (code : Nat) : State := match tok with
        | some t => endServed s l.n 24 (some t) (w64 (2 ^ 63 + code))
        | none => faultServed s l.n 24 0x3B (w64 code)
      match (readVirt g q.go 256).run s with
      | (.error _, t) => refuse t 8
      | (.ok v, t) =>
        let prio := ((t.dist.kerns.find? fun k => k.kid = c.ctl.kid).map fun k => rPrio k.words).getD 0
        match acceptRecord t ⟨some c.ctl.kid, q.priv, prio, q.asid, q.ptroot⟩ (wordsOf v 32) l.aov with
        | (.ok kid, t) => endServed t l.n 24 tok (kid.setWidth 64)
        | (.error code, t) => refuse t code

/-- RECORD_ACCEPTANCE (R309-R311): the records that have reached the distributor, in their order. -/
def execRecordAcceptance (s : State) : Out :=
  .next (s.dist.arriving.foldl (fun s l =>
    match l.fromHost with
    | none => contextLaunch s l
    | some tag => match acceptRecord s hostLauncher l.words none with
      | (.ok kid, t) => respond t 0x03 tag 0 0 (kid.setWidth 64) []
      | (.error code, t) => respond t 0x03 tag 2 code 0 []) { s with dist := { s.dist with arriving := [] } })

/-- Change a kernel instance. -/
def updKern (s : State) (kid : BitVec 32) (f : Kern → Kern) : State :=
  { s with dist := { s.dist with kerns := listUpd (fun k => k.kid = kid) f s.dist.kerns } }

/-- DEPENDENCE_MET (R312): a Queued record whose counters and patterns are all met is Ready. -/
def execDependenceMet (kid : Nat) (s : State) : Out :=
  .next (updKern s (BitVec.ofNat 32 kid) fun k =>
    if k.st = .queued && k.deps.all id && k.pats.all id then { k with st := .ready } else k)

/-! ## LN (R318-R320) -/

/-- LN_LNCH (R319). -/
def execLnLnch (g : BitVec 4) (src : BitVec 9) (s : State) : Out :=
  let w := s.iss.ctx.portW 24 2
  let t := tWord s src
  let tok := if w.getLsbD 4 then none else some (fld w 0 4)
  goMove 24 4 []
    [trapIf (tok.any fun k => decide ((s.iss.ctx.tok k).st = .pending)) 0x0B (w64 (fld w 0 4)),
      trapIf (decide (fld t 0 8 ≠ 0)) 0x0A t] tok (fun _ q => q) (fun _ s => s) g src s

/-- LN_QUIT (R320): the member drains; its PC stays. -/
def execLnQuit (g : BitVec 4) (src : BitVec 9) (s : State) : Out :=
  goMove 24 5 [] [] none (fun _ q => q)
    (fun _ s => onCtx (fun c => { c with st := .draining, pc := s.iss.pc, npc := s.iss.ctx.npc }) s) g src s

/-! ## Retirement (R20, R320) -/

/-- The completion add of a retired kernel (R20, R391). -/
def completionAdd (s : State) (k : Kern) : State :=
  let va := rCaddr k.words
  if va = 0 then s
  else match (translate (distAgent k.words) va .add 8).run s with
    | (.ok pa, t) => (postReq t (.retire k.kid) va pa (rCadd k.words)).2
    | (.error f, t) => eventWalk t none 3 f.1 f.2 whoNone

/-- When every live member of a stopping kernel is captured and its queues are quiet, the save begins (R429). -/
def captureCheck (s : State) (kid : BitVec 32) : State :=
  match s.dist.kerns.find? fun k => k.kid = kid with
  | none => s
  | some k =>
    let l := liveMembers s k
    if k.st = .stopping && l ≠ [] && (l.all fun n => (s.ctx n).st = .saving && (s.ctx n).quiet) &&
        !(s.cal.any fun t => t.ev = .preemptionSave kid.toNat) then
      s.at (s.clk + 1) false (.preemptionSave kid.toNat)
    else s

/-- A member is retired: its context, barriers and matrix unit become free; the last one ends the kernel. -/
def retireMember (s : State) (n : Nat) : State :=
  let c := s.ctx n
  let s := updKern (freeCtx s n) c.ctl.kid fun k => { k with retired := k.retired ++ [c.ctl.rank.toNat] }
  match s.dist.kerns.find? fun k => k.kid = c.ctl.kid with
  | none => s
  | some k =>
    if k.retired.length = k.members.length then
      let s := { s with dist := { s.dist with kerns := s.dist.kerns.filter fun x => x.kid ≠ k.kid } }
      completionAdd s k
    else captureCheck s k.kid

/-- MEMBER_RETIRE (R20, R320): the drain of an `ln.quit` has ended. Where a command has come since, or the member has been
stopped, the quit waits again. -/
def execMemberRetire (n : Nat) (s : State) : Out :=
  match ((s.ctx n).queue 24).head? with
  | some q =>
    if q.port = 5 ∧ q.st = .running then
      .next (if drained s n (s.ctx n) then retireMember s n
        else s.updCtx n fun c => c.updCmd 24 fun q => { q with st := .waiting })
    else .next s
  | none => .next s

end Sys2Proof.Machine
end

