-- ==== Sys2Proof/Machine/Hash.lean ====
section
/-!
DEFINITION. SHA-384 (FIPS 180-4), which the attestation report names (R455). PRESUMED (log 10): the algorithm and its constants
are those of that standard; the spec names it and does not restate it.
-/

namespace Sys2Proof.Machine

/-- The round constants. -/
def shaK : List Word :=
  [0x428a2f98d728ae22, 0x7137449123ef65cd, 0xb5c0fbcfec4d3b2f, 0xe9b5dba58189dbbc,
    0x3956c25bf348b538, 0x59f111f1b605d019, 0x923f82a4af194f9b, 0xab1c5ed5da6d8118,
    0xd807aa98a3030242, 0x12835b0145706fbe, 0x243185be4ee4b28c, 0x550c7dc3d5ffb4e2,
    0x72be5d74f27b896f, 0x80deb1fe3b1696b1, 0x9bdc06a725c71235, 0xc19bf174cf692694,
    0xe49b69c19ef14ad2, 0xefbe4786384f25e3, 0x0fc19dc68b8cd5b5, 0x240ca1cc77ac9c65] ++
   [0x2de92c6f592b0275, 0x4a7484aa6ea6e483, 0x5cb0a9dcbd41fbd4, 0x76f988da831153b5,
    0x983e5152ee66dfab, 0xa831c66d2db43210, 0xb00327c898fb213f, 0xbf597fc7beef0ee4,
    0xc6e00bf33da88fc2, 0xd5a79147930aa725, 0x06ca6351e003826f, 0x142929670a0e6e70,
    0x27b70a8546d22ffc, 0x2e1b21385c26c926, 0x4d2c6dfc5ac42aed, 0x53380d139d95b3df,
    0x650a73548baf63de, 0x766a0abb3c77b2a8, 0x81c2c92e47edaee6, 0x92722c851482353b] ++
   [0xa2bfe8a14cf10364, 0xa81a664bbc423001, 0xc24b8b70d0f89791, 0xc76c51a30654be30,
    0xd192e819d6ef5218, 0xd69906245565a910, 0xf40e35855771202a, 0x106aa07032bbd1b8,
    0x19a4c116b8d2d0c8, 0x1e376c085141ab53, 0x2748774cdf8eeb99, 0x34b0bcb5e19b48a8,
    0x391c0cb3c5c95a63, 0x4ed8aa4ae3418acb, 0x5b9cca4f7763e373, 0x682e6ff3d6b2b8a3,
    0x748f82ee5defb2fc, 0x78a5636f43172f60, 0x84c87814a1f0ab72, 0x8cc702081a6439ec] ++
   [0x90befffa23631e28, 0xa4506cebde82bde9, 0xbef9a3f7b2c67915, 0xc67178f2e372532b,
    0xca273eceea26619c, 0xd186b8c721c0c207, 0xeada7dd6cde0eb1e, 0xf57d4f7fee6ed178,
    0x06f067aa72176fba, 0x0a637dc5a2c898a6, 0x113f9804bef90dae, 0x1b710b35131c471b,
    0x28db77f523047d84, 0x32caab7b40c72493, 0x3c9ebe0a15c9bebc, 0x431d67c49c100d4c,
    0x4cc5d4becb3e42b6, 0x597f299cfc657e2a, 0x5fcb6fab3ad6faec, 0x6c44198c4a475817]

/-- The initial hash value. -/
def shaInit : List Word :=
  [0xcbbb9d5dc1059ed8, 0x629a292a367cd507, 0x9159015a3070dd17, 0x152fecd8f70e5939,
   0x67332667ffc00b31, 0x8eb44a8768581511, 0xdb0c2e0d64f98fa7, 0x47b5481dbefa4fa4]

/-- Byte i of the padded message of n bytes, `tot` bytes long; `byte` gives the message. -/
def shaByte (byte : Nat → Nat) (n tot i : Nat) : Nat :=
  if i < n then byte i
  else if i = n then 0x80
  else if tot < i + 17 then (8 * n) >>> (8 * (tot - 1 - i)) % 256 else 0

/-- Word t of block b of the padded message, most significant byte first. -/
def shaWord (byte : Nat → Nat) (n tot b t : Nat) : Word :=
  (List.range 8).foldl (fun v i => v <<< 8 ||| w64 (shaByte byte n tot (128 * b + 8 * t + i))) 0

/-- The message schedule, newest word first: `k` more words. -/
def shaSchedule : Nat → List Word → List Word
  | 0, l => l
  | k + 1, l =>
    let a := wordAt l 1
    let b := wordAt l 14
    let s1 := a.rotateRight 19 ^^^ a.rotateRight 61 ^^^ (a >>> 6)
    let s0 := b.rotateRight 1 ^^^ b.rotateRight 8 ^^^ (b >>> 7)
    shaSchedule k ((s1 + wordAt l 6 + s0 + wordAt l 15) :: l)

/-- One round: the eight working variables a to h, the round constant and the schedule word. -/
def shaRound (v : List Word) (k w : Word) : List Word :=
  let x (i : Nat) : Word := wordAt v i
  let s1 := (x 4).rotateRight 14 ^^^ (x 4).rotateRight 18 ^^^ (x 4).rotateRight 41
  let t1 := x 7 + s1 + ((x 4 &&& x 5) ^^^ (~~~(x 4) &&& x 6)) + k + w
  let s0 := (x 0).rotateRight 28 ^^^ (x 0).rotateRight 34 ^^^ (x 0).rotateRight 39
  let t2 := s0 + ((x 0 &&& x 1) ^^^ (x 0 &&& x 2) ^^^ (x 1 &&& x 2))
  [t1 + t2, x 0, x 1, x 2, x 3 + t1, x 4, x 5, x 6]

/-- One block into the hash value. -/
def shaBlock (byte : Nat → Nat) (n tot : Nat) (h : List Word) (b : Nat) : List Word :=
  let w := (shaSchedule 64 ((List.range 16).map (shaWord byte n tot b)).reverse).reverse
  let v := (shaK.zip w).foldl (fun v p => shaRound v p.1 p.2) h
  (h.zip v).map fun p => p.1 + p.2

/-- SHA-384 of the n bytes that `byte` gives: its 48 bytes in their order, as a number with the first byte lowest. -/
def sha384 (byte : Nat → Nat) (n : Nat) : Nat :=
  let blocks := ceilDiv (n + 17) 128
  let h := (List.range blocks).foldl (shaBlock byte n (128 * blocks)) shaInit
  packNat 8 (fun i => ((wordAt h (i / 8)).toNat >>> (8 * (7 - i % 8))) % 256) 48

end Sys2Proof.Machine
end

