-- ==== Sys2Proof/Machine/Network.lean ====
section
/-!
DEFINITION. The transport of packets: routers and their channels (R291-R297), seam gateways, the base-die fabric and
switch ports (R299, R300, R447-R449), the flits of links (R298, R451) and paired comparison (R460).
-/

namespace Sys2Proof.Machine

/-! ## Channels (R294) -/

/-- A channel of an input port, by its key 5 port + VC; VC 0-4 are A0, A1, E0, E1, S. -/
def chPort (ch : Nat) : Nat := ch / 5
def chVc (ch : Nat) : Nat := ch % 5

def Router.chan (r : Router) (ch : Nat) : Chan := KMap.get Chan.reset r.chans ch
def Router.setChan (r : Router) (ch : Nat) (c : Chan) : Router := { r with chans := KMap.set Chan.reset r.chans ch c }
/-- Free slots that router r counts for a downstream channel beyond an output port; port 0 is its own local input. -/
def Router.freeOf (r : Router) (k : Nat) : Nat := KMap.get 8 r.free k
def Router.heldOf (r : Router) (k : Nat) : Bool := KMap.get false r.holders k

/-- The input port of the neighbour beyond an output port. -/
def farPort (p : Nat) : Nat := match p with | 1 => 2 | 2 => 1 | 3 => 4 | 4 => 3 | _ => 0

/-- The router and key that count the free slots of input channel ch of router h. -/
def creditHome (h ch : Nat) : Nat × Nat :=
  if chPort ch = 0 then (h, chVc ch) else (neighbour h (chPort ch), 5 * farPort (chPort ch) + chVc ch)

/-- A flit has left input channel ch of router h: its slot is counted free at the end of the clk two later (R294, R483),
and with a tail its packet no longer holds the channel. -/
def leaveChan (s : State) (h ch : Nat) (tail : Bool) : State :=
  let (g, k) := creditHome h ch
  let s := s.at (s.clk + 2) true (.vcCreditReturn h ch)
  if tail then s.updRouter g fun r => { r with holders := r.holders.del k } else s

/-- VC_CREDIT_RETURN (R294): the sending side of channel ch of router h counts one more free slot. -/
def execVcCreditReturn (h ch : Nat) (s : State) : Out :=
  let (g, k) := creditHome h ch
  .next (s.updRouter g fun r => { r with free := KMap.set 8 r.free k (min 8 (r.freeOf k + 1)) })

/-- Allot a downstream channel by rules 1 and 2 of R294: `esc` names the escape channel, and a packet that has escaped
takes no adaptive one. -/
def allot (r : Router) (port flits esc : Nat) (escaped : Bool) : Option Nat :=
  let ok (v : Nat) : Bool := !r.heldOf (5 * port + v) && decide (min flits 4 ≤ r.freeOf (5 * port + v))
  if !escaped && (ok 0 || ok 1) then
    some (if ok 0 && (!ok 1 || decide (r.freeOf (5 * port + 1) ≤ r.freeOf (5 * port))) then 0 else 1)
  else if r.heldOf (5 * port + esc) then none
  else some esc

/-! ## Routing (R293) -/

/-- The output port of a packet at router h, 5 where it has reached its hop target there. -/
def routePort (s : State) (h : Nat) (p : Packet) : Nat :=
  if p.tk = 0 ∧ p.tnode.toNat = h % 64 ∧ p.tdie.toNat = h / 64 ∧ p.tmod = s.mgmt.modn then 5
  else if p.tk ≠ 0 ∨ p.tdie.toNat ≠ h / 64 ∨ p.tmod ≠ s.mgmt.modn then 0
  else
    let dir (at' to' d plus minus : Nat) : Nat :=
      if d = 1 then plus else if d = 2 then minus else if (to' + 8 - at') % 8 ≤ 4 then plus else minus
    let x := h % 8
    let tx := p.tnode.toNat % 8
    if x ≠ tx then dir x tx p.xd.toNat 1 2 else dir (h / 8 % 8) (p.tnode.toNat / 8) p.yd.toNat 3 4

/-- The escape channel of the next hop (R294 rule 3): E1 once the packet has crossed the ring's dateline in its leg,
which started at its source router. -/
def escapeVc (h port : Nat) (p : Packet) : Nat :=
  let t := neighbour h port
  let crossed := match port with
    | 1 => decide (t % 8 < p.snode.toNat % 8)
    | 2 => decide (p.snode.toNat % 8 < t % 8)
    | 3 => decide (t / 8 % 8 < p.snode.toNat / 8)
    | _ => decide (p.snode.toNat / 8 < t / 8 % 8)
  if crossed then 3 else 2

/-- Is a flit the header of a packet of a flow from a source? -/
def headerOf (fl : BitVec 20) (sn : BitVec 6) (g : Flit) : Bool := decide (g.i = 0 ∧ g.pkt.flow = fl ∧ g.pkt.snode = sn)

/-- Does an earlier packet of the same flow and source still wait to be routed at the router, or did it until this clk
(R295)? -/
def mustWait (r : Router) (clk ch : Nat) (f : Flit) : Bool :=
  r.chans.any fun c => decide (c.1 ≠ ch) &&
    ((if c.2.who.isSome || c.2.drop then c.2.flits.drop 1 else c.2.flits).any
        (fun g => headerOf f.pkt.flow f.pkt.snode g && decide (g.wclk < f.wclk)) ||
      (match c.2.who, c.2.flits with
        | some (_, _, t), g :: _ => headerOf f.pkt.flow f.pkt.snode g && decide (t < f.wclk ∧ g.wclk + 1 = clk)
        | _, _ => false))

/-- Has a packet of the same flow and source that entered the router before the one of channel ch not left it yet (R295;
DEDUCED, log 51: packets leave whole in their order)? -/
def behind (r : Router) (ch : Nat) : Bool :=
  match (r.chan ch).who with
  | some (fl, sn, t) => r.chans.any fun c => decide (c.1 ≠ ch) &&
      c.2.who.any fun w => decide (w.1 = fl ∧ w.2.1 = sn ∧ w.2.2 < t)
  | none => false

/-- The clk of acceptance of a packet that is not whole yet. -/
def notWhole : Nat := 2 ^ 64

/-- Does a reply return credits (R329)? -/
def isCredit (p : Packet) : Bool := decide (p.pk = 2 ∧ fld (wordAt p.ext 0) 0 8 = 0xC1)

/-- A reply has reached the interface of its source (R292, R302). -/
def replyArrive (s : State) (p : Packet) : State :=
  match reqOf s p with
  | none => s
  | some (id, r) => match r.src with
    | .queue n fu => (match reqCmd s id n fu, keptReply s r with
        | some q, some x => if fu = 22 then skEnd s n q x else bastEnd s n q x
        | _, _ => s)
    | _ => ctrTake s id r

/-- A packet whose header has reached its hop target (R296, R326): a flow packet is accepted `after` clks later, no sooner
than those of its flow and source before it (R178); a reply goes to the interface of its source. A request or a barrier packet
has nothing to do at a holder: the spec states no effect, and it is dropped (log 51). -/
def targetReached (s : State) (h after : Nat) (p : Packet) : State :=
  let before := ((s.holder h).inbox.filter fun a => decide (a.due ≠ notWhole ∧ a.pkt.flow = p.flow ∧ a.pkt.snode = p.snode ∧
    a.pkt.sdie = p.sdie ∧ a.pkt.smod = p.smod)).map (·.due)
  let due := max (s.clk + after) (listMax before)
  let put (s : State) : State :=
    s.updHolder h fun x => { x with inbox := x.inbox ++ [⟨p, matched s h p, decide (p.np ≠ 0), due⟩] }
  match p.pk.toNat with
  | 0 => (put s).at due true (.flowPacketAccept h 0)
  | 2 => if isCredit p then (put s).at s.clk true (.creditReplyArrival h 0) else replyArrive s p
  | _ => s

/-- A malformed packet is counted and recorded (R289). -/
def malformed (s : State) (h : Nat) : State :=
  (s.holderCounts h fun x => { x with malf := sat32 x.malf }).bbAdd 6 0 0 (whoHolder h) 0

/-- Is a packet a credit reply for holder h (R329)? -/
def creditFor (s : State) (h : Nat) (p : Packet) : Bool :=
  isCredit p && !p.malformed && decide (routePort s h p = 5)

/-- Does a packet cross the link of the seam gateway that it leaves the routers by (R293)? -/
def crossesSeam (s : State) (h : Nat) (p : Packet) : Bool :=
  !decide (p.tk = 1 ∧ p.tdie.toNat = h / 64 ∧ p.tnode.toNat % 8 = h / 8 % 8 ∧ p.tmod = s.mgmt.modn)

/-- The link of the seam gateway of router h's row. -/
def rowLink (h : Nat) : Nat := 8 * (h / 64) + h / 8 % 8

/-- PACKET_HEADER_ARRIVAL (R289, R293-R296): the header at the head of input channel ch of router h is routed: its packet
is consumed here, and accepted once its tail can be (log 15), or it is allotted an output port and channel. The header's
clk stands for the clk before the one in which it is routed: it leaves two clks later (R296). A packet of a circuit moves in
the slots alone (R297). A credit reply has been taken in the clk its header arrived (R329). -/
def execPacketHeaderArrival (h ch : Nat) (s : State) : Out :=
  let r := s.router h
  let c := r.chan ch
  match c.flits with
  | [] => .next s
  | f :: l =>
    if f.i ≠ 0 || c.out.isSome || c.drop || mustWait r s.clk ch f then .next s
    else
      let routed : Chan := { c with
        flits := { f with wclk := s.clk - (if f.early then 2 else 1) } :: l, who := some (f.pkt.flow, f.pkt.snode, f.wclk) }
      let take (c : Chan) (s : State) : State := s.updRouter h fun r => r.setChan ch c
      if f.pkt.malformed then .next (malformed (take { routed with drop := true } s) h)
      else match routePort s h f.pkt with
        | 5 =>
          let s := take { routed with drop := true } s
          .next (if isCredit f.pkt then s else targetReached s h (2 + f.pkt.npay.toNat) f.pkt)
        | port =>
          if chVc ch = 4 then .next s
          else if port = 0 then .next (take { routed with out := some (0, 0) } s)
          else match allot r port (f.pkt.npay.toNat + 1) (escapeVc h port f.pkt) (decide (2 ≤ chVc ch)) with
            | none => .next s
            | some v =>
              .next ((take { routed with out := some (port, v) } s).updRouter h fun r =>
                { r with holders := KMap.put r.holders (5 * port + v) true })

/-! ## Seam gateways and the base-die fabric (R299, R448, R486) -/

/-- The header of a flow packet for a holder outside the routers has arrived: the packet is matched (R340). -/
def headerAt (s : State) (h : Nat) (p : Packet) : State :=
  if p.malformed || p.pk ≠ 0 then s
  else s.updHolder h fun x => { x with inbox := x.inbox ++ [⟨p, matched s h p, false, notWhole⟩] }

/-- A packet that a holder outside the routers takes as its hop target is whole. -/
def acceptAt (s : State) (h : Nat) (p : Packet) : State :=
  if p.malformed then malformed s h
  else if (s.holder h).inbox.any fun a => decide (a.pkt = p ∧ a.due = notWhole) then
    (s.updHolder h fun x => { x with
      inbox := listUpd (fun a => decide (a.pkt = p ∧ a.due = notWhole)) (fun a => { a with due := s.clk + 1 }) x.inbox }).at
        (s.clk + 1) true (.flowPacketAccept h 0)
  else targetReached s h 1 p

/-- A packet that has arrived whole at the seam gateway of router h's row (R293, R299): the gateway's own, or one for its
link, whose buffers its header has taken. -/
def gatewayIn (s : State) (h : Nat) (p : Packet) : State :=
  let p := { p with np := 0 }
  if crossesSeam s h p then sendLink s (rowLink h) 1 p else acceptAt s (256 + rowLink h) p

/-- A packet that has come down a seam link to gateway g of the module: its own, or one for a router of its die (R293). -/
def gatewayOut (s : State) (g : Nat) (p : Packet) : State :=
  if p.tk = 1 then acceptAt s (256 + g) p else injectAt s (64 * p.tdie.toNat + p.tnode.toNat) 1 p

/-- The digest of an outgoing packet: CRC-32C over its header with SMOD and TMOD 0, and its payload (R460). -/
def digestOf (p : Packet) : BitVec 32 :=
  let hd := packNat 64 (fun i => (wordAt ({ p with smod := 0, tmod := 0 } : Packet).header i).toNat) 8
  let n := p.npay.toNat * 64
  BitVec.ofNat 32 (crc32c (hd + p.pay.toNat % 2 ^ (8 * n) * 2 ^ 512) (64 + n))

/-- The PAIR entry that covers a flow (R460). -/
def pairFor (s : State) (flow : Nat) : Option Nat :=
  (s.mgmt.pair0.find? fun p => p.2.getLsbD 40 && decide (bits p.2.toNat 0 20 ≤ flow ∧ flow ≤ bits p.2.toNat 20 20)).map (·.1)

/-- The module that a PAIR entry names as PARTNER. -/
def pairPartner (s : State) (i : Nat) : BitVec 10 := (KMap.get 0 s.mgmt.pair1 i).setWidth 10

/-- A packet is discarded at switch port p: counted and recorded (R449). -/
def portDrop (s : State) (p : Nat) : State :=
  { s with mgmt := { s.mgmt with ldrop := KMap.put s.mgmt.ldrop p (sat32 (KMap.get 0 s.mgmt.ldrop p)) } }.bbAdd 6 0 0
    (whoHolder (288 + p)) 0

/-- The packets that a link holds unacknowledged are lost; a switch port counts each (R449, R451). -/
def linkLost (s : State) (l : Nat) : State :=
  let ids := ((s.link l).retry.map (·.id)).eraseDups
  let s := { s with transit := s.transit.filter fun x => !ids.contains x.1 }.updLink l fun k => { k with retry := [], held := 0 }
  if 32 ≤ l ∧ l < 48 then ids.foldl (fun s _ => portDrop s (l - 32)) s else s

/-- A packet goes out by a switch port: it is digested, and forwarded unless the partition is the shadow (R300, R449,
R460). -/
def portOutgoing (s : State) (p : Nat) (k : Packet) : State :=
  if (s.link (32 + p)).st ≠ 2 then portDrop s p
  else
    let pair := if k.pk = 0 then pairFor s k.flow.toNat else none
    let s := match pair with
      | some i => { s with
          digests := s.digests ++ [(i, k.flow, k.seqn, digestOf k, true)]
          digestOut := s.digestOut ++ [(pairPartner s i, k.flow, k.seqn, digestOf k)] }.at s.clk true
          (.pairDigestCompare i)
      | none => s
    match pair with
    | some i => if (KMap.get 0 s.mgmt.pair0 i).getLsbD 41 then s else go s
    | none => go s
where
  /-- Onto the link. -/
  go (s : State) : State := enterLink s (32 + p) k

/-- What a barrier packet says (R399). -/
def podOf (p : Packet) : PodMsg :=
  let w := wordAt p.ext 0
  ⟨w.getLsbD 0, BitVec.ofNat 7 (fld w 1 7), BitVec.ofNat 16 (fld w 8 16), BitVec.ofNat 10 (fld w 24 10),
    BitVec.ofNat 10 (fld w 34 10), wordAt p.ext 1, none⟩

/-- A barrier packet reaches the barrier network of its module (R300, R399). -/
def podArrive (s : State) (p : Packet) : State :=
  let (id, s) := fresh s
  { s with podMsgs := KMap.put s.podMsgs id (podOf p) }.at s.clk true (.podBarrierPacket id)

/-- Forward a packet on the base-die fabric (R448, R449). A request reaches its home slice (R302); another packet for one has
no effect that the spec states: it is dropped (log 51). -/
def forwardPacket (s : State) (p : Packet) : State :=
  if p.tmod ≠ s.mgmt.modn then
    let r := KMap.get 0 s.mgmt.route p.tmod.toNat
    if r.getLsbD 4 then portOutgoing s (r.toNat % 16) p
    else { s with mgmt := { s.mgmt with nrdrop := sat32 s.mgmt.nrdrop } }.bbAdd 6 0 0 whoNone 0
  else if p.pk = 3 then podArrive s p
  else match p.tk.toNat with
    | 0 => enterLink s (64 + 8 * p.tdie.toNat + p.tnode.toNat / 8) p
    | 1 => enterLink s (64 + 8 * p.tdie.toNat + p.tnode.toNat % 8) p
    | 2 => acceptAt s (288 + p.tnode.toNat % 16) p
    | _ => if p.pk = 1 then homeArrive s p else s

/-- A packet that waits for room on link l tries again, behind those that waited before it (R299); a switch port that is no longer
up discards it (R449). -/
def retryLink (s : State) (id l : Nat) (p : Packet) : State :=
  if 32 ≤ l ∧ l < 48 ∧ (s.link l).st ≠ 2 then portDrop { s with transit := s.transit.del id } (l - 32)
  else if linkRoom s l p && !(s.transit.any fun x => decide (x.1 < id ∧ x.2.1 = 200 + l)) then
    sendLink (linkHold { s with transit := s.transit.del id } l p) l (beyond l) p
  else s.at (s.clk + 1) false (.gatewayPacketForward id)

/-- GATEWAY_PACKET_FORWARD (R299, R448, R486): packet `id` of the fabric or of a link is handed on. -/
def execGatewayPacketForward (id : Nat) (s : State) : Out :=
  match (s.transit.find? fun p => p.1 = id).map (·.2) with
  | none => .next s
  | some (k, p) =>
    if 200 ≤ k then .next (retryLink s id (k - 200) p)
    else
      let s := { s with transit := s.transit.del id }
      if k < 2 then .next (forwardPacket s p)
      else if k < 100 then .next { s with portOut := s.portOut ++ [(k - 2, p)] }
      else .next (gatewayOut s (k - 100) p)

/-! ## Links (R298, R451) -/

/-- The bound of a retrain (R451). -/
def retrainBound (l : Nat) : Nat := if l < 32 then 20000 else 360000

/-- The `who` of a link's black-box records. -/
def linkWho (l : Nat) : Nat := if l < 32 then whoHolder (256 + l) else if l < 48 then whoHolder (288 + (l - 32)) else whoNone

/-- A link starts to retrain (R298). -/
def startRetrain (s : State) (l : Nat) : State :=
  if (s.link l).training.isSome ∨ linkDown s l then s
  else
    let (d, s) := drawNat s 1 (retrainBound l)
    let s := s.updLink l fun k => { k with training := some (s.clk + d), errs := [], nrt := k.nrt + 1, st := 1 }
    (s.bbAdd 3 0 0 (linkWho l) 0).at (s.clk + d) false (.retrainComplete l)

/-- Link flits that a link carries in a clk (R290, R452): 1 TB/s on a seam, 8 × 224 Gb/s at a switch port, 112 GB/s on the Yelnak
link, in flits of 128, 256 and 256 bytes at the clk of 1.8 GHz. -/
def linkRate (l clk : Nat) : Nat :=
  let upTo (n : Nat) : Nat := if 32 ≤ l ∧ l < 48 then 35 * n / 72 else if l = 48 then 35 * n / 144 else 625 * n / 144
  upTo (clk + 1) - upTo clk

/-- The last link flit of packet `id` is acknowledged: its buffers are free, and it goes on (R299). -/
def linkDone (s : State) (l id : Nat) : State :=
  match (s.transit.find? fun p => p.1 = id).map (·.2) with
  | none => s
  | some (_, p) =>
    let s := s.updLink l fun k => { k with held := k.held - linkFlits l p }
    if l < 32 then crossFabric s id p else s.at (s.clk + 1) false (.gatewayPacketForward id)

/-- A link flit with the header of a packet for the seam gateway at the far side (R340). -/
def linkHeader (s : State) (l : Nat) (f : LinkFlit) : State :=
  match (s.transit.find? fun p => p.1 = f.id).map (·.2.2) with
  | some p =>
    if 64 ≤ l ∧ p.tk = 1 ∧ ((s.link l).retry.filter fun g => g.id = f.id).length = linkFlits l p then headerAt s (256 + (l - 64)) p
    else s
  | none => s

/-- The first link flit of a retry buffer is received and acknowledged. -/
def linkTake (s : State) (l : Nat) : State :=
  match (s.link l).retry with
  | [] => s
  | f :: rest =>
    let s := (linkHeader s l f).updLink l fun k => { k with retry := rest, recvSeq := k.recvSeq + 1 }
    if f.last then linkDone s l f.id else s

/-- Several are. -/
def linkTakes : Nat → Nat → State → State
  | 0, _, s => s
  | n + 1, l, s => linkTakes n l (linkTake s l)

/-- A link flit with a CRC error is discarded with all that follow; eight within the window let the link retrain (R298). -/
def linkError (s : State) (l : Nat) : State :=
  let b := linkBase l
  let errs := ((s.link b).errs ++ [s.clk]).filter fun c => decide (s.clk < c + 65536)
  let s := (s.updLink l fun k => { k with crcNext := k.crcNext - 1 }).updLink b fun k => { k with errs := errs }
  if 8 ≤ errs.length then startRetrain s b else s.within 1 64 (.linkResend l)

/-- LINK_FLIT_RECEIVE (R298): the link flits that a clk carries arrive in sequence, or the first of them has a CRC error. A
packet whose last link flit is acknowledged goes on (R299). -/
def execLinkFlitReceive (l : Nat) (s : State) : Out :=
  let k := s.link l
  if k.retry = [] || (s.link (linkBase l)).training.isSome || linkDown s l then .next s
  else if 0 < k.crcNext then .next (linkError s l)
  else
    let t := linkTakes (linkRate l s.clk) l s
    .next (if (t.link l).retry = [] then t else t.at (t.clk + 1) false (.linkFlitReceive l))

/-- LINK_RESEND (R298): the sender resends from the first unacknowledged link flit. -/
def execLinkResend (l : Nat) (s : State) : Out :=
  if (s.link l).retry = [] then .next s else .next (s.at (s.clk + 1) false (.linkFlitReceive l))

/-- A seam link is down: its die is fenced and every kernel with a member there is killed at package level (R451). The fence and
its entry have no code (log 50); no function word of `sy.rel` names a die, so a reset alone ends it (DEDUCED, log 46). -/
def seamDown (s : State) (d : Nat) : State :=
  let s := if s.dieFence.contains d then s else { s with dieFence := s.dieFence ++ [d] }.bbAddL 3 1 0 0 whoNone 0
  let ks := (s.dist.kerns.filter fun k => k.st ≠ .preempted && k.members.any fun n => dieOf n = d).map (·.kid)
  ks.foldl (fun s kid => killRecorded s kid 0 0) s

/-- RETRAIN_COMPLETE (R298, R451): the retrain ends; it has succeeded or failed (log 15). The third failure in succession
takes the link down. -/
def execRetrainComplete (l : Nat) (s : State) : Out :=
  match (s.link l).training with
  | none => .next s
  | some _ =>
    let (bad, s) := drawNat s 0 1
    let s := s.updLink l fun k => { k with training := none }
    if bad = 0 then
      let s := s.updLink l fun k => { k with fails := 0, st := 2 }
      let s := s.at (s.clk + 1) false (.linkResend l)
      .next (if l < 32 then s.at (s.clk + 1) false (.linkResend (64 + l)) else s)
    else
      let s := s.updLink l fun k => { k with fails := k.fails + 1 }
      if 3 ≤ (s.link l).fails then
        let s := (s.updLink l fun k => { k with st := 0 }).bbAdd 7 0 0 (linkWho l) 0
        let s := if l < 32 then s else linkLost s l
        .next (if l < 32 then seamDown s (l / 8) else s)
      else .next (startRetrain s l)

/-- LOSS_OF_LOCK (R298). -/
def execLossOfLock (l : Nat) (s : State) : Out := .next (startRetrain s (linkBase l))

/-- LINK_TRAINING_COMPLETE (R306, R445): the link is up, with its sequence numbers at 0 in both directions. -/
def execLinkTrainingComplete (l : Nat) (s : State) : Out :=
  let s := (linkLost s l).updLink l fun k => { k with
    st := 2, sendSeq := 0, recvSeq := 0, errs := [], training := none, fails := 0 }
  .next (if l < 32 then (linkLost s (64 + l)).updLink (64 + l) fun k => { k with sendSeq := 0, recvSeq := 0 } else s)

/-! ## Paired comparison (R460) -/

/-- Code 0x44 at `.pd`: an event with no owner (R415). -/
def pairMismatch (s : State) : State := let (v, s) := drawWord s; eventWalk s none 4 0x44 v whoNone

/-- Is SEQ a at or past b + n modulo 2^32? -/
def seqPast (a b : BitVec 32) (n : Nat) : Bool := let d := (a - b).toNat; decide (n ≤ d ∧ d < 2 ^ 31)

/-- PAIR_DIGEST_COMPARE (R460): digests of PAIR entry k are compared with the partner's; one that differs, or that the
other side's SEQ has passed by WIN, is a mismatch. -/
def execPairDigestCompare (k : Nat) (s : State) : Out :=
  let win := bits (KMap.get 0 s.mgmt.pair1 k).toNat 16 10
  let mine := s.digests.filter fun d => d.1 = k
  let rest := s.digests.filter fun d => d.1 ≠ k
  let partner (d : Nat × BitVec 20 × BitVec 32 × BitVec 32 × Bool) :=
    mine.find? fun e => decide (e.2.1 = d.2.1 ∧ e.2.2.1 = d.2.2.1 ∧ e.2.2.2.2 ≠ d.2.2.2.2)
  let differs := mine.filter fun d => d.2.2.2.2 && (match partner d with | some e => decide (e.2.2.2.1 ≠ d.2.2.2.1) | none => false)
  let lone := mine.filter fun d => (partner d).isNone
  let late := lone.filter fun d => mine.any fun e =>
    decide (e.2.2.2.2 ≠ d.2.2.2.2 ∧ e.2.1 = d.2.1) && seqPast e.2.2.1 d.2.2.1 win && decide (e.2.2.1 ≠ d.2.2.1)
  let s := { s with digests := rest ++ lone.filter fun d => !late.contains d }
  .next ((differs ++ late).foldl (fun s _ => pairMismatch s) s)

/-! ## Grants (R296, R297) -/

/-- Put a flit into an input channel of a router at the end of clk `w`; a credit reply is taken there with its header
(R329). -/
def putFlit (s : State) (h ch w : Nat) (f : Flit) : State :=
  let s := s.updRouter h fun r => r.setChan ch { r.chan ch with flits := (r.chan ch).flits ++ [{ f with wclk := w }] }
  if f.i = 0 && creditFor s h f.pkt then targetReached s h 0 f.pkt else s

/-- Take the flit at the head of an input channel; the channel is free for its next packet after a tail. -/
def popFlit (s : State) (h ch : Nat) : State :=
  let c := (s.router h).chan ch
  match c.flits with
  | [] => s
  | f :: l =>
    let tail := decide (f.i = f.pkt.npay.toNat)
    leaveChan (s.updRouter h fun r => r.setChan ch
      { c with flits := l, out := if tail then none else c.out, drop := c.drop && !tail,
               who := if tail then none else c.who }) h ch tail

/-- May the packet of a header take output port 0 (R292, R299): no packet has it, and the gateway has room? -/
def localFree (s : State) (h : Nat) (p : Packet) : Bool :=
  !(s.router h).heldOf 500 && (!crossesSeam s h p || linkRoom s (rowLink h) p)

/-- Does the head flit of an input channel ask for an output port in this clk (R296): a header in the second clk after it
is routed, a body flit from the clk after its arrival (R482)? -/
def wantsPort (s : State) (h p ch : Nat) : Bool :=
  let r := s.router h
  let c := r.chan ch
  match c.out, c.flits with
  | some (q, v), f :: _ => decide (q = p ∧ f.wclk + (if f.i = 0 then 3 else 1) ≤ s.clk) && !behind r ch &&
      (if p = 0 then decide (f.i ≠ 0) || localFree s h f.pkt else decide (0 < r.freeOf (5 * p + v)))
  | _, _ => false

/-- Does a circuit's slot take an output port now (R297)? -/
def circuitNow (r : Router) (clk : Nat) : Option (Nat × Nat) :=
  let e := KMap.get 0 r.slots (clk % 64)
  if e.getLsbD 6 then some (bits e.toNat 0 3, bits e.toNat 3 3) else none

/-- Can the circuit of this clk move its flit? -/
def circuitMoves (s : State) (h : Nat) : Bool :=
  let r := s.router h
  match circuitNow r s.clk with
  | some (i, o) => (match (r.chan (5 * i + 4)).flits with
    | f :: _ => decide (f.wclk < s.clk) && !(r.chan (5 * i + 4)).drop &&
        (if o = 0 then decide (f.i ≠ 0) || !crossesSeam s h f.pkt || linkRoom s (rowLink h) f.pkt
          else decide (0 < r.freeOf (5 * o + 4)))
    | [] => false)
  | none => false

/-- A flit leaves by output port 0 for the seam gateway: a header takes its packet's buffers there (R299), or is matched there
(R340), and, unless a circuit carries it, takes the port (R292); with the tail the packet is whole. -/
def takeLocal (s : State) (h v : Nat) (f : Flit) : State :=
  let s := if f.i ≠ 0 then s
    else if crossesSeam s h f.pkt then linkHold s (rowLink h) f.pkt
    else headerAt s (256 + rowLink h) { f.pkt with np := 0 }
  let tail := decide (f.i = f.pkt.npay.toNat)
  let s := if v = 4 then s else s.updRouter h fun r => { r with holders := KMap.set false r.holders 500 (!tail) }
  if tail then gatewayIn s h f.pkt else s

/-- Move the head flit of channel ch through an output port to channel v beyond it; it is there at the end of clk w. -/
def moveFlit (s : State) (h ch p v w : Nat) : State :=
  match ((s.router h).chan ch).flits with
  | [] => s
  | f :: _ =>
    let s := popFlit s h ch
    let f := { f with pkt := { f.pkt with np := 0 }, early := false }
    if p = 0 then takeLocal s h v f
    else
      let s := s.updRouter h fun r => { r with free := KMap.set 8 r.free (5 * p + v) (r.freeOf (5 * p + v) - 1) }
      putFlit s (neighbour h p) (5 * farPort p + v) w f

/-- OUTPUT_PORT_GRANT (R296): output port p of router h grants one flit, round-robin over its 25 pairs; a circuit whose
slot is now takes the port first. -/
def execOutputPortGrant (h p : Nat) (s : State) : Out :=
  let r := s.router h
  if circuitMoves s h && (circuitNow r s.clk).any fun c => c.2 = p then .next s
  else
    let p0 := KMap.get 0 r.rr p
    match ((List.range 25).map fun i => (p0 + i) % 25).find? (wantsPort s h p) with
    | none => .next s
    | some ch =>
      let v := ((r.chan ch).out.map (·.2)).getD 0
      .next (moveFlit (s.updRouter h fun r => { r with rr := KMap.put r.rr p ((ch + 1) % 25) }) h ch p v s.clk)

/-- CIRCUIT_SLOT (R297): the current slot of router h moves the head flit of its S channel. -/
def execCircuitSlot (h : Nat) (s : State) : Out :=
  let r := s.router h
  match circuitNow r s.clk with
  | some (i, o) => if circuitMoves s h then .next (moveFlit s h (5 * i + 4) o 4 s.clk) else .next s
  | none => .next s

/-! ## Consumption and the local input -/

/-- Channels whose packet is consumed here lose one flit, a header after its match lookup (R296, R327). -/
def consumeFlits (s : State) (h : Nat) : State :=
  (s.router h).chans.foldl (fun s c =>
    match c.2.flits with
    | f :: _ => if c.2.drop && decide (f.wclk + (if f.i = 0 then 3 else 1) ≤ s.clk) then popFlit s h c.1 else s
    | [] => s) s

/-- The client of a waiting packet: the interface or the gateway (R292). -/
def clientOf (k : Nat) : Nat := if k = 1 ∨ k = 3 then 1 else 0

/-- Does a waiting packet enter the S channel (R297, R328)? -/
def onCircuit (k : Nat) : Bool := k = 2 || k = 3 || k = 5

/-- The packet that the local input carries next: the one under way, else that of the client not served last. -/
def nextInject (r : Router) : Option Nat :=
  match r.inject.findIdx? fun x => 0 < x.2.2.1 with
  | some i => some i
  | none =>
    let last := KMap.get 0 r.rr 100
    match r.inject.findIdx? fun x => clientOf x.1 ≠ last with
    | some i => some i
    | none => if r.inject = [] then none else some 0

/-- Clks that a packet's header spends at the local input beyond those of a transit router: the match lookup of one that NP
injects into an entry which emits it directly (R296, R330). -/
def lookupClks (s : State) (h : Nat) (p : Packet) : Nat := if p.np ≠ 0 ∧ routePort s h p ≠ 5 then 2 else 0

/-- One flit through the local input of router h (R292, R294); `r0` is the router as it stood at the start of the clk, whose
free slots and holders count (R483). -/
def injectFlit (s : State) (r0 : Router) (h : Nat) : State :=
  let r := s.router h
  match nextInject r with
  | none => s
  | some i =>
    match r.inject[i]? with
    | none => s
    | some (client, p, k, ch) =>
      let vc := match ch with
        | some v => some v
        | none => if onCircuit client then (if r0.heldOf 4 then none else some 4) else allot r0 0 (p.npay.toNat + 1) 2 false
      match vc with
      | none => s
      | some v =>
        if r0.freeOf v = 0 then s
        else
          let rest := if k = p.npay.toNat then r.inject.eraseIdx i else r.inject.set i (client, p, k + 1, some v)
          let s := s.updRouter h fun r => { r with
            inject := rest
            rr := KMap.put r.rr 100 (clientOf client)
            holders := KMap.put r.holders v true
            free := KMap.set 8 r.free v (r.freeOf v - 1) }
          putFlit s h v (s.clk + if k = 0 then lookupClks s h p else 0) ⟨p, k, s.clk, decide (4 ≤ client ∧ k = 0)⟩

end Sys2Proof.Machine
end

