-- ==== Sys2Proof/Machine/Reshard.lean ====
section
/-!
DEFINITION. The reshard engine (R275, R361-R368): layout-pair records and their checks, shards, the exchange over
each mesh axis, `rs.go` and `rs.qry`, and the chunks of every engine command.
-/

namespace Sys2Proof.Machine

/-! ## The layout pair (R361-R365) -/

/-- A layout-pair record: its 32 words. -/
abbrev Pair := List Word

def pNdim (w : Pair) : Nat := fld (wordAt w 0) 0 3 + 1
def pNax (w : Pair) : Nat := fld (wordAt w 0) 4 2 + 1
def pCm (w : Pair) : Bool := (wordAt w 0).getLsbD 6
def pPart (w : Pair) (dst : Bool) (a : Nat) : Bool := (wordAt w 0).getLsbD ((if dst then 12 else 8) + a)
def pSz (w : Pair) (a : Nat) : Nat := fld (wordAt w 1) (11 * a) 11
def pExt (w : Pair) (d : Nat) : Nat := fld (wordAt w (2 + d)) 0 32
def pAx (w : Pair) (dst : Bool) (d : Nat) : Nat := if dst then fld (wordAt w (10 + d)) 0 3 else fld (wordAt w (2 + d)) 32 3
def pBlk (w : Pair) (dst : Bool) (d : Nat) : Nat := if dst then fld (wordAt w (10 + d)) 8 24 else fld (wordAt w (2 + d)) 40 24

/-- The used dimensions and axes. -/
def pDims (w : Pair) : List Nat := List.range (pNdim w)
def pAxes (w : Pair) : List Nat := List.range (pNax w)

/-- The dimension that a side maps to axis a. -/
def dimOn (w : Pair) (dst : Bool) (a : Nat) : Option Nat := (pDims w).find? fun d => pAx w dst d = a + 1

/-- The participants. -/
def pCount (w : Pair) : Nat := (pAxes w).foldl (fun n a => n * pSz w a) 1

/-- A reserved field is nonzero, or a size, or an extent or block of a mapped dimension, is 0 (code 1). -/
def pReserved (w : Pair) : Bool :=
  decide (wordAt w 0 &&& ~~~(0xFF77 : Word) ≠ 0 ∨ fld (wordAt w 1) 44 20 ≠ 0) ||
    ((List.range 8).any fun d => decide (fld (wordAt w (2 + d)) 35 5 ≠ 0 ∨ fld (wordAt w (10 + d)) 3 5 ≠ 0 ∨
      fld (wordAt w (10 + d)) 32 32 ≠ 0)) ||
    ((List.range 14).any fun i => wordAt w (18 + i) ≠ 0) ||
    ((pAxes w).any fun a => pSz w a = 0) ||
    ((pDims w).any fun d => decide ((pExt w d = 0 ∧ (pAx w false d ≠ 0 ∨ pAx w true d ≠ 0)) ∨
      (pAx w false d ≠ 0 ∧ pBlk w false d = 0) ∨ (pAx w true d ≠ 0 ∧ pBlk w true d = 0)))

/-- An axis mapped twice on one side, or a mapping to an axis that is absent (code 2). -/
def pMapped (w : Pair) : Bool :=
  [false, true].any fun s => (pDims w).any fun d =>
    decide (pNax w < pAx w s d) || (pAx w s d ≠ 0 && (pDims w).any fun e => decide (e < d ∧ pAx w s e = pAx w s d))

/-- A side that is neither partial nor maps a dimension to an axis, and one that is both, over axis a (code 4). -/
def pRefused (w : Pair) (a : Nat) : Bool :=
  (pPart w true a && !pPart w false a) ||
    [false, true].any fun s => pPart w s a && (dimOn w s a).isSome

/-- Does the exchange over axis a reduce? -/
def pReduces (w : Pair) (a : Nat) : Bool := pPart w false a && !pPart w true a

/-- The code of R365, 0 for a valid pair; `crew` is CREWN and `ef` the element format. DEDUCED (log 26): of an `rs.go` with a
format outside 0x0-0x8, R365's check, a mode-value trap, comes before the format-value trap, as in the table of R266. -/
def pairCode (w : Pair) (crew ef : Nat) : Nat :=
  if pReserved w then 1
  else if pMapped w then 2
  else if crew < pCount w then 3
  else if (pAxes w).any (pRefused w) then 4
  else
    let red := (pAxes w).any (pReduces w)
    if (pCm w && (intOf ef).isSome) || 8 < ef || (red && !(ef = 2 || (6 ≤ ef && ef ≤ 8))) then 5 else 0

/-! ## Shards (R361, R363) -/

/-- Coordinate c_a of rank r. -/
def coord (w : Pair) (r a : Nat) : Nat := r / ((List.range a).foldl (fun n b => n * pSz w b) 1) % pSz w a

/-- Rank r with coordinate a set to i. -/
def moveRank (w : Pair) (r a i : Nat) : Nat :=
  let k := (List.range a).foldl (fun n b => n * pSz w b) 1
  r - coord w r a * k + i * k

/-- The coordinate that owns index e of a dimension with block b over s participants. -/
def ownerAt (b s e : Nat) : Nat := e / b % s

/-- Indices of a dimension that coordinate c owns: all of them where it is unmapped. -/
def ownedLen (w : Pair) (dst : Bool) (r d : Nat) : Nat :=
  match pAx w dst d with
  | 0 => pExt w d
  | a + 1 =>
    let b := pBlk w dst d
    let s := pSz w a
    pExt w d / (b * s) * b + min b (pExt w d % (b * s) - coord w r a * b)

/-- Elements of a shard. -/
def shardLen (w : Pair) (dst : Bool) (r : Nat) : Nat := (pDims w).foldl (fun n d => n * ownedLen w dst r d) 1

/-- The index of the k-th owned position of a dimension. -/
def ownedIdx (w : Pair) (dst : Bool) (r d k : Nat) : Nat :=
  match pAx w dst d with
  | 0 => k
  | a + 1 => let b := pBlk w dst d; (k / b * pSz w a + coord w r a) * b + k % b

/-- The place of an owned index in its dimension. -/
def ownedPos (w : Pair) (dst : Bool) (d e : Nat) : Nat :=
  match pAx w dst d with
  | 0 => e
  | a + 1 => let b := pBlk w dst d; e / (b * pSz w a) * b + e % b

/-- The indices of the p-th element of a shard, dimension 0 fastest. -/
def shardIdx (w : Pair) (dst : Bool) (r p : Nat) : List Nat :=
  ((pDims w).foldl (fun (q : List Nat × Nat) d =>
    let n := ownedLen w dst r d
    (q.1 ++ [ownedIdx w dst r d (q.2 % n)], q.2 / n)) ([], p)).1

/-- The place of an element in the source shard of rank r. -/
def srcPos (w : Pair) (r : Nat) (e : List Nat) : Nat :=
  ((pDims w).foldl (fun (q : Nat × Nat) d =>
    (q.1 + q.2 * ownedPos w false d (e[d]?.getD 0), q.2 * ownedLen w false r d)) (0, 1)).1

/-! ## The exchange (R364) -/

/-- The linear number of an element of the tensor. -/
def elemNo (w : Pair) (e : List Nat) : Nat :=
  ((pDims w).foldl (fun (q : Nat × Nat) d => (q.1 + q.2 * e[d]?.getD 0, q.2 * pExt w d)) (0, 1)).1

/-- The exponent of an ALIGNED reduction of some values: at least the least valid one (R355, log 26). -/
def redExp (free k : Nat) (xs : List Num) : Int := max (alignExp xs) ((Config.freeNat (free + k) % 278 : Nat) - 150 : Int)

/-- Element `e` at rank r once the axes below n have been exchanged. -/
def exchanged (w : Pair) (ef free : Nat) (src : Nat → Nat → Nat) (e : List Nat) : Nat → Nat → Nat × Flg
  | 0, r => (src r (srcPos w r e), 0)
  | n + 1, r =>
    let at' (i : Nat) : Nat × Flg := exchanged w ef free src e n (moveRank w r n i)
    if pReduces w n then
      let xs := (List.range (pSz w n)).map at'
      let (v, f) :=
        if pCm w then
          sumAligned ef (elemNo w e) (redExp free (4 * elemNo w e + n) (xs.map fun x => redVal ef x.1)) (xs.map (·.1))
        else sumOrdered ef (elemNo w e) (xs.map (·.1))
      (v, f ||| flgAll (xs.map (·.2)))
    else match dimOn w false n with
      | some d => at' (ownerAt (pBlk w false d) (pSz w n) (e[d]?.getD 0))
      | none => exchanged w ef free src e n r

/-- The exchange over axis a: 0 none, 1 all-reduce, 2 reduce-scatter, 3 all-gather, 4 all-to-all; and its dimension. -/
def exchKind (w : Pair) (a : Nat) : Nat × Nat :=
  match pPart w false a, pPart w true a, dimOn w false a, dimOn w true a with
  | true, false, _, none => (1, 0)
  | true, false, _, some d => (2, d)
  | false, _, some d, some d' => if d = d' ∧ pBlk w false d = pBlk w true d then (0, 0) else (4, d)
  | false, _, some d, none => (3, d)
  | _, _, _, _ => (0, 0)

/-- The phases: kind, axis and dimension, in ascending axis order. -/
def phases (w : Pair) : List (Nat × Nat × Nat) :=
  ((pAxes w).map fun a => ((exchKind w a).1, a, (exchKind w a).2)).filter fun p => p.1 ≠ 0

/-- Indices of dimension d that rank r holds before the exchange over axis a, or, with `keep`, those of them that it keeps: the
source's share over axes still to come, the destination's over axes that are done. -/
def heldCount (w : Pair) (r a d : Nat) (keep : Bool) : Nat :=
  let t := pAx w true d
  match decide (a < pAx w false d), decide (t ≠ 0 ∧ (t ≤ a ∨ keep = true ∧ t = a + 1)) with
  | false, false => pExt w d
  | true, false => ownedLen w false r d
  | false, true => ownedLen w true r d
  | true, true => ((List.range (ownedLen w false r d)).filter fun k =>
      ownerAt (pBlk w true d) (pSz w (t - 1)) (ownedIdx w false r d k) = coord w r (t - 1)).length

/-- Elements that a rank holds before the exchange over axis a, or keeps of them. -/
def heldAt (w : Pair) (r a : Nat) (keep : Bool) : Nat := (pDims w).foldl (fun n d => n * heldCount w r a d keep) 1

/-- Bytes that a rank sends in a phase: what it holds for the others of its group (log 26). -/
def phaseBytes (w : Pair) (r : Nat) (p : Nat × Nat × Nat) (z : Nat) : Nat :=
  let n := heldAt w r p.2.1 false
  z * if p.1 = 2 ∨ p.1 = 4 then n - heldAt w r p.2.1 true else n

/-- The worst-case clks of a phase (R368); `span` gives L of an axis. -/
def phaseClks (w : Pair) (r z : Nat) (span : Nat → Nat) (p : Nat × Nat × Nat) : Nat :=
  3000 + 1200 * span p.2.1 + 2 * ceilDiv (phaseBytes w r p z) 64

/-- The worst-case clks of an `rs.go` (R368). -/
def pairBound (w : Pair) (r z : Nat) (span : Nat → Nat) : Nat :=
  500 + listSum ((phases w).map (phaseClks w r z span))

/-- The result record of `rs.qry` (R367): 8 words. -/
def qryWords (w : Pair) (r crew z : Nat) (span : Nat → Nat) : List Word :=
  let code := pairCode w crew 8
  if code ≠ 0 then [w64 (code * 2 ^ 8), 0, 0, 0, 0, 0, 0, 0]
  else
    let ps := phases w
    let word (i : Nat) : Word := match ps[i]? with
      | some p => w64 (p.1 + p.2.1 * 2 ^ 4 + p.2.2 * 2 ^ 8 + phaseBytes w r p z % 2 ^ 40 * 2 ^ 24)
      | none => 0
    [w64 ps.length, word 0, word 1, word 2, word 3, w64 (pairBound w r z span % 2 ^ 40), 0, 0]

/-! ## Issue -/

/-- The arena record that a0 names, as a local load of the go bundle would read it (R365). -/
def pairAt (s : State) (a0 : Word) : Pair := wordsOf ((soon s s.iss.n).rdArena s.iss.n (fld a0 0 23) 256) 32

/-- A seam mark recorded with a go move of NP or RS (R246, R250): one slot, whose header holds a0-a3. -/
def seamOp (fu port : Nat) : RecOp := ⟨fu, port, 4, 0, [], 0, false, 0, []⟩

/-- Stage the seam mark: the flag word is consumed; a flow has no result, so it takes no RGID (log 27). -/
def seamStage (s : State) (fu port : Nat) : State :=
  if !recOn s then s
  else
    let c := s.iss.ctx
    let hdr : List Word := [w64 (4 + fu * 2 ^ 4 + port * 2 ^ 9 + 2 ^ 32), 0, 0, 0, c.portW fu 0, c.portW fu 1,
      c.portW fu 2, c.portW fu 3]
    let (id, s) := fresh s
    let s := s.updCtx s.iss.n fun c => c.updBaste fun b =>
      { b with fw := nextFw b.fw false, stages := b.stages ++ [⟨id, hdr, [], [], 0, 1, false⟩] }
    s.updCore (coreOf s.iss.n) fun k => { k with staged := k.staged + 64 }

/-- The record alignment and range checks that both operations share. -/
def pairNotes (c : Ctx) (a0 : Word) : List Note :=
  [trapIf (decide (fld a0 0 8 ≠ 0)) 0x0A a0, lowestFlt [arenaOut c (fld a0 0 23) 256]]

/-- RS_GO (R275, R365, R366). -/
def execRsGo (g : BitVec 4) (src : BitVec 9) (s : State) : Out :=
  let c := s.iss.ctx
  let t := tWord s src
  let a0 := c.portW 19 0
  let a3 := c.portW 19 3
  let ef := fld a3 20 4
  let w := if (arenaOut c (fld a0 0 23) 256).isNone then pairAt s a0 else []
  let code := pairCode w c.ctl.crewn.toNat ef
  let r := c.ctl.rank.toNat
  let z := codeBytes ef
  goMove 19 4 [recHold s (seamOp 19 4)]
    (goNotes s t ++ [epMode (c.portW 19 1) [0, 1], epMode (c.portW 19 2) [0, 1]] ++ pairNotes c a0 ++
      [trapIf (decide (code ≠ 0)) 0x0A (w64 code)] ++
      epNotes c [(c.portW 19 1, 0, z * shardLen w false r), (c.portW 19 2, 0, z * shardLen w true r)] 0 [] ++
      [recTrap s (seamOp 19 4)])
    (goTok t) (fun _ q => { q with shape := w }) (fun _ s => readsNow (seamStage s 19 4) [(fld a0 0 23, 256)]) g src s

/-- RS_QRY (R275, R367). -/
def execRsQry (g : BitVec 4) (src : BitVec 9) (s : State) : Out :=
  let c := s.iss.ctx
  let t := tWord s src
  let a0 := c.portW 19 0
  let a2 := c.portW 19 2
  let w := if (arenaOut c (fld a0 0 23) 256).isNone then pairAt s a0 else []
  goMove 19 5 []
    (goNotes s t ++ pairNotes c a0 ++ [lowestFlt [arenaOut c (fld a2 0 23) 64]])
    (goTok t) (fun _ q => { q with shape := w }) (fun _ s => readsNow s [(fld a0 0 23, 256)]) g src s

/-! ## Running -/

/-- Where the group of a phase spans dies or modules (R368); crews do not span modules. -/
def axisSpan (s : State) (c : Ctx) (w : Pair) (a : Nat) : Nat :=
  match s.dist.kerns.find? fun k => k.kid = c.ctl.kid with
  | none => 0
  | some k =>
    let die (r : Nat) : Nat := dieOf (k.members[r]?.getD 0)
    let r := c.ctl.rank.toNat
    if (List.range (pSz w a)).all fun i => die (moveRank w r a i) = die r then 0 else 1

/-- `rs.qry` (R367): its element size is not given, and four bytes are taken (log 26). -/
def qryChunk (s : State) (n : Nat) (c : Ctx) (q : Cmd) : State :=
  let g := cmdAgent n c q
  let ws := qryWords q.shape c.ctl.rank.toNat c.ctl.crewn.toNat 4 (axisSpan s c q.shape)
  let off := fld q.a2 0 23
  let work : Acc Unit := do
    writePhys (arenaPA g.img (quadOf n) off) (packNat 64 (fun i => (wordAt ws i).toNat) 8) 64 (w64 off)
    chunkAdd g q 64
  match work.run s with
  | (.error f, t) => stopChunk t n q f
  | (.ok _, t) =>
    let np := fld (wordAt ws 0) 0 4
    let q' := { q with done := 64, chunk := 1 }
    endEngine (onServed (chunkCount t n 64) n q.fu fun c => c.updCmd q.fu fun _ => q') n q' (w64 np)

/-- The reshard of a kernel with a flow base. -/
def findReshard (s : State) (kid : BitVec 32) (base : BitVec 20) : Option (Nat × Reshard) :=
  (s.reshards.find? fun p => p.2.kid = kid ∧ p.2.base = base ∧
    !(p.2.ended.length = p.2.ready.length ∧ p.2.ended ≠ [])).map fun p => (p.1, p.2)

/-- The flow range of transient entries at a router: those of reshards with a participant there (R366). -/
def transientAt (s : State) (q : Nat) : List (Nat × Nat) :=
  s.reshards.filterMap fun p =>
    match s.dist.kerns.find? fun k => k.kid = p.2.kid with
    | some k =>
      if p.2.ready.any fun r => !p.2.ended.contains r.1 && decide (quadOf (k.members[r.1]?.getD 0) = q) then
        some (p.2.base.toNat, p.2.base.toNat + 63) else none
    | none => none

/-- Table entries and spool entries that transient entries hold at a router (R366). -/
def transientRoom (s : State) (q : Nat) : Nat × Nat :=
  let l := (s.reshards.filter fun p => s.dist.kerns.any fun k => k.kid = p.2.kid).flatMap fun p =>
    p.2.room.filterMap fun r => if r.1 = q then some r.2.2 else none
  (listSum (l.map (·.1)), listSum (l.map (·.2)))

/-- Free table entries of a holder beside its transient ones (R337). -/
def freeEnts (s : State) (h : Nat) : Nat := 512 - (s.holder h).ents.length - (transientRoom s h).1

/-- Does a participant's router refuse its transient entries, `m.1` of the table with `m.2` of the spool: a flow range in use, or
too little room (codes 3, 4 and 5 of R337)? -/
def transientCode (s : State) (n : Nat) (kid : BitVec 32) (base : Nat) (m : Nat × Nat) : Option Nat :=
  if 2 ^ 20 ≤ base + 63 then some 3
  else if (s.pats.any fun p => decide (p.flo.toNat ≤ base + 63 ∧ base ≤ p.fhi.toNat)) ||
      ((transientAt s (quadOf n)).any fun r => decide (r.1 ≤ base + 63 ∧ base ≤ r.2)
        && !((findReshard s kid (BitVec.ofNat 20 base)).any fun x => decide (x.2.base.toNat = r.1))) then some 3
  else if freeEnts s (quadOf n) < m.1 then some 4
  else if 1024 < listSum ((s.holder (quadOf n)).spoolUsed.map (·.2.2)) + (transientRoom s (quadOf n)).2 + m.2 then some 5
  else none

/-- Change a reshard. -/
def updReshard (s : State) (id : Nat) (f : Reshard → Reshard) : State :=
  match s.reshards.find? fun p => p.1 = id with
  | some p => { s with reshards := KMap.put s.reshards id (f p.2) }
  | none => s

/-- A participant installs its entries and its source shard is taken (R366, log 26). How many entries of the table, up to one
for each flow id, and of the spool they take is not stated: free values. -/
def installShard (s : State) (n : Nat) (c : Ctx) (q : Cmd) : State :=
  let base := BitVec.ofNat 20 (fld q.a3 0 20)
  let kid := c.ctl.kid
  let r := c.ctl.rank.toNat
  let z := codeBytes (fld q.a3 20 4)
  let (ne, s) := drawNat s 1 64
  let (ns, s) := drawNat s (4 * ne) (16 * ne)
  match transientCode s n kid base.toNat (ne, ns) with
  | some code => stopChunk s n q (0x3C, w64 code)
  | none =>
    match (readEp (cmdAgent n c q) q.a1 0 (z * shardLen q.shape false r)).run s with
    | (.error f, t) => stopChunk t n q f
    | (.ok v, t) =>
      let (id, t) := match findReshard t kid base with
        | some x => (x.1, t)
        | none =>
          let (id, t) := fresh t
          (id, { t with reshards := KMap.put t.reshards id ⟨kid, base, [], [], [], t.free, []⟩, free := t.free + 1 })
      let t := updReshard t id fun x => { x with ready := x.ready ++ [(r, 0)], bufs := x.bufs ++ [(r, v)], room := x.room ++ [(quadOf n, r, ne, ns)] }
      let st : CmdSt := if phases q.shape = [] then .waiting else .away
      (onServed t n 19 fun c => { c.updCmd 19 fun q => { q with aux := id + 1, st := st } with walks := c.walks.del 19 }).at (t.clk + 1) false
        (.reshardPhaseStart id)

/-- The source element p of rank r as it was taken. -/
def shardElem (x : Reshard) (z r p : Nat) : Nat :=
  match x.bufs.find? fun b => b.1 = r with
  | some b => bits b.2 (8 * z * p) (8 * z)
  | none => 0

/-- A chunk of the destination shard: at most 1,024 bytes (R366). -/
def rsChunk (g : Agent) (q : Cmd) (x : Reshard) : Acc Chunk := do
  let w := q.shape
  let ef := fld q.a3 20 4
  let z := codeBytes ef
  let r := g.img.ctl.rank.toNat
  let tot := z * shardLen w true r
  let p0 := q.done / z
  let k := min (1024 / z) (tot / z - p0)
  let es := (List.range k).map fun i => exchanged w ef x.free (shardElem x z) (shardIdx w true r (p0 + i)) (pNax w) r
  writeEp g q.a2 q.done (packNat (8 * z) (fun i => (es[i]?.getD (0, 0)).1) k) (k * z)
  pure ⟨k * z, flgAll (es.map (·.2)), decide (tot ≤ q.done + k * z), 0, none⟩

/-- The phases that a participant has completed. -/
def phasesDone (x : Reshard) (r : Nat) : Option Nat := (x.ready.find? fun p => p.1 = r).map (·.2)

/-- A participant that has ended; a reshard with none left is forgotten. -/
def endShard (s : State) (id r : Nat) : State :=
  let s := updReshard s id fun x => { x with ended := x.ended ++ [r], room := x.room.filter fun m => m.2.1 ≠ r }
  match s.reshards.find? fun p => p.1 = id with
  | some p => if p.2.ready.all fun e => p.2.ended.contains e.1 then { s with reshards := s.reshards.del id } else s
  | none => s

/-- Chunks that the engine writes in a clk: one, and more only for a shard that would not be written in the 190 clks that the
bound of R368 leaves (log 26). -/
def chunksPerClk (w : Pair) (r z : Nat) : Nat := max 1 (ceilDiv (ceilDiv (z * shardLen w true r) 1024) 190)

/-- Chunks of context n's reshard in this turn of the engine: one where another queue waits for it (R264). -/
def chunksNow (s : State) (n : Nat) (w : Pair) (r z : Nat) : Nat :=
  if (List.range 4).any fun i => decide (i ≠ n % 4) && headWaits s (4 * coreOf n + i) 19 then 1 else chunksPerClk w r z

/-- Go on with an `rs.go` in service: install, wait for its phases, or write a chunk; the engine then turns to the next
queue (R264). -/
def runReshard (s : State) (n : Nat) (c : Ctx) (q : Cmd) : State :=
  let base := BitVec.ofNat 20 (fld q.a3 0 20)
  let r := c.ctl.rank.toNat
  match findReshard s c.ctl.kid base with
  | none => installShard s n c q
  | some (id, x) =>
    match phasesDone x r with
    | none => installShard s n c q
    | some k =>
      if k < (phases q.shape).length then
        (onServed s n 19 fun c => c.updCmd 19 fun q => { q with st := .away }).at (s.clk + 1) false (.reshardPhaseStart id)
      else
        rsChunks id x c q s (chunksNow s n q.shape r (codeBytes (fld q.a3 20 4)))
where
  /-- Chunks in their order; what the first of them writes stays when a later one faults. -/
  rsChunks (id : Nat) (x : Reshard) (c : Ctx) (q : Cmd) (s : State) : Nat → State
  | 0 => onServed s n 19 fun c => c.updCmd 19 fun _ => { q with st := .waiting }
  | f + 1 =>
    let g := cmdAgent n c q
    let work : Acc Chunk := do
      let k ← rsChunk g q x
      chunkAdd g q k.n
      pure k
    match work.run s with
    | (.error f, t) => stopChunk t n q f
    | (.ok k, t) =>
      let t := chunkCount t n k.n
      let q' : Cmd := { q with done := q.done + k.n, chunk := q.chunk + 1, flg := q.flg ||| k.flg }
      let t := onServed t n 19 fun c => { c.updCmd 19 fun _ => q' with walks := c.walks.del 19 }
      if k.last then endEngine (endShard t id c.ctl.rank.toNat) n q' (w64 q'.done) else rsChunks id x c q' t f

/-- The context and command of a rank of a kernel whose `rs.go` has installed its entries and is not stopped. -/
def shardCmd (s : State) (x : Reshard) (r : Nat) : Option (Nat × Cmd) :=
  match s.dist.kerns.find? fun k => k.kid = x.kid with
  | none => none
  | some k =>
    match k.members[r]? with
    | none => none
    | some n => match ((s.ctx n).queue 19).head? with
      | some q => if q.st = .away ∧ q.port = 4 ∧ q.a3.toNat % 2 ^ 20 = x.base.toNat then some (n, q) else none
      | none => none

/-- May rank r advance: has every participant of its next phase's group installed and come as far, with its command in
service (R366)? -/
def mayAdvance (s : State) (x : Reshard) (r : Nat) : Bool :=
  match shardCmd s x r, phasesDone x r with
  | some (_, q), some k =>
    (match (phases q.shape)[k]? with
     | none => false
     | some p => (List.range (pSz q.shape p.2.1)).all fun i =>
       let m := moveRank q.shape r p.2.1 i
       (match phasesDone x m with | some j => decide (k ≤ j) | none => false) && (shardCmd s x m).isSome)
  | _, _ => false

/-- The worst-case clks of phase k of context n's `rs.go` (R368). -/
def phaseBound (s : State) (n k : Nat) (q : Cmd) : Nat :=
  let c := s.ctx n
  match (phases q.shape)[k]? with
  | some p => phaseClks q.shape c.ctl.rank.toNat (codeBytes (fld q.a3 20 4)) (axisSpan s c q.shape) p
  | none => 1

/-- RESHARD_PHASE_START (R366, R368): every participant whose group is ready runs its next phase. -/
def execReshardPhaseStart (id : Nat) (s : State) : Out :=
  match s.reshards.find? fun p => p.1 = id with
  | none => .next s
  | some (_, x) =>
    let go := (x.ready.map (·.1)).filter (mayAdvance s x)
    let s := updReshard s id fun y => { y with ready := y.ready.map fun p => if go.contains p.1 then (p.1, p.2 + 1) else p }
    let s := go.foldl (fun s r =>
      match shardCmd s x r, phasesDone x r with
      | some (n, q), some k =>
        s.within 1 (phaseBound s n k q)
          (if (phases q.shape).length ≤ k + 1 then .engineChunkComplete n 19 else .reshardPhaseStart id)
      | _, _ => s) s
    .next s

/-- The phases of context n's reshard are over: its command waits for the engine's next turns (R264). -/
def phasesOver (s : State) (n : Nat) : State :=
  let c := s.ctx n
  match (c.queue 19).head? with
  | some q =>
    let done := match findReshard s c.ctl.kid (BitVec.ofNat 20 (fld q.a3 0 20)) with
      | some (_, x) => (phasesDone x c.ctl.rank.toNat).any fun k => decide ((phases q.shape).length ≤ k)
      | none => false
    if q.st = .away && done then s.setCtx n (c.updCmd 19 fun q => { q with st := .waiting }) else s
  | none => s

/-- ENGINE_CHUNK_COMPLETE (R276, R277): the next chunk of the command in service of engine `fu` for context n. -/
def execEngineChunkComplete (n fu : Nat) (s : State) : Out :=
  match served s n fu with
  | none => .next (if fu = 19 then phasesOver s n else s)
  | some (c, q) =>
    if fu ≠ 19 then .next (runChunk s n c q)
    else if q.port = 5 then .next (qryChunk s n c q)
    else .next (runReshard s n c q)

end Sys2Proof.Machine
end

