-- ==== Sys2Proof/Machine/Send.lean ====
section
/-!
DEFINITION. The NP operations and the injection of their packets (R304, R305, R330).
-/

namespace Sys2Proof.Machine

/-! ## The go moves (R304, R305) -/

def npSize (a2 : Word) : Nat := fld a2 0 40
def npPayf (a3 : Word) : Nat := fld a3 32 5

/-- NP_SEND (R304, R305). -/
def execNpSend (g : BitVec 4) (src : BitVec 9) (s : State) : Out :=
  let c := s.iss.ctx
  let t := tWord s src
  let a0 := c.portW 20 0
  let a1 := c.portW 20 1
  let a2 := c.portW 20 2
  let a3 := c.portW 20 3
  let fc := fld a3 37 4
  goMove 20 4 [recHold s (seamOp 20 4)]
    (goNotes s t ++ [epMode a0 srcKinds, trapIf (decide (fld a1 0 20 = 0)) 0x0A a1,
      trapIf (decide (npSize a2 = 0 ∨ npSize a2 % 4 ≠ 0)) 0x0A a2,
      trapIf (decide (npPayf a3 = 0 ∨ 16 < npPayf a3)) 0x0A a3, trapIf (decide (8 < fc)) 0x05 (w64 fc)] ++
      epNotes c [(a0, 0, npSize a2)] 0 [] ++ [recTrap s (seamOp 20 4)])
    (goTok t) (fun _ q => q) (fun _ s => seamStage s 20 4) g src s

/-- NP_ROW (R304, R305): its go word is a3, its payload the row T. -/
def execNpRow (g : BitVec 4) (src : BitVec 9) (s : State) : Out :=
  let c := s.iss.ctx
  let a0 := c.portW 20 0
  let a1 := c.portW 20 1
  let t := c.portW 20 3
  let fc := fld a0 0 4
  goMove 20 5 [recHold s (seamOp 20 5)]
    (goNotes s t ++ [trapIf (decide (fld a1 0 20 = 0)) 0x0A a1, trapIf (decide (8 < fc)) 0x05 (w64 fc),
      recTrap s (seamOp 20 5)])
    (goTok t) (fun v q => { q with go := t, row := v.row }) (fun _ s => seamStage s 20 5) g src s

/-! ## Injection (R305, R330) -/

/-- Payload bytes of a command and of one of its packets. -/
def cmdSize (q : Cmd) : Nat := if q.port = 5 then 256 else npSize q.a2
def cmdPacket (q : Cmd) : Nat := if q.port = 5 then 256 else 64 * npPayf q.a3

/-- Packet i of a command (R305). -/
def npPacket (s : State) (h : Nat) (q : Cmd) (i pay nb : Nat) : Packet :=
  let ch0 := if q.port = 5 then fld q.a2 0 32 else fld q.a3 0 32
  let fc := if q.port = 5 then fld q.a0 0 4 else fld q.a3 37 4
  { Packet.none with
    flow := BitVec.ofNat 20 (fld q.a1 0 20), snode := BitVec.ofNat 6 (h % 64), sdie := BitVec.ofNat 2 (h / 64)
    smod := s.mgmt.modn, tnode := BitVec.ofNat 6 (h % 64), tdie := BitVec.ofNat 2 (h / 64), tmod := s.mgmt.modn
    chunk := BitVec.ofNat 32 (ch0 + i), npay := BitVec.ofNat 5 (ceilDiv nb 64), nb := BitVec.ofNat 11 nb
    last := decide (cmdSize q ≤ (i + 1) * cmdPacket q), fmtc := BitVec.ofNat 4 fc, pay := BitVec.ofNat 8192 pay }

/-- A FWD or DUP entry that an input feeds by local injection alone (R330). -/
def directEntry (x : FEntry) (i : Nat) : Bool := (x.act = 0 || x.act = 1) && (!(x.upstream i).valid || (x.upstream i).kind = 7)

/-- Packets that NP has put into the local input of a router and that have not yet left it or reached their entry. -/
def localPackets (s : State) (h : Nat) : List Packet :=
  ((s.router h).inject.map (·.2.1) ++ (s.router h).chans.flatMap fun c => c.2.flits.map (·.pkt)).filter fun p => p.np ≠ 0

/-- Those on their way to entry e, each by its header; with them those that wait there for their tail. -/
def comingTo (s : State) (h e : Nat) : List Packet :=
  let here (p : Packet) : Bool := decide (p.np ≠ 0 ∧ matchEntry (s.holder h) p.flow.toNat = some e)
  (((s.router h).inject.filter fun x => x.2.2.1 = 0).map (·.2.1)).filter here ++
    ((s.router h).chans.flatMap fun c => (c.2.flits.filter fun g => g.i = 0 && !c.2.drop).map (·.pkt)).filter here ++
    ((s.holder h).inbox.filter fun a => a.own && decide (a.hit.map (·.1) = some e)).map (·.pkt)

/-- Can the entry take an injected packet now (R330), those that NP has already sent to it taken into account: every copy
has a credit; a data slot is free; or the slot of its chunk assembles that chunk without its input? -/
def canTake (s : State) (h e : Nat) (p : Packet) : Bool :=
  let x := s.holder h
  let y := x.entry e
  let i := p.flow.toNat % 2 ^ y.iw
  if y.nin ≤ i || y.act = 9 then true
  else if directEntry y i then
    (chainOf x 512 e).all fun j => (copiesOf h (x.entry j)).all fun c => decide (0 < (x.entry j).credit c)
  else if y.single then decide (y.slots.length + (comingTo s h e).length < y.dep)
  else
    let sl := y.slot (p.chunk.toNat % y.dep)
    let fits (c : BitVec 32) (j : Nat) : Bool := decide (c = p.chunk ∧ j ≠ i)
    (sl.pkts.all fun q => fits sl.chunk q.1) && decide (sl.pkts.length < y.nin) &&
      ((comingTo s h e).filter fun q => q.chunk.toNat % y.dep = p.chunk.toNat % y.dep).all fun q =>
        fits q.chunk (q.flow.toNat % 2 ^ y.iw)

/-- Inject a packet into the local input port of its source router (R305). A FWD or DUP entry emits it directly (R330), each
copy as a packet of the command; another entry, or none, meets it there as at a hop target. -/
def injectPacket (s : State) (h : Nat) (e : Option Nat) (p : Packet) : State :=
  let x := s.holder h
  match e.filter fun e => let i := p.flow.toNat % 2 ^ (x.entry e).iw; directEntry (x.entry e) i && decide (i < (x.entry e).nin) with
  | some e =>
    let y := x.entry e
    let q := { p with fmtc := BitVec.ofNat 4 y.ef }
    let s := (chainOf x 512 e).foldl (fun s j =>
      (copiesOf h (x.entry j)).foldl (fun s c => sendCopy s h j c y.scnt q) s) s
    countSent s h e
  | none => injectAt s h (if e.any fun e => (x.entry e).cir then 2 else 0) p

/-- The end of a send: its bytes are added and its token is written (R277, R305). -/
def endSend (s : State) (n : Nat) (c : Ctx) (q : Cmd) : State :=
  match (chunkAdd (cmdAgent n c q) q (cmdSize q)).run s with
  | (.error f, t) => faultServed t n 20 f.1 f.2
  | (.ok _, t) => endEngine t n q (w64 (cmdSize q))

/-- NP_INJECTION (R305, R330): the next packet of the send in service of context n. The send is complete when the tail of
its last packet has left the local router. -/
def execNpInjection (n : Nat) (s : State) : Out :=
  match served s n 20 with
  | none => .next s
  | some (c, q) =>
    let h := quadOf n
    let sz := cmdSize q
    let l := cmdPacket q
    let again (s : State) : State := s.at (s.clk + 1) false (.npInjection n)
    if sz ≤ q.done then
      .next (if (localPackets s h).any fun p => p.np = q.id then again s else endSend s n c q)
    else
      let i := q.done / l
      let nb := min l (sz - q.done)
      let pay : Acc Nat := if q.port = 5 then pure q.row.toNat else readEp (cmdAgent n c q) q.a0 q.done nb
      match pay.run s with
      | (.error f, t) => .next (faultServed t n 20 f.1 f.2)
      | (.ok v, t) =>
        let p := { npPacket t h q i v nb with np := q.id }
        let e := if (t.holder h).fence then none else matchEntry (t.holder h) p.flow.toNat
        if e.any fun e => !canTake t h e p then .next (again t)
        else
          .next ((onServed (injectPacket t h e p) n 20 fun c => { c.updCmd 20 fun q =>
            { q with done := q.done + nb, chunk := q.chunk + 1 } with walks := c.walks.del 20 }).at (t.clk + ceilDiv nb 64 + 1) false (.npInjection n))

end Sys2Proof.Machine
end

