-- ==== Sys2Proof/Machine/Pattern.lean ====
section
/-!
DEFINITION. Pattern images and their loader (R336-R340), and the PT operations (R341-R344).
-/

namespace Sys2Proof.Machine

/-! ## Images (R336) -/

/-- An entry record of an image: its holder, and the entry with its parameter words. -/
structure PRec where
  hw : Nat
  h : Nat
  x : FEntry
  raw : List Word
  deriving DecidableEq, Repr

/-- A circuit record: its router's holder word, slot, IN and OUT. -/
structure PCir where
  hw : Nat
  slot : Nat
  inp : Nat
  out : Nat
  raw : Word
  deriving DecidableEq, Repr

/-- A pattern image as read. -/
structure Image where
  hdr : List Word
  recs : List PRec
  cirs : List PCir
  deriving DecidableEq, Repr

def Image.nent (i : Image) : Nat := fld (wordAt i.hdr 0) 0 16
def Image.acnt (i : Image) : Word := w64 (fld (wordAt i.hdr 1) 0 56)
def Image.aval (i : Image) : Word := wordAt i.hdr 2
def Image.rval (i : Image) : Word := wordAt i.hdr 3
def Image.flo (i : Image) : Nat := fld (wordAt i.hdr 4) 0 20
def Image.fhi (i : Image) : Nat := fld (wordAt i.hdr 4) 20 20

/-- Clear the fields that the loader writes itself (R324). -/
def clearLoaded (w0 w1 : Word) : Word × Word :=
  (setFld (setFld w0 0 2 0) 48 10 0, setFld (setFld (setFld (setFld w1 0 10 0) 22 9 0) 31 1 0) 32 32 0)

/-- An entry record of 16 words. -/
def recOf (w : List Word) : PRec :=
  let hw := fld (wordAt w 0) 0 11
  let (w0, w1) := clearLoaded (wordAt w 1) (wordAt w 2)
  ⟨hw, (holderOf hw).getD 999, { FEntry.reset with
    w0 := w0, w1 := w1, w2 := wordAt w 3, w3 := wordAt w 4, prm := (w.drop 8).take 4 }, w⟩

/-- A circuit record. -/
def cirOf (w : Word) : PCir := ⟨fld w 0 11, fld w 11 6, fld w 17 3, fld w 20 3, w⟩

/-- Read a pattern image (R336), at a virtual or, for a message with PHYS = 1, a physical address (R452). -/
def readImage (g : Agent) (phys : Bool) (a : Word) : Acc Image := do
  let rd (off n : Nat) : Acc Nat :=
    if phys then readEp g (w64 (4 * 2 ^ 60 + a.toNat % 2 ^ 48)) off n else readVirt g (a + w64 off) n
  let hdr := wordsOf (← rd 0 64) 8
  let n := fld (wordAt hdr 0) 0 16
  let k := fld (wordAt hdr 0) 16 16
  let es ← (List.range n).mapM fun i => do pure (recOf (wordsOf (← rd (64 + 128 * i) 128) 16))
  let cs ← (List.range k).mapM fun i => do pure (cirOf (w64 (← rd (64 + 128 * n + 8 * i) 8)))
  pure ⟨hdr, es, cs⟩

/-! ## The checks of R337 -/

/-- Data spool entries that an entry needs (R331, R334): a FWD or DUP fed by local injection alone needs none. -/
def dataNeed (x : FEntry) (fed : Bool) : Nat :=
  match x.act with
  | 0 | 1 => if fed then x.dep * x.chf else 0
  | 2 => if x.cm then x.dep * x.chf else x.dep * x.nin * x.chf
  | 6 | 8 => x.dep * x.chf
  | 9 => 0
  | _ => x.dep * x.nin * x.chf

/-- Is EF accepted by the action (R347)? -/
def efOk (x : FEntry) : Bool :=
  match x.act with
  | 2 => if x.cm then decide (6 ≤ x.ef ∧ x.ef ≤ 8) else decide (x.ef = 2 ∨ (6 ≤ x.ef ∧ x.ef ≤ 8))
  | 4 | 6 => decide (x.ef = 2 ∨ (6 ≤ x.ef ∧ x.ef ≤ 8))
  | 7 => x.ef = 8
  | _ => decide (x.ef ≤ 8)

/-- Code 1 on a record. -/
def recBad (prev : Option PRec) (r : PRec) : Bool :=
  let x := r.x
  let w := r.raw
  decide ((wordAt w 0).toNat ≠ r.hw ∨ 288 + 16 ≤ r.h ∨ (holdKind r.h = 2 ∧ bits r.hw 9 2 ≠ 0)) ||
    [5, 6, 7, 12, 13, 14, 15].any (fun i => wordAt w i ≠ 0) || (!x.prv && [8, 9, 10, 11].any fun i => wordAt w i ≠ 0) ||
    decide (fld x.w0 60 4 ≠ 0 ∨ fld x.w2 29 1 ≠ 0 ∨ fld x.w2 51 13 ≠ 0 ∨ fld x.w3 30 34 ≠ 0) ||
    decide (4 < x.iw ∨ 9 < x.act ∨ 2 ^ x.iw < x.nin ∨ (x.single = true ∧ x.nin ≠ 1) ∨ (x.act = 7 ∧ x.nin < 2)) ||
    !efOk x || decide (1024 < x.spn ∨ 16 < x.cri) ||
    decide (256 ≤ r.h ∧ x.pmask ≠ 0) || decide (2 < fld x.w2 0 3) || decide (fld x.w2 21 2 = 3 ∨ fld x.w2 23 2 = 3) ||
    (x.prv && (decide (fld (wordAt x.prm 1) 13 51 ≠ 0 ∨ fld (wordAt x.prm 2) 40 24 ≠ 0) || x.done.getLsbD 63 || decide (5 < fld x.done 0 3) ||
      epBad x.ep [0, 1, 2, 3, 4])) ||
    (x.cont && match prev with | some q => decide (q.h ≠ r.h) | none => true)

/-- Code 1 over the records in order. -/
def recsBad : Option PRec → List PRec → Bool
  | _, [] => false
  | p, r :: l => recBad p r || recsBad (some r) l

/-- Code 1 on the whole image. -/
def imageBad (i : Image) : Bool :=
  let h := i.hdr
  i.nent = 0 || decide (fld (wordAt h 0) 32 32 ≠ 0 ∨ fld (wordAt h 1) 56 8 ≠ 0 ∨ fld (wordAt h 4) 40 24 ≠ 0) ||
    [5, 6, 7].any (fun k => wordAt h k ≠ 0) || decide (i.rval.toNat ≤ i.aval.toNat ∨ i.acnt.toNat % 8 ≠ 0) ||
    recsBad none i.recs ||
    i.cirs.any fun c => decide (fld c.raw 23 41 ≠ 0 ∨ bits c.hw 0 3 ≠ 0 ∨ 4 < c.inp ∨ 4 < c.out)

/-- The key range of an entry. -/
def keyRange (x : FEntry) : Nat × Nat := (x.key / 2 ^ x.iw * 2 ^ x.iw, x.key / 2 ^ x.iw * 2 ^ x.iw + 2 ^ x.iw - 1)
def overlap (a b : Nat × Nat) : Bool := decide (a.1 ≤ b.2 ∧ b.1 ≤ a.2)

/-- Code 3. -/
def flowsBad (s : State) (i : Image) : Bool :=
  decide (i.fhi < i.flo) || (s.pats.any fun p => overlap (p.flo.toNat, p.fhi.toNat) (i.flo, i.fhi)) ||
    i.recs.any fun r =>
      (!r.x.cont && decide ((keyRange r.x).1 < i.flo ∨ i.fhi < (keyRange r.x).2)) ||
        (copiesOf r.h r.x ≠ [] && decide (r.x.eflow < i.flo ∨ i.fhi < r.x.eflow))

/-- Two different records of a list satisfy a relation. -/
def anyPair {α : Type} (p : α → α → Bool) : List α → Bool
  | [] => false
  | a :: l => l.any (p a) || anyPair p l

/-- The holders of an image. -/
def imageHolders (i : Image) : List Nat := (i.recs.map (·.h)).eraseDups

/-- Code 4. -/
def entriesBad (s : State) (i : Image) : Bool :=
  (imageHolders i).any (fun h => decide (freeEnts s h < (i.recs.filter fun r => r.h = h).length)) ||
    (i.recs.any fun r => !r.x.cont && (s.holder r.h).ents.any fun e =>
      (e.2.st = 1 || e.2.st = 2) && !e.2.cont && overlap (keyRange r.x) (keyRange e.2)) ||
    (i.recs.any fun r => !r.x.cont && decide (r.h < 256) && (transientAt s r.h).any (overlap (keyRange r.x))) ||
    anyPair (fun a b => decide (a.h = b.h) && !a.x.cont && !b.x.cont && overlap (keyRange a.x) (keyRange b.x)) i.recs

/-- The holder that a copy of a record reaches, on this module (R328). -/
def copyTarget (s : State) (r : PRec) (k : Nat) : Option Nat :=
  if k ≠ 0 then some (neighbour r.h k)
  else if BitVec.ofNat 10 (fld r.x.w2 11 10) ≠ s.mgmt.modn then none
  else holderAt (fld r.x.w2 0 3) (fld r.x.w2 3 6) (fld r.x.w2 9 2)

/-- The head record of a chain record: the nearest one before it with CONT = 0. -/
def headOf (recs : List PRec) (j : Nat) : Nat :=
  ((List.range (j + 1)).reverse.find? fun k => match recs[k]? with | some r => !r.x.cont | none => false).getD j

/-- The edges of the emission graph (R337): from record, copy, to record and its input. DEDUCED (log 51): a copy to another module
is unchecked, since the records of an image name holders of its own module alone (R322, R336) and patterns may cross the switch
ports (R392). -/
def edgesOf (s : State) (i : Image) : List (Nat × Nat × Option (Nat × Nat)) :=
  i.recs.zipIdx.flatMap fun p =>
    (copiesOf p.1.h p.1.x).filterMap fun k =>
      if k = 0 && decide (BitVec.ofNat 10 (fld p.1.x.w2 11 10) ≠ s.mgmt.modn) then none
      else
        some (p.2, k, (copyTarget s p.1 k).bind fun t =>
          (i.recs.zipIdx.find? fun r => r.1.h = t && !r.1.x.cont && keyHits r.1.x.key r.1.x.iw p.1.x.eflow).map fun r =>
            (r.2, p.1.x.eflow % 2 ^ r.1.x.iw))

/-- The edges that reach a record. -/
def edgesTo (es : List (Nat × Nat × Option (Nat × Nat))) (j : Nat) : List (Nat × Nat × Nat) :=
  es.filterMap fun e => match e.2.2 with | some (t, k) => if t = j then some (e.1, e.2.1, k) else none | none => none

/-- Is a record fed by anything but local injection? -/
def fedBy (es : List (Nat × Nat × Option (Nat × Nat))) (j : Nat) : Bool := edgesTo es j ≠ []

/-- The runs of a spool store that a reservation takes beside those it holds (R325), none where fewer entries are free
(R337): the lowest place of its size. DESIGN CHOICE (log 51): where no free entries of its size stand together, the lowest that
are free, with SPB the first of them. -/
def spoolPlace (used : List (Nat × Nat)) (n : Nat) : Option (List (Nat × Nat)) :=
  let fits (b : Nat) : Bool := decide (b + n ≤ 1024) && used.all fun u => decide (b + n ≤ u.1 ∨ u.1 + u.2 ≤ b ∨ u.2 = 0 ∨ n = 0)
  match (List.range 1025).find? fits with
  | some b => some [(b, n)]
  | none =>
    let free := (List.range 1024).filter fun e => used.all fun u => decide (e < u.1 ∨ u.1 + u.2 ≤ e)
    if free.length < n then none else some ((free.take n).map fun e => (e, 1))

/-- The places of an image's reservations, record by record. -/
def placeSpools (s : State) : List (Nat × Nat × Nat) → List PRec → List (Option (List (Nat × Nat)))
  | _, [] => []
  | new, r :: l =>
    let used := (s.holder r.h).spoolUsed.map (·.2) ++ (new.filter fun u => u.1 = r.h).map (·.2)
    let b := spoolPlace used r.x.spn
    b :: placeSpools s (new ++ (b.getD []).map fun u => (r.h, u)) l

/-- Code 5. -/
def spoolBad (s : State) (i : Image) (es : List (Nat × Nat × Option (Nat × Nat))) : Bool :=
  (i.recs.zipIdx.any fun p => !p.1.x.cont &&
    decide (p.1.x.spn < 4 + (if p.1.x.prv then 1 else 0) + dataNeed p.1.x (fedBy es p.2))) ||
    ((placeSpools s [] i.recs).any Option.isNone) ||
    (imageHolders i).any fun h => decide (1024 < listSum ((s.holder h).spoolUsed.map (·.2.2)) + (transientRoom s h).2 +
      listSum ((i.recs.filter fun r => r.h = h).map (·.x.spn)))

/-- The context number of a DELIVER record: a rank names a member of the owner's crew. -/
def ctxOf (owner : Option Kern) (x : FEntry) : Option Nat :=
  let n := fld (wordAt x.prm 1) 0 12
  if (wordAt x.prm 1).getLsbD 12 then owner.bind fun k => k.members[n]? else some n

/-- Code 6 on a DELIVER record. -/
def deliverBad (owner : Option Kern) (priv : Bool) (r : PRec) : Bool :=
  r.x.act = 8 &&
    (!r.x.prv || match ctxOf owner r.x with
      | none => true
      | some n => ((ek r.x.ep = 1 || ek r.x.ep = 2 || ek r.x.ep = 3) && decide (r.h ≠ quadOf n)) ||
        (ek r.x.ep = 1 && decide (fld r.x.ep 23 6 ≠ 0)) || (ek r.x.ep = 4 && !priv))

/-- Code 6. -/
def graphBad (i : Image) (owner : Option Kern) (priv : Bool) (es : List (Nat × Nat × Option (Nat × Nat))) : Bool :=
  (es.any fun e => e.2.2.isNone) || (i.recs.any (deliverBad owner priv)) ||
    i.recs.zipIdx.any fun p =>
      let ins := edgesTo es p.2
      (ins.any fun e => decide (1 < (ins.filter fun f => f.2.2 = e.2.2).length)) ||
        ins.any fun e => decide (p.1.x.dep < ((i.recs[e.1]?).map (·.x.cri)).getD 0)

/-- Records reachable along edges, after a number of rounds. -/
def reachAll (next : Nat → List Nat) : Nat → List Nat → List Nat
  | 0, l => l
  | f + 1, l => reachAll next f (l ++ l.flatMap next).eraseDups

/-- Code 7: a record reaches itself. Chain records emit for their head. -/
def cyclic (i : Image) (es : List (Nat × Nat × Option (Nat × Nat))) : Bool :=
  let next (j : Nat) : List Nat := es.filterMap fun e =>
    if headOf i.recs e.1 = j then e.2.2.map (·.1) else none
  (List.range i.recs.length).any fun j => (reachAll next i.recs.length (next j)).contains j

/-- A circuit of the pattern at a router from one port to another. -/
def hasCircuit (i : Image) (h inp out : Nat) : Bool :=
  i.cirs.any fun c => decide (holderOf c.hw = some h ∧ c.inp = inp ∧ c.out = out)

/-- Does the leg of a circuit packet follow slots of the pattern (code 8)? -/
def legOk (s : State) (i : Image) (p : Packet) : Nat → Nat → Nat → Bool
  | 0, _, _ => false
  | f + 1, h, inp =>
    match routePort s h p with
    | 5 => true
    | 0 => hasCircuit i h inp 0
    | o => hasCircuit i h inp o && legOk s i p f (neighbour h o) (farPort o)

/-- Code 8. -/
def circuitsBad (s : State) (i : Image) : Bool :=
  (i.cirs.any fun c => match holderOf c.hw with
    | some h => (KMap.get 0 (s.router h).slots c.slot).getLsbD 6
    | none => true) ||
    anyPair (fun a b => decide (a.hw = b.hw ∧ a.slot = b.slot)) i.cirs ||
    i.recs.any fun r => r.x.cir && decide (r.h < 256) && (copiesOf r.h r.x).any fun k =>
      let p := copyOf s r.h r.x k 0 Packet.none
      !targetsSelf s r.h p && !legOk s i p 20 r.h 0

/-- Who loads a pattern. -/
structure Loader where
  owner : Option (BitVec 32)
  priv : Bool
  asid : BitVec 16
  root : BitVec 36
  phys : Bool
  deriving DecidableEq, Repr

/-- The code that refuses an image as read, if any (R337). -/
def loadCode (s : State) (l : Loader) (i : Image) : Option Nat :=
  let es := edgesOf s i
  let k := l.owner.bind fun o => s.dist.kerns.find? fun k => k.kid = o
  if imageBad i then some 1
  else if flowsBad s i then some 3
  else if entriesBad s i then some 4
  else if spoolBad s i es then some 5
  else if graphBad i k l.priv es then some 6
  else if cyclic i es then some 7
  else if circuitsBad s i then some 8
  else if 1024 ≤ s.pats.length then some 9
  else none

/-! ## Installing -/

/-- The lowest numbers that a list does not use. -/
def freeNums (used : List Nat) (n k : Nat) : List Nat := ((List.range n).filter fun i => !used.contains i).take k

/-- The table index of each record: the lowest free entries of its holder in image order. -/
def placeRecs (s : State) (i : Image) : List Nat :=
  i.recs.zipIdx.map fun p =>
    let before := ((i.recs.take p.2).filter fun r => r.h = p.1.h).length
    ((freeNums ((s.holder p.1.h).ents.map (·.1)) 512 (before + 1))[before]?).getD 0

/-- The upstream words of a record (R325). -/
def upstreams (i : Image) (at' : List Nat) (s : State) (es : List (Nat × Nat × Option (Nat × Nat))) (j : Nat) : KMap Upstream :=
  let base := (List.range ((i.recs[j]?.map (·.x.nin)).getD 1)).foldl (fun m k =>
    KMap.put m k (⟨7, 0, 0, 0, 0, 0, true⟩ : Upstream)) []
  (edgesTo es j).foldl (fun m e =>
    match i.recs[e.1]? with
    | some r => KMap.put m e.2.2
        ⟨BitVec.ofNat 3 (holdKind r.h), BitVec.ofNat 6 (holdNum r.h), BitVec.ofNat 2 (holdDie r.h), s.mgmt.modn,
          BitVec.ofNat 9 (at'[e.1]?.getD 0), BitVec.ofNat 3 e.2.1, true⟩
    | none => m) base

/-- The entry that record j becomes. -/
def loadedEntry (s : State) (l : Loader) (i : Image) (at' : List Nat) (es : List (Nat × Nat × Option (Nat × Nat)))
    (slot spb j : Nat) (r : PRec) : FEntry :=
  let k := l.owner.bind fun o => s.dist.kerns.find? fun k => k.kid = o
  let nxt := match i.recs[j + 1]? with | some q => if q.x.cont then at'[j + 1]? else none | none => none
  let w1 := setFld r.x.w1 0 10 spb
  let w1 := match nxt with | some e => setFld (setFld w1 22 9 e) 31 1 1 | none => w1
  let prm := match ctxOf k r.x with
    | some n => r.x.prm.set 1 (w64 n)
    | none => r.x.prm
  { r.x with
    w0 := setFld (setFld r.x.w0 0 2 1) 48 10 slot, w1 := w1, prm := if r.x.prv then prm else []
    ups := upstreams i at' s es j, asid := l.asid, ptroot := l.root }

/-- Install a passed image (R337): its pattern id and the state. -/
def installPattern (s : State) (l : Loader) (i : Image) (pa : Nat) : BitVec 32 × State :=
  let pid := s.nextPid
  let slot := ((freeNums (s.pats.map (·.slot)) 1024 1)[0]?).getD 0
  let at' := placeRecs s i
  let es := edgesOf s i
  let spb := placeSpools s [] i.recs
  let runs (j : Nat) : List (Nat × Nat) := ((spb[j]?).bind id).getD []
  let new := i.recs.zipIdx.map fun p =>
    (p.1.h, at'[p.2]?.getD 0, loadedEntry s l i at' es slot (((runs p.2).head?.map (·.1)).getD 0) p.2 p.1)
  let s' := new.zipIdx.foldl (fun s p => s.updHolder p.1.1 fun x => { x with
    ents := KMap.put x.ents p.1.2.1 p.1.2.2, spoolUsed := x.spoolUsed ++ (runs p.2).map fun u => (slot, u) }) s
  let s' := i.cirs.foldl (fun s c => match holderOf c.hw with
    | some h => s.updRouter h fun r => { r with slots := KMap.put r.slots c.slot (BitVec.ofNat 7 (c.inp + 8 * c.out)) }
    | none => s) s'
  let p : Pattern :=
    { pid := pid, slot := slot, owner := l.owner, ownerPriv := l.priv, acnt := pa, aval := i.aval, rval := i.rval
      flo := BitVec.ofNat 20 i.flo, fhi := BitVec.ofNat 20 i.fhi, st := 0, ents := new.map fun e => (e.1, e.2.1)
      circ := i.cirs.filterMap fun c => (holderOf c.hw).map fun h => (h, c.slot)
      wasLive := false, unloadTok := [] }
  let s' := { s' with
    pats := s'.pats ++ [p], nextPid := if pid = 0xFFFFFFFF then 1 else pid + 1, oncePats := s'.oncePats.filter fun x => x ≠ pid }
  (pid, (postReq s' (.pattern pid) i.acnt pa i.aval).2)

/-- Load a pattern (R337): its id, or the code that refuses it. -/
def loadPattern (s : State) (l : Loader) (a : Word) : Except Nat (BitVec 32) × State :=
  let g : Agent := ⟨0, Ctx.reset, baseBuf, l.asid, l.root, l.priv, false⟩
  let rd : Acc (Image × Nat) := do
    let i ← readImage g l.phys a
    let pa ← translate g i.acnt .wait 8
    pure (i, pa)
  match rd.run s with
  | (.error _, t) => (.error (if aligned s l a then 1 else 2), t)
  | (.ok (i, pa), t) =>
    match loadCode t l i with
    | some c => (.error c, t)
    | none => let (pid, t) := installPattern t l i pa; (.ok pid, t)
where
  /-- Is ACNT's own misalignment the only fault? It is code 1, whose check comes after a successful read. -/
  aligned (s : State) (l : Loader) (a : Word) : Bool :=
    let g : Agent := ⟨0, Ctx.reset, baseBuf, l.asid, l.root, l.priv, false⟩
    match (readImage g l.phys a).run s with
    | (.ok i, t) => decide (i.acnt.toNat % 8 ≠ 0) &&
        (match (translate g (i.acnt &&& ~~~7) .wait 8).run t with | (.ok _, _) => true | (.error _, _) => false)
    | (.error _, _) => false

/-! ## PT at issue (R341, R342) -/

def ptTok (c : Word) : Option Nat := if c.getLsbD 4 then none else some (fld c 0 4)

/-- A PT trigger. -/
def ptGo (port : Nat) (chk : List Note) (g : BitVec 4) (src : BitVec 9) (s : State) : Out :=
  let w := s.iss.ctx.portW 25 2
  goMove 25 port []
    (trapIf ((ptTok w).any fun k => decide ((s.iss.ctx.tok k).st = .pending)) 0x0B (w64 (fld w 0 4)) :: chk) (ptTok w)
    (fun _ q => q) (fun _ s => s) g src s

/-- The checks of a holder word and a count (R342). -/
def strayNotes (t cnt : Word) : List Note :=
  [trapIf (holderOf (fld t 0 11)).isNone 0x0A t, trapIf (decide (fld cnt 0 5 = 0 ∨ 16 < fld cnt 0 5)) 0x0A cnt]

/-- PT_LOAD (R342, R343). -/
def execPtLoad (g : BitVec 4) (src : BitVec 9) (s : State) : Out :=
  let t := tWord s src
  ptGo 4 [trapIf (decide (fld t 0 6 ≠ 0)) 0x0A t] g src s

/-- PT_UNLD (R342). -/
def execPtUnld (g : BitVec 4) (src : BitVec 9) (s : State) : Out := ptGo 5 [] g src s

/-- PT_QRY (R342). -/
def execPtQry (g : BitVec 4) (src : BitVec 9) (s : State) : Out := ptGo 6 [] g src s

/-- PT_STRY (R342). -/
def execPtStry (g : BitVec 4) (src : BitVec 9) (s : State) : Out :=
  let c := s.iss.ctx
  let a := c.portW 25 0
  let b := c.portW 25 1
  ptGo 7 (strayNotes (tWord s src) b ++
    [trapIf (decide (a.toNat % 128 ≠ 0)) 0x21 a, trapFlt (vaultCheck c a false 1 (128 * fld b 0 5))]) g src s

/-- PT_CLR (R342). -/
def execPtClr (g : BitVec 4) (src : BitVec 9) (s : State) : Out :=
  ptGo 8 (strayNotes (tWord s src) (s.iss.ctx.portW 25 0)) g src s

/-! ## PT at work -/

/-- End a PT command with a refusal (R342). -/
def ptRefuse (s : State) (n : Nat) (q : Cmd) (code : Nat) : State :=
  match ptTok q.a2 with
  | some t => endServed s n 25 (some t) (w64 (2 ^ 63 + code))
  | none => faultServed s n 25 0x3C (w64 code)

/-- Carry out a load of the host (R337). -/
def hostLoad (s : State) (l : PatLoad) (tag : Nat) : State :=
  match loadPattern s ⟨l.owner, l.priv, l.asid, l.ptroot, l.phys⟩ l.image with
  | (.ok pid, t) => respond t 0x06 tag 0 0 (pid.setWidth 64) []
  | (.error c, t) => respond t 0x06 tag 2 c 0 []

/-- Carry out a `pt.load` (R337, R342), unless its command has been stopped or freed since it reached the loader. -/
def contextLoad (s : State) (l : PatLoad) : State :=
  match served s l.n 25 with
  | none => s
  | some (c, q) =>
    if q.id ≠ l.cmd then s
    else match loadPattern s ⟨some c.ctl.kid, l.priv, l.asid, l.ptroot, l.phys⟩ l.image with
      | (.ok pid, t) => endServed t l.n 25 (ptTok q.a2) (pid.setWidth 64)
      | (.error code, t) => ptRefuse t l.n q code

/-- PATTERN_VALIDATE (R337): the loader takes its next load, in the order in which they reached it. -/
def execPatternValidate (s : State) : Out :=
  match s.loads with
  | [] => .next s
  | l :: rest =>
    let s := { s with loads := rest }
    .next (match l.tag with | some t => hostLoad s l t | none => contextLoad s l)

/-- Is a stray entry visible to a context's command (R344)? -/
def strayVisible (s : State) (kid : BitVec 32) (priv : Bool) (p : Packet) : Bool :=
  priv || s.pats.any fun q => decide (q.owner = some kid ∧ q.flo.toNat ≤ p.flow.toNat ∧ p.flow.toNat ≤ q.fhi.toNat)

/-- The 128 bytes of a stray entry (R344). -/
def strayBytes (e : Packet × BitVec 512) : Nat :=
  packNat 64 (fun i => (wordAt e.1.header i).toNat) 8 + (if e.1.npay = 0 then 0 else e.2.toNat) * 2 ^ 512

/-- `pt.stry`: copy the oldest visible strays. -/
def copyStrays (g : Agent) (a : Word) (es : List (Packet × BitVec 512)) : Acc Unit :=
  es.zipIdx.forM fun e => writeEp g (w64 (2 ^ 60 + a.toNat % 2 ^ 29)) (128 * e.2 : Nat) (strayBytes e.1) 128

/-- `pt.unld`: begin the retirement; the token comes with its end (R339, R342). -/
def unloadPattern (s : State) (n : Nat) (c : Ctx) (q : Cmd) : State :=
  let pid := BitVec.ofNat 32 (fld q.go 0 32)
  match s.pats.find? fun p => p.pid = pid with
  | none => ptRefuse s n q 11
  | some p =>
    if p.owner ≠ some c.ctl.kid ∧ q.priv = false then ptRefuse s n q 10
    else
      let s := { s with pats := listUpd (fun p => p.pid = pid) (fun p =>
        { p with unloadTok := p.unloadTok ++ [(n, q.id)] }) s.pats }
      if p.st = 2 then s else startRetire s p

/-- PT_COMMAND_COMPLETE (R342): a PT command other than a load. -/
def execPtCommandComplete (n : Nat) (s : State) : Out :=
  match served s n 25 with
  | none => .next s
  | some (c, q) =>
    let tok := ptTok q.a2
    let h := (holderOf (fld q.go 0 11)).getD 0
    let mine := (s.holder h).strays.filter fun e => strayVisible s c.ctl.kid q.priv e.1
    match q.port with
    | 5 => .next (unloadPattern s n c q)
    | 6 =>
      let v := match s.pats.find? fun p => p.pid = BitVec.ofNat 32 (fld q.go 0 32) with
        | some p => p.st.toNat + 1
        | none => 0
      .next (endServed s n 25 tok (w64 v))
    | 7 =>
      let es := mine.take (fld q.a1 0 5)
      match (copyStrays (cmdAgent n c q) q.a0 es).run s with
      | (.error f, t) => .next (faultServed t n 25 f.1 f.2)
      | (.ok _, t) => .next (endServed t n 25 tok (w64 es.length))
    | 8 =>
      let es := mine.take (fld q.a0 0 5)
      let s := s.updHolder h fun x => { x with strays := es.foldl (fun l e => l.erase e) x.strays }
      .next (endServed s n 25 tok (w64 es.length))
    | _ => .next s

/-! ## Activation and retirement (R339) -/

/-- An entry that becomes live. -/
def liveEntry (h : Nat) (x : FEntry) : FEntry :=
  let x := (copiesOf h x).foldl (fun x k => x.setCredit k x.cri) { x with w3 := setFld x.w3 0 25 0 }
  { x with
    w0 := setFld x.w0 0 2 2, w1 := setFld x.w1 32 32 0, seqs := [], slots := [], ring := [] }

/-- PATTERN_ACTIVATION (R339): every holder makes its entries live; readiness and retirement are watched from now on. -/
def execPatternActivation (pid : Nat) (s : State) : Out :=
  match s.pats.find? fun p => p.pid.toNat = pid with
  | none => .next s
  | some p =>
    if p.st ≠ 0 then .next s
    else
      let s := p.ents.foldl (fun s e => s.updEntry e.1 e.2 (liveEntry e.1)) s
      let s := p.circ.foldl (fun s c => s.updRouter c.1 fun r =>
        { r with slots := KMap.put r.slots c.2 (KMap.get 0 r.slots c.2 ||| 0x40) }) s
      let s := { s with pats := listUpd (fun q => q.pid = p.pid) (fun q => { q with st := 1, wasLive := true }) s.pats }
      let named (k : Kern) : Kern :=
        let here := (List.range 4).map fun i =>
          (k.pats[i]?.getD false) || decide (fld (wordAt k.words (20 + i / 2)) (32 * (i % 2)) 32 = pid)
        { k with pats := here }
      let s := { s with dist := { s.dist with kerns := s.dist.kerns.map named } }
      let s := s.dist.kerns.foldl (fun s k => if k.st = .queued then s.at (s.clk + 1) false (.dependenceMet k.kid.toNat) else s) s
      .next (postReq s (.pattern p.pid) 0 p.acnt p.rval).2

/-- Is a completion add of one of the pattern's deliveries not yet performed (R332)? -/
def addsOut (s : State) (p : Pattern) : Bool :=
  s.reqs.any fun r => match r.2.src with | .holder _ pid => decide (pid = p.pid) | _ => false

/-- The end of a retirement (R339): occupied slots are abandoned; slot-table entries, entries, spool and the flow range are
freed; the pattern leaves the registry, which keeps in mind that it was live (R312); tokens of `pt.unld` are written. -/
def retired (s : State) (p : Pattern) : State :=
  let s := p.ents.foldl (fun s e => (leaveCb s e.1 e.2).holderCounts e.1 fun x =>
    let n := (x.entry e.2).slots.length
    { x with
      ents := x.ents.del e.2, spoolUsed := x.spoolUsed.filter fun u => u.1 ≠ p.slot
      abnd := (List.range n).foldl (fun a _ => sat32 a) x.abnd }) s
  let s := p.circ.foldl (fun s c => s.updRouter c.1 fun r => { r with slots := r.slots.del c.2 }) s
  let gone := s.reqs.filter fun r => decide (r.2.src = .pattern p.pid)
  let s := { s with
    pats := s.pats.filter fun q => q.pid ≠ p.pid
    oncePats := if p.wasLive then s.oncePats ++ [p.pid] else s.oncePats
    reqs := s.reqs.filter fun r => decide (r.2.src ≠ .pattern p.pid)
    waiters := s.waiters.filter fun i => !(gone.any fun r => r.1 = i) }
  p.unloadTok.foldl (fun s u =>
    match served s u.1 25 with
    | some (_, q) => if q.id = u.2 then endServed s u.1 25 (ptTok q.a2) 0 else s
    | none => s) s

/-- PATTERN_RETIREMENT (R339): at RVAL the pattern begins to retire; one that has begun ends, once the adds of its
deliveries are performed (R332). -/
def execPatternRetirement (pid : Nat) (s : State) : Out :=
  match s.pats.find? fun p => p.pid.toNat = pid with
  | none => .next s
  | some p =>
    .next (if p.st ≠ 2 then startRetire s p
      else if addsOut s p then s.at (s.clk + 1) false (.patternRetirement pid)
      else retired s p)

end Sys2Proof.Machine
end

