-- ==== Sys2Proof/Machine/System.lean ====
section
/-!
DEFINITION. The system unit SY (R436-R439), the return of R437, stops (R427, R430) and release (R438).
-/

namespace Sys2Proof.Machine

/-! ## Stops (R427, R430) -/

/-- The target registers of an image's pending lateral loads (R191), over other live bits. -/
def keptBits (lv : Nat) (c : Ctx) : Nat :=
  c.lats.foldl (fun b l => if l.atom.isNone && l.lk ≠ 0 then b ||| 2 ^ (32 + l.treg) else b) lv

/-- SL, TL and QL at a stop PC (R388); all ones where every item is live (R389). -/
def liveBits (s : State) (n : Nat) (pc : Word) : Nat :=
  let nb := nbun s n
  if nb = 0 ∨ arenaBytes (s.ctx n) < 48 * nb ∨ 32 * nb ≤ pc.toNat then 2 ^ 76 - 1
  else s.rdArena n (32 * nb + 16 * (pc.toNat / 32)) 16

/-- Bytes of a value. -/
def valLen (v : Val) : Nat := match v with | .s _ => 8 | .r _ => 256 | .t _ => 2048

/-- Bytes of a set of output-queue images, entries of kind s that have not landed among them. -/
def imageBytes (p : Nat → Bool) (oq : KMap (List QEnt)) : Nat :=
  listSum (((List.range 28).filter p).map fun fu =>
    let l := KMap.get [] oq fu
    listSum (l.map fun e => valLen e.val) + 8 * (4 - l.length))

/-- The live bytes of a stopped member (R432). -/
def liveBytes (s : State) (n : Nat) : Nat :=
  let c := s.ctx n
  let lv := keptBits (liveBits s n c.resumePc) c
  let flights (i : Inflight) : Nat := listSum ((i.flights.filter fun f => f.snap).map fun f => match f.what with
    | .entry v => valLen v | .row _ _ => 256)
  let frame := match c.frame with
    | some f => if c.hdep then 0xC000 + imageBytes (fun _ => true) f.oq else 0
    | none => 0
  let m := (s.core (coreOf n)).matrix
  let matrix := if m.owner = some n then 256 + 6144 * popCount m.wb.toNat 64 else 0
  20480 + 2048 * popCount (lv / 2 ^ 32) 16 + imageBytes (fun fu => lv.testBit (48 + fu)) c.oq +
    flights c.inf + stagedBytes c + frame + matrix

/-- Stop context n where it stands: the capture of R412; any freeze of its core but a bank's ends (R428). Then it is saved (a
stop of the distributor), within 64 clks for the capture and one per 512 live bytes (R429), or it stays frozen in place for
inspection. A member of a killed kernel ends (R424). -/
def stopNow (s : State) (n : Nat) : State :=
  if (s.ctx n).doomed then endMember s n
  else
    let s := capture s n
    let s := s.updCtx n fun c =>
      { c with st := if c.stopDist then .saving else .inspect, blocked := false, xwalk := none, kept := keptBits 0 c }
    let s := s.updCore (coreOf n) fun k => if k.run = some (n % 4) then { k with icd := 0 } else k
    if (s.ctx n).stopDist then s.within 1 (64 + ceilDiv (liveBytes s n) 512) (.preemptionSave (s.ctx n).ctl.kid.toNat) else s

/-- STOP_REQUEST (R427): STOPF is set. A context that does not issue stops where it stands; the one that holds its
core goes on to its next test point. The queues of a member that is to be saved quiesce from now on (R429). -/
def execStopRequest (n : Nat) (s : State) : Out :=
  let c := s.ctx n
  if c.st = .empty ∨ c.st = .saving then .next s
  else
    let s := s.updCtx n fun c => c.updCtl fun l => { l with stopf := true }
    let s := if c.stopDist then s.within 1 512 (.engineQuiesceComplete n) else s
    if c.st = .inspect || c.st = .frozenV then .next (if c.stopDist then stopNow s n else s)
    else if holdsCore s n then .next s
    else .next (stopNow s n)

/-! ## What late producers change in a save area (R431, R433) -/

/-- Words as a number, the first lowest. -/
def packWords (l : List Word) : Nat := packNat 64 (fun i => (wordAt l i).toNat) l.length

/-- The token region and FLAGS of a save area (R431). -/
def tokenBytes (c : Ctx) : Nat :=
  packNat 64 (fun i =>
    let t := c.tok (i / 2)
    if i % 2 = 0 then t.val.toNat else match t.st with | .idle => 0 | .pending => 1 | .written => 2) 32

/-- The words of a skein handle (log 18). -/
def skWords (b : Sk) : List Word :=
  [w64 ((if b.cfg then 1 else 0) + b.id.toNat * 2 ^ 8 + b.shape.toNat * 2 ^ 32), b.desc.setWidth 64, b.clen.setWidth 64, 0]

/-- The skein handles of an image as the save area holds them. -/
def skBytes (c : Ctx) : Nat := packWords ((List.range 8).flatMap fun h => skWords (c.sk h))

/-- Has a late producer of a saved member changed FLAGS or a skein handle, or does w12 wait for one (R238, R433)? -/
def lateOf (s : State) (m : Saved) : Bool :=
  let a := 2 ^ 21 * m.area
  decide (s.rd64 (a + 0x408) ≠ m.ctx.ctl.flags.setWidth 64 ∨ s.rd (a + 0xC00) 256 ≠ skBytes m.ctx) || m.wait ≠ 0

/-! ## Return (R437) -/

/-- Is nothing that the handler triggered still in flight? -/
def handlerQuiet (c : Ctx) : Bool :=
  c.inf.flights = [] && c.inf.jobs = [] && c.inf.fmtPend = [] && c.inf.cbAdv = [] && c.inf.held = [] && c.accs = []

/-- Escalate: the walk of the work that the handler returned from starts at the core level (R437). A class-V code first
freezes its master (R426). -/
def escalate (s : State) (n : Nat) : State :=
  let c := s.ctx n
  let code := c.ctl.trapcode.toNat
  let v := c.ctl.trapval
  let cls := (c.frame.map (·.cls)).getD 1
  if cls = 3 then walkFault (trapReturn s n none) n code v ((c.frame.map (·.fu)).getD 0)
  else if isClassV code then (walkCtx (freezeCtx (trapReturn s n (some true)) n code v) n code 0 v true).1
  else
    let s := s.bbAddL 0 1 code c.ctl.kid n v
    match policy c.ctl.cpol 0 with
    | .ignore => trapReturn s n (some true)
    | .retry =>
      let s := trapReturn s n (some false)
      if cls = 2 ∨ cls = 0 then s.updCtx n fun c => { c with walk := some (0, 1) } else s
    | .kill => killKernel s c.ctl.kid code v false
    | .killParent => killKernel s c.ctl.kid code v true

/-- The return from a handler with function code f (R437): 0 resume, 1 ignore, 2 escalate. -/
def finishReturn (s : State) (n f : Nat) : State :=
  if f = 2 then escalate s n else trapReturn s n (some (decide (f = 1)))

/-- Begin the return freeze of context n once the handler's work has landed (R437). -/
def returnCheck (s : State) (n : Nat) : State :=
  match (s.ctx n).rfe with
  | some f =>
    let stepping := (s.core (coreOf n)).matrix.step.any fun m => m.n = n && !m.held
    if (s.ctx n).st = .running && handlerQuiet (s.ctx n) && !stepping then finishReturn s n f.toNat else s
  | none => s

/-! ## The unit (R436) -/

/-- SY_TRAP (R436, R417). Without a handler the walk starts, and the context goes on at the next bundle (R423). -/
def execSyTrap (g : BitVec 4) (src : BitVec 9) (s : State) : Out :=
  trigger 7 4 1 1 false [] [] g src (fun v s =>
    let n := s.iss.n
    let code := 0x80 + fld v.word 0 7
    let a := s.iss.ctx.portW 7 0
    if hasHandler (s.ctx n) then trapEntry s n code a (s.ctx n).pc 1 0 none
    else (walkCtx s n code 0 a true).1) s

/-- SY_RFE (R436, R437): the return takes place once the bundle has performed and the handler's work has landed. -/
def execSyRfe (g : BitVec 4) (src : BitVec 9) (s : State) : Out :=
  let t := tWord s src
  trigger 7 5 1 1 false [] [trapIf (decide (fld t 0 2 = 3) || !s.iss.ctx.hdep) 0x0A t] g src (fun v s =>
    onCtx (fun c => { c with rfe := some (v.word.setWidth 2) }) s) s

/-- SY_STOP (R436, R430): STOPF of the named context at the end of the next clk. -/
def execSyStop (g : BitVec 4) (src : BitVec 9) (s : State) : Out :=
  let a := s.iss.ctx.portW 7 0
  trigger 7 6 1 1 false [] [trapIf (decide (4096 ≤ a.toNat)) 0x0A a] g src
    (fun _ s => s.at (s.clk + 1) true (.stopRequest a.toNat)) s

/-- Release a context: from an inspection stop or a class-V freeze; one whose kernel was killed is freed (R426, R430). -/
def releaseCtx (s : State) (n : Nat) : State :=
  let c := s.ctx n
  match c.st with
  | .inspect => goAgain (s.updCtx n fun c =>
      { c with st := c.workSt, readySince := s.clk, kept := 0, ctl := { c.ctl with stopf := false } }) n
  | .frozenV =>
    if s.dist.kerns.any fun k => k.kid = c.ctl.kid then
      goAgain (s.updCtx n fun c => { c with st := c.workSt, fenced := false, readySince := s.clk }) n
    else freeCtx s n
  | _ => s

/-- Release a fenced queue: its command takes the fate that the walk gave it, or the queue of a killed kernel is freed
(R279, R426). -/
def releaseQueue (s : State) (n fu : Nat) : State :=
  if KMap.get false (s.ctx n).qfence fu then
    let s := s.updCtx n fun c =>
      { c.setQueue fu ((c.queue fu).filter fun q => q.st ≠ .dead) with qfence := c.qfence.del fu }
    commandFate s n fu true
  else s

/-- Release a holder: what it holds is emitted and delivered again (R426). -/
def releaseHolder (s : State) (h : Nat) : State :=
  let s' := s.updHolder h fun x => { x with fence := false }
  if !(s.holder h).fence then s'
  else (s.holder h).ents.foldl (fun s e =>
    if e.2.ring = [] then s
    else s.at (s.clk + 1) true (if fld e.2.w0 25 4 = 8 then .deliverChunk h e.1 else .emission h e.1)) s'

/-- SY_REL (R436, R438). -/
def execSyRel (g : BitVec 4) (src : BitVec 9) (s : State) : Out :=
  let t := tWord s src
  trigger 7 7 1 1 false [] [trapIf (decide (3 ≤ fld t 0 3)) 0x0A t] g src (fun v s =>
    let t := v.word
    match fld t 0 3 with
    | 0 => releaseCtx s (fld t 3 12)
    | 1 =>
      let n := fld t 3 12
      let fu := fld t 15 5
      releaseQueue s n fu
    | _ => match holderOf (fld t 20 11) with
      | some h => releaseHolder s h
      | none => s) s

/-! ## Snapshot words (R439) -/

/-- A snapshot entry: unit, value, REM, first row still to come and destination register. -/
structure SnapEnt where
  fu : Nat
  val : Val
  rem : Nat
  row : Nat
  dest : Nat
  deriving DecidableEq, Repr

/-- The row that a flight brings. -/
def Flight.rowNo (f : Flight) : Nat := match f.what with | .entry _ => 0 | .row k _ => k

/-- A flight's value with the rows that follow it (R412). -/
def flightVal (fs : List Flight) (f : Flight) : Val :=
  match f.what with
  | .entry (.t t) => .t ((fs.filter fun x => x.id = f.id).foldl (fun t x => match x.what with
      | .row k r => tileSet t k r | .entry _ => t) t)
  | .entry v => v
  | .row _ _ => .t ((fs.filter fun x => x.id = f.id).foldl (fun t x => match x.what with
      | .row k r => tileSet t k r | .entry _ => t) 0)

/-- The entries of a captured snapshot: results in the order of their triggers, then whole-tile register writes
(log 22). -/
def snapEntries (c : Ctx) (i : Inflight) : List SnapEnt :=
  let firsts := i.flights.filter fun f =>
    (i.flights.find? fun x => x.id = f.id) = some f
  (firsts.map fun f => ⟨f.fu, flightVal i.flights f, f.rem, f.rowNo, 0⟩) ++
    i.jobs.filterMap fun j => match j.dst with
      | .reg t => some ⟨31, .t (tileOf fun k => if j.k ≤ k then seqRead c j.src k else 0), 1, j.k, t⟩
      | _ => none

/-- The snapshot of a context: that of its trap frame, else what a capture took and what has not landed since (R412, R418,
R444). -/
def snapOf (c : Ctx) : List SnapEnt :=
  match c.frame with
  | some f => snapEntries c f.inf
  | none => snapEntries c { c.inf with flights := c.inf.flights.filter (·.snap), jobs := c.inf.jobs.filter (·.snap) }

/-- A word of a snapshot (R439). -/
def snapWord (l : List SnapEnt) (t : Word) : Word :=
  match l[fld t 0 6]? with
  | none => 0
  | some e =>
    if t.getLsbD 6 then
      let k := fld t 7 8
      match e.val with
      | .s v => if k = 0 then v else 0
      | .r v => if k < 32 then w64 (bits v.toNat (64 * k) 64) else 0
      | .t v => w64 (bits v.toNat (64 * k) 64)
    else
      let kind := match e.val with | .s _ => 1 | .r _ => 2 | .t _ => 3
      w64 (1 + e.fu * 2 + kind * 64 + e.rem * 256 + e.row * 32768 + e.dest * 2 ^ 18)

/-- SY_SNAP (R436, R439). -/
def execSySnap (g : BitVec 4) (src : BitVec 9) (s : State) : Out :=
  trigger 7 8 1 1 false [] [] g src (fun v s =>
    let m := 4 * coreOf s.iss.n + fld (s.iss.ctx.portW 7 0) 0 2
    flyNew s 2 7 (.s (snapWord (snapOf (if m = s.iss.n then s.iss.ctx else s.ctx m)) v.word)) 0 0) s

end Sys2Proof.Machine
end

