-- ==== Sys2Proof/Machine/Place.lean ====
section
/-!
DEFINITION. The distributor: placement targets (R313, R314, R333), the start of a crew (R315, R19), selection rounds
(R316) and the choice of victims (R317, R446).
-/

namespace Sys2Proof.Machine

/-! ## Occupation (R313) -/

/-- What stands in the way of a placement: members with their contexts, whether they are exclusive and own the matrix
unit, and their barriers, what victims leave for a record for which room is made among them (R317); contexts held by
reservations; arenas as quad, base and units. -/
structure Occ where
  mem : List (Nat × Bool × Bool × BitVec 128)
  held : List Nat
  arenas : List (Nat × Nat × Nat)
  deriving DecidableEq, Repr

/-- The contexts of a crew by rank, those of retired members left out. -/
def crewCtxs (k : Kern) : List Nat := (k.members.zipIdx.filter fun p => !k.retired.contains p.2).map (·.1)

/-- Does a kernel stand on its contexts? -/
def onCores (k : Kern) : Bool := k.st = .placing || k.st = .running || k.st = .stopping

/-- Arenas with their size. -/
def sized (k : Kern) (l : List (Nat × Nat)) : List (Nat × Nat × Nat) := l.map fun a => (a.1, a.2, rAsz k.words)

/-- Contexts that a reservation of an exclusive record holds: all of each core. -/
def heldCtxs (k : Kern) (l : List Nat) : List Nat :=
  if rExcl k.words then l.flatMap fun n => [0, 1, 2, 3].map fun i => n / 4 * 4 + i else l

/-- A kernel's members as an occupation has them. -/
def occMembers (k : Kern) : List (Nat × Bool × Bool × BitVec 128) :=
  (crewCtxs k).map fun n => (n, rExcl k.words, rMxu k.words, rBmask k.words)

/-- The occupation that a record meets: `skip` are kernels whose contexts count as free; with `placingOnly` only Placing
records and reservations hold anything (R316). The record's own arenas do not stand in its way. -/
def occOf (s : State) (self : BitVec 32) (skip : List (BitVec 32)) (placingOnly : Bool) : Occ :=
  let there (k : Kern) : Bool := if placingOnly then decide (k.st = .placing) else onCores k
  let ks := s.dist.kerns
  let others := ks.filter fun k => k.kid ≠ self
  let loose := s.ctxs.filter fun p => !placingOnly && p.2.live && !(ks.any fun k => k.kid = p.2.ctl.kid)
  let made := s.dist.making.filter fun m => !placingOnly && m.kid ≠ self
  { mem := ((others.filter fun k => there k && !skip.contains k.kid).flatMap occMembers) ++ made.flatMap (·.ctxs) ++
      loose.map fun p => (p.1, p.2.ctl.excl, decide ((s.core (coreOf p.1)).matrix.owner = some p.1), p.2.bmask)
    held := (others.flatMap fun k => match k.resv with | some t => heldCtxs k t.1 | none => [])
    arenas := (others.flatMap fun k =>
        (if there k || (!placingOnly && k.st = .preempted) then sized k (k.arenas ++ k.oldArenas) else []) ++
          (match k.resv with | some t => sized k t.2 | none => [])) ++ made.flatMap (·.arenas) ++
      loose.map fun p => (quadOf p.1, p.2.ctl.arenaBase.toNat, p.2.ctl.arenaSize.toNat) }

/-- Is a context free (R313)? -/
def ctxFree (o : Occ) (n : Nat) : Bool := !(o.mem.any fun m => m.1 = n) && !o.held.contains n

/-- Is a die fenced: one of its seam links is down (R451)? -/
def dieFenced (s : State) (d : Nat) : Bool := s.dieFence.contains d

/-- Does core c fit a member on its context n (R313)? -/
def ctxFits (s : State) (o : Occ) (k : Kern) (n : Nat) : Bool :=
  let c := coreOf n
  let here := o.mem.filter fun m => coreOf m.1 = c
  ctxFree o n && !dieFenced s (dieOf n) && !(here.any fun m => m.2.1) &&
    (!rExcl k.words || (here = [] && [0, 1, 2, 3].all fun i => !o.held.contains (4 * c + i))) &&
    !(rMxu k.words && here.any fun m => m.2.2.1) && (here.all fun m => m.2.2.2 &&& rBmask k.words = 0) &&
    decide (k.run ≤ (s.core c).limit.toNat)

/-- The context of core c that a member would take: the lowest free one, where the core fits. -/
def coreFits (s : State) (o : Occ) (k : Kern) (c : Nat) : Option Nat :=
  ([0, 1, 2, 3].map fun i => 4 * c + i).find? fun n => ctxFits s o k n

/-- Are `n` arena units free at a base of quad q? -/
def unitsFree (o : Occ) (q b n : Nat) : Bool :=
  decide (b + n ≤ 128) && o.arenas.all fun a => decide (a.1 ≠ q ∨ a.2.1 + a.2.2 ≤ b ∨ b + n ≤ a.2.1)

/-- The arena base on quad q for the crew's j-th quad: where the crew's arena stands already, else the lowest that
fits (R313, R434). -/
def arenaFits (o : Occ) (k : Kern) (q j : Nat) : Option Nat :=
  match if k.st = .preempted then k.arenas[j]? else none with
  | some (q', b) => if q' = q then some b else (List.range 128).find? fun b => unitsFree o q b (rAsz k.words)
  | none => (List.range 128).find? fun b => unitsFree o q b (rAsz k.words)

/-- A placement target: contexts by rank, and each quad with its arena base. -/
abbrev Target := List Nat × List (Nat × Nat)

/-- Add quad q to a target where it fits. -/
def addQuad (s : State) (o : Occ) (k : Kern) (t : Target) (q : Nat) : Target :=
  let cs := [0, 1, 2, 3].filterMap fun i => coreFits s o k (4 * q + i)
  match arenaFits o k q t.2.length with
  | some b => if cs.length = 4 then (t.1 ++ cs, t.2 ++ [(q, b)]) else t
  | none => t

/-- The lowest-numbered fitting quads of a list. -/
def pickQuads (s : State) (o : Occ) (k : Kern) (n : Nat) (qs : List Nat) : Option Target :=
  let t := qs.foldl (fun t q => if t.2.length = n then t else addQuad s o k t q) (([], []) : Target)
  if t.2.length = n then some t else none

/-- The first fitting core of a die. -/
def pickCore (s : State) (o : Occ) (k : Kern) (d : Nat) : Option Target :=
  (List.range 256).findSome? fun i =>
    let c := 256 * d + i
    match coreFits s o k c, arenaFits o k (c / 4) 0 with
    | some n, some b => some ([n], [(c / 4, b)])
    | _, _ => none

/-- The target on one die; die 4 stands for all dies (R314). -/
def targetOn (s : State) (o : Occ) (k : Kern) (d : Nat) : Option Target :=
  if d = 4 then pickQuads s o k 256 (List.range 256)
  else if rShape k.words = 0 then pickCore s o k d
  else pickQuads s o k (rQuads k.words) ((List.range 64).map fun i => 64 * d + i)

/-- Put an element before the first that it precedes. -/
def insertBy {α : Type} (lt : α → α → Bool) (x : α) : List α → List α
  | [] => [x]
  | y :: l => if lt x y then x :: y :: l else y :: insertBy lt x l

/-- A list in order; elements that neither precedes keep their order. -/
def sortBy {α : Type} (lt : α → α → Bool) : List α → List α
  | [] => []
  | x :: l => insertBy (fun a b => !lt b a) x (sortBy lt l)

/-- The dies that a record may stand on. -/
def diesOf (k : Kern) : List Nat := if rShape k.words = 4 then [4] else if rPinv k.words then [rPdie k.words] else [0, 1, 2, 3]

/-- Contexts of a die that are not free. -/
def takenOn (o : Occ) (d : Nat) : Nat := (((o.mem.map (·.1)) ++ o.held).eraseDups.filter fun n => dieOf n = d).length

/-- The die order of R314: most free contexts first. -/
def dieOrder (o : Occ) (k : Kern) : List Nat := sortBy (fun a b => decide (takenOn o a < takenOn o b)) (diesOf k)

/-- Must a pre-empted kernel go back to the contexts that it left (R333)? -/
def pinned (s : State) (k : Kern) : Bool :=
  k.st = .preempted && s.pats.any fun p => decide (p.st = 1) && namesPat k p && p.ents.any fun e =>
    let x := (s.holder e.1).entry e.2
    x.act = 8 && decide (1 ≤ ek x.ep ∧ ek x.ep ≤ 3) && (crewCtxs k).contains x.ctx

/-- Is every context and arena unit of a target free for a record? -/
def targetFree (s : State) (o : Occ) (k : Kern) (t : Target) : Bool :=
  (t.1.all fun n => ctxFits s o k n) &&
    t.2.zipIdx.all fun a => (decide (k.st = .preempted) && k.arenas[a.2]? = some a.1) || unitsFree o a.1.1 a.1.2 (rAsz k.words)

/-- The target of a record, if one fits (R314, R333). -/
def chooseTarget (s : State) (o : Occ) (k : Kern) (dies : List Nat) : Option Target :=
  if pinned s k then
    let t : Target := (k.members, k.arenas)
    if (crewCtxs k).all fun n => ctxFits s o k n then some t else none
  else dies.findSome? fun d => targetOn s o k d

/-- Has every victim of a record for which room is made left its contexts (R317)? -/
def roomMade (s : State) (kid : BitVec 32) : Bool :=
  s.dist.making.all fun m => m.kid ≠ kid || !(s.dist.kerns.any fun v => m.victims.contains v.kid && onCores v)

/-- Where a record is placed in this round (R316), once its last victim is gone (R317): on its reserved target where that is
free, else on any that fits. -/
def placeAt (s : State) (k : Kern) : Option Target :=
  let o := occOf s k.kid [] false
  if !roomMade s k.kid then none
  else match k.resv with
    | some t => if targetFree s o k t then some t else none
    | none => chooseTarget s o k (dieOrder o k)

/-- Begin a placement (R315, R434). -/
def beginPlace (s : State) (k : Kern) (t : Target) : State :=
  let again := k.st = .preempted
  let s := updKern s k.kid fun k =>
    { k with
      st := .placing, resv := none, members := t.1, arenas := t.2
      oldArenas := if again then k.arenas else [] }
  let s := { s with dist := { s.dist with making := s.dist.making.filter fun m => m.kid ≠ k.kid } }
  s.within 1 2000 (if again then .resumption k.kid.toNat else .membersStart k.kid.toNat)

/-! ## The start of a crew (R315, R19) -/

/-- Zero a range of memory and put bytes at its start. -/
def loadRange (s : State) (pa len v n : Nat) : State :=
  let s := { s with
    mem := s.mem.filter fun c => !(decide (pa ≤ c.1 ∧ c.1 < pa + len))
    bad := s.bad.filter fun b => !(decide (pa ≤ b ∧ b + 8 ≤ pa + len)) }
  s.wr pa v n

/-- The crew's quads on the die of a context, in ascending node order (R151). -/
def quadsOn (k : Kern) (n : Nat) : List Nat :=
  (k.arenas.filter fun a => a.1 / 64 = dieOf n).map fun a => a.1 % 64

/-- The crew's arena bases on those quads (R16). -/
def basesOn (k : Kern) (n : Nat) : List (BitVec 8) :=
  (k.arenas.filter fun a => a.1 / 64 = dieOf n).map fun a => BitVec.ofNat 8 a.2

/-- The arena base of a context's quad. -/
def baseOn (k : Kern) (n : Nat) : BitVec 8 :=
  BitVec.ofNat 8 (((k.arenas.find? fun a => a.1 = quadOf n).map (·.2)).getD 0)

/-- FMT without its reserved bits (R87). -/
def startFmt (w : List Word) : Word := rFmt w &&& 0xFFFFFFFFFFFF003F

/-- A member's start state on a hardware context (R19). -/
def startCtx (s : State) (k : Kern) (rank n : Nat) : Ctx :=
  let c := s.ctx n
  let w := k.words
  let args := [(k.aov.getD (rArg w 0)), rArg w 1, rArg w 2, rArg w 3]
  let f := c.freed
  { f with
    st := .running, pc := w64 (rEntry w), readySince := s.clk, recPriv := rPriv w, bmask := rBmask w, quads := quadsOn k n
    bases := basesOn k n
    oq := [], ports := [], portSk := [], toks := []
    cbs := f.cbs.map fun p => (p.1, { p.2 with cfg := false, base := 0, ssz := 0, ns := 0, gr := 0 })
    sks := f.sks.map fun p => (p.1, { p.2 with cfg := false, desc := 0 })
    baste := { Baste.reset with lrlen := f.baste.lrlen, llim := f.baste.llim }
    regs := { Regs.reset with s := args.zipIdx.foldl (fun m a => KMap.set 0 m a.2 a.1) [] }
    inf := { Inflight.none with fmtEff := startFmt w }
    ctl := { Ctl.reset with
      fmt := startFmt w, kid := k.kid, rank := BitVec.ofNat 10 rank, crewn := BitVec.ofNat 11 k.members.length
      excl := rExcl w, priv := rPriv w, arenaBase := baseOn k n, arenaSize := BitVec.ofNat 8 (rAsz w), asid := rAsid w
      ptroot := rRoot w, cpol := rCpol w, trapvec := BitVec.ofNat 18 (rTrapvec w / 32)
      trappc := f.ctl.trappc, trapcode := f.ctl.trapcode, trapval := f.ctl.trapval
      bsRun := f.ctl.bsRun, bsStat := f.ctl.bsStat, bsCursor := f.ctl.bsCursor } }

/-- The words of a routine image (R307). -/
def routineWords (w : List Word) (v : Nat) : List (Nat × BitVec 128) :=
  (List.range (rDirn w + rMwn w)).map fun i =>
    (if i < rDirn w then 16 + i else 512 + (i - rDirn w), BitVec.ofNat 128 (v >>> (128 * i)))

/-- Load a routine image into a core's microprogram store (R315, R434). -/
def loadRoutines (ws : List (Nat × BitVec 128)) (s : State) (c : Nat) : State :=
  s.updCore c fun k => { k with matrix := { k.matrix with
    ustore := ws.foldl (fun m e => KMap.put m e.1 (storeWord e.1 e.2)) k.matrix.ustore } }

/-- The patches whose WB bit is set are cleared (R203). -/
def clearPatches (m : Matrix) : KMap (BitVec 49152) := m.acc.filter fun p => !m.wb.getLsbD p.1

/-- The matrix unit of a new owner (R203). -/
def startMatrix (n : Nat) (m : Matrix) : Matrix :=
  { m with owner := some n, acc := clearPatches m, wb := 0, mp := [], xs := 0, pslX := 0, pslP := 0, step := none }

/-- What a placement reads: the image, and the routine image of an MXU record. -/
def readImages (w : List Word) : Acc (Nat × Nat) := do
  let v ← readVirt (distAgent w) (rImage w) (rImgb w)
  let r ← if rMxu w && rRimg w ≠ 0 then readVirt (distAgent w) (rRimg w) (16 * (rDirn w + rMwn w)) else pure 0
  pure (v, r)

/-- Start one member (R315): its barriers, its matrix unit, its start state. -/
def startMember (k : Kern) (r : Nat) (s : State) (p : Nat × Nat) : State :=
  let n := p.1
  let s := resetBarriers s n (rBmask k.words)
  let s := if rMxu k.words then
      let s := if rRimg k.words ≠ 0 then loadRoutines (routineWords k.words r) s (coreOf n) else s
      s.updCore (coreOf n) fun c => { c with matrix := startMatrix n c.matrix }
    else s
  setFloor (s.setCtx n (startCtx s k p.2 n)) (coreOf n)

/-- A placement that meets a fault: the walk at package level; where it is ignored the kernel ends all the same, as there
is nothing to start (log 29). -/
def placeFault (s : State) (k : Kern) (f : Flt) : State :=
  killRecorded (eventWalk s (some k.kid) 3 f.1 f.2 whoNone) k.kid f.1 f.2

/-- MEMBERS_START (R315, R18, R19): arenas, routine images, start states and barriers, and every member starts. -/
def execMembersStart (kid : Nat) (s : State) : Out :=
  match s.dist.kerns.find? fun k => k.kid = BitVec.ofNat 32 kid with
  | none => .next s
  | some k =>
    if k.st ≠ .placing ∨ k.saved ≠ [] then .next s
    else match (readImages k.words).run s with
      | (.error f, t) => .next (placeFault t k f)
      | (.ok (v, r), t) =>
        let t := k.arenas.foldl (fun t a =>
          loadRange t (vaultPA a.1 (65536 * a.2)) (65536 * rAsz k.words) v (rImgb k.words)) t
        let t := updKern t k.kid fun k => { k with st := .running, placedAt := s.clk }
        .next (k.members.zipIdx.foldl (startMember k r) t)

/-! ## Selection (R316, R317) -/

/-- The order of a round: reservations, oldest first; then priority; then acceptance (R316). -/
def before (a b : Kern) : Bool :=
  match a.resv, b.resv with
  | some _, some _ => decide (a.resvAt < b.resvAt)
  | some _, none => true
  | none, some _ => false
  | none, none => decide (rPrio b.words < rPrio a.words ∨ (rPrio a.words = rPrio b.words ∧ a.accNo < b.accNo))

/-- The records that a round takes. -/
def roundOrder (s : State) : List Kern := sortBy before (s.dist.kerns.filter fun k => k.st = .ready || k.st = .preempted)

/-- One record of a round: those that wait before it, and those that have been passed over. -/
def takeRecord (p : State × List (BitVec 32) × List (BitVec 32)) (k : Kern) :
    State × List (BitVec 32) × List (BitVec 32) :=
  let (s, waits, passed) := p
  match placeAt s k with
  | some t => (beginPlace s k t, waits, waits)
  | none => (s, waits ++ [k.kid], passed)

/-- Reserve a target for a record (R316). -/
def reserve (s : State) (kid : BitVec 32) (t : Target) : State :=
  let r := s.dist.nextResv
  updKern { s with dist := { s.dist with nextResv := r + 1 } } kid fun k => { k with resv := some t, resvAt := r }

/-- Raise the bypass count of a record that was passed over; at 16 it is reserved where a target exists (R316). -/
def bypass (passed : List (BitVec 32)) (s : State) (kid : BitVec 32) : State :=
  let s := if passed.contains kid then updKern s kid fun k =>
      if k.resv.isSome then k else { k with byp := min 16 (k.byp + 1) } else s
  match s.dist.kerns.find? fun k => k.kid = kid with
  | some k =>
    if k.byp = 16 && k.resv.isNone then
      let o := occOf s kid [] true
      match chooseTarget s o k (dieOrder o k) with
      | some t => reserve s kid t
      | none => s
    else s
  | none => s

/-- The save areas of the pool that nothing uses (R431, R446). -/
def freeAreas (s : State) : List Nat :=
  let used := s.dist.kerns.flatMap fun k => k.areas ++ k.saved.map (·.area)
  ((List.range s.mgmt.svcnt.toNat).map fun i => s.mgmt.svbase.toNat + i).filter fun a => !used.contains a

/-- The candidates on a die, in the order of R317; `res` is what the reservations of other records hold (DESIGN CHOICE,
log 45: a record's own reservation does not stand in its way). -/
def candidates (s : State) (k : Kern) (d : Nat) : List Kern :=
  let res := (s.dist.kerns.filter fun x => x.kid ≠ k.kid).filterMap fun x => x.resv.map fun t => (heldCtxs x t.1, sized x t.2)
  let hit (x : Kern) : Bool := res.any fun r =>
    ((crewCtxs x).any fun n => r.1.contains n) ||
      (sized x x.arenas).any fun a => r.2.any fun b =>
        decide (a.1 = b.1 ∧ a.2.1 < b.2.1 + b.2.2 ∧ b.2.1 < a.2.1 + a.2.2)
  sortBy (fun a b => decide (rPrio a.words < rPrio b.words ∨ (rPrio a.words = rPrio b.words ∧
      (b.placedAt < a.placedAt ∨ (a.placedAt = b.placedAt ∧ b.kid < a.kid)))))
    (s.dist.kerns.filter fun x => decide (x.st = .running) && decide (rPrio x.words < rPrio k.words) && !hit x &&
      (decide (d = 4) || (crewCtxs x).any fun n => dieOf n = d))

/-- Would a record fit where some kernels have left: on its reserved target, or on one of die d? -/
def wouldFit (s : State) (k : Kern) (d : Nat) (vs : List Kern) : Bool :=
  let o := occOf s k.kid (vs.map (·.kid)) false
  match k.resv with
  | some t => targetFree s o k t
  | none => (chooseTarget s o k [d]).isSome

/-- Take candidates one at a time until the record fits: the victims (R317). -/
def growSet (s : State) (k : Kern) (d : Nat) : List Kern → List Kern → Option (List Kern)
  | _, [] => none
  | vs, x :: l => if wouldFit s k d (vs ++ [x]) then some (vs ++ [x]) else growSet s k d (vs ++ [x]) l

/-- The victim set on a die, if save areas suffice (R317, R446). -/
def victimsOn (s : State) (k : Kern) (d : Nat) : Option (Nat × List Kern) :=
  if s.dist.making.any fun m => decide (m.kid ≠ k.kid ∧ (m.die = d ∨ m.die = 4 ∨ d = 4)) then none
  else match growSet s k d [] (candidates s k d) with
    | some vs =>
      if (listSum (vs.map fun v => (crewCtxs v).length)) ≤ (freeAreas s).length then some (d, vs) else none
    | none => none

/-- The smaller of two sets; the first on a tie. -/
def fewer (a b : Option (Nat × List Kern)) : Option (Nat × List Kern) :=
  match a, b with
  | some x, some y => if y.2.length < x.2.length then some y else some x
  | some x, none => some x
  | none, y => y

/-- Ask for the stop of a kernel's member (R26, R427). -/
def askStop (s : State) (n : Nat) : State :=
  (s.updCtx n fun c => { c with stopDist := true }).at s.clk true (.stopRequest n)

/-- Stop a victim: it takes its save areas, and every member is asked to stop. -/
def stopVictim (s : State) (v : Kern) : State :=
  let l := liveMembers s v
  let s := updKern s v.kid fun k => { k with st := .stopping, areas := (freeAreas s).take l.length }
  l.foldl askStop s

/-- Make room by pre-emption for the first record that could not be placed and waits for no victims (R317). -/
def makeRoom (s : State) (waits : List (BitVec 32)) : State :=
  match (waits.filter (roomMade s)).filterMap (fun kid => s.dist.kerns.find? fun k => k.kid = kid) with
  | [] => s
  | k :: _ =>
    match (diesOf k).foldl (fun b d => fewer b (victimsOn s k d)) none with
      | none => s
      | some (d, vs) =>
        let m : Making := ⟨d, k.kid, vs.map (·.kid), vs.flatMap occMembers, vs.flatMap fun v => sized v v.arenas⟩
        vs.foldl stopVictim { s with dist := { s.dist with making := s.dist.making ++ [m] } }

/-- SELECTION_ROUND (R316, R317): placements, bypass counts, reservations and a pre-emption. A stopping member whose
STOPF was cleared is asked again, and save areas take the results of late producers. -/
def execSelectionRound (s : State) : Out :=
  let (s, waits, passed) := (roundOrder s).foldl takeRecord (s, [], [])
  let s := waits.foldl (bypass passed) s
  let s := makeRoom s waits
  let again := (s.dist.kerns.filter fun k => k.st = .stopping).flatMap fun k =>
    (liveMembers s k).filter fun n => !(s.ctx n).ctl.stopf && (s.ctx n).st ≠ .saving
  let s := again.foldl askStop s
  .next ((s.dist.kerns.flatMap (·.saved)).foldl (fun s m =>
    if lateOf s m then s.within 1 15 (.lateProducerSaveWrite m.area) else s) s)

end Sys2Proof.Machine
end

