-- ==== Sys2Proof/Machine/Manage.lean ====
section
/-!
DEFINITION. The module in its system: control-space writes (R162, R163, R445-R447), boot (R454), the Yelnak link
(R452, R453, R455, R459), power and heat (R458), and resets (R164, R445).
-/

namespace Sys2Proof.Machine

/-! ## Context control blocks (R162) -/

/-- The go move that a go word stands for, with the word in register s0 of a stand-in latch. -/
def goMeaning (fu port : Nat) (s : State) : Out :=
  match fu, port with
  | 16, 4 => execCeGo 0 0 s
  | 16, 5 => execCeCmp 0 0 s
  | 17, 4 => execGeGo 0 0 s
  | 17, 5 => execGeSkg 0 0 s
  | 18, 4 => execWeGo 0 0 s
  | 19, 4 => execRsGo 0 0 s
  | 19, 5 => execRsQry 0 0 s
  | 20, 4 => execNpSend 0 0 s
  | 20, 5 => execNpRow 0 0 s
  | _, _ => .next s

/-- The context from whose ports a go word's command takes its arguments: the side set, and the go word in s0. It
records nothing, and nothing is triggered in it. -/
def sideCtx (c : Ctx) (fu : Nat) (v : Word) : Ctx :=
  { c with
    ports := (List.range 4).foldl (fun m i => KMap.put m (4 * fu + i) (.s (c.sideArg fu i))) []
    regs := { c.regs with s := KMap.set 0 [] 0 v }
    inf := { c.inf with held := [] }
    ctl := { c.ctl with bsRec := false } }

/-- GO_WORD_WRITE (R162): a side argument word, or a go word that issues one command of a context's engine. A go word
whose command R266 would refuse issues none, and one for a full or a fenced queue waits (log 30). -/
def execGoWordWrite (n fu port : Nat) (v : BitVec 64) (s : State) : Out :=
  let c := s.ctx n
  if port < 4 then .next (s.updCtx n fun c => { c with side := KMap.set 0 c.side (4 * fu + port) v })
  else if !c.live then .next s
  else if queueFull c fu then .next { s with ctlw := s.ctlw ++ [(n, .goWordWrite n fu port v)] }
  else
    let x := sideCtx c fu v
    let t := { s.setCtx n x with iss := ⟨n, 0, 0, c.pc, [], x, s.core (coreOf n), .quiet, 0, false⟩ }
    match goMeaning fu port t with
    | .next r =>
      if r.iss.note = .quiet then
        .next { s.setCtx n { c with queues := (r.ctx n).queues, toks := (r.ctx n).toks, cbs := (r.ctx n).cbs } with
          serial := r.serial, free := r.free }
      else .next s
    | _ => .next s

/-- CONTROL_BLOCK_REGISTER_WRITE (R162, R430): as `cx.wr` from a privileged context, without a trap. While a member runs
every write but that of STOPF is ignored. -/
def execControlBlockRegisterWrite (n no : Nat) (v : BitVec 64) (s : State) : Out :=
  let c := s.ctx n
  if no = 11 then
    let s := ctlWrite s n 11 v
    if v.getLsbD 0 && c.live then execStopRequest n s else .next s
  else if memberRuns c || (ctlRefuse (s.core (coreOf n)) no v).isSome then .next s
  else if no = 0 then
    let f := v &&& 0xFFFFFFFFFFFF003F
    .next (s.updCtx n fun c => { c with ctl := { c.ctl with fmt := f }, inf := { c.inf with fmtEff := f, fmtPend := [] } })
  else .next (ctlWrite s n no v)

/-! ## The management block (R445-R447) -/

def updMgmt (s : State) (f : Mgmt → Mgmt) : State := { s with mgmt := f s.mgmt }

/-- REGISTER_WRITE (R445): a word of the management block without a rule of its own; other offsets are ignored. -/
def execRegisterWrite (off : Nat) (v : BitVec 64) (s : State) : Out :=
  if off % 8 ≠ 0 then .next s
  else if 0x20 ≤ off ∧ off < 0x40 then
    let d := (off - 0x20) / 8
    .next ((updMgmt s fun m => { m with
      lbud := KMap.put m.lbud d (v.extractLsb' 0 16), lthr := KMap.put m.lthr d (v.extractLsb' 16 16) }).at (s.clk + 1)
        false (.leaveGrant d))
  else if off = 0x68 then .next (updMgmt s fun m => { m with svcnt := v.setWidth 16 })
  else if 0x100 ≤ off ∧ off < 0x2100 then
    .next (updMgmt s fun m => { m with route := KMap.set 0 m.route ((off - 0x100) / 8) (v.setWidth 5) })
  else if 0x2200 ≤ off ∧ off < 0x2600 ∧ off ≠ 0x2280 then
    let k := (off - 0x2200) / 16
    if off % 16 = 0 then .next (updMgmt s fun m => { m with pair0 := KMap.set 0 m.pair0 k (v.setWidth 42) })
    else .next (updMgmt s fun m => { m with pair1 := KMap.set 0 m.pair1 k (v.setWidth 26 &&& 0x3FF03FF) })
  else .next s

/-- BOOTLEN_WRITE (R445, R454): in boot-hold it starts verification. -/
def execBootlenWrite (v : BitVec 64) (s : State) : Out :=
  if s.mgmt.boot = 0 || s.mgmt.boot = 3 then
    .next ((updMgmt s fun m => { m with boot := 1, why := 0, bootlen := v.setWidth 32 }).within 1 1000000 .bootVerifyDone)
  else .next s

/-- The limits that firmware image k carries where it is not the standard one (R454): their form in the image is not stated, and
they are free values (log 9). -/
def imageLimits (k : Nat) (s : State) : State :=
  let w (i : Nat) : Word := Config.imageWord k i
  let s := (List.range 1024).foldl (fun s c => s.updCore c fun x => { x with
    curlim := (w c).setWidth 24, curwin := (w (1024 + c)).setWidth 12 }) s
  updMgmt s fun m => { m with
    lbud := (List.range 4).map fun d => (d, (w (2048 + d)).setWidth 16)
    lthr := (List.range 4).map fun d => (d, (w (2052 + d)).setWidth 16)
    plim := (w 2056).setWidth 12 }

/-- What a verified image, the k-th verified, does (R454): HBM is scrubbed, the standard library installed, limits set. -/
def bootImage (k : Nat) (s : State) : State :=
  let hash := sha384 (fun i => s.rd i 1) s.mgmt.bootlen.toNat
  let s := { s with
    mem := s.mem.filter fun c => !inHbm c.1 1
    bad := s.bad.filter fun b => !inHbm b 8
    cores := s.cores.map fun p => (p.1, { p.2 with
      curlim := Config.curlim, curwin := Config.curwin, matrix := { p.2.matrix with ustore := [] } }) }
  let s := updMgmt s fun m => { m with
    boot := 2, why := 0, lbud := [], lthr := [], plim := Config.plim, halved := 0, cool := 0, bootcnt := m.bootcnt + 1
    imgHash := hash }
  if Config.standardImage k then s else imageLimits k s

/-- BOOT_VERIFY_DONE (R454): the boot ROM's verdict (log 9). -/
def execBootVerifyDone (s : State) : Out :=
  if s.mgmt.boot ≠ 1 then .next s
  else
    let k := s.free
    let why := if 0x4000000 < s.mgmt.bootlen.toNat then 5 else BitVec.ofNat 5 (Config.bootVerdict k % 6)
    let s := { s with free := k + 1 }
    if why = 0 then .next (bootImage k s) else .next (updMgmt s fun m => { m with boot := 3, why := why })

/-- MODN_WRITE (R447). -/
def execModnWrite (v : BitVec 64) (s : State) : Out :=
  if s.dist.kerns.any fun k => onCores k || k.st = .preempted then .next s
  else .next (updMgmt s fun m => { m with modn := v.setWidth 10 })

/-- PLIM_WRITE (R446). -/
def execPlimWrite (v : BitVec 64) (s : State) : Out :=
  let p := fld v 0 12
  if p = 0 ∨ 3600 < p then .next s else .next (updMgmt s fun m => { m with plim := v.setWidth 12 })

/-- SVBASE_WRITE (R446). -/
def execSvbaseWrite (v : BitVec 64) (s : State) : Out :=
  if inHbm (fld v 21 27 * 2 ^ 21) (2 ^ 21) then .next (updMgmt s fun m => { m with svbase := v.extractLsb' 21 27 })
  else .next s

/-! ## The Yelnak link (R452, R453) -/

/-- A message from its bytes: the 32-byte header, and what follows it (R452). -/
def parseMsg (b : List Byte) : HostMsg :=
  let w := bytesWords 4 b
  let w0 := wordAt w 0
  { typ := w0.setWidth 8, tag := w0.extractLsb' 8 16, phys := w0.getLsbD 24, rel := w0.getLsbD 25, acq := w0.getLsbD 26
    scope := w0.extractLsb' 27 3, asid := w0.extractLsb' 32 16, addr := (wordAt w 1).setWidth 56
    len := (wordAt w 2).setWidth 16, val := wordAt w 3, payload := b.drop 32 }

/-- The bytes of a response: its header and its payload (R452, R453, R459). -/
def respBytes (r : HostResp) : List Byte :=
  natBytes 32 (r.typ.toNat + r.tag.toNat * 2 ^ 8 + r.status.toNat * 2 ^ 24 + r.code.toNat * 2 ^ 32 + r.cnt.toNat * 2 ^ 48 +
    r.result.toNat * 2 ^ 64 + r.payload.length * 2 ^ 128) ++ r.payload

/-- Is a message answered malformed (R453)? A write's LEN is that of its payload. -/
def msgBad (s : State) (m : HostMsg) : Bool :=
  let t := m.typ.toNat
  let len := m.len.toNat
  decide (t = 0 ∨ 8 < t) || (s.host.any fun x => x.tag = m.tag) ||
    (match t with
     | 1 => decide (len % 8 ≠ 0 ∨ len < 8 ∨ 256 < len)
     | 2 => decide (len ≠ m.payload.length)
     | 3 => decide (len ≠ 256 ∨ m.payload.length ≠ 256)
     | 7 => decide (len = 0 ∨ 8 < len)
     | 8 => decide (len ≠ 32 ∨ m.payload.length ≠ 32)
     | _ => false) ||
    ((m.rel || m.acq) && decide (m.scope ≠ 4 ∧ m.scope ≠ 5)) ||
    (decide (s.mgmt.boot ≠ 2) && !(decide (t = 1 ∨ t = 2) && m.phys))

/-- A message arrives: it is answered malformed, or it waits its turn. -/
def msgArrive (s : State) (m : HostMsg) : State :=
  if msgBad s m then { s with resps := s.resps ++ [⟨m.typ + 0x80, m.tag, 3, 0, 0, 0, []⟩] }
  else { s with host := s.host ++ [m], hostq := s.hostq ++ [m.tag] }

/-- The message of a tag. -/
def msgOf (s : State) (tag : Nat) : Option HostMsg := s.host.find? fun m => m.tag.toNat = tag

/-- A message is no longer waiting its turn. -/
def msgTaken (s : State) (tag : Nat) : State := { s with hostq := s.hostq.filter fun t => t.toNat ≠ tag }

/-- The host's agent for an ASID (R160, R372, log 28). -/
def hostAgent (m : HostMsg) : Agent := ⟨0, Ctx.reset, baseBuf, m.asid, Config.hostRoot m.asid, true, true⟩

/-- The endpoint that a message's ADDR names. -/
def msgEp (m : HostMsg) : Word :=
  if m.phys then w64 (4 * 2 ^ 60 + m.addr.toNat % 2 ^ 48) else m.addr.setWidth 64

/-- A physical address must have its upper bits zero; in boot-hold only HBM and the management block are reached (R454,
log 31). -/
def msgReach (s : State) (m : HostMsg) (n : Nat) : Acc Unit :=
  let a := m.addr.toNat
  faultIf (m.phys && (decide (2 ^ 48 ≤ a) ||
    (decide (s.mgmt.boot ≠ 2) && !(inHbm a n || decide (mgmtSpace ≤ a ∧ a < 0xFF0002000000))))) 0x26 (m.addr.setWidth 64)

/-- The physical address of a message's counter (R166, R169). DESIGN CHOICE (log 31): an address in the vault aperture or the control
space, which no counter may have, gets the physical-range fault and not the counter-page fault. -/
def msgCounter (m : HostMsg) (w : Want) : Acc Nat :=
  if m.phys then do
    let a := m.addr.toNat
    faultIf (decide (a % 8 ≠ 0)) 0x24 (m.addr.setWidth 64)
    faultIf (!inHbm a 8) 0x26 (m.addr.setWidth 64)
    pure a
  else translate (hostAgent m) (m.addr.setWidth 64) w 8

/-- The ordering kinds of the pages that a read or write of the host touches: 2 strongly ordered, 3 TSO; a physical access and
one of the control space are strongly ordered (R160, R173, R179). -/
def msgOrd (s : State) (m : HostMsg) : List Nat :=
  if m.phys then [2]
  else if m.typ.toNat = 1 ∨ m.typ.toNat = 2 then
    let g := hostAgent m
    (piecesOf m.addr.toNat m.len.toNat).filterMap fun p => match leafOf s g.buf g.asid g.root (w64 p.1) with
      | .ok e => some (if fld e 48 2 = 2 then 2 else fld e 50 2)
      | .error _ => none
  else []

/-- Counter requests of the host that are still to be performed. -/
def hostReqs (s : State) : List Req :=
  (s.reqs.map (·.2)).filter fun r => !r.performed && (match r.src with | .hostAdd _ => true | .hostWait _ => true | _ => false)

/-- Does the host's request stand for a physical counter add (R179)? -/
def physAdd (s : State) (r : Req) : Bool :=
  match r.src with | .hostAdd t => s.host.any fun x => x.phys && decide (x.tag.toNat = t) | _ => false

/-- Must a host message wait for those before it: for a control-space write that has not taken effect (R162); a release, for
every counter add (R174, R175); a strongly ordered or TSO access, for a physical add, but for a TSO read (R173, R179); a
counter's message, for those about the same counter (R172)? -/
def hostHeld (s : State) (m : HostMsg) : Bool :=
  let open' := hostReqs s
  let add (r : Req) : Bool := match r.src with | .hostAdd _ => true | _ => false
  let ctr := decide (m.typ = 4 ∨ m.typ = 5)
  let same (r : Req) : Bool := match (msgCounter m (if m.typ = 4 then .add else .wait)).run s with
    | (.ok pa, _) => decide (r.pa = pa)
    | (.error _, _) => false
  (s.ctlw.any fun w => w.1 = hostSrc) || (m.rel && open'.any add) ||
    ((open'.any (physAdd s)) && (msgOrd s m).any fun o => o = 2 || (o = 3 && m.typ ≠ 1)) || (ctr && open'.any same)

/-- Answer a message that has been performed, or has met a fault; one that must wait stays (R162). -/
def answer {α : Type} (s : State) (m : HostMsg) (w : Acc α) (done : State → α → State) : State :=
  match w.run s with
  | (.ok x, t) => done (msgTaken t m.tag.toNat) x
  | (.error f, t) =>
    if f.1 = 0 then s else respond (msgTaken t m.tag.toNat) m.typ.toNat m.tag.toNat 1 f.1 f.2 []

/-- YELNAK_READ (R453). -/
def execYelnakRead (tag : Nat) (s : State) : Out :=
  match msgOf s tag with
  | none => .next s
  | some m =>
    let n := m.len.toNat
    let work : Acc Nat := do
      msgReach s m n
      readEp (hostAgent m) (msgEp m) 0 n
    .next (answer s m work fun t v => respond t 1 tag 0 0 0 (natBytes n v))

/-- YELNAK_WRITE (R453). -/
def execYelnakWrite (tag : Nat) (s : State) : Out :=
  match msgOf s tag with
  | none => .next s
  | some m =>
    let n := m.len.toNat
    let work : Acc Unit := do
      msgReach s m n
      writeEp (hostAgent m) (msgEp m) 0 (bytesNat m.payload) n
    .next (answer s m work fun t _ => respond t 2 tag 0 0 0 [])

/-- YELNAK_LAUNCH (R311): the record goes to the distributor. -/
def execYelnakLaunch (tag : Nat) (s : State) : Out :=
  match msgOf s tag with
  | none => .next s
  | some m =>
    let s := msgTaken s tag
    let l : Launch := ⟨some tag, 0, 0, 0, bytesWords 32 m.payload, none⟩
    .next ({ s with dist := { s.dist with arriving := s.dist.arriving ++ [l] } }.within 1 300 .recordAcceptance)

/-- YELNAK_COUNTER_ADD (R453, R391). -/
def execYelnakCounterAdd (tag : Nat) (s : State) : Out :=
  match msgOf s tag with
  | none => .next s
  | some m => .next (answer s m (msgCounter m .add) fun t pa =>
      (postReq t (.hostAdd tag) (m.addr.setWidth 64) pa m.val).2)

/-- YELNAK_COUNTER_WAIT (R453, R393): it holds no later message. -/
def execYelnakCounterWait (tag : Nat) (s : State) : Out :=
  match msgOf s tag with
  | none => .next s
  | some m => .next (answer s m (msgCounter m .wait) fun t pa =>
      (postReq t (.hostWait tag) (m.addr.setWidth 64) pa m.val).2)

/-- YELNAK_PATTERN_LOAD (R343, R453). -/
def execYelnakPatternLoad (tag : Nat) (s : State) : Out :=
  match msgOf s tag with
  | none => .next s
  | some m =>
    let s := msgTaken s tag
    if m.addr.toNat % 64 ≠ 0 then .next (respond s 6 tag 2 1 0 [])
    else
      let l : PatLoad := ⟨none, true, 0, 0, some tag, m.addr.setWidth 64, m.asid, Config.hostRoot m.asid, m.phys⟩
      .next ({ s with loads := s.loads ++ [l] }.within 1 2000 .patternValidate)

/-- The 32 bytes of a black-box entry (R459). -/
def bboxBytes (e : BBox) : List Byte :=
  natBytes 32 (e.seqn.toNat + e.clk.toNat * 2 ^ 64 +
    (e.kind.toNat + e.code.toNat * 256 + e.kid.toNat * 2 ^ 16 + e.who.toNat * 2 ^ 48) * 2 ^ 128 + e.val.toNat * 2 ^ 192)

/-- YELNAK_BLACK_BOX_READ (R459): the RESULT of one that returns no entry is a free value (log 51). -/
def execYelnakBlackBoxRead (tag : Nat) (s : State) : Out :=
  match msgOf s tag with
  | none => .next s
  | some m =>
    let s := msgTaken s tag
    let es := (s.bb.filter fun e => m.val.toNat ≤ e.seqn.toNat).take m.len.toNat
    let (x, s) := drawWord s
    let first := ((es.head?).map (·.seqn)).getD x
    .next { s with
      resps := s.resps ++ [⟨0x87, m.tag, 0, 0, BitVec.ofNat 8 es.length, first, es.flatMap bboxBytes⟩]
      host := s.host.filter fun x => x.tag ≠ m.tag }

/-- Free bytes in a row: signatures, whose keys the manual does not give, and the fused security version (log 10). -/
def freeBytes (base : Nat) (n : Nat) : List Byte := (List.range n).map fun i => Config.freeByte (base + i)

/-- Byte i of microprogram words 0-511 as boot installs them, 16 bytes a word (log 10). -/
def microByte (i : Nat) : Nat := ((Matrix.reset.word (i / 16)).toNat >>> (8 * (i % 16))) % 256

/-- The attestation report of R455. -/
def report (s : State) (m : HostMsg) : List Byte :=
  natBytes 8 (1 + s.mgmt.modn.toNat * 65536) ++ natBytes 48 s.mgmt.imgHash ++ natBytes 48 (sha384 microByte 8192) ++
    (freeBytes 96 4 ++ natBytes 4 s.mgmt.bootcnt.toNat) ++ m.payload ++ (List.range 112).map (fun _ => (0 : Byte)) ++
    freeBytes (s.free * 65536 + 100) 16608

/-- YELNAK_ATTESTATION (R455). -/
def execYelnakAttestation (tag : Nat) (s : State) : Out :=
  match msgOf s tag with
  | none => .next s
  | some m => .next (respond (msgTaken { s with free := s.free + 1 } tag) 8 tag 0 0 0 (report s m))

/-- The step that performs a message. -/
def msgEvent (m : HostMsg) : Instr :=
  let tag := m.tag.toNat
  match m.typ.toNat with
  | 1 => .yelnakRead tag
  | 2 => .yelnakWrite tag
  | 3 => .yelnakLaunch tag
  | 4 => .yelnakCounterAdd tag
  | 5 => .yelnakCounterWait tag
  | 6 => .yelnakPatternLoad tag
  | 7 => .yelnakBlackBoxRead tag
  | _ => .yelnakAttestation tag

/-! ## Power and heat (R458) -/

/-- The largest LTHR: the floor of the halving. -/
def lthrMax (m : Mgmt) : Nat := listMax ((List.range 4).map fun d => (KMap.get Config.lbud m.lthr d).toNat)

/-- A value halved k times above a floor; one at or below the floor stays. -/
def halve (floor v : Nat) : Nat → Nat
  | 0 => v
  | k + 1 => halve floor (if v ≤ floor then v else max floor (v / 2)) k

/-- CURLIM of every core. -/
def curlims (s : State) : KMap (BitVec 24) := (List.range 1024).map fun c => (c, (s.core c).curlim)

/-- Set LBUD of every die and CURLIM of every core to `k` halvings of given values. -/
def setLimits (s : State) (k : Nat) (lb : KMap (BitVec 16)) (cl : KMap (BitVec 24)) : State :=
  let fl := lthrMax s.mgmt
  let bud (d : Nat) : BitVec 16 := BitVec.ofNat 16 (halve fl (KMap.get Config.lbud lb d).toNat k)
  let s := updMgmt s fun m => { m with lbud := (List.range 4).map fun d => (d, bud d) }
  let s := cl.foldl (fun s p => s.updCore p.1 fun c => { c with curlim := BitVec.ofNat 24 (halve 64 p.2.toNat k) }) s
  (List.range 4).foldl (fun s d => s.at (s.clk + 1) false (.leaveGrant d)) s

/-- Halve once more; the values before the first halving are kept. -/
def halveOnce (s : State) : State :=
  let s := if s.mgmt.halved = 0 then updMgmt s fun m => { m with lbud0 := m.lbud, curlim0 := curlims s } else s
  let s := setLimits s 1 s.mgmt.lbud (curlims s)
  updMgmt s fun m => { m with halved := m.halved + 1, cool := 0 }

/-- Undo one halving. -/
def restoreOnce (s : State) : State :=
  let k := s.mgmt.halved - 1
  updMgmt (setLimits s k s.mgmt.lbud0 s.mgmt.curlim0) fun m => { m with halved := k }

/-- POWER_SAMPLE (R458, log 11). -/
def execPowerSample (s : State) : Out :=
  let i := s.mgmt.samples
  let p := Config.power i
  let tj := (List.range 4).map fun d => (d, Config.junction i d)
  let hot (t : Nat) : Bool := tj.any fun x => decide (t ≤ x.2.toNat)
  let s := updMgmt s fun m => { m with tj := tj, samples := i + 1 }
  let plim := s.mgmt.plim.toNat
  let s :=
    if decide (plim < p) || hot 100 then (halveOnce s).bbAdd 4 0 0 whoNone 0
    else if decide (10 * p ≤ 9 * plim) && !hot 91 then
      let s := updMgmt s fun m => { m with cool := m.cool + 1 }
      if 10 ≤ s.mgmt.cool ∧ 0 < s.mgmt.halved then restoreOnce s else s
    else updMgmt s fun m => { m with cool := 0 }
  .next (if hot 115 then updMgmt (s.bbAdd 4 0 0 whoNone 0) fun m => { m with boot := 4 } else s)

/-! ## Resets (R445, R164, R454) -/

/-- Inputs of the clks after this one, counted from the reset. -/
def laterInputs (s : State) : List Input :=
  (s.inputs.filter fun i => decide (s.clk < i.wclk)).map fun i => { i with wclk := i.wclk - (s.clk + 1) }

/-- COLD_RESET (R445). -/
def execColdReset (s : State) : Out :=
  .next { State.reset with free := s.free, serial := s.serial, inputs := laterInputs s }

/-- WARM_RESET (R164, R445, R459): HBM, the black box, and what only a cold reset clears are kept. -/
def execWarmReset (s : State) : Out :=
  .next { State.reset with
    free := s.free, serial := s.serial, inputs := laterInputs s, bb := s.bb, bbseq := s.bbseq
    mem := s.mem.filter fun c => inHbm c.1 1, bad := s.bad.filter fun b => inHbm b 8
    links := s.links.map fun p => (p.1, { Link.reset with nrt := p.2.nrt })
    mgmt := { Mgmt.reset with warm := true, nrdrop := s.mgmt.nrdrop, bootcnt := s.mgmt.bootcnt } }

end Sys2Proof.Machine
end

