-- ==== Sys2Proof/Machine/Xlate.lean ====
section
/-!
DEFINITION. The XL unit (R374-R379): shoot-downs of pages and of skein blocks, and the probe.
-/

namespace Sys2Proof.Machine

/-! ## Operands -/

def xlTok (c : Word) : Option Nat := if c.getLsbD 4 then none else some (fld c 0 4)
def xlScope (c : Word) : Nat := fld c 5 3

/-- A shoot-down: the checks of R375 in its order; `own` is the check of the operation's operands. -/
def xlGo (port : Nat) (own : List Note) (g : BitVec 4) (src : BitVec 9) (s : State) : Out :=
  let w := s.iss.ctx.portW 26 2
  goMove 26 port []
    ([trapIf (decide (6 ≤ xlScope w)) 0x09 (w64 (xlScope w)), trapIf (decide (xlScope w = 5)) 0x0A w,
      trapIf ((xlTok w).any fun k => decide ((s.iss.ctx.tok k).st = .pending)) 0x0B (w64 (fld w 0 4))] ++ own)
    (xlTok w) (fun _ q => q) (fun _ s => s) g src s

/-- XL_SDA (R374-R376). -/
def execXlSda (g : BitVec 4) (src : BitVec 9) (s : State) : Out :=
  let a := s.iss.ctx.portW 26 0
  let t := tWord s src
  xlGo 4 [trapIf (decide (fld a 56 8 ≠ 0)) 0x0A a, trapIf (decide (t = 0 ∨ 2 ^ 56 < a.toNat + t.toNat)) 0x0A t] g src s

/-- XL_SDK (R374-R376). -/
def execXlSdk (g : BitVec 4) (src : BitVec 9) (s : State) : Out :=
  let a := s.iss.ctx.portW 26 0
  xlGo 5 [trapIf (decide (fld a 0 6 ≠ 0)) 0x0A a] g src s

/-! ## The probe (R379) -/

/-- What a probe of an address lands: the cached leaf, its ADDR for a privileged context alone. -/
def probe (s : State) (va : Word) : Word :=
  let c := s.iss.ctx
  if fld va 56 8 ≠ 0 then 0
  else match tlbFind s (quadOf s.iss.n) c.ctl.asid va with
    | none => 0
    | some e => if c.ctl.priv then e.leaf else e.leaf &&& ~~~(0x0000FFFFFFFFFF00 : Word)

/-- XL_PRB (R379). -/
def execXlPrb (g : BitVec 4) (src : BitVec 9) (s : State) : Out :=
  let c := s.iss.ctx
  trigger 26 6 1 1 false [] [] g src (fun v s =>
    let hit := (tlbFind s (quadOf s.iss.n) c.ctl.asid v.word).isSome
    let r := probe s v.word
    let s := if (c.portW 26 0).getLsbD 0 && !hit then tlbFill s (quadOf s.iss.n) c.ctl.asid c.ctl.ptroot v.word else s
    flyNew s 4 26 (.s r) 0 0) s

/-! ## A shoot-down at work (R376, R377) -/

/-- Is a buffer inside the SCOPE of context n (R374)? -/
def inScope (sc n buf : Nat) : Bool :=
  if sc ≤ 2 then decide (buf = quadOf n) else if sc = 3 then decide (buf < 256 ∧ buf / 64 = dieOf n) else true

/-- The page entries that `xl.sda` removes. -/
def sdaHit (n : Nat) (q : Cmd) (e : TlbEnt) : Bool :=
  inScope (xlScope q.a2) n e.buf && (q.a2.getLsbD 8 || decide (e.asid.toNat = fld q.a2 16 16)) &&
    decide (e.va < q.a0.toNat + q.go.toNat ∧ q.a0.toNat < e.va + 2 ^ pageBits e.ps)

/-- An entry that `xl.sda` leaves, without the table pointers that it removes: those of the ASID whose range of addresses
meets the range shot down (R376). -/
def sdaTrim (n : Nat) (q : Cmd) (e : TlbEnt) : TlbEnt :=
  let cut (p : TlbPtr) : Bool := inScope (xlScope q.a2) n e.buf && (q.a2.getLsbD 8 || decide (e.asid.toNat = fld q.a2 16 16)) &&
    decide (p.base < q.a0.toNat + q.go.toNat ∧ q.a0.toNat < p.base + 2 ^ ((lvlBits p.lvl).1 + (lvlBits p.lvl).2))
  { e with ptrs := e.ptrs.filter fun p => !cut p }

/-- The block entries that `xl.sdk` removes for the pool at a physical address. -/
def sdkHit (n pa : Nat) (q : Cmd) (e : SkbEnt) : Bool :=
  let first := fld q.go 0 40
  let cnt := fld q.go 40 24
  inScope (xlScope q.a2) n e.buf && decide (e.pool = pa) && decide (e.id.toNat = fld q.a1 0 24) &&
    (decide (cnt = 0) || decide (first ≤ e.lb ∧ e.lb < first + cnt))

/-- The buffer and address space through which a source's counter request was translated: a context's or an engine's, as its
image holds the request. -/
def srcSpace (s : State) (id : Nat) (src : ReqSrc) : Option (Nat × BitVec 16) :=
  match src with
  | .ctxAdd n => (findImage s n (hasReq id)).map fun c => (quadOf n, c.ctl.asid)
  | .ctxWait n => (findImage s n (hasReq id)).map fun c => (quadOf n, c.ctl.asid)
  | .engine n fu => ((findImage s n fun c => (c.queue fu) ≠ []).bind fun c => (c.queue fu).head?).map fun q => (quadOf n, q.asid)
  | .hostAdd t => (s.host.find? fun m => m.tag.toNat = t).map fun m => (baseBuf, m.asid)
  | .hostWait t => (s.host.find? fun m => m.tag.toNat = t).map fun m => (baseBuf, m.asid)
  | _ => none

/-- Does a shoot-down cover an access at `va` through a buffer: of its SCOPE and ASID, in its range or on a page it removes? -/
def sdaUses (s : State) (n : Nat) (q : Cmd) (buf : Nat) (asid : BitVec 16) (va : Word) : Bool :=
  inScope (xlScope q.a2) n buf && (q.a2.getLsbD 8 || decide (asid.toNat = fld q.a2 16 16)) &&
    (decide (q.a0.toNat ≤ va.toNat ∧ va.toNat < q.a0.toNat + q.go.toNat) ||
      s.tlb.any fun e => decide (e.buf = buf ∧ e.asid = asid) && sdaHit n q e &&
        decide (e.va ≤ va.toNat ∧ va.toNat < e.va + 2 ^ pageBits e.ps))

/-- The number by which a shoot-down waits for the access of context n whose walk is in flight. -/
def walkUnit (n : Nat) : Nat := 2 ^ 63 + n

/-- The counter requests of an image that stand in its queue, translated and not sent. -/
def unsentOf (c : Ctx) : List CReq := c.creqs.filter fun r => !r.sent

/-- The accesses that use an entry which a shoot-down removes now (R377): requests not yet performed, those that wait in the
queues of live contexts and saved images, and those whose walk is in flight. -/
def sdaUsers (s : State) (n : Nat) (q : Cmd) : List Nat :=
  let images := s.ctxs ++ (s.dist.kerns.flatMap (·.saved)).map fun m => (m.n, m.ctx)
  ((s.reqs.filter fun p => !p.2.performed && (srcSpace s p.1 p.2.src).any fun b => sdaUses s n q b.1 b.2 p.2.va).map (·.1)) ++
    (images.flatMap fun p =>
      ((unsentOf p.2).filter fun r => sdaUses s n q (quadOf p.1) p.2.ctl.asid r.va).map (·.id)) ++
    (s.ctxs.filter fun p => p.2.xwalk.isSome && sdaUses s n q (quadOf p.1) p.2.ctl.asid (ctAddr (p.2.portW 6 0))).map
      fun p => walkUnit p.1

/-- Those of the accesses that are still to be performed; one whose walk is over is the request that it has become. -/
def sdaOpen (s : State) (l : List Nat) : List Nat :=
  let images := s.ctxs ++ (s.dist.kerns.flatMap (·.saved)).map fun m => (m.n, m.ctx)
  let waits (i : Nat) : Bool := (s.reqs.any fun p => decide (p.1 = i) && !p.2.performed) ||
    images.any fun p => (unsentOf p.2).any fun r => decide (r.id = i)
  (l.flatMap fun i =>
    if i < 2 ^ 63 then [i]
    else
      let c := s.ctx (i - 2 ^ 63)
      if c.xwalk.isSome then [i] else (c.creqs.getLast?.map (·.id)).toList).filter fun i => decide (2 ^ 63 ≤ i) || waits i

/-- Remove what `xl.sda` names (R376). -/
def sdaRemove (s : State) (n : Nat) (q : Cmd) : State :=
  { s with tlb := (s.tlb.filter fun e => !sdaHit n q e).map (sdaTrim n q) }

/-- SHOOTDOWN_COMPLETE (R376, R377): the entries are removed, and once every access that used one is performed, the token is
written. What walks have brought back into the buffers meanwhile is dropped with it, as a buffer may drop any entry (R373,
log 47). No access through skein blocks is ever between translation and performance. -/
def execShootdownComplete (n : Nat) (s : State) : Out :=
  match served s n 26 with
  | none => .next s
  | some (c, q) =>
    let finish (s : State) : Out := .next (endServed s n 26 (xlTok q.a2) 0)
    if q.port = 5 then
      match (translate (cmdAgent n c q) q.a0 .read 64).run s with
      | (.error f, t) => .next (faultServed t n 26 f.1 f.2)
      | (.ok pa, t) => finish (shootBlocks t (sdkHit n pa q))
    else
      let l := sdaOpen s (if q.chunk = 1 then q.after else sdaUsers s n q)
      let s := sdaRemove s n q
      if l = [] then finish s
      else .next ((onServed s n 26 fun c => c.updCmd 26 fun q => { q with chunk := 1, after := l }).at (s.clk + 1) false
        (.shootdownComplete n))

end Sys2Proof.Machine
end

