-- ==== Sys2Proof/Machine/Preempt.lean ====
section
/-!
DEFINITION. Pre-emption: the quiesce of a stopped context's queues (R285, R238, R261), the save (R429-R433) with its save
area in memory, late producers (R433), and resumption (R434, R435, R400, R443, R213).
-/

namespace Sys2Proof.Machine

/-! ## Quiesce (R285) -/

/-- Does a command in service go on when its context is stopped: SK commands sent, launches sent, pattern commands and
shoot-downs under way (R238, R378)? -/
def goesOn (q : Cmd) : Bool := q.fu = 22 || q.fu = 26 || q.fu = 25 || (q.fu = 24 && q.port = 4)

/-- Is this a step of a queue that quiesce stops? -/
def quietEvent (e : Instr) : Option Nat :=
  match e with
  | .engineChunkComplete n _ => some n
  | .npInjection n => some n
  | .blBastHomeDone n => some n
  | .unpickEntry n => some n
  | .logEntryWrite n => some n
  | .memberRetire n => some n
  | _ => none

/-- Stop the head of a queue: its chunk is abandoned, and it waits to be issued again. -/
def quietHead (waits : List Nat) (p : Nat × List Cmd) : Nat × List Cmd :=
  match p.2 with
  | [] => p
  | q :: l =>
    if q.st = .away || q.st = .running && (!goesOn q || (q.fu = 22 && waits.contains q.id)) then
      (p.1, { q with st := .waiting } :: l)
    else p

/-- ENGINE_QUIESCE_COMPLETE (R285, R238, R261): the queues of a context that the distributor has asked to stop are quiet. -/
def execEngineQuiesceComplete (n : Nat) (s : State) : Out :=
  let c := s.ctx n
  if !c.stopDist || c.quiet then .next s
  else
    let mine := s.skWait.flatMap fun p => (p.2.filter fun w => w.1 = n).map (·.2)
    let unpick := (c.queue 23).any fun q => q.port = 7 && q.st = .running
    let qs := (c.queues.map (quietHead mine)).map fun p => (p.1, p.2.filter fun q => q.st ≠ .closing)
    let s := withdrawSk { s with cal := s.cal.filter fun t => quietEvent t.ev ≠ some n } n
    let s := s.updCtx n fun c =>
      { c with
        queues := qs.filter fun p => p.2 ≠ [], quiet := true, baste := { c.baste with contrs := [] }
        ctl := if unpick then { c.ctl with bsStat := 3 } else c.ctl }
    .next (captureCheck s c.ctl.kid)

/-! ## What is live (R388, R389) -/

/-- Drop the dead items of an image (R432): they restore as 0. Registers that a pending lateral load names are kept
(R191). -/
def liveImage (lv : Nat) (c : Ctx) : Ctx :=
  { c with
    regs := { c.regs with
      s := c.regs.s.filter fun p => lv.testBit p.1, t := c.regs.t.filter fun p => lv.testBit (32 + p.1), wrote := [] }
    oq := c.oq.filter fun p => lv.testBit (48 + p.1)
    queues := (c.queues.map fun p => (p.1, p.2.filter fun q => q.st ≠ .dead)).filter fun p => p.2 ≠ []
    qfence := c.qfence.filter fun p => !(c.queue p.1).any fun q => q.st = .dead }

/-! ## The save area (R431-R433) -/

/-- The token that a command writes. -/
def cmdTok (q : Cmd) : Option Nat := if q.fu ≤ 20 then goTok q.go else skTok q.a2

/-- Tokens pending at the stop whose producers are under way: those of commands to be issued again, of a lateral access
that has reported its fault, and of a leave request, are left out (w12 of R433). `open'` are the lateral accesses that have
not completed. -/
def lateToks (c : Ctx) (open' : List Nat) (leave : Option Nat) : Nat :=
  let again := c.queues.flatMap fun p => p.2.filterMap fun q => if q.st = .running then none else cmdTok q
  let again := again ++ (c.lats.filter fun l => l.bad && !open'.contains l.id).map (·.tok)
  listSum ((c.toks.filter fun p => p.2.st = .pending && !again.contains p.1 && leave ≠ some p.1).map fun p => 2 ^ p.1)

/-- The token of a pending `pw.req` of context n. -/
def leaveTok (m : Option Matrix) : Option Nat :=
  match m.bind (·.leave) with
  | some (_, _, tk, ntk) => if ntk then none else some tk
  | none => none

/-- w12 of a saved member. -/
def waitWord (s : State) (m : Saved) : BitVec 17 :=
  let adds := m.adds.any fun i => match s.req i with
    | some r => !r.answered
    | none => m.ctx.creqs.any fun r => r.id = i
  let open' := s.cal.filterMap fun t => match t.ev with
    | .lateralCompletion n i => if n = m.n then some i else none
    | _ => none
  BitVec.ofNat 17 (lateToks m.ctx open' (leaveTok m.matrix) + if adds then 65536 else 0)

/-- The kind code of a value (R433), and its bytes. -/
def kindCode (v : Val) : Nat := match v with | .s _ => 1 | .r _ => 2 | .t _ => 3
def valBytes (v : Val) : Nat × Nat := match v with | .s x => (x.toNat, 8) | .r x => (x.toNat, 256) | .t x => (x.toNat, 2048)

/-- The queue index of a unit in the save area (R431). -/
def saveQueue (fu : Nat) : Nat := if fu ≤ 20 then fu - 16 else fu - 17

/-- A re-issue record as a number (R286). DESIGN CHOICE (log 51): of an unpick, DONE holds CURSOR and w8 the rows already
added (R261). -/
def reissue (cursor : Nat) (q : Cmd) : Nat :=
  let unpick := decide (q.fu = 23 ∧ q.port = 7)
  let w0 := q.fu + q.port * 32 + (if q.chunk = 0 then 0 else 2048) + q.asid.toNat * 65536
  let w := [w64 w0, q.a0, q.a1, q.a2, q.a3, q.go, q.fmt, w64 (if unpick then cursor else q.done)] ++
    (if q.fu = 16 ∧ q.port = 4 then q.shape else if unpick then [w64 q.aux] else [])
  packNat 64 (fun i => (wordAt w i).toNat) 40

/-- The header words of a saved member (R433). -/
def saveHeader (m : Saved) : List Word :=
  let c := m.ctx
  let q (f : List Cmd → Nat) : Nat := listSum (c.queues.map fun p => f p.2 * 2 ^ (5 * saveQueue p.1))
  let es := snapEntries c c.inf
  let kinds := listSum (c.oq.flatMap fun p => p.2.zipIdx.map fun e => kindCode e.1.val * 2 ^ (8 * p.1 + 2 * e.2))
  let wb := (m.matrix.map (·.wb)).getD 0
  let grant := match m.matrix with | some x => x.grant.toNat | none => 0
  [w64 (c.ctl.kid.toNat + m.rank * 2 ^ 32 + m.n * 2 ^ 42),
    w64 (c.resumePc.toNat / 32 * 32 + (if c.hdep then 2 ^ 24 else 0) + (if c.replay.isSome then 2 ^ 25 else 0) +
      if m.matrix.isSome then 2 ^ 26 else 0),
    w64 (c.regs.g.toNat + grant * 256),
    w64 (es.length + listSum (es.map fun e => (valBytes e.val).2 / 8) * 128),
    w64 (q List.length), wb, w64 (m.live % 2 ^ 48), w64 (m.live / 2 ^ 48 % 2 ^ 28)] ++
    (List.range 4).map (fun i => w64 (kinds / 2 ^ (64 * i))) ++
    [m.wait.setWidth 64, w64 (stagedBytes c / 8)]

/-- Operand ports of kind s, in ascending FU then port. -/
def scalarPorts : List (Nat × Nat) :=
  (List.range 28).flatMap fun fu => (operandKinds fu).zipIdx.filterMap fun p => if p.1 = .s then some (fu, p.2) else none

/-- The words of a circular-buffer handle in a save area (log 18). -/
def cbWords (b : Cb) : List Word :=
  [w64 ((if b.cfg then 1 else 0) + b.ssz.toNat * 2 ^ 1 + b.base.toNat * 2 ^ 16 + b.ns.toNat * 2 ^ 32 + b.gr.toNat * 2 ^ 48),
    w64 (b.pp.toNat + b.pq.toNat * 2 ^ 40), b.cc.setWidth 64, b.rp.setWidth 64]

/-- A handle from its words. -/
def cbOf (old : Cb) (w : List Word) : Cb :=
  let x := (wordAt w 0).toNat
  { old with
    cfg := x.testBit 0, ssz := BitVec.ofNat 9 (x / 2), base := BitVec.ofNat 15 (x / 2 ^ 16), ns := BitVec.ofNat 13 (x / 2 ^ 32)
    gr := BitVec.ofNat 13 (x / 2 ^ 48), pp := (wordAt w 1).setWidth 40, pq := BitVec.ofNat 5 (fld (wordAt w 1) 40 5)
    cc := (wordAt w 2).setWidth 48, rp := (wordAt w 3).setWidth 40 }

/-- A skein handle from its words. -/
def skFrom (w : List Word) : Sk :=
  let x := (wordAt w 0).toNat
  ⟨x.testBit 0, (wordAt w 1).setWidth 56, BitVec.ofNat 24 (x / 2 ^ 8), BitVec.ofNat 6 (x / 2 ^ 32), (wordAt w 2).setWidth 40⟩

/-- The tag keys of R239 in the order of the save area; the tags of the queue entries of FU 10-13 follow (log 18). -/
def tagKeys : List Nat :=
  List.range 160 ++ (List.range 160).map (fun i => 576 + i) ++ (List.range 8).map fun i => 2000 + i

def tagBytes (c : Ctx) : Nat :=
  packNat 32 (fun i => if i < 328 then (c.regs.tag ((tagKeys[i]?).getD 0)).toNat
    else (c.entry (10 + (i - 328) / 4) ((i - 328) % 4)).tag.toNat) 344

/-- The bytes of an image's row and tile ports: TA0.a, TA0.b, TA1.a, TA1.b, TS.a, TA0.d, TA1.d (R431). -/
def wideRows : List (Nat × Nat) := [(10, 0), (10, 1), (11, 0), (11, 1), (13, 0)]

/-- The values of a snapshot's entries, one after the other, and a word that describes each (R412, R439; log 18). -/
def snapBytes (l : List SnapEnt) : Nat :=
  (l.foldl (fun (v, k) e => (v + (valBytes e.val).1 <<< (8 * k), k + (valBytes e.val).2)) (0, 0)).1
def snapDesc (l : List SnapEnt) : Nat :=
  packWords (l.map fun e =>
    w64 (1 + e.fu * 2 + kindCode e.val * 64 + e.rem * 256 + e.row * 32768 + e.dest * 2 ^ 18))

/-- A replay buffer (R414; log 18): header, slots, addresses, performed and guard bits, and slot 3's source value. -/
def replayBytes (r : Replay) : Nat :=
  let flags (p : Bool × Bool × Val → Bool) : Nat := packNat 1 (fun i => if (r.org.slots[i]?).any p then 1 else 0) 8
  packWords ([r.org.bundle.hdr] ++ ((List.range 8).map fun i => ((r.org.bundle.slots[i]?).getD 0).setWidth 64) ++
    [r.org.pc, r.next, r.npc.getD 1, w64 (flags (·.1) + 256 * flags (·.2.1))]) +
    ((r.org.slots[3]?).map fun p => (valBytes p.2.2).1).getD 0 <<< (8 * 256)

/-- The row sequencers (R41; log 18): 4 words each. -/
def jobWords (j : Job) : List Word :=
  let (k, r, a, x) := match j.dst with
    | .reg t => (0, t, 0, 0)
    | .portD fu => (1, fu, 0, 0)
    | .ta fu port => (2, fu, w64 port, 0)
    | .xpose => (3, 0, 0, 0)
    | .stt a => (4, 0, a, 0)
    | .stp a npl half => (5, 0, a, npl + 32 * half)
  let src := match j.src with | .reg t => w64 (1 + 16 * t) | .ent i _ => w64 (2 + 16 * i) | .const _ => w64 3
  [w64 (j.k + 16 * k + 256 * r + 65536 * x), a, src, j.fmt]

/-- Replay buffer, snapshot words and sequencers in their 4 KiB (R431; log 18). -/
def seqBytes (rp : Option Replay) (es : List SnapEnt) (i : Inflight) : Nat :=
  snapDesc es + ((rp.map replayBytes).getD 0) <<< (8 * 0x200) + packWords (i.jobs.flatMap jobWords) <<< (8 * 0xC00)

/-- The live tile registers of a saved member (R432). -/
def writeTiles (s : State) (m : Saved) : State :=
  ((List.range 16).filter fun t => m.live.testBit (32 + t)).foldl (fun s t =>
    s.wr (2 ^ 21 * m.area + 0x2000 + 2048 * t) (m.ctx.regs.treg t).toNat 2048) s

/-- Write the queue images that `p` selects at an address: four entries of a unit, an entry that never landed as the scalar 0
(R71, R432, R433). -/
def writeImages (s : State) (base : Nat) (p : Nat → Bool) (oq : KMap (List QEnt)) : State :=
  ((List.range 28).filter p).foldl (fun s fu => (List.range 4).foldl (fun s k =>
    let v := (((KMap.get [] oq fu)[k]?).map (·.val)).getD (.s 0)
    s.wr (base + 0x2000 * fu + 0x800 * k) (valBytes v).1 (valBytes v).2) s) s

/-- Write scalar, row and tile ports: the scalar ports at one address, the others at another (R431). -/
def writePorts (s : State) (a b : Nat) (ports : KMap Val) : State :=
  let c := { Ctx.reset with ports := ports }
  let s := s.wr a (packNat 64 (fun i => (((scalarPorts[i]?).map fun p => c.portW p.1 p.2).getD 0).toNat) 64) 512
  let s := wideRows.zipIdx.foldl (fun s p => s.wr (b + 256 * p.2) (c.portR p.1.1 p.1.2).toNat 256) s
  (s.wr (b + 0x500) (c.portT 10 3).toNat 2048).wr (b + 0xD00) (c.portT 11 3).toNat 2048

/-- Write a trap frame (R431; log 18): queue images, snapshot, ports, loop state and replay buffer. -/
def writeFrame (s : State) (a : Nat) (c : Ctx) (f : Frame) : State :=
  let es := snapEntries c f.inf
  let s := writePorts (writeImages s a (fun _ => true) f.oq) (a + 0x40000) (a + 0x40200) f.ports
  let s := s.wr (a + 0x38000) (snapBytes es) (listSum (es.map fun e => (valBytes e.val).2))
  let s := s.wr (a + 0x41C00) (packWords [f.lpcnt.setWidth 64, f.lplen.setWidth 64,
    wBool f.lpbrk + (f.lpstart.setWidth 64 <<< 5), f.npc.getD 1]) 32
  s.wr (a + 0x42000) (seqBytes f.replay es f.inf) 4096

/-- Write the items of a saved member (R431, R432; log 18). -/
def writeSave (s : State) (m : Saved) : State :=
  let c := m.ctx
  let a := 2 ^ 21 * m.area
  let es := snapEntries c c.inf
  let ctl := (List.range 35).map fun i =>
    if i = 10 ∨ (17 ≤ i ∧ i ≤ 20) ∨ 30 ≤ i then 0 else ctlRead s m.n c Core.reset i
  let s := s.wr a (packWords (saveHeader m)) 1024
  let s := s.wr (a + 0x400) (packWords ctl) 1024
  let s := s.wr (a + 0x800) (packWords ((List.range 32).map c.regs.sreg)) 256
  let s := s.wr (a + 0x900) (tokenBytes c) 256
  let s := s.wr (a + 0xA00) (packWords ((List.range 16).flatMap fun h => cbWords (c.cb h))) 512
  let s := s.wr (a + 0xC00) (skBytes c) 256
  let s := s.wr (a + 0xF00)
    (packWords ([c.baste.fw, c.baste.lrlen.setWidth 64, c.baste.llim.setWidth 64, wBool c.baste.lrdy] ++
      (c.baste.prods.take 16).map fun p => w64 (p.1.toNat * 2 ^ 40 + p.2.toNat))) 256
  let s := ((List.range 128).filter fun b => c.bmask.getLsbD b).foldl (fun s b =>
    let x := KMap.get Barrier.reset m.bars b
    s.wr (a + 0x1000 + 32 * b) (packWords [wBool x.cfg, x.conf.setWidth 64, x.arrc, x.phase]) 32) s
  let s := writePorts (writeTiles s m) (a + 0xD00) (a + 0xA000) c.ports
  let s := (s.wr (a + 0xB800) (tagBytes c) 2048).wr (a + 0xC000) (seqBytes c.replay es c.inf) 4096
  let s := writeImages s (a + 0x10000) (fun fu => m.live.testBit (48 + fu)) c.oq
  let s := s.wr (a + 0x48000) (snapBytes es) (listSum (es.map fun e => (valBytes e.val).2))
  let s := s.wr (a + 0x50000)
    (c.baste.stages.foldl (fun (v, k) e => (v + stageBytes e <<< (512 * k), k + e.len)) (0, 0)).1 (stagedBytes c)
  let s := match c.frame with | some f => if c.hdep then writeFrame s (a + 0x100000) c f else s | none => s
  let s := c.queues.foldl (fun s p => p.2.zipIdx.foldl (fun s q =>
    s.wr (a + 0x54000 + 0x1400 * saveQueue p.1 + 320 * q.2) (reissue m.ctx.ctl.bsCursor.toNat q.1) 320) s) s
  match m.matrix with
  | none => s
  | some x =>
    let s := s.wr (a + 0x61000) (packWords ((List.range 8).map (fun i => KMap.get 0 x.mp i) ++
      [x.xs.setWidth 64, x.pslX.setWidth 64 + (x.pslP.setWidth 64 <<< 16), x.wb])) 256
    ((List.range 64).filter fun p => x.wb.getLsbD p).foldl (fun s p =>
      s.wr (a + 0x62000 + 6144 * p) (KMap.get 0 x.acc p).toNat 6144) s

/-! ## Reading a save area (R434) -/

/-- A value of a kind at an address (R431). -/
def readVal (s : State) (a kind : Nat) : Val :=
  match kind with
  | 1 => .s (s.rd64 a)
  | 2 => .r (BitVec.ofNat 2048 (s.rd a 256))
  | 3 => .t (BitVec.ofNat 16384 (s.rd a 2048))
  | _ => .s 0

/-- Four queue entries of a unit that is live: their values from the area, their tags and numbers from the image. -/
def readQueue (s : State) (a : Nat) (c : Ctx) (fu : Nat) : List QEnt :=
  let kind (k : Nat) : Nat := fld (s.rd64 (a + 64 + 8 * ((8 * fu + 2 * k) / 64))) ((8 * fu + 2 * k) % 64) 2
  (List.range (c.image fu).length).map fun k =>
    { c.entry fu k with
      val := readVal s (a + 0x10000 + 0x2000 * fu + 0x800 * k) (kind k)
      tag := if 10 ≤ fu ∧ fu ≤ 13 then BitVec.ofNat 21 (s.rd (a + 0xB800 + 4 * (328 + 4 * (fu - 10) + k)) 4)
        else (c.entry fu k).tag }

/-- The control registers of an area (R105, R107). Those that name the context's place are the distributor's. -/
def readCtl (s : State) (a : Nat) (l : Ctl) : Ctl :=
  let w (i : Nat) : Word := s.rd64 (a + 0x400 + 8 * i)
  { l with
    fmt := w 0, flags := (w 1).setWidth _, asid := (w 8).setWidth 16, ptroot := (w 9).extractLsb' 12 36
    priv := (w 6).getLsbD 1, lpcnt := (w 12).setWidth 32, lplen := (w 13).setWidth 14, lpbrk := (w 14).getLsbD 0
    lpstart := (w 14).extractLsb' 5 18, old := (w 15).setWidth 16, ost := (w 16).setWidth 16, cpol := (w 21).setWidth 10
    trappc := (w 22).extractLsb' 5 18, trapcode := (w 23).setWidth 8, trapval := w 24, trapvec := (w 25).extractLsb' 5 18
    logsk := (w 26).setWidth 3, bsRec := (w 27).getLsbD 0, bsRun := (w 27).getLsbD 1, bsStat := (w 27).extractLsb' 2 2
    bsCursor := (w 27).extractLsb' 8 40, gbase := (w 28).extractLsb' 6 50, biasb := (w 29).extractLsb' 6 17 }

/-- A token of an area. -/
def readTok (s : State) (a i : Nat) : Token :=
  ⟨match s.rd (a + 0x908 + 16 * i) 1 % 4 with | 0 => .idle | 1 => .pending | _ => .written, s.rd64 (a + 0x900 + 16 * i)⟩

/-- A re-issue record of an area over the command that it was written from (R286). -/
def readCmd (s : State) (a : Nat) (q : Cmd) : Cmd :=
  let w (i : Nat) : Word := s.rd64 (a + 8 * i)
  { q with
    a0 := w 1, a1 := w 2, a2 := w 3, a3 := w 4, go := w 5, fmt := w 6, asid := (w 0).extractLsb' 16 16
    done := if q.fu = 23 ∧ q.port = 7 then q.done else (w 7).toNat
    shape := if q.fu = 16 ∧ q.port = 4 then (List.range q.shape.length).map fun i => w (8 + i) else q.shape }

/-- Items of a list by number, those that hold a default left out. -/
def kmapOf {α : Type} [DecidableEq α] (d : α) (n : Nat) (f : Nat → α) : KMap α :=
  (List.range n).foldl (fun m i => KMap.set d m i (f i)) []

/-- A saved member with the items of its area as they stand there (R434): those that R431 lays out, and those whose layout is
log 18's. What is in flight, a trap frame, a replay buffer and staged entries come from the image. -/
def readSave (s : State) (m : Saved) : Saved :=
  let a := 2 ^ 21 * m.area
  let c := m.ctx
  let words (o n : Nat) : List Word := (List.range n).map fun i => s.rd64 (a + o + 8 * i)
  let w1 := s.rd64 (a + 8)
  let pc := w64 (32 * fld w1 5 18)
  let row (i : Nat) : Val := .r (BitVec.ofNat 2048 (s.rd (a + 0xA000 + 256 * i) 256))
  let tile (i : Nat) : Val := .t (BitVec.ofNat 16384 (s.rd (a + 0xA500 + 2048 * i) 2048))
  let port (p : Nat × Val) : Nat × Val :=
    match scalarPorts.findIdx? fun x => 4 * x.1 + x.2 = p.1, wideRows.findIdx? fun x => 4 * x.1 + x.2 = p.1 with
    | some i, _ => (p.1, .s (s.rd64 (a + 0xD00 + 8 * i)))
    | _, some i => (p.1, row i)
    | _, _ => if p.1 = 43 then (p.1, tile 0) else if p.1 = 47 then (p.1, tile 1) else p
  let tags := (tagKeys.zipIdx).foldl (fun t k => KMap.set 0 t k.1 (BitVec.ofNat 20 (s.rd (a + 0xB800 + 4 * k.2) 4)))
    (c.regs.tags.filter fun p => !tagKeys.contains p.1)
  let live (i : Nat) : Bool := m.live.testBit i
  { m with
    bars := ((List.range 128).filter fun b => c.bmask.getLsbD b).foldl (fun l b =>
      let w := words (0x1000 + 32 * b) 4
      KMap.set Barrier.reset l b ⟨(wordAt w 0).getLsbD 0, (wordAt w 1).setWidth 58, wordAt w 2, wordAt w 3⟩) []
    matrix := m.matrix.map fun x =>
      let w := words 0x61000 11
      { x with
        mp := kmapOf 0 8 (wordAt w), xs := (wordAt w 8).setWidth 16, pslX := (wordAt w 9).setWidth 16
        pslP := (wordAt w 9).extractLsb' 16 6, wb := wordAt w 10
        acc := ((List.range 64).filter fun p => (wordAt w 10).getLsbD p).foldl (fun l p =>
          KMap.set 0 l p (BitVec.ofNat 49152 (s.rd (a + 0x62000 + 6144 * p) 6144))) [] }
    ctx := { c with
      pc := if c.replay.isSome then c.pc else pc
      ctl := readCtl s a c.ctl
      regs := { c.regs with
        s := kmapOf 0 32 fun i => if live i then s.rd64 (a + 0x800 + 8 * i) else 0
        g := BitVec.ofNat 8 (s.rd (a + 16) 1)
        t := kmapOf 0 16 fun i => if live (32 + i) then BitVec.ofNat 16384 (s.rd (a + 0x2000 + 2048 * i) 2048) else 0
        tags := tags }
      oq := (c.oq.filter fun p => live (48 + p.1)).map fun p => (p.1, readQueue s a c p.1)
      ports := c.ports.map port
      toks := kmapOf Token.reset 16 (readTok s a)
      cbs := c.cbs.map fun p => (p.1, cbOf p.2 (words (0xA00 + 32 * p.1) 4))
      sks := c.sks.map fun p => (p.1, skFrom (words (0xC00 + 32 * p.1) 4))
      queues := c.queues.map fun p => (p.1, p.2.zipIdx.map fun q =>
        readCmd s (a + 0x54000 + 0x1400 * saveQueue p.1 + 320 * q.2) q.1)
      baste := { c.baste with
        fw := s.rd64 (a + 0xF00), lrlen := (s.rd64 (a + 0xF08)).setWidth 40, llim := (s.rd64 (a + 0xF10)).setWidth 40
        lrdy := (s.rd64 (a + 0xF18)).getLsbD 0
        prods := (List.range (min 16 c.baste.prods.length)).map fun i =>
          ((s.rd64 (a + 0xF20 + 8 * i)).extractLsb' 40 12, (s.rd64 (a + 0xF20 + 8 * i)).setWidth 40) } } }

/-! ## The save (R429, R432, R400) -/

/-- Counter adds of the context that are under way and belong to no other saved image. -/
def addsOf (s : State) (n : Nat) (c : Ctx) : List Nat :=
  let others := s.dist.kerns.flatMap fun k => k.saved.flatMap (·.adds)
  let own (r : Req) : Bool := match r.src with
    | .ctxAdd m => decide (m = n)
    | .engine m _ => decide (m = n)
    | _ => false
  (((s.reqs.filter fun p => own p.2).map (·.1)) ++ c.creqs.map (·.id)).filter fun i => !others.contains i

/-- Reports and completions of the crew's barriers that are still on their way reach their nodes and its cores (R400); other
crews learn a completion when it is due. -/
def settleBars (s : State) (ns : List Nat) : State :=
  let reports := s.barMsgs.filter fun p => p.2.tos = [] && ns.contains p.2.n
  let s := reports.foldl (fun s p => match execBarrierReport p.1 s with | .next t => t | _ => s) s
  let own := s.barMsgs.filter fun p => p.2.tos.any ns.contains
  let s := own.foldl (fun s p => (p.2.tos.filter ns.contains).foldl (phaseAt p.2) s) s
  let rest (p : Nat × BarMsg) : Option (Nat × BarMsg) :=
    if p.2.tos = [] then some p
    else
      let l := p.2.tos.filter fun n => !ns.contains n
      if l = [] then none else some (p.1, { p.2 with tos := l })
  { s with barMsgs := s.barMsgs.filterMap rest }

/-- The node records that a member's barriers have reports in. -/
def nodesOf (s : State) (n : Nat) : List BarNode :=
  (s.core (coreOf n)).bars.filterMap fun p =>
    if (s.ctx n).bmask.getLsbD p.1 && p.2.cfg then
      s.barNodes.find? fun x => x.is (cfScope p.2.conf) (barInst (cfScope p.2.conf) n) p.1 (cfGroup p.2.conf)
    else none

/-- Save one member: its image, its matrix and barrier items, and the bytes of its save area. -/
def saveMember (s : State) (n area : Nat) : Saved × State :=
  let k := s.core (coreOf n)
  let c := s.ctx n
  let kept := keptBits (liveBits s n c.resumePc ||| c.kept) c
  let matrix := if k.matrix.owner = some n then
      some { k.matrix with acc := k.matrix.acc.filter fun p => k.matrix.wb.getLsbD p.1, ustore := [] } else none
  let m : Saved :=
    { rank := c.ctl.rank.toNat, n := n, ctx := liveImage kept c, matrix := matrix
      bars := k.bars.filter fun p => c.bmask.getLsbD p.1, area := area, wait := 0, adds := addsOf s n c
      live := kept }
  let m := { m with wait := waitWord s m }
  (m, writeSave s m)

/-- A saved member leaves its hardware context and core (R443, R426). The run floor stays (R321). -/
def leaveCtx (s : State) (n : Nat) : State :=
  let c := s.ctx n
  let s := if (s.core (coreOf n)).matrix.owner = some n then
      (releaseGrant s (coreOf n)).updCore (coreOf n) fun k => { k with matrix := { k.matrix with owner := none, step := none } }
    else s
  (s.updCore (coreOf n) fun k =>
    { k with bars := k.bars.filter fun p => !c.bmask.getLsbD p.1, staged := k.staged - stagedBytes c }).setCtx n c.freed

/-- PREEMPTION_SAVE (R429, R431-R433, R400): once the last member's save stage has ended and all queues are quiet, every
member's image is saved, and the kernel is Pre-empted. -/
def execPreemptionSave (kid : Nat) (s : State) : Out :=
  match s.dist.kerns.find? fun k => k.kid = BitVec.ofNat 32 kid with
  | none => .next s
  | some k =>
    let l := liveMembers s k
    let again := s.cal.any fun t => t.ev = .preemptionSave kid
    if k.st ≠ .stopping ∨ again ∨ !(l.all fun n => (s.ctx n).st = .saving && (s.ctx n).quiet) then .next s
    else
      let s := settleBars s l
      let nodes := (l.flatMap (nodesOf s)).eraseDups
      let (ms, s) := (l.zip k.areas).foldl (fun (p : List Saved × State) x =>
        let (m, t) := saveMember p.2 x.1 x.2
        (p.1 ++ [m], t)) ([], s)
      let s := { s with barNodes := s.barNodes.filter fun x => !nodes.contains x }
      let s := l.foldl leaveCtx s
      let s := updKern s k.kid fun k => { k with st := .preempted, saved := ms, nodes := nodes, areas := [] }
      .next (s.bbAdd 2 0 k.kid whoNone 0)

/-- LATE_PRODUCER_SAVE_WRITE (R433, R191, R238, R378): the token words, tile rows, skein handles, FLAGS and w12 of save area `key`. -/
def execLateProducerSaveWrite (key : Nat) (s : State) : Out :=
  match (s.dist.kerns.flatMap (·.saved)).find? fun m => m.area = key with
  | none => .next s
  | some m =>
    let w := waitWord s m
    let a := 2 ^ 21 * key
    let ks := s.dist.kerns.map fun k => { k with saved := listUpd (fun m => m.area = key) (fun m => { m with wait := w }) k.saved }
    let s := { s with dist := { s.dist with kerns := ks } }
    let s := (writeTiles (s.wr (a + 0x900) (tokenBytes m.ctx) 256) m).wr (a + 0xC00) (skBytes m.ctx) 256
    .next ((s.wr64 (a + 0x408) (m.ctx.ctl.flags.setWidth 64)).wr64 (a + 0x60) (w.setWidth 64))

/-! ## Resumption (R434) -/

/-- Move a crew's arenas to their new places, bytes unchanged. -/
def moveArenas (s : State) (k : Kern) : State :=
  let n := 65536 * rAsz k.words
  let pa (a : Nat × Nat) : Nat := vaultPA a.1 (65536 * a.2)
  let moves := (k.oldArenas.zip k.arenas).filter fun p => p.1 ≠ p.2
  let data := moves.map fun p => (pa p.2, s.rd (pa p.1) n)
  data.foldl (fun s d => loadRange s d.1 n d.2 n) s

/-- Ask the arbiter again for a saved grant (R434, R443). -/
def askGrant (s : State) (n : Nat) (w : BitVec 16) : State :=
  let c := coreOf n
  let m := (s.core c).matrix
  if w = 0 ∨ m.grant ≠ 0 ∨ m.leave.isSome then s
  else
    let s := s.updCore c fun k => { k with matrix := { k.matrix with leave := some (n, w, 0, true) } }
    let l := KMap.get [] s.leaveReqs (c / 256) ++ [⟨c, w, none⟩]
    { s with leaveReqs := KMap.set [] s.leaveReqs (c / 256) l }.at (s.clk + 1) false (.leaveGrant (c / 256))

/-- The grant that a saved member held. -/
def savedGrant (m : Saved) : BitVec 16 := (m.matrix.map (·.grant)).getD 0

/-- The context on which a saved member resumes. -/
def newCtx (k : Kern) (m : Saved) : Nat := k.members[m.rank]?.getD 0

/-- Is a saved member's item still outstanding: a late producer, a command under way, or its grant? -/
def notReady (s : State) (k : Kern) (m : Saved) : Bool :=
  m.wait ≠ 0 || waitWord s m ≠ 0 || lateOf s m || (m.ctx.queues.any fun p => p.2.any fun q => q.st = .running) ||
    (savedGrant m ≠ 0 && (s.core (coreOf (newCtx k m))).matrix.grant = 0)

/-- Give a restored matrix unit to its core (R213, R434): saved patches, every other patch 0. -/
def restoreMatrix (s : State) (n : Nat) (x : Matrix) : State :=
  let c := coreOf n
  let s := s.updCore c fun k => { k with matrix :=
    { x with
      owner := some n, ustore := k.matrix.ustore, grant := k.matrix.grant, leave := none
      acc := x.acc.foldl (fun m p => KMap.put m p.1 p.2) (clearPatches k.matrix)
      step := x.step.map fun m => { m with n := n } } }
  match x.leave with
  | none => s
  | some (_, w, tk, ntk) =>
    let s := s.updCore c fun k => { k with matrix := { k.matrix with leave := some (n, w, tk, ntk) } }
    let l := KMap.get [] s.leaveReqs (c / 256) ++ [⟨c, w, if w = 0 then some (s.clk + 1) else none⟩]
    { s with leaveReqs := KMap.set [] s.leaveReqs (c / 256) l }.at (s.clk + 1) false (.leaveGrant (c / 256))

/-- What stands in an image at physical addresses of its arena moves with the arena: stores of row sequencers and the
accesses of a replay buffer (R26, R434). -/
def moveImage (c : Ctx) (old new : Nat) : Ctx :=
  let at' (pa : Nat) : Nat := pa - old + new
  let job (j : Job) : Job :=
    { j with dst := match j.dst with
      | .stt a => .stt (w64 (at' a.toNat))
      | .stp a npl half => .stp (w64 (at' a.toNat)) npl half
      | d => d }
  let inf (i : Inflight) : Inflight := { i with jobs := i.jobs.map job }
  let rep (r : Replay) : Replay := { r with accs := r.accs.map fun a =>
    { a with segs := a.segs.map fun g => { g with pa := at' g.pa } } }
  { c with
    inf := inf c.inf, replay := c.replay.map rep
    frame := c.frame.map fun f => { f with inf := inf f.inf, replay := f.replay.map rep } }

/-- Restore one member on its new context (R434, R435, R287). The context's own count of remote atomics goes on (R195), and
so does a queue of a killed kernel that waits for its release (R426). -/
def restoreMember (k : Kern) (s : State) (m : Saved) : State :=
  let m := readSave s m
  let n := newCtx k m
  let old := s.ctx n
  let x := moveImage m.ctx (arenaPA m.ctx (quadOf m.n) 0) (vaultPA (quadOf n) (65536 * (baseOn k n).toNat))
  let c : Ctx :=
    { x with
      st := if x.fenced then .frozenV else x.workSt
      queues := old.dead.foldl (fun q p => KMap.put q p.1 (p.2 ++ KMap.get [] q p.1)) x.queues
      qfence := old.qfence.foldl (fun q p => KMap.put q p.1 p.2) x.qfence
      side := old.side, latSeq := old.latSeq, quads := quadsOn k n, bases := basesOn k n, readySince := s.clk, stopDist := false, quiet := false, blocked := false, kept := 0
      ctl := { x.ctl with arenaBase := baseOn k n, stopf := false } }
  let s := s.setCtx n c
  let s := s.updCore (coreOf n) fun q =>
    { q with bars := m.bars.foldl (fun b p => KMap.put b p.1 p.2) q.bars, staged := q.staged + stagedBytes x }
  let s := match m.matrix with | some y => restoreMatrix s n y | none => s
  goAgain (setFloor s (coreOf n)) n

/-- The node records of a member's barriers, at the instances of its new context (R400). -/
def movedNodes (k : Kern) (m : Saved) : List BarNode :=
  let moved (n : Nat) : Nat := ((k.saved.find? fun x => x.n = n).map (newCtx k)).getD n
  m.bars.filterMap fun p =>
    let sc := cfScope p.2.conf
    if p.2.cfg then
      (k.nodes.find? fun x => x.is sc (barInst sc m.n) p.1 (cfGroup p.2.conf)).map fun x =>
        { x with
          inst := barInst sc (newCtx k m)
          counts := x.counts.map fun c => { c with ctxs := c.ctxs.map moved } }
    else none

/-- Restore a whole crew and start it in one clk. -/
def restoreCrew (s : State) (k : Kern) : State :=
  let nodes := (k.saved.flatMap (movedNodes k)).eraseDups
  let s := { s with barNodes := s.barNodes ++ nodes }
  let s := updKern s k.kid fun k => { k with st := .running, placedAt := s.clk, saved := [], nodes := [] }
  k.saved.foldl (restoreMember k) s

/-- RESUMPTION (R434): the arenas move; routine images are loaded and saved grants asked for; once nothing of the crew is
outstanding every member is restored and starts. -/
def execResumption (kid : Nat) (s : State) : Out :=
  match s.dist.kerns.find? fun k => k.kid = BitVec.ofNat 32 kid with
  | none => .next s
  | some k =>
    if k.st ≠ .placing then .next s
    else if k.oldArenas ≠ [] then
      let s := updKern (moveArenas s k) k.kid fun k => { k with oldArenas := [] }
      if rMxu k.words && rRimg k.words ≠ 0 then
        match (readVirt (distAgent k.words) (rRimg k.words) (16 * (rDirn k.words + rMwn k.words))).run s with
        | (.error f, t) => .next (placeFault t k f)
        | (.ok v, t) =>
          let t := k.saved.foldl (fun t m => loadRoutines (routineWords k.words v) t (coreOf (newCtx k m))) t
          .next (t.within 1 64 (.resumption kid))
      else .next (s.within 1 64 (.resumption kid))
    else
      let s := k.saved.foldl (fun s m => askGrant s (newCtx k m) (savedGrant m)) s
      if k.saved.any (notReady s k) then .next (s.within 1 16 (.resumption kid))
      else .next (restoreCrew s k)

end Sys2Proof.Machine
end

