-- ==== Sys2Proof/Machine/Dispatch.lean ====
section
/-!
DEFINITION. One arm per constructor of the instruction set: a direct call of its meaning.
-/

namespace Sys2Proof.Machine

def exec (i : Instr) (s : State) : Host.Outcome State Fault Refusal :=
  match i with
  | .operandPortWrite g f p src => Sys2Proof.Machine.execOperandPortWrite g f p src s
  | .scalarRegisterWrite g r src => Sys2Proof.Machine.execScalarRegisterWrite g r src s
  | .guardWrite g r src => Sys2Proof.Machine.execGuardWrite g r src s
  | .tileRowWrite g t src => Sys2Proof.Machine.execTileRowWrite g t src s
  | .wholeTileWrite g t src => Sys2Proof.Machine.execWholeTileWrite g t src s
  | .saAdd g u src => Sys2Proof.Machine.execSaAdd g u src s
  | .saSub g u src => Sys2Proof.Machine.execSaSub g u src s
  | .saAnd g u src => Sys2Proof.Machine.execSaAnd g u src s
  | .saOr g u src => Sys2Proof.Machine.execSaOr g u src s
  | .saXor g u src => Sys2Proof.Machine.execSaXor g u src s
  | .saAndn g u src => Sys2Proof.Machine.execSaAndn g u src s
  | .saShl g u src => Sys2Proof.Machine.execSaShl g u src s
  | .saShr g u src => Sys2Proof.Machine.execSaShr g u src s
  | .saSra g u src => Sys2Proof.Machine.execSaSra g u src s
  | .saRotl g u src => Sys2Proof.Machine.execSaRotl g u src s
  | .saEq g u src => Sys2Proof.Machine.execSaEq g u src s
  | .saNe g u src => Sys2Proof.Machine.execSaNe g u src s
  | .saLt g u src => Sys2Proof.Machine.execSaLt g u src s
  | .saLtu g u src => Sys2Proof.Machine.execSaLtu g u src s
  | .saLe g u src => Sys2Proof.Machine.execSaLe g u src s
  | .saLeu g u src => Sys2Proof.Machine.execSaLeu g u src s
  | .saMin g u src => Sys2Proof.Machine.execSaMin g u src s
  | .saMinu g u src => Sys2Proof.Machine.execSaMinu g u src s
  | .saMax g u src => Sys2Proof.Machine.execSaMax g u src s
  | .saMaxu g u src => Sys2Proof.Machine.execSaMaxu g u src s
  | .saSel g u src => Sys2Proof.Machine.execSaSel g u src s
  | .saClz g u src => Sys2Proof.Machine.execSaClz g u src s
  | .saCtz g u src => Sys2Proof.Machine.execSaCtz g u src s
  | .saPopc g u src => Sys2Proof.Machine.execSaPopc g u src s
  | .saSxt g u src => Sys2Proof.Machine.execSaSxt g u src s
  | .saLea g u src => Sys2Proof.Machine.execSaLea g u src s
  | .smMul g src => Sys2Proof.Machine.execSmMul g src s
  | .smMulh g src => Sys2Proof.Machine.execSmMulh g src s
  | .smMulhu g src => Sys2Proof.Machine.execSmMulhu g src s
  | .smDiv g src => Sys2Proof.Machine.execSmDiv g src s
  | .smDivu g src => Sys2Proof.Machine.execSmDivu g src s
  | .smRem g src => Sys2Proof.Machine.execSmRem g src s
  | .smRemu g src => Sys2Proof.Machine.execSmRemu g src s
  | .brJmp g src => Sys2Proof.Machine.execBrJmp g src s
  | .brCall g src => Sys2Proof.Machine.execBrCall g src s
  | .brRet g src => Sys2Proof.Machine.execBrRet g src s
  | .brJrel g src => Sys2Proof.Machine.execBrJrel g src s
  | .lpLoop g src => Sys2Proof.Machine.execLpLoop g src s
  | .lpBrk g src => Sys2Proof.Machine.execLpBrk g src s
  | .lpCnt g src => Sys2Proof.Machine.execLpCnt g src s
  | .backEdgeAction n => Sys2Proof.Machine.execBackEdgeAction n s
  | .cxRd g src => Sys2Proof.Machine.execCxRd g src s
  | .cxWr g src => Sys2Proof.Machine.execCxWr g src s
  | .cxFmt g src => Sys2Proof.Machine.execCxFmt g src s
  | .cxFlg g src => Sys2Proof.Machine.execCxFlg g src s
  | .fmtShadowExpiry n => Sys2Proof.Machine.execFmtShadowExpiry n s
  | .ctAdd g src => Sys2Proof.Machine.execCtAdd g src s
  | .ctWait g src => Sys2Proof.Machine.execCtWait g src s
  | .ctOwait g src => Sys2Proof.Machine.execCtOwait g src s
  | .ctTwait g src => Sys2Proof.Machine.execCtTwait g src s
  | .ctArv g src => Sys2Proof.Machine.execCtArv g src s
  | .ctBwt g src => Sys2Proof.Machine.execCtBwt g src s
  | .ctBcfg g src => Sys2Proof.Machine.execCtBcfg g src s
  | .syTrap g src => Sys2Proof.Machine.execSyTrap g src s
  | .syRfe g src => Sys2Proof.Machine.execSyRfe g src s
  | .syStop g src => Sys2Proof.Machine.execSyStop g src s
  | .syRel g src => Sys2Proof.Machine.execSyRel g src s
  | .sySnap g src => Sys2Proof.Machine.execSySnap g src s
  | .lsLds g src => Sys2Proof.Machine.execLsLds g src s
  | .lsSts g src => Sys2Proof.Machine.execLsSts g src s
  | .lsLdr g src => Sys2Proof.Machine.execLsLdr g src s
  | .lsStr g src => Sys2Proof.Machine.execLsStr g src s
  | .lsLdt g src => Sys2Proof.Machine.execLsLdt g src s
  | .lsStt g src => Sys2Proof.Machine.execLsStt g src s
  | .lsLdp g src => Sys2Proof.Machine.execLsLdp g src s
  | .lsStp g src => Sys2Proof.Machine.execLsStp g src s
  | .lsLat g src => Sys2Proof.Machine.execLsLat g src s
  | .atSwap g src => Sys2Proof.Machine.execAtSwap g src s
  | .atCas g src => Sys2Proof.Machine.execAtCas g src s
  | .atAdd g src => Sys2Proof.Machine.execAtAdd g src s
  | .atAnd g src => Sys2Proof.Machine.execAtAnd g src s
  | .atOr g src => Sys2Proof.Machine.execAtOr g src s
  | .atXor g src => Sys2Proof.Machine.execAtXor g src s
  | .atMin g src => Sys2Proof.Machine.execAtMin g src s
  | .atMax g src => Sys2Proof.Machine.execAtMax g src s
  | .atMinu g src => Sys2Proof.Machine.execAtMinu g src s
  | .atMaxu g src => Sys2Proof.Machine.execAtMaxu g src s
  | .atAaddx g src => Sys2Proof.Machine.execAtAaddx g src s
  | .taFadd g u src => Sys2Proof.Machine.execTaFadd g u src s
  | .taFsub g u src => Sys2Proof.Machine.execTaFsub g u src s
  | .taFmul g u src => Sys2Proof.Machine.execTaFmul g u src s
  | .taFma g u src => Sys2Proof.Machine.execTaFma g u src s
  | .taFmax g u src => Sys2Proof.Machine.execTaFmax g u src s
  | .taFmin g u src => Sys2Proof.Machine.execTaFmin g u src s
  | .taFcmp g u src => Sys2Proof.Machine.execTaFcmp g u src s
  | .taIadd g u src => Sys2Proof.Machine.execTaIadd g u src s
  | .taIsub g u src => Sys2Proof.Machine.execTaIsub g u src s
  | .taImul g u src => Sys2Proof.Machine.execTaImul g u src s
  | .taImin g u src => Sys2Proof.Machine.execTaImin g u src s
  | .taImax g u src => Sys2Proof.Machine.execTaImax g u src s
  | .taAnd g u src => Sys2Proof.Machine.execTaAnd g u src s
  | .taOr g u src => Sys2Proof.Machine.execTaOr g u src s
  | .taXor g u src => Sys2Proof.Machine.execTaXor g u src s
  | .taShl g u src => Sys2Proof.Machine.execTaShl g u src s
  | .taShr g u src => Sys2Proof.Machine.execTaShr g u src s
  | .taSra g u src => Sys2Proof.Machine.execTaSra g u src s
  | .taIcmp g u src => Sys2Proof.Machine.execTaIcmp g u src s
  | .taSel g u src => Sys2Proof.Machine.execTaSel g u src s
  | .taFaddt g u src => Sys2Proof.Machine.execTaFaddt g u src s
  | .taFsubt g u src => Sys2Proof.Machine.execTaFsubt g u src s
  | .taFmult g u src => Sys2Proof.Machine.execTaFmult g u src s
  | .taFmaxt g u src => Sys2Proof.Machine.execTaFmaxt g u src s
  | .txCvt g src => Sys2Proof.Machine.execTxCvt g src s
  | .txQnt g src => Sys2Proof.Machine.execTxQnt g src s
  | .txDqnt g src => Sys2Proof.Machine.execTxDqnt g src s
  | .txExp g src => Sys2Proof.Machine.execTxExp g src s
  | .txLog g src => Sys2Proof.Machine.execTxLog g src s
  | .txRcp g src => Sys2Proof.Machine.execTxRcp g src s
  | .txRsq g src => Sys2Proof.Machine.execTxRsq g src s
  | .txSqrt g src => Sys2Proof.Machine.execTxSqrt g src s
  | .txTanh g src => Sys2Proof.Machine.execTxTanh g src s
  | .txSigm g src => Sys2Proof.Machine.execTxSigm g src s
  | .txErf g src => Sys2Proof.Machine.execTxErf g src s
  | .tsPerm g src => Sys2Proof.Machine.execTsPerm g src s
  | .tsXpose g src => Sys2Proof.Machine.execTsXpose g src s
  | .tsRsum g src => Sys2Proof.Machine.execTsRsum g src s
  | .tsRmax g src => Sys2Proof.Machine.execTsRmax g src s
  | .tsRmin g src => Sys2Proof.Machine.execTsRmin g src s
  | .tsAmax g src => Sys2Proof.Machine.execTsAmax g src s
  | .tsScan g src => Sys2Proof.Machine.execTsScan g src s
  | .tsSmax g src => Sys2Proof.Machine.execTsSmax g src s
  | .tsMask g src => Sys2Proof.Machine.execTsMask g src s
  | .tsBias g src => Sys2Proof.Machine.execTsBias g src s
  | .mxCall g src => Sys2Proof.Machine.execMxCall g src s
  | .mxMld g src => Sys2Proof.Machine.execMxMld g src s
  | .mxParm g src => Sys2Proof.Machine.execMxParm g src s
  | .scXld g src => Sys2Proof.Machine.execScXld g src s
  | .scXadd g src => Sys2Proof.Machine.execScXadd g src s
  | .stepOperandRead c => Sys2Proof.Machine.execStepOperandRead c s
  | .latchSample c => Sys2Proof.Machine.execLatchSample c s
  | .stepCommit c => Sys2Proof.Machine.execStepCommit c s
  | .ceGo g src => Sys2Proof.Machine.execCeGo g src s
  | .ceCmp g src => Sys2Proof.Machine.execCeCmp g src s
  | .geGo g src => Sys2Proof.Machine.execGeGo g src s
  | .geSkg g src => Sys2Proof.Machine.execGeSkg g src s
  | .weGo g src => Sys2Proof.Machine.execWeGo g src s
  | .rsGo g src => Sys2Proof.Machine.execRsGo g src s
  | .rsQry g src => Sys2Proof.Machine.execRsQry g src s
  | .npSend g src => Sys2Proof.Machine.execNpSend g src s
  | .npRow g src => Sys2Proof.Machine.execNpRow g src s
  | .cbSet g src => Sys2Proof.Machine.execCbSet g src s
  | .cbAdv g src => Sys2Proof.Machine.execCbAdv g src s
  | .cbRel g src => Sys2Proof.Machine.execCbRel g src s
  | .cbQry g src => Sys2Proof.Machine.execCbQry g src s
  | .cbAdvPpAdvance n => Sys2Proof.Machine.execCbAdvPpAdvance n s
  | .skOpen g src => Sys2Proof.Machine.execSkOpen g src s
  | .skRes g src => Sys2Proof.Machine.execSkRes g src s
  | .skCmt g src => Sys2Proof.Machine.execSkCmt g src s
  | .skFork g src => Sys2Proof.Machine.execSkFork g src s
  | .skRel g src => Sys2Proof.Machine.execSkRel g src s
  | .skLen g src => Sys2Proof.Machine.execSkLen g src s
  | .skPidx g src => Sys2Proof.Machine.execSkPidx g src s
  | .skPins g src => Sys2Proof.Machine.execSkPins g src s
  | .skCmpt g src => Sys2Proof.Machine.execSkCmpt g src s
  | .skResWindowGrant pa => Sys2Proof.Machine.execSkResWindowGrant pa s
  | .skCommandComplete n => Sys2Proof.Machine.execSkCommandComplete n s
  | .blBast g src => Sys2Proof.Machine.execBlBast g src s
  | .blBstop g src => Sys2Proof.Machine.execBlBstop g src s
  | .blMark g src => Sys2Proof.Machine.execBlMark g src s
  | .blUnpk g src => Sys2Proof.Machine.execBlUnpk g src s
  | .blFlag g src => Sys2Proof.Machine.execBlFlag g src s
  | .logEntryWrite n => Sys2Proof.Machine.execLogEntryWrite n s
  | .unpickEntry n => Sys2Proof.Machine.execUnpickEntry n s
  | .lnLnch g src => Sys2Proof.Machine.execLnLnch g src s
  | .lnQuit g src => Sys2Proof.Machine.execLnQuit g src s
  | .memberRetire n => Sys2Proof.Machine.execMemberRetire n s
  | .ptLoad g src => Sys2Proof.Machine.execPtLoad g src s
  | .ptUnld g src => Sys2Proof.Machine.execPtUnld g src s
  | .ptQry g src => Sys2Proof.Machine.execPtQry g src s
  | .ptStry g src => Sys2Proof.Machine.execPtStry g src s
  | .ptClr g src => Sys2Proof.Machine.execPtClr g src s
  | .xlSda g src => Sys2Proof.Machine.execXlSda g src s
  | .xlSdk g src => Sys2Proof.Machine.execXlSdk g src s
  | .xlPrb g src => Sys2Proof.Machine.execXlPrb g src s
  | .shootdownComplete n => Sys2Proof.Machine.execShootdownComplete n s
  | .pwReq g src => Sys2Proof.Machine.execPwReq g src s
  | .pwLim g src => Sys2Proof.Machine.execPwLim g src s
  | .leaveGrant d => Sys2Proof.Machine.execLeaveGrant d s
  | .bundleBlock => Sys2Proof.Machine.execBundleBlock s
  | .blockedBundleIssue n => Sys2Proof.Machine.execBlockedBundleIssue n s
  | .resultLanding n => Sys2Proof.Machine.execResultLanding n s
  | .tileSequencerRow n => Sys2Proof.Machine.execTileSequencerRow n s
  | .localAccessPerform c => Sys2Proof.Machine.execLocalAccessPerform c s
  | .lateralPerform n id => Sys2Proof.Machine.execLateralPerform n id s
  | .lateralCompletion n id => Sys2Proof.Machine.execLateralCompletion n id s
  | .translationWalk n => Sys2Proof.Machine.execTranslationWalk n s
  | .windowExpiry c => Sys2Proof.Machine.execWindowExpiry c s
  | .faultDelivery n => Sys2Proof.Machine.execFaultDelivery n s
  | .stopRequest n => Sys2Proof.Machine.execStopRequest n s
  | .engineQuiesceComplete n => Sys2Proof.Machine.execEngineQuiesceComplete n s
  | .preemptionSave kid => Sys2Proof.Machine.execPreemptionSave kid s
  | .lateProducerSaveWrite key => Sys2Proof.Machine.execLateProducerSaveWrite key s
  | .selectionRound => Sys2Proof.Machine.execSelectionRound s
  | .resumption kid => Sys2Proof.Machine.execResumption kid s
  | .recordAcceptance => Sys2Proof.Machine.execRecordAcceptance s
  | .dependenceMet kid => Sys2Proof.Machine.execDependenceMet kid s
  | .engineChunkComplete n fu => Sys2Proof.Machine.execEngineChunkComplete n fu s
  | .engineAccessFault n fu => Sys2Proof.Machine.execEngineAccessFault n fu s
  | .packetHeaderArrival h ch => Sys2Proof.Machine.execPacketHeaderArrival h ch s
  | .outputPortGrant h p => Sys2Proof.Machine.execOutputPortGrant h p s
  | .vcCreditReturn h ch => Sys2Proof.Machine.execVcCreditReturn h ch s
  | .circuitSlot h => Sys2Proof.Machine.execCircuitSlot h s
  | .flowPacketAccept h ch => Sys2Proof.Machine.execFlowPacketAccept h ch s
  | .emission h e => Sys2Proof.Machine.execEmission h e s
  | .creditReplyArrival h ch => Sys2Proof.Machine.execCreditReplyArrival h ch s
  | .deliverChunk h e => Sys2Proof.Machine.execDeliverChunk h e s
  | .npInjection n => Sys2Proof.Machine.execNpInjection n s
  | .patternValidate => Sys2Proof.Machine.execPatternValidate s
  | .patternActivation pid => Sys2Proof.Machine.execPatternActivation pid s
  | .patternRetirement pid => Sys2Proof.Machine.execPatternRetirement pid s
  | .reshardPhaseStart id => Sys2Proof.Machine.execReshardPhaseStart id s
  | .gatewayPacketForward id => Sys2Proof.Machine.execGatewayPacketForward id s
  | .pairDigestCompare k => Sys2Proof.Machine.execPairDigestCompare k s
  | .linkFlitReceive l => Sys2Proof.Machine.execLinkFlitReceive l s
  | .linkResend l => Sys2Proof.Machine.execLinkResend l s
  | .retrainComplete l => Sys2Proof.Machine.execRetrainComplete l s
  | .counterAddPerformed id => Sys2Proof.Machine.execCounterAddPerformed id s
  | .counterWaitPerformed id => Sys2Proof.Machine.execCounterWaitPerformed id s
  | .counterWaitResend id => Sys2Proof.Machine.execCounterWaitResend id s
  | .requestTimeout id => Sys2Proof.Machine.execRequestTimeout id s
  | .barrierReport id => Sys2Proof.Machine.execBarrierReport id s
  | .barrierPhaseUpdate id => Sys2Proof.Machine.execBarrierPhaseUpdate id s
  | .podBarrierPacket id => Sys2Proof.Machine.execPodBarrierPacket id s
  | .goWordWrite n fu port v => Sys2Proof.Machine.execGoWordWrite n fu port v s
  | .controlBlockRegisterWrite n no v => Sys2Proof.Machine.execControlBlockRegisterWrite n no v s
  | .registerWrite off v => Sys2Proof.Machine.execRegisterWrite off v s
  | .bootlenWrite v => Sys2Proof.Machine.execBootlenWrite v s
  | .bootVerifyDone => Sys2Proof.Machine.execBootVerifyDone s
  | .modnWrite v => Sys2Proof.Machine.execModnWrite v s
  | .plimWrite v => Sys2Proof.Machine.execPlimWrite v s
  | .svbaseWrite v => Sys2Proof.Machine.execSvbaseWrite v s
  | .yelnakRead tag => Sys2Proof.Machine.execYelnakRead tag s
  | .yelnakWrite tag => Sys2Proof.Machine.execYelnakWrite tag s
  | .yelnakLaunch tag => Sys2Proof.Machine.execYelnakLaunch tag s
  | .yelnakCounterAdd tag => Sys2Proof.Machine.execYelnakCounterAdd tag s
  | .yelnakCounterWait tag => Sys2Proof.Machine.execYelnakCounterWait tag s
  | .yelnakPatternLoad tag => Sys2Proof.Machine.execYelnakPatternLoad tag s
  | .yelnakBlackBoxRead tag => Sys2Proof.Machine.execYelnakBlackBoxRead tag s
  | .yelnakAttestation tag => Sys2Proof.Machine.execYelnakAttestation tag s
  | .powerSample => Sys2Proof.Machine.execPowerSample s
  | .coldReset => Sys2Proof.Machine.execColdReset s
  | .warmReset => Sys2Proof.Machine.execWarmReset s
  | .lossOfLock l => Sys2Proof.Machine.execLossOfLock l s
  | .linkTrainingComplete l => Sys2Proof.Machine.execLinkTrainingComplete l s
  | .ptCommandComplete n => Sys2Proof.Machine.execPtCommandComplete n s
  | .blBastHomeDone n => Sys2Proof.Machine.execBlBastHomeDone n s
  | .membersStart kid => Sys2Proof.Machine.execMembersStart kid s

end Sys2Proof.Machine
end

