-- ==== Sys2Proof/Machine/Clock.lean ====
section
/-!
DEFINITION. One wall clk of the module (R4): the work that is due at its start, the clk of each core with a live
context (banks, landings, row sequencers, the issue of one bundle, R21-R24, R37, R48), and the work at its end.
-/

namespace Sys2Proof.Machine

/-! ## Sequencing -/

/-- Go on from an outcome. -/
def andThen {α β : Type} (o : Host.Outcome α Fault Refusal) (f : α → Host.Outcome β Fault Refusal) :
    Host.Outcome β Fault Refusal :=
  match o with
  | .next s => f s
  | .fault r => .fault r
  | .refused r => .refused r

/-- Execute a list of instructions in order. -/
def runAll : List Instr → State → Out
  | [], s => .next s
  | i :: l, s => andThen (exec i s) (runAll l)

/-- Do one thing for each number of a list. -/
def forEach (f : Nat → State → Out) : List Nat → State → Out
  | [], s => .next s
  | n :: l, s => andThen (f n s) (forEach f l)

/-- Drop repeats from a rising list. -/
def uniq : List Nat → List Nat
  | [] => []
  | [a] => [a]
  | a :: b :: l => if a = b then uniq (b :: l) else a :: uniq (b :: l)

/-- The cores that hold a member. -/
def liveCores (s : State) : List Nat := uniq ((s.ctxs.filter fun p => p.2.live).map fun p => coreOf p.1)

/-- The contexts of core c. -/
def coreCtxs (c : Nat) : List Nat := [4 * c, 4 * c + 1, 4 * c + 2, 4 * c + 3]

/-- Calendar entries that are due now, of the start or the end of the clk. -/
def dueNow (s : State) (late : Bool) : List Timed := s.cal.filter fun t => t.late = late && decide (t.due ≤ s.clk)

/-- Execute a step that accesses vault banks (R155): it is tried, and stands where its bank rows are free; else it waits for
them as a claim, and the step with it. -/
def runGated (late : Bool) (k : Nat) (ev : Instr) (s : State) : Out :=
  let again (s : State) : State := s.at (s.clk + 1) late ev
  if s.bankq.any fun c => c.ev = ev then .next (again s)
  else andThen (exec ev { s with trace := some [] }) fun t =>
    let rows := t.trace.getD []
    if banksFree s late rows then .next { t with trace := s.trace, bankNow := rows.map bankKey ++ s.bankNow }
    else .next (again { s with bankq := s.bankq ++ [⟨k, s.clk, rows, ev⟩] })

/-- Execute a step that is due. -/
def runOne (late : Bool) (ev : Instr) (s : State) : Out :=
  match bankKind ev with
  | none => exec ev s
  | some k => runGated late k ev s

def runOnes (late : Bool) : List Instr → State → Out
  | [], s => .next s
  | i :: l, s => andThen (runOne late i s) (runOnes late l)

/-- Execute the steps that are due; those that access vault banks come last, laterals before engines and engines before
flows (R155). -/
def runDue (late : Bool) (s : State) : Out :=
  let evs := (dueNow s late).map (·.ev)
  runOnes late ([none, some 0, some 1, some 2].flatMap fun k => evs.filter fun e => bankKind e = k)
    { s with cal := s.cal.filter fun t => !(t.late = late && decide (t.due ≤ s.clk)) }

/-- The steps that have been granted all their bank rows are made, the lateral accesses at the end of the clk (`late`, R193);
a claim whose step has been given up is dropped. -/
def runGranted (late : Bool) (s : State) : Out :=
  let here := s.bankq.filter fun c => s.cal.any fun t => t.ev = c.ev
  let done (c : BankClaim) : Bool := c.rows = [] && (c.kind = 0) = late
  let go := (here.filter done).map (·.ev)
  runAll go { s with
    bankq := here.filter fun c => !done c
    cal := go.foldl (fun l e => match l.findIdx? fun t => t.ev = e with | some i => l.eraseIdx i | none => l) s.cal }

/-- Steps of the calendar that are due in this clk and that `p` selects are made. -/
def runPart (late : Bool) (p : Instr → Bool) (s : State) : Out :=
  let mine (t : Timed) : Bool := t.late && p t.ev && decide (t.due ≤ s.clk)
  runOnes late ((s.cal.filter mine).map (·.ev)) { s with cal := s.cal.filter fun t => !mine t }

/-- At the end of the clk the lateral accesses that have their banks are performed, and others take free ones (R155, R193);
those that complete write before blocked bundles are tried again (R190). -/
def runLats (s : State) : Out :=
  andThen (runGranted true s) fun s =>
  andThen (runPart true (fun e => match e with | .lateralPerform _ _ => true | _ => false) s) fun s =>
  runPart true (fun e => match e with | .lateralCompletion _ _ => true | _ => false) s

/-- The quads whose banks are claimed by others than cores. -/
def claimQuads (s : State) : List Nat := (s.bankq.flatMap fun c => c.rows.map fun r => bankKey r / 32).eraseDups

/-! ## Frozen clks (R22, R410) -/

/-- A frozen clk of core c, counted in FRZ and by its event. -/
def frozenClk (s : State) (c ev : Nat) : State :=
  s.updCore c fun k => ({ k with frz := k.frz + 1, froze := ev } : Core).count ev 1

/-- A context whose stop was asked for stops when its bundle blocks or is held (R427). -/
def stopIfAsked (s : State) (n : Nat) : State :=
  if (s.ctx n).ctl.stopf && (s.ctx n).st = .running then stopNow s n else s

/-! ## The bundle at the pc -/

/-- The bundle at the pc of context n (R29). DESIGN CHOICE (log 51): where R158 lets a changed bundle hold its old or its
new bytes until the next taken branch, it holds the new ones. -/
def fetch (s : State) (n : Nat) : Bundle :=
  let p := bundleOfNat (s.rdArena n (s.ctx n).pc.toNat 32)
  ⟨p.1, p.2⟩

/-- Latch the context and bundle that now issue (R37). -/
def latch (s : State) (n : Nat) : State :=
  let b := fetch s n
  { s with iss := ⟨n, 0, b.hdr, (s.ctx n).pc, b.slots, s.ctx n, s.core (coreOf n), .quiet, 0, false⟩ }

/-- Operand-port writes come first: triggers of their bundle capture them (R38). -/
def isPortWrite : Instr → Bool
  | .operandPortWrite _ _ _ _ => true
  | _ => false

/-- SY comes last: every slot of its bundle performs (R436, R437). -/
def isSystem (i : Instr) : Bool := match i.move with | some m => m.fu = 7 && 4 ≤ m.port.toNat | none => false

/-- What the slots of a bundle leave: the state after those that perform, and what the others met. -/
structure Slots where
  st : State
  met : List (Nat × Instr × Note)
  deriving DecidableEq, Repr

/-- Execute a slot on top of the slots before it. -/
def runSlot (k : Nat) (i : Instr) (r : Slots) : Host.Outcome Slots Fault Refusal :=
  andThen (exec i { r.st with iss := { r.st.iss with slot := k, note := .quiet } }) fun t =>
    .next (match t.iss.note with
      | .quiet => ⟨t, r.met⟩
      | w => ⟨r.st, r.met ++ [(k, i, w)]⟩)

/-- Execute slots in order. -/
def runSlots : List (Nat × Instr) → Slots → Host.Outcome Slots Fault Refusal
  | [], r => .next r
  | (k, i) :: l, r => andThen (runSlot k i r) (runSlots l)

/-- The triggers' view of the operand ports and their tags: as the bundle's own writes leave them (R38, R240). Registers
and their tags stay as the clk found them. -/
def capturePorts (s : State) : State :=
  let c := s.ctx s.iss.n
  let port (p : Nat × Tag) : Bool := decide (256 ≤ p.1 ∧ p.1 < 2000)
  let tags := (c.regs.tags.filter port).foldl (fun t p => KMap.put t p.1 p.2) (s.iss.ctx.regs.tags.filter fun p => !port p)
  { s with iss := { s.iss with ctx :=
    { s.iss.ctx with ports := c.ports, portSk := c.portSk, regs := { s.iss.ctx.regs with tags := tags } } } }

/-- Move on to the bundle that follows (R112, R115); the loop registers are the back-edge action's. -/
def moveOn (s : State) : State :=
  s.updCtx s.iss.n fun c => { c with
    pc := nextPc s.iss.ctx s.iss.pc (hdrLend s.iss.hdr) (bundleBrk s)
    npc := none, blocked := false, walk := none, skip := false, xwalk := none }

/-- Perform a whole bundle: back edge, operand ports, the other slots, SY (R37, R38, R115). -/
def runBundle (s : State) : Host.Outcome Slots Fault Refusal :=
  let l := bundleInstrs s.iss.slots 0
  let writes := l.filter fun p => isPortWrite p.2
  let rest := (l.filter fun p => !isPortWrite p.2 && !isSystem p.2) ++ l.filter fun p => isSystem p.2
  let edge := if hdrLend s.iss.hdr then [(0, Instr.backEdgeAction s.iss.n)] else []
  andThen (runSlots (edge ++ writes) ⟨moveOn s, []⟩) fun r =>
    runSlots rest ⟨capturePorts r.st, r.met⟩

/-- The order of the checks of R48. -/
def noteRank : Note → Nat
  | .quiet => 100
  | .trap r _ _ => 2 * r
  | .block => 8
  | .hold _ => 9

/-- The first of several notes in the order of R48; of one step, the lowest slot's (R148; DESIGN CHOICE, log 51: so for
every unit and step, the back edge before slot 0). -/
def worstNote : List (Nat × Instr × Note) → Option (Nat × Instr × Note)
  | [] => none
  | x :: l => match worstNote l with
    | none => some x
    | some y =>
      if noteRank y.2.2 < noteRank x.2.2 ∨ (noteRank y.2.2 = noteRank x.2.2 ∧ y.1 < x.1) then some y else some x

/-! ## Issue -/

/-- A bundle of context n has issued (R410). -/
def countIssue (s : State) (c n : Nat) : State := s.updCore c fun k => (k.count 0x03 1).count (0x10 + n % 4) 1

/-- The counts and tests of a bundle that has issued: events (R410), data errors (R196), and the stop test (R116): a member
that has quit issues nothing more, so it stops here. -/
def issued (c n : Nat) (s1 : State) (s : State) : State :=
  let s := dataErrors (countIssue s c n) n
  let x := s1.iss.ctx
  let st := (s.ctx n).st
  if x.ctl.stopf && (((hdrLend s1.iss.hdr || x.npc.isSome) && st = .running) || st = .draining) then stopNow s n else s

/-- A class-I trap of the latched bundle. Its entry makes this clk the first of the entry freeze (R417, R419), with
nothing of the clk's own work done; without a handler the walk is made in the clk, and a bundle that it ignores has issued
(R423). -/
def classI (c n : Nat) (s0 s1 : State) (w : Note) : State :=
  if hasHandler (s1.ctx n) && (s1.ctx n).walk.isNone then
    (frozenClk (raiseNote { s0 with iss := s1.iss, free := s0.free + 1 } w) c 7).updCore c fun k => { k with icd := 3 }
  else
    let s := raiseNote { s1 with free := s1.free + 1 } w
    if s.iss.passed then issued c n s1 s else s

/-- A context that has not issued yet keeps its snapshot for its first issue (R413). -/
def keepParked (c n : Nat) (s0 s : State) : State :=
  if (s0.ctx n).parked then
    let mine := (s.core c).matrix.step.any fun m => m.n = n
    (s.setCtx n (s0.ctx n)).updCore c fun k =>
      { k with matrix := { k.matrix with step := if mine then (s0.core c).matrix.step else k.matrix.step } }
  else s

/-- A clk in which no bundle issues counts where every context of the core is blocked (R410). -/
def countBlocked (s : State) (c : Nat) : State :=
  let l := (coreCtxs c).filter fun n => (s.ctx n).live
  if l ≠ [] && l.all fun n => (s.ctx n).blocked then s.updCore c fun k => k.count 0x08 1 else s

/-- What a bundle that does not issue leaves: its trap, its block (R21-R24) or its hold (R22). -/
def unissued (c n : Nat) (s0 s1 : State) (x : Nat × Instr × Note) : Out :=
  let (k, i, w) := x
  let again (s : State) : Out := exec i { s with iss := { s1.iss with slot := k } }
  match w with
  | .hold ev => andThen (again s0) fun s => .next (stopIfAsked (wallClk (frozenClk s c ev) c) n)
  | .block =>
    if s1.iss.ctx.ctl.excl then
      andThen (again s0) fun s => andThen (exec .bundleBlock s) fun s =>
        .next (stopIfAsked (wallClk (frozenClk s c 6) c) n)
    else andThen (again (keepParked c n s0 s1)) fun s => andThen (exec .bundleBlock s) fun s =>
      .next (stopIfAsked (countBlocked s c) n)
  | w => .next (classI c n s0 s1 w)

/-- Does the window of the current limit hold the bundle (R456)? The first clk of a window takes any weight. -/
def overLimit (s : State) (k : Core) (w : Nat) : Bool :=
  w ≠ 0 && decide (k.curlim.toNat < k.curw.toNat + w) && decide ((s.clk - k.wstart) % k.curwin.toNat ≠ 0)

/-- Issue the latched bundle of context n; `s0` is the state before the clk's own work, which a frozen clk keeps. -/
def issueBundle (c n : Nat) (s0 s1 : State) : Out :=
  let x := s1.ctx n
  if !inCode s1 n x.pc then .next (classI c n s0 s1 (.trap 5 0x07 x.pc))
  else match illegal s1.iss.hdr s1.iss.slots with
    | some (e, k) => .next (classI c n s0 s1 (.trap 1 0x01 (w64 (e.cause + 32 * k))))
    | none =>
      if x.skip then
        .next (issued c n s1 (s1.updCtx n fun d =>
          advance d s1.iss.pc (hdrLend s1.iss.hdr) (loopBad d (s1.core c) s1.iss.pc)))
      else
        andThen (runBundle s1) fun r =>
          match worstNote r.met with
          | some m => unissued c n s0 s1 m
          | none =>
            if overLimit s1 s1.iss.core r.st.iss.weight then
              .next (stopIfAsked (frozenClk { s0 with iss := s1.iss } c 5) n)
            else .next (issued c n s1 r.st)

/-! ## The clk of a core -/

/-- May the core issue from a context now? A waiting fault takes the place of a blocked bundle (R417). -/
def issuable (x : Ctx) : Bool := decide (x.st = .running) && (!x.blocked || x.delivered ≠ [])

/-- The ready context that has been ready longest, of the lowest number (R23). -/
def longestReady (s : State) : List Nat → Option Nat
  | [] => none
  | n :: l =>
    let r := longestReady s l
    if issuable (s.ctx n) then
      match r with
      | some m => if (s.ctx m).readySince < (s.ctx n).readySince then some m else some n
      | none => some n
    else r

/-- The context that holds core c in this clk (R21, R23, R24). -/
def pick (s : State) (c : Nat) : Option Nat :=
  match (s.core c).run with
  | some i =>
    let x := s.ctx (4 * c + i)
    if !(s.core c).gave && decide (x.st = .running) && (issuable x || x.ctl.excl) then some (4 * c + i)
    else longestReady s (coreCtxs c)
  | none => longestReady s (coreCtxs c)

/-- The core turns to a context; a change is a switch (R23, event 0x09). -/
def turnTo (s : State) (c n : Nat) : State :=
  s.updCore c fun k =>
    if k.run = some (n % 4) then { k with gave := false }
    else ({ k with run := some (n % 4), gave := false } : Core).count 0x09 (if k.run.isSome then 1 else 0)

/-- A context's landings in an unfrozen clk (R42, R45, R88). -/
def landCtx (n : Nat) (s : State) : Out :=
  if (s.ctx n).active && !(s.ctx n).parked then runAll [.fmtShadowExpiry n, .resultLanding n] (s.updCtx n tickCtx)
  else .next s

/-- A context's row sequencers in an unfrozen clk (R41). -/
def sequenceCtx (n : Nat) (s : State) : Out :=
  if (s.ctx n).active && !(s.ctx n).parked then exec (.tileSequencerRow n) s else .next s

/-- The operand read of the matrix step of core c, at the start of its clk: the banks are as the clk found them, and the
bundle of the clk still sees OLD as it stood (R209). -/
def stepClk (c : Nat) (s : State) : Out := runAll (stepStart (s.core c) c) s

/-- The work of an unfrozen clk before issue: landings, the latch of the issuing context, row sequencers, the matrix
step. -/
def unfrozen (c : Nat) (p : Option Nat) (s : State) : Out :=
  andThen (forEach landCtx (coreCtxs c) (s.updCore c fun k => tickStep { k.count 0x02 1 with bankHeld := false, froze := 0 })) fun s =>
  andThen (forEach sequenceCtx (coreCtxs c) (match p with | some n => latch s n | none => s)) fun s => stepClk c s

/-- A stop asked for of a context whose accesses a bank has held back takes place in the clk of the grant (R428). A bundle that
has issued in that clk stands in the replay buffer, every slot performed (R414). -/
def bankStop (s0 : State) (c n : Nat) (s : State) : State :=
  let x := s.ctx n
  if (s0.core c).bankHeld && x.ctl.stopf && decide (x.st = .running) then
    let t := stopNow s n
    if (s.core c).icd = 0 && !x.blocked && s.iss.n = n && x.pc ≠ (s0.ctx n).pc then t.updCtx n fun y =>
        let org := issuedNow s
        let r : Replay := ⟨{ org with slots := org.slots.map fun p => (true, p.2) }, y.pc, y.npc, []⟩
        { y with replay := Replay.join (some r) y.replay }
      else t
  else s

/-- The core waits for a handler's work before its return (R437): that work alone goes on, a step of another context does
not. -/
def drainClk (c n : Nat) (s : State) : Out :=
  let mine := (s.core c).matrix.step.any fun m => m.n = n
  let s := frozenClk s c 7
  andThen (if mine then stepClk c (s.updCore c tickStep) else .next s) fun s =>
  andThen (landCtx n s) fun s => sequenceCtx n s

/-- The context of core c that waits for its handler's work. -/
def draining (s : State) (c : Nat) : Option Nat :=
  (coreCtxs c).find? fun n => (s.ctx n).rfe.isSome && decide ((s.ctx n).st = .running)

/-- A clk in which core c is frozen until the images of a large entry are staged; a stop ends the freeze (R242, R428). -/
def spillClk (c : Nat) (s : State) : State :=
  let k := s.core c
  let s := frozenClk s c 7
  let s := if k.spill ≤ 1 then endSpill s c else s.updCore c fun k => { k with spill := k.spill - 1 }
  match k.run with
  | some i =>
    let n := 4 * c + i
    if (s.ctx n).ctl.stopf && decide ((s.ctx n).st = .running) then stopIfAsked (endSpill s c) n else s
  | none => s

/-- An unfrozen clk of core c that `go` gives, or the first of the freeze in which a large entry is staged. -/
def orSpill (c : Nat) (s : State) (go : State → Out) : Out :=
  if spillDue s c then .next (startSpill (frozenClk s c 7) c) else go s

/-- An unfrozen clk in which context n is to issue. -/
def issueClk (c n : Nat) (s : State) : Out :=
  orSpill c s fun s =>
    let s0 := turnTo s c n
    andThen (unfrozen c (some n) (if (s0.ctx n).parked then wake s0 n else s0)) fun s1 =>
    andThen (issueBundle c n s0 s1) fun s' => .next (bankStop s c n s')

/-- The first clk of a freeze that a trap taken in it begins. -/
def entryClk (c : Nat) (s : State) : State :=
  if (s.core c).icd = 4 then (frozenClk s c 7).updCore c fun k => { k with icd := 3 } else s

/-- A clk in which context n is to go on with its snapshot (R413): the work before the first resumed clk, then the bundle of the
replay buffer, or the next. DEDUCED (log 43): what is in flight keeps its distance from the bundles that follow the buffered
one, as R46 has it, so nothing of the context lands in the clk in which that one issues again. -/
def resumeClk (c n : Nat) (s : State) : Out :=
  let (t, ok) := resumeWork s n
  if !ok then .next (entryClk c t)
  else if (t.ctx n).replay.isSome then
    andThen (unfrozen c none (turnTo t c n)) fun s => .next ((countIssue s c n).updCtx n endReplay)
  else issueClk c n t

/-- One clk of core c. -/
def coreClk (c : Nat) (s : State) : Out :=
  let k := s.core c
  if 0 < k.icd then .next ((frozenClk s c 7).updCore c fun k => { k with icd := k.icd - 1 })
  else if 0 < k.spill then .next (spillClk c s)
  else match draining s c with
    | some n => orSpill c s (drainClk c n)
    | none =>
      if (stepError s c).isSome then
        let (t, ign) := (stepError s c).getD (s, true)
        .next (if ign then t else entryClk c t)
      else if bankRefused s c then .next ((frozenClk s c 4).updCore c fun k => { k with bankHeld := true })
      else match pick s c with
        | none => orSpill c s fun s => andThen (unfrozen c none s) fun s => .next (countBlocked s c)
        | some n =>
          let x := s.ctx n
          if x.delivered ≠ [] then andThen (exec (.faultDelivery n) s) fun s => .next (entryClk c s)
          else if x.blocked then .next (stopIfAsked (wallClk (frozenClk s c 6) c) n)
          else if x.parked then resumeClk c n s
          else issueClk c n s

/-! ## The end of the clk -/

/-- Does the bundle of a blocked context still block? It is tried again without effect (R21). -/
def stillBlocked (s : State) (n : Nat) : Bool :=
  match runBundle (latch s n) with
  | .next r => (match worstNote r.met with | some (_, _, .block) => true | _ => false)
  | _ => false

/-- Test a blocked context again (R21). -/
def retest (n : Nat) (s : State) : Out :=
  if (s.ctx n).blocked && decide ((s.ctx n).st = .running) && !stillBlocked s n then exec (.blockedBundleIssue n) s
  else .next s

/-- The buffer advances of context n that are due (R281). -/
def advCtx (n : Nat) (s : State) : Out :=
  if (s.ctx n).inf.cbAdv.any (fun p => p.1 = 0) then exec (.cbAdvPpAdvance n) s else .next s

/-- A fault of a member that drains and issues no more (R320, R417). -/
def drainFault (n : Nat) (s : State) : Out :=
  if (s.ctx n).st = .draining && (s.ctx n).delivered ≠ [] then exec (.faultDelivery n) s else .next s

/-- Did the matrix step of core c take part in the clk that began in s0? -/
def stepRan (s0 s : State) (c : Nat) : Bool := decide ((s0.core c).frz = (s.core c).frz) ||
  ((match draining s0 c with | some n => (s0.core c).matrix.step.any fun m => m.n = n | none => false) &&
    (s0.core c).spill = 0 && !spillDue s0 c)

/-- The end of the clk for core c: accesses performed (those of a core that froze are not), the matrix step, buffer advances, a return, blocked bundles, the
window, faults of draining members, and queues; `s0` is the state before the core's clk. -/
def coreEnd (s0 : State) (c : Nat) (s : State) : Out :=
  let held := !stepRan s0 s c && !bankRefused s0 c
  andThen (exec (.localAccessPerform c) (if held then (coreCtxs c).foldl giveBack s else s)) fun s =>
  andThen (if stepRan s0 s c then runAll (stepEnd (s.core c) c) s else .next s) fun s =>
  andThen (forEach advCtx (coreCtxs c) s) fun s =>
  andThen (forEach retest (coreCtxs c) ((coreCtxs c).foldl returnCheck s)) fun s =>
  andThen (forEach drainFault (coreCtxs c) s) fun s =>
    let k := s.core c
    let s := serveCore (s.updCore c fun k => k.count 0x01 1) c
    if (s.clk + 1 - k.wstart) % k.curwin.toNat = 0 then exec (.windowExpiry c) s else .next s

/-- The end of the clk for a listed core without a member: its clks count and its window runs (R410, R456). -/
def idleEnd (c : Nat) (s : State) : Out :=
  let k := s.core c
  let s := s.updCore c fun k => ({ (k.count 0x01 1) with froze := 0 } : Core).count 0x02 1
  if (s.clk + 1 - k.wstart) % k.curwin.toNat = 0 then exec (.windowExpiry c) s else .next s

/-- Requests, reports and log entries that a live context or a saved member has ready go out (R403, R407, R433). -/
def sendOf (n : Nat) (s : State) : State :=
  let ready (c : Ctx) : Bool := match c.creqs with
    | q :: _ => !q.sent && !(q.after.any fun i => (openIds s n c).contains i)
    | [] => false
  if (s.ctx n).doomed then s
  else
  let s := sendHead s n ready
  let s := sendReports s n
  serveLog (sendLats s n) n

/-- Every context number with a live or a saved member. -/
def senders (s : State) : List Nat :=
  (s.ctxs.filter fun p => p.2.live).map (·.1) ++ (s.dist.kerns.flatMap (·.saved)).map (·.n)

/-! ## What comes from outside (log 17) -/

/-- An erroneous word, kept in rising order. -/
def addBad (b : Nat) : List Nat → List Nat
  | [] => [b]
  | x :: l => if b < x then b :: x :: l else if b = x then x :: l else x :: addBad b l

/-- Responses that the Yelnak link has room for go onto it, as link flits of 256 bytes (R452). -/
def yelnakOut (s : State) : State :=
  match s.resps[s.yelSent]? with
  | none => s
  | some r =>
    let b := respBytes r
    let n := ceilDiv b.length 256
    let k := s.link 48
    if retryRoom 48 < k.retry.length + n then s
    else
      let (id, s) := fresh s
      let new := (List.range n).map fun i =>
        (⟨k.sendSeq + BitVec.ofNat 16 i, id, decide (i + 1 = n), bytesNat ((b.drop (256 * i)).take 256)⟩ : LinkFlit)
      let s := { s with yelSent := s.yelSent + 1 }.updLink 48 fun k => { k with
        retry := k.retry ++ new, sendSeq := k.sendSeq + BitVec.ofNat 16 n }
      if k.retry = [] then s.at (s.clk + 1) false (.linkFlitReceive 48) else s

/-- Messages whose link flits the Yelnak link receives: none while it retrains or is down, and one with a CRC error when it is sent
again (R298, R452). -/
def yelnakIn : Nat → State → State
  | 0, s => s
  | f + 1, s => match s.yelIn with
    | [] => s
    | b :: l =>
      if (s.link 48).training.isSome || linkDown s 48 then s
      else if 0 < (s.link 48).crcNext then linkError s 48
      else yelnakIn f (msgArrive { s with yelIn := l } (parseMsg b))

/-- One input. A link's, a port's or a host's input that finds its link down does not arrive. -/
def takeInput (i : InKind) (s : State) : Out :=
  match i with
  | .msg b => .next { s with yelIn := s.yelIn ++ [b] }
  | .lossOfLock l => exec (.lossOfLock l) s
  | .crcError l => .next (s.updLink l fun k => { k with crcNext := k.crcNext + 1 })
  | .linkUp l => exec (.linkTrainingComplete l) s
  | .packet port p => .next (
      if (s.link (32 + port)).st ≠ 2 then s
      else if p.malformed then malformed s (288 + port)
      else enterFabric s { p with np := 0 })
  | .digest src flow seqn dig => match pairFor s flow.toNat with
    | some k =>
      if pairPartner s k = src then exec (.pairDigestCompare k) { s with digests := s.digests ++ [(k, flow, seqn, dig, false)] }
      else .next s
    | none => .next s
  | .dataError pa => .next { s with bad := addBad (pa - pa % 8) s.bad }
  | .coldReset => .next s
  | .warmReset => .next s

/-- Inputs in order. -/
def takeInputs : List Input → State → Out
  | [], s => .next s
  | i :: l, s => andThen (takeInput i.what s) (takeInputs l)

/-- Host messages in order, up to one that must wait (R173-R176, R179, R453). -/
def hostMsgs : List (BitVec 16) → State → Out
  | [], s => .next s
  | t :: l, s => match msgOf s t.toNat with
    | none => hostMsgs l s
    | some m =>
      if hostHeld s m then .next s
      else andThen (exec (msgEvent m) s) fun r => if r.hostq.head? = some t then .next r else hostMsgs l r

/-- The inputs of this clk and the host's messages. -/
def outside (s : State) : Out :=
  let due (i : Input) : Bool := decide (i.wclk ≤ s.clk)
  andThen (takeInputs (s.inputs.filter due) { s with inputs := s.inputs.filter fun i => !due i }) fun s =>
    let s := yelnakIn s.yelIn.length s
    hostMsgs s.hostq s

/-- A reset that arrives in this clk (R445). -/
def resetDue (s : State) : Option Instr :=
  let has (k : InKind) : Bool := s.inputs.any fun i => decide (i.wclk ≤ s.clk ∧ i.what = k)
  if has .coldReset then some .coldReset else if has .warmReset then some .warmReset else none

/-- The distributor's rounds (R316) and the power samples (R458). -/
def periodic (s : State) : Out :=
  andThen (if s.clk ≠ 0 && s.clk % Config.samplePeriod = 0 then exec .powerSample s else .next s) fun s =>
    if s.clk % 16 = 0 && s.mgmt.boot ≠ 4 then exec .selectionRound s else .next s

/-! ## Routers -/

/-- Routers with a flit or a packet to carry. -/
def busyRouters (s : State) : List Nat :=
  (s.routers.filter fun p => p.2.inject ≠ [] || p.2.chans.any fun c => c.2.flits ≠ []).map (·.1)

/-- Grants and circuits of router h (R296, R297). -/
def routerGrants (h : Nat) (s : State) : Out :=
  runAll ([0, 1, 2, 3, 4].map (fun p => Instr.outputPortGrant h p) ++ [.circuitSlot h]) s

/-- Channels of router h with a header to route (R293). -/
def headerChans (s : State) (h : Nat) : List Nat :=
  ((s.router h).chans.filter fun c => match c.2.flits with
    | f :: _ => f.i = 0 && decide (f.wclk < s.clk) && c.2.out.isNone && !c.2.drop
    | [] => false).map (·.1)

def routerHeaders (h : Nat) (s : State) : Out :=
  runAll ((headerChans s h).map fun ch => .packetHeaderArrival h ch) s

/-- The headers that routers route in the clk, as the counts stand at its start (R294), and the flits that they move. -/
def network (s : State) : Out :=
  andThen (forEach routerHeaders (busyRouters s) s) fun s => forEach routerGrants (busyRouters s) s

/-- The counters at the end of the clk (R410). -/
def countsEnd (s : State) : State := { s with cores := s.cores.map fun p => (p.1, p.2.countEnd) }

/-- The rows written in the clk are forgotten at its end (R191). -/
def wroteEnd (s : State) : State :=
  { s with ctxs := s.ctxs.map fun p => (p.1, p.2.updRegs fun r => { r with wrote := [] }) }

/-- Credit replies whose headers have arrived in the clk (R329). -/
def runCredits (s : State) : Out :=
  let mine (t : Timed) : Bool := decide (t.due ≤ s.clk) && (match t.ev with | .creditReplyArrival _ _ => true | _ => false)
  runAll ((s.cal.filter mine).map (·.ev)) { s with cal := s.cal.filter fun t => !mine t }

/-- Consumption and local inputs of the routers; `s0` is the state at the start of the clk. -/
def routersEnd (s0 s : State) : State :=
  (busyRouters s).foldl (fun s h => injectFlit (consumeFlits s h) (s0.router h) h) s

/-- Control-space writes in the order of each source; those of a source behind one that must wait wait with it (R162). With the
dies' clock stopped only the management block takes writes (R458). -/
def ctlWrites : List (Nat × Instr) → List Nat → State → Out
  | [], _, s => .next s
  | (k, e) :: l, b, s =>
    let away := decide (s.mgmt.boot = 4) &&
      (match e with | .goWordWrite _ _ _ _ => true | .controlBlockRegisterWrite _ _ _ => true | _ => false)
    if b.contains k || spaceWaits s e || away then ctlWrites l (k :: b) { s with ctlw := s.ctlw ++ [(k, e)] }
    else andThen (exec e s) (ctlWrites l b)

/-- Emissions that have become due in the clk, and those that they make due (R328, R359). -/
def emissions : Nat → State → Out
  | 0, s => .next s
  | f + 1, s =>
    let isEmit (e : Instr) : Bool := match e with | .emission _ _ => true | _ => false
    if s.cal.any fun t => t.late && isEmit t.ev && decide (t.due ≤ s.clk) then
      andThen (runPart true isEmit s) (emissions f)
    else .next s

/-- What entries of match tables do in the clk in which they have accepted a packet (R359). -/
def entriesEnd (s : State) : Out :=
  andThen (emissions 64 s) (runPart true fun e => match e with | .deliverChunk _ _ => true | _ => false)

/-- Routers, credits, event counters and banks at the end of the clk. -/
def networkEnd (s0 s : State) : Out :=
  andThen (runCredits (routersEnd s0 s)) fun s => .next { countsEnd (wroteEnd (yelnakOut s)) with bankNow := [] }

/-! ## The clk -/

/-- The part of a clk that a thermal stop stops: everything but the base die's management logic (R458). -/
def workClk (s : State) : Out :=
  andThen (runDue false s) fun r0 =>
  andThen (network r0) fun s =>
  let cores := liveCores s
  let quads := uniq (cores.map fun c => c / 4)
  let s := (quads ++ (claimQuads s).filter fun q => !quads.contains q).foldl arbitrate s
  andThen (runGranted false s) fun s =>
  andThen (forEach coreClk cores s) fun s1 =>
  andThen (runLats s1) fun s1 =>
  andThen (forEach (coreEnd s) cores s1) fun s =>
  andThen (forEach idleEnd ((s.cores.map (·.1)).filter fun c => !cores.contains c) s) fun s =>
  andThen (runDue true ((senders s).foldl (fun s n => sendOf n s) s)) fun s =>
  andThen (entriesEnd s) (networkEnd r0)

/-- One wall clk. -/
def clkStep (s : State) : Out :=
  match resetDue s with
  | some r => exec r s
  | none =>
    andThen (outside s) fun s =>
    andThen (periodic s) fun s =>
    andThen (if s.mgmt.boot = 4 then .next s else workClk s) fun s =>
    andThen (ctlWrites s.ctlw [] { s with ctlw := [] }) fun s =>
      .next { bbOrder s with clk := s.clk + 1 }

/-! ## Placing a word (R29) -/

/-- The context, module and memory in which `step` fetches a bundle with one move (log 13): context 0 of core 0 runs
in an arena of 64 KiB at the foot of slice 0, whose table bundle counts two bundles; its pc is the second. -/
def placeWord (s : State) (nbits w : Nat) : State :=
  let m := Move.ofWord (BitVec.ofNat 24 (if nbits ≤ 24 then w else w % 2 ^ 24))
  let b := bundleNat (headerFor (slotFor m) m) (slotFor m) m.word
  let c : Ctx := { Ctx.reset with
    st := .running, pc := 32, quads := [0], recPriv := true
    ctl := { Ctl.reset with arenaSize := 1, priv := true, crewn := 1 } }
  { (s.wr (vaultPA 0 0) 2 4).wr (vaultPA 0 32) b 32 with
    ctxs := [(0, c)], cores := [], cal := [], inputs := [], mgmt := { s.mgmt with boot := 2 } }

end Sys2Proof.Machine
end

