-- ==== Sys2Proof/Machine/Step.lean ====
section
/-!
DEFINITION. The step of the machine: one wall clk (R4).
-/

namespace Sys2Proof.Machine

/-- One step: one wall clk of the module. -/
def step (s : State) : Host.Outcome State Fault Refusal := clkStep s

/-- `s` with one instruction word stored where `step` fetches its next bundle (log 13). -/
def State.withFetchWord (s : State) (nbits w : Nat) : State := placeWord s nbits w

end Sys2Proof.Machine
end

