-- ==== Sys2Proof/Safety.lean ====
section
/-!
DEFINITION. What a safe run is, and the words in which the statements are written: when a move can perform, and what
the whole state looks like after it.
-/

namespace Sys2Proof.Machine

/-! ## Runs -/

/-- The form that every state of a run has: the memory is canonical. -/
def State.Inv (s : State) : Prop := Memory.wf s.mem = true

/-- The machine goes on from `s`: no fault and no refusal (R422: every fault of the manual is a next state). -/
def State.Goes (s : State) : Prop := ∃ t, step s = .next t

/-- `k` steps from `s` all answer next states that keep the form. -/
def SafeFor : Nat → State → Prop
  | 0, s => s.Inv
  | k + 1, s => s.Inv ∧ ∃ t, step s = .next t ∧ SafeFor k t

/-! ## When a move performs -/

/-- A source can be read by a port of kind `k`: a circular-buffer head is configured, its grain is filled and in
shared mode no unit is held (R60, R282); an output-queue entry has a kind that the port takes (R35). -/
def SourceReady (s : State) (src : BitVec 9) (k : Kind) : Prop :=
  match srcOf src with
  | some (.cb h) => (s.iss.ctx.ctl.excl = true ∨ s.iss.ctx.inf.held = []) ∧ (s.iss.ctx.cb h).cfg = true ∧
      (s.iss.ctx.cb h).readable = true
  | some (.ent fu age) => kindAccepted (s.iss.ctx.entry fu age).val.kind k = true
  | _ => True

/-- A trigger passes the common checks of R48: its guard is true, a port marked (P) finds its privilege (R420), no
earlier trigger holds its unit, in shared mode a move that can block finds no unit held (R60), and its source can be
read. -/
structure Ready (s : State) (fu port : Nat) (canBlock : Bool) (g : BitVec 4) (src : BitVec 9) : Prop where
  guard : guardTrue s g = true
  allowed : portPriv fu port = true →
    s.iss.ctx.ctl.priv = true ∧ (limitedPriv s.iss.ctx = false ∨ (fu = 7 ∧ port = 5))
  idle : heldNow s.iss.ctx fu port = false
  alone : canBlock = true → s.iss.ctx.ctl.excl = true ∨ s.iss.ctx.inf.held = []
  source : SourceReady s src (triggerKind fu port)

/-! ## What a move leaves -/

/-- The issuing context once a move has read its source: a circular-buffer head moves its cursor one row on (R125). -/
def sourced (s : State) (src : BitVec 9) : Ctx :=
  match srcOf src with
  | some (.cb h) => (s.ctx s.iss.n).setCb h { (s.ctx s.iss.n).cb h with cc := (s.iss.ctx.cb h).cc + 1 }
  | _ => s.ctx s.iss.n

/-- From `s` to `t` the issuing context becomes `c`, its core's window is charged the weight `w` (R61), and nothing else
changes: no other context or core, no byte of memory, and no other part of the machine but the count of serial
numbers. -/
structure Did (s t : State) (w : Nat) (c : Ctx) : Prop where
  ctx : t.ctx s.iss.n = c
  others : ∀ m, m ≠ s.iss.n → t.ctx m = s.ctx m
  core : t.core (coreOf s.iss.n) =
    { s.core (coreOf s.iss.n) with curw := (s.core (coreOf s.iss.n)).curw + BitVec.ofNat 24 w }
  cores : ∀ k, k ≠ coreOf s.iss.n → t.core k = s.core k
  mem : ∀ a, Memory.read t.mem a = Memory.read s.mem a
  iss : t.iss = { s.iss with weight := s.iss.weight + w }
  rest : t = { s with ctxs := t.ctxs, cores := t.cores, serial := t.serial, iss := t.iss }

/-- A context with one more result in flight: it lands after `lat` unfrozen clks in the queue of unit `fu` (R42). -/
def landing (s : State) (lat fu : Nat) (v : Val) (flg : Flg) (c : Ctx) : Ctx :=
  { c with inf := { c.inf with flights := c.inf.flights ++ [⟨lat, fu, s.serial, .entry v, flg, 0, false⟩] } }

/-- The value T of a trigger at a scalar port. -/
def trigT (s : State) (src : BitVec 9) : Word := (readCode s src).word

/-- The trigger `i` completes: where it is ready it answers a next state in which the result `v` is on its way to the
queue of its unit, and nothing else has changed (R37, R42, R60, R61). -/
def Results (s : State) (i : Instr) (fu port lat int w : Nat) (g : BitVec 4) (src : BitVec 9) (v : Val) (flg : Flg) :
    Prop :=
  Ready s fu port false g src →
    ∃ t, exec i s = .next t ∧ Did s t w ((landing s lat fu v flg (sourced s src)).hold fu port int)

/-- The trigger `i` completes: where it is ready it answers a next state in which its context is as `f` says, and nothing
else has changed. -/
def Completes (s : State) (i : Instr) (fu port int w : Nat) (canBlock : Bool) (g : BitVec 4) (src : BitVec 9)
    (f : Ctx → Ctx) : Prop :=
  Ready s fu port canBlock g src → ∃ t, exec i s = .next t ∧ Did s t w ((f (sourced s src)).hold fu port int)

/-- As `Did`, with the issuing context's core changed by `k` too. -/
structure DidCore (s t : State) (w : Nat) (c : Ctx) (k : Core → Core) : Prop where
  ctx : t.ctx s.iss.n = c
  others : ∀ m, m ≠ s.iss.n → t.ctx m = s.ctx m
  core : t.core (coreOf s.iss.n) =
    k { s.core (coreOf s.iss.n) with curw := (s.core (coreOf s.iss.n)).curw + BitVec.ofNat 24 w }
  cores : ∀ j, j ≠ coreOf s.iss.n → t.core j = s.core j
  mem : ∀ a, Memory.read t.mem a = Memory.read s.mem a
  iss : t.iss = { s.iss with weight := s.iss.weight + w }
  rest : t = { s with ctxs := t.ctxs, cores := t.cores, serial := t.serial, iss := t.iss }

/-- As `Completes`, for a trigger that also changes its core. -/
def CompletesCore (s : State) (i : Instr) (fu port int w : Nat) (canBlock : Bool) (g : BitVec 4) (src : BitVec 9)
    (f : Ctx → Ctx) (k : Core → Core) : Prop :=
  Ready s fu port canBlock g src → ∃ t, exec i s = .next t ∧ DidCore s t w ((f (sourced s src)).hold fu port int) k

/-- The instruction raises a trap with a code and a value (what the trap then does is `raiseNote`'s, R416-R419). -/
def Traps (s : State) (i : Instr) (code : Nat) (v : Word) : Prop :=
  ∃ r, exec i s = .next (raiseNote { s with free := s.free + 1 } (.trap r code v))

/-- The instruction's bundle blocks (R21). -/
def Blocks (s : State) (i : Instr) : Prop :=
  exec i s = .next (raiseNote { s with free := s.free + 1 } .block)

/-- As `DidCore`, with the rest of the machine as in `u`. -/
structure DidRest (s t : State) (w : Nat) (c : Ctx) (k : Core → Core) (u : State) : Prop where
  ctx : t.ctx s.iss.n = c
  others : ∀ m, m ≠ s.iss.n → t.ctx m = s.ctx m
  core : t.core (coreOf s.iss.n) =
    k { s.core (coreOf s.iss.n) with curw := (s.core (coreOf s.iss.n)).curw + BitVec.ofNat 24 w }
  cores : ∀ j, j ≠ coreOf s.iss.n → t.core j = s.core j
  iss : t.iss = { s.iss with weight := s.iss.weight + w }
  rest : t = { u with ctxs := t.ctxs, cores := t.cores, serial := t.serial, iss := t.iss }

/-! ## Vault addresses -/

/-- A range of the context's own arena that an access may take now: in the arena and aligned (R169, R185), and no lateral
access and no local atomic that R192 orders before it, whose row the access reaches with its pieces `gs`, is still to be
performed. -/
def LocalOk (s : State) (a : Word) (algn size : Nat) (gs : List Seg) (release : Bool) : Prop :=
  a.toNat < 2 ^ 23 ∧ a.toNat % algn = 0 ∧ a.toNat + size ≤ arenaBytes s.iss.ctx ∧
    (∀ l ∈ s.iss.ctx.lats, l.performed = true ∨
      (l.acq = false ∧ release = false ∧ sameRow gs l = false)) ∧
    ∀ x ∈ s.iss.ctx.accs, atomRow gs x = false

/-- A range of the crew's vault window that an access may take: in a member quad's arena and aligned (R151-R153, R169). -/
def WindowOk (s : State) (a : Word) (algn size : Nat) : Prop :=
  a.toNat < 2 ^ 29 ∧ fld a 23 6 < s.iss.ctx.quads.length ∧ a.toNat % algn = 0 ∧
    fld a 0 23 + size ≤ arenaBytes s.iss.ctx

/-- The row trigger `i` completes: its result has lane k of `f` in lane k, and its flags are those of any lane (R91,
R126). -/
def RowResults (s : State) (i : Instr) (fu port lat w : Nat) (g : BitVec 4) (src : BitVec 9)
    (f : Nat → BitVec 32 × Flg) : Prop :=
  ∃ (r : Row) (l : Flg), (∀ k, k < 64 → lane r k = (f k).1) ∧
    (∀ b, l.getLsbD b = true ↔ ∃ k, k < 64 ∧ (f k).2.getLsbD b = true) ∧
    Results s i fu port lat 1 w g src (.r r) l

/-! ## Counters -/

/-- A counter operand that CT.add or CT.wait may use now (R402): a scope that is not reserved, and a page that the quad's
translation buffer holds, or that a walk has just found (R401), which allows the access; `pa` is its physical address. -/
def CounterOk (s : State) (w : Want) (pa : Nat) : Prop :=
  let c := s.iss.ctx
  let va := c.portW 6 0 &&& ~~~7
  (c.portW 6 0).toNat % 8 < 6 ∧ fld va 56 8 = 0 ∧
    ((tlbFind s (quadOf s.iss.n) c.ctl.asid va).isSome = true ∨ c.xwalk = some true) ∧
    ∃ e, leafOf s (quadOf s.iss.n) c.ctl.asid c.ctl.ptroot va = .ok e ∧ leafCheck e va w c.ctl.priv 8 = none ∧
      pa = leafPA e va

/-! ## Go moves -/

/-- The command that a go move captures (R264, R286): its operand ports, T, the format, address space and privilege of its
context, and the accesses that are open before it. -/
def goCmd (s : State) (src : BitVec 9) (fu port : Nat) : Cmd :=
  let c := s.iss.ctx
  { id := s.serial, fu := fu, port := port, a0 := c.portW fu 0, a1 := c.portW fu 1, a2 := c.portW fu 2
    a3 := c.portW fu 3, go := trigT s src, fmt := c.inf.fmtEff, asid := c.ctl.asid, ptroot := c.ctl.ptroot
    priv := c.ctl.priv, row := 0, shape := [], bound := 0, done := 0, chunk := 0, flg := 0, st := .waiting, aux := 0
    after := openIds s s.iss.n c ++ c.creqs.map (·.id), held := none }

/-- A queue that takes go moves: not full and not fenced (R70, R426). -/
def QueueOpen (s : State) (fu : Nat) : Prop :=
  (s.iss.ctx.queue fu).length < 16 ∧ KMap.get false s.iss.ctx.qfence fu = false

/-- The go move `i` enters the command `q` at the tail of its unit's queue where that is open, makes its token pending, and
does what `f` says to its context besides (R265, R395). -/
def Enters (s : State) (i : Instr) (g : BitVec 4) (src : BitVec 9) (tok : Option Nat) (q : Cmd) (f : Ctx → Ctx) : Prop :=
  QueueOpen s q.fu → Completes s i q.fu q.port 1 2 true g src fun c => f (c.enter q tok)

/-- The token of a control word: bits 3-0, unless bit 4 is set. -/
def ctlTok (w : Word) : Option Nat := if w.getLsbD 4 then none else some (w.toNat % 16)

/-- A token that a command may name: none, or one that is not pending (R395). -/
def TokenFree (s : State) (tok : Option Nat) : Prop := ∀ k, tok = some k → (s.iss.ctx.tok k).st ≠ .pending

/-- An endpoint that a command of the context may name, with the lowest offset and the length of what it takes there, and
the least slot of a buffer (R266, R267). -/
def EndpointOk (s : State) (a : Word) (kinds : List Nat) (lo : Int) (n slot : Nat) : Prop :=
  epBad a kinds = false ∧
    match ek a with
    | 1 => vaultOut s.iss.ctx a lo n = none
    | 2 => (s.iss.ctx.cb (a.toNat % 16)).cfg = true ∧ slot ≤ 256 * (s.iss.ctx.cb (a.toNat % 16)).ssz.toNat
    | 3 => (s.iss.ctx.sk (a.toNat / 2 ^ 56 % 8)).cfg = true
    | 4 => s.iss.ctx.ctl.priv = true
    | _ => True

/-! ## A clk that issues one bundle -/

/-- The state in which the cores begin their clk: the banks of the core's quad have granted their rows (R155). -/
def State.arbitrated (s : State) (n : Nat) : State := arbitrate s (quadOf n)

/-- Nothing happens in this clk but the clk of the core of context n, which issues its bundle: no input, no step that is
due, no round of the distributor, no flit, no other live core, no freeze, no waiting fault and no matrix step. -/
structure Lone (s : State) (n : Nat) : Prop where
  inputs : ∀ i ∈ s.inputs, s.clk < i.wclk
  messages : s.hostq = []
  due : ∀ t ∈ s.cal, t.late = false → s.clk < t.due
  round : s.clk % 16 ≠ 0
  sample : s.clk % Config.samplePeriod ≠ 0
  boot : s.mgmt.boot ≠ 4
  routers : busyRouters s = []
  waiting : s.bankq = []
  space : s.ctlw = []
  link : s.yelIn = []
  cores : liveCores s = [coreOf n]
  moves : ((s.arbitrated n).core (coreOf n)).icd = 0 ∧ ((s.arbitrated n).core (coreOf n)).spill = 0 ∧ draining (s.arbitrated n) (coreOf n) = none
  banks : bankRefused (s.arbitrated n) (coreOf n) = false
  turn : pick (s.arbitrated n) (coreOf n) = some n
  faults : ((s.arbitrated n).ctx n).delivered = []
  free : ((s.arbitrated n).ctx n).blocked = false ∧ ((s.arbitrated n).ctx n).skip = false
  matrix : ((s.arbitrated n).core (coreOf n)).matrix.step = none

/-- The rest of the clk that began in s once its core has issued: laterals that complete, the core's end, that of the idle cores,
the requests and steps that are due then, the routers, writes of the control space, and the clk's count. -/
def clkTail (s : State) (n : Nat) (t : State) : Out :=
  andThen (runLats t) fun u =>
  andThen (coreEnd (s.arbitrated n) (coreOf n) u) fun u =>
  andThen (forEach idleEnd ((u.cores.map (·.1)).filter fun c => c ≠ coreOf n) u) fun u =>
  andThen (runDue true ((senders u).foldl (fun v m => sendOf m v) u)) fun u =>
  andThen (andThen (entriesEnd u) (networkEnd s)) fun u =>
  andThen (ctlWrites u.ctlw [] { u with ctlw := [] }) fun u =>
    .next { bbOrder u with clk := u.clk + 1 }

end Sys2Proof.Machine
end

