-- ==== Sys2Proof/Certificates/Slice0/Obligations.lean ====
section
/-!
DEFINITION. The statements of this model.
-/

open Sys2Proof Sys2Proof.Machine

/-! ## Registers and ports -/

/-- R103, R104, R31, R240: a move into a scalar register writes all 64 bits of it and its tag at the end of the issue
clk; a move into a guard writes bit 0 of the value; nothing else changes. -/
def Obligations.ScalarAndGuardWrites : Prop :=
  ∀ (s : State) (g : BitVec 4) (src : BitVec 9), guardTrue s g = true → SourceReady s src .s →
    (∀ r : BitVec 5, ∃ t c, exec (.scalarRegisterWrite g r src) s = .next t ∧
      Did s t 0 { sourced s src with regs := { (sourced s src).regs with s := c.s, tags := c.tags } } ∧
      Regs.sreg c r.toNat = trigT s src ∧ (∀ m, m ≠ r.toNat → Regs.sreg c m = (sourced s src).regs.sreg m) ∧
      Regs.tag c r.toNat = codeTag s src 0 ∧ (∀ m, m ≠ r.toNat → Regs.tag c m = (sourced s src).regs.tag m)) ∧
    (∀ r : BitVec 3, ∃ t b, exec (.guardWrite g r src) s = .next t ∧
      Did s t 0 { sourced s src with regs := { (sourced s src).regs with g := b } } ∧
      ∀ k, k < 8 → b.getLsbD k = if k = r.toNat then (trigT s src).getLsbD 0 else (sourced s src).regs.g.getLsbD k)

/-! ## Scalar units -/

/-- R108: what each operation of SA0 and SA1 lands, at Lat 1, Int 1, W 1, with no flag. R109, R110, R65: what each operation
of SM lands; a multiply has Lat 3 and W 2, and a divide holds the divider for 20 clks. -/
def Obligations.ScalarUnitResults : Prop :=
  (∀ (s : State) (g : BitVec 4) (u : BitVec 1) (src : BitVec 9),
    let a := s.iss.ctx.portW u.toNat 0
    let b := s.iss.ctx.portW u.toNat 1
    let T := trigT s src
    let n := T.toNat % 64
    let lands (i : Instr) (port : Nat) (v : Word) : Prop := Results s i u.toNat port 1 1 1 g src (.s v) 0
    lands (.saAdd g u src) 4 (a + T) ∧ lands (.saSub g u src) 5 (a - T) ∧ lands (.saAnd g u src) 6 (a &&& T) ∧
    lands (.saOr g u src) 7 (a ||| T) ∧ lands (.saXor g u src) 8 (a ^^^ T) ∧ lands (.saAndn g u src) 9 (a &&& ~~~T) ∧
    lands (.saShl g u src) 10 (a <<< n) ∧ lands (.saShr g u src) 11 (a >>> n) ∧
    lands (.saSra g u src) 12 (BitVec.ofInt 64 (a.toInt / 2 ^ n)) ∧
    lands (.saRotl g u src) 13 (if n = 0 then a else a <<< n ||| a >>> (64 - n)) ∧
    lands (.saEq g u src) 14 (if a = T then 1 else 0) ∧ lands (.saNe g u src) 15 (if a = T then 0 else 1) ∧
    lands (.saLt g u src) 16 (if a.toInt < T.toInt then 1 else 0) ∧
    lands (.saLtu g u src) 17 (if a.toNat < T.toNat then 1 else 0) ∧
    lands (.saLe g u src) 18 (if a.toInt ≤ T.toInt then 1 else 0) ∧
    lands (.saLeu g u src) 19 (if a.toNat ≤ T.toNat then 1 else 0) ∧
    lands (.saMin g u src) 20 (if a.toInt ≤ T.toInt then a else T) ∧
    lands (.saMinu g u src) 21 (if a.toNat ≤ T.toNat then a else T) ∧
    lands (.saMax g u src) 22 (if T.toInt ≤ a.toInt then a else T) ∧
    lands (.saMaxu g u src) 23 (if T.toNat ≤ a.toNat then a else T) ∧
    lands (.saSel g u src) 24 (if b.getLsbD 0 then a else T) ∧
    (∃ v : Nat, v ≤ 64 ∧ (∀ k, 64 - v ≤ k → T.getLsbD k = false) ∧ (v < 64 → T.getLsbD (63 - v) = true) ∧
      lands (.saClz g u src) 25 (BitVec.ofNat 64 v)) ∧
    (∃ v : Nat, v ≤ 64 ∧ (∀ k, k < v → T.getLsbD k = false) ∧ (v < 64 → T.getLsbD v = true) ∧
      lands (.saCtz g u src) 26 (BitVec.ofNat 64 v)) ∧
    lands (.saPopc g u src) 27 (BitVec.ofNat 64 ((List.range 64).countP fun k => T.getLsbD k)) ∧
    (∃ v : Word, (∀ k, k ≤ n → v.getLsbD k = a.getLsbD k) ∧ (∀ k, n < k → k < 64 → v.getLsbD k = a.getLsbD n) ∧
      lands (.saSxt g u src) 28 v) ∧
    lands (.saLea g u src) 29 (a + b <<< (T.toNat % 4))) ∧
  ∀ (s : State) (g : BitVec 4) (src : BitVec 9),
    let a := s.iss.ctx.portW 2 0
    let T := trigT s src
    let mul (i : Instr) (port : Nat) (v : Word) : Prop := Results s i 2 port 3 1 2 g src (.s v) 0
    let div (i : Instr) (port : Nat) (v : Word) : Prop := Results s i 2 port 20 20 3 g src (.s v) 0
    mul (.smMul g src) 4 (a * T) ∧
    mul (.smMulh g src) 5 (BitVec.ofInt 64 (Int.fdiv (a.toInt * T.toInt) (2 ^ 64))) ∧
    mul (.smMulhu g src) 6 (BitVec.ofNat 64 (a.toNat * T.toNat / 2 ^ 64)) ∧
    div (.smDiv g src) 7 (if T = 0 then BitVec.allOnes 64
      else if a.toInt = -(2 ^ 63) ∧ T.toInt = -1 then BitVec.ofInt 64 (-(2 ^ 63))
      else BitVec.ofInt 64 (Int.tdiv a.toInt T.toInt)) ∧
    div (.smDivu g src) 8 (if T = 0 then BitVec.allOnes 64 else BitVec.ofNat 64 (a.toNat / T.toNat)) ∧
    div (.smRem g src) 9 (if T = 0 then a
      else if a.toInt = -(2 ^ 63) ∧ T.toInt = -1 then 0
      else BitVec.ofInt 64 (a.toInt - T.toInt * Int.tdiv a.toInt T.toInt)) ∧
    div (.smRemu g src) 10 (if T = 0 then a else BitVec.ofNat 64 (a.toNat - T.toNat * (a.toNat / T.toNat)))

/-! ## Tile registers and operand ports -/

/-- R40, R41, R240: a one-row move writes row WROW of a tile register with its tag and leaves the other rows; a whole-tile
move writes row 0 now and starts a sequencer for rows 1-7. -/
def Obligations.TileRegisterWrites : Prop :=
  ∀ (s : State) (g : BitVec 4) (r : BitVec 4) (src : BitVec 9), guardTrue s g = true →
    let old := (sourced s src).regs
    (SourceReady s src .r → ∃ t x, exec (.tileRowWrite g r src) s = .next t ∧
      Did s t 0 { sourced s src with regs := { old with t := x.t, tags := x.tags, wrote := x.wrote } } ∧
      (∀ k, k < 8 → tileRow (Regs.treg x r.toNat) k =
        if k = wrowOf s then (readCode s src).row else tileRow (old.treg r.toNat) k) ∧
      (∀ m, m ≠ r.toNat → Regs.treg x m = old.treg m) ∧ Regs.tag x (32 + 8 * r.toNat + wrowOf s) = codeTag s src 0 ∧
      ∀ m, m ≠ 32 + 8 * r.toNat + wrowOf s → Regs.tag x m = old.tag m) ∧
    (SourceReady s src .t → ∃ t x j, exec (.wholeTileWrite g r src) s = .next t ∧
      Did s t 0
        { sourced s src with
          regs := { old with t := x.t, tags := x.tags, wrote := x.wrote }
          inf := { (sourced s src).inf with jobs := (sourced s src).inf.jobs ++ [j] } } ∧
      j.k = 1 ∧ j.src = jobSource s src ∧ j.dst = .reg r.toNat ∧
      (∀ k, k < 8 → tileRow (Regs.treg x r.toNat) k =
        if k = 0 then tileRow (readCode s src).tile 0 else tileRow (old.treg r.toNat) k) ∧
      (∀ m, m ≠ r.toNat → Regs.treg x m = old.treg m) ∧ Regs.tag x (32 + 8 * r.toNat) = codeTag s src 0 ∧
      ∀ m, m ≠ 32 + 8 * r.toNat → Regs.tag x m = old.tag m)

/-- R36, R38, R123: a move into an operand port leaves its value there, as the port's kind takes it (R35), with its tag;
a move into a tile port d writes row 0 now and starts a sequencer. Every other port stays. -/
def Obligations.OperandPortWrites : Prop :=
  ∀ (s : State) (g : BitVec 4) (f : BitVec 5) (p : BitVec 2) (src : BitVec 9) (k : Kind),
    portKind f.toNat p.toNat = some k → guardTrue s g = true → SourceReady s src k →
    let old := sourced s src
    ∃ (t : State) (c : Ctx), exec (.operandPortWrite g f p src) s = .next t ∧
      Did s t 0 { old with ports := c.ports, portSk := c.portSk, inf := c.inf, regs := { old.regs with tags := c.regs.tags } } ∧
      (k = .s → c.portW f.toNat p.toNat = trigT s src) ∧ (k = .r → c.portR f.toNat p.toNat = (readCode s src).row) ∧
      (k ≠ .t → c.inf = old.inf) ∧
      (k = .t → tileRow (c.portT f.toNat p.toNat) 0 = tileRow (readCode s src).tile 0 ∧
        (∀ i, 0 < i → i < 8 → tileRow (c.portT f.toNat p.toNat) i = tileRow (old.portT f.toNat p.toNat) i) ∧
        ∃ j, c.inf = { old.inf with jobs := old.inf.jobs ++ [j] } ∧ j.k = 1 ∧ j.src = jobSource s src ∧
          j.dst = .portD f.toNat) ∧
      (∀ m, m ≠ 4 * f.toNat + p.toNat → KMap.get (.s 0) c.ports m = KMap.get (.s 0) old.ports m ∧
        KMap.get none c.portSk m = KMap.get none old.portSk m) ∧
      c.regs.tag (portTag f.toNat p.toNat 0) = codeTag s src 0 ∧
      ∀ m, m ≠ portTag f.toNat p.toNat 0 → c.regs.tag m = old.regs.tag m

/-! ## Branches and loops -/

/-- R111, R112: a taken branch makes its target the bundle after the delay bundle; `br.call` also lands PCb + 64 at Lat 2;
a target outside the code region is refused with code 0x07 and the target (R113). -/
def Obligations.BranchesTaken : Prop :=
  ∀ (s : State) (g : BitVec 4) (src : BitVec 9),
    let T := trigT s src
    let R := s.iss.pc + 32 * T
    let goes (i : Instr) (port : Nat) (a : Word) (f : Ctx → Ctx) : Prop :=
      (inCode s s.iss.n a = true → Completes s i 3 port 1 1 false g src fun c => f { c with npc := some a }) ∧
      (inCode s s.iss.n a = false → Ready s 3 port false g src → Traps s i 0x07 a)
    goes (.brJmp g src) 4 T id ∧ goes (.brCall g src) 5 T (landing s 2 3 (.s (s.iss.pc + 64)) 0) ∧
    goes (.brRet g src) 6 T id ∧ goes (.brJrel g src) 7 R id

/-- R114: `lp.loop` sets the loop registers, `lp.brk` sets BRK unless its LEND bundle has consumed it (R115), and `lp.cnt`
lands LPCNT. -/
def Obligations.LoopUnit : Prop :=
  ∀ (s : State) (g : BitVec 4) (src : BitVec 9),
    (inCode s s.iss.n (trigT s src) = true → Completes s (.lpLoop g src) 4 4 1 1 false g src fun c =>
      { c with ctl :=
        { c.ctl with
          lpcnt := (s.iss.ctx.portW 4 0).setWidth 32, lpstart := (trigT s src).extractLsb' 5 18, lpbrk := false } }) ∧
    (inCode s s.iss.n (trigT s src) = false → Ready s 4 4 false g src → Traps s (.lpLoop g src) 0x07 (trigT s src)) ∧
    (Completes s (.lpBrk g src) 4 5 1 1 false g src fun c =>
      if hdrLend s.iss.hdr then c else { c with ctl := { c.ctl with lpbrk := true } }) ∧
    Results s (.lpCnt g src) 4 6 1 1 1 g src (.s (s.iss.ctx.ctl.lpcnt.setWidth 64)) 0

/-- R115: the back-edge action of a LEND bundle. TRAPVAL of the loop-range trap is stated by no rule and is left free
(log 12). -/
def Obligations.BackEdge : Prop :=
  ∀ (s : State) (n : Nat), s.iss.n = n → hdrLend s.iss.hdr = true →
    let l := s.iss.ctx.ctl
    let brk := l.lpbrk || bundleBrk s
    let start := 32 * l.lpstart.toNat
    let len : Int := ((s.iss.pc.toNat : Int) - start) / 32 + 1
    let leaves (cnt : BitVec 32) (body : BitVec 14) : Prop := ∃ t, exec (.backEdgeAction n) s = .next t ∧
      t = s.setCtx n { s.ctx n with ctl := { (s.ctx n).ctl with lpcnt := cnt, lplen := body, lpbrk := false } }
    (1 < l.lpcnt.toNat → brk = false → start ≤ s.iss.pc.toNat → len ≤ s.iss.core.limit.toNat →
      leaves (l.lpcnt - 1) (BitVec.ofInt 14 len) ∧
      nextPc s.iss.ctx s.iss.pc true (bundleBrk s) = s.iss.ctx.npc.getD (w64 start)) ∧
    (1 < l.lpcnt.toNat → brk = false → s.iss.pc.toNat < start ∨ (s.iss.core.limit.toNat : Int) < len →
      ∃ v, Traps s (.backEdgeAction n) 0x08 v) ∧
    (l.lpcnt.toNat ≤ 1 ∨ brk = true → leaves 0 l.lplen ∧
      nextPc s.iss.ctx s.iss.pc true (bundleBrk s) = s.iss.ctx.npc.getD (s.iss.pc + 32))

/-! ## Control registers -/

/-- R117, R91: `cx.rd` lands the control register that T names as it stood at the start of the clk; a number above 34 is
refused. `cx.flg` lands FLAGS and clears the flags whose bits are set in T. -/
def Obligations.ControlReads : Prop :=
  ∀ (s : State) (g : BitVec 4) (src : BitVec 9),
    let T := trigT s src
    (T.toNat ≤ 34 →
      Results s (.cxRd g src) 5 4 2 1 1 g src (.s (ctlRead s s.iss.n s.iss.ctx s.iss.core T.toNat)) 0) ∧
    (34 < T.toNat → Ready s 5 4 false g src → Traps s (.cxRd g src) 0x06 T) ∧
    Completes s (.cxFlg g src) 5 7 1 1 false g src fun c =>
      landing s 1 5 (.s (s.iss.ctx.ctl.flags.setWidth 64)) 0
        { c with ctl := { c.ctl with flags := c.ctl.flags &&& ~~~(T.setWidth 6) } }

/-- R118, R105, R420: `cx.wr` writes a to the control register that T names; a register marked (P) needs privilege, and
in an unprivileged member's handler only TRAPPC, TRAPCODE and TRAPVAL may be written; refused numbers and values. -/
def Obligations.ControlWrites : Prop :=
  ∀ (s : State) (g : BitVec 4) (src : BitVec 9),
    let no := (trigT s src).toNat
    let a := s.iss.ctx.portW 5 0
    let may := ctlPriv no = true →
      s.iss.ctx.ctl.priv = true ∧ (limitedPriv s.iss.ctx = false ∨ (22 ≤ no ∧ no ≤ 24))
    (no ≤ 34 → may → ctlRefuse s.iss.core no a = none →
      CompletesCore s (.cxWr g src) 5 5 1 1 false g src (fun c => ctlWriteCtx c no a) fun k => ctlWriteCore k no a) ∧
    (34 < no → Ready s 5 5 false g src → Traps s (.cxWr g src) 0x06 (trigT s src)) ∧
    (no ≤ 34 → ¬may → Ready s 5 5 false g src → ∃ v, Traps s (.cxWr g src) 0x02 v) ∧
    (no ≤ 34 → may → Ready s 5 5 false g src → ∀ f, ctlRefuse s.iss.core no a = some f → Traps s (.cxWr g src) f.1 f.2)

/-- R105, R107, R118: after a write that nothing refuses, a control register reads as the written value in the bits it
has; a register that `cx.wr` does not change reads as before; and no other register changes, but for the event counters
that a write of EVSEL restarts (R410). -/
def Obligations.ControlReadBack : Prop :=
  ∀ (s : State) (n no : Nat) (c : Ctx) (k : Core) (v : Word), no ≤ 34 → ctlRefuse k no v = none →
    let after (m : Nat) : Word := ctlRead s n (ctlWriteCtx c no v) (ctlWriteCore k no v) m
    let masks : List (Nat × Word) :=
      [(0, 0xFFFFFFFFFFFF003F), (1, 0x3F), (8, 0xFFFF), (9, 0xFFFFFFFFF000), (10, 0x3FFF), (11, 1), (12, 0xFFFFFFFF),
       (14, 0x7FFFE1), (19, 0xFFFFFF), (20, 0xFFF), (21, 0x3FF), (22, 0x7FFFE0), (23, 0xFF), (24, 0xFFFFFFFFFFFFFFFF),
       (25, 0x7FFFE0), (26, 7), (28, 0xFFFFFFFFFFFFC0), (29, 0x7FFFC0), (30, 0xFFFFFFFF)]
    (∀ x, (no, x) ∈ masks → after no = v &&& x) ∧
    ((∀ x, (no, x) ∉ masks) → after no = ctlRead s n c k no) ∧
    ∀ m, m ≠ no → (no = 30 → m < 31) → after m = ctlRead s n c k m

/-- R88, R119: `cx.fmt` writes FMT at once for reads and takes effect for arithmetic after five clks; a reserved rounding
mode is refused. The shadow's end makes the last due value the one that governs. -/
def Obligations.FmtShadow : Prop :=
  (∀ (s : State) (g : BitVec 4) (src : BitVec 9),
    let T := trigT s src
    let v := T &&& 0xFFFFFFFFFFFF003F
    ((T.extractLsb' 0 3).toNat < 5 → Completes s (.cxFmt g src) 5 6 1 1 false g src fun c =>
      { c with ctl := { c.ctl with fmt := v }, inf := { c.inf with fmtPend := c.inf.fmtPend ++ [(5, v)] } }) ∧
    (5 ≤ (T.extractLsb' 0 3).toNat → Ready s 5 6 false g src →
      Traps s (.cxFmt g src) 0x05 ((T.extractLsb' 0 3).setWidth 64))) ∧
  ∀ (s : State) (n : Nat) (l r : List (Nat × Word)) (v : Word), (s.ctx n).inf.fmtPend = l ++ (0, v) :: r →
    (∀ p ∈ r, p.1 ≠ 0) → ∃ t, exec (.fmtShadowExpiry n) s = .next t ∧
      t = s.setCtx n { s.ctx n with inf :=
        { (s.ctx n).inf with fmtEff := v, fmtPend := (l.filter fun p => decide (p.1 ≠ 0)) ++ r } }

/-! ## Traps and the system unit -/

/-- R417, R418, R419: a trap taken from the bundle in the latch, where the context has a handler, no walk is retrying
the bundle and its kernel has not been killed (R424). The snapshot is what is in flight; buffer advances that are due are
made first (R281). -/
def Obligations.TrapEntry : Prop :=
  ∀ (s : State) (r code : Nat) (v : Word), hasHandler (s.ctx s.iss.n) = true → (s.ctx s.iss.n).walk = none →
    (s.ctx s.iss.n).doomed = false →
    let n := s.iss.n
    let c := s.ctx n
    let t := raiseNote s (.trap r code v)
    let d := t.ctx n
    (d.pc = w64 (32 * c.ctl.trapvec.toNat) ∧ d.npc = none ∧ d.hdep = true ∧ d.ctl.priv = true ∧
      d.ctl.trappc = BitVec.ofNat 18 (s.iss.pc.toNat / 32) ∧ d.ctl.trapcode = BitVec.ofNat 8 code ∧ d.ctl.trapval = v ∧
      d.regs.s = c.regs.s ∧ d.regs.g = c.regs.g ∧ d.regs.t = c.regs.t ∧
      (∀ fu age, (d.entry fu age).val = .s 0) ∧ (∀ fu p, d.portW fu p = 0) ∧
      d.ctl.lpcnt = 0 ∧ d.ctl.lplen = 0 ∧ d.ctl.lpstart = 0 ∧ d.ctl.lpbrk = false ∧
      d.inf.flights = [] ∧ d.inf.jobs = [] ∧ d.accs = []) ∧
    (c.accs = [] → ∃ f, d.frame = some f ∧
      f.inf = { c.inf with
        flights := c.inf.flights.map fun x => { x with snap := true }
        jobs := c.inf.jobs.map fun x => { x with snap := true }
        cbAdv := c.inf.cbAdv.filter fun p => p.1 ≠ 0 } ∧
      f.oq = c.oq ∧ f.ports = c.ports ∧ f.lpcnt = c.ctl.lpcnt ∧ f.lplen = c.ctl.lplen ∧ f.lpstart = c.ctl.lpstart ∧
      f.lpbrk = c.ctl.lpbrk ∧ f.npc = c.npc ∧ f.skip = c.skip) ∧
    d.skip = false ∧
    (t.core (coreOf n)).icd = 4 ∧ (∀ m, m ≠ n → t.ctx m = s.ctx m)

/-- R437, R418, R419: the return from a class-I trap or from `sy.trap` that its handler resumes. -/
def Obligations.TrapReturn : Prop :=
  ∀ (s : State) (n : Nat) (f : Frame), (s.ctx n).frame = some f → f.cls ≤ 1 → f.replay = none →
    let c := s.ctx n
    let t := finishReturn s n 0
    let d := t.ctx n
    d.hdep = false ∧ d.ctl.priv = c.recPriv ∧ d.pc = w64 (32 * c.ctl.trappc.toNat) ∧ d.frame = none ∧ d.rfe = none ∧
    d.oq = f.oq ∧ d.ports = f.ports ∧ d.ctl.lpcnt = f.lpcnt ∧ d.ctl.lplen = f.lplen ∧ d.ctl.lpstart = f.lpstart ∧
    d.ctl.lpbrk = f.lpbrk ∧ d.inf.flights = f.inf.flights ∧ d.inf.jobs = f.inf.jobs ∧
    d.regs.s = c.regs.s ∧ d.regs.g = c.regs.g ∧ d.regs.t = c.regs.t ∧ d.ctl.trapcode = c.ctl.trapcode ∧
    (t.core (coreOf n)).icd = 4 ∧ (∀ m, m ≠ n → t.ctx m = s.ctx m) ∧ t.mem = s.mem

/-- R436, R417, R430, R439: `sy.trap` with a handler enters it for the next bundle, and without one takes the walk's
core level as black-box record; `sy.rfe` in a handler asks for the return and elsewhere is refused; `sy.stop` sets a stop
for the end of the next clk; `sy.snap` lands a word of a snapshot. -/
def Obligations.SystemUnit : Prop :=
  ∀ (s : State) (g : BitVec 4) (src : BitVec 9),
    let n := s.iss.n
    let T := trigT s src
    let a := s.iss.ctx.portW 7 0
    let code := 0x80 + T.toNat % 128
    (Ready s 7 4 false g src → hasHandler (s.ctx n) = true → ∃ t, exec (.syTrap g src) s = .next t ∧
      (t.ctx n).pc = w64 (32 * (s.ctx n).ctl.trapvec.toNat) ∧ (t.ctx n).hdep = true ∧
      (t.ctx n).ctl.trapcode = BitVec.ofNat 8 code ∧ (t.ctx n).ctl.trapval = a ∧
      (t.ctx n).ctl.trappc = BitVec.ofNat 18 ((s.ctx n).pc.toNat / 32) ∧ (t.core (coreOf n)).icd = 4 ∧
      ∀ m, m ≠ n → t.ctx m = s.ctx m) ∧
    (Ready s 7 4 false g src → hasHandler (s.ctx n) = false → policy (s.ctx n).ctl.cpol 0 = .ignore →
      ∃ t e, exec (.syTrap g src) s = .next t ∧ t.ctx n = sourced s src ∧ t.bb = newest 4096 (s.bb ++ [e]) ∧
      e.kind = 1 ∧ e.code = BitVec.ofNat 8 code ∧ e.kid = (s.ctx n).ctl.kid ∧ e.val = a ∧ t.mem = s.mem) ∧
    (T.toNat % 4 ≠ 3 → s.iss.ctx.hdep = true →
      Completes s (.syRfe g src) 7 5 1 1 false g src fun c => { c with rfe := some (T.setWidth 2) }) ∧
    (T.toNat % 4 = 3 ∨ s.iss.ctx.hdep = false → Ready s 7 5 false g src → Traps s (.syRfe g src) 0x0A T) ∧
    (a.toNat < 4096 → Ready s 7 6 false g src → ∃ t, exec (.syStop g src) s = .next t ∧
      DidRest s t 1 (sourced s src) id (s.at (s.clk + 1) true (.stopRequest a.toNat))) ∧
    (4096 ≤ a.toNat → Ready s 7 6 false g src → Traps s (.syStop g src) 0x0A a) ∧
    Results s (.sySnap g src) 7 8 2 1 1 g src
      (.s (snapWord (snapOf (if a.toNat % 4 = n % 4 then s.iss.ctx else s.ctx (4 * coreOf n + a.toNat % 4))) T)) 0

/-- R436, R438, R426, R430: `sy.rel` lets a context that stands still for inspection go on, with STOPF 0; frees a fenced
one whose kernel is gone; takes the fence from a command queue; and takes it from a holder. A context that goes on waits for
its next issue (R413); one that issues no more goes on at once, after the work of R414 and R212, if it has any. -/
def Obligations.SystemRelease : Prop :=
  ∀ (s : State) (g : BitVec 4) (src : BitVec 9), Ready s 7 7 false g src →
    let T := trigT s src
    let m := T.toNat / 8 % 4096
    let issues := decide ((s.ctx m).workSt = .running) && (s.ctx m).rfe.isNone
    let plain := issues = true ∨ ((s.ctx m).replay = none ∧ heldStep s m = none)
    (T.toNat % 8 = 0 → m ≠ s.iss.n → ∃ t, exec (.syRel g src) s = .next t ∧
      (plain → t.ctx s.iss.n = sourced s src) ∧
      (plain → (s.ctx m).st = .inspect → t.ctx m =
        { s.ctx m with
          st := (s.ctx m).workSt, readySince := s.clk, kept := 0, parked := issues
          ctl := { (s.ctx m).ctl with stopf := false } }) ∧
      (plain → (s.ctx m).st = .frozenV → (∃ k ∈ s.dist.kerns, k.kid = (s.ctx m).ctl.kid) → t.ctx m =
        { s.ctx m with st := (s.ctx m).workSt, fenced := false, readySince := s.clk, parked := issues }) ∧
      ((s.ctx m).st = .frozenV → (∀ k ∈ s.dist.kerns, k.kid ≠ (s.ctx m).ctl.kid) → (t.ctx m).st = .empty ∧
        t.ctx s.iss.n = sourced s src) ∧
      ((s.ctx m).st = .running ∨ (s.ctx m).st = .draining ∨ (s.ctx m).st = .saving ∨ (s.ctx m).st = .empty →
        t.ctx m = s.ctx m)) ∧
    (T.toNat % 8 = 0 → m = s.iss.n → (s.ctx m).st = .running → ∃ t, exec (.syRel g src) s = .next t ∧
      Did s t 1 (sourced s src)) ∧
    (T.toNat % 8 = 1 → ∃ t, exec (.syRel g src) s = .next t ∧ KMap.get false (t.ctx m).qfence (fld T 15 5) = false ∧
      (KMap.get false (s.ctx m).qfence (fld T 15 5) = false → Did s t 1 (sourced s src))) ∧
    (T.toNat % 8 = 2 → ∃ t, exec (.syRel g src) s = .next t ∧ t.ctx s.iss.n = sourced s src ∧
      (∀ h, holderOf (fld T 20 11) = some h → t.holder h = { s.holder h with fence := false }) ∧
      ∀ h, holderOf (fld T 20 11) ≠ some h → t.holder h = s.holder h) ∧
    (3 ≤ T.toNat % 8 → Traps s (.syRel g src) 0x0A T)

/-- R420, R48: a privileged port used without privilege, and a unit still held, are refused before the move's own
checks; nothing of the move is performed. TRAPVAL of both traps is stated by no rule and is left free (log 12). -/
def Obligations.PrivilegeAndBusy : Prop :=
  ∀ (s : State) (g : BitVec 4) (src : BitVec 9), guardTrue s g = true →
    let refused (i : Instr) (code : Nat) : Prop := ∃ v, Traps s i code v
    (s.iss.ctx.ctl.priv = false → refused (.syRfe g src) 0x02 ∧ refused (.syStop g src) 0x02 ∧
      refused (.syRel g src) 0x02 ∧ refused (.sySnap g src) 0x02 ∧ refused (.mxMld g src) 0x02 ∧
      refused (.pwLim g src) 0x02 ∧ refused (.xlSda g src) 0x02 ∧ refused (.xlSdk g src) 0x02) ∧
    (KMap.get 0 s.iss.ctx.inf.held 100 ≠ 0 → refused (.smDiv g src) 0x03 ∧ refused (.smRemu g src) 0x03) ∧
    (KMap.get 0 s.iss.ctx.inf.held 8 ≠ 0 → refused (.lsLdr g src) 0x03 ∧ refused (.atAdd g src) 0x03)

/-! ## Loads, stores and atomics -/

/-- R185, R186, R187, R193: a local load or store that may take place enters its bank rows, each for the clk in which it
reaches its bank, with the bytes it stores, and raises OLD or OST. -/
def Obligations.LocalAccessesEntered : Prop :=
  ∀ (s : State) (g : BitVec 4) (src : BitVec 9),
    let a := s.iss.ctx.portW 8 0
    let b := s.iss.ctx.portW 8 1
    let T := trigT s src
    let sz := 2 ^ (a.toNat % 4)
    let scopeOk := a.getLsbD 3 = true → a.toNat / 16 % 8 < 6
    let rows (rem pa n data : Nat) (fin : AccFin) (ld st : Bool) (va : Word) : LocalAcc :=
      ⟨rem, s.serial, segsOf pa 0 n, [], data, fin, ld, st, false, va, ld && a.getLsbD 3, false, 0⟩
    let load (c : Ctx) (l : List LocalAcc) : Ctx :=
      { c with accs := c.accs ++ l, ctl := { c.ctl with old := c.ctl.old + 1 } }
    let store (c : Ctx) (l : List LocalAcc) : Ctx :=
      { c with accs := c.accs ++ l, ctl := { c.ctl with ost := c.ctl.ost + 1 } }
    (scopeOk → LocalOk s T sz sz (segsOf (localPA s T) 0 sz) false → Completes s (.lsLds g src) 8 4 1 4 false g src fun c =>
      load c [rows 3 (localPA s T) sz 0 (.lds sz (a.getLsbD 2)) true false T]) ∧
    (scopeOk → LocalOk s b sz sz (segsOf (localPA s b) 0 sz) (a.getLsbD 3) → Completes s (.lsSts g src) 8 5 1 4 false g src fun c =>
      store c [rows 3 (localPA s b) sz T.toNat .store false true b]) ∧
    (scopeOk → LocalOk s T 256 256 (segsOf (localPA s T) 0 256) false → Completes s (.lsLdr g src) 8 6 1 4 false g src fun c =>
      load c [rows 3 (localPA s T) 256 0 .row true false T]) ∧
    (scopeOk → LocalOk s b 256 256 (segsOf (localPA s b) 0 256) (a.getLsbD 3) → Completes s (.lsStr g src) 8 7 1 4 false g src fun c =>
      store c [rows 3 (localPA s b) 256 (readCode s src).row.toNat .store false true b]) ∧
    (scopeOk → LocalOk s T 256 2048 [⟨localPA s T, 2048, 0⟩] false → Completes s (.lsLdt g src) 8 8 8 16 false g src fun c =>
      load c ((List.range 8).map fun k =>
        { rows (3 + k) (localPA s T + 256 * k) 256 0 (.tileRow k) (decide (k = 7)) false T with acq := a.getLsbD 3 }))

/-- R186, R187, R188: a tile store and the bit-plane forms: row 0 of `ls.stt` is entered now and its sequencer brings
rows 1-7; `ls.stp` waits for its sequencer's last row; `ls.ldp` enters every bank row of the planes. -/
def Obligations.TileAccessesEntered : Prop :=
  ∀ (s : State) (g : BitVec 4) (src : BitVec 9),
    let a := s.iss.ctx.portW 8 0
    let b := s.iss.ctx.portW 8 1
    let T := trigT s src
    let row0 := tileRow (readCode s src).tile 0
    let scopeOk := a.getLsbD 3 = true → a.toNat / 16 % 8 < 6
    let planes := 1 ≤ lsNpl a ∧ lsNpl a ≤ 24
    let span := 32 + 128 * (lsNpl a - 1) + 64 * lsHalf a + 64
    let job (dst : JobDst) (buf : Tile) : Job := ⟨1, jobSource s src, dst, buf, 0, s.serial, 0, jobTag s src, 0, false⟩
    let store (c : Ctx) (l : List LocalAcc) (j : Job) : Ctx :=
      { c with
        accs := c.accs ++ l, ctl := { c.ctl with ost := c.ctl.ost + 1 }
        inf := { c.inf with jobs := c.inf.jobs ++ [j] } }
    (scopeOk → LocalOk s b 256 2048 [⟨localPA s b, 2048, 0⟩] (a.getLsbD 3) → Completes s (.lsStt g src) 8 9 8 16 false g src fun c =>
      store c [⟨3, s.serial, segsOf (localPA s b) 0 256, [], row0.toNat, .store, false, false, false, b, false, false, 0⟩]
        (job (.stt (w64 (localPA s b))) 0)) ∧
    (scopeOk → planes → LocalOk s T 32 span (planeSegs (localPA s T) (lsNpl a) (lsHalf a)) false → Completes s (.lsLdp g src) 8 10 8 16 false g src fun c =>
      { c with
        accs := c.accs ++ [⟨3, s.serial, planeSegs (localPA s T) (lsNpl a) (lsHalf a), [], 0,
          .ldp (lsNpl a) (lsHalf a) (a.getLsbD 2), true, false, false, T, a.getLsbD 3, false, 0⟩]
        ctl := { c.ctl with old := c.ctl.old + 1 } }) ∧
    (scopeOk → planes → LocalOk s b 32 span (planeSegs (localPA s b) (lsNpl a) (lsHalf a)) (a.getLsbD 3) → Completes s (.lsStp g src) 8 11 8 16 false g src fun c =>
      store c [] (job (.stp (w64 (localPA s b)) (lsNpl a) (lsHalf a)) (tileSet 0 0 row0)))

/-- R169, R185: what a scalar load or store meets, where no lateral access and no local atomic of its context holds it: a
reserved scope, then an address outside the arena's window, one that is not aligned, one past the arena's end. -/
def Obligations.LocalAccessFaults : Prop :=
  ∀ (s : State) (g : BitVec 4) (src : BitVec 9), s.iss.ctx.lats = [] →
    (∀ x ∈ s.iss.ctx.accs, ∀ op cmp arg, x.fin ≠ .atom op cmp arg) →
    let a := s.iss.ctx.portW 8 0
    let sz := 2 ^ (a.toNat % 4)
    let scopeOk := a.getLsbD 3 = true → a.toNat / 16 % 8 < 6
    let faults (i : Instr) (x : Word) : Prop :=
      (¬scopeOk → Traps s i 0x09 (w64 (a.toNat / 16 % 8))) ∧
      (scopeOk → 2 ^ 23 ≤ x.toNat → Traps s i 0x20 x) ∧
      (scopeOk → x.toNat < 2 ^ 23 → x.toNat % sz ≠ 0 → Traps s i 0x21 x) ∧
      (scopeOk → x.toNat < 2 ^ 23 → x.toNat % sz = 0 → arenaBytes s.iss.ctx < x.toNat + sz → Traps s i 0x20 x)
    (Ready s 8 4 false g src → faults (.lsLds g src) (trigT s src)) ∧
    (Ready s 8 5 false g src → faults (.lsSts g src) (s.iss.ctx.portW 8 1))

/-- R194: an atomic at the own quad enters one access of its word, which counts as a load and a store. -/
def Obligations.LocalAtomics : Prop :=
  ∀ (s : State) (g : BitVec 4) (src : BitVec 9),
    let a := s.iss.ctx.portW 9 0
    let enters (i : Instr) (port : Nat) : Prop := fld a 23 6 = ownQi s.iss.ctx s.iss.n → WindowOk s a 8 8 →
      (∀ l ∈ s.iss.ctx.lats, l.performed = true ∨ (l.acq = false ∧ sameRow [⟨windowPA s.iss.ctx s.iss.n a, 8, 0⟩] l = false)) →
      (∀ x ∈ s.iss.ctx.accs, atomRow [⟨windowPA s.iss.ctx s.iss.n a, 8, 0⟩] x = false) →
      Completes s i 9 port 1 4 false g src fun c =>
        { c with
          accs := c.accs ++ [⟨3, s.serial, [⟨windowPA s.iss.ctx s.iss.n a, 8, 0⟩], [], 0,
            .atom port (s.iss.ctx.portW 9 1) (trigT s src), true, true, false, a, false, false, 0⟩]
          ctl := { c.ctl with old := c.ctl.old + 1, ost := c.ctl.ost + 1 } }
    enters (.atSwap g src) 4 ∧ enters (.atCas g src) 5 ∧ enters (.atAdd g src) 6 ∧ enters (.atAnd g src) 7 ∧
    enters (.atOr g src) 8 ∧ enters (.atXor g src) 9 ∧ enters (.atMin g src) 10 ∧ enters (.atMax g src) 11 ∧
    enters (.atMinu g src) 12 ∧ enters (.atMaxu g src) 13 ∧ enters (.atAaddx g src) 14

/-- R189, R195, R192, R395: a lateral load completes its bundle with its token pending, itself at the tail of the context's
lateral accesses behind the local accesses that are performed before it, and OLD raised; so does an atomic of another
quad, with the next sequence number and OST raised too. -/
def Obligations.LateralAccessesEntered : Prop :=
  ∀ (s : State) (g : BitVec 4) (src : BitVec 9),
    let c := s.iss.ctx
    let n := s.iss.n
    let T := trigT s src
    let pend (x : Ctx) (k : Nat) : Ctx := x.setTok k ⟨.pending, (x.tok k).val⟩
    (let a := c.portW 8 0
     let tk := lsTok a
     let len := match lsLk a with | 0 => 2 ^ (a.toNat % 4) | 1 => 256 | _ => 2048
     (a.getLsbD 3 = true → a.toNat / 16 % 8 < 6) → lsLk a ≠ 3 → (c.tok tk).st ≠ .pending →
      WindowOk s T (if lsLk a = 0 then len else 256) len →
      Completes s (.lsLat g src) 8 12 1 4 false g src fun x => { pend x tk with
        lats := x.lats ++ [⟨s.serial, T, windowPA c n T, len, none, a.getLsbD 3, tk, lsLk a, a.getLsbD 2, lsTreg a, lsTrow a,
          0, false, false, 0, 0, s.clk, latAfter c (windowPA c n T) len, false⟩]
        ctl := { x.ctl with old := x.ctl.old + 1 } }) ∧
    (let a := c.portW 9 0
     let tk := (c.portW 9 2).toNat % 16
     let remote (i : Instr) (port : Nat) : Prop := fld a 23 6 ≠ ownQi c n → WindowOk s a 8 8 → (c.tok tk).st ≠ .pending →
      remoteCount c < 4 →
      Completes s i 9 port 1 4 false g src fun x => { pend x tk with
        lats := x.lats ++ [⟨s.serial, a, windowPA c n a, 8, some (port, c.portW 9 1, T), false, tk, 0, false, 0, 0, c.latSeq,
          false, false, 0, 0, s.clk, latAfter c (windowPA c n a) 8, false⟩]
        latSeq := x.latSeq + 1
        ctl := { x.ctl with old := x.ctl.old + 1, ost := x.ctl.ost + 1 } }
     remote (.atSwap g src) 4 ∧ remote (.atCas g src) 5 ∧ remote (.atAdd g src) 6 ∧ remote (.atAnd g src) 7 ∧
     remote (.atOr g src) 8 ∧ remote (.atXor g src) 9 ∧ remote (.atMin g src) 10 ∧ remote (.atMax g src) 11 ∧
     remote (.atMinu g src) 12 ∧ remote (.atMaxu g src) 13 ∧ remote (.atAaddx g src) 14)

/-- R154, R186, R187, R194, R193, R410: an access whose bank row has been granted, and which meets no erroneous word, is
performed: a store writes its bytes and no other, a load's value lands 3 clks later, an atomic reads, writes and lands its
old word 7 clks later (an access that was performed in frozen clks, log 49, by as many clks later); OLD and OST fall, and
the core counts the row. -/
def Obligations.LocalAccessPerformed : Prop :=
  ∀ (s : State) (c i : Nat) (a : LocalAcc) (pa len : Nat), i < 4 →
    let n := 4 * c + i
    (∀ j, j < 4 → j ≠ i → (s.ctx (4 * c + j)).accs = []) → (s.ctx n).accs = [a] → a.rem = 0 → a.segs = [] →
    a.won = [⟨pa, len, 0⟩] → a.dead = false → segsBad s a a.won = none → Memory.wf s.mem = true →
    let done (x : Ctx) : Ctx := { x with
      accs := []
      ctl := { x.ctl with
        old := if a.lastOld then x.ctl.old - 1 else x.ctl.old, ost := if a.lastOst then x.ctl.ost - 1 else x.ctl.ost } }
    let lands (x : Ctx) (lat fu : Nat) (v : Word) (f : Flg) : Ctx :=
      { x with inf := { x.inf with flights := x.inf.flights ++ [⟨lat, fu, a.id, .entry (.s v), f, 0, false⟩] } }
    let leaves (f : Ctx → Ctx) (m : Nat → Byte) : Prop := ∃ t, exec (.localAccessPerform c) s = .next t ∧
      t.ctx n = f (s.ctx n) ∧ (∀ k, k ≠ n → t.ctx k = s.ctx k) ∧ (∀ k, k ≠ coreOf n → t.core k = s.core k) ∧
      t.core (coreOf n) = (s.core (coreOf n)).count 0x0B 1 ∧ ∀ x, Memory.read t.mem x = m x
    (a.fin = .store → leaves done fun x =>
      if pa ≤ x ∧ x < pa + len then BitVec.ofNat 8 (a.data >>> (8 * (x - pa))) else Memory.read s.mem x) ∧
    (∀ sx, a.fin = .lds len sx → a.data = 0 →
      leaves (fun x => done (lands x (3 + a.early) 8 (loadScalar len sx (s.rd pa len)) 0)) (Memory.read s.mem)) ∧
    (∀ op cmp arg, a.fin = .atom op cmp arg → len = 8 →
      let old := s.rd64 pa
      leaves (fun x => done (lands x (7 + a.early) 9 old (atomicOp op old cmp arg).2)) fun x =>
        match (atomicOp op old cmp arg).1 with
        | some v => if pa ≤ x ∧ x < pa + 8 then BitVec.ofNat 8 (v.toNat >>> (8 * (x - pa))) else Memory.read s.mem x
        | none => Memory.read s.mem x)

/-- R194, R195, R99: what each atomic writes. -/
def Obligations.AtomicResults : Prop :=
  ∀ (old cmp arg : Word),
    atomicOp 4 old cmp arg = (some arg, 0) ∧ atomicOp 5 old old arg = (some arg, 0) ∧
    (old ≠ cmp → atomicOp 5 old cmp arg = (none, 0)) ∧ atomicOp 6 old cmp arg = (some (old + arg), 0) ∧
    atomicOp 7 old cmp arg = (some (old &&& arg), 0) ∧ atomicOp 8 old cmp arg = (some (old ||| arg), 0) ∧
    atomicOp 9 old cmp arg = (some (old ^^^ arg), 0) ∧
    (∃ v, atomicOp 10 old cmp arg = (some v, 0) ∧ v.toInt = min old.toInt arg.toInt) ∧
    (∃ v, atomicOp 11 old cmp arg = (some v, 0) ∧ v.toInt = max old.toInt arg.toInt) ∧
    (∃ v, atomicOp 12 old cmp arg = (some v, 0) ∧ v.toNat = min old.toNat arg.toNat) ∧
    (∃ v, atomicOp 13 old cmp arg = (some v, 0) ∧ v.toNat = max old.toNat arg.toNat) ∧
    (-2 ^ 63 ≤ old.toInt + arg.toInt → old.toInt + arg.toInt < 2 ^ 63 →
      ∃ v, atomicOp 14 old cmp arg = (some v, 0) ∧ v.toInt = old.toInt + arg.toInt) ∧
    (2 ^ 63 ≤ old.toInt + arg.toInt → atomicOp 14 old cmp arg = (some 0x7FFFFFFFFFFFFFFF, 0x24)) ∧
    (old.toInt + arg.toInt < -2 ^ 63 → atomicOp 14 old cmp arg = (some 0x8000000000000000, 0x24))

/-- R156, R189, R195, R193, R197: a lateral access is performed at its owning bank: a load takes its bytes and an atomic its
old word, writing the new one once; one sent again finds its old word in the reply cache and writes nothing; one that meets
an erroneous word does nothing; OLD and OST fall. R190, R191, R197: it then completes by writing its token, and a row or
tile load its registers, but for rows that a bundle or a sequencer has written in the same clk; one that met an erroneous
word raises its fault and leaves its token pending. -/
def Obligations.LateralsPerformed : Prop :=
  ∀ (s : State) (n id : Nat) (l : LatAcc), (s.ctx n).lats.find? (fun x => x.id = id) = some l →
    let replies := replyOf s (quadOfPA l.pa) n
    let cached := replies.find? fun p => p.1 = l.seqNo
    let performs (x : LatAcc) (m : List Host.Cell) : Prop := ∃ t, exec (.lateralPerform n id) s = .next t ∧
      (t.ctx n).lats.find? (fun x => x.id = id) = some x ∧
      (t.ctx n).ctl = { (s.ctx n).ctl with
        old := (s.ctx n).ctl.old - 1, ost := (s.ctx n).ctl.ost - (if l.atom.isSome then 1 else 0) } ∧ t.mem = m
    (l.performed = false → l.sent = true → s.badIn l.pa l.len = none →
      (l.atom = none → performs { l with performed := true, data := s.rd l.pa l.len } s.mem) ∧
      ∀ op cmp arg, l.atom = some (op, cmp, arg) →
        (cached = none →
          performs { l with
            performed := true, data := (s.rd64 l.pa).toNat, flg := (atomicOp op (s.rd64 l.pa) cmp arg).2 }
            (match (atomicOp op (s.rd64 l.pa) cmp arg).1 with | some v => (s.wr64 l.pa v).mem | none => s.mem)) ∧
        ∀ p, cached = some p →
          performs { l with performed := true, data := p.2.toNat, flg := (atomicOp op p.2 cmp arg).2 } s.mem) ∧
    (l.performed = false → l.sent = true → s.badIn l.pa l.len ≠ none → performs { l with performed := true, bad := true } s.mem) ∧
    (l.performed = true → l.bad = true → (s.ctx n).delivered.length < 16 → (∀ p ∈ (s.ctx n).walks, p.1 ≠ latUnit id) →
      ∃ t, exec (.lateralCompletion n id) s = .next t ∧ t.mem = s.mem ∧ (∀ m, m ≠ n → t.ctx m = s.ctx m) ∧
        t.ctx n = { s.ctx n with delivered := (s.ctx n).delivered ++ [(0x27, l.va, latUnit id)] }) ∧
    (l.performed = true → l.bad = false → ∃ t, exec (.lateralCompletion n id) s = .next t ∧ t.mem = s.mem ∧
      (t.ctx n).lats = (s.ctx n).lats.filter (fun x => decide (x.id ≠ id)) ∧
      (∀ m, m ≠ n → t.ctx m = s.ctx m) ∧
      (t.ctx n).ctl.flags = (s.ctx n).ctl.flags ||| l.flg ∧
      (t.ctx n).tok l.tok = ⟨.written,
        if l.atom.isSome then w64 l.data else match l.lk with
          | 0 => loadScalar l.len l.sx l.data | 1 => 256 | _ => 2048⟩ ∧
      (∀ k, k ≠ l.tok → (t.ctx n).tok k = (s.ctx n).tok k) ∧
      (let kept (k : Nat) : Prop := 8 * l.treg + k ∈ (s.ctx n).regs.wrote
       let row (k : Nat) : Row := tileRow ((s.ctx n).regs.treg l.treg) k
       let new (k : Nat) : Row := tileRow ((t.ctx n).regs.treg l.treg) k
       (l.atom = none → l.lk = 1 → l.trow < 8 → ∀ k, k < 8 →
         new k = if k = l.trow ∧ ¬kept k then BitVec.ofNat 2048 l.data else row k) ∧
       (l.atom = none → l.lk = 2 → ∀ k, k < 8 →
         new k = if kept k then row k else BitVec.ofNat 2048 (l.data >>> (2048 * k))) ∧
       (l.atom = none → ∀ r, r ≠ l.treg → (t.ctx n).regs.treg r = (s.ctx n).regs.treg r)) ∧
      (l.atom.isSome ∨ l.lk = 0 → (t.ctx n).regs = (s.ctx n).regs))


/-! ## Counters, waits and barriers -/

/-- R402, R403, R401: `ct.add` enters the request queue of its context, behind the accesses it has issued; a reserved
scope, a translation that fails and a page that does not allow the add are refused; an operation whose page the quad's
buffer does not hold, and a ninth request, hold the core. -/
def Obligations.CounterAdds : Prop :=
  ∀ (s : State) (g : BitVec 4) (src : BitVec 9),
    let n := s.iss.n
    let a := s.iss.ctx.portW 6 0
    let va := a &&& ~~~7
    let i := Instr.ctAdd g src
    let held (f : Ctx → Ctx) : Prop := ∃ t, exec i s = .next t ∧ t.iss.note = .hold 7 ∧ t.ctx n = f (s.ctx n) ∧
      (∀ m, m ≠ n → t.ctx m = s.ctx m) ∧ t.mem = s.mem
    (∀ pa, CounterOk s .add pa → s.iss.ctx.creqs.length < 8 → Completes s i 6 4 1 2 false g src fun c =>
      { c with creqs := c.creqs ++ [⟨s.serial, false, va, pa, trigT s src, false, openIds s n c⟩] }) ∧
    (Ready s 6 4 false g src → 6 ≤ a.toNat % 8 → Traps s i 0x09 (w64 (a.toNat % 8))) ∧
    (Ready s 6 4 false g src → a.toNat % 8 < 6 → 2 ^ 56 ≤ va.toNat → Traps s i 0x22 va) ∧
    (Ready s 6 4 false g src → a.toNat % 8 < 6 → va.toNat < 2 ^ 56 → ∀ e, tlbFind s (quadOf n) s.iss.ctx.ctl.asid va = some e →
      ∀ f, leafCheck e.leaf va .add s.iss.ctx.ctl.priv 8 = some f → Traps s i f.1 f.2) ∧
    (Ready s 6 4 false g src → a.toNat % 8 < 6 → va.toNat < 2 ^ 56 → tlbFind s (quadOf n) s.iss.ctx.ctl.asid va = none →
      s.iss.ctx.xwalk ≠ some true → (s.ctx n).xwalk = none → held fun c => { c with xwalk := some false }) ∧
    (Ready s 6 4 false g src → (∃ pa, CounterOk s .add pa) → 8 ≤ s.iss.ctx.creqs.length → held id)

/-- R404, R405, R406: `ct.wait` takes the context's wait slot and blocks until its value has come, then lands it;
`ct.owait` blocks while OLD or OST is above T; `ct.twait` blocks while its token is pending, then lands its value. -/
def Obligations.Waits : Prop :=
  ∀ (s : State) (g : BitVec 4) (src : BitVec 9), s.iss.note = .quiet →
    let n := s.iss.n
    let c := s.iss.ctx
    let a := c.portW 6 0
    let T := trigT s src
    let old := T.toNat < c.ctl.old.toNat
    let ost := T.toNat < c.ctl.ost.toNat
    let lands (i : Instr) (port : Nat) (v : Word) : Prop := Completes s i 6 port 1 1 true g src fun c =>
      landing s 1 6 (.s v) 0 c
    (∀ pa, Ready s 6 5 true g src → c.wait = none → CounterOk s .wait pa → c.creqs.length < 8 →
      ∃ t, exec (.ctWait g src) s = .next t ∧ t.iss.note = .block ∧
        t.ctx n = { s.ctx n with
          blocked := true
          wait := some ⟨s.serial, pa, T, none⟩
          creqs := (s.ctx n).creqs ++ [⟨s.serial, true, a &&& ~~~7, pa, T, false, []⟩] } ∧
        (∀ m, m ≠ n → t.ctx m = s.ctx m) ∧ t.mem = s.mem) ∧
    (∀ w, c.wait = some w → w.got = none → Ready s 6 5 true g src → Blocks s (.ctWait g src)) ∧
    (∀ w v, c.wait = some w → w.got = some v → Completes s (.ctWait g src) 6 5 1 1 true g src fun c =>
      landing s 1 6 (.s v) 0 { c with wait := none }) ∧
    (a.toNat ≤ 2 → ¬(a.toNat ≠ 1 ∧ old) → ¬(a.toNat ≠ 0 ∧ ost) →
      lands (.ctOwait g src) 6 (c.ctl.old.setWidth 64 + c.ctl.ost.setWidth 64 <<< 16)) ∧
    (a.toNat ≤ 2 → (a.toNat ≠ 1 ∧ old) ∨ (a.toNat ≠ 0 ∧ ost) → Ready s 6 6 true g src → Blocks s (.ctOwait g src)) ∧
    (2 < a.toNat → Ready s 6 6 true g src → Traps s (.ctOwait g src) 0x0A a) ∧
    (T.toNat ≤ 15 → (c.tok T.toNat).st = .written → lands (.ctTwait g src) 7 (c.tok T.toNat).val) ∧
    (T.toNat ≤ 15 → (c.tok T.toNat).st = .pending → Ready s 6 7 true g src → Blocks s (.ctTwait g src)) ∧
    (T.toNat ≤ 15 → (c.tok T.toNat).st = .idle → Ready s 6 7 true g src → Traps s (.ctTwait g src) 0x0C T) ∧
    (15 < T.toNat → Ready s 6 7 true g src → Traps s (.ctTwait g src) 0x0A T)

/-- R407, R408, R409, R402: an arrival counts at its barrier, lands the phase it is counted for and reports a phase that
has all its local arrivals; a wait lands a phase once it has been reached; a configuration clears the barrier. -/
def Obligations.BarrierUnit : Prop :=
  ∀ (s : State) (g : BitVec 4) (src : BitVec 9),
    let n := s.iss.n
    let T := trigT s src
    let a := s.iss.ctx.portW 6 0
    let b := s.iss.core.bar T.toNat
    let l := cfLcnt b.conf
    let q := b.arrc.toNat / l + 1
    let mine := s.iss.ctx.bmask.getLsbD T.toNat = true
    let conf := a.setWidth 58
    let max := [1, 1, 4, 256, 1024, 1024][cfScope conf]?.getD 0
    let confOk := cfScope conf < 6 ∧ 0 < cfLcnt conf ∧ 0 < cfNpart conf ∧ cfNpart conf ≤ max
    let refused (i : Instr) (port : Nat) (cb : Bool) : Prop := Ready s 6 port cb g src →
      (127 < T.toNat → Traps s i 0x0A T) ∧ (T.toNat ≤ 127 → ¬mine →
        b.cfg = false ∨ (q < b.phase.toNat + 3 ∧ a.toNat ≤ b.phase.toNat) ∨ i = .ctBcfg g src → Traps s i 0x12 T)
    (T.toNat ≤ 127 → mine → b.cfg = true → q < b.phase.toNat + 3 →
      CompletesCore s (.ctArv g src) 6 8 1 1 true g src
        (fun c => landing s 1 6 (.s (w64 q)) 0
          (if (b.arrc + 1).toNat / l < q then c
           else { c with reports := c.reports ++ [⟨T.toNat, b.conf, w64 q, openIds s n c ++ c.creqs.map (·.id)⟩] }))
        fun k => k.setBar T.toNat { b with arrc := b.arrc + 1 }) ∧
    (T.toNat ≤ 127 → b.cfg = true → b.phase.toNat + 3 ≤ q → Ready s 6 8 true g src → Blocks s (.ctArv g src)) ∧
    (T.toNat ≤ 127 → mine → b.cfg = true → a.toNat ≤ b.phase.toNat →
      Completes s (.ctBwt g src) 6 9 1 1 true g src (landing s 1 6 (.s b.phase) 0)) ∧
    (T.toNat ≤ 127 → b.cfg = true → b.phase.toNat < a.toNat → Ready s 6 9 true g src → Blocks s (.ctBwt g src)) ∧
    (T.toNat ≤ 127 → mine → confOk → (b.cfg = true → b.arrc.toNat / l ≤ b.phase.toNat) →
      CompletesCore s (.ctBcfg g src) 6 10 1 1 false g src id fun k => k.setBar T.toNat ⟨true, conf, 0, 0⟩) ∧
    (T.toNat ≤ 127 → mine → ¬confOk → Ready s 6 10 false g src → Traps s (.ctBcfg g src) 0x0A a) ∧
    (T.toNat ≤ 127 → mine → confOk → b.cfg = true → b.phase.toNat < b.arrc.toNat / l → Ready s 6 10 false g src →
      Traps s (.ctBcfg g src) 0x14 T) ∧
    refused (.ctArv g src) 8 true ∧ refused (.ctBwt g src) 9 true ∧ refused (.ctBcfg g src) 10 false ∧
    (T.toNat ≤ 127 → mine → b.cfg = false → (Ready s 6 8 true g src → Traps s (.ctArv g src) 0x13 T) ∧
      (Ready s 6 9 true g src → Traps s (.ctBwt g src) 0x13 T))

/-! ## Tile units -/

/-- R128, R130, R126: what each one-row operation of TA0 and TA1 lands where the context records nothing: lane i of the
result from lanes i of a, T and b, at Lat 4, Int 1, W 8. -/
def Obligations.TileAluRows : Prop :=
  ∀ (s : State) (g : BitVec 4) (u : BitVec 1) (src : BitVec 9), recOn s = false →
    let fu := 10 + u.toNat
    let w := s.iss.ctx.inf.fmtEff
    let rel := (s.iss.ctx.portW fu 2).toNat % 8
    let x := lane (s.iss.ctx.portR fu 0)
    let y := lane (readCode s src).row
    let z := lane (s.iss.ctx.portR fu 1)
    let idx (k : Nat) : Nat := fu * 2 ^ 24 + k
    let lands (i : Instr) (port : Nat) (f : Nat → BitVec 32 × Flg) : Prop := RowResults s i fu port 4 8 g src f
    let int (i : Instr) (port : Nat) (f : BitVec 32 → BitVec 32 → BitVec 32) : Prop :=
      lands i port fun k => (f (x k) (y k), 0)
    let truth (b : Bool) : BitVec 32 := if b then 1 else 0
    lands (.taFadd g u src) 4 (fun k => fAdd w (fmtRM w) (idx k) (fop w (x k)) (fop w (y k))) ∧
    lands (.taFsub g u src) 5 (fun k => fAdd w (fmtRM w) (idx k) (fop w (x k)) (fop w (y k)).flip) ∧
    lands (.taFmul g u src) 6 (fun k => fMul w (fmtRM w) (idx k) (fop w (x k)) (fop w (y k))) ∧
    lands (.taFma g u src) 7 (fun k => fFma w (fmtRM w) (idx k) (fop w (x k)) (fop w (z k)) (fop w (y k))) ∧
    lands (.taFmax g u src) 8 (fun k => fMax (fbits w (x k)) (fbits w (y k)) (fop w (x k)) (fop w (y k))) ∧
    lands (.taFmin g u src) 9 (fun k => fMin (fbits w (x k)) (fbits w (y k)) (fop w (x k)) (fop w (y k))) ∧
    lands (.taFcmp g u src) 10 (fun k =>
      (truth (relF rel (fop w (x k)) (fop w (y k))).1, (relF rel (fop w (x k)) (fop w (y k))).2)) ∧
    int (.taIadd g u src) 11 (· + ·) ∧ int (.taIsub g u src) 12 (· - ·) ∧ int (.taImul g u src) 13 (· * ·) ∧
    int (.taImin g u src) 14 (fun p q => if q.toInt < p.toInt then q else p) ∧
    int (.taImax g u src) 15 (fun p q => if p.toInt < q.toInt then q else p) ∧
    int (.taAnd g u src) 16 (· &&& ·) ∧ int (.taOr g u src) 17 (· ||| ·) ∧ int (.taXor g u src) 18 (· ^^^ ·) ∧
    int (.taShl g u src) 19 (fun p q => p <<< (q.toNat % 32)) ∧
    int (.taShr g u src) 20 (fun p q => p >>> (q.toNat % 32)) ∧
    int (.taSra g u src) 21 (fun p q => BitVec.ofInt 32 (p.toInt / 2 ^ (q.toNat % 32))) ∧
    int (.taIcmp g u src) 22 (fun p q => truth (([decide (p = q), decide (p ≠ q), decide (p.toInt < q.toInt),
      decide (p.toInt ≤ q.toInt), decide (q.toInt < p.toInt), decide (q.toInt ≤ p.toInt), decide (p.toNat < q.toNat),
      decide (p.toNat ≤ q.toNat)][rel]?).getD false)) ∧
    lands (.taSel g u src) 23 (fun k => (if z k = 0 then y k else x k, 0))

/-- R123, R131, R142: a whole-tile operation puts its entry in flight with row 0 and starts a sequencer for rows 1-7, and
`ts.xpose` the same with its rows transposed. -/
def Obligations.WholeTileOperations : Prop :=
  ∀ (s : State) (g : BitVec 4) (u : BitVec 1) (src : BitVec 9), recOn s = false →
    let w := s.iss.ctx.inf.fmtEff
    let T0 := seqRead s.iss.ctx (jobSource s src) 0
    let starts (i : Instr) (fu port lat wt : Nat) (dst : JobDst) (f : Nat → BitVec 32 × Flg) : Prop :=
      ∃ (r : Row) (l : Flg) (j : Job), (∀ k, k < 64 → lane r k = (f k).1) ∧
        (∀ b, l.getLsbD b = true ↔ ∃ k, k < 64 ∧ (f k).2.getLsbD b = true) ∧
        j.k = 1 ∧ j.src = jobSource s src ∧ j.dst = dst ∧ j.fmt = w ∧ j.id = s.serial ∧
        Completes s i fu port 8 wt false g src fun c =>
          let d := landing s lat fu (.t (tileSet 0 0 r)) l c
          { d with inf := { d.inf with jobs := d.inf.jobs ++ [j] } }
    let fu := 10 + u.toNat
    let d := lane (tileRow ((s.ctx s.iss.n).portT fu 3) 0)
    let y := lane T0
    let idx (k : Nat) : Nat := fu * 2 ^ 24 + k
    starts (.taFaddt g u src) fu 24 4 64 (.ta fu 24)
      (fun k => fAdd w (fmtRM w) (idx k) (fop w (d k)) (fop w (y k))) ∧
    starts (.taFsubt g u src) fu 25 4 64 (.ta fu 25)
      (fun k => fAdd w (fmtRM w) (idx k) (fop w (d k)) (fop w (y k)).flip) ∧
    starts (.taFmult g u src) fu 26 4 64 (.ta fu 26)
      (fun k => fMul w (fmtRM w) (idx k) (fop w (d k)) (fop w (y k))) ∧
    starts (.taFmaxt g u src) fu 27 4 64 (.ta fu 27)
      (fun k => fMax (fbits w (d k)) (fbits w (y k)) (fop w (d k)) (fop w (y k))) ∧
    starts (.tsXpose g src) 13 5 6 48 .xpose (fun k => (lane T0 (8 * (k % 8) + k / 8), 0))

/-- R134, R135, R136, R137, R138: what the operations of TX land, where the formats are allowed and nothing is recorded;
a format that is not allowed is refused, SF before DF. -/
def Obligations.ConversionsAndFunctions : Prop :=
  ∀ (s : State) (g : BitVec 4) (src : BitVec 9), recOn s = false →
    let w := s.iss.ctx.inf.fmtEff
    let a := s.iss.ctx.portW 12 0
    let SF := a.toNat % 16
    let DF := a.toNat / 16 % 16
    let t := (readCode s src).row
    let idx (k : Nat) : Nat := 12 * 2 ^ 24 + k
    let checks (i : Instr) (port : Nat) (sf df : List Nat) : Prop := Ready s 12 port false g src →
      (SF ∉ sf → Traps s i 0x05 (w64 SF)) ∧ (SF ∈ sf → DF ∉ df → Traps s i 0x05 (w64 DF))
    let fl := [6, 7, 8]
    let fn (i : Instr) (port lat wt : Nat) : Prop := checks i port fl fl ∧ (SF ∈ fl → DF ∈ fl →
      RowResults s i 12 port lat wt g src fun k => funElem port w SF DF (idx k) (lane t k))
    let cv := [0, 1, 2, 4, 5, 6, 7, 8]
    checks (.txCvt g src) 4 cv cv ∧
    (SF ∈ cv → DF ∈ cv → RowResults s (.txCvt g src) 12 4 8 8 g src fun k => cvtElem w SF DF (idx k) (lane t k)) ∧
    checks (.txQnt g src) 5 [4, 5, 6, 7, 8] [9, 10] ∧
    (SF ∈ [4, 5, 6, 7, 8] → DF ∈ [9, 10] → ¬(DF = 10 ∧ a.toNat / 256 % 4 = 3) → a.getLsbD 10 = false →
      Results s (.txQnt g src) 12 5 12 1 12 g src (.r (qntRow w a t).1) (qntRow w a t).2) ∧
    checks (.txDqnt g src) 6 [9, 10] fl ∧
    (SF ∈ [9, 10] → DF ∈ fl → dqntBad a t = none →
      RowResults s (.txDqnt g src) 12 6 10 10 g src fun k => dqntElem w a (idx k) t k) ∧
    fn (.txExp g src) 7 14 12 ∧ fn (.txLog g src) 8 14 12 ∧ fn (.txRcp g src) 9 12 12 ∧ fn (.txRsq g src) 10 12 12 ∧
    fn (.txSqrt g src) 11 14 12 ∧ fn (.txTanh g src) 12 16 14 ∧ fn (.txSigm g src) 13 16 14 ∧ fn (.txErf g src) 14 16 14

/-- R140, R141, R143, R144, R145, R146: what the one-row operations of TS land where nothing is recorded; `ts.bias` reads its
table as a local load of its clk would, and claims the rows of the table at their banks. -/
def Obligations.ShuffleResults : Prop :=
  ∀ (s : State) (g : BitVec 4) (src : BitVec 9), recOn s = false →
    let w := s.iss.ctx.inf.fmtEff
    let t := (readCode s src).row
    let b := s.iss.ctx.portW 13 1
    let off := 64 * s.iss.ctx.ctl.biasb.toNat
    let row (i : Instr) (port : Nat) (f : Nat → BitVec 32 × Flg) : Prop := RowResults s i 13 port 6 6 g src f
    let word (i : Instr) (port : Nat) (v : BitVec 32 × Flg) : Prop :=
      Results s i 13 port 6 1 6 g src (.s (v.1.setWidth 64)) v.2
    row (.tsPerm g src) 4 (fun k => (lane t ((lane (s.iss.ctx.portR 13 0) k).toNat % 64), 0)) ∧
    word (.tsRsum g src) 6 (pairTree w (fmtRM w) 13 (fmtDAZ w) t) ∧
    word (.tsRmax g src) 7 (rowFold fMax w t) ∧ word (.tsRmin g src) 8 (rowFold fMin w t) ∧
    (∃ (m : Nat) (l : Flg), Results s (.tsAmax g src) 13 9 6 1 6 g src (.s (w64 m)) l ∧ m < 64 ∧
      (∀ k, k < m → amaxLt (fop w (lane t k)) (fop w (lane t m)) = true) ∧
      (∀ k, m < k → k < 64 → amaxLt (fop w (lane t m)) (fop w (lane t k)) = false) ∧
      (l = flgNV ∨ l = 0) ∧ (l = flgNV ↔ ∃ k, k < 64 ∧ (fval (lane t k)).isSnan = true)) ∧
    Results s (.tsScan g src) 13 10 6 1 6 g src (.r (scanRow w (fmtRM w) 13 (fmtDAZ w) t).1)
      (scanRow w (fmtRM w) 13 (fmtDAZ w) t).2 ∧
    Results s (.tsSmax g src) 13 11 6 1 6 g src (.r (smaxRow w t).1) (smaxRow w t).2 ∧
    row (.tsMask g src) 12 (fun k =>
      (if (b.setWidth 32).toInt ≤ k ∧ (k : Int) < (b.setWidth 32).toInt + (lane t k).toInt then 1 else 0, 0)) ∧
    (off + 16640 ≤ 65536 * s.iss.ctx.ctl.arenaSize.toNat → Completes s (.tsBias g src) 13 13 1 6 false g src fun c =>
      landing { s with serial := s.serial + 1 } 6 13
        (.r (biasRow ((soon s s.iss.n).rdArena s.iss.n off 16640) b t)) 0
        { c with accs := c.accs ++
          [⟨3, s.serial, rowSegs s s.iss.n [(off, 192), (off + 256 + 256 * (b.toNat % 64), 256)], [], 0, .mat, false, false,
            false, 0, false, false, 0⟩] }) ∧
    (65536 * s.iss.ctx.ctl.arenaSize.toNat < off + 16640 → Ready s 13 13 false g src →
      Traps s (.tsBias g src) 0x20 (w64 (off + 16640)))

/-- R242, R243, R244, R246, R247, R249, R262, R240: a one-row tile operation of a context that records performs as it does
where nothing is recorded, and stages one entry: its length, its first header words and the images that are saved; its
result takes the tag of the flag word, which then moves on. A log that is not ready and a full staging buffer hold it; a
refused flag and a full log are trapped; an empty staging buffer takes any entry (log 51). A go move of NP or `rs.go` stages
a seam mark beside its command. -/
def Obligations.RecordedOperations : Prop :=
  ∀ (s : State) (g : BitVec 4) (src : BitVec 9), recOn s = true →
    let x := s.iss.ctx
    let s0 : State := { s with iss := { s.iss with ctx := { x with ctl := { x.ctl with bsRec := false } } } }
    let b := (s.ctx s.iss.n).baste
    let flag (k : Nat) : Nat := b.fw.toNat / 4 ^ k % 4
    let gid := b.fw.toNat / 2 ^ 10 % 2 ^ 12
    let row := b.fw.toNat / 2 ^ 22 % 2 ^ 8
    let staged := (s.core (coreOf s.iss.n)).staged
    let x0 := s.iss.core.staged
    let moved (oneRow : Bool) (fw : Word) : Prop :=
      (b.fw.getLsbD 8 = false → fw = 0) ∧ (b.fw.getLsbD 8 = true → b.fw.getLsbD 9 = false → fw = b.fw) ∧
      (b.fw.getLsbD 8 = true → b.fw.getLsbD 9 = true →
        fw &&& ~~~0x3FFFFC00 = b.fw &&& ~~~0x3FFFFC00 ∧
        fw.toNat / 2 ^ 22 % 2 ^ 8 = (if oneRow then (row + 1) % 256 else row) ∧
        fw.toNat / 2 ^ 10 % 2 ^ 12 = if oneRow ∧ row ≠ 255 then gid else (gid + 1) % 4096)
    let held (i : Instr) : Prop := exec i s = .next (raiseNote { s with free := s.free + 1 } (.hold 7))
    let lands (u : State) (d lat fu : Nat) (v : Val) (flg : Flg) (c : Ctx) : Ctx :=
      landing { u with serial := s.serial + d } lat fu v flg c
    let probe (d : Nat) (rs : List (Nat × Nat)) (c : Ctx) : Ctx :=
      { c with accs := c.accs ++ [⟨3, s.serial + d, rowSegs s s.iss.n rs, [], 0, .mat, false, false, false, 0, false, false, 0⟩] }
    let records (i : Instr) (fu port lat w : Nat) (reads : List Nat) (d : Nat) (more : Ctx → Ctx) : Prop :=
      ∀ (v : Val) (flg : Flg),
      (Completes s0 i fu port 1 w false g src fun c => lands s0 d lat fu v flg (more c)) →
      let img (k : Nat) : Val := if k = 2 then (if (readCode s src).kind = .s then readCode s src else .r (readCode s src).row)
        else if k = 3 then v else match KMap.get none x.portSk (4 * fu + k) with | some u => .s u | none => .r (x.portR fu k)
      let tag (k : Nat) : Tag := if k = 2 then codeTag s src 0 else x.regs.tag (portTag fu k 0)
      let slots (k : Nat) : Nat := if k ∈ reads then (match flag k with
        | 0 => (match img k with | .s _ => 1 | _ => 4) | 1 => 1 | _ => 0) else 0
      let len := 1 + slots 0 + slots 1 + slots 2 + slots 3
      let ok (k : Nat) : Prop := k ∈ reads → flag k ≠ 3 ∧
        (flag k = 1 → k ≠ 3 → (tag k).toNat / 256 ≠ 0 ∧ ∃ p ∈ b.prods, p.1.toNat = (tag k).toNat / 256)
      let fl (k : Nat) : Nat := if k ∈ reads then flag k else 3
      let fits := x0 = 0 ∨ staged + 64 * len ≤ 16384
      (b.lrdy = true → fits → (∀ k, k < 4 → ok k) → logNext b + len ≤ b.llim.toNat →
        ∃ (st : Stage) (fw : Word), st.id = s.serial + d ∧ st.len = len ∧ st.hdr.length = 8 ∧
          st.missing = (if 3 ∈ reads ∧ (flag 3 = 0 ∨ flag 3 = 2) then 1 else 0) ∧
          st.hdr[0]? = some (w64 (1 + fu * 2 ^ 4 + port * 2 ^ 9 + row * 2 ^ 15 +
            (fl 0 + 4 * fl 1 + 16 * fl 2 + 64 * fl 3) * 2 ^ 24 + len * 2 ^ 32 + gid * 2 ^ 44)) ∧
          st.hdr[1]? = some x.inf.fmtEff ∧
          (∀ k, k ∈ reads → flag k = 0 → (k, img k) ∈ st.imgs) ∧ moved true fw ∧
          CompletesCore s i fu port 1 w false g src
            (fun c => { more c with
              inf := { c.inf with flights := c.inf.flights ++ [⟨lat, fu, s.serial + d, .entry v, flg,
                BitVec.ofNat 21 (2 ^ 20 + 256 * gid + row), false⟩] }
              baste := { c.baste with
                fw := fw
                stages := c.baste.stages ++ [st]
                prods := if gid = 0 then c.baste.prods else
                  (c.baste.prods ++ [(BitVec.ofNat 12 gid, BitVec.ofNat 40 (logNext b + len - 1))]).drop
                    (c.baste.prods.length + 1 - 16) } })
            fun k => { k with staged := k.staged + 64 * len }) ∧
      (Ready s fu port false g src → b.lrdy = false ∨ ¬fits → held i) ∧
      (Ready s fu port false g src → b.lrdy = true → fits →
        (∀ k, k < 4 → (∀ j, j < k → ok j) → ¬ok k → Traps s i 0x16 (w64 k)) ∧
        ((∀ k, k < 4 → ok k) → b.llim.toNat < logNext b + len → Traps s i 0x18 (w64 (logNext b + len))))
    let seam (i : Instr) (fu port : Nat) (more : Nat → Ctx → Ctx) : Prop :=
      ∀ (q : Cmd) (tok : Option Nat), q.fu = fu → q.port = port →
      Enters s0 i g src tok q (more 1) → QueueOpen s fu →
      (b.lrdy = true → x0 = 0 ∨ staged + 64 ≤ 16384 → logNext b + 1 ≤ b.llim.toNat →
        ∃ fw, moved false fw ∧ CompletesCore s i fu port 1 2 true g src
          (fun c => let d := more 2 (c.enter q tok)
            { d with baste := { d.baste with fw := fw, stages := d.baste.stages ++
              [⟨s.serial + 1, [w64 (4 + fu * 2 ^ 4 + port * 2 ^ 9 + 2 ^ 32), 0, 0, 0, x.portW fu 0, x.portW fu 1,
                x.portW fu 2, x.portW fu 3], [], [], 0, 1, false⟩] } })
          fun k => { k with staged := k.staged + 64 }) ∧
      (Ready s fu port true g src → b.lrdy = false ∨ (x0 ≠ 0 ∧ 16384 < staged + 64) → held i)
    (∀ (u : BitVec 1) (o : Instr × Nat × List Nat), o ∈ [(.taFadd g u src, 4, []), (.taFsub g u src, 5, []),
      (.taFmul g u src, 6, [0, 2]), (.taFma g u src, 7, [0, 1]), (.taFmax g u src, 8, [0, 2]), (.taFmin g u src, 9, [0, 2]),
      (.taFcmp g u src, 10, []), (.taIadd g u src, 11, []), (.taIsub g u src, 12, []), (.taImul g u src, 13, []),
      (.taImin g u src, 14, []), (.taImax g u src, 15, []), (.taAnd g u src, 16, []), (.taOr g u src, 17, []),
      (.taXor g u src, 18, []), (.taShl g u src, 19, []), (.taShr g u src, 20, []), (.taSra g u src, 21, []),
      (.taIcmp g u src, 22, []), (.taSel g u src, 23, [1])] → records o.1 (10 + u.toNat) o.2.1 4 8 o.2.2 0 id) ∧
    (∀ o : Instr × Nat × Nat × Nat × List Nat, o ∈ [(.txCvt g src, 4, 8, 8, []), (.txQnt g src, 5, 12, 12, []),
      (.txDqnt g src, 6, 10, 10, []), (.txExp g src, 7, 14, 12, [3]), (.txLog g src, 8, 14, 12, [2]),
      (.txRcp g src, 9, 12, 12, [3]), (.txRsq g src, 10, 12, 12, [3]), (.txSqrt g src, 11, 14, 12, [3]),
      (.txTanh g src, 12, 16, 14, [3]), (.txSigm g src, 13, 16, 14, [3]), (.txErf g src, 14, 16, 14, [2])] →
      records o.1 12 o.2.1 o.2.2.1 o.2.2.2.1 o.2.2.2.2 0 id) ∧
    (∀ o : Instr × Nat × List Nat, o ∈ [(.tsPerm g src, 4, [0]), (.tsRsum g src, 6, []), (.tsRmax g src, 7, [2]),
      (.tsRmin g src, 8, [2]), (.tsAmax g src, 9, []), (.tsScan g src, 10, []), (.tsSmax g src, 11, [2]),
      (.tsMask g src, 12, [])] → records o.1 13 o.2.1 6 6 o.2.2 0 id) ∧
    records (.tsBias g src) 13 13 6 6 [] 1 (probe 0 (biasReads x)) ∧
    seam (.npSend g src) 20 4 (fun _ => id) ∧ seam (.npRow g src) 20 5 (fun _ => id) ∧
    seam (.rsGo g src) 19 4 fun d => probe d [((x.portW 19 0).toNat % 2 ^ 23, 256)]

/-! ## The matrix unit -/

/-- R210, R211, R204, R418, R259: `mx.mld` writes a microprogram word, `mx.parm` an mp register with its tag, `sc.xld`
the scale register and `sc.xadd` the scale and patch latches; all but the first need the matrix unit's ownership; none
runs while the context's step stands in its trap frame or an unpick is outstanding. -/
def Obligations.MatrixRegisterWrites : Prop :=
  ∀ (s : State) (g : BitVec 4) (src : BitVec 9),
    let m := s.iss.core.matrix
    let T := trigT s src
    let a := s.iss.ctx.portW 14 0
    let free := (∀ x, m.step = some x → ¬(x.n = s.iss.n ∧ x.held = true)) ∧ ∀ q ∈ s.iss.ctx.queue 23, q.port ≠ 7
    let mine := m.owner = some s.iss.n
    let writes (i : Instr) (fu port w : Nat) (f : Ctx → Ctx) (k : Matrix → Matrix) : Prop :=
      CompletesCore s i fu port 1 w false g src f fun c => { c with matrix := k c.matrix }
    (free → writes (.mxMld g src) 14 5 2 id fun m =>
      let bits : BitVec 128 := if a.toNat % 4096 < 256 then 2 ^ 50 - 1 else 2 ^ 84 - 1
      { m with ustore := KMap.put m.ustore (a.toNat % 4096) ((T ++ s.iss.ctx.portW 14 1) &&& bits) }) ∧
    (free → mine → writes (.mxParm g src) 14 6 1
      (fun c => { c with regs := c.regs.setTag (2000 + T.toNat % 8) (s.iss.ctx.regs.tag (portTag 14 0 0)) })
      fun m => { m with mp := KMap.set 0 m.mp (T.toNat % 8) a }) ∧
    (free → mine → writes (.scXld g src) 15 4 1 id fun m => { m with xs := T.setWidth 16 }) ∧
    (free → mine → writes (.scXadd g src) 15 5 2 id fun x => { x with pslX := m.xs, pslP := T.setWidth 6 }) ∧
    (free → ¬mine → (Ready s 14 6 false g src → Traps s (.mxParm g src) 0x0F 0) ∧
      (Ready s 15 4 false g src → Traps s (.scXld g src) 0x0F 0) ∧
      (Ready s 15 5 false g src → Traps s (.scXadd g src) 0x0F 0)) ∧
    (¬free → (Ready s 14 5 false g src → ∃ v, Traps s (.mxMld g src) 0x03 v) ∧
      (Ready s 14 6 false g src → ∃ v, Traps s (.mxParm g src) 0x03 v) ∧
      (Ready s 15 4 false g src → ∃ v, Traps s (.scXld g src) 0x03 v) ∧
      (Ready s 15 5 false g src → ∃ v, Traps s (.scXadd g src) 0x03 v))

/-- R208, R209, R204, R457, R61: where nothing is recorded, `mx.call` of a valid routine starts a step of its words
with the operands that mp names; its interval is S and its weight WT; it is refused without ownership, with a refused
routine or operand, and with a weight that neither LTHR nor the leave grant covers. -/
def Obligations.MatrixCalls : Prop :=
  ∀ (s : State) (g : BitVec 4) (src : BitVec 9), recOn s = false →
    let n := s.iss.n
    let m := s.iss.core.matrix
    let r := (trigT s src).toNat % 256
    let dir := m.word r
    let ws := if !mdValid dir || mdEntry dir < 256 then [] else (wordsFrom m 64 (mdEntry dir)).1
    let mp := (List.range 8).map fun i => KMap.get 0 m.mp i
    let bufs := bufsOf s.iss.ctx mp ws
    let stores := ws.any fun w => mwMop w = 2 || mwMop w = 4
    let S := mdS dir
    let W := mdWt dir
    let lthr := (KMap.get Config.lbud s.mgmt.lthr (n / 1024)).toNat
    let free := (∀ x, m.step = some x → ¬(x.n = n ∧ x.held = true)) ∧ ∀ q ∈ s.iss.ctx.queue 23, q.port ≠ 7
    let ready := Ready s 14 4 (decide (bufs ≠ [])) g src ∧ free
    let filled := ∀ b ∈ bufs, (s.iss.ctx.cb b.1).cfg = true → (b.2.2 : Int) + 1 ≤ (s.iss.ctx.cb b.1).avail
    (ready → filled → m.owner = some n → routineCheck m r = none → callCheck s.iss.ctx mp ws = none →
      W ≤ lthr ∨ W ≤ m.grant.toNat →
      ∃ (t : State) (l : List LocalAcc) (x : MStep), exec (.mxCall g src) s = .next t ∧
        DidCore s t W (({ sourced s src with
            accs := (sourced s src).accs ++ l
            ctl := { (sourced s src).ctl with
              old := (sourced s src).ctl.old + 1
              ost := (sourced s src).ctl.ost + (if stores then 1 else 0) } } : Ctx).hold 14 4 S)
          (fun k => { k with matrix := { k.matrix with step := some x } }) ∧
        x.n = n ∧ x.age = 0 ∧ x.routine = r ∧ x.dir = dir ∧ x.words = ws ∧ x.mp = mp ∧ x.fmt = s.iss.ctx.inf.fmtEff ∧
        x.bufs = bufs ∧ x.reads = rangesOf s.iss.ctx mp bufs ((ws.flatMap wordOpnds).filter (·.read)) ∧
        x.readDone = false ∧ x.early = false ∧ x.held = false ∧ x.dead = false ∧ x.stage = 0) ∧
    (ready → ¬filled → Blocks s (.mxCall g src)) ∧
    (ready → filled → m.owner ≠ some n → Traps s (.mxCall g src) 0x0F 0) ∧
    (ready → filled → m.owner = some n → ∀ f, routineCheck m r = some f → Traps s (.mxCall g src) f.1 f.2) ∧
    (ready → filled → m.owner = some n → routineCheck m r = none → ∀ f, callCheck s.iss.ctx mp ws = some f →
      Traps s (.mxCall g src) f.1 f.2) ∧
    (ready → filled → m.owner = some n → routineCheck m r = none → callCheck s.iss.ctx mp ws = none →
      lthr < W → m.grant.toNat < W → Traps s (.mxCall g src) 0x10 (w64 W))

/-- R209, R211, R212: a step reads its operands once (at c + 3, or before the first resumed clk), samples the scale and patch
latches, and commits: its words run in order over the accumulators and WB, its stores are made, its flags are ORed and the
step ends. -/
def Obligations.MatrixStepInFlight : Prop :=
  ∀ (s : State) (c : Nat) (m : MStep), (s.core c).matrix.step = some m →
    let x := s.ctx m.n
    let stores := m.words.any fun w => mwMop w = 2 || mwMop w = 4
    (m.readDone = false → m.stage = 0 → m.got = [] → ∃ t, exec (.stepOperandRead c) s = .next t ∧ t.mem = s.mem ∧
      t.ctx m.n = { x with ctl := { x.ctl with old := x.ctl.old - 1 } } ∧ (∀ k, k ≠ m.n → t.ctx k = s.ctx k) ∧
      (∀ k, k ≠ c → t.core k = s.core k) ∧
      t.core c = { s.core c with matrix := { (s.core c).matrix with step := some { m with
        readDone := true
        ops := if m.early then m.ops else m.words.map (wordData (fun off len =>
          let pa := arenaPA x (quadOf m.n) off
          if m.dead then s.rdDead pa len else s.rd pa len) x m.mp m.bufs) } } }) ∧
    (m.readDone = true → exec (.stepOperandRead c) s = .next s) ∧
    (m.stage = 0 → ∃ t, exec (.latchSample c) s = .next t ∧ (∀ k, t.ctx k = s.ctx k) ∧ t.mem = s.mem ∧
      (∀ k, k ≠ c → t.core k = s.core k) ∧
      t.core c = { s.core c with matrix := { (s.core c).matrix with step := some { m with
        latchX := (s.core c).matrix.pslX, latchP := (s.core c).matrix.pslP } } }) ∧
    (m.readDone = true → m.stage = 0 → m.bufs = [] →
      let k := runWords m.fmt m.latchX.toInt m.latchP (m.words.zip m.ops)
        ⟨(s.core c).matrix.acc, (s.core c).matrix.wb, [], 0⟩
      let place (o : MOpnd) : Nat := arenaPA x (quadOf m.n) (opndOff x m.mp [] o)
      ∃ t, exec (.stepCommit c) s = .next t ∧
        t.ctx m.n = { x with ctl := { x.ctl with
          flags := x.ctl.flags ||| k.flg, ost := x.ctl.ost - (if stores then 1 else 0) } } ∧
        (∀ j, j ≠ m.n → t.ctx j = s.ctx j) ∧ (∀ j, j ≠ c → t.core j = s.core j) ∧
        (t.core c).matrix = { (s.core c).matrix with acc := k.acc, wb := k.wb, step := none } ∧
        (Memory.wf s.mem = true → ∀ a, (∀ o ∈ k.outs, ¬(place o.1 ≤ a ∧ a < place o.1 + o.1.len)) →
          Memory.read t.mem a = Memory.read s.mem a) ∧
        (∀ o, k.outs = [o] → Memory.wf s.mem = true → ∀ i, i < o.1.len →
          Memory.read t.mem (place o.1 + i) = BitVec.ofNat 8 (o.2 >>> (8 * i))))

/-- R201, R207: what the words of a step do to their patch: a MAC word adds the aligned product sum of A and B, saturating
at 48 bits, and sets the patch's bit of WB; a clear word zeroes both; a load word takes FP32 values; a drain word stores
rounded values and changes no accumulator. -/
def Obligations.MatrixWords : Prop :=
  ∀ (fmt : Word) (x : Int) (origin : BitVec 6) (k : Work) (w : MWord) (d : Nat × Nat × Nat),
    let p := 8 * ((origin.toNat / 8 + mwDr w) % 8) + (origin.toNat % 8 + mwDc w) % 8
    let r := runWord fmt x origin k w d
    let old (i : Nat) : Int := accAt (KMap.get 0 k.acc p) i
    let new (i : Nat) : Int := accAt (KMap.get 0 r.acc p) i
    let sat (v : Int) : Int := max (-(2 ^ 47)) (min (2 ^ 47 - 1) v)
    let others := ∀ q, q ≠ p → KMap.get 0 r.acc q = KMap.get 0 k.acc q ∧ (q < 64 → r.wb.getLsbD q = k.wb.getLsbD q)
    (mwMop w = 0 → others ∧ r.wb.getLsbD p = true ∧ r.outs = k.outs ∧ ∀ i, i < 1024 →
      let row := i / 32
      let col := i % 32
      let sum := isum (fun j => aInt (mwNpl w) d.1 row j * bDig d.2.1 j col (mwDig w)) 32
      let e := sexp d.1 row + sexp d.2.1 col + 8 * ((mwD w : Int) - 1 - mwDig w)
      new i = sat ((if mwAcc w then old i else 0) + (align (dyInt sum e) x 0).1)) ∧
    (mwMop w = 1 → others ∧ r.wb.getLsbD p = false ∧ r.outs = k.outs ∧ r.flg = k.flg ∧ KMap.get 0 r.acc p = 0) ∧
    (mwMop w = 2 → r.acc = k.acc ∧ r.wb = k.wb ∧ ∃ o v, r.outs = k.outs ++ [(o, v)] ∧ o.reg = mwAreg w ∧
      o.off = mwAoff w ∧ o.len = 1024 * codeBytes (mwDf w)) ∧
    (mwMop w = 3 → others ∧ r.wb.getLsbD p = true ∧ r.outs = k.outs ∧ ∀ i, i < 1024 →
      new i = match fp32.decode (d.2.2 >>> (32 * i) % 2 ^ 32) with
        | .nan _ => 0
        | .inf neg => if neg then -(2 ^ 47) else 2 ^ 47 - 1
        | v => sat (align v x 0).1) ∧
    (mwMop w = 4 → r.acc = k.acc ∧ r.wb = k.wb ∧ r.outs.length = k.outs.length + 2)

/-! ## Circular buffers -/

/-- R280, R281, R282: each operation of CB completes where the spec gives it its effect, and is refused elsewhere: `cb.set`
configures a buffer; `cb.adv` blocks while FREE is below m, whoever holds PQ (R48), and takes up an advance of PP, which is
made when its count has run out; `cb.rel` releases slots; `cb.qry` lands FREE, AV and PP. -/
def Obligations.CircularBuffers : Prop :=
  (∀ (s : State) (g : BitVec 4) (src : BitVec 9),
    let c := s.iss.ctx
    let a := c.portW 21 0
    let b := c.portW 21 1
    let T := trigT s src
    let ssz := a.toNat / 2 ^ 32 % 512
    let ns := b.toNat % 8192
    let gr := b.toNat / 2 ^ 16 % 8192
    let top := a.toNat % 2 ^ 23 + 256 * ssz * ns
    let h := (c.portW 21 2).toNat % 16
    let x := c.cb h
    let set := Instr.cbSet g src
    let aOk := ssz ≠ 0 ∧ ssz ≤ 256 ∧ a.toNat % 256 = 0
    let bOk := ns ≠ 0 ∧ ns ≤ 4096 ∧ gr ≠ 0 ∧ gr ≤ ns
    let used := cbNamed s (T.toNat % 16) = true ∨ (c.cb (T.toNat % 16)).pq ≠ 0
    let some' := 0 < T.toNat ∧ T.toNat ≤ x.ns.toNat
    (aOk → bOk → top ≤ 65536 * c.ctl.arenaSize.toNat → ¬used → Completes s set 21 4 1 1 false g src fun c =>
      c.setCb (T.toNat % 16)
        { cfg := true, base := a.extractLsb' 8 15, ssz := BitVec.ofNat 9 ssz, ns := BitVec.ofNat 13 ns
          gr := BitVec.ofNat 13 gr, pp := 0, cc := 0, rp := 0, pq := 0, line := [] }) ∧
    (Ready s 21 4 false g src → (¬aOk → Traps s set 0x0A a) ∧ (aOk → ¬bOk → Traps s set 0x0A b) ∧
      (aOk → bOk → 65536 * c.ctl.arenaSize.toNat < top → Traps s set 0x20 (w64 top)) ∧
      (aOk → bOk → top ≤ 65536 * c.ctl.arenaSize.toNat → used → Traps s set 0x0E (w64 (T.toNat % 16)))) ∧
    (x.cfg = true → some' → x.pq = 0 → (T.toNat : Int) ≤ x.free → Completes s (.cbAdv g src) 21 5 1 1 true g src fun c =>
      { c with inf := { c.inf with cbAdv := c.inf.cbAdv ++ [(3, h, T.toNat)] } }) ∧
    (Ready s 21 5 true g src → (x.cfg = true → some' → x.free < T.toNat → Blocks s (.cbAdv g src)) ∧
      (x.cfg = false → Traps s (.cbAdv g src) 0x0D (w64 h)) ∧ (x.cfg = true → ¬some' → Traps s (.cbAdv g src) 0x0A T) ∧
      (x.cfg = true → some' → (T.toNat : Int) ≤ x.free → x.pq ≠ 0 → Traps s (.cbAdv g src) 0x0E (w64 h))) ∧
    (x.cfg = true → some' → x.rp.toNat + T.toNat ≤ x.pp.toNat → Completes s (.cbRel g src) 21 6 1 1 false g src fun c =>
      let rp := max (c.cb h).rp.toNat (x.rp.toNat + T.toNat)
      c.setCb h { c.cb h with
        rp := BitVec.ofNat 40 rp, cc := BitVec.ofNat 48 (max (c.cb h).cc.toNat ((c.cb h).ssz.toNat * rp)) }) ∧
    (Ready s 21 6 false g src → (x.cfg = false → Traps s (.cbRel g src) 0x0D (w64 h)) ∧
      (x.cfg = true → ¬(some' ∧ x.rp.toNat + T.toNat ≤ x.pp.toNat) → Traps s (.cbRel g src) 0x0A T)) ∧
    (let y := c.cb (T.toNat % 16)
     (y.cfg = true → Results s (.cbQry g src) 21 7 2 1 1 g src (.s (w64 ((y.free % 8192).toNat +
        (y.avail % 8192).toNat * 2 ^ 16 + y.pp.toNat % 2 ^ 32 * 2 ^ 32))) 0) ∧
     (y.cfg = false → Ready s 21 7 false g src → Traps s (.cbQry g src) 0x0D (w64 (T.toNat % 16))))) ∧
  ∀ (s : State) (n : Nat), ∃ t c, exec (.cbAdvPpAdvance n) s = .next t ∧ t = s.setCtx n c ∧
    c = { s.ctx n with
      inf := { (s.ctx n).inf with cbAdv := (s.ctx n).inf.cbAdv.filter fun p => p.1 ≠ 0 }
      cbs := c.cbs } ∧
    ∀ h,
      let due := (s.ctx n).inf.cbAdv.filter fun p => decide (p.1 = 0 ∧ p.2.1 = h)
      c.cb h = { (s.ctx n).cb h with pp := ((s.ctx n).cb h).pp + BitVec.ofNat 40 (listSum (due.map fun p => p.2.2)) }

/-! ## Power -/

/-- R441, R442, R443, R204: `pw.req` makes its token pending and its core's one request outstanding; `pw.lim` sets the
weight limit and the window. -/
def Obligations.PowerUnit : Prop :=
  ∀ (s : State) (g : BitVec 4) (src : BitVec 9),
    let n := s.iss.n
    let c := n / 4
    let d := c / 256
    let a := s.iss.ctx.portW 27 0
    let T := trigT s src
    let tk := a.toNat % 16
    let ntk := a.getLsbD 4
    let W : BitVec 16 := T.setWidth 16
    let req := Instr.pwReq g src
    let mine := s.iss.core.matrix.owner = some n
    let none' := s.iss.core.matrix.leave = none
    let tokOk := ntk = true ∨ (s.iss.ctx.tok tk).st ≠ .pending
    (Ready s 27 4 false g src → mine → T.toNat < 2 ^ 16 → none' → tokOk → ∃ t, exec req s = .next t ∧
      t.ctx n = (if ntk then sourced s src else (sourced s src).tokPend tk) ∧ (∀ m, m ≠ n → t.ctx m = s.ctx m) ∧
      (t.core c).matrix = { (s.core c).matrix with
        leave := some (n, W, tk, ntk), grant := if W = 0 then 0 else (s.core c).matrix.grant } ∧
      (∀ k, k ≠ c → t.core k = s.core k) ∧ t.mem = s.mem ∧
      (∃ x ∈ KMap.get [] t.leaveReqs d, x.core = c ∧ x.w = W) ∧
      ∀ e, KMap.get 0 t.mgmt.lheld e = KMap.get 0 s.mgmt.lheld e -
        (if e = d ∧ W = 0 then (s.core c).matrix.grant else 0)) ∧
    (Ready s 27 4 false g src → (¬mine → Traps s req 0x0F 0) ∧ (mine → 2 ^ 16 ≤ T.toNat → Traps s req 0x0A T) ∧
      (mine → T.toNat < 2 ^ 16 → ¬none' → Traps s req 0x11 T) ∧
      (mine → T.toNat < 2 ^ 16 → none' → ¬tokOk → Traps s req 0x0B (w64 tk))) ∧
    (0 < T.toNat → T.toNat < 4096 → CompletesCore s (.pwLim g src) 27 5 1 1 false g src id fun k =>
      { k with curlim := a.setWidth 24, curwin := T.setWidth 12, curw := 0, wstart := s.clk + 1 }) ∧
    (T.toNat = 0 ∨ 4096 ≤ T.toNat → Ready s 27 5 false g src → Traps s (.pwLim g src) 0x06 20)

/-- R457: a die's leave arbiter: a weight that fits its budget is held and arrives later; one above the budget is answered
with 0; one that does not fit now waits; a grant that arrives is the core's, and its token takes the weight. -/
def Obligations.LeaveArbiter : Prop :=
  ∀ (s : State) (d : Nat) (r : LeaveReq), KMap.get [] s.leaveReqs d = [r] →
    let bud := (KMap.get Config.lbud s.mgmt.lbud d).toNat
    let held := KMap.get 0 s.mgmt.lheld d
    let answered (v : BitVec 16) (t : State) : Prop := KMap.get [] t.leaveReqs d = [] ∧
      ∀ n w tk ntk, (s.core r.core).matrix.leave = some (n, w, tk, ntk) → (t.core r.core).matrix.leave = none ∧
        (t.core r.core).matrix.grant = (if v = 0 then (s.core r.core).matrix.grant else v) ∧
        (ntk = false → ((s.ctx n).tok tk).st = .pending → (t.ctx n).tok tk = ⟨.written, v.setWidth 64⟩)
    (r.due = none → bud < r.w.toNat → ∃ t, exec (.leaveGrant d) s = .next t ∧ answered 0 t ∧
      (∀ e, KMap.get 0 t.mgmt.lheld e = KMap.get 0 s.mgmt.lheld e) ∧ t.mem = s.mem) ∧
    (r.due = none → r.w.toNat ≤ bud → held.toNat + r.w.toNat ≤ bud → ∃ t k, exec (.leaveGrant d) s = .next t ∧
      0 < k ∧ k < 40 ∧ KMap.get [] t.leaveReqs d = [{ r with due := some (s.clk + k) }] ∧
      KMap.get 0 t.mgmt.lheld d = held + r.w ∧ (∀ m, t.ctx m = s.ctx m) ∧ (∀ m, t.core m = s.core m) ∧ t.mem = s.mem) ∧
    (r.due = none → r.w.toNat ≤ bud → bud < held.toNat + r.w.toNat → ∃ t, exec (.leaveGrant d) s = .next t ∧
      KMap.get [] t.leaveReqs d = [r] ∧ t.mgmt = s.mgmt ∧ (∀ m, t.ctx m = s.ctx m) ∧ (∀ m, t.core m = s.core m) ∧
      t.mem = s.mem) ∧
    (∀ k, r.due = some k → k ≤ s.clk → ∃ t, exec (.leaveGrant d) s = .next t ∧ answered r.w t ∧ t.mem = s.mem)

/-! ## Commands -/

/-- R264, R265, R266, R268, R271, R272, R273, R274, R304, R365: each go move of CE, GE, WE, RS and NP whose operands are in
range enters its command, with the record that its bundle reads as a local load of the clk would; a full or fenced queue blocks it; a reserved scope, a pending token
and a set bit 63 of its go word are refused. NP and `rs.go` in a context that records: RecordedOperations. -/
def Obligations.EngineCommands : Prop :=
  ∀ (s : State) (g : BitVec 4) (src : BitVec 9),
    let c := s.iss.ctx
    let T := trigT s src
    let tok (w : Word) : Option Nat := if w.getLsbD 60 then none else some (w.toNat / 2 ^ 56 % 16)
    let goOk (w : Word) : Prop := w.toNat % 8 < 6 ∧ TokenFree s (tok w) ∧ w.getLsbD 63 = false
    let enters (i : Instr) (q : Cmd) : Prop := Enters s i g src (tok q.go) q id
    let reads (i : Instr) (a n : Nat) (q : Cmd) : Prop := Enters s i g src (tok q.go) q fun x =>
      { x with accs := x.accs ++
        [⟨3, s.serial + 1, rowSegs s s.iss.n [(a % 2 ^ 23, n)], [], 0, .mat, false, false, false, 0, false, false, 0⟩] }
    let met (i : Instr) (fu port : Nat) (w : Word) : Prop := Ready s fu port true g src →
      (¬QueueOpen s fu → Blocks s i) ∧ (QueueOpen s fu → (6 ≤ w.toNat % 8 → Traps s i 0x09 (w64 (w.toNat % 8))) ∧
        (∀ k, w.toNat % 8 < 6 → tok w = some k → (c.tok k).st = .pending → Traps s i 0x0B (w64 k)) ∧
        (w.toNat % 8 < 6 → TokenFree s (tok w) → w.getLsbD 63 = true → Traps s i 0x0A w))
    let rd := [0, 1, 4]
    let wr := [0, 1, 2, 3, 4]
    (let q := goCmd s src 16 4
     let x := ceExtent (dimsOf (shapeAt s q.a2)) q.a3
     goOk T → q.a2.toNat % 256 = 0 → q.a2.toNat % 2 ^ 23 + 256 ≤ arenaBytes c → cePM q.a3 ≠ 3 →
      (∀ d ∈ dimsOf (shapeAt s q.a2), d.cnt ≠ 0 ∧ (cePM q.a3 = 0 → d.lo = 0 ∧ d.hi = 0)) → q.a3.toNat % 16 ≤ 8 →
      q.a3.toNat / 16 % 16 ≤ 8 → EndpointOk s q.a0 rd x.1.1 x.1.2 0 → EndpointOk s q.a1 wr x.2.1 x.2.2 0 →
      reads (.ceGo g src) q.a2.toNat 256 { q with shape := shapeAt s q.a2 }) ∧
    (let q := goCmd s src 16 5
     let n := q.a2.toNat % 2 ^ 40
     goOk T → n ≠ 0 → EndpointOk s q.a0 rd 0 n 0 → EndpointOk s q.a1 rd 0 n 0 → enters (.ceCmp g src) q) ∧
    (let q := goCmd s src 17 4
     let rb := q.a3.toNat % 2 ^ 20
     let n := q.a3.toNat / 2 ^ 20 % 2 ^ 24
     goOk T → rb ≠ 0 → rb ≤ 65536 → rb % 4 = 0 → n ≠ 0 →
      EndpointOk s q.a0 [1] 0 (n * if q.a3.getLsbD 44 then 8 else 4) 0 → EndpointOk s q.a1 wr 0 (rb * n) 0 →
      EndpointOk s q.a2 rd 0 0 0 → enters (.geGo g src) q) ∧
    (let q := goCmd s src 17 5
     let k := c.sk (q.a0.toNat % 8)
     let n := q.a2.toNat % 2 ^ 40
     let off := q.a3.toNat % 2 ^ 16
     let len := q.a3.toNat / 2 ^ 16 % 2 ^ 17
     goOk T → n ≠ 0 → len % 4 = 0 → k.cfg = true → off + len ≤ 2 ^ (k.shape.toNat % 16 + 6) →
      q.a0.toNat / 256 % 2 ^ 40 + n ≤ k.clen.toNat → EndpointOk s q.a1 wr 0 (n * len) len →
      enters (.geSkg g src)
        { q with shape := [k.desc.setWidth 64, w64 (8 * 2 ^ (k.shape.toNat / 16 % 4))], bound := k.clen }) ∧
    (let q := goCmd s src 18 4
     goOk T → 0 < weH q.a2 → 0 < weW q.a2 → 0 < weG q.a2 → 1 ≤ weOH q.a2 → 1 ≤ weOW q.a2 → 2 ^ 32 ≤ q.a3.toNat →
      (∀ a b, weSpan q.a2 (q.a3.toNat % 2 ^ 32) (q.a3.toNat / 2 ^ 32) = some (a, b) → EndpointOk s q.a0 rd a (b - a + 33) 0) →
      EndpointOk s q.a0 rd 0 0 0 → EndpointOk s q.a1 [2] 0 0 1280 →
      enters (.weGo g src) q) ∧
    (let q := goCmd s src 19 4
     let w := pairAt s q.a0
     let ef := q.a3.toNat / 2 ^ 20 % 16
     let bytes (dst : Bool) : Nat := codeBytes ef * shardLen w dst c.ctl.rank.toNat
     recOn s = false → goOk T → q.a0.toNat % 256 = 0 → q.a0.toNat % 2 ^ 23 + 256 ≤ arenaBytes c → pairCode w c.ctl.crewn.toNat ef = 0 →
      EndpointOk s q.a1 [0, 1] 0 (bytes false) 0 → EndpointOk s q.a2 [0, 1] 0 (bytes true) 0 →
      reads (.rsGo g src) q.a0.toNat 256 { q with shape := w }) ∧
    (let q := goCmd s src 19 5
     goOk T → q.a0.toNat % 256 = 0 → q.a0.toNat % 2 ^ 23 + 256 ≤ arenaBytes c → q.a2.toNat % 2 ^ 23 + 64 ≤ arenaBytes c →
      reads (.rsQry g src) q.a0.toNat 256 { q with shape := pairAt s q.a0 }) ∧
    (let q := goCmd s src 20 4
     let n := q.a2.toNat % 2 ^ 40
     let payf := q.a3.toNat / 2 ^ 32 % 32
     recOn s = false → goOk T → q.a1.toNat % 2 ^ 20 ≠ 0 → n ≠ 0 → n % 4 = 0 → payf ≠ 0 → payf ≤ 16 → q.a3.toNat / 2 ^ 37 % 16 ≤ 8 →
      EndpointOk s q.a0 rd 0 n 0 → enters (.npSend g src) q) ∧
    (let q := goCmd s src 20 5
     recOn s = false → goOk q.a3 → q.a1.toNat % 2 ^ 20 ≠ 0 → q.a0.toNat % 16 ≤ 8 →
      enters (.npRow g src) { q with go := q.a3, row := (readCode s src).row }) ∧
    met (.ceGo g src) 16 4 T ∧ met (.ceCmp g src) 16 5 T ∧ met (.geGo g src) 17 4 T ∧ met (.geSkg g src) 17 5 T ∧
    met (.weGo g src) 18 4 T ∧ met (.rsQry g src) 19 5 T ∧
    (recOn s = false → met (.rsGo g src) 19 4 T ∧ met (.npSend g src) 20 4 T ∧ met (.npRow g src) 20 5 (c.portW 20 3))

/-- R225, R226, R227, R228, R229, R230, R231, R232, R233: each SK operation enters its command with the address of the
descriptor that its handle names; `sk.open` and `sk.fork` bind a handle at issue and `sk.rel` unbinds one. -/
def Obligations.SkeinCommands : Prop :=
  ∀ (s : State) (g : BitVec 4) (src : BitVec 9),
    let c := s.iss.ctx
    let T := trigT s src
    let a := c.portW 22 0
    let w := c.portW 22 2
    let h := w.toNat / 256 % 8
    let h2 := (c.portW 22 1).toNat % 8
    let tok := ctlTok w
    let ok := w.toNat / 32 % 8 < 6 ∧ TokenFree s tok
    let named := (c.sk h).cfg = true
    let few (n : Word) : Prop := 1 ≤ n.toNat ∧ n.toNat ≤ 4096
    let q (port : Nat) : Cmd := { goCmd s src 22 port with a3 := if port = 4 then T else (c.sk h).desc.setWidth 64 }
    let enters (i : Instr) (port : Nat) (f : Ctx → Ctx) : Prop := Enters s i g src tok (q port) f
    let bind (k : Nat) (d : Word) (x : Ctx) : Ctx :=
      x.setSk k { x.sk k with cfg := true, desc := d.setWidth 56, clen := 0 }
    let range (i : Instr) (port : Nat) (v : Word) (p : Prop) : Prop := Ready s 22 port true g src → QueueOpen s 22 → ok →
      ¬p → Traps s i 0x0A v
    let unbound (i : Instr) (port : Nat) (p : Prop) : Prop := Ready s 22 port true g src → QueueOpen s 22 → ok → p →
      ¬named → Traps s i 0x0D (w64 h)
    (ok → enters (.skOpen g src) 4 (bind h T)) ∧
    (ok → named → few T → enters (.skRes g src) 5 id) ∧
    (ok → named → few a → enters (.skCmt g src) 6 id) ∧
    (ok → named → T.toNat < 2 ^ 40 → h2 ≠ h → enters (.skFork g src) 7 (bind h2 a)) ∧
    (ok → named → enters (.skRel g src) 8 fun x => x.setSk h { x.sk h with cfg := false }) ∧
    (ok → named → enters (.skLen g src) 9 id) ∧ (ok → enters (.skPidx g src) 10 id) ∧ (ok → enters (.skPins g src) 11 id) ∧
    (ok → named → a.toNat < 2 ^ 40 → enters (.skCmpt g src) 12 id) ∧
    range (.skRes g src) 5 T (few T) ∧ range (.skCmt g src) 6 a (few a) ∧ range (.skFork g src) 7 T (T.toNat < 2 ^ 40) ∧
    range (.skCmpt g src) 12 a (a.toNat < 2 ^ 40) ∧ unbound (.skRes g src) 5 (few T) ∧ unbound (.skCmt g src) 6 (few a) ∧
    unbound (.skFork g src) 7 (T.toNat < 2 ^ 40) ∧ unbound (.skRel g src) 8 True ∧ unbound (.skLen g src) 9 True ∧
    unbound (.skCmpt g src) 12 (a.toNat < 2 ^ 40)

/-- R252, R253, R250, R255: the BL operations: `bl.bast` sets REC and clears LRDY, `bl.bstop` clears REC, `bl.mark` stages
a mark entry where the context records, `bl.unpk` enters its command, `bl.flag` writes BL.FW, the operand addresses and
tags. -/
def Obligations.BasteCommands : Prop :=
  ∀ (s : State) (g : BitVec 4) (src : BitVec 9),
    let c := s.iss.ctx
    let T := trigT s src
    let w := c.portW 23 2
    let h := c.ctl.logsk.toNat
    let log := (c.sk h).cfg = true
    let desc := (c.sk h).desc.setWidth 64
    let q (port : Nat) : Cmd := goCmd s src 23 port
    let enters (i : Instr) (q : Cmd) (f : Ctx → Ctx) : Prop := Enters s i g src none q f
    let busy := c.ctl.bsRec = true ∨ ∃ q ∈ c.queue 23, q.port = 7
    let flagged (x : Ctx) (r : Regs) : Ctx :=
      { x with regs := r, baste := { x.baste with fw := w64 (T.toNat / 2 ^ 32 % 2 ^ 30), adAB := c.portW 23 0, adTY := c.portW 23 1 } }
    let r := T.toNat / 4 % 32
    let gid := T.toNat / 128 % 4096
    let row := T.toNat / 2 ^ 19 % 256
    (log → enters (.blBast g src) { q 4 with a3 := desc } fun x =>
      { x with baste := { x.baste with lrdy := false }, ctl := { x.ctl with bsRec := true } }) ∧
    (¬log → Ready s 23 4 true g src → QueueOpen s 23 → Traps s (.blBast g src) 0x0D (w64 h)) ∧
    (enters (.blBstop g src) (q 5) fun x => { x with ctl := { x.ctl with bsRec := false } }) ∧
    (recOn s = false → enters (.blMark g src) (q 6) id) ∧
    (recOn s = true → QueueOpen s 23 → CompletesCore s (.blMark g src) 23 6 1 2 true g src
      (fun x =>
        let x := x.enter (q 6) none
        { x with baste := { x.baste with stages := x.baste.stages ++
          [{ id := s.serial, hdr := [w64 (3 + 2 ^ 32), 0, 0, w64 (T.toNat % 2 ^ 32), 0, 0, 0, 0], imgs := [], raws := [],
             missing := 0, len := 1, held := false }] } })
      fun k => { k with staged := k.staged + 64 }) ∧
    (w.toNat / 32 % 8 < 6 → TokenFree s (ctlTok w) → log → ¬busy →
      Enters s (.blUnpk g src) g src (ctlTok w) { q 7 with a3 := desc } id) ∧
    (w.toNat / 32 % 8 < 6 → TokenFree s (ctlTok w) → log → busy → Ready s 23 7 true g src → QueueOpen s 23 →
      Traps s (.blUnpk g src) 0x17 7) ∧
    (T.getLsbD 0 = false → enters (.blFlag g src) (q 8) fun x => flagged x x.regs) ∧
    (T.getLsbD 0 = true → T.getLsbD 1 = true → r ∉ bundleTags s → enters (.blFlag g src) (q 8) fun x =>
      flagged x (x.regs.setTag r (BitVec.ofNat 20 (gid * 256 + row)))) ∧
    (T.getLsbD 0 = true → T.getLsbD 1 = false → T.getLsbD 6 = false → bundleTags s = [] → enters (.blFlag g src) (q 8)
      fun x => flagged x ((List.range 8).foldl (fun y k =>
        y.setTag (32 + 8 * r + k) (BitVec.ofNat 20 (gid * 256 + (row + k) % 256))) x.regs)) ∧
    (T.getLsbD 0 = true → T.getLsbD 1 = false → T.getLsbD 6 = true → Ready s 23 8 true g src → QueueOpen s 23 →
      Traps s (.blFlag g src) 0x0A T)

/-- R319, R320, R341, R342, R374, R375, R379: the operations of LN, PT and XL enter their commands; `ln.quit` ends the
member's issue; `xl.prb` lands the entry that the quad's translation buffer holds, without its address for a context that
is not privileged. -/
def Obligations.ManagementCommands : Prop :=
  ∀ (s : State) (g : BitVec 4) (src : BitVec 9),
    let c := s.iss.ctx
    let T := trigT s src
    let enters (i : Instr) (fu port : Nat) (tok : Option Nat) (f : Ctx → Ctx) : Prop :=
      Enters s i g src tok (goCmd s src fu port) f
    let lw := c.portW 24 2
    let pw := c.portW 25 2
    let xw := c.portW 26 2
    let pa := c.portW 25 0
    let pb := c.portW 25 1
    let xa := c.portW 26 0
    let scope := xw.toNat / 32 % 8
    let count (w : Word) : Prop := 1 ≤ w.toNat % 32 ∧ w.toNat % 32 ≤ 16
    let holder := (holderOf (T.toNat % 2048)).isSome = true
    let refused (i : Instr) (fu port : Nat) (code : Nat) (v : Word) : Prop :=
      Ready s fu port true g src → QueueOpen s fu → Traps s i code v
    (TokenFree s (ctlTok lw) → T.toNat % 256 = 0 → enters (.lnLnch g src) 24 4 (ctlTok lw) id) ∧
    (TokenFree s (ctlTok lw) → T.toNat % 256 ≠ 0 → refused (.lnLnch g src) 24 4 0x0A T) ∧
    (enters (.lnQuit g src) 24 5 none fun x => { x with st := .draining, pc := s.iss.pc, npc := c.npc }) ∧
    (TokenFree s (ctlTok pw) → (T.toNat % 64 = 0 → enters (.ptLoad g src) 25 4 (ctlTok pw) id) ∧
      (T.toNat % 64 ≠ 0 → refused (.ptLoad g src) 25 4 0x0A T) ∧ enters (.ptUnld g src) 25 5 (ctlTok pw) id ∧
      enters (.ptQry g src) 25 6 (ctlTok pw) id ∧
      (holder → count pb → pa.toNat % 128 = 0 → vaultCheck c pa false 1 (128 * (pb.toNat % 32)) = none →
        enters (.ptStry g src) 25 7 (ctlTok pw) id) ∧
      (holder → count pb → pa.toNat % 128 ≠ 0 → refused (.ptStry g src) 25 7 0x21 pa) ∧
      (holder → count pa → enters (.ptClr g src) 25 8 (ctlTok pw) id) ∧
      (¬holder → refused (.ptStry g src) 25 7 0x0A T ∧ refused (.ptClr g src) 25 8 0x0A T)) ∧
    (scope < 5 → TokenFree s (ctlTok xw) →
      (xa.toNat < 2 ^ 56 → T ≠ 0 → xa.toNat + T.toNat ≤ 2 ^ 56 → enters (.xlSda g src) 26 4 (ctlTok xw) id) ∧
      (2 ^ 56 ≤ xa.toNat → refused (.xlSda g src) 26 4 0x0A xa) ∧
      (xa.toNat < 2 ^ 56 → T = 0 ∨ 2 ^ 56 < xa.toNat + T.toNat → refused (.xlSda g src) 26 4 0x0A T) ∧
      (xa.toNat % 64 = 0 → enters (.xlSdk g src) 26 5 (ctlTok xw) id) ∧
      (xa.toNat % 64 ≠ 0 → refused (.xlSdk g src) 26 5 0x0A xa)) ∧
    (5 < scope → refused (.xlSda g src) 26 4 0x09 (w64 scope) ∧ refused (.xlSdk g src) 26 5 0x09 (w64 scope)) ∧
    (let held := tlbFind s (quadOf s.iss.n) c.ctl.asid T
     let leaf := match held with
       | none => 0
       | some e => if c.ctl.priv then e.leaf else e.leaf &&& 0xFFFF0000000000FF
     (T.toNat < 2 ^ 56 → xa.getLsbD 0 = false ∨ held.isSome = true →
       Results s (.xlPrb g src) 26 6 4 1 1 g src (.s leaf) 0) ∧
     (T.toNat < 2 ^ 56 → xa.getLsbD 0 = true → held = none → Ready s 26 6 false g src → ∃ t, exec (.xlPrb g src) s = .next t ∧
       DidRest s t 1 (landing s 4 26 (.s 0) 0 (sourced s src)) id (tlbFill s (quadOf s.iss.n) c.ctl.asid c.ctl.ptroot T)) ∧
     (2 ^ 56 ≤ T.toNat → Ready s 26 6 false g src → ∃ t, exec (.xlPrb g src) s = .next t ∧
       t.ctx s.iss.n = landing s 4 26 (.s 0) 0 (sourced s src) ∧ t.mem = s.mem))

/-! ## The clk of a core -/

/-- R42, R43, R91: a result that is due lands: a new entry of its queue ages the others and the oldest of four is discarded,
a row fills the entry that it belongs to, flags are ORed; of two results of one unit the one triggered first takes the
older age (flights stand in the order of their triggers); nothing lands before it is due; reading an entry changes
nothing. -/
def Obligations.ResultsLand : Prop :=
  ∀ (s : State) (n : Nat),
    let c := s.ctx n
    let same (t : State) : Prop := t.cores = s.cores ∧ t.mem = s.mem ∧ ∀ m, m ≠ n → t.ctx m = s.ctx m
    (∀ src fu age, srcOf src = some (.ent fu age) → consume s src = s) ∧
    ((∀ f ∈ c.inf.flights, f.rem ≠ 0) → ∃ t, exec (.resultLanding n) s = .next t ∧ t.ctx n = c ∧ same t) ∧
    (∀ f f' l v v', c.inf.flights = f :: f' :: l → f.rem = 0 → f'.rem = 0 → (∀ x ∈ l, x.rem ≠ 0) → f.fu = f'.fu →
      f.what = .entry v → f'.what = .entry v' → ∃ t, exec (.resultLanding n) s = .next t ∧ same t ∧
        (t.ctx n).image f.fu = ⟨f'.id, v', f'.tag⟩ :: ⟨f.id, v, f.tag⟩ :: (c.image f.fu).take 2) ∧
    ∀ f l, c.inf.flights = f :: l → f.rem = 0 → (∀ x ∈ l, x.rem ≠ 0) →
      ∃ t, exec (.resultLanding n) s = .next t ∧ same t ∧ (t.ctx n).inf.flights = l ∧ (t.ctx n).regs = c.regs ∧
        (t.ctx n).ctl = { c.ctl with flags := c.ctl.flags ||| f.flg } ∧ (t.ctx n).ports = c.ports ∧
        (∀ fu, fu ≠ f.fu → (t.ctx n).image fu = c.image fu) ∧
        (∀ v, f.what = .entry v → (t.ctx n).image f.fu = ⟨f.id, v, f.tag⟩ :: (c.image f.fu).take 3 ∧
          (t.ctx n).inf.jobs = c.inf.jobs) ∧
        ∀ k r, f.what = .row k r → (t.ctx n).image f.fu = (c.image f.fu).map fun e =>
          if e.id = f.id then { e with val := match e.val with | .t x => .t (tileSet x k r) | x => x } else e

/-- R40, R41, R123, R131, R142, R186: one clk of a row sequencer: it reads row k as its source stood at the start of the
clk, feeds it to its destination, and goes on to the next row or ends. -/
def Obligations.SequencerRows : Prop :=
  ∀ (s : State) (n : Nat) (j : Job), (s.ctx n).inf.jobs = [j] → j.stage = 0 →
    let c := s.ctx n
    let r := seqRead c j.src j.k
    let tg := seqTag c j.src j.k j.tagSrc
    let next := if j.k < 7 then [{ j with k := j.k + 1, buf := tileSet j.buf j.k r }] else []
    let leaves (f : Ctx → Ctx) : Prop := ∃ t, exec (.tileSequencerRow n) s = .next t ∧
      t.ctx n = f { c with inf := { c.inf with jobs := next } } ∧ t.mem = s.mem ∧ t.cores = s.cores ∧
      ∀ m, m ≠ n → t.ctx m = s.ctx m
    let flies (fu lat : Nat) (v : Row) (l : Flg) (x : Ctx) : Ctx :=
      { x with inf := { x.inf with flights := x.inf.flights ++ [⟨lat, fu, j.id, .row j.k v, l, 0, false⟩] } }
    (∀ d, j.dst = .reg d → leaves fun x =>
      { x with regs := { (x.regs.setT d (tileSet (c.regs.treg d) j.k r)).setTag (32 + 8 * d + j.k) tg with
          wrote := (8 * d + j.k) :: c.regs.wrote } }) ∧
    (∀ fu, j.dst = .portD fu → leaves fun x =>
      { x with
        ports := KMap.put x.ports (4 * fu + 3) (.t (tileSet (c.portT fu 3) j.k r))
        regs := x.regs.setTag (portTag fu 3 j.k) tg }) ∧
    (∀ fu port, j.dst = .ta fu port →
      let y := laneRow (tileFn port) j.fmt fu j.k 0 (tileRow (c.portT fu 3) j.k) r 0
      leaves (flies fu 4 y.1 y.2)) ∧
    (j.dst = .xpose → leaves (flies 13 6 (rowOf fun i => lane r (8 * (i % 8) + i / 8)) 0)) ∧
    (∀ a, j.dst = .stt a → leaves fun x => { x with accs := x.accs ++
      [⟨3, j.id, segsOf (a.toNat + 256 * j.k) 0 256, [], r.toNat, .store, false, decide (j.k = 7), false, 0, false, false, 0⟩] }) ∧
    (∀ a npl half, j.dst = .stp a npl half → j.k < 7 → leaves id) ∧
    ∀ a npl half, j.dst = .stp a npl half → j.k = 7 → leaves fun x => { x with accs := x.accs ++
      [⟨3, j.id, planeSegs a.toNat npl half, [], planeData npl (tileSet j.buf 7 r), .store, false, true, false, 0, false,
        false, 0⟩] }

/-- R21, R23, R401, R417, R427, R430, R456: a bundle blocks and becomes ready again; a window ends; a walk of a counter
operation ends; a stop request sets STOPF and stops a context that does not issue; a waiting fault is delivered. -/
def Obligations.CoreEvents : Prop :=
  ∀ (s : State) (n : Nat),
    let c := s.ctx n
    (let k := s.core (coreOf s.iss.n)
     exec .bundleBlock s = .next ((s.setCtx s.iss.n { s.ctx s.iss.n with blocked := true }).setCore (coreOf s.iss.n)
      { k with gave := k.gave || !s.iss.ctx.ctl.excl })) ∧
    (c.blocked = true →
      exec (.blockedBundleIssue n) s = .next (s.setCtx n { c with blocked := false, readySince := s.clk })) ∧
    (exec (.windowExpiry n) s = .next (s.setCore n { s.core n with curw := 0 })) ∧
    (c.xwalk = some false → ∃ t, exec (.translationWalk n) s = .next t ∧ t.ctx n = { c with xwalk := some true } ∧
      t.mem = s.mem ∧ (∀ m, m ≠ n → t.ctx m = s.ctx m) ∧
      t.tlb = (tlbFill s (quadOf n) c.ctl.asid c.ctl.ptroot (c.portW 6 0 &&& ~~~7)).tlb) ∧
    let k := s.core (coreOf n)
    let issues := k.run = some (n % 4) ∧ c.blocked = false ∧ c.st = .running ∧ (k.froze = 0 ∨ k.froze = 4)
    let kept (i : Inflight) : Inflight :=
      { i with
        flights := i.flights.map fun x => { x with snap := true }
        jobs := i.jobs.map fun x => { x with snap := true } }
    (issues → ∃ t, exec (.stopRequest n) s = .next t ∧ t.ctx n = { c with ctl := { c.ctl with stopf := true } } ∧
      (∀ m, m ≠ n → t.ctx m = s.ctx m) ∧ t.cores = s.cores ∧ t.mem = s.mem ∧ (c.stopDist = false → t.cal = s.cal) ∧
      (c.stopDist = true → ∃ d, s.clk < d ∧ d ≤ s.clk + 512 ∧ ⟨d, false, .engineQuiesceComplete n⟩ ∈ t.cal)) ∧
    (c.st = .running ∨ c.st = .draining → ¬issues → c.accs = [] → c.wait = none → c.doomed = false →
      (∀ p ∈ c.inf.cbAdv, p.1 ≠ 0) → ∃ t, exec (.stopRequest n) s = .next t ∧ t.mem = s.mem ∧
        (∀ m, m ≠ n → t.ctx m = s.ctx m) ∧
        t.ctx n = { c with
          ctl := { c.ctl with stopf := true }, blocked := false, xwalk := none, inf := kept c.inf, kept := keptBits 0 c
          st := if c.stopDist then .saving else .inspect }) ∧
    (∀ code v fu l, c.delivered = (code, v, fu) :: l → c.st = .running → hasHandler c = true → c.accs = [] →
      c.wait = none → (∀ p ∈ c.inf.cbAdv, p.1 ≠ 0) →
      ∃ t f, exec (.faultDelivery n) s = .next t ∧ (t.core (coreOf n)).icd = 4 ∧ t.mem = s.mem ∧
        (t.ctx n).delivered = l ∧ (t.ctx n).hdep = true ∧ (t.ctx n).pc = w64 (32 * c.ctl.trapvec.toNat) ∧
        (t.ctx n).ctl.trappc = BitVec.ofNat 18 ((match c.replay with | some r => r.org.pc | none => c.pc).toNat / 32) ∧
        (t.ctx n).ctl.trapcode = BitVec.ofNat 8 code ∧
        (t.ctx n).ctl.trapval = v ∧ (t.ctx n).ctl.priv = true ∧ (t.ctx n).regs.s = c.regs.s ∧
        (t.ctx n).frame = some f ∧ f.oq = c.oq ∧ f.inf = kept c.inf ∧ f.replay = c.replay ∧ f.fu = fu ∧
        ∀ m, m ≠ n → t.ctx m = s.ctx m) ∧
    (∀ code v l, c.delivered = (code, v, 0) :: l → hasHandler c = false → c.ctl.cpol.toNat % 4 = 0 →
      code ∉ [0x02, 0x23, 0x25, 0x26] → c.queue 0 = [] → ∃ t e, exec (.faultDelivery n) s = .next t ∧ t.mem = s.mem ∧
        t.ctx n = { c with delivered := l, blocked := false, readySince := s.clk } ∧ t.bb = newest 4096 (s.bb ++ [e]) ∧
        e.kind = 1 ∧ e.code = BitVec.ofNat 8 code ∧ e.kid = c.ctl.kid ∧ e.val = v)

/-! ## Requests and barrier messages -/

/-- R302, R391, R393, R394, R397, R398, R399: a counter add is performed once and saturates, and one that was sent again gets
the kept reply; a wait is answered, registered or turned away; the reply goes to its source as a packet, where it ends the
request; a lost request is sent again; a barrier report is counted, the last of a phase lets every reporting core see it, and
pod packets do so between modules. -/
def Obligations.RequestsAndBarriers : Prop :=
  (∀ (s : State) (id : Nat) (r : Req), s.Inv → s.req id = some r →
    let v := s.rd64 r.pa
    let asked (c : Ctx) : Ctx :=
      { c with creqs := c.creqs.filter fun x => x.id ≠ id, walks := KMap.del c.walks (reqUnit id) }
    let sum (t : State) (w : Word) : Prop := t.rd64 r.pa = w ∧ t.cores = s.cores ∧ t.ctxs = s.ctxs ∧
      ∀ a, a < r.pa ∨ r.pa + 8 ≤ a → Memory.read t.mem a = Memory.read s.mem a
    let same (t : State) : Prop := t.mem = s.mem ∧ t.ctxs = s.ctxs ∧ t.cores = s.cores
    let performs (i : Instr) (u : State) (x : Reply) : Prop :=
      exec i s = .next (sendReply u id r x) ∧ keptReply u r = some x
    (∀ h x, r.src.place = some h → ∃ t d, sendReply s id r x = t ∧ same t ∧ t.reqs = s.reqs ∧
      (s.serial, (0, replyPacket s h r)) ∈ t.transit ∧ s.clk < d ∧ ⟨d, false, .gatewayPacketForward s.serial⟩ ∈ t.cal) ∧
    (keptReply s r = none → earlierAdd s id r = false → s.badIn r.pa 8 = none →
      (v.toNat + r.val.toNat < 2 ^ 64 → ∃ u, performs (.counterAddPerformed id) u (.done 0) ∧ sum u (v + r.val) ∧
        (id ∉ s.waiters → u.req id = some { r with performed := true }) ∧
        ∀ i x, i ∈ s.waiters → i ≠ id → s.req i = some x → x.pa = r.pa →
          x.val.toNat ≤ (v + r.val).toNat → u.req i = some { x with got := some (v + r.val) } ∧ i ∉ u.waiters) ∧
      (2 ^ 64 ≤ v.toNat + r.val.toNat → ∃ u, performs (.counterAddPerformed id) u (.fault 0x2A r.va) ∧
        sum u (BitVec.allOnes 64))) ∧
    (∀ x, keptReply s r = some x → earlierAdd s id r = false →
      exec (.counterAddPerformed id) s = .next (sendReply s id r x)) ∧
    (r.got = none → r.registered = false → keptReply s r = none → s.badIn r.pa 8 = none →
      (r.val.toNat ≤ v.toNat → ∃ u, performs (.counterWaitPerformed id) u (.done v) ∧ same u ∧
        u.req id = some { r with performed := true }) ∧
      (v.toNat < r.val.toNat → waitersAt s (homeSlice r.pa) < 512 →
        ∃ u, performs (.counterWaitPerformed id) u .registered ∧ same u ∧ u.waiters = s.waiters ++ [id] ∧
          u.req id = some { r with registered := true, performed := true }) ∧
      (v.toNat < r.val.toNat → 512 ≤ waitersAt s (homeSlice r.pa) →
        ∃ u, performs (.counterWaitPerformed id) u .full ∧ same u ∧ u.waiters = s.waiters)) ∧
    (r.got = none → r.answered = false → (∀ p ∈ s.reqs, p.1 = id → p.2.tries ≠ 0) →
      (∀ n w, r.src = .ctxAdd n → keptReply s r = some (.done w) → hasReq id (s.ctx n) = true →
        (ctrTake s id r).mem = s.mem ∧ (ctrTake s id r).req id = none ∧ (ctrTake s id r).ctx n = asked (s.ctx n)) ∧
      (∀ n f w, r.src = .ctxAdd n → keptReply s r = some (.fault f w) → hasReq id (s.ctx n) = true →
        (∀ k ∈ s.dist.kerns, k.saved = []) → (s.ctx n).delivered.length < 16 →
        (f = 0x2A → (∀ p ∈ (s.ctx n).walks, p.1 ≠ 0) → (ctrTake s id r).req id = none ∧
          (ctrTake s id r).ctx n =
            { asked (s.ctx n) with delivered := (s.ctx n).delivered ++ [(0x2A, r.va, 0)] }) ∧
        (f = 0x27 → (∀ p ∈ (s.ctx n).walks, p.1 ≠ reqUnit id) → (ctrTake s id r).req id =
            some { r with answered := true, performed := true } ∧
          (ctrTake s id r).ctx n =
            { s.ctx n with delivered := (s.ctx n).delivered ++ [(0x27, r.va, reqUnit id)] })) ∧
      (∀ n, r.src = .ctxWait n →
        (keptReply s r = some .registered → (ctrTake s id r).req id = some { r with answered := true } ∧
          (ctrTake s id r).mem = s.mem ∧ (ctrTake s id r).ctx n = asked (s.ctx n)) ∧
        (keptReply s r = some .full → (ctrTake s id r).req id = some { r with answered := true } ∧
          (ctrTake s id r).ctxs = s.ctxs ∧ ⟨s.clk + 256, false, .counterWaitResend id⟩ ∈ (ctrTake s id r).cal))) ∧
    (∀ n w, r.src = .ctxWait n → r.got = some w ∨ (r.got = none ∧ r.answered = false ∧ keptReply s r = some (.done w)) →
      let t := ctrTake s id r
      (r.got = some w → exec (.counterWaitPerformed id) s = .next t) ∧ t.mem = s.mem ∧ t.req id = none ∧
        t.ctx n = { asked (s.ctx n) with
          wait := (s.ctx n).wait.map fun x => if x.id = id then { x with got := some w } else x }) ∧
    (r.registered = false → r.src.isWait = true → openOf s r.src.sid < 8 →
      let r' : Req :=
        ⟨r.src, r.va, r.pa, r.val, s.clk, 1, false, false, KMap.get 0 s.srcSeq r.src.sid, false, none, 0⟩
      ∃ t, exec (.counterWaitResend id) s = .next t ∧ same t ∧ t.req id = some r' ∧
        (∀ h, r.src.place = some h → h < 256 →
          (t.router h).inject = (s.router h).inject ++ [(0, reqPacket s h r', 0, none)]) ∧
        (r.src.place = none → ∃ d, 1 ≤ d ∧ ⟨s.clk + d, true, .counterWaitPerformed id⟩ ∈ t.cal ∧
          ((∀ x ∈ s.cal, ∀ i, x.ev ≠ .counterAddPerformed i ∧ x.ev ≠ .counterWaitPerformed i) → d ≤ 300))) ∧
    (r.answered = false → 0 < r.tries → r.sentAt + 8192 ≤ s.clk →
      (r.tries < 4 → (∀ n fu, r.src ≠ .queue n fu) → ∃ t, exec (.requestTimeout id) s = .next t ∧ same t ∧
        t.req id = some { r with sentAt := s.clk, tries := r.tries + 1 }) ∧
      ∀ n, 4 ≤ r.tries → r.src = .ctxWait n → (s.ctx n).delivered.length < 16 →
        (∀ p ∈ (s.ctx n).walks, p.1 ≠ reqUnit id) → (∀ p ∈ s.reqs, p.1 = id → p.2.tries ≠ 0) →
        ∃ t, exec (.requestTimeout id) s = .next t ∧ t.mem = s.mem ∧
          t.req id = some { r with answered := true, performed := true } ∧
          t.ctx n = { s.ctx n with delivered := (s.ctx n).delivered ++ [(0x3D, r.va, reqUnit id)] })) ∧
  (∀ (s : State) (id : Nat) (m : BarMsg), (s.barMsgs.find? fun p => p.1 = id) = some (id, m) →
    let sc := cfScope m.conf
    let inst := barInst sc m.n
    let here (x : BarNode) : Bool := x.is sc inst m.bar (cfGroup m.conf)
    let told (t : State) (ns : List Nat) : Prop := (s.serial, (⟨0, m.bar, m.conf, m.phase, ns⟩ : BarMsg)) ∈ t.barMsgs ∧
      ⟨s.clk + barDelay sc, false, .barrierPhaseUpdate s.serial⟩ ∈ t.cal ∧
      t.mem = s.mem ∧ t.ctxs = s.ctxs ∧ t.cores = s.cores
    (sc = 0 → ∃ t, exec (.barrierReport id) s = .next t ∧ told t [m.n] ∧ t.barNodes = s.barNodes) ∧
    (0 < sc → sc < 5 → s.barNodes.find? here = none → 0 < m.phase.toNat →
      (s.barNodes.filter fun x => x.level = sc ∧ x.inst = inst).length < nodeCap sc →
      (cfNpart m.conf = 1 → ∃ t, exec (.barrierReport id) s = .next t ∧ told t [m.n]) ∧
      (1 < cfNpart m.conf → ∃ t, exec (.barrierReport id) s = .next t ∧ t.mem = s.mem ∧ t.cal = s.cal ∧
        t.ctxs = s.ctxs ∧ t.cores = s.cores ∧ t.barNodes = s.barNodes ++
          [⟨sc, inst, m.bar, cfGroup m.conf, cfNmodm m.conf, 0, [⟨m.phase, cfNpart m.conf, [m.n], []⟩]⟩])) ∧
    (∀ x c, 0 < sc → sc < 5 → s.barNodes.find? here = some x → x.done.toNat < m.phase.toNat →
      (x.counts.find? fun c => c.phase = m.phase) = some c → c.npart = cfNpart m.conf →
      c.ctxs.length + 1 = c.npart → ∃ t, exec (.barrierReport id) s = .next t ∧ told t (c.ctxs ++ [m.n])) ∧
    ∀ n, m.tos = [n] → (s.ctx n).live = true →
      let b := (s.core (coreOf n)).bar m.bar
      b.cfg = true → cfScope b.conf = sc → cfGroup b.conf = cfGroup m.conf → b.phase.toNat < m.phase.toNat →
      ∃ t, exec (.barrierPhaseUpdate id) s = .next t ∧ t.mem = s.mem ∧ t.ctxs = s.ctxs ∧
        (t.core (coreOf n)).bar m.bar = { b with phase := m.phase } ∧
        (∀ j, j ≠ m.bar → (t.core (coreOf n)).bar j = (s.core (coreOf n)).bar j) ∧
        ∀ k, k ≠ coreOf n → t.core k = s.core k) ∧
  ∀ (s : State) (id : Nat) (m : PodMsg), (s.podMsgs.find? fun p => p.1 = id) = some (id, m) →
    (∀ x, m.dest = none → m.kind = true → (s.barNodes.find? fun x => x.is 5 0 m.bar.toNat m.group) = some x →
      ∃ t, exec (.podBarrierPacket id) s = .next t ∧ t.mem = s.mem ∧ t.ctxs = s.ctxs ∧ t.cores = s.cores ∧
        (s.serial, (⟨0, m.bar.toNat, podConf m, m.phase,
          (x.counts.filter fun c => c.phase = m.phase).flatMap (·.ctxs)⟩ : BarMsg)) ∈ t.barMsgs ∧
        ⟨s.clk + 400, false, .barrierPhaseUpdate s.serial⟩ ∈ t.cal) ∧
    (∀ x c, m.dest = none → m.kind = false → (s.barNodes.find? fun x => x.is 6 0 m.bar.toNat m.group) = some x →
      x.nmodm = m.nmodm.toNat → x.done.toNat < m.phase.toNat →
      (x.counts.find? fun c => c.phase = m.phase) = some c → c.mods.length = x.nmodm → m.src.toNat ∉ c.mods →
      ∃ t, exec (.podBarrierPacket id) s = .next t ∧ t.mem = s.mem ∧ t.ctxs = s.ctxs ∧ t.cores = s.cores ∧
        ∀ k ∈ c.mods ++ [m.src.toNat], ∃ i, ⟨s.clk + 400, false, .podBarrierPacket i⟩ ∈ t.cal ∧
          (i, (⟨true, m.bar, m.group, m.nmodm, s.mgmt.modn, m.phase, some k⟩ : PodMsg)) ∈ t.podMsgs) ∧
    ∀ k, m.dest = some k → k ≠ s.mgmt.modn.toNat →
      ∃ t d, exec (.podBarrierPacket id) s = .next t ∧ t.mem = s.mem ∧ t.ctxs = s.ctxs ∧ t.cores = s.cores ∧ s.clk < d ∧
        (s.serial, (0, podPacket s k ⟨true, m.bar, m.group, m.nmodm, s.mgmt.modn, m.phase, none⟩)) ∈ t.transit ∧
        ⟨d, false, .gatewayPacketForward s.serial⟩ ∈ t.cal

/-! ## Engine and skein commands at work -/

/-- R228, R229, R233, R237, R271, R276, R279, R305: a compare of physical memory ends with the first byte that differs; a
faulting access is delivered; a send injects its packet, and ends with its bytes once its packets have left the router; a
skein command is performed at its home, or gets the kept reply, which goes to its context as a packet and ends it there; a
reservation is granted on arrival or from the list. -/
def Obligations.EngineAndSkeinWork : Prop :=
  (∀ (s : State) (n : Nat) (q : Cmd) (l : List Cmd) (k : Nat), s.Inv → (s.ctx n).queue 16 = q :: l → q.st = .running →
    q.fu = 16 → q.port = 5 → q.done = 0 → q.held = none → s.ctlw = [] → goTok q.go = some k → fld q.go 3 53 = 0 → ek q.a0 = 4 → ek q.a1 = 4 →
    let p0 := fld q.a0 0 48
    let p1 := fld q.a1 0 48
    let m := fld q.a2 0 40
    0 < m → m ≤ 2048 → p0 % 65536 + m ≤ 65536 → p1 % 65536 + m ≤ 65536 → inHbm p0 m = true → inHbm p1 m = true →
    s.badIn p0 m = none → s.badIn p1 m = none →
    ∃ t v, exec (.engineChunkComplete n 16) s = .next t ∧ t.mem = s.mem ∧
      (∀ c, t.core c = if c = coreOf n then (s.core c).count 0x0E 1 else s.core c) ∧
      (t.ctx n).queue 16 = l ∧ (t.ctx n).tok k = ⟨.written, BitVec.ofNat 64 v⟩ ∧ v ≤ m ∧
      (∀ i, i < v → Memory.read s.mem (p0 + i) = Memory.read s.mem (p1 + i)) ∧
      (v < m → Memory.read s.mem (p0 + v) ≠ Memory.read s.mem (p1 + v)) ∧
      (t.ctx n).regs = (s.ctx n).regs ∧ ∀ j, j ≠ n → t.ctx j = s.ctx j) ∧
  (∀ (s : State) (n fu : Nat) (f : Flt), headFlt fu (s.ctx n) = some f → (s.ctx n).delivered.length < 16 →
    (∀ p ∈ (s.ctx n).walks, p.1 ≠ fu) → exec (.engineAccessFault n fu) s =
      .next (s.setCtx n { s.ctx n with delivered := (s.ctx n).delivered ++ [(f.1, f.2, fu)] })) ∧
  (∀ (s : State) (n : Nat) (q : Cmd) (l : List Cmd), (s.ctx n).queue 20 = q :: l → q.st = .running → q.fu = 20 →
    let h := quadOf n
    let p := npPacket s h q 0 q.row.toNat 256
    (∀ k, cmdSize q ≤ q.done → (∀ x ∈ localPackets s h, x.np ≠ q.id) → goTok q.go = some k → fld q.go 3 53 = 0 →
      ∃ t, exec (.npInjection n) s = .next t ∧ t.mem = s.mem ∧ (t.ctx n).queue 20 = l ∧
        (t.ctx n).tok k = ⟨.written, w64 (cmdSize q)⟩ ∧
        (t.ctx n).ctl = { (s.ctx n).ctl with flags := (s.ctx n).ctl.flags ||| q.flg }) ∧
    (∀ x ∈ localPackets s h, cmdSize q ≤ q.done → x.np = q.id →
      exec (.npInjection n) s = .next (s.at (s.clk + 1) false (.npInjection n))) ∧
    (q.port = 5 → q.done = 0 → (s.holder h).fence = true ∨ matchEntry (s.holder h) p.flow.toNat = none →
      ∃ t, exec (.npInjection n) s = .next t ∧ t.mem = s.mem ∧
        (t.router h).inject = (s.router h).inject ++ [(0, { p with np := q.id }, 0, none)] ∧
        (t.ctx n).queue 20 = { q with done := 256, chunk := q.chunk + 1 } :: l ∧
        ⟨s.clk + 5, false, .npInjection n⟩ ∈ t.cal)) ∧
  ∀ (s : State) (n : Nat) (q : Cmd) (l : List Cmd), (s.ctx n).queue 22 = q :: l → q.st = .running → q.fu = 22 →
    let g := (cmdAgent n (s.ctx n) q).home
    let kept := (s.req q.id).bind (keptReply s)
    let told (t : State) (v : Word) : Prop := (t.ctx n).queue 22 = l ∧
      ∀ k, skTok q.a2 = some k → (t.ctx n).tok k = ⟨.written, v⟩
    (∀ v w, (skEnd s n q (.data v w)).mem = s.mem ∧ told (skEnd s n q (.data v w)) v) ∧
    (∀ f v, f ≠ 0 → (s.ctx n).delivered.length < 16 → (∀ p ∈ (s.ctx n).walks, p.1 ≠ 22) →
      let t := skEnd s n q (.fault f v)
      t.mem = s.mem ∧ (t.ctx n).queue 22 = { q with st := .faulted f v } :: l ∧ (t.ctx n).toks = (s.ctx n).toks ∧
        (t.ctx n).delivered = (s.ctx n).delivered ++ [(f, v, 22)]) ∧
    (∀ x, (s.req q.id = none → skReply s n q x = skEnd s n q x) ∧
      ∀ r, s.req q.id = some r → let t := skReply s n q x
        keptReply t r = some x ∧ (s.serial, (0, replyPacket s (quadOf n) r)) ∈ t.transit ∧ t.mem = s.mem ∧ t.ctxs = s.ctxs) ∧
    (∀ x, kept = some x → exec (.skCommandComplete n) s = .next (skReply s n q x)) ∧
    (∀ d p u, kept = none → q.port = 9 → (cmdDesc g q).run s = (.ok (d, p), u) →
      ∃ t, exec (.skCommandComplete n) s = .next (skReply t n q (.data (w64 d.clen) [])) ∧ t.mem = u.mem) ∧
    (∀ f u, kept = none → q.port = 9 → (cmdDesc g q).run s = (.error f, u) →
      exec (.skCommandComplete n) s = .next (skReply s n q (.fault f.1 f.2))) ∧
    ∀ v u w, q.port = 5 → (skResAt g q).run s = (.ok v, u) →
      (kept = none → (skResWindow g q).run s = (.ok true, w) → othersWait s g q = false →
        ∃ t, exec (.skCommandComplete n) s = .next (skReply t n q (.data v [])) ∧ t.mem = u.mem) ∧
      ∀ pa, KMap.get [] s.skWait pa = [(n, q.id)] → (skResOpen g q).run s = (.ok true, w) →
        ∃ t z, exec (.skResWindowGrant pa) s = .next z ∧ KMap.get [] z.skWait pa = [] ∧ t.mem = u.mem ∧
          z = { skReply t n q (.data v []) with skWait := z.skWait }


/-! ## The log, patterns, translation and reshards at work -/

/-- R248, R251, R253, R255, R256, R337, R339, R342, R366, R376, R377: what the log writer, the base-die units and the pattern
loader do when they complete. -/
def Obligations.BaseDieWork : Prop :=
  ∀ (s : State) (n : Nat),
    let c := s.ctx n
    (∀ e u, served s n 23 = none → stageReady c = some e →
      (appendEntry (logAgent n c) (logDesc c) c.baste.lrlen.toNat e).run s = (.ok (), u) →
      ∃ t, exec (.logEntryWrite n) s = .next t ∧ t.mem = u.mem ∧
        (t.ctx n).baste = { c.baste with
          stages := c.baste.stages.tail, lrlen := c.baste.lrlen + BitVec.ofNat 40 e.len } ∧
        (t.core (coreOf n)).staged = (s.core (coreOf n)).staged - 64 * e.len) ∧
    (∀ q l, c.queue 23 = q :: l → q.st = .running → q.fu = 23 →
      (q.port = 5 ∨ q.port = 6 ∨ q.port = 8 → ∃ t, exec (.logEntryWrite n) s = .next t ∧ t.mem = s.mem ∧
        (t.ctx n).queue 23 = l ∧ (t.ctx n).baste = c.baste) ∧
      (∀ r lim : Nat, let t := bastEnd s n q (.data (w64 r) [w64 lim])
        t.mem = s.mem ∧ (t.ctx n).queue 23 = l ∧
        (t.ctx n).baste = { c.baste with lrlen := BitVec.ofNat 40 r, llim := BitVec.ofNat 40 lim, lrdy := true }) ∧
      (∀ r lim u, (s.req q.id).bind (keptReply s) = none → (bastAt (cmdAgent n c q).home q).run s = (.ok (r, lim), u) →
        (u.req q.id = none →
          exec (.blBastHomeDone n) s = .next (bastEnd u n q (.data (w64 r) [w64 lim]))) ∧
        ∀ x, u.req q.id = some x → ∃ t, exec (.blBastHomeDone n) s = .next t ∧ t.mem = u.mem ∧ t.ctxs = u.ctxs ∧
          keptReply t x = some (.data (w64 r) [w64 lim]) ∧
          (u.serial, (0, replyPacket u (quadOf n) x)) ∈ t.transit) ∧
      (q.port = 7 → q.chunk = 0 → q.a0.getLsbD 0 = true → ∃ t d, exec (.unpickEntry n) s = .next t ∧
        1 ≤ d ∧ d ≤ 29 ∧ ⟨s.clk + d, false, .unpickEntry n⟩ ∈ t.cal ∧ t.mem = s.mem ∧
        (t.ctx n).ctl = { c.ctl with bsRun := true } ∧ (t.ctx n).queue 23 = { q with chunk := 1 } :: l) ∧
      (∀ a r u, q.port = 7 → q.chunk ≠ 0 → c.baste.contrs = a :: r → r ≠ [] → rowsPerClk q (a :: r) = 1 →
        (addContr (cmdAgent n c q) a).run s = (.ok (), u) → ∃ t, exec (.unpickEntry n) s = .next t ∧ t.mem = u.mem ∧
          (t.ctx n).baste = { c.baste with contrs := r } ∧ ⟨s.clk + 1, false, .unpickEntry n⟩ ∈ t.cal) ∧
      ∀ e u, q.port = 7 → q.chunk = 2 → c.baste.contrs = [] →
        (readEntry (cmdAgent n c q) q.a3 c.ctl.bsCursor.toNat).run s = (.ok e, u) → e.kind = 3 →
        fld (wordAt e.w 3) 0 32 = fld q.go 0 32 → ∃ t, exec (.unpickEntry n) s = .next t ∧ t.mem = u.mem ∧
          (t.ctx n).queue 23 = l ∧
          (t.ctx n).ctl = { c.ctl with bsStat := 1, bsRun := false, flags := c.ctl.flags ||| q.flg } ∧
          ∀ k, skTok q.a2 = some k → (t.ctx n).tok k = ⟨.written, 1⟩) ∧
    (∀ q l, c.queue 25 = q :: l → q.st = .running → q.fu = 25 → q.port = 6 → ∃ t,
      exec (.ptCommandComplete n) s = .next t ∧ t.mem = s.mem ∧ (t.ctx n).queue 25 = l ∧
      ∀ k, ptTok q.a2 = some k → (t.ctx n).tok k = ⟨.written,
        match s.pats.find? fun p => p.pid = BitVec.ofNat 32 (fld q.go 0 32) with
        | some p => w64 (p.st.toNat + 1)
        | none => 0⟩) ∧
    (∀ q l, c.queue 26 = q :: l → q.st = .running → q.fu = 26 →
      let ends (t : State) : Prop := exec (.shootdownComplete n) s = .next t ∧ (t.ctx n).queue 26 = l ∧
        ∀ k, xlTok q.a2 = some k → (t.ctx n).tok k = ⟨.written, 0⟩
      let left := sdaOpen s (if q.chunk = 1 then q.after else sdaUsers s n q)
      let tlb := (s.tlb.filter fun e => !sdaHit n q e).map (sdaTrim n q)
      (q.port = 4 → left = [] → ∃ t, ends t ∧ t.mem = s.mem ∧ t.tlb = tlb) ∧
      (q.port = 4 → left ≠ [] → ∃ t, exec (.shootdownComplete n) s = .next t ∧ t.mem = s.mem ∧ t.tlb = tlb ∧
        ⟨s.clk + 1, false, .shootdownComplete n⟩ ∈ t.cal ∧ (t.ctx n).queue 26 = { q with chunk := 1, after := left } :: l) ∧
      (q.chunk ≠ 1 → ∀ p b, p ∈ s.reqs → p.2.performed = false → srcSpace s p.1 p.2.src = some b →
        sdaUses s n q b.1 b.2 p.2.va = true → p.1 < 2 ^ 63 → p.1 ∈ left) ∧
      ∀ pa u, q.port = 5 → (translate (cmdAgent n c q) q.a0 .read 64).run s = (.ok pa, u) → u.ctxs = s.ctxs →
        ∃ t, ends t ∧ t.mem = u.mem ∧ t.skb = u.skb.filter fun e => !sdkHit n pa q e) ∧
    (∀ l rest, s.loads = l :: rest →
      let load (owner : Option (BitVec 32)) := loadPattern { s with loads := rest }
        ⟨owner, l.priv, l.asid, l.ptroot, l.phys⟩ l.image
      (∀ tag, l.tag = some tag →
        (∀ code v, load l.owner = (.error code, v) → ∃ t, exec .patternValidate s = .next t ∧ t.mem = v.mem ∧
          t.pats = v.pats ∧ t.resps = v.resps ++ [⟨0x86, BitVec.ofNat 16 tag, 2, BitVec.ofNat 8 code, 0, 0, []⟩]) ∧
        ∀ pid v, load l.owner = (.ok pid, v) → ∃ t, exec .patternValidate s = .next t ∧ t.mem = v.mem ∧
          t.pats = v.pats ∧ t.resps = v.resps ++ [⟨0x86, BitVec.ofNat 16 tag, 0, 0, 0, pid.setWidth 64, []⟩]) ∧
      ∀ q r, l.tag = none → l.n = n → c.queue 25 = q :: r → q.st = .running → q.fu = 25 → q.id = l.cmd →
        ∀ pid v, load (some c.ctl.kid) = (.ok pid, v) → ∃ t, exec .patternValidate s = .next t ∧ t.mem = v.mem ∧
          t.pats = v.pats ∧ (t.ctx n).queue 25 = r ∧
          ∀ k, ptTok q.a2 = some k → (t.ctx n).tok k = ⟨.written, pid.setWidth 64⟩) ∧
    (∀ pid p, (s.pats.find? fun p => p.pid.toNat = pid) = some p →
      (p.st = 0 → p.ents.Nodup → ∃ t id r, exec (.patternActivation pid) s = .next t ∧ t.mem = s.mem ∧ t.ctxs = s.ctxs ∧
        t.pats = listUpd (fun q => q.pid = p.pid) (fun q => { q with st := 1, wasLive := true }) s.pats ∧
        (∀ e ∈ p.ents, (t.holder e.1).entry e.2 = liveEntry e.1 ((s.holder e.1).entry e.2)) ∧
        t.req id = some r ∧ r.src = .pattern p.pid ∧ r.pa = p.acnt ∧ r.val = p.rval) ∧
      (p.st ≠ 2 → ∃ t d, exec (.patternRetirement pid) s = .next t ∧ t.mem = s.mem ∧ t.ctxs = s.ctxs ∧
        t.pats = listUpd (fun q => q.pid = p.pid) (fun q => { q with st := 2 }) s.pats ∧
        (∀ e ∈ p.ents, ∀ x, (e.2, x) ∈ (s.holder e.1).ents → ((t.holder e.1).entry e.2).st = 3) ∧
        1 ≤ d ∧ d ≤ 300 ∧ ⟨s.clk + d, false, .patternRetirement p.pid.toNat⟩ ∈ t.cal) ∧
      (p.st = 2 → addsOut s p = true →
        exec (.patternRetirement pid) s = .next (s.at (s.clk + 1) false (.patternRetirement pid))) ∧
      (p.st = 2 → addsOut s p = false → p.unloadTok = [] → ∃ t, exec (.patternRetirement pid) s = .next t ∧
        t.mem = s.mem ∧ (∀ j, (t.ctx j).regs = (s.ctx j).regs ∧ (t.ctx j).toks = (s.ctx j).toks) ∧
        t.pats = (s.pats.filter fun q => q.pid ≠ p.pid) ∧ (∀ id r, t.req id = some r → r.src ≠ .pattern p.pid) ∧
        (p.wasLive = true → p.pid ∈ t.oncePats) ∧ ∀ e ∈ p.ents, ∀ x ∈ (t.holder e.1).ents, x.1 ≠ e.2)) ∧
    ∀ id x, (s.reshards.find? fun p => p.1 = id) = some (id, x) → ∃ t y, exec (.reshardPhaseStart id) s = .next t ∧
      t.mem = s.mem ∧ t.ctxs = s.ctxs ∧ (id, y) ∈ t.reshards ∧
      y.ready = x.ready.map fun p => if mayAdvance s x p.1 then (p.1, p.2 + 1) else p

/-! ## The distributor -/

/-- R19, R20, R285, R309-R312, R315, R316, R320, R429, R432-R434: records are accepted or refused, become ready, are
placed and start; members retire; a stopped kernel is saved, its late producers are followed, and it resumes. What a
retirement or a capture tells the distributor reaches it at once (log 2, the model's choice). -/
def Obligations.DistributorWork : Prop :=
  (∀ (s : State) (l : Launch) (tag : Nat), s.dist.arriving = [l] → l.fromHost = some tag →
    let s0 : State := { s with dist := { s.dist with arriving := [] } }
    (recordReserved l.words = true → ∃ t, exec .recordAcceptance s = .next t ∧ t.mem = s.mem ∧ t.dist = s0.dist ∧
      t.resps = s.resps ++ [⟨0x83, BitVec.ofNat 16 tag, 2, 1, 0, 0, []⟩]) ∧
    ∀ kid u, acceptRecord s0 hostLauncher l.words none = (.ok kid, u) → ∃ t k, exec .recordAcceptance s = .next t ∧
      t.mem = s.mem ∧ t.resps = u.resps ++ [⟨0x83, BitVec.ofNat 16 tag, 0, 0, 0, kid.setWidth 64, []⟩] ∧
      k ∈ t.dist.kerns ∧ k.kid = kid ∧ k.words = l.words ∧ k.st = .queued ∧ kid ≠ 0 ∧
      ∀ x ∈ s.dist.kerns, x.kid ≠ kid) ∧
  (∀ (s : State) (kid : Nat), exec (.dependenceMet kid) s = .next { s with dist := { s.dist with
    kerns := s.dist.kerns.map fun k =>
      if k.kid = BitVec.ofNat 32 kid ∧ k.st = .queued ∧ (∀ b ∈ k.deps, b = true) ∧ (∀ b ∈ k.pats, b = true) then
        { k with st := .ready }
      else k } }) ∧
  (∀ (s : State) (k : Kern) (m : List Nat) (a : List (Nat × Nat)), roundOrder s = [k] → k.st = .ready →
    placeAt s k = some (m, a) → (∀ x ∈ s.dist.kerns, x.st ≠ .stopping ∧ x.saved = []) →
    ∃ t d, exec .selectionRound s = .next t ∧ t.mem = s.mem ∧ t.ctxs = s.ctxs ∧
      t.dist.kerns = listUpd (fun x => x.kid = k.kid)
        (fun x => { x with st := .placing, resv := none, members := m, arenas := a, oldArenas := [] })
        s.dist.kerns ∧
      1 ≤ d ∧ d ≤ 2000 ∧ ⟨s.clk + d, false, .membersStart k.kid.toNat⟩ ∈ t.cal) ∧
  (∀ (s : State) (kid : Nat) (k : Kern) (n a b v r : Nat) (u : State), s.Inv →
    (s.dist.kerns.find? fun x => x.kid = BitVec.ofNat 32 kid) = some k → k.st = .placing → k.saved = [] →
    k.members = [n] → k.arenas = [(a, b)] → k.aov = none → rMxu k.words = false →
    (s.core (coreOf n)).bars = [] → rImgb k.words ≤ 65536 * rAsz k.words →
    (readImages k.words).run s = (.ok (v, r), u) →
    let lo := vaultPA a (65536 * b)
    ∃ t, exec (.membersStart kid) s = .next t ∧ (∀ m, m ≠ n → t.ctx m = s.ctx m) ∧
      (t.ctx n).st = .running ∧ (t.ctx n).pc = w64 (rEntry k.words) ∧ (t.ctx n).regs.g = 0 ∧ (t.ctx n).regs.t = [] ∧
      (∀ i, (t.ctx n).regs.sreg i = if i < 4 then rArg k.words i else 0) ∧ (t.ctx n).oq = [] ∧
      (t.ctx n).ctl.kid = k.kid ∧ (t.ctx n).ctl.rank = 0 ∧ (t.ctx n).ctl.crewn = 1 ∧
      (t.ctx n).ctl.excl = rExcl k.words ∧ (t.ctx n).ctl.priv = rPriv k.words ∧ (t.ctx n).ctl.asid = rAsid k.words ∧
      (t.ctx n).ctl.ptroot = rRoot k.words ∧ (t.ctx n).ctl.cpol = rCpol k.words ∧ (t.ctx n).hdep = false ∧
      ∀ x, Memory.read t.mem x =
        if lo ≤ x ∧ x < lo + 65536 * rAsz k.words then
          (if x - lo < rImgb k.words then BitVec.ofNat 8 (v >>> (8 * (x - lo))) else 0)
        else Memory.read s.mem x) ∧
  (∀ (s : State) (n : Nat) (q : Cmd) (l : List Cmd) (k : Kern),
    let c := s.ctx n
    c.queue 24 = q :: l → q.port = 5 → q.st = .running →
    (drained s n c = false → exec (.memberRetire n) s =
      .next (s.updCtx n fun c => c.updCmd 24 fun q => { q with st := .waiting })) ∧
    (drained s n c = true → (s.dist.kerns.find? fun x => x.kid = c.ctl.kid) = some k → k.st = .running →
     (k.retired.length + 1 < k.members.length → ∃ t, exec (.memberRetire n) s = .next t ∧ t.mem = s.mem ∧
      t.ctx n = c.freed ∧ (∀ m, m ≠ n → t.ctx m = s.ctx m) ∧
      t.dist.kerns = listUpd (fun x => x.kid = c.ctl.kid) (fun x =>
        { x with retired := x.retired ++ [c.ctl.rank.toNat] }) s.dist.kerns) ∧
     (k.retired.length + 1 = k.members.length → rCaddr k.words = 0 → ∃ t, exec (.memberRetire n) s = .next t ∧
      t.mem = s.mem ∧ t.ctx n = c.freed ∧ (∀ m, m ≠ n → t.ctx m = s.ctx m) ∧
      t.dist.kerns = s.dist.kerns.filter fun x => x.kid ≠ c.ctl.kid))) ∧
  (∀ (s : State) (n fu : Nat) (q : Cmd) (l : List Cmd),
    let c := s.ctx n
    c.stopDist = true → c.quiet = false → c.queues = [(fu, q :: l)] → q.st = .running → goesOn q = false → ∃ t,
      exec (.engineQuiesceComplete n) s = .next t ∧ t.mem = s.mem ∧ (∀ m, m ≠ n → t.ctx m = s.ctx m) ∧
      (t.ctx n).quiet = true ∧ (t.ctx n).regs = c.regs ∧ (t.ctx n).toks = c.toks ∧
      (t.ctx n).queue fu = { q with st := .waiting } :: l.filter fun x => x.st ≠ .closing) ∧
  (∀ (s : State) (kid : Nat) (k : Kern) (n a : Nat),
    let c := s.ctx n
    (s.dist.kerns.find? fun x => x.kid = BitVec.ofNat 32 kid) = some k → k.st = .stopping → liveMembers s k = [n] →
    c.st = .saving → c.quiet = true → k.areas = [a] → s.barMsgs = [] → (∀ x ∈ s.cal, x.ev ≠ .preemptionSave kid) →
    ∃ t k' m, exec (.preemptionSave kid) s = .next t ∧ k' ∈ t.dist.kerns ∧ k'.kid = k.kid ∧ k'.st = .preempted ∧
      k'.words = k.words ∧ k'.saved = [m] ∧ m.n = n ∧ m.area = a ∧ m.rank = c.ctl.rank.toNat ∧
      m.ctx = liveImage (keptBits (liveBits s n c.resumePc ||| c.kept) c) c ∧ t.ctx n = c.freed ∧ ∀ j, j ≠ n → t.ctx j = s.ctx j) ∧
  (∀ (s : State) (key : Nat) (m : Saved), s.Inv →
    ((s.dist.kerns.flatMap (·.saved)).find? fun m => m.area = key) = some m →
    let a := 2 ^ 21 * key
    ∃ t, exec (.lateProducerSaveWrite key) s = .next t ∧ t.ctxs = s.ctxs ∧
      t.rd64 (a + 0x408) = m.ctx.ctl.flags.setWidth 64 ∧ t.rd64 (a + 0x60) = (waitWord s m).setWidth 64 ∧
      t.rd (a + 0xC00) 256 = skBytes m.ctx ∧ t.rd (a + 0x900) 256 = tokenBytes m.ctx ∧
      (∀ i, i < 16 → m.live.testBit (32 + i) = true → t.rd (a + 0x2000 + 2048 * i) 2048 = (m.ctx.regs.treg i).toNat) ∧
      ∀ x, (x < a + 0x60 ∨ a + 0x68 ≤ x) → (x < a + 0x408 ∨ a + 0x410 ≤ x) → (x < a + 0x900 ∨ a + 0xA00 ≤ x) →
        (x < a + 0xC00 ∨ a + 0xD00 ≤ x) → (x < a + 0x2000 ∨ a + 0xA000 ≤ x) → Memory.read t.mem x = Memory.read s.mem x) ∧
  ∀ (s : State) (kid : Nat) (k : Kern) (n : Nat) (m : Saved),
    (s.dist.kerns.find? fun x => x.kid = BitVec.ofNat 32 kid) = some k → k.st = .placing → k.oldArenas = [] →
    k.saved = [m] → k.members[m.rank]? = some n → m.matrix = none → m.wait = 0 → waitWord s m = 0 → lateOf s m = false →
    (∀ p ∈ m.ctx.queues, ∀ q ∈ p.2, q.st ≠ .running) → m.ctx.fenced = false →
    (s.ctx n).dead = [] → (s.ctx n).qfence = [] →
    let x := moveImage (readSave s m).ctx (arenaPA m.ctx (quadOf m.n) 0) (vaultPA (quadOf n) (65536 * (baseOn k n).toNat))
    let issues := decide (x.workSt = .running) && x.rfe.isNone
    issues = true ∨ (x.replay = none ∧ heldStep s n = none) → ∃ t, exec (.resumption kid) s = .next t ∧ t.mem = s.mem ∧ (∀ j, j ≠ n → t.ctx j = s.ctx j) ∧
      t.ctx n = { x with
        st := x.workSt, side := (s.ctx n).side, latSeq := (s.ctx n).latSeq, quads := quadsOn k n, bases := basesOn k n
        readySince := s.clk, stopDist := false, quiet := false, blocked := false, kept := 0, parked := issues
        ctl := { x.ctl with arenaBase := baseOn k n, stopf := false } }

/-! ## The fabric -/

/-- R289, R293-R299, R448, R451, R460: a header is routed, a flit is granted its output port or its circuit slot, a slot is
counted free again, link flits are received or sent again, links retrain, packets of the base-die fabric are handed on, and
the digests of a pair are compared. -/
def Obligations.TransportWork : Prop :=
  (∀ (s : State) (h ch : Nat) (f : Flit) (l : List Flit),
    let r := s.router h
    let c := r.chan ch
    let p := f.pkt
    let port := routePort s h p
    let routed : Chan := { c with flits := { f with wclk := s.clk - (if f.early then 2 else 1) } :: l, who := some (p.flow, p.snode, f.wclk) }
    let takes (t : State) (c' : Chan) : Prop := exec (.packetHeaderArrival h ch) s = .next t ∧
      (t.router h).chan ch = c' ∧ (∀ g, g ≠ h → t.router g = s.router g) ∧ t.mem = s.mem ∧ t.ctxs = s.ctxs
    let before := (s.holder h).inbox.filter fun a => decide (a.due ≠ notWhole ∧ a.pkt.flow = p.flow ∧ a.pkt.snode = p.snode ∧
      a.pkt.sdie = p.sdie ∧ a.pkt.smod = p.smod)
    let due := max (s.clk + (2 + p.npay.toNat)) (listMax (before.map (·.due)))
    c.flits = f :: l → f.i = 0 → c.out = none → c.drop = false → mustWait r s.clk ch f = false →
    (p.malformed = true → ∃ t, takes t { routed with drop := true } ∧ (t.holder h).malf = sat32 (s.holder h).malf) ∧
    (p.malformed = false →
      (port = 5 → p.pk = 0 → ∃ t, takes t { routed with drop := true } ∧
        (t.holder h).inbox = (s.holder h).inbox ++ [⟨p, matched s h p, decide (p.np ≠ 0), due⟩] ∧
        ⟨due, true, .flowPacketAccept h 0⟩ ∈ t.cal) ∧
      (port = 5 → p.pk ≠ 0 → p.pk ≠ 2 ∨ isCredit p = true →
        ∃ t, takes t { routed with drop := true } ∧ t.holders = s.holders ∧ t.cal = s.cal) ∧
      (port = 5 → p.pk = 2 → isCredit p = false → exec (.packetHeaderArrival h ch) s =
        .next (replyArrive (s.updRouter h fun r => r.setChan ch { routed with drop := true }) p)) ∧
      (port = 0 → chVc ch ≠ 4 → ∃ t, takes t { routed with out := some (0, 0) }) ∧
      (port ≠ 5 → chVc ch = 4 → exec (.packetHeaderArrival h ch) s = .next s) ∧
      ∀ v, port ≠ 0 → port ≠ 5 → chVc ch ≠ 4 →
        allot r port (p.npay.toNat + 1) (escapeVc h port p) (decide (2 ≤ chVc ch)) = some v →
        ∃ t, takes t { routed with out := some (port, v) } ∧ (t.router h).heldOf (5 * port + v) = true)) ∧
  (∀ (s : State) (h p ch v : Nat) (f : Flit) (l : List Flit),
    let r := s.router h
    let far := 5 * farPort p + v
    let grants (i : Instr) : Prop := ∃ t, exec i s = .next t ∧ ((t.router h).chan ch).flits = l ∧
      ((t.router (neighbour h p)).chan far).flits =
        ((s.router (neighbour h p)).chan far).flits ++ [⟨{ f.pkt with np := 0 }, f.i, s.clk, false⟩] ∧
      (t.router h).freeOf (5 * p + v) = r.freeOf (5 * p + v) - 1 ∧
      ⟨s.clk + 2, true, .vcCreditReturn h ch⟩ ∈ t.cal ∧ t.mem = s.mem ∧ t.ctxs = s.ctxs
    1 ≤ p → p ≤ 4 → (r.chan ch).flits = f :: l →
    ((circuitMoves s h && (circuitNow r s.clk).any fun c => c.2 = p) = false → (r.chan ch).out = some (p, v) →
      ((List.range 25).map fun i => (KMap.get 0 r.rr p + i) % 25).find? (wantsPort s h p) = some ch →
      grants (.outputPortGrant h p)) ∧
    (∀ i, v = 4 → ch = 5 * i + 4 → circuitNow r s.clk = some (i, p) → circuitMoves s h = true →
      grants (.circuitSlot h))) ∧
  (∀ (s : State) (h ch : Nat), ∃ t, exec (.vcCreditReturn h ch) s = .next t ∧
    (t.router (creditHome h ch).1).freeOf (creditHome h ch).2 =
      min 8 ((s.router (creditHome h ch).1).freeOf (creditHome h ch).2 + 1) ∧
    (∀ g, g ≠ (creditHome h ch).1 → t.router g = s.router g) ∧ t.mem = s.mem ∧ t.ctxs = s.ctxs) ∧
  (∀ (s : State) (l : Nat),
    let k := s.link l
    let b := linkBase l
    let n := linkRate l s.clk
    let leaves (i : Instr) (js : List Nat) (f : State → Prop) : Prop := ∃ t, exec i s = .next t ∧ t.mem = s.mem ∧
      t.ctxs = s.ctxs ∧ (∀ j, j ∉ js → t.link j = s.link j) ∧ f t
    (k.retry ≠ [] → (s.link b).training = none → (s.link b).fails < 3 →
      (k.crcNext = 0 → leaves (.linkFlitReceive l) [l] fun t => (t.link l).retry = k.retry.drop n ∧
        (t.link l).recvSeq = k.recvSeq + BitVec.ofNat 16 (min n k.retry.length) ∧
        (k.retry.drop n ≠ [] → ⟨s.clk + 1, false, .linkFlitReceive l⟩ ∈ t.cal) ∧
        ∀ f x, f ∈ k.retry.take n → f.last = true → (s.transit.find? fun y => y.1 = f.id) = some (f.id, x) →
          ∃ d, 1 ≤ d ∧ ⟨s.clk + d, false, .gatewayPacketForward f.id⟩ ∈ t.cal) ∧
      (0 < k.crcNext → (((s.link b).errs ++ [s.clk]).filter fun c => s.clk < c + 65536).length < 8 →
        leaves (.linkFlitReceive l) [l, b] fun t => (t.link l).retry = k.retry ∧ (t.link l).recvSeq = k.recvSeq ∧
          (t.link l).crcNext = k.crcNext - 1 ∧ ∃ d, 1 ≤ d ∧ d ≤ 64 ∧ ⟨s.clk + d, false, .linkResend l⟩ ∈ t.cal)) ∧
    (k.retry ≠ [] → leaves (.linkResend l) [] fun t => ⟨s.clk + 1, false, .linkFlitReceive l⟩ ∈ t.cal) ∧
    ((s.link b).training = none → l < 64 → k.fails < 3 → leaves (.lossOfLock l) [l] fun t => ∃ d, 1 ≤ d ∧
      d ≤ retrainBound l ∧ t.link l = { k with training := some (s.clk + d), errs := [], nrt := k.nrt + 1, st := 1 } ∧
      ⟨s.clk + d, false, .retrainComplete l⟩ ∈ t.cal) ∧
    (∀ x, l < 64 → k.training = some x → k.fails = 0 → leaves (.retrainComplete l) [l] fun t =>
      (t.link l = { k with training := none, fails := 0, st := 2 } ∧ ⟨s.clk + 1, false, .linkResend l⟩ ∈ t.cal) ∨
        ((t.link l).fails = 1 ∧ (t.link l).training.isSome = true ∧ (t.link l).nrt = k.nrt + 1)) ∧
    leaves (.linkTrainingComplete l) [l, 64 + l] fun t => t.link l = { k with
      st := 2, sendSeq := 0, recvSeq := 0, retry := [], held := 0, errs := [], training := none, fails := 0 }) ∧
  (∀ (s : State) (id j : Nat) (p : Packet), (s.transit.find? fun x => x.1 = id) = some (id, (j, p)) →
    let goes (f : State → Prop) : Prop := ∃ t, exec (.gatewayPacketForward id) s = .next t ∧ t.mem = s.mem ∧
      t.ctxs = s.ctxs ∧ f t
    let sent (l : Nat) (t : State) : Prop := (s.serial, (beyond l, p)) ∈ t.transit ∧
      (t.link l).held = (s.link l).held + linkFlits l p ∧
      (t.link l).retry.length = (s.link l).retry.length + linkFlits l p ∧
      ((s.link l).retry = [] → ⟨s.clk + 1, false, .linkFlitReceive l⟩ ∈ t.cal)
    (j < 2 → p.tmod = s.mgmt.modn → p.pk = 3 → goes fun t => t.transit = s.transit.del id ∧
      (s.serial, podOf p) ∈ t.podMsgs ∧ ⟨s.clk, true, .podBarrierPacket s.serial⟩ ∈ t.cal) ∧
    (j < 2 → p.tmod = s.mgmt.modn → p.pk ≠ 3 → p.tk = 0 →
      let l := 64 + 8 * p.tdie.toNat + p.tnode.toNat / 8
      linkRoom s l p = true → (∀ x ∈ s.transit, x.2.1 ≠ 200 + l) → goes (sent l)) ∧
    (2 ≤ j → j < 100 → exec (.gatewayPacketForward id) s =
      .next { s with transit := s.transit.del id, portOut := s.portOut ++ [(j - 2, p)] }) ∧
    (100 ≤ j → j < 200 → p.tk ≠ 1 → goes fun t =>
      let h := 64 * p.tdie.toNat + p.tnode.toNat
      (t.router h).inject = (s.router h).inject ++ [(1, p, 0, none)] ∧ t.transit = s.transit.del id ∧
        ∀ g, g ≠ h → t.router g = s.router g) ∧
    (j < 2 → p.tmod = s.mgmt.modn → p.pk = 1 → 2 < p.tk.toNat → exec (.gatewayPacketForward id) s =
      .next (homeArrive { s with transit := s.transit.del id } p)) ∧
    (232 ≤ j → j < 248 → (s.link (j - 200)).st ≠ 2 → goes fun t => t.transit = s.transit.del id ∧
      KMap.get 0 t.mgmt.ldrop (j - 232) = sat32 (KMap.get 0 s.mgmt.ldrop (j - 232)) ∧ t.links = s.links) ∧
    (200 ≤ j → ¬(232 ≤ j ∧ j < 248 ∧ (s.link (j - 200)).st ≠ 2) → linkRoom s (j - 200) p = true → (∀ x ∈ s.transit, x.1 < id → x.2.1 ≠ j) → goes (sent (j - 200))) ∧
    (200 ≤ j → ¬(232 ≤ j ∧ j < 248 ∧ (s.link (j - 200)).st ≠ 2) → linkRoom s (j - 200) p = false → exec (.gatewayPacketForward id) s =
      .next (s.at (s.clk + 1) false (.gatewayPacketForward id)))) ∧
  ∀ (s : State) (k : Nat) (fl : BitVec 20) (sq d e : BitVec 32),
    s.digests = [(k, fl, sq, d, true), (k, fl, sq, e, false)] → ∃ t, exec (.pairDigestCompare k) s = .next t ∧
      t.digests = [] ∧ t.mem = s.mem ∧ t.ctxs = s.ctxs ∧ (d = e → t.bb = s.bb) ∧
      (d ≠ e → ∃ x ∈ t.bb, x.kind = 1 ∧ x.code = 0x44)

/-- R303, R326, R327, R328, R329, R331, R332: a packet that no entry matches is a stray; a matched one is stored in its slot or
discarded by a DISCARD entry, and a complete FWD slot is ready to emit; an emission sends a copy for a credit; a credit reply
returns credits; a delivery writes the packet's bytes and nothing else. -/
def Obligations.FlowWork : Prop :=
  (∀ (s : State) (h ch : Nat) (a : Arrival),
    ((s.holder h).inbox.find? fun a => a.pkt.pk = 0 && decide (a.due ≤ s.clk)) = some a →
    let y := s.holder h
    let leaves (f : State → Prop) : Prop := ∃ t, exec (.flowPacketAccept h ch) s = .next t ∧ t.mem = s.mem ∧
      t.ctxs = s.ctxs ∧ (t.holder h).inbox = y.inbox.erase a ∧ f t
    (a.hit = none → y.strays.length < 16 →
      (∀ x ∈ s.pats, ¬(x.flo.toNat ≤ a.pkt.flow.toNat ∧ a.pkt.flow.toNat ≤ x.fhi.toNat)) →
      leaves fun t => (t.holder h).strays = y.strays ++ [({ a.pkt with np := 0 }, a.pkt.pay.setWidth 512)] ∧
        (t.holder h).ents = y.ents) ∧
    (∀ m, a.hit = some m → stillLive s h m = false → leaves fun t => (t.holder h).abnd = sat32 y.abnd ∧
      (t.holder h).ents = y.ents) ∧
    ∀ m, a.hit = some m → stillLive s h m = true →
      let e := m.1
      let x := y.entry e
      let i := a.pkt.flow.toNat % 2 ^ x.iw
      let p := { a.pkt with seqn := KMap.get 0 x.seqs i, np := 0 }
      i < x.nin → a.own = true ∨ a.pkt.seqn = p.seqn → (∀ j, (x.upstream j).valid = false) →
      (x.act = 9 → leaves fun t =>
        (t.holder h).entry e = { x with seqs := KMap.put x.seqs i (p.seqn + 1) } ∧ (t.holder h).strays = y.strays) ∧
      ∀ k, x.act ≠ 9 → slotFor' x i p = some k →
        (¬(x.act = 2 ∧ x.cm = true) → (x.slot k).pkts.length + 1 ≠ x.nin → leaves fun t =>
          (t.holder h).entry e = { x with
            seqs := KMap.put x.seqs i (p.seqn + 1)
            slots := KMap.put x.slots k { x.slot k with chunk := p.chunk, pkts := (x.slot k).pkts ++ [(i, p)] } }) ∧
        (x.act = 0 → x.nin = 1 → leaves fun t => ∃ q, ((t.holder h).entry e).ring = x.ring ++ [k] ∧
          (((t.holder h).entry e).slot k).outq = [(q, [])] ∧
          (((t.holder h).entry e).slot k).due = max s.clk (x.slot k).due ∧ q.pay = p.pay ∧ q.chunk = p.chunk ∧
          q.nb = p.nb ∧ q.last = p.last ∧ q.flow.toNat = x.eflow ∧ q.flg = p.flg ∧
          ⟨max s.clk (x.slot k).due, true, .emission h e⟩ ∈ t.cal)) ∧
  (∀ (s : State) (h e k : Nat) (p : Packet) (j : Nat × Packet),
    let x := (s.holder h).entry e
    h < 256 → (s.holder h).fence = false → x.st = 2 → x.cont = false → x.nxt = none → x.act ≠ 8 → x.cir = false →
    x.ring = [k] → (x.slot k).due ≤ s.clk → (x.slot k).outq = [(p, [])] → (x.slot k).pkts = [j] →
    (∀ i, (x.upstream i).valid = false) → copiesOf h x = [0] → 0 < x.credit 0 →
    targetsSelf s h (copyOf s h x 0 x.scnt p) = false →
    ∃ t, exec (.emission h e) s = .next t ∧ t.mem = s.mem ∧ t.ctxs = s.ctxs ∧
      (t.router h).inject = (s.router h).inject ++
        [(if p.np = 0 then 4 else 0, copyOf s h x 0 x.scnt p, 0, none)] ∧
      ((t.holder h).entry e).credit 0 = x.credit 0 - 1 ∧ ((t.holder h).entry e).ring = [] ∧
      ((t.holder h).entry e).scnt = (x.scnt + 1) % 2 ^ 32) ∧
  (∀ (s : State) (h ch : Nat) (a : Arrival), ((s.holder h).inbox.find? fun a => a.pkt.pk = 2) = some a →
    let w := wordAt a.pkt.ext 0
    let e := fld w 8 9
    let x := (s.holder h).entry e
    fld w 0 8 = 0xC1 → x.st = 2 → ∃ t, exec (.creditReplyArrival h ch) s = .next t ∧ t.mem = s.mem ∧ t.ctxs = s.ctxs ∧
      (t.holder h).entry e = x.setCredit (fld w 17 3) (x.credit (fld w 17 3) + fld w 20 5) ∧
      (t.holder h).inbox = (s.holder h).inbox.erase a ∧ ⟨s.clk, true, .emission h e⟩ ∈ t.cal) ∧
  ∀ (s : State) (h e k : Nat) (j : Nat) (p : Packet), s.Inv →
    let x := (s.holder h).entry e
    let lo := fld x.ep 0 48 + p.chunk.toNat * x.stride
    let n := p.nb.toNat
    x.st = 2 → (s.holder h).fence = false → x.ring = [k] → (x.slot k).due ≤ s.clk → (x.slot k).pkts = [(j, p)] →
    (∀ i, (x.upstream i).valid = false) → ek x.ep = 4 → fld x.done 3 53 = 0 → targetKern s x = none →
    lo % 65536 + n ≤ 65536 → inHbm lo n = true → partBad s lo n = none →
    ∃ t, exec (.deliverChunk h e) s = .next t ∧ ((t.holder h).entry e).ring = [] ∧ (∀ m, t.ctx m = s.ctx m) ∧
      ∀ a, Memory.read t.mem a = if lo ≤ a ∧ a < lo + n then BitVec.ofNat 8 (p.byte (a - lo) 1) else Memory.read s.mem a

/-! ## The module -/

/-- R162, R445, R446, R447, R454, R458, R459, R164: control-block and management words, boot, power samples and resets.
The sensors that a sample reads are free values (log 11). -/
def Obligations.ManagementWork : Prop :=
  (∀ (s : State) (n fu port : Nat) (v : Word), port < 4 → ∃ t, exec (.goWordWrite n fu port v) s = .next t ∧
    (t.ctx n).sideArg fu port = v ∧ (∀ m, m ≠ 4 * fu + port → KMap.get 0 (t.ctx n).side m = KMap.get 0 (s.ctx n).side m) ∧
    t.ctx n = { s.ctx n with side := (t.ctx n).side } ∧ t.mem = s.mem ∧ ∀ m, m ≠ n → t.ctx m = s.ctx m) ∧
  (∀ (s : State) (n : Nat) (v : Word),
    let c := s.ctx n
    let a (i : Nat) : Word := c.sideArg 16 i
    c.live = true → (c.queue 16).length < 16 → KMap.get false c.qfence 16 = false → v.toNat % 8 < 6 →
    v.getLsbD 63 = false → (∀ k, goTok v = some k → (c.tok k).st ≠ .pending) → ek (a 0) = 4 → ek (a 1) = 4 →
    epBad (a 0) [4] = false → epBad (a 1) [4] = false → fld (a 2) 0 40 ≠ 0 → c.ctl.priv = true →
    ∃ t q, exec (.goWordWrite n 16 5 v) s = .next t ∧ t.mem = s.mem ∧ t.cores = s.cores ∧
      (∀ m, m ≠ n → t.ctx m = s.ctx m) ∧ (t.ctx n).queue 16 = c.queue 16 ++ [q] ∧ q.fu = 16 ∧ q.port = 5 ∧ q.a0 = a 0 ∧
      q.a1 = a 1 ∧ q.a2 = a 2 ∧ q.go = v ∧ q.asid = c.ctl.asid ∧ q.priv = true ∧ q.st = .waiting ∧
      (t.ctx n).regs = c.regs ∧ (t.ctx n).ports = c.ports ∧ (t.ctx n).ctl = c.ctl ∧
      ∀ k, goTok v = some k → ((t.ctx n).tok k).st = .pending) ∧
  (∀ (s : State) (n fu port : Nat) (v : Word), 4 ≤ port → (s.ctx n).live = true → queueFull (s.ctx n) fu = true →
    exec (.goWordWrite n fu port v) s = .next { s with ctlw := s.ctlw ++ [(n, .goWordWrite n fu port v)] }) ∧
  (∀ (s : State) (n no : Nat) (v : Word),
    (memberRuns (s.ctx n) = true → no ≠ 11 → exec (.controlBlockRegisterWrite n no v) s = .next s) ∧
    (memberRuns (s.ctx n) = false → no ≠ 0 → no ≠ 11 → ctlRefuse (s.core (coreOf n)) no v = none →
      ∃ t, exec (.controlBlockRegisterWrite n no v) s = .next t ∧ t.ctx n = ctlWriteCtx (s.ctx n) no v ∧
        t.core (coreOf n) = ctlWriteCore (s.core (coreOf n)) no v ∧ t.mem = s.mem ∧
        (∀ m, m ≠ n → t.ctx m = s.ctx m) ∧ ∀ k, k ≠ coreOf n → t.core k = s.core k) ∧
    (v.getLsbD 0 = false → ∃ t, exec (.controlBlockRegisterWrite n 11 v) s = .next t ∧ t.mem = s.mem ∧
      t.ctx n = { s.ctx n with stopDist := false, ctl := { (s.ctx n).ctl with stopf := false } } ∧
      ∀ m, m ≠ n → t.ctx m = s.ctx m)) ∧
  (∀ (s : State) (v : Word) (i : Nat),
    let sets (off : Nat) (m : Mgmt) : Prop := ∃ t, exec (.registerWrite off v) s = .next t ∧ t.mgmt = m ∧
      t.mem = s.mem ∧ t.ctxs = s.ctxs ∧ t.cores = s.cores
    let m := s.mgmt
    (i < 4 → sets (0x20 + 8 * i) { m with
      lbud := KMap.put m.lbud i (v.extractLsb' 0 16), lthr := KMap.put m.lthr i (v.extractLsb' 16 16) }) ∧
    sets 0x68 { m with svcnt := v.setWidth 16 } ∧
    (i < 1024 → sets (0x100 + 8 * i) { m with route := KMap.set 0 m.route i (v.setWidth 5) }) ∧
    (i < 64 → i ≠ 8 → sets (0x2200 + 16 * i) { m with pair0 := KMap.set 0 m.pair0 i (v.setWidth 42) }) ∧
    (i < 64 → sets (0x2208 + 16 * i) { m with pair1 := KMap.set 0 m.pair1 i (v.setWidth 26 &&& 0x3FF03FF) }) ∧
    exec (.registerWrite 0x2280 v) s = .next s) ∧
  (∀ (s : State) (v : Word),
    (s.mgmt.boot = 0 ∨ s.mgmt.boot = 3 → ∃ t d, exec (.bootlenWrite v) s = .next t ∧ t.mem = s.mem ∧
      t.mgmt = { s.mgmt with boot := 1, why := 0, bootlen := v.setWidth 32 } ∧ 1 ≤ d ∧ d ≤ 1000000 ∧
      ⟨s.clk + d, false, .bootVerifyDone⟩ ∈ t.cal) ∧
    (s.mgmt.boot ≠ 0 → s.mgmt.boot ≠ 3 → exec (.bootlenWrite v) s = .next s) ∧
    ((∃ k ∈ s.dist.kerns, k.st = .placing ∨ k.st = .running ∨ k.st = .stopping ∨ k.st = .preempted) →
      exec (.modnWrite v) s = .next s) ∧
    ((∀ k ∈ s.dist.kerns, k.st = .queued ∨ k.st = .ready) →
      exec (.modnWrite v) s = .next { s with mgmt := { s.mgmt with modn := v.setWidth 10 } }) ∧
    exec (.plimWrite v) s = .next (if v.toNat % 4096 = 0 ∨ 3600 < v.toNat % 4096 then s
      else { s with mgmt := { s.mgmt with plim := v.setWidth 12 } }) ∧
    exec (.svbaseWrite v) s = .next (if v.toNat / 2 ^ 21 % 2 ^ 27 * 2 ^ 21 + 2 ^ 21 ≤ 0x7FE0000000 then
      { s with mgmt := { s.mgmt with svbase := v.extractLsb' 21 27 } } else s)) ∧
  (∀ s : State, s.mgmt.boot = 1 →
    (0x4000000 < s.mgmt.bootlen.toNat → ∃ t, exec .bootVerifyDone s = .next t ∧ t.mgmt.boot = 3 ∧ t.mgmt.why = 5 ∧
      t.mem = s.mem) ∧
    (s.mgmt.bootlen.toNat ≤ 0x4000000 → ∃ t, exec .bootVerifyDone s = .next t ∧
      ((t.mgmt.boot = 3 ∧ t.mgmt.why ≠ 0 ∧ t.mgmt.why.toNat ≤ 5 ∧ t.mem = s.mem) ∨
        (t.mgmt.boot = 2 ∧ t.mgmt.why = 0 ∧ (Config.standardImage s.free = true → t.mgmt.plim = 3600) ∧ t.mgmt.bootcnt = s.mgmt.bootcnt + 1 ∧
          ∀ a, Memory.read t.mem a = if a + 1 ≤ 0x7FE0000000 then 0 else Memory.read s.mem a)))) ∧
  ∀ s : State,
    (∃ t, exec .powerSample s = .next t ∧ t.mem = s.mem ∧ t.ctxs = s.ctxs ∧ t.mgmt.samples = s.mgmt.samples + 1 ∧
      (∀ d, d < 4 → KMap.get 0 t.mgmt.tj d = Config.junction s.mgmt.samples d) ∧
      (s.mgmt.plim.toNat < Config.power s.mgmt.samples → t.mgmt.halved = s.mgmt.halved + 1 ∧ t.mgmt.cool = 0) ∧
      ((∃ d, d < 4 ∧ 115 ≤ (Config.junction s.mgmt.samples d).toNat) → t.mgmt.boot = 4) ∧
      ((∀ d, d < 4 → (Config.junction s.mgmt.samples d).toNat < 115) → t.mgmt.boot = s.mgmt.boot)) ∧
    (∃ t, exec .coldReset s = .next t ∧
      t = { State.reset with free := t.free, serial := t.serial, inputs := t.inputs }) ∧
    ∃ t, exec .warmReset s = .next t ∧ t.ctxs = [] ∧ t.cores = [] ∧ t.dist = Dist.reset ∧ t.mgmt.boot = 0 ∧
      t.mgmt.warm = true ∧ t.mgmt.bootcnt = s.mgmt.bootcnt ∧ t.mgmt.nrdrop = s.mgmt.nrdrop ∧ t.bb = s.bb ∧
      t.bbseq = s.bbseq ∧ (∀ l, (t.link l).nrt = (s.link l).nrt) ∧
      ∀ a, Memory.read t.mem a = if a + 1 ≤ 0x7FE0000000 then Memory.read s.mem a else 0

/-- R311, R343, R452, R453, R455, R459: what each message of the Yelnak link does. -/
def Obligations.HostMessages : Prop :=
  ∀ (s : State) (tag : Nat) (m : HostMsg), msgOf s tag = some m →
    let a := m.addr.toNat
    let n := m.len.toNat
    let answers (t : State) (typ : BitVec 8) (st code : Nat) (v : Word) (pay : List Byte) : Prop :=
      t.resps = s.resps ++ [⟨typ, m.tag, BitVec.ofNat 8 st, BitVec.ofNat 8 code, 0, v, pay⟩] ∧
        (∀ x ∈ t.host, x.tag ≠ m.tag) ∧ t.ctxs = s.ctxs
    (m.phys = true → s.mgmt.boot = 2 → s.Inv → a % 65536 + n ≤ 65536 → inHbm a n = true →
      (s.badIn a n = none → ∃ t pay, exec (.yelnakRead tag) s = .next t ∧ t.mem = s.mem ∧ answers t 0x81 0 0 0 pay ∧
        pay.length = n ∧ ∀ i, i < n → pay[i]? = some (Memory.read s.mem (a + i))) ∧
      (partBad s a n = none → m.payload.length = n → ∃ t, exec (.yelnakWrite tag) s = .next t ∧ answers t 0x82 0 0 0 [] ∧
        ∀ x, Memory.read t.mem x = if a ≤ x ∧ x < a + n then m.payload[x - a]?.getD 0 else Memory.read s.mem x)) ∧
    (∃ t d, exec (.yelnakLaunch tag) s = .next t ∧ t.mem = s.mem ∧ t.ctxs = s.ctxs ∧
      t.dist.arriving = s.dist.arriving ++ [⟨some tag, 0, 0, 0, bytesWords 32 m.payload, none⟩] ∧ 1 ≤ d ∧ d ≤ 300 ∧
      ⟨s.clk + d, false, .recordAcceptance⟩ ∈ t.cal) ∧
    (m.phys = true → a % 8 = 0 → inHbm a 8 = true →
      (∃ t r, exec (.yelnakCounterAdd tag) s = .next t ∧ t.mem = s.mem ∧ t.ctxs = s.ctxs ∧ t.req s.serial = some r ∧
        r.src = .hostAdd tag ∧ r.pa = a ∧ r.val = m.val) ∧
      ∃ t r, exec (.yelnakCounterWait tag) s = .next t ∧ t.mem = s.mem ∧ t.ctxs = s.ctxs ∧ t.req s.serial = some r ∧
        r.src = .hostWait tag ∧ r.pa = a ∧ r.val = m.val) ∧
    (m.phys = true → a % 8 ≠ 0 → a < 2 ^ 48 → (∃ t, exec (.yelnakCounterAdd tag) s = .next t ∧ t.mem = s.mem ∧
        answers t (m.typ + 0x80) 1 0x24 (m.addr.setWidth 64) []) ∧
      ∃ t, exec (.yelnakCounterWait tag) s = .next t ∧ t.mem = s.mem ∧
        answers t (m.typ + 0x80) 1 0x24 (m.addr.setWidth 64) []) ∧
    (a % 64 ≠ 0 → ∃ t, exec (.yelnakPatternLoad tag) s = .next t ∧ t.mem = s.mem ∧ answers t 0x86 2 1 0 []) ∧
    (a % 64 = 0 → ∃ t l d, exec (.yelnakPatternLoad tag) s = .next t ∧ t.mem = s.mem ∧ t.loads = s.loads ++ [l] ∧
      l.image = m.addr.setWidth 64 ∧ l.asid = m.asid ∧ l.tag = some tag ∧ l.priv = true ∧ 1 ≤ d ∧ d ≤ 2000 ∧
      ⟨s.clk + d, false, .patternValidate⟩ ∈ t.cal) ∧
    (∃ t x, exec (.yelnakBlackBoxRead tag) s = .next t ∧ t.mem = s.mem ∧ t.ctxs = s.ctxs ∧ t.bb = s.bb ∧
      let es := (s.bb.filter fun e => m.val.toNat ≤ e.seqn.toNat).take n
      t.resps = s.resps ++ [⟨0x87, m.tag, 0, 0, BitVec.ofNat 8 es.length, ((es.head?).map (·.seqn)).getD x,
        es.flatMap bboxBytes⟩]) ∧
    (m.payload.length = 32 → ∃ t pay, exec (.yelnakAttestation tag) s = .next t ∧ t.mem = s.mem ∧ answers t 0x88 0 0 0 pay ∧
      pay.length = 16864 ∧ (pay.drop 8).take 48 = natBytes 48 s.mgmt.imgHash ∧ (pay.drop 112).take 32 = m.payload)

/-! ## The machine as a whole -/

/-- R39: a move whose guard is false performs nothing and raises nothing, and the other moves of its bundle run as if its
slot were empty. -/
def Obligations.FalseGuardDoesNothing : Prop :=
  ∀ (i : Instr) (m : Move), i.move = some m →
    (∀ s : State, guardTrue s m.g = false → s.iss.note = .quiet → exec i s = .next s) ∧
    ∀ (k : Nat) (l : List (Nat × Instr)) (r : Slots), guardTrue r.st m.g = false →
      runSlots ((k, i) :: l) r =
        runSlots l ⟨{ r.st with iss := { r.st.iss with slot := k, note := .quiet } }, r.met⟩

/-- R21, R29, R37, R38, R112: in a clk in which one core issues, the step decodes the bytes at the pc and executes the
instruction they hold on the state that the clk's landings leave, with the pc moved on and the bundle's operand ports
captured; then the end of the clk follows. That one step is one clk, with its events in this order, is the model's
choice (log 1). -/
def Obligations.StepRunsDecoded : Prop :=
  ∀ (s : State) (n : Nat), Lone s n →
    let a := s.arbitrated n
    let c := coreOf n
    ∃ s1, unfrozen c (some n) (turnTo a c n) = .next s1 ∧ s1.mem = s.mem ∧ s1.iss.n = n ∧
      s1.iss.pc = (s.ctx n).pc ∧ s1.iss.slots = (fetch s n).slots ∧ s1.iss.hdr = (fetch s n).hdr ∧
      ∀ k i t, bundleInstrs (fetch s n).slots 0 = [(k, i)] → hdrLend (fetch s n).hdr = false →
        illegal (fetch s n).hdr (fetch s n).slots = none → inCode s n (s.ctx n).pc = true →
        let x := if isPortWrite i then moveOn s1 else capturePorts (moveOn s1)
        exec i { x with iss := { x.iss with slot := k, note := .quiet } } = .next t → t.iss.note = .quiet →
        overLimit s1 s1.iss.core t.iss.weight = false →
        step s = clkTail s n (bankStop a c n (issued c n s1 (if isPortWrite i then capturePorts t else t)))

/-- R31, R33, R34, R263: words written out from the encoding tables decode to their instructions. -/
def Obligations.DecodeWords : Prop :=
  decodeTableWord 24 0x000805 = some (.saAdd 0 0 0x005) ∧
  decodeTableWord 24 0x508A05 = some (.saSub 5 1 0x005) ∧
  decodeTableWord 24 0x0F8603 = some (.scalarRegisterWrite 0 3 0x003) ∧
  decodeTableWord 24 0x0FC245 = some (.guardWrite 0 1 0x045) ∧
  decodeTableWord 24 0x0F850A = some (.tileRowWrite 0 2 0x10A) ∧
  decodeTableWord 24 0x050303 = some (.operandPortWrite 0 10 1 0x103) ∧
  decodeTableWord 24 0x918840 = some (.brJmp 9 0x040) ∧
  decodeTableWord 24 0x080201 = some (.operandPortWrite 0 16 1 0x001) ∧
  decodeTableWord 24 0x080801 = some (.ceGo 0 0x001) ∧ decodeTableWord 24 0x588A40 = some (.geSkg 5 0x040) ∧
  decodeTableWord 24 0x090801 = some (.weGo 0 0x001) ∧ decodeTableWord 24 0x098A01 = some (.rsQry 0 0x001) ∧
  decodeTableWord 24 0x0A8E01 = some (.cbQry 0 0x001) ∧
  decodeTableWord 24 0x800000 = none ∧ decodeTableWord 24 0x800001 = none ∧ decodeTableWord 24 0x0E0800 = none ∧
  decodeTableWord 24 0x000824 = none

/-- R31, R32, R33, R34, R35, R47: every well-formed move is read back from the word that encodes it, with every field at every
value that its encoding admits. -/
def Obligations.EncodeDecode : Prop :=
  ∀ (i : Instr) (w : BitVec 24), i.wellFormed = true → encode i = some w →
    w ≠ emptySlot ∧ decodeSlot (slotOf i) w = .ok (some i)

/-- Every step keeps the canonical form of memory, from every state that has it. The form is the model's own (log 3). -/
def Obligations.StepKeepsInvariant : Prop := ∀ s t : State, s.Inv → step s = .next t → t.Inv

/-- R445, R454: the module after a cold reset: boot-hold, no member, no route, no pattern, no record (numbers of kernels and patterns start at 1, log 7),
no black-box entry; memory reads as it was scrubbed (the vault's zero is the model's, log 3), and the invariant holds. -/
def Obligations.ResetState : Prop :=
  State.reset.Inv ∧ State.reset.clk = 0 ∧ State.reset.mgmt.boot = 0 ∧ State.reset.mgmt.warm = false ∧
    State.reset.mgmt.modn = 0 ∧ State.reset.mgmt.bootcnt = 0 ∧ State.reset.bb = [] ∧ State.reset.bbseq = 0 ∧
    State.reset.dist.kerns = [] ∧ State.reset.dist.nextKid = 1 ∧ State.reset.nextPid = 1 ∧ State.reset.pats = [] ∧
    (∀ n, (State.reset.ctx n).st = .empty) ∧ (∀ h, (State.reset.holder h).ents = []) ∧
    (∀ i, KMap.get 0 State.reset.mgmt.route i = 0) ∧ ∀ a, Memory.read State.reset.mem a = 0
end

