-- ==== Sys2Proof/Laws/State.lean ====
section
/-!
SUPPORT. One lemma per field and update of a state, a context and a core, so that no proof unfolds a record update,
and the laws of the key-value lists.
-/

namespace Sys2Proof

/-! ## Key-value lists -/

/-- A key reads as the value just put under it. -/
@[simp] theorem KMap.get_put_same {α : Type} (d : α) (m : KMap α) (i : Nat) (v : α) :
    KMap.get d (KMap.put m i v) i = v := by
  induction m with
  | nil => simp [KMap.put, KMap.get]
  | cons e m ih =>
    obtain ⟨k, w⟩ := e
    simp only [KMap.put]
    split
    · simp [KMap.get]
    · split
      · simp [KMap.get]
      · next h => simp [KMap.get, h, ih]

/-- A put leaves every other key as it was. -/
theorem KMap.get_put_other {α : Type} (d : α) (m : KMap α) (i j : Nat) (v : α) (h : j ≠ i) :
    KMap.get d (KMap.put m i v) j = KMap.get d m j := by
  induction m with
  | nil => simp [KMap.put, KMap.get, h]
  | cons e m ih =>
    obtain ⟨k, w⟩ := e
    simp only [KMap.put]
    split
    · simp [KMap.get, h]
    · split
      · next hk => simp [KMap.get, h, hk ▸ h]
      · simp [KMap.get, ih]

/-- Of two puts under one key the later stands. -/
@[simp] theorem KMap.put_put {α : Type} (m : KMap α) (i : Nat) (v w : α) :
    KMap.put (KMap.put m i v) i w = KMap.put m i w := by
  induction m with
  | nil => simp [KMap.put]
  | cons e m ih =>
    obtain ⟨k, x⟩ := e
    simp only [KMap.put]
    split
    · simp [KMap.put]
    · split
      · simp [KMap.put]
      · next h1 h2 => simp [KMap.put, h1, h2, ih]

/-- A deleted key reads as the default. -/
@[simp] theorem KMap.get_del_same {α : Type} (d : α) (m : KMap α) (i : Nat) : KMap.get d (KMap.del m i) i = d := by
  induction m with
  | nil => rfl
  | cons e m ih =>
    obtain ⟨k, w⟩ := e
    simp only [KMap.del]
    split
    · exact ih
    · next h => simp [KMap.get, h, ih]

/-- A deletion leaves every other key as it was. -/
theorem KMap.get_del_other {α : Type} (d : α) (m : KMap α) (i j : Nat) (h : j ≠ i) :
    KMap.get d (KMap.del m i) j = KMap.get d m j := by
  induction m with
  | nil => rfl
  | cons e m ih =>
    obtain ⟨k, w⟩ := e
    simp only [KMap.del]
    split
    · next hk => simp [KMap.get, hk ▸ h, ih]
    · simp [KMap.get, ih]

/-- A key reads as the value just set under it, the default too. -/
@[simp] theorem KMap.get_set_same {α : Type} [DecidableEq α] (d : α) (m : KMap α) (i : Nat) (v : α) :
    KMap.get d (KMap.set d m i v) i = v := by
  unfold KMap.set
  split
  · next h => simp [h]
  · simp

/-- A set leaves every other key as it was. -/
theorem KMap.get_set_other {α : Type} [DecidableEq α] (d : α) (m : KMap α) (i j : Nat) (v : α) (h : j ≠ i) :
    KMap.get d (KMap.set d m i v) j = KMap.get d m j := by
  unfold KMap.set
  split
  · exact KMap.get_del_other d m i j h
  · exact KMap.get_put_other d m i j v h

end Sys2Proof

namespace Sys2Proof.Machine

/-! ## Updates of the state -/

@[simp] theorem State.setCtx_clk (s : State) (n : Nat) (c : Ctx) : (s.setCtx n c).clk = s.clk := rfl
@[simp] theorem State.setCtx_free (s : State) (n : Nat) (c : Ctx) : (s.setCtx n c).free = s.free := rfl
@[simp] theorem State.setCtx_serial (s : State) (n : Nat) (c : Ctx) : (s.setCtx n c).serial = s.serial := rfl
@[simp] theorem State.setCtx_mem (s : State) (n : Nat) (c : Ctx) : (s.setCtx n c).mem = s.mem := rfl
@[simp] theorem State.setCtx_bad (s : State) (n : Nat) (c : Ctx) : (s.setCtx n c).bad = s.bad := rfl
@[simp] theorem State.setCtx_cores (s : State) (n : Nat) (c : Ctx) : (s.setCtx n c).cores = s.cores := rfl
@[simp] theorem State.setCtx_bankPtr (s : State) (n : Nat) (c : Ctx) : (s.setCtx n c).bankPtr = s.bankPtr := rfl
@[simp] theorem State.setCtx_bankq (s : State) (n : Nat) (c : Ctx) : (s.setCtx n c).bankq = s.bankq := rfl
@[simp] theorem State.setCtx_bankNext (s : State) (n : Nat) (c : Ctx) : (s.setCtx n c).bankNext = s.bankNext := rfl
@[simp] theorem State.setCtx_bankNow (s : State) (n : Nat) (c : Ctx) : (s.setCtx n c).bankNow = s.bankNow := rfl
@[simp] theorem State.setCtx_trace (s : State) (n : Nat) (c : Ctx) : (s.setCtx n c).trace = s.trace := rfl
@[simp] theorem State.setCtx_ctlw (s : State) (n : Nat) (c : Ctx) : (s.setCtx n c).ctlw = s.ctlw := rfl
@[simp] theorem State.setCtx_replyCache (s : State) (n : Nat) (c : Ctx) : (s.setCtx n c).replyCache = s.replyCache := rfl
@[simp] theorem State.setCtx_tlb (s : State) (n : Nat) (c : Ctx) : (s.setCtx n c).tlb = s.tlb := rfl
@[simp] theorem State.setCtx_skb (s : State) (n : Nat) (c : Ctx) : (s.setCtx n c).skb = s.skb := rfl
@[simp] theorem State.setCtx_reqs (s : State) (n : Nat) (c : Ctx) : (s.setCtx n c).reqs = s.reqs := rfl
@[simp] theorem State.setCtx_srcSeq (s : State) (n : Nat) (c : Ctx) : (s.setCtx n c).srcSeq = s.srcSeq := rfl
@[simp] theorem State.setCtx_replies (s : State) (n : Nat) (c : Ctx) : (s.setCtx n c).replies = s.replies := rfl
@[simp] theorem State.setCtx_waiters (s : State) (n : Nat) (c : Ctx) : (s.setCtx n c).waiters = s.waiters := rfl
@[simp] theorem State.setCtx_routers (s : State) (n : Nat) (c : Ctx) : (s.setCtx n c).routers = s.routers := rfl
@[simp] theorem State.setCtx_holders (s : State) (n : Nat) (c : Ctx) : (s.setCtx n c).holders = s.holders := rfl
@[simp] theorem State.setCtx_links (s : State) (n : Nat) (c : Ctx) : (s.setCtx n c).links = s.links := rfl
@[simp] theorem State.setCtx_transit (s : State) (n : Nat) (c : Ctx) : (s.setCtx n c).transit = s.transit := rfl
@[simp] theorem State.setCtx_pats (s : State) (n : Nat) (c : Ctx) : (s.setCtx n c).pats = s.pats := rfl
@[simp] theorem State.setCtx_nextPid (s : State) (n : Nat) (c : Ctx) : (s.setCtx n c).nextPid = s.nextPid := rfl
@[simp] theorem State.setCtx_oncePats (s : State) (n : Nat) (c : Ctx) : (s.setCtx n c).oncePats = s.oncePats := rfl
@[simp] theorem State.setCtx_loads (s : State) (n : Nat) (c : Ctx) : (s.setCtx n c).loads = s.loads := rfl
@[simp] theorem State.setCtx_reshards (s : State) (n : Nat) (c : Ctx) : (s.setCtx n c).reshards = s.reshards := rfl
@[simp] theorem State.setCtx_skWait (s : State) (n : Nat) (c : Ctx) : (s.setCtx n c).skWait = s.skWait := rfl
@[simp] theorem State.setCtx_barMsgs (s : State) (n : Nat) (c : Ctx) : (s.setCtx n c).barMsgs = s.barMsgs := rfl
@[simp] theorem State.setCtx_barNodes (s : State) (n : Nat) (c : Ctx) : (s.setCtx n c).barNodes = s.barNodes := rfl
@[simp] theorem State.setCtx_podMsgs (s : State) (n : Nat) (c : Ctx) : (s.setCtx n c).podMsgs = s.podMsgs := rfl
@[simp] theorem State.setCtx_portOut (s : State) (n : Nat) (c : Ctx) : (s.setCtx n c).portOut = s.portOut := rfl
@[simp] theorem State.setCtx_leaveReqs (s : State) (n : Nat) (c : Ctx) : (s.setCtx n c).leaveReqs = s.leaveReqs := rfl
@[simp] theorem State.setCtx_dist (s : State) (n : Nat) (c : Ctx) : (s.setCtx n c).dist = s.dist := rfl
@[simp] theorem State.setCtx_mgmt (s : State) (n : Nat) (c : Ctx) : (s.setCtx n c).mgmt = s.mgmt := rfl
@[simp] theorem State.setCtx_bb (s : State) (n : Nat) (c : Ctx) : (s.setCtx n c).bb = s.bb := rfl
@[simp] theorem State.setCtx_bbseq (s : State) (n : Nat) (c : Ctx) : (s.setCtx n c).bbseq = s.bbseq := rfl
@[simp] theorem State.setCtx_host (s : State) (n : Nat) (c : Ctx) : (s.setCtx n c).host = s.host := rfl
@[simp] theorem State.setCtx_hostq (s : State) (n : Nat) (c : Ctx) : (s.setCtx n c).hostq = s.hostq := rfl
@[simp] theorem State.setCtx_resps (s : State) (n : Nat) (c : Ctx) : (s.setCtx n c).resps = s.resps := rfl
@[simp] theorem State.setCtx_digests (s : State) (n : Nat) (c : Ctx) : (s.setCtx n c).digests = s.digests := rfl
@[simp] theorem State.setCtx_digestOut (s : State) (n : Nat) (c : Ctx) : (s.setCtx n c).digestOut = s.digestOut := rfl
@[simp] theorem State.setCtx_yelIn (s : State) (n : Nat) (c : Ctx) : (s.setCtx n c).yelIn = s.yelIn := rfl
@[simp] theorem State.setCtx_yelSent (s : State) (n : Nat) (c : Ctx) : (s.setCtx n c).yelSent = s.yelSent := rfl
@[simp] theorem State.setCtx_dieFence (s : State) (n : Nat) (c : Ctx) : (s.setCtx n c).dieFence = s.dieFence := rfl
@[simp] theorem State.setCtx_cal (s : State) (n : Nat) (c : Ctx) : (s.setCtx n c).cal = s.cal := rfl
@[simp] theorem State.setCtx_inputs (s : State) (n : Nat) (c : Ctx) : (s.setCtx n c).inputs = s.inputs := rfl
@[simp] theorem State.setCtx_iss (s : State) (n : Nat) (c : Ctx) : (s.setCtx n c).iss = s.iss := rfl

@[simp] theorem State.updCtx_clk (s : State) (n : Nat) (f : Ctx → Ctx) : (s.updCtx n f).clk = s.clk := rfl
@[simp] theorem State.updCtx_free (s : State) (n : Nat) (f : Ctx → Ctx) : (s.updCtx n f).free = s.free := rfl
@[simp] theorem State.updCtx_serial (s : State) (n : Nat) (f : Ctx → Ctx) : (s.updCtx n f).serial = s.serial := rfl
@[simp] theorem State.updCtx_mem (s : State) (n : Nat) (f : Ctx → Ctx) : (s.updCtx n f).mem = s.mem := rfl
@[simp] theorem State.updCtx_bad (s : State) (n : Nat) (f : Ctx → Ctx) : (s.updCtx n f).bad = s.bad := rfl
@[simp] theorem State.updCtx_cores (s : State) (n : Nat) (f : Ctx → Ctx) : (s.updCtx n f).cores = s.cores := rfl
@[simp] theorem State.updCtx_bankPtr (s : State) (n : Nat) (f : Ctx → Ctx) : (s.updCtx n f).bankPtr = s.bankPtr := rfl
@[simp] theorem State.updCtx_bankq (s : State) (n : Nat) (f : Ctx → Ctx) : (s.updCtx n f).bankq = s.bankq := rfl
@[simp] theorem State.updCtx_bankNext (s : State) (n : Nat) (f : Ctx → Ctx) : (s.updCtx n f).bankNext = s.bankNext := rfl
@[simp] theorem State.updCtx_bankNow (s : State) (n : Nat) (f : Ctx → Ctx) : (s.updCtx n f).bankNow = s.bankNow := rfl
@[simp] theorem State.updCtx_trace (s : State) (n : Nat) (f : Ctx → Ctx) : (s.updCtx n f).trace = s.trace := rfl
@[simp] theorem State.updCtx_ctlw (s : State) (n : Nat) (f : Ctx → Ctx) : (s.updCtx n f).ctlw = s.ctlw := rfl
@[simp] theorem State.updCtx_replyCache (s : State) (n : Nat) (f : Ctx → Ctx) : (s.updCtx n f).replyCache = s.replyCache := rfl
@[simp] theorem State.updCtx_tlb (s : State) (n : Nat) (f : Ctx → Ctx) : (s.updCtx n f).tlb = s.tlb := rfl
@[simp] theorem State.updCtx_skb (s : State) (n : Nat) (f : Ctx → Ctx) : (s.updCtx n f).skb = s.skb := rfl
@[simp] theorem State.updCtx_reqs (s : State) (n : Nat) (f : Ctx → Ctx) : (s.updCtx n f).reqs = s.reqs := rfl
@[simp] theorem State.updCtx_srcSeq (s : State) (n : Nat) (f : Ctx → Ctx) : (s.updCtx n f).srcSeq = s.srcSeq := rfl
@[simp] theorem State.updCtx_replies (s : State) (n : Nat) (f : Ctx → Ctx) : (s.updCtx n f).replies = s.replies := rfl
@[simp] theorem State.updCtx_waiters (s : State) (n : Nat) (f : Ctx → Ctx) : (s.updCtx n f).waiters = s.waiters := rfl
@[simp] theorem State.updCtx_routers (s : State) (n : Nat) (f : Ctx → Ctx) : (s.updCtx n f).routers = s.routers := rfl
@[simp] theorem State.updCtx_holders (s : State) (n : Nat) (f : Ctx → Ctx) : (s.updCtx n f).holders = s.holders := rfl
@[simp] theorem State.updCtx_links (s : State) (n : Nat) (f : Ctx → Ctx) : (s.updCtx n f).links = s.links := rfl
@[simp] theorem State.updCtx_transit (s : State) (n : Nat) (f : Ctx → Ctx) : (s.updCtx n f).transit = s.transit := rfl
@[simp] theorem State.updCtx_pats (s : State) (n : Nat) (f : Ctx → Ctx) : (s.updCtx n f).pats = s.pats := rfl
@[simp] theorem State.updCtx_nextPid (s : State) (n : Nat) (f : Ctx → Ctx) : (s.updCtx n f).nextPid = s.nextPid := rfl
@[simp] theorem State.updCtx_oncePats (s : State) (n : Nat) (f : Ctx → Ctx) : (s.updCtx n f).oncePats = s.oncePats := rfl
@[simp] theorem State.updCtx_loads (s : State) (n : Nat) (f : Ctx → Ctx) : (s.updCtx n f).loads = s.loads := rfl
@[simp] theorem State.updCtx_reshards (s : State) (n : Nat) (f : Ctx → Ctx) : (s.updCtx n f).reshards = s.reshards := rfl
@[simp] theorem State.updCtx_skWait (s : State) (n : Nat) (f : Ctx → Ctx) : (s.updCtx n f).skWait = s.skWait := rfl
@[simp] theorem State.updCtx_barMsgs (s : State) (n : Nat) (f : Ctx → Ctx) : (s.updCtx n f).barMsgs = s.barMsgs := rfl
@[simp] theorem State.updCtx_barNodes (s : State) (n : Nat) (f : Ctx → Ctx) : (s.updCtx n f).barNodes = s.barNodes := rfl
@[simp] theorem State.updCtx_podMsgs (s : State) (n : Nat) (f : Ctx → Ctx) : (s.updCtx n f).podMsgs = s.podMsgs := rfl
@[simp] theorem State.updCtx_portOut (s : State) (n : Nat) (f : Ctx → Ctx) : (s.updCtx n f).portOut = s.portOut := rfl
@[simp] theorem State.updCtx_leaveReqs (s : State) (n : Nat) (f : Ctx → Ctx) : (s.updCtx n f).leaveReqs = s.leaveReqs := rfl
@[simp] theorem State.updCtx_dist (s : State) (n : Nat) (f : Ctx → Ctx) : (s.updCtx n f).dist = s.dist := rfl
@[simp] theorem State.updCtx_mgmt (s : State) (n : Nat) (f : Ctx → Ctx) : (s.updCtx n f).mgmt = s.mgmt := rfl
@[simp] theorem State.updCtx_bb (s : State) (n : Nat) (f : Ctx → Ctx) : (s.updCtx n f).bb = s.bb := rfl
@[simp] theorem State.updCtx_bbseq (s : State) (n : Nat) (f : Ctx → Ctx) : (s.updCtx n f).bbseq = s.bbseq := rfl
@[simp] theorem State.updCtx_host (s : State) (n : Nat) (f : Ctx → Ctx) : (s.updCtx n f).host = s.host := rfl
@[simp] theorem State.updCtx_hostq (s : State) (n : Nat) (f : Ctx → Ctx) : (s.updCtx n f).hostq = s.hostq := rfl
@[simp] theorem State.updCtx_resps (s : State) (n : Nat) (f : Ctx → Ctx) : (s.updCtx n f).resps = s.resps := rfl
@[simp] theorem State.updCtx_digests (s : State) (n : Nat) (f : Ctx → Ctx) : (s.updCtx n f).digests = s.digests := rfl
@[simp] theorem State.updCtx_digestOut (s : State) (n : Nat) (f : Ctx → Ctx) : (s.updCtx n f).digestOut = s.digestOut := rfl
@[simp] theorem State.updCtx_yelIn (s : State) (n : Nat) (f : Ctx → Ctx) : (s.updCtx n f).yelIn = s.yelIn := rfl
@[simp] theorem State.updCtx_yelSent (s : State) (n : Nat) (f : Ctx → Ctx) : (s.updCtx n f).yelSent = s.yelSent := rfl
@[simp] theorem State.updCtx_dieFence (s : State) (n : Nat) (f : Ctx → Ctx) : (s.updCtx n f).dieFence = s.dieFence := rfl
@[simp] theorem State.updCtx_cal (s : State) (n : Nat) (f : Ctx → Ctx) : (s.updCtx n f).cal = s.cal := rfl
@[simp] theorem State.updCtx_inputs (s : State) (n : Nat) (f : Ctx → Ctx) : (s.updCtx n f).inputs = s.inputs := rfl
@[simp] theorem State.updCtx_iss (s : State) (n : Nat) (f : Ctx → Ctx) : (s.updCtx n f).iss = s.iss := rfl

@[simp] theorem State.setCore_clk (s : State) (n : Nat) (k : Core) : (s.setCore n k).clk = s.clk := rfl
@[simp] theorem State.setCore_free (s : State) (n : Nat) (k : Core) : (s.setCore n k).free = s.free := rfl
@[simp] theorem State.setCore_serial (s : State) (n : Nat) (k : Core) : (s.setCore n k).serial = s.serial := rfl
@[simp] theorem State.setCore_mem (s : State) (n : Nat) (k : Core) : (s.setCore n k).mem = s.mem := rfl
@[simp] theorem State.setCore_bad (s : State) (n : Nat) (k : Core) : (s.setCore n k).bad = s.bad := rfl
@[simp] theorem State.setCore_ctxs (s : State) (n : Nat) (k : Core) : (s.setCore n k).ctxs = s.ctxs := rfl
@[simp] theorem State.setCore_bankPtr (s : State) (n : Nat) (k : Core) : (s.setCore n k).bankPtr = s.bankPtr := rfl
@[simp] theorem State.setCore_bankq (s : State) (n : Nat) (k : Core) : (s.setCore n k).bankq = s.bankq := rfl
@[simp] theorem State.setCore_bankNext (s : State) (n : Nat) (k : Core) : (s.setCore n k).bankNext = s.bankNext := rfl
@[simp] theorem State.setCore_bankNow (s : State) (n : Nat) (k : Core) : (s.setCore n k).bankNow = s.bankNow := rfl
@[simp] theorem State.setCore_trace (s : State) (n : Nat) (k : Core) : (s.setCore n k).trace = s.trace := rfl
@[simp] theorem State.setCore_ctlw (s : State) (n : Nat) (k : Core) : (s.setCore n k).ctlw = s.ctlw := rfl
@[simp] theorem State.setCore_replyCache (s : State) (n : Nat) (k : Core) : (s.setCore n k).replyCache = s.replyCache := rfl
@[simp] theorem State.setCore_tlb (s : State) (n : Nat) (k : Core) : (s.setCore n k).tlb = s.tlb := rfl
@[simp] theorem State.setCore_skb (s : State) (n : Nat) (k : Core) : (s.setCore n k).skb = s.skb := rfl
@[simp] theorem State.setCore_reqs (s : State) (n : Nat) (k : Core) : (s.setCore n k).reqs = s.reqs := rfl
@[simp] theorem State.setCore_srcSeq (s : State) (n : Nat) (k : Core) : (s.setCore n k).srcSeq = s.srcSeq := rfl
@[simp] theorem State.setCore_replies (s : State) (n : Nat) (k : Core) : (s.setCore n k).replies = s.replies := rfl
@[simp] theorem State.setCore_waiters (s : State) (n : Nat) (k : Core) : (s.setCore n k).waiters = s.waiters := rfl
@[simp] theorem State.setCore_routers (s : State) (n : Nat) (k : Core) : (s.setCore n k).routers = s.routers := rfl
@[simp] theorem State.setCore_holders (s : State) (n : Nat) (k : Core) : (s.setCore n k).holders = s.holders := rfl
@[simp] theorem State.setCore_links (s : State) (n : Nat) (k : Core) : (s.setCore n k).links = s.links := rfl
@[simp] theorem State.setCore_transit (s : State) (n : Nat) (k : Core) : (s.setCore n k).transit = s.transit := rfl
@[simp] theorem State.setCore_pats (s : State) (n : Nat) (k : Core) : (s.setCore n k).pats = s.pats := rfl
@[simp] theorem State.setCore_nextPid (s : State) (n : Nat) (k : Core) : (s.setCore n k).nextPid = s.nextPid := rfl
@[simp] theorem State.setCore_oncePats (s : State) (n : Nat) (k : Core) : (s.setCore n k).oncePats = s.oncePats := rfl
@[simp] theorem State.setCore_loads (s : State) (n : Nat) (k : Core) : (s.setCore n k).loads = s.loads := rfl
@[simp] theorem State.setCore_reshards (s : State) (n : Nat) (k : Core) : (s.setCore n k).reshards = s.reshards := rfl
@[simp] theorem State.setCore_skWait (s : State) (n : Nat) (k : Core) : (s.setCore n k).skWait = s.skWait := rfl
@[simp] theorem State.setCore_barMsgs (s : State) (n : Nat) (k : Core) : (s.setCore n k).barMsgs = s.barMsgs := rfl
@[simp] theorem State.setCore_barNodes (s : State) (n : Nat) (k : Core) : (s.setCore n k).barNodes = s.barNodes := rfl
@[simp] theorem State.setCore_podMsgs (s : State) (n : Nat) (k : Core) : (s.setCore n k).podMsgs = s.podMsgs := rfl
@[simp] theorem State.setCore_portOut (s : State) (n : Nat) (k : Core) : (s.setCore n k).portOut = s.portOut := rfl
@[simp] theorem State.setCore_leaveReqs (s : State) (n : Nat) (k : Core) : (s.setCore n k).leaveReqs = s.leaveReqs := rfl
@[simp] theorem State.setCore_dist (s : State) (n : Nat) (k : Core) : (s.setCore n k).dist = s.dist := rfl
@[simp] theorem State.setCore_mgmt (s : State) (n : Nat) (k : Core) : (s.setCore n k).mgmt = s.mgmt := rfl
@[simp] theorem State.setCore_bb (s : State) (n : Nat) (k : Core) : (s.setCore n k).bb = s.bb := rfl
@[simp] theorem State.setCore_bbseq (s : State) (n : Nat) (k : Core) : (s.setCore n k).bbseq = s.bbseq := rfl
@[simp] theorem State.setCore_host (s : State) (n : Nat) (k : Core) : (s.setCore n k).host = s.host := rfl
@[simp] theorem State.setCore_hostq (s : State) (n : Nat) (k : Core) : (s.setCore n k).hostq = s.hostq := rfl
@[simp] theorem State.setCore_resps (s : State) (n : Nat) (k : Core) : (s.setCore n k).resps = s.resps := rfl
@[simp] theorem State.setCore_digests (s : State) (n : Nat) (k : Core) : (s.setCore n k).digests = s.digests := rfl
@[simp] theorem State.setCore_digestOut (s : State) (n : Nat) (k : Core) : (s.setCore n k).digestOut = s.digestOut := rfl
@[simp] theorem State.setCore_yelIn (s : State) (n : Nat) (k : Core) : (s.setCore n k).yelIn = s.yelIn := rfl
@[simp] theorem State.setCore_yelSent (s : State) (n : Nat) (k : Core) : (s.setCore n k).yelSent = s.yelSent := rfl
@[simp] theorem State.setCore_dieFence (s : State) (n : Nat) (k : Core) : (s.setCore n k).dieFence = s.dieFence := rfl
@[simp] theorem State.setCore_cal (s : State) (n : Nat) (k : Core) : (s.setCore n k).cal = s.cal := rfl
@[simp] theorem State.setCore_inputs (s : State) (n : Nat) (k : Core) : (s.setCore n k).inputs = s.inputs := rfl
@[simp] theorem State.setCore_iss (s : State) (n : Nat) (k : Core) : (s.setCore n k).iss = s.iss := rfl

@[simp] theorem State.updCore_clk (s : State) (n : Nat) (f : Core → Core) : (s.updCore n f).clk = s.clk := rfl
@[simp] theorem State.updCore_free (s : State) (n : Nat) (f : Core → Core) : (s.updCore n f).free = s.free := rfl
@[simp] theorem State.updCore_serial (s : State) (n : Nat) (f : Core → Core) : (s.updCore n f).serial = s.serial := rfl
@[simp] theorem State.updCore_mem (s : State) (n : Nat) (f : Core → Core) : (s.updCore n f).mem = s.mem := rfl
@[simp] theorem State.updCore_bad (s : State) (n : Nat) (f : Core → Core) : (s.updCore n f).bad = s.bad := rfl
@[simp] theorem State.updCore_ctxs (s : State) (n : Nat) (f : Core → Core) : (s.updCore n f).ctxs = s.ctxs := rfl
@[simp] theorem State.updCore_bankPtr (s : State) (n : Nat) (f : Core → Core) : (s.updCore n f).bankPtr = s.bankPtr := rfl
@[simp] theorem State.updCore_bankq (s : State) (n : Nat) (f : Core → Core) : (s.updCore n f).bankq = s.bankq := rfl
@[simp] theorem State.updCore_bankNext (s : State) (n : Nat) (f : Core → Core) : (s.updCore n f).bankNext = s.bankNext := rfl
@[simp] theorem State.updCore_bankNow (s : State) (n : Nat) (f : Core → Core) : (s.updCore n f).bankNow = s.bankNow := rfl
@[simp] theorem State.updCore_trace (s : State) (n : Nat) (f : Core → Core) : (s.updCore n f).trace = s.trace := rfl
@[simp] theorem State.updCore_ctlw (s : State) (n : Nat) (f : Core → Core) : (s.updCore n f).ctlw = s.ctlw := rfl
@[simp] theorem State.updCore_replyCache (s : State) (n : Nat) (f : Core → Core) : (s.updCore n f).replyCache = s.replyCache := rfl
@[simp] theorem State.updCore_tlb (s : State) (n : Nat) (f : Core → Core) : (s.updCore n f).tlb = s.tlb := rfl
@[simp] theorem State.updCore_skb (s : State) (n : Nat) (f : Core → Core) : (s.updCore n f).skb = s.skb := rfl
@[simp] theorem State.updCore_reqs (s : State) (n : Nat) (f : Core → Core) : (s.updCore n f).reqs = s.reqs := rfl
@[simp] theorem State.updCore_srcSeq (s : State) (n : Nat) (f : Core → Core) : (s.updCore n f).srcSeq = s.srcSeq := rfl
@[simp] theorem State.updCore_replies (s : State) (n : Nat) (f : Core → Core) : (s.updCore n f).replies = s.replies := rfl
@[simp] theorem State.updCore_waiters (s : State) (n : Nat) (f : Core → Core) : (s.updCore n f).waiters = s.waiters := rfl
@[simp] theorem State.updCore_routers (s : State) (n : Nat) (f : Core → Core) : (s.updCore n f).routers = s.routers := rfl
@[simp] theorem State.updCore_holders (s : State) (n : Nat) (f : Core → Core) : (s.updCore n f).holders = s.holders := rfl
@[simp] theorem State.updCore_links (s : State) (n : Nat) (f : Core → Core) : (s.updCore n f).links = s.links := rfl
@[simp] theorem State.updCore_transit (s : State) (n : Nat) (f : Core → Core) : (s.updCore n f).transit = s.transit := rfl
@[simp] theorem State.updCore_pats (s : State) (n : Nat) (f : Core → Core) : (s.updCore n f).pats = s.pats := rfl
@[simp] theorem State.updCore_nextPid (s : State) (n : Nat) (f : Core → Core) : (s.updCore n f).nextPid = s.nextPid := rfl
@[simp] theorem State.updCore_oncePats (s : State) (n : Nat) (f : Core → Core) : (s.updCore n f).oncePats = s.oncePats := rfl
@[simp] theorem State.updCore_loads (s : State) (n : Nat) (f : Core → Core) : (s.updCore n f).loads = s.loads := rfl
@[simp] theorem State.updCore_reshards (s : State) (n : Nat) (f : Core → Core) : (s.updCore n f).reshards = s.reshards := rfl
@[simp] theorem State.updCore_skWait (s : State) (n : Nat) (f : Core → Core) : (s.updCore n f).skWait = s.skWait := rfl
@[simp] theorem State.updCore_barMsgs (s : State) (n : Nat) (f : Core → Core) : (s.updCore n f).barMsgs = s.barMsgs := rfl
@[simp] theorem State.updCore_barNodes (s : State) (n : Nat) (f : Core → Core) : (s.updCore n f).barNodes = s.barNodes := rfl
@[simp] theorem State.updCore_podMsgs (s : State) (n : Nat) (f : Core → Core) : (s.updCore n f).podMsgs = s.podMsgs := rfl
@[simp] theorem State.updCore_portOut (s : State) (n : Nat) (f : Core → Core) : (s.updCore n f).portOut = s.portOut := rfl
@[simp] theorem State.updCore_leaveReqs (s : State) (n : Nat) (f : Core → Core) : (s.updCore n f).leaveReqs = s.leaveReqs := rfl
@[simp] theorem State.updCore_dist (s : State) (n : Nat) (f : Core → Core) : (s.updCore n f).dist = s.dist := rfl
@[simp] theorem State.updCore_mgmt (s : State) (n : Nat) (f : Core → Core) : (s.updCore n f).mgmt = s.mgmt := rfl
@[simp] theorem State.updCore_bb (s : State) (n : Nat) (f : Core → Core) : (s.updCore n f).bb = s.bb := rfl
@[simp] theorem State.updCore_bbseq (s : State) (n : Nat) (f : Core → Core) : (s.updCore n f).bbseq = s.bbseq := rfl
@[simp] theorem State.updCore_host (s : State) (n : Nat) (f : Core → Core) : (s.updCore n f).host = s.host := rfl
@[simp] theorem State.updCore_hostq (s : State) (n : Nat) (f : Core → Core) : (s.updCore n f).hostq = s.hostq := rfl
@[simp] theorem State.updCore_resps (s : State) (n : Nat) (f : Core → Core) : (s.updCore n f).resps = s.resps := rfl
@[simp] theorem State.updCore_digests (s : State) (n : Nat) (f : Core → Core) : (s.updCore n f).digests = s.digests := rfl
@[simp] theorem State.updCore_digestOut (s : State) (n : Nat) (f : Core → Core) : (s.updCore n f).digestOut = s.digestOut := rfl
@[simp] theorem State.updCore_yelIn (s : State) (n : Nat) (f : Core → Core) : (s.updCore n f).yelIn = s.yelIn := rfl
@[simp] theorem State.updCore_yelSent (s : State) (n : Nat) (f : Core → Core) : (s.updCore n f).yelSent = s.yelSent := rfl
@[simp] theorem State.updCore_dieFence (s : State) (n : Nat) (f : Core → Core) : (s.updCore n f).dieFence = s.dieFence := rfl
@[simp] theorem State.updCore_cal (s : State) (n : Nat) (f : Core → Core) : (s.updCore n f).cal = s.cal := rfl
@[simp] theorem State.updCore_inputs (s : State) (n : Nat) (f : Core → Core) : (s.updCore n f).inputs = s.inputs := rfl
@[simp] theorem State.updCore_iss (s : State) (n : Nat) (f : Core → Core) : (s.updCore n f).iss = s.iss := rfl

@[simp] theorem State.updHolder_clk (s : State) (h : Nat) (f : Holder → Holder) : (s.updHolder h f).clk = s.clk := rfl
@[simp] theorem State.updHolder_free (s : State) (h : Nat) (f : Holder → Holder) : (s.updHolder h f).free = s.free := rfl
@[simp] theorem State.updHolder_serial (s : State) (h : Nat) (f : Holder → Holder) : (s.updHolder h f).serial = s.serial := rfl
@[simp] theorem State.updHolder_mem (s : State) (h : Nat) (f : Holder → Holder) : (s.updHolder h f).mem = s.mem := rfl
@[simp] theorem State.updHolder_bad (s : State) (h : Nat) (f : Holder → Holder) : (s.updHolder h f).bad = s.bad := rfl
@[simp] theorem State.updHolder_ctxs (s : State) (h : Nat) (f : Holder → Holder) : (s.updHolder h f).ctxs = s.ctxs := rfl
@[simp] theorem State.updHolder_cores (s : State) (h : Nat) (f : Holder → Holder) : (s.updHolder h f).cores = s.cores := rfl
@[simp] theorem State.updHolder_bankPtr (s : State) (h : Nat) (f : Holder → Holder) : (s.updHolder h f).bankPtr = s.bankPtr := rfl
@[simp] theorem State.updHolder_bankq (s : State) (h : Nat) (f : Holder → Holder) : (s.updHolder h f).bankq = s.bankq := rfl
@[simp] theorem State.updHolder_bankNext (s : State) (h : Nat) (f : Holder → Holder) : (s.updHolder h f).bankNext = s.bankNext := rfl
@[simp] theorem State.updHolder_bankNow (s : State) (h : Nat) (f : Holder → Holder) : (s.updHolder h f).bankNow = s.bankNow := rfl
@[simp] theorem State.updHolder_trace (s : State) (h : Nat) (f : Holder → Holder) : (s.updHolder h f).trace = s.trace := rfl
@[simp] theorem State.updHolder_ctlw (s : State) (h : Nat) (f : Holder → Holder) : (s.updHolder h f).ctlw = s.ctlw := rfl
@[simp] theorem State.updHolder_replyCache (s : State) (h : Nat) (f : Holder → Holder) : (s.updHolder h f).replyCache = s.replyCache := rfl
@[simp] theorem State.updHolder_tlb (s : State) (h : Nat) (f : Holder → Holder) : (s.updHolder h f).tlb = s.tlb := rfl
@[simp] theorem State.updHolder_skb (s : State) (h : Nat) (f : Holder → Holder) : (s.updHolder h f).skb = s.skb := rfl
@[simp] theorem State.updHolder_reqs (s : State) (h : Nat) (f : Holder → Holder) : (s.updHolder h f).reqs = s.reqs := rfl
@[simp] theorem State.updHolder_srcSeq (s : State) (h : Nat) (f : Holder → Holder) : (s.updHolder h f).srcSeq = s.srcSeq := rfl
@[simp] theorem State.updHolder_replies (s : State) (h : Nat) (f : Holder → Holder) : (s.updHolder h f).replies = s.replies := rfl
@[simp] theorem State.updHolder_waiters (s : State) (h : Nat) (f : Holder → Holder) : (s.updHolder h f).waiters = s.waiters := rfl
@[simp] theorem State.updHolder_routers (s : State) (h : Nat) (f : Holder → Holder) : (s.updHolder h f).routers = s.routers := rfl
@[simp] theorem State.updHolder_links (s : State) (h : Nat) (f : Holder → Holder) : (s.updHolder h f).links = s.links := rfl
@[simp] theorem State.updHolder_transit (s : State) (h : Nat) (f : Holder → Holder) : (s.updHolder h f).transit = s.transit := rfl
@[simp] theorem State.updHolder_pats (s : State) (h : Nat) (f : Holder → Holder) : (s.updHolder h f).pats = s.pats := rfl
@[simp] theorem State.updHolder_nextPid (s : State) (h : Nat) (f : Holder → Holder) : (s.updHolder h f).nextPid = s.nextPid := rfl
@[simp] theorem State.updHolder_oncePats (s : State) (h : Nat) (f : Holder → Holder) : (s.updHolder h f).oncePats = s.oncePats := rfl
@[simp] theorem State.updHolder_loads (s : State) (h : Nat) (f : Holder → Holder) : (s.updHolder h f).loads = s.loads := rfl
@[simp] theorem State.updHolder_reshards (s : State) (h : Nat) (f : Holder → Holder) : (s.updHolder h f).reshards = s.reshards := rfl
@[simp] theorem State.updHolder_skWait (s : State) (h : Nat) (f : Holder → Holder) : (s.updHolder h f).skWait = s.skWait := rfl
@[simp] theorem State.updHolder_barMsgs (s : State) (h : Nat) (f : Holder → Holder) : (s.updHolder h f).barMsgs = s.barMsgs := rfl
@[simp] theorem State.updHolder_barNodes (s : State) (h : Nat) (f : Holder → Holder) : (s.updHolder h f).barNodes = s.barNodes := rfl
@[simp] theorem State.updHolder_podMsgs (s : State) (h : Nat) (f : Holder → Holder) : (s.updHolder h f).podMsgs = s.podMsgs := rfl
@[simp] theorem State.updHolder_portOut (s : State) (h : Nat) (f : Holder → Holder) : (s.updHolder h f).portOut = s.portOut := rfl
@[simp] theorem State.updHolder_leaveReqs (s : State) (h : Nat) (f : Holder → Holder) : (s.updHolder h f).leaveReqs = s.leaveReqs := rfl
@[simp] theorem State.updHolder_dist (s : State) (h : Nat) (f : Holder → Holder) : (s.updHolder h f).dist = s.dist := rfl
@[simp] theorem State.updHolder_mgmt (s : State) (h : Nat) (f : Holder → Holder) : (s.updHolder h f).mgmt = s.mgmt := rfl
@[simp] theorem State.updHolder_bb (s : State) (h : Nat) (f : Holder → Holder) : (s.updHolder h f).bb = s.bb := rfl
@[simp] theorem State.updHolder_bbseq (s : State) (h : Nat) (f : Holder → Holder) : (s.updHolder h f).bbseq = s.bbseq := rfl
@[simp] theorem State.updHolder_host (s : State) (h : Nat) (f : Holder → Holder) : (s.updHolder h f).host = s.host := rfl
@[simp] theorem State.updHolder_hostq (s : State) (h : Nat) (f : Holder → Holder) : (s.updHolder h f).hostq = s.hostq := rfl
@[simp] theorem State.updHolder_resps (s : State) (h : Nat) (f : Holder → Holder) : (s.updHolder h f).resps = s.resps := rfl
@[simp] theorem State.updHolder_digests (s : State) (h : Nat) (f : Holder → Holder) : (s.updHolder h f).digests = s.digests := rfl
@[simp] theorem State.updHolder_digestOut (s : State) (h : Nat) (f : Holder → Holder) : (s.updHolder h f).digestOut = s.digestOut := rfl
@[simp] theorem State.updHolder_yelIn (s : State) (h : Nat) (f : Holder → Holder) : (s.updHolder h f).yelIn = s.yelIn := rfl
@[simp] theorem State.updHolder_yelSent (s : State) (h : Nat) (f : Holder → Holder) : (s.updHolder h f).yelSent = s.yelSent := rfl
@[simp] theorem State.updHolder_dieFence (s : State) (h : Nat) (f : Holder → Holder) : (s.updHolder h f).dieFence = s.dieFence := rfl
@[simp] theorem State.updHolder_cal (s : State) (h : Nat) (f : Holder → Holder) : (s.updHolder h f).cal = s.cal := rfl
@[simp] theorem State.updHolder_inputs (s : State) (h : Nat) (f : Holder → Holder) : (s.updHolder h f).inputs = s.inputs := rfl
@[simp] theorem State.updHolder_iss (s : State) (h : Nat) (f : Holder → Holder) : (s.updHolder h f).iss = s.iss := rfl

@[simp] theorem State.updRouter_clk (s : State) (h : Nat) (f : Router → Router) : (s.updRouter h f).clk = s.clk := rfl
@[simp] theorem State.updRouter_free (s : State) (h : Nat) (f : Router → Router) : (s.updRouter h f).free = s.free := rfl
@[simp] theorem State.updRouter_serial (s : State) (h : Nat) (f : Router → Router) : (s.updRouter h f).serial = s.serial := rfl
@[simp] theorem State.updRouter_mem (s : State) (h : Nat) (f : Router → Router) : (s.updRouter h f).mem = s.mem := rfl
@[simp] theorem State.updRouter_bad (s : State) (h : Nat) (f : Router → Router) : (s.updRouter h f).bad = s.bad := rfl
@[simp] theorem State.updRouter_ctxs (s : State) (h : Nat) (f : Router → Router) : (s.updRouter h f).ctxs = s.ctxs := rfl
@[simp] theorem State.updRouter_cores (s : State) (h : Nat) (f : Router → Router) : (s.updRouter h f).cores = s.cores := rfl
@[simp] theorem State.updRouter_bankPtr (s : State) (h : Nat) (f : Router → Router) : (s.updRouter h f).bankPtr = s.bankPtr := rfl
@[simp] theorem State.updRouter_bankq (s : State) (h : Nat) (f : Router → Router) : (s.updRouter h f).bankq = s.bankq := rfl
@[simp] theorem State.updRouter_bankNext (s : State) (h : Nat) (f : Router → Router) : (s.updRouter h f).bankNext = s.bankNext := rfl
@[simp] theorem State.updRouter_bankNow (s : State) (h : Nat) (f : Router → Router) : (s.updRouter h f).bankNow = s.bankNow := rfl
@[simp] theorem State.updRouter_trace (s : State) (h : Nat) (f : Router → Router) : (s.updRouter h f).trace = s.trace := rfl
@[simp] theorem State.updRouter_ctlw (s : State) (h : Nat) (f : Router → Router) : (s.updRouter h f).ctlw = s.ctlw := rfl
@[simp] theorem State.updRouter_replyCache (s : State) (h : Nat) (f : Router → Router) : (s.updRouter h f).replyCache = s.replyCache := rfl
@[simp] theorem State.updRouter_tlb (s : State) (h : Nat) (f : Router → Router) : (s.updRouter h f).tlb = s.tlb := rfl
@[simp] theorem State.updRouter_skb (s : State) (h : Nat) (f : Router → Router) : (s.updRouter h f).skb = s.skb := rfl
@[simp] theorem State.updRouter_reqs (s : State) (h : Nat) (f : Router → Router) : (s.updRouter h f).reqs = s.reqs := rfl
@[simp] theorem State.updRouter_srcSeq (s : State) (h : Nat) (f : Router → Router) : (s.updRouter h f).srcSeq = s.srcSeq := rfl
@[simp] theorem State.updRouter_replies (s : State) (h : Nat) (f : Router → Router) : (s.updRouter h f).replies = s.replies := rfl
@[simp] theorem State.updRouter_waiters (s : State) (h : Nat) (f : Router → Router) : (s.updRouter h f).waiters = s.waiters := rfl
@[simp] theorem State.updRouter_holders (s : State) (h : Nat) (f : Router → Router) : (s.updRouter h f).holders = s.holders := rfl
@[simp] theorem State.updRouter_links (s : State) (h : Nat) (f : Router → Router) : (s.updRouter h f).links = s.links := rfl
@[simp] theorem State.updRouter_transit (s : State) (h : Nat) (f : Router → Router) : (s.updRouter h f).transit = s.transit := rfl
@[simp] theorem State.updRouter_pats (s : State) (h : Nat) (f : Router → Router) : (s.updRouter h f).pats = s.pats := rfl
@[simp] theorem State.updRouter_nextPid (s : State) (h : Nat) (f : Router → Router) : (s.updRouter h f).nextPid = s.nextPid := rfl
@[simp] theorem State.updRouter_oncePats (s : State) (h : Nat) (f : Router → Router) : (s.updRouter h f).oncePats = s.oncePats := rfl
@[simp] theorem State.updRouter_loads (s : State) (h : Nat) (f : Router → Router) : (s.updRouter h f).loads = s.loads := rfl
@[simp] theorem State.updRouter_reshards (s : State) (h : Nat) (f : Router → Router) : (s.updRouter h f).reshards = s.reshards := rfl
@[simp] theorem State.updRouter_skWait (s : State) (h : Nat) (f : Router → Router) : (s.updRouter h f).skWait = s.skWait := rfl
@[simp] theorem State.updRouter_barMsgs (s : State) (h : Nat) (f : Router → Router) : (s.updRouter h f).barMsgs = s.barMsgs := rfl
@[simp] theorem State.updRouter_barNodes (s : State) (h : Nat) (f : Router → Router) : (s.updRouter h f).barNodes = s.barNodes := rfl
@[simp] theorem State.updRouter_podMsgs (s : State) (h : Nat) (f : Router → Router) : (s.updRouter h f).podMsgs = s.podMsgs := rfl
@[simp] theorem State.updRouter_portOut (s : State) (h : Nat) (f : Router → Router) : (s.updRouter h f).portOut = s.portOut := rfl
@[simp] theorem State.updRouter_leaveReqs (s : State) (h : Nat) (f : Router → Router) : (s.updRouter h f).leaveReqs = s.leaveReqs := rfl
@[simp] theorem State.updRouter_dist (s : State) (h : Nat) (f : Router → Router) : (s.updRouter h f).dist = s.dist := rfl
@[simp] theorem State.updRouter_mgmt (s : State) (h : Nat) (f : Router → Router) : (s.updRouter h f).mgmt = s.mgmt := rfl
@[simp] theorem State.updRouter_bb (s : State) (h : Nat) (f : Router → Router) : (s.updRouter h f).bb = s.bb := rfl
@[simp] theorem State.updRouter_bbseq (s : State) (h : Nat) (f : Router → Router) : (s.updRouter h f).bbseq = s.bbseq := rfl
@[simp] theorem State.updRouter_host (s : State) (h : Nat) (f : Router → Router) : (s.updRouter h f).host = s.host := rfl
@[simp] theorem State.updRouter_hostq (s : State) (h : Nat) (f : Router → Router) : (s.updRouter h f).hostq = s.hostq := rfl
@[simp] theorem State.updRouter_resps (s : State) (h : Nat) (f : Router → Router) : (s.updRouter h f).resps = s.resps := rfl
@[simp] theorem State.updRouter_digests (s : State) (h : Nat) (f : Router → Router) : (s.updRouter h f).digests = s.digests := rfl
@[simp] theorem State.updRouter_digestOut (s : State) (h : Nat) (f : Router → Router) : (s.updRouter h f).digestOut = s.digestOut := rfl
@[simp] theorem State.updRouter_yelIn (s : State) (h : Nat) (f : Router → Router) : (s.updRouter h f).yelIn = s.yelIn := rfl
@[simp] theorem State.updRouter_yelSent (s : State) (h : Nat) (f : Router → Router) : (s.updRouter h f).yelSent = s.yelSent := rfl
@[simp] theorem State.updRouter_dieFence (s : State) (h : Nat) (f : Router → Router) : (s.updRouter h f).dieFence = s.dieFence := rfl
@[simp] theorem State.updRouter_cal (s : State) (h : Nat) (f : Router → Router) : (s.updRouter h f).cal = s.cal := rfl
@[simp] theorem State.updRouter_inputs (s : State) (h : Nat) (f : Router → Router) : (s.updRouter h f).inputs = s.inputs := rfl
@[simp] theorem State.updRouter_iss (s : State) (h : Nat) (f : Router → Router) : (s.updRouter h f).iss = s.iss := rfl

@[simp] theorem State.updLink_clk (s : State) (l : Nat) (f : Link → Link) : (s.updLink l f).clk = s.clk := rfl
@[simp] theorem State.updLink_free (s : State) (l : Nat) (f : Link → Link) : (s.updLink l f).free = s.free := rfl
@[simp] theorem State.updLink_serial (s : State) (l : Nat) (f : Link → Link) : (s.updLink l f).serial = s.serial := rfl
@[simp] theorem State.updLink_mem (s : State) (l : Nat) (f : Link → Link) : (s.updLink l f).mem = s.mem := rfl
@[simp] theorem State.updLink_bad (s : State) (l : Nat) (f : Link → Link) : (s.updLink l f).bad = s.bad := rfl
@[simp] theorem State.updLink_ctxs (s : State) (l : Nat) (f : Link → Link) : (s.updLink l f).ctxs = s.ctxs := rfl
@[simp] theorem State.updLink_cores (s : State) (l : Nat) (f : Link → Link) : (s.updLink l f).cores = s.cores := rfl
@[simp] theorem State.updLink_bankPtr (s : State) (l : Nat) (f : Link → Link) : (s.updLink l f).bankPtr = s.bankPtr := rfl
@[simp] theorem State.updLink_bankq (s : State) (l : Nat) (f : Link → Link) : (s.updLink l f).bankq = s.bankq := rfl
@[simp] theorem State.updLink_bankNext (s : State) (l : Nat) (f : Link → Link) : (s.updLink l f).bankNext = s.bankNext := rfl
@[simp] theorem State.updLink_bankNow (s : State) (l : Nat) (f : Link → Link) : (s.updLink l f).bankNow = s.bankNow := rfl
@[simp] theorem State.updLink_trace (s : State) (l : Nat) (f : Link → Link) : (s.updLink l f).trace = s.trace := rfl
@[simp] theorem State.updLink_ctlw (s : State) (l : Nat) (f : Link → Link) : (s.updLink l f).ctlw = s.ctlw := rfl
@[simp] theorem State.updLink_replyCache (s : State) (l : Nat) (f : Link → Link) : (s.updLink l f).replyCache = s.replyCache := rfl
@[simp] theorem State.updLink_tlb (s : State) (l : Nat) (f : Link → Link) : (s.updLink l f).tlb = s.tlb := rfl
@[simp] theorem State.updLink_skb (s : State) (l : Nat) (f : Link → Link) : (s.updLink l f).skb = s.skb := rfl
@[simp] theorem State.updLink_reqs (s : State) (l : Nat) (f : Link → Link) : (s.updLink l f).reqs = s.reqs := rfl
@[simp] theorem State.updLink_srcSeq (s : State) (l : Nat) (f : Link → Link) : (s.updLink l f).srcSeq = s.srcSeq := rfl
@[simp] theorem State.updLink_replies (s : State) (l : Nat) (f : Link → Link) : (s.updLink l f).replies = s.replies := rfl
@[simp] theorem State.updLink_waiters (s : State) (l : Nat) (f : Link → Link) : (s.updLink l f).waiters = s.waiters := rfl
@[simp] theorem State.updLink_routers (s : State) (l : Nat) (f : Link → Link) : (s.updLink l f).routers = s.routers := rfl
@[simp] theorem State.updLink_holders (s : State) (l : Nat) (f : Link → Link) : (s.updLink l f).holders = s.holders := rfl
@[simp] theorem State.updLink_transit (s : State) (l : Nat) (f : Link → Link) : (s.updLink l f).transit = s.transit := rfl
@[simp] theorem State.updLink_pats (s : State) (l : Nat) (f : Link → Link) : (s.updLink l f).pats = s.pats := rfl
@[simp] theorem State.updLink_nextPid (s : State) (l : Nat) (f : Link → Link) : (s.updLink l f).nextPid = s.nextPid := rfl
@[simp] theorem State.updLink_oncePats (s : State) (l : Nat) (f : Link → Link) : (s.updLink l f).oncePats = s.oncePats := rfl
@[simp] theorem State.updLink_loads (s : State) (l : Nat) (f : Link → Link) : (s.updLink l f).loads = s.loads := rfl
@[simp] theorem State.updLink_reshards (s : State) (l : Nat) (f : Link → Link) : (s.updLink l f).reshards = s.reshards := rfl
@[simp] theorem State.updLink_skWait (s : State) (l : Nat) (f : Link → Link) : (s.updLink l f).skWait = s.skWait := rfl
@[simp] theorem State.updLink_barMsgs (s : State) (l : Nat) (f : Link → Link) : (s.updLink l f).barMsgs = s.barMsgs := rfl
@[simp] theorem State.updLink_barNodes (s : State) (l : Nat) (f : Link → Link) : (s.updLink l f).barNodes = s.barNodes := rfl
@[simp] theorem State.updLink_podMsgs (s : State) (l : Nat) (f : Link → Link) : (s.updLink l f).podMsgs = s.podMsgs := rfl
@[simp] theorem State.updLink_portOut (s : State) (l : Nat) (f : Link → Link) : (s.updLink l f).portOut = s.portOut := rfl
@[simp] theorem State.updLink_leaveReqs (s : State) (l : Nat) (f : Link → Link) : (s.updLink l f).leaveReqs = s.leaveReqs := rfl
@[simp] theorem State.updLink_dist (s : State) (l : Nat) (f : Link → Link) : (s.updLink l f).dist = s.dist := rfl
@[simp] theorem State.updLink_mgmt (s : State) (l : Nat) (f : Link → Link) : (s.updLink l f).mgmt = s.mgmt := rfl
@[simp] theorem State.updLink_bb (s : State) (l : Nat) (f : Link → Link) : (s.updLink l f).bb = s.bb := rfl
@[simp] theorem State.updLink_bbseq (s : State) (l : Nat) (f : Link → Link) : (s.updLink l f).bbseq = s.bbseq := rfl
@[simp] theorem State.updLink_host (s : State) (l : Nat) (f : Link → Link) : (s.updLink l f).host = s.host := rfl
@[simp] theorem State.updLink_hostq (s : State) (l : Nat) (f : Link → Link) : (s.updLink l f).hostq = s.hostq := rfl
@[simp] theorem State.updLink_resps (s : State) (l : Nat) (f : Link → Link) : (s.updLink l f).resps = s.resps := rfl
@[simp] theorem State.updLink_digests (s : State) (l : Nat) (f : Link → Link) : (s.updLink l f).digests = s.digests := rfl
@[simp] theorem State.updLink_digestOut (s : State) (l : Nat) (f : Link → Link) : (s.updLink l f).digestOut = s.digestOut := rfl
@[simp] theorem State.updLink_yelIn (s : State) (l : Nat) (f : Link → Link) : (s.updLink l f).yelIn = s.yelIn := rfl
@[simp] theorem State.updLink_yelSent (s : State) (l : Nat) (f : Link → Link) : (s.updLink l f).yelSent = s.yelSent := rfl
@[simp] theorem State.updLink_dieFence (s : State) (l : Nat) (f : Link → Link) : (s.updLink l f).dieFence = s.dieFence := rfl
@[simp] theorem State.updLink_cal (s : State) (l : Nat) (f : Link → Link) : (s.updLink l f).cal = s.cal := rfl
@[simp] theorem State.updLink_inputs (s : State) (l : Nat) (f : Link → Link) : (s.updLink l f).inputs = s.inputs := rfl
@[simp] theorem State.updLink_iss (s : State) (l : Nat) (f : Link → Link) : (s.updLink l f).iss = s.iss := rfl

@[simp] theorem State.at_clk (s : State) (d : Nat) (b : Bool) (e : Instr) : (s.at d b e).clk = s.clk := rfl
@[simp] theorem State.at_free (s : State) (d : Nat) (b : Bool) (e : Instr) : (s.at d b e).free = s.free := rfl
@[simp] theorem State.at_serial (s : State) (d : Nat) (b : Bool) (e : Instr) : (s.at d b e).serial = s.serial := rfl
@[simp] theorem State.at_mem (s : State) (d : Nat) (b : Bool) (e : Instr) : (s.at d b e).mem = s.mem := rfl
@[simp] theorem State.at_bad (s : State) (d : Nat) (b : Bool) (e : Instr) : (s.at d b e).bad = s.bad := rfl
@[simp] theorem State.at_ctxs (s : State) (d : Nat) (b : Bool) (e : Instr) : (s.at d b e).ctxs = s.ctxs := rfl
@[simp] theorem State.at_cores (s : State) (d : Nat) (b : Bool) (e : Instr) : (s.at d b e).cores = s.cores := rfl
@[simp] theorem State.at_bankPtr (s : State) (d : Nat) (b : Bool) (e : Instr) : (s.at d b e).bankPtr = s.bankPtr := rfl
@[simp] theorem State.at_bankq (s : State) (d : Nat) (b : Bool) (e : Instr) : (s.at d b e).bankq = s.bankq := rfl
@[simp] theorem State.at_bankNext (s : State) (d : Nat) (b : Bool) (e : Instr) : (s.at d b e).bankNext = s.bankNext := rfl
@[simp] theorem State.at_bankNow (s : State) (d : Nat) (b : Bool) (e : Instr) : (s.at d b e).bankNow = s.bankNow := rfl
@[simp] theorem State.at_trace (s : State) (d : Nat) (b : Bool) (e : Instr) : (s.at d b e).trace = s.trace := rfl
@[simp] theorem State.at_ctlw (s : State) (d : Nat) (b : Bool) (e : Instr) : (s.at d b e).ctlw = s.ctlw := rfl
@[simp] theorem State.at_replyCache (s : State) (d : Nat) (b : Bool) (e : Instr) : (s.at d b e).replyCache = s.replyCache := rfl
@[simp] theorem State.at_tlb (s : State) (d : Nat) (b : Bool) (e : Instr) : (s.at d b e).tlb = s.tlb := rfl
@[simp] theorem State.at_skb (s : State) (d : Nat) (b : Bool) (e : Instr) : (s.at d b e).skb = s.skb := rfl
@[simp] theorem State.at_reqs (s : State) (d : Nat) (b : Bool) (e : Instr) : (s.at d b e).reqs = s.reqs := rfl
@[simp] theorem State.at_srcSeq (s : State) (d : Nat) (b : Bool) (e : Instr) : (s.at d b e).srcSeq = s.srcSeq := rfl
@[simp] theorem State.at_replies (s : State) (d : Nat) (b : Bool) (e : Instr) : (s.at d b e).replies = s.replies := rfl
@[simp] theorem State.at_waiters (s : State) (d : Nat) (b : Bool) (e : Instr) : (s.at d b e).waiters = s.waiters := rfl
@[simp] theorem State.at_routers (s : State) (d : Nat) (b : Bool) (e : Instr) : (s.at d b e).routers = s.routers := rfl
@[simp] theorem State.at_holders (s : State) (d : Nat) (b : Bool) (e : Instr) : (s.at d b e).holders = s.holders := rfl
@[simp] theorem State.at_links (s : State) (d : Nat) (b : Bool) (e : Instr) : (s.at d b e).links = s.links := rfl
@[simp] theorem State.at_transit (s : State) (d : Nat) (b : Bool) (e : Instr) : (s.at d b e).transit = s.transit := rfl
@[simp] theorem State.at_pats (s : State) (d : Nat) (b : Bool) (e : Instr) : (s.at d b e).pats = s.pats := rfl
@[simp] theorem State.at_nextPid (s : State) (d : Nat) (b : Bool) (e : Instr) : (s.at d b e).nextPid = s.nextPid := rfl
@[simp] theorem State.at_oncePats (s : State) (d : Nat) (b : Bool) (e : Instr) : (s.at d b e).oncePats = s.oncePats := rfl
@[simp] theorem State.at_loads (s : State) (d : Nat) (b : Bool) (e : Instr) : (s.at d b e).loads = s.loads := rfl
@[simp] theorem State.at_reshards (s : State) (d : Nat) (b : Bool) (e : Instr) : (s.at d b e).reshards = s.reshards := rfl
@[simp] theorem State.at_skWait (s : State) (d : Nat) (b : Bool) (e : Instr) : (s.at d b e).skWait = s.skWait := rfl
@[simp] theorem State.at_barMsgs (s : State) (d : Nat) (b : Bool) (e : Instr) : (s.at d b e).barMsgs = s.barMsgs := rfl
@[simp] theorem State.at_barNodes (s : State) (d : Nat) (b : Bool) (e : Instr) : (s.at d b e).barNodes = s.barNodes := rfl
@[simp] theorem State.at_podMsgs (s : State) (d : Nat) (b : Bool) (e : Instr) : (s.at d b e).podMsgs = s.podMsgs := rfl
@[simp] theorem State.at_portOut (s : State) (d : Nat) (b : Bool) (e : Instr) : (s.at d b e).portOut = s.portOut := rfl
@[simp] theorem State.at_leaveReqs (s : State) (d : Nat) (b : Bool) (e : Instr) : (s.at d b e).leaveReqs = s.leaveReqs := rfl
@[simp] theorem State.at_dist (s : State) (d : Nat) (b : Bool) (e : Instr) : (s.at d b e).dist = s.dist := rfl
@[simp] theorem State.at_mgmt (s : State) (d : Nat) (b : Bool) (e : Instr) : (s.at d b e).mgmt = s.mgmt := rfl
@[simp] theorem State.at_bb (s : State) (d : Nat) (b : Bool) (e : Instr) : (s.at d b e).bb = s.bb := rfl
@[simp] theorem State.at_bbseq (s : State) (d : Nat) (b : Bool) (e : Instr) : (s.at d b e).bbseq = s.bbseq := rfl
@[simp] theorem State.at_host (s : State) (d : Nat) (b : Bool) (e : Instr) : (s.at d b e).host = s.host := rfl
@[simp] theorem State.at_hostq (s : State) (d : Nat) (b : Bool) (e : Instr) : (s.at d b e).hostq = s.hostq := rfl
@[simp] theorem State.at_resps (s : State) (d : Nat) (b : Bool) (e : Instr) : (s.at d b e).resps = s.resps := rfl
@[simp] theorem State.at_digests (s : State) (d : Nat) (b : Bool) (e : Instr) : (s.at d b e).digests = s.digests := rfl
@[simp] theorem State.at_digestOut (s : State) (d : Nat) (b : Bool) (e : Instr) : (s.at d b e).digestOut = s.digestOut := rfl
@[simp] theorem State.at_yelIn (s : State) (d : Nat) (b : Bool) (e : Instr) : (s.at d b e).yelIn = s.yelIn := rfl
@[simp] theorem State.at_yelSent (s : State) (d : Nat) (b : Bool) (e : Instr) : (s.at d b e).yelSent = s.yelSent := rfl
@[simp] theorem State.at_dieFence (s : State) (d : Nat) (b : Bool) (e : Instr) : (s.at d b e).dieFence = s.dieFence := rfl
@[simp] theorem State.at_inputs (s : State) (d : Nat) (b : Bool) (e : Instr) : (s.at d b e).inputs = s.inputs := rfl
@[simp] theorem State.at_iss (s : State) (d : Nat) (b : Bool) (e : Instr) : (s.at d b e).iss = s.iss := rfl

@[simp] theorem State.wr_clk (s : State) (pa v n : Nat) : (s.wr pa v n).clk = s.clk := rfl
@[simp] theorem State.wr_free (s : State) (pa v n : Nat) : (s.wr pa v n).free = s.free := rfl
@[simp] theorem State.wr_serial (s : State) (pa v n : Nat) : (s.wr pa v n).serial = s.serial := rfl
@[simp] theorem State.wr_ctxs (s : State) (pa v n : Nat) : (s.wr pa v n).ctxs = s.ctxs := rfl
@[simp] theorem State.wr_cores (s : State) (pa v n : Nat) : (s.wr pa v n).cores = s.cores := rfl
@[simp] theorem State.wr_bankPtr (s : State) (pa v n : Nat) : (s.wr pa v n).bankPtr = s.bankPtr := rfl
@[simp] theorem State.wr_bankq (s : State) (pa v n : Nat) : (s.wr pa v n).bankq = s.bankq := rfl
@[simp] theorem State.wr_bankNext (s : State) (pa v n : Nat) : (s.wr pa v n).bankNext = s.bankNext := rfl
@[simp] theorem State.wr_bankNow (s : State) (pa v n : Nat) : (s.wr pa v n).bankNow = s.bankNow := rfl
@[simp] theorem State.wr_trace (s : State) (pa v n : Nat) : (s.wr pa v n).trace = s.trace := rfl
@[simp] theorem State.wr_ctlw (s : State) (pa v n : Nat) : (s.wr pa v n).ctlw = s.ctlw := rfl
@[simp] theorem State.wr_replyCache (s : State) (pa v n : Nat) : (s.wr pa v n).replyCache = s.replyCache := rfl
@[simp] theorem State.wr_tlb (s : State) (pa v n : Nat) : (s.wr pa v n).tlb = s.tlb := rfl
@[simp] theorem State.wr_skb (s : State) (pa v n : Nat) : (s.wr pa v n).skb = s.skb := rfl
@[simp] theorem State.wr_reqs (s : State) (pa v n : Nat) : (s.wr pa v n).reqs = s.reqs := rfl
@[simp] theorem State.wr_srcSeq (s : State) (pa v n : Nat) : (s.wr pa v n).srcSeq = s.srcSeq := rfl
@[simp] theorem State.wr_replies (s : State) (pa v n : Nat) : (s.wr pa v n).replies = s.replies := rfl
@[simp] theorem State.wr_waiters (s : State) (pa v n : Nat) : (s.wr pa v n).waiters = s.waiters := rfl
@[simp] theorem State.wr_routers (s : State) (pa v n : Nat) : (s.wr pa v n).routers = s.routers := rfl
@[simp] theorem State.wr_holders (s : State) (pa v n : Nat) : (s.wr pa v n).holders = s.holders := rfl
@[simp] theorem State.wr_links (s : State) (pa v n : Nat) : (s.wr pa v n).links = s.links := rfl
@[simp] theorem State.wr_transit (s : State) (pa v n : Nat) : (s.wr pa v n).transit = s.transit := rfl
@[simp] theorem State.wr_pats (s : State) (pa v n : Nat) : (s.wr pa v n).pats = s.pats := rfl
@[simp] theorem State.wr_nextPid (s : State) (pa v n : Nat) : (s.wr pa v n).nextPid = s.nextPid := rfl
@[simp] theorem State.wr_oncePats (s : State) (pa v n : Nat) : (s.wr pa v n).oncePats = s.oncePats := rfl
@[simp] theorem State.wr_loads (s : State) (pa v n : Nat) : (s.wr pa v n).loads = s.loads := rfl
@[simp] theorem State.wr_reshards (s : State) (pa v n : Nat) : (s.wr pa v n).reshards = s.reshards := rfl
@[simp] theorem State.wr_skWait (s : State) (pa v n : Nat) : (s.wr pa v n).skWait = s.skWait := rfl
@[simp] theorem State.wr_barMsgs (s : State) (pa v n : Nat) : (s.wr pa v n).barMsgs = s.barMsgs := rfl
@[simp] theorem State.wr_barNodes (s : State) (pa v n : Nat) : (s.wr pa v n).barNodes = s.barNodes := rfl
@[simp] theorem State.wr_podMsgs (s : State) (pa v n : Nat) : (s.wr pa v n).podMsgs = s.podMsgs := rfl
@[simp] theorem State.wr_portOut (s : State) (pa v n : Nat) : (s.wr pa v n).portOut = s.portOut := rfl
@[simp] theorem State.wr_leaveReqs (s : State) (pa v n : Nat) : (s.wr pa v n).leaveReqs = s.leaveReqs := rfl
@[simp] theorem State.wr_dist (s : State) (pa v n : Nat) : (s.wr pa v n).dist = s.dist := rfl
@[simp] theorem State.wr_mgmt (s : State) (pa v n : Nat) : (s.wr pa v n).mgmt = s.mgmt := rfl
@[simp] theorem State.wr_bb (s : State) (pa v n : Nat) : (s.wr pa v n).bb = s.bb := rfl
@[simp] theorem State.wr_bbseq (s : State) (pa v n : Nat) : (s.wr pa v n).bbseq = s.bbseq := rfl
@[simp] theorem State.wr_host (s : State) (pa v n : Nat) : (s.wr pa v n).host = s.host := rfl
@[simp] theorem State.wr_hostq (s : State) (pa v n : Nat) : (s.wr pa v n).hostq = s.hostq := rfl
@[simp] theorem State.wr_resps (s : State) (pa v n : Nat) : (s.wr pa v n).resps = s.resps := rfl
@[simp] theorem State.wr_digests (s : State) (pa v n : Nat) : (s.wr pa v n).digests = s.digests := rfl
@[simp] theorem State.wr_digestOut (s : State) (pa v n : Nat) : (s.wr pa v n).digestOut = s.digestOut := rfl
@[simp] theorem State.wr_yelIn (s : State) (pa v n : Nat) : (s.wr pa v n).yelIn = s.yelIn := rfl
@[simp] theorem State.wr_yelSent (s : State) (pa v n : Nat) : (s.wr pa v n).yelSent = s.yelSent := rfl
@[simp] theorem State.wr_dieFence (s : State) (pa v n : Nat) : (s.wr pa v n).dieFence = s.dieFence := rfl
@[simp] theorem State.wr_cal (s : State) (pa v n : Nat) : (s.wr pa v n).cal = s.cal := rfl
@[simp] theorem State.wr_inputs (s : State) (pa v n : Nat) : (s.wr pa v n).inputs = s.inputs := rfl
@[simp] theorem State.wr_iss (s : State) (pa v n : Nat) : (s.wr pa v n).iss = s.iss := rfl

@[simp] theorem State.bbAdd_clk (s : State) (k c : Nat) (i : BitVec 32) (w : Nat) (v : Word) : (s.bbAdd k c i w v).clk = s.clk := rfl
@[simp] theorem State.bbAdd_free (s : State) (k c : Nat) (i : BitVec 32) (w : Nat) (v : Word) : (s.bbAdd k c i w v).free = s.free := rfl
@[simp] theorem State.bbAdd_serial (s : State) (k c : Nat) (i : BitVec 32) (w : Nat) (v : Word) : (s.bbAdd k c i w v).serial = s.serial := rfl
@[simp] theorem State.bbAdd_mem (s : State) (k c : Nat) (i : BitVec 32) (w : Nat) (v : Word) : (s.bbAdd k c i w v).mem = s.mem := rfl
@[simp] theorem State.bbAdd_bad (s : State) (k c : Nat) (i : BitVec 32) (w : Nat) (v : Word) : (s.bbAdd k c i w v).bad = s.bad := rfl
@[simp] theorem State.bbAdd_ctxs (s : State) (k c : Nat) (i : BitVec 32) (w : Nat) (v : Word) : (s.bbAdd k c i w v).ctxs = s.ctxs := rfl
@[simp] theorem State.bbAdd_cores (s : State) (k c : Nat) (i : BitVec 32) (w : Nat) (v : Word) : (s.bbAdd k c i w v).cores = s.cores := rfl
@[simp] theorem State.bbAdd_bankPtr (s : State) (k c : Nat) (i : BitVec 32) (w : Nat) (v : Word) : (s.bbAdd k c i w v).bankPtr = s.bankPtr := rfl
@[simp] theorem State.bbAdd_bankq (s : State) (k c : Nat) (i : BitVec 32) (w : Nat) (v : Word) : (s.bbAdd k c i w v).bankq = s.bankq := rfl
@[simp] theorem State.bbAdd_bankNext (s : State) (k c : Nat) (i : BitVec 32) (w : Nat) (v : Word) : (s.bbAdd k c i w v).bankNext = s.bankNext := rfl
@[simp] theorem State.bbAdd_bankNow (s : State) (k c : Nat) (i : BitVec 32) (w : Nat) (v : Word) : (s.bbAdd k c i w v).bankNow = s.bankNow := rfl
@[simp] theorem State.bbAdd_trace (s : State) (k c : Nat) (i : BitVec 32) (w : Nat) (v : Word) : (s.bbAdd k c i w v).trace = s.trace := rfl
@[simp] theorem State.bbAdd_ctlw (s : State) (k c : Nat) (i : BitVec 32) (w : Nat) (v : Word) : (s.bbAdd k c i w v).ctlw = s.ctlw := rfl
@[simp] theorem State.bbAdd_replyCache (s : State) (k c : Nat) (i : BitVec 32) (w : Nat) (v : Word) : (s.bbAdd k c i w v).replyCache = s.replyCache := rfl
@[simp] theorem State.bbAdd_tlb (s : State) (k c : Nat) (i : BitVec 32) (w : Nat) (v : Word) : (s.bbAdd k c i w v).tlb = s.tlb := rfl
@[simp] theorem State.bbAdd_skb (s : State) (k c : Nat) (i : BitVec 32) (w : Nat) (v : Word) : (s.bbAdd k c i w v).skb = s.skb := rfl
@[simp] theorem State.bbAdd_reqs (s : State) (k c : Nat) (i : BitVec 32) (w : Nat) (v : Word) : (s.bbAdd k c i w v).reqs = s.reqs := rfl
@[simp] theorem State.bbAdd_srcSeq (s : State) (k c : Nat) (i : BitVec 32) (w : Nat) (v : Word) : (s.bbAdd k c i w v).srcSeq = s.srcSeq := rfl
@[simp] theorem State.bbAdd_replies (s : State) (k c : Nat) (i : BitVec 32) (w : Nat) (v : Word) : (s.bbAdd k c i w v).replies = s.replies := rfl
@[simp] theorem State.bbAdd_waiters (s : State) (k c : Nat) (i : BitVec 32) (w : Nat) (v : Word) : (s.bbAdd k c i w v).waiters = s.waiters := rfl
@[simp] theorem State.bbAdd_routers (s : State) (k c : Nat) (i : BitVec 32) (w : Nat) (v : Word) : (s.bbAdd k c i w v).routers = s.routers := rfl
@[simp] theorem State.bbAdd_holders (s : State) (k c : Nat) (i : BitVec 32) (w : Nat) (v : Word) : (s.bbAdd k c i w v).holders = s.holders := rfl
@[simp] theorem State.bbAdd_links (s : State) (k c : Nat) (i : BitVec 32) (w : Nat) (v : Word) : (s.bbAdd k c i w v).links = s.links := rfl
@[simp] theorem State.bbAdd_transit (s : State) (k c : Nat) (i : BitVec 32) (w : Nat) (v : Word) : (s.bbAdd k c i w v).transit = s.transit := rfl
@[simp] theorem State.bbAdd_pats (s : State) (k c : Nat) (i : BitVec 32) (w : Nat) (v : Word) : (s.bbAdd k c i w v).pats = s.pats := rfl
@[simp] theorem State.bbAdd_nextPid (s : State) (k c : Nat) (i : BitVec 32) (w : Nat) (v : Word) : (s.bbAdd k c i w v).nextPid = s.nextPid := rfl
@[simp] theorem State.bbAdd_oncePats (s : State) (k c : Nat) (i : BitVec 32) (w : Nat) (v : Word) : (s.bbAdd k c i w v).oncePats = s.oncePats := rfl
@[simp] theorem State.bbAdd_loads (s : State) (k c : Nat) (i : BitVec 32) (w : Nat) (v : Word) : (s.bbAdd k c i w v).loads = s.loads := rfl
@[simp] theorem State.bbAdd_reshards (s : State) (k c : Nat) (i : BitVec 32) (w : Nat) (v : Word) : (s.bbAdd k c i w v).reshards = s.reshards := rfl
@[simp] theorem State.bbAdd_skWait (s : State) (k c : Nat) (i : BitVec 32) (w : Nat) (v : Word) : (s.bbAdd k c i w v).skWait = s.skWait := rfl
@[simp] theorem State.bbAdd_barMsgs (s : State) (k c : Nat) (i : BitVec 32) (w : Nat) (v : Word) : (s.bbAdd k c i w v).barMsgs = s.barMsgs := rfl
@[simp] theorem State.bbAdd_barNodes (s : State) (k c : Nat) (i : BitVec 32) (w : Nat) (v : Word) : (s.bbAdd k c i w v).barNodes = s.barNodes := rfl
@[simp] theorem State.bbAdd_podMsgs (s : State) (k c : Nat) (i : BitVec 32) (w : Nat) (v : Word) : (s.bbAdd k c i w v).podMsgs = s.podMsgs := rfl
@[simp] theorem State.bbAdd_portOut (s : State) (k c : Nat) (i : BitVec 32) (w : Nat) (v : Word) : (s.bbAdd k c i w v).portOut = s.portOut := rfl
@[simp] theorem State.bbAdd_leaveReqs (s : State) (k c : Nat) (i : BitVec 32) (w : Nat) (v : Word) : (s.bbAdd k c i w v).leaveReqs = s.leaveReqs := rfl
@[simp] theorem State.bbAdd_dist (s : State) (k c : Nat) (i : BitVec 32) (w : Nat) (v : Word) : (s.bbAdd k c i w v).dist = s.dist := rfl
@[simp] theorem State.bbAdd_mgmt (s : State) (k c : Nat) (i : BitVec 32) (w : Nat) (v : Word) : (s.bbAdd k c i w v).mgmt = s.mgmt := rfl
@[simp] theorem State.bbAdd_host (s : State) (k c : Nat) (i : BitVec 32) (w : Nat) (v : Word) : (s.bbAdd k c i w v).host = s.host := rfl
@[simp] theorem State.bbAdd_hostq (s : State) (k c : Nat) (i : BitVec 32) (w : Nat) (v : Word) : (s.bbAdd k c i w v).hostq = s.hostq := rfl
@[simp] theorem State.bbAdd_resps (s : State) (k c : Nat) (i : BitVec 32) (w : Nat) (v : Word) : (s.bbAdd k c i w v).resps = s.resps := rfl
@[simp] theorem State.bbAdd_digests (s : State) (k c : Nat) (i : BitVec 32) (w : Nat) (v : Word) : (s.bbAdd k c i w v).digests = s.digests := rfl
@[simp] theorem State.bbAdd_digestOut (s : State) (k c : Nat) (i : BitVec 32) (w : Nat) (v : Word) : (s.bbAdd k c i w v).digestOut = s.digestOut := rfl
@[simp] theorem State.bbAdd_yelIn (s : State) (k c : Nat) (i : BitVec 32) (w : Nat) (v : Word) : (s.bbAdd k c i w v).yelIn = s.yelIn := rfl
@[simp] theorem State.bbAdd_yelSent (s : State) (k c : Nat) (i : BitVec 32) (w : Nat) (v : Word) : (s.bbAdd k c i w v).yelSent = s.yelSent := rfl
@[simp] theorem State.bbAdd_dieFence (s : State) (k c : Nat) (i : BitVec 32) (w : Nat) (v : Word) : (s.bbAdd k c i w v).dieFence = s.dieFence := rfl
@[simp] theorem State.bbAdd_cal (s : State) (k c : Nat) (i : BitVec 32) (w : Nat) (v : Word) : (s.bbAdd k c i w v).cal = s.cal := rfl
@[simp] theorem State.bbAdd_inputs (s : State) (k c : Nat) (i : BitVec 32) (w : Nat) (v : Word) : (s.bbAdd k c i w v).inputs = s.inputs := rfl
@[simp] theorem State.bbAdd_iss (s : State) (k c : Nat) (i : BitVec 32) (w : Nat) (v : Word) : (s.bbAdd k c i w v).iss = s.iss := rfl

@[simp] theorem charge_clk (s : State) (w : Nat) : (charge s w).clk = s.clk := rfl
@[simp] theorem charge_free (s : State) (w : Nat) : (charge s w).free = s.free := rfl
@[simp] theorem charge_serial (s : State) (w : Nat) : (charge s w).serial = s.serial := rfl
@[simp] theorem charge_mem (s : State) (w : Nat) : (charge s w).mem = s.mem := rfl
@[simp] theorem charge_bad (s : State) (w : Nat) : (charge s w).bad = s.bad := rfl
@[simp] theorem charge_ctxs (s : State) (w : Nat) : (charge s w).ctxs = s.ctxs := rfl
@[simp] theorem charge_bankPtr (s : State) (w : Nat) : (charge s w).bankPtr = s.bankPtr := rfl
@[simp] theorem charge_bankq (s : State) (w : Nat) : (charge s w).bankq = s.bankq := rfl
@[simp] theorem charge_bankNext (s : State) (w : Nat) : (charge s w).bankNext = s.bankNext := rfl
@[simp] theorem charge_bankNow (s : State) (w : Nat) : (charge s w).bankNow = s.bankNow := rfl
@[simp] theorem charge_trace (s : State) (w : Nat) : (charge s w).trace = s.trace := rfl
@[simp] theorem charge_ctlw (s : State) (w : Nat) : (charge s w).ctlw = s.ctlw := rfl
@[simp] theorem charge_replyCache (s : State) (w : Nat) : (charge s w).replyCache = s.replyCache := rfl
@[simp] theorem charge_tlb (s : State) (w : Nat) : (charge s w).tlb = s.tlb := rfl
@[simp] theorem charge_skb (s : State) (w : Nat) : (charge s w).skb = s.skb := rfl
@[simp] theorem charge_reqs (s : State) (w : Nat) : (charge s w).reqs = s.reqs := rfl
@[simp] theorem charge_srcSeq (s : State) (w : Nat) : (charge s w).srcSeq = s.srcSeq := rfl
@[simp] theorem charge_replies (s : State) (w : Nat) : (charge s w).replies = s.replies := rfl
@[simp] theorem charge_waiters (s : State) (w : Nat) : (charge s w).waiters = s.waiters := rfl
@[simp] theorem charge_routers (s : State) (w : Nat) : (charge s w).routers = s.routers := rfl
@[simp] theorem charge_holders (s : State) (w : Nat) : (charge s w).holders = s.holders := rfl
@[simp] theorem charge_links (s : State) (w : Nat) : (charge s w).links = s.links := rfl
@[simp] theorem charge_transit (s : State) (w : Nat) : (charge s w).transit = s.transit := rfl
@[simp] theorem charge_pats (s : State) (w : Nat) : (charge s w).pats = s.pats := rfl
@[simp] theorem charge_nextPid (s : State) (w : Nat) : (charge s w).nextPid = s.nextPid := rfl
@[simp] theorem charge_oncePats (s : State) (w : Nat) : (charge s w).oncePats = s.oncePats := rfl
@[simp] theorem charge_loads (s : State) (w : Nat) : (charge s w).loads = s.loads := rfl
@[simp] theorem charge_reshards (s : State) (w : Nat) : (charge s w).reshards = s.reshards := rfl
@[simp] theorem charge_skWait (s : State) (w : Nat) : (charge s w).skWait = s.skWait := rfl
@[simp] theorem charge_barMsgs (s : State) (w : Nat) : (charge s w).barMsgs = s.barMsgs := rfl
@[simp] theorem charge_barNodes (s : State) (w : Nat) : (charge s w).barNodes = s.barNodes := rfl
@[simp] theorem charge_podMsgs (s : State) (w : Nat) : (charge s w).podMsgs = s.podMsgs := rfl
@[simp] theorem charge_portOut (s : State) (w : Nat) : (charge s w).portOut = s.portOut := rfl
@[simp] theorem charge_leaveReqs (s : State) (w : Nat) : (charge s w).leaveReqs = s.leaveReqs := rfl
@[simp] theorem charge_dist (s : State) (w : Nat) : (charge s w).dist = s.dist := rfl
@[simp] theorem charge_mgmt (s : State) (w : Nat) : (charge s w).mgmt = s.mgmt := rfl
@[simp] theorem charge_bb (s : State) (w : Nat) : (charge s w).bb = s.bb := rfl
@[simp] theorem charge_bbseq (s : State) (w : Nat) : (charge s w).bbseq = s.bbseq := rfl
@[simp] theorem charge_host (s : State) (w : Nat) : (charge s w).host = s.host := rfl
@[simp] theorem charge_hostq (s : State) (w : Nat) : (charge s w).hostq = s.hostq := rfl
@[simp] theorem charge_resps (s : State) (w : Nat) : (charge s w).resps = s.resps := rfl
@[simp] theorem charge_digests (s : State) (w : Nat) : (charge s w).digests = s.digests := rfl
@[simp] theorem charge_digestOut (s : State) (w : Nat) : (charge s w).digestOut = s.digestOut := rfl
@[simp] theorem charge_yelIn (s : State) (w : Nat) : (charge s w).yelIn = s.yelIn := rfl
@[simp] theorem charge_yelSent (s : State) (w : Nat) : (charge s w).yelSent = s.yelSent := rfl
@[simp] theorem charge_dieFence (s : State) (w : Nat) : (charge s w).dieFence = s.dieFence := rfl
@[simp] theorem charge_cal (s : State) (w : Nat) : (charge s w).cal = s.cal := rfl
@[simp] theorem charge_inputs (s : State) (w : Nat) : (charge s w).inputs = s.inputs := rfl

/-! ## Updates of a context -/

@[simp] theorem Ctx.updCtl_st (c : Ctx) (f : Ctl → Ctl) : (c.updCtl f).st = c.st := rfl
@[simp] theorem Ctx.updCtl_pc (c : Ctx) (f : Ctl → Ctl) : (c.updCtl f).pc = c.pc := rfl
@[simp] theorem Ctx.updCtl_npc (c : Ctx) (f : Ctl → Ctl) : (c.updCtl f).npc = c.npc := rfl
@[simp] theorem Ctx.updCtl_regs (c : Ctx) (f : Ctl → Ctl) : (c.updCtl f).regs = c.regs := rfl
@[simp] theorem Ctx.updCtl_oq (c : Ctx) (f : Ctl → Ctl) : (c.updCtl f).oq = c.oq := rfl
@[simp] theorem Ctx.updCtl_ports (c : Ctx) (f : Ctl → Ctl) : (c.updCtl f).ports = c.ports := rfl
@[simp] theorem Ctx.updCtl_portSk (c : Ctx) (f : Ctl → Ctl) : (c.updCtl f).portSk = c.portSk := rfl
@[simp] theorem Ctx.updCtl_inf (c : Ctx) (f : Ctl → Ctl) : (c.updCtl f).inf = c.inf := rfl
@[simp] theorem Ctx.updCtl_accs (c : Ctx) (f : Ctl → Ctl) : (c.updCtl f).accs = c.accs := rfl
@[simp] theorem Ctx.updCtl_lats (c : Ctx) (f : Ctl → Ctl) : (c.updCtl f).lats = c.lats := rfl
@[simp] theorem Ctx.updCtl_latSeq (c : Ctx) (f : Ctl → Ctl) : (c.updCtl f).latSeq = c.latSeq := rfl
@[simp] theorem Ctx.updCtl_toks (c : Ctx) (f : Ctl → Ctl) : (c.updCtl f).toks = c.toks := rfl
@[simp] theorem Ctx.updCtl_creqs (c : Ctx) (f : Ctl → Ctl) : (c.updCtl f).creqs = c.creqs := rfl
@[simp] theorem Ctx.updCtl_reports (c : Ctx) (f : Ctl → Ctl) : (c.updCtl f).reports = c.reports := rfl
@[simp] theorem Ctx.updCtl_wait (c : Ctx) (f : Ctl → Ctl) : (c.updCtl f).wait = c.wait := rfl
@[simp] theorem Ctx.updCtl_cbs (c : Ctx) (f : Ctl → Ctl) : (c.updCtl f).cbs = c.cbs := rfl
@[simp] theorem Ctx.updCtl_sks (c : Ctx) (f : Ctl → Ctl) : (c.updCtl f).sks = c.sks := rfl
@[simp] theorem Ctx.updCtl_queues (c : Ctx) (f : Ctl → Ctl) : (c.updCtl f).queues = c.queues := rfl
@[simp] theorem Ctx.updCtl_side (c : Ctx) (f : Ctl → Ctl) : (c.updCtl f).side = c.side := rfl
@[simp] theorem Ctx.updCtl_baste (c : Ctx) (f : Ctl → Ctl) : (c.updCtl f).baste = c.baste := rfl
@[simp] theorem Ctx.updCtl_hdep (c : Ctx) (f : Ctl → Ctl) : (c.updCtl f).hdep = c.hdep := rfl
@[simp] theorem Ctx.updCtl_frame (c : Ctx) (f : Ctl → Ctl) : (c.updCtl f).frame = c.frame := rfl
@[simp] theorem Ctx.updCtl_replay (c : Ctx) (f : Ctl → Ctl) : (c.updCtl f).replay = c.replay := rfl
@[simp] theorem Ctx.updCtl_delivered (c : Ctx) (f : Ctl → Ctl) : (c.updCtl f).delivered = c.delivered := rfl
@[simp] theorem Ctx.updCtl_qfence (c : Ctx) (f : Ctl → Ctl) : (c.updCtl f).qfence = c.qfence := rfl
@[simp] theorem Ctx.updCtl_fenced (c : Ctx) (f : Ctl → Ctl) : (c.updCtl f).fenced = c.fenced := rfl
@[simp] theorem Ctx.updCtl_blocked (c : Ctx) (f : Ctl → Ctl) : (c.updCtl f).blocked = c.blocked := rfl
@[simp] theorem Ctx.updCtl_readySince (c : Ctx) (f : Ctl → Ctl) : (c.updCtl f).readySince = c.readySince := rfl
@[simp] theorem Ctx.updCtl_stopDist (c : Ctx) (f : Ctl → Ctl) : (c.updCtl f).stopDist = c.stopDist := rfl
@[simp] theorem Ctx.updCtl_quiet (c : Ctx) (f : Ctl → Ctl) : (c.updCtl f).quiet = c.quiet := rfl
@[simp] theorem Ctx.updCtl_rfe (c : Ctx) (f : Ctl → Ctl) : (c.updCtl f).rfe = c.rfe := rfl
@[simp] theorem Ctx.updCtl_recPriv (c : Ctx) (f : Ctl → Ctl) : (c.updCtl f).recPriv = c.recPriv := rfl
@[simp] theorem Ctx.updCtl_bmask (c : Ctx) (f : Ctl → Ctl) : (c.updCtl f).bmask = c.bmask := rfl
@[simp] theorem Ctx.updCtl_quads (c : Ctx) (f : Ctl → Ctl) : (c.updCtl f).quads = c.quads := rfl
@[simp] theorem Ctx.updCtl_bases (c : Ctx) (f : Ctl → Ctl) : (c.updCtl f).bases = c.bases := rfl
@[simp] theorem Ctx.updCtl_recent (c : Ctx) (f : Ctl → Ctl) : (c.updCtl f).recent = c.recent := rfl
@[simp] theorem Ctx.updCtl_walk (c : Ctx) (f : Ctl → Ctl) : (c.updCtl f).walk = c.walk := rfl
@[simp] theorem Ctx.updCtl_walks (c : Ctx) (f : Ctl → Ctl) : (c.updCtl f).walks = c.walks := rfl
@[simp] theorem Ctx.updCtl_skip (c : Ctx) (f : Ctl → Ctl) : (c.updCtl f).skip = c.skip := rfl
@[simp] theorem Ctx.updCtl_xwalk (c : Ctx) (f : Ctl → Ctl) : (c.updCtl f).xwalk = c.xwalk := rfl
@[simp] theorem Ctx.updCtl_parked (c : Ctx) (f : Ctl → Ctl) : (c.updCtl f).parked = c.parked := rfl
@[simp] theorem Ctx.updCtl_doomed (c : Ctx) (f : Ctl → Ctl) : (c.updCtl f).doomed = c.doomed := rfl
@[simp] theorem Ctx.updCtl_kept (c : Ctx) (f : Ctl → Ctl) : (c.updCtl f).kept = c.kept := rfl

@[simp] theorem Ctx.updInf_st (c : Ctx) (f : Inflight → Inflight) : (c.updInf f).st = c.st := rfl
@[simp] theorem Ctx.updInf_pc (c : Ctx) (f : Inflight → Inflight) : (c.updInf f).pc = c.pc := rfl
@[simp] theorem Ctx.updInf_npc (c : Ctx) (f : Inflight → Inflight) : (c.updInf f).npc = c.npc := rfl
@[simp] theorem Ctx.updInf_regs (c : Ctx) (f : Inflight → Inflight) : (c.updInf f).regs = c.regs := rfl
@[simp] theorem Ctx.updInf_ctl (c : Ctx) (f : Inflight → Inflight) : (c.updInf f).ctl = c.ctl := rfl
@[simp] theorem Ctx.updInf_oq (c : Ctx) (f : Inflight → Inflight) : (c.updInf f).oq = c.oq := rfl
@[simp] theorem Ctx.updInf_ports (c : Ctx) (f : Inflight → Inflight) : (c.updInf f).ports = c.ports := rfl
@[simp] theorem Ctx.updInf_portSk (c : Ctx) (f : Inflight → Inflight) : (c.updInf f).portSk = c.portSk := rfl
@[simp] theorem Ctx.updInf_accs (c : Ctx) (f : Inflight → Inflight) : (c.updInf f).accs = c.accs := rfl
@[simp] theorem Ctx.updInf_lats (c : Ctx) (f : Inflight → Inflight) : (c.updInf f).lats = c.lats := rfl
@[simp] theorem Ctx.updInf_latSeq (c : Ctx) (f : Inflight → Inflight) : (c.updInf f).latSeq = c.latSeq := rfl
@[simp] theorem Ctx.updInf_toks (c : Ctx) (f : Inflight → Inflight) : (c.updInf f).toks = c.toks := rfl
@[simp] theorem Ctx.updInf_creqs (c : Ctx) (f : Inflight → Inflight) : (c.updInf f).creqs = c.creqs := rfl
@[simp] theorem Ctx.updInf_reports (c : Ctx) (f : Inflight → Inflight) : (c.updInf f).reports = c.reports := rfl
@[simp] theorem Ctx.updInf_wait (c : Ctx) (f : Inflight → Inflight) : (c.updInf f).wait = c.wait := rfl
@[simp] theorem Ctx.updInf_cbs (c : Ctx) (f : Inflight → Inflight) : (c.updInf f).cbs = c.cbs := rfl
@[simp] theorem Ctx.updInf_sks (c : Ctx) (f : Inflight → Inflight) : (c.updInf f).sks = c.sks := rfl
@[simp] theorem Ctx.updInf_queues (c : Ctx) (f : Inflight → Inflight) : (c.updInf f).queues = c.queues := rfl
@[simp] theorem Ctx.updInf_side (c : Ctx) (f : Inflight → Inflight) : (c.updInf f).side = c.side := rfl
@[simp] theorem Ctx.updInf_baste (c : Ctx) (f : Inflight → Inflight) : (c.updInf f).baste = c.baste := rfl
@[simp] theorem Ctx.updInf_hdep (c : Ctx) (f : Inflight → Inflight) : (c.updInf f).hdep = c.hdep := rfl
@[simp] theorem Ctx.updInf_frame (c : Ctx) (f : Inflight → Inflight) : (c.updInf f).frame = c.frame := rfl
@[simp] theorem Ctx.updInf_replay (c : Ctx) (f : Inflight → Inflight) : (c.updInf f).replay = c.replay := rfl
@[simp] theorem Ctx.updInf_delivered (c : Ctx) (f : Inflight → Inflight) : (c.updInf f).delivered = c.delivered := rfl
@[simp] theorem Ctx.updInf_qfence (c : Ctx) (f : Inflight → Inflight) : (c.updInf f).qfence = c.qfence := rfl
@[simp] theorem Ctx.updInf_fenced (c : Ctx) (f : Inflight → Inflight) : (c.updInf f).fenced = c.fenced := rfl
@[simp] theorem Ctx.updInf_blocked (c : Ctx) (f : Inflight → Inflight) : (c.updInf f).blocked = c.blocked := rfl
@[simp] theorem Ctx.updInf_readySince (c : Ctx) (f : Inflight → Inflight) : (c.updInf f).readySince = c.readySince := rfl
@[simp] theorem Ctx.updInf_stopDist (c : Ctx) (f : Inflight → Inflight) : (c.updInf f).stopDist = c.stopDist := rfl
@[simp] theorem Ctx.updInf_quiet (c : Ctx) (f : Inflight → Inflight) : (c.updInf f).quiet = c.quiet := rfl
@[simp] theorem Ctx.updInf_rfe (c : Ctx) (f : Inflight → Inflight) : (c.updInf f).rfe = c.rfe := rfl
@[simp] theorem Ctx.updInf_recPriv (c : Ctx) (f : Inflight → Inflight) : (c.updInf f).recPriv = c.recPriv := rfl
@[simp] theorem Ctx.updInf_bmask (c : Ctx) (f : Inflight → Inflight) : (c.updInf f).bmask = c.bmask := rfl
@[simp] theorem Ctx.updInf_quads (c : Ctx) (f : Inflight → Inflight) : (c.updInf f).quads = c.quads := rfl
@[simp] theorem Ctx.updInf_bases (c : Ctx) (f : Inflight → Inflight) : (c.updInf f).bases = c.bases := rfl
@[simp] theorem Ctx.updInf_recent (c : Ctx) (f : Inflight → Inflight) : (c.updInf f).recent = c.recent := rfl
@[simp] theorem Ctx.updInf_walk (c : Ctx) (f : Inflight → Inflight) : (c.updInf f).walk = c.walk := rfl
@[simp] theorem Ctx.updInf_walks (c : Ctx) (f : Inflight → Inflight) : (c.updInf f).walks = c.walks := rfl
@[simp] theorem Ctx.updInf_skip (c : Ctx) (f : Inflight → Inflight) : (c.updInf f).skip = c.skip := rfl
@[simp] theorem Ctx.updInf_xwalk (c : Ctx) (f : Inflight → Inflight) : (c.updInf f).xwalk = c.xwalk := rfl
@[simp] theorem Ctx.updInf_parked (c : Ctx) (f : Inflight → Inflight) : (c.updInf f).parked = c.parked := rfl
@[simp] theorem Ctx.updInf_doomed (c : Ctx) (f : Inflight → Inflight) : (c.updInf f).doomed = c.doomed := rfl
@[simp] theorem Ctx.updInf_kept (c : Ctx) (f : Inflight → Inflight) : (c.updInf f).kept = c.kept := rfl

@[simp] theorem Ctx.updRegs_st (c : Ctx) (f : Regs → Regs) : (c.updRegs f).st = c.st := rfl
@[simp] theorem Ctx.updRegs_pc (c : Ctx) (f : Regs → Regs) : (c.updRegs f).pc = c.pc := rfl
@[simp] theorem Ctx.updRegs_npc (c : Ctx) (f : Regs → Regs) : (c.updRegs f).npc = c.npc := rfl
@[simp] theorem Ctx.updRegs_ctl (c : Ctx) (f : Regs → Regs) : (c.updRegs f).ctl = c.ctl := rfl
@[simp] theorem Ctx.updRegs_oq (c : Ctx) (f : Regs → Regs) : (c.updRegs f).oq = c.oq := rfl
@[simp] theorem Ctx.updRegs_ports (c : Ctx) (f : Regs → Regs) : (c.updRegs f).ports = c.ports := rfl
@[simp] theorem Ctx.updRegs_portSk (c : Ctx) (f : Regs → Regs) : (c.updRegs f).portSk = c.portSk := rfl
@[simp] theorem Ctx.updRegs_inf (c : Ctx) (f : Regs → Regs) : (c.updRegs f).inf = c.inf := rfl
@[simp] theorem Ctx.updRegs_accs (c : Ctx) (f : Regs → Regs) : (c.updRegs f).accs = c.accs := rfl
@[simp] theorem Ctx.updRegs_lats (c : Ctx) (f : Regs → Regs) : (c.updRegs f).lats = c.lats := rfl
@[simp] theorem Ctx.updRegs_latSeq (c : Ctx) (f : Regs → Regs) : (c.updRegs f).latSeq = c.latSeq := rfl
@[simp] theorem Ctx.updRegs_toks (c : Ctx) (f : Regs → Regs) : (c.updRegs f).toks = c.toks := rfl
@[simp] theorem Ctx.updRegs_creqs (c : Ctx) (f : Regs → Regs) : (c.updRegs f).creqs = c.creqs := rfl
@[simp] theorem Ctx.updRegs_reports (c : Ctx) (f : Regs → Regs) : (c.updRegs f).reports = c.reports := rfl
@[simp] theorem Ctx.updRegs_wait (c : Ctx) (f : Regs → Regs) : (c.updRegs f).wait = c.wait := rfl
@[simp] theorem Ctx.updRegs_cbs (c : Ctx) (f : Regs → Regs) : (c.updRegs f).cbs = c.cbs := rfl
@[simp] theorem Ctx.updRegs_sks (c : Ctx) (f : Regs → Regs) : (c.updRegs f).sks = c.sks := rfl
@[simp] theorem Ctx.updRegs_queues (c : Ctx) (f : Regs → Regs) : (c.updRegs f).queues = c.queues := rfl
@[simp] theorem Ctx.updRegs_side (c : Ctx) (f : Regs → Regs) : (c.updRegs f).side = c.side := rfl
@[simp] theorem Ctx.updRegs_baste (c : Ctx) (f : Regs → Regs) : (c.updRegs f).baste = c.baste := rfl
@[simp] theorem Ctx.updRegs_hdep (c : Ctx) (f : Regs → Regs) : (c.updRegs f).hdep = c.hdep := rfl
@[simp] theorem Ctx.updRegs_frame (c : Ctx) (f : Regs → Regs) : (c.updRegs f).frame = c.frame := rfl
@[simp] theorem Ctx.updRegs_replay (c : Ctx) (f : Regs → Regs) : (c.updRegs f).replay = c.replay := rfl
@[simp] theorem Ctx.updRegs_delivered (c : Ctx) (f : Regs → Regs) : (c.updRegs f).delivered = c.delivered := rfl
@[simp] theorem Ctx.updRegs_qfence (c : Ctx) (f : Regs → Regs) : (c.updRegs f).qfence = c.qfence := rfl
@[simp] theorem Ctx.updRegs_fenced (c : Ctx) (f : Regs → Regs) : (c.updRegs f).fenced = c.fenced := rfl
@[simp] theorem Ctx.updRegs_blocked (c : Ctx) (f : Regs → Regs) : (c.updRegs f).blocked = c.blocked := rfl
@[simp] theorem Ctx.updRegs_readySince (c : Ctx) (f : Regs → Regs) : (c.updRegs f).readySince = c.readySince := rfl
@[simp] theorem Ctx.updRegs_stopDist (c : Ctx) (f : Regs → Regs) : (c.updRegs f).stopDist = c.stopDist := rfl
@[simp] theorem Ctx.updRegs_quiet (c : Ctx) (f : Regs → Regs) : (c.updRegs f).quiet = c.quiet := rfl
@[simp] theorem Ctx.updRegs_rfe (c : Ctx) (f : Regs → Regs) : (c.updRegs f).rfe = c.rfe := rfl
@[simp] theorem Ctx.updRegs_recPriv (c : Ctx) (f : Regs → Regs) : (c.updRegs f).recPriv = c.recPriv := rfl
@[simp] theorem Ctx.updRegs_bmask (c : Ctx) (f : Regs → Regs) : (c.updRegs f).bmask = c.bmask := rfl
@[simp] theorem Ctx.updRegs_quads (c : Ctx) (f : Regs → Regs) : (c.updRegs f).quads = c.quads := rfl
@[simp] theorem Ctx.updRegs_bases (c : Ctx) (f : Regs → Regs) : (c.updRegs f).bases = c.bases := rfl
@[simp] theorem Ctx.updRegs_recent (c : Ctx) (f : Regs → Regs) : (c.updRegs f).recent = c.recent := rfl
@[simp] theorem Ctx.updRegs_walk (c : Ctx) (f : Regs → Regs) : (c.updRegs f).walk = c.walk := rfl
@[simp] theorem Ctx.updRegs_walks (c : Ctx) (f : Regs → Regs) : (c.updRegs f).walks = c.walks := rfl
@[simp] theorem Ctx.updRegs_skip (c : Ctx) (f : Regs → Regs) : (c.updRegs f).skip = c.skip := rfl
@[simp] theorem Ctx.updRegs_xwalk (c : Ctx) (f : Regs → Regs) : (c.updRegs f).xwalk = c.xwalk := rfl
@[simp] theorem Ctx.updRegs_parked (c : Ctx) (f : Regs → Regs) : (c.updRegs f).parked = c.parked := rfl
@[simp] theorem Ctx.updRegs_doomed (c : Ctx) (f : Regs → Regs) : (c.updRegs f).doomed = c.doomed := rfl
@[simp] theorem Ctx.updRegs_kept (c : Ctx) (f : Regs → Regs) : (c.updRegs f).kept = c.kept := rfl

@[simp] theorem Ctx.updBaste_st (c : Ctx) (f : Baste → Baste) : (c.updBaste f).st = c.st := rfl
@[simp] theorem Ctx.updBaste_pc (c : Ctx) (f : Baste → Baste) : (c.updBaste f).pc = c.pc := rfl
@[simp] theorem Ctx.updBaste_npc (c : Ctx) (f : Baste → Baste) : (c.updBaste f).npc = c.npc := rfl
@[simp] theorem Ctx.updBaste_regs (c : Ctx) (f : Baste → Baste) : (c.updBaste f).regs = c.regs := rfl
@[simp] theorem Ctx.updBaste_ctl (c : Ctx) (f : Baste → Baste) : (c.updBaste f).ctl = c.ctl := rfl
@[simp] theorem Ctx.updBaste_oq (c : Ctx) (f : Baste → Baste) : (c.updBaste f).oq = c.oq := rfl
@[simp] theorem Ctx.updBaste_ports (c : Ctx) (f : Baste → Baste) : (c.updBaste f).ports = c.ports := rfl
@[simp] theorem Ctx.updBaste_portSk (c : Ctx) (f : Baste → Baste) : (c.updBaste f).portSk = c.portSk := rfl
@[simp] theorem Ctx.updBaste_inf (c : Ctx) (f : Baste → Baste) : (c.updBaste f).inf = c.inf := rfl
@[simp] theorem Ctx.updBaste_accs (c : Ctx) (f : Baste → Baste) : (c.updBaste f).accs = c.accs := rfl
@[simp] theorem Ctx.updBaste_lats (c : Ctx) (f : Baste → Baste) : (c.updBaste f).lats = c.lats := rfl
@[simp] theorem Ctx.updBaste_latSeq (c : Ctx) (f : Baste → Baste) : (c.updBaste f).latSeq = c.latSeq := rfl
@[simp] theorem Ctx.updBaste_toks (c : Ctx) (f : Baste → Baste) : (c.updBaste f).toks = c.toks := rfl
@[simp] theorem Ctx.updBaste_creqs (c : Ctx) (f : Baste → Baste) : (c.updBaste f).creqs = c.creqs := rfl
@[simp] theorem Ctx.updBaste_reports (c : Ctx) (f : Baste → Baste) : (c.updBaste f).reports = c.reports := rfl
@[simp] theorem Ctx.updBaste_wait (c : Ctx) (f : Baste → Baste) : (c.updBaste f).wait = c.wait := rfl
@[simp] theorem Ctx.updBaste_cbs (c : Ctx) (f : Baste → Baste) : (c.updBaste f).cbs = c.cbs := rfl
@[simp] theorem Ctx.updBaste_sks (c : Ctx) (f : Baste → Baste) : (c.updBaste f).sks = c.sks := rfl
@[simp] theorem Ctx.updBaste_queues (c : Ctx) (f : Baste → Baste) : (c.updBaste f).queues = c.queues := rfl
@[simp] theorem Ctx.updBaste_side (c : Ctx) (f : Baste → Baste) : (c.updBaste f).side = c.side := rfl
@[simp] theorem Ctx.updBaste_hdep (c : Ctx) (f : Baste → Baste) : (c.updBaste f).hdep = c.hdep := rfl
@[simp] theorem Ctx.updBaste_frame (c : Ctx) (f : Baste → Baste) : (c.updBaste f).frame = c.frame := rfl
@[simp] theorem Ctx.updBaste_replay (c : Ctx) (f : Baste → Baste) : (c.updBaste f).replay = c.replay := rfl
@[simp] theorem Ctx.updBaste_delivered (c : Ctx) (f : Baste → Baste) : (c.updBaste f).delivered = c.delivered := rfl
@[simp] theorem Ctx.updBaste_qfence (c : Ctx) (f : Baste → Baste) : (c.updBaste f).qfence = c.qfence := rfl
@[simp] theorem Ctx.updBaste_fenced (c : Ctx) (f : Baste → Baste) : (c.updBaste f).fenced = c.fenced := rfl
@[simp] theorem Ctx.updBaste_blocked (c : Ctx) (f : Baste → Baste) : (c.updBaste f).blocked = c.blocked := rfl
@[simp] theorem Ctx.updBaste_readySince (c : Ctx) (f : Baste → Baste) : (c.updBaste f).readySince = c.readySince := rfl
@[simp] theorem Ctx.updBaste_stopDist (c : Ctx) (f : Baste → Baste) : (c.updBaste f).stopDist = c.stopDist := rfl
@[simp] theorem Ctx.updBaste_quiet (c : Ctx) (f : Baste → Baste) : (c.updBaste f).quiet = c.quiet := rfl
@[simp] theorem Ctx.updBaste_rfe (c : Ctx) (f : Baste → Baste) : (c.updBaste f).rfe = c.rfe := rfl
@[simp] theorem Ctx.updBaste_recPriv (c : Ctx) (f : Baste → Baste) : (c.updBaste f).recPriv = c.recPriv := rfl
@[simp] theorem Ctx.updBaste_bmask (c : Ctx) (f : Baste → Baste) : (c.updBaste f).bmask = c.bmask := rfl
@[simp] theorem Ctx.updBaste_quads (c : Ctx) (f : Baste → Baste) : (c.updBaste f).quads = c.quads := rfl
@[simp] theorem Ctx.updBaste_bases (c : Ctx) (f : Baste → Baste) : (c.updBaste f).bases = c.bases := rfl
@[simp] theorem Ctx.updBaste_recent (c : Ctx) (f : Baste → Baste) : (c.updBaste f).recent = c.recent := rfl
@[simp] theorem Ctx.updBaste_walk (c : Ctx) (f : Baste → Baste) : (c.updBaste f).walk = c.walk := rfl
@[simp] theorem Ctx.updBaste_walks (c : Ctx) (f : Baste → Baste) : (c.updBaste f).walks = c.walks := rfl
@[simp] theorem Ctx.updBaste_skip (c : Ctx) (f : Baste → Baste) : (c.updBaste f).skip = c.skip := rfl
@[simp] theorem Ctx.updBaste_xwalk (c : Ctx) (f : Baste → Baste) : (c.updBaste f).xwalk = c.xwalk := rfl
@[simp] theorem Ctx.updBaste_parked (c : Ctx) (f : Baste → Baste) : (c.updBaste f).parked = c.parked := rfl
@[simp] theorem Ctx.updBaste_doomed (c : Ctx) (f : Baste → Baste) : (c.updBaste f).doomed = c.doomed := rfl
@[simp] theorem Ctx.updBaste_kept (c : Ctx) (f : Baste → Baste) : (c.updBaste f).kept = c.kept := rfl

@[simp] theorem Ctx.setTok_st (c : Ctx) (n : Nat) (t : Token) : (c.setTok n t).st = c.st := rfl
@[simp] theorem Ctx.setTok_pc (c : Ctx) (n : Nat) (t : Token) : (c.setTok n t).pc = c.pc := rfl
@[simp] theorem Ctx.setTok_npc (c : Ctx) (n : Nat) (t : Token) : (c.setTok n t).npc = c.npc := rfl
@[simp] theorem Ctx.setTok_regs (c : Ctx) (n : Nat) (t : Token) : (c.setTok n t).regs = c.regs := rfl
@[simp] theorem Ctx.setTok_ctl (c : Ctx) (n : Nat) (t : Token) : (c.setTok n t).ctl = c.ctl := rfl
@[simp] theorem Ctx.setTok_oq (c : Ctx) (n : Nat) (t : Token) : (c.setTok n t).oq = c.oq := rfl
@[simp] theorem Ctx.setTok_ports (c : Ctx) (n : Nat) (t : Token) : (c.setTok n t).ports = c.ports := rfl
@[simp] theorem Ctx.setTok_portSk (c : Ctx) (n : Nat) (t : Token) : (c.setTok n t).portSk = c.portSk := rfl
@[simp] theorem Ctx.setTok_inf (c : Ctx) (n : Nat) (t : Token) : (c.setTok n t).inf = c.inf := rfl
@[simp] theorem Ctx.setTok_accs (c : Ctx) (n : Nat) (t : Token) : (c.setTok n t).accs = c.accs := rfl
@[simp] theorem Ctx.setTok_lats (c : Ctx) (n : Nat) (t : Token) : (c.setTok n t).lats = c.lats := rfl
@[simp] theorem Ctx.setTok_latSeq (c : Ctx) (n : Nat) (t : Token) : (c.setTok n t).latSeq = c.latSeq := rfl
@[simp] theorem Ctx.setTok_creqs (c : Ctx) (n : Nat) (t : Token) : (c.setTok n t).creqs = c.creqs := rfl
@[simp] theorem Ctx.setTok_reports (c : Ctx) (n : Nat) (t : Token) : (c.setTok n t).reports = c.reports := rfl
@[simp] theorem Ctx.setTok_wait (c : Ctx) (n : Nat) (t : Token) : (c.setTok n t).wait = c.wait := rfl
@[simp] theorem Ctx.setTok_cbs (c : Ctx) (n : Nat) (t : Token) : (c.setTok n t).cbs = c.cbs := rfl
@[simp] theorem Ctx.setTok_sks (c : Ctx) (n : Nat) (t : Token) : (c.setTok n t).sks = c.sks := rfl
@[simp] theorem Ctx.setTok_queues (c : Ctx) (n : Nat) (t : Token) : (c.setTok n t).queues = c.queues := rfl
@[simp] theorem Ctx.setTok_side (c : Ctx) (n : Nat) (t : Token) : (c.setTok n t).side = c.side := rfl
@[simp] theorem Ctx.setTok_baste (c : Ctx) (n : Nat) (t : Token) : (c.setTok n t).baste = c.baste := rfl
@[simp] theorem Ctx.setTok_hdep (c : Ctx) (n : Nat) (t : Token) : (c.setTok n t).hdep = c.hdep := rfl
@[simp] theorem Ctx.setTok_frame (c : Ctx) (n : Nat) (t : Token) : (c.setTok n t).frame = c.frame := rfl
@[simp] theorem Ctx.setTok_replay (c : Ctx) (n : Nat) (t : Token) : (c.setTok n t).replay = c.replay := rfl
@[simp] theorem Ctx.setTok_delivered (c : Ctx) (n : Nat) (t : Token) : (c.setTok n t).delivered = c.delivered := rfl
@[simp] theorem Ctx.setTok_qfence (c : Ctx) (n : Nat) (t : Token) : (c.setTok n t).qfence = c.qfence := rfl
@[simp] theorem Ctx.setTok_fenced (c : Ctx) (n : Nat) (t : Token) : (c.setTok n t).fenced = c.fenced := rfl
@[simp] theorem Ctx.setTok_blocked (c : Ctx) (n : Nat) (t : Token) : (c.setTok n t).blocked = c.blocked := rfl
@[simp] theorem Ctx.setTok_readySince (c : Ctx) (n : Nat) (t : Token) : (c.setTok n t).readySince = c.readySince := rfl
@[simp] theorem Ctx.setTok_stopDist (c : Ctx) (n : Nat) (t : Token) : (c.setTok n t).stopDist = c.stopDist := rfl
@[simp] theorem Ctx.setTok_quiet (c : Ctx) (n : Nat) (t : Token) : (c.setTok n t).quiet = c.quiet := rfl
@[simp] theorem Ctx.setTok_rfe (c : Ctx) (n : Nat) (t : Token) : (c.setTok n t).rfe = c.rfe := rfl
@[simp] theorem Ctx.setTok_recPriv (c : Ctx) (n : Nat) (t : Token) : (c.setTok n t).recPriv = c.recPriv := rfl
@[simp] theorem Ctx.setTok_bmask (c : Ctx) (n : Nat) (t : Token) : (c.setTok n t).bmask = c.bmask := rfl
@[simp] theorem Ctx.setTok_quads (c : Ctx) (n : Nat) (t : Token) : (c.setTok n t).quads = c.quads := rfl
@[simp] theorem Ctx.setTok_bases (c : Ctx) (n : Nat) (t : Token) : (c.setTok n t).bases = c.bases := rfl
@[simp] theorem Ctx.setTok_recent (c : Ctx) (n : Nat) (t : Token) : (c.setTok n t).recent = c.recent := rfl
@[simp] theorem Ctx.setTok_walk (c : Ctx) (n : Nat) (t : Token) : (c.setTok n t).walk = c.walk := rfl
@[simp] theorem Ctx.setTok_walks (c : Ctx) (n : Nat) (t : Token) : (c.setTok n t).walks = c.walks := rfl
@[simp] theorem Ctx.setTok_skip (c : Ctx) (n : Nat) (t : Token) : (c.setTok n t).skip = c.skip := rfl
@[simp] theorem Ctx.setTok_xwalk (c : Ctx) (n : Nat) (t : Token) : (c.setTok n t).xwalk = c.xwalk := rfl
@[simp] theorem Ctx.setTok_parked (c : Ctx) (n : Nat) (t : Token) : (c.setTok n t).parked = c.parked := rfl
@[simp] theorem Ctx.setTok_doomed (c : Ctx) (n : Nat) (t : Token) : (c.setTok n t).doomed = c.doomed := rfl
@[simp] theorem Ctx.setTok_kept (c : Ctx) (n : Nat) (t : Token) : (c.setTok n t).kept = c.kept := rfl

@[simp] theorem Ctx.setCb_st (c : Ctx) (n : Nat) (b : Cb) : (c.setCb n b).st = c.st := rfl
@[simp] theorem Ctx.setCb_pc (c : Ctx) (n : Nat) (b : Cb) : (c.setCb n b).pc = c.pc := rfl
@[simp] theorem Ctx.setCb_npc (c : Ctx) (n : Nat) (b : Cb) : (c.setCb n b).npc = c.npc := rfl
@[simp] theorem Ctx.setCb_regs (c : Ctx) (n : Nat) (b : Cb) : (c.setCb n b).regs = c.regs := rfl
@[simp] theorem Ctx.setCb_ctl (c : Ctx) (n : Nat) (b : Cb) : (c.setCb n b).ctl = c.ctl := rfl
@[simp] theorem Ctx.setCb_oq (c : Ctx) (n : Nat) (b : Cb) : (c.setCb n b).oq = c.oq := rfl
@[simp] theorem Ctx.setCb_ports (c : Ctx) (n : Nat) (b : Cb) : (c.setCb n b).ports = c.ports := rfl
@[simp] theorem Ctx.setCb_portSk (c : Ctx) (n : Nat) (b : Cb) : (c.setCb n b).portSk = c.portSk := rfl
@[simp] theorem Ctx.setCb_inf (c : Ctx) (n : Nat) (b : Cb) : (c.setCb n b).inf = c.inf := rfl
@[simp] theorem Ctx.setCb_accs (c : Ctx) (n : Nat) (b : Cb) : (c.setCb n b).accs = c.accs := rfl
@[simp] theorem Ctx.setCb_lats (c : Ctx) (n : Nat) (b : Cb) : (c.setCb n b).lats = c.lats := rfl
@[simp] theorem Ctx.setCb_latSeq (c : Ctx) (n : Nat) (b : Cb) : (c.setCb n b).latSeq = c.latSeq := rfl
@[simp] theorem Ctx.setCb_toks (c : Ctx) (n : Nat) (b : Cb) : (c.setCb n b).toks = c.toks := rfl
@[simp] theorem Ctx.setCb_creqs (c : Ctx) (n : Nat) (b : Cb) : (c.setCb n b).creqs = c.creqs := rfl
@[simp] theorem Ctx.setCb_reports (c : Ctx) (n : Nat) (b : Cb) : (c.setCb n b).reports = c.reports := rfl
@[simp] theorem Ctx.setCb_wait (c : Ctx) (n : Nat) (b : Cb) : (c.setCb n b).wait = c.wait := rfl
@[simp] theorem Ctx.setCb_sks (c : Ctx) (n : Nat) (b : Cb) : (c.setCb n b).sks = c.sks := rfl
@[simp] theorem Ctx.setCb_queues (c : Ctx) (n : Nat) (b : Cb) : (c.setCb n b).queues = c.queues := rfl
@[simp] theorem Ctx.setCb_side (c : Ctx) (n : Nat) (b : Cb) : (c.setCb n b).side = c.side := rfl
@[simp] theorem Ctx.setCb_baste (c : Ctx) (n : Nat) (b : Cb) : (c.setCb n b).baste = c.baste := rfl
@[simp] theorem Ctx.setCb_hdep (c : Ctx) (n : Nat) (b : Cb) : (c.setCb n b).hdep = c.hdep := rfl
@[simp] theorem Ctx.setCb_frame (c : Ctx) (n : Nat) (b : Cb) : (c.setCb n b).frame = c.frame := rfl
@[simp] theorem Ctx.setCb_replay (c : Ctx) (n : Nat) (b : Cb) : (c.setCb n b).replay = c.replay := rfl
@[simp] theorem Ctx.setCb_delivered (c : Ctx) (n : Nat) (b : Cb) : (c.setCb n b).delivered = c.delivered := rfl
@[simp] theorem Ctx.setCb_qfence (c : Ctx) (n : Nat) (b : Cb) : (c.setCb n b).qfence = c.qfence := rfl
@[simp] theorem Ctx.setCb_fenced (c : Ctx) (n : Nat) (b : Cb) : (c.setCb n b).fenced = c.fenced := rfl
@[simp] theorem Ctx.setCb_blocked (c : Ctx) (n : Nat) (b : Cb) : (c.setCb n b).blocked = c.blocked := rfl
@[simp] theorem Ctx.setCb_readySince (c : Ctx) (n : Nat) (b : Cb) : (c.setCb n b).readySince = c.readySince := rfl
@[simp] theorem Ctx.setCb_stopDist (c : Ctx) (n : Nat) (b : Cb) : (c.setCb n b).stopDist = c.stopDist := rfl
@[simp] theorem Ctx.setCb_quiet (c : Ctx) (n : Nat) (b : Cb) : (c.setCb n b).quiet = c.quiet := rfl
@[simp] theorem Ctx.setCb_rfe (c : Ctx) (n : Nat) (b : Cb) : (c.setCb n b).rfe = c.rfe := rfl
@[simp] theorem Ctx.setCb_recPriv (c : Ctx) (n : Nat) (b : Cb) : (c.setCb n b).recPriv = c.recPriv := rfl
@[simp] theorem Ctx.setCb_bmask (c : Ctx) (n : Nat) (b : Cb) : (c.setCb n b).bmask = c.bmask := rfl
@[simp] theorem Ctx.setCb_quads (c : Ctx) (n : Nat) (b : Cb) : (c.setCb n b).quads = c.quads := rfl
@[simp] theorem Ctx.setCb_bases (c : Ctx) (n : Nat) (b : Cb) : (c.setCb n b).bases = c.bases := rfl
@[simp] theorem Ctx.setCb_recent (c : Ctx) (n : Nat) (b : Cb) : (c.setCb n b).recent = c.recent := rfl
@[simp] theorem Ctx.setCb_walk (c : Ctx) (n : Nat) (b : Cb) : (c.setCb n b).walk = c.walk := rfl
@[simp] theorem Ctx.setCb_walks (c : Ctx) (n : Nat) (b : Cb) : (c.setCb n b).walks = c.walks := rfl
@[simp] theorem Ctx.setCb_skip (c : Ctx) (n : Nat) (b : Cb) : (c.setCb n b).skip = c.skip := rfl
@[simp] theorem Ctx.setCb_xwalk (c : Ctx) (n : Nat) (b : Cb) : (c.setCb n b).xwalk = c.xwalk := rfl
@[simp] theorem Ctx.setCb_parked (c : Ctx) (n : Nat) (b : Cb) : (c.setCb n b).parked = c.parked := rfl
@[simp] theorem Ctx.setCb_doomed (c : Ctx) (n : Nat) (b : Cb) : (c.setCb n b).doomed = c.doomed := rfl
@[simp] theorem Ctx.setCb_kept (c : Ctx) (n : Nat) (b : Cb) : (c.setCb n b).kept = c.kept := rfl

@[simp] theorem Ctx.setSk_st (c : Ctx) (n : Nat) (b : Sk) : (c.setSk n b).st = c.st := rfl
@[simp] theorem Ctx.setSk_pc (c : Ctx) (n : Nat) (b : Sk) : (c.setSk n b).pc = c.pc := rfl
@[simp] theorem Ctx.setSk_npc (c : Ctx) (n : Nat) (b : Sk) : (c.setSk n b).npc = c.npc := rfl
@[simp] theorem Ctx.setSk_regs (c : Ctx) (n : Nat) (b : Sk) : (c.setSk n b).regs = c.regs := rfl
@[simp] theorem Ctx.setSk_ctl (c : Ctx) (n : Nat) (b : Sk) : (c.setSk n b).ctl = c.ctl := rfl
@[simp] theorem Ctx.setSk_oq (c : Ctx) (n : Nat) (b : Sk) : (c.setSk n b).oq = c.oq := rfl
@[simp] theorem Ctx.setSk_ports (c : Ctx) (n : Nat) (b : Sk) : (c.setSk n b).ports = c.ports := rfl
@[simp] theorem Ctx.setSk_portSk (c : Ctx) (n : Nat) (b : Sk) : (c.setSk n b).portSk = c.portSk := rfl
@[simp] theorem Ctx.setSk_inf (c : Ctx) (n : Nat) (b : Sk) : (c.setSk n b).inf = c.inf := rfl
@[simp] theorem Ctx.setSk_accs (c : Ctx) (n : Nat) (b : Sk) : (c.setSk n b).accs = c.accs := rfl
@[simp] theorem Ctx.setSk_lats (c : Ctx) (n : Nat) (b : Sk) : (c.setSk n b).lats = c.lats := rfl
@[simp] theorem Ctx.setSk_latSeq (c : Ctx) (n : Nat) (b : Sk) : (c.setSk n b).latSeq = c.latSeq := rfl
@[simp] theorem Ctx.setSk_toks (c : Ctx) (n : Nat) (b : Sk) : (c.setSk n b).toks = c.toks := rfl
@[simp] theorem Ctx.setSk_creqs (c : Ctx) (n : Nat) (b : Sk) : (c.setSk n b).creqs = c.creqs := rfl
@[simp] theorem Ctx.setSk_reports (c : Ctx) (n : Nat) (b : Sk) : (c.setSk n b).reports = c.reports := rfl
@[simp] theorem Ctx.setSk_wait (c : Ctx) (n : Nat) (b : Sk) : (c.setSk n b).wait = c.wait := rfl
@[simp] theorem Ctx.setSk_cbs (c : Ctx) (n : Nat) (b : Sk) : (c.setSk n b).cbs = c.cbs := rfl
@[simp] theorem Ctx.setSk_queues (c : Ctx) (n : Nat) (b : Sk) : (c.setSk n b).queues = c.queues := rfl
@[simp] theorem Ctx.setSk_side (c : Ctx) (n : Nat) (b : Sk) : (c.setSk n b).side = c.side := rfl
@[simp] theorem Ctx.setSk_baste (c : Ctx) (n : Nat) (b : Sk) : (c.setSk n b).baste = c.baste := rfl
@[simp] theorem Ctx.setSk_hdep (c : Ctx) (n : Nat) (b : Sk) : (c.setSk n b).hdep = c.hdep := rfl
@[simp] theorem Ctx.setSk_frame (c : Ctx) (n : Nat) (b : Sk) : (c.setSk n b).frame = c.frame := rfl
@[simp] theorem Ctx.setSk_replay (c : Ctx) (n : Nat) (b : Sk) : (c.setSk n b).replay = c.replay := rfl
@[simp] theorem Ctx.setSk_delivered (c : Ctx) (n : Nat) (b : Sk) : (c.setSk n b).delivered = c.delivered := rfl
@[simp] theorem Ctx.setSk_qfence (c : Ctx) (n : Nat) (b : Sk) : (c.setSk n b).qfence = c.qfence := rfl
@[simp] theorem Ctx.setSk_fenced (c : Ctx) (n : Nat) (b : Sk) : (c.setSk n b).fenced = c.fenced := rfl
@[simp] theorem Ctx.setSk_blocked (c : Ctx) (n : Nat) (b : Sk) : (c.setSk n b).blocked = c.blocked := rfl
@[simp] theorem Ctx.setSk_readySince (c : Ctx) (n : Nat) (b : Sk) : (c.setSk n b).readySince = c.readySince := rfl
@[simp] theorem Ctx.setSk_stopDist (c : Ctx) (n : Nat) (b : Sk) : (c.setSk n b).stopDist = c.stopDist := rfl
@[simp] theorem Ctx.setSk_quiet (c : Ctx) (n : Nat) (b : Sk) : (c.setSk n b).quiet = c.quiet := rfl
@[simp] theorem Ctx.setSk_rfe (c : Ctx) (n : Nat) (b : Sk) : (c.setSk n b).rfe = c.rfe := rfl
@[simp] theorem Ctx.setSk_recPriv (c : Ctx) (n : Nat) (b : Sk) : (c.setSk n b).recPriv = c.recPriv := rfl
@[simp] theorem Ctx.setSk_bmask (c : Ctx) (n : Nat) (b : Sk) : (c.setSk n b).bmask = c.bmask := rfl
@[simp] theorem Ctx.setSk_quads (c : Ctx) (n : Nat) (b : Sk) : (c.setSk n b).quads = c.quads := rfl
@[simp] theorem Ctx.setSk_bases (c : Ctx) (n : Nat) (b : Sk) : (c.setSk n b).bases = c.bases := rfl
@[simp] theorem Ctx.setSk_recent (c : Ctx) (n : Nat) (b : Sk) : (c.setSk n b).recent = c.recent := rfl
@[simp] theorem Ctx.setSk_walk (c : Ctx) (n : Nat) (b : Sk) : (c.setSk n b).walk = c.walk := rfl
@[simp] theorem Ctx.setSk_walks (c : Ctx) (n : Nat) (b : Sk) : (c.setSk n b).walks = c.walks := rfl
@[simp] theorem Ctx.setSk_skip (c : Ctx) (n : Nat) (b : Sk) : (c.setSk n b).skip = c.skip := rfl
@[simp] theorem Ctx.setSk_xwalk (c : Ctx) (n : Nat) (b : Sk) : (c.setSk n b).xwalk = c.xwalk := rfl
@[simp] theorem Ctx.setSk_parked (c : Ctx) (n : Nat) (b : Sk) : (c.setSk n b).parked = c.parked := rfl
@[simp] theorem Ctx.setSk_doomed (c : Ctx) (n : Nat) (b : Sk) : (c.setSk n b).doomed = c.doomed := rfl
@[simp] theorem Ctx.setSk_kept (c : Ctx) (n : Nat) (b : Sk) : (c.setSk n b).kept = c.kept := rfl

@[simp] theorem Ctx.setQueue_st (c : Ctx) (fu : Nat) (q : List Cmd) : (c.setQueue fu q).st = c.st := rfl
@[simp] theorem Ctx.setQueue_pc (c : Ctx) (fu : Nat) (q : List Cmd) : (c.setQueue fu q).pc = c.pc := rfl
@[simp] theorem Ctx.setQueue_npc (c : Ctx) (fu : Nat) (q : List Cmd) : (c.setQueue fu q).npc = c.npc := rfl
@[simp] theorem Ctx.setQueue_regs (c : Ctx) (fu : Nat) (q : List Cmd) : (c.setQueue fu q).regs = c.regs := rfl
@[simp] theorem Ctx.setQueue_ctl (c : Ctx) (fu : Nat) (q : List Cmd) : (c.setQueue fu q).ctl = c.ctl := rfl
@[simp] theorem Ctx.setQueue_oq (c : Ctx) (fu : Nat) (q : List Cmd) : (c.setQueue fu q).oq = c.oq := rfl
@[simp] theorem Ctx.setQueue_ports (c : Ctx) (fu : Nat) (q : List Cmd) : (c.setQueue fu q).ports = c.ports := rfl
@[simp] theorem Ctx.setQueue_portSk (c : Ctx) (fu : Nat) (q : List Cmd) : (c.setQueue fu q).portSk = c.portSk := rfl
@[simp] theorem Ctx.setQueue_inf (c : Ctx) (fu : Nat) (q : List Cmd) : (c.setQueue fu q).inf = c.inf := rfl
@[simp] theorem Ctx.setQueue_accs (c : Ctx) (fu : Nat) (q : List Cmd) : (c.setQueue fu q).accs = c.accs := rfl
@[simp] theorem Ctx.setQueue_lats (c : Ctx) (fu : Nat) (q : List Cmd) : (c.setQueue fu q).lats = c.lats := rfl
@[simp] theorem Ctx.setQueue_latSeq (c : Ctx) (fu : Nat) (q : List Cmd) : (c.setQueue fu q).latSeq = c.latSeq := rfl
@[simp] theorem Ctx.setQueue_toks (c : Ctx) (fu : Nat) (q : List Cmd) : (c.setQueue fu q).toks = c.toks := rfl
@[simp] theorem Ctx.setQueue_creqs (c : Ctx) (fu : Nat) (q : List Cmd) : (c.setQueue fu q).creqs = c.creqs := rfl
@[simp] theorem Ctx.setQueue_reports (c : Ctx) (fu : Nat) (q : List Cmd) : (c.setQueue fu q).reports = c.reports := rfl
@[simp] theorem Ctx.setQueue_wait (c : Ctx) (fu : Nat) (q : List Cmd) : (c.setQueue fu q).wait = c.wait := rfl
@[simp] theorem Ctx.setQueue_cbs (c : Ctx) (fu : Nat) (q : List Cmd) : (c.setQueue fu q).cbs = c.cbs := rfl
@[simp] theorem Ctx.setQueue_sks (c : Ctx) (fu : Nat) (q : List Cmd) : (c.setQueue fu q).sks = c.sks := rfl
@[simp] theorem Ctx.setQueue_side (c : Ctx) (fu : Nat) (q : List Cmd) : (c.setQueue fu q).side = c.side := rfl
@[simp] theorem Ctx.setQueue_baste (c : Ctx) (fu : Nat) (q : List Cmd) : (c.setQueue fu q).baste = c.baste := rfl
@[simp] theorem Ctx.setQueue_hdep (c : Ctx) (fu : Nat) (q : List Cmd) : (c.setQueue fu q).hdep = c.hdep := rfl
@[simp] theorem Ctx.setQueue_frame (c : Ctx) (fu : Nat) (q : List Cmd) : (c.setQueue fu q).frame = c.frame := rfl
@[simp] theorem Ctx.setQueue_replay (c : Ctx) (fu : Nat) (q : List Cmd) : (c.setQueue fu q).replay = c.replay := rfl
@[simp] theorem Ctx.setQueue_delivered (c : Ctx) (fu : Nat) (q : List Cmd) : (c.setQueue fu q).delivered = c.delivered := rfl
@[simp] theorem Ctx.setQueue_qfence (c : Ctx) (fu : Nat) (q : List Cmd) : (c.setQueue fu q).qfence = c.qfence := rfl
@[simp] theorem Ctx.setQueue_fenced (c : Ctx) (fu : Nat) (q : List Cmd) : (c.setQueue fu q).fenced = c.fenced := rfl
@[simp] theorem Ctx.setQueue_blocked (c : Ctx) (fu : Nat) (q : List Cmd) : (c.setQueue fu q).blocked = c.blocked := rfl
@[simp] theorem Ctx.setQueue_readySince (c : Ctx) (fu : Nat) (q : List Cmd) : (c.setQueue fu q).readySince = c.readySince := rfl
@[simp] theorem Ctx.setQueue_stopDist (c : Ctx) (fu : Nat) (q : List Cmd) : (c.setQueue fu q).stopDist = c.stopDist := rfl
@[simp] theorem Ctx.setQueue_quiet (c : Ctx) (fu : Nat) (q : List Cmd) : (c.setQueue fu q).quiet = c.quiet := rfl
@[simp] theorem Ctx.setQueue_rfe (c : Ctx) (fu : Nat) (q : List Cmd) : (c.setQueue fu q).rfe = c.rfe := rfl
@[simp] theorem Ctx.setQueue_recPriv (c : Ctx) (fu : Nat) (q : List Cmd) : (c.setQueue fu q).recPriv = c.recPriv := rfl
@[simp] theorem Ctx.setQueue_bmask (c : Ctx) (fu : Nat) (q : List Cmd) : (c.setQueue fu q).bmask = c.bmask := rfl
@[simp] theorem Ctx.setQueue_quads (c : Ctx) (fu : Nat) (q : List Cmd) : (c.setQueue fu q).quads = c.quads := rfl
@[simp] theorem Ctx.setQueue_bases (c : Ctx) (fu : Nat) (q : List Cmd) : (c.setQueue fu q).bases = c.bases := rfl
@[simp] theorem Ctx.setQueue_recent (c : Ctx) (fu : Nat) (q : List Cmd) : (c.setQueue fu q).recent = c.recent := rfl
@[simp] theorem Ctx.setQueue_walk (c : Ctx) (fu : Nat) (q : List Cmd) : (c.setQueue fu q).walk = c.walk := rfl
@[simp] theorem Ctx.setQueue_walks (c : Ctx) (fu : Nat) (q : List Cmd) : (c.setQueue fu q).walks = c.walks := rfl
@[simp] theorem Ctx.setQueue_skip (c : Ctx) (fu : Nat) (q : List Cmd) : (c.setQueue fu q).skip = c.skip := rfl
@[simp] theorem Ctx.setQueue_xwalk (c : Ctx) (fu : Nat) (q : List Cmd) : (c.setQueue fu q).xwalk = c.xwalk := rfl
@[simp] theorem Ctx.setQueue_parked (c : Ctx) (fu : Nat) (q : List Cmd) : (c.setQueue fu q).parked = c.parked := rfl
@[simp] theorem Ctx.setQueue_doomed (c : Ctx) (fu : Nat) (q : List Cmd) : (c.setQueue fu q).doomed = c.doomed := rfl
@[simp] theorem Ctx.setQueue_kept (c : Ctx) (fu : Nat) (q : List Cmd) : (c.setQueue fu q).kept = c.kept := rfl

@[simp] theorem Ctx.fly_st (c : Ctx) (lat fu id : Nat) (v : Landing) (g : Flg) (t : OutTag) : (c.fly lat fu id v g t).st = c.st := rfl
@[simp] theorem Ctx.fly_pc (c : Ctx) (lat fu id : Nat) (v : Landing) (g : Flg) (t : OutTag) : (c.fly lat fu id v g t).pc = c.pc := rfl
@[simp] theorem Ctx.fly_npc (c : Ctx) (lat fu id : Nat) (v : Landing) (g : Flg) (t : OutTag) : (c.fly lat fu id v g t).npc = c.npc := rfl
@[simp] theorem Ctx.fly_regs (c : Ctx) (lat fu id : Nat) (v : Landing) (g : Flg) (t : OutTag) : (c.fly lat fu id v g t).regs = c.regs := rfl
@[simp] theorem Ctx.fly_ctl (c : Ctx) (lat fu id : Nat) (v : Landing) (g : Flg) (t : OutTag) : (c.fly lat fu id v g t).ctl = c.ctl := rfl
@[simp] theorem Ctx.fly_oq (c : Ctx) (lat fu id : Nat) (v : Landing) (g : Flg) (t : OutTag) : (c.fly lat fu id v g t).oq = c.oq := rfl
@[simp] theorem Ctx.fly_ports (c : Ctx) (lat fu id : Nat) (v : Landing) (g : Flg) (t : OutTag) : (c.fly lat fu id v g t).ports = c.ports := rfl
@[simp] theorem Ctx.fly_portSk (c : Ctx) (lat fu id : Nat) (v : Landing) (g : Flg) (t : OutTag) : (c.fly lat fu id v g t).portSk = c.portSk := rfl
@[simp] theorem Ctx.fly_accs (c : Ctx) (lat fu id : Nat) (v : Landing) (g : Flg) (t : OutTag) : (c.fly lat fu id v g t).accs = c.accs := rfl
@[simp] theorem Ctx.fly_lats (c : Ctx) (lat fu id : Nat) (v : Landing) (g : Flg) (t : OutTag) : (c.fly lat fu id v g t).lats = c.lats := rfl
@[simp] theorem Ctx.fly_latSeq (c : Ctx) (lat fu id : Nat) (v : Landing) (g : Flg) (t : OutTag) : (c.fly lat fu id v g t).latSeq = c.latSeq := rfl
@[simp] theorem Ctx.fly_toks (c : Ctx) (lat fu id : Nat) (v : Landing) (g : Flg) (t : OutTag) : (c.fly lat fu id v g t).toks = c.toks := rfl
@[simp] theorem Ctx.fly_creqs (c : Ctx) (lat fu id : Nat) (v : Landing) (g : Flg) (t : OutTag) : (c.fly lat fu id v g t).creqs = c.creqs := rfl
@[simp] theorem Ctx.fly_reports (c : Ctx) (lat fu id : Nat) (v : Landing) (g : Flg) (t : OutTag) : (c.fly lat fu id v g t).reports = c.reports := rfl
@[simp] theorem Ctx.fly_wait (c : Ctx) (lat fu id : Nat) (v : Landing) (g : Flg) (t : OutTag) : (c.fly lat fu id v g t).wait = c.wait := rfl
@[simp] theorem Ctx.fly_cbs (c : Ctx) (lat fu id : Nat) (v : Landing) (g : Flg) (t : OutTag) : (c.fly lat fu id v g t).cbs = c.cbs := rfl
@[simp] theorem Ctx.fly_sks (c : Ctx) (lat fu id : Nat) (v : Landing) (g : Flg) (t : OutTag) : (c.fly lat fu id v g t).sks = c.sks := rfl
@[simp] theorem Ctx.fly_queues (c : Ctx) (lat fu id : Nat) (v : Landing) (g : Flg) (t : OutTag) : (c.fly lat fu id v g t).queues = c.queues := rfl
@[simp] theorem Ctx.fly_side (c : Ctx) (lat fu id : Nat) (v : Landing) (g : Flg) (t : OutTag) : (c.fly lat fu id v g t).side = c.side := rfl
@[simp] theorem Ctx.fly_baste (c : Ctx) (lat fu id : Nat) (v : Landing) (g : Flg) (t : OutTag) : (c.fly lat fu id v g t).baste = c.baste := rfl
@[simp] theorem Ctx.fly_hdep (c : Ctx) (lat fu id : Nat) (v : Landing) (g : Flg) (t : OutTag) : (c.fly lat fu id v g t).hdep = c.hdep := rfl
@[simp] theorem Ctx.fly_frame (c : Ctx) (lat fu id : Nat) (v : Landing) (g : Flg) (t : OutTag) : (c.fly lat fu id v g t).frame = c.frame := rfl
@[simp] theorem Ctx.fly_replay (c : Ctx) (lat fu id : Nat) (v : Landing) (g : Flg) (t : OutTag) : (c.fly lat fu id v g t).replay = c.replay := rfl
@[simp] theorem Ctx.fly_delivered (c : Ctx) (lat fu id : Nat) (v : Landing) (g : Flg) (t : OutTag) : (c.fly lat fu id v g t).delivered = c.delivered := rfl
@[simp] theorem Ctx.fly_qfence (c : Ctx) (lat fu id : Nat) (v : Landing) (g : Flg) (t : OutTag) : (c.fly lat fu id v g t).qfence = c.qfence := rfl
@[simp] theorem Ctx.fly_fenced (c : Ctx) (lat fu id : Nat) (v : Landing) (g : Flg) (t : OutTag) : (c.fly lat fu id v g t).fenced = c.fenced := rfl
@[simp] theorem Ctx.fly_blocked (c : Ctx) (lat fu id : Nat) (v : Landing) (g : Flg) (t : OutTag) : (c.fly lat fu id v g t).blocked = c.blocked := rfl
@[simp] theorem Ctx.fly_readySince (c : Ctx) (lat fu id : Nat) (v : Landing) (g : Flg) (t : OutTag) : (c.fly lat fu id v g t).readySince = c.readySince := rfl
@[simp] theorem Ctx.fly_stopDist (c : Ctx) (lat fu id : Nat) (v : Landing) (g : Flg) (t : OutTag) : (c.fly lat fu id v g t).stopDist = c.stopDist := rfl
@[simp] theorem Ctx.fly_quiet (c : Ctx) (lat fu id : Nat) (v : Landing) (g : Flg) (t : OutTag) : (c.fly lat fu id v g t).quiet = c.quiet := rfl
@[simp] theorem Ctx.fly_rfe (c : Ctx) (lat fu id : Nat) (v : Landing) (g : Flg) (t : OutTag) : (c.fly lat fu id v g t).rfe = c.rfe := rfl
@[simp] theorem Ctx.fly_recPriv (c : Ctx) (lat fu id : Nat) (v : Landing) (g : Flg) (t : OutTag) : (c.fly lat fu id v g t).recPriv = c.recPriv := rfl
@[simp] theorem Ctx.fly_bmask (c : Ctx) (lat fu id : Nat) (v : Landing) (g : Flg) (t : OutTag) : (c.fly lat fu id v g t).bmask = c.bmask := rfl
@[simp] theorem Ctx.fly_quads (c : Ctx) (lat fu id : Nat) (v : Landing) (g : Flg) (t : OutTag) : (c.fly lat fu id v g t).quads = c.quads := rfl
@[simp] theorem Ctx.fly_bases (c : Ctx) (lat fu id : Nat) (v : Landing) (g : Flg) (t : OutTag) : (c.fly lat fu id v g t).bases = c.bases := rfl
@[simp] theorem Ctx.fly_recent (c : Ctx) (lat fu id : Nat) (v : Landing) (g : Flg) (t : OutTag) : (c.fly lat fu id v g t).recent = c.recent := rfl
@[simp] theorem Ctx.fly_walk (c : Ctx) (lat fu id : Nat) (v : Landing) (g : Flg) (t : OutTag) : (c.fly lat fu id v g t).walk = c.walk := rfl
@[simp] theorem Ctx.fly_walks (c : Ctx) (lat fu id : Nat) (v : Landing) (g : Flg) (t : OutTag) : (c.fly lat fu id v g t).walks = c.walks := rfl
@[simp] theorem Ctx.fly_skip (c : Ctx) (lat fu id : Nat) (v : Landing) (g : Flg) (t : OutTag) : (c.fly lat fu id v g t).skip = c.skip := rfl
@[simp] theorem Ctx.fly_xwalk (c : Ctx) (lat fu id : Nat) (v : Landing) (g : Flg) (t : OutTag) : (c.fly lat fu id v g t).xwalk = c.xwalk := rfl
@[simp] theorem Ctx.fly_parked (c : Ctx) (lat fu id : Nat) (v : Landing) (g : Flg) (t : OutTag) : (c.fly lat fu id v g t).parked = c.parked := rfl
@[simp] theorem Ctx.fly_doomed (c : Ctx) (lat fu id : Nat) (v : Landing) (g : Flg) (t : OutTag) : (c.fly lat fu id v g t).doomed = c.doomed := rfl
@[simp] theorem Ctx.fly_kept (c : Ctx) (lat fu id : Nat) (v : Landing) (g : Flg) (t : OutTag) : (c.fly lat fu id v g t).kept = c.kept := rfl

/-! ## Reading back -/

@[simp] theorem State.ctx_setCtx (s : State) (n : Nat) (c : Ctx) : (s.setCtx n c).ctx n = c :=
  KMap.get_put_same _ _ _ _
theorem State.ctx_setCtx_other (s : State) (n m : Nat) (c : Ctx) (h : m ≠ n) : (s.setCtx n c).ctx m = s.ctx m :=
  KMap.get_put_other _ _ _ _ _ h
@[simp] theorem State.ctx_updCtx (s : State) (n : Nat) (f : Ctx → Ctx) : (s.updCtx n f).ctx n = f (s.ctx n) :=
  KMap.get_put_same _ _ _ _
theorem State.ctx_updCtx_other (s : State) (n m : Nat) (f : Ctx → Ctx) (h : m ≠ n) : (s.updCtx n f).ctx m = s.ctx m :=
  KMap.get_put_other _ _ _ _ _ h
/-- Two changes of one context are one. -/
theorem State.updCtx_updCtx (s : State) (n : Nat) (f h : Ctx → Ctx) :
    (s.updCtx n f).updCtx n h = s.updCtx n fun c => h (f c) := by
  unfold State.updCtx
  rw [State.ctx_setCtx]
  simp [State.setCtx]
@[simp] theorem State.core_updCore (s : State) (c : Nat) (f : Core → Core) : (s.updCore c f).core c = f (s.core c) :=
  KMap.get_put_same _ _ _ _
theorem State.core_updCore_other (s : State) (c d : Nat) (f : Core → Core) (h : d ≠ c) :
    (s.updCore c f).core d = s.core d :=
  KMap.get_put_other _ _ _ _ _ h
@[simp] theorem State.core_updCtx (s : State) (n c : Nat) (f : Ctx → Ctx) : (s.updCtx n f).core c = s.core c := rfl
@[simp] theorem State.ctx_updCore (s : State) (c n : Nat) (f : Core → Core) : (s.updCore c f).ctx n = s.ctx n := rfl
@[simp] theorem State.core_setCtx (s : State) (n c : Nat) (x : Ctx) : (s.setCtx n x).core c = s.core c := rfl
@[simp] theorem State.ctx_wr (s : State) (pa v k n : Nat) : (s.wr pa v k).ctx n = s.ctx n := rfl
@[simp] theorem State.core_wr (s : State) (pa v k n : Nat) : (s.wr pa v k).core n = s.core n := rfl
@[simp] theorem State.ctx_at (s : State) (d : Nat) (b : Bool) (e : Instr) (n : Nat) : (s.at d b e).ctx n = s.ctx n := rfl
@[simp] theorem State.core_at (s : State) (d : Nat) (b : Bool) (e : Instr) (n : Nat) : (s.at d b e).core n = s.core n :=
  rfl
@[simp] theorem State.holder_updHolder (s : State) (h : Nat) (f : Holder → Holder) :
    (s.updHolder h f).holder h = f (s.holder h) := KMap.get_put_same _ _ _ _
theorem State.holder_updHolder_other (s : State) (h j : Nat) (f : Holder → Holder) (n : j ≠ h) :
    (s.updHolder h f).holder j = s.holder j := KMap.get_put_other _ _ _ _ _ n
@[simp] theorem State.router_updRouter (s : State) (h : Nat) (f : Router → Router) :
    (s.updRouter h f).router h = f (s.router h) := KMap.get_put_same _ _ _ _
theorem State.router_updRouter_other (s : State) (h j : Nat) (f : Router → Router) (n : j ≠ h) :
    (s.updRouter h f).router j = s.router j := KMap.get_put_other _ _ _ _ _ n
@[simp] theorem State.link_updLink (s : State) (l : Nat) (f : Link → Link) :
    (s.updLink l f).link l = f (s.link l) := KMap.get_put_same _ _ _ _
theorem State.link_updLink_other (s : State) (l j : Nat) (f : Link → Link) (n : j ≠ l) :
    (s.updLink l f).link j = s.link j := KMap.get_put_other _ _ _ _ _ n

@[simp] theorem Ctx.tok_setTok (c : Ctx) (n : Nat) (t : Token) : (c.setTok n t).tok n = t := KMap.get_put_same _ _ _ _
theorem Ctx.tok_setTok_other (c : Ctx) (n m : Nat) (t : Token) (h : m ≠ n) : (c.setTok n t).tok m = c.tok m :=
  KMap.get_put_other _ _ _ _ _ h
@[simp] theorem Ctx.cb_setCb (c : Ctx) (n : Nat) (b : Cb) : (c.setCb n b).cb n = b := KMap.get_put_same _ _ _ _
theorem Ctx.cb_setCb_other (c : Ctx) (n m : Nat) (b : Cb) (h : m ≠ n) : (c.setCb n b).cb m = c.cb m :=
  KMap.get_put_other _ _ _ _ _ h
@[simp] theorem Ctx.queue_setQueue (c : Ctx) (fu : Nat) (q : List Cmd) : (c.setQueue fu q).queue fu = q :=
  KMap.get_set_same _ _ _ _
theorem Ctx.queue_setQueue_other (c : Ctx) (fu k : Nat) (q : List Cmd) (h : k ≠ fu) :
    (c.setQueue fu q).queue k = c.queue k := KMap.get_set_other _ _ _ _ _ h
@[simp] theorem Regs.sreg_setS (r : Regs) (n : Nat) (v : Word) : (r.setS n v).sreg n = v := KMap.get_set_same _ _ _ _
theorem Regs.sreg_setS_other (r : Regs) (n m : Nat) (v : Word) (h : m ≠ n) : (r.setS n v).sreg m = r.sreg m :=
  KMap.get_set_other _ _ _ _ _ h
@[simp] theorem Regs.treg_setT (r : Regs) (n : Nat) (v : Tile) : (r.setT n v).treg n = v := KMap.get_set_same _ _ _ _
theorem Regs.treg_setT_other (r : Regs) (n m : Nat) (v : Tile) (h : m ≠ n) : (r.setT n v).treg m = r.treg m :=
  KMap.get_set_other _ _ _ _ _ h
@[simp] theorem Regs.tag_setTag (r : Regs) (k : Nat) (v : Tag) : (r.setTag k v).tag k = v := KMap.get_set_same _ _ _ _
theorem Regs.tag_setTag_other (r : Regs) (k j : Nat) (v : Tag) (h : j ≠ k) : (r.setTag k v).tag j = r.tag j :=
  KMap.get_set_other _ _ _ _ _ h
@[simp] theorem Regs.sreg_setTag (r : Regs) (k n : Nat) (v : Tag) : (r.setTag k v).sreg n = r.sreg n := rfl
@[simp] theorem Regs.treg_setTag (r : Regs) (k n : Nat) (v : Tag) : (r.setTag k v).treg n = r.treg n := rfl

/-! ## Charging and consuming -/

@[simp] theorem charge_iss (s : State) (w : Nat) : (charge s w).iss = { s.iss with weight := s.iss.weight + w } := rfl
@[simp] theorem ctx_charge (s : State) (w n : Nat) : (charge s w).ctx n = s.ctx n := rfl
@[simp] theorem core_charge (s : State) (w : Nat) : (charge s w).core (coreOf s.iss.n) =
    { s.core (coreOf s.iss.n) with curw := (s.core (coreOf s.iss.n)).curw + BitVec.ofNat 24 w } :=
  KMap.get_put_same _ _ _ _

/-- A short hold leaves the context as it was. -/
@[simp] theorem Ctx.hold_one (c : Ctx) (fu port : Nat) : c.hold fu port 1 = c := rfl

end Sys2Proof.Machine
end

