-- ==== Sys2Proof/Laws/Issue.lean ====
section
/-!
SUPPORT. What the combinators `issue` and `trigger` and the operations that every move shares can do.
-/

namespace Sys2Proof.Machine

/-- The state with another serial number. -/
def State.ser (s : State) (k : Nat) : State := { s with serial := k }

@[simp] theorem ser_iss (s : State) (k : Nat) : (s.ser k).iss = s.iss := rfl
@[simp] theorem ser_serial (s : State) (k : Nat) : (s.ser k).serial = k := rfl
@[simp] theorem ser_self (s : State) : s.ser s.serial = s := rfl

/-- A list of notes is quiet where each is. -/
theorem firstNote_append (l m : List Note) (h : firstNote l = .quiet) : firstNote (l ++ m) = firstNote m := by
  induction l with
  | nil => rfl
  | cons w l ih => cases w <;> simp_all [firstNote]

/-- A move with a false guard performs nothing (R39). -/
theorem issue_false (s : State) (g : BitVec 4) (l : List Note) (eff : State → State) (h : guardTrue s g = false) :
    issue s g l eff = .next s := by simp [issue, h]

/-- A move that meets nothing has its effect. -/
theorem issue_quiet (s : State) (g : BitVec 4) (l : List Note) (eff : State → State) (h : guardTrue s g = true)
    (hl : firstNote l = .quiet) : issue s g l eff = .next (eff s) := by simp [issue, h, hl]

/-- A move that meets something raises the first of it. -/
theorem issue_note (s : State) (g : BitVec 4) (l : List Note) (eff : State → State) (h : guardTrue s g = true)
    (hl : firstNote l ≠ .quiet) :
    issue s g l eff = .next (raiseNote { s with free := s.free + 1 } (firstNote l)) := by
  unfold issue
  rw [if_pos h]
  split
  · contradiction
  · rfl

/-- `issue` always answers a next state. -/
theorem issue_next (s : State) (g : BitVec 4) (l : List Note) (eff : State → State) : ∃ t, issue s g l eff = .next t := by
  unfold issue
  split
  · split <;> exact ⟨_, rfl⟩
  · exact ⟨_, rfl⟩

/-- The notes of a source that can be read are quiet. -/
theorem sourceReady_notes (s : State) (src : BitVec 9) (k : Kind) (h : SourceReady s src k) :
    headBusy s src = .quiet ∧ headBlock s src = .quiet ∧ headFault s src = .quiet ∧ kindNote s src k = .quiet := by
  unfold SourceReady at h
  unfold headBusy headBlock headFault kindNote isHead
  cases hs : srcOf src with
  | none => simp
  | some x =>
    cases x <;> simp_all [blockIf, trapIf]
    intro he
    simpa [he] using h.1

/-- The notes of a move that triggers nothing are quiet where its source can be read. -/
theorem moveNotes_quiet (s : State) (src : BitVec 9) (k : Kind) (h : SourceReady s src k) :
    firstNote (moveNotes s src k) = .quiet := by
  obtain ⟨h1, h2, h3, h4⟩ := sourceReady_notes s src k h
  simp [moveNotes, h1, h2, h3, h4, firstNote]

/-- A ready trigger whose own checks are quiet has its effect. -/
theorem trigger_quiet (s : State) (fu port int w : Nat) (cb : Bool) (blk chk : List Note) (g : BitVec 4)
    (src : BitVec 9) (eff : Val → State → State) (h : Ready s fu port cb g src) (hb : firstNote blk = .quiet)
    (hc : firstNote chk = .quiet) :
    trigger fu port int w cb blk chk g src eff s =
      .next (let t := eff (readCode s src) (charge (consume s src) w); t.updCtx t.iss.n fun c => c.hold fu port int) := by
  obtain ⟨h1, h2, h3, h4⟩ := sourceReady_notes s src _ h.source
  have hp : privNote s fu port = .quiet := by
    have := h.allowed
    unfold privNote
    cases hq : portPriv fu port
    · simp
    · obtain ⟨a, b⟩ := this hq
      simp [a]
      intro hl
      rcases b with b | b
      · simp [b] at hl
      · exact b
  have hu : busyNote s fu port cb = .quiet := by
    have h5 := h.idle
    have h6 := h.alone
    unfold busyNote
    simp only [h5, Bool.false_or]
    cases cb
    · simp
    · rcases h6 rfl with e | e <;> simp [e]
  unfold trigger
  apply issue_quiet _ _ _ _ h.guard
  simp only [List.append_assoc, List.cons_append, List.nil_append]
  simp only [firstNote, hp, hu, h1, h2]
  rw [firstNote_append _ _ hb]
  simp [firstNote, h3, h4, hc]

/-- What reading a source leaves of the state. -/
theorem consume_eq (s : State) (src : BitVec 9) :
    consume s src = s ∨ consume s src = s.setCtx s.iss.n (sourced s src) := by
  unfold consume sourced
  cases srcOf src with
  | none => simp
  | some x => cases x <;> simp [State.updCtx]

@[simp] theorem consume_iss (s : State) (src : BitVec 9) : (consume s src).iss = s.iss := by
  rcases consume_eq s src with h | h <;> simp [h]

@[simp] theorem ctx_consume (s : State) (src : BitVec 9) : (consume s src).ctx s.iss.n = sourced s src := by
  unfold consume sourced
  cases srcOf src with
  | none => simp
  | some x => cases x <;> simp

theorem ctx_consume_other (s : State) (src : BitVec 9) (m : Nat) (h : m ≠ s.iss.n) :
    (consume s src).ctx m = s.ctx m := by
  rcases consume_eq s src with e | e
  · rw [e]
  · rw [e, State.ctx_setCtx_other _ _ _ _ h]

@[simp] theorem consume_serial (s : State) (src : BitVec 9) : (consume s src).serial = s.serial := by
  rcases consume_eq s src with h | h <;> simp [h]
@[simp] theorem consume_mem (s : State) (src : BitVec 9) : (consume s src).mem = s.mem := by
  rcases consume_eq s src with h | h <;> simp [h]
@[simp] theorem core_consume (s : State) (src : BitVec 9) (k : Nat) : (consume s src).core k = s.core k := by
  rcases consume_eq s src with h | h <;> simp [h]

/-- Reading a source changes the contexts alone. -/
theorem consume_rest (s : State) (src : BitVec 9) : consume s src = { s with ctxs := (consume s src).ctxs } := by
  rcases consume_eq s src with h | h
  · rw [h]
  · rw [h]; rfl

@[simp] theorem consume_cores (s : State) (src : BitVec 9) : (consume s src).cores = s.cores := by
  rcases consume_eq s src with h | h <;> simp [h]

/-- The cores after a charge depend on the cores and the latch alone. -/
theorem charge_cores (s : State) (src : BitVec 9) (w : Nat) :
    (charge (consume s src) w).cores = (charge s w).cores := by
  rcases consume_eq s src with h | h <;> rw [h] <;> rfl

/-- A move did what its four changed fields say. -/
theorem did_of (s t : State) (w : Nat) (src : BitVec 9) (f : Ctx → Ctx)
    (h1 : t.ctxs = ((consume s src).updCtx s.iss.n f).ctxs) (h2 : t.cores = (charge s w).cores)
    (h3 : t.iss = (charge s w).iss)
    (h4 : t = { s with ctxs := t.ctxs, cores := t.cores, serial := t.serial, iss := t.iss }) :
    Did s t w (f (sourced s src)) where
  ctx := by
    have : t.ctx s.iss.n = ((consume s src).updCtx s.iss.n f).ctx s.iss.n := congrArg (KMap.get Ctx.reset · s.iss.n) h1
    rw [this, State.ctx_updCtx, ctx_consume]
  others m h := by
    have : t.ctx m = ((consume s src).updCtx s.iss.n f).ctx m := congrArg (KMap.get Ctx.reset · m) h1
    rw [this, State.ctx_updCtx_other _ _ _ _ h, ctx_consume_other _ _ _ h]
  core := by
    have : t.core (coreOf s.iss.n) = (charge s w).core (coreOf s.iss.n) :=
      congrArg (KMap.get Core.reset · (coreOf s.iss.n)) h2
    rw [this, core_charge]
  cores j h := by
    have : t.core j = (charge s w).core j := congrArg (KMap.get Core.reset · j) h2
    rw [this]
    exact KMap.get_put_other _ _ _ _ _ h
  mem a := by rw [h4]
  iss := h3
  rest := h4

/-- A move that triggers nothing did what its contexts say. -/
theorem did_move (s t : State) (src : BitVec 9) (f : Ctx → Ctx)
    (h1 : t.ctxs = ((consume s src).updCtx s.iss.n f).ctxs) (h4 : t = { s with ctxs := t.ctxs, serial := t.serial }) :
    Did s t 0 (f (sourced s src)) := by
  have hc : t.cores = s.cores := by rw [h4]
  have hi : t.iss = s.iss := by rw [h4]
  exact
    { ctx := by
        have : t.ctx s.iss.n = ((consume s src).updCtx s.iss.n f).ctx s.iss.n :=
          congrArg (KMap.get Ctx.reset · s.iss.n) h1
        rw [this, State.ctx_updCtx, ctx_consume]
      others := fun m h => by
        have : t.ctx m = ((consume s src).updCtx s.iss.n f).ctx m := congrArg (KMap.get Ctx.reset · m) h1
        rw [this, State.ctx_updCtx_other _ _ _ _ h, ctx_consume_other _ _ _ h]
      core := by
        have : t.core (coreOf s.iss.n) = s.core (coreOf s.iss.n) := congrArg (KMap.get Core.reset · _) hc
        rw [this]; simp
      cores := fun j _ => congrArg (KMap.get Core.reset · j) hc
      mem := fun a => by rw [h4]
      iss := by rw [hi]; rfl
      rest := by rw [hc, hi]; exact h4 }

@[simp] theorem flyNew_iss (s : State) (lat fu : Nat) (v : Val) (flg : Flg) (tag : OutTag) :
    (flyNew s lat fu v flg tag).iss = s.iss := rfl

/-- A trigger whose effect changes its context alone, and may take a serial number. -/
theorem did_effect (s : State) (fu port int w k : Nat) (src : BitVec 9) (f : Ctx → Ctx) :
    Did s ((((charge (consume s src) w).ser k).updCtx s.iss.n f).updCtx s.iss.n
      fun c => c.hold fu port int) w ((f (sourced s src)).hold fu port int) := by
  rw [State.updCtx_updCtx]
  refine did_of s _ w src (fun c => (f c).hold fu port int) rfl ?_ ?_ ?_
  · exact charge_cores s src w
  · simp
  · rw [consume_rest]; rfl

theorem updCore_updCtx (s : State) (n c : Nat) (f : Ctx → Ctx) (q : Core → Core) :
    (s.updCore c q).updCtx n f = (s.updCtx n f).updCore c q := rfl

/-- What changes its core too, once its context is done. -/
theorem Did.core' (s t : State) (w : Nat) (c : Ctx) (q : Core → Core) (d : Did s t w c) :
    DidCore s (t.updCore (coreOf s.iss.n) q) w c q where
  ctx := d.ctx
  others := d.others
  core := by rw [State.core_updCore, d.core]
  cores j hj := by rw [State.core_updCore_other _ _ _ _ hj, d.cores j hj]
  mem := d.mem
  iss := d.iss
  rest := by
    have h := d.rest
    generalize hc : (t.updCore (coreOf s.iss.n) q).cores = x
    have e : t.updCore (coreOf s.iss.n) q = { t with cores := x } := by rw [← hc]; rfl
    rw [e]
    rw [h]

/-- A trigger whose effect changes its context and its core. -/
theorem did_effectCore (s : State) (fu port int w k : Nat) (src : BitVec 9) (f : Ctx → Ctx) (q : Core → Core) :
    DidCore s (((((charge (consume s src) w).ser k).updCtx s.iss.n f).updCore (coreOf s.iss.n)
      q).updCtx s.iss.n fun c => c.hold fu port int) w ((f (sourced s src)).hold fu port int) q := by
  rw [updCore_updCtx]
  exact Did.core' _ _ _ _ _ (did_effect s fu port int w k src f)

/-- Changing the issuing context once a trigger is charged. -/
theorem onCtx_charged (s : State) (src : BitVec 9) (w : Nat) (f : Ctx → Ctx) :
    onCtx f (charge (consume s src) w) =
      ((charge (consume s src) w).ser (charge (consume s src) w).serial).updCtx s.iss.n f := by
  unfold onCtx
  rw [show (charge (consume s src) w).iss.n = s.iss.n by simp, ser_self]

@[simp] theorem charged_n (s : State) (src : BitVec 9) (w : Nat) : (charge (consume s src) w).iss.n = s.iss.n := by simp
@[simp] theorem charged_serial (s : State) (src : BitVec 9) (w : Nat) :
    (charge (consume s src) w).serial = s.serial := by simp

/-- A result put in flight once a trigger is charged. -/
theorem flyNew_charged (s : State) (src : BitVec 9) (w lat fu : Nat) (v : Val) (flg : Flg) (f : Ctx → Ctx) :
    flyNew (onCtx f (charge (consume s src) w)) lat fu v flg 0 =
      ((charge (consume s src) w).ser (s.serial + 1)).updCtx s.iss.n
        fun c => landing s lat fu v flg (f c) := by
  have e1 : (onCtx f (charge (consume s src) w)).serial = s.serial := by simp [onCtx]
  have e2 : (onCtx f (charge (consume s src) w)).iss.n = s.iss.n := by simp [onCtx]
  have e3 : onCtx f (charge (consume s src) w) = (charge (consume s src) w).updCtx s.iss.n f := onCtx_charged s src w f
  unfold flyNew fresh
  rw [e1]
  show State.updCtx ((onCtx f (charge (consume s src) w)).ser (s.serial + 1))
    (onCtx f (charge (consume s src) w)).iss.n _ = _
  rw [e2, e3]
  show ((((charge (consume s src) w).ser (s.serial + 1)).updCtx s.iss.n f).updCtx s.iss.n _) = _
  rw [State.updCtx_updCtx]
  rfl

/-- The same with no other change. -/
theorem flyNew_charged_id (s : State) (src : BitVec 9) (w lat fu : Nat) (v : Val) (flg : Flg) :
    flyNew (charge (consume s src) w) lat fu v flg 0 =
      ((charge (consume s src) w).ser (s.serial + 1)).updCtx s.iss.n (landing s lat fu v flg) := by
  unfold flyNew fresh
  rw [charged_serial]
  show State.updCtx ((charge (consume s src) w).ser (s.serial + 1)) (charge (consume s src) w).iss.n _ = _
  rw [charged_n]
  rfl

/-- A trigger whose effect is one result in flight. -/
theorem did_flyNew (s : State) (fu port lat int w : Nat) (src : BitVec 9) (flg : Flg) (v : Val) :
    Did s ((flyNew (charge (consume s src) w) lat fu v flg 0).updCtx s.iss.n fun c => c.hold fu port int) w
      ((landing s lat fu v flg (sourced s src)).hold fu port int) := by
  rw [flyNew_charged_id]
  exact did_effect s fu port int w _ src _

/-- A trigger with quiet checks completes with the effect it has on its context. -/
theorem completes (s : State) (i : Instr) (fu port int w k : Nat) (cb : Bool) (blk chk : List Note) (g : BitVec 4)
    (src : BitVec 9) (eff : Val → State → State) (f : Ctx → Ctx)
    (h : exec i s = trigger fu port int w cb blk chk g src eff s) (hb : firstNote blk = .quiet)
    (hc : firstNote chk = .quiet)
    (he : eff (readCode s src) (charge (consume s src) w) =
      ((charge (consume s src) w).ser k).updCtx s.iss.n f) :
    Completes s i fu port int w cb g src f := by
  intro hr
  refine ⟨_, h.trans (trigger_quiet s _ _ _ _ _ _ _ _ _ _ hr hb hc), ?_⟩
  have hi : (eff (readCode s src) (charge (consume s src) w)).iss.n = s.iss.n := by rw [he]; exact congrArg (·.n) (charge_iss' s src w)
  show Did s ((eff (readCode s src) (charge (consume s src) w)).updCtx (eff (readCode s src) (charge (consume s src) w)).iss.n _) _ _
  rw [hi, he]
  exact did_effect s fu port int w k src f
where
  charge_iss' (s : State) (src : BitVec 9) (w : Nat) :
      (charge (consume s src) w).iss = { s.iss with weight := s.iss.weight + w } := by simp

/-- A trigger with quiet checks completes with the effect it has on its context and its core. -/
theorem completesCore (s : State) (i : Instr) (fu port int w k : Nat) (cb : Bool) (blk chk : List Note) (g : BitVec 4)
    (src : BitVec 9) (eff : Val → State → State) (f : Ctx → Ctx) (q : Core → Core)
    (h : exec i s = trigger fu port int w cb blk chk g src eff s) (hb : firstNote blk = .quiet)
    (hc : firstNote chk = .quiet)
    (he : eff (readCode s src) (charge (consume s src) w) =
      (((charge (consume s src) w).ser k).updCtx s.iss.n f).updCore (coreOf s.iss.n) q) :
    CompletesCore s i fu port int w cb g src f q := by
  intro hr
  refine ⟨_, h.trans (trigger_quiet s _ _ _ _ _ _ _ _ _ _ hr hb hc), ?_⟩
  have hi : (eff (readCode s src) (charge (consume s src) w)).iss.n = s.iss.n := by
    rw [he]; exact congrArg (·.n) (completes.charge_iss' s src w)
  show DidCore s ((eff (readCode s src) (charge (consume s src) w)).updCtx (eff (readCode s src) (charge (consume s src) w)).iss.n _) _ _ _
  rw [hi, he]
  exact did_effectCore s fu port int w k src f q

/-- The common notes of a ready trigger are quiet. -/
theorem ready_notes (s : State) (fu port : Nat) (cb : Bool) (g : BitVec 4) (src : BitVec 9) (h : Ready s fu port cb g src) :
    privNote s fu port = .quiet ∧ busyNote s fu port cb = .quiet := by
  constructor
  · have := h.allowed
    unfold privNote
    cases hq : portPriv fu port
    · simp
    · obtain ⟨a, b⟩ := this hq
      simp [a]
      intro hl
      rcases b with b | b
      · simp [b] at hl
      · exact b
  · have h5 := h.idle
    have h6 := h.alone
    unfold busyNote
    simp only [h5, Bool.false_or]
    cases cb
    · simp
    · rcases h6 rfl with e | e <;> simp [e]

/-- What a ready trigger meets is the first of its own blocks and checks. -/
theorem trigger_met (s : State) (fu port int w : Nat) (cb : Bool) (blk chk : List Note) (g : BitVec 4) (src : BitVec 9)
    (eff : Val → State → State) (h : Ready s fu port cb g src) (x : Note) (hx : x ≠ .quiet)
    (hn : firstNote (blk ++ chk) = x) :
    trigger fu port int w cb blk chk g src eff s = .next (raiseNote { s with free := s.free + 1 } x) := by
  obtain ⟨h1, h2, h3, h4⟩ := sourceReady_notes s src _ h.source
  obtain ⟨hp, hu⟩ := ready_notes s fu port cb g src h
  have e : firstNote ([privNote s fu port, busyNote s fu port cb, headBusy s src, headBlock s src] ++ blk ++
      [headFault s src, kindNote s src (triggerKind fu port)] ++ chk) = x := by
    simp only [List.append_assoc, List.cons_append, List.nil_append]
    simp only [firstNote, hp, hu, h1, h2, h3, h4]
    have hb : firstNote (blk ++ .quiet :: .quiet :: chk) = firstNote (blk ++ chk) := by
      by_cases hq : firstNote blk = .quiet
      · rw [firstNote_append _ _ hq, firstNote_append _ _ hq]; rfl
      · rw [firstNote_loud _ _ hq, firstNote_loud _ _ hq]
    rw [hb, hn]
  unfold trigger
  rw [issue_note _ _ _ _ h.guard (by rw [e]; exact hx), e]
where
  firstNote_loud (l m : List Note) (h : firstNote l ≠ .quiet) : firstNote (l ++ m) = firstNote l := by
    induction l with
    | nil => exact absurd rfl h
    | cons w l ih => cases w <;> simp_all [firstNote]

/-- A ready trigger whose first note is a trap raises it. -/
theorem traps (s : State) (i : Instr) (fu port int w : Nat) (cb : Bool) (blk chk : List Note) (g : BitVec 4)
    (src : BitVec 9) (eff : Val → State → State) (r code : Nat) (v : Word)
    (h : exec i s = trigger fu port int w cb blk chk g src eff s) (hr : Ready s fu port cb g src)
    (hn : firstNote (blk ++ chk) = .trap r code v) : Traps s i code v :=
  ⟨r, h.trans (trigger_met s fu port int w cb blk chk g src eff hr _ (by simp) hn)⟩

/-- A ready trigger whose first note is a block blocks. -/
theorem blocks (s : State) (i : Instr) (fu port int w : Nat) (cb : Bool) (blk chk : List Note) (g : BitVec 4)
    (src : BitVec 9) (eff : Val → State → State) (h : exec i s = trigger fu port int w cb blk chk g src eff s)
    (hr : Ready s fu port cb g src) (hn : firstNote (blk ++ chk) = .block) : Blocks s i :=
  h.trans (trigger_met s fu port int w cb blk chk g src eff hr _ (by simp) hn)

end Sys2Proof.Machine
end

