-- ==== Sys2Proof/Laws/Tile.lean ====
section
/-!
SUPPORT. Lanes of a row and rows of a tile: reading what was put together, and reading beside what was replaced.
-/

namespace Sys2Proof.Machine

/-- A number is its part above a field, the field, and the part below. -/
theorem split_field (t a w : Nat) :
    t = (t >>> (a + w)) <<< (a + w) + ((t >>> a) % 2 ^ w) <<< a + t % 2 ^ a := by
  simp only [Nat.shiftRight_eq_div_pow, Nat.shiftLeft_eq, Nat.pow_add]
  have h1 := Nat.div_add_mod t (2 ^ a)
  have h2 := Nat.div_add_mod (t / 2 ^ a) (2 ^ w)
  rw [Nat.div_div_eq_div_mul] at h2
  calc t = 2 ^ a * (t / 2 ^ a) + t % 2 ^ a := h1.symm
    _ = 2 ^ a * (2 ^ w * (t / (2 ^ a * 2 ^ w)) + t / 2 ^ a % 2 ^ w) + t % 2 ^ a := by rw [h2]
    _ = _ := by ring

/-- A number of which a field is replaced. -/
theorem replace_field (t a w v : Nat) :
    t - ((t >>> a) % 2 ^ w) <<< a + v <<< a = (t >>> (a + w)) <<< (a + w) + v <<< a + t % 2 ^ a := by
  have h := split_field t a w
  generalize (t >>> (a + w)) <<< (a + w) = x at h ⊢
  generalize ((t >>> a) % 2 ^ w) <<< a = y at h ⊢
  generalize t % 2 ^ a = z at h ⊢
  generalize v <<< a = u
  omega

/-- Bit `i` of a number put together of three parts. -/
theorem testBit_parts (hi v lo a w i : Nat) (hv : v < 2 ^ w) (hl : lo < 2 ^ a) :
    (hi <<< (a + w) + v <<< a + lo).testBit i =
      if i < a then lo.testBit i else if i < a + w then v.testBit (i - a) else hi.testBit (i - (a + w)) := by
  have e : hi <<< (a + w) + v <<< a + lo = 2 ^ a * (2 ^ w * hi + v) + lo := by
    simp only [Nat.shiftLeft_eq, Nat.pow_add]; ring
  rw [e, Nat.testBit_two_pow_mul_add _ hl]
  by_cases h1 : i < a
  · simp [h1]
  · rw [if_neg h1, if_neg h1, Nat.testBit_two_pow_mul_add _ hv]
    by_cases h2 : i < a + w
    · rw [if_pos h2, if_pos (by omega)]
    · rw [if_neg h2, if_neg (by omega), show i - a - w = i - (a + w) by omega]

/-- Bit `i` of an image of which a field at `a` is replaced. -/
theorem getLsbD_replace (n w a i : Nat) (t : BitVec n) (r : BitVec w) :
    (BitVec.ofNat n (t.toNat - ((t.toNat >>> a) % 2 ^ w) <<< a + r.toNat <<< a)).getLsbD i = (decide (i < n) &&
      if i < a then t.getLsbD i else if i < a + w then r.getLsbD (i - a) else t.getLsbD i) := by
  rw [replace_field, BitVec.getLsbD_ofNat, testBit_parts _ _ _ _ _ _ r.isLt (Nat.mod_lt _ (Nat.two_pow_pos _))]
  congr 1
  by_cases h1 : i < a
  · rw [if_pos h1, if_pos h1, Nat.testBit_mod_two_pow, decide_eq_true h1, Bool.true_and, BitVec.getLsbD]
  · rw [if_neg h1, if_neg h1]
    by_cases h2 : i < a + w
    · rw [if_pos h2, if_pos h2, BitVec.getLsbD]
    · rw [if_neg h2, if_neg h2, Nat.testBit_shiftRight, BitVec.getLsbD]
      congr 1; omega

/-- Bit `i` of row `j`. -/
theorem getLsbD_tileRow (t : Tile) (j i : Nat) :
    (tileRow t j).getLsbD i = (decide (i < 2048) && t.getLsbD (2048 * j + i)) := by
  rw [tileRow, BitVec.getLsbD_ofNat, Nat.testBit_shiftRight, BitVec.getLsbD]

theorem getLsbD_tileSet (t : Tile) (k i : Nat) (r : Row) :
    (tileSet t k r).getLsbD i = (decide (i < 16384) &&
      if i < 2048 * k then t.getLsbD i else if i < 2048 * k + 2048 then r.getLsbD (i - 2048 * k) else t.getLsbD i) :=
  getLsbD_replace 16384 2048 (2048 * k) i t r

/-- The row that was put in reads back. -/
theorem tileRow_tileSet_same (t : Tile) (k : Nat) (r : Row) (h : k < 8) : tileRow (tileSet t k r) k = r := by
  apply BitVec.eq_of_getLsbD_eq
  intro i hi
  rw [getLsbD_tileRow, getLsbD_tileSet]
  have h1 : ¬ (2048 * k + i < 2048 * k) := by omega
  have h2 : 2048 * k + i < 2048 * k + 2048 := by omega
  have h3 : 2048 * k + i < 16384 := by omega
  simp [h3, hi]

/-- The other rows stay. -/
theorem tileRow_tileSet_other (t : Tile) (k j : Nat) (r : Row) (h : j ≠ k) (hj : j < 8) :
    tileRow (tileSet t k r) j = tileRow t j := by
  apply BitVec.eq_of_getLsbD_eq
  intro i hi
  rw [getLsbD_tileRow, getLsbD_tileRow, getLsbD_tileSet]
  have h3 : 2048 * j + i < 16384 := by omega
  rcases Nat.lt_or_gt_of_ne h with h1 | h1
  · have : 2048 * j + i < 2048 * k := by omega
    simp [h3, this, hi]
  · have h4 : ¬ (2048 * j + i < 2048 * k) := by omega
    have h5 : ¬ (2048 * j + i < 2048 * k + 2048) := by omega
    simp [h3, h4, h5, hi]

/-- Bit `i` of a packed number. -/
theorem testBit_packNat (w : Nat) (f : Nat → Nat) (n i : Nat) (hw : 0 < w) :
    (packNat w f n).testBit i = (decide (i < w * n) && (f (i / w)).testBit (i % w)) := by
  have lt : ∀ m, packNat w f m < 2 ^ (w * m) := by
    intro m
    induction m with
    | zero => simp [packNat]
    | succ m ih =>
      rw [packNat, Nat.mul_succ, Nat.pow_add, Nat.shiftLeft_eq]
      have : f m % 2 ^ w < 2 ^ w := Nat.mod_lt _ (Nat.two_pow_pos _)
      nlinarith [Nat.two_pow_pos (w * m)]
  induction n with
  | zero => simp [packNat]
  | succ n ih =>
    rw [packNat, Nat.add_comm, Nat.shiftLeft_eq, Nat.mul_comm, Nat.testBit_two_pow_mul_add _ (lt n), ih]
    by_cases h1 : i < w * n
    · have : i < w * (n + 1) := by rw [Nat.mul_succ]; omega
      simp [h1, this]
    · rw [if_neg h1, Nat.testBit_mod_two_pow]
      by_cases h2 : i < w * (n + 1)
      · have h3 : i - w * n < w := by rw [Nat.mul_succ] at h2; omega
        have h4 : i / w = n := by
          apply Nat.div_eq_of_lt_le
          · rw [Nat.mul_comm]; omega
          · rw [Nat.mul_comm]; exact h2
        have h5 : i % w = i - w * n := by rw [Nat.mod_def, h4]
        simp [h2, h3, h4, h5]
      · have h3 : ¬ (i - w * n < w) := by rw [Nat.mul_succ] at h2; omega
        simp [h2, h3]

/-- Row `k` of a tile given row by row. -/
@[simp] theorem tileRow_tileOf (f : Nat → Row) (k : Nat) (h : k < 8) : tileRow (tileOf f) k = f k := by
  apply BitVec.eq_of_getLsbD_eq
  intro i hi
  rw [getLsbD_tileRow, tileOf, BitVec.getLsbD_ofNat, testBit_packNat _ _ _ _ (by norm_num)]
  have h1 : 2048 * k + i < 16384 := by omega
  have h2 : (2048 * k + i) / 2048 = k := by omega
  have h3 : (2048 * k + i) % 2048 = i := by omega
  simp [h1, h2, h3, hi, BitVec.getLsbD]

@[simp] theorem tileRow_tileFill (r : Row) (k : Nat) (h : k < 8) : tileRow (tileFill r) k = r := tileRow_tileOf _ k h

/-- Lane `i` of a row given lane by lane. -/
@[simp] theorem lane_rowOf (f : Nat → BitVec 32) (i : Nat) (h : i < 64) : lane (rowOf f) i = f i := by
  apply BitVec.eq_of_getLsbD_eq
  intro j hj
  rw [lane, BitVec.getLsbD_ofNat, Nat.testBit_shiftRight, rowOf, ← BitVec.getLsbD, BitVec.getLsbD_ofNat,
    testBit_packNat _ _ _ _ (by norm_num)]
  have h1 : 32 * i + j < 2048 := by omega
  have h2 : (32 * i + j) / 32 = i := by omega
  have h3 : (32 * i + j) % 32 = j := by omega
  simp [h1, h2, h3, hj, BitVec.getLsbD]

@[simp] theorem lane_rowFill (v : BitVec 32) (i : Nat) (h : i < 64) : lane (rowFill v) i = v := lane_rowOf _ i h

end Sys2Proof.Machine
end

