-- ==== Sys2Proof/Laws/Memory.lean ====
section
/-!
SUPPORT. The byte memory: every operation keeps the canonical form; what a write puts in reads back; a write leaves
every other byte alone; a wide read is its bytes, lowest first.
-/

namespace Sys2Proof.Machine

/-- Addresses strictly rise. -/
def Rising (m : List Host.Cell) : Prop := m.Pairwise fun a b => a.1 < b.1

theorem sorted_iff (m : List Host.Cell) : KMap.sorted m = true ↔ Rising m := by
  induction m with
  | nil => simp [KMap.sorted, Rising]
  | cons e m ih =>
    obtain ⟨k, v⟩ := e
    cases m with
    | nil => simp [KMap.sorted, Rising]
    | cons f m =>
      obtain ⟨k', w⟩ := f
      simp only [KMap.sorted, Bool.and_eq_true, decide_eq_true_eq, ih, Rising, List.pairwise_cons]
      constructor
      · rintro ⟨h1, h2, h3⟩
        refine ⟨?_, h2, h3⟩
        intro b hb
        rcases List.mem_cons.1 hb with rfl | hb
        · exact h1
        · exact lt_trans h1 (h2 b hb)
      · rintro ⟨h1, h2, h3⟩
        exact ⟨h1 _ (List.mem_cons_self ..), h2, h3⟩

theorem wf_iff (m : List Host.Cell) : Memory.wf m = true ↔ Rising m ∧ ∀ e ∈ m, e.2 ≠ Memory.unlisted := by
  simp [Memory.wf, KMap.wf, sorted_iff]

@[simp] theorem wf_nil : Memory.wf [] = true := rfl

/-- A part of a canonical memory is canonical. -/
theorem wf_filter (m : List Host.Cell) (p : Host.Cell → Bool) (h : Memory.wf m = true) :
    Memory.wf (m.filter p) = true := by
  rw [wf_iff] at *
  exact ⟨h.1.filter p, fun e he => h.2 e (List.mem_filter.1 he).1⟩

/-- What is not listed reads as the unlisted byte. -/
theorem read_of_not_mem (m : List Host.Cell) (x : Nat) (h : ∀ e ∈ m, e.1 ≠ x) : Memory.read m x = Memory.unlisted := by
  unfold Memory.read
  induction m with
  | nil => rfl
  | cons e m ih =>
    obtain ⟨k, v⟩ := e
    have : x ≠ k := fun e => h (k, v) (List.mem_cons_self ..) e.symm
    rw [KMap.get, if_neg this]
    exact ih fun e he => h e (List.mem_cons_of_mem _ he)

theorem read_append (l m : List Host.Cell) (x : Nat) (h : ∀ e ∈ l, e.1 ≠ x) :
    Memory.read (l ++ m) x = Memory.read m x := by
  unfold Memory.read
  induction l with
  | nil => rfl
  | cons e l ih =>
    obtain ⟨k, v⟩ := e
    have : x ≠ k := fun e => h (k, v) (List.mem_cons_self ..) e.symm
    rw [List.cons_append, KMap.get, if_neg this]
    exact ih fun e he => h e (List.mem_cons_of_mem _ he)

/-! ## The entries of a write -/

theorem cells_keys (n : Nat) : ∀ a v, ∀ e ∈ Memory.cells a v n, a ≤ e.1 ∧ e.1 < a + n ∧ e.2 ≠ Memory.unlisted := by
  induction n with
  | zero => intro a v e he; simp [Memory.cells] at he
  | succ n ih =>
    intro a v e he
    rw [Memory.cells] at he
    split at he
    · obtain ⟨h1, h2, h3⟩ := ih _ _ e he
      exact ⟨by omega, by omega, h3⟩
    · next hne =>
      rcases List.mem_cons.1 he with rfl | he
      · exact ⟨le_refl a, by simp, hne⟩
      · obtain ⟨h1, h2, h3⟩ := ih _ _ e he
        exact ⟨by omega, by omega, h3⟩

theorem cells_rising (n : Nat) : ∀ a v, Rising (Memory.cells a v n) := by
  induction n with
  | zero => intro a v; simp [Memory.cells, Rising]
  | succ n ih =>
    intro a v
    rw [Memory.cells]
    split
    · exact ih _ _
    · refine List.pairwise_cons.2 ⟨?_, ih _ _⟩
      intro e he
      have := (cells_keys n _ _ e he).1
      simp only
      omega

theorem read_cells (n : Nat) : ∀ a v x, Memory.read (Memory.cells a v n) x =
    if a ≤ x ∧ x < a + n then BitVec.ofNat 8 (v >>> (8 * (x - a))) else Memory.unlisted := by
  induction n with
  | zero =>
    intro a v x
    rw [if_neg (by omega)]
    rfl
  | succ n ih =>
    intro a v x
    rw [Memory.cells]
    by_cases hx : x = a
    · subst hx
      rw [if_pos (⟨Nat.le_refl x, by omega⟩ : x ≤ x ∧ x < x + (n + 1)), Nat.sub_self, Nat.mul_zero, Nat.shiftRight_zero]
      by_cases h0 : BitVec.ofNat 8 v = Memory.unlisted
      · rw [if_pos h0, ih, if_neg (by omega), h0]
      · rw [if_neg h0, Memory.read, KMap.get, if_pos rfl]
    · have e : Memory.read (Memory.cells (a + 1) (v >>> 8) n) x =
          if a ≤ x ∧ x < a + (n + 1) then BitVec.ofNat 8 (v >>> (8 * (x - a))) else Memory.unlisted := by
        rw [ih]
        by_cases h : a + 1 ≤ x ∧ x < a + 1 + n
        · rw [if_pos h, if_pos (by omega), ← Nat.shiftRight_add]
          congr 2; omega
        · rw [if_neg h, if_neg (by omega)]
      split
      · exact e
      · rw [Memory.read, KMap.get, if_neg hx]
        exact e

/-! ## The entries from an address on -/

theorem above_mem (a : Nat) (m : List Host.Cell) (h : Rising m) : ∀ e ∈ Memory.above a m, e ∈ m ∧ a ≤ e.1 := by
  induction m with
  | nil => intro e he; simp [Memory.above] at he
  | cons f m ih =>
    obtain ⟨k, b⟩ := f
    have h' := List.pairwise_cons.1 h
    intro e he
    rw [Memory.above] at he
    split at he
    · obtain ⟨h1, h2⟩ := ih h'.2 e he
      exact ⟨List.mem_cons_of_mem _ h1, h2⟩
    · next hk =>
      refine ⟨he, ?_⟩
      rcases List.mem_cons.1 he with rfl | he
      · simp only; omega
      · have := h'.1 e he
        simp only at this
        omega

theorem above_rising (a : Nat) (m : List Host.Cell) (h : Rising m) : Rising (Memory.above a m) := by
  induction m with
  | nil => simp [Memory.above, Rising]
  | cons f m ih =>
    obtain ⟨k, b⟩ := f
    rw [Memory.above]
    split
    · exact ih (List.pairwise_cons.1 h).2
    · exact h

theorem read_above (a x : Nat) (m : List Host.Cell) (hx : a ≤ x) : Memory.read (Memory.above a m) x = Memory.read m x := by
  induction m with
  | nil => rfl
  | cons f m ih =>
    obtain ⟨k, b⟩ := f
    rw [Memory.above]
    split
    · rw [ih]
      unfold Memory.read
      rw [KMap.get, if_neg (by omega)]
    · rfl

/-! ## Writes -/

/-- The keys of a written memory are those of the write and those of the memory. -/
theorem writeN_keys (m : List Host.Cell) (a v n : Nat) (h : Rising m) :
    ∀ e ∈ Memory.writeN m a v n, (a ≤ e.1 ∧ e.1 < a + n ∧ e.2 ≠ Memory.unlisted) ∨ e ∈ m := by
  induction m with
  | nil => intro e he; exact .inl (cells_keys n a v e he)
  | cons f m ih =>
    obtain ⟨k, b⟩ := f
    intro e he
    rw [Memory.writeN] at he
    split at he
    · rcases List.mem_cons.1 he with rfl | he
      · exact .inr (List.mem_cons_self ..)
      · rcases ih (List.pairwise_cons.1 h).2 e he with h1 | h1
        · exact .inl h1
        · exact .inr (List.mem_cons_of_mem _ h1)
    · rcases List.mem_append.1 he with he | he
      · exact .inl (cells_keys n a v e he)
      · exact .inr (above_mem _ _ h e he).1

theorem writeN_rising (m : List Host.Cell) (a v n : Nat) (h : Rising m) : Rising (Memory.writeN m a v n) := by
  induction m with
  | nil => exact cells_rising n a v
  | cons f m ih =>
    obtain ⟨k, b⟩ := f
    have h' := List.pairwise_cons.1 h
    rw [Memory.writeN]
    split
    · next hk =>
      refine List.pairwise_cons.2 ⟨?_, ih h'.2⟩
      intro e he
      rcases writeN_keys m a v n h'.2 e he with h1 | h1
      · simp only; omega
      · exact h'.1 e h1
    · refine List.pairwise_append.2 ⟨cells_rising n a v, above_rising _ _ h, ?_⟩
      intro x hx y hy
      have h1 := (cells_keys n a v x hx).2.1
      have h2 := (above_mem _ _ h y hy).2
      omega

/-- A write keeps the canonical form. -/
theorem wf_writeN (m : List Host.Cell) (a v n : Nat) (h : Memory.wf m = true) : Memory.wf (Memory.writeN m a v n) = true := by
  rw [wf_iff] at *
  refine ⟨writeN_rising m a v n h.1, ?_⟩
  intro e he
  rcases writeN_keys m a v n h.1 e he with h1 | h1
  · exact h1.2.2
  · exact h.2 e h1

/-- Read after write: the bytes written, lowest first, and every other byte as before (R3). -/
theorem read_writeN (m : List Host.Cell) (a v n x : Nat) (h : Rising m) : Memory.read (Memory.writeN m a v n) x =
    if a ≤ x ∧ x < a + n then BitVec.ofNat 8 (v >>> (8 * (x - a))) else Memory.read m x := by
  induction m with
  | nil =>
    rw [Memory.writeN, read_cells]
    rfl
  | cons f m ih =>
    obtain ⟨k, b⟩ := f
    have h' := List.pairwise_cons.1 h
    rw [Memory.writeN]
    split
    · next hk =>
      by_cases hx : x = k
      · subst hx
        rw [if_neg (by omega)]
        simp [Memory.read, KMap.get]
      · unfold Memory.read at *
        rw [KMap.get, if_neg hx, ih h'.2, KMap.get, if_neg hx]
    · next hk =>
      by_cases hin : a ≤ x ∧ x < a + n
      · rw [if_pos hin]
        by_cases hz : ∃ e ∈ Memory.cells a v n, e.1 = x
        · have e1 : Memory.read (Memory.cells a v n ++ Memory.above (a + n) ((k, b) :: m)) x =
              Memory.read (Memory.cells a v n) x := by
            generalize Memory.cells a v n = l at hz
            unfold Memory.read
            induction l with
            | nil => simp at hz
            | cons c l il =>
              obtain ⟨q, w⟩ := c
              by_cases hq : x = q
              · simp [KMap.get, hq]
              · rw [List.cons_append, KMap.get, if_neg hq, KMap.get, if_neg hq]
                apply il
                obtain ⟨e, he, hex⟩ := hz
                rcases List.mem_cons.1 he with rfl | he
                · exact absurd hex.symm hq
                · exact ⟨e, he, hex⟩
          rw [e1, read_cells, if_pos hin]
        · have hz' : ∀ e ∈ Memory.cells a v n, e.1 ≠ x := fun e he hx => hz ⟨e, he, hx⟩
          rw [read_append _ _ _ hz']
          have e2 : Memory.read (Memory.above (a + n) ((k, b) :: m)) x = Memory.unlisted := by
            apply read_of_not_mem
            intro e he
            have := (above_mem _ _ h e he).2
            omega
          have e3 := read_of_not_mem _ _ hz'
          rw [read_cells, if_pos hin] at e3
          rw [e2, e3]
      · rw [if_neg hin]
        have hz' : ∀ e ∈ Memory.cells a v n, e.1 ≠ x := by
          intro e he
          have := cells_keys n a v e he
          omega
        rw [read_append _ _ _ hz']
        by_cases hx : a + n ≤ x
        · exact read_above _ _ _ hx
        · have hlt : x < a := by omega
          rw [read_of_not_mem _ _ (by
            intro e he
            have := (above_mem _ _ h e he).2
            omega)]
          symm
          apply read_of_not_mem
          intro e he
          rcases List.mem_cons.1 he with rfl | he
          · simp only; omega
          · have := h'.1 e he
            simp only at this
            omega

/-! ## Wide reads -/

theorem packNat_congr (w n : Nat) (f g : Nat → Nat) (h : ∀ i, i < n → f i = g i) : packNat w f n = packNat w g n := by
  induction n with
  | zero => rfl
  | succ n ih => rw [packNat, packNat, ih fun i hi => h i (by omega), h n (by omega)]

theorem packNat_zero (w n : Nat) : packNat w (fun _ => 0) n = 0 := by
  induction n with
  | zero => rfl
  | succ n ih => simp [packNat, ih]

/-- One more byte at position `j` of a packed number that has none there. -/
theorem packNat_single (f : Nat → Nat) (j b n : Nat) (hj : j < n) (hb : b < 256) (h0 : f j = 0) :
    packNat 8 (fun i => if i = j then b else f i) n = b <<< (8 * j) + packNat 8 f n := by
  induction n with
  | zero => omega
  | succ n ih =>
    rw [packNat, packNat]
    by_cases hn : n = j
    · subst hn
      rw [packNat_congr 8 n (fun i => if i = n then b else f i) f (fun i hi => by simp [show i ≠ n by omega])]
      simp only [if_true, h0, Nat.zero_mod, Nat.zero_shiftLeft, Nat.add_zero]
      rw [Nat.mod_eq_of_lt (by simpa using hb), Nat.add_comm]
    · rw [ih (by omega), if_neg hn, Nat.add_assoc]

/-- A wide read is its bytes, the lowest address lowest (R3). -/
theorem readN_eq (m : List Host.Cell) (a n : Nat) (h : Rising m) :
    Memory.readN m a n = packNat 8 (fun i => (Memory.read m (a + i)).toNat) n := by
  induction m with
  | nil =>
    rw [Memory.readN, packNat_congr 8 n (fun i => (Memory.read [] (a + i)).toNat) (fun _ => 0) (fun i _ => rfl), packNat_zero]
  | cons f m ih =>
    obtain ⟨k, b⟩ := f
    have h' := List.pairwise_cons.1 h
    rw [Memory.readN]
    split
    · next hk =>
      rw [ih h'.2]
      apply packNat_congr
      intro i hi
      unfold Memory.read
      rw [KMap.get, if_neg (by omega)]
    · next hk =>
      split
      · next hk2 =>
        rw [ih h'.2]
        have hz : Memory.read m (a + (k - a)) = Memory.unlisted := by
          apply read_of_not_mem
          intro e he
          have := h'.1 e he
          simp only at this
          omega
        rw [← packNat_single (fun i => (Memory.read m (a + i)).toNat) (k - a) b.toNat n (by omega) b.isLt
          (by rw [hz]; rfl)]
        apply packNat_congr
        intro i hi
        by_cases hik : i = k - a
        · subst hik
          unfold Memory.read
          rw [if_pos rfl, KMap.get, if_pos (by omega)]
        · rw [if_neg hik]
          unfold Memory.read
          rw [KMap.get, if_neg (by omega)]
      · next hk2 =>
        rw [packNat_congr 8 n _ (fun _ => 0) (fun i hi => ?_), packNat_zero]
        rw [read_of_not_mem]
        · rfl
        · intro e he
          rcases List.mem_cons.1 he with rfl | he
          · simp only; omega
          · have := h'.1 e he
            simp only at this
            omega

/-- A single byte write. -/
theorem wf_write (m : List Host.Cell) (a : Nat) (v : Byte) (h : Memory.wf m = true) : Memory.wf (Memory.write m a v) = true := by
  rw [wf_iff] at *
  have hdel : ∀ l : List Host.Cell, Rising l → Rising (KMap.del l a) ∧ ∀ e ∈ KMap.del l a, e ∈ l := by
    intro l
    induction l with
    | nil => intro _; simp [KMap.del, Rising]
    | cons f l il =>
      obtain ⟨k, b⟩ := f
      intro hl
      have h' := List.pairwise_cons.1 hl
      obtain ⟨i1, i2⟩ := il h'.2
      rw [KMap.del]
      split
      · exact ⟨i1, fun e he => List.mem_cons_of_mem _ (i2 e he)⟩
      · refine ⟨List.pairwise_cons.2 ⟨fun e he => h'.1 e (i2 e he), i1⟩, ?_⟩
        intro e he
        rcases List.mem_cons.1 he with rfl | he
        · exact List.mem_cons_self ..
        · exact List.mem_cons_of_mem _ (i2 e he)
  have hput : ∀ l : List Host.Cell, Rising l → Rising (KMap.put l a v) ∧
      ∀ e ∈ KMap.put l a v, e = (a, v) ∨ e ∈ l := by
    intro l
    induction l with
    | nil => intro _; simp [KMap.put, Rising]
    | cons f l il =>
      obtain ⟨k, b⟩ := f
      intro hl
      have h' := List.pairwise_cons.1 hl
      obtain ⟨i1, i2⟩ := il h'.2
      rw [KMap.put]
      split
      · next hk =>
        refine ⟨List.pairwise_cons.2 ⟨?_, hl⟩, ?_⟩
        · intro e he
          rcases List.mem_cons.1 he with rfl | he
          · exact hk
          · exact lt_trans hk (h'.1 e he)
        · intro e he
          rcases List.mem_cons.1 he with rfl | he
          · exact .inl rfl
          · exact .inr he
      · split
        · next hk =>
          subst hk
          refine ⟨List.pairwise_cons.2 ⟨h'.1, h'.2⟩, ?_⟩
          intro e he
          rcases List.mem_cons.1 he with rfl | he
          · exact .inl rfl
          · exact .inr (List.mem_cons_of_mem _ he)
        · next hk1 hk2 =>
          refine ⟨List.pairwise_cons.2 ⟨?_, i1⟩, ?_⟩
          · intro e he
            rcases i2 e he with rfl | he
            · simp only; omega
            · exact h'.1 e he
          · intro e he
            rcases List.mem_cons.1 he with rfl | he
            · exact .inr (List.mem_cons_self ..)
            · rcases i2 e he with h1 | h1
              · exact .inl h1
              · exact .inr (List.mem_cons_of_mem _ h1)
  unfold Memory.write KMap.set
  split
  · exact ⟨(hdel m h.1).1, fun e he => h.2 e ((hdel m h.1).2 e he)⟩
  · next hv =>
    refine ⟨(hput m h.1).1, ?_⟩
    intro e he
    rcases (hput m h.1).2 e he with rfl | he
    · exact hv
    · exact h.2 e he

end Sys2Proof.Machine
end

