-- ==== Sys2Proof/Laws/PerInstr.lean ====
section
/-!
SUPPORT. Facts about each instruction as syntax: its word keeps every field of its move (R31).
-/

namespace Sys2Proof.Laws

/-- The four fields of a move are read back from its word. -/
theorem ofWord_word (m : Move) : Move.ofWord m.word = m := by
  obtain ⟨g, fu, port, src⟩ := m
  simp only [Move.ofWord, Move.word, Move.mk.injEq]
  refine ⟨?_, ?_, ?_, ?_⟩ <;> apply BitVec.eq_of_getLsbD_eq <;> intro k hk <;>
    simp only [BitVec.getLsbD_extractLsb', BitVec.getLsbD_append, hk, decide_true, Bool.true_and] <;>
    split_ifs <;> first | omega | (congr 1; omega)

/-- A move that is not guarded with the empty slot's code has another word than the empty slot (R32). -/
theorem word_ne_emptySlot (m : Move) (h : m.g ≠ 8) : m.word ≠ emptySlot := by
  intro e
  have := congrArg (fun w => (Move.ofWord w).g) e
  simp only [ofWord_word] at this
  exact h (this.trans (by decide))

/-- The word of an instruction holds its move, and an instruction without a move has no word. -/
def Fields.Statement (i : Instr) : Prop := (encode i).map Move.ofWord = i.move

/-- The law of the family, for any instruction. -/
theorem fields_of_word (i : Instr) : Fields.Statement i := by
  unfold Fields.Statement encode
  cases i.move with
  | none => rfl
  | some m => simp [ofWord_word]

theorem Fields.operandPortWrite : ∀ g f p src, Fields.Statement (.operandPortWrite g f p src) :=
  fun _ _ _ _ => fields_of_word _
theorem Fields.scalarRegisterWrite : ∀ g r src, Fields.Statement (.scalarRegisterWrite g r src) :=
  fun _ _ _ => fields_of_word _
theorem Fields.guardWrite : ∀ g r src, Fields.Statement (.guardWrite g r src) :=
  fun _ _ _ => fields_of_word _
theorem Fields.tileRowWrite : ∀ g t src, Fields.Statement (.tileRowWrite g t src) :=
  fun _ _ _ => fields_of_word _
theorem Fields.wholeTileWrite : ∀ g t src, Fields.Statement (.wholeTileWrite g t src) :=
  fun _ _ _ => fields_of_word _
theorem Fields.saAdd : ∀ g u src, Fields.Statement (.saAdd g u src) :=
  fun _ _ _ => fields_of_word _
theorem Fields.saSub : ∀ g u src, Fields.Statement (.saSub g u src) :=
  fun _ _ _ => fields_of_word _
theorem Fields.saAnd : ∀ g u src, Fields.Statement (.saAnd g u src) :=
  fun _ _ _ => fields_of_word _
theorem Fields.saOr : ∀ g u src, Fields.Statement (.saOr g u src) :=
  fun _ _ _ => fields_of_word _
theorem Fields.saXor : ∀ g u src, Fields.Statement (.saXor g u src) :=
  fun _ _ _ => fields_of_word _
theorem Fields.saAndn : ∀ g u src, Fields.Statement (.saAndn g u src) :=
  fun _ _ _ => fields_of_word _
theorem Fields.saShl : ∀ g u src, Fields.Statement (.saShl g u src) :=
  fun _ _ _ => fields_of_word _
theorem Fields.saShr : ∀ g u src, Fields.Statement (.saShr g u src) :=
  fun _ _ _ => fields_of_word _
theorem Fields.saSra : ∀ g u src, Fields.Statement (.saSra g u src) :=
  fun _ _ _ => fields_of_word _
theorem Fields.saRotl : ∀ g u src, Fields.Statement (.saRotl g u src) :=
  fun _ _ _ => fields_of_word _
theorem Fields.saEq : ∀ g u src, Fields.Statement (.saEq g u src) :=
  fun _ _ _ => fields_of_word _
theorem Fields.saNe : ∀ g u src, Fields.Statement (.saNe g u src) :=
  fun _ _ _ => fields_of_word _
theorem Fields.saLt : ∀ g u src, Fields.Statement (.saLt g u src) :=
  fun _ _ _ => fields_of_word _
theorem Fields.saLtu : ∀ g u src, Fields.Statement (.saLtu g u src) :=
  fun _ _ _ => fields_of_word _
theorem Fields.saLe : ∀ g u src, Fields.Statement (.saLe g u src) :=
  fun _ _ _ => fields_of_word _
theorem Fields.saLeu : ∀ g u src, Fields.Statement (.saLeu g u src) :=
  fun _ _ _ => fields_of_word _
theorem Fields.saMin : ∀ g u src, Fields.Statement (.saMin g u src) :=
  fun _ _ _ => fields_of_word _
theorem Fields.saMinu : ∀ g u src, Fields.Statement (.saMinu g u src) :=
  fun _ _ _ => fields_of_word _
theorem Fields.saMax : ∀ g u src, Fields.Statement (.saMax g u src) :=
  fun _ _ _ => fields_of_word _
theorem Fields.saMaxu : ∀ g u src, Fields.Statement (.saMaxu g u src) :=
  fun _ _ _ => fields_of_word _
theorem Fields.saSel : ∀ g u src, Fields.Statement (.saSel g u src) :=
  fun _ _ _ => fields_of_word _
theorem Fields.saClz : ∀ g u src, Fields.Statement (.saClz g u src) :=
  fun _ _ _ => fields_of_word _
theorem Fields.saCtz : ∀ g u src, Fields.Statement (.saCtz g u src) :=
  fun _ _ _ => fields_of_word _
theorem Fields.saPopc : ∀ g u src, Fields.Statement (.saPopc g u src) :=
  fun _ _ _ => fields_of_word _
theorem Fields.saSxt : ∀ g u src, Fields.Statement (.saSxt g u src) :=
  fun _ _ _ => fields_of_word _
theorem Fields.saLea : ∀ g u src, Fields.Statement (.saLea g u src) :=
  fun _ _ _ => fields_of_word _
theorem Fields.smMul : ∀ g src, Fields.Statement (.smMul g src) :=
  fun _ _ => fields_of_word _
theorem Fields.smMulh : ∀ g src, Fields.Statement (.smMulh g src) :=
  fun _ _ => fields_of_word _
theorem Fields.smMulhu : ∀ g src, Fields.Statement (.smMulhu g src) :=
  fun _ _ => fields_of_word _
theorem Fields.smDiv : ∀ g src, Fields.Statement (.smDiv g src) :=
  fun _ _ => fields_of_word _
theorem Fields.smDivu : ∀ g src, Fields.Statement (.smDivu g src) :=
  fun _ _ => fields_of_word _
theorem Fields.smRem : ∀ g src, Fields.Statement (.smRem g src) :=
  fun _ _ => fields_of_word _
theorem Fields.smRemu : ∀ g src, Fields.Statement (.smRemu g src) :=
  fun _ _ => fields_of_word _
theorem Fields.brJmp : ∀ g src, Fields.Statement (.brJmp g src) :=
  fun _ _ => fields_of_word _
theorem Fields.brCall : ∀ g src, Fields.Statement (.brCall g src) :=
  fun _ _ => fields_of_word _
theorem Fields.brRet : ∀ g src, Fields.Statement (.brRet g src) :=
  fun _ _ => fields_of_word _
theorem Fields.brJrel : ∀ g src, Fields.Statement (.brJrel g src) :=
  fun _ _ => fields_of_word _
theorem Fields.lpLoop : ∀ g src, Fields.Statement (.lpLoop g src) :=
  fun _ _ => fields_of_word _
theorem Fields.lpBrk : ∀ g src, Fields.Statement (.lpBrk g src) :=
  fun _ _ => fields_of_word _
theorem Fields.lpCnt : ∀ g src, Fields.Statement (.lpCnt g src) :=
  fun _ _ => fields_of_word _
theorem Fields.backEdgeAction : ∀ n, Fields.Statement (.backEdgeAction n) :=
  fun _ => fields_of_word _
theorem Fields.cxRd : ∀ g src, Fields.Statement (.cxRd g src) :=
  fun _ _ => fields_of_word _
theorem Fields.cxWr : ∀ g src, Fields.Statement (.cxWr g src) :=
  fun _ _ => fields_of_word _
theorem Fields.cxFmt : ∀ g src, Fields.Statement (.cxFmt g src) :=
  fun _ _ => fields_of_word _
theorem Fields.cxFlg : ∀ g src, Fields.Statement (.cxFlg g src) :=
  fun _ _ => fields_of_word _
theorem Fields.fmtShadowExpiry : ∀ n, Fields.Statement (.fmtShadowExpiry n) :=
  fun _ => fields_of_word _
theorem Fields.ctAdd : ∀ g src, Fields.Statement (.ctAdd g src) :=
  fun _ _ => fields_of_word _
theorem Fields.ctWait : ∀ g src, Fields.Statement (.ctWait g src) :=
  fun _ _ => fields_of_word _
theorem Fields.ctOwait : ∀ g src, Fields.Statement (.ctOwait g src) :=
  fun _ _ => fields_of_word _
theorem Fields.ctTwait : ∀ g src, Fields.Statement (.ctTwait g src) :=
  fun _ _ => fields_of_word _
theorem Fields.ctArv : ∀ g src, Fields.Statement (.ctArv g src) :=
  fun _ _ => fields_of_word _
theorem Fields.ctBwt : ∀ g src, Fields.Statement (.ctBwt g src) :=
  fun _ _ => fields_of_word _
theorem Fields.ctBcfg : ∀ g src, Fields.Statement (.ctBcfg g src) :=
  fun _ _ => fields_of_word _
theorem Fields.syTrap : ∀ g src, Fields.Statement (.syTrap g src) :=
  fun _ _ => fields_of_word _
theorem Fields.syRfe : ∀ g src, Fields.Statement (.syRfe g src) :=
  fun _ _ => fields_of_word _
theorem Fields.syStop : ∀ g src, Fields.Statement (.syStop g src) :=
  fun _ _ => fields_of_word _
theorem Fields.syRel : ∀ g src, Fields.Statement (.syRel g src) :=
  fun _ _ => fields_of_word _
theorem Fields.sySnap : ∀ g src, Fields.Statement (.sySnap g src) :=
  fun _ _ => fields_of_word _
theorem Fields.lsLds : ∀ g src, Fields.Statement (.lsLds g src) :=
  fun _ _ => fields_of_word _
theorem Fields.lsSts : ∀ g src, Fields.Statement (.lsSts g src) :=
  fun _ _ => fields_of_word _
theorem Fields.lsLdr : ∀ g src, Fields.Statement (.lsLdr g src) :=
  fun _ _ => fields_of_word _
theorem Fields.lsStr : ∀ g src, Fields.Statement (.lsStr g src) :=
  fun _ _ => fields_of_word _
theorem Fields.lsLdt : ∀ g src, Fields.Statement (.lsLdt g src) :=
  fun _ _ => fields_of_word _
theorem Fields.lsStt : ∀ g src, Fields.Statement (.lsStt g src) :=
  fun _ _ => fields_of_word _
theorem Fields.lsLdp : ∀ g src, Fields.Statement (.lsLdp g src) :=
  fun _ _ => fields_of_word _
theorem Fields.lsStp : ∀ g src, Fields.Statement (.lsStp g src) :=
  fun _ _ => fields_of_word _
theorem Fields.lsLat : ∀ g src, Fields.Statement (.lsLat g src) :=
  fun _ _ => fields_of_word _
theorem Fields.atSwap : ∀ g src, Fields.Statement (.atSwap g src) :=
  fun _ _ => fields_of_word _
theorem Fields.atCas : ∀ g src, Fields.Statement (.atCas g src) :=
  fun _ _ => fields_of_word _
theorem Fields.atAdd : ∀ g src, Fields.Statement (.atAdd g src) :=
  fun _ _ => fields_of_word _
theorem Fields.atAnd : ∀ g src, Fields.Statement (.atAnd g src) :=
  fun _ _ => fields_of_word _
theorem Fields.atOr : ∀ g src, Fields.Statement (.atOr g src) :=
  fun _ _ => fields_of_word _
theorem Fields.atXor : ∀ g src, Fields.Statement (.atXor g src) :=
  fun _ _ => fields_of_word _
theorem Fields.atMin : ∀ g src, Fields.Statement (.atMin g src) :=
  fun _ _ => fields_of_word _
theorem Fields.atMax : ∀ g src, Fields.Statement (.atMax g src) :=
  fun _ _ => fields_of_word _
theorem Fields.atMinu : ∀ g src, Fields.Statement (.atMinu g src) :=
  fun _ _ => fields_of_word _
theorem Fields.atMaxu : ∀ g src, Fields.Statement (.atMaxu g src) :=
  fun _ _ => fields_of_word _
theorem Fields.atAaddx : ∀ g src, Fields.Statement (.atAaddx g src) :=
  fun _ _ => fields_of_word _
theorem Fields.taFadd : ∀ g u src, Fields.Statement (.taFadd g u src) :=
  fun _ _ _ => fields_of_word _
theorem Fields.taFsub : ∀ g u src, Fields.Statement (.taFsub g u src) :=
  fun _ _ _ => fields_of_word _
theorem Fields.taFmul : ∀ g u src, Fields.Statement (.taFmul g u src) :=
  fun _ _ _ => fields_of_word _
theorem Fields.taFma : ∀ g u src, Fields.Statement (.taFma g u src) :=
  fun _ _ _ => fields_of_word _
theorem Fields.taFmax : ∀ g u src, Fields.Statement (.taFmax g u src) :=
  fun _ _ _ => fields_of_word _
theorem Fields.taFmin : ∀ g u src, Fields.Statement (.taFmin g u src) :=
  fun _ _ _ => fields_of_word _
theorem Fields.taFcmp : ∀ g u src, Fields.Statement (.taFcmp g u src) :=
  fun _ _ _ => fields_of_word _
theorem Fields.taIadd : ∀ g u src, Fields.Statement (.taIadd g u src) :=
  fun _ _ _ => fields_of_word _
theorem Fields.taIsub : ∀ g u src, Fields.Statement (.taIsub g u src) :=
  fun _ _ _ => fields_of_word _
theorem Fields.taImul : ∀ g u src, Fields.Statement (.taImul g u src) :=
  fun _ _ _ => fields_of_word _
theorem Fields.taImin : ∀ g u src, Fields.Statement (.taImin g u src) :=
  fun _ _ _ => fields_of_word _
theorem Fields.taImax : ∀ g u src, Fields.Statement (.taImax g u src) :=
  fun _ _ _ => fields_of_word _
theorem Fields.taAnd : ∀ g u src, Fields.Statement (.taAnd g u src) :=
  fun _ _ _ => fields_of_word _
theorem Fields.taOr : ∀ g u src, Fields.Statement (.taOr g u src) :=
  fun _ _ _ => fields_of_word _
theorem Fields.taXor : ∀ g u src, Fields.Statement (.taXor g u src) :=
  fun _ _ _ => fields_of_word _
theorem Fields.taShl : ∀ g u src, Fields.Statement (.taShl g u src) :=
  fun _ _ _ => fields_of_word _
theorem Fields.taShr : ∀ g u src, Fields.Statement (.taShr g u src) :=
  fun _ _ _ => fields_of_word _
theorem Fields.taSra : ∀ g u src, Fields.Statement (.taSra g u src) :=
  fun _ _ _ => fields_of_word _
theorem Fields.taIcmp : ∀ g u src, Fields.Statement (.taIcmp g u src) :=
  fun _ _ _ => fields_of_word _
theorem Fields.taSel : ∀ g u src, Fields.Statement (.taSel g u src) :=
  fun _ _ _ => fields_of_word _
theorem Fields.taFaddt : ∀ g u src, Fields.Statement (.taFaddt g u src) :=
  fun _ _ _ => fields_of_word _
theorem Fields.taFsubt : ∀ g u src, Fields.Statement (.taFsubt g u src) :=
  fun _ _ _ => fields_of_word _
theorem Fields.taFmult : ∀ g u src, Fields.Statement (.taFmult g u src) :=
  fun _ _ _ => fields_of_word _
theorem Fields.taFmaxt : ∀ g u src, Fields.Statement (.taFmaxt g u src) :=
  fun _ _ _ => fields_of_word _
theorem Fields.txCvt : ∀ g src, Fields.Statement (.txCvt g src) :=
  fun _ _ => fields_of_word _
theorem Fields.txQnt : ∀ g src, Fields.Statement (.txQnt g src) :=
  fun _ _ => fields_of_word _
theorem Fields.txDqnt : ∀ g src, Fields.Statement (.txDqnt g src) :=
  fun _ _ => fields_of_word _
theorem Fields.txExp : ∀ g src, Fields.Statement (.txExp g src) :=
  fun _ _ => fields_of_word _
theorem Fields.txLog : ∀ g src, Fields.Statement (.txLog g src) :=
  fun _ _ => fields_of_word _
theorem Fields.txRcp : ∀ g src, Fields.Statement (.txRcp g src) :=
  fun _ _ => fields_of_word _
theorem Fields.txRsq : ∀ g src, Fields.Statement (.txRsq g src) :=
  fun _ _ => fields_of_word _
theorem Fields.txSqrt : ∀ g src, Fields.Statement (.txSqrt g src) :=
  fun _ _ => fields_of_word _
theorem Fields.txTanh : ∀ g src, Fields.Statement (.txTanh g src) :=
  fun _ _ => fields_of_word _
theorem Fields.txSigm : ∀ g src, Fields.Statement (.txSigm g src) :=
  fun _ _ => fields_of_word _
theorem Fields.txErf : ∀ g src, Fields.Statement (.txErf g src) :=
  fun _ _ => fields_of_word _
theorem Fields.tsPerm : ∀ g src, Fields.Statement (.tsPerm g src) :=
  fun _ _ => fields_of_word _
theorem Fields.tsXpose : ∀ g src, Fields.Statement (.tsXpose g src) :=
  fun _ _ => fields_of_word _
theorem Fields.tsRsum : ∀ g src, Fields.Statement (.tsRsum g src) :=
  fun _ _ => fields_of_word _
theorem Fields.tsRmax : ∀ g src, Fields.Statement (.tsRmax g src) :=
  fun _ _ => fields_of_word _
theorem Fields.tsRmin : ∀ g src, Fields.Statement (.tsRmin g src) :=
  fun _ _ => fields_of_word _
theorem Fields.tsAmax : ∀ g src, Fields.Statement (.tsAmax g src) :=
  fun _ _ => fields_of_word _
theorem Fields.tsScan : ∀ g src, Fields.Statement (.tsScan g src) :=
  fun _ _ => fields_of_word _
theorem Fields.tsSmax : ∀ g src, Fields.Statement (.tsSmax g src) :=
  fun _ _ => fields_of_word _
theorem Fields.tsMask : ∀ g src, Fields.Statement (.tsMask g src) :=
  fun _ _ => fields_of_word _
theorem Fields.tsBias : ∀ g src, Fields.Statement (.tsBias g src) :=
  fun _ _ => fields_of_word _
theorem Fields.mxCall : ∀ g src, Fields.Statement (.mxCall g src) :=
  fun _ _ => fields_of_word _
theorem Fields.mxMld : ∀ g src, Fields.Statement (.mxMld g src) :=
  fun _ _ => fields_of_word _
theorem Fields.mxParm : ∀ g src, Fields.Statement (.mxParm g src) :=
  fun _ _ => fields_of_word _
theorem Fields.scXld : ∀ g src, Fields.Statement (.scXld g src) :=
  fun _ _ => fields_of_word _
theorem Fields.scXadd : ∀ g src, Fields.Statement (.scXadd g src) :=
  fun _ _ => fields_of_word _
theorem Fields.stepOperandRead : ∀ c, Fields.Statement (.stepOperandRead c) :=
  fun _ => fields_of_word _
theorem Fields.latchSample : ∀ c, Fields.Statement (.latchSample c) :=
  fun _ => fields_of_word _
theorem Fields.stepCommit : ∀ c, Fields.Statement (.stepCommit c) :=
  fun _ => fields_of_word _
theorem Fields.ceGo : ∀ g src, Fields.Statement (.ceGo g src) :=
  fun _ _ => fields_of_word _
theorem Fields.ceCmp : ∀ g src, Fields.Statement (.ceCmp g src) :=
  fun _ _ => fields_of_word _
theorem Fields.geGo : ∀ g src, Fields.Statement (.geGo g src) :=
  fun _ _ => fields_of_word _
theorem Fields.geSkg : ∀ g src, Fields.Statement (.geSkg g src) :=
  fun _ _ => fields_of_word _
theorem Fields.weGo : ∀ g src, Fields.Statement (.weGo g src) :=
  fun _ _ => fields_of_word _
theorem Fields.rsGo : ∀ g src, Fields.Statement (.rsGo g src) :=
  fun _ _ => fields_of_word _
theorem Fields.rsQry : ∀ g src, Fields.Statement (.rsQry g src) :=
  fun _ _ => fields_of_word _
theorem Fields.npSend : ∀ g src, Fields.Statement (.npSend g src) :=
  fun _ _ => fields_of_word _
theorem Fields.npRow : ∀ g src, Fields.Statement (.npRow g src) :=
  fun _ _ => fields_of_word _
theorem Fields.cbSet : ∀ g src, Fields.Statement (.cbSet g src) :=
  fun _ _ => fields_of_word _
theorem Fields.cbAdv : ∀ g src, Fields.Statement (.cbAdv g src) :=
  fun _ _ => fields_of_word _
theorem Fields.cbRel : ∀ g src, Fields.Statement (.cbRel g src) :=
  fun _ _ => fields_of_word _
theorem Fields.cbQry : ∀ g src, Fields.Statement (.cbQry g src) :=
  fun _ _ => fields_of_word _
theorem Fields.cbAdvPpAdvance : ∀ n, Fields.Statement (.cbAdvPpAdvance n) :=
  fun _ => fields_of_word _
theorem Fields.skOpen : ∀ g src, Fields.Statement (.skOpen g src) :=
  fun _ _ => fields_of_word _
theorem Fields.skRes : ∀ g src, Fields.Statement (.skRes g src) :=
  fun _ _ => fields_of_word _
theorem Fields.skCmt : ∀ g src, Fields.Statement (.skCmt g src) :=
  fun _ _ => fields_of_word _
theorem Fields.skFork : ∀ g src, Fields.Statement (.skFork g src) :=
  fun _ _ => fields_of_word _
theorem Fields.skRel : ∀ g src, Fields.Statement (.skRel g src) :=
  fun _ _ => fields_of_word _
theorem Fields.skLen : ∀ g src, Fields.Statement (.skLen g src) :=
  fun _ _ => fields_of_word _
theorem Fields.skPidx : ∀ g src, Fields.Statement (.skPidx g src) :=
  fun _ _ => fields_of_word _
theorem Fields.skPins : ∀ g src, Fields.Statement (.skPins g src) :=
  fun _ _ => fields_of_word _
theorem Fields.skCmpt : ∀ g src, Fields.Statement (.skCmpt g src) :=
  fun _ _ => fields_of_word _
theorem Fields.skResWindowGrant : ∀ pa, Fields.Statement (.skResWindowGrant pa) :=
  fun _ => fields_of_word _
theorem Fields.skCommandComplete : ∀ n, Fields.Statement (.skCommandComplete n) :=
  fun _ => fields_of_word _
theorem Fields.blBast : ∀ g src, Fields.Statement (.blBast g src) :=
  fun _ _ => fields_of_word _
theorem Fields.blBstop : ∀ g src, Fields.Statement (.blBstop g src) :=
  fun _ _ => fields_of_word _
theorem Fields.blMark : ∀ g src, Fields.Statement (.blMark g src) :=
  fun _ _ => fields_of_word _
theorem Fields.blUnpk : ∀ g src, Fields.Statement (.blUnpk g src) :=
  fun _ _ => fields_of_word _
theorem Fields.blFlag : ∀ g src, Fields.Statement (.blFlag g src) :=
  fun _ _ => fields_of_word _
theorem Fields.logEntryWrite : ∀ n, Fields.Statement (.logEntryWrite n) :=
  fun _ => fields_of_word _
theorem Fields.unpickEntry : ∀ n, Fields.Statement (.unpickEntry n) :=
  fun _ => fields_of_word _
theorem Fields.lnLnch : ∀ g src, Fields.Statement (.lnLnch g src) :=
  fun _ _ => fields_of_word _
theorem Fields.lnQuit : ∀ g src, Fields.Statement (.lnQuit g src) :=
  fun _ _ => fields_of_word _
theorem Fields.memberRetire : ∀ n, Fields.Statement (.memberRetire n) :=
  fun _ => fields_of_word _
theorem Fields.ptLoad : ∀ g src, Fields.Statement (.ptLoad g src) :=
  fun _ _ => fields_of_word _
theorem Fields.ptUnld : ∀ g src, Fields.Statement (.ptUnld g src) :=
  fun _ _ => fields_of_word _
theorem Fields.ptQry : ∀ g src, Fields.Statement (.ptQry g src) :=
  fun _ _ => fields_of_word _
theorem Fields.ptStry : ∀ g src, Fields.Statement (.ptStry g src) :=
  fun _ _ => fields_of_word _
theorem Fields.ptClr : ∀ g src, Fields.Statement (.ptClr g src) :=
  fun _ _ => fields_of_word _
theorem Fields.xlSda : ∀ g src, Fields.Statement (.xlSda g src) :=
  fun _ _ => fields_of_word _
theorem Fields.xlSdk : ∀ g src, Fields.Statement (.xlSdk g src) :=
  fun _ _ => fields_of_word _
theorem Fields.xlPrb : ∀ g src, Fields.Statement (.xlPrb g src) :=
  fun _ _ => fields_of_word _
theorem Fields.shootdownComplete : ∀ n, Fields.Statement (.shootdownComplete n) :=
  fun _ => fields_of_word _
theorem Fields.pwReq : ∀ g src, Fields.Statement (.pwReq g src) :=
  fun _ _ => fields_of_word _
theorem Fields.pwLim : ∀ g src, Fields.Statement (.pwLim g src) :=
  fun _ _ => fields_of_word _
theorem Fields.leaveGrant : ∀ d, Fields.Statement (.leaveGrant d) :=
  fun _ => fields_of_word _
theorem Fields.bundleBlock : Fields.Statement .bundleBlock := fields_of_word _
theorem Fields.blockedBundleIssue : ∀ n, Fields.Statement (.blockedBundleIssue n) :=
  fun _ => fields_of_word _
theorem Fields.resultLanding : ∀ n, Fields.Statement (.resultLanding n) :=
  fun _ => fields_of_word _
theorem Fields.tileSequencerRow : ∀ n, Fields.Statement (.tileSequencerRow n) :=
  fun _ => fields_of_word _
theorem Fields.localAccessPerform : ∀ c, Fields.Statement (.localAccessPerform c) :=
  fun _ => fields_of_word _
theorem Fields.lateralPerform : ∀ n id, Fields.Statement (.lateralPerform n id) :=
  fun _ _ => fields_of_word _
theorem Fields.lateralCompletion : ∀ n id, Fields.Statement (.lateralCompletion n id) :=
  fun _ _ => fields_of_word _
theorem Fields.translationWalk : ∀ n, Fields.Statement (.translationWalk n) :=
  fun _ => fields_of_word _
theorem Fields.windowExpiry : ∀ c, Fields.Statement (.windowExpiry c) :=
  fun _ => fields_of_word _
theorem Fields.faultDelivery : ∀ n, Fields.Statement (.faultDelivery n) :=
  fun _ => fields_of_word _
theorem Fields.stopRequest : ∀ n, Fields.Statement (.stopRequest n) :=
  fun _ => fields_of_word _
theorem Fields.engineQuiesceComplete : ∀ n, Fields.Statement (.engineQuiesceComplete n) :=
  fun _ => fields_of_word _
theorem Fields.preemptionSave : ∀ kid, Fields.Statement (.preemptionSave kid) :=
  fun _ => fields_of_word _
theorem Fields.lateProducerSaveWrite : ∀ key, Fields.Statement (.lateProducerSaveWrite key) :=
  fun _ => fields_of_word _
theorem Fields.selectionRound : Fields.Statement .selectionRound := fields_of_word _
theorem Fields.resumption : ∀ kid, Fields.Statement (.resumption kid) :=
  fun _ => fields_of_word _
theorem Fields.recordAcceptance : Fields.Statement .recordAcceptance := fields_of_word _
theorem Fields.dependenceMet : ∀ kid, Fields.Statement (.dependenceMet kid) :=
  fun _ => fields_of_word _
theorem Fields.engineChunkComplete : ∀ n fu, Fields.Statement (.engineChunkComplete n fu) :=
  fun _ _ => fields_of_word _
theorem Fields.engineAccessFault : ∀ n fu, Fields.Statement (.engineAccessFault n fu) :=
  fun _ _ => fields_of_word _
theorem Fields.packetHeaderArrival : ∀ h ch, Fields.Statement (.packetHeaderArrival h ch) :=
  fun _ _ => fields_of_word _
theorem Fields.outputPortGrant : ∀ h p, Fields.Statement (.outputPortGrant h p) :=
  fun _ _ => fields_of_word _
theorem Fields.vcCreditReturn : ∀ h ch, Fields.Statement (.vcCreditReturn h ch) :=
  fun _ _ => fields_of_word _
theorem Fields.circuitSlot : ∀ h, Fields.Statement (.circuitSlot h) :=
  fun _ => fields_of_word _
theorem Fields.flowPacketAccept : ∀ h ch, Fields.Statement (.flowPacketAccept h ch) :=
  fun _ _ => fields_of_word _
theorem Fields.emission : ∀ h e, Fields.Statement (.emission h e) :=
  fun _ _ => fields_of_word _
theorem Fields.creditReplyArrival : ∀ h ch, Fields.Statement (.creditReplyArrival h ch) :=
  fun _ _ => fields_of_word _
theorem Fields.deliverChunk : ∀ h e, Fields.Statement (.deliverChunk h e) :=
  fun _ _ => fields_of_word _
theorem Fields.npInjection : ∀ n, Fields.Statement (.npInjection n) :=
  fun _ => fields_of_word _
theorem Fields.patternValidate : Fields.Statement .patternValidate := fields_of_word _
theorem Fields.patternActivation : ∀ pid, Fields.Statement (.patternActivation pid) :=
  fun _ => fields_of_word _
theorem Fields.patternRetirement : ∀ pid, Fields.Statement (.patternRetirement pid) :=
  fun _ => fields_of_word _
theorem Fields.reshardPhaseStart : ∀ id, Fields.Statement (.reshardPhaseStart id) :=
  fun _ => fields_of_word _
theorem Fields.gatewayPacketForward : ∀ id, Fields.Statement (.gatewayPacketForward id) :=
  fun _ => fields_of_word _
theorem Fields.pairDigestCompare : ∀ k, Fields.Statement (.pairDigestCompare k) :=
  fun _ => fields_of_word _
theorem Fields.linkFlitReceive : ∀ l, Fields.Statement (.linkFlitReceive l) :=
  fun _ => fields_of_word _
theorem Fields.linkResend : ∀ l, Fields.Statement (.linkResend l) :=
  fun _ => fields_of_word _
theorem Fields.retrainComplete : ∀ l, Fields.Statement (.retrainComplete l) :=
  fun _ => fields_of_word _
theorem Fields.counterAddPerformed : ∀ id, Fields.Statement (.counterAddPerformed id) :=
  fun _ => fields_of_word _
theorem Fields.counterWaitPerformed : ∀ id, Fields.Statement (.counterWaitPerformed id) :=
  fun _ => fields_of_word _
theorem Fields.counterWaitResend : ∀ id, Fields.Statement (.counterWaitResend id) :=
  fun _ => fields_of_word _
theorem Fields.requestTimeout : ∀ id, Fields.Statement (.requestTimeout id) :=
  fun _ => fields_of_word _
theorem Fields.barrierReport : ∀ id, Fields.Statement (.barrierReport id) :=
  fun _ => fields_of_word _
theorem Fields.barrierPhaseUpdate : ∀ id, Fields.Statement (.barrierPhaseUpdate id) :=
  fun _ => fields_of_word _
theorem Fields.podBarrierPacket : ∀ id, Fields.Statement (.podBarrierPacket id) :=
  fun _ => fields_of_word _
theorem Fields.goWordWrite : ∀ n fu port v, Fields.Statement (.goWordWrite n fu port v) :=
  fun _ _ _ _ => fields_of_word _
theorem Fields.controlBlockRegisterWrite : ∀ n no v, Fields.Statement (.controlBlockRegisterWrite n no v) :=
  fun _ _ _ => fields_of_word _
theorem Fields.registerWrite : ∀ off v, Fields.Statement (.registerWrite off v) :=
  fun _ _ => fields_of_word _
theorem Fields.bootlenWrite : ∀ v, Fields.Statement (.bootlenWrite v) :=
  fun _ => fields_of_word _
theorem Fields.bootVerifyDone : Fields.Statement .bootVerifyDone := fields_of_word _
theorem Fields.modnWrite : ∀ v, Fields.Statement (.modnWrite v) :=
  fun _ => fields_of_word _
theorem Fields.plimWrite : ∀ v, Fields.Statement (.plimWrite v) :=
  fun _ => fields_of_word _
theorem Fields.svbaseWrite : ∀ v, Fields.Statement (.svbaseWrite v) :=
  fun _ => fields_of_word _
theorem Fields.yelnakRead : ∀ tag, Fields.Statement (.yelnakRead tag) :=
  fun _ => fields_of_word _
theorem Fields.yelnakWrite : ∀ tag, Fields.Statement (.yelnakWrite tag) :=
  fun _ => fields_of_word _
theorem Fields.yelnakLaunch : ∀ tag, Fields.Statement (.yelnakLaunch tag) :=
  fun _ => fields_of_word _
theorem Fields.yelnakCounterAdd : ∀ tag, Fields.Statement (.yelnakCounterAdd tag) :=
  fun _ => fields_of_word _
theorem Fields.yelnakCounterWait : ∀ tag, Fields.Statement (.yelnakCounterWait tag) :=
  fun _ => fields_of_word _
theorem Fields.yelnakPatternLoad : ∀ tag, Fields.Statement (.yelnakPatternLoad tag) :=
  fun _ => fields_of_word _
theorem Fields.yelnakBlackBoxRead : ∀ tag, Fields.Statement (.yelnakBlackBoxRead tag) :=
  fun _ => fields_of_word _
theorem Fields.yelnakAttestation : ∀ tag, Fields.Statement (.yelnakAttestation tag) :=
  fun _ => fields_of_word _
theorem Fields.powerSample : Fields.Statement .powerSample := fields_of_word _
theorem Fields.coldReset : Fields.Statement .coldReset := fields_of_word _
theorem Fields.warmReset : Fields.Statement .warmReset := fields_of_word _
theorem Fields.lossOfLock : ∀ l, Fields.Statement (.lossOfLock l) :=
  fun _ => fields_of_word _
theorem Fields.linkTrainingComplete : ∀ l, Fields.Statement (.linkTrainingComplete l) :=
  fun _ => fields_of_word _
theorem Fields.ptCommandComplete : ∀ n, Fields.Statement (.ptCommandComplete n) :=
  fun _ => fields_of_word _
theorem Fields.blBastHomeDone : ∀ n, Fields.Statement (.blBastHomeDone n) :=
  fun _ => fields_of_word _
theorem Fields.membersStart : ∀ kid, Fields.Statement (.membersStart kid) :=
  fun _ => fields_of_word _

end Sys2Proof.Laws
end

