-- ==== Sys2Proof/Tests/Slice0.lean ====
section
/-!
SUPPORT. Tests: words of the opcode table, ill-formed terms, single instructions on small states, and the witnesses of the
statements' hypotheses.
-/

namespace Sys2Proof.Tests

open Sys2Proof Sys2Proof.Machine

set_option Elab.async false

/-! ## Decoding: words from the match column of the opcode table, with GUARD in bits 23-20 and SRC in bits 8-0 (R31) -/

/-- The broadcast moves and register writes of R33 and R36: GUARD 0000, FU, PORT, SRC written bit by bit. -/
theorem test_decode_moves :
    decodeTableWord 24 0b000000000000000000000101 = some (.operandPortWrite 0 0 0 5) ∧
    decodeTableWord 24 0b000001010000001100000111 = some (.operandPortWrite 0 10 1 0x107) ∧
    decodeTableWord 24 0b100101000000001000011111 = some (.operandPortWrite 9 8 1 0x1F) ∧
    decodeTableWord 24 0b000011111011111010000000 = some (.scalarRegisterWrite 0 31 0x080) ∧
    decodeTableWord 24 0b101011111100111001000001 = some (.guardWrite 10 7 0x041) ∧
    decodeTableWord 24 0b000011111001111101111111 = some (.tileRowWrite 0 15 0x17F) ∧
    decodeTableWord 24 0b000011111010000110001111 = some (.wholeTileWrite 0 0 0x18F) := by decide

/-- Examples of the manual: the `cx.flg` move of R119 and the bundles of the loop example of R116. -/
theorem test_decode_manual :
    decodeTableWord 24 0x028E20 = some (.cxFlg 0 0x020) ∧
    decodeTableWord 24 0x0F8A80 = some (.scalarRegisterWrite 0 5 0x080) ∧
    decodeTableWord 24 0x020820 = some (.lpLoop 0 0x020) := by decide

/-- What R32, R34, R47 and R58 refuse: empty, not quite empty, reserved unit, source and port, and a source's kind. -/
theorem test_decode_refused :
    decodeTableWord 24 0x800000 = none ∧ decodeTableWord 24 0x800001 = none ∧ decodeTableWord 24 0x0E0800 = none ∧
    decodeTableWord 24 0x000823 = none ∧ decodeTableWord 24 0x003C05 = none ∧ decodeTableWord 24 0x000900 = none ∧
    decodeTableWord 16 0x0805 = none ∧ decodeTableWord 24 0x1000805 = none := by decide

/-- SA: ports 4 to 29 of FU 0 and 1, guarded, with source s5. -/
theorem test_decode_sa : ∀ p ∈ ([
    (0x908805, .saAdd 9 1 5), (0x908A05, .saSub 9 1 5), (0x908C05, .saAnd 9 1 5), (0x908E05, .saOr 9 1 5),
    (0x909005, .saXor 9 1 5), (0x909205, .saAndn 9 1 5), (0x909405, .saShl 9 1 5), (0x909605, .saShr 9 1 5),
    (0x909805, .saSra 9 1 5), (0x909A05, .saRotl 9 1 5), (0x909C05, .saEq 9 1 5), (0x909E05, .saNe 9 1 5),
    (0x90A005, .saLt 9 1 5), (0x90A205, .saLtu 9 1 5), (0x90A405, .saLe 9 1 5), (0x90A605, .saLeu 9 1 5),
    (0x90A805, .saMin 9 1 5), (0x90AA05, .saMinu 9 1 5), (0x90AC05, .saMax 9 1 5), (0x90AE05, .saMaxu 9 1 5),
    (0x90B005, .saSel 9 1 5), (0x90B205, .saClz 9 1 5), (0x90B405, .saCtz 9 1 5), (0x90B605, .saPopc 9 1 5),
    (0x90B805, .saSxt 9 1 5), (0x90BA05, .saLea 9 1 5)] : List (Nat × Instr)),
    decodeTableWord 24 p.1 = some p.2 := by decide

/-- SM: ports 4 to 10 of FU 2, guarded, with source s5. -/
theorem test_decode_sm : ∀ p ∈ ([
    (0x310805, .smMul 3 5), (0x310A05, .smMulh 3 5), (0x310C05, .smMulhu 3 5), (0x310E05, .smDiv 3 5),
    (0x311005, .smDivu 3 5), (0x311205, .smRem 3 5), (0x311405, .smRemu 3 5)] : List (Nat × Instr)),
    decodeTableWord 24 p.1 = some p.2 := by decide

/-- BR: ports 4 to 7 of FU 3, guarded, with source s5. -/
theorem test_decode_br : ∀ p ∈ ([
    (0x318805, .brJmp 3 5), (0x318A05, .brCall 3 5), (0x318C05, .brRet 3 5), (0x318E05, .brJrel 3 5)] : List (Nat × Instr)),
    decodeTableWord 24 p.1 = some p.2 := by decide

/-- LP: ports 4 to 6 of FU 4, guarded, with source s5. -/
theorem test_decode_lp : ∀ p ∈ ([
    (0x320805, .lpLoop 3 5), (0x320A05, .lpBrk 3 5), (0x320C05, .lpCnt 3 5)] : List (Nat × Instr)),
    decodeTableWord 24 p.1 = some p.2 := by decide

/-- CX: ports 4 to 7 of FU 5, guarded, with source s5. -/
theorem test_decode_cx : ∀ p ∈ ([
    (0x328805, .cxRd 3 5), (0x328A05, .cxWr 3 5), (0x328C05, .cxFmt 3 5), (0x328E05, .cxFlg 3 5)] : List (Nat × Instr)),
    decodeTableWord 24 p.1 = some p.2 := by decide

/-- CT: ports 4 to 10 of FU 6, guarded, with source s5. -/
theorem test_decode_ct : ∀ p ∈ ([
    (0x330805, .ctAdd 3 5), (0x330A05, .ctWait 3 5), (0x330C05, .ctOwait 3 5), (0x330E05, .ctTwait 3 5),
    (0x331005, .ctArv 3 5), (0x331205, .ctBwt 3 5), (0x331405, .ctBcfg 3 5)] : List (Nat × Instr)),
    decodeTableWord 24 p.1 = some p.2 := by decide

/-- SY: ports 4 to 8 of FU 7, guarded, with source s5. -/
theorem test_decode_sy : ∀ p ∈ ([
    (0x338805, .syTrap 3 5), (0x338A05, .syRfe 3 5), (0x338C05, .syStop 3 5), (0x338E05, .syRel 3 5),
    (0x339005, .sySnap 3 5)] : List (Nat × Instr)),
    decodeTableWord 24 p.1 = some p.2 := by decide

/-- LS: ports 4 to 12 of FU 8, guarded, with source s5. -/
theorem test_decode_ls : ∀ p ∈ ([
    (0x340805, .lsLds 3 5), (0x340A05, .lsSts 3 5), (0x340C05, .lsLdr 3 5), (0x340E05, .lsStr 3 5),
    (0x341005, .lsLdt 3 5), (0x341205, .lsStt 3 5), (0x341405, .lsLdp 3 5), (0x341605, .lsStp 3 5),
    (0x341805, .lsLat 3 5)] : List (Nat × Instr)),
    decodeTableWord 24 p.1 = some p.2 := by decide

/-- AT: ports 4 to 14 of FU 9, guarded, with source s5. -/
theorem test_decode_at : ∀ p ∈ ([
    (0x348805, .atSwap 3 5), (0x348A05, .atCas 3 5), (0x348C05, .atAdd 3 5), (0x348E05, .atAnd 3 5),
    (0x349005, .atOr 3 5), (0x349205, .atXor 3 5), (0x349405, .atMin 3 5), (0x349605, .atMax 3 5),
    (0x349805, .atMinu 3 5), (0x349A05, .atMaxu 3 5), (0x349C05, .atAaddx 3 5)] : List (Nat × Instr)),
    decodeTableWord 24 p.1 = some p.2 := by decide

/-- TA: ports 4 to 27 of FU 10 and 11, guarded, with source s5. -/
theorem test_decode_ta : ∀ p ∈ ([
    (0x958805, .taFadd 9 1 5), (0x958A05, .taFsub 9 1 5), (0x958C05, .taFmul 9 1 5), (0x958E05, .taFma 9 1 5),
    (0x959005, .taFmax 9 1 5), (0x959205, .taFmin 9 1 5), (0x959405, .taFcmp 9 1 5), (0x959605, .taIadd 9 1 5),
    (0x959805, .taIsub 9 1 5), (0x959A05, .taImul 9 1 5), (0x959C05, .taImin 9 1 5), (0x959E05, .taImax 9 1 5),
    (0x95A005, .taAnd 9 1 5), (0x95A205, .taOr 9 1 5), (0x95A405, .taXor 9 1 5), (0x95A605, .taShl 9 1 5),
    (0x95A805, .taShr 9 1 5), (0x95AA05, .taSra 9 1 5), (0x95AC05, .taIcmp 9 1 5), (0x95AE05, .taSel 9 1 5),
    (0x95B005, .taFaddt 9 1 5), (0x95B205, .taFsubt 9 1 5), (0x95B405, .taFmult 9 1 5), (0x95B605, .taFmaxt 9 1 5)] : List (Nat × Instr)),
    decodeTableWord 24 p.1 = some p.2 := by decide

/-- TX: ports 4 to 14 of FU 12, guarded, with source s5. -/
theorem test_decode_tx : ∀ p ∈ ([
    (0x360805, .txCvt 3 5), (0x360A05, .txQnt 3 5), (0x360C05, .txDqnt 3 5), (0x360E05, .txExp 3 5),
    (0x361005, .txLog 3 5), (0x361205, .txRcp 3 5), (0x361405, .txRsq 3 5), (0x361605, .txSqrt 3 5),
    (0x361805, .txTanh 3 5), (0x361A05, .txSigm 3 5), (0x361C05, .txErf 3 5)] : List (Nat × Instr)),
    decodeTableWord 24 p.1 = some p.2 := by decide

/-- TS: ports 4 to 13 of FU 13, guarded, with source s5. -/
theorem test_decode_ts : ∀ p ∈ ([
    (0x368805, .tsPerm 3 5), (0x368A05, .tsXpose 3 5), (0x368C05, .tsRsum 3 5), (0x368E05, .tsRmax 3 5),
    (0x369005, .tsRmin 3 5), (0x369205, .tsAmax 3 5), (0x369405, .tsScan 3 5), (0x369605, .tsSmax 3 5),
    (0x369805, .tsMask 3 5), (0x369A05, .tsBias 3 5)] : List (Nat × Instr)),
    decodeTableWord 24 p.1 = some p.2 := by decide

/-- MX: ports 4 to 6 of FU 14, guarded, with source s5. -/
theorem test_decode_mx : ∀ p ∈ ([
    (0x370805, .mxCall 3 5), (0x370A05, .mxMld 3 5), (0x370C05, .mxParm 3 5)] : List (Nat × Instr)),
    decodeTableWord 24 p.1 = some p.2 := by decide

/-- SC: ports 4 to 5 of FU 15, guarded, with source s5. -/
theorem test_decode_sc : ∀ p ∈ ([
    (0x378805, .scXld 3 5), (0x378A05, .scXadd 3 5)] : List (Nat × Instr)),
    decodeTableWord 24 p.1 = some p.2 := by decide

/-- CE: ports 4 to 5 of FU 16, guarded, with source s5. -/
theorem test_decode_ce : ∀ p ∈ ([
    (0x380805, .ceGo 3 5), (0x380A05, .ceCmp 3 5)] : List (Nat × Instr)),
    decodeTableWord 24 p.1 = some p.2 := by decide

/-- GE: ports 4 to 5 of FU 17, guarded, with source s5. -/
theorem test_decode_ge : ∀ p ∈ ([
    (0x388805, .geGo 3 5), (0x388A05, .geSkg 3 5)] : List (Nat × Instr)),
    decodeTableWord 24 p.1 = some p.2 := by decide

/-- WE: ports 4 to 4 of FU 18, guarded, with source s5. -/
theorem test_decode_we : ∀ p ∈ ([
    (0x390805, .weGo 3 5)] : List (Nat × Instr)),
    decodeTableWord 24 p.1 = some p.2 := by decide

/-- RS: ports 4 to 5 of FU 19, guarded, with source s5. -/
theorem test_decode_rs : ∀ p ∈ ([
    (0x398805, .rsGo 3 5), (0x398A05, .rsQry 3 5)] : List (Nat × Instr)),
    decodeTableWord 24 p.1 = some p.2 := by decide

/-- NP: ports 4 to 5 of FU 20, guarded, with source s5. -/
theorem test_decode_np : ∀ p ∈ ([
    (0x3A0805, .npSend 3 5), (0x3A0A05, .npRow 3 5)] : List (Nat × Instr)),
    decodeTableWord 24 p.1 = some p.2 := by decide

/-- CB: ports 4 to 7 of FU 21, guarded, with source s5. -/
theorem test_decode_cb : ∀ p ∈ ([
    (0x3A8805, .cbSet 3 5), (0x3A8A05, .cbAdv 3 5), (0x3A8C05, .cbRel 3 5), (0x3A8E05, .cbQry 3 5)] : List (Nat × Instr)),
    decodeTableWord 24 p.1 = some p.2 := by decide

/-- SK: ports 4 to 12 of FU 22, guarded, with source s5. -/
theorem test_decode_sk : ∀ p ∈ ([
    (0x3B0805, .skOpen 3 5), (0x3B0A05, .skRes 3 5), (0x3B0C05, .skCmt 3 5), (0x3B0E05, .skFork 3 5),
    (0x3B1005, .skRel 3 5), (0x3B1205, .skLen 3 5), (0x3B1405, .skPidx 3 5), (0x3B1605, .skPins 3 5),
    (0x3B1805, .skCmpt 3 5)] : List (Nat × Instr)),
    decodeTableWord 24 p.1 = some p.2 := by decide

/-- BL: ports 4 to 8 of FU 23, guarded, with source s5. -/
theorem test_decode_bl : ∀ p ∈ ([
    (0x3B8805, .blBast 3 5), (0x3B8A05, .blBstop 3 5), (0x3B8C05, .blMark 3 5), (0x3B8E05, .blUnpk 3 5),
    (0x3B9005, .blFlag 3 5)] : List (Nat × Instr)),
    decodeTableWord 24 p.1 = some p.2 := by decide

/-- LN: ports 4 to 5 of FU 24, guarded, with source s5. -/
theorem test_decode_ln : ∀ p ∈ ([
    (0x3C0805, .lnLnch 3 5), (0x3C0A05, .lnQuit 3 5)] : List (Nat × Instr)),
    decodeTableWord 24 p.1 = some p.2 := by decide

/-- PT: ports 4 to 8 of FU 25, guarded, with source s5. -/
theorem test_decode_pt : ∀ p ∈ ([
    (0x3C8805, .ptLoad 3 5), (0x3C8A05, .ptUnld 3 5), (0x3C8C05, .ptQry 3 5), (0x3C8E05, .ptStry 3 5),
    (0x3C9005, .ptClr 3 5)] : List (Nat × Instr)),
    decodeTableWord 24 p.1 = some p.2 := by decide

/-- XL: ports 4 to 6 of FU 26, guarded, with source s5. -/
theorem test_decode_xl : ∀ p ∈ ([
    (0x3D0805, .xlSda 3 5), (0x3D0A05, .xlSdk 3 5), (0x3D0C05, .xlPrb 3 5)] : List (Nat × Instr)),
    decodeTableWord 24 p.1 = some p.2 := by decide

/-- PW: ports 4 to 5 of FU 27, guarded, with source s5. -/
theorem test_decode_pw : ∀ p ∈ ([
    (0x3D8805, .pwReq 3 5), (0x3D8A05, .pwLim 3 5)] : List (Nat × Instr)),
    decodeTableWord 24 p.1 = some p.2 := by decide

/-! ## Well-formedness: an ill-formed term for each check -/

theorem test_wf_good : (Instr.saAdd 0 0 5).wellFormed = true ∧ (Instr.resultLanding 4095).wellFormed = true := by decide

/-- The guard 1000 is the empty slot's (R32). -/
theorem test_wf_guard : (Instr.saAdd 8 0 5).wellFormed = false := by decide

/-- A unit that its slot class does not accept, and FU 31 in an operand-port write (R33). -/
theorem test_wf_unit :
    (Instr.operandPortWrite 0 28 0 5).wellFormed = false ∧ (Instr.operandPortWrite 0 31 0 5).wellFormed = false := by decide

/-- An operand port that the unit does not have (R57, R58). -/
theorem test_wf_port : (Instr.operandPortWrite 0 2 1 5).wellFormed = false := by decide

/-- A reserved source code (R34). -/
theorem test_wf_source : (Instr.saAdd 0 0 0x023).wellFormed = false := by decide

/-- A row-kind source at a scalar port (R35). -/
theorem test_wf_kind : (Instr.saAdd 0 0 0x100).wellFormed = false := by decide

/-- Item numbers outside the module: a context, a core, a die, a link, a unit, a pair, a register, a side word. -/
theorem test_wf_items :
    (Instr.resultLanding 4096).wellFormed = false ∧ (Instr.stepCommit 1024).wellFormed = false ∧
    (Instr.leaveGrant 4).wellFormed = false ∧ (Instr.linkResend 49).wellFormed = false ∧
    (Instr.engineChunkComplete 0 27).wellFormed = false ∧ (Instr.pairDigestCompare 64).wellFormed = false ∧
    (Instr.controlBlockRegisterWrite 0 35 0).wellFormed = false ∧ (Instr.goWordWrite 0 16 6 0).wellFormed = false := by
  decide

/-! ## Small states -/

/-- A privileged exclusive member on context 0, one quad with an arena of 64 KiB and 32 bundles: s0 is T, `ps` its
operand ports. -/
def member (T : Word) (ps : KMap Val) : Ctx :=
  { Ctx.reset with
    st := .running, regs := { Regs.reset with s := [(0, T)] }, ports := ps
    ctl := { Ctl.reset with excl := true, priv := true, crewn := 1, kid := 1, arenaSize := 1 }
    recPriv := true, bmask := 3, quads := [0] }

/-- The state in which context 0 is `c`, its core is `k`, and its bundle at the pc is being issued. -/
def issuing (c : Ctx) (k : Core) : State :=
  { State.reset with ctxs := [(0, c)], cores := [(0, k)], iss := { Latch.reset with ctx := c, core := k, pc := c.pc } }

/-- The core that runs context 0. -/
def busyCore : Core := { Core.reset with run := some 0 }

/-- The member above with nothing else in the machine. -/
def plain (T : Word) (ps : KMap Val) : State := issuing (member T ps) busyCore

/-- The state after an instruction. -/
def after (o : Host.Outcome State Fault Refusal) : State := match o with | .next t => t | _ => State.reset

/-- What the newest result in flight of context 0 brings: its latency, its entry and its flags. -/
def landed (o : Host.Outcome State Fault Refusal) : Option (Nat × Landing × Flg) :=
  (((after o).ctx 0).inf.flights.getLast?).map fun f => (f.rem, f.what, f.flg)

/-- What the issue met. -/
def met (o : Host.Outcome State Fault Refusal) : Note := (after o).iss.note

/-- Every trigger is ready in a state whose member is privileged and holds no unit, with s0 as its source. -/
theorem ready_of (s : State) (fu port : Nat) (b : Bool) (h1 : s.iss.ctx.ctl.priv = true) (h2 : s.iss.ctx.hdep = false)
    (h3 : s.iss.ctx.inf.held = []) (h4 : s.iss.ctx.ctl.excl = true) : Ready s fu port b 0 0 where
  guard := rfl
  allowed := fun _ => ⟨h1, .inl (by simp [limitedPriv, h2])⟩
  idle := by simp [heldNow, h3, KMap.get]
  alone := fun _ => .inl h4
  source := trivial

/-- In `plain`, T is s0 and every trigger is ready. -/
theorem ready_plain (T : Word) (ps : KMap Val) (fu port : Nat) (b : Bool) : Ready (plain T ps) fu port b 0 0 :=
  ready_of _ _ _ _ rfl rfl rfl rfl

theorem trigT_plain (T : Word) (ps : KMap Val) : trigT (plain T ps) 0 = T := rfl

/-! ## Witnesses: scalar units, registers and ports -/

/-- A member with a scalar, a row and a tile in the output queues of SA0, TA0 and TA1, and circular buffer 0 with one
filled slot. -/
def sources : Ctx :=
  { member 0 [] with
    oq := [(0, [⟨1, .s 7, 0⟩]), (10, [⟨2, .r 7, 0⟩]), (11, [⟨3, .t 7, 0⟩])]
    cbs := [(0, { Cb.reset with cfg := true, ssz := 1, ns := 2, gr := 1, pp := 1 })] }

theorem witness_SourceReady :
    SourceReady (issuing sources busyCore) 0x080 .s ∧ SourceReady (issuing sources busyCore) 0x0A8 .r ∧
    SourceReady (issuing sources busyCore) 0x0AC .t ∧ SourceReady (issuing sources busyCore) 0x190 .r ∧
    ¬SourceReady (issuing sources busyCore) 0x0A8 .s :=
  ⟨by change kindAccepted _ _ = true; decide, by change kindAccepted _ _ = true; decide,
    by change kindAccepted _ _ = true; decide, ⟨.inl rfl, rfl, by decide⟩,
    by change ¬(kindAccepted _ _ = true); decide⟩

theorem witness_ScalarAndGuardWrites : guardTrue (plain 5 []) 0 = true ∧ SourceReady (plain 5 []) 0 .s :=
  ⟨rfl, trivial⟩

theorem witness_ScalarUnitResults :
    Ready (plain 0 []) 0 4 false 0 0 ∧ Ready (plain 0 []) 1 29 false 0 0 ∧ Ready (plain 0 []) 2 4 false 0 0 ∧
    Ready (plain 0 []) 2 10 false 0 0 := ⟨ready_plain .., ready_plain .., ready_plain .., ready_plain ..⟩

theorem witness_TileRegisterWrites :
    guardTrue (issuing sources busyCore) 0 = true ∧ SourceReady (issuing sources busyCore) 0x100 .r ∧
    SourceReady (issuing sources busyCore) 0x180 .t := ⟨by decide, trivial, trivial⟩

theorem witness_OperandPortWrites :
    portKind 0 0 = some .s ∧ portKind 10 1 = some .r ∧ portKind 10 3 = some .t ∧
    SourceReady (issuing sources busyCore) 0x080 .s ∧ SourceReady (issuing sources busyCore) 0x190 .r ∧
    SourceReady (issuing sources busyCore) 0x180 .t :=
  ⟨by decide, by decide, by decide, witness_SourceReady.1, witness_SourceReady.2.2.2.1, trivial⟩

/-- `plain` with a code region of two bundles, header word `h` and pc 32, where LPCNT is `cnt`. -/
def looping (T : Word) (h : Word) (cnt : BitVec 32) (start : BitVec 18) (lim : BitVec 14) : State :=
  let c := { member T [(16, .s 3)] with
    pc := 32, ctl := { (member 0 []).ctl with lpcnt := cnt, lpstart := start } }
  let s := (issuing c { busyCore with limit := lim }).wr (vaultPA 0 0) 2 4
  { s with iss := { s.iss with hdr := h } }

theorem witness_BranchesTaken :
    Ready (looping 32 0 0 0 1) 3 4 false 0 0 ∧ inCode (looping 32 0 0 0 1) 0 32 = true ∧
    inCode (looping 64 0 0 0 1) 0 64 = false ∧ inCode (looping 33 0 0 0 1) 0 33 = false := by
  refine ⟨ready_of _ _ _ _ rfl rfl rfl rfl, ?_⟩; decide

theorem witness_LoopUnit :
    Ready (looping 32 0 0 0 1) 4 4 false 0 0 ∧ inCode (looping 32 0 0 0 1) 0 (trigT (looping 32 0 0 0 1) 0) = true ∧
    inCode (looping 64 0 0 0 1) 0 (trigT (looping 64 0 0 0 1) 0) = false := by
  refine ⟨ready_of _ _ _ _ rfl rfl rfl rfl, ?_⟩; decide

/-- LPCNT 2 goes round, 1 leaves; a body of two bundles above LIMIT 1, and a start after the bundle, trap. -/
theorem witness_BackEdge :
    (let s := looping 0 0x0040000000000000 2 0 2
     hdrLend s.iss.hdr = true ∧ 1 < s.iss.ctx.ctl.lpcnt.toNat ∧ (s.iss.ctx.ctl.lpbrk || bundleBrk s) = false ∧
     32 * s.iss.ctx.ctl.lpstart.toNat ≤ s.iss.pc.toNat ∧ s.iss.core.limit.toNat = 2) ∧
    (looping 0 0x0040000000000000 2 0 1).iss.core.limit.toNat < 2 ∧
    (looping 0 0x0040000000000000 2 2 1).iss.pc.toNat < 64 ∧
    (looping 0 0x0040000000000000 1 0 1).iss.ctx.ctl.lpcnt.toNat ≤ 1 := by decide

/-! ## Witnesses: control registers and traps -/

theorem witness_ControlReads :
    Ready (plain 34 []) 5 4 false 0 0 ∧ (trigT (plain 34 []) 0).toNat ≤ 34 ∧ 34 < (trigT (plain 35 []) 0).toNat :=
  ⟨ready_plain .., by decide, by decide⟩

/-- LIMIT takes 8192 and refuses 0 and 8193; CURWIN refuses 0; FMT refuses rounding mode 5; an unprivileged member may not
write LIMIT, and in its handler only TRAPPC, TRAPCODE and TRAPVAL. -/
theorem witness_ControlWrites :
    ctlRefuse busyCore 10 8192 = none ∧ (ctlRefuse busyCore 10 8193).isSome = true ∧ (ctlRefuse busyCore 10 0).isSome = true ∧
    (ctlRefuse busyCore 20 0).isSome = true ∧ (ctlRefuse busyCore 0 5).isSome = true ∧ ctlRefuse busyCore 0 4 = none ∧
    ctlPriv 10 = true ∧ ctlPriv 22 = true ∧ ctlPriv 0 = false ∧ (member 0 []).ctl.priv = true ∧
    limitedPriv { member 0 [] with hdep := true, recPriv := false } = true := by decide

theorem witness_ControlReadBack : ctlRefuse Core.reset 34 0 = none ∧ ctlRefuse Core.reset 30 0xFFFFFFFF = none := by decide

theorem witness_FmtShadow :
    Ready (plain 4 []) 5 6 false 0 0 ∧ ((trigT (plain 4 []) 0).extractLsb' 0 3).toNat < 5 ∧
    5 ≤ ((trigT (plain 5 []) 0).extractLsb' 0 3).toNat := ⟨ready_plain .., by decide, by decide⟩

/-- Two writes due in one clk, the last of which governs. -/
theorem witness_FmtShadow_end :
    let c := { member 0 [] with inf := { Inflight.none with fmtPend := [(0, 1), (0, 2), (3, 3)] } }
    ((issuing c busyCore).ctx 0).inf.fmtPend = [(0, 1)] ++ (0, 2) :: [(3, 3)] ∧ ∀ p ∈ [(3, (3 : Word))], p.1 ≠ 0 := by
  decide

/-- A member with a handler at bundle 2. -/
def handled (T : Word) (ps : KMap Val) : Ctx :=
  { member T ps with ctl := { (member T ps).ctl with trapvec := 2, cpol := 0 } }

theorem witness_TrapEntry : hasHandler ((issuing (handled 0 []) busyCore).ctx 0) = true ∧
    ((issuing (handled 0 []) busyCore).ctx 0).walk = none ∧ ((issuing (handled 0 []) busyCore).ctx 0).doomed = false ∧
    ((issuing (handled 0 []) busyCore).ctx 0).accs = [] := ⟨by decide, rfl, rfl, rfl⟩

/-- A frame to return to. -/
def oneFrame : Frame := ⟨Inflight.none, [], [], [], [], 0, 0, 0, false, none, none, false, 0, 0, 0⟩

theorem witness_TrapReturn :
    let c := { handled 0 [] with hdep := true, frame := some oneFrame }
    ((issuing c busyCore).ctx 0).frame = some oneFrame ∧ oneFrame.cls ≤ 1 ∧ oneFrame.replay = none := by decide

theorem witness_SystemUnit :
    Ready (issuing (handled 0 []) busyCore) 7 4 false 0 0 ∧ hasHandler ((issuing (handled 0 []) busyCore).ctx 0) = true ∧
    hasHandler ((plain 0 []).ctx 0) = false ∧ policy ((plain 0 []).ctx 0).ctl.cpol 0 = .ignore ∧
    (trigT (plain 2 []) 0).toNat % 4 ≠ 3 ∧ (trigT (plain 3 []) 0).toNat % 4 = 3 ∧
    ((plain 0 [(28, .s 4095)]).iss.ctx.portW 7 0).toNat < 4096 ∧
    4096 ≤ ((plain 0 [(28, .s 4096)]).iss.ctx.portW 7 0).toNat := by
  refine ⟨ready_of _ _ _ _ rfl rfl rfl rfl, ?_⟩; decide

/-- A privileged context in its handler may ask for the return. -/
theorem witness_SystemUnit_rfe :
    Ready (issuing { member 2 [] with hdep := true } busyCore) 7 5 false 0 0 where
  guard := rfl
  allowed := fun _ => ⟨rfl, .inl rfl⟩
  idle := rfl
  alone := fun _ => .inl rfl
  source := trivial

/-- Context 1 stands in an inspection stop, context 2 is fenced with its kernel gone; kinds 0 to 3. -/
theorem witness_SystemRelease :
    let s : State := { plain 8 [] with ctxs := [(0, member 8 []), (1, { member 0 [] with st := .inspect }),
      (2, { member 0 [] with st := .frozenV })] }
    Ready s 7 7 false 0 0 ∧ (trigT s 0).toNat % 8 = 0 ∧ (trigT s 0).toNat / 8 % 4096 = 1 ∧ (s.ctx 1).st = .inspect ∧
    (s.ctx 2).st = .frozenV ∧ (∀ k ∈ s.dist.kerns, k.kid ≠ (s.ctx 2).ctl.kid) ∧ (s.ctx 0).st = .running ∧
    (trigT (plain 1 []) 0).toNat % 8 = 1 ∧ (trigT (plain 2 []) 0).toNat % 8 = 2 ∧ 3 ≤ (trigT (plain 3 []) 0).toNat % 8 := by
  refine ⟨⟨rfl, fun _ => ⟨rfl, .inl rfl⟩, rfl, fun _ => .inl rfl, trivial⟩, ?_⟩; decide

theorem witness_PrivilegeAndBusy :
    let c := member 0 []
    guardTrue (issuing { c with ctl := { c.ctl with priv := false } } busyCore) 0 = true ∧
    KMap.get 0 (issuing { c with inf := { c.inf with held := [(8, 1), (100, 20)] } } busyCore).iss.ctx.inf.held 100 ≠ 0 ∧
    KMap.get 0 (issuing { c with inf := { c.inf with held := [(8, 1), (100, 20)] } } busyCore).iss.ctx.inf.held 8 ≠ 0 := by
  decide

/-! ## Witnesses: loads, stores, atomics -/

/-- The last byte of the arena is reached by a byte access at 65535 and by a row at 65280; a tile begins at 63488. -/
theorem witness_LocalAccessesEntered :
    Ready (plain 65535 []) 8 4 false 0 0 ∧ LocalOk (plain 65535 []) (trigT (plain 65535 []) 0) 1 1 (segsOf (localPA (plain 65535 []) (trigT (plain 65535 []) 0)) 0 1) false ∧
    LocalOk (plain 65280 []) (trigT (plain 65280 []) 0) 256 256 (segsOf (localPA (plain 65280 []) (trigT (plain 65280 []) 0)) 0 256) false ∧
    LocalOk (plain 63488 []) (trigT (plain 63488 []) 0) 256 2048 [⟨localPA (plain 63488 []) (trigT (plain 63488 []) 0), 2048, 0⟩] false ∧
    LocalOk (plain 0 [(33, .s 65528)]) ((plain 0 [(33, .s 65528)]).iss.ctx.portW 8 1) 8 8
      (segsOf (localPA (plain 0 [(33, .s 65528)]) ((plain 0 [(33, .s 65528)]).iss.ctx.portW 8 1)) 0 8) true := by
  refine ⟨ready_plain .., ?_⟩; unfold LocalOk; decide

/-- NPL 1 and 24 are plane counts. -/
theorem witness_TileAccessesEntered :
    Ready (plain 0 []) 8 9 false 0 0 ∧ LocalOk (plain 0 [(33, .s 63488)]) ((plain 0 [(33, .s 63488)]).iss.ctx.portW 8 1) 256 2048
      [⟨localPA (plain 0 [(33, .s 63488)]) ((plain 0 [(33, .s 63488)]).iss.ctx.portW 8 1), 2048, 0⟩] false ∧
    lsNpl 0x80 = 1 ∧ lsNpl 0xC00 = 24 ∧
    LocalOk (plain 0 []) (trigT (plain 0 []) 0) 32 (32 + 128 * 23 + 64 + 64)
      (planeSegs (localPA (plain 0 []) (trigT (plain 0 []) 0)) 24 1) false := by
  refine ⟨ready_plain .., ?_⟩; unfold LocalOk; decide

/-- ORDM set with scope 6; an address of 2^23; a misaligned one; one past the arena's end. -/
theorem witness_LocalAccessFaults :
    (plain 0 []).iss.ctx.lats = [] ∧ (plain 0 []).iss.ctx.accs = [] ∧ Ready (plain 0 []) 8 4 false 0 0 ∧ Ready (plain 0 []) 8 5 false 0 0 ∧
    (let a := (plain 0 [(32, .s 0x68)]).iss.ctx.portW 8 0
     a.getLsbD 3 = true ∧ ¬a.toNat / 16 % 8 < 6) ∧
    2 ^ 23 ≤ (trigT (plain 0x800000 []) 0).toNat ∧
    (let s := plain 1 [(32, .s 3)]
     (trigT s 0).toNat < 2 ^ 23 ∧ (trigT s 0).toNat % 2 ^ ((s.iss.ctx.portW 8 0).toNat % 4) ≠ 0) ∧
    (let s := plain 65536 [(32, .s 3)]
     (trigT s 0).toNat < 2 ^ 23 ∧ (trigT s 0).toNat % 2 ^ ((s.iss.ctx.portW 8 0).toNat % 4) = 0 ∧
     arenaBytes s.iss.ctx < (trigT s 0).toNat + 8) := by
  refine ⟨rfl, rfl, ready_plain .., ready_plain .., ?_⟩; decide

theorem witness_LocalAtomics :
    let s := plain 1 [(36, .s 65528)]
    Ready s 9 4 false 0 0 ∧ fld (s.iss.ctx.portW 9 0) 23 6 = ownQi s.iss.ctx s.iss.n ∧
    WindowOk s (s.iss.ctx.portW 9 0) 8 8 ∧ s.iss.ctx.lats = [] ∧ s.iss.ctx.accs = [] := by
  refine ⟨ready_plain .., ?_⟩; unfold WindowOk; decide

/-- A crew of two quads, whose second arena the member reaches at 0x80_0000. -/
def twoQuads (T : Word) (ps : KMap Val) : State := issuing { member T ps with quads := [0, 1] } busyCore

theorem witness_LateralAccessesEntered :
    (let s := twoQuads 0x800000 [(32, .s 3)]
     Ready s 8 12 false 0 0 ∧ (s.iss.ctx.portW 8 0).getLsbD 3 = false ∧ lsLk (s.iss.ctx.portW 8 0) ≠ 3 ∧
     (s.iss.ctx.tok (lsTok (s.iss.ctx.portW 8 0))).st ≠ .pending ∧ WindowOk s (trigT s 0) 8 8) ∧
    (let s := twoQuads 1 [(36, .s 0x80FFF8), (38, .s 15)]
     Ready s 9 6 false 0 0 ∧ fld (s.iss.ctx.portW 9 0) 23 6 ≠ ownQi s.iss.ctx s.iss.n ∧
     WindowOk s (s.iss.ctx.portW 9 0) 8 8 ∧ (s.iss.ctx.tok 15).st ≠ .pending ∧ remoteCount s.iss.ctx < 4) := by
  refine ⟨⟨ready_of _ _ _ _ rfl rfl rfl rfl, ?_⟩, ready_of _ _ _ _ rfl rfl rfl rfl, ?_⟩ <;> (unfold WindowOk; decide)

/-- Context 0 with one access whose row has been granted. -/
def granted (f : AccFin) (len : Nat) (old ost : Bool) : State :=
  issuing { member 0 [] with accs := [⟨0, 9, [], [⟨vaultPA 0 8, len, 0⟩], 0, f, old, ost, false, 8, false, false, 0⟩] } busyCore

theorem witness_LocalAccessPerformed :
    let s := granted .store 8 false true
    (∀ j, j < 4 → j ≠ 0 → (s.ctx (4 * 0 + j)).accs = []) ∧ Memory.wf s.mem = true ∧
    ((s.ctx 0).accs.map fun a => (a.rem, a.segs, a.won, a.fin, a.dead)) = [(0, [], [⟨vaultPA 0 8, 8, 0⟩], .store, false)] ∧
    ((granted (.lds 4 true) 4 true false).ctx 0).accs.map (·.fin) = [.lds 4 true] ∧
    ((granted (.atom 6 0 1) 8 true true).ctx 0).accs.map (·.fin) = [.atom 6 0 1] ∧
    ∀ a ∈ (s.ctx 0).accs, segsBad s a a.won = none := by decide

/-- Two's complement sums at both ends of the range. -/
theorem witness_AtomicResults :
    (2 : Int) ^ 63 ≤ (0x7FFFFFFFFFFFFFFF : Word).toInt + (1 : Word).toInt ∧
    (0x8000000000000000 : Word).toInt + (-1 : Word).toInt < -(2 : Int) ^ 63 ∧
    -(2 : Int) ^ 63 ≤ (0x7FFFFFFFFFFFFFFF : Word).toInt + (0 : Word).toInt ∧ (1 : Word) ≠ 0 := by decide

/-- A lateral access of context 0, sent, performed or not, and on an erroneous word or not. -/
def lateral (atom : Option (Nat × Word × Word)) (lk : Nat) (done : Bool) (bad : Bool := false) : State :=
  issuing { member 0 [] with lats := [⟨5, 0x800000, vaultPA 1 0, 8, atom, false, 3, lk, false, 0, 7, 0, true, done, 0, 0, 0, [], bad⟩] } busyCore

theorem witness_LateralsPerformed :
    ((lateral none 0 false).ctx 0).lats.find? (fun x => x.id = 5) = ((lateral none 0 false).ctx 0).lats.head? ∧
    (((lateral (some (6, 0, 1)) 0 false).ctx 0).lats.map fun x => (x.performed, x.sent, x.atom)) = [(false, true, some (6, 0, 1))] ∧
    replyOf (lateral (some (6, 0, 1)) 0 false) (quadOfPA (vaultPA 1 0)) 0 = [] ∧
    (((lateral none 1 true).ctx 0).lats.map fun x => (x.performed, x.atom, x.lk, x.trow)) = [(true, none, 1, 7)] ∧
    (((lateral none 2 true).ctx 0).lats.map fun x => (x.performed, x.atom, x.lk)) = [(true, none, 2)] ∧
    (lateral none 2 true).badIn (vaultPA 1 0) 8 = none ∧
    ({ lateral none 0 false with bad := [vaultPA 1 0] } : State).badIn (vaultPA 1 0) 8 ≠ none ∧
    (let c := (lateral none 0 true true).ctx 0
     c.lats.map (fun x => (x.performed, x.bad)) = [(true, true)] ∧ c.delivered.length < 16 ∧ c.walks = []) :=
  ⟨rfl, rfl, rfl, rfl, rfl, rfl, by decide, rfl, by decide, rfl⟩

/-! ## Witnesses: counters, waits, barriers -/

/-- The quad's buffer holds the 64 KiB page 0 of ASID 0 with this leaf. -/
def mapped (T : Word) (ps : KMap Val) (leaf : Word) (f : Ctx → Ctx) : State :=
  { issuing (f (member T ps)) busyCore with tlb := [⟨0, 0, 0, 0, leaf, []⟩] }

/-- A valid leaf of KIND 1 that counters may write, at HBM 0. -/
def counterLeaf : Word := 0x0011000000000003

theorem ready_mapped (T : Word) (ps : KMap Val) (leaf : Word) (fu port : Nat) (b : Bool) :
    Ready (mapped T ps leaf id) fu port b 0 0 := ready_of _ _ _ _ rfl rfl rfl rfl

/-- The page is held and allows an add at 65528; it does not where its W is clear; another page is not held. -/
theorem witness_CounterAdds :
    (let s := mapped 1 [(24, .s 65533)] counterLeaf id
     CounterOk s .add 65528 ∧ s.iss.ctx.creqs.length < 8) ∧
    (let s := mapped 1 [(24, .s 0)] 0x0001000000000003 id
     ∃ e, tlbFind s 0 0 0 = some e ∧ (leafCheck e.leaf 0 .add true 8).isSome = true) ∧
    (let s := mapped 1 [(24, .s 0x10000)] counterLeaf id
     tlbFind s 0 0 0x10000 = none ∧ s.iss.ctx.xwalk ≠ some true ∧ (s.ctx 0).xwalk = none) ∧
    6 ≤ ((plain 0 [(24, .s 6)]).iss.ctx.portW 6 0).toNat % 8 ∧
    2 ^ 56 ≤ ((plain 0 [(24, .s 0x100000000000000)]).iss.ctx.portW 6 0 &&& ~~~7).toNat :=
  ⟨⟨⟨by decide, by decide, by decide, ⟨counterLeaf, rfl, by decide, by decide⟩⟩, by decide⟩,
    ⟨_, rfl, by decide⟩, by decide, by decide, by decide⟩

/-- Each way a wait meets its value: a free wait slot, one without and one with its value; OLD and OST at, and above, T;
a token written, pending and idle; the numbers 15 and 16. -/
theorem witness_Waits :
    (plain 0 []).iss.note = .quiet ∧ (plain 0 []).iss.ctx.wait = none ∧
    (CounterOk (mapped 1 [(24, .s 0)] counterLeaf id) .wait 0) ∧
    (let c := { member 0 [] with wait := some ⟨1, 0, 5, some 9⟩ }
     (issuing c busyCore).iss.ctx.wait = some ⟨1, 0, 5, some 9⟩) ∧
    (let s := issuing { member 2 [(24, .s 2)] with ctl := { (member 0 []).ctl with old := 2, ost := 3 } } busyCore
     (s.iss.ctx.portW 6 0).toNat ≤ 2 ∧ ¬(trigT s 0).toNat < s.iss.ctx.ctl.old.toNat ∧
     (trigT s 0).toNat < s.iss.ctx.ctl.ost.toNat) ∧
    2 < ((plain 0 [(24, .s 3)]).iss.ctx.portW 6 0).toNat ∧
    (let s := issuing { member 15 [] with toks := [(15, ⟨.written, 7⟩)] } busyCore
     (trigT s 0).toNat ≤ 15 ∧ (s.iss.ctx.tok (trigT s 0).toNat).st = .written) ∧
    (let s := issuing { member 15 [] with toks := [(15, ⟨.pending, 0⟩)] } busyCore
     (s.iss.ctx.tok (trigT s 0).toNat).st = .pending) ∧
    ((plain 15 []).iss.ctx.tok 15).st = .idle ∧ 15 < (trigT (plain 16 []) 0).toNat :=
  ⟨rfl, rfl, ⟨by decide, by decide, by decide, ⟨counterLeaf, rfl, by decide, by decide⟩⟩, rfl, by decide, by decide,
    by decide, by decide, by decide, by decide⟩

/-- Barrier 1 of the member, with one arrival of two, and its next phases. -/
def barred (T : Word) (ps : KMap Val) (b : Barrier) : State :=
  issuing (member T ps) { busyCore with bars := [(1, b)] }

/-- LCNT 2, NPART 1, scope .ln. -/
def pairConf : BitVec 58 := 0x810

/-- An arrival counts, one towards phase PHASE + 3 blocks; waits for phases reached and not; a configuration that is fine,
one with NPART 2 in scope .ln, one with a report open; barriers 127 and 128, mine and not. -/
theorem witness_BarrierUnit :
    (let s := barred 1 [] ⟨true, pairConf, 1, 0⟩
     let b := s.iss.core.bar 1
     (trigT s 0).toNat ≤ 127 ∧ s.iss.ctx.bmask.getLsbD 1 = true ∧ b.cfg = true ∧
     b.arrc.toNat / cfLcnt b.conf + 1 < b.phase.toNat + 3) ∧
    (let b := (barred 1 [] ⟨true, pairConf, 4, 0⟩).iss.core.bar 1
     b.phase.toNat + 3 ≤ b.arrc.toNat / cfLcnt b.conf + 1) ∧
    (let s := barred 1 [(24, .s 2)] ⟨true, pairConf, 4, 2⟩
     (s.iss.ctx.portW 6 0).toNat ≤ (s.iss.core.bar 1).phase.toNat) ∧
    (let s := barred 1 [(24, .s 3)] ⟨true, pairConf, 4, 2⟩
     (s.iss.core.bar 1).phase.toNat < (s.iss.ctx.portW 6 0).toNat) ∧
    (cfScope pairConf < 6 ∧ 0 < cfLcnt pairConf ∧ 0 < cfNpart pairConf ∧ cfNpart pairConf ≤ 1) ∧
    ¬cfNpart (0x1010 : BitVec 58) ≤ 1 ∧
    (let b := (barred 1 [] ⟨true, pairConf, 2, 0⟩).iss.core.bar 1
     b.phase.toNat < b.arrc.toNat / cfLcnt b.conf) ∧
    (trigT (plain 127 []) 0).toNat ≤ 127 ∧ 127 < (trigT (plain 128 []) 0).toNat ∧
    (plain 127 []).iss.ctx.bmask.getLsbD 127 = false ∧ ((plain 1 []).iss.core.bar 1).cfg = false := by decide

/-! ## Witnesses: tile and matrix units, buffers, power -/

/-- Nothing is recorded; a table of bias values fits at BIASB 0 and not at the arena's end. -/
theorem witness_TileUnits :
    recOn (plain 0 []) = false ∧ Ready (plain 0 []) 10 4 false 0 0 ∧ Ready (plain 0 []) 11 24 false 0 0 ∧
    Ready (plain 0 []) 13 5 false 0 0 ∧ 64 * (plain 0 []).iss.ctx.ctl.biasb.toNat + 16640 ≤ 65536 ∧
    65536 < 64 * (764 + 1) + 16640 := by
  refine ⟨rfl, ready_plain .., ready_plain .., ready_plain .., ?_⟩; decide

/-- SF and DF allowed and refused: FP32 (8) to FP16 (6), 3 and 9; a B8 quantisation. -/
theorem witness_ConversionsAndFunctions :
    (let a := (plain 0 [(48, .s 0x68)]).iss.ctx.portW 12 0
     a.toNat % 16 ∈ [6, 7, 8] ∧ a.toNat / 16 % 16 ∈ [6, 7, 8]) ∧
    (let a := (plain 0 [(48, .s 0x93)]).iss.ctx.portW 12 0
     a.toNat % 16 ∉ [0, 1, 2, 4, 5, 6, 7, 8] ∧ a.toNat / 16 % 16 ∉ [6, 7, 8]) ∧
    (let a := (plain 0 [(48, .s 0xA8)]).iss.ctx.portW 12 0
     a.toNat % 16 ∈ [4, 5, 6, 7, 8] ∧ a.toNat / 16 % 16 ∈ [9, 10] ∧ ¬a.toNat / 256 % 4 = 3 ∧ a.getLsbD 10 = false) ∧
    dqntBad ((plain 0 [(48, .s 0x69)]).iss.ctx.portW 12 0) 0 = none := by decide

/-- A member that records, with its log ready for 100 slots: a saved operand, a recomputed one, and FW of both kinds. -/
def recording (T : Word) (ps : KMap Val) (fw : Word) (lim : BitVec 40) : State :=
  issuing { member T ps with
    ctl := { (member T ps).ctl with bsRec := true }
    baste := { Baste.reset with fw := fw, lrdy := true, llim := lim, prods := [(5, 9)] } } busyCore

/-- What the newest entry of context 0's log shows: its length, rows to come and header words 0 and 1. -/
def staged (o : Host.Outcome State Fault Refusal) : Option (Nat × Nat × List Word) :=
  (((after o).ctx 0).baste.stages.getLast?).map fun e => (e.len, e.missing, e.hdr.take 2)

/-- A hold for want of the log, and the traps of a NONE operand and a full log, are all reached. -/
theorem witness_RecordedOperations :
    recOn (recording 0 [] 0 100) = true ∧ (recording 0 [] 0 100).iss.ctx.baste.lrdy = true ∧
    Ready (recording 0 [] 0 100) 10 6 false 0 0 ∧
    met (exec (.taFmul 0 0 0) (recording 0 [] 0 100)) = .quiet ∧ met (exec (.taFmul 0 0 0) (recording 0 [] 3 100)) = .trap 5 0x16 0 ∧
    met (exec (.taFmul 0 0 0) (recording 0 [] 0x10 100)) = .trap 5 0x16 2 ∧
    met (exec (.taFmul 0 0 0) (recording 0 [] 0 5)) = .trap 5 0x18 6 ∧
    met (exec (.npRow 0 0) (recording 0 [(81, .s 1)] 0 100)) = .quiet ∧
    (let s := recording 0 [] 0 100
     let k : Core := { busyCore with staged := 16256 }
     let u : State := { s with cores := [(0, k)], iss := { s.iss with core := k } }
     met (exec (.taFmul 0 0 0) u) = .hold 7 ∧ met (exec (.taFadd 0 0 0) u) = .quiet) := by
  refine ⟨rfl, rfl, ready_of _ _ _ _ rfl rfl rfl rfl, ?_⟩; decide

/-- R246, R247: `fmul` with a SAVE row a (4 slots) and a scalar T (1 slot): 6 slots with the header; KIND 1, FU 10, PORT 6,
RROW 7, FL 0xFC for the absent b and y, RGID 5. FW with STICKY and INC goes on to row 8, and the result's tag is (5, 7). -/
theorem test_recorded_fmul :
    let s := recording 0 [(40, .r 1)] 0x1C01700 100
    staged (exec (.taFmul 0 0 0) s) = some (6, 0, [0x00005006CC038CA1, 0]) ∧
    ((after (exec (.taFmul 0 0 0) s)).ctx 0).baste.fw = 0x2001700 ∧
    (((after (exec (.taFmul 0 0 0) s)).ctx 0).inf.flights.map (·.tag)) = [0x100507] ∧
    ((after (exec (.taFmul 0 0 0) s)).ctx 0).baste.prods = [(5, 9), (5, 5)] ∧
    ((after (exec (.taFmul 0 0 0) s)).core 0).staged = 384 := by decide

/-- R251, R246: a recorded `np.row` stages one slot, KIND 4, FU 20, PORT 5, with the argument words. -/
theorem test_recorded_np :
    (((after (exec (.npRow 0 0) (recording 0 [(80, .s 8), (81, .s 1), (83, .s 0x1000000000000000)] 0 100))).ctx 0).baste.stages.map
      (·.hdr)) = [[0x100000B44, 0, 0, 0, 8, 1, 0, 0x1000000000000000]] := by decide

/-- A core whose matrix unit context 0 owns, with routine 0: entry 256, S 2, O 0, WT 4, one clear word. -/
def matrixCore : Core :=
  { busyCore with matrix := { Matrix.reset with
    owner := some 0, ustore := [(0, BitVec.ofNat 128 (256 + 2 * 2 ^ 12 + 4 * 2 ^ 25 + 2 ^ 49)), (256, 9)] } }

theorem witness_MatrixRegisterWrites :
    let s := issuing (member 7 []) matrixCore
    Ready s 14 5 false 0 0 ∧ s.iss.core.matrix.step = none ∧ s.iss.ctx.queue 23 = [] ∧
    s.iss.core.matrix.owner = some s.iss.n ∧ (plain 7 []).iss.core.matrix.owner ≠ some 0 := by
  refine ⟨ready_of _ _ _ _ rfl rfl rfl rfl, ?_⟩; decide

theorem witness_MatrixCalls :
    let s := issuing (member 0 []) matrixCore
    let m := s.iss.core.matrix
    let ws := if !mdValid (m.word 0) || mdEntry (m.word 0) < 256 then [] else (wordsFrom m 64 (mdEntry (m.word 0))).1
    recOn s = false ∧ Ready s 14 4 false 0 0 ∧ ws = [9] ∧ bufsOf s.iss.ctx (List.replicate 8 0) ws = [] ∧
    routineCheck m 0 = none ∧ callCheck s.iss.ctx (List.replicate 8 0) ws = none ∧ mdWt (m.word 0) ≤ 65535 ∧
    (routineCheck m 255).isSome = true := by
  refine ⟨rfl, ready_of _ _ _ _ rfl rfl rfl rfl, ?_⟩; decide

/-- A step of one clear word, before and after its operands are read. -/
def stepping (read : Bool) : State :=
  issuing (member 0 []) { matrixCore with matrix := { matrixCore.matrix with
    step := some ⟨0, 1, 0, 0, 0, [9], [], 0, [(0, 0, 0)], read, 0, 0, [], [], false, false, false, 0, []⟩ } }

theorem witness_MatrixStepInFlight :
    ((stepping false).core 0).matrix.step.map (fun m => (m.readDone, m.stage, m.bufs, m.got)) = some (false, 0, [], []) ∧
    ((stepping true).core 0).matrix.step.map (fun m => (m.readDone, m.stage, m.bufs, m.got)) = some (true, 0, [], []) :=
  ⟨rfl, rfl⟩

theorem witness_MatrixWords : mwMop 0 = 0 ∧ mwMop 9 = 1 ∧ mwMop 2 = 2 ∧ mwMop 3 = 3 ∧ mwMop 4 = 4 := by decide

/-- A member with buffer 3 of four slots, one filled. -/
def buffered (T : Word) (ps : KMap Val) (pp : BitVec 40) (pq : BitVec 5) : State :=
  issuing { member T ps with cbs := [(3, ⟨true, 0, 1, 4, 1, pp, 0, 0, pq, []⟩)] } busyCore

theorem witness_CircularBuffers :
    (let s := plain 3 [(84, .s 0x100000000), (85, .s 0x10004)]
     Ready s 21 4 false 0 0 ∧ (s.iss.ctx.portW 21 0).toNat / 2 ^ 32 % 512 = 1 ∧ (s.iss.ctx.portW 21 1).toNat % 8192 = 4 ∧
     (s.iss.ctx.portW 21 1).toNat / 2 ^ 16 % 8192 = 1 ∧ cbNamed s 3 = false ∧ (s.iss.ctx.cb 3).pq = 0) ∧
    (let s := buffered 3 [(86, .s 3)] 1 0
     (s.iss.ctx.cb 3).cfg = true ∧ 0 < (trigT s 0).toNat ∧ (trigT s 0).toNat ≤ (s.iss.ctx.cb 3).ns.toNat ∧
     ((trigT s 0).toNat : Int) ≤ (s.iss.ctx.cb 3).free) ∧
    (let s := buffered 4 [(86, .s 3)] 1 0
     (s.iss.ctx.cb 3).free < (trigT s 0).toNat ∧ Ready s 21 5 true 0 0) ∧
    (let s := buffered 4 [(86, .s 3)] 1 17
     (s.iss.ctx.cb 3).free < (trigT s 0).toNat ∧ (s.iss.ctx.cb 3).pq ≠ 0) ∧
    (let s := buffered 3 [(86, .s 3)] 1 17
     ((trigT s 0).toNat : Int) ≤ (s.iss.ctx.cb 3).free ∧ (s.iss.ctx.cb 3).pq ≠ 0) ∧
    Ready (plain 0 []) 21 5 true 0 0 ∧ Ready (plain 0 []) 21 6 false 0 0 ∧ Ready (plain 0 []) 21 7 false 0 0 ∧
    (let s := buffered 1 [(86, .s 3)] 1 0
     (s.iss.ctx.cb 3).rp.toNat + (trigT s 0).toNat ≤ (s.iss.ctx.cb 3).pp.toNat) ∧ ((plain 0 []).iss.ctx.cb 0).cfg = false ∧
    ((plain 3 [(84, .s 1)]).iss.ctx.portW 21 0).toNat % 256 ≠ 0 ∧
    (let s := plain 3 [(84, .s 0x100000000), (85, .s 0x50004)]
     ¬(s.iss.ctx.portW 21 1).toNat / 2 ^ 16 % 8192 ≤ (s.iss.ctx.portW 21 1).toNat % 8192) ∧
    (let s := plain 3 [(84, .s 0x10000FF00), (85, .s 0x10004)]
     65536 * s.iss.ctx.ctl.arenaSize.toNat < (s.iss.ctx.portW 21 0).toNat % 2 ^ 23 + 256 * 1 * 4) ∧
    (let s := buffered 3 [(84, .s 0x100000000), (85, .s 0x10004)] 1 17
     (s.iss.ctx.cb 3).pq ≠ 0) := by
  refine ⟨⟨ready_plain .., ?_⟩, ?_, ⟨?_, ready_of _ _ _ _ rfl rfl rfl rfl⟩, ?_, ?_, ready_plain .., ready_plain .., ready_plain .., ?_⟩ <;> decide

/-- The owner asks for a weight of 0 and of 65535; another context, T 65536, a request outstanding, a pending token. -/
theorem witness_PowerUnit :
    (let s := issuing (member 65535 []) matrixCore
     Ready s 27 4 false 0 0 ∧ s.iss.core.matrix.owner = some s.iss.n ∧ (trigT s 0).toNat < 2 ^ 16 ∧
     s.iss.core.matrix.leave = none ∧ (s.iss.ctx.tok 0).st ≠ .pending) ∧
    (plain 0 []).iss.core.matrix.owner ≠ some 0 ∧ 2 ^ 16 ≤ (trigT (plain 65536 []) 0).toNat ∧
    (issuing (member 0 []) { matrixCore with matrix := { matrixCore.matrix with leave := some (0, 1, 0, false) } }
      ).iss.core.matrix.leave ≠ none ∧
    ((issuing { member 0 [] with toks := [(0, ⟨.pending, 0⟩)] } matrixCore).iss.ctx.tok 0).st = .pending ∧
    0 < (trigT (plain 4095 []) 0).toNat ∧ (trigT (plain 4095 []) 0).toNat < 4096 ∧ (trigT (plain 0 []) 0).toNat = 0 ∧
    4096 ≤ (trigT (plain 4096 []) 0).toNat := by
  refine ⟨⟨ready_of _ _ _ _ rfl rfl rfl rfl, ?_⟩, ?_⟩ <;> decide

/-- Die 0's arbiter with a budget of 10 of which 4 are held, and one request. -/
def arbiter (w : BitVec 16) (due : Option Nat) : State :=
  { plain 0 [] with
    leaveReqs := [(0, [⟨0, w, due⟩])], mgmt := { Mgmt.reset with lbud := [(0, 10)], lheld := [(0, 4)] } }

theorem witness_LeaveArbiter :
    (KMap.get Config.lbud (arbiter 0 none).mgmt.lbud 0).toNat = 10 ∧ KMap.get [] (arbiter 11 none).leaveReqs 0 = [⟨0, 11, none⟩] ∧
    (4 : BitVec 16).toNat + (6 : BitVec 16).toNat ≤ 10 ∧ 10 < (4 : BitVec 16).toNat + (7 : BitVec 16).toNat ∧
    KMap.get [] (arbiter 6 (some 0)).leaveReqs 0 = [⟨0, 6, some 0⟩] ∧ 0 ≤ (arbiter 6 (some 0)).clk := by decide

/-! ## Witnesses: commands -/

/-- A go word without a token. -/
def noTok : Word := 0x1000000000000000

/-- A member with ports, skein handle 2 and buffer 3 configured, and a shape of one dimension of one element at 0. -/
def going (T : Word) (ps : KMap Val) : State :=
  (issuing { member T ps with
    sks := [(2, ⟨true, 0x1000, 7, 0, 64⟩)], cbs := [(3, ⟨true, 0, 8, 4, 1, 0, 0, 0, 0, []⟩)] } busyCore).wr (vaultPA 0 8) 1 8

theorem tokenFree_none (s : State) : TokenFree s none := fun _ h => nomatch h

theorem witness_EngineCommands_goWord :
    (trigT (going noTok []) 0).toNat % 8 < 6 ∧ (trigT (going noTok []) 0).getLsbD 60 = true ∧
    (trigT (going noTok []) 0).getLsbD 63 = false ∧ Ready (going noTok []) 16 4 true 0 0 ∧ QueueOpen (going noTok []) 16 ∧
    6 ≤ (trigT (plain 6 []) 0).toNat % 8 ∧ (trigT (plain 0x8000000000000000 []) 0).getLsbD 63 = true ∧
    ¬QueueOpen (issuing { member 0 [] with qfence := [(16, true)] } busyCore) 16 := by
  refine ⟨by decide, by decide, by decide, ready_of _ _ _ _ rfl rfl rfl rfl, ?_⟩; unfold QueueOpen; decide

theorem witness_EngineCommands_endpoints :
    let s := going noTok []
    EndpointOk s 0 [0, 1, 4] 0 8 0 ∧ EndpointOk s 0x100000000000FF00 [0, 1, 4] 0 256 0 ∧
    EndpointOk s 0x2000000000000003 [0, 1, 2, 3, 4] 0 8 2048 ∧ EndpointOk s 0x3200000000000000 [0, 1, 2, 3, 4] 0 8 0 ∧
    EndpointOk s 0x4000000000000000 [0, 1, 4] 0 8 0 ∧ epBad 0x5000000000000000 [0, 1, 4] = true := by
  refine ⟨⟨by decide, trivial⟩, ⟨by decide, ?_⟩, ⟨by decide, ?_⟩, ⟨by decide, ?_⟩, ⟨by decide, ?_⟩, by decide⟩
  · change vaultOut _ _ _ _ = none; decide
  · change _ ∧ _; decide
  · change (Ctx.sk _ _).cfg = true; decide
  · change Ctl.priv _ = true; decide

theorem witness_EngineCommands_ce :
    let s := going noTok [(66, .s 0), (67, .s 0)]
    let a2 := s.iss.ctx.portW 16 2
    a2.toNat % 256 = 0 ∧ a2.toNat % 2 ^ 23 + 256 ≤ arenaBytes s.iss.ctx ∧ cePM (s.iss.ctx.portW 16 3) ≠ 3 ∧
    (dimsOf (shapeAt s a2)).map (·.cnt) = [1] ∧ met (exec (.ceGo 0 0) s) = .quiet := by decide

/-- Each of the other go moves completes: compare, gather, gather of a skein, window, reshard query, send and row. -/
theorem witness_EngineCommands_rest :
    met (exec (.ceCmp 0 0) (going noTok [(66, .s 1)])) = .quiet ∧
    met (exec (.geGo 0 0) (going noTok [(68, .s 0x1000000000000000), (71, .s 0x100004)])) = .quiet ∧
    met (exec (.geSkg 0 0) (going noTok [(68, .s 2), (70, .s 1), (71, .s 0x40000)])) = .quiet ∧
    met (exec (.weGo 0 0) (going noTok [(73, .s 0x2000000000000003), (74, .s 0x1001001), (75, .s 0x100000000)])) = .quiet ∧
    met (exec (.rsQry 0 0) (going noTok [])) = .quiet ∧
    met (exec (.npSend 0 0) (going noTok [(81, .s 1), (82, .s 4), (83, .s 0x100000000)])) = .quiet ∧
    met (exec (.npRow 0 0) (going 0 [(81, .s 1), (83, .s noTok)])) = .quiet := by decide

/-- A descriptor handle that is bound (2) and one that is not (1); counts 1, 4096 and 4097; lengths 2^40 - 1 and 2^40. -/
theorem witness_SkeinCommands :
    (let s := going 4096 [(90, .s 0x210)]
     let w := s.iss.ctx.portW 22 2
     w.toNat / 32 % 8 < 6 ∧ ctlTok w = none ∧ w.toNat / 256 % 8 = 2 ∧ (s.iss.ctx.sk 2).cfg = true ∧
     1 ≤ (trigT s 0).toNat ∧ (trigT s 0).toNat ≤ 4096 ∧ Ready s 22 5 true 0 0 ∧ QueueOpen s 22 ∧
     (s.iss.ctx.portW 22 1).toNat % 8 ≠ 2) ∧
    ¬(trigT (going 4097 []) 0).toNat ≤ 4096 ∧ (trigT (going 0xFFFFFFFFFF []) 0).toNat < 2 ^ 40 ∧
    ¬(trigT (going 0x10000000000 []) 0).toNat < 2 ^ 40 ∧ ((going 0 []).iss.ctx.sk 1).cfg = false := by
  unfold QueueOpen
  exact ⟨⟨by decide, by decide, by decide, by decide, by decide, by decide, ready_of _ _ _ _ rfl rfl rfl rfl, by decide,
    by decide⟩, by decide⟩

/-- A log handle that is bound, a context that records and one that does not, the tag of a scalar register, of a tile
register, and of one above 15. -/
theorem witness_BasteCommands :
    (let s := issuing { member 0x3 [] with sks := [(0, ⟨true, 0x1000, 7, 0, 64⟩)] } busyCore
     (s.iss.ctx.sk s.iss.ctx.ctl.logsk.toNat).cfg = true ∧ QueueOpen s 23 ∧ Ready s 23 4 true 0 0 ∧ recOn s = false ∧
     ¬(s.iss.ctx.ctl.bsRec = true) ∧ s.iss.ctx.queue 23 = [] ∧ bundleTags s = [] ∧ (trigT s 0).getLsbD 0 = true ∧
     (trigT s 0).getLsbD 1 = true) ∧
    recOn (recording 0 [] 0 9) = true ∧ ((plain 0 []).iss.ctx.sk 0).cfg = false ∧ (trigT (plain 1 []) 0).getLsbD 6 = false ∧
    (trigT (plain 0x41 []) 0).getLsbD 6 = true ∧ (trigT (plain 0 []) 0).getLsbD 0 = false := by
  unfold QueueOpen
  exact ⟨⟨by decide, by decide, ready_of _ _ _ _ rfl rfl rfl rfl, by decide, by decide, by decide, by decide, by decide,
    by decide⟩, by decide⟩

/-- Addresses aligned and not, counts 1 and 16, a holder word that names a router and one that names nothing; a page held
and not held by the quad's buffer. -/
theorem witness_ManagementCommands :
    QueueOpen (plain 0 []) 24 ∧ Ready (plain 0 []) 24 4 true 0 0 ∧ (trigT (plain 256 []) 0).toNat % 256 = 0 ∧
    (trigT (plain 1 []) 0).toNat % 256 ≠ 0 ∧ (holderOf ((trigT (plain 0 []) 0).toNat % 2048)).isSome = true ∧
    (holderOf 2047).isSome = false ∧
    (let s := plain 0 [(101, .s 16)]
     1 ≤ (s.iss.ctx.portW 25 1).toNat % 32 ∧ (s.iss.ctx.portW 25 1).toNat % 32 ≤ 16) ∧
    vaultCheck (plain 0 []).iss.ctx 63488 false 1 2048 = none ∧
    ((plain 1 [(104, .s 0xFFFFFFFFFFFFFF)]).iss.ctx.portW 26 0).toNat + 1 ≤ 2 ^ 56 ∧
    (tlbFind (mapped 0 [] counterLeaf id) 0 0 0).isSome = true ∧ tlbFind (plain 0 []) 0 0 0 = none ∧
    2 ^ 56 ≤ (trigT (plain 0x100000000000000 []) 0).toNat := by
  unfold QueueOpen
  exact ⟨by decide, ready_plain .., by decide⟩


/-! ## Witnesses: the clk of a core -/

/-- Context 0 with results in flight. -/
def flying (l : List Flight) : State :=
  issuing { member 0 [] with inf := { Inflight.none with flights := l } } busyCore

/-- Two results of SA0 due together, a row of TA0 due, and one that is not due. -/
theorem witness_ResultsLand :
    srcOf 0x080 = some (.ent 0 0) ∧
    (∀ f ∈ ((flying [⟨1, 0, 5, .entry (.s 1), 0, 0, false⟩]).ctx 0).inf.flights, f.rem ≠ 0) ∧
    (let a : Flight := ⟨0, 0, 5, .entry (.s 1), 1, 0, false⟩
     let b : Flight := ⟨0, 0, 6, .entry (.s 2), 0, 0, false⟩
     let c : Flight := ⟨3, 0, 7, .entry (.s 2), 0, 0, false⟩
     ((flying [a, b, c]).ctx 0).inf.flights = a :: b :: [c] ∧ ∀ x ∈ [c], x.rem ≠ 0) ∧
    (let a : Flight := ⟨0, 10, 5, .row 3 7, 0, 0, false⟩
     ((flying [a]).ctx 0).inf.flights = a :: []) := ⟨by decide, by decide, ⟨rfl, by decide⟩, rfl⟩

/-- Context 0 with one row sequencer. -/
def sequencing (d : JobDst) (k : Nat) : State :=
  issuing { member 0 [] with inf := { Inflight.none with jobs := [⟨k, .reg 0, d, 0, 0, 5, 0, 0, 0, false⟩] } } busyCore

theorem witness_SequencerRows :
    ((sequencing (.reg 1) 0).ctx 0).inf.jobs = [⟨0, .reg 0, .reg 1, 0, 0, 5, 0, 0, 0, false⟩] ∧
    ((sequencing (.stp 0 3 0) 7).ctx 0).inf.jobs.map (fun j => (j.k, j.dst, j.stage)) = [(7, .stp 0 3 0, 0)] ∧
    ((sequencing (.stp 0 3 0) 6).ctx 0).inf.jobs.map (fun j => (j.k, j.dst, j.stage)) = [(6, .stp 0 3 0, 0)] :=
  ⟨rfl, rfl, rfl⟩

/-- Context 0 as `f` makes it, on a core that runs context r. -/
def withCtx (f : Ctx → Ctx) (r : Option Nat) : State := issuing (f (member 0 [])) { Core.reset with run := r }

/-- A blocked context; a walk under way; a stop that finds its context issuing, and one that does not; a fault that a
handler takes, and one that the policy of a member without a handler lets pass. -/
theorem witness_CoreEvents :
    ((withCtx (fun c => { c with blocked := true }) none).ctx 0).blocked = true ∧
    ((withCtx (fun c => { c with xwalk := some false }) none).ctx 0).xwalk = some false ∧
    (let s := withCtx id (some 0)
     (s.ctx 0).st = .running ∧ (s.core (coreOf 0)).run = some (0 % 4) ∧ (s.ctx 0).blocked = false ∧
       (s.core (coreOf 0)).froze = 0 ∧ (s.ctx 0).stopDist = false) ∧
    ((withCtx (fun c => { c with stopDist := true }) (some 0)).ctx 0).stopDist = true ∧
    (let s := withCtx id (some 1)
     (s.ctx 0).st = .running ∧ (s.core (coreOf 0)).run ≠ some (0 % 4) ∧ (s.ctx 0).accs = [] ∧ (s.ctx 0).wait = none ∧
       (s.ctx 0).doomed = false ∧ ∀ p ∈ (s.ctx 0).inf.cbAdv, p.1 ≠ 0) ∧
    (let s := withCtx (fun c => { handled 0 [] with delivered := (0x2A, 9, 16) :: c.delivered }) (some 0)
     (s.ctx 0).delivered = [(0x2A, 9, 16)] ∧ (s.ctx 0).st = .running ∧ hasHandler (s.ctx 0) = true ∧ (s.ctx 0).accs = [] ∧
       (s.ctx 0).wait = none ∧ ∀ p ∈ (s.ctx 0).inf.cbAdv, p.1 ≠ 0) ∧
    (let s := withCtx (fun c => { c with delivered := [(0x2A, 9, 0)] }) (some 0)
     (s.ctx 0).delivered = [(0x2A, 9, 0)] ∧ hasHandler (s.ctx 0) = false ∧ (s.ctx 0).ctl.cpol.toNat % 4 = 0 ∧
       0x2A ∉ [0x02, 0x23, 0x25, 0x26] ∧ (s.ctx 0).queue 0 = []) := by decide

/-! ## Witnesses: requests, barriers and queues -/

/-- A request of a context about the counter at 64 that was sent once at clk 0. -/
def asks (src : ReqSrc) (val : Word) : Req := ⟨src, 64, 64, val, 0, 1, false, false, 0, false, none, 0⟩

/-- A module with one counter request, whose counter at 64 holds v. -/
def requested (r : Req) (v : Nat) : State :=
  { (withCtx (fun c => { c with creqs := [⟨5, false, 64, 64, r.val, true, []⟩] }) (some 0)).wr 64 v 8 with
    reqs := [(5, r), (6, { r with src := .ctxWait 4, val := 3, registered := true, tries := 1 })], waiters := [6] }

/-- An add that fits and one that overflows; one behind a seam link that is down; a wait that is met and one that is not; one
to be sent again, one lost, one that has waited for room. -/
theorem witness_RequestsAndBarriers :
    (let r := asks (.ctxAdd 0) 2
     let s := requested r 1
     s.Inv ∧ s.req 5 = some r ∧ keptReply s r = none ∧ earlierAdd s 5 r = false ∧ s.badIn 64 8 = none ∧
       r.src.place = some 0 ∧ (s.rd64 64).toNat + 2 < 2 ^ 64 ∧ hasReq 5 (s.ctx 0) = true ∧ s.waiters = [6] ∧
       ((s.req 6).map (·.pa)) = some 64 ∧ (∀ p ∈ s.reqs, p.1 = 6 → p.2.tries ≠ 0) ∧ (3 : Word).toNat ≤ (s.rd64 64 + 2).toNat ∧ 5 ∉ s.waiters ∧
       r.got = none ∧ r.answered = false ∧ (∀ p ∈ s.reqs, p.1 = 5 → p.2.tries ≠ 0) ∧
       keptReply (keepReply s r (.done 9)) r = some (.done 9) ∧ (asks (.hostAdd 7) 2).src.place = none) ∧
    (let r := asks (.ctxAdd 0) 2
     let s := requested r 0xFFFFFFFFFFFFFFFE
     2 ^ 64 ≤ (s.rd64 64).toNat + 2 ∧ (∀ k ∈ s.dist.kerns, k.saved = []) ∧ (s.ctx 0).delivered.length < 16 ∧
       (s.ctx 0).walks = [] ∧ keptReply (keepReply s r (.fault 0x2A 9)) r = some (.fault 0x2A 9) ∧
       keptReply (keepReply s r (.fault 0x27 9)) r = some (.fault 0x27 9)) ∧
    (let r := asks (.ctxWait 0) 2
     let s := requested r 2
     r.got = none ∧ r.registered = false ∧ r.answered = false ∧ keptReply s r = none ∧ s.badIn 64 8 = none ∧
       keptReply (keepReply s r .registered) r = some .registered ∧ keptReply (keepReply s r .full) r = some .full ∧
       (2 : Word).toNat ≤ (s.rd64 64).toNat ∧
       ((requested { r with got := some 3 } 2).req 5).map (·.got) = some (some 3) ∧ s.cal = []) ∧
    (let s := requested (asks (.ctxWait 0) 2) 1
     (s.rd64 64).toNat < (2 : Word).toNat ∧ waitersAt s (homeSlice 64) < 512 ∧
       (∀ p ∈ s.reqs, p.1 = 5 → p.2.tries ≠ 0) ∧ (ReqSrc.ctxWait 0).isWait = true ∧ openOf s (ReqSrc.ctxWait 0).sid < 8) ∧
    (let s := { requested { asks (.ctxWait 0) 2 with tries := 4 } 1 with clk := 8192 }
     (s.req 5).map (fun r => (r.answered, r.tries)) = some (false, 4) ∧ 0 + 8192 ≤ s.clk ∧
       (s.ctx 0).delivered.length < 16 ∧ (s.ctx 0).walks = []) ∧
    (let s := { requested { asks (.ctxWait 0) 2 with tries := 3 } 1 with clk := 8192 }
     (s.req 5).map (fun r => (r.answered, r.tries)) = some (false, 3) ∧ 0 + 8192 ≤ s.clk) :=
  ⟨by unfold State.Inv; decide, by decide, by decide, by decide, by decide, by decide⟩

/-- A slice whose 512 places are taken by waits on one counter. -/
theorem witness_RequestsAndBarriers_full :
    let r : Req := { asks (.ctxWait 4) 9 with performed := true, registered := true, answered := true }
    512 ≤ waitersAt { State.reset with reqs := [(6, r)], waiters := List.replicate 512 6 } (homeSlice 64) := by decide +kernel

/-- LCNT 1, NPART 1 and 2 in scope .qd; NPART 1 in scope .ln. -/
def soloConf : BitVec 58 := 0x809
def duoConf : BitVec 58 := 0x1009
def lnConf : BitVec 58 := 0x808

/-- A report on its way and the count it meets. -/
def reporting (conf : BitVec 58) (nodes : List BarNode) (tos : List Nat) : State :=
  { State.reset with
    barMsgs := [(5, ⟨0, 1, conf, 1, tos⟩)], barNodes := nodes, ctxs := [(0, member 0 [])]
    cores := [(0, { Core.reset with bars := [(1, ⟨true, conf, 1, 0⟩)] })] }

theorem witness_RequestsAndBarriers_reports :
    (let s := reporting soloConf [] []
     let m : BarMsg := ⟨0, 1, soloConf, 1, []⟩
     (s.barMsgs.find? fun p => p.1 = 5) = some (5, m) ∧ cfScope m.conf < 5 ∧ cfNpart m.conf = 1 ∧ 0 < m.phase.toNat ∧
       (s.barNodes.filter fun x => x.level = 1 ∧ x.inst = 0).length < nodeCap (cfScope m.conf)) ∧
    1 < cfNpart duoConf ∧ cfScope duoConf < 5 ∧
    (let x : BarNode := ⟨cfScope duoConf, barInst (cfScope duoConf) 0, 1, cfGroup duoConf, cfNmodm duoConf, 0, [⟨1, 2, [4], []⟩]⟩
     let s := reporting duoConf [x] []
     (s.barNodes.find? fun x => x.is (cfScope duoConf) (barInst (cfScope duoConf) 0) 1 (cfGroup duoConf)) = some x ∧
       x.done.toNat < (1 : Word).toNat ∧ (x.counts.find? fun c => c.phase = 1) = some ⟨1, 2, [4], []⟩ ∧ 2 = cfNpart duoConf) ∧
    (let s := reporting soloConf [] [0]
     let b := (s.core (coreOf 0)).bar 1
     (s.ctx 0).live = true ∧ b.cfg = true ∧ b.conf = soloConf ∧ b.phase.toNat < (1 : Word).toNat) := by
  refine ⟨⟨rfl, ?_⟩, ?_, ?_, ⟨rfl, ?_, rfl, ?_⟩, ?_⟩ <;> decide

/-- Pod packets: a completion, and the report that brings the last but this module's count home. -/
theorem witness_RequestsAndBarriers_pod :
    (let x : BarNode := ⟨5, 0, 1, 9, 2, 0, []⟩
     let s : State := { State.reset with podMsgs := [(5, ⟨true, 1, 9, 2, 3, 1, none⟩)], barNodes := [x] }
     (s.podMsgs.find? fun p => p.1 = 5) = some (5, ⟨true, 1, 9, 2, 3, 1, none⟩) ∧
       (s.barNodes.find? fun x => x.is 5 0 1 9) = some x) ∧
    (let x : BarNode := ⟨6, 0, 1, 9, 2, 0, [⟨1, 0, [], [7, 8]⟩]⟩
     let s : State := { State.reset with podMsgs := [(5, ⟨false, 1, 9, 2, 3, 1, none⟩)], barNodes := [x] }
     (s.barNodes.find? fun x => x.is 6 0 1 9) = some x ∧ x.nmodm = 2 ∧ x.done.toNat < (1 : Word).toNat ∧
       (x.counts.find? fun c => c.phase = 1) = some ⟨1, 0, [], [7, 8]⟩ ∧ s.mgmt.modn.toNat ∉ [7, 8] ∧ 3 ∉ [7, 8] ∧
       (3 : BitVec 10) ≠ s.mgmt.modn) := ⟨⟨rfl, rfl⟩, rfl, rfl, by decide, rfl, by decide, by decide, by decide⟩

/-! ## Witnesses: work through memory -/

/-- What a piece of work met: nothing, or a fault's code. -/
def worked {α : Type} (r : Except Flt α × State) : Option Nat :=
  match r.1 with | .ok _ => none | .error f => some f.1

/-- A module whose context 0 is as `f` says. Page 0 is HBM 0 in the buffers of quad 0 and of the base die. In it stand two
skein descriptors with LIMIT 100, a log's at 4096 and one of another skein at 5120, their pool at 8192 with four free blocks from 32768 on
and its table at 12288, and an image of two bundles at 16384. -/
def shelf (f : Ctx → Ctx) : State :=
  let s : State := { withCtx f (some 0) with tlb := [⟨0, 0, 0, 0, 0x0010000000000003, []⟩, ⟨256, 0, 0, 0, 0x0010000000000003, []⟩] }
  let words : List (Nat × Nat) := [(0x1000, 7 + 2 ^ 32 + 2 ^ 34), (0x1018, 100), (0x1030, 0x2000), (0x1400, 7 + 2 ^ 32),
    (0x1418, 100), (0x1430, 0x2000), (0x2000, 0x8000), (0x2008, 4), (0x2018, 4), (0x2020, 9), (0x2028, 0x3000), (0x4000, 2),
    (0x8000, 1)]
  words.foldl (fun s p => s.wr p.1 p.2 8) s

/-- A command in service that names nothing. -/
def job (fu port : Nat) (a0 a1 a2 a3 go : Word) : Cmd :=
  { id := 5, fu := fu, port := port, a0 := a0, a1 := a1, a2 := a2, a3 := a3, go := go, fmt := 0, asid := 0, ptroot := 0,
    priv := true, row := 0, shape := [], bound := 0, done := 0, chunk := 0, flg := 0, st := .running, aux := 0, after := [], held := none }

/-- A command at the head of its queue in context 0. -/
def serving (q : Cmd) : State := shelf fun c => c.setQueue q.fu [q]

/-- A compare of two physical ranges of 2048 bytes; a faulted command; a send whose bytes are out and one with a row. -/
theorem witness_EngineAndSkeinWork :
    (let q := job 16 5 0x4000000000000000 0x400000000000F800 2048 0 0
     let s := serving q
     s.Inv ∧ (s.ctx 0).queue 16 = [q] ∧ q.st = .running ∧ q.done = 0 ∧ q.held = none ∧ s.ctlw = [] ∧ goTok q.go = some 0 ∧ fld q.go 3 53 = 0 ∧ ek q.a0 = 4 ∧
       ek q.a1 = 4 ∧ fld q.a2 0 40 = 2048 ∧ fld q.a1 0 48 % 65536 + 2048 ≤ 65536 ∧ inHbm (fld q.a1 0 48) 2048 = true ∧
       s.badIn 0 2048 = none ∧ s.badIn (fld q.a1 0 48) 2048 = none) ∧
    (let q := { job 16 5 0 0 0 0 0 with st := .faulted 0x22 9 }
     headFlt 16 ((serving q).ctx 0) = some (0x22, 9) ∧ ((serving q).ctx 0).delivered.length < 16 ∧
       ((serving q).ctx 0).walks = []) ∧
    (let q := { job 20 4 0 0 0 0 0 with done := 0 }
     let p : Packet := { Packet.none with np := 5 }
     cmdSize q ≤ q.done ∧ goTok q.go = some 0 ∧ fld q.go 3 53 = 0 ∧ localPackets (serving q) (quadOf 0) = [] ∧
       localPackets { serving q with routers := [(0, { Router.reset with inject := [(0, p, 0, none)] })] } (quadOf 0) = [p] ∧
       p.np = q.id) ∧
    (let q := job 20 5 0 0 0 0 0
     let s := serving q
     matchEntry (s.holder (quadOf 0)) (npPacket s (quadOf 0) q 0 q.row.toNat 256).flow.toNat = none) := by
  unfold State.Inv; decide +kernel

/-- `sk.len` of a skein and of nothing, and one whose home keeps its value; a reservation of two slots that waits alone, and
would be granted on its arrival and from the list. -/
theorem witness_EngineAndSkeinWork_skeins :
    (let q := job 22 9 0 0 0 0x1400 0
     let s := serving q
     let r := asks (.queue 0 22) 0
     (s.ctx 0).queue 22 = [q] ∧ skTok q.a2 = some 0 ∧ s.req q.id = none ∧
       worked ((cmdDesc (cmdAgent 0 (s.ctx 0) q).home q).run s) = none ∧
       (let t := keepReply { s with reqs := [(5, r)] } r (.data 9 [])
        t.req q.id = some r ∧ (t.req q.id).bind (keptReply t) = some (.data 9 []))) ∧
    (let q := job 22 9 0 0 0 0x1800 0
     worked ((cmdDesc (cmdAgent 0 ((serving q).ctx 0) q).home q).run (serving q)) = some 0x30 ∧
       ((serving q).ctx 0).delivered.length < 16 ∧ ((serving q).ctx 0).walks = []) ∧
    (let q := job 22 5 0 0 0 0x1400 2
     let s := { serving q with skWait := [(0x1400, [(0, q.id)])] }
     let g := (cmdAgent 0 (s.ctx 0) q).home
     let yes (r : Except Flt Bool × State) : Bool := match r.1 with | .ok b => b | .error _ => false
     KMap.get [] s.skWait 0x1400 = [(0, q.id)] ∧ othersWait (serving q) g q = false ∧
       yes ((skResWindow g q).run (serving q)) = true ∧ yes ((skResOpen g q).run s) = true ∧
       worked ((skResAt g q).run s) = none) := by
  decide +kernel

/-- A context whose log is handle 0 at 4096, with a mark staged as entry 3, and its queue of BL commands. -/
def logging (f : Baste → Baste) (qs : List Cmd) : State :=
  shelf fun c => ({ c with
    sks := [(0, ⟨true, 0x1000, 7, 0, 64⟩)]
    baste := f { Baste.reset with
      lrdy := true, llim := 100
      stages := [⟨3, [w64 (3 + 2 ^ 32), 0, 0, 44, 0, 0, 0, 0], [], [], 0, 1, false⟩] } }).setQueue 23 qs

/-- A staged entry that the log takes; a `bl.flag` and a `bl.bast` in service; an unpick that begins. -/
theorem witness_BaseDieWork_log :
    (let s := logging id []
     served s 0 23 = none ∧ (stageReady (s.ctx 0)).isSome = true ∧
       (match stageReady (s.ctx 0) with
        | some e => worked ((appendEntry (logAgent 0 (s.ctx 0)) (logDesc (s.ctx 0)) (s.ctx 0).baste.lrlen.toNat e).run s)
        | none => some 0) = none) ∧
    ((logging id [job 23 8 0 0 0 0 0]).ctx 0).queue 23 = [job 23 8 0 0 0 0 0] ∧
    (let q := job 23 4 0 0 0 0x1000 0
     let s := logging id [q]
     worked ((bastAt (cmdAgent 0 (s.ctx 0) q).home q).run s) = none) ∧
    (let q := job 23 7 1 0 0 0x1000 44
     q.chunk = 0 ∧ q.a0.getLsbD 0 = true ∧ ((logging id [q]).ctx 0).queue 23 = [q]) ∧
    (let q := { job 23 7 1 0 0 0x1000 44 with chunk := 2 }
     let a : Contr := ⟨1, 0, [some 0x3F800000]⟩
     let s := ((logging (fun b => { b with contrs := [a, a] }) [q]).wr 0x10 0x6000 8).wr 0x18 0x8000000000000008 8
     (s.ctx 0).baste.contrs = a :: [a] ∧ rowsPerClk q [a, a] = 1 ∧
       worked ((addContr (cmdAgent 0 (s.ctx 0) q) a).run s) = none) := by
  decide +kernel

/-- The module once the log writer has written the mark, with an unpick that reads it and stops at mark 44. -/
theorem witness_BaseDieWork_unpick :
    let q := { job 23 7 1 0 0 0x1000 44 with chunk := 2 }
    let t := (after (exec (.logEntryWrite 0) (logging id []))).updCtx 0 fun c => c.setQueue 23 [q]
    (t.ctx 0).queue 23 = [q] ∧ (t.ctx 0).baste.contrs = [] ∧
      (match ((readEntry (cmdAgent 0 (t.ctx 0) q) q.a3 (t.ctx 0).ctl.bsCursor.toNat).run t).1 with
       | .ok e => decide (e.kind = 3 ∧ fld (wordAt e.w 3) 0 32 = fld q.go 0 32)
       | .error _ => false) = true := by decide +kernel

/-- A live pattern of one entry; a pattern just installed; a pattern command and a shoot-down in service; loads with and
without an image; a reshard. -/
def patterned (st : BitVec 2) : State :=
  { serving (job 25 6 0 0 0 0 1) with
    pats := [⟨1, 0, none, true, 64, 0, 5, 0, 9, st, [(0, 0)], [], false, []⟩], holders := [(0, { Holder.reset with ents := [(0, FEntry.reset)] })]
    loads := [⟨none, true, 0, 0, some 7, 0x4000, 0, 0, false⟩], reshards := [(5, ⟨1, 0, [(0, 0)], [], [], 0, []⟩)] }

theorem witness_BaseDieWork_patterns :
    (let s := patterned 0
     ((s.ctx 0).queue 25).map (·.port) = [6] ∧ (s.pats.find? fun p => p.pid.toNat = 1) = s.pats.head? ∧
       (s.pats.map fun p => (p.st, p.unloadTok)) = [(0, [])] ∧ ((patterned 2).pats.map fun p => (p.st, p.unloadTok)) = [(2, [])] ∧
       (∀ p ∈ (patterned 2).pats, addsOut (patterned 2) p = false ∧
         addsOut { patterned 2 with reqs := [(8, asks (.holder 0 p.pid) 1)] } p = true) ∧ [(0, 0)].Nodup ∧ s.loads = [⟨none, true, 0, 0, some 7, 0x4000, 0, 0, false⟩] ∧
       (s.reshards.find? fun p => p.1 = 5) = some (5, ⟨1, 0, [(0, 0)], [], [], 0, []⟩)) ∧
    (let q := job 26 4 0 0 0 0 65536
     let s := serving q
     (s.ctx 0).queue 26 = [q] ∧ q.chunk = 0 ∧ xlTok q.a2 = some 0 ∧ sdaOpen s (sdaUsers s 0 q) = [] ∧
       let r := asks (.ctxAdd 0) 2
       let u := { s.updCtx 0 fun c => { c with creqs := [⟨9, false, 64, 64, 2, true, []⟩] } with reqs := [(9, r)] }
       r.performed = false ∧ srcSpace u 9 r.src = some (0, 0) ∧ sdaUses u 0 q 0 0 r.va = true ∧
         sdaOpen u (sdaUsers u 0 q) = [9]) ∧
    (let q := { job 26 4 0 0 0 0 65536 with chunk := 1 }
     let s := serving q
     (s.ctx 0).queue 26 = [q] ∧ sdaOpen s q.after = [])  := by decide +kernel

/-- A loader that stands before an image of no record, which it refuses, and before one of a single DISCARD entry for flow
5 whose counter stands on page 1; a load of a context's command. -/
theorem witness_BaseDieWork_load :
    (match (loadPattern { patterned 0 with loads := [] } ⟨none, true, 0, 0, false⟩ 0x4000).1 with
     | .error _ => true
     | .ok _ => false) = true ∧
    (let s := shelf id
     let s := { s with tlb := s.tlb ++ [⟨256, 0, 0x10000, 0, 0x0011000001000003, []⟩] }
     let words : List (Nat × Nat) := [(0x5000, 1), (0x5008, 0x10000), (0x5010, 5), (0x5018, 9), (0x5020, 5 + 5 * 2 ^ 20),
       (0x5048, 5 * 4 + 9 * 2 ^ 25), (0x5050, 16 * 2 ^ 10)]
     let s := words.foldl (fun s p => s.wr p.1 p.2 8) s
     (match (loadPattern s ⟨none, true, 0, 0, false⟩ 0x5000).1 with | .error _ => false | .ok p => decide (p = 1)) = true ∧
       (match (loadPattern s ⟨some 1, true, 0, 0, false⟩ 0x5000).1 with | .error _ => false | .ok _ => true) = true) ∧
    (let q := job 25 4 0 0 0 0 0x5000
     let l : PatLoad := ⟨some 1, true, 0, 5, none, 0x5000, 0, 0, false⟩
     let s := { serving q with loads := [l] }
     s.loads = l :: [] ∧ l.n = 0 ∧ (s.ctx 0).queue 25 = q :: [] ∧ q.id = l.cmd ∧ q.st = .running ∧ (s.ctx 0).ctl.kid = 1) := by
  decide +kernel

/-! ## Witnesses: the distributor -/

/-- A record of one context with one arena unit, an image of 64 bytes at 16384, entry 0 and no completion counter. -/
def smallRecord : List Word := [0x2000, 0x4000, 64] ++ List.replicate 29 0

/-- A kernel instance 3 with that record. -/
def kern (st : KSt) (members : List Nat) : Kern :=
  { kid := 3, words := smallRecord, st := st, accNo := 0, byp := 0, resv := none, resvAt := 0, run := 2, parent := none,
    deps := [true, true, true, true], pats := [true, true, true, true], members := members, arenas := [(0, 0)],
    oldArenas := [], retired := [], placedAt := 0, areas := [], saved := [], nodes := [], aov := none }

/-- A module with that kernel and context 0 as a member of it, as `f` says. -/
def dispatching (k : Kern) (f : Ctx → Ctx) : State :=
  { shelf fun c => f { c with ctl := { c.ctl with kid := 3 } } with dist := { Dist.reset with kerns := [k] } }

/-- A record with a reserved bit, and one that is accepted. -/
theorem witness_DistributorWork_accept :
    recordReserved [0x80000000] = true ∧
    (let s := { State.reset with tlb := (shelf id).tlb, mem := (shelf id).mem }
     worked (match (acceptRecord s hostLauncher smallRecord none) with
       | (.ok _, t) => (Except.ok (), t)
       | (.error c, t) => (Except.error (c, (0 : Word)), t)) = none) := by decide +kernel

/-- A record that is ready, on a module where nothing is placed; one that is placing on context 8, with its image read. -/
theorem witness_DistributorWork_place :
    (let s : State := { State.reset with
       cores := (List.range 4).map fun i => (i, { Core.reset with limit := 8192 }), dist := { Dist.reset with kerns := [kern .ready []] } }
     roundOrder s = [kern .ready []] ∧ (placeAt s (kern .ready [])).isSome = true ∧
       ∀ x ∈ s.dist.kerns, x.st ≠ .stopping ∧ x.saved = []) ∧
    (let k := kern .placing [8]
     let s := dispatching k id
     s.Inv ∧ (s.dist.kerns.find? fun x => x.kid = BitVec.ofNat 32 3) = some k ∧ k.st = .placing ∧ k.saved = [] ∧ k.arenas = [(0, 0)] ∧
       k.aov = none ∧ rMxu k.words = false ∧ (s.core (coreOf 8)).bars = [] ∧ rImgb k.words ≤ 65536 * rAsz k.words ∧
       worked ((readImages k.words).run s) = none) := by
  unfold State.Inv; decide +kernel

/-- A member that quits and has drained: the last of its kernel, and not the last; one whose engine has a command. -/
theorem witness_DistributorWork_retire :
    let q := job 24 5 0 0 0 0 0
    let f (c : Ctx) : Ctx := { c.setQueue 24 [q] with st := .draining }
    let last := kern .running [0]
    let first := kern .running [0, 4]
    let busy := dispatching last fun c => (f c).setQueue 16 [job 16 4 0 0 0 0 0]
    ((dispatching last f).ctx 0).queue 24 = [q] ∧ drained (dispatching last f) 0 ((dispatching last f).ctx 0) = true ∧
      (busy.ctx 0).queue 24 = [q] ∧ drained busy 0 (busy.ctx 0) = false ∧
      ((dispatching last f).dist.kerns.find? fun x => x.kid = ((dispatching last f).ctx 0).ctl.kid) = some last ∧
      last.retired.length + 1 = last.members.length ∧ rCaddr last.words = 0 ∧
      first.retired.length + 1 < first.members.length := by decide +kernel

/-- A context stopped for a pre-emption whose engine is at work; then quiet; then saved in area 1, and placed again. -/
theorem witness_DistributorWork_preempt :
    (let q := job 16 4 0 0 0 0 0
     let s := dispatching (kern .stopping [0]) fun c => { c.setQueue 16 [q] with st := .saving }
     (s.ctx 0).st = .saving ∧ (s.ctx 0).queues = [(16, [q])] ∧ q.st = .running ∧ goesOn q = false) ∧
    (let k := { kern .stopping [0] with areas := [1] }
     let s := dispatching k fun c => { c with st := .saving, quiet := true }
     (s.dist.kerns.find? fun x => x.kid = BitVec.ofNat 32 3) = some k ∧ liveMembers s k = [0] ∧ (s.ctx 0).quiet = true ∧
       s.barMsgs = []) ∧
    (let m : Saved := ⟨0, 0, member 0 [], none, [], 1, 0, [], 0⟩
     let k := { kern .placing [4] with saved := [m] }
     let s := dispatching k id
     s.Inv ∧ ((s.dist.kerns.flatMap (·.saved)).find? fun m => m.area = 1) = some m ∧
       (s.dist.kerns.find? fun x => x.kid = BitVec.ofNat 32 3) = some k ∧ k.members[m.rank]? = some 4 ∧
       waitWord s m = 0 ∧ (∀ p ∈ m.ctx.queues, ∀ q ∈ p.2, q.st ≠ .running) ∧ m.ctx.fenced = false ∧ (s.ctx 4).dead = [] ∧
       (s.ctx 4).qfence = []) := by
  unfold State.Inv; decide +kernel

/-! ## Witnesses: the fabric and flows -/

/-- A flow packet of one payload flit for node `n` of die 0. -/
def packet (n : BitVec 6) : Packet := { Packet.none with flow := 5, tnode := n, npay := 1, nb := 64, last := true }

/-- Router 0 with a header in channel 0. -/
def routing (p : Packet) (f : Router → Router) : State :=
  { State.reset with
    clk := 64, routers := [(0, f { Router.reset with chans := [(0, { Chan.reset with flits := [⟨p, 0, 0, false⟩] })] })], holders := [] }

/-- A malformed header; one that has arrived; one for the next router; one at the head of a channel that holds port 1; the
circuit channel 4 with its slot. -/
theorem witness_TransportWork_routers :
    (let s := routing (packet 0) id
     let r := s.router 0
     (r.chan 0).flits = [⟨packet 0, 0, 0, false⟩] ∧ (r.chan 0).out = none ∧ (r.chan 0).drop = false ∧
       mustWait r s.clk 0 ⟨packet 0, 0, 0, false⟩ = false ∧ (packet 0).malformed = false ∧ (packet 0).pk = 0 ∧
       (routePort s 0 (packet 0) = 5 ∨ routePort s 0 (packet 0) = 0)) ∧
    { packet 0 with xd := 3 }.malformed = true ∧
    routePort (routing (packet 0) id) 0 { packet 0 with tdie := 1 } = 0 ∧ chVc 0 ≠ 4 ∧
    (let s := routing (packet 1) id
     let port := routePort s 0 (packet 1)
     port = 1 ∧ chVc 0 ≠ 4 ∧
       (allot (s.router 0) port 2 (escapeVc 0 port (packet 1)) (decide (2 ≤ chVc 0))).isSome = true) ∧
    (let s := routing (packet 1) fun r => { r with chans := [(0, { Chan.reset with flits := [⟨packet 1, 0, 0, false⟩], out := some (1, 0) })] }
     let r := s.router 0
     circuitMoves s 0 = false ∧ (r.chan 0).out = some (1, 0) ∧
       ((List.range 25).map fun i => (KMap.get 0 r.rr 1 + i) % 25).find? (wantsPort s 0 1) = some 0) := by decide +kernel

/-- Slot 0 of router 0 joins its local input to port 1, and a circuit flit stands there. -/
theorem witness_TransportWork_circuit :
    let s := routing (packet 1) fun r => { r with
      slots := [(0, 72)], chans := [(4, { Chan.reset with flits := [⟨packet 1, 0, 0, false⟩] })] }
    let r := s.router 0
    (r.chan 4).flits = [⟨packet 1, 0, 0, false⟩] ∧ circuitNow r s.clk = some (0, 1) ∧ circuitMoves s 0 = true ∧
      routePort s 0 (packet 1) ≠ 5 ∧ chVc 4 = 4 ∧ (r.chan 4).out = none ∧ (r.chan 4).drop = false ∧
      mustWait r s.clk 4 ⟨packet 1, 0, 0, false⟩ = false ∧ (packet 1).malformed = false := by decide +kernel

/-- A link with one flit to be acknowledged, clean and with an error to come; in training; packets for a port, for router
1 and through the seam; the two digests of a pair. -/
theorem witness_TransportWork_links :
    (let k (e : Nat) : Link := { Link.reset with retry := [⟨0, 5, true, 0⟩], crcNext := e }
     let s (e : Nat) : State := { State.reset with links := [(0, k e)] }
     (s 0).link 0 = k 0 ∧ ((s 0).link (linkBase 0)).training = none ∧ ((s 0).link (linkBase 0)).fails < 3 ∧ linkBase 64 = 0 ∧
       ((((s 1).link (linkBase 0)).errs ++ [(s 1).clk]).filter fun c => (s 1).clk < c + 65536).length < 8) ∧
    (let s : State := { State.reset with links := [(0, { Link.reset with training := some 9 })] }
     (s.link 0).training = some 9 ∧ (s.link 0).fails = 0) ∧
    (let s (j : Nat) (k : Link) : State := { State.reset with transit := [(5, (j, packet 1))], links := [(64, k)] }
     (∀ j ∈ [0, 1, 2, 100, 264], ((s j Link.reset).transit.find? fun x => x.1 = 5) = some (5, (j, packet 1)) ∧
         ∀ x ∈ (s j Link.reset).transit, ¬x.1 < 5) ∧
       (packet 1).tmod = (s 0 Link.reset).mgmt.modn ∧ (packet 1).tk = 0 ∧ (packet 1).pk = 0 ∧
       ({ packet 1 with pk := 3 } : Packet).pk = 3 ∧ linkRoom (s 0 Link.reset) 64 (packet 1) = true ∧
       linkRoom (s 0 { Link.reset with held := 128 }) 64 (packet 1) = false ∧
       ∀ x ∈ (s 0 Link.reset).transit, x.2.1 ≠ 264) ∧
    (let s : State := { State.reset with digests := [(0, 5, 0, 7, true), (0, 5, 0, 7, false)] }
     s.digests = [(0, 5, 0, 7, true), (0, 5, 0, 7, false)]) := by decide +kernel

/-- A live entry: action, further bits of w0, and w2, w3. -/
def entry (act : Nat) (w0 w2 w3 : Word) : FEntry :=
  { FEntry.reset with w0 := w64 (2 + 5 * 4 + act * 2 ^ 25) + w0, w2 := w2, w3 := w3 }

/-- Router 0 with an entry for flow 5, and its inbox. -/
def holding (x : FEntry) (inbox : List Arrival) : State :=
  { State.reset with holders := [(0, { Holder.reset with ents := [(0, x)], inbox := inbox })] }

/-- A packet that nothing matches; one whose entry has begun to retire; one that a DISCARD entry takes, one that a FWD entry
takes into slot 0, and one that is the first input of two. -/
theorem witness_FlowWork_accept :
    (let a : Arrival := ⟨{ packet 0 with flow := 6 }, none, false, 0⟩
     let s := holding (entry 9 0 0 0) [a]
     (s.holder 0).inbox.find? (fun a => a.pkt.pk = 0 && decide (a.due ≤ s.clk)) = some a ∧ a.hit = none ∧
       (s.holder 0).strays.length < 16 ∧ s.pats = []) ∧
    stillLive (holding { entry 9 0 0 0 with w0 := 3 } []) 0 (0, 0) = false ∧
    (let x := entry 9 0 0 0
     let a : Arrival := ⟨packet 0, some (0, 0), false, 0⟩
     let s := holding x [a]
     (s.holder 0).inbox.find? (fun a => a.pkt.pk = 0 && decide (a.due ≤ s.clk)) = some a ∧ stillLive s 0 (0, 0) = true ∧
       (s.holder 0).entry 0 = x ∧ x.act = 9 ∧ 5 % 2 ^ x.iw < x.nin ∧ (packet 0).seqn = KMap.get 0 x.seqs 0 ∧
       (x.upstream 0).valid = false) ∧
    (let x := entry 0 0 0 0
     x.act = 0 ∧ x.nin = 1 ∧ slotFor' x 0 (packet 0) = some 0 ∧ stillLive (holding x []) 0 (0, 0) = true) ∧
    (let x := entry 2 0x100000000 0 0
     x.act ≠ 9 ∧ x.cm = false ∧ slotFor' x 0 (packet 0) = some 0 ∧ (x.slot 0).pkts.length + 1 ≠ x.nin) := by decide +kernel

/-- A FWD entry with one packet to emit and one credit; a credit reply for it; a DELIVER entry with one packet to write. -/
theorem witness_FlowWork_emit :
    (let x := { entry 0 0 0x0004000000000008 1 with
       slots := [(0, { Slot.reset with pkts := [(0, packet 0)], outq := [(packet 0, [])] })], ring := [0] }
     let s := holding x []
     (s.holder 0).entry 0 = x ∧ x.st = 2 ∧ x.cont = false ∧ x.nxt = none ∧ x.act ≠ 8 ∧ x.cir = false ∧ x.ring = [0] ∧
       (x.slot 0).due ≤ s.clk ∧ (x.slot 0).outq = [(packet 0, [])] ∧ (x.slot 0).pkts = [(0, packet 0)] ∧
       (∀ p ∈ x.ups, p.2.valid = false) ∧ copiesOf 0 x = [0] ∧ 0 < x.credit 0 ∧
       targetsSelf s 0 (copyOf s 0 x 0 x.scnt (packet 0)) = false) ∧
    (let p := { packet 0 with pk := 2, ext := [0x1000C1] }
     let a : Arrival := ⟨p, none, false, 0⟩
     let s := holding (entry 0 0 0 0) [a]
     (s.holder 0).inbox.find? (fun a => a.pkt.pk = 2) = some a ∧ fld (wordAt p.ext 0) 0 8 = 0xC1 ∧
       ((s.holder 0).entry (fld (wordAt p.ext 0) 8 9)).st = 2) ∧
    (let x := { entry 8 0 0 0 with
       prm := [0x4000000000001000], slots := [(0, { Slot.reset with pkts := [(0, packet 0)] })], ring := [0] }
     let s := holding x []
     let lo := fld x.ep 0 48 + (packet 0).chunk.toNat * x.stride
     s.Inv ∧ x.st = 2 ∧ x.ring = [0] ∧ (x.slot 0).pkts = [(0, packet 0)] ∧ ek x.ep = 4 ∧ fld x.done 3 53 = 0 ∧
       targetKern s x = none ∧ lo % 65536 + 64 ≤ 65536 ∧ inHbm lo 64 = true ∧ partBad s lo 64 = none) := by
  unfold State.Inv; decide +kernel

/-! ## Witnesses: the module -/

/-- Go words reach a member that runs, with both endpoints physical; register writes a member that does not. -/
theorem witness_ManagementWork :
    (let s := withCtx (fun c => { c with side := [(64, 0x4000000000000000), (65, 0x4000000000001000), (66, 8)] }) none
     let c := s.ctx 0
     let a (i : Nat) : Word := c.sideArg 16 i
     c.live = true ∧ (c.queue 16).length < 16 ∧ KMap.get false c.qfence 16 = false ∧ ((5 : Word).toNat % 8 < 6) ∧
       (5 : Word).getLsbD 63 = false ∧ goTok 5 = some 0 ∧ (c.tok 0).st ≠ .pending ∧ ek (a 0) = 4 ∧ ek (a 1) = 4 ∧
       epBad (a 0) [4] = false ∧ epBad (a 1) [4] = false ∧ fld (a 2) 0 40 ≠ 0 ∧ c.ctl.priv = true) ∧
    memberRuns ((withCtx id none).ctx 0) = true ∧
    queueFull ((withCtx (fun c => { c with qfence := [(16, true)] }) none).ctx 0) 16 = true ∧
    (let s := withCtx (fun c => { c with st := .inspect }) none
     memberRuns (s.ctx 0) = false ∧ ctlRefuse (s.core (coreOf 0)) 10 8192 = none) ∧ (4 : Word).getLsbD 0 = false := by
  decide +kernel

/-- Boot-hold, halt and run; a placed kernel and a queued one; power limits of 0, 3600 and 3601; save areas that fit and
do not. -/
theorem witness_ManagementWork_module :
    State.reset.mgmt.boot = 0 ∧ ({ Mgmt.reset with boot := 2 } : Mgmt).boot ≠ 0 ∧
    (∃ k ∈ (dispatching (kern .running [0]) id).dist.kerns, k.st = .running) ∧
    (∀ k ∈ (dispatching (kern .queued []) id).dist.kerns, k.st = .queued ∨ k.st = .ready) ∧
    (0 : Word).toNat % 4096 = 0 ∧ ¬((3600 : Word).toNat % 4096 = 0 ∨ 3600 < (3600 : Word).toNat % 4096) ∧
    3600 < (3601 : Word).toNat % 4096 ∧
    (0x7FDFE00000 : Word).toNat / 2 ^ 21 % 2 ^ 27 * 2 ^ 21 + 2 ^ 21 ≤ 0x7FE0000000 ∧
    ¬(0x7FE0000000 : Word).toNat / 2 ^ 21 % 2 ^ 27 * 2 ^ 21 + 2 ^ 21 ≤ 0x7FE0000000 ∧
    (let m := { Mgmt.reset with boot := 1, bootlen := 0x4000000 }
     m.boot = 1 ∧ m.bootlen.toNat ≤ 0x4000000) ∧ 0x4000000 < (0x4000001 : BitVec 32).toNat := by decide +kernel

/-- A message of the host. -/
def message (addr : BitVec 56) (len : BitVec 16) (payload : List Byte) : HostMsg :=
  ⟨1, 7, true, false, false, 0, 0, addr, len, 0, payload⟩

/-- A module that has booted and has the message. -/
def hosted (m : HostMsg) : State :=
  { State.reset with host := [m], hostq := [7], mgmt := { Mgmt.reset with boot := 2 } }

/-- A read of the last 8 bytes of a page, and a write of them; addresses that are aligned and are not; an attestation with a
nonce of 32 bytes. -/
theorem witness_HostMessages :
    (let m := message 0xFFF8 8 (List.replicate 8 1)
     let s := hosted m
     msgOf s 7 = some m ∧ m.phys = true ∧ s.mgmt.boot = 2 ∧ s.Inv ∧ m.addr.toNat % 65536 + m.len.toNat ≤ 65536 ∧
       inHbm m.addr.toNat m.len.toNat = true ∧ s.badIn m.addr.toNat m.len.toNat = none ∧
       partBad s m.addr.toNat m.len.toNat = none ∧ m.payload.length = m.len.toNat ∧ m.addr.toNat % 8 = 0 ∧
       inHbm m.addr.toNat 8 = true) ∧
    (message 4 8 []).addr.toNat % 8 ≠ 0 ∧ (message 4 8 []).addr.toNat < 2 ^ 48 ∧ (message 4 8 []).addr.toNat % 64 ≠ 0 ∧
    (message 64 8 []).addr.toNat % 64 = 0 ∧ (message 0 0 (List.replicate 32 9)).payload.length = 32 := by
  unfold State.Inv; decide +kernel

/-! ## Witnesses: the machine as a whole -/

/-- Guard 1 (G0) is false after placement. -/
theorem witness_FalseGuardDoesNothing :
    (Instr.saAdd 1 0 5).move = some ⟨1, 0, 4, 5⟩ ∧ guardTrue (plain 0 []) 1 = false ∧ (plain 0 []).iss.note = .quiet := by
  decide

/-- Clk 1 of a module that holds one bundle, `sa.add` of s5 under guard 0. -/
def lonely : State := { placeWord State.reset 24 0x000805 with clk := 1 }

theorem witness_StepRunsDecoded_lone : Lone lonely 0 where
  inputs := by have h : lonely.inputs = [] := rfl
               simp [h]
  messages := rfl
  due := by have h : lonely.cal = [] := rfl
            simp [h]
  round := by decide
  sample := by decide +kernel
  boot := by decide +kernel
  routers := by decide +kernel
  waiting := by decide +kernel
  space := by decide +kernel
  link := by decide +kernel
  cores := by decide +kernel
  moves := by decide +kernel
  banks := by decide +kernel
  turn := by decide +kernel
  faults := by decide +kernel
  free := by decide +kernel
  matrix := by decide +kernel

/-- The state of an outcome, if it is one. -/
def nextOf (o : Host.Outcome State Fault Refusal) : Option State := match o with | .next t => some t | _ => none

theorem witness_StepRunsDecoded :
    bundleInstrs (fetch lonely 0).slots 0 = [(0, .saAdd 0 0 5)] ∧ hdrLend (fetch lonely 0).hdr = false ∧
    illegal (fetch lonely 0).hdr (fetch lonely 0).slots = none ∧ inCode lonely 0 (lonely.ctx 0).pc = true ∧
    (match nextOf (unfrozen 0 (some 0) (turnTo (lonely.arbitrated 0) 0 0)) with
     | none => false
     | some s1 =>
       match nextOf (exec (.saAdd 0 0 5) (let x := capturePorts (moveOn s1); { x with iss := { x.iss with slot := 0, note := .quiet } })) with
       | none => false
       | some t => decide (t.iss.note = .quiet) && !overLimit s1 s1.iss.core t.iss.weight) = true := by decide +kernel

theorem witness_EncodeDecode :
    (Instr.saAdd 11 0 0x080).wellFormed = true ∧ (encode (.saAdd 11 0 0x080)).isSome = true ∧
    (Instr.wholeTileWrite 0 7 0x18F).wellFormed = true ∧ (encode (.wholeTileWrite 0 7 0x18F)).isSome = true := by decide

theorem witness_StepKeepsInvariant : lonely.Inv ∧ (nextOf (step lonely)).isSome = true := by
  unfold State.Inv; decide +kernel

/-! ## Single instructions. T is s0; expected values are worked out from the rules named -/

/-- A scalar result in flight with its latency, without flags. -/
def lands (o : Host.Outcome State Fault Refusal) (lat : Nat) (v : Word) : Bool :=
  match landed o with
  | some (l, .entry (.s x), f) => decide (l = lat ∧ x = v ∧ f = 0)
  | _ => false

/-- R108: sums and differences wrap; a − T, not T − a. -/
theorem test_sa_arith :
    lands (exec (.saAdd 0 0 0) (plain 0xFFFFFFFFFFFFFFFF [(0, .s 3)])) 1 2 = true ∧
    lands (exec (.saSub 0 0 0) (plain 5 [(0, .s 3)])) 1 0xFFFFFFFFFFFFFFFE = true ∧
    lands (exec (.saSub 0 1 0) (plain 5 [(0, .s 99), (4, .s 7)])) 1 2 = true := by decide

/-- R108: `andn` keeps the bits of a that T has clear. -/
theorem test_sa_logic :
    lands (exec (.saAnd 0 0 0) (plain 0b1100 [(0, .s 0b1010)])) 1 0b1000 = true ∧
    lands (exec (.saOr 0 0 0) (plain 0b1100 [(0, .s 0b1010)])) 1 0b1110 = true ∧
    lands (exec (.saXor 0 0 0) (plain 0b1100 [(0, .s 0b1010)])) 1 0b0110 = true ∧
    lands (exec (.saAndn 0 0 0) (plain 0b1100 [(0, .s 0b1010)])) 1 0b0010 = true := by decide

/-- R108: counts are T[5:0], so 64 shifts by 0; `rotl` by 0 is a. -/
theorem test_sa_shifts :
    lands (exec (.saShl 0 0 0) (plain 64 [(0, .s 9)])) 1 9 = true ∧
    lands (exec (.saShl 0 0 0) (plain 63 [(0, .s 3)])) 1 0x8000000000000000 = true ∧
    lands (exec (.saShr 0 0 0) (plain 4 [(0, .s 0x8000000000000000)])) 1 0x0800000000000000 = true ∧
    lands (exec (.saSra 0 0 0) (plain 63 [(0, .s 0x8000000000000000)])) 1 0xFFFFFFFFFFFFFFFF = true ∧
    lands (exec (.saRotl 0 0 0) (plain 1 [(0, .s 0x8000000000000001)])) 1 3 = true ∧
    lands (exec (.saRotl 0 0 0) (plain 64 [(0, .s 5)])) 1 5 = true := by decide

/-- R108: the compares with operands that signed and unsigned readings order differently. -/
theorem test_sa_compares :
    lands (exec (.saEq 0 0 0) (plain 1 [(0, .s 1)])) 1 1 = true ∧ lands (exec (.saNe 0 0 0) (plain 1 [(0, .s 1)])) 1 0 = true ∧
    lands (exec (.saLt 0 0 0) (plain 1 [(0, .s 0xFFFFFFFFFFFFFFFF)])) 1 1 = true ∧
    lands (exec (.saLtu 0 0 0) (plain 1 [(0, .s 0xFFFFFFFFFFFFFFFF)])) 1 0 = true ∧
    lands (exec (.saLe 0 0 0) (plain 1 [(0, .s 1)])) 1 1 = true ∧
    lands (exec (.saLeu 0 0 0) (plain 0 [(0, .s 1)])) 1 0 = true := by decide

/-- R108: the smaller and larger of −1 and 1, signed and unsigned; `sel` by b[0]. -/
theorem test_sa_minmax :
    lands (exec (.saMin 0 0 0) (plain 1 [(0, .s 0xFFFFFFFFFFFFFFFF)])) 1 0xFFFFFFFFFFFFFFFF = true ∧
    lands (exec (.saMinu 0 0 0) (plain 1 [(0, .s 0xFFFFFFFFFFFFFFFF)])) 1 1 = true ∧
    lands (exec (.saMax 0 0 0) (plain 1 [(0, .s 0xFFFFFFFFFFFFFFFF)])) 1 1 = true ∧
    lands (exec (.saMaxu 0 0 0) (plain 1 [(0, .s 0xFFFFFFFFFFFFFFFF)])) 1 0xFFFFFFFFFFFFFFFF = true ∧
    lands (exec (.saSel 0 0 0) (plain 1 [(0, .s 7), (1, .s 3)])) 1 7 = true ∧
    lands (exec (.saSel 0 0 0) (plain 1 [(0, .s 7), (1, .s 2)])) 1 1 = true := by decide

/-- R108: counts of 0 and of all ones; `sxt` from bit 7; `lea` by T[1:0]. -/
theorem test_sa_bits :
    lands (exec (.saClz 0 0 0) (plain 0 [])) 1 64 = true ∧ lands (exec (.saClz 0 0 0) (plain 1 [])) 1 63 = true ∧
    lands (exec (.saCtz 0 0 0) (plain 0 [])) 1 64 = true ∧ lands (exec (.saCtz 0 0 0) (plain 8 [])) 1 3 = true ∧
    lands (exec (.saPopc 0 0 0) (plain 0xFF000000000000FF [])) 1 16 = true ∧
    lands (exec (.saSxt 0 0 0) (plain 7 [(0, .s 0x180)])) 1 0xFFFFFFFFFFFFFF80 = true ∧
    lands (exec (.saSxt 0 0 0) (plain 63 [(0, .s 0x180)])) 1 0x180 = true ∧
    lands (exec (.saLea 0 0 0) (plain 7 [(0, .s 1), (1, .s 4)])) 1 33 = true := by decide

/-- R109: the halves of −1 × −1. -/
theorem test_sm_products :
    lands (exec (.smMul 0 0) (plain 0xFFFFFFFFFFFFFFFF [(8, .s 0xFFFFFFFFFFFFFFFF)])) 3 1 = true ∧
    lands (exec (.smMulh 0 0) (plain 0xFFFFFFFFFFFFFFFF [(8, .s 0xFFFFFFFFFFFFFFFF)])) 3 0 = true ∧
    lands (exec (.smMulhu 0 0) (plain 0xFFFFFFFFFFFFFFFF [(8, .s 0xFFFFFFFFFFFFFFFF)])) 3 0xFFFFFFFFFFFFFFFE = true := by decide

/-- R109: −7 divided by 2, by 0, and −2^63 by −1. -/
theorem test_sm_quotients :
    lands (exec (.smDiv 0 0) (plain 2 [(8, .s 0xFFFFFFFFFFFFFFF9)])) 20 0xFFFFFFFFFFFFFFFD = true ∧
    lands (exec (.smDiv 0 0) (plain 0 [(8, .s 5)])) 20 0xFFFFFFFFFFFFFFFF = true ∧
    lands (exec (.smDiv 0 0) (plain 0xFFFFFFFFFFFFFFFF [(8, .s 0x8000000000000000)])) 20 0x8000000000000000 = true ∧
    lands (exec (.smDivu 0 0) (plain 2 [(8, .s 0xFFFFFFFFFFFFFFF9)])) 20 0x7FFFFFFFFFFFFFFC = true := by decide

theorem test_sm_remainders :
    lands (exec (.smRem 0 0) (plain 2 [(8, .s 0xFFFFFFFFFFFFFFF9)])) 20 0xFFFFFFFFFFFFFFFF = true ∧
    lands (exec (.smRem 0 0) (plain 0xFFFFFFFFFFFFFFFF [(8, .s 0x8000000000000000)])) 20 0 = true ∧
    lands (exec (.smRemu 0 0) (plain 0 [(8, .s 5)])) 20 5 = true := by decide

/-- R113's example: a call at 0x200 to 0x400 lands 0x240; a target past the code, or not a bundle's, faults with its value. -/
theorem test_br :
    (let s := looping 32 0 0 0 1
     lands (exec (.brCall 0 0) s) 2 96 = true ∧ ((after (exec (.brCall 0 0) s)).ctx 0).npc = some 32) ∧
    met (exec (.brJmp 0 0) (looping 64 0 0 0 1)) = .trap 5 0x07 64 ∧
    met (exec (.brRet 0 0) (looping 33 0 0 0 1)) = .trap 5 0x07 33 ∧
    ((after (exec (.brJrel 0 0) (looping 0xFFFFFFFFFFFFFFFF 0 0 0 1))).ctx 0).npc = some 0 := by decide

/-- R114: LPCNT := a[31:0], LPSTART := T[22:5]; `lp.cnt` lands LPCNT. -/
theorem test_lp :
    (let t := after (exec (.lpLoop 0 0) (looping 32 0 7 0 1))
     (t.ctx 0).ctl.lpcnt = 3 ∧ (t.ctx 0).ctl.lpstart = 1 ∧ (t.ctx 0).ctl.lpbrk = false) ∧
    ((after (exec (.lpBrk 0 0) (looping 32 0 7 0 1))).ctx 0).ctl.lpbrk = true ∧
    lands (exec (.lpCnt 0 0) (looping 32 0 7 0 1)) 1 7 = true := by decide

/-- R105, R119: RANK reads back, register 35 does not exist; `cx.wr` of a register that nobody writes; FLAGS read and
cleared bit by bit. -/
theorem test_cx :
    lands (exec (.cxRd 0 0) (plain 3 [])) 2 1 = true ∧ met (exec (.cxRd 0 0) (plain 35 [])) = .trap 5 0x06 35 ∧
    ((after (exec (.cxWr 0 0) (plain 12 [(20, .s 9)]))).ctx 0).ctl.lpcnt = 9 ∧
    (let s := issuing { member 4 [] with ctl := { (member 0 []).ctl with flags := 6 } } busyCore
     lands (exec (.cxFlg 0 0) s) 1 6 = true ∧ ((after (exec (.cxFlg 0 0) s)).ctx 0).ctl.flags = 2) := by decide

/-- R88: a rounding mode of 5 traps; a write waits out its shadow. -/
theorem test_cx_fmt :
    met (exec (.cxFmt 0 0) (plain 5 [])) = .trap 5 0x05 5 ∧
    ((after (exec (.cxFmt 0 0) (plain 4 []))).ctx 0).ctl.fmt = 4 ∧
    ((after (exec (.cxFmt 0 0) (plain 4 []))).ctx 0).inf.fmtEff = 0 ∧
    ((after (exec (.cxFmt 0 0) (plain 4 []))).ctx 0).inf.fmtPend.map (·.2) = [4] := by decide

/-- A row with one value in every lane, and one with a value in lane 0 and another elsewhere. -/
def fill (v : BitVec 32) : Row := rowOf fun _ => v
def lead (v w : BitVec 32) : Row := rowOf fun i => if i = 0 then v else w

/-- Lanes 0 and 63 of a row in flight, with its latency and flags. -/
def lanes (o : Host.Outcome State Fault Refusal) (lat : Nat) (v w : BitVec 32) (f : Flg) : Bool :=
  match landed o with
  | some (l, .entry (.r x), g) => decide (l = lat ∧ lane x 0 = v ∧ lane x 63 = w ∧ g = f)
  | _ => false

/-- A scalar in flight with its latency and flags. -/
def landsF (o : Host.Outcome State Fault Refusal) (lat : Nat) (v : Word) (f : Flg) : Bool :=
  match landed o with
  | some (l, .entry (.s x), g) => decide (l = lat ∧ x = v ∧ g = f)
  | _ => false

/-- `plain` with the row a of TA0, b, and c. -/
def tiles (T : Word) (a b : Row) (c : Word) : State := plain T [(40, .r a), (41, .r b), (42, .s c)]

/-- R128, R129: 1 + 2 and the largest number doubled; 1 − 2; 0 × ∞; (1 + 2⁻²³)² − (1 + 2⁻²²), rounded once. -/
theorem test_ta_float :
    lanes (exec (.taFadd 0 0 0) (tiles 0x40000000 (lead 0x3F800000 0) 0 0)) 4 0x40400000 0x40000000 0 = true ∧
    lanes (exec (.taFadd 0 0 0) (tiles 0x7F7FFFFF (fill 0x7F7FFFFF) 0 0)) 4 0x7F800000 0x7F800000 5 = true ∧
    lanes (exec (.taFsub 0 0 0) (tiles 0x40000000 (fill 0x3F800000) 0 0)) 4 0xBF800000 0xBF800000 0 = true ∧
    lanes (exec (.taFmul 0 0 0) (tiles 0x7F800000 (fill 0) 0 0)) 4 0x7FC00000 0x7FC00000 16 = true ∧
    lanes (exec (.taFma 0 0 0) (tiles 0xBF800002 (fill 0x3F800001) (fill 0x3F800001) 0)) 4 0x28800000 0x28800000 0 = true := by
  decide +kernel

/-- R100, R130: −0 is below +0; a quiet NaN gives the canonical one; unordered (6) without a flag, below (2) with NV. -/
theorem test_ta_compare :
    lanes (exec (.taFmax 0 0 0) (tiles 0x80000000 (fill 0) 0 0)) 4 0 0 0 = true ∧
    lanes (exec (.taFmin 0 0 0) (tiles 0x80000000 (lead 0xFFC12345 0) 0 0)) 4 0x7FC00000 0x80000000 0 = true ∧
    lanes (exec (.taFcmp 0 0 0) (tiles 0x7FC00000 (fill 0) 0 6)) 4 1 1 0 = true ∧
    lanes (exec (.taFcmp 0 0 0) (tiles 0x7FC00000 (fill 0) 0 2)) 4 0 0 16 = true ∧
    lanes (exec (.taIcmp 0 0 0) (tiles 1 (fill 0xFFFFFFFF) 0 2)) 4 1 1 0 = true ∧
    lanes (exec (.taIcmp 0 0 0) (tiles 1 (fill 0xFFFFFFFF) 0 6)) 4 0 0 0 = true := by decide +kernel

/-- R128: wraps, signed extremes, the low half of a product, counts of T[4:0], and all 32 bits of b. -/
theorem test_ta_int :
    lanes (exec (.taIadd 0 0 0) (tiles 2 (fill 0xFFFFFFFF) 0 0)) 4 1 1 0 = true ∧
    lanes (exec (.taIsub 0 0 0) (tiles 2 (fill 1) 0 0)) 4 0xFFFFFFFF 0xFFFFFFFF 0 = true ∧
    lanes (exec (.taImul 0 0 0) (tiles 0x10001 (fill 0x10001) 0 0)) 4 0x20001 0x20001 0 = true ∧
    lanes (exec (.taImin 0 0 0) (tiles 1 (fill 0xFFFFFFFF) 0 0)) 4 0xFFFFFFFF 0xFFFFFFFF 0 = true ∧
    lanes (exec (.taImax 0 0 0) (tiles 1 (fill 0xFFFFFFFF) 0 0)) 4 1 1 0 = true ∧
    lanes (exec (.taAnd 0 0 0) (tiles 6 (fill 3) 0 0)) 4 2 2 0 = true ∧
    lanes (exec (.taOr 0 0 0) (tiles 6 (fill 3) 0 0)) 4 7 7 0 = true ∧
    lanes (exec (.taXor 0 0 0) (tiles 6 (fill 3) 0 0)) 4 5 5 0 = true := by decide +kernel

theorem test_ta_shift :
    lanes (exec (.taShl 0 0 0) (tiles 33 (fill 3) 0 0)) 4 6 6 0 = true ∧
    lanes (exec (.taShr 0 0 0) (tiles 31 (fill 0x80000000) 0 0)) 4 1 1 0 = true ∧
    lanes (exec (.taSra 0 0 0) (tiles 31 (fill 0x80000000) 0 0)) 4 0xFFFFFFFF 0xFFFFFFFF 0 = true ∧
    lanes (exec (.taSel 0 0 0) (tiles 9 (fill 7) (lead 0x100 0) 0)) 4 7 9 0 = true := by decide +kernel

/-- R135, R86: 300 and a NaN to INT8; −3 of INT8 to INT32; 1.0 to BF16; code 3 is no format of `tx.cvt`. -/
theorem test_tx_cvt :
    lanes (exec (.txCvt 0 0) (plain 0x43960000 [(48, .s 0x08)])) 8 0x7F 0x7F 0x30 = true ∧
    lanes (exec (.txCvt 0 0) (plain 0x7FC00000 [(48, .s 0x08)])) 8 0 0 0x10 = true ∧
    lanes (exec (.txCvt 0 0) (plain 0xFD [(48, .s 0x20)])) 8 0xFFFFFFFD 0xFFFFFFFD 0 = true ∧
    lanes (exec (.txCvt 0 0) (plain 0x3F800000 [(48, .s 0x78)])) 8 0x3F80 0x3F80 0 = true ∧
    met (exec (.txCvt 0 0) (plain 0 [(48, .s 0x83)])) = .trap 5 0x05 3 := by decide +kernel

/-- R136: the values of the special table. -/
theorem test_tx_special :
    lanes (exec (.txExp 0 0) (plain 0 [(48, .s 0x88)])) 14 0x3F800000 0x3F800000 0 = true ∧
    lanes (exec (.txLog 0 0) (plain 0x80000000 [(48, .s 0x88)])) 14 0xFF800000 0xFF800000 8 = true ∧
    lanes (exec (.txRcp 0 0) (plain 0x80000000 [(48, .s 0x88)])) 12 0xFF800000 0xFF800000 8 = true ∧
    lanes (exec (.txRsq 0 0) (plain 0xBF800000 [(48, .s 0x88)])) 12 0x7FC00000 0x7FC00000 16 = true ∧
    lanes (exec (.txTanh 0 0) (plain 0x80000000 [(48, .s 0x88)])) 16 0x80000000 0x80000000 0 = true ∧
    lanes (exec (.txSigm 0 0) (plain 0 [(48, .s 0x88)])) 16 0x3F000000 0x3F000000 0 = true ∧
    lanes (exec (.txErf 0 0) (plain 0x7F800000 [(48, .s 0x88)])) 16 0x3F800000 0x3F800000 0 = true := by decide +kernel

/-- R136: √2 and 1/√4, correctly rounded. -/
theorem test_tx_roots :
    lanes (exec (.txSqrt 0 0) (plain 0x40000000 [(48, .s 0x88)])) 14 0x3FB504F3 0x3FB504F3 1 = true ∧
    lanes (exec (.txRsq 0 0) (plain 0x40800000 [(48, .s 0x88)])) 12 0x3F000000 0x3F000000 0 = true := by decide +kernel

/-- The row of the example of R139. -/
def exampleRow : Row := rowOf fun i =>
  if i = 0 then 0x40400000 else if i = 1 then 0xBF400000 else if i = 2 then 0x3FA00000 else if i = 32 then 0x42C80000 else 0

/-- A context whose tile register 1 has a row in row 0. -/
def rowed (r : Row) (ps : KMap Val) : State :=
  issuing { member 0 ps with regs := { (member 0 []).regs with t := [(1, tileSet 0 0 r)] } } busyCore

/-- Some lanes of a row in flight, with its latency and flags. -/
def laneList (o : Host.Outcome State Fault Refusal) (is : List Nat) : Option (Nat × List Nat × Flg) :=
  match landed o with
  | some (l, .entry (.r x), g) => some (l, is.map fun i => (lane x i).toNat, g)
  | _ => none

/-- The example of R139: a row quantised to B4 E2M1, and the packed row decoded again. -/
theorem test_tx_quantise :
    laneList (exec (.txQnt 0 0x108) (rowed exampleRow [(48, .s 0x198)])) [0, 1, 4, 8, 9] = some (12, [0x4B7, 0, 5, 0x655F, 0], 1) ∧
    laneList (exec (.txDqnt 0 0x108) (rowed (rowOf fun i => if i = 0 then 0x4B7 else if i = 4 then 5 else if i = 8 then 0x655F else 0)
      [(48, .s 0x89)])) [0, 1, 2, 3, 32] = some (10, [0x40400000, 0xBF400000, 0x3F800000, 0, 0x42C00000], 0) := by decide +kernel

/-- The table after R100: 2²⁴, 1, 1 in tree order and in another. -/
theorem test_ts_rsum :
    landsF (exec (.tsRsum 0 0x108) (rowed (rowOf fun i => if i = 0 then 0x4B800000 else if i ≤ 2 then 0x3F800000 else 0) [])) 6
      0x4B800000 1 = true ∧
    landsF (exec (.tsRsum 0 0x108) (rowed (rowOf fun i => if i = 2 then 0x4B800000 else if i ≤ 1 then 0x3F800000 else 0) [])) 6
      0x4B800001 0 = true := by decide +kernel

/-- R143: the extremes of 3 and zeros; the lowest NaN lane. -/
theorem test_ts_extremes :
    landsF (exec (.tsRmax 0 0x108) (rowed (lead 0x40400000 0) [])) 6 0x40400000 0 = true ∧
    landsF (exec (.tsRmin 0 0x108) (rowed (lead 0x40400000 0x80000000) [])) 6 0x80000000 0 = true ∧
    landsF (exec (.tsAmax 0 0x108) (rowed (rowOf fun i => if i = 5 then 0x7FC00000 else 0x3F800000) [])) 6 5 0 = true := by
  decide +kernel

/-- R141, R144, R145: a reversal; the running sum and maximum of 3, 1, 1, …; lanes 2 to 4. -/
theorem test_ts_rows :
    lanes (exec (.tsPerm 0 0x108) (rowed (rowOf fun i => BitVec.ofNat 32 (100 + i)) [(52, .r (rowOf fun i => BitVec.ofNat 32 (63 - i)))]))
      6 163 100 0 = true ∧
    lanes (exec (.tsScan 0 0x108) (rowed (lead 0x40400000 0x3F800000) [])) 6 0x40400000 0x42840000 0 = true ∧
    lanes (exec (.tsSmax 0 0x108) (rowed (lead 0x40400000 0x3F800000) [])) 6 0x40400000 0x40400000 0 = true ∧
    laneList (exec (.tsMask 0 0) (plain 3 [(53, .s 2)])) [0, 1, 2, 3, 4, 5, 63] = some (6, [0, 0, 1, 1, 1, 0, 0], 0) := by decide +kernel

/-! ## Memory, buffers, barriers, traps -/

/-- R154, R187: bytes are little-endian; a load of two bytes extends bit 15. -/
theorem test_ls_bytes :
    (let s := granted .store 8 false true
     let s := s.updCtx 0 fun c => { c with accs := c.accs.map fun a => { a with data := 0x8182838485868788 } }
     let t := after (exec (.localAccessPerform 0) s)
     Memory.read t.mem (vaultPA 0 8) = 0x88 ∧ Memory.read t.mem (vaultPA 0 15) = 0x81 ∧ Memory.read t.mem (vaultPA 0 16) = 0) ∧
    (let s := (granted (.lds 2 true) 2 true false).wr (vaultPA 0 8) 0x8001 2
     lands (exec (.localAccessPerform 0) s) 3 0xFFFFFFFFFFFF8001 = true) := by decide +kernel

/-- R194: `cas` that matches stores and lands the old word; one that does not stores nothing. -/
theorem test_at_cas :
    let run (cmp : Word) : State :=
      after (exec (.localAccessPerform 0) ((granted (.atom 5 cmp 9) 8 true true).wr (vaultPA 0 8) 7 8))
    (run 7).rd64 (vaultPA 0 8) = 9 ∧ (run 6).rd64 (vaultPA 0 8) = 7 ∧
      ((run 6).ctx 0).inf.flights.map (fun f => (f.rem, f.fu, f.what)) = [(7, 9, .entry (.s 7))] := by decide +kernel

/-- R186: a row store at 256 + 1 is misaligned, and past the arena out of range: the address is the value. -/
theorem test_ls_faults :
    met (exec (.lsStr 0 0) (plain 0 [(33, .s 257)])) = .trap 5 0x21 257 ∧
    met (exec (.lsStr 0 0) (plain 0 [(33, .s 65536)])) = .trap 5 0x20 65536 := by decide

/-- R281: `cb.qry` of four slots with one filled: FREE 3, AV 1, PP 1; a head of five slots is refused by `cb.adv`. -/
theorem test_cb :
    lands (exec (.cbQry 0 0) (buffered 3 [] 1 0)) 2 0x100010003 = true ∧
    met (exec (.cbAdv 0 0) (buffered 5 [(86, .s 3)] 1 0)) = .trap 5 0x0A 5 ∧
    met (exec (.cbAdv 0 0) (buffered 4 [(86, .s 3)] 1 0)) = .block ∧
    ((after (exec (.cbRel 0 0) (buffered 1 [(86, .s 3)] 1 0))).ctx 0).cb 3 = ⟨true, 0, 1, 4, 1, 1, 1, 1, 0, []⟩ := by decide

/-- R407: an arrival at barrier 1 counts and reports nothing before its second. -/
theorem test_ct_arv :
    let t := after (exec (.ctArv 0 0) (barred 1 [] ⟨true, pairConf, 0, 0⟩))
    ((t.core 0).bar 1).arrc = 1 ∧ ((t.core 0).bar 1).phase = 0 ∧ (t.ctx 0).reports = [] := by decide

/-- R417, R418, R436: `sy.trap` with code 5 and value 9 enters the handler at bundle 2 with code 0x85. -/
theorem test_sy_trap :
    let t := after (exec (.syTrap 0 0) (issuing (handled 5 [(28, .s 9)]) busyCore))
    (t.ctx 0).pc = 64 ∧ (t.ctx 0).hdep = true ∧ (t.ctx 0).ctl.trapcode = 0x85 ∧ (t.ctx 0).ctl.trapval = 9 ∧
      (t.ctx 0).ctl.priv = true ∧ (t.ctx 0).frame.isSome = true := by decide +kernel

/-- R393, R402: a counter add that overflows leaves all ones. -/
theorem test_counter_saturates :
    (after (exec (.counterAddPerformed 5)
      (requested (asks (.ctxAdd 0) 2) 0xFFFFFFFFFFFFFFFE))).rd64 64 = BitVec.allOnes 64 := by
  decide +kernel

/-- The check value of CRC-32C (R245): its checksum of the nine characters 1 to 9. -/
theorem test_crc : crc32c 0x393837363534333231 9 = 0xE3069283 := by decide +kernel

/-! ## Whole clks -/

/-- R21, R37, R104: one clk runs `#3 -> s3` at bundle 1: the register is written and the pc goes on. -/
theorem test_step_scalar :
    (nextOf (step (({ State.reset with clk := 1 } : State).withFetchWord 24 0x0F8643))).map
      (fun t => ((t.ctx 0).regs.sreg 3, (t.ctx 0).pc, t.clk)) = some (3, 64, 2) := by decide +kernel

/-- R42: `#5 -> sa0.add` is in flight after its clk, and lands at the start of the next. -/
theorem test_step_add :
    (nextOf (step (State.reset.withFetchWord 24 0x000845))).map
      (fun t => (t.ctx 0).inf.flights.map fun f => (f.fu, f.what)) = some [(0, .entry (.s 5))] := by decide +kernel

/-- R410: the clk of an EVSEL write counts nothing for the changed counter; the next one does. -/
theorem test_event_counts :
    (let k := ((writeEvsel Core.reset 0x10).count 0x10 1).countEnd
     (k.evc, (k.count 0x10 1).countEnd.evc)) = ([], [(0, 1)]) := by decide

/-! ## Further witnesses -/

/-- Context 1 fenced while its kernel lives; one that runs; one with nothing to do again before it goes on; a queue with a
fence and one without. -/
theorem witness_SystemRelease_fenced :
    (let s : State := { plain 8 [] with
       ctxs := [(0, member 8 []), (1, { member 0 [] with st := .frozenV, ctl := { (member 0 []).ctl with kid := 3 } })]
       dist := { Dist.reset with kerns := [kern .running [1]] } }
     Ready s 7 7 false 0 0 ∧ (trigT s 0).toNat / 8 % 4096 = 1 ∧ (s.ctx 1).st = .frozenV ∧
       (∃ k ∈ s.dist.kerns, k.kid = (s.ctx 1).ctl.kid) ∧ (s.ctx 1).workSt = .running ∧ (s.ctx 1).rfe = none ∧
       (s.ctx 0).st = .running ∧ (s.ctx 2).st = .empty ∧ KMap.get false (s.ctx 1).qfence 0 = false) ∧
    (let c : Ctx := { (member 0 []).setQueue 24 [job 24 5 0 0 0 0 0] with st := .inspect }
     let s : State := { plain 8 [] with ctxs := [(0, member 8 []), (1, c)] }
     (s.ctx 1).workSt ≠ .running ∧ (s.ctx 1).replay = none ∧ heldStep s 1 = none) := by
  refine ⟨⟨⟨rfl, fun _ => ⟨rfl, .inl rfl⟩, rfl, fun _ => .inl rfl, trivial⟩, ?_⟩, ?_⟩ <;> decide

/-- A matrix unit whose routine 0 is one word, and a member that owns it; routine 0 weighs W. -/
def weighing (dir word : Word) (lthr grant : BitVec 16) (mp : KMap Word) : State :=
  { issuing (member 0 []) { busyCore with matrix := { Matrix.reset with
      owner := some 0, mp := mp, grant := grant, ustore := [(0, dir.setWidth 128), (256, word.setWidth 128)] } } with
    mgmt := { Mgmt.reset with lthr := [(0, lthr)] } }

/-- A weight that only the grant covers, and one that nothing covers; a load word whose operand leaves the arena, and one in
a buffer without a filled slot; a routine that is not valid; a unit without an owner. -/
theorem witness_MatrixCalls_more :
    let clear : Word := w64 (256 + 2 * 2 ^ 12 + 4 * 2 ^ 25 + 2 ^ 49)
    (let s := weighing clear 9 3 4 []
     (KMap.get Config.lbud s.mgmt.lthr 0).toNat < mdWt (s.iss.core.matrix.word 0) ∧ mdWt (s.iss.core.matrix.word 0) ≤ s.iss.core.matrix.grant.toNat) ∧
    (let s := weighing clear 9 3 3 []
     (KMap.get Config.lbud s.mgmt.lthr 0).toNat < 4 ∧ s.iss.core.matrix.grant.toNat < mdWt (s.iss.core.matrix.word 0) ∧
       routineCheck s.iss.core.matrix 0 = none) ∧
    (plain 0 []).iss.core.matrix.owner ≠ some 0 ∧ (∀ x, (weighing clear 9 3 3 []).iss.core.matrix.step = some x → False) ∧
    (weighing clear 9 3 3 []).iss.ctx.queue 23 = [] := by
  refine ⟨by decide, by decide, by decide, fun x h => (nomatch h), by decide⟩

/-- Context 0 as a packet's reply names it: a credit reply, one of a command at SK, and a request for a home. -/
theorem witness_TransportWork_replies :
    isCredit { packet 0 with pk := 2, ext := [0x1000C1] } = true ∧
    isCredit { packet 0 with pk := 2, ext := [0] } = false ∧
    ({ packet 0 with pk := 1, tk := 3 } : Packet).tk.toNat > 2 ∧ (packet 0).tk ≠ 1 ∧
    (let s (st : BitVec 2) : State := { State.reset with transit := [(5, (232, packet 1))], links := [(32, { Link.reset with st := st })] }
     ((s 0).link (232 - 200)).st ≠ 2 ∧ ((s 2).link (232 - 200)).st = 2 ∧
       ((s 0).transit.find? fun x => x.1 = 5) = some (5, (232, packet 1)) ∧ linkRoom (s 2) 32 (packet 1) = true ∧
       linkRoom { s 2 with links := [(32, { Link.reset with st := 2, held := 128 })] } 32 (packet 1) = false) := by decide +kernel

/-- Reports of scope .ln; a completion that ROOT is to send to module 7. -/
theorem witness_RequestsAndBarriers_more :
    (let m : BarMsg := ⟨0, 1, 0x808, 1, []⟩
     let s : State := { State.reset with barMsgs := [(5, m)] }
     (s.barMsgs.find? fun p => p.1 = 5) = some (5, m) ∧ cfScope m.conf = 0) ∧ 0 < cfScope soloConf ∧ 0 < cfScope duoConf ∧
    (let m : PodMsg := ⟨true, 1, 9, 2, 0, 1, some 7⟩
     let s : State := { State.reset with podMsgs := [(5, m)] }
     (s.podMsgs.find? fun p => p.1 = 5) = some (5, m) ∧ m.dest = some 7 ∧ 7 ≠ s.mgmt.modn.toNat) := by decide +kernel

/-- A member in a stop of the distributor, whose engine is at work; a stopping kernel whose save no other step awaits; a
member that is restored in its queues' state and whose area holds what its image does. -/
theorem witness_DistributorWork_more :
    (let q := job 16 4 0 0 0 0 0
     let s := dispatching (kern .stopping [0]) fun c => { c.setQueue 16 [q] with st := .saving, stopDist := true }
     (s.ctx 0).stopDist = true ∧ (s.ctx 0).quiet = false ∧ (s.ctx 0).queues = [(16, [q])]) ∧
    (dispatching (kern .stopping [0]) id).cal = [] ∧ (dispatching (kern .stopping [0]) id).barMsgs = [] ∧
    (let m : Saved := ⟨0, 0, member 0 [], none, [], 1, 0, [], 0⟩
     let k := { kern .placing [4] with saved := [m], oldArenas := [] }
     let s := dispatching k id
     let x := moveImage (readSave s m).ctx (arenaPA m.ctx (quadOf m.n) 0) (vaultPA (quadOf 4) (65536 * (baseOn k 4).toNat))
     k.oldArenas = [] ∧ m.matrix = none ∧ m.wait = 0 ∧ lateOf s m = false ∧ x.workSt = .running ∧ x.rfe = none) := by
  decide +kernel

/-- `bl.bast` of a context, without a request and as one; a kernel-space shoot-down whose address is mapped. -/
theorem witness_BaseDieWork_more :
    (let q := job 23 4 0 0 0 0x1000 0
     let s := logging id [q]
     let r := asks (.queue 0 23) 0
     s.req q.id = none ∧ ({ s with reqs := [(5, r)] }).req q.id = some r) ∧
    (let q := job 26 5 0x2000 0 0 0 0
     let s := serving q
     (s.ctx 0).queue 26 = [q] ∧ q.st = .running ∧
       (match (translate (cmdAgent 0 (s.ctx 0) q) q.a0 .read 64).run s with
        | (.ok pa, _) => decide (pa = 0x2000)
        | _ => false) = true) := by decide +kernel

/-- A send whose packet leaves by a fence; a skein command with a kept reply, and one that is a request. -/
theorem witness_EngineAndSkeinWork_more :
    (let q := job 20 5 0 0 0 0 0
     let s := { serving q with holders := [(quadOf 0, { Holder.reset with fence := true })] }
     (s.holder (quadOf 0)).fence = true ∧ q.done = 0) ∧
    (let q := job 22 9 0 0 0 0x1400 0
     (serving q).req q.id = none ∧ ((serving q).ctx 0).delivered.length < 16 ∧ ((serving q).ctx 0).walks = [] ∧
       (serving q).skWait = []) := by decide +kernel
end Sys2Proof.Tests
end

section
/-!
PROOFS. The step and the bundle that it decodes (O56).
-/

namespace Sys2Proof.Machine

/-! ## A context that waits for its first resumed clk (R413)

`Lone` leaves out a context that is parked: restored or returned, and not yet issued from. The step wakes such a context
before the landings of its clk (`wake`), where the statement lets `unfrozen` run on the context as it stands. -/

/-- Clk 1 of a module that holds one bundle, `sa.add` of s5, in a context that waits for its first resumed clk. -/
def parkedLone : State := { placeWord State.reset 24 0x000805 with clk := 1 }.updCtx 0 fun c => { c with parked := true }

theorem lone_parkedLone : Lone parkedLone 0 where
  inputs := by simp [show parkedLone.inputs = [] from rfl]
  messages := rfl
  due := by simp [show parkedLone.cal = [] from rfl]
  round := by decide
  sample := by decide
  boot := by decide
  routers := by decide
  waiting := rfl
  space := rfl
  link := rfl
  cores := by decide +kernel
  moves := by decide +kernel
  banks := by decide +kernel
  turn := by decide +kernel
  faults := by decide +kernel
  free := by decide +kernel
  matrix := by decide +kernel

/-- The state of an outcome; the reset state where it has none. -/
def outState (o : Out) : State := match o with | .next t => t | _ => State.reset

/-- Does an outcome have a state? -/
def outGoes (o : Out) : Bool := match o with | .next _ => true | _ => false

theorem eq_next_outState (o : Out) (h : outGoes o = true) : o = .next (outState o) := by
  cases o with
  | next t => rfl
  | fault r => exact absurd h Bool.false_ne_true
  | refused r => exact absurd h Bool.false_ne_true

/-- The instruction of a one-move bundle executed on the state `s1` that the landings leave, as StepRunsDecoded has it. -/
def describedExec (s1 : State) (i : Instr) : Out :=
  let x := if isPortWrite i then moveOn s1 else capturePorts (moveOn s1)
  exec i { x with iss := { x.iss with slot := 0, note := .quiet } }

/-- The clk that executes `i` to `t`, as StepRunsDecoded has it. -/
def describedClk (s : State) (n : Nat) (s1 : State) (i : Instr) (t : State) : Out :=
  clkTail s n (bankStop (s.arbitrated n) (coreOf n) n
    (issued (coreOf n) n s1 (if isPortWrite i then capturePorts t else t)))

/-- What the landings of the clk leave of the parked context's module. -/
def parkedLatched : Out := unfrozen (coreOf 0) (some 0) (turnTo (parkedLone.arbitrated 0) (coreOf 0) 0)

/-- The `sa.add` executed on it. -/
def parkedExecuted : Out := describedExec (outState parkedLatched) (.saAdd 0 0 5)

theorem parkedLone_bundle : bundleInstrs (fetch parkedLone 0).slots 0 = [(0, .saAdd 0 0 5)] ∧
    hdrLend (fetch parkedLone 0).hdr = false ∧ illegal (fetch parkedLone 0).hdr (fetch parkedLone 0).slots = none ∧
    inCode parkedLone 0 (parkedLone.ctx 0).pc = true := by decide +kernel

theorem parkedLone_executes : outGoes parkedLatched = true ∧ outGoes parkedExecuted = true ∧
    (outState parkedExecuted).iss.note = .quiet ∧
    overLimit (outState parkedLatched) (outState parkedLatched).iss.core (outState parkedExecuted).iss.weight = false := by
  decide +kernel

/-- The step has woken the context; the clk that the statement describes leaves it parked. -/
theorem parkedLone_differs : ((outState (step parkedLone)).ctx 0).parked = false ∧
    ((outState (describedClk parkedLone 0 (outState parkedLatched) (.saAdd 0 0 5) (outState parkedExecuted))).ctx 0).parked =
      true := by decide +kernel

/-- Refutes O56: `Lone` admits a parked context, which the step wakes before the landings of its clk (R413) and which the
described clk leaves parked; `parkedLone` is such a state. -/
theorem not_stepRunsDecoded : ¬ Obligations.StepRunsDecoded := by
  unfold Obligations.StepRunsDecoded
  intro h
  obtain ⟨s1, hs1, -, -, -, -, -, hstep⟩ := h parkedLone 0 lone_parkedLone
  obtain ⟨hb, hl, hi, hc⟩ := parkedLone_bundle
  obtain ⟨g1, g2, hq, ho⟩ := parkedLone_executes
  obtain ⟨hwoken, hparked⟩ := parkedLone_differs
  have e1 : outState parkedLatched = s1 := Host.Outcome.next.inj ((eq_next_outState _ g1).symm.trans hs1)
  subst e1
  have described : step parkedLone =
      describedClk parkedLone 0 (outState parkedLatched) (.saAdd 0 0 5) (outState parkedExecuted) :=
    hstep 0 (.saAdd 0 0 5) (outState parkedExecuted) hb hl hi hc (eq_next_outState _ g2) hq ho
  rw [described, hparked] at hwoken
  exact Bool.noConfusion hwoken

end Sys2Proof.Machine
end

section
/-!
PROOFS. Captures, stops, walks and the delivery of faults: the events of a core (O46).
-/

namespace Sys2Proof.Machine

/-! ## Rules of the state's operations -/

/-- Two changes that agree on the context as it stands leave the same state. -/
theorem State.updCtx_congr (s : State) (n : Nat) (f g : Ctx → Ctx) (h : f (s.ctx n) = g (s.ctx n)) :
    s.updCtx n f = s.updCtx n g := congrArg (s.setCtx n) h

@[simp] theorem State.core_setCore (s : State) (c : Nat) (k : Core) : (s.setCore c k).core c = k :=
  KMap.get_put_same _ _ _ _

/-- A context is read from the contexts alone. -/
theorem State.ctx_of_ctxs {s t : State} (h : s.ctxs = t.ctxs) (n : Nat) : s.ctx n = t.ctx n :=
  congrArg (KMap.get Ctx.reset · n) h

@[simp] theorem State.bbAddL_mem (s : State) (l k c : Nat) (i : BitVec 32) (w : Nat) (v : Word) :
    (s.bbAddL l k c i w v).mem = s.mem := rfl
@[simp] theorem State.ctx_bbAddL (s : State) (l k c : Nat) (i : BitVec 32) (w : Nat) (v : Word) (n : Nat) :
    (s.bbAddL l k c i w v).ctx n = s.ctx n := rfl

/-- The events that a core counts stand in its pending counts alone (R410). -/
theorem Core.count_eq (k : Core) (ev n : Nat) : k.count ev n = { k with evp := (k.count ev n).evp } := by
  unfold Core.count
  generalize List.range 4 = l
  induction l generalizing k with
  | nil => rfl
  | cons i l ih =>
    rw [List.foldl_cons, ih]
    split <;> rfl

@[simp] theorem Core.count_icd (k : Core) (ev n : Nat) : (k.count ev n).icd = k.icd := by rw [Core.count_eq]

/-! ## Events of the calendar -/

theorem mem_calInsert (t : Timed) (l : List Timed) : t ∈ calInsert t l := by
  induction l with
  | nil => exact List.mem_singleton_self t
  | cons x l ih =>
    unfold calInsert
    split
    · exact List.mem_cons_self
    · exact List.mem_cons_of_mem x ih

/-- The step put into the calendar stands there. -/
theorem State.mem_at (s : State) (d : Nat) (b : Bool) (e : Instr) : ⟨d, b, e⟩ ∈ (s.at d b e).cal :=
  mem_calInsert _ _

@[simp] theorem State.within_mem (s : State) (lo hi : Nat) (e : Instr) : (s.within lo hi e).mem = s.mem := rfl
@[simp] theorem State.within_ctxs (s : State) (lo hi : Nat) (e : Instr) : (s.within lo hi e).ctxs = s.ctxs := rfl
@[simp] theorem State.within_cores (s : State) (lo hi : Nat) (e : Instr) : (s.within lo hi e).cores = s.cores := rfl
@[simp] theorem State.within_dist (s : State) (lo hi : Nat) (e : Instr) : (s.within lo hi e).dist = s.dist := rfl
@[simp] theorem State.ctx_within (s : State) (lo hi : Nat) (e : Instr) (n : Nat) :
    (s.within lo hi e).ctx n = s.ctx n := rfl
@[simp] theorem State.core_within (s : State) (lo hi : Nat) (e : Instr) (c : Nat) :
    (s.within lo hi e).core c = s.core c := rfl

/-- A step that is to happen within a bound stands in the calendar, at a clk of that bound (log 2). -/
theorem State.within_cal (s : State) (lo hi : Nat) (e : Instr) (h : lo ≤ hi) :
    ∃ d, lo ≤ d ∧ d ≤ hi ∧ ⟨s.clk + d, false, e⟩ ∈ (s.within lo hi e).cal := by
  have : Config.freeNat s.free % (hi - lo + 1) < hi - lo + 1 := Nat.mod_lt _ (Nat.succ_pos _)
  exact ⟨lo + Config.freeNat s.free % (hi - lo + 1), by omega, by omega, State.mem_at _ _ _ _⟩

/-! ## The capture of a context with nothing to perform (R412) -/

/-- No buffer advance of the context is due (R281). -/
def NoAdvance (c : Ctx) : Prop := ∀ p ∈ c.inf.cbAdv, p.1 ≠ 0

theorem advDue_of_noAdvance (c : Ctx) (h : NoAdvance c) : advDue c = c := by
  have due : (c.inf.cbAdv.filter fun p => p.1 = 0) = [] := List.filter_eq_nil_iff.2 fun p hp => by simpa using h p hp
  have left : (c.inf.cbAdv.filter fun p => p.1 ≠ 0) = c.inf.cbAdv :=
    List.filter_eq_self.2 fun p hp => by simpa using h p hp
  simp only [advDue, due, List.foldl_nil, Ctx.updInf]
  rw [left]

/-- A context without local accesses, a wait or a due advance is captured by its snapshot and its held step alone. -/
theorem capture_of_idle (s : State) (n : Nat) (ha : (s.ctx n).accs = []) (hw : (s.ctx n).wait = none)
    (hc : NoAdvance (s.ctx n)) :
    capture s n = (s.updCtx n fun c => c.updInf Inflight.snapped).updCore (coreOf n) fun k => holdStep k n := by
  have hp : performAll s n = s := by simp [performAll, performSome, ha]
  have hq : withdrawWait s n = s := by simp [withdrawWait, hw]
  have hu : (s.updCtx n fun c => (advDue c).updInf Inflight.snapped) = s.updCtx n fun c => c.updInf Inflight.snapped :=
    State.updCtx_congr _ _ _ _ (by rw [advDue_of_noAdvance _ hc])
  rw [capture, hp, hq, hu]

/-! ## Stop requests (R427) -/

/-- Context n with STOPF set. -/
def flagged (s : State) (n : Nat) : State := s.updCtx n fun c => c.updCtl fun l => { l with stopf := true }

/-- The state in which a stop request is judged: STOPF is set, and the queues of a member that is to be saved quiesce. -/
def stopAsked (s : State) (n : Nat) : State :=
  if (s.ctx n).stopDist then (flagged s n).within 1 512 (.engineQuiesceComplete n) else flagged s n

@[simp] theorem stopAsked_mem (s : State) (n : Nat) : (stopAsked s n).mem = s.mem := by
  unfold stopAsked; split <;> rfl
@[simp] theorem stopAsked_cores (s : State) (n : Nat) : (stopAsked s n).cores = s.cores := by
  unfold stopAsked; split <;> rfl
theorem stopAsked_ctxs (s : State) (n : Nat) : (stopAsked s n).ctxs = (flagged s n).ctxs := by
  unfold stopAsked; split <;> rfl
@[simp] theorem core_stopAsked (s : State) (n c : Nat) : (stopAsked s n).core c = s.core c := by
  unfold stopAsked; split <;> rfl
@[simp] theorem ctx_stopAsked (s : State) (n : Nat) :
    (stopAsked s n).ctx n = { s.ctx n with ctl := { (s.ctx n).ctl with stopf := true } } :=
  (State.ctx_of_ctxs (stopAsked_ctxs s n) n).trans (State.ctx_updCtx _ _ _)
theorem ctx_stopAsked_other (s : State) (n m : Nat) (h : m ≠ n) : (stopAsked s n).ctx m = s.ctx m :=
  (State.ctx_of_ctxs (stopAsked_ctxs s n) m).trans (State.ctx_updCtx_other _ _ _ _ h)

/-- A stop request of a member that runs or drains leaves one that holds its core, and stops any other. -/
theorem stopRequest_eq (s : State) (n : Nat) (h : (s.ctx n).st = .running ∨ (s.ctx n).st = .draining) :
    exec (.stopRequest n) s =
      .next (if holdsCore (stopAsked s n) n then stopAsked s n else stopNow (stopAsked s n) n) := by
  have h1 : ¬((s.ctx n).st = .empty ∨ (s.ctx n).st = .saving) := by rcases h with h | h <;> simp [h]
  have h2 : ¬(((s.ctx n).st = .inspect || (s.ctx n).st = .frozenV) = true) := by rcases h with h | h <;> simp [h]
  show execStopRequest n s = _
  unfold execStopRequest
  rw [if_neg h1, if_neg h2]
  exact (apply_ite Host.Outcome.next _ (stopAsked s n) (stopNow (stopAsked s n) n)).symm

theorem holdsCore_iff (s : State) (n : Nat) : holdsCore s n = true ↔
    (s.core (coreOf n)).run = some (n % 4) ∧ (s.ctx n).blocked = false ∧ (s.ctx n).st = .running ∧
      ((s.core (coreOf n)).froze = 0 ∨ (s.core (coreOf n)).froze = 4) := by
  simp [holdsCore, and_assoc]

/-- Asking for a stop does not change whether the context holds its core. -/
theorem holdsCore_stopAsked (s : State) (n : Nat) : holdsCore (stopAsked s n) n = holdsCore s n := by
  simp [holdsCore]

/-- A context where a stop leaves it. -/
def stoppedCtx (c : Ctx) : Ctx :=
  { c with st := if c.stopDist then .saving else .inspect, blocked := false, xwalk := none, kept := keptBits 0 c }

/-- A stop of a context of a kernel that lives is its capture and the mark that it has stopped. -/
theorem stopNow_eq (s : State) (n : Nat) (hd : (s.ctx n).doomed = false) :
    (stopNow s n).mem = (capture s n).mem ∧ (stopNow s n).ctxs = ((capture s n).updCtx n stoppedCtx).ctxs := by
  unfold stopNow
  rw [hd, if_neg Bool.false_ne_true]
  dsimp only
  split <;> exact ⟨rfl, rfl⟩

/-- What a stop leaves of a context that has nothing to perform. -/
theorem stopNow_of_idle (s : State) (n : Nat) (hd : (s.ctx n).doomed = false) (ha : (s.ctx n).accs = [])
    (hw : (s.ctx n).wait = none) (hc : NoAdvance (s.ctx n)) :
    (stopNow s n).mem = s.mem ∧ (∀ m, m ≠ n → (stopNow s n).ctx m = s.ctx m) ∧
      (stopNow s n).ctx n = stoppedCtx ((s.ctx n).updInf Inflight.snapped) := by
  obtain ⟨hm, hx⟩ := stopNow_eq s n hd
  rw [capture_of_idle s n ha hw hc] at hm hx
  refine ⟨hm, fun m h => ?_, ?_⟩
  · rw [State.ctx_of_ctxs hx, State.ctx_updCtx_other _ _ _ _ h, State.ctx_updCore, State.ctx_updCtx_other _ _ _ _ h]
  · rw [State.ctx_of_ctxs hx, State.ctx_updCtx, State.ctx_updCore, State.ctx_updCtx]

/-! ## Trap entry of a context with nothing to perform (R417-R419) -/

theorem trapEntry_mem (s : State) (n code : Nat) (v r : Word) (cls fu : Nat) (rp : Option Replay) :
    (trapEntry s n code v r cls fu rp).mem = (capture s n).mem := rfl

/-- An entry begins a freeze of four clks. -/
theorem trapEntry_icd (s : State) (n code : Nat) (v r : Word) (cls fu : Nat) (rp : Option Replay) :
    ((trapEntry s n code v r cls fu rp).core (coreOf n)).icd = 4 := by
  simp [trapEntry]

theorem ctx_trapEntry_other (s : State) (n m code : Nat) (v r : Word) (cls fu : Nat) (rp : Option Replay) (h : m ≠ n) :
    (trapEntry s n code v r cls fu rp).ctx m = (capture s n).ctx m := by
  unfold trapEntry
  dsimp only
  rw [State.ctx_updCore, State.ctx_updCtx_other _ _ _ _ h]

/-- The frame in which an entry keeps a captured context (R418). -/
def entryFrame (c : Ctx) (resume : Word) (cls fu : Nat) (rp : Option Replay) : Frame :=
  { inf := c.inf, oq := c.oq, ports := c.ports, portSk := c.portSk
    portTags := c.regs.tags.filter fun p => 256 ≤ p.1 ∧ p.1 < 2000
    lpcnt := c.ctl.lpcnt, lplen := c.ctl.lplen, lpstart := c.ctl.lpstart, lpbrk := c.ctl.lpbrk
    replay := Replay.join rp c.replay, npc := c.npc, skip := c.skip, cls := cls, fu := fu, pc := resume }

/-- What an entry leaves of its captured context `c` (R417-R419). -/
structure Entered (c t : Ctx) (code : Nat) (v resume : Word) (cls fu : Nat) (rp : Option Replay) : Prop where
  delivered : t.delivered = c.delivered
  hdep : t.hdep = true
  pc : t.pc = w64 (32 * c.ctl.trapvec.toNat)
  trappc : t.ctl.trappc = BitVec.ofNat 18 (resume.toNat / 32)
  trapcode : t.ctl.trapcode = BitVec.ofNat 8 code
  trapval : t.ctl.trapval = v
  priv : t.ctl.priv = true
  regs : t.regs.s = c.regs.s
  frame : t.frame = some (entryFrame c resume cls fu rp)

theorem entered_trapEntry (s : State) (n code : Nat) (v r : Word) (cls fu : Nat) (rp : Option Replay) :
    Entered ((capture s n).ctx n) ((trapEntry s n code v r cls fu rp).ctx n) code v r cls fu rp := by
  unfold trapEntry
  dsimp only
  rw [State.ctx_updCore, State.ctx_updCtx]
  constructor <;> rfl

/-- A captured context without a due advance is the context with its snapshot. -/
theorem ctx_capture_of_idle (s : State) (n : Nat) (ha : (s.ctx n).accs = []) (hw : (s.ctx n).wait = none)
    (hc : NoAdvance (s.ctx n)) : (capture s n).ctx n = (s.ctx n).updInf Inflight.snapped := by
  rw [capture_of_idle s n ha hw hc, State.ctx_updCore, State.ctx_updCtx]

theorem ctx_capture_of_idle_other (s : State) (n m : Nat) (ha : (s.ctx n).accs = []) (hw : (s.ctx n).wait = none)
    (hc : NoAdvance (s.ctx n)) (h : m ≠ n) : (capture s n).ctx m = s.ctx m := by
  rw [capture_of_idle s n ha hw hc, State.ctx_updCore, State.ctx_updCtx_other _ _ _ _ h]

theorem capture_mem_of_idle (s : State) (n : Nat) (ha : (s.ctx n).accs = []) (hw : (s.ctx n).wait = none)
    (hc : NoAdvance (s.ctx n)) : (capture s n).mem = s.mem := by
  rw [capture_of_idle s n ha hw hc]
  rfl

/-- A replay buffer joined to none is itself. -/
@[simp] theorem Replay.join_none (r : Option Replay) : Replay.join none r = r := by cases r <;> rfl

/-! ## The delivery of a waiting fault (R417) -/

/-- A context whose first waiting fault is taken: its bundle is abandoned unissued. -/
def faultTaken (s : State) (n : Nat) (l : List (Nat × Word × Nat)) : State :=
  s.updCtx n fun c => { c with delivered := l, blocked := false, readySince := s.clk }

@[simp] theorem ctx_faultTaken (s : State) (n : Nat) (l : List (Nat × Word × Nat)) :
    (faultTaken s n l).ctx n = { s.ctx n with delivered := l, blocked := false, readySince := s.clk } :=
  State.ctx_updCtx _ _ _
theorem ctx_faultTaken_other (s : State) (n m : Nat) (l : List (Nat × Word × Nat)) (h : m ≠ n) :
    (faultTaken s n l).ctx m = s.ctx m := State.ctx_updCtx_other _ _ _ _ h

/-- A fault enters the handler that a running context can enter, and starts the walk of any other. -/
theorem faultDelivery_eq (s : State) (n code fu : Nat) (v : Word) (l : List (Nat × Word × Nat))
    (h : (s.ctx n).delivered = (code, v, fu) :: l) : exec (.faultDelivery n) s = .next (
      if (hasHandler (s.ctx n) && decide ((s.ctx n).st = .running)) = true then
        trapEntry (faultTaken s n l) n code v (s.ctx n).resumePc 3 fu none
      else walkFault (faultTaken s n l) n code v fu) := by
  show execFaultDelivery n s = _
  unfold execFaultDelivery
  rw [h]
  show (if (hasHandler ((faultTaken s n l).ctx n) && decide (((faultTaken s n l).ctx n).st = .running)) = true then
      Host.Outcome.next (trapEntry (faultTaken s n l) n code v ((faultTaken s n l).ctx n).resumePc 3 fu none)
    else .next (walkFault (faultTaken s n l) n code v fu)) = _
  rw [ctx_faultTaken]
  exact (apply_ite Host.Outcome.next _ _ _).symm

/-- A fault of no command that the core level ignores leaves the context as it is and one record (R422, R425). -/
theorem walkFault_ignored (s : State) (n code : Nat) (v : Word) (hp : policy (s.ctx n).ctl.cpol 0 = .ignore)
    (hv : isClassV code = false) (hq : (s.ctx n).queue 0 = []) :
    walkFault s n code v 0 = s.bbAddL 0 1 code (s.ctx n).ctl.kid n v := by
  have hl : walkLevels (s.ctx n).ctl.cpol (isSoft code || isClassV code) 6 0 = ([0], .ignore) := by
    simp [walkLevels, hp]
  have hw : walkCtx s n code 0 v (isSoft code) = (s.bbAddL 0 1 code (s.ctx n).ctl.kid n v, true) := by
    simp [walkCtx, hl]
  have hf : commandFate (s.bbAddL 0 1 code (s.ctx n).ctl.kid n v) n 0 true = s.bbAddL 0 1 code (s.ctx n).ctl.kid n v := by
    simp [commandFate, hq]
  simp [walkFault, hv, hw, hf]

/-! ## The clauses of CoreEvents -/

theorem tlbFill_eq (s : State) (buf : Nat) (asid : BitVec 16) (root : BitVec 36) (va : Word) :
    tlbFill s buf asid root va =
      { s with free := (tlbFill s buf asid root va).free, tlb := (tlbFill s buf asid root va).tlb } := by
  unfold tlbFill
  split
  · rfl
  · split <;> rfl

theorem isClassV_eq_false (code : Nat) (h : code ∉ [0x02, 0x23, 0x25, 0x26]) : isClassV code = false := by
  simpa [isClassV, not_or, and_assoc] using h

/-- R401: the walk of a counter operation ends, and the quad's buffer keeps what it found. -/
theorem translationWalk_ends (s : State) (n : Nat) (h : (s.ctx n).xwalk = some false) :
    ∃ t, exec (.translationWalk n) s = .next t ∧ t.ctx n = { s.ctx n with xwalk := some true } ∧ t.mem = s.mem ∧
      (∀ m, m ≠ n → t.ctx m = s.ctx m) ∧
      t.tlb = (tlbFill s (quadOf n) (s.ctx n).ctl.asid (s.ctx n).ctl.ptroot ((s.ctx n).portW 6 0 &&& ~~~7)).tlb := by
  let u := tlbFill s (quadOf n) (s.ctx n).ctl.asid (s.ctx n).ctl.ptroot ((s.ctx n).portW 6 0 &&& ~~~7)
  have hf : u = { s with free := u.free, tlb := u.tlb } := tlbFill_eq _ _ _ _ _
  have hc (m : Nat) : u.ctx m = s.ctx m := by rw [hf]; rfl
  refine ⟨u.updCtx n fun c => { c with xwalk := some true }, if_pos h, ?_, ?_, fun m hm => ?_, rfl⟩
  · rw [State.ctx_updCtx, hc]
  · rw [State.updCtx_mem, hf]
  · rw [State.ctx_updCtx_other _ _ _ _ hm, hc]

/-- R427: a context that holds its core goes on with STOPF set. -/
theorem stopRequest_of_holdsCore (s : State) (n : Nat) (hr : (s.ctx n).st = .running) (hh : holdsCore s n = true) :
    exec (.stopRequest n) s = .next (stopAsked s n) := by
  rw [stopRequest_eq s n (.inl hr), holdsCore_stopAsked, if_pos hh]

/-- R429: the queues of a member that is to be saved quiesce within 512 clks. -/
theorem stopAsked_cal (s : State) (n : Nat) : ((s.ctx n).stopDist = false → (stopAsked s n).cal = s.cal) ∧
    ((s.ctx n).stopDist = true →
      ∃ d, s.clk < d ∧ d ≤ s.clk + 512 ∧ ⟨d, false, .engineQuiesceComplete n⟩ ∈ (stopAsked s n).cal) := by
  refine ⟨fun h => by simp [stopAsked, h, flagged], fun h => ?_⟩
  obtain ⟨d, hlo, hhi, hmem⟩ := State.within_cal (flagged s n) 1 512 (.engineQuiesceComplete n) (by omega)
  refine ⟨s.clk + d, by omega, by omega, ?_⟩
  rw [stopAsked, if_pos h]
  exact hmem

/-- R427, R412: a context that does not hold its core stops where it stands. -/
theorem stopRequest_stops (s : State) (n : Nat) (hr : (s.ctx n).st = .running ∨ (s.ctx n).st = .draining)
    (hh : holdsCore s n = false) (ha : (s.ctx n).accs = []) (hw : (s.ctx n).wait = none)
    (hd : (s.ctx n).doomed = false) (hc : NoAdvance (s.ctx n)) :
    ∃ t, exec (.stopRequest n) s = .next t ∧ t.mem = s.mem ∧ (∀ m, m ≠ n → t.ctx m = s.ctx m) ∧
      t.ctx n = stoppedCtx ({ s.ctx n with ctl := { (s.ctx n).ctl with stopf := true } }.updInf Inflight.snapped) := by
  obtain ⟨hm, ho, hx⟩ := stopNow_of_idle (stopAsked s n) n (by rw [ctx_stopAsked]; exact hd)
    (by rw [ctx_stopAsked]; exact ha) (by rw [ctx_stopAsked]; exact hw) (by rw [ctx_stopAsked]; exact hc)
  refine ⟨stopNow (stopAsked s n) n, ?_, hm.trans (stopAsked_mem s n), fun m h => ?_, ?_⟩
  · rw [stopRequest_eq s n hr, holdsCore_stopAsked, if_neg (by simp [hh])]
  · rw [ho m h, ctx_stopAsked_other s n m h]
  · rw [hx, ctx_stopAsked]

/-- R417, R418: a waiting fault enters the handler of a context that has nothing to perform. -/
theorem faultDelivery_enters (s : State) (n code fu : Nat) (v : Word) (l : List (Nat × Word × Nat))
    (h : (s.ctx n).delivered = (code, v, fu) :: l) (hr : (s.ctx n).st = .running) (hh : hasHandler (s.ctx n) = true)
    (ha : (s.ctx n).accs = []) (hw : (s.ctx n).wait = none) (hc : NoAdvance (s.ctx n)) :
    ∃ t, exec (.faultDelivery n) s = .next t ∧ (t.core (coreOf n)).icd = 4 ∧ t.mem = s.mem ∧
      (∀ m, m ≠ n → t.ctx m = s.ctx m) ∧
      Entered ({ s.ctx n with delivered := l, blocked := false, readySince := s.clk }.updInf Inflight.snapped)
        (t.ctx n) code v (s.ctx n).resumePc 3 fu none := by
  let u := faultTaken s n l
  have hu : u.ctx n = { s.ctx n with delivered := l, blocked := false, readySince := s.clk } := ctx_faultTaken s n l
  have ua : (u.ctx n).accs = [] := by rw [hu]; exact ha
  have uw : (u.ctx n).wait = none := by rw [hu]; exact hw
  have uc : NoAdvance (u.ctx n) := by rw [hu]; exact hc
  refine ⟨trapEntry u n code v (s.ctx n).resumePc 3 fu none, ?_, trapEntry_icd _ _ _ _ _ _ _ _, ?_, fun m hm => ?_, ?_⟩
  · rw [faultDelivery_eq s n code fu v l h, hh, hr]
    rfl
  · rw [trapEntry_mem, capture_mem_of_idle u n ua uw uc]
    rfl
  · rw [ctx_trapEntry_other _ _ _ _ _ _ _ _ _ hm, ctx_capture_of_idle_other u n m ua uw uc hm]
    exact ctx_faultTaken_other s n m l hm
  · rw [← hu, ← ctx_capture_of_idle u n ua uw uc]
    exact entered_trapEntry u n code v _ 3 fu none

/-- R417, R422, R425: a waiting fault without a handler that the core level ignores leaves one record. -/
theorem faultDelivery_ignored (s : State) (n code : Nat) (v : Word) (l : List (Nat × Word × Nat))
    (h : (s.ctx n).delivered = (code, v, 0) :: l) (hh : hasHandler (s.ctx n) = false)
    (hp : (s.ctx n).ctl.cpol.toNat % 4 = 0) (hv : isClassV code = false) (hq : (s.ctx n).queue 0 = []) :
    exec (.faultDelivery n) s = .next ((faultTaken s n l).bbAddL 0 1 code (s.ctx n).ctl.kid n v) := by
  have hpol : policy ((faultTaken s n l).ctx n).ctl.cpol 0 = .ignore := by
    rw [ctx_faultTaken]; simp [policy, bits, hp]
  have hqu : ((faultTaken s n l).ctx n).queue 0 = [] := by rw [ctx_faultTaken]; exact hq
  rw [faultDelivery_eq s n code 0 v l h, hh, walkFault_ignored _ n code v hpol hv hqu, ctx_faultTaken]
  rfl

/-- Settles O46, one clause at a time: the first three are what the events are defined as; the others are the lemmas above. -/
theorem coreEvents : Obligations.CoreEvents := by
  unfold Obligations.CoreEvents
  intro s n
  refine ⟨rfl, fun hb => ?_, rfl, translationWalk_ends s n, ?_, ?_, ?_, ?_⟩
  · show Host.Outcome.next (s.updCtx n fun c => _) = _
    simp only [State.updCtx, hb, if_true]
  · intro hi
    obtain ⟨hrun, hb, hr, hf⟩ := hi
    refine ⟨stopAsked s n, stopRequest_of_holdsCore s n hr ((holdsCore_iff s n).2 ⟨hrun, hb, hr, hf⟩), ctx_stopAsked s n,
      ctx_stopAsked_other s n, stopAsked_cores s n, stopAsked_mem s n, stopAsked_cal s n⟩
  · intro hr hi ha hw hd hc
    have hh : holdsCore s n = false := Bool.eq_false_iff.2 (hi ∘ (holdsCore_iff s n).1)
    exact stopRequest_stops s n hr hh ha hw hd hc
  · intro code v fu l h hr hh ha hw hc
    obtain ⟨t, he, hicd, hm, ho, hE⟩ := faultDelivery_enters s n code fu v l h hr hh ha hw hc
    exact ⟨t, _, he, hicd, hm, hE.delivered, hE.hdep, hE.pc, hE.trappc, hE.trapcode, hE.trapval, hE.priv, hE.regs, hE.frame,
      rfl, rfl, Replay.join_none _, rfl, ho⟩
  · intro code v l h hh hp hv hq
    exact ⟨_, _, faultDelivery_ignored s n code v l h hh hp (isClassV_eq_false code hv) hq, rfl,
      (State.ctx_bbAddL ..).trans (ctx_faultTaken s n l), rfl, rfl, rfl, rfl, rfl⟩

end Sys2Proof.Machine
end

section
/-!
PROOFS. The distributor: records, placement, retirement and pre-emption (O50).
-/

namespace Sys2Proof.Machine

/-! ## Work that only reads (R168, R169) -/

/-- From `s` to `t` nothing changes but the translation buffers, the count of free values and the trace of a trial. -/
def OnlyRead (s t : State) : Prop := t = { s with free := t.free, tlb := t.tlb, trace := t.trace }

theorem OnlyRead.refl (s : State) : OnlyRead s s := rfl

theorem OnlyRead.trans {s t u : State} (h : OnlyRead s t) (k : OnlyRead t u) : OnlyRead s u := by
  unfold OnlyRead at *
  rw [h] at k
  exact k

theorem OnlyRead.mem {s t : State} (h : OnlyRead s t) : t.mem = s.mem := by rw [h]
theorem OnlyRead.dist {s t : State} (h : OnlyRead s t) : t.dist = s.dist := by rw [h]

/-- Work that changes nothing but what `OnlyRead` allows, whether it meets a fault or not. -/
def ReadsOnly {α : Type} (m : Acc α) : Prop := ∀ s, OnlyRead s (m.run s).2

theorem readsOnly_pure {α : Type} (a : α) : ReadsOnly (pure a : Acc α) := fun s => OnlyRead.refl s

theorem readsOnly_bind {α β : Type} {m : Acc α} {f : α → Acc β} (h : ReadsOnly m) (k : ∀ a, ReadsOnly (f a)) :
    ReadsOnly (m >>= f) := by
  intro s
  have e : (m >>= f).run s = ExceptT.bindCont f (m.run s).1 (m.run s).2 := rfl
  have hm := h s
  rw [e]
  generalize m.run s = r at hm ⊢
  obtain ⟨_ | a, t⟩ := r
  · exact hm
  · exact OnlyRead.trans hm (k a t)

theorem translate_run (g : Agent) (va : Word) (w : Want) (n : Nat) (s : State) : (translate g va w n).run s =
    match xlate s g.buf g.asid g.root va w g.priv n with
    | .error f => (.error f, s)
    | .ok p => (.ok p, tlbFill s g.buf g.asid g.root va) := by
  show (match xlate s g.buf g.asid g.root va w g.priv n with
    | .error f => throw f
    | .ok p => (do set (tlbFill s g.buf g.asid g.root va); pure p) : Acc Nat).run s = _
  cases xlate s g.buf g.asid g.root va w g.priv n <;> rfl

theorem readsOnly_translate (g : Agent) (va : Word) (w : Want) (n : Nat) : ReadsOnly (translate g va w n) := by
  intro s
  rw [translate_run]
  split
  · exact OnlyRead.refl s
  · show OnlyRead s (tlbFill ..)
    rw [tlbFill_eq]; rfl

theorem onlyRead_touch (s : State) (pa n : Nat) : OnlyRead s (s.touch pa n) := by
  unfold State.touch
  split
  · rfl
  · split <;> rfl

theorem readsOnly_readPhys (pa n : Nat) (a : Word) : ReadsOnly (readPhys pa n a) := by
  intro s
  show OnlyRead s ((if inControl pa then pure (spaceRead s pa).toNat
    else match s.badIn pa n with
    | some b => throw (0x27, a + w64 b - w64 pa)
    | none => (do set (s.touch pa n); pure (s.rd pa n)) : Acc Nat).run s).2
  split
  · exact OnlyRead.refl s
  · split
    · exact OnlyRead.refl s
    · exact onlyRead_touch s pa n

theorem readsOnly_foldlM {α β : Type} (f : β → α → Acc β) (h : ∀ b a, ReadsOnly (f b a)) (l : List α) :
    ∀ b, ReadsOnly (l.foldlM f b) := by
  induction l with
  | nil => exact readsOnly_pure
  | cons a l ih =>
    intro b
    rw [List.foldlM_cons]
    exact readsOnly_bind (h b a) ih

theorem readsOnly_readVirt (g : Agent) (va : Word) (n : Nat) : ReadsOnly (readVirt g va n) :=
  readsOnly_foldlM _ (fun _ _ => readsOnly_bind (readsOnly_translate _ _ _ _) fun _ =>
    readsOnly_bind (readsOnly_readPhys _ _ _) fun _ => readsOnly_pure _) _ _

theorem readsOnly_scanImage (w : List Word) : ReadsOnly (scanImage w) :=
  readsOnly_bind (readsOnly_readVirt _ _ _) fun _ => readsOnly_bind (readsOnly_readVirt _ _ _) fun _ => readsOnly_pure _

theorem readsOnly_readImages (w : List Word) : ReadsOnly (readImages w) := by
  refine readsOnly_bind (readsOnly_readVirt _ _ _) fun _ => ?_
  dsimp only
  split
  · exact readsOnly_bind (readsOnly_readVirt _ _ _) fun _ => readsOnly_pure _
  · exact readsOnly_bind (readsOnly_pure _) fun _ => readsOnly_pure _

/-! ## A new kernel number (R309) -/

/-- A number that a new kernel may not take. -/
def kidTaken (s : State) (k : BitVec 32) : Bool := k = 0 || s.dist.kerns.any fun x => x.kid = k

theorem freeKid_succ (s : State) (f : Nat) (k : BitVec 32) :
    freeKid s (f + 1) k = if kidTaken s k then freeKid s f (k + 1) else k := rfl

/-- The search ends at a free number, or each of the numbers that it tried is taken. -/
theorem freeKid_or (s : State) (f : Nat) : ∀ k, kidTaken s (freeKid s f k) = false ∨
    ∀ i, i < f → kidTaken s (k + BitVec.ofNat 32 i) = true := by
  induction f with
  | zero => exact fun k => .inr fun i hi => absurd hi (Nat.not_lt_zero i)
  | succ f ih =>
    intro k
    rw [freeKid_succ]
    by_cases hk : kidTaken s k = true
    · rw [if_pos hk]
      refine (ih (k + 1)).imp id fun h i hi => ?_
      cases i with
      | zero => simpa using hk
      | succ i =>
        have e : k + BitVec.ofNat 32 (i + 1) = k + 1 + BitVec.ofNat 32 i := by
          rw [BitVec.add_assoc, BitVec.ofNat_add, BitVec.add_comm (BitVec.ofNat 32 i)]; rfl
        rw [e]
        exact h i (by omega)
    · rw [if_neg hk]
      exact .inl (Bool.eq_false_iff.2 hk)

/-- Among 2,050 numbers one is free while fewer than 2,048 records are unretired. -/
theorem freeKid_free (s : State) (k : BitVec 32) (h : s.dist.kerns.length < 2048) :
    kidTaken s (freeKid s 2050 k) = false := by
  refine (freeKid_or s 2050 k).resolve_right fun hall => ?_
  let tried := (List.range 2050).map fun i => k + BitVec.ofNat 32 i
  have hnd : tried.Nodup := by
    refine List.Nodup.map_on (fun i hi j hj e => ?_) List.nodup_range
    rw [List.mem_range] at hi hj
    have e' := congrArg BitVec.toNat (add_left_cancel e)
    rw [BitVec.toNat_ofNat, BitVec.toNat_ofNat] at e'
    omega
  have hsub : tried ⊆ 0 :: s.dist.kerns.map (·.kid) := by
    intro x hx
    obtain ⟨i, hi, rfl⟩ := List.mem_map.1 hx
    have ht := hall i (List.mem_range.1 hi)
    simpa [kidTaken] using ht
  have hlen := (List.subperm_of_subset hnd hsub).length_le
  simp [tried] at hlen
  omega

theorem kidTaken_eq_false (s : State) (k : BitVec 32) :
    kidTaken s k = false ↔ k ≠ 0 ∧ ∀ x ∈ s.dist.kerns, x.kid ≠ k := by
  simp [kidTaken]

/-! ## The acceptance of a record (R309, R310) -/

/-- From `s` to `t` no byte of memory and no record of a kernel changes. -/
def KeepsKernels (s t : State) : Prop := t.mem = s.mem ∧ t.dist = s.dist

theorem KeepsKernels.trans {s t u : State} (h : KeepsKernels s t) (k : KeepsKernels t u) : KeepsKernels s u :=
  ⟨k.1.trans h.1, k.2.trans h.2⟩

/-- A dependence is watched by a wait of a base-die agent, which is no packet (R302, R312). -/
theorem keepsKernels_postReq_depend (s : State) (kid : BitVec 32) (i : Nat) (va : Word) (pa : Nat) (v : Word) :
    KeepsKernels s (postReq s (.depend kid i) va pa v).2 := by
  unfold postReq postAs
  dsimp only
  split <;> exact ⟨rfl, rfl⟩

/-- A fault of a record without a launcher in the module is recorded, and ends nothing (R310). -/
theorem keepsKernels_launcherFault (s : State) (kid : BitVec 32) (code : Nat) (v : Word)
    (h : ∀ x ∈ s.dist.kerns, x.kid = kid → x.parent = none) : KeepsKernels s (launcherFault s kid code v) := by
  have hp : (s.dist.kerns.find? fun k => k.kid = kid).bind (·.parent) = none := by
    cases hf : s.dist.kerns.find? fun k => k.kid = kid with
    | none => rfl
    | some k => exact h k (List.mem_of_find?_eq_some hf) (by simpa using List.find?_some hf)
  unfold launcherFault
  rw [hp]
  exact ⟨rfl, rfl⟩

theorem keepsKernels_watchDeps (s : State) (k : Kern) (h : ∀ x ∈ s.dist.kerns, x.kid = k.kid → x.parent = none) :
    KeepsKernels s (watchDeps s k) := by
  unfold watchDeps
  generalize [0, 1, 2, 3] = l
  induction l generalizing s with
  | nil => exact ⟨rfl, rfl⟩
  | cons i l ih =>
    have key (t : State) (ht : KeepsKernels s t) := ht.trans (ih t (by rw [ht.2]; exact h))
    rw [List.foldl_cons]
    dsimp only
    split
    · exact key s ⟨rfl, rfl⟩
    · have hr := readsOnly_translate (distAgent k.words) (rDaddr k.words i) .wait 8 s
      generalize (translate (distAgent k.words) (rDaddr k.words i) .wait 8).run s = r at hr ⊢
      have ht : KeepsKernels s r.2 := ⟨hr.mem, hr.dist⟩
      obtain ⟨f | pa, t⟩ := r
      · exact key _ (ht.trans (keepsKernels_launcherFault t k.kid f.1 f.2 (by rw [ht.2]; exact h)))
      · exact key _ (ht.trans (keepsKernels_postReq_depend t k.kid i (rDaddr k.words i) pa (rDval k.words i)))

/-- A record with a reserved bit is refused with code 1 before its image is read (R310). -/
theorem acceptRecord_reserved (s : State) (l : Launcher) (w : List Word) (aov : Option Word)
    (h : recordReserved w = true) : acceptRecord s l w aov = (.error 1, s) := by
  simp [acceptRecord, refusal, h]

/-- A record is not refused for room only while fewer than 2,048 are unretired (R310). -/
theorem length_of_refusal_none (s : State) (l : Launcher) (w : List Word) (img : Except Flt (Nat × Nat))
    (h : refusal s l w img = none) : s.dist.kerns.length < 2048 := by
  unfold refusal at h
  by_contra hl
  have hl' : 2048 ≤ s.dist.kerns.length := Nat.le_of_not_lt hl
  dsimp only at h
  rw [if_pos hl'] at h
  repeat' split at h
  all_goals cases h

/-- What the reading of a record's image leaves (R309). -/
theorem onlyRead_image (s : State) (w : List Word) : OnlyRead s
    (if recordReserved w || recordSize w then (.ok (0, 0), s) else (scanImage w).run s).2 := by
  split
  · exact OnlyRead.refl s
  · exact readsOnly_scanImage w s

/-- An accepted record of the host stands Queued under a number that is not 0 and that no other holds (R309). -/
theorem acceptRecord_host (s u : State) (w : List Word) (kid : BitVec 32)
    (h : acceptRecord s hostLauncher w none = (.ok kid, u)) : u.mem = s.mem ∧ kid ≠ 0 ∧
      (∀ x ∈ s.dist.kerns, x.kid ≠ kid) ∧ ∃ k ∈ u.dist.kerns, k.kid = kid ∧ k.words = w ∧ k.st = .queued := by
  have hr := onlyRead_image s w
  unfold acceptRecord at h
  generalize (if recordReserved w || recordSize w then (Except.ok (0, 0), s) else (scanImage w).run s) = r at h hr
  obtain ⟨img, v⟩ := r
  dsimp only at h
  split at h
  · cases h
  · next hn =>
    have hfree := freeKid_free v v.dist.nextKid (length_of_refusal_none v _ w img hn)
    obtain ⟨h0, hne⟩ := (kidTaken_eq_false v _).1 hfree
    injection h with hk hu
    injection hk with hk
    generalize freeKid v 2050 v.dist.nextKid = kid' at hk hu h0 hne
    subst hk
    generalize hrec : Kern.mk .. = k at hu
    have hkid : k.kid = kid' := by rw [← hrec]
    have hkeep := keepsKernels_watchDeps { v with dist := { v.dist with
      kerns := v.dist.kerns ++ [k], nextKid := kid' + 1, nextAcc := v.dist.nextAcc + 1 } } k (by
        intro x hx he
        rcases List.mem_append.1 hx with hx | hx
        · exact absurd (he.trans hkid) (hne x hx)
        · rw [List.mem_singleton.1 hx, ← hrec]; rfl)
    subst hu
    refine ⟨hkeep.1.trans hr.mem, h0, fun x hx => hne x (hr.dist ▸ hx), k, ?_, hkid, by rw [← hrec], by rw [← hrec]⟩
    show k ∈ (watchDeps _ k).dist.kerns
    rw [hkeep.2]
    exact List.mem_append_right _ (List.mem_singleton_self k)

theorem recordAcceptance_reserved (s : State) (l : Launch) (tag : Nat) (ha : s.dist.arriving = [l])
    (hh : l.fromHost = some tag) (h : recordReserved l.words = true) : ∃ t, exec .recordAcceptance s = .next t ∧
      t.mem = s.mem ∧ t.dist = { s.dist with arriving := [] } ∧
      t.resps = s.resps ++ [⟨0x83, BitVec.ofNat 16 tag, 2, 1, 0, 0, []⟩] := by
  refine ⟨_, rfl, ?_⟩
  simp only [ha, List.foldl_cons, List.foldl_nil, hh, acceptRecord_reserved _ _ _ _ h]
  exact ⟨rfl, rfl, rfl⟩

theorem recordAcceptance_host (s u : State) (l : Launch) (tag : Nat) (kid : BitVec 32) (ha : s.dist.arriving = [l])
    (hh : l.fromHost = some tag)
    (h : acceptRecord { s with dist := { s.dist with arriving := [] } } hostLauncher l.words none = (.ok kid, u)) :
    ∃ t k, exec .recordAcceptance s = .next t ∧
      t.mem = s.mem ∧ t.resps = u.resps ++ [⟨0x83, BitVec.ofNat 16 tag, 0, 0, 0, kid.setWidth 64, []⟩] ∧
      k ∈ t.dist.kerns ∧ k.kid = kid ∧ k.words = l.words ∧ k.st = .queued ∧ kid ≠ 0 ∧
      ∀ x ∈ s.dist.kerns, x.kid ≠ kid := by
  obtain ⟨hm, h0, hne, k, hk, hkid, hw, hst⟩ := acceptRecord_host _ _ _ _ h
  refine ⟨_, k, rfl, ?_⟩
  simp only [ha, List.foldl_cons, List.foldl_nil, hh, h]
  exact ⟨hm, rfl, hk, hkid, hw, hst, h0, hne⟩

/-! ## Dependences met (R312) -/

/-- A record whose dependences are met becomes Ready; every other kernel stays (R312). -/
theorem exec_dependenceMet (s : State) (kid : Nat) : exec (.dependenceMet kid) s = .next { s with dist := { s.dist with
    kerns := s.dist.kerns.map fun k =>
      if k.kid = BitVec.ofNat 32 kid ∧ k.st = .queued ∧ (∀ b ∈ k.deps, b = true) ∧ (∀ b ∈ k.pats, b = true) then
        { k with st := .ready }
      else k } } := by
  refine congrArg (fun l => Host.Outcome.next { s with dist := { s.dist with kerns := l } }) (List.map_congr_left fun k _ => ?_)
  by_cases hk : k.kid = BitVec.ofNat 32 kid <;> simp [hk, and_assoc]

/-! ## A round of the selection (R316, R317) -/

/-- With no stopping kernel and no saved member a round that places its one record does nothing else. -/
theorem exec_selectionRound_one (s : State) (k : Kern) (t : Target) (ho : roundOrder s = [k]) (hp : placeAt s k = some t)
    (hs : ∀ x ∈ (beginPlace s k t).dist.kerns, x.st ≠ .stopping ∧ x.saved = []) :
    exec .selectionRound s = .next (beginPlace s k t) := by
  have hstop : (beginPlace s k t).dist.kerns.filter (fun k => k.st = .stopping) = [] := by
    simpa using fun x hx => (hs x hx).1
  have hsaved : (beginPlace s k t).dist.kerns.flatMap (·.saved) = [] := by
    simpa using fun x hx => (hs x hx).2
  show execSelectionRound s = _
  simp [execSelectionRound, ho, takeRecord, hp, makeRoom, hstop, hsaved]

/-- What the beginning of a first placement changes of the kernels (R315). -/
theorem beginPlace_kerns (s : State) (k : Kern) (t : Target) (h : k.st = .ready) : (beginPlace s k t).dist.kerns =
    listUpd (fun x => x.kid = k.kid)
      (fun x => { x with st := .placing, resv := none, members := t.1, arenas := t.2, oldArenas := [] }) s.dist.kerns := by
  simp [beginPlace, h, updKern, State.within_dist]

theorem selectionRound_one (s : State) (k : Kern) (m : List Nat) (a : List (Nat × Nat)) (ho : roundOrder s = [k])
    (hr : k.st = .ready) (hp : placeAt s k = some (m, a)) (hs : ∀ x ∈ s.dist.kerns, x.st ≠ .stopping ∧ x.saved = []) :
    ∃ t d, exec .selectionRound s = .next t ∧ t.mem = s.mem ∧ t.ctxs = s.ctxs ∧
      t.dist.kerns = listUpd (fun x => x.kid = k.kid)
        (fun x => { x with st := .placing, resv := none, members := m, arenas := a, oldArenas := [] })
        s.dist.kerns ∧
      1 ≤ d ∧ d ≤ 2000 ∧ ⟨s.clk + d, false, .membersStart k.kid.toNat⟩ ∈ t.cal := by
  have hk := beginPlace_kerns s k (m, a) hr
  have he := exec_selectionRound_one s k (m, a) ho hp (by
    rw [hk]
    intro x hx
    obtain ⟨y, hy, rfl⟩ := List.mem_map.1 hx
    split
    · exact ⟨nofun, (hs y hy).2⟩
    · exact hs y hy)
  obtain ⟨d, hd⟩ : ∃ d, 1 ≤ d ∧ d ≤ 2000 ∧
      ⟨s.clk + d, false, .membersStart k.kid.toNat⟩ ∈ (beginPlace s k (m, a)).cal := by
    simp only [beginPlace, hr]
    exact State.within_cal _ _ _ _ (by decide)
  exact ⟨_, d, he, by simp [beginPlace, updKern, State.within_mem], by simp [beginPlace, updKern, State.within_ctxs], hk, hd⟩

/-! ## The memory of a crew that starts (R315) -/

/-- A part of the memory chosen by address: what is left out reads as the unlisted byte. -/
theorem read_filter (m : List Host.Cell) (p : Nat → Bool) (x : Nat) :
    Memory.read (m.filter fun c => p c.1) x = if p x then Memory.read m x else Memory.unlisted := by
  unfold Memory.read
  induction m with
  | nil => simp [KMap.get]
  | cons e m ih =>
    obtain ⟨k, b⟩ := e
    by_cases hx : x = k
    · subst hx
      cases hp : p x <;> simp [hp, KMap.get, ih]
    · cases hp : p k <;> simp [hp, KMap.get, hx, ih]

theorem rising_of_inv (s : State) (h : s.Inv) : Rising s.mem := ((wf_iff s.mem).1 h).1

/-- A range that is loaded holds the bytes put at its start and is zero behind them; every other byte stays (R315). -/
theorem read_loadRange (s : State) (pa len v n x : Nat) (h : s.Inv) (hn : n ≤ len) :
    Memory.read (loadRange s pa len v n).mem x =
      if pa ≤ x ∧ x < pa + len then (if x - pa < n then BitVec.ofNat 8 (v >>> (8 * (x - pa))) else 0)
      else Memory.read s.mem x := by
  have hr : Rising (s.mem.filter fun c => !(decide (pa ≤ c.1 ∧ c.1 < pa + len))) := (rising_of_inv s h).filter _
  show Memory.read (Memory.writeN _ pa v n) x = _
  rw [read_writeN _ _ _ _ _ hr, read_filter s.mem fun a => !(decide (pa ≤ a ∧ a < pa + len))]
  by_cases hin : pa ≤ x ∧ x < pa + len
  · by_cases hx : x - pa < n
    · rw [if_pos (by omega), if_pos hin, if_pos hx]
    · rw [if_neg (by omega), if_pos hin, if_neg hx]
      simp [hin, Memory.unlisted]
  · rw [if_neg (by omega), if_neg hin]
    simp [hin]

/-! ## Members start (R315, R19) -/

theorem resetBarriers_none (s : State) (n : Nat) (mask : BitVec 128) (h : (s.core (coreOf n)).bars = []) :
    resetBarriers s n mask = s := by
  simp [resetBarriers, h]

theorem OnlyRead.core {s t : State} (h : OnlyRead s t) (c : Nat) : t.core c = s.core c := by rw [h]; rfl
theorem OnlyRead.ctx {s t : State} (h : OnlyRead s t) (n : Nat) : t.ctx n = s.ctx n := by rw [h]; rfl

/-- The member of a record without matrix work starts in its start state (R315). -/
theorem startMember_scalar (k : Kern) (r : Nat) (s : State) (n rank : Nat) (hm : rMxu k.words = false)
    (hb : (s.core (coreOf n)).bars = []) :
    startMember k r s (n, rank) = setFloor (s.setCtx n (startCtx s k rank n)) (coreOf n) := by
  simp [startMember, hm, resetBarriers_none s n _ hb]

theorem get_set {α : Type} [DecidableEq α] (d : α) (m : KMap α) (i j : Nat) (v : α) :
    KMap.get d (KMap.set d m i v) j = if j = i then v else KMap.get d m j := by
  split
  · next h => rw [h, KMap.get_set_same]
  · next h => exact KMap.get_set_other d m i j v h

/-- The registers s0 to s3 of a member that starts hold the record's arguments, the others zero (R19). -/
theorem sreg_startCtx (s : State) (k : Kern) (rank n i : Nat) (h : k.aov = none) :
    (startCtx s k rank n).regs.sreg i = if i < 4 then rArg k.words i else 0 := by
  simp only [startCtx, h, Regs.sreg, Option.getD_none, List.zipIdx_cons, List.zipIdx_nil, List.foldl_cons, List.foldl_nil]
  match i with
  | 0 | 1 | 2 | 3 => simp [get_set]
  | i + 4 => simp [get_set, KMap.get]

/-- The crew of one member on one quad starts: the image is loaded and the member stands in its start state. -/
theorem exec_membersStart_one (s u : State) (kid : Nat) (k : Kern) (n a b v r : Nat)
    (hf : (s.dist.kerns.find? fun x => x.kid = BitVec.ofNat 32 kid) = some k) (hst : k.st = .placing) (hs : k.saved = [])
    (hm : k.members = [n]) (ha : k.arenas = [(a, b)]) (hi : (readImages k.words).run s = (.ok (v, r), u)) :
    exec (.membersStart kid) s = .next (startMember k r
      (updKern (loadRange u (vaultPA a (65536 * b)) (65536 * rAsz k.words) v (rImgb k.words)) k.kid
        fun k => { k with st := .running, placedAt := s.clk }) (n, 0)) := by
  show execMembersStart kid s = _
  simp [execMembersStart, hf, hst, hs, hm, ha, hi]

theorem membersStart_one (s : State) (kid : Nat) (k : Kern) (n a b v r : Nat) (u : State) (hinv : s.Inv)
    (hf : (s.dist.kerns.find? fun x => x.kid = BitVec.ofNat 32 kid) = some k) (hst : k.st = .placing) (hs : k.saved = [])
    (hm : k.members = [n]) (ha : k.arenas = [(a, b)]) (haov : k.aov = none) (hmxu : rMxu k.words = false)
    (hb : (s.core (coreOf n)).bars = []) (hlen : rImgb k.words ≤ 65536 * rAsz k.words)
    (hi : (readImages k.words).run s = (.ok (v, r), u)) :
    let lo := vaultPA a (65536 * b)
    ∃ t, exec (.membersStart kid) s = .next t ∧ (∀ m, m ≠ n → t.ctx m = s.ctx m) ∧
      (t.ctx n).st = .running ∧ (t.ctx n).pc = w64 (rEntry k.words) ∧ (t.ctx n).regs.g = 0 ∧ (t.ctx n).regs.t = [] ∧
      (∀ i, (t.ctx n).regs.sreg i = if i < 4 then rArg k.words i else 0) ∧ (t.ctx n).oq = [] ∧
      (t.ctx n).ctl.kid = k.kid ∧ (t.ctx n).ctl.rank = 0 ∧ (t.ctx n).ctl.crewn = 1 ∧
      (t.ctx n).ctl.excl = rExcl k.words ∧ (t.ctx n).ctl.priv = rPriv k.words ∧ (t.ctx n).ctl.asid = rAsid k.words ∧
      (t.ctx n).ctl.ptroot = rRoot k.words ∧ (t.ctx n).ctl.cpol = rCpol k.words ∧ (t.ctx n).hdep = false ∧
      ∀ x, Memory.read t.mem x =
        if lo ≤ x ∧ x < lo + 65536 * rAsz k.words then
          (if x - lo < rImgb k.words then BitVec.ofNat 8 (v >>> (8 * (x - lo))) else 0)
        else Memory.read s.mem x := by
  intro lo
  have hu : OnlyRead s u := by have h := readsOnly_readImages k.words s; rwa [hi] at h
  have he := exec_membersStart_one s u kid k n a b v r hf hst hs hm ha hi
  generalize hw : updKern _ _ _ = w at he
  have hctx : ∀ m, w.ctx m = s.ctx m := fun m => by rw [← hw]; exact hu.ctx m
  have hcore : w.core (coreOf n) = s.core (coreOf n) := by rw [← hw]; exact hu.core _
  have hmem : w.mem = (loadRange u lo (65536 * rAsz k.words) v (rImgb k.words)).mem := by rw [← hw]; rfl
  rw [startMember_scalar k r w n 0 hmxu (by rw [hcore]; exact hb)] at he
  have hx : (setFloor (w.setCtx n (startCtx w k 0 n)) (coreOf n)).ctx n = startCtx w k 0 n := by simp [setFloor]
  refine ⟨_, he, fun m hm => ?_, ?_⟩
  · simp [setFloor, State.ctx_setCtx_other _ _ _ _ hm, hctx]
  · rw [hx]
    refine ⟨rfl, rfl, rfl, rfl, fun i => sreg_startCtx w k 0 n i haov, rfl, rfl, rfl, ?_, rfl, rfl, rfl, rfl, rfl, rfl,
      fun x => ?_⟩
    · simp [startCtx, hm]
    · show Memory.read w.mem x = _
      rw [hmem, read_loadRange u lo _ v _ x (by unfold State.Inv; rw [hu.mem]; exact hinv) hlen, hu.mem]

/-! ## What work on cores, barriers, requests and the calendar keeps -/

/-- From `s` to `t` no byte of memory, no context and no record of a kernel changes. -/
structure Keeps (s t : State) : Prop where
  mem : t.mem = s.mem
  ctxs : t.ctxs = s.ctxs
  dist : t.dist = s.dist

theorem Keeps.refl (s : State) : Keeps s s := ⟨rfl, rfl, rfl⟩

theorem Keeps.trans {s t u : State} (h : Keeps s t) (k : Keeps t u) : Keeps s u :=
  ⟨k.mem.trans h.mem, k.ctxs.trans h.ctxs, k.dist.trans h.dist⟩

theorem Keeps.ctx {s t : State} (h : Keeps s t) (n : Nat) : t.ctx n = s.ctx n := State.ctx_of_ctxs h.ctxs n

theorem keeps_foldl {α : Type} (f : State → α → State) (h : ∀ s a, Keeps s (f s a)) (l : List α) :
    ∀ s, Keeps s (l.foldl f s) := by
  induction l with
  | nil => exact Keeps.refl
  | cons a l ih => exact fun s => (h s a).trans (ih (f s a))

theorem keeps_updCore (s : State) (c : Nat) (f : Core → Core) : Keeps s (s.updCore c f) := ⟨rfl, rfl, rfl⟩

theorem keeps_at (s : State) (d : Nat) (b : Bool) (e : Instr) : Keeps s (s.at d b e) := ⟨rfl, rfl, rfl⟩

theorem keeps_resetBarriers (s : State) (n : Nat) (mask : BitVec 128) : Keeps s (resetBarriers s n mask) := by
  refine keeps_foldl _ (fun s a => ?_) _ s
  unfold resetBarrier
  dsimp only
  split <;> exact ⟨rfl, rfl, rfl⟩

theorem keeps_releaseGrant (s : State) (c : Nat) : Keeps s (releaseGrant s c) := by
  unfold releaseGrant dropGrant
  dsimp only
  split <;> exact ⟨rfl, rfl, rfl⟩

theorem keeps_dropEvents (s : State) (n : Nat) : Keeps s (dropEvents s n) := by
  unfold dropEvents
  split <;> exact ⟨rfl, rfl, rfl⟩

theorem keeps_dropReqs (s : State) (n : Nat) : Keeps s (dropReqs s n) := ⟨rfl, rfl, rfl⟩

theorem keeps_withdrawSk (s : State) (n : Nat) : Keeps s (withdrawSk s n) := by
  unfold withdrawSk
  refine .trans ?_ (keeps_foldl
    (fun s (p : Nat × List (Nat × Nat)) => s.at (s.clk + 1) false (.skResWindowGrant p.1)) (fun s _ => keeps_at s _ _ _) _ _)
  exact ⟨rfl, rfl, rfl⟩

theorem keeps_setFloor (s : State) (c : Nat) : Keeps s (setFloor s c) := ⟨rfl, rfl, rfl⟩

/-- The contexts and the memory that the freeing of a context leaves (R320). -/
theorem keeps_freeCtx (s : State) (n : Nat) : Keeps (s.setCtx n (s.ctx n).freed) (freeCtx s n) := by
  unfold freeCtx
  dsimp only
  generalize hx : dropReqs _ _ = x
  have hk : Keeps s x := by
    rw [← hx]
    refine .trans ?_ (keeps_dropReqs _ n)
    refine .trans ?_ (keeps_dropEvents _ n)
    refine .trans ?_ (keeps_updCore _ _ _)
    have hb := keeps_resetBarriers s n (s.ctx n).bmask
    split
    · exact (hb.trans (keeps_releaseGrant _ _)).trans (keeps_updCore _ _ _)
    · exact hb
  refine .trans ?_ (keeps_setFloor _ _)
  refine .trans ?_ (keeps_withdrawSk _ _)
  exact ⟨hk.mem, by simp only [State.setCtx, hk.ctxs], hk.dist⟩

@[simp] theorem freeCtx_mem (s : State) (n : Nat) : (freeCtx s n).mem = s.mem := (keeps_freeCtx s n).mem
@[simp] theorem freeCtx_dist (s : State) (n : Nat) : (freeCtx s n).dist = s.dist := (keeps_freeCtx s n).dist
@[simp] theorem ctx_freeCtx (s : State) (n : Nat) : (freeCtx s n).ctx n = (s.ctx n).freed :=
  ((keeps_freeCtx s n).ctx n).trans (State.ctx_setCtx _ _ _)
theorem ctx_freeCtx_other (s : State) (n m : Nat) (h : m ≠ n) : (freeCtx s n).ctx m = s.ctx m :=
  ((keeps_freeCtx s n).ctx m).trans (State.ctx_setCtx_other _ _ _ _ h)

/-! ## Members retire (R20, R320) -/

/-- A change of the elements that a search looks for changes the one found, where it leaves the property. -/
theorem find?_listUpd {α : Type} (p : α → Bool) (f : α → α) (hp : ∀ x, p x = true → p (f x) = true) (l : List α) :
    (listUpd p f l).find? p = (l.find? p).map f := by
  induction l with
  | nil => rfl
  | cons x l ih =>
    by_cases hx : p x = true
    · simp [listUpd, hx, hp x hx]
    · simpa [listUpd, hx] using ih

/-- What is left out of a list does not depend on a change of it. -/
theorem filter_listUpd {α : Type} (p : α → Prop) [DecidablePred p] (f : α → α) (hp : ∀ x, p x → p (f x)) (l : List α) :
    (listUpd (fun x => p x) f l).filter (fun x => ¬p x) = l.filter fun x => ¬p x := by
  induction l with
  | nil => rfl
  | cons x l ih =>
    by_cases hx : p x
    · simpa [listUpd, hx, hp x hx] using ih
    · simpa [listUpd, hx] using ih

/-- The state in which context `n` is free and its member counts as retired. -/
def memberGone (s : State) (n : Nat) : State :=
  updKern (freeCtx s n) (s.ctx n).ctl.kid fun k => { k with retired := k.retired ++ [(s.ctx n).ctl.rank.toNat] }

theorem memberGone_kerns (s : State) (n : Nat) : (memberGone s n).dist.kerns =
    listUpd (fun x => x.kid = (s.ctx n).ctl.kid) (fun x => { x with retired := x.retired ++ [(s.ctx n).ctl.rank.toNat] })
      s.dist.kerns := by
  simp [memberGone, updKern]

theorem memberGone_mem (s : State) (n : Nat) : (memberGone s n).mem = s.mem := freeCtx_mem s n
theorem ctx_memberGone (s : State) (n : Nat) : (memberGone s n).ctx n = (s.ctx n).freed := ctx_freeCtx s n
theorem ctx_memberGone_other (s : State) (n m : Nat) (h : m ≠ n) : (memberGone s n).ctx m = s.ctx m :=
  ctx_freeCtx_other s n m h

theorem find?_memberGone (s : State) (n : Nat) (k : Kern)
    (h : (s.dist.kerns.find? fun x => x.kid = (s.ctx n).ctl.kid) = some k) :
    ((memberGone s n).dist.kerns.find? fun x => x.kid = (s.ctx n).ctl.kid) =
      some { k with retired := k.retired ++ [(s.ctx n).ctl.rank.toNat] } := by
  rw [memberGone_kerns, find?_listUpd _ _ (by exact fun x hx => hx), h]
  rfl

theorem kid_of_find? {l : List Kern} {kid : BitVec 32} {k : Kern} (h : (l.find? fun x => x.kid = kid) = some k) :
    k.kid = kid := by simpa using List.find?_some h

/-- A kernel that does not stop is not looked at for its save (R429). -/
theorem captureCheck_running (s : State) (kid : BitVec 32) (k : Kern)
    (h : (s.dist.kerns.find? fun x => x.kid = kid) = some k) (hr : k.st ≠ .stopping) : captureCheck s kid = s := by
  simp [captureCheck, h, hr]

/-- A member that is not its kernel's last leaves only its context and its place in the crew (R320). -/
theorem retireMember_other (s : State) (n : Nat) (k : Kern)
    (h : (s.dist.kerns.find? fun x => x.kid = (s.ctx n).ctl.kid) = some k) (hr : k.st = .running)
    (hl : k.retired.length + 1 < k.members.length) : retireMember s n = memberGone s n := by
  have hf := find?_memberGone s n k h
  unfold retireMember
  dsimp only
  rw [← memberGone, hf]
  dsimp only
  rw [if_neg (by simp; omega), kid_of_find? h, captureCheck_running _ _ _ hf (by simp [hr])]

/-- The last member of a kernel without a completion add ends it (R20). -/
theorem retireMember_last (s : State) (n : Nat) (k : Kern)
    (h : (s.dist.kerns.find? fun x => x.kid = (s.ctx n).ctl.kid) = some k)
    (hl : k.retired.length + 1 = k.members.length) (hc : rCaddr k.words = 0) :
    retireMember s n = { memberGone s n with dist := { (memberGone s n).dist with
      kerns := (memberGone s n).dist.kerns.filter fun x => x.kid ≠ (s.ctx n).ctl.kid } } := by
  have hf := find?_memberGone s n k h
  unfold retireMember
  dsimp only
  rw [← memberGone, hf]
  dsimp only
  rw [if_pos (by simpa using hl), completionAdd, if_pos hc, kid_of_find? h]

theorem exec_memberRetire (s : State) (n : Nat) (q : Cmd) (l : List Cmd) (hq : (s.ctx n).queue 24 = q :: l)
    (hp : q.port = 5) (hs : q.st = .running) : exec (.memberRetire n) s = .next (if drained s n (s.ctx n) then
      retireMember s n else s.updCtx n fun c => c.updCmd 24 fun q => { q with st := .waiting }) := by
  show execMemberRetire n s = _
  simp [execMemberRetire, hq, hp, hs]

theorem memberRetire_drained (s : State) (n : Nat) (q : Cmd) (l : List Cmd) (k : Kern) (hq : (s.ctx n).queue 24 = q :: l)
    (hp : q.port = 5) (hs : q.st = .running) (hd : drained s n (s.ctx n) = true)
    (h : (s.dist.kerns.find? fun x => x.kid = (s.ctx n).ctl.kid) = some k) (hr : k.st = .running) :
    (k.retired.length + 1 < k.members.length → ∃ t, exec (.memberRetire n) s = .next t ∧ t.mem = s.mem ∧
      t.ctx n = (s.ctx n).freed ∧ (∀ m, m ≠ n → t.ctx m = s.ctx m) ∧
      t.dist.kerns = listUpd (fun x => x.kid = (s.ctx n).ctl.kid) (fun x =>
        { x with retired := x.retired ++ [(s.ctx n).ctl.rank.toNat] }) s.dist.kerns) ∧
    (k.retired.length + 1 = k.members.length → rCaddr k.words = 0 → ∃ t, exec (.memberRetire n) s = .next t ∧
      t.mem = s.mem ∧ t.ctx n = (s.ctx n).freed ∧ (∀ m, m ≠ n → t.ctx m = s.ctx m) ∧
      t.dist.kerns = s.dist.kerns.filter fun x => x.kid ≠ (s.ctx n).ctl.kid) := by
  have he := exec_memberRetire s n q l hq hp hs
  rw [if_pos hd] at he
  refine ⟨fun hl => ?_, fun hl hc => ?_⟩
  · rw [retireMember_other s n k h hr hl] at he
    exact ⟨_, he, memberGone_mem s n, ctx_memberGone s n, ctx_memberGone_other s n, memberGone_kerns s n⟩
  · rw [retireMember_last s n k h hl hc] at he
    have hm := memberGone_mem s n
    have hn := ctx_memberGone s n
    have ho := ctx_memberGone_other s n
    have hk := memberGone_kerns s n
    generalize memberGone s n = g at he hm hn ho hk
    refine ⟨_, he, hm, hn, ho, ?_⟩
    show g.dist.kerns.filter (fun x => x.kid ≠ (s.ctx n).ctl.kid) = _
    rw [hk]
    exact filter_listUpd (fun x : Kern => x.kid = (s.ctx n).ctl.kid)
      (fun x => { x with retired := x.retired ++ [(s.ctx n).ctl.rank.toNat] }) (fun x hx => hx) s.dist.kerns

/-! ## The queues of a context that is to stop (R285) -/

theorem keeps_captureCheck (s : State) (kid : BitVec 32) : Keeps s (captureCheck s kid) := by
  unfold captureCheck
  dsimp only
  split
  · exact .refl s
  · split
    · exact keeps_at _ _ _ _
    · exact .refl s

/-- A command in service that does not go on at a stop waits to be issued again (R285). -/
theorem quietHead_running (waits : List Nat) (fu : Nat) (q : Cmd) (l : List Cmd) (hs : q.st = .running)
    (hg : goesOn q = false) : quietHead waits (fu, q :: l) = (fu, { q with st := .waiting } :: l) := by
  simp [quietHead, hs, hg]

/-- What the quiesce of the queues leaves of a context (R285). -/
structure Quiesced (c t : Ctx) (qs : KMap (List Cmd)) : Prop where
  quiet : t.quiet = true
  regs : t.regs = c.regs
  toks : t.toks = c.toks
  queues : t.queues = qs

theorem engineQuiesceComplete_one (s : State) (n fu : Nat) (q : Cmd) (l : List Cmd) (hd : (s.ctx n).stopDist = true)
    (hq : (s.ctx n).quiet = false) (hl : (s.ctx n).queues = [(fu, q :: l)]) (hs : q.st = .running)
    (hg : goesOn q = false) : ∃ t, exec (.engineQuiesceComplete n) s = .next t ∧ t.mem = s.mem ∧
      (∀ m, m ≠ n → t.ctx m = s.ctx m) ∧
      Quiesced (s.ctx n) (t.ctx n) [(fu, { q with st := .waiting } :: l.filter fun x => x.st ≠ .closing)] := by
  obtain ⟨u, f, he, hu, hf⟩ : ∃ (u : State) (f : Ctx → Ctx), exec (.engineQuiesceComplete n) s =
      .next (captureCheck (u.updCtx n f) (s.ctx n).ctl.kid) ∧ Keeps s u ∧ Quiesced (s.ctx n) (f (s.ctx n))
        [(fu, { q with st := .waiting } :: l.filter fun x => x.st ≠ .closing)] := by
    have he : execEngineQuiesceComplete n s = _ := if_neg (by simp [hd, hq])
    refine ⟨_, _, he, .trans ?_ (keeps_withdrawSk _ n), rfl, rfl, rfl, ?_⟩
    · exact ⟨rfl, rfl, rfl⟩
    · simp [hl, quietHead_running _ fu q l hs hg]
  have hk := keeps_captureCheck (u.updCtx n f) (s.ctx n).ctl.kid
  refine ⟨_, he, hk.mem.trans hu.mem, fun m hm => ?_, ?_⟩
  · rw [hk.ctx, State.ctx_updCtx_other _ _ _ _ hm, hu.ctx]
  · rw [hk.ctx, State.ctx_updCtx, hu.ctx]
    exact hf

/-! ## Work that stores (R431) -/

/-- From `s` to `t` nothing changes but the bytes of memory and the words with an error. -/
def OnlyStores (s t : State) : Prop := t = { s with mem := t.mem, bad := t.bad }

theorem OnlyStores.refl (s : State) : OnlyStores s s := rfl

theorem OnlyStores.trans {s t u : State} (h : OnlyStores s t) (k : OnlyStores t u) : OnlyStores s u := by
  unfold OnlyStores at *
  rw [h] at k
  exact k

theorem OnlyStores.ctxs {s t : State} (h : OnlyStores s t) : t.ctxs = s.ctxs := by rw [h]
theorem OnlyStores.dist {s t : State} (h : OnlyStores s t) : t.dist = s.dist := by rw [h]

theorem onlyStores_wr (s : State) (pa v n : Nat) : OnlyStores s (s.wr pa v n) := rfl

theorem OnlyStores.wr {s t : State} (h : OnlyStores s t) (pa v n : Nat) : OnlyStores s (t.wr pa v n) :=
  h.trans (onlyStores_wr t pa v n)

theorem OnlyStores.foldl {α : Type} {f : State → α → State} (h : ∀ s a, OnlyStores s (f s a)) (l : List α) :
    ∀ {s t}, OnlyStores s t → OnlyStores s (l.foldl f t) := by
  induction l with
  | nil => exact id
  | cons a l ih => exact fun ht => ih (ht.trans (h _ a))

theorem OnlyStores.writeTiles {s t : State} (h : OnlyStores s t) (m : Saved) : OnlyStores s (writeTiles t m) :=
  .foldl (fun s _ => onlyStores_wr s _ _ _) _ h

theorem OnlyStores.writeImages {s t : State} (h : OnlyStores s t) (base : Nat) (p : Nat → Bool) (oq : KMap (List QEnt)) :
    OnlyStores s (writeImages t base p oq) :=
  .foldl (fun s _ => .foldl (fun s _ => onlyStores_wr s _ _ _) _ (.refl s)) _ h

theorem OnlyStores.writePorts {s t : State} (h : OnlyStores s t) (a b : Nat) (ports : KMap Val) :
    OnlyStores s (writePorts t a b ports) :=
  .wr (.wr (.foldl (fun s _ => onlyStores_wr s _ _ _) _ (h.wr _ _ _)) _ _ _) _ _ _

theorem OnlyStores.writeFrame {s t : State} (h : OnlyStores s t) (a : Nat) (c : Ctx) (f : Frame) :
    OnlyStores s (writeFrame t a c f) :=
  .wr (.wr (.wr (.writePorts (.writeImages h _ _ _) _ _ _) _ _ _) _ _ _) _ _ _

theorem onlyStores_writeSave (s : State) (m : Saved) : OnlyStores s (writeSave s m) := by
  unfold writeSave
  dsimp only
  have hm (t : State) (h : OnlyStores s t) : OnlyStores s (match m.matrix with
    | none => t
    | some x =>
      let s := t.wr (2 ^ 21 * m.area + 0x61000) (packWords ((List.range 8).map (fun i => KMap.get 0 x.mp i) ++
        [x.xs.setWidth 64, x.pslX.setWidth 64 + (x.pslP.setWidth 64 <<< 16), x.wb])) 256
      ((List.range 64).filter fun p => x.wb.getLsbD p).foldl (fun s p =>
        s.wr (2 ^ 21 * m.area + 0x62000 + 6144 * p) (KMap.get 0 x.acc p).toNat 6144) s) := by
    split
    · exact h
    · exact .foldl (fun s _ => onlyStores_wr s _ _ _) _ (h.wr _ _ _)
  refine hm _ (.foldl (fun s _ => .foldl (fun s _ => onlyStores_wr s _ _ _) _ (.refl s)) _ ?_)
  have hf (t : State) (h : OnlyStores s t) : OnlyStores s (match m.ctx.frame with
    | some f => if m.ctx.hdep then writeFrame t (2 ^ 21 * m.area + 0x100000) m.ctx f else t
    | none => t) := by
    split
    · split
      · exact .writeFrame h _ _ _
      · exact h
    · exact h
  refine hf _ (.wr (.wr (.writeImages (.wr (.wr (.writePorts (.writeTiles (.foldl (fun s _ => onlyStores_wr s _ _ _) _ ?_) _)
    _ _ _) _ _ _) _ _ _) _ _ _) _ _ _) _ _ _)
  exact .wr (.wr (.wr (.wr (.wr (.wr (.wr (.refl s) _ _ _) _ _ _) _ _ _) _ _ _) _ _ _) _ _ _) _ _ _

/-! ## The save of a stopped kernel (R429, R431-R433) -/

/-- With no barrier message on its way there is none to settle (R400). -/
theorem settleBars_none (s : State) (ns : List Nat) (h : s.barMsgs = []) : settleBars s ns = s := by
  have hs : { s with barMsgs := [] } = s := by rw [← h]
  simpa [settleBars, h] using hs

/-- The member that leaves its hardware context frees it; other contexts, the memory and the kernels stay. -/
theorem keeps_leaveCtx (s : State) (n : Nat) : Keeps (s.setCtx n (s.ctx n).freed) (leaveCtx s n) := by
  unfold leaveCtx
  dsimp only
  have hg := keeps_releaseGrant s (coreOf n)
  split
  · exact ⟨hg.mem, by simp [State.setCtx, State.updCore, hg.ctxs], hg.dist⟩
  · exact ⟨rfl, rfl, rfl⟩

/-- A kernel with one live member, captured and quiet, is saved and is Pre-empted (R429). -/
theorem exec_preemptionSave_one (s : State) (kid : Nat) (k : Kern) (n a : Nat)
    (hf : (s.dist.kerns.find? fun x => x.kid = BitVec.ofNat 32 kid) = some k) (hst : k.st = .stopping)
    (hl : liveMembers s k = [n]) (hc : (s.ctx n).st = .saving) (hq : (s.ctx n).quiet = true) (ha : k.areas = [a])
    (hb : s.barMsgs = []) (hcal : ∀ x ∈ s.cal, x.ev ≠ .preemptionSave kid) :
    ∃ (nodes : List BarNode) (u : State), u.ctxs = s.ctxs ∧ u.dist = s.dist ∧
      exec (.preemptionSave kid) s = .next ((updKern (leaveCtx u n) k.kid fun k =>
        { k with st := .preempted, saved := [(saveMember s n a).1], nodes := nodes, areas := [] }).bbAdd 2 0 k.kid whoNone 0) := by
  have hagain : (s.cal.any fun t => t.ev = .preemptionSave kid) = false := by simpa using hcal
  have hsave : OnlyStores s (saveMember s n a).2 := onlyStores_writeSave s _
  refine ⟨(nodesOf s n).eraseDups, { (saveMember s n a).2 with
    barNodes := (saveMember s n a).2.barNodes.filter fun x => !(nodesOf s n).eraseDups.contains x }, hsave.ctxs, hsave.dist, ?_⟩
  show execPreemptionSave kid s = _
  simp [execPreemptionSave, hf, hst, hl, hagain, ha, hc, hq, settleBars_none s _ hb]

/-- What the save leaves of the member and of its kernel (R429, R432). -/
theorem preemptionSave_one (s : State) (kid : Nat) (k : Kern) (n a : Nat)
    (hf : (s.dist.kerns.find? fun x => x.kid = BitVec.ofNat 32 kid) = some k) (hst : k.st = .stopping)
    (hl : liveMembers s k = [n]) (hc : (s.ctx n).st = .saving) (hq : (s.ctx n).quiet = true) (ha : k.areas = [a])
    (hb : s.barMsgs = []) (hcal : ∀ x ∈ s.cal, x.ev ≠ .preemptionSave kid) :
    ∃ t k' m, exec (.preemptionSave kid) s = .next t ∧ k' ∈ t.dist.kerns ∧ k'.kid = k.kid ∧ k'.st = .preempted ∧
      k'.words = k.words ∧ k'.saved = [m] ∧ m.n = n ∧ m.area = a ∧ m.rank = (s.ctx n).ctl.rank.toNat ∧
      m.ctx = liveImage (keptBits (liveBits s n (s.ctx n).resumePc ||| (s.ctx n).kept) (s.ctx n)) (s.ctx n) ∧
      t.ctx n = (s.ctx n).freed ∧ ∀ j, j ≠ n → t.ctx j = s.ctx j := by
  obtain ⟨nodes, u, huc, hud, he⟩ := exec_preemptionSave_one s kid k n a hf hst hl hc hq ha hb hcal
  have hk := keeps_leaveCtx u n
  have hctx (j : Nat) : u.ctx j = s.ctx j := State.ctx_of_ctxs huc j
  refine ⟨_, { k with st := .preempted, saved := [(saveMember s n a).1], nodes := nodes, areas := [] }, _, he, ?_, rfl, rfl,
    rfl, rfl, rfl, rfl, rfl, rfl, ?_, fun j hj => ?_⟩
  · show _ ∈ listUpd _ _ (leaveCtx u n).dist.kerns
    rw [hk.dist]
    refine List.mem_map.2 ⟨k, ?_, by simp⟩
    show k ∈ u.dist.kerns
    rw [hud]
    exact List.mem_of_find?_eq_some hf
  · exact (hk.ctx n).trans (by rw [State.ctx_setCtx, hctx])
  · exact (hk.ctx j).trans (by rw [State.ctx_setCtx_other _ _ _ _ hj, hctx])

/-! ## Bytes that a write of several stores leaves (R431) -/

theorem packNat_lt (w : Nat) (f : Nat → Nat) (n : Nat) (hw : 0 < w) : packNat w f n < 2 ^ (w * n) := by
  refine Nat.lt_pow_two_of_testBit _ fun i hi => ?_
  rw [testBit_packNat w f n i hw, decide_eq_false (by omega), Bool.false_and]

/-- A number is its bytes. -/
theorem packNat_bytes (v n : Nat) (h : v < 2 ^ (8 * n)) :
    packNat 8 (fun i => (BitVec.ofNat 8 (v >>> (8 * i))).toNat) n = v := by
  refine Nat.eq_of_testBit_eq fun i => ?_
  rw [testBit_packNat _ _ _ _ (by decide), BitVec.toNat_ofNat, Nat.testBit_mod_two_pow, Nat.testBit_shiftRight,
    show 8 * (i / 8) + i % 8 = i by omega, decide_eq_true (by omega : i % 8 < 8), Bool.true_and]
  by_cases hi : i < 8 * n
  · simp [hi]
  · rw [decide_eq_false hi, Bool.false_and,
      Nat.testBit_lt_two_pow (h.trans_le (Nat.pow_le_pow_right (by decide) (by omega)))]

/-- A wide read is the number whose bytes stand there. -/
theorem rd_of_bytes (s : State) (a v n : Nat) (h : Rising s.mem) (hv : v < 2 ^ (8 * n))
    (hb : ∀ x, a ≤ x → x < a + n → Memory.read s.mem x = BitVec.ofNat 8 (v >>> (8 * (x - a)))) : s.rd a n = v := by
  rw [State.rd, readN_eq _ _ _ h]
  refine (packNat_congr 8 n _ _ fun i hi => ?_).trans (packNat_bytes v n hv)
  rw [hb (a + i) (by omega) (by omega), Nat.add_sub_cancel_left]

theorem rising_wr (s : State) (pa v n : Nat) (h : Rising s.mem) : Rising (s.wr pa v n).mem := writeN_rising _ _ _ _ h

theorem read_wr (s : State) (pa v n x : Nat) (h : Rising s.mem) : Memory.read (s.wr pa v n).mem x =
    if pa ≤ x ∧ x < pa + n then BitVec.ofNat 8 (v >>> (8 * (x - pa))) else Memory.read s.mem x :=
  read_writeN _ _ _ _ _ h

/-! ## The tiles of a save area (R432) -/

/-- The store of one live tile of a saved member. -/
def storeTile (m : Saved) (s : State) (t : Nat) : State :=
  s.wr (2 ^ 21 * m.area + 0x2000 + 2048 * t) (m.ctx.regs.treg t).toNat 2048

theorem writeTiles_eq (s : State) (m : Saved) :
    writeTiles s m = ((List.range 16).filter fun t => m.live.testBit (32 + t)).foldl (storeTile m) s := rfl

theorem rising_storeTiles (m : Saved) (l : List Nat) : ∀ s : State, Rising s.mem → Rising (l.foldl (storeTile m) s).mem := by
  induction l with
  | nil => exact fun _ h => h
  | cons t l ih => exact fun s h => ih _ (rising_wr s _ _ _ h)

/-- A byte of no stored tile stays. -/
theorem read_storeTiles_off (m : Saved) (x : Nat) (l : List Nat) : ∀ s : State, Rising s.mem →
    (∀ t ∈ l, x < 2 ^ 21 * m.area + 0x2000 + 2048 * t ∨ 2 ^ 21 * m.area + 0x2000 + 2048 * t + 2048 ≤ x) →
    Memory.read (l.foldl (storeTile m) s).mem x = Memory.read s.mem x := by
  induction l with
  | nil => exact fun _ _ _ => rfl
  | cons t l ih =>
    intro s h hx
    have ht := hx t (List.mem_cons_self ..)
    have hr : Rising (storeTile m s t).mem := rising_wr s _ _ _ h
    rw [List.foldl_cons, ih _ hr fun u hu => hx u (List.mem_cons_of_mem _ hu), storeTile,
      read_wr s _ _ _ _ h, if_neg (by omega)]

/-- A byte of a stored tile is that of the tile. -/
theorem read_storeTiles (m : Saved) (t x : Nat) (l : List Nat) (hx : 2 ^ 21 * m.area + 0x2000 + 2048 * t ≤ x)
    (hx' : x < 2 ^ 21 * m.area + 0x2000 + 2048 * t + 2048) : ∀ s : State, Rising s.mem → t ∈ l →
    Memory.read (l.foldl (storeTile m) s).mem x =
      BitVec.ofNat 8 ((m.ctx.regs.treg t).toNat >>> (8 * (x - (2 ^ 21 * m.area + 0x2000 + 2048 * t)))) := by
  induction l with
  | nil => exact fun _ _ h => absurd h List.not_mem_nil
  | cons u l ih =>
    intro s h hm
    have hr : Rising (storeTile m s u).mem := rising_wr s _ _ _ h
    rw [List.foldl_cons]
    by_cases hl : t ∈ l
    · exact ih _ hr hl
    · obtain rfl : t = u := (List.mem_cons.1 hm).resolve_right hl
      rw [read_storeTiles_off m x l _ hr fun u hu => ?_, storeTile, read_wr s _ _ _ _ h, if_pos ⟨hx, hx'⟩]
      have : u ≠ t := fun e => hl (e ▸ hu)
      omega

/-! ## What a late producer changes in a save area (R433) -/

theorem tokenBytes_lt (c : Ctx) : tokenBytes c < 2 ^ (8 * 256) :=
  (packNat_lt 64 _ 32 (by decide)).trans_eq (congrArg (2 ^ ·) (by decide))

theorem toNat_lt_of_eq {w n : Nat} (v : BitVec w) (h : w = n) : v.toNat < 2 ^ n := h ▸ v.isLt

theorem skBytes_lt (c : Ctx) : skBytes c < 2 ^ (8 * 256) := by
  have hl : ((List.range 8).flatMap fun h => skWords (c.sk h)).length = 32 := by simp [skWords]
  unfold skBytes packWords
  rw [hl]
  exact (packNat_lt 64 _ 32 (by decide)).trans_eq (congrArg (2 ^ ·) (by decide))

/-- The stores of a late producer's write: tokens, tiles, skein handles, FLAGS and w12 (R433). -/
def lateStores (s : State) (m : Saved) (w : Word) : State :=
  let a := 2 ^ 21 * m.area
  (((writeTiles (s.wr (a + 0x900) (tokenBytes m.ctx) 256) m).wr (a + 0xC00) (skBytes m.ctx) 256).wr
    (a + 0x408) (m.ctx.ctl.flags.setWidth 64 : Word).toNat 8).wr (a + 0x60) w.toNat 8

theorem onlyStores_lateStores (s : State) (m : Saved) (w : Word) : OnlyStores s (lateStores s m w) :=
  .wr (.wr (.wr (.writeTiles (onlyStores_wr s _ _ _) m) _ _ _) _ _ _) _ _ _

theorem rising_lateStores (s : State) (m : Saved) (w : Word) (h : Rising s.mem) : Rising (lateStores s m w).mem :=
  rising_wr _ _ _ _ (rising_wr _ _ _ _ (rising_wr _ _ _ _ (rising_storeTiles m _ _ (rising_wr s _ _ _ h))))

/-- Each byte that a late producer's write leaves. -/
theorem read_lateStores (s : State) (m : Saved) (w : Word) (x : Nat) (h : Rising s.mem) :
    let a := 2 ^ 21 * m.area
    Memory.read (lateStores s m w).mem x =
      if a + 0x60 ≤ x ∧ x < a + 0x60 + 8 then BitVec.ofNat 8 (w.toNat >>> (8 * (x - (a + 0x60))))
      else if a + 0x408 ≤ x ∧ x < a + 0x408 + 8 then
        BitVec.ofNat 8 ((m.ctx.ctl.flags.setWidth 64).toNat >>> (8 * (x - (a + 0x408))))
      else if a + 0xC00 ≤ x ∧ x < a + 0xC00 + 256 then BitVec.ofNat 8 (skBytes m.ctx >>> (8 * (x - (a + 0xC00))))
      else Memory.read (writeTiles (s.wr (a + 0x900) (tokenBytes m.ctx) 256) m).mem x := by
  have h2 : Rising (writeTiles (s.wr (2 ^ 21 * m.area + 0x900) (tokenBytes m.ctx) 256) m).mem :=
    rising_storeTiles m _ _ (rising_wr s _ _ _ h)
  have h3 := rising_wr _ (2 ^ 21 * m.area + 0xC00) (skBytes m.ctx) 256 h2
  have h4 := rising_wr _ (2 ^ 21 * m.area + 0x408) (m.ctx.ctl.flags.setWidth 64 : Word).toNat 8 h3
  rw [lateStores, read_wr _ _ _ _ _ h4, read_wr _ _ _ _ _ h3, read_wr _ _ _ _ _ h2]

/-- A byte that is no byte of a tile, of the tokens, of the handles, of FLAGS or of w12 stays. -/
theorem read_lateStores_off (s : State) (m : Saved) (w : Word) (x : Nat) (h : Rising s.mem) (a : Nat)
    (ha : a = 2 ^ 21 * m.area) (h1 : x < a + 0x60 ∨ a + 0x68 ≤ x) (h2 : x < a + 0x408 ∨ a + 0x410 ≤ x)
    (h3 : x < a + 0x900 ∨ a + 0xA00 ≤ x) (h4 : x < a + 0xC00 ∨ a + 0xD00 ≤ x) (h5 : x < a + 0x2000 ∨ a + 0xA000 ≤ x) :
    Memory.read (lateStores s m w).mem x = Memory.read s.mem x := by
  rw [read_lateStores s m w x h, ← ha, if_neg (by omega), if_neg (by omega), if_neg (by omega), writeTiles_eq,
    read_storeTiles_off m x _ _ (rising_wr s _ _ _ h) fun t ht => ?_, read_wr s _ _ _ _ h, if_neg (by omega)]
  have := List.mem_range.1 (List.mem_filter.1 ht).1
  omega

theorem rd64_of_bytes (s : State) (a : Nat) (v : Word) (h : Rising s.mem)
    (hb : ∀ x, a ≤ x → x < a + 8 → Memory.read s.mem x = BitVec.ofNat 8 (v.toNat >>> (8 * (x - a)))) : s.rd64 a = v := by
  rw [State.rd64, rd_of_bytes s a v.toNat 8 h v.isLt hb]
  exact BitVec.ofNat_toNat ..

/-- The values that a late producer's write leaves (R433). -/
theorem rd_lateStores (s : State) (m : Saved) (w : Word) (h : Rising s.mem) (a : Nat) (ha : a = 2 ^ 21 * m.area) :
    (lateStores s m w).rd64 (a + 0x408) = m.ctx.ctl.flags.setWidth 64 ∧ (lateStores s m w).rd64 (a + 0x60) = w ∧
      (lateStores s m w).rd (a + 0xC00) 256 = skBytes m.ctx ∧ (lateStores s m w).rd (a + 0x900) 256 = tokenBytes m.ctx ∧
      ∀ i, i < 16 → m.live.testBit (32 + i) = true →
        (lateStores s m w).rd (a + 0x2000 + 2048 * i) 2048 = (m.ctx.regs.treg i).toNat := by
  have hr := rising_lateStores s m w h
  have hread (x : Nat) := read_lateStores s m w x h
  rw [← ha] at hread
  refine ⟨rd64_of_bytes _ _ _ hr fun x h1 h2 => ?_, rd64_of_bytes _ _ _ hr fun x h1 h2 => ?_,
    rd_of_bytes _ _ _ _ hr (skBytes_lt _) fun x h1 h2 => ?_, rd_of_bytes _ _ _ _ hr (tokenBytes_lt _) fun x h1 h2 => ?_,
    fun i hi hl => rd_of_bytes _ _ _ _ hr (toNat_lt_of_eq _ (by decide)) fun x h1 h2 => ?_⟩
  · rw [hread, if_neg (by omega), if_pos (by omega)]
  · rw [hread, if_pos (by omega)]
  · rw [hread, if_neg (by omega), if_neg (by omega), if_pos (by omega)]
  · rw [hread, if_neg (by omega), if_neg (by omega), if_neg (by omega), writeTiles_eq,
      read_storeTiles_off m x _ _ (rising_wr s _ _ _ h) fun t _ => by omega, read_wr s _ _ _ _ h, if_pos (by omega)]
  · subst ha
    rw [hread, if_neg (by omega), if_neg (by omega), if_neg (by omega), writeTiles_eq]
    exact read_storeTiles m i x _ h1 h2 _ (rising_wr s _ _ _ h) (by simp [hi, hl])

/-- The state in which the member saved in an area has a new w12. -/
def waitNoted (s : State) (key : Nat) (w : BitVec 17) : State :=
  { s with dist := { s.dist with kerns := s.dist.kerns.map fun k =>
    { k with saved := listUpd (fun m => m.area = key) (fun m => { m with wait := w }) k.saved } } }

theorem exec_lateProducerSaveWrite (s : State) (key : Nat) (m : Saved)
    (hm : ((s.dist.kerns.flatMap (·.saved)).find? fun m => m.area = key) = some m) : exec (.lateProducerSaveWrite key) s =
      .next (lateStores (waitNoted s key (waitWord s m)) m ((waitWord s m).setWidth 64)) := by
  have hkey : m.area = key := by simpa using List.find?_some hm
  show execLateProducerSaveWrite key s = _
  simp only [execLateProducerSaveWrite, hm, lateStores, hkey]
  rfl

theorem lateProducerSaveWrite_one (s : State) (key : Nat) (m : Saved) (hinv : s.Inv)
    (hm : ((s.dist.kerns.flatMap (·.saved)).find? fun m => m.area = key) = some m) :
    let a := 2 ^ 21 * key
    ∃ t, exec (.lateProducerSaveWrite key) s = .next t ∧ t.ctxs = s.ctxs ∧
      t.rd64 (a + 0x408) = m.ctx.ctl.flags.setWidth 64 ∧ t.rd64 (a + 0x60) = (waitWord s m).setWidth 64 ∧
      t.rd (a + 0xC00) 256 = skBytes m.ctx ∧ t.rd (a + 0x900) 256 = tokenBytes m.ctx ∧
      (∀ i, i < 16 → m.live.testBit (32 + i) = true → t.rd (a + 0x2000 + 2048 * i) 2048 = (m.ctx.regs.treg i).toNat) ∧
      ∀ x, (x < a + 0x60 ∨ a + 0x68 ≤ x) → (x < a + 0x408 ∨ a + 0x410 ≤ x) → (x < a + 0x900 ∨ a + 0xA00 ≤ x) →
        (x < a + 0xC00 ∨ a + 0xD00 ≤ x) → (x < a + 0x2000 ∨ a + 0xA000 ≤ x) → Memory.read t.mem x = Memory.read s.mem x := by
  intro a
  have hkey : m.area = key := by simpa using List.find?_some hm
  have ha : a = 2 ^ 21 * m.area := by rw [hkey]
  have hr : Rising (waitNoted s key (waitWord s m)).mem := rising_of_inv s hinv
  obtain ⟨hflags, hwait, hsk, htok, htile⟩ := rd_lateStores _ m ((waitWord s m).setWidth 64) hr a ha
  exact ⟨_, exec_lateProducerSaveWrite s key m hm, (onlyStores_lateStores _ m _).ctxs, hflags, hwait, hsk, htok, htile,
    fun x h1 h2 h3 h4 h5 => read_lateStores_off _ m _ x hr a ha h1 h2 h3 h4 h5⟩

/-! ## A context that goes on with nothing to perform again (R413, R414) -/

/-- Does a context that goes on wait for its next issue? -/
def Ctx.issuesOn (c : Ctx) : Bool := decide (c.workSt = .running) && c.rfe.isNone

theorem goAgain_eq (s : State) (n : Nat) : goAgain s n =
    if (s.ctx n).issuesOn = true then s.updCtx n fun c => { c with parked := true }
    else if (resumeWork s n).2 = true then (wake (resumeWork s n).1 n).updCtx n endReplay else (resumeWork s n).1 := rfl

theorem resumeFault_none (s : State) (n : Nat) (hr : (s.ctx n).replay = none) (hm : heldStep s n = none) :
    resumeFault s n = none := by
  simp [resumeFault, hr, hm]

theorem rework_of_idle (s : State) (n : Nat) (hr : (s.ctx n).replay = none) (hm : heldStep s n = none) :
    rework s n = s.updCtx n fun c => { c with accs := c.accs ++ [], replay := c.replay.map fun r => { r with accs := [] } } := by
  have hh (f : Ctx → Ctx) : heldStep (s.updCtx n f) n = none := hm
  simp [rework, hr, hh]

theorem ctx_rework_of_idle (s : State) (n : Nat) (hr : (s.ctx n).replay = none) (hm : heldStep s n = none) :
    (rework s n).ctx n = s.ctx n := by
  have e : { s.ctx n with accs := (s.ctx n).accs ++ [], replay := none } = s.ctx n := by rw [List.append_nil, ← hr]
  rw [rework_of_idle s n hr hm, State.ctx_updCtx, hr]
  exact e

theorem resumeWork_of_idle (s : State) (n : Nat) (hr : (s.ctx n).replay = none) (hm : heldStep s n = none) :
    resumeWork s n = (rework s n, true) := by
  simp [resumeWork, resumeFault_none s n hr hm]

theorem ctx_wake_other (s : State) (n j : Nat) (h : j ≠ n) : (wake s n).ctx j = s.ctx j :=
  State.ctx_updCtx_other _ _ _ _ h
theorem ctx_wake_of_noStep (s : State) (n : Nat) (hm : heldStep s n = none) :
    (wake s n).ctx n = { s.ctx n with parked := false } := by
  simp [wake, hm]

/-- A context without a buffered bundle and without a held step only goes on (R413). -/
theorem goAgain_of_idle (s : State) (n : Nat)
    (h : (s.ctx n).issuesOn = true ∨ ((s.ctx n).replay = none ∧ heldStep s n = none)) :
    (goAgain s n).mem = s.mem ∧ (∀ j, j ≠ n → (goAgain s n).ctx j = s.ctx j) ∧
      (goAgain s n).ctx n = { s.ctx n with parked := (s.ctx n).issuesOn } := by
  by_cases hi : (s.ctx n).issuesOn = true
  · rw [goAgain_eq, if_pos hi, hi]
    exact ⟨rfl, fun j hj => State.ctx_updCtx_other _ _ _ _ hj, State.ctx_updCtx _ _ _⟩
  · obtain ⟨hr, hm⟩ := h.resolve_left hi
    have he : goAgain s n = (wake (rework s n) n).updCtx n endReplay := by
      rw [goAgain_eq, if_neg hi, resumeWork_of_idle s n hr hm]
      rfl
    have hctx := ctx_rework_of_idle s n hr hm
    have hstep : heldStep (rework s n) n = none := by rw [rework_of_idle s n hr hm]; exact hm
    have hmem : (rework s n).mem = s.mem := by rw [rework_of_idle s n hr hm]; rfl
    have hoth (j : Nat) (hj : j ≠ n) : (rework s n).ctx j = s.ctx j := by
      rw [rework_of_idle s n hr hm]; exact State.ctx_updCtx_other _ _ _ _ hj
    rw [he]
    refine ⟨hmem, fun j hj => ?_, ?_⟩
    · rw [State.ctx_updCtx_other _ _ _ _ hj, ctx_wake_other _ _ _ hj, hoth j hj]
    · rw [State.ctx_updCtx, ctx_wake_of_noStep _ _ hstep, hctx, Bool.eq_false_iff.2 hi]
      simp [endReplay, hr]

/-! ## A saved member resumes (R434) -/

/-- The image of a saved member as it goes on: read from its area, its arena's addresses moved (R434). -/
def resumedImage (s : State) (k : Kern) (n : Nat) (m : Saved) : Ctx :=
  moveImage (readSave s m).ctx (arenaPA m.ctx (quadOf m.n) 0) (vaultPA (quadOf n) (65536 * (baseOn k n).toNat))

/-- The context of a saved member on its new place, before it goes on. -/
def resumedCtx (s : State) (k : Kern) (n : Nat) (m : Saved) : Ctx :=
  let x := resumedImage s k n m
  { x with
    st := x.workSt, side := (s.ctx n).side, latSeq := (s.ctx n).latSeq, quads := quadsOn k n, bases := basesOn k n
    readySince := s.clk, stopDist := false, quiet := false, blocked := false, kept := 0
    ctl := { x.ctl with arenaBase := baseOn k n, stopf := false } }

/-- A member without a matrix unit is restored on a context with no dead queue; it goes on from its image. -/
theorem restoreMember_plain (k : Kern) (s : State) (m : Saved) (n : Nat) (hn : newCtx k m = n) (hm : m.matrix = none)
    (hf : m.ctx.fenced = false) (hd : (s.ctx n).dead = []) (hq : (s.ctx n).qfence = []) :
    ∃ u : State, u.mem = s.mem ∧ (∀ j, j ≠ n → u.ctx j = s.ctx j) ∧ u.ctx n = resumedCtx s k n m ∧
      heldStep u n = heldStep s n ∧ restoreMember k s m = goAgain u n := by
  let c := resumedCtx s k n m
  let u (b : KMap Barrier) (g : Nat) : State := setFloor ((s.setCtx n c).updCore (coreOf n) fun q =>
    { q with bars := b, staged := q.staged + g }) (coreOf n)
  have he : ∃ b g, restoreMember k s m = goAgain (u b g) n := by
    refine ⟨(readSave s m).bars.foldl (fun b p => KMap.put b p.1 p.2) (s.core (coreOf n)).bars, stagedBytes c, ?_⟩
    have hn' : newCtx k (readSave s m) = n := hn
    have hm' : (readSave s m).matrix = none := congrArg (Option.map _) hm
    have hf' (old new : Nat) : (moveImage (readSave s m).ctx old new).fenced = false := hf
    unfold restoreMember
    dsimp only
    rw [hn', hm', hd, hq, if_neg (Bool.eq_false_iff.1 (hf' _ _))]
    rfl
  obtain ⟨b, g, he⟩ := he
  refine ⟨u b g, rfl, fun j hj => State.ctx_setCtx_other _ _ _ _ hj, State.ctx_setCtx _ _ _, ?_, he⟩
  simp [u, heldStep, setFloor]

theorem askGrant_of_zero (s : State) (n : Nat) (w : BitVec 16) (h : w = 0) : askGrant s n w = s := by
  unfold askGrant
  exact if_pos (.inl h)

/-- The state in which a saved kernel runs again and its node records stand at their new places. -/
def crewRunning (s : State) (k : Kern) : State :=
  updKern { s with barNodes := s.barNodes ++ (k.saved.flatMap (movedNodes k)).eraseDups } k.kid fun k =>
    { k with st := .running, placedAt := s.clk, saved := [], nodes := [] }

/-- A crew of one member that waits for nothing is restored at once (R434). -/
theorem exec_resumption_one (s : State) (kid : Nat) (k : Kern) (m : Saved)
    (hf : (s.dist.kerns.find? fun x => x.kid = BitVec.ofNat 32 kid) = some k) (hst : k.st = .placing)
    (ho : k.oldArenas = []) (hs : k.saved = [m]) (hm : m.matrix = none) (hw : m.wait = 0) (hww : waitWord s m = 0)
    (hl : lateOf s m = false) (hq : ∀ p ∈ m.ctx.queues, ∀ q ∈ p.2, q.st ≠ .running) :
    exec (.resumption kid) s = .next (restoreMember k (crewRunning s k) m) := by
  have hg : savedGrant m = 0 := by rw [savedGrant, hm]; rfl
  have hrun : (m.ctx.queues.any fun p => p.2.any fun q => q.st = .running) = false := by simpa using hq
  have hready : notReady s k m = false := by simp [notReady, hw, hww, hl, hrun, hg]
  have hcrew : restoreCrew s k = k.saved.foldl (restoreMember k) (crewRunning s k) := rfl
  show execResumption kid s = _
  simp [execResumption, hf, hst, ho, hs, askGrant_of_zero s _ _ hg, hready, hcrew]

/-- What a member resumes with depends on the memory, the contexts and the clk only. -/
theorem resumedCtx_crewRunning (s : State) (k : Kern) (n : Nat) (m : Saved) :
    resumedCtx (crewRunning s k) k n m = resumedCtx s k n m := by
  have hm : readSave (crewRunning s k) m = readSave s m := rfl
  unfold resumedCtx resumedImage
  rw [hm]
  rfl

theorem resumption_one (s : State) (kid : Nat) (k : Kern) (n : Nat) (m : Saved)
    (hf : (s.dist.kerns.find? fun x => x.kid = BitVec.ofNat 32 kid) = some k) (hst : k.st = .placing)
    (ho : k.oldArenas = []) (hs : k.saved = [m]) (hn : k.members[m.rank]? = some n) (hm : m.matrix = none) (hw : m.wait = 0)
    (hww : waitWord s m = 0) (hl : lateOf s m = false) (hq : ∀ p ∈ m.ctx.queues, ∀ q ∈ p.2, q.st ≠ .running)
    (hfen : m.ctx.fenced = false) (hd : (s.ctx n).dead = []) (hqf : (s.ctx n).qfence = [])
    (hi : (resumedImage s k n m).issuesOn = true ∨ ((resumedImage s k n m).replay = none ∧ heldStep s n = none)) :
    ∃ t, exec (.resumption kid) s = .next t ∧ t.mem = s.mem ∧ (∀ j, j ≠ n → t.ctx j = s.ctx j) ∧
      t.ctx n = { resumedCtx s k n m with parked := (resumedImage s k n m).issuesOn } := by
  obtain ⟨v, hvmem, hvoth, hvn, hvstep, hr⟩ :=
    restoreMember_plain k (crewRunning s k) m n (by rw [newCtx, hn]; rfl) hm hfen hd hqf
  rw [resumedCtx_crewRunning] at hvn
  have hgo : (v.ctx n).issuesOn = true ∨ ((v.ctx n).replay = none ∧ heldStep v n = none) := by
    rw [hvn, hvstep]
    exact hi
  obtain ⟨hgmem, hgoth, hgn⟩ := goAgain_of_idle v n hgo
  refine ⟨_, exec_resumption_one s kid k m hf hst ho hs hm hw hww hl hq, ?_, fun j hj => ?_, ?_⟩
  · rw [hr, hgmem, hvmem]; rfl
  · rw [hr, hgoth j hj, hvoth j hj]; rfl
  · rw [hr, hgn, hvn]; rfl

/-- Settles O50: the distributor's nine rules, one lemma each. -/
theorem distributorWork : Obligations.DistributorWork := by
  unfold Obligations.DistributorWork
  refine ⟨fun s l tag ha hh => ⟨recordAcceptance_reserved s l tag ha hh, fun kid u => recordAcceptance_host s u l tag kid ha hh⟩,
    exec_dependenceMet, selectionRound_one, membersStart_one, fun s n q l k hq hp hs => ⟨fun hd => ?_, ?_⟩,
    fun s n fu q l hd hq hl hs hg => ?_, preemptionSave_one, lateProducerSaveWrite_one,
    fun s kid k n m hf hst ho hs hn hm hw hww hl hq hfen hd hqf =>
      resumption_one s kid k n m hf hst ho hs hn hm hw hww hl hq hfen hd hqf⟩
  · rw [exec_memberRetire s n q l hq hp hs, if_neg (Bool.eq_false_iff.1 hd)]
  · exact memberRetire_drained s n q l k hq hp hs
  · obtain ⟨t, he, hmem, hoth, ht⟩ := engineQuiesceComplete_one s n fu q l hd hq hl hs hg
    exact ⟨t, he, hmem, hoth, ht.quiet, ht.regs, ht.toks, by simp [Ctx.queue, ht.queues, KMap.get]⟩

end Sys2Proof.Machine
end

section
/-!
PROOFS. Moves: the words that encode them, and the slots whose guard is false (O58, O57, O55).
-/

namespace Sys2Proof.Machine

/-! ## Words and slots (R31-R35) -/

/-- No class takes one of the reserved units 28-30 (R33). -/
theorem reserved_of_accepts (c : Class) (fu : Nat) (h : c.accepts fu = true) :
    (decide (28 ≤ fu) && decide (fu ≤ 30)) = false := by
  cases c <;> simp only [Class.accepts, Bool.or_eq_true, Bool.and_eq_true, decide_eq_true_eq] at h <;>
    simp only [Bool.and_eq_false_iff, decide_eq_false_iff_not] <;> omega

/-- A legal move is read back from its word as the operation that its class gives it. -/
theorem decodeSlot_word (k : Nat) (m : Move) (i : Instr) (hl : m.legal (slotClass k) = true)
    (hd : decodeOp (slotClass k) m = some i) : decodeSlot k m.word = .ok (some i) := by
  simp only [Move.legal, Bool.and_eq_true, decide_eq_true_eq] at hl
  obtain ⟨⟨hg, ha⟩, hk⟩ := hl
  unfold decodeSlot
  simp only [Laws.ofWord_word, Laws.word_ne_emptySlot m hg, hg, ha, reserved_of_accepts _ _ ha, hd]
  cases hdst : destKind (slotClass k) m.fu.toNat m.port.toNat with
  | none => simp [hdst] at hk
  | some dk =>
    cases hsrc : srcOf m.src with
    | none => simp [hdst, hsrc] at hk
    | some sc =>
      rw [hdst, hsrc] at hk
      cases hkind : sc.kind with
      | none => simp [hkind]
      | some sk => simp_all

theorem guard_of_legal (c : Class) (m : Move) (h : m.legal c = true) : m.g ≠ 8 := by
  simp only [Move.legal, Bool.and_eq_true, decide_eq_true_eq] at h
  obtain ⟨⟨hg, -⟩, -⟩ := h
  exact hg

/-- The slot of an instruction is of the class in which its move stands. -/
theorem slotClass_slotOf (i : Instr) (m : Move) (h : i.move = some m) : slotClass (slotOf i) = i.moveClass m := by
  unfold slotOf
  split
  · rfl
  · rfl
  · next hrow htile =>
    have hc : i.moveClass m = slotClass (firstSlot m.fu.toNat) := by
      unfold Instr.moveClass
      split
      · exact (hrow _ _ _ rfl).elim
      · exact (htile _ _ _ rfl).elim
      · rfl
    rw [h, hc]
    dsimp only
    split
    · next h31 => rw [h31]; rfl
    · rfl

/-- A port number of two fields. -/
theorem toNat_append_fields {a b : Nat} (x : BitVec a) (y : BitVec b) : (x ++ y).toNat = x.toNat * 2 ^ b + y.toNat := by
  rw [BitVec.toNat_append, ← Nat.shiftLeft_add_eq_or_of_lt y.isLt, Nat.shiftLeft_eq]

theorem decodeOp_operandPort (c : Class) (g : BitVec 4) (f : BitVec 5) (p : BitVec 2) (src : BitVec 9) (h : f ≠ 31) :
    decodeOp c ⟨g, f, 0#4 ++ p, src⟩ = some (.operandPortWrite g f p src) := by
  have hp : (0#4 ++ p).toNat < 4 := by rw [toNat_append_fields]; simp; omega
  exact (if_neg h).trans ((if_pos hp).trans
    (congrArg (fun q => some (Instr.operandPortWrite g f q src)) BitVec.extractLsb'_append_eq_right))

theorem decodeRegister_scalar (g : BitVec 4) (r : BitVec 5) (src : BitVec 9) :
    decodeRegister .scalar ⟨g, 31, 0#1 ++ r, src⟩ = some (.scalarRegisterWrite g r src) := by
  have hp : (0#1 ++ r).toNat < 32 := by rw [toNat_append_fields]; simp; omega
  exact (if_pos hp).trans
    (congrArg (fun q => some (Instr.scalarRegisterWrite g q src)) BitVec.extractLsb'_append_eq_right)

theorem decodeRegister_guard (g : BitVec 4) (r : BitVec 3) (src : BitVec 9) :
    decodeRegister .scalar ⟨g, 31, 4#3 ++ r, src⟩ = some (.guardWrite g r src) := by
  have hp : (4#3 ++ r).toNat = 32 + r.toNat := by rw [toNat_append_fields]; simp
  have hl : ¬(4#3 ++ r).toNat < 32 := by omega
  have hu : (4#3 ++ r).toNat < 40 := by omega
  exact (if_neg hl).trans ((if_pos hu).trans
    (congrArg (fun q => some (Instr.guardWrite g q src)) BitVec.extractLsb'_append_eq_right))

theorem decodeRegister_tileRow (g r : BitVec 4) (src : BitVec 9) :
    decodeRegister .tile ⟨g, 31, 0#2 ++ r, src⟩ = some (.tileRowWrite g r src) := by
  have hp : (0#2 ++ r).toNat < 16 := by rw [toNat_append_fields]; simp; omega
  exact (if_pos hp).trans (congrArg (fun q => some (Instr.tileRowWrite g q src)) BitVec.extractLsb'_append_eq_right)

theorem decodeRegister_wholeTile (g r : BitVec 4) (src : BitVec 9) :
    decodeRegister .tile ⟨g, 31, 1#2 ++ r, src⟩ = some (.wholeTileWrite g r src) := by
  have hp : (1#2 ++ r).toNat = 16 + r.toNat := by rw [toNat_append_fields]; simp
  have hl : ¬(1#2 ++ r).toNat < 16 := by omega
  have hu : (1#2 ++ r).toNat < 32 := by omega
  exact (if_neg hl).trans ((if_pos hu).trans
    (congrArg (fun q => some (Instr.wholeTileWrite g q src)) BitVec.extractLsb'_append_eq_right))

/-- The operation that a move's class gives it is the instruction whose move it is: the five writes by the lemmas above, a
trigger by its unit's table, of SA and TA once the unit bit is known. -/
theorem decodeOp_move (i : Instr) (m : Move) (h : i.move = some m)
    (hp : ∀ g f p src, i = .operandPortWrite g f p src → f ≠ 31) : decodeOp (i.moveClass m) m = some i := by
  cases i with
  | operandPortWrite g f p src => cases h; exact decodeOp_operandPort _ g f p src (hp _ _ _ _ rfl)
  | scalarRegisterWrite g r src => cases h; exact decodeRegister_scalar g r src
  | guardWrite g r src => cases h; exact decodeRegister_guard g r src
  | tileRowWrite g r src => cases h; exact decodeRegister_tileRow g r src
  | wholeTileWrite g r src => cases h; exact decodeRegister_wholeTile g r src
  | saAdd g u src | saSub g u src | saAnd g u src | saOr g u src | saXor g u src | saAndn g u src | saShl g u src | saShr g u src
  | saSra g u src | saRotl g u src | saEq g u src | saNe g u src | saLt g u src | saLtu g u src | saLe g u src
  | saLeu g u src | saMin g u src | saMinu g u src | saMax g u src | saMaxu g u src | saSel g u src | saClz g u src
  | saCtz g u src | saPopc g u src | saSxt g u src | saLea g u src
  | taFadd g u src | taFsub g u src | taFmul g u src | taFma g u src | taFmax g u src | taFmin g u src
  | taFcmp g u src | taIadd g u src | taIsub g u src | taImul g u src | taImin g u src | taImax g u src
  | taAnd g u src | taOr g u src | taXor g u src | taShl g u src | taShr g u src | taSra g u src | taIcmp g u src
  | taSel g u src | taFaddt g u src | taFsubt g u src | taFmult g u src | taFmaxt g u src =>
    obtain rfl | rfl := BitVec.eq_zero_or_eq_one u <;> cases h <;> rfl
  | _ => cases h <;> rfl

/-- What well-formedness says of a move (R31-R35). -/
theorem legal_of_wellFormed (i : Instr) (m : Move) (h : i.wellFormed = true) (hm : i.move = some m) :
    m.legal (i.moveClass m) = true ∧ ∀ g f p src, i = .operandPortWrite g f p src → f ≠ 31 := by
  simp only [Instr.wellFormed, hm, Bool.and_eq_true] at h
  obtain ⟨-, hl, hf⟩ := h
  refine ⟨hl, fun g f p src hi => ?_⟩
  subst hi
  exact of_decide_eq_true hf

/-- Settles O58: a legal move is read back from its word, and the class of its slot decodes it to its instruction. -/
theorem encodeDecode : Obligations.EncodeDecode := by
  unfold Obligations.EncodeDecode
  intro i w hwf henc
  obtain ⟨m, hm, rfl⟩ := Option.map_eq_some_iff.1 henc
  obtain ⟨hl, hp⟩ := legal_of_wellFormed i m hwf hm
  have hd := decodeOp_move i m hm hp
  rw [← slotClass_slotOf i m hm] at hl hd
  exact ⟨Laws.word_ne_emptySlot m (guard_of_legal _ m hl), decodeSlot_word _ m i hl hd⟩

/-- Settles O57, each word by the decoder. -/
theorem decodeWords : Obligations.DecodeWords := by
  unfold Obligations.DecodeWords
  decide

/-! ## Slots whose guard is false (R39) -/

/-- An access that meets something other than the hold of R192 holds nothing back. -/
theorem letGo_of_not_held (gs : List Seg) (ls : List LatAcc) (s : State) (h : s.iss.note ≠ .hold 7) :
    letGo gs ls (.next s) = .next s := by simp [letGo, h]

theorem beginWalk_quiet (s t : State) (h : t.iss.note = .quiet) : beginWalk s (.next t) = .next t := by
  simp [beginWalk, h]

theorem beginWait_quiet (s t : State) (v : Word) (h : t.iss.note = .quiet) : beginWait s v (.next t) = .next t := by
  simp [beginWait, h]

theorem trigger_of_false (s : State) (fu port int w : Nat) (cb : Bool) (blk chk : List Note) (g : BitVec 4)
    (src : BitVec 9) (eff : Val → State → State) (h : guardTrue s g = false) :
    trigger fu port int w cb blk chk g src eff s = .next s := issue_false s g _ _ h

/-- A local load or store waits by its holds (R192) only where it was tried. -/
theorem lsLocal_of_false (s : State) (port int w : Nat) (addr : Word) (algn size : Nat) (gs : List Seg) (store : Bool)
    (more : List Note) (g : BitVec 4) (src : BitVec 9) (eff : Val → Nat → State → State) (h : guardTrue s g = false)
    (hq : s.iss.note = .quiet) : lsLocal port int w addr algn size gs store more g src eff s = .next s := by
  unfold lsLocal
  dsimp only
  rw [trigger_of_false _ _ _ _ _ _ _ _ _ _ _ h, letGo_of_not_held _ _ s (by simp [hq])]

/-- The same of an atomic, remote or local. -/
theorem atTrigger_of_false (s : State) (port : Nat) (g : BitVec 4) (src : BitVec 9) (h : guardTrue s g = false)
    (hq : s.iss.note = .quiet) : atTrigger port g src s = .next s := by
  unfold atTrigger
  dsimp only
  have hn : s.iss.note ≠ .hold 7 := by simp [hq]
  rw [trigger_of_false _ _ _ _ _ _ _ _ _ _ _ h, letGo_of_not_held _ _ s hn, letGo_of_not_held _ _ s hn, ite_self]

/-- A move with a false guard leaves the state as it is: all moves but local accesses, atomics and the two counter requests
are plain triggers or writes. -/
theorem exec_of_false (i : Instr) (m : Move) (h : i.move = some m) (s : State) (hg : guardTrue s m.g = false)
    (hq : s.iss.note = .quiet) : exec i s = .next s := by
  obtain ⟨g, fu, port, src⟩ := m
  cases i with
  | operandPortWrite | scalarRegisterWrite | guardWrite | tileRowWrite | wholeTileWrite =>
    cases h
    simp only [exec, execOperandPortWrite, execScalarRegisterWrite, execGuardWrite, execTileRowWrite, execWholeTileWrite,
      ↓issue_false s g _ _ hg]
  | ctAdd =>
    cases h
    simp only [exec, execCtAdd, ↓trigger_of_false s _ _ _ _ _ _ _ g _ _ hg, beginWalk_quiet s s hq]
  | ctWait =>
    cases h
    simp only [exec, execCtWait, ↓trigger_of_false s _ _ _ _ _ _ _ g _ _ hg, beginWalk_quiet s s hq,
      beginWait_quiet s s _ hq]
  | lsLds | lsSts | lsLdr | lsStr | lsLdt | lsStt | lsLdp | lsStp =>
    cases h
    simp only [exec, execLsLds, execLsSts, execLsLdr, execLsStr, execLsLdt, execLsStt, execLsLdp, execLsStp,
      ↓lsLocal_of_false s _ _ _ _ _ _ _ _ _ g _ _ hg hq]
  | atSwap | atCas | atAdd | atAnd | atOr | atXor | atMin | atMax | atMinu | atMaxu | atAaddx =>
    cases h
    simp only [exec, execAtSwap, execAtCas, execAtAdd, execAtAnd, execAtOr, execAtXor, execAtMin, execAtMax, execAtMinu,
      execAtMaxu, execAtAaddx, ↓atTrigger_of_false s _ g _ hg hq]
  | _ =>
    cases h <;> simp only [exec, 
          
      execSaAdd, execSaSub, execSaAnd, execSaOr, execSaXor, execSaAndn, execSaShl, execSaShr, execSaSra, execSaRotl,
      execSaEq, execSaNe, execSaLt, execSaLtu, execSaLe, execSaLeu, execSaMin, execSaMinu, execSaMax, execSaMaxu,
      execSaSel, execSaClz, execSaCtz, execSaPopc, execSaSxt, execSaLea, execSmMul, execSmMulh, execSmMulhu,
      execSmDiv, execSmDivu, execSmRem, execSmRemu, execBrJmp, execBrCall, execBrRet, execBrJrel, execLpLoop,
      execLpBrk, execLpCnt, execCxRd, execCxWr, execCxFmt, execCxFlg, execCtOwait, execCtTwait, execCtArv,
      execCtBwt, execCtBcfg, execSyTrap, execSyRfe, execSyStop, execSyRel, execSySnap, execLsLat, execTaFadd,
      execTaFsub, execTaFmul, execTaFma, execTaFmax, execTaFmin, execTaFcmp, execTaIadd, execTaIsub, execTaImul,
      execTaImin, execTaImax, execTaAnd, execTaOr, execTaXor, execTaShl, execTaShr, execTaSra, execTaIcmp,
      execTaSel, execTaFaddt, execTaFsubt, execTaFmult, execTaFmaxt, execTxCvt, execTxQnt, execTxDqnt, execTxExp,
      execTxLog, execTxRcp, execTxRsq, execTxSqrt, execTxTanh, execTxSigm, execTxErf, execTsPerm, execTsXpose,
      execTsRsum, execTsRmax, execTsRmin, execTsAmax, execTsScan, execTsSmax, execTsMask, execTsBias, execMxCall,
      execMxMld, execMxParm, execScXld, execScXadd, execCeGo, execCeCmp, execGeGo, execGeSkg, execWeGo, execRsGo,
      execRsQry, execNpSend, execNpRow, execCbSet, execCbAdv, execCbRel, execCbQry, execSkOpen, execSkRes,
      execSkCmt, execSkFork, execSkRel, execSkLen, execSkPidx, execSkPins, execSkCmpt, execBlBast, execBlBstop,
      execBlMark, execBlUnpk, execBlFlag, execLnLnch, execLnQuit, execPtLoad, execPtUnld, execPtQry, execPtStry,
      execPtClr, execXlSda, execXlSdk, execXlPrb, execPwReq, execPwLim,
      saTrigger, smTrigger, taRow, taTile, txTrigger, tsTrigger, goMove, skGo, ptGo, xlGo, ↓trigger_of_false s _ _ _ _ _ _ _ g _ _ hg]

/-- Settles O55: a move with a false guard leaves the state as it is, so its slot passes it on to those that follow. -/
theorem falseGuardDoesNothing : Obligations.FalseGuardDoesNothing := by
  unfold Obligations.FalseGuardDoesNothing
  refine fun i m h => ⟨exec_of_false i m h, fun k l r hg => ?_⟩
  have he := exec_of_false i m h { r.st with iss := { r.st.iss with slot := k, note := .quiet } } hg rfl
  simp only [runSlots, runSlot, he, andThen]

end Sys2Proof.Machine
end

section
/-!
PROOFS. Writes of registers and operand ports (O1, O3, O4).
-/

namespace Sys2Proof.Machine

/-! ## What a move that triggers nothing leaves -/

theorem onCtx_consumed (s : State) (src : BitVec 9) (f : Ctx → Ctx) :
    onCtx f (consume s src) = (consume s src).updCtx s.iss.n f := by
  unfold onCtx
  rw [consume_iss]

/-- A move that triggers nothing did what it says of its context. -/
theorem did_onCtx (s : State) (src : BitVec 9) (f : Ctx → Ctx) :
    Did s (onCtx f (consume s src)) 0 (f (sourced s src)) := by
  rw [onCtx_consumed]
  refine did_move s _ src f rfl ?_
  rw [consume_rest]
  rfl

/-- Reading a source and taking a serial number are independent. -/
theorem consume_ser (s : State) (k : Nat) (src : BitVec 9) : consume (s.ser k) src = (consume s src).ser k := by
  unfold consume
  cases srcOf src with
  | none => rfl
  | some x => cases x <;> rfl

/-- The same of a move that takes a serial number first. -/
theorem did_onCtx_ser (s : State) (k : Nat) (src : BitVec 9) (f : Ctx → Ctx) :
    Did s (onCtx f (consume (s.ser k) src)) 0 (f (sourced s src)) := by
  rw [consume_ser]
  show Did s ((onCtx f (consume s src)).ser k) 0 _
  rw [onCtx_consumed]
  refine did_move s _ src f rfl ?_
  rw [consume_rest]
  rfl

/-! ## Registers (R103, R104, R40) -/

@[simp] theorem Regs.tag_setS (r : Regs) (n k : Nat) (v : Word) : (r.setS n v).tag k = r.tag k := rfl
@[simp] theorem Regs.tag_setRow (r : Regs) (n k j : Nat) (v : Row) : (r.setRow n k v).tag j = r.tag j := rfl
@[simp] theorem Regs.treg_setRow (r : Regs) (n k : Nat) (v : Row) :
    (r.setRow n k v).treg n = tileSet (r.treg n) k v := Regs.treg_setT r n _
theorem Regs.treg_setRow_other (r : Regs) (n m k : Nat) (v : Row) (h : m ≠ n) :
    (r.setRow n k v).treg m = r.treg m := Regs.treg_setT_other r n m _ h

/-- The guards after a write of guard n. -/
theorem Regs.getLsbD_setG (r : Regs) (n k : Nat) (b : Bool) (hk : k < 8) :
    (r.setG n b).g.getLsbD k = if k = n then b else r.g.getLsbD k := by
  have hbit : (BitVec.ofNat 8 (2 ^ n)).getLsbD k = decide (k = n) := by
    rw [BitVec.getLsbD_ofNat, Nat.testBit_two_pow]
    simp [hk, eq_comm]
  cases b with
  | false =>
    show (r.g &&& ~~~BitVec.ofNat 8 (2 ^ n)).getLsbD k = _
    rw [BitVec.getLsbD_and, BitVec.getLsbD_not, hbit]
    by_cases h : k = n <;> simp [h, hk]
  | true =>
    show (r.g ||| BitVec.ofNat 8 (2 ^ n)).getLsbD k = _
    rw [BitVec.getLsbD_or, hbit]
    by_cases h : k = n <;> simp [h]

/-- Row k of a tile of which row j was replaced. -/
theorem tileRow_tileSet (t : Tile) (j k : Nat) (r : Row) (hk : k < 8) :
    tileRow (tileSet t j r) k = if k = j then r else tileRow t k := by
  split
  · next h => rw [← h, tileRow_tileSet_same t k r hk]
  · next h => exact tileRow_tileSet_other t j k r h hk

/-- Row 0 of a value at a tile port is the value at a row port (R35). -/
theorem tileRow_tile_zero (v : Val) : tileRow v.tile 0 = v.row := by
  cases v with
  | s v => exact tileRow_tileFill _ 0 (by norm_num)
  | r v => exact tileRow_tileFill _ 0 (by norm_num)
  | t v => rfl

/-- The row that a whole-tile move reads in its own clk is row 0 of its source (R41). -/
theorem seqRead_jobSource_zero (s : State) (src : BitVec 9) :
    seqRead s.iss.ctx (jobSource s src) 0 = tileRow (readCode s src).tile 0 := by
  rw [tileRow_tile_zero]
  unfold jobSource
  split
  · next h => simp [readCode, h, readSource, seqRead, Val.row]
  · next fu age h =>
    simp only [readCode, h, readSource]
    cases (s.iss.ctx.entry fu age).val <;> rfl
  · rfl

theorem exec_scalarRegisterWrite (s : State) (g : BitVec 4) (r : BitVec 5) (src : BitVec 9) (hg : guardTrue s g = true)
    (hs : SourceReady s src .s) : exec (.scalarRegisterWrite g r src) s = .next (onCtx (fun c => c.updRegs fun x =>
      (x.setS r.toNat (trigT s src)).setTag r.toNat (codeTag s src 0)) (consume s src)) := by
  show execScalarRegisterWrite g r src s = _
  unfold execScalarRegisterWrite
  rw [issue_quiet s g _ _ hg (moveNotes_quiet s src .s hs)]
  rfl

theorem exec_guardWrite (s : State) (g : BitVec 4) (r : BitVec 3) (src : BitVec 9) (hg : guardTrue s g = true)
    (hs : SourceReady s src .s) : exec (.guardWrite g r src) s = .next (onCtx (fun c => c.updRegs fun x =>
      x.setG r.toNat ((trigT s src).getLsbD 0)) (consume s src)) := by
  show execGuardWrite g r src s = _
  unfold execGuardWrite
  rw [issue_quiet s g _ _ hg (moveNotes_quiet s src .s hs)]
  rfl

/-- Settles O1, from the frame of a move that triggers nothing and the rules of the register file. -/
theorem scalarAndGuardWrites : Obligations.ScalarAndGuardWrites := by
  unfold Obligations.ScalarAndGuardWrites
  refine fun s g src hg hs => ⟨fun r => ?_, fun r => ?_⟩
  · refine ⟨_, ((sourced s src).regs.setS r.toNat (trigT s src)).setTag r.toNat (codeTag s src 0),
      exec_scalarRegisterWrite s g r src hg hs, did_onCtx s src _, by simp, fun m hm => ?_, by simp, fun m hm => ?_⟩
    · rw [Regs.sreg_setTag, Regs.sreg_setS_other _ _ _ _ hm]
    · rw [Regs.tag_setTag_other _ _ _ _ hm, Regs.tag_setS]
  · exact ⟨_, ((sourced s src).regs.setG r.toNat ((trigT s src).getLsbD 0)).g, exec_guardWrite s g r src hg hs,
      did_onCtx s src _, fun k hk => Regs.getLsbD_setG _ _ _ _ hk⟩

/-! ## Tile registers (R40, R41) -/

theorem exec_tileRowWrite (s : State) (g r : BitVec 4) (src : BitVec 9) (hg : guardTrue s g = true)
    (hs : SourceReady s src .r) : exec (.tileRowWrite g r src) s = .next (onCtx (fun c => c.updRegs fun x =>
      (x.setRow r.toNat (wrowOf s) (readCode s src).row).setTag (32 + 8 * r.toNat + wrowOf s) (codeTag s src 0))
      (consume s src)) := by
  show execTileRowWrite g r src s = _
  unfold execTileRowWrite
  rw [issue_quiet s g _ _ hg (moveNotes_quiet s src .r hs)]

/-- The job of a whole-tile move issued now. -/
theorem exec_wholeTileWrite (s : State) (g r : BitVec 4) (src : BitVec 9) (hg : guardTrue s g = true)
    (hs : SourceReady s src .t) : exec (.wholeTileWrite g r src) s = .next (onCtx (fun c =>
      (c.updRegs fun x => (x.setRow r.toNat 0 (tileRow (readCode s src).tile 0)).setTag (32 + 8 * r.toNat)
        (codeTag s src 0)).updInf fun i => { i with jobs := i.jobs ++ [newJob s src (.reg r.toNat) 0 s.serial] })
      (consume (s.ser (s.serial + 1)) src)) := by
  show execWholeTileWrite g r src s = _
  unfold execWholeTileWrite
  rw [issue_quiet s g _ _ hg (moveNotes_quiet s src .t hs), ← seqRead_jobSource_zero]
  rfl

/-- The registers after a write of one row of tile register n, with its tag. -/
theorem setRow_setTag_spec (r : Regs) (n k : Nat) (v : Row) (tg : Tag) :
    (∀ j, j < 8 → tileRow (((r.setRow n k v).setTag (32 + 8 * n + k) tg).treg n) j =
      if j = k then v else tileRow (r.treg n) j) ∧
    (∀ m, m ≠ n → ((r.setRow n k v).setTag (32 + 8 * n + k) tg).treg m = r.treg m) ∧
    ((r.setRow n k v).setTag (32 + 8 * n + k) tg).tag (32 + 8 * n + k) = tg ∧
    ∀ m, m ≠ 32 + 8 * n + k → ((r.setRow n k v).setTag (32 + 8 * n + k) tg).tag m = r.tag m := by
  refine ⟨fun j hj => ?_, fun m hm => ?_, Regs.tag_setTag _ _ _, fun m hm => ?_⟩
  · rw [Regs.treg_setTag, Regs.treg_setRow, tileRow_tileSet _ _ _ _ hj]
  · rw [Regs.treg_setTag, Regs.treg_setRow_other _ _ _ _ _ hm]
  · rw [Regs.tag_setTag_other _ _ _ _ hm, Regs.tag_setRow]

/-- Settles O3: both moves write one row with its tag; the whole-tile one adds its job. -/
theorem tileRegisterWrites : Obligations.TileRegisterWrites := by
  unfold Obligations.TileRegisterWrites
  refine fun s g r src hg => ⟨fun hs => ?_, fun hs => ?_⟩
  · exact ⟨_, _, exec_tileRowWrite s g r src hg hs, did_onCtx s src _, setRow_setTag_spec (sourced s src).regs r.toNat (wrowOf s) _ _⟩
  · exact ⟨_, _, newJob s src (.reg r.toNat) 0 s.serial, exec_wholeTileWrite s g r src hg hs, did_onCtx_ser s _ src _,
      rfl, rfl, rfl, setRow_setTag_spec (sourced s src).regs r.toNat 0 _ _⟩

/-! ## Operand ports (R36, R38, R123) -/

/-- The source kind that a port keeps: the scalar that a row or tile port took (R246). -/
def keptScalar (k : Kind) (v : Val) : Option Word := if v.kind = .s ∧ k ≠ .s then some v.word else none

theorem exec_operandPortWrite (s : State) (g : BitVec 4) (f : BitVec 5) (p : BitVec 2) (src : BitVec 9) (k : Kind)
    (hp : portKind f.toNat p.toNat = some k) (hg : guardTrue s g = true) (hs : SourceReady s src k) (hk : k ≠ .t) :
    exec (.operandPortWrite g f p src) s = .next (onCtx (fun c =>
      setPort c f.toNat p.toNat (atKind k (readCode s src)) (keptScalar k (readCode s src)) (codeTag s src 0))
      (consume s src)) := by
  show execOperandPortWrite g f p src s = _
  unfold execOperandPortWrite
  simp only [hp, Option.getD_some]
  rw [issue_quiet s g _ _ hg (moveNotes_quiet s src k hs), if_neg hk]
  rfl

/-- A context whose tile port takes row 0 of a source, with the source's tag (R123). -/
def rowZeroIn (s : State) (src : BitVec 9) (fu p : Nat) (c : Ctx) : Ctx :=
  setPort c fu p (.t (tileSet (c.portT fu p) 0 (tileRow (readCode s src).tile 0))) (keptScalar .t (readCode s src))
    (codeTag s src 0)

theorem exec_operandPortWrite_tile (s : State) (g : BitVec 4) (f : BitVec 5) (p : BitVec 2) (src : BitVec 9)
    (hp : portKind f.toNat p.toNat = some .t) (hg : guardTrue s g = true) (hs : SourceReady s src .t) :
    exec (.operandPortWrite g f p src) s = .next (onCtx (fun c =>
      (rowZeroIn s src f.toNat p.toNat c).updInf fun i =>
        { i with jobs := i.jobs ++ [newJob s src (.portD f.toNat) 0 s.serial] })
      (consume (s.ser (s.serial + 1)) src)) := by
  show execOperandPortWrite g f p src s = _
  unfold execOperandPortWrite rowZeroIn
  simp only [hp, Option.getD_some]
  rw [issue_quiet s g _ _ hg (moveNotes_quiet s src .t hs), ← seqRead_jobSource_zero]
  rfl

/-- A port holds the value written to it, and its tag; every other port stays. -/
theorem setPort_spec (c : Ctx) (fu p : Nat) (v : Val) (sk : Option Word) (tg : Tag) :
    KMap.get (.s 0) (setPort c fu p v sk tg).ports (4 * fu + p) = v ∧
    (∀ m, m ≠ 4 * fu + p → KMap.get (.s 0) (setPort c fu p v sk tg).ports m = KMap.get (.s 0) c.ports m ∧
      KMap.get none (setPort c fu p v sk tg).portSk m = KMap.get none c.portSk m) ∧
    (setPort c fu p v sk tg).regs.tag (portTag fu p 0) = tg ∧
    ∀ m, m ≠ portTag fu p 0 → (setPort c fu p v sk tg).regs.tag m = c.regs.tag m :=
  ⟨KMap.get_put_same _ _ _ _, fun _ hm => ⟨KMap.get_put_other _ _ _ _ _ hm, KMap.get_set_other _ _ _ _ _ hm⟩,
    Regs.tag_setTag _ _ _, fun _ hm => Regs.tag_setTag_other _ _ _ _ hm⟩

theorem portW_setPort (c : Ctx) (fu p : Nat) (v : Val) (sk : Option Word) (tg : Tag) :
    (setPort c fu p (atKind .s v) sk tg).portW fu p = v.word := by
  obtain ⟨hv, -⟩ := setPort_spec c fu p (atKind .s v) sk tg
  unfold Ctx.portW
  rw [hv]
  rfl

theorem portR_setPort (c : Ctx) (fu p : Nat) (v : Val) (sk : Option Word) (tg : Tag) :
    (setPort c fu p (atKind .r v) sk tg).portR fu p = v.row := by
  obtain ⟨hv, -⟩ := setPort_spec c fu p (atKind .r v) sk tg
  unfold Ctx.portR
  rw [hv]
  rfl

/-- Row i of a tile port that took row 0. -/
theorem tileRow_portT_rowZeroIn (s : State) (src : BitVec 9) (fu p i : Nat) (c : Ctx) (hi : i < 8) :
    tileRow ((rowZeroIn s src fu p c).portT fu p) i =
      if i = 0 then tileRow (readCode s src).tile 0 else tileRow (c.portT fu p) i := by
  have hv : (rowZeroIn s src fu p c).portT fu p = tileSet (c.portT fu p) 0 (tileRow (readCode s src).tile 0) := by
    obtain ⟨hv, -⟩ : KMap.get (.s 0) (rowZeroIn s src fu p c).ports (4 * fu + p) = _ ∧ _ := setPort_spec c fu p _ _ _
    unfold Ctx.portT
    rw [hv]
    rfl
  rw [hv, tileRow_tileSet _ _ _ _ hi]

/-- Settles O4: a scalar or row port takes the value whole; a tile port takes row 0 and a job for the others. -/
theorem operandPortWrites : Obligations.OperandPortWrites := by
  unfold Obligations.OperandPortWrites
  intro s g f p src k hp hg hs
  by_cases hk : k = .t
  · subst hk
    obtain ⟨-, hother, htag, htags⟩ : _ ∧ _ ∧ _ ∧ _ := setPort_spec (sourced s src) f.toNat p.toNat _ _ _
    let j := newJob s src (.portD f.toNat) 0 s.serial
    refine ⟨_, (rowZeroIn s src f.toNat p.toNat (sourced s src)).updInf fun i => { i with jobs := i.jobs ++ [j] },
      exec_operandPortWrite_tile s g f p src hp hg hs, did_onCtx_ser s _ src _, nofun, nofun, fun h => (h rfl).elim,
      fun _ => ⟨?_, fun i h0 hi => ?_, j, rfl, rfl, rfl, rfl⟩, hother, htag, htags⟩
    · exact tileRow_portT_rowZeroIn s src f.toNat p.toNat 0 _ (by norm_num)
    · exact (tileRow_portT_rowZeroIn s src f.toNat p.toNat i _ hi).trans (if_neg (by omega))
  · obtain ⟨-, hother, htag, htags⟩ := setPort_spec (sourced s src) f.toNat p.toNat (atKind k (readCode s src))
      (keptScalar k (readCode s src)) (codeTag s src 0)
    refine ⟨_, setPort (sourced s src) f.toNat p.toNat (atKind k (readCode s src)) (keptScalar k (readCode s src))
      (codeTag s src 0), exec_operandPortWrite s g f p src k hp hg hs hk, did_onCtx s src _, fun h => ?_, fun h => ?_,
      fun _ => rfl, fun h => (hk h).elim, hother, htag, htags⟩
    · subst h
      exact portW_setPort _ _ _ _ _ _
    · subst h
      exact portR_setPort _ _ _ _ _ _

end Sys2Proof.Machine
end

section
/-!
PROOFS. Moves that are refused before their own checks: privilege and held units (O16).
-/

namespace Sys2Proof.Machine

/-! ## The issue latch under a trap

What a trap does to its context, its kernel and the module leaves the latch of the bundle as it is, but for the mark that the
bundle is passed over (R423). -/

/-- What every step of a fold keeps, the fold keeps. -/
theorem foldl_keeps {α β γ : Type} (p : β → γ) (f : β → α → β) (h : ∀ b a, p (f b a) = p b) (l : List α) (b : β) :
    p (l.foldl f b) = p b := by
  induction l generalizing b with
  | nil => rfl
  | cons a l ih => rw [List.foldl_cons, ih, h]

@[simp] theorem updHolder_iss (s : State) (h : Nat) (f : Holder → Holder) : (s.updHolder h f).iss = s.iss := rfl
@[simp] theorem within_iss (s : State) (lo hi : Nat) (e : Instr) : (s.within lo hi e).iss = s.iss := rfl
@[simp] theorem bbAddL_iss (s : State) (l k c : Nat) (i : BitVec 32) (w : Nat) (v : Word) :
    (s.bbAddL l k c i w v).iss = s.iss := rfl

@[simp] theorem performSeg_iss (s : State) (a : LocalAcc) (g : Seg) : (performSeg s a g).1.iss = s.iss := by
  unfold performSeg
  split
  · dsimp only; split <;> rfl
  · split
    · rfl
    · dsimp only; split <;> rfl
  · rfl

@[simp] theorem performSegs_iss (s : State) (a : LocalAcc) : (performSegs s a).1.iss = s.iss :=
  foldl_keeps (fun r : State × LocalAcc => r.1.iss) _ (fun r g => performSeg_iss r.1 r.2 g) _ (s, a)

@[simp] theorem performAcc_iss (s : State) (n : Nat) (a : LocalAcc) : (performAcc s n a).iss = s.iss :=
  performSegs_iss s a

@[simp] theorem performAll_iss (s : State) (n : Nat) : (performAll s n).iss = s.iss := by
  refine foldl_keeps State.iss _ (fun s a => ?_) _ s
  split
  · rfl
  · split
    · rfl
    · exact performAcc_iss _ n a

@[simp] theorem performLat_iss (s : State) (n : Nat) (l : LatAcc) : (performLat s n l).1.iss = s.iss := by
  unfold performLat
  split
  · rfl
  · split
    · rfl
    · dsimp only
      split
      · rfl
      · dsimp only; split <;> rfl

@[simp] theorem performLats_iss (s : State) (n : Nat) : (performLats s n).iss = s.iss :=
  foldl_keeps State.iss _ (fun s l => performLat_iss s n l) _ s

@[simp] theorem resetBarriers_iss (s : State) (n : Nat) (m : BitVec 128) : (resetBarriers s n m).iss = s.iss := by
  refine foldl_keeps State.iss _ (fun s a => ?_) _ s
  unfold resetBarrier
  dsimp only
  split <;> rfl

@[simp] theorem releaseGrant_iss (s : State) (c : Nat) : (releaseGrant s c).iss = s.iss := by
  unfold releaseGrant dropGrant
  dsimp only
  split <;> rfl

@[simp] theorem dropEvents_iss (s : State) (n : Nat) : (dropEvents s n).iss = s.iss := by
  unfold dropEvents
  split <;> rfl

@[simp] theorem withdrawSk_iss (s : State) (n : Nat) : (withdrawSk s n).iss = s.iss :=
  foldl_keeps State.iss
    (fun s (p : Nat × List (Nat × Nat)) => s.at (s.clk + 1) false (.skResWindowGrant p.1)) (fun _ _ => rfl) _ _

@[simp] theorem freeCtx_iss (s : State) (n : Nat) : (freeCtx s n).iss = s.iss := by
  unfold freeCtx
  dsimp only
  show (withdrawSk _ n).iss = _
  rw [withdrawSk_iss]
  show (dropEvents _ n).iss = _
  rw [dropEvents_iss]
  split
  · exact (releaseGrant_iss _ _).trans (resetBarriers_iss _ _ _)
  · exact resetBarriers_iss _ _ _

@[simp] theorem endMember_iss (s : State) (n : Nat) : (endMember s n).iss = s.iss := by
  unfold endMember
  split
  · rfl
  · rw [freeCtx_iss, performLats_iss, performAll_iss]

@[simp] theorem freeMember_iss (s : State) (n : Nat) : (freeMember s n).iss = s.iss := by
  unfold freeMember
  dsimp only
  split
  · show (withdrawSk (dropReqs (dropEvents _ n) n) n).iss = _
    rw [withdrawSk_iss]
    exact dropEvents_iss _ n
  · rw [endMember_iss]
    show (withdrawSk (dropReqs (dropEvents _ n) n) n).iss = _
    rw [withdrawSk_iss]
    exact dropEvents_iss _ n

@[simp] theorem retirePatterns_iss (s : State) (kid : BitVec 32) : (retirePatterns s kid).iss = s.iss := by
  refine foldl_keeps State.iss _ (fun s p => ?_) _ s
  exact foldl_keeps State.iss (fun s (e : Nat × Nat) => s.updHolder e.1 fun x => x.updEnt e.2 fun y => y.setSt 3)
    (fun _ _ => rfl) _ s

@[simp] theorem killOne_iss (s : State) (kid : BitVec 32) : (killOne s kid).iss = s.iss := by
  unfold killOne
  split
  · rfl
  · refine (foldl_keeps State.iss _ freeMember_iss _ _).trans ?_
    split
    · refine (foldl_keeps State.iss _ (fun s n => ?_) _ _).trans (retirePatterns_iss s kid)
      split
      · exact releaseGrant_iss _ _
      · rfl
    · exact retirePatterns_iss s kid

@[simp] theorem killKernel_iss (s : State) (kid : BitVec 32) (code : Nat) (v : Word) (parent : Bool) :
    (killKernel s kid code v parent).iss = s.iss := by
  unfold killKernel
  dsimp only
  split
  · exact killOne_iss s kid
  · split
    · unfold killRecorded
      split
      · exact (killOne_iss _ _).trans (killOne_iss s kid)
      · exact killOne_iss s kid
    · exact killOne_iss s kid

@[simp] theorem walkCtx_iss (s : State) (n code lvl : Nat) (v : Word) (soft : Bool) :
    (walkCtx s n code lvl v soft).1.iss = s.iss := by
  unfold walkCtx
  dsimp only
  generalize walkLevels _ _ _ _ = w
  have hrecords : (w.1.foldl (fun u l => u.bbAddL l 1 code (s.ctx n).ctl.kid n v) s).iss = s.iss :=
    foldl_keeps State.iss (fun u l => u.bbAddL l 1 code (s.ctx n).ctl.kid n v) (fun _ _ => rfl) _ s
  split
  · exact (killKernel_iss _ _ _ _ _).trans hrecords
  · exact (killKernel_iss _ _ _ _ _).trans hrecords
  · exact hrecords

@[simp] theorem withdrawWait_iss (s : State) (n : Nat) : (withdrawWait s n).iss = s.iss := by
  unfold withdrawWait
  split <;> rfl

@[simp] theorem capture_iss (s : State) (n : Nat) : (capture s n).iss = s.iss :=
  (withdrawWait_iss _ n).trans (performAll_iss s n)

@[simp] theorem freezeCtx_iss (s : State) (n code : Nat) (v : Word) : (freezeCtx s n code v).iss = s.iss :=
  capture_iss (s.bbAddL 0 1 code (s.ctx n).ctl.kid n v) n

@[simp] theorem endWork_iss (s : State) (n : Nat) : (endWork s n).iss = s.iss := rfl
theorem skipBundle_note (s : State) (n : Nat) : (skipBundle s n).iss.note = s.iss.note := rfl

/-- A walk may mark the bundle as passed over; what the bundle met stands in the latch. -/
theorem walkIssue_note (s : State) (n code : Nat) (v : Word) : (walkIssue s n code v).iss.note = s.iss.note := by
  unfold walkIssue
  dsimp only
  split
  · split <;> simp only [State.updCtx_iss, skipBundle_note, walkCtx_iss, freezeCtx_iss]
  · split
    · rfl
    · split
      · simp only [killKernel_iss, endWork_iss, bbAddL_iss]
      · split <;> simp only [killKernel_iss, endWork_iss, bbAddL_iss, skipBundle_note, State.updCtx_iss]

/-- What a bundle met stands in the latch when its trap has been taken. -/
theorem takeTrap_note (s : State) (n code : Nat) (v : Word) : (takeTrap s n code v).iss.note = s.iss.note := by
  unfold takeTrap
  split
  · rw [endMember_iss]
  · split
    · exact congrArg Latch.note (capture_iss s n)
    · exact walkIssue_note s n code v

theorem raiseNote_trap_note (s : State) (r code : Nat) (v : Word) :
    (raiseNote s (.trap r code v)).iss.note = .trap r code v := takeTrap_note _ _ _ _

/-! ## Privilege and held units (R420, R48) -/

theorem privNote_of_unprivileged (s : State) (fu port : Nat) (hp : portPriv fu port = true)
    (h : s.iss.ctx.ctl.priv = false) : privNote s fu port = .trap 2 0x02 (unstated s) := by
  simp [privNote, hp, h]

theorem privNote_of_open (s : State) (fu port : Nat) (hp : portPriv fu port = false) : privNote s fu port = .quiet := by
  simp [privNote, hp]

theorem busyNote_of_held (s : State) (fu port : Nat) (cb : Bool) (h : heldNow s.iss.ctx fu port = true) :
    busyNote s fu port cb = .trap 3 0x03 (unstated s) := by
  simp [busyNote, h]

/-- A trigger whose privilege or unit is refused raises that, whatever its own checks are. -/
theorem trigger_of_refused (s : State) (fu port int w : Nat) (cb : Bool) (blk chk : List Note) (g : BitVec 4)
    (src : BitVec 9) (eff : Val → State → State) (hg : guardTrue s g = true) (x : Note)
    (h : firstNote [privNote s fu port, busyNote s fu port cb] = x) (hx : x ≠ .quiet) :
    trigger fu port int w cb blk chk g src eff s = .next (raiseNote { s with free := s.free + 1 } x) := by
  let rest : List Note := [headBusy s src, headBlock s src] ++ blk ++ [headFault s src, kindNote s src (triggerKind fu port)] ++ chk
  have hn : firstNote ([privNote s fu port, busyNote s fu port cb] ++ rest) = x :=
    (trigger_met.firstNote_loud _ rest (by rw [h]; exact hx)).trans h
  unfold trigger
  exact (issue_note s g ([privNote s fu port, busyNote s fu port cb] ++ rest) _ hg (by rw [hn]; exact hx)).trans (by rw [hn])

theorem trigger_of_unprivileged (s : State) (fu port int w : Nat) (cb : Bool) (blk chk : List Note) (g : BitVec 4)
    (src : BitVec 9) (eff : Val → State → State) (hg : guardTrue s g = true) (hp : portPriv fu port = true)
    (h : s.iss.ctx.ctl.priv = false) : trigger fu port int w cb blk chk g src eff s =
      .next (raiseNote { s with free := s.free + 1 } (.trap 2 0x02 (unstated s))) :=
  trigger_of_refused s _ _ _ _ _ _ _ _ _ _ hg _ (by rw [privNote_of_unprivileged s _ _ hp h]; rfl) (by simp)

theorem trigger_of_held (s : State) (fu port int w : Nat) (cb : Bool) (blk chk : List Note) (g : BitVec 4)
    (src : BitVec 9) (eff : Val → State → State) (hg : guardTrue s g = true) (hp : portPriv fu port = false)
    (h : heldNow s.iss.ctx fu port = true) : trigger fu port int w cb blk chk g src eff s =
      .next (raiseNote { s with free := s.free + 1 } (.trap 3 0x03 (unstated s))) :=
  trigger_of_refused s _ _ _ _ _ _ _ _ _ _ hg _
    (by rw [privNote_of_open s _ _ hp, busyNote_of_held s _ _ _ h]; rfl) (by simp)

theorem letGo_of_trap (gs : List Seg) (ls : List LatAcc) (s : State) (r code : Nat) (v : Word) :
    letGo gs ls (.next (raiseNote s (.trap r code v))) = .next (raiseNote s (.trap r code v)) :=
  letGo_of_not_held _ _ _ (by simp [raiseNote_trap_note])

theorem lsLocal_of_held (s : State) (port int w : Nat) (addr : Word) (algn size : Nat) (gs : List Seg) (store : Bool)
    (more : List Note) (g : BitVec 4) (src : BitVec 9) (eff : Val → Nat → State → State) (hg : guardTrue s g = true)
    (h : heldNow s.iss.ctx 8 port = true) : lsLocal port int w addr algn size gs store more g src eff s =
      .next (raiseNote { s with free := s.free + 1 } (.trap 3 0x03 (unstated s))) := by
  unfold lsLocal
  dsimp only
  rw [trigger_of_held s 8 _ _ _ _ _ _ _ _ _ hg rfl h, letGo_of_trap]

theorem atTrigger_of_held (s : State) (port : Nat) (g : BitVec 4) (src : BitVec 9) (hg : guardTrue s g = true)
    (h : heldNow s.iss.ctx 9 port = true) : atTrigger port g src s =
      .next (raiseNote { s with free := s.free + 1 } (.trap 3 0x03 (unstated s))) := by
  unfold atTrigger
  dsimp only
  rw [trigger_of_held s 9 _ _ _ _ _ _ _ _ _ hg rfl h, letGo_of_trap, letGo_of_trap, ite_self]

/-- Settles O16: the two tests of R48 that come first, each before the checks of the move. -/
theorem privilegeAndBusy : Obligations.PrivilegeAndBusy := by
  unfold Obligations.PrivilegeAndBusy
  refine fun s g src hg => ⟨fun hp => ?_, fun hd => ?_, fun hl => ?_⟩
  · have unprivileged (fu port : Nat) (h : portPriv fu port = true) (int w : Nat) (cb : Bool) (blk chk : List Note)
        (eff : Val → State → State) := trigger_of_unprivileged s fu port int w cb blk chk g src eff hg h hp
    refine ⟨⟨unstated s, 2, ?_⟩, ⟨unstated s, 2, ?_⟩, ⟨unstated s, 2, ?_⟩, ⟨unstated s, 2, ?_⟩, ⟨unstated s, 2, ?_⟩,
      ⟨unstated s, 2, ?_⟩, ⟨unstated s, 2, ?_⟩, ⟨unstated s, 2, ?_⟩⟩
    · simp only [exec, execSyRfe, ↓unprivileged 7 5 rfl]
    · simp only [exec, execSyStop, ↓unprivileged 7 6 rfl]
    · simp only [exec, execSyRel, ↓unprivileged 7 7 rfl]
    · simp only [exec, execSySnap, ↓unprivileged 7 8 rfl]
    · simp only [exec, execMxMld, ↓unprivileged 14 5 rfl]
    · simp only [exec, execPwLim, ↓unprivileged 27 5 rfl]
    · simp only [exec, execXlSda, xlGo, goMove, ↓unprivileged 26 4 rfl]
    · simp only [exec, execXlSdk, xlGo, goMove, ↓unprivileged 26 5 rfl]
  · have divider (port : Nat) (h : unitKey 2 port = 100) : heldNow s.iss.ctx 2 port = true := by
      simp [heldNow, h, hd]
    refine ⟨⟨unstated s, 3, ?_⟩, ⟨unstated s, 3, ?_⟩⟩
    · simp only [exec, execSmDiv, smTrigger, ↓trigger_of_held s 2 7 _ _ _ _ _ g src _ hg rfl (divider 7 rfl)]
    · simp only [exec, execSmRemu, smTrigger, ↓trigger_of_held s 2 10 _ _ _ _ _ g src _ hg rfl (divider 10 rfl)]
  · have access (fu port : Nat) (h : unitKey fu port = 8) : heldNow s.iss.ctx fu port = true := by
      simp [heldNow, h, hl]
    refine ⟨⟨unstated s, 3, ?_⟩, ⟨unstated s, 3, ?_⟩⟩
    · simp only [exec, execLsLdr, ↓lsLocal_of_held s 6 _ _ _ _ _ _ _ _ g src _ hg (access 8 6 rfl)]
    · simp only [exec, execAtAdd, ↓atTrigger_of_held s 6 g src hg (access 9 6 rfl)]

end Sys2Proof.Machine
end

section
/-!
PROOFS. The circular-buffer unit (O37).
-/

namespace Sys2Proof.Machine

/-! ## Notes and fields -/

theorem firstNote_trapIf (b : Bool) (code : Nat) (v : Word) (l : List Note) :
    firstNote (trapIf b code v :: l) = if b then .trap 5 code v else firstNote l := by cases b <;> rfl

theorem firstNote_blockIf (b : Bool) (l : List Note) :
    firstNote (blockIf b :: l) = if b then .block else firstNote l := by cases b <;> rfl

theorem fld_eq (w : Word) (lo len : Nat) : fld w lo len = w.toNat / 2 ^ lo % 2 ^ len := by
  rw [fld, bits, Nat.shiftRight_eq_div_pow]

/-- The low field of a word. -/
theorem fld_zero (w : Word) (len : Nat) : fld w 0 len = w.toNat % 2 ^ len := by
  rw [fld_eq, Nat.pow_zero, Nat.div_one]

theorem ofNat_fld (w : Word) (lo len : Nat) : BitVec.ofNat len (fld w lo len) = w.extractLsb' lo len := by
  apply BitVec.eq_of_toNat_eq
  simp [fld, bits]

/-! ## cb.set (R281) -/

/-- A slot size and base that a buffer may have. -/
abbrev CbSizeOk (a : Word) : Prop := a.toNat / 2 ^ 32 % 512 ≠ 0 ∧ a.toNat / 2 ^ 32 % 512 ≤ 256 ∧ a.toNat % 256 = 0

/-- A number of slots and a grain that a buffer may have. -/
abbrev CbCountOk (b : Word) : Prop :=
  b.toNat % 8192 ≠ 0 ∧ b.toNat % 8192 ≤ 4096 ∧ b.toNat / 2 ^ 16 % 8192 ≠ 0 ∧ b.toNat / 2 ^ 16 % 8192 ≤ b.toNat % 8192

/-- The first vault byte past the slots that `cb.set` asks for. -/
abbrev cbTop (a b : Word) : Nat := a.toNat % 2 ^ 23 + 256 * (a.toNat / 2 ^ 32 % 512) * (b.toNat % 8192)

/-- The buffer that `cb.set` configures from its ports. -/
def cbConfigured (a b : Word) : Cb :=
  { cfg := true, base := a.extractLsb' 8 15, ssz := BitVec.ofNat 9 (a.toNat / 2 ^ 32 % 512)
    ns := BitVec.ofNat 13 (b.toNat % 8192), gr := BitVec.ofNat 13 (b.toNat / 2 ^ 16 % 8192)
    pp := 0, cc := 0, rp := 0, pq := 0, line := [] }

/-- The checks of `cb.set` of buffer h in their order. -/
def cbSetChecks (s : State) (h : Nat) (a b : Word) : List Note :=
  [trapIf (!decide (CbSizeOk a)) 0x0A a, trapIf (!decide (CbCountOk b)) 0x0A b,
    trapIf (decide (65536 * s.iss.ctx.ctl.arenaSize.toNat < cbTop a b)) 0x20 (w64 (cbTop a b)),
    trapIf (decide (cbNamed s h = true ∨ (s.iss.ctx.cb h).pq ≠ 0)) 0x0E (w64 h)]

theorem exec_cbSet (s : State) (g : BitVec 4) (src : BitVec 9) : exec (.cbSet g src) s =
    trigger 21 4 1 1 false []
      (cbSetChecks s ((trigT s src).toNat % 16) (s.iss.ctx.portW 21 0) (s.iss.ctx.portW 21 1)) g src
      (fun _ => onCtx fun x => x.setCb ((trigT s src).toNat % 16)
        (cbConfigured (s.iss.ctx.portW 21 0) (s.iss.ctx.portW 21 1))) s := by
  have hh : fld (tWord s src) 0 4 = (trigT s src).toNat % 16 := fld_zero _ 4
  have hsize (a : Word) : (decide (fld a 32 9 = 0 ∨ 256 < fld a 32 9 ∨ fld a 0 8 ≠ 0)) = !decide (CbSizeOk a) := by
    rw [← decide_not, decide_eq_decide, fld_zero, fld_eq]
    omega
  have hcount (b : Word) : (decide (fld b 0 13 = 0 ∨ 4096 < fld b 0 13 ∨ fld b 16 13 = 0 ∨ fld b 0 13 < fld b 16 13)) =
      !decide (CbCountOk b) := by
    rw [← decide_not, decide_eq_decide, fld_zero, fld_eq]
    omega
  have htop (a b : Word) : fld a 0 23 + 256 * fld a 32 9 * fld b 0 13 = cbTop a b := by
    rw [fld_zero, fld_zero, fld_eq]
    rfl
  have hused (p : Bool) (q : Prop) [Decidable q] : (p || decide q) = decide (p = true ∨ q) := by simp
  show execCbSet g src s = _
  unfold execCbSet
  dsimp only
  rw [hh, hsize, hcount, htop, hused, ofNat_fld, fld_eq _ 32, fld_zero _ 13, fld_eq _ 16]
  rfl

/-- What `cb.set` meets: the first of its checks that fails. -/
theorem firstNote_cbSetChecks (s : State) (h : Nat) (a b : Word) : firstNote (cbSetChecks s h a b) =
    if CbSizeOk a then
      if CbCountOk b then
        if 65536 * s.iss.ctx.ctl.arenaSize.toNat < cbTop a b then .trap 5 0x20 (w64 (cbTop a b))
        else if cbNamed s h = true ∨ (s.iss.ctx.cb h).pq ≠ 0 then .trap 5 0x0E (w64 h) else .quiet
      else .trap 5 0x0A b
    else .trap 5 0x0A a := by
  simp only [cbSetChecks, firstNote_trapIf, Bool.not_eq_true', decide_eq_false_iff_not, decide_eq_true_eq, ite_not]
  rfl

/-! ## cb.adv (R281, R48) -/

theorem firstNote_of_append_quiet (l m : List Note) (h : firstNote (l ++ m) = .quiet) :
    firstNote l = .quiet ∧ firstNote m = .quiet := by
  induction l with
  | nil => exact ⟨rfl, h⟩
  | cons x l ih => cases x <;> simp_all [firstNote]

/-- A number of slots that a buffer can advance or release by: 1 to NS. -/
abbrev CbSlots (b : Cb) (t : Word) : Prop := 0 < t.toNat ∧ t.toNat ≤ b.ns.toNat

theorem slotsBad_eq (b : Cb) (t : Word) : slotsBad b t.toNat = !decide (CbSlots b t) := by
  rw [slotsBad, ← decide_not, decide_eq_decide]
  omega

/-- The block of `cb.adv` of t slots of a buffer. -/
def cbAdvBlock (b : Cb) (t : Word) : List Note :=
  [blockIf (b.cfg && decide (CbSlots b t) && decide (b.free < t.toNat))]

/-- The checks of `cb.adv` of t slots of buffer h in their order. -/
def cbAdvChecks (h : Nat) (b : Cb) (t : Word) : List Note :=
  [trapIf (!b.cfg) 0x0D (w64 h), trapIf (!decide (CbSlots b t)) 0x0A t, trapIf (decide (b.pq ≠ 0)) 0x0E (w64 h)]

/-- A context with one more advance on its way. -/
def advancing (h m : Nat) (c : Ctx) : Ctx := { c with inf := { c.inf with cbAdv := c.inf.cbAdv ++ [(3, h, m)] } }

/-- The buffer that port 2 of CB names. -/
abbrev cbPort (s : State) : Nat := (s.iss.ctx.portW 21 2).toNat % 16

theorem exec_cbAdv (s : State) (g : BitVec 4) (src : BitVec 9) : exec (.cbAdv g src) s =
    trigger 21 5 1 1 true (cbAdvBlock (s.iss.ctx.cb (cbPort s)) (trigT s src))
      (cbAdvChecks (cbPort s) (s.iss.ctx.cb (cbPort s)) (trigT s src)) g src
      (fun v => onCtx (advancing (cbPort s) v.word.toNat)) s := by
  show execCbAdv g src s = _
  unfold execCbAdv
  dsimp only
  rw [fld_zero, show tWord s src = trigT s src from rfl, slotsBad_eq, Bool.not_not]
  rfl

/-- What `cb.adv` meets. -/
theorem firstNote_cbAdv (h : Nat) (b : Cb) (t : Word) : firstNote (cbAdvBlock b t ++ cbAdvChecks h b t) =
    if b.cfg then
      if CbSlots b t then
        if b.free < t.toNat then .block else if b.pq ≠ 0 then .trap 5 0x0E (w64 h) else .quiet
      else .trap 5 0x0A t
    else .trap 5 0x0D (w64 h) := by
  rw [cbAdvBlock, cbAdvChecks, List.singleton_append]
  simp only [firstNote_trapIf, firstNote_blockIf]
  cases b.cfg
  · rfl
  · by_cases hm : CbSlots b t
    · rw [if_pos hm, decide_eq_true hm]
      simp [firstNote]
    · rw [if_neg hm, decide_eq_false hm]
      rfl

/-! ## cb.rel (R281, R282) -/

/-- The checks of `cb.rel` of t slots of buffer h in their order. -/
def cbRelChecks (h : Nat) (b : Cb) (t : Word) : List Note :=
  [trapIf (!b.cfg) 0x0D (w64 h), trapIf (!decide (CbSlots b t ∧ b.rp.toNat + t.toNat ≤ b.pp.toNat)) 0x0A t]

/-- A context that has released the slots of buffer h below `rp`. -/
def releasing (h rp : Nat) (c : Ctx) : Ctx := c.setCb h ((c.cb h).releaseTo rp)

theorem exec_cbRel (s : State) (g : BitVec 4) (src : BitVec 9) : exec (.cbRel g src) s =
    trigger 21 6 1 1 false [] (cbRelChecks (cbPort s) (s.iss.ctx.cb (cbPort s)) (trigT s src)) g src
      (fun v => onCtx (releasing (cbPort s) ((s.iss.ctx.cb (cbPort s)).rp.toNat + v.word.toNat))) s := by
  have hbad (b : Cb) (t : Word) : (slotsBad b t.toNat || decide (b.pp.toNat < b.rp.toNat + t.toNat)) =
      !decide (CbSlots b t ∧ b.rp.toNat + t.toNat ≤ b.pp.toNat) := by
    rw [slotsBad, ← decide_not, ← Bool.decide_or, decide_eq_decide]
    omega
  show execCbRel g src s = _
  unfold execCbRel
  dsimp only
  rw [fld_zero, show tWord s src = trigT s src from rfl, hbad]
  rfl

theorem firstNote_cbRelChecks (h : Nat) (b : Cb) (t : Word) : firstNote (cbRelChecks h b t) =
    if b.cfg then if CbSlots b t ∧ b.rp.toNat + t.toNat ≤ b.pp.toNat then .quiet else .trap 5 0x0A t
    else .trap 5 0x0D (w64 h) := by
  simp only [cbRelChecks, firstNote_trapIf, Bool.not_eq_true', decide_eq_false_iff_not, ite_not]
  cases b.cfg <;> rfl

/-! ## cb.qry (R281) -/

/-- The answer of `cb.qry`: FREE, AV and PP of a buffer. -/
def cbAnswer (b : Cb) : Word :=
  w64 ((b.free % 8192).toNat + (b.avail % 8192).toNat * 2 ^ 16 + b.pp.toNat % 2 ^ 32 * 2 ^ 32)

theorem exec_cbQry (s : State) (g : BitVec 4) (src : BitVec 9) : exec (.cbQry g src) s =
    trigger 21 7 1 1 false []
      [trapIf (!(s.iss.ctx.cb ((trigT s src).toNat % 16)).cfg) 0x0D (w64 ((trigT s src).toNat % 16))] g src
      (fun _ s' => flyNew s' 2 21 (.s (cbAnswer (s.iss.ctx.cb ((trigT s src).toNat % 16)))) 0 0) s := by
  show execCbQry g src s = _
  unfold execCbQry
  dsimp only
  rw [fld_zero]
  rfl

/-! ## Advances of PP (R281) -/

/-- PP of a buffer moved on by m slots. -/
def Cb.advanced (b : Cb) (m : Nat) : Cb := { b with pp := b.pp + BitVec.ofNat 40 m }

/-- One advance of a context made. -/
def advanceOne (c : Ctx) (p : Nat × Nat × Nat) : Ctx := c.setCb p.2.1 ((c.cb p.2.1).advanced p.2.2)

theorem advDue_eq (c : Ctx) : advDue c = (c.inf.cbAdv.filter fun p => p.1 = 0).foldl advanceOne
    (c.updInf fun i => { i with cbAdv := i.cbAdv.filter fun p => p.1 ≠ 0 }) := rfl

/-- Advances touch nothing but the buffers. -/
theorem foldl_advanceOne_frame (l : List (Nat × Nat × Nat)) (c : Ctx) :
    l.foldl advanceOne c = { c with cbs := (l.foldl advanceOne c).cbs } := by
  induction l generalizing c with
  | nil => rfl
  | cons p l ih => exact ih (advanceOne c p)

theorem Cb.advanced_zero (b : Cb) : b.advanced 0 = b := by
  simp [Cb.advanced]

theorem Cb.advanced_advanced (b : Cb) (m n : Nat) : (b.advanced m).advanced n = b.advanced (m + n) := by
  simp only [Cb.advanced, BitVec.ofNat_add, BitVec.add_assoc]

theorem listSum_cons (m : Nat) (l : List Nat) : listSum (m :: l) = m + listSum l := by
  simp only [listSum, ← List.sum_eq_foldl, List.sum_cons]

/-- A buffer's PP moves on by all the advances that name it. -/
theorem cb_foldl_advanceOne (h : Nat) (l : List (Nat × Nat × Nat)) (c : Ctx) :
    (l.foldl advanceOne c).cb h = (c.cb h).advanced (listSum ((l.filter fun p => p.2.1 = h).map fun p => p.2.2)) := by
  induction l generalizing c with
  | nil => exact (Cb.advanced_zero _).symm
  | cons p l ih =>
    rw [List.foldl_cons, ih]
    by_cases hp : p.2.1 = h
    · rw [List.filter_cons_of_pos (by simpa using hp), List.map_cons, listSum_cons, ← Cb.advanced_advanced, advanceOne, hp,
        Ctx.cb_setCb]
    · rw [List.filter_cons_of_neg (by simpa using hp), advanceOne, Ctx.cb_setCb_other _ _ _ _ (Ne.symm hp)]

/-! ## The obligation -/

theorem cbSet_completes (s : State) (g : BitVec 4) (src : BitVec 9)
    (hq : firstNote (cbSetChecks s ((trigT s src).toNat % 16) (s.iss.ctx.portW 21 0) (s.iss.ctx.portW 21 1)) = .quiet) :
    Completes s (.cbSet g src) 21 4 1 1 false g src fun c => c.setCb ((trigT s src).toNat % 16)
      (cbConfigured (s.iss.ctx.portW 21 0) (s.iss.ctx.portW 21 1)) :=
  completes s _ 21 4 1 1 _ _ _ _ g src _ _ (exec_cbSet s g src) rfl hq (onCtx_charged s src 1 _)

theorem cbSet_traps (s : State) (g : BitVec 4) (src : BitVec 9) (code : Nat) (v : Word) (hr : Ready s 21 4 false g src)
    (hn : firstNote (cbSetChecks s ((trigT s src).toNat % 16) (s.iss.ctx.portW 21 0) (s.iss.ctx.portW 21 1)) =
      .trap 5 code v) : Traps s (.cbSet g src) code v :=
  traps s _ 21 4 1 1 _ [] _ g src _ 5 code v (exec_cbSet s g src) hr hn

theorem cbAdv_completes (s : State) (g : BitVec 4) (src : BitVec 9)
    (hq : firstNote (cbAdvBlock (s.iss.ctx.cb (cbPort s)) (trigT s src) ++
      cbAdvChecks (cbPort s) (s.iss.ctx.cb (cbPort s)) (trigT s src)) = .quiet) :
    Completes s (.cbAdv g src) 21 5 1 1 true g src (advancing (cbPort s) (trigT s src).toNat) :=
  have ⟨hblk, hchk⟩ := firstNote_of_append_quiet _ _ hq
  completes s _ 21 5 1 1 _ _ _ _ g src _ _ (exec_cbAdv s g src) hblk hchk (onCtx_charged s src 1 _)

theorem cbAdv_traps (s : State) (g : BitVec 4) (src : BitVec 9) (code : Nat) (v : Word) (hr : Ready s 21 5 true g src)
    (hn : firstNote (cbAdvBlock (s.iss.ctx.cb (cbPort s)) (trigT s src) ++
      cbAdvChecks (cbPort s) (s.iss.ctx.cb (cbPort s)) (trigT s src)) = .trap 5 code v) : Traps s (.cbAdv g src) code v :=
  traps s _ 21 5 1 1 _ _ _ g src _ 5 code v (exec_cbAdv s g src) hr hn

theorem cbRel_completes (s : State) (g : BitVec 4) (src : BitVec 9)
    (hq : firstNote (cbRelChecks (cbPort s) (s.iss.ctx.cb (cbPort s)) (trigT s src)) = .quiet) :
    Completes s (.cbRel g src) 21 6 1 1 false g src
      (releasing (cbPort s) ((s.iss.ctx.cb (cbPort s)).rp.toNat + (trigT s src).toNat)) :=
  completes s _ 21 6 1 1 _ _ _ _ g src _ _ (exec_cbRel s g src) rfl hq (onCtx_charged s src 1 _)

theorem cbRel_traps (s : State) (g : BitVec 4) (src : BitVec 9) (code : Nat) (v : Word) (hr : Ready s 21 6 false g src)
    (hn : firstNote (cbRelChecks (cbPort s) (s.iss.ctx.cb (cbPort s)) (trigT s src)) = .trap 5 code v) :
    Traps s (.cbRel g src) code v :=
  traps s _ 21 6 1 1 _ [] _ g src _ 5 code v (exec_cbRel s g src) hr hn

theorem cbQry_results (s : State) (g : BitVec 4) (src : BitVec 9)
    (hcfg : (s.iss.ctx.cb ((trigT s src).toNat % 16)).cfg = true) :
    Results s (.cbQry g src) 21 7 2 1 1 g src (.s (cbAnswer (s.iss.ctx.cb ((trigT s src).toNat % 16)))) 0 :=
  completes s _ 21 7 1 1 _ _ _ _ g src _ _ (exec_cbQry s g src) rfl (by rw [hcfg]; rfl)
    (flyNew_charged_id s src 1 2 21 _ 0)

/-- What an advance that is due does to its context. -/
theorem exec_cbAdvPpAdvance (s : State) (n : Nat) :
    exec (.cbAdvPpAdvance n) s = .next (s.setCtx n (advDue (s.ctx n))) := rfl

/-- Settles O37: each operation's checks are evaluated once (`firstNote_…`); the advances of PP by induction over those that
are due. -/
theorem circularBuffers : Obligations.CircularBuffers := by
  unfold Obligations.CircularBuffers
  refine ⟨fun s g src => ?_, fun s n => ?_⟩
  · have hset := firstNote_cbSetChecks s ((trigT s src).toNat % 16) (s.iss.ctx.portW 21 0) (s.iss.ctx.portW 21 1)
    have hadv := firstNote_cbAdv (cbPort s) (s.iss.ctx.cb (cbPort s)) (trigT s src)
    have hrel := firstNote_cbRelChecks (cbPort s) (s.iss.ctx.cb (cbPort s)) (trigT s src)
    refine ⟨fun ha hb htop hused => ?_,
      fun hr => ⟨fun ha => ?_, fun ha hb => ?_, fun ha hb htop => ?_, fun ha hb htop hused => ?_⟩,
      fun hcfg hm hpq hfree => ?_,
      fun hr => ⟨fun hcfg hm hfree => ?_, fun hcfg => ?_, fun hcfg hm => ?_, fun hcfg hm hfree hpq => ?_⟩,
      fun hcfg hm hpp => ?_, fun hr => ⟨fun hcfg => ?_, fun hcfg hm => ?_⟩, fun hcfg => ?_, fun hcfg hr => ?_⟩
    · exact cbSet_completes s g src (by rw [hset, if_pos ha, if_pos hb, if_neg (Nat.not_lt.2 htop), if_neg hused])
    · exact cbSet_traps s g src _ _ hr (by rw [hset, if_neg ha])
    · exact cbSet_traps s g src _ _ hr (by rw [hset, if_pos ha, if_neg hb])
    · exact cbSet_traps s g src _ _ hr (by rw [hset, if_pos ha, if_pos hb, if_pos htop])
    · exact cbSet_traps s g src _ _ hr (by
        rw [hset, if_pos ha, if_pos hb, if_neg (Nat.not_lt.2 htop), if_pos hused])
    · exact cbAdv_completes s g src (by
        rw [hadv, if_pos hcfg, if_pos hm, if_neg (Int.not_lt.2 hfree), if_neg (not_not.2 hpq)])
    · exact blocks s _ 21 5 1 1 _ _ _ g src _ (exec_cbAdv s g src) hr (by rw [hadv, if_pos hcfg, if_pos hm, if_pos hfree])
    · exact cbAdv_traps s g src _ _ hr (by rw [hadv, if_neg (Bool.eq_false_iff.1 hcfg)])
    · exact cbAdv_traps s g src _ _ hr (by rw [hadv, if_pos hcfg, if_neg hm])
    · exact cbAdv_traps s g src _ _ hr (by rw [hadv, if_pos hcfg, if_pos hm, if_neg (Int.not_lt.2 hfree), if_pos hpq])
    · exact cbRel_completes s g src (by rw [hrel, if_pos hcfg, if_pos ⟨hm, hpp⟩])
    · exact cbRel_traps s g src _ _ hr (by rw [hrel, if_neg (Bool.eq_false_iff.1 hcfg)])
    · exact cbRel_traps s g src _ _ hr (by rw [hrel, if_pos hcfg, if_neg hm])
    · exact cbQry_results s g src hcfg
    · exact traps s _ 21 7 1 1 _ [] _ g src _ 5 _ _ (exec_cbQry s g src) hr (by rw [hcfg]; rfl)
  · refine ⟨_, advDue (s.ctx n), exec_cbAdvPpAdvance s n, rfl, foldl_advanceOne_frame _ _, fun h => ?_⟩
    have hdue : ((s.ctx n).inf.cbAdv.filter fun p => p.1 = 0).filter (fun p => p.2.1 = h) =
        (s.ctx n).inf.cbAdv.filter fun p => decide (p.1 = 0 ∧ p.2.1 = h) := by
      rw [List.filter_filter]
      exact List.filter_congr fun p _ => by simp [and_comm]
    rw [advDue_eq, cb_foldl_advanceOne, hdue]
    rfl

end Sys2Proof.Machine
end

section
/-!
PROOFS. Results land (O44) and one clk of a row sequencer (O45).
-/

namespace Sys2Proof.Machine

/-! ## Landings (R42, R43, R91) -/

/-- A result's place in an output queue: a new entry takes age 0 and the oldest of four goes. -/
theorem landOne_entry (c : Ctx) (f : Flight) (v : Val) (hw : f.what = .entry v) : landOne c f =
    { c with
      ctl := { c.ctl with flags := c.ctl.flags ||| f.flg }
      oq := KMap.put c.oq f.fu (⟨f.id, v, f.tag⟩ :: (c.image f.fu).take 3) } := by
  unfold landOne
  rw [hw]
  rfl

/-- What a landing leaves as it is, and where its flags go. -/
structure Landed (c t : Ctx) (f : Flight) : Prop where
  flights : t.inf.flights = c.inf.flights
  regs : t.regs = c.regs
  ctl : t.ctl = { c.ctl with flags := c.ctl.flags ||| f.flg }
  ports : t.ports = c.ports
  others : ∀ fu, fu ≠ f.fu → t.image fu = c.image fu

theorem landOne_landed (c : Ctx) (f : Flight) : Landed c (landOne c f) f := by
  unfold landOne
  split <;> exact ⟨rfl, rfl, rfl, rfl, fun fu h => KMap.get_put_other _ _ _ _ _ h⟩

theorem image_landOne_entry (c : Ctx) (f : Flight) (v : Val) (hw : f.what = .entry v) :
    (landOne c f).image f.fu = ⟨f.id, v, f.tag⟩ :: (c.image f.fu).take 3 := by
  rw [landOne_entry c f v hw]
  exact KMap.get_put_same _ _ _ _

/-- An entry once row k of result `id` has landed: the result's own tile takes the row. -/
def rowLanded (id k : Nat) (r : Row) (e : QEnt) : QEnt :=
  if e.id = id then { e with val := match e.val with | .t x => .t (tileSet x k r) | x => x } else e

theorem image_landOne_row (c : Ctx) (f : Flight) (k : Nat) (r : Row) (hw : f.what = .row k r) :
    (landOne c f).image f.fu = (c.image f.fu).map (rowLanded f.id k r) := by
  unfold landOne
  rw [hw]
  exact KMap.get_put_same _ _ _ _

/-- A context with other results in flight. -/
def withFlights (c : Ctx) (l : List Flight) : Ctx := { c with inf := { c.inf with flights := l } }

theorem landDue_eq (c : Ctx) : landDue c =
    (c.inf.flights.filter fun f => f.rem = 0).foldl landOne (withFlights c (c.inf.flights.filter fun f => f.rem ≠ 0)) := rfl

theorem filter_due_eq_nil (l : List Flight) (h : ∀ x ∈ l, x.rem ≠ 0) : (l.filter fun f => f.rem = 0) = [] :=
  List.filter_eq_nil_iff.2 fun x hx => by simpa using h x hx

theorem filter_early_eq_self (l : List Flight) (h : ∀ x ∈ l, x.rem ≠ 0) : (l.filter fun f => f.rem ≠ 0) = l :=
  List.filter_eq_self.2 fun x hx => by simpa using h x hx

/-- Only the first results are due: they land in the order of their triggers. -/
theorem landDue_of_due_prefix (c : Ctx) (due l : List Flight) (hf : c.inf.flights = due ++ l) (hdue : ∀ x ∈ due, x.rem = 0)
    (hl : ∀ x ∈ l, x.rem ≠ 0) : landDue c = due.foldl landOne (withFlights c l) := by
  have hsome : (due.filter fun f => f.rem = 0) = due := List.filter_eq_self.2 fun x hx => by simpa using hdue x hx
  have hnone : (due.filter fun f => f.rem ≠ 0) = [] := List.filter_eq_nil_iff.2 fun x hx => by simpa using hdue x hx
  rw [landDue_eq, hf, List.filter_append, List.filter_append, hsome, hnone, filter_due_eq_nil l hl,
    filter_early_eq_self l hl, List.append_nil, List.nil_append]

/-! ## The event of a landing -/

/-- Staged entries hear of the results they wait for: only BASTE's state of the context changes. -/
theorem foldl_stageLanded_frame (l : List Flight) (c : Ctx) : l.foldl (fun c f => stageLanded c f.id) c =
    { c with baste := (l.foldl (fun c f => stageLanded c f.id) c).baste } := by
  induction l generalizing c with
  | nil => rfl
  | cons f l ih => exact ih (stageLanded c f.id)

/-- A landing of a context: its due results, and what its staged entries hear of them. -/
theorem exec_resultLanding (s : State) (n : Nat) :
    ∃ b, exec (.resultLanding n) s = .next (s.setCtx n { landDue (s.ctx n) with baste := b }) :=
  ⟨_, congrArg (fun x => (.next (s.setCtx n x) : Out)) (foldl_stageLanded_frame _ _)⟩

theorem exec_resultLanding_of_none_due (s : State) (n : Nat) (h : ∀ f ∈ (s.ctx n).inf.flights, f.rem ≠ 0) :
    exec (.resultLanding n) s = .next (s.setCtx n (s.ctx n)) := by
  show execResultLanding n s = _
  unfold execResultLanding State.updCtx
  dsimp only
  rw [landDue_of_due_prefix (s.ctx n) [] _ rfl (by simp) h, filter_due_eq_nil _ h]
  rfl

/-- Settles O44: a landing is the due results in the order of their triggers (`landDue_of_due_prefix`), each by the rule of
its kind. -/
theorem resultsLand : Obligations.ResultsLand := by
  unfold Obligations.ResultsLand
  intro s n c same
  have hsame (x : Ctx) : same (s.setCtx n x) := ⟨rfl, rfl, fun m hm => State.ctx_setCtx_other s n m x hm⟩
  obtain ⟨b, hb⟩ := exec_resultLanding s n
  refine ⟨fun src fu age hs => ?_, fun hnone => ?_, fun f f' l v v' hf h0 h0' hl hfu hv hv' => ?_, fun f l hf h0 hl => ?_⟩
  · unfold consume
    rw [hs]
  · exact ⟨_, exec_resultLanding_of_none_due s n hnone, State.ctx_setCtx s n c, hsame _⟩
  · refine ⟨_, hb, hsame _, ?_⟩
    have hdue := landDue_of_due_prefix c [f, f'] l hf (by simp [h0, h0']) hl
    have himage : (landDue c).image f.fu = ⟨f'.id, v', f'.tag⟩ :: ⟨f.id, v, f.tag⟩ :: (c.image f.fu).take 2 := by
      rw [hdue, List.foldl_cons, List.foldl_cons, hfu, List.foldl_nil, image_landOne_entry _ f' v' hv', ← hfu,
        image_landOne_entry _ f v hv, List.take_succ_cons, List.take_take]
      rfl
    rw [State.ctx_setCtx]
    exact himage
  · refine ⟨_, hb, hsame _, ?_⟩
    have hdue : landDue c = landOne (withFlights c l) f := landDue_of_due_prefix c [f] l hf (by simp [h0]) hl
    obtain ⟨hflights, hregs, hctl, hports, hothers⟩ := landOne_landed (withFlights c l) f
    rw [State.ctx_setCtx, show s.ctx n = c from rfl, hdue]
    refine ⟨hflights, hregs, hctl, hports, hothers, fun v hv => ⟨image_landOne_entry _ f v hv, ?_⟩,
      fun k r hr => image_landOne_row _ f k r hr⟩
    rw [landOne_entry _ f v hv]
    rfl

/-! ## One clk of a row sequencer (R40, R41, R123, R131, R142, R186) -/

/-- A context with other sequencers running. -/
def withJobs (c : Ctx) (l : List Job) : Ctx := { c with inf := { c.inf with jobs := l } }

/-- A sequencer after the row that it is at: it goes on to the next row, or ends after row 7. -/
def rowsLeft (c : Ctx) (j : Job) : List Job :=
  if j.k < 7 then [{ j with k := j.k + 1, buf := tileSet j.buf j.k (seqRead c j.src j.k) }] else []

theorem portD_order_singleton (j : Job) : [j].filter isPortD ++ ([j].filter fun j => !isPortD j) = [j] := by
  cases h : isPortD j <;> simp [h]

theorem rowsLeft_eq (c : Ctx) (j : Job) : (([j].filter fun j => decide (j.k < 7)).map fun j =>
    { j with k := j.k + 1, buf := tileSet j.buf j.k (seqRead c j.src j.k) }) = rowsLeft c j := by
  by_cases h : j.k < 7 <;> simp [rowsLeft, h]

/-- The clk of a context's one sequencer: its row, and the rows that it has left. -/
theorem exec_tileSequencerRow (s : State) (n : Nat) (j : Job) (hj : (s.ctx n).inf.jobs = [j]) :
    exec (.tileSequencerRow n) s = .next (s.setCtx n (withJobs (jobRow (s.ctx n) (s.ctx n) j) (rowsLeft (s.ctx n) j))) := by
  show execTileSequencerRow n s = _
  unfold execTileSequencerRow State.updCtx
  dsimp only
  rw [hj, portD_order_singleton, rowsLeft_eq]
  rfl

/-- What the clk leaves: its context with the row performed, and everything else. -/
theorem tileSequencerRow_leaves (s : State) (n : Nat) (j : Job) (hj : (s.ctx n).inf.jobs = [j]) (x : Ctx)
    (hx : withJobs (jobRow (s.ctx n) (s.ctx n) j) (rowsLeft (s.ctx n) j) = x) :
    ∃ t, exec (.tileSequencerRow n) s = .next t ∧ t.ctx n = x ∧ t.mem = s.mem ∧ t.cores = s.cores ∧
      ∀ m, m ≠ n → t.ctx m = s.ctx m :=
  ⟨_, exec_tileSequencerRow s n j hj, (State.ctx_setCtx s n _).trans hx, rfl, rfl,
    fun m hm => State.ctx_setCtx_other s n m _ hm⟩

/-- A row of a tile ALU's result put in flight. -/
def rowFlying (j : Job) (fu lat : Nat) (v : Row) (flg : Flg) (c : Ctx) : Ctx :=
  { c with inf := { c.inf with flights := c.inf.flights ++ [⟨lat, fu, j.id, .row j.k v, flg, 0, false⟩] } }

theorem jobRow_ta (c : Ctx) (j : Job) (fu port : Nat) (hs : j.stage = 0) (hd : j.dst = .ta fu port) : jobRow c c j =
    rowFlying j fu 4 (taTileRow port j.fmt fu j.k (tileRow (c.portT fu 3) j.k) (seqRead c j.src j.k)).1
      (taTileRow port j.fmt fu j.k (tileRow (c.portT fu 3) j.k) (seqRead c j.src j.k)).2 c := by
  simp only [jobRow, hd, hs, ↓reduceIte]
  rfl

theorem jobRow_xpose (c : Ctx) (j : Job) (hs : j.stage = 0) (hd : j.dst = .xpose) :
    jobRow c c j = rowFlying j 13 6 (xposeRow (seqRead c j.src j.k)) 0 c := by
  simp only [jobRow, hd, hs, ↓reduceIte]
  rfl

theorem jobRow_reg (c : Ctx) (j : Job) (d : Nat) (hd : j.dst = .reg d) : jobRow c c j = c.updRegs fun x =>
    (x.setRow d j.k (seqRead c j.src j.k)).setTag (32 + 8 * d + j.k) (seqTag c j.src j.k j.tagSrc) := by
  simp only [jobRow, hd]

theorem jobRow_portD (c : Ctx) (j : Job) (fu : Nat) (hd : j.dst = .portD fu) : jobRow c c j =
    { c with
      ports := KMap.put c.ports (4 * fu + 3) (.t (tileSet (c.portT fu 3) j.k (seqRead c j.src j.k)))
      regs := c.regs.setTag (portTag fu 3 j.k) (seqTag c j.src j.k j.tagSrc) } := by
  simp only [jobRow, hd]

theorem jobRow_stt (c : Ctx) (j : Job) (a : Word) (hd : j.dst = .stt a) : jobRow c c j =
    addAccs [oneAcc j.id 3 0 (segsOf (a.toNat + 256 * j.k) 0 256) (seqRead c j.src j.k).toNat .store false
      (decide (j.k = 7))] c := by
  simp only [jobRow, hd]

/-- The bit planes of a tile are stored with its last row. -/
theorem jobRow_stp (c : Ctx) (j : Job) (a : Word) (npl half : Nat) (hd : j.dst = .stp a npl half) : jobRow c c j =
    if j.k = 7 then
      addAccs [oneAcc j.id 3 0 (planeSegs a.toNat npl half) (planeData npl (tileSet j.buf 7 (seqRead c j.src j.k))) .store
        false true] c
    else c := by
  simp only [jobRow, hd]

/-- Settles O45: the row by the rule of the sequencer's destination (`jobRow_…`). -/
theorem sequencerRows : Obligations.SequencerRows := by
  unfold Obligations.SequencerRows
  intro s n j hj hs c r tg next leaves flies
  refine ⟨fun d hd => ?_, fun fu hd => ?_, fun fu port hd => ?_, fun hd => ?_, fun a hd => ?_, fun a npl half hd hk => ?_,
    fun a npl half hd hk => ?_⟩ <;> refine tileSequencerRow_leaves s n j hj _ ?_
  · rw [jobRow_reg c j d hd]
    rfl
  · rw [jobRow_portD c j fu hd]
    rfl
  · rw [jobRow_ta c j fu port hs hd]
    rfl
  · rw [jobRow_xpose c j hs hd]
    rfl
  · rw [jobRow_stt c j a hd]
    rfl
  · rw [jobRow_stp c j a npl half hd, if_neg (Nat.ne_of_lt hk)]
    rfl
  · rw [jobRow_stp c j a npl half hd, if_pos hk]
    rfl

end Sys2Proof.Machine
end

section
/-!
PROOFS. The results of the scalar units SA0, SA1 and SM (O2).
-/

namespace Sys2Proof.Machine

/-! ## What a scalar trigger lands -/

/-- Reading a source and charging a trigger leave the latched context, from which the unit reads its ports (R38). -/
theorem iss_ctx_charged (s : State) (src : BitVec 9) (w : Nat) : (charge (consume s src) w).iss.ctx = s.iss.ctx := by simp

/-- R108: an operation of SA0 or SA1 lands its value of ports a and b and of T, at Lat 1, Int 1 and W 1. -/
theorem saTrigger_results (s : State) (i : Instr) (g : BitVec 4) (u : BitVec 1) (src : BitVec 9) (port : Nat)
    (f : Word → Word → Word → Word) {v : Word} (hi : exec i s = saTrigger port f g u src s)
    (hv : f (s.iss.ctx.portW u.toNat 0) (s.iss.ctx.portW u.toNat 1) (trigT s src) = v) :
    Results s i u.toNat port 1 1 1 g src (.s v) 0 := by
  refine completes s i u.toNat port 1 1 (s.serial + 1) _ _ _ g src _ _ hi rfl rfl ?_
  rw [iss_ctx_charged, ← hv]
  exact flyNew_charged_id s src 1 1 u.toNat _ 0

/-- R109: an operation of SM lands its value of port a and of T, with the timing of its resource (R65). -/
theorem smTrigger_results (s : State) (i : Instr) (g : BitVec 4) (src : BitVec 9) (port lat int w : Nat)
    (f : Word → Word → Word) {v : Word} (hi : exec i s = smTrigger port lat int w f g src s)
    (hv : f (s.iss.ctx.portW 2 0) (trigT s src) = v) : Results s i 2 port lat int w g src (.s v) 0 := by
  refine completes s i 2 port int w (s.serial + 1) _ _ _ g src _ _ hi rfl rfl ?_
  rw [iss_ctx_charged, ← hv]
  exact flyNew_charged_id s src w lat 2 _ 0

/-! ## Shifts and sign extension (R108) -/

theorem shAmt_lt (t : Word) : shAmt t < 64 := Nat.mod_lt _ (by norm_num)

/-- An arithmetic shift divides the signed reading, rounding down. -/
theorem saSraVal_eq (a b t : Word) : saSraVal a b t = BitVec.ofInt 64 (a.toInt / 2 ^ (t.toNat % 64)) := by
  rw [saSraVal, BitVec.sshiftRight, Int.shiftRight_eq_div_pow, Nat.cast_pow, Nat.cast_ofNat, shAmt]

theorem saRotlVal_eq (a b t : Word) : saRotlVal a b t =
    if t.toNat % 64 = 0 then a else a <<< (t.toNat % 64) ||| a >>> (64 - t.toNat % 64) := by
  rw [saRotlVal, BitVec.rotateLeft_def, shAmt, Nat.mod_mod]
  split
  · next h => rw [h, BitVec.shiftLeft_zero, BitVec.ushiftRight_eq_zero (Nat.le_refl 64), BitVec.or_zero]
  · rfl

/-- The model's sign extension is that of a vector of the low bits. -/
theorem w64_sext (m : Nat) (a : Word) : w64 (sext m 64 a.toNat) = (a.setWidth m).signExtend 64 := by
  have hsint : sint m a.toNat = (a.setWidth m).toInt := by
    rw [BitVec.toInt_eq_toNat_cond, BitVec.toNat_setWidth]
    rfl
  apply BitVec.eq_of_toNat_eq
  rw [sext, hsint, BitVec.signExtend, BitVec.toNat_ofInt, w64, BitVec.toNat_ofNat, wrap]
  omega

theorem getLsbD_saSxtVal (a b t : Word) (k : Nat) (hk : k < 64) :
    (saSxtVal a b t).getLsbD k = a.getLsbD (min k (t.toNat % 64)) := by
  rw [saSxtVal, w64_sext, BitVec.getLsbD_signExtend, decide_eq_true hk, Bool.true_and, shAmt]
  split
  · next h => rw [BitVec.getLsbD_setWidth, decide_eq_true h, Bool.true_and, min_eq_left (Nat.le_of_lt_succ h)]
  · next h =>
    rw [BitVec.msb_eq_getLsbD_last, BitVec.getLsbD_setWidth, min_eq_right (by omega), Nat.add_sub_cancel,
      decide_eq_true (Nat.lt_succ_self _), Bool.true_and]

/-! ## Comparisons (R108) -/

theorem wBool_decide (p : Prop) [Decidable p] : wBool (decide p) = if p then 1 else 0 := by
  rw [wBool]
  simp only [decide_eq_true_eq]

theorem saNeVal_eq (a b t : Word) : saNeVal a b t = if a = t then 0 else 1 := by
  rw [saNeVal, wBool_decide, ite_not]

theorem saMinVal_eq (a b t : Word) : saMinVal a b t = if a.toInt ≤ t.toInt then a else t := by
  rw [saMinVal, BitVec.slt]
  simp only [decide_eq_true_eq, ← Int.not_le, ite_not]

theorem saMinuVal_eq (a b t : Word) : saMinuVal a b t = if a.toNat ≤ t.toNat then a else t := by
  rw [saMinuVal, BitVec.ult]
  simp only [decide_eq_true_eq, ← Nat.not_le, ite_not]

theorem saMaxVal_eq (a b t : Word) : saMaxVal a b t = if t.toInt ≤ a.toInt then a else t := by
  rw [saMaxVal, BitVec.slt]
  simp only [decide_eq_true_eq, ← Int.not_le, ite_not]

theorem saMaxuVal_eq (a b t : Word) : saMaxuVal a b t = if t.toNat ≤ a.toNat then a else t := by
  rw [saMaxuVal, BitVec.ult]
  simp only [decide_eq_true_eq, ← Nat.not_le, ite_not]

/-! ## Counts of bits (R108) -/

/-- As many of the highest bits are 0, and the next one, if any is left, is 1. -/
theorem clz64_spec (t : Word) : clz64 t ≤ 64 ∧ (∀ k, 64 - clz64 t ≤ k → t.getLsbD k = false) ∧
    (clz64 t < 64 → t.getLsbD (63 - clz64 t) = true) := by
  unfold clz64
  split
  · next h =>
    subst h
    exact ⟨le_rfl, fun k _ => BitVec.getLsbD_zero, fun h => absurd h (lt_irrefl 64)⟩
  · next h =>
    have hne : t.toNat ≠ 0 := fun e => h (BitVec.eq_of_toNat_eq e)
    have hlog : Nat.log2 t.toNat < 64 := (Nat.log2_lt hne).2 t.isLt
    refine ⟨by omega, fun k hk => ?_, fun _ => ?_⟩
    · rw [← BitVec.testBit_toNat]
      exact Nat.testBit_lt_two_pow ((Nat.log2_lt hne).1 (by omega))
    · rw [← BitVec.testBit_toNat, show 63 - (63 - Nat.log2 t.toNat) = Nat.log2 t.toNat by omega]
      exact Nat.testBit_log2 hne

/-- The search from bit i up over n bits ends at the first 1, or past the last bit. -/
theorem ctzFrom_spec (t n i : Nat) : i ≤ ctzFrom t n i ∧ ctzFrom t n i ≤ i + n ∧
    (∀ k, i ≤ k → k < ctzFrom t n i → t.testBit k = false) ∧
    (ctzFrom t n i < i + n → t.testBit (ctzFrom t n i) = true) := by
  induction n generalizing i with
  | zero => exact ⟨le_rfl, le_rfl, fun k hi hk => absurd hk (Nat.not_lt.2 hi), fun h => absurd h (lt_irrefl i)⟩
  | succ n ih =>
    rw [ctzFrom]
    split
    · next h => exact ⟨le_rfl, by omega, fun k hi hk => absurd hk (Nat.not_lt.2 hi), fun _ => h⟩
    · next h =>
      obtain ⟨hlow, hhigh, hzero, hone⟩ := ih (i + 1)
      refine ⟨by omega, by omega, fun k hi hk => ?_, fun hlt => hone (by omega)⟩
      rcases Nat.eq_or_lt_of_le hi with rfl | hi
      · exact Bool.eq_false_iff.2 h
      · exact hzero k hi hk

/-- As many of the lowest bits are 0, and the next one, if any is left, is 1. -/
theorem ctz64_spec (t : Word) : ctz64 t ≤ 64 ∧ (∀ k, k < ctz64 t → t.getLsbD k = false) ∧
    (ctz64 t < 64 → t.getLsbD (ctz64 t) = true) := by
  obtain ⟨-, hhigh, hzero, hone⟩ := ctzFrom_spec t.toNat 64 0
  simp only [← BitVec.testBit_toNat]
  exact ⟨hhigh, fun k => hzero k (Nat.zero_le k), hone⟩

theorem popCount_eq_countP (v n : Nat) : popCount v n = (List.range n).countP v.testBit := by
  induction n with
  | zero => rfl
  | succ n ih =>
    rw [popCount, ih, List.range_succ, List.countP_append, List.countP_singleton, Nat.add_comm]

theorem saPopcVal_eq (a b t : Word) : saPopcVal a b t = BitVec.ofNat 64 ((List.range 64).countP fun k => t.getLsbD k) := by
  rw [saPopcVal, popCount_eq_countP]
  rfl

/-! ## Products, quotients and remainders (R109) -/

theorem smMulhVal_eq (a t : Word) : smMulhVal a t = BitVec.ofInt 64 (Int.fdiv (a.toInt * t.toInt) (2 ^ 64)) := by
  rw [smMulhVal, Int.fdiv_eq_ediv_of_nonneg _ (by positivity)]

/-- The one signed quotient out of range, -2^63 / -1, needs no case in the model: modulo 2^64 it is -2^63. -/
theorem smDivVal_eq (a t : Word) : smDivVal a t = if t = 0 then BitVec.allOnes 64
    else if a.toInt = -(2 ^ 63) ∧ t.toInt = -1 then BitVec.ofInt 64 (-(2 ^ 63))
    else BitVec.ofInt 64 (Int.tdiv a.toInt t.toInt) := by
  rw [smDivVal]
  split
  · rfl
  · split
    · next h =>
      obtain ⟨ha, ht⟩ := h
      rw [ha, ht]
      rfl
    · rfl

theorem smRemVal_eq (a t : Word) : smRemVal a t = if t = 0 then a
    else if a.toInt = -(2 ^ 63) ∧ t.toInt = -1 then 0
    else BitVec.ofInt 64 (a.toInt - t.toInt * Int.tdiv a.toInt t.toInt) := by
  rw [smRemVal]
  split
  · rfl
  · split
    · next h =>
      obtain ⟨ha, ht⟩ := h
      rw [ha, ht]
      rfl
    · rw [Int.tmod_def]

theorem smRemuVal_eq (a t : Word) : smRemuVal a t =
    if t = 0 then a else BitVec.ofNat 64 (a.toNat - t.toNat * (a.toNat / t.toNat)) := by
  rw [smRemuVal, Nat.mod_eq_sub]
  rfl

/-! ## The obligation -/

/-- Settles O2: each operation is one trigger of its unit (`saTrigger_results`, `smTrigger_results`), whose value is the
rule's. -/
theorem scalarUnitResults : Obligations.ScalarUnitResults := by
  unfold Obligations.ScalarUnitResults
  refine ⟨fun s g u src => ?_, fun s g src => ?_⟩
  · intro a b T n lands
    have sa {i : Instr} {port : Nat} {f : Word → Word → Word → Word} {v : Word}
        (hi : exec i s = saTrigger port f g u src s) (hv : f a b T = v) : lands i port v :=
      saTrigger_results s i g u src port f hi hv
    obtain ⟨hclz, hclz0, hclz1⟩ := clz64_spec T
    obtain ⟨hctz, hctz0, hctz1⟩ := ctz64_spec T
    have hn : n < 64 := shAmt_lt T
    have hlow (k : Nat) (hk : k ≤ n) : (saSxtVal a b T).getLsbD k = a.getLsbD k := by
      rw [getLsbD_saSxtVal a b T k (by omega), min_eq_left hk]
    have hhigh (k : Nat) (hk : n < k) (h64 : k < 64) : (saSxtVal a b T).getLsbD k = a.getLsbD n := by
      rw [getLsbD_saSxtVal a b T k h64, min_eq_right hk.le]
    exact ⟨sa rfl rfl, sa rfl rfl, sa rfl rfl, sa rfl rfl, sa rfl rfl, sa rfl rfl, sa rfl rfl, sa rfl rfl,
      sa rfl (saSraVal_eq a b T), sa rfl (saRotlVal_eq a b T), sa rfl (wBool_decide _), sa rfl (saNeVal_eq a b T),
      sa rfl (wBool_decide _), sa rfl (wBool_decide _), sa rfl (wBool_decide _), sa rfl (wBool_decide _),
      sa rfl (saMinVal_eq a b T), sa rfl (saMinuVal_eq a b T), sa rfl (saMaxVal_eq a b T), sa rfl (saMaxuVal_eq a b T),
      sa rfl rfl, ⟨clz64 T, hclz, hclz0, hclz1, sa rfl rfl⟩, ⟨ctz64 T, hctz, hctz0, hctz1, sa rfl rfl⟩,
      sa rfl (saPopcVal_eq a b T), ⟨saSxtVal a b T, hlow, hhigh, sa rfl rfl⟩, sa rfl rfl⟩
  · intro a T mul div
    have sm {i : Instr} {port lat int w : Nat} {f : Word → Word → Word} {v : Word}
        (hi : exec i s = smTrigger port lat int w f g src s) (hv : f a T = v) :
        Results s i 2 port lat int w g src (.s v) 0 :=
      smTrigger_results s i g src port lat int w f hi hv
    exact ⟨sm rfl rfl, sm rfl (smMulhVal_eq a T), sm rfl rfl, sm rfl (smDivVal_eq a T), sm rfl rfl,
      sm rfl (smRemVal_eq a T), sm rfl (smRemuVal_eq a T)⟩

end Sys2Proof.Machine
end

section
/-!
PROOFS. The control registers that CX reads, FLAGS, and FMT with its shadow (O8, O11).
-/

namespace Sys2Proof.Machine

/-! ## cx.rd and cx.flg (R117, R91) -/

theorem exec_cxRd (s : State) (g : BitVec 4) (src : BitVec 9) : exec (.cxRd g src) s =
    trigger 5 4 1 1 false [] [numberNote (trigT s src)] g src
      (fun v s => flyNew s 2 5 (.s (ctlRead s s.iss.n s.iss.ctx s.iss.core v.word.toNat)) 0 0) s := rfl

theorem exec_cxFlg (s : State) (g : BitVec 4) (src : BitVec 9) : exec (.cxFlg g src) s =
    trigger 5 7 1 1 false [] [] g src (fun v s =>
      flyNew (onCtx (fun c => c.updCtl fun l => { l with flags := l.flags &&& ~~~(v.word.setWidth 6) }) s) 1 5
        (.s (s.iss.ctx.ctl.flags.setWidth 64)) 0 0) s := rfl

theorem firstNote_numberNote (t : Word) :
    firstNote [numberNote t] = if 34 < t.toNat then .trap 5 0x06 t else .quiet := by
  rw [numberNote, firstNote_trapIf]
  simp only [decide_eq_true_eq]
  rfl

/-- A control register's value depends on its context, its core and the module number of CTXID alone (R107). -/
theorem ctlRead_of_mgmt (s t : State) (n : Nat) (c : Ctx) (k : Core) (no : Nat) (h : t.mgmt = s.mgmt) :
    ctlRead t n c k no = ctlRead s n c k no := by
  unfold ctlRead ctxid
  rw [h]

/-- Reading a source and charging a trigger leave what `cx.rd` answers: it reads the latched context and core. -/
theorem ctlRead_charged (s : State) (src : BitVec 9) (w no : Nat) :
    (let t := charge (consume s src) w
     ctlRead t t.iss.n t.iss.ctx t.iss.core no) = ctlRead s s.iss.n s.iss.ctx s.iss.core no := by
  have hmgmt : (charge (consume s src) w).mgmt = s.mgmt := by rw [charge_mgmt, consume_rest]
  simp only [charge_iss, consume_iss]
  exact ctlRead_of_mgmt s _ _ _ _ _ hmgmt

theorem cxRd_results (s : State) (g : BitVec 4) (src : BitVec 9) (h : (trigT s src).toNat ≤ 34) :
    Results s (.cxRd g src) 5 4 2 1 1 g src
      (.s (ctlRead s s.iss.n s.iss.ctx s.iss.core (trigT s src).toNat)) 0 := by
  refine completes s _ 5 4 1 1 (s.serial + 1) _ _ _ g src _ _ (exec_cxRd s g src) rfl ?_ ?_
  · rw [firstNote_numberNote, if_neg (Nat.not_lt.2 h)]
  · rw [← ctlRead_charged s src 1]
    exact flyNew_charged_id s src 1 2 5 _ 0

theorem cxRd_traps (s : State) (g : BitVec 4) (src : BitVec 9) (h : 34 < (trigT s src).toNat)
    (hr : Ready s 5 4 false g src) : Traps s (.cxRd g src) 0x06 (trigT s src) := by
  refine traps s _ 5 4 1 1 _ [] _ g src _ 5 0x06 _ (exec_cxRd s g src) hr ?_
  rw [List.nil_append, firstNote_numberNote, if_pos h]

theorem cxFlg_completes (s : State) (g : BitVec 4) (src : BitVec 9) :
    Completes s (.cxFlg g src) 5 7 1 1 false g src fun c => landing s 1 5 (.s (s.iss.ctx.ctl.flags.setWidth 64)) 0
      { c with ctl := { c.ctl with flags := c.ctl.flags &&& ~~~((trigT s src).setWidth 6) } } := by
  refine completes s _ 5 7 1 1 (s.serial + 1) _ _ _ g src _ _ (exec_cxFlg s g src) rfl rfl ?_
  rw [iss_ctx_charged]
  exact flyNew_charged s src 1 1 5 _ 0 _

/-- Settles O8: `cx.rd` by whether its number is above 34, and `cx.flg`, which meets no check of its own. -/
theorem controlReads : Obligations.ControlReads := by
  unfold Obligations.ControlReads
  exact fun s g src => ⟨cxRd_results s g src, cxRd_traps s g src, cxFlg_completes s g src⟩

/-! ## cx.fmt (R88, R119) -/

theorem exec_cxFmt (s : State) (g : BitVec 4) (src : BitVec 9) : exec (.cxFmt g src) s =
    trigger 5 6 1 1 false [] [trapFlt (ctlRefuse s.iss.core 0 (trigT s src))] g src
      (fun v => onCtx fun c => writeFmt c v.word) s := rfl

theorem fmtRM_eq (v : Word) : fmtRM v = (v.extractLsb' 0 3).toNat := by
  rw [fmtRM, fld_zero, BitVec.extractLsb'_toNat, Nat.shiftRight_zero]

/-- The RM check of R88: 5 to 7 are reserved. -/
theorem firstNote_fmtRefuse (k : Core) (v : Word) : firstNote [trapFlt (ctlRefuse k 0 v)] =
    if 5 ≤ (v.extractLsb' 0 3).toNat then .trap 5 0x05 ((v.extractLsb' 0 3).setWidth 64) else .quiet := by
  rw [ctlRefuse, fmtRM_eq, w64, BitVec.ofNat_toNat]
  split <;> rfl

theorem cxFmt_completes (s : State) (g : BitVec 4) (src : BitVec 9)
    (h : ((trigT s src).extractLsb' 0 3).toNat < 5) :
    Completes s (.cxFmt g src) 5 6 1 1 false g src fun c => writeFmt c (trigT s src) := by
  refine completes s _ 5 6 1 1 _ _ _ _ g src _ _ (exec_cxFmt s g src) rfl ?_ (onCtx_charged s src 1 _)
  rw [firstNote_fmtRefuse, if_neg (Nat.not_le.2 h)]

theorem cxFmt_traps (s : State) (g : BitVec 4) (src : BitVec 9) (h : 5 ≤ ((trigT s src).extractLsb' 0 3).toNat)
    (hr : Ready s 5 6 false g src) :
    Traps s (.cxFmt g src) 0x05 (((trigT s src).extractLsb' 0 3).setWidth 64) := by
  refine traps s _ 5 6 1 1 _ [] _ g src _ 5 0x05 _ (exec_cxFmt s g src) hr ?_
  rw [List.nil_append, firstNote_fmtRefuse, if_pos h]

theorem fmtDue_eq (c : Ctx) : fmtDue c = { c with inf := { c.inf with
    fmtEff := ((c.inf.fmtPend.filter fun p => decide (p.1 = 0)).getLast?.map (·.2)).getD c.inf.fmtEff
    fmtPend := c.inf.fmtPend.filter fun p => decide (p.1 ≠ 0) } } := rfl

/-- Of the writes whose shadow has ended, the last governs; the others wait on. -/
theorem fmtDue_of_last_due (c : Ctx) (l r : List (Nat × Word)) (v : Word) (hp : c.inf.fmtPend = l ++ (0, v) :: r)
    (hr : ∀ p ∈ r, p.1 ≠ 0) : fmtDue c =
      { c with inf := { c.inf with fmtEff := v, fmtPend := (l.filter fun p => decide (p.1 ≠ 0)) ++ r } } := by
  have hlater : (r.filter fun p => decide (p.1 = 0)) = [] := List.filter_eq_nil_iff.2 (by simpa using hr)
  have hwaits : (r.filter fun p => decide (p.1 ≠ 0)) = r := List.filter_eq_self.2 (by simpa using hr)
  have hlast : (c.inf.fmtPend.filter fun p => decide (p.1 = 0)).getLast? = some (0, v) := by
    rw [hp, List.filter_append, List.filter_cons_of_pos (by simp), hlater, List.getLast?_concat]
  have hkept : (c.inf.fmtPend.filter fun p => decide (p.1 ≠ 0)) = (l.filter fun p => decide (p.1 ≠ 0)) ++ r := by
    rw [hp, List.filter_append, List.filter_cons_of_neg (by simp), hwaits]
  rw [fmtDue_eq, hlast, hkept]
  rfl

/-- Settles O11: `cx.fmt` by whether its rounding mode is reserved; the shadow's end by the last write that is due. -/
theorem fmtShadow : Obligations.FmtShadow := by
  unfold Obligations.FmtShadow
  refine ⟨fun s g src => ⟨cxFmt_completes s g src, cxFmt_traps s g src⟩, fun s n l r v hp hr => ?_⟩
  exact ⟨_, rfl, congrArg (s.setCtx n) (fmtDue_of_last_due (s.ctx n) l r v hp hr)⟩

end Sys2Proof.Machine
end

section
/-!
PROOFS. The words that the atomics write (O23).
-/

namespace Sys2Proof.Machine

/-! ## The saturating sum of AI64 (R94) -/

theorem ai64Sat_of_above (x : Int) (h : 2 ^ 63 ≤ x) : ai64Sat x = (0x7FFFFFFFFFFFFFFF, 0x24) := by
  rw [ai64Sat, if_pos (by omega)]
  rfl

theorem ai64Sat_of_below (x : Int) (h : x < -2 ^ 63) : ai64Sat x = (0x8000000000000000, 0x24) := by
  rw [ai64Sat, if_neg (by omega), if_pos h]
  rfl

theorem ai64Sat_of_fits (x : Int) (hlow : -2 ^ 63 ≤ x) (hhigh : x < 2 ^ 63) : ai64Sat x = (BitVec.ofInt 64 x, 0) := by
  rw [ai64Sat, if_neg (by omega), if_neg (by omega)]

/-! ## The atomics (R194) -/

/-- The ordered choices of the atomics, under either reading of a word. -/
theorem apply_ite_lt_eq_min {β : Type} [LinearOrder β] (f : Word → β) (a b : Word) :
    f (if f b < f a then b else a) = min (f a) (f b) := by
  rw [apply_ite f, min_comm, min_def_lt]

theorem apply_ite_lt_eq_max {β : Type} [LinearOrder β] (f : Word → β) (a b : Word) :
    f (if f a < f b then b else a) = max (f a) (f b) := by
  rw [apply_ite f, max_def_lt]

theorem atomicOp_cas (old cmp arg : Word) : atomicOp 5 old cmp arg = (if old = cmp then some arg else none, 0) := rfl

theorem atomicOp_aaddx (old cmp arg : Word) : atomicOp 14 old cmp arg =
    (some (ai64Sat (old.toInt + arg.toInt)).1, (ai64Sat (old.toInt + arg.toInt)).2) := rfl

/-- Settles O23: swap, sum and bitwise results by definition; `at.cas` by its comparison; the minima and maxima by the
reading of the word that orders them; `at.aaddx` by where the exact sum lies. -/
theorem atomicResults : Obligations.AtomicResults := by
  unfold Obligations.AtomicResults
  intro old cmp arg
  refine ⟨rfl, ?_, fun hne => ?_, rfl, rfl, rfl, rfl, ⟨_, rfl, apply_ite_lt_eq_min BitVec.toInt old arg⟩,
    ⟨_, rfl, apply_ite_lt_eq_max BitVec.toInt old arg⟩, ⟨_, rfl, apply_ite_lt_eq_min BitVec.toNat old arg⟩,
    ⟨_, rfl, apply_ite_lt_eq_max BitVec.toNat old arg⟩, fun hlow hhigh => ?_, fun h => ?_, fun h => ?_⟩
  · rw [atomicOp_cas, if_pos rfl]
  · rw [atomicOp_cas, if_neg hne]
  · refine ⟨BitVec.ofInt 64 (old.toInt + arg.toInt), ?_, BitVec.toInt_ofInt_eq_self (by norm_num) hlow hhigh⟩
    rw [atomicOp_aaddx, ai64Sat_of_fits _ hlow hhigh]
  · rw [atomicOp_aaddx, ai64Sat_of_above _ h]
  · rw [atomicOp_aaddx, ai64Sat_of_below _ h]

end Sys2Proof.Machine
end

section
/-!
PROOFS. The branch unit BR, the loop unit LP and the back-edge action (O5, O6, O7).
-/

namespace Sys2Proof.Machine

/-! ## A trigger that checks a target (R113, R114) -/

theorem firstNote_targetNote (s : State) (a : Word) :
    firstNote [targetNote s a] = if inCode s s.iss.n a = true then .quiet else .trap 5 0x07 a := by
  rw [targetNote, firstNote_trapIf]
  cases inCode s s.iss.n a <;> rfl

/-- A trigger whose one check is its target's has its effect where the target lies in the code region, and traps with it
elsewhere. -/
theorem targeted (s : State) (i : Instr) (fu port k : Nat) (a : Word) (g : BitVec 4) (src : BitVec 9)
    (eff : Val → State → State) (f : Ctx → Ctx)
    (hi : exec i s = trigger fu port 1 1 false [] [targetNote s a] g src eff s)
    (he : eff (readCode s src) (charge (consume s src) 1) = ((charge (consume s src) 1).ser k).updCtx s.iss.n f) :
    (inCode s s.iss.n a = true → Completes s i fu port 1 1 false g src f) ∧
    (inCode s s.iss.n a = false → Ready s fu port false g src → Traps s i 0x07 a) := by
  have hchk := firstNote_targetNote s a
  refine ⟨fun hin => ?_, fun hout hr => ?_⟩
  · rw [if_pos hin] at hchk
    exact completes s i fu port 1 1 k _ _ _ g src _ f hi rfl hchk he
  · rw [if_neg (Bool.eq_false_iff.1 hout)] at hchk
    exact traps s i fu port 1 1 _ [] _ g src _ 5 0x07 a hi hr hchk

/-! ## Branches (R111-R113) -/

theorem exec_brJmp (s : State) (g : BitVec 4) (src : BitVec 9) : exec (.brJmp g src) s =
    trigger 3 4 1 1 false [] [targetNote s (trigT s src)] g src (fun v s => takeBranch v.word s) s := rfl

theorem exec_brCall (s : State) (g : BitVec 4) (src : BitVec 9) : exec (.brCall g src) s =
    trigger 3 5 1 1 false [] [targetNote s (trigT s src)] g src
      (fun v s => flyNew (takeBranch v.word s) 2 3 (.s (s.iss.pc + 64)) 0 0) s := rfl

theorem exec_brRet (s : State) (g : BitVec 4) (src : BitVec 9) : exec (.brRet g src) s =
    trigger 3 6 1 1 false [] [targetNote s (trigT s src)] g src (fun v s => takeBranch v.word s) s := rfl

theorem exec_brJrel (s : State) (g : BitVec 4) (src : BitVec 9) : exec (.brJrel g src) s =
    trigger 3 7 1 1 false [] [targetNote s (s.iss.pc + 32 * trigT s src)] g src
      (fun v s => takeBranch (s.iss.pc + 32 * v.word) s) s := rfl

theorem iss_pc_charged (s : State) (src : BitVec 9) (w : Nat) : (charge (consume s src) w).iss.pc = s.iss.pc := by simp

theorem takeBranch_charged (s : State) (src : BitVec 9) (a : Word) :
    takeBranch a (charge (consume s src) 1) =
      ((charge (consume s src) 1).ser (charge (consume s src) 1).serial).updCtx s.iss.n fun c => { c with npc := some a } :=
  onCtx_charged s src 1 _

/-- The link value of a call is formed from the latched PCb. -/
theorem brCall_charged (s : State) (src : BitVec 9) (a : Word) :
    flyNew (takeBranch a (charge (consume s src) 1)) 2 3 (.s ((charge (consume s src) 1).iss.pc + 64)) 0 0 =
      ((charge (consume s src) 1).ser (s.serial + 1)).updCtx s.iss.n
        fun c => landing s 2 3 (.s (s.iss.pc + 64)) 0 { c with npc := some a } := by
  rw [iss_pc_charged]
  exact flyNew_charged s src 1 2 3 _ 0 _

theorem brJrel_charged (s : State) (src : BitVec 9) (a : Word) :
    takeBranch ((charge (consume s src) 1).iss.pc + 32 * a) (charge (consume s src) 1) =
      ((charge (consume s src) 1).ser (charge (consume s src) 1).serial).updCtx s.iss.n
        fun c => { c with npc := some (s.iss.pc + 32 * a) } := by
  rw [iss_pc_charged]
  exact takeBranch_charged s src _

/-- Settles O5: each branch is a trigger that checks its target; a call also lands its link value. -/
theorem branchesTaken : Obligations.BranchesTaken := by
  unfold Obligations.BranchesTaken
  refine fun s g src => ⟨?_, ?_, ?_, ?_⟩
  · exact targeted s _ 3 4 _ _ g src _ _ (exec_brJmp s g src) (takeBranch_charged s src _)
  · exact targeted s _ 3 5 _ _ g src _ _ (exec_brCall s g src) (brCall_charged s src _)
  · exact targeted s _ 3 6 _ _ g src _ _ (exec_brRet s g src) (takeBranch_charged s src _)
  · exact targeted s _ 3 7 _ _ g src _ _ (exec_brJrel s g src) (brJrel_charged s src _)

/-! ## The loop unit (R114) -/

theorem exec_lpLoop (s : State) (g : BitVec 4) (src : BitVec 9) : exec (.lpLoop g src) s =
    trigger 4 4 1 1 false [] [targetNote s (trigT s src)] g src (fun v s =>
      onCtx (fun c => c.updCtl fun l =>
        { l with
          lpcnt := (s.iss.ctx.portW 4 0).setWidth 32, lpstart := v.word.extractLsb' 5 18, lpbrk := false }) s) s := rfl

theorem exec_lpBrk (s : State) (g : BitVec 4) (src : BitVec 9) : exec (.lpBrk g src) s =
    trigger 4 5 1 1 false [] [] g src (fun _ s =>
      if hdrLend s.iss.hdr then s else onCtx (fun c => c.updCtl fun l => { l with lpbrk := true }) s) s := rfl

theorem exec_lpCnt (s : State) (g : BitVec 4) (src : BitVec 9) : exec (.lpCnt g src) s =
    trigger 4 6 1 1 false [] [] g src
      (fun _ s => flyNew s 1 4 (.s (s.iss.ctx.ctl.lpcnt.setWidth 64)) 0 0) s := rfl

theorem lpLoop_charged (s : State) (src : BitVec 9) (a : Word) :
    onCtx (fun c => c.updCtl fun l => { l with
      lpcnt := ((charge (consume s src) 1).iss.ctx.portW 4 0).setWidth 32
      lpstart := a.extractLsb' 5 18, lpbrk := false }) (charge (consume s src) 1) =
    ((charge (consume s src) 1).ser (charge (consume s src) 1).serial).updCtx s.iss.n fun c => { c with ctl :=
      { c.ctl with lpcnt := (s.iss.ctx.portW 4 0).setWidth 32, lpstart := a.extractLsb' 5 18, lpbrk := false } } := by
  rw [iss_ctx_charged]
  exact onCtx_charged s src 1 _

/-- A trigger with quiet checks whose effect is nothing holds its unit alone. -/
theorem completes_idle (s : State) (i : Instr) (fu port int w : Nat) (cb : Bool) (blk chk : List Note) (g : BitVec 4)
    (src : BitVec 9) (eff : Val → State → State) (h : exec i s = trigger fu port int w cb blk chk g src eff s)
    (hb : firstNote blk = .quiet) (hc : firstNote chk = .quiet)
    (he : eff (readCode s src) (charge (consume s src) w) = charge (consume s src) w) :
    Completes s i fu port int w cb g src id := by
  intro hr
  refine ⟨_, h.trans (trigger_quiet s _ _ _ _ _ _ _ _ _ _ hr hb hc), ?_⟩
  dsimp only
  rw [he, charged_n]
  have hdid := did_effect s fu port int w (charge (consume s src) w).serial src id
  rwa [State.updCtx_updCtx] at hdid

/-- R114, R115: `lp.brk` sets BRK, but not in a LEND bundle, whose back-edge action has consumed it. -/
theorem lpBrk_completes (s : State) (g : BitVec 4) (src : BitVec 9) :
    Completes s (.lpBrk g src) 4 5 1 1 false g src fun c =>
      if hdrLend s.iss.hdr then c else { c with ctl := { c.ctl with lpbrk := true } } := by
  have hhdr : (charge (consume s src) 1).iss.hdr = s.iss.hdr := by simp
  by_cases hlend : hdrLend s.iss.hdr = true
  · simp only [if_pos hlend]
    refine completes_idle s _ 4 5 1 1 _ _ _ g src _ (exec_lpBrk s g src) rfl rfl ?_
    rw [hhdr, if_pos hlend]
  · simp only [if_neg hlend]
    refine completes s _ 4 5 1 1 (charge (consume s src) 1).serial _ _ _ g src _ _ (exec_lpBrk s g src) rfl rfl ?_
    rw [hhdr, if_neg hlend]
    exact onCtx_charged s src 1 _

theorem lpCnt_results (s : State) (g : BitVec 4) (src : BitVec 9) :
    Results s (.lpCnt g src) 4 6 1 1 1 g src (.s (s.iss.ctx.ctl.lpcnt.setWidth 64)) 0 := by
  refine completes s _ 4 6 1 1 (s.serial + 1) _ _ _ g src _ _ (exec_lpCnt s g src) rfl rfl ?_
  rw [iss_ctx_charged]
  exact flyNew_charged_id s src 1 1 4 _ 0

/-- Settles O6: `lp.loop` checks its target as a branch does, `lp.brk` by whether its bundle has LEND, and `lp.cnt`. -/
theorem loopUnit : Obligations.LoopUnit := by
  unfold Obligations.LoopUnit
  intro s g src
  obtain ⟨hloop, htrap⟩ := targeted s _ 4 4 _ _ g src _ _ (exec_lpLoop s g src) (lpLoop_charged s src _)
  exact ⟨hloop, htrap, lpBrk_completes s g src, lpCnt_results s g src⟩

/-! ## The back-edge action (R115) -/

/-- The back-edge action of the bundle in the latch writes LPCNT, LPLEN and BRK. -/
theorem exec_backEdgeAction (s : State) (hlend : hdrLend s.iss.hdr = true) : exec (.backEdgeAction s.iss.n) s =
    if (backTaken s.iss.ctx (bundleBrk s) && loopBad s.iss.ctx s.iss.core s.iss.pc) = true then
      .next (raiseNote { s with free := s.free + 1 } (.trap 5 0x08 (unstated s)))
    else
      let l := (backEdge s.iss.ctx s.iss.pc (bundleBrk s)).ctl
      let c := s.ctx s.iss.n
      .next (s.setCtx s.iss.n { c with ctl := { c.ctl with lpcnt := l.lpcnt, lplen := l.lplen, lpbrk := l.lpbrk } }) := by
  show execBackEdgeAction s.iss.n s = _
  rw [execBackEdgeAction]
  dsimp only
  rw [if_pos ⟨rfl, hlend⟩]
  rfl

theorem backTaken_iff (c : Ctx) (brk : Bool) :
    backTaken c brk = true ↔ 1 < c.ctl.lpcnt.toNat ∧ (c.ctl.lpbrk || brk) = false := by
  rw [backTaken, Bool.and_eq_true, decide_eq_true_eq, Bool.not_eq_true']

theorem loopBad_iff (c : Ctx) (k : Core) (pcb : Word) : loopBad c k pcb = true ↔
    pcb.toNat < 32 * c.ctl.lpstart.toNat ∨ (k.limit.toNat : Int) < loopLen c pcb := by
  rw [loopBad, Bool.or_eq_true, decide_eq_true_eq, decide_eq_true_eq, gt_iff_lt]

theorem backEdge_of_taken (c : Ctx) (pcb : Word) (brk : Bool) (h : backTaken c brk = true) : (backEdge c pcb brk).ctl =
    { c.ctl with lpcnt := c.ctl.lpcnt - 1, lplen := BitVec.ofInt 14 (loopLen c pcb) } := by
  rw [backEdge, Ctx.updCtl, if_pos h]

theorem backEdge_of_not_taken (c : Ctx) (pcb : Word) (brk : Bool) (h : backTaken c brk = false) :
    (backEdge c pcb brk).ctl = { c.ctl with lpcnt := 0, lpbrk := false } := by
  rw [backEdge, Ctx.updCtl, h]
  rfl

theorem nextPc_lend (c : Ctx) (pcb : Word) (brk : Bool) :
    nextPc c pcb true brk = c.npc.getD (if backTaken c brk = true then loopStart c else pcb + 32) := by
  rw [nextPc, Bool.true_and]
  cases c.npc <;> rfl

/-- Settles O7: the back edge is taken with a body in range, is taken with one out of range, or is not taken. (The model's
function has the name `backEdge`.) -/
theorem loopBackEdge : Obligations.BackEdge := by
  unfold Obligations.BackEdge
  rintro s _ rfl hlend
  intro l brk start len leaves
  have hexec := exec_backEdgeAction s hlend
  have hlen : loopLen s.iss.ctx s.iss.pc = len := by simp [loopLen, len, start, l]
  have hbad := loopBad_iff s.iss.ctx s.iss.core s.iss.pc
  rw [hlen] at hbad
  refine ⟨fun hcnt hbrk hstart hlim => ?_, fun hcnt hbrk hout => ?_, fun hends => ?_⟩
  · have htaken := (backTaken_iff s.iss.ctx (bundleBrk s)).2 ⟨hcnt, hbrk⟩
    have hgood : loopBad s.iss.ctx s.iss.core s.iss.pc = false := by
      rw [← Bool.not_eq_true, hbad]
      exact not_or.2 ⟨Nat.not_lt.2 hstart, Int.not_lt.2 hlim⟩
    have hnobrk : l.lpbrk = false := (Bool.or_eq_false_iff.1 hbrk).1
    rw [hgood, Bool.and_false, backEdge_of_taken _ _ _ htaken, hlen] at hexec
    refine ⟨⟨_, hexec, ?_⟩, ?_⟩
    · rw [← hnobrk]
    · rw [nextPc_lend, if_pos htaken]
      rfl
  · have htaken := (backTaken_iff s.iss.ctx (bundleBrk s)).2 ⟨hcnt, hbrk⟩
    rw [htaken, hbad.2 hout] at hexec
    exact ⟨unstated s, 5, hexec⟩
  · have hleft : backTaken s.iss.ctx (bundleBrk s) = false := by
      rw [← Bool.not_eq_true, backTaken_iff]
      rintro ⟨hcnt, hnobrk⟩
      rcases hends with hcnt' | hbrk
      · exact Nat.not_lt.2 hcnt' hcnt
      · exact Bool.false_ne_true (hnobrk.symm.trans hbrk)
    rw [hleft, Bool.false_and, backEdge_of_not_taken _ _ _ hleft] at hexec
    refine ⟨⟨_, hexec, rfl⟩, ?_⟩
    rw [nextPc_lend, hleft]
    rfl

end Sys2Proof.Machine
end

section
/-!
PROOFS. Writes of control registers, and what they read as afterwards (O9, O10).
-/

namespace Sys2Proof.Machine

/-! ## cx.wr (R118, R420) -/

/-- A context that may write control register `no` (R105, R420). -/
def MayWriteCtl (c : Ctx) (no : Nat) : Prop :=
  ctlPriv no = true → c.ctl.priv = true ∧ (limitedPriv c = false ∨ (22 ≤ no ∧ no ≤ 24))

/-- The checks of `cx.wr` in their order. -/
def cxWrChecks (s : State) (t : Word) : List Note :=
  [numberNote t, ctlPrivNote s t, trapFlt (ctlRefuse s.iss.core t.toNat (s.iss.ctx.portW 5 0))]

theorem exec_cxWr (s : State) (g : BitVec 4) (src : BitVec 9) : exec (.cxWr g src) s =
    trigger 5 5 1 1 false [] (cxWrChecks s (trigT s src)) g src
      (fun v s => ctlWrite s s.iss.n v.word.toNat (s.iss.ctx.portW 5 0)) s := rfl

theorem mayWriteCtl_iff (c : Ctx) (no : Nat) : MayWriteCtl c no ↔
    (ctlPriv no && (!c.ctl.priv || (limitedPriv c && !(22 ≤ no && no ≤ 24)))) = false := by
  rw [MayWriteCtl]
  cases ctlPriv no
  · simp
  · cases c.ctl.priv <;> cases limitedPriv c <;> simp

theorem ctlPrivNote_of_may (s : State) (t : Word) (h : MayWriteCtl s.iss.ctx t.toNat) : ctlPrivNote s t = .quiet := by
  rw [ctlPrivNote, trapIf, (mayWriteCtl_iff _ _).1 h]
  rfl

theorem ctlPrivNote_of_not_may (s : State) (t : Word) (h : ¬MayWriteCtl s.iss.ctx t.toNat) :
    ctlPrivNote s t = .trap 5 0x02 (unstated s) := by
  rw [ctlPrivNote, trapIf, Bool.eq_true_of_not_eq_false (mt (mayWriteCtl_iff _ _).2 h)]
  rfl

/-! What `cx.wr` meets is the first of its checks that fails. -/

theorem firstNote_cxWrChecks_number (s : State) (t : Word) (h : 34 < t.toNat) :
    firstNote (cxWrChecks s t) = .trap 5 0x06 t := by
  rw [cxWrChecks, numberNote, firstNote_trapIf, if_pos (decide_eq_true h)]

theorem firstNote_cxWrChecks_privilege (s : State) (t : Word) (h : t.toNat ≤ 34) (hm : ¬MayWriteCtl s.iss.ctx t.toNat) :
    firstNote (cxWrChecks s t) = .trap 5 0x02 (unstated s) := by
  rw [cxWrChecks, numberNote, firstNote_trapIf, if_neg (by simpa using h), ctlPrivNote_of_not_may s t hm]
  rfl

theorem firstNote_cxWrChecks_value (s : State) (t : Word) (h : t.toNat ≤ 34) (hm : MayWriteCtl s.iss.ctx t.toNat) :
    firstNote (cxWrChecks s t) = trapFlt (ctlRefuse s.iss.core t.toNat (s.iss.ctx.portW 5 0)) := by
  rw [cxWrChecks, numberNote, firstNote_trapIf, if_neg (by simpa using h), ctlPrivNote_of_may s t hm, firstNote]
  cases ctlRefuse s.iss.core t.toNat (s.iss.ctx.portW 5 0) <;> rfl

/-- The latched context gives the value that is written (R38). -/
theorem ctlWrite_charged (s : State) (src : BitVec 9) (no : Nat) :
    ctlWrite (charge (consume s src) 1) (charge (consume s src) 1).iss.n no
        ((charge (consume s src) 1).iss.ctx.portW 5 0) =
      (((charge (consume s src) 1).ser (charge (consume s src) 1).serial).updCtx s.iss.n
        fun c => ctlWriteCtx c no (s.iss.ctx.portW 5 0)).updCore (coreOf s.iss.n)
        fun k => ctlWriteCore k no (s.iss.ctx.portW 5 0) := by
  rw [charged_n, iss_ctx_charged, ser_self]
  rfl

theorem cxWr_completes (s : State) (g : BitVec 4) (src : BitVec 9) (hq : firstNote (cxWrChecks s (trigT s src)) = .quiet) :
    CompletesCore s (.cxWr g src) 5 5 1 1 false g src (fun c => ctlWriteCtx c (trigT s src).toNat (s.iss.ctx.portW 5 0))
      fun k => ctlWriteCore k (trigT s src).toNat (s.iss.ctx.portW 5 0) :=
  completesCore s _ 5 5 1 1 _ _ _ _ g src _ _ _ (exec_cxWr s g src) rfl hq (ctlWrite_charged s src _)

theorem cxWr_traps (s : State) (g : BitVec 4) (src : BitVec 9) (code : Nat) (v : Word) (hr : Ready s 5 5 false g src)
    (hn : firstNote (cxWrChecks s (trigT s src)) = .trap 5 code v) : Traps s (.cxWr g src) code v :=
  traps s _ 5 5 1 1 _ [] _ g src _ 5 code v (exec_cxWr s g src) hr hn

/-- Settles O9, by the first of the checks of `cx.wr` that fails: number, privilege, value. -/
theorem controlWrites : Obligations.ControlWrites := by
  unfold Obligations.ControlWrites
  refine fun s g src => ⟨fun hno hmay hval => ?_, fun hno hr => ?_, fun hno hmay hr => ?_, fun hno hmay hr f hf => ?_⟩
  · refine cxWr_completes s g src ?_
    rw [firstNote_cxWrChecks_value s _ hno hmay, hval]
    rfl
  · exact cxWr_traps s g src _ _ hr (firstNote_cxWrChecks_number s _ hno)
  · exact ⟨_, cxWr_traps s g src _ _ hr (firstNote_cxWrChecks_privilege s _ hno hmay)⟩
  · refine cxWr_traps s g src _ _ hr ?_
    rw [firstNote_cxWrChecks_value s _ hno hmay, hf]
    rfl

/-! ## What a write leaves in the registers (R105, R107) -/

/-- The registers that `cx.wr` changes, each with the bits that it has. -/
def ctlMasks : List (Nat × Word) :=
  [(0, 0xFFFFFFFFFFFF003F), (1, 0x3F), (8, 0xFFFF), (9, 0xFFFFFFFFF000), (10, 0x3FFF), (11, 1), (12, 0xFFFFFFFF),
    (14, 0x7FFFE1), (19, 0xFFFFFF), (20, 0xFFF), (21, 0x3FF), (22, 0x7FFFE0), (23, 0xFF), (24, 0xFFFFFFFFFFFFFFFF),
    (25, 0x7FFFE0), (26, 7), (28, 0xFFFFFFFFFFFFC0), (29, 0x7FFFC0), (30, 0xFFFFFFFF)]

/-- Each field of a context's registers after a write: the written value's where the write names its register. -/
theorem ctl_ctlWriteCtx (c : Ctx) (no : Nat) (v : Word) : (ctlWriteCtx c no v).ctl = { c.ctl with
    fmt := if no = 0 then v &&& 0xFFFFFFFFFFFF003F else c.ctl.fmt
    flags := if no = 1 then v.setWidth 6 else c.ctl.flags
    asid := if no = 8 then v.setWidth 16 else c.ctl.asid
    ptroot := if no = 9 then v.extractLsb' 12 36 else c.ctl.ptroot
    stopf := if no = 11 then v.getLsbD 0 else c.ctl.stopf
    lpcnt := if no = 12 then v.setWidth 32 else c.ctl.lpcnt
    lpbrk := if no = 14 then v.getLsbD 0 else c.ctl.lpbrk
    lpstart := if no = 14 then v.extractLsb' 5 18 else c.ctl.lpstart
    cpol := if no = 21 then v.setWidth 10 else c.ctl.cpol
    trappc := if no = 22 then v.extractLsb' 5 18 else c.ctl.trappc
    trapcode := if no = 23 then v.setWidth 8 else c.ctl.trapcode
    trapval := if no = 24 then v else c.ctl.trapval
    trapvec := if no = 25 then v.extractLsb' 5 18 else c.ctl.trapvec
    logsk := if no = 26 then v.setWidth 3 else c.ctl.logsk
    gbase := if no = 28 then v.extractLsb' 6 50 else c.ctl.gbase
    biasb := if no = 29 then v.extractLsb' 6 17 else c.ctl.biasb } := by
  unfold ctlWriteCtx
  split
  case h_16 => simp_all only [imp_false, ↓reduceIte]
  all_goals rfl

/-- The same for a core's registers; a write of EVSEL also marks the counters that restart (R410). -/
theorem ctlWriteCore_eq (k : Core) (no : Nat) (v : Word) : ctlWriteCore k no v = { k with
    limit := if no = 10 then v.setWidth 14 else k.limit
    curlim := if no = 19 then v.setWidth 24 else k.curlim
    curwin := if no = 20 then v.setWidth 12 else k.curwin
    evsel := if no = 30 then v.setWidth 32 else k.evsel
    evz := if no = 30 then (writeEvsel k (v.setWidth 32)).evz else k.evz } := by
  unfold ctlWriteCore
  split
  case h_5 => simp_all only [imp_false, ↓reduceIte]
  all_goals rfl

/-- A register other than the written one reads as before. -/
theorem ctlRead_ctlWrite_other (s : State) (n no m : Nat) (c : Ctx) (k : Core) (v : Word) (h : m ≠ no) :
    ctlRead s n (ctlWriteCtx c no v) (ctlWriteCore k no v) m = ctlRead s n c k m := by
  have hne := h.symm
  simp only [ctlRead, ctl_ctlWriteCtx, ctlWriteCore_eq]
  split <;> simp only [hne, ↓reduceIte]

theorem ctlWriteCtx_of_not_mem (c : Ctx) (no : Nat) (v : Word) (h : no ∉ ctlMasks.map Prod.fst) :
    ctlWriteCtx c no v = c := by
  unfold ctlWriteCtx
  split
  case h_16 => rfl
  all_goals exact absurd (by decide) h

theorem ctlWriteCore_of_not_mem (k : Core) (no : Nat) (v : Word) (h : no ∉ ctlMasks.map Prod.fst) :
    ctlWriteCore k no v = k := by
  unfold ctlWriteCore
  split
  case h_5 => rfl
  all_goals exact absurd (by decide) h

/-! ## The bits that a register has, as a mask -/

theorem setWidth_setWidth_eq_and (v : Word) (len : Nat) :
    (v.setWidth len).setWidth 64 = v &&& (BitVec.allOnes len).setWidth 64 := by
  ext i hi
  simp [hi, Bool.and_comm]

theorem setWidth_extractLsb'_shiftLeft (v : Word) (lo len : Nat) :
    (v.extractLsb' lo len).setWidth 64 <<< lo = v &&& (BitVec.allOnes len).setWidth 64 <<< lo := by
  ext i hi
  by_cases h : i < lo
  · simp [h]
  · have hbit : lo + (i - lo) = i := Nat.add_sub_cancel' (Nat.not_lt.1 h)
    simp [h, hbit, hi, Bool.and_comm]

theorem wBool_getLsbD_zero (v : Word) : wBool (v.getLsbD 0) = v &&& 1 := by
  rw [show v &&& 1 = _ from BitVec.and_one_eq_setWidth_ofBool_getLsbD]
  cases v.getLsbD 0 <;> rfl

theorem and_add_and_of_disjoint (v a b : Word) (h : a &&& b = 0) : (v &&& a) + (v &&& b) = v &&& (a ||| b) := by
  have hzero : v &&& a &&& (v &&& b) = 0 := by
    calc v &&& a &&& (v &&& b) = v &&& v &&& (a &&& b) := by ac_rfl
      _ = 0 := by rw [h]; exact BitVec.and_zero
  rw [BitVec.and_or_distrib_left, BitVec.add_eq_or_of_and_eq_zero _ _ hzero]

/-- LPSTART's two fields, BRK and ADDR, as one mask. -/
theorem lpstart_eq_and (v : Word) :
    wBool (v.getLsbD 0) + (v.extractLsb' 5 18).setWidth 64 <<< 5 = v &&& 0x7FFFE1 := by
  rw [wBool_getLsbD_zero, setWidth_extractLsb'_shiftLeft, and_add_and_of_disjoint _ _ _ (by decide)]
  rfl

/-- The written register reads as the written value in the bits that it has. -/
theorem ctlRead_ctlWrite_same (s : State) (n : Nat) (c : Ctx) (k : Core) (v : Word) : ∀ p ∈ ctlMasks,
    ctlRead s n (ctlWriteCtx c p.1 v) (ctlWriteCore k p.1 v) p.1 = v &&& p.2 := by
  have low (len : Nat) := setWidth_setWidth_eq_and v len
  have field (lo len : Nat) := setWidth_extractLsb'_shiftLeft v lo len
  simp only [ctlMasks, List.forall_mem_cons]
  exact ⟨rfl, low 6, low 16, field 12 36, low 14, wBool_getLsbD_zero v, low 32, lpstart_eq_and v, low 24, low 12, low 10,
    field 5 18, low 8, BitVec.and_allOnes.symm, field 5 18, low 3, field 6 50, field 6 17, low 32, List.forall_mem_nil _⟩

/-- Settles O10: the written register by its mask, an ignored write by the two equations of `ctlWrite…_of_not_mem`, and
every other register by the fields that a write leaves. -/
theorem controlReadBack : Obligations.ControlReadBack := by
  unfold Obligations.ControlReadBack
  intro s n no c k v _ _ after masks
  refine ⟨fun x hx => ctlRead_ctlWrite_same s n c k v (no, x) hx, fun hx => ?_, fun m hm _ =>
    ctlRead_ctlWrite_other s n no m c k v hm⟩
  have hno : no ∉ ctlMasks.map Prod.fst := fun hmem => by
    obtain ⟨p, hp, rfl⟩ := List.mem_map.1 hmem
    exact hx p.2 hp
  simp only [after, ctlWriteCtx_of_not_mem c no v hno, ctlWriteCore_of_not_mem k no v hno]

end Sys2Proof.Machine
end

section
/-!
PROOFS. What the one-row and whole-tile triggers of TA, TX and TS share (O28-O31).
-/

namespace Sys2Proof.Machine

/-! ## Lanes and flags of a row result (R91, R126) -/

/-- The flags of a list of results are those of any of them. -/
theorem getLsbD_flgAll (l : List Flg) (b : Nat) : (flgAll l).getLsbD b = true ↔ ∃ x ∈ l, x.getLsbD b = true := by
  induction l using List.reverseRecOn with
  | nil => simp [flgAll]
  | append_singleton l x ih =>
    rw [show flgAll (l ++ [x]) = flgAll l ||| x from List.foldl_concat .., BitVec.getLsbD_or, Bool.or_eq_true, ih]
    simp only [List.mem_append, List.mem_singleton, or_and_right, exists_or, exists_eq_left]

theorem lane_rowFlg (f : Nat → BitVec 32 × Flg) (k : Nat) (hk : k < 64) : lane (rowFlg f).1 k = (f k).1 := by
  rw [rowFlg, lane_rowOf _ _ hk, List.getElem?_map, List.getElem?_range hk]
  rfl

theorem getLsbD_rowFlg (f : Nat → BitVec 32 × Flg) (b : Nat) :
    (rowFlg f).2.getLsbD b = true ↔ ∃ k, k < 64 ∧ (f k).2.getLsbD b = true := by
  simp [rowFlg, getLsbD_flgAll]

/-- A result given lane by lane is the row of its lanes. -/
theorem rowResults_rowFlg {s : State} {i : Instr} {fu port lat w : Nat} {g : BitVec 4} {src : BitVec 9}
    (f : Nat → BitVec 32 × Flg) (h : Results s i fu port lat 1 w g src (.r (rowFlg f).1) (rowFlg f).2) :
    RowResults s i fu port lat w g src f :=
  ⟨_, _, lane_rowFlg f, getLsbD_rowFlg f, h⟩

/-- A row without flags is the row of its lanes. -/
theorem rowResults_rowOf {s : State} {i : Instr} {fu port lat w : Nat} {g : BitVec 4} {src : BitVec 9}
    (f : Nat → BitVec 32) (h : Results s i fu port lat 1 w g src (.r (rowOf f)) 0) :
    RowResults s i fu port lat w g src fun k => (f k, 0) :=
  ⟨_, _, fun k hk => lane_rowOf f k hk, by simp, h⟩

/-- The one flag of results that raise no other. -/
theorem flgAll_map_flgIf (p : Nat → Bool) (f : Flg) (l : List Nat) :
    flgAll (l.map fun k => flgIf (p k) f) = flgIf (l.any p) f := by
  induction l using List.reverseRecOn with
  | nil => rfl
  | append_singleton l k ih =>
    rw [List.map_append, List.map_singleton, flgAll, List.foldl_concat, ← flgAll, ih, List.any_append]
    cases hl : l.any p <;> cases hk : p k <;> simp [flgIf, hk]

/-! ## What a charged trigger still reads of its source -/

/-- Reading a source leaves the control registers of its context (R125). -/
theorem sourced_ctl (s : State) (src : BitVec 9) : (sourced s src).ctl = (s.ctx s.iss.n).ctl := by
  unfold sourced
  split <;> rfl

/-- The place of an arena depends on the context's control registers alone (R153). -/
theorem arenaPA_of_ctl {c d : Ctx} (h : c.ctl = d.ctl) (q off : Nat) : arenaPA c q off = arenaPA d q off := by
  rw [arenaPA, arenaPA, h]

theorem arenaPA_charged (s : State) (src : BitVec 9) (w q off : Nat) :
    arenaPA ((charge (consume s src) w).ctx s.iss.n) q off = arenaPA (s.ctx s.iss.n) q off := by
  refine arenaPA_of_ctl ?_ q off
  rw [ctx_charge, ctx_consume, sourced_ctl]

theorem rdArena_charged (s : State) (src : BitVec 9) (w off k : Nat) :
    (charge (consume s src) w).rdArena s.iss.n off k = s.rdArena s.iss.n off k := by
  rw [State.rdArena, arenaPA_charged]
  exact congrArg (Memory.readN · _ k) (consume_mem s src)

theorem readSource_charged (s : State) (src : BitVec 9) (w : Nat) (x : Src) :
    readSource (charge (consume s src) w) x = readSource s x := by
  cases x
  case cb n => simp only [readSource, charge_iss, consume_iss, rdArena_charged]
  all_goals simp only [readSource, charge_iss, consume_iss]

theorem readCode_charged (s : State) (src : BitVec 9) (w : Nat) :
    readCode (charge (consume s src) w) src = readCode s src := by
  unfold readCode
  split
  · exact readSource_charged s src w _
  · rfl

theorem jobSource_charged (s : State) (src : BitVec 9) (w : Nat) :
    jobSource (charge (consume s src) w) src = jobSource s src := by
  simp only [jobSource, readCode_charged, charge_iss, consume_iss]

theorem codeTag_charged (s : State) (src : BitVec 9) (w k : Nat) :
    codeTag (charge (consume s src) w) src k = codeTag s src k := by
  simp only [codeTag, srcTag, charge_iss, consume_iss]

theorem newJob_charged (s : State) (src : BitVec 9) (w : Nat) (dst : JobDst) (fmt : Word) (id : Nat) :
    newJob (charge (consume s src) w) src dst fmt id = newJob s src dst fmt id := by
  simp only [newJob, jobTag, jobSource_charged, codeTag_charged, charge_iss, consume_iss]

theorem fresh_charged (s : State) (src : BitVec 9) (w : Nat) :
    fresh (charge (consume s src) w) = (s.serial, (charge (consume s src) w).ser (s.serial + 1)) := by
  rw [fresh, charged_serial]
  rfl

/-! ## Triggers that record nothing (R242) -/

theorem recHold_of_off (s : State) (r : RecOp) (h : recOn s = false) : recHold s r = .quiet := by simp [recHold, h]
theorem recTrap_of_off (s : State) (r : RecOp) (h : recOn s = false) : recTrap s r = .quiet := by simp [recTrap, h]
theorem firstNote_recHold_of_off (s : State) (r : RecOp) (h : recOn s = false) : firstNote [recHold s r] = .quiet := by
  rw [recHold_of_off s r h]
  rfl
theorem recTag_of_off (s : State) (h : recOn s = false) : recTag s = 0 := by simp [recTag, h]
theorem recStage_of_off (s : State) (r : RecOp) (id : Nat) (fmt : Word) (h : recOn s = false) :
    recStage s r id fmt = s := by simp [recStage, h]

theorem firstNote_recTrap_of_off (s : State) (r : RecOp) (h : recOn s = false) (l : List Note) :
    firstNote (l ++ [recTrap s r]) = firstNote l := by
  rw [recTrap_of_off s r h]
  induction l with
  | nil => rfl
  | cons w l ih => cases w <;> simp_all [firstNote]

/-- Where nothing is recorded the result of a tile operation is one more in flight. -/
theorem landTile_of_off (s : State) (fu lat : Nat) (v : Val) (flg : Flg) (r : RecOp) (h : recOn s = false) :
    landTile s fu lat v flg r = flyNew s lat fu v flg 0 := by
  have hs : recOn (fresh s).2 = false := h
  rw [landTile, flyNew]
  simp only [recTag_of_off _ hs, recStage_of_off _ _ _ _ hs]

theorem recOn_charged (s : State) (src : BitVec 9) (w : Nat) : recOn (charge (consume s src) w) = recOn s := by
  simp [recOn]

section
variable {s : State} {i : Instr} {fu port lat w : Nat} {chk : List Note} {g : BitVec 4} {src : BitVec 9} {v : Val}
  {flg : Flg} {r : RecOp}

/-- A one-row trigger of a tile unit that records nothing lands its result where its own checks are quiet. -/
theorem tileTrigger_results (hrec : recOn s = false)
    (hi : exec i s = trigger fu port 1 w false [recHold s r] (chk ++ [recTrap s r]) g src
      (fun _ t => landTile t fu lat v flg r) s) (hc : firstNote chk = .quiet) :
    Results s i fu port lat 1 w g src v flg := by
  refine completes s i fu port 1 w (s.serial + 1) _ _ _ g src _ _ hi (firstNote_recHold_of_off s r hrec) ?_ ?_
  · rw [firstNote_recTrap_of_off s r hrec, hc]
  · rw [landTile_of_off _ _ _ _ _ _ ((recOn_charged s src w).trans hrec), flyNew_charged_id]

/-- One that finds a trap among its own checks raises it. -/
theorem tileTrigger_traps {eff : Val → State → State} {c code : Nat} {x : Word} (hrec : recOn s = false)
    (hi : exec i s = trigger fu port 1 w false [recHold s r] (chk ++ [recTrap s r]) g src eff s)
    (hr : Ready s fu port false g src) (hc : firstNote chk = .trap c code x) : Traps s i code x := by
  refine traps s i fu port 1 w _ _ _ g src _ c code x hi hr ?_
  rw [recHold_of_off s r hrec]
  exact (firstNote_recTrap_of_off s r hrec chk).trans hc

end

end Sys2Proof.Machine
end

section
/-!
PROOFS. TA0 and TA1, and the whole-tile operations (O28, O29).
-/

namespace Sys2Proof.Machine

/-! ## TA0 and TA1 (R128, R130) -/

/-- R126: the index of a one-row operation's lane is (FU << 24) + lane. -/
theorem laneRow_zero (f : LaneFn) (w : Word) (fu c : Nat) (a t b : Row) :
    laneRow f w fu 0 c a t b = rowFlg fun k => f w (fu * 2 ^ 24 + k) c (lane a k) (lane t k) (lane b k) := by
  rw [laneRow, Nat.mul_zero, Nat.add_zero]

/-- A one-row operation of TA applies its lane function to the lanes of a, T and b. -/
theorem taRow_results {s : State} {i : Instr} {g : BitVec 4} {u : BitVec 1} {src : BitVec 9} {port : Nat}
    {f : LaneFn} {ua ub ut : Bool} {F : Nat → BitVec 32 × Flg} (hrec : recOn s = false)
    (hi : exec i s = taRow port f ua ub ut g u src s)
    (hF : ∀ k, f s.iss.ctx.inf.fmtEff ((10 + u.toNat) * 2 ^ 24 + k) ((s.iss.ctx.portW (10 + u.toNat) 2).toNat % 8)
      (lane (s.iss.ctx.portR (10 + u.toNat) 0) k) (lane (readCode s src).row k)
      (lane (s.iss.ctx.portR (10 + u.toNat) 1) k) = F k) :
    RowResults s i (10 + u.toNat) port 4 8 g src F := by
  have h := tileTrigger_results (chk := []) hrec hi rfl
  rw [laneRow_zero, fld_zero] at h
  rw [← funext hF]
  exact rowResults_rowFlg _ h

/-- The relations of `icmp` by their codes. -/
theorem relI_eq (c : Nat) (hc : c < 8) (p q : BitVec 32) : relI c p q =
    (([decide (p = q), decide (p ≠ q), decide (p.toInt < q.toInt), decide (p.toInt ≤ q.toInt),
      decide (q.toInt < p.toInt), decide (q.toInt ≤ p.toInt), decide (p.toNat < q.toNat),
      decide (p.toNat ≤ q.toNat)][c]?).getD false) := by
  match c, hc with
  | 0, _ | 1, _ | 2, _ | 3, _ | 4, _ | 5, _ | 6, _ | 7, _ => rfl

theorem laneSra_eq (w : Word) (i c : Nat) (x y z : BitVec 32) :
    laneSra w i c x y z = (BitVec.ofInt 32 (x.toInt / 2 ^ (y.toNat % 32)), 0) := by
  rw [laneSra, BitVec.sshiftRight, Int.shiftRight_eq_div_pow, Nat.cast_pow, Nat.cast_ofNat]

theorem laneImin_eq (w : Word) (i c : Nat) (x y z : BitVec 32) :
    laneImin w i c x y z = (if y.toInt < x.toInt then y else x, 0) := by
  simp only [laneImin, BitVec.slt, decide_eq_true_eq]

theorem laneImax_eq (w : Word) (i c : Nat) (x y z : BitVec 32) :
    laneImax w i c x y z = (if x.toInt < y.toInt then y else x, 0) := by
  simp only [laneImax, BitVec.slt, decide_eq_true_eq]

theorem laneSel_eq (w : Word) (i c : Nat) (x y z : BitVec 32) : laneSel w i c x y z = (if z = 0 then y else x, 0) := by
  rw [laneSel, ite_not]

/-- Settles O28: each operation is one trigger of its unit (`taRow_results`), whose lane function is the rule's. -/
theorem tileAluRows : Obligations.TileAluRows := by
  unfold Obligations.TileAluRows
  intro s g u src hrec fu w rel x y z idx lands int truth
  have ta {i : Instr} {port : Nat} {f : LaneFn} {ua ub ut : Bool} {F : Nat → BitVec 32 × Flg}
      (hi : exec i s = taRow port f ua ub ut g u src s)
      (hF : ∀ k, f w (idx k) rel (x k) (y k) (z k) = F k) : lands i port F := taRow_results hrec hi hF
  have hrel : rel < 8 := Nat.mod_lt _ (by norm_num)
  exact ⟨ta rfl fun _ => rfl, ta rfl fun _ => rfl, ta rfl fun _ => rfl, ta rfl fun _ => rfl, ta rfl fun _ => rfl,
    ta rfl fun _ => rfl, ta rfl fun _ => rfl, ta rfl fun _ => rfl, ta rfl fun _ => rfl, ta rfl fun _ => rfl,
    ta rfl fun k => laneImin_eq w (idx k) rel _ _ _, ta rfl fun k => laneImax_eq w (idx k) rel _ _ _,
    ta rfl fun _ => rfl, ta rfl fun _ => rfl, ta rfl fun _ => rfl, ta rfl fun _ => rfl, ta rfl fun _ => rfl,
    ta rfl fun k => laneSra_eq w (idx k) rel _ _ _,
    ta rfl fun k => congrArg (fun b => (b32 b, (0 : Flg))) (relI_eq rel hrel (x k) (y k)),
    ta rfl fun k => laneSel_eq w (idx k) rel _ _ _⟩

/-! ## Starting a tile (R123, R131, R142) -/

/-- What a whole-tile trigger does: row 0 of its result in flight, and a sequencer for the other rows. -/
def startTile (fu lat : Nat) (v : Row) (flg : Flg) (r : RecOp) (w : Word) (dst : JobDst) (src : BitVec 9) (s : State) :
    State :=
  let (id, s) := fresh s
  let tag := recTag s
  let st := if recOn s then id else 0
  let s := recStage s r id w
  s.updCtx s.iss.n fun c =>
    (c.fly lat fu id (.entry (.t (tileSet 0 0 v))) flg tag).updInf fun i =>
      { i with jobs := i.jobs ++ [{ newJob s src dst w id with tag := tag, stage := st }] }

/-- A context with one more sequencer. -/
def withJob (j : Job) (c : Ctx) : Ctx := { c with inf := { c.inf with jobs := c.inf.jobs ++ [j] } }

theorem startTile_charged {s : State} {src : BitVec 9} (h : recOn s = false) (k fu lat : Nat) (v : Row) (flg : Flg)
    (r : RecOp) (w : Word) (dst : JobDst) :
    startTile fu lat v flg r w dst src (charge (consume s src) k) =
      ((charge (consume s src) k).ser (s.serial + 1)).updCtx s.iss.n fun c =>
        withJob (newJob s src dst w s.serial) (landing s lat fu (.t (tileSet 0 0 v)) flg c) := by
  have ht : recOn ((charge (consume s src) k).ser (s.serial + 1)) = false := (recOn_charged s src k).trans h
  have hjob : newJob ((charge (consume s src) k).ser (s.serial + 1)) src dst w s.serial = newJob s src dst w s.serial :=
    newJob_charged s src k dst w s.serial
  simp only [startTile, fresh_charged, recTag_of_off _ ht, recStage_of_off _ _ _ _ ht, ht, hjob, ser_iss, charged_n]
  rfl

/-- A whole-tile trigger that records nothing starts its tile. -/
theorem wholeTile_completes {s : State} {i : Instr} {fu port lat wt : Nat} {v : Row} {flg : Flg} {r : RecOp} {w : Word}
    {dst : JobDst} {g : BitVec 4} {src : BitVec 9} (h : recOn s = false)
    (hi : exec i s = trigger fu port 8 wt false [recHold s r] [recTrap s r] g src
      (fun _ => startTile fu lat v flg r w dst src) s) :
    Completes s i fu port 8 wt false g src fun c =>
      withJob (newJob s src dst w s.serial) (landing s lat fu (.t (tileSet 0 0 v)) flg c) := by
  refine completes s i fu port 8 wt (s.serial + 1) _ _ _ g src _ _ hi (firstNote_recHold_of_off s r h)
    (firstNote_recTrap_of_off s r h []) (startTile_charged h wt fu lat v flg r w dst)

theorem lane_xposeRow (t : Row) (k : Nat) (hk : k < 64) : lane (xposeRow t) k = lane t (8 * (k % 8) + k / 8) :=
  lane_rowOf _ _ hk

/-- Settles O29: each is one trigger that starts its tile (`wholeTile_completes`), with the row of its lane function or
the transposed row. -/
theorem wholeTileOperations : Obligations.WholeTileOperations := by
  unfold Obligations.WholeTileOperations
  intro s g u src hrec w T0 starts fu d y idx
  have ta {i : Instr} {port : Nat} {used : Bool} {F : Nat → BitVec 32 × Flg}
      (hi : exec i s = taTile port used g u src s) (hF : ∀ k, tileFn port w (idx k) 0 (d k) (y k) (lane 0 k) = F k) :
      starts i fu port 4 64 (.ta fu port) F := by
    have h : Completes s i fu port 8 64 false g src _ := wholeTile_completes hrec hi
    rw [taTileRow, laneRow_zero, show (fun k => tileFn port w (idx k) 0 (d k) (y k) (lane 0 k)) = F from funext hF] at h
    exact ⟨_, _, newJob s src (.ta fu port) w s.serial, lane_rowFlg F, getLsbD_rowFlg F, rfl, rfl, rfl, rfl, rfl, h⟩
  refine ⟨ta rfl fun _ => rfl, ta rfl fun _ => rfl, ta rfl fun _ => rfl, ta rfl fun _ => rfl, ?_⟩
  exact ⟨_, 0, newJob s src .xpose w s.serial, lane_xposeRow T0, by simp, rfl, rfl, rfl, rfl, rfl,
    wholeTile_completes hrec rfl⟩

end Sys2Proof.Machine
end

section
/-!
PROOFS. The tile unit TX: its format checks and what its operations land (O30).
-/

namespace Sys2Proof.Machine

/-! ## Format checks (R134) -/

theorem txSF_eq (a : Word) : txSF a = a.toNat % 16 := fld_zero a 4
theorem txDF_eq (a : Word) : txDF a = a.toNat / 16 % 16 := fld_eq a 4 4
theorem txQtype_eq (a : Word) : txQtype a = a.toNat / 256 % 4 := fld_eq a 8 2

theorem cvtOk_iff (c : Nat) : cvtOk c = true ↔ c ∈ [0, 1, 2, 4, 5, 6, 7, 8] := by
  simp only [cvtOk, Bool.or_eq_true, Bool.and_eq_true, decide_eq_true_eq, List.mem_cons, List.not_mem_nil, or_false]
  omega

theorem floatOk_iff (c : Nat) : floatOk c = true ↔ c ∈ [6, 7, 8] := by
  simp only [floatOk, Bool.and_eq_true, decide_eq_true_eq, List.mem_cons, List.not_mem_nil, or_false]
  omega

theorem qntOk_iff (c : Nat) : qntOk c = true ↔ c ∈ [4, 5, 6, 7, 8] := by
  simp only [qntOk, Bool.and_eq_true, decide_eq_true_eq, List.mem_cons, List.not_mem_nil, or_false]
  omega

theorem blkOk_iff (c : Nat) : blkOk c = true ↔ c ∈ [9, 10] := by
  simp [blkOk]

/-- SF is checked before DF, and both before what follows. -/
theorem firstNote_fmtNotes (a : Word) (sf df : Nat → Bool) (l : List Note) : firstNote (fmtNotes a sf df ++ l) =
    if sf (txSF a) = true then (if df (txDF a) = true then firstNote l else .trap 5 0x05 (w64 (txDF a)))
    else .trap 5 0x05 (w64 (txSF a)) := by
  rw [fmtNotes, List.cons_append, List.cons_append, List.nil_append, firstNote_trapIf, firstNote_trapIf]
  cases sf (txSF a) <;> cases df (txDF a) <;> rfl

/-! ## A trigger of TX (R133) -/

section
variable {s : State} {i : Instr} {port lat wt : Nat} {ut uy : Bool} {sf df : Nat → Bool} {sfs dfs : List Nat}
  {more : Word → Row → List Note} {f : Word → Word → Row → Row × Flg} {g : BitVec 4} {src : BitVec 9}

/-- A format that is not allowed is refused, SF before DF. -/
theorem txTrigger_refuses (hrec : recOn s = false)
    (hi : exec i s = txTrigger port lat wt ut uy (fun a t => fmtNotes a sf df ++ more a t) f g src s)
    (hsf : ∀ c, sf c = true ↔ c ∈ sfs) (hdf : ∀ c, df c = true ↔ c ∈ dfs)
    (hr : Ready s 12 port false g src) :
    let a := s.iss.ctx.portW 12 0
    (a.toNat % 16 ∉ sfs → Traps s i 0x05 (w64 (a.toNat % 16))) ∧
    (a.toNat % 16 ∈ sfs → a.toNat / 16 % 16 ∉ dfs → Traps s i 0x05 (w64 (a.toNat / 16 % 16))) := by
  intro a
  unfold txTrigger at hi
  rw [← txSF_eq a, ← txDF_eq a, ← hsf, ← hdf]
  refine ⟨fun hn => tileTrigger_traps (c := 5) hrec hi hr ?_, fun hs hn => tileTrigger_traps (c := 5) hrec hi hr ?_⟩
  · rw [firstNote_fmtNotes, if_neg hn]
  · rw [firstNote_fmtNotes, if_pos hs, if_neg hn]

/-- With allowed formats, and with what the operation checks besides, the row lands. -/
theorem txTrigger_results (hrec : recOn s = false)
    (hi : exec i s = txTrigger port lat wt ut uy (fun a t => fmtNotes a sf df ++ more a t) f g src s)
    (hsf : sf (txSF (s.iss.ctx.portW 12 0)) = true) (hdf : df (txDF (s.iss.ctx.portW 12 0)) = true)
    (hmore : firstNote (more (s.iss.ctx.portW 12 0) (readCode s src).row) = .quiet) :
    let r := f s.iss.ctx.inf.fmtEff (s.iss.ctx.portW 12 0) (readCode s src).row
    Results s i 12 port lat 1 wt g src (.r r.1) r.2 := by
  refine tileTrigger_results hrec hi ?_
  rw [firstNote_fmtNotes, if_pos hsf, if_pos hdf, hmore]

end

theorem txLanes_eq (f : Word → Nat → Nat → Nat → BitVec 32 → BitVec 32 × Flg) (w a : Word) (t : Row) :
    txLanes f w a t = rowFlg fun k => f w (a.toNat % 16) (a.toNat / 16 % 16) (12 * 2 ^ 24 + k) (lane t k) := by
  rw [txLanes, txSF_eq, txDF_eq]

theorem exec_txQnt (s : State) (g : BitVec 4) (src : BitVec 9) : exec (.txQnt g src) s =
    txTrigger 5 12 12 false false (fun a _ => fmtNotes a qntOk blkOk ++
      [trapIf (txDF a = 0xA && txQtype a = 3) 0x05 0xA, trapIf (txAxis a) 0x19 0]) qntRow g src s := rfl

theorem exec_txDqnt (s : State) (g : BitVec 4) (src : BitVec 9) : exec (.txDqnt g src) s =
    txTrigger 6 10 10 false false (fun a t => fmtNotes a blkOk floatOk ++
      [match dqntBad a t with | some o => .trap 5 0x1A (w64 o) | none => .quiet])
      (fun w a t => rowFlg fun k => dqntElem w a (12 * 2 ^ 24 + k) t k) g src s := rfl

/-- What `tx.qnt` checks of its code type and scale axis meets nothing (R134, R137). -/
theorem firstNote_qntNotes (a : Word) (hq : ¬(a.toNat / 16 % 16 = 10 ∧ a.toNat / 256 % 4 = 3))
    (hx : a.getLsbD 10 = false) :
    firstNote [trapIf (txDF a = 0xA && txQtype a = 3) 0x05 0xA, trapIf (txAxis a) 0x19 0] = .quiet := by
  rw [← txDF_eq, ← txQtype_eq] at hq
  rw [firstNote_trapIf, firstNote_trapIf, txAxis, hx, if_neg (by simpa using hq)]
  rfl

/-- Settles O30: each operation is one trigger of TX, refused by its format checks (`txTrigger_refuses`) or landed
(`txTrigger_results`), an element in each lane but for the packed row of `tx.qnt`. -/
theorem conversionsAndFunctions : Obligations.ConversionsAndFunctions := by
  unfold Obligations.ConversionsAndFunctions
  intro s g src hrec w a SF DF t idx checks fl fn cv
  have hSF : txSF a = SF := txSF_eq a
  have hDF : txDF a = DF := txDF_eq a
  have lanes {i : Instr} {port lat wt : Nat} {ut uy : Bool} {ok : Nat → Bool} {oks : List Nat}
      {f : Word → Nat → Nat → Nat → BitVec 32 → BitVec 32 × Flg} (hok : ∀ c, ok c = true ↔ c ∈ oks)
      (hi : exec i s = txTrigger port lat wt ut uy (fun a _ => fmtNotes a ok ok ++ []) (txLanes f) g src s) :
      checks i port oks oks ∧ (SF ∈ oks → DF ∈ oks →
        RowResults s i 12 port lat wt g src fun k => f w SF DF (idx k) (lane t k)) := by
    refine ⟨txTrigger_refuses hrec hi hok hok, fun hs hd => ?_⟩
    rw [← hok, ← hSF] at hs
    rw [← hok, ← hDF] at hd
    have h := txTrigger_results hrec hi hs hd rfl
    rw [txLanes_eq] at h
    exact rowResults_rowFlg _ h
  obtain ⟨hcvt, hcvt'⟩ := lanes (i := .txCvt g src) cvtOk_iff rfl
  refine ⟨hcvt, hcvt', txTrigger_refuses hrec (exec_txQnt s g src) qntOk_iff blkOk_iff, fun hs hd hq hax => ?_,
    txTrigger_refuses hrec (exec_txDqnt s g src) blkOk_iff floatOk_iff, fun hs hd hbad => ?_, lanes floatOk_iff rfl,
    lanes floatOk_iff rfl, lanes floatOk_iff rfl, lanes floatOk_iff rfl, lanes floatOk_iff rfl, lanes floatOk_iff rfl,
    lanes floatOk_iff rfl, lanes floatOk_iff rfl⟩
  · rw [← qntOk_iff, ← hSF] at hs
    rw [← blkOk_iff, ← hDF] at hd
    exact txTrigger_results hrec (exec_txQnt s g src) hs hd (firstNote_qntNotes a hq hax)
  · rw [← blkOk_iff, ← hSF] at hs
    rw [← floatOk_iff, ← hDF] at hd
    have h := txTrigger_results hrec (exec_txDqnt s g src) hs hd (by rw [hbad]; rfl)
    exact rowResults_rowFlg _ h

end Sys2Proof.Machine
end

section
/-!
PROOFS. The tile unit TS: its one-row results, the greatest element of `ts.amax`, and the table of `ts.bias` (O31).
-/

namespace Sys2Proof.Machine

/-! ## The order of `ts.amax` (R143) -/

/-- The exact value of a finite number. -/
def finValue (neg : Bool) (m : Nat) (e : Int) : ℚ := (if neg then -(m : ℚ) else m) * 2 ^ e

/-- Where a value stands in the order of `ts.amax`: -∞, the finite values with -0 below +0, +∞, every NaN. -/
def amaxKey : Num → ℤ ×ₗ ℚ ×ₗ ℤ
  | .inf neg => toLex (if neg then -1 else 1, toLex (0, 0))
  | .fin neg m e _ => toLex (0, toLex (finValue neg m e, if neg then 0 else 1))
  | .nan _ => toLex (2, toLex (0, 0))

theorem scaled_mul_zpow (neg st : Bool) (m : Nat) (e e0 : Int) (h : e0 ≤ e) :
    (((Num.fin neg m e st).scaled e0 : Int) : ℚ) * 2 ^ e0 = finValue neg m e := by
  have hpow : (2 : ℚ) ^ (e - e0).toNat * 2 ^ e0 = 2 ^ e := by
    rw [← zpow_natCast, Int.toNat_of_nonneg (by omega), ← zpow_add₀ two_ne_zero, sub_add_cancel]
  rw [finValue, ← hpow, ← mul_assoc, Num.scaled]
  cases neg <;> simp [Nat.shiftLeft_eq]

theorem finValue_nonneg (m : Nat) (e : Int) : 0 ≤ finValue false m e := by
  simp only [finValue, Bool.false_eq_true, if_false]
  positivity

theorem finValue_nonpos (m : Nat) (e : Int) : finValue true m e ≤ 0 := by
  simp only [finValue, if_true, neg_mul, Left.neg_nonpos_iff]
  positivity

/-- Two finite values are ordered by their exact values, and a -0 stands below a +0. -/
theorem ltNum_fin (a b p q : Bool) (m n : Nat) (e f : Int) : ltNum true (.fin a m e p) (.fin b n f q) = true ↔
    finValue a m e < finValue b n f ∨ finValue a m e = finValue b n f ∧ a = true ∧ b = false := by
  have hpos : (0 : ℚ) < 2 ^ min e f := by positivity
  have hx := scaled_mul_zpow a p m e (min e f) (min_le_left e f)
  have hy := scaled_mul_zpow b q n f (min e f) (min_le_right e f)
  have hlt : finValue a m e < finValue b n f ↔
      (Num.fin a m e p).scaled (min e f) < (Num.fin b n f q).scaled (min e f) := by
    rw [← hx, ← hy, mul_lt_mul_iff_left₀ hpos, Int.cast_lt]
  have heq : finValue a m e = finValue b n f ↔
      (Num.fin a m e p).scaled (min e f) = (Num.fin b n f q).scaled (min e f) := by
    rw [← hx, ← hy, mul_left_inj' hpos.ne', Int.cast_inj]
  have hzero (hv : finValue a m e = finValue b n f) (ha : a = true) (hb : b = false) :
      (Num.fin a m e p).scaled (min e f) = 0 := by
    subst ha hb
    have h0 : finValue true m e = 0 := le_antisymm (finValue_nonpos m e) (hv ▸ finValue_nonneg n f)
    rw [← hx, mul_eq_zero, Int.cast_eq_zero] at h0
    exact h0.resolve_right hpos.ne'
  have hdef : ltNum true (.fin a m e p) (.fin b n f q) =
      if (Num.fin a m e p).scaled (min e f) < (Num.fin b n f q).scaled (min e f) then true
      else true && decide ((Num.fin a m e p).scaled (min e f) = (Num.fin b n f q).scaled (min e f)) &&
        decide ((Num.fin a m e p).scaled (min e f) = 0) && a && !b := rfl
  rw [heq] at hzero
  rw [hlt, heq, hdef]
  simp only [Bool.if_true_left, Bool.true_and, Bool.or_eq_true, Bool.and_eq_true, decide_eq_true_eq, Bool.not_eq_true']
  tauto

theorem toLex_pair_lt {α β : Type} [LT α] [LT β] (a c : α) (b d : β) :
    toLex (a, b) < toLex (c, d) ↔ a < c ∨ a = c ∧ b < d := Prod.Lex.toLex_lt_toLex

/-- The order of `ts.amax` is that of the keys. -/
theorem amaxLt_iff (x y : Num) : amaxLt x y = true ↔ amaxKey x < amaxKey y := by
  cases x with
  | nan =>
    cases y with
    | nan | fin => simp [amaxLt, amaxKey, toLex_pair_lt, Num.isNan]
    | inf b => cases b <;> simp [amaxLt, amaxKey, toLex_pair_lt, Num.isNan]
  | inf a =>
    cases y with
    | nan | fin => cases a <;> simp [amaxLt, amaxKey, toLex_pair_lt, Num.isNan, ltNum]
    | inf b => cases a <;> cases b <;> simp [amaxLt, amaxKey, toLex_pair_lt, Num.isNan, ltNum]
  | fin a m e p =>
    cases y with
    | nan => simp [amaxLt, amaxKey, toLex_pair_lt, Num.isNan]
    | inf b => cases b <;> simp [amaxLt, amaxKey, toLex_pair_lt, Num.isNan, ltNum]
    | fin b n f q =>
      rw [show amaxLt (.fin a m e p) (.fin b n f q) = ltNum true (.fin a m e p) (.fin b n f q) from rfl, ltNum_fin]
      cases a <;> cases b <;> simp [amaxKey, toLex_pair_lt]

/-! ## The greatest element (R143) -/

/-- A search that moves on only to a greater element ends where `argmax` does: at the first of the greatest. -/
theorem argmax_range_succ {β : Type} [LinearOrder β] (key : Nat → β) (n : Nat) : (List.range (n + 1)).argmax key =
    some ((List.range n).foldl (fun i j => if key i < key (j + 1) then j + 1 else i) 0) := by
  induction n with
  | zero => rfl
  | succ n ih =>
    rw [List.range_succ, List.argmax_concat, ih, List.range_succ, List.foldl_concat]
    simp only [apply_ite some]

theorem idxOf_range {n k : Nat} (hk : k < n) : (List.range n).idxOf k = k := by
  have h := List.nodup_range.idxOf_getElem k (List.length_range.symm ▸ hk : k < (List.range n).length)
  rwa [List.getElem_range] at h

/-- `ts.amax` finds the lowest index of a greatest element. -/
theorem amaxIdx_spec (w : Word) (t : Row) : amaxIdx w t < 64 ∧
    (∀ k, k < amaxIdx w t → amaxLt (fop w (lane t k)) (fop w (lane t (amaxIdx w t))) = true) ∧
    ∀ k, amaxIdx w t < k → k < 64 → amaxLt (fop w (lane t (amaxIdx w t))) (fop w (lane t k)) = false := by
  have hidx : (List.range 64).argmax (fun k => amaxKey (fop w (lane t k))) = some (amaxIdx w t) := by
    rw [argmax_range_succ]
    simp only [amaxIdx, amaxLt_iff]
  obtain ⟨hmem, hmax, hfirst⟩ := List.mem_argmax_iff.1 hidx
  simp only [List.mem_range] at hmem hmax hfirst
  simp only [← Bool.not_eq_true, amaxLt_iff, not_lt]
  refine ⟨hmem, fun k hk => lt_of_not_ge fun hle => ?_, fun k _ hk => hmax k hk⟩
  have h := hfirst k (hk.trans hmem) hle
  rw [idxOf_range hmem, idxOf_range (hk.trans hmem)] at h
  omega

theorem flgIf_eq_flgNV (b : Bool) :
    (flgIf b flgNV = flgNV ∨ flgIf b flgNV = 0) ∧ (flgIf b flgNV = flgNV ↔ b = true) := by
  cases b <;> decide

/-! ## The mask of a segment (R145) -/

theorem sint_eq_toInt (n : Nat) (a : Word) : sint n a.toNat = (a.setWidth n).toInt := by
  rw [BitVec.toInt_eq_toNat_cond, BitVec.toNat_setWidth]
  rfl

theorem maskRow_eq (b : Word) (t : Row) : maskRow b t = rowOf fun k =>
    if (b.setWidth 32).toInt ≤ k ∧ (k : Int) < (b.setWidth 32).toInt + (lane t k).toInt then 1 else 0 := by
  simp only [maskRow, sint_eq_toInt, b32, decide_eq_true_eq]

/-! ## A trigger of TS that checks nothing of its own (R140) -/

theorem tsTrigger_results {s : State} {i : Instr} {port : Nat} {ua ut : Bool} {f : Word → Ctx → Row → Val × Flg}
    {g : BitVec 4} {src : BitVec 9} {v : Val} {flg : Flg} (hrec : recOn s = false)
    (hi : exec i s = tsTrigger port ua ut [] id f g src s)
    (hf : f s.iss.ctx.inf.fmtEff s.iss.ctx (readCode s src).row = (v, flg)) :
    Results s i 13 port 6 1 6 g src v flg := by
  have h := tileTrigger_results hrec hi rfl
  rwa [hf] at h

theorem exec_tsPerm (s : State) (g : BitVec 4) (src : BitVec 9) : exec (.tsPerm g src) s =
    tsTrigger 4 true false [] id (fun _ c t => rowVal (permRow (c.portR 13 0) t, 0)) g src s := rfl
theorem exec_tsRsum (s : State) (g : BitVec 4) (src : BitVec 9) : exec (.tsRsum g src) s =
    tsTrigger 6 false false [] id (fun w _ t => s32 (pairTree w (fmtRM w) 13 (fmtDAZ w) t)) g src s := rfl
theorem exec_tsRmax (s : State) (g : BitVec 4) (src : BitVec 9) : exec (.tsRmax g src) s =
    tsTrigger 7 false true [] id (fun w _ t => s32 (rowFold fMax w t)) g src s := rfl
theorem exec_tsRmin (s : State) (g : BitVec 4) (src : BitVec 9) : exec (.tsRmin g src) s =
    tsTrigger 8 false true [] id (fun w _ t => s32 (rowFold fMin w t)) g src s := rfl
theorem exec_tsAmax (s : State) (g : BitVec 4) (src : BitVec 9) : exec (.tsAmax g src) s =
    tsTrigger 9 false false [] id (fun w _ t =>
      (.s (w64 (amaxIdx w t)), flgAll ((List.range 64).map fun k => flgIf (fval (lane t k)).isSnan flgNV)))
      g src s := rfl
theorem exec_tsScan (s : State) (g : BitVec 4) (src : BitVec 9) : exec (.tsScan g src) s =
    tsTrigger 10 false false [] id (fun w _ t => rowVal (scanRow w (fmtRM w) 13 (fmtDAZ w) t)) g src s := rfl
theorem exec_tsSmax (s : State) (g : BitVec 4) (src : BitVec 9) : exec (.tsSmax g src) s =
    tsTrigger 11 false true [] id (fun w _ t => rowVal (smaxRow w t)) g src s := rfl
theorem exec_tsMask (s : State) (g : BitVec 4) (src : BitVec 9) : exec (.tsMask g src) s =
    tsTrigger 12 false false [] id (fun _ c t => rowVal (maskRow (c.portW 13 1) t, 0)) g src s := rfl

/-! ## `ts.bias` (R146) -/

theorem rowSegs_charged (s : State) (src : BitVec 9) (w : Nat) (rs : List (Nat × Nat)) :
    rowSegs (charge (consume s src) w) s.iss.n rs = rowSegs s s.iss.n rs := by
  rw [rowSegs, arenaPA_charged]
  rfl

/-- The access that reads ranges of the issuing context's arena as a local load would, for its claims of banks. -/
def bankClaim (s : State) (rs : List (Nat × Nat)) : LocalAcc :=
  oneAcc s.serial 3 0 (rowSegs s s.iss.n rs) 0 .mat false false

theorem readsNow_charged (s : State) (src : BitVec 9) (w : Nat) (rs : List (Nat × Nat)) :
    readsNow (charge (consume s src) w) rs = ((charge (consume s src) w).ser (s.serial + 1)).updCtx s.iss.n
      (addAccs [bankClaim s rs]) := by
  have hsegs : rowSegs ((charge (consume s src) w).ser (s.serial + 1)) s.iss.n rs = rowSegs s s.iss.n rs :=
    rowSegs_charged s src w rs
  simp only [readsNow, fresh_charged, onCtx, ser_iss, charged_n, hsegs, bankClaim]

/-- A result put in flight after another serial number was taken. -/
theorem flyNew_ser (s : State) (k n lat fu : Nat) (v : Val) (flg : Flg) (f : Ctx → Ctx) (hn : s.iss.n = n) :
    flyNew ((s.ser k).updCtx n f) lat fu v flg 0 =
      (s.ser (k + 1)).updCtx n fun c => landing (s.ser k) lat fu v flg (f c) := by
  subst hn
  rw [show flyNew ((s.ser k).updCtx s.iss.n f) lat fu v flg 0 =
    ((s.ser (k + 1)).updCtx s.iss.n f).updCtx s.iss.n (landing (s.ser k) lat fu v flg) from rfl, State.updCtx_updCtx]

theorem biasReads_eq (c : Ctx) : biasReads c = [(64 * c.ctl.biasb.toNat, 192),
    (64 * c.ctl.biasb.toNat + 256 + 256 * ((c.portW 13 1).toNat % 64), 256)] := by
  rw [biasReads, biasOff, fld_zero]
  rfl

theorem firstNote_biasNote (c : Ctx) :
    firstNote [trapIf (decide (arenaBytes c < biasOff c + 16640)) 0x20 (w64 (biasOff c + 16640))] =
      if 65536 * c.ctl.arenaSize.toNat < 64 * c.ctl.biasb.toNat + 16640 then
        .trap 5 0x20 (w64 (64 * c.ctl.biasb.toNat + 16640)) else .quiet := by
  rw [firstNote_trapIf, arenaBytes, biasOff]
  simp only [decide_eq_true_eq]
  rfl

theorem landTile_readsNow {s : State} {src : BitVec 9} (hrec : recOn s = false) (w fu lat : Nat)
    (rs : List (Nat × Nat)) (v : Val) (flg : Flg) (r : RecOp) :
    landTile (readsNow (charge (consume s src) w) rs) fu lat v flg r =
      ((charge (consume s src) w).ser (s.serial + 2)).updCtx s.iss.n fun c =>
        landing (s.ser (s.serial + 1)) lat fu v flg (addAccs [bankClaim s rs] c) := by
  have hoff : recOn (readsNow (charge (consume s src) w) rs) = false := (recOn_charged s src w).trans hrec
  rw [landTile_of_off _ _ _ _ _ _ hoff, readsNow_charged, flyNew_ser _ _ _ _ _ _ _ _ (charged_n s src w)]
  rfl

/-- `ts.bias` of a table inside the arena lands its row, and enters an access that claims the table's banks. -/
theorem tsBias_completes (s : State) (g : BitVec 4) (src : BitVec 9) (hrec : recOn s = false)
    (h : 64 * s.iss.ctx.ctl.biasb.toNat + 16640 ≤ 65536 * s.iss.ctx.ctl.arenaSize.toNat) :
    Completes s (.tsBias g src) 13 13 1 6 false g src fun c =>
      landing (s.ser (s.serial + 1)) 6 13 (.r (biasRow ((soon s s.iss.n).rdArena s.iss.n (biasOff s.iss.ctx) 16640)
        (s.iss.ctx.portW 13 1) (readCode s src).row)) 0
        (addAccs [bankClaim s (biasReads s.iss.ctx)] c) := by
  have hi : exec (.tsBias g src) s = execTsBias g src s := rfl
  unfold execTsBias tsTrigger at hi
  refine completes s _ 13 13 1 6 (s.serial + 2) _ _ _ g src _ _ hi (firstNote_recHold_of_off s _ hrec) ?_ ?_
  · rw [firstNote_recTrap_of_off s _ hrec, firstNote_biasNote, if_neg (Nat.not_lt.2 h)]
  · exact landTile_readsNow hrec 6 13 6 _ _ _ _

theorem tsBias_traps (s : State) (g : BitVec 4) (src : BitVec 9) (hrec : recOn s = false)
    (h : 65536 * s.iss.ctx.ctl.arenaSize.toNat < 64 * s.iss.ctx.ctl.biasb.toNat + 16640)
    (hr : Ready s 13 13 false g src) :
    Traps s (.tsBias g src) 0x20 (w64 (64 * s.iss.ctx.ctl.biasb.toNat + 16640)) := by
  have hi : exec (.tsBias g src) s = execTsBias g src s := rfl
  unfold execTsBias tsTrigger at hi
  refine tileTrigger_traps (c := 5) hrec hi hr ?_
  rw [firstNote_biasNote, if_pos h]

/-- Settles O31: each is one trigger of TS (`tsTrigger_results`); `ts.amax` by the order of its elements
(`amaxIdx_spec`), and `ts.bias` by whether its table ends inside the arena. -/
theorem shuffleResults : Obligations.ShuffleResults := by
  unfold Obligations.ShuffleResults
  intro s g src hrec w t b off row word
  have ts {i : Instr} {port : Nat} {ua ut : Bool} {f : Word → Ctx → Row → Val × Flg} {v : Val} {flg : Flg}
      (hi : exec i s = tsTrigger port ua ut [] id f g src s) (hf : f w s.iss.ctx t = (v, flg)) :
      Results s i 13 port 6 1 6 g src v flg := tsTrigger_results hrec hi hf
  refine ⟨rowResults_rowOf _ (ts (exec_tsPerm s g src) rfl), ts (exec_tsRsum s g src) rfl,
    ts (exec_tsRmax s g src) rfl, ts (exec_tsRmin s g src) rfl, ?_, ts (exec_tsScan s g src) rfl,
    ts (exec_tsSmax s g src) rfl,
    rowResults_rowOf _ (ts (exec_tsMask s g src) (congrArg (fun r => (Val.r r, 0)) (maskRow_eq b t))),
    fun h => ?_, tsBias_traps s g src hrec⟩
  · obtain ⟨hlt, hbelow, habove⟩ := amaxIdx_spec w t
    obtain ⟨hval, hnv⟩ := flgIf_eq_flgNV ((List.range 64).any fun k => (fval (lane t k)).isSnan)
    rw [← flgAll_map_flgIf] at hval hnv
    refine ⟨amaxIdx w t, _, ts (exec_tsAmax s g src) rfl, hlt, hbelow, habove, hval, hnv.trans ?_⟩
    simp only [List.any_eq_true, List.mem_range]
  · have hb := tsBias_completes s g src hrec h
    rw [biasReads_eq] at hb
    exact hb

end Sys2Proof.Machine
end

section
/-!
PROOFS. What refuses a scalar load or store (O19).
-/

namespace Sys2Proof.Machine

/-! ## Holds of R192 and checks of R185 -/

/-- Nothing holds a local form of a context without lateral accesses and local atomics (R192). -/
theorem localHold_of_none (c : Ctx) (gs : List Seg) (release : Bool) (hl : c.lats = [])
    (ha : ∀ x ∈ c.accs, ∀ op cmp arg, x.fin ≠ .atom op cmp arg) : localHold c gs release = .quiet := by
  have hatom : c.accs.any (atomRow gs) = false := by
    refine List.any_eq_false.2 fun x hx h => ?_
    unfold atomRow at h
    cases hf : x.fin with
    | atom op cmp arg => exact ha x hx op cmp arg hf
    | _ => simp [hf] at h
  simp [localHold, holdLats, hl, hatom, holdIf]

/-- A local form that no hold of R192 meets raises the first of its checks that fails. -/
theorem lsLocal_traps (s : State) (port int w : Nat) (addr : Word) (algn size : Nat) (gs : List Seg) (store : Bool)
    (g : BitVec 4) (src : BitVec 9) (eff : Val → Nat → State → State) (code : Nat) (v : Word)
    (hr : Ready s 8 port false g src)
    (hh : localHold s.iss.ctx gs (store && lsOrd (s.iss.ctx.portW 8 0)) = .quiet)
    (hn : firstNote [scopeNote (s.iss.ctx.portW 8 0), trapFlt (vaultCheck s.iss.ctx addr true algn size)] =
      .trap 5 code v) :
    lsLocal port int w addr algn size gs store [] g src eff s =
      .next (raiseNote { s with free := s.free + 1 } (.trap 5 code v)) := by
  unfold lsLocal
  dsimp only
  rw [trigger_met s 8 port int w false _ _ g src _ hr (.trap 5 code v) (by simp), letGo_of_trap]
  rw [hh]
  exact hn

/-- The mode word names no scope, or one that is not reserved (R184). -/
abbrev ScopeOk (a : Word) : Prop := a.getLsbD 3 = true → a.toNat / 16 % 8 < 6

/-- The trap of step 1 of R185, before the traps of the address. -/
theorem firstNote_scopeNote (a : Word) (l : List Note) : firstNote (scopeNote a :: l) =
    if ScopeOk a then firstNote l else .trap 5 0x09 (w64 (a.toNat / 16 % 8)) := by
  have hs : lsScope a = a.toNat / 16 % 8 := fld_eq a 4 3
  have ho : (lsOrd a && decide (6 ≤ lsScope a)) = !decide (ScopeOk a) := by
    rw [hs, lsOrd, Bool.eq_iff_iff]
    simp [ScopeOk, -BitVec.getLsbD_eq_getElem]
  rw [scopeNote, firstNote_trapIf, ho, hs]
  by_cases h : ScopeOk a
  · rw [if_pos h, decide_eq_true h]; rfl
  · rw [if_neg h, decide_eq_false h]; rfl

theorem firstNote_trapFlt (o : Option Flt) : firstNote [trapFlt o] = trapFlt o := by cases o <;> rfl

/-- The conditions that refuse an address of the own arena, in their order (R169, R185). -/
theorem vaultCheck_local (c : Ctx) (x : Word) (algn size : Nat) : vaultCheck c x true algn size =
    if 2 ^ 23 ≤ x.toNat then some (0x20, x)
    else if x.toNat % algn ≠ 0 then some (0x21, x)
    else if arenaBytes c < x.toNat + size then some (0x20, x) else none := by
  unfold vaultCheck
  by_cases h : 2 ^ 23 ≤ x.toNat
  · rw [if_pos h, if_pos (by simpa using h)]
  · have hf : fld x 0 23 = x.toNat := (fld_zero x 23).trans (Nat.mod_eq_of_lt (Nat.not_le.1 h))
    rw [if_neg h, if_neg (by simpa using h), hf]
    rfl

/-- What a scalar form at address x meets under mode word a. -/
theorem firstNote_localChecks (c : Ctx) (a x : Word) (n : Nat) :
    firstNote [scopeNote a, trapFlt (vaultCheck c x true n n)] =
      if ScopeOk a then
        if 2 ^ 23 ≤ x.toNat then .trap 5 0x20 x
        else if x.toNat % n ≠ 0 then .trap 5 0x21 x
        else if arenaBytes c < x.toNat + n then .trap 5 0x20 x else .quiet
      else .trap 5 0x09 (w64 (a.toNat / 16 % 8)) := by
  rw [firstNote_scopeNote, firstNote_trapFlt, vaultCheck_local, apply_ite trapFlt, apply_ite trapFlt, apply_ite trapFlt]
  rfl

/-! ## The obligation -/

/-- Settles O19: no hold stands before the checks, which R185 and R169 order (`firstNote_localChecks`). -/
theorem localAccessFaults : Obligations.LocalAccessFaults := by
  unfold Obligations.LocalAccessFaults
  intro s g src hl ha a sz scopeOk faults
  have hsz : lsSize a = sz := congrArg (2 ^ ·) (fld_zero a 2)
  have refused {i : Instr} {port : Nat} {x : Word} {gs : List Seg} {store : Bool} {eff : Val → Nat → State → State}
      (hr : Ready s 8 port false g src) (hi : exec i s = lsLocal port 1 4 x (lsSize a) (lsSize a) gs store [] g src eff s) :
      faults i x := by
    rw [hsz] at hi
    have traps {code : Nat} {v : Word}
        (hn : firstNote [scopeNote a, trapFlt (vaultCheck s.iss.ctx x true sz sz)] = .trap 5 code v) : Traps s i code v :=
      ⟨5, hi.trans (lsLocal_traps s port 1 4 x sz sz gs store g src eff code v hr (localHold_of_none _ _ _ hl ha) hn)⟩
    refine ⟨fun h => traps ?_, fun h hx => traps ?_, fun h hx hm => traps ?_, fun h hx hm he => traps ?_⟩
    · rw [firstNote_localChecks, if_neg h]
    · rw [firstNote_localChecks, if_pos h, if_pos hx]
    · rw [firstNote_localChecks, if_pos h, if_neg (Nat.not_le.2 hx), if_pos hm]
    · rw [firstNote_localChecks, if_pos h, if_neg (Nat.not_le.2 hx), if_neg (not_not.2 hm), if_pos he]
  have hload : exec (.lsLds g src) s = execLsLds g src s := rfl
  have hstore : exec (.lsSts g src) s = execLsSts g src s := rfl
  unfold execLsLds at hload
  unfold execLsSts at hstore
  exact ⟨fun hr => refused hr hload, fun hr => refused hr hstore⟩

end Sys2Proof.Machine
end

section
/-!
PROOFS. Granted local accesses are performed (O22).
-/

namespace Sys2Proof.Machine

/-! ## One access of one context (R154, R193, R410) -/

/-- A fold in which one element alone acts, before and after it has acted, is that element's action. -/
theorem foldl_of_single {α β : Type} (f : β → α → β) (i : α) (l : List α) (b : β) (hl : l.Nodup) (hi : i ∈ l)
    (before : ∀ j ∈ l, j ≠ i → f b j = b) (after : ∀ j ∈ l, j ≠ i → f (f b i) j = f b i) : l.foldl f b = f b i := by
  induction l with
  | nil => simp at hi
  | cons j l ih =>
    obtain ⟨hj, hl⟩ := List.nodup_cons.1 hl
    by_cases e : j = i
    · subst e
      have quiet : ∀ (m : List α), (∀ k ∈ m, f (f b j) k = f b j) → m.foldl f (f b j) = f b j := by
        intro m hm
        induction m with
        | nil => rfl
        | cons k m im => rw [List.foldl_cons, hm k List.mem_cons_self, im fun k hk => hm k (List.mem_cons_of_mem _ hk)]
      exact quiet l fun k hk => after k (List.mem_cons_of_mem _ hk) fun h => hj (h ▸ hk)
    · rw [List.foldl_cons, before j List.mem_cons_self e]
      exact ih hl ((List.mem_cons.1 hi).resolve_left (Ne.symm e)) (fun k hk => before k (List.mem_cons_of_mem _ hk))
        fun k hk => after k (List.mem_cons_of_mem _ hk)

theorem onlyStores_performSeg (s : State) (a : LocalAcc) (g : Seg) : OnlyStores s (performSeg s a g).1 := by
  unfold performSeg
  split
  · dsimp only
    split
    · exact .refl s
    · exact onlyStores_wr s _ _ _
  · split
    · exact .refl s
    · dsimp only
      split
      · exact onlyStores_wr s _ _ _
      · exact .refl s
  · exact .refl s

/-- A bank row changes the data of its access alone. -/
theorem performSeg_acc (s : State) (a : LocalAcc) (g : Seg) :
    (performSeg s a g).2 = { a with data := (performSeg s a g).2.data } := by
  unfold performSeg accRead
  split
  · rfl
  · split <;> rfl
  · split <;> rfl

/-- The state that one granted row leaves, of an access with no other. -/
def rowPerformed (s : State) (n : Nat) (a : LocalAcc) (g : Seg) : State :=
  ((performSeg s a g).1.updCore (coreOf n) fun k => k.count 0x0B 1).updCtx n fun c =>
    accDone { c with accs := c.accs.filter (· ≠ a) } { (performSeg s a g).2 with won := [] }

theorem performOne_of_row (s : State) (n : Nat) (a : LocalAcc) (g : Seg) (hm : a.fin ≠ .mat) (hs : a.segs = [])
    (hw : a.won = [g]) : performOne s n a = rowPerformed s n a g := by
  have hsegs : (performSeg s a g).2.segs = [] := by rw [performSeg_acc, hs]
  have hcount : rowCount [g] = 1 := rfl
  simp [performOne, rowPerformed, hw, hm, hsegs, hcount]

theorem performWon_of_one (s : State) (n : Nat) (a : LocalAcc) (h : (s.ctx n).accs = [a])
    (hb : segsBad s a a.won = none) : performWon s n = performOne s n a := by
  simp [performWon, performWon.go, h, bankError, hb]

theorem ctx_rowPerformed_other (s : State) (n m : Nat) (a : LocalAcc) (g : Seg) (h : m ≠ n) :
    (rowPerformed s n a g).ctx m = s.ctx m := by
  rw [rowPerformed, State.ctx_updCtx_other _ _ _ _ h, State.ctx_updCore]
  exact State.ctx_of_ctxs (onlyStores_performSeg s a g).ctxs m

theorem OnlyStores.cores {s t : State} (h : OnlyStores s t) : t.cores = s.cores := by rw [h]

theorem OnlyStores.core {s t : State} (h : OnlyStores s t) (k : Nat) : t.core k = s.core k :=
  congrArg (KMap.get Core.reset · k) h.cores

/-- Where one access of one context of the core has won its last row, that row is performed and nothing else happens. -/
theorem exec_localAccessPerform_row (s : State) (c i : Nat) (a : LocalAcc) (g : Seg) (hi : i < 4)
    (ho : ∀ j, j < 4 → j ≠ i → (s.ctx (4 * c + j)).accs = []) (ha : (s.ctx (4 * c + i)).accs = [a])
    (hs : a.segs = []) (hw : a.won = [g]) (hm : a.fin ≠ .mat) (hb : segsBad s a a.won = none) :
    exec (.localAccessPerform c) s = .next (rowPerformed s (4 * c + i) a g) := by
  have acts : performWon s (4 * c + i) = rowPerformed s (4 * c + i) a g :=
    (performWon_of_one s _ a ha hb).trans (performOne_of_row s _ a g hm hs hw)
  show execLocalAccessPerform c s = _
  unfold execLocalAccessPerform
  rw [foldl_of_single _ i _ s List.nodup_range (List.mem_range.2 hi)]
  · rw [if_neg (by simp [ha]), acts]
  · intro j hj hji
    rw [if_pos (ho j (List.mem_range.1 hj) hji)]
  · intro j hj hji
    rw [if_neg (by simp [ha] : ¬(s.ctx (4 * c + i)).accs = []), acts, if_pos]
    rw [ctx_rowPerformed_other _ _ _ _ _ (by omega)]
    exact ho j (List.mem_range.1 hj) hji

/-- What the performance of one row leaves: of its context what `accDone` makes of the access, one row counted, and the
memory of its row. -/
theorem localAccessPerform_leaves (s : State) (c i : Nat) (a : LocalAcc) (g : Seg) (f : Ctx → Ctx) (m : Nat → Byte)
    (hi : i < 4) (ho : ∀ j, j < 4 → j ≠ i → (s.ctx (4 * c + j)).accs = []) (ha : (s.ctx (4 * c + i)).accs = [a])
    (hs : a.segs = []) (hw : a.won = [g]) (hm : a.fin ≠ .mat) (hb : segsBad s a a.won = none)
    (hf : accDone { s.ctx (4 * c + i) with accs := [] } { (performSeg s a g).2 with won := [] } = f (s.ctx (4 * c + i)))
    (hmem : ∀ x, Memory.read (performSeg s a g).1.mem x = m x) :
    ∃ t, exec (.localAccessPerform c) s = .next t ∧ t.ctx (4 * c + i) = f (s.ctx (4 * c + i)) ∧
      (∀ k, k ≠ 4 * c + i → t.ctx k = s.ctx k) ∧ (∀ k, k ≠ coreOf (4 * c + i) → t.core k = s.core k) ∧
      t.core (coreOf (4 * c + i)) = (s.core (coreOf (4 * c + i))).count 0x0B 1 ∧ ∀ x, Memory.read t.mem x = m x := by
  have stores := onlyStores_performSeg s a g
  refine ⟨_, exec_localAccessPerform_row s c i a g hi ho ha hs hw hm hb, ?_, fun k hk => ?_, fun k hk => ?_, ?_, hmem⟩
  · rw [rowPerformed, State.ctx_updCtx, State.ctx_updCore, State.ctx_of_ctxs stores.ctxs, ← hf, ha]
    simp
  · exact ctx_rowPerformed_other s _ k a g hk
  · rw [rowPerformed, State.core_updCtx, State.core_updCore_other _ _ _ _ hk, stores.core]
  · rw [rowPerformed, State.core_updCtx, State.core_updCore, stores.core]

/-! ## Bytes -/

/-- A byte of a number cut to whole bytes. -/
theorem ofNat_byte_of_mod (v n k : Nat) (h : k < n) :
    BitVec.ofNat 8 ((v % 2 ^ (8 * n)) >>> (8 * k)) = BitVec.ofNat 8 (v >>> (8 * k)) := by
  apply BitVec.eq_of_getLsbD_eq
  intro i hi
  have hlt : 8 * k + i < 8 * n := by omega
  rw [BitVec.getLsbD_ofNat, BitVec.getLsbD_ofNat, Nat.testBit_shiftRight, Nat.testBit_shiftRight,
    Nat.testBit_mod_two_pow, decide_eq_true hlt, Bool.true_and]

/-- The state after an atomic: a word is stored, or none is (R194). -/
def State.storeWord (s : State) (pa : Nat) : Option Word → State
  | some v => s.wr64 pa v
  | none => s

theorem performSeg_atom (s : State) (a : LocalAcc) (g : Seg) (op : Nat) (cmp arg : Word)
    (hf : a.fin = .atom op cmp arg) (hd : a.dead = false) : performSeg s a g =
      (s.storeWord g.pa (atomicOp op (s.rd64 g.pa) cmp arg).1, { a with data := (s.rd64 g.pa).toNat }) := by
  simp only [performSeg, hf, hd]
  cases (atomicOp op (s.rd64 g.pa) cmp arg).1 <;> rfl

/-! ## The obligation -/

/-- Settles O22: the one granted row is performed (`localAccessPerform_leaves`), which stores, loads or does the atomic
according to what the access is. -/
theorem localAccessPerformed : Obligations.LocalAccessPerformed := by
  unfold Obligations.LocalAccessPerformed
  intro s c i a pa len hi n ho ha hrem hs hw hdead hb hwf done lands leaves
  have hrise : Rising s.mem := ((wf_iff s.mem).1 hwf).1
  have performed (f : Ctx → Ctx) (m : Nat → Byte) (hm : a.fin ≠ .mat)
      (hf : accDone { s.ctx n with accs := [] } { (performSeg s a ⟨pa, len, 0⟩).2 with won := [] } = f (s.ctx n))
      (hmem : ∀ x, Memory.read (performSeg s a ⟨pa, len, 0⟩).1.mem x = m x) : leaves f m :=
    localAccessPerform_leaves s c i a ⟨pa, len, 0⟩ f m hi ho ha hs hw hm hb hf hmem
  refine ⟨fun hf => ?_, ?_, ?_⟩
  · have hseg : performSeg s a ⟨pa, len, 0⟩ = (s.wr pa (a.data % 2 ^ (8 * len)) len, a) := by
      simp [performSeg, hf, hdead, segSlice, bits]
    refine performed _ _ (by simp [hf]) ?_ fun x => ?_
    · simp only [hseg, accDone, hf]
      rfl
    · rw [hseg, read_wr _ _ _ _ _ hrise]
      split
      · exact ofNat_byte_of_mod _ _ _ (by omega)
      · rfl
  · intro sx hf hdata
    have hseg : performSeg s a ⟨pa, len, 0⟩ = (s, { a with data := s.rd pa len }) := by
      simp [performSeg, accRead, hf, hdead, hdata]
    refine performed (fun x => done (lands x (3 + a.early) 8 (loadScalar len sx (s.rd pa len)) 0)) _ (by simp [hf]) ?_
      fun x => ?_
    · simp only [hseg, accDone, hf, hrem]
      rfl
    · rw [hseg]
  · intro op cmp arg hf hlen old
    have hseg := performSeg_atom s a ⟨pa, len, 0⟩ op cmp arg hf hdead
    have hold : w64 old.toNat = old := BitVec.ofNat_toNat 64 old
    refine performed (fun x => done (lands x (7 + a.early) 9 old (atomicOp op old cmp arg).2)) _ (by simp [hf]) ?_
      fun x => ?_
    · simp only [hseg, accDone, hf, hrem, hdead]
      rw [show w64 (s.rd64 pa).toNat = old from hold]
      rfl
    · rw [hseg]
      cases (atomicOp op old cmp arg).1 with
      | none => rfl
      | some v => exact read_wr s pa v.toNat 8 x hrise

end Sys2Proof.Machine
end

section
/-!
PROOFS. Lateral accesses are performed and complete (O24).
-/

namespace Sys2Proof.Machine

/-! ## At the owning bank (R156, R189, R195) -/

@[simp] theorem badIn_touch (s : State) (pa n qa m : Nat) : (s.touch pa n).badIn qa m = s.badIn qa m := by
  rw [onlyRead_touch s pa n]; rfl
@[simp] theorem rd_touch (s : State) (pa n qa m : Nat) : (s.touch pa n).rd qa m = s.rd qa m := by
  rw [onlyRead_touch s pa n]; rfl
@[simp] theorem rd64_touch (s : State) (pa n qa : Nat) : (s.touch pa n).rd64 qa = s.rd64 qa := by
  rw [State.rd64, rd_touch]; rfl
@[simp] theorem replyOf_touch (s : State) (pa n q src : Nat) : replyOf (s.touch pa n) q src = replyOf s q src := by
  rw [onlyRead_touch s pa n]; rfl
theorem touch_ctxs (s : State) (pa n : Nat) : (s.touch pa n).ctxs = s.ctxs := by rw [onlyRead_touch s pa n]

/-- R197: an access that meets an erroneous word does nothing. -/
theorem performLat_bad (s : State) (n : Nat) (l : LatAcc) (h : s.badIn l.pa l.len ≠ none) :
    performLat s n l = (s, { l with performed := true, bad := true }) := by
  rw [performLat, if_pos (Option.isSome_iff_ne_none.2 h)]

/-- R189: a lateral load takes its bytes. -/
theorem performLat_load (s : State) (n : Nat) (l : LatAcc) (hb : s.badIn l.pa l.len = none) (ha : l.atom = none) :
    performLat s n l = (s, { l with performed := true, data := s.rd l.pa l.len }) := by
  simp [performLat, hb, ha]

/-- R195: an atomic that was sent again finds its old word in the reply cache. -/
theorem performLat_cached (s : State) (n : Nat) (l : LatAcc) (op : Nat) (cmp arg : Word) (p : BitVec 8 × Word)
    (hb : s.badIn l.pa l.len = none) (ha : l.atom = some (op, cmp, arg))
    (hc : (replyOf s (quadOfPA l.pa) n).find? (fun p => p.1 = l.seqNo) = some p) : performLat s n l =
      (s, { l with performed := true, data := p.2.toNat, flg := (atomicOp op p.2 cmp arg).2 }) := by
  simp [performLat, hb, ha, hc]

/-- The state in which an atomic's old word stands in the reply cache of its bank (R195). -/
def cacheReply (s : State) (n : Nat) (l : LatAcc) (old : Word) : State :=
  let words := (l.seqNo, old) :: replyOf s (quadOfPA l.pa) n
  { s with replyCache := KMap.put s.replyCache (quadOfPA l.pa * 4096 + n) (words.take 4) }

/-- R195: a new atomic takes the old word, writes the new one and leaves the old one in the reply cache. -/
theorem performLat_atomic (s : State) (n : Nat) (l : LatAcc) (op : Nat) (cmp arg : Word)
    (hb : s.badIn l.pa l.len = none) (ha : l.atom = some (op, cmp, arg))
    (hc : (replyOf s (quadOfPA l.pa) n).find? (fun p => p.1 = l.seqNo) = none) : performLat s n l =
      (cacheReply (s.storeWord l.pa (atomicOp op (s.rd64 l.pa) cmp arg).1) n l (s.rd64 l.pa),
        { l with performed := true, data := (s.rd64 l.pa).toNat, flg := (atomicOp op (s.rd64 l.pa) cmp arg).2 }) := by
  rw [performLat, hb, ha]
  simp only [hc]
  cases (atomicOp op (s.rd64 l.pa) cmp arg).1 <;> rfl

theorem storeWord_ctxs (s : State) (pa : Nat) (v : Option Word) : (s.storeWord pa v).ctxs = s.ctxs := by cases v <;> rfl

/-! ## The event of a performance -/

theorem hasLat_of_find (c : Ctx) (id : Nat) (l : LatAcc) (h : c.lats.find? (fun x => x.id = id) = some l) :
    hasLat id c = true :=
  List.any_eq_true.2 ⟨l, List.mem_of_find?_eq_some h, by simpa using List.find?_some h⟩

theorem findImage_of_own (s : State) (n : Nat) (p : Ctx → Bool) (h : p (s.ctx n) = true) :
    findImage s n p = some (s.ctx n) := if_pos h

theorem updImage_of_own (s : State) (n : Nat) (p : Ctx → Bool) (f : Ctx → Ctx) (h : p (s.ctx n) = true) :
    updImage s n p f = s.updCtx n f := if_pos h

/-- A context whose lateral access was performed as x. -/
def latDone (id : Nat) (l x : LatAcc) (c : Ctx) : Ctx :=
  { c with
    lats := listUpd (fun y => y.id = id) (fun _ => x) c.lats
    ctl := { c.ctl with old := c.ctl.old - 1, ost := if l.atom.isSome then c.ctl.ost - 1 else c.ctl.ost } }

theorem exec_lateralPerform (s u : State) (n id : Nat) (l x : LatAcc)
    (h : (s.ctx n).lats.find? (fun x => x.id = id) = some l) (hp : l.performed = false) (hs : l.sent = true)
    (hq : performLat (s.touch l.pa l.len) n l = (u, x)) (hu : u.ctxs = s.ctxs) :
    exec (.lateralPerform n id) s = .next (u.updCtx n (latDone id l x)) := by
  have own := hasLat_of_find _ id l h
  show execLateralPerform n id s = _
  unfold execLateralPerform
  rw [findImage_of_own s n _ own, Option.bind_some, h]
  simp only [hp, hs, hq]
  exact congrArg Host.Outcome.next (updImage_of_own u n _ _ (by rw [State.ctx_of_ctxs hu]; exact own))

/-- What a performance leaves: the access as performed, the counts of R193 and the memory of its bank. -/
theorem lateralPerform_leaves (s u : State) (n id : Nat) (l x : LatAcc)
    (h : (s.ctx n).lats.find? (fun x => x.id = id) = some l) (hp : l.performed = false) (hs : l.sent = true)
    (hq : performLat (s.touch l.pa l.len) n l = (u, x)) (hu : u.ctxs = s.ctxs) (hid : x.id = l.id) :
    ∃ t, exec (.lateralPerform n id) s = .next t ∧ (t.ctx n).lats.find? (fun x => x.id = id) = some x ∧
      (t.ctx n).ctl = { (s.ctx n).ctl with
        old := (s.ctx n).ctl.old - 1, ost := (s.ctx n).ctl.ost - (if l.atom.isSome then 1 else 0) } ∧
      t.mem = u.mem := by
  have hl : l.id = id := by simpa using List.find?_some h
  refine ⟨_, exec_lateralPerform s u n id l x h hp hs hq hu, ?_, ?_, rfl⟩
  · rw [State.ctx_updCtx, State.ctx_of_ctxs hu]
    show (listUpd _ _ (s.ctx n).lats).find? _ = _
    rw [find?_listUpd _ _ (fun _ _ => by simpa using hid.trans hl), h]
    rfl
  · rw [State.ctx_updCtx, State.ctx_of_ctxs hu, latDone]
    cases l.atom.isSome <;> simp

/-! ## At the issuer (R190, R191, R197) -/

theorem latRow_wrote (t k : Nat) (v : Row) (r : Regs) : (latRow t k v r).wrote = r.wrote := by
  unfold latRow
  split <;> rfl

/-- A row that a lateral load brings is written where nothing else has written it in the clk. -/
theorem tileRow_latRow (t k : Nat) (v : Row) (r : Regs) (j : Nat) (hj : j < 8) :
    tileRow ((latRow t k v r).treg t) j = if j = k ∧ 8 * t + j ∉ r.wrote then v else tileRow (r.treg t) j := by
  unfold latRow
  by_cases hw : 8 * t + k ∈ r.wrote
  · rw [if_pos (by simpa using hw), if_neg fun h => h.2 (h.1 ▸ hw)]
  · rw [if_neg (by simpa using hw)]
    refine ((setRow_setTag_spec r t k v 0).1 j hj).trans ?_
    by_cases e : j = k
    · rw [if_pos e, if_pos ⟨e, e ▸ hw⟩]
    · rw [if_neg e, if_neg fun h => e h.1]

theorem treg_latRow_other (t k : Nat) (v : Row) (r : Regs) (m : Nat) (h : m ≠ t) :
    (latRow t k v r).treg m = r.treg m := by
  unfold latRow
  split
  · rfl
  · exact (setRow_setTag_spec r t k v 0).2.1 m h

/-- The registers after some rows that a lateral load brings. -/
def latRows (t : Nat) (v : Nat → Row) (r : Regs) (ks : List Nat) : Regs := ks.foldl (fun r k => latRow t k (v k) r) r

theorem tileRow_latRows (t : Nat) (v : Nat → Row) (j : Nat) (hj : j < 8) (ks : List Nat) : ∀ r : Regs,
    tileRow ((latRows t v r ks).treg t) j = if j ∈ ks ∧ 8 * t + j ∉ r.wrote then v j else tileRow (r.treg t) j := by
  induction ks with
  | nil => intro r; simp [latRows]
  | cons k ks ih =>
    intro r
    refine (ih (latRow t k (v k) r)).trans ?_
    rw [latRow_wrote, tileRow_latRow _ _ _ _ _ hj]
    by_cases hw : 8 * t + j ∈ r.wrote
    · simp [hw]
    · by_cases hk : j = k
      · subst hk
        simp [hw]
      · simp [hw, hk]

theorem treg_latRows_other (t : Nat) (v : Nat → Row) (m : Nat) (h : m ≠ t) (ks : List Nat) (r : Regs) :
    (latRows t v r ks).treg m = r.treg m :=
  foldl_keeps (fun r : Regs => r.treg m) _ (fun r k => treg_latRow_other t k (v k) r m h) ks r

/-- The registers that a completed lateral access leaves (R190, R191). -/
def latRegs (l : LatAcc) (r : Regs) : Regs :=
  if l.atom.isSome then r
  else match l.lk with
    | 0 => r
    | 1 => latRow l.treg l.trow (BitVec.ofNat 2048 l.data) r
    | _ => latRows l.treg (fun k => BitVec.ofNat 2048 (bits l.data (2048 * k) 2048)) r (List.range 8)

theorem latRegs_row (l : LatAcc) (r : Regs) (ha : l.atom = none) (hk : l.lk = 1) :
    latRegs l r = latRow l.treg l.trow (BitVec.ofNat 2048 l.data) r := by
  simp [latRegs, ha, hk]

/-- A row of a number is cut to its width. -/
theorem ofNat_bits (v lo len : Nat) : BitVec.ofNat len (bits v lo len) = BitVec.ofNat len (v >>> lo) := by
  apply BitVec.eq_of_toNat_eq
  simp [bits]

theorem latRegs_tile (l : LatAcc) (r : Regs) (ha : l.atom = none) (hk : l.lk = 2) : latRegs l r =
    latRows l.treg (fun k => BitVec.ofNat 2048 (bits l.data (2048 * k) 2048)) r (List.range 8) := by
  simp [latRegs, ha, hk]

/-- An atomic and a scalar load write no register. -/
theorem latRegs_of_scalar (l : LatAcc) (r : Regs) (h : l.atom.isSome ∨ l.lk = 0) : latRegs l r = r := by
  rcases h with h | h
  · rw [latRegs, if_pos h]
  · simp [latRegs, h]

theorem treg_latRegs_other (l : LatAcc) (r : Regs) (m : Nat) (h : m ≠ l.treg) : (latRegs l r).treg m = r.treg m := by
  unfold latRegs
  split
  · rfl
  · split
    · rfl
    · exact treg_latRow_other _ _ _ _ _ h
    · exact treg_latRows_other _ _ _ h _ _

/-- The value with which a completed lateral access writes its token (R190, R195). -/
def latValue (l : LatAcc) : Word :=
  if l.atom.isSome then w64 l.data else match l.lk with
    | 0 => loadScalar l.len l.sx l.data | 1 => 256 | _ => 2048

theorem latWrites_eq (c : Ctx) (l : LatAcc) : latWrites c l =
    ({ c with
      lats := c.lats.filter fun x => x.id ≠ l.id
      ctl := { c.ctl with flags := c.ctl.flags ||| l.flg }
      regs := latRegs l c.regs }).tokWrite l.tok (latValue l) := by
  unfold latWrites latRegs latValue
  dsimp only
  cases l.atom.isSome
  · simp only [Bool.false_eq_true, if_false]
    generalize l.lk = k
    match k with
    | 0 => rfl
    | 1 => rfl
    | _ + 2 => rfl
  · rfl

theorem exec_lateralCompletion_bad (s : State) (n id : Nat) (l : LatAcc)
    (h : (s.ctx n).lats.find? (fun x => x.id = id) = some l) (hp : l.performed = true) (hb : l.bad = true)
    (hd : (s.ctx n).delivered.length < 16) (hw : ∀ p ∈ (s.ctx n).walks, p.1 ≠ latUnit id) :
    exec (.lateralCompletion n id) s = .next ((s.updCore (coreOf n) fun k => k.count 0x0C 1).updCtx n fun c =>
      { c with delivered := c.delivered ++ [(0x27, l.va, latUnit id)] }) := by
  have own := hasLat_of_find _ id l h
  have hwalk : ((s.ctx n).walks.any fun p => decide (p.1 = latUnit id)) = false :=
    List.any_eq_false.2 fun p hm => by simpa using hw p hm
  show execLateralCompletion n id s = _
  unfold execLateralCompletion
  rw [findImage_of_own s n _ own, Option.bind_some, h]
  simp [hp, hb, deliverImage, own, deliverFault, hd, hwalk]
  rfl

theorem exec_lateralCompletion (s : State) (n id : Nat) (l : LatAcc)
    (h : (s.ctx n).lats.find? (fun x => x.id = id) = some l) (hp : l.performed = true) (hb : l.bad = false) :
    exec (.lateralCompletion n id) s = .next ((s.updCore (coreOf n) fun k => k.count 0x0C 1).updCtx n fun c =>
      latWrites { c with walks := c.walks.del (latUnit id) } l) := by
  have own := hasLat_of_find _ id l h
  show execLateralCompletion n id s = _
  unfold execLateralCompletion
  rw [findImage_of_own s n _ own, Option.bind_some, h]
  simp [hp, hb, updImage, own]

/-- What a completion that met no error leaves of its context. -/
def latCompleted (id : Nat) (l : LatAcc) (c : Ctx) : Ctx := latWrites { c with walks := c.walks.del (latUnit id) } l

theorem latCompleted_regs (id : Nat) (l : LatAcc) (c : Ctx) : (latCompleted id l c).regs = latRegs l c.regs := by
  rw [latCompleted, latWrites_eq]; rfl

theorem latCompleted_tok (id : Nat) (l : LatAcc) (c : Ctx) : (latCompleted id l c).tok l.tok = ⟨.written, latValue l⟩ ∧
    ∀ k, k ≠ l.tok → (latCompleted id l c).tok k = c.tok k := by
  rw [latCompleted, latWrites_eq]
  exact ⟨Ctx.tok_setTok _ _ _, fun k hk => Ctx.tok_setTok_other _ _ _ _ hk⟩

theorem latCompleted_lats (id : Nat) (l : LatAcc) (c : Ctx) :
    (latCompleted id l c).lats = c.lats.filter fun x => decide (x.id ≠ l.id) := by
  rw [latCompleted, latWrites_eq]; rfl

theorem latCompleted_flags (id : Nat) (l : LatAcc) (c : Ctx) :
    (latCompleted id l c).ctl.flags = c.ctl.flags ||| l.flg := by
  rw [latCompleted, latWrites_eq]; rfl

theorem lateralCompletion_leaves (s : State) (n id : Nat) (l : LatAcc)
    (h : (s.ctx n).lats.find? (fun x => x.id = id) = some l) (hp : l.performed = true) (hb : l.bad = false) :
    ∃ t, exec (.lateralCompletion n id) s = .next t ∧ t.mem = s.mem ∧ t.ctx n = latCompleted id l (s.ctx n) ∧
      ∀ m, m ≠ n → t.ctx m = s.ctx m := by
  refine ⟨_, exec_lateralCompletion s n id l h hp hb, rfl, ?_, fun m hm => ?_⟩
  · rw [State.ctx_updCtx, State.ctx_updCore]; rfl
  · rw [State.ctx_updCtx_other _ _ _ _ hm, State.ctx_updCore]

/-! ## The obligation -/

/-- Settles O24: what a performance is by the four lemmas of `performLat`, and what a completion writes by `latWrites_eq`. -/
theorem lateralsPerformed : Obligations.LateralsPerformed := by
  unfold Obligations.LateralsPerformed
  intro s n id l h replies cached performs
  have leaves (u : State) (x : LatAcc) (hp : l.performed = false) (hs : l.sent = true)
      (hq : performLat (s.touch l.pa l.len) n l = (u, x)) (hu : u.ctxs = s.ctxs) (hid : x.id = l.id) :
      performs x u.mem := lateralPerform_leaves s u n id l x h hp hs hq hu hid
  have hmem : (s.touch l.pa l.len).mem = s.mem := (onlyRead_touch s l.pa l.len).mem
  refine ⟨fun hp hs hb => ⟨fun ha => ?_, fun op cmp arg ha => ⟨fun hc => ?_, fun p hc => ?_⟩⟩, fun hp hs hb => ?_,
    fun hp hb hd hw => ?_, fun hp hb => ?_⟩
  · have hq := performLat_load (s.touch l.pa l.len) n l (by rwa [badIn_touch]) ha
    rw [rd_touch] at hq
    rw [← hmem]
    exact leaves _ _ hp hs hq (touch_ctxs _ _ _) rfl
  · have hq := performLat_atomic (s.touch l.pa l.len) n l op cmp arg (by rwa [badIn_touch]) ha
      (by rwa [replyOf_touch])
    rw [rd64_touch] at hq
    cases hv : (atomicOp op (s.rd64 l.pa) cmp arg).1 with
    | none =>
      rw [hv] at hq
      show performs _ s.mem
      rw [← hmem]
      exact (leaves _ _ hp hs hq (touch_ctxs _ _ _) rfl :)
    | some v =>
      rw [hv] at hq
      show performs _ (Memory.writeN s.mem l.pa v.toNat 8)
      rw [← hmem]
      exact leaves _ _ hp hs hq (touch_ctxs _ _ _) rfl
  · have hq := performLat_cached (s.touch l.pa l.len) n l op cmp arg p (by rwa [badIn_touch]) ha
      (by rwa [replyOf_touch])
    rw [← hmem]
    exact leaves _ _ hp hs hq (touch_ctxs _ _ _) rfl
  · have hq := performLat_bad (s.touch l.pa l.len) n l (by rwa [badIn_touch])
    rw [← hmem]
    exact leaves _ _ hp hs hq (touch_ctxs _ _ _) rfl
  · refine ⟨_, exec_lateralCompletion_bad s n id l h hp hb hd hw, rfl, fun m hm => ?_, ?_⟩
    · rw [State.ctx_updCtx_other _ _ _ _ hm, State.ctx_updCore]
    · rw [State.ctx_updCtx, State.ctx_updCore]
  · have hl : l.id = id := by simpa using List.find?_some h
    obtain ⟨t, ht, htm, hctx, hother⟩ := lateralCompletion_leaves s n id l h hp hb
    obtain ⟨htok, htoks⟩ := latCompleted_tok id l (s.ctx n)
    refine ⟨t, ht, htm, ?_, hother, ?_, ?_, ?_, ?_, ?_⟩
    · rw [hctx, latCompleted_lats, hl]
    · rw [hctx, latCompleted_flags]
    · rw [hctx, htok]; rfl
    · rw [hctx]; exact htoks
    · rw [hctx]
      intro kept row new
      refine ⟨fun ha hk ht k hk8 => ?_, fun ha hk k hk8 => ?_, fun ha r hr => ?_⟩
      · show tileRow ((latCompleted id l (s.ctx n)).regs.treg l.treg) k = _
        rw [latCompleted_regs, latRegs_row _ _ ha hk, tileRow_latRow _ _ _ _ _ hk8]
      · show tileRow ((latCompleted id l (s.ctx n)).regs.treg l.treg) k = _
        rw [latCompleted_regs, latRegs_tile _ _ ha hk, tileRow_latRows _ _ _ hk8]
        by_cases hw : kept k
        · rw [if_neg fun e => e.2 hw, if_pos hw]
        · rw [if_pos ⟨List.mem_range.2 hk8, hw⟩, if_neg hw, ofNat_bits]
      · rw [latCompleted_regs, treg_latRegs_other _ _ _ hr]
    · rw [hctx, latCompleted_regs]
      exact latRegs_of_scalar l _

end Sys2Proof.Machine
end

section
/-!
PROOFS. Control-block and management words, boot, power and reset (O53).
-/

namespace Sys2Proof.Machine

/-! ## A go move that nothing refuses (R264-R266) -/

theorem firstNote_of_quiet (l : List Note) (h : ∀ x ∈ l, x = .quiet) : firstNote l = .quiet := by
  induction l with
  | nil => rfl
  | cons x l ih =>
    rw [h x List.mem_cons_self]
    exact ih fun y hy => h y (List.mem_cons_of_mem _ hy)

/-- The command that a go move captures which completes it by nothing. -/
def plainCmd (c : Ctx) (id fu port : Nat) (v : Word) (after : List Nat) : Cmd :=
  { newCmd c id fu port v with after := after }

/-- What such a move does once it is charged: its command takes a serial number and enters its queue. -/
def enterPlain (c : Ctx) (fu port : Nat) (tok : Option Nat) (v : Val) (s : State) : State :=
  let u := s.ser (s.serial + 1)
  onCtx (fun x => x.enter (plainCmd c s.serial fu port v.word (openIds u u.iss.n c ++ c.creqs.map (·.id))) tok) u

theorem goMove_plain (s : State) (fu port : Nat) (chk : List Note) (tok : Option Nat) (g : BitVec 4) (src : BitVec 9) :
    goMove fu port [] chk tok (fun _ q => q) (fun _ s => s) g src s =
      trigger fu port 1 2 true [blockIf (queueFull s.iss.ctx fu)] chk g src (enterPlain s.iss.ctx fu port tok) s := rfl

/-- A go move to an open queue whose checks are quiet enters its command. -/
theorem goMove_completes (s : State) (i : Instr) (fu port : Nat) (chk : List Note) (tok : Option Nat) (g : BitVec 4)
    (src : BitVec 9) (hi : exec i s = goMove fu port [] chk tok (fun _ q => q) (fun _ s => s) g src s)
    (ho : queueFull s.iss.ctx fu = false) (hc : firstNote chk = .quiet) :
    ∃ after, Completes s i fu port 1 2 true g src fun c =>
      c.enter (plainCmd s.iss.ctx s.serial fu port (trigT s src) after) tok := by
  refine ⟨openIds ((charge (consume s src) 2).ser (s.serial + 1)) s.iss.n s.iss.ctx ++ s.iss.ctx.creqs.map (·.id),
    completes s i fu port 1 2 (s.serial + 1) true _ chk g src _ _
      (hi.trans (goMove_plain ..)) ?_ hc ?_⟩
  · rw [firstNote_blockIf, ho]; rfl
  · unfold enterPlain onCtx
    dsimp only
    rw [charged_serial, ser_iss, charged_n]
    rfl

/-- R266: physical endpoints of a privileged context meet nothing. -/
theorem epNotes_physical (c : Ctx) (eps : List (Word × Int × Nat)) (hp : c.ctl.priv = true)
    (h : ∀ e ∈ eps, ek e.1 = 4) : firstNote (epNotes c eps 0 []) = .quiet := by
  have privileged : eps.find? (fun e => ek e.1 = 4 && !c.ctl.priv) = none :=
    List.find?_eq_none.2 fun e _ => by simp [hp]
  have unbound : eps.find? (fun e =>
      (ek e.1 = 2 && !(c.cb (fld e.1 0 4)).cfg) || (ek e.1 = 3 && !(c.sk (fld e.1 56 3)).cfg)) = none :=
    List.find?_eq_none.2 fun e he => by simp [h e he]
  have small : eps.find? (fun e => ek e.1 = 2 && decide (256 * (c.cb (fld e.1 0 4)).rps < 0)) = none :=
    List.find?_eq_none.2 fun e he => by simp [h e he]
  have outside : (([] : List (Option Flt)) ++ eps.map fun e => epOut c e.1 e.2.1 e.2.2).filterMap id = [] := by
    rw [List.nil_append, List.filterMap_map, List.filterMap_eq_nil_iff]
    intro e he
    simp [epOut, h e he]
  unfold epNotes
  rw [privileged, unbound, small, lowestFlt, outside]
  rfl

/-- An endpoint of one of the kinds that are taken is not bad for more kinds. -/
theorem epBad_mono (a : Word) (ks ls : List Nat) (hs : ∀ k ∈ ks, k ∈ ls) (h : epBad a ks = false) :
    epBad a ls = false := by
  simp only [epBad, Bool.or_eq_false_iff, Bool.not_eq_false', List.contains_iff_mem] at h ⊢
  exact ⟨⟨hs _ h.1.1, h.1.2⟩, h.2⟩

/-- The checks of `ce.cmp` with go word t (R271). -/
def ceCmpChecks (s : State) (t : Word) : List Note :=
  let c := s.iss.ctx
  let n := fld (c.portW 16 2) 0 40
  goNotes s t ++ [epMode (c.portW 16 0) srcKinds, epMode (c.portW 16 1) srcKinds,
      trapIf (decide (n = 0)) 0x0A (c.portW 16 2)] ++
    epNotes c [(c.portW 16 0, 0, n), (c.portW 16 1, 0, n)] 0 []

theorem exec_ceCmp (s : State) (g : BitVec 4) (src : BitVec 9) : exec (.ceCmp g src) s =
    goMove 16 5 [] (ceCmpChecks s (trigT s src)) (goTok (trigT s src)) (fun _ q => q) (fun _ s => s) g src s := rfl

/-- A go word with a scope, a free token and no reserved bit meets none of the first checks of R266. -/
theorem goNotes_quiet (s : State) (t : Word) (hs : t.toNat % 8 < 6) (hr : t.getLsbD 63 = false)
    (ht : ∀ k, goTok t = some k → (s.iss.ctx.tok k).st ≠ .pending) : firstNote (goNotes s t) = .quiet := by
  have hfree : ((goTok t).any fun k => decide ((s.iss.ctx.tok k).st = .pending)) = false := by
    cases hk : goTok t with
    | none => rfl
    | some k => simpa using ht k hk
  have hscope : fld t 0 3 < 6 := (fld_zero t 3).trans_lt hs
  rw [goNotes, firstNote_trapIf, firstNote_trapIf, firstNote_trapIf, hfree, hr, decide_eq_false (Nat.not_le.2 hscope)]
  rfl

/-- `ce.cmp` of two physical endpoints by a privileged context meets nothing. -/
theorem ceCmpChecks_quiet (s : State) (t : Word) (hs : t.toNat % 8 < 6) (hr : t.getLsbD 63 = false)
    (ht : ∀ k, goTok t = some k → (s.iss.ctx.tok k).st ≠ .pending)
    (he : ∀ i, i < 2 → ek (s.iss.ctx.portW 16 i) = 4 ∧ epBad (s.iss.ctx.portW 16 i) [4] = false)
    (hn : fld (s.iss.ctx.portW 16 2) 0 40 ≠ 0) (hp : s.iss.ctx.ctl.priv = true) :
    firstNote (ceCmpChecks s t) = .quiet := by
  have taken (i : Nat) (hi : i < 2) : epBad (s.iss.ctx.portW 16 i) srcKinds = false :=
    epBad_mono _ _ _ (by decide) (he i hi).2
  unfold ceCmpChecks
  rw [List.append_assoc, firstNote_append _ _ (goNotes_quiet s t hs hr ht), epMode, epMode, taken 0 (by norm_num),
    taken 1 (by norm_num), decide_eq_false hn]
  refine epNotes_physical _ _ hp fun e hm => ?_
  rcases List.mem_cons.1 hm with rfl | hm
  · exact (he 0 (by norm_num)).1
  · rw [List.mem_singleton.1 hm]
    exact (he 1 (by norm_num)).1

/-! ## A go word (R162) -/

/-- The machine in which a go word of context n is executed: its side arguments stand in the ports of a latched image. -/
def standIn (s : State) (n fu : Nat) (v : Word) : State :=
  { s.setCtx n (sideCtx (s.ctx n) fu v) with
    iss := ⟨n, 0, 0, (s.ctx n).pc, [], sideCtx (s.ctx n) fu v, s.core (coreOf n), .quiet, 0, false⟩ }

theorem ready_standIn (s : State) (n fu port : Nat) (v : Word) (hp : portPriv fu port = false) :
    Ready (standIn s n fu v) fu port true 0 0 where
  guard := rfl
  allowed h := absurd (hp.symm.trans h) (by simp)
  idle := rfl
  alone _ := .inr rfl
  source := trivial

theorem trigT_standIn (s : State) (n fu : Nat) (v : Word) : trigT (standIn s n fu v) 0 = v :=
  KMap.get_set_same 0 [] 0 v

theorem sourced_standIn (s : State) (n fu : Nat) (v : Word) : sourced (standIn s n fu v) 0 = sideCtx (s.ctx n) fu v :=
  State.ctx_setCtx s n _

/-- A key of consecutive puts reads as the value put under it. -/
theorem get_foldl_put {α : Type} (d : α) (a : Nat) (f : Nat → α) (n i : Nat) (h : i < n) :
    KMap.get d ((List.range n).foldl (fun m i => KMap.put m (a + i) (f i)) []) (a + i) = f i := by
  induction n with
  | zero => omega
  | succ n ih =>
    rw [List.range_succ, List.foldl_append, List.foldl_cons, List.foldl_nil]
    by_cases e : i = n
    · rw [e, KMap.get_put_same]
    · rw [KMap.get_put_other _ _ _ _ _ (by omega)]
      exact ih (by omega)

theorem portW_sideCtx (c : Ctx) (fu : Nat) (v : Word) (i : Nat) (hi : i < 4) :
    (sideCtx c fu v).portW fu i = c.sideArg fu i := by
  have h : KMap.get (Val.s 0) (sideCtx c fu v).ports (4 * fu + i) = .s (c.sideArg fu i) :=
    get_foldl_put _ _ (fun i => Val.s (c.sideArg fu i)) 4 i hi
  rw [Ctx.portW, h]

/-- What a go word leaves whose move completes: the queues, tokens and buffers of the context that the move leaves. -/
theorem goWordWrite_of_next (s r : State) (n fu port : Nat) (v : Word) (hp : 4 ≤ port) (hl : (s.ctx n).live = true)
    (ho : queueFull (s.ctx n) fu = false) (hr : goMeaning fu port (standIn s n fu v) = .next r)
    (hn : r.iss.note = .quiet) : exec (.goWordWrite n fu port v) s =
      .next { s.setCtx n { s.ctx n with queues := (r.ctx n).queues, toks := (r.ctx n).toks, cbs := (r.ctx n).cbs } with
        serial := r.serial, free := r.free } := by
  show execGoWordWrite n fu port v s = _
  unfold execGoWordWrite
  simp only [hl, ho]
  rw [if_neg (by omega)]
  simp only [Bool.not_true, Bool.false_eq_true, if_false]
  show (match goMeaning fu port (standIn s n fu v) with | .next r => _ | _ => _) = _
  rw [hr]
  exact if_pos hn

/-- The context that a go word leaves whose command was entered. -/
def goEntered (c : Ctx) (q : Cmd) (tok : Option Nat) : Ctx :=
  { c with queues := (c.enter q tok).queues, toks := (c.enter q tok).toks, cbs := (c.enter q tok).cbs }

/-- A go word for `ce.cmp` of two physical endpoints enters the command of the side arguments. -/
theorem goWordWrite_ceCmp (s : State) (n : Nat) (v : Word) (hl : (s.ctx n).live = true)
    (hq : ((s.ctx n).queue 16).length < 16) (hf : KMap.get false (s.ctx n).qfence 16 = false) (hs : v.toNat % 8 < 6)
    (hr : v.getLsbD 63 = false) (ht : ∀ k, goTok v = some k → ((s.ctx n).tok k).st ≠ .pending)
    (he : ∀ i, i < 2 → ek ((s.ctx n).sideArg 16 i) = 4 ∧ epBad ((s.ctx n).sideArg 16 i) [4] = false)
    (hn : fld ((s.ctx n).sideArg 16 2) 0 40 ≠ 0) (hp : (s.ctx n).ctl.priv = true) :
    ∃ t after, exec (.goWordWrite n 16 5 v) s = .next t ∧ t.mem = s.mem ∧ t.cores = s.cores ∧
      (∀ m, m ≠ n → t.ctx m = s.ctx m) ∧
      t.ctx n = goEntered (s.ctx n) (plainCmd (sideCtx (s.ctx n) 16 v) s.serial 16 5 v after) (goTok v) := by
  let t := standIn s n 16 v
  have open' : queueFull (s.ctx n) 16 = false := by simp [queueFull, hf, hq]
  have port (i : Nat) (hi : i < 4) : t.iss.ctx.portW 16 i = (s.ctx n).sideArg 16 i := portW_sideCtx _ _ _ i hi
  have quiet : firstNote (ceCmpChecks t (trigT t 0)) = .quiet := by
    rw [trigT_standIn]
    refine ceCmpChecks_quiet t v hs hr ht (fun i hi => ?_) ?_ hp
    · rw [port i (by omega)]
      exact he i hi
    · rw [port 2 (by norm_num)]
      exact hn
  obtain ⟨after, hc⟩ := goMove_completes t (.ceCmp 0 0) 16 5 _ _ 0 0 (exec_ceCmp t 0 0) open' quiet
  obtain ⟨r, hexec, hdid⟩ := hc (ready_standIn s n 16 5 v rfl)
  rw [trigT_standIn, sourced_standIn, Ctx.hold_one] at hdid
  have hctx : r.ctx n = (sideCtx (s.ctx n) 16 v).enter (plainCmd (sideCtx (s.ctx n) 16 v) s.serial 16 5 v after) (goTok v) :=
    hdid.ctx
  refine ⟨_, after, goWordWrite_of_next s r n 16 5 v (by norm_num) hl open' hexec (by rw [hdid.iss]; rfl), rfl, rfl,
    fun m hm => State.ctx_setCtx_other s n m _ hm, (State.ctx_setCtx s n _).trans ?_⟩
  rw [hctx, goEntered]
  cases goTok v <;> rfl

/-- The command stands at the tail of its queue, its token is pending. -/
theorem queue_goEntered (c : Ctx) (q : Cmd) (tok : Option Nat) : (goEntered c q tok).queue q.fu = c.queue q.fu ++ [q] := by
  cases tok <;> exact KMap.get_set_same _ _ _ _

theorem tok_goEntered (c : Ctx) (q : Cmd) (k : Nat) : ((goEntered c q (some k)).tok k).st = .pending :=
  congrArg Token.st (KMap.get_put_same Token.reset c.toks k _)

/-- R162: a side argument word. -/
theorem goWordWrite_side (s : State) (n fu port : Nat) (v : Word) (hp : port < 4) :
    ∃ t, exec (.goWordWrite n fu port v) s = .next t ∧ (t.ctx n).sideArg fu port = v ∧
      (∀ m, m ≠ 4 * fu + port → KMap.get 0 (t.ctx n).side m = KMap.get 0 (s.ctx n).side m) ∧
      t.ctx n = { s.ctx n with side := (t.ctx n).side } ∧ t.mem = s.mem ∧ ∀ m, m ≠ n → t.ctx m = s.ctx m := by
  have hexec : exec (.goWordWrite n fu port v) s =
      .next (s.updCtx n fun c => { c with side := KMap.set 0 c.side (4 * fu + port) v }) := if_pos hp
  refine ⟨_, hexec, ?_, fun m hm => ?_, ?_, rfl, fun m hm => State.ctx_updCtx_other _ _ _ _ hm⟩
  · rw [State.ctx_updCtx]
    exact KMap.get_set_same _ _ _ _
  · rw [State.ctx_updCtx]
    exact KMap.get_set_other _ _ _ _ _ hm
  · rw [State.ctx_updCtx]

/-- R162, R426: a go word for a queue that takes none waits. -/
theorem goWordWrite_waits (s : State) (n fu port : Nat) (v : Word) (hp : 4 ≤ port) (hl : (s.ctx n).live = true)
    (hq : queueFull (s.ctx n) fu = true) :
    exec (.goWordWrite n fu port v) s = .next { s with ctlw := s.ctlw ++ [(n, .goWordWrite n fu port v)] } := by
  show execGoWordWrite n fu port v s = _
  unfold execGoWordWrite
  rw [if_neg (Nat.not_lt.2 hp)]
  simp [hl, hq]

/-! ## Control block registers (R162, R430) -/

theorem controlBlockRegisterWrite_ignored (s : State) (n no : Nat) (v : Word) (hm : memberRuns (s.ctx n) = true)
    (h11 : no ≠ 11) : exec (.controlBlockRegisterWrite n no v) s = .next s := by
  show execControlBlockRegisterWrite n no v s = _
  simp [execControlBlockRegisterWrite, h11, hm]

/-- What a control-register write of a context leaves, and what it leaves alone. -/
theorem ctlWrite_spec (s : State) (n no : Nat) (v : Word) : (ctlWrite s n no v).ctx n = ctlWriteCtx (s.ctx n) no v ∧
    (ctlWrite s n no v).core (coreOf n) = ctlWriteCore (s.core (coreOf n)) no v ∧ (ctlWrite s n no v).mem = s.mem ∧
    (∀ m, m ≠ n → (ctlWrite s n no v).ctx m = s.ctx m) ∧
    ∀ k, k ≠ coreOf n → (ctlWrite s n no v).core k = s.core k := by
  unfold ctlWrite
  refine ⟨?_, ?_, rfl, fun m hm => ?_, fun k hk => ?_⟩
  · rw [State.ctx_updCore, State.ctx_updCtx]
  · rw [State.core_updCore, State.core_updCtx]
  · rw [State.ctx_updCore, State.ctx_updCtx_other _ _ _ _ hm]
  · rw [State.core_updCore_other _ _ _ _ hk, State.core_updCtx]

theorem controlBlockRegisterWrite_written (s : State) (n no : Nat) (v : Word) (hm : memberRuns (s.ctx n) = false)
    (h0 : no ≠ 0) (h11 : no ≠ 11) (hr : ctlRefuse (s.core (coreOf n)) no v = none) :
    exec (.controlBlockRegisterWrite n no v) s = .next (ctlWrite s n no v) := by
  show execControlBlockRegisterWrite n no v s = _
  simp [execControlBlockRegisterWrite, h0, h11, hm, hr]

/-- R430: a write of STOPF with 0 takes the stop back. -/
theorem controlBlockRegisterWrite_stopf (s : State) (n : Nat) (v : Word) (hv : v.getLsbD 0 = false) :
    ∃ t, exec (.controlBlockRegisterWrite n 11 v) s = .next t ∧ t.mem = s.mem ∧
      t.ctx n = { s.ctx n with stopDist := false, ctl := { (s.ctx n).ctl with stopf := false } } ∧
      ∀ m, m ≠ n → t.ctx m = s.ctx m := by
  have hexec : exec (.controlBlockRegisterWrite n 11 v) s = .next (ctlWrite s n 11 v) := by
    show execControlBlockRegisterWrite n 11 v s = _
    unfold execControlBlockRegisterWrite
    rw [hv]
    rfl
  obtain ⟨hctx, -, hmem, hother, -⟩ := ctlWrite_spec s n 11 v
  refine ⟨_, hexec, hmem, hctx.trans ?_, hother⟩
  rw [ctlWriteCtx, hv, Bool.and_false]

/-! ## Words of the management block (R445) -/

section
variable (s : State) (v : Word) (i : Nat)

theorem registerWrite_lbud (h : i < 4) : exec (.registerWrite (0x20 + 8 * i) v) s =
    .next ((updMgmt s fun m => { m with
      lbud := KMap.put m.lbud i (v.extractLsb' 0 16), lthr := KMap.put m.lthr i (v.extractLsb' 16 16) }).at (s.clk + 1)
        false (.leaveGrant i)) := by
  have hk : (0x20 + 8 * i - 0x20) / 8 = i := by omega
  show execRegisterWrite (0x20 + 8 * i) v s = _
  unfold execRegisterWrite
  rw [if_neg (by omega), if_pos (by omega), hk]

theorem registerWrite_svcnt : exec (.registerWrite 0x68 v) s =
    .next (updMgmt s fun m => { m with svcnt := v.setWidth 16 }) := rfl

theorem registerWrite_route (h : i < 1024) : exec (.registerWrite (0x100 + 8 * i) v) s =
    .next (updMgmt s fun m => { m with route := KMap.set 0 m.route i (v.setWidth 5) }) := by
  have hk : (0x100 + 8 * i - 0x100) / 8 = i := by omega
  show execRegisterWrite (0x100 + 8 * i) v s = _
  unfold execRegisterWrite
  rw [if_neg (by omega), if_neg (by omega), if_neg (by omega), if_pos (by omega), hk]

theorem registerWrite_pair0 (h : i < 64) (h8 : i ≠ 8) : exec (.registerWrite (0x2200 + 16 * i) v) s =
    .next (updMgmt s fun m => { m with pair0 := KMap.set 0 m.pair0 i (v.setWidth 42) }) := by
  have hk : (0x2200 + 16 * i - 0x2200) / 16 = i := by omega
  show execRegisterWrite (0x2200 + 16 * i) v s = _
  unfold execRegisterWrite
  rw [if_neg (by omega), if_neg (by omega), if_neg (by omega), if_neg (by omega), if_pos (by omega), hk]
  exact if_pos (by omega)

theorem registerWrite_pair1 (h : i < 64) : exec (.registerWrite (0x2208 + 16 * i) v) s =
    .next (updMgmt s fun m => { m with pair1 := KMap.set 0 m.pair1 i (v.setWidth 26 &&& 0x3FF03FF) }) := by
  have hk : (0x2208 + 16 * i - 0x2200) / 16 = i := by omega
  show execRegisterWrite (0x2208 + 16 * i) v s = _
  unfold execRegisterWrite
  rw [if_neg (by omega), if_neg (by omega), if_neg (by omega), if_neg (by omega), if_pos (by omega), hk]
  exact if_neg (by omega)

theorem registerWrite_nrdrop : exec (.registerWrite 0x2280 v) s = .next s := rfl

end

/-! ## BOOTLEN, MODN, PLIM and SVBASE (R445-R447, R454) -/

/-- BOOTLEN starts verification within a bound (log 2). -/
theorem bootlenWrite_starts (s : State) (v : Word) (h : s.mgmt.boot = 0 ∨ s.mgmt.boot = 3) :
    ∃ t d, exec (.bootlenWrite v) s = .next t ∧ t.mem = s.mem ∧
      t.mgmt = { s.mgmt with boot := 1, why := 0, bootlen := v.setWidth 32 } ∧ 1 ≤ d ∧ d ≤ 1000000 ∧
      ⟨s.clk + d, false, .bootVerifyDone⟩ ∈ t.cal := by
  let u := updMgmt s fun m => { m with boot := 1, why := 0, bootlen := v.setWidth 32 }
  have hexec : exec (.bootlenWrite v) s = .next (u.within 1 1000000 .bootVerifyDone) := if_pos (by simpa using h)
  obtain ⟨d, hlo, hhi, hcal⟩ := State.within_cal u 1 1000000 .bootVerifyDone (by norm_num)
  exact ⟨_, d, hexec, rfl, rfl, hlo, hhi, hcal⟩

theorem bootlenWrite_ignored (s : State) (v : Word) (h0 : s.mgmt.boot ≠ 0) (h3 : s.mgmt.boot ≠ 3) :
    exec (.bootlenWrite v) s = .next s := if_neg (by simpa using ⟨h0, h3⟩)

/-- Does a kernel keep MODN as it is (R447)? -/
abbrev KeepsModn (k : Kern) : Prop := k.st = .placing ∨ k.st = .running ∨ k.st = .stopping ∨ k.st = .preempted

theorem exec_modnWrite (s : State) (v : Word) : exec (.modnWrite v) s =
    if ∃ k ∈ s.dist.kerns, KeepsModn k then .next s
    else .next { s with mgmt := { s.mgmt with modn := v.setWidth 10 } } := by
  have hk (k : Kern) : (onCores k || decide (k.st = .preempted)) = decide (KeepsModn k) := by
    simp [onCores, KeepsModn, Bool.or_assoc]
  have hany : (s.dist.kerns.any fun k => onCores k || decide (k.st = .preempted)) =
      decide (∃ k ∈ s.dist.kerns, KeepsModn k) := by
    simp only [hk]
    exact Bool.eq_iff_iff.2 (by simp)
  show execModnWrite v s = _
  unfold execModnWrite
  rw [hany]
  by_cases h : ∃ k ∈ s.dist.kerns, KeepsModn k
  · rw [if_pos h, if_pos (decide_eq_true h)]
  · rw [if_neg h, if_neg (by simpa using h)]
    rfl

theorem exec_plimWrite (s : State) (v : Word) : exec (.plimWrite v) s =
    .next (if v.toNat % 4096 = 0 ∨ 3600 < v.toNat % 4096 then s
      else { s with mgmt := { s.mgmt with plim := v.setWidth 12 } }) := by
  show execPlimWrite v s = _
  unfold execPlimWrite
  rw [fld_zero]
  exact (apply_ite Host.Outcome.next _ _ _).symm

theorem exec_svbaseWrite (s : State) (v : Word) : exec (.svbaseWrite v) s =
    .next (if v.toNat / 2 ^ 21 % 2 ^ 27 * 2 ^ 21 + 2 ^ 21 ≤ 0x7FE0000000 then
      { s with mgmt := { s.mgmt with svbase := v.extractLsb' 21 27 } } else s) := by
  show execSvbaseWrite v s = _
  unfold execSvbaseWrite inHbm
  simp only [fld_eq, decide_eq_true_eq]
  exact (apply_ite Host.Outcome.next _ _ _).symm

/-! ## Memory of which a part is kept (R164, R454) -/

theorem inHbm_one (a : Nat) : inHbm a 1 = decide (a + 1 ≤ 0x7FE0000000) := rfl

/-! ## Boot (R454) -/

/-- Work on cores changes no byte, no context and nothing of the management block. -/
theorem foldl_updCore_keeps {α : Type} (key : α → Nat) (f : α → Core → Core) (l : List α) : ∀ s : State,
    (l.foldl (fun s a => s.updCore (key a) (f a)) s).mem = s.mem ∧
      (l.foldl (fun s a => s.updCore (key a) (f a)) s).ctxs = s.ctxs ∧
      (l.foldl (fun s a => s.updCore (key a) (f a)) s).mgmt = s.mgmt := by
  induction l with
  | nil => exact fun s => ⟨rfl, rfl, rfl⟩
  | cons a l ih => exact fun s => ih (s.updCore (key a) (f a))

/-- What an image that is not the standard one sets in core c (log 9). -/
def imageCore (k c : Nat) (x : Core) : Core :=
  { x with curlim := (Config.imageWord k c).setWidth 24, curwin := (Config.imageWord k (1024 + c)).setWidth 12 }
/-- What it sets in the management block. -/
def imageMgmt (k : Nat) (m : Mgmt) : Mgmt :=
  { m with
    lbud := (List.range 4).map fun d => (d, (Config.imageWord k (2048 + d)).setWidth 16)
    lthr := (List.range 4).map fun d => (d, (Config.imageWord k (2052 + d)).setWidth 16)
    plim := (Config.imageWord k 2056).setWidth 12 }

theorem imageLimits_eq (k : Nat) (s : State) : imageLimits k s =
    updMgmt ((List.range 1024).foldl (fun s c => s.updCore c (imageCore k c)) s) (imageMgmt k) := rfl
theorem mem_imageCores (k : Nat) (s : State) (l : List Nat) :
    (updMgmt (l.foldl (fun s c => s.updCore c (imageCore k c)) s) (imageMgmt k)).mem = s.mem :=
  (foldl_updCore_keeps (fun c => c) (imageCore k) l s).1

theorem mgmt_imageCores (k : Nat) (s : State) (l : List Nat) :
    (updMgmt (l.foldl (fun s c => s.updCore c (imageCore k c)) s) (imageMgmt k)).mgmt = imageMgmt k s.mgmt :=
  congrArg (imageMgmt k) (foldl_updCore_keeps (fun c => c) (imageCore k) l s).2.2

/-- Limits that an image carries change no byte, and of the management block only the limits. -/
theorem imageLimits_keeps (k : Nat) (s : State) :
    (imageLimits k s).mem = s.mem ∧ (imageLimits k s).mgmt = imageMgmt k s.mgmt :=
  ⟨(congrArg State.mem (imageLimits_eq k s)).trans (mem_imageCores k s _),
    (congrArg State.mgmt (imageLimits_eq k s)).trans (mgmt_imageCores k s _)⟩

/-- The module as the standard image leaves it: HBM scrubbed, running, one boot more. -/
theorem bootImage_spec (k : Nat) (s : State) : (bootImage k s).mem = s.mem.filter (fun c => !inHbm c.1 1) ∧
    (bootImage k s).mgmt.boot = 2 ∧ (bootImage k s).mgmt.why = 0 ∧
    (Config.standardImage k = true → (bootImage k s).mgmt.plim = 3600) ∧
    (bootImage k s).mgmt.bootcnt = s.mgmt.bootcnt + 1 := by
  unfold bootImage
  dsimp only
  split
  · exact ⟨rfl, rfl, rfl, fun _ => rfl, rfl⟩
  · next h =>
    generalize hu : updMgmt _ _ = u
    obtain ⟨hmem, hm⟩ := imageLimits_keeps k u
    rw [hmem, hm, ← hu]
    exact ⟨rfl, rfl, rfl, fun e => absurd e h, rfl⟩

/-- The reason in the boot ROM's verdict, 0 where the image passes (log 9). -/
def bootWhy (s : State) : BitVec 5 :=
  if 0x4000000 < s.mgmt.bootlen.toNat then 5 else BitVec.ofNat 5 (Config.bootVerdict s.free % 6)

theorem bootWhy_le (s : State) : (bootWhy s).toNat ≤ 5 := by
  unfold bootWhy
  split
  · decide
  · rw [BitVec.toNat_ofNat]
    omega

theorem bootVerifyDone_halts (s : State) (h : s.mgmt.boot = 1) (hw : bootWhy s ≠ 0) : exec .bootVerifyDone s =
    .next (updMgmt { s with free := s.free + 1 } fun m => { m with boot := 3, why := bootWhy s }) := by
  show execBootVerifyDone s = _
  unfold execBootVerifyDone
  rw [if_neg (by simp [h])]
  exact if_neg hw

theorem bootVerifyDone_boots (s : State) (h : s.mgmt.boot = 1) (hw : bootWhy s = 0) :
    exec .bootVerifyDone s = .next (bootImage s.free { s with free := s.free + 1 }) := by
  show execBootVerifyDone s = _
  unfold execBootVerifyDone
  rw [if_neg (by simp [h])]
  exact if_pos hw

/-- An image longer than 64 MiB halts the module with reason 5. -/
theorem bootVerifyDone_long (s : State) (h : s.mgmt.boot = 1) (hl : 0x4000000 < s.mgmt.bootlen.toNat) :
    ∃ t, exec .bootVerifyDone s = .next t ∧ t.mgmt.boot = 3 ∧ t.mgmt.why = 5 ∧ t.mem = s.mem := by
  have hw : bootWhy s = 5 := if_pos hl
  exact ⟨_, bootVerifyDone_halts s h (by rw [hw]; decide), rfl, hw, rfl⟩

/-- A verdict halts the module with its reason, or boots it with HBM scrubbed. -/
theorem bootVerifyDone_verdict (s : State) (h : s.mgmt.boot = 1) : ∃ t, exec .bootVerifyDone s = .next t ∧
    ((t.mgmt.boot = 3 ∧ t.mgmt.why ≠ 0 ∧ t.mgmt.why.toNat ≤ 5 ∧ t.mem = s.mem) ∨
      (t.mgmt.boot = 2 ∧ t.mgmt.why = 0 ∧ (Config.standardImage s.free = true → t.mgmt.plim = 3600) ∧
        t.mgmt.bootcnt = s.mgmt.bootcnt + 1 ∧
        ∀ a, Memory.read t.mem a = if a + 1 ≤ 0x7FE0000000 then 0 else Memory.read s.mem a)) := by
  by_cases hw : bootWhy s = 0
  · obtain ⟨hmem, hboot, hwhy, hplim, hcnt⟩ := bootImage_spec s.free { s with free := s.free + 1 }
    refine ⟨_, bootVerifyDone_boots s h hw, .inr ⟨hboot, hwhy, hplim, hcnt, fun a => ?_⟩⟩
    rw [hmem]
    refine (read_filter s.mem (fun x => !inHbm x 1) a).trans ?_
    simp only [inHbm_one, Bool.not_eq_true', decide_eq_false_iff_not, ite_not]
    rfl
  · exact ⟨_, bootVerifyDone_halts s h hw, .inl ⟨rfl, hw, bootWhy_le s, rfl⟩⟩

/-! ## Power and heat (R458) -/

/-- From `s` to `t` no byte, no context, no sample and no boot state changes. -/
structure KeepsSample (s t : State) : Prop where
  mem : t.mem = s.mem
  ctxs : t.ctxs = s.ctxs
  tj : t.mgmt.tj = s.mgmt.tj
  samples : t.mgmt.samples = s.mgmt.samples
  boot : t.mgmt.boot = s.mgmt.boot

theorem KeepsSample.refl (s : State) : KeepsSample s s := ⟨rfl, rfl, rfl, rfl, rfl⟩

theorem KeepsSample.trans {s t u : State} (h : KeepsSample s t) (k : KeepsSample t u) : KeepsSample s u :=
  ⟨k.mem.trans h.mem, k.ctxs.trans h.ctxs, k.tj.trans h.tj, k.samples.trans h.samples, k.boot.trans h.boot⟩

/-- A core's limit after k halvings of the one that stood under its number. -/
def limitCore (k : Nat) (p : Nat × BitVec 24) (c : Core) : Core :=
  { c with curlim := BitVec.ofNat 24 (halve 64 p.2.toNat k) }

/-- LBUD of the four dies after k halvings. -/
def halvedBuds (s : State) (k : Nat) (lb : KMap (BitVec 16)) : KMap (BitVec 16) :=
  (List.range 4).map fun d => (d, BitVec.ofNat 16 (halve (lthrMax s.mgmt) (KMap.get Config.lbud lb d).toNat k))

/-- The grants of the four dies are looked at in the next clk. -/
def leaveGrants (s : State) : State := (List.range 4).foldl (fun s d => s.at (s.clk + 1) false (.leaveGrant d)) s

theorem leaveGrants_keeps (s : State) : (leaveGrants s).mem = s.mem ∧ (leaveGrants s).ctxs = s.ctxs ∧
    (leaveGrants s).mgmt = s.mgmt := by
  unfold leaveGrants
  generalize List.range 4 = l
  exact ⟨foldl_keeps State.mem (fun s d => s.at (s.clk + 1) false (.leaveGrant d)) (fun _ _ => rfl) l s,
    foldl_keeps State.ctxs (fun s d => s.at (s.clk + 1) false (.leaveGrant d)) (fun _ _ => rfl) l s,
    foldl_keeps State.mgmt (fun s d => s.at (s.clk + 1) false (.leaveGrant d)) (fun _ _ => rfl) l s⟩

theorem setLimits_eq (s : State) (k : Nat) (lb : KMap (BitVec 16)) (cl : KMap (BitVec 24)) : setLimits s k lb cl =
    leaveGrants (cl.foldl (fun s p => s.updCore p.1 (limitCore k p))
      (updMgmt s fun m => { m with lbud := halvedBuds s k lb })) := rfl

/-- Setting the limits changes LBUD in the management block, and no byte and no context. -/
theorem setLimits_keeps (s : State) (k : Nat) (lb : KMap (BitVec 16)) (cl : KMap (BitVec 24)) :
    (setLimits s k lb cl).mem = s.mem ∧ (setLimits s k lb cl).ctxs = s.ctxs ∧
      (setLimits s k lb cl).mgmt = { s.mgmt with lbud := halvedBuds s k lb } := by
  have h := foldl_updCore_keeps (fun p : Nat × BitVec 24 => p.1) (limitCore k) cl
    (updMgmt s fun m => { m with lbud := halvedBuds s k lb })
  rw [setLimits_eq]
  generalize cl.foldl _ _ = u at h
  obtain ⟨hmem, hctxs, hm⟩ := h
  obtain ⟨gmem, gctxs, gm⟩ := leaveGrants_keeps u
  exact ⟨gmem.trans hmem, gctxs.trans hctxs, gm.trans hm⟩

theorem keepsSample_setLimits (s : State) (k : Nat) (lb : KMap (BitVec 16)) (cl : KMap (BitVec 24)) :
    KeepsSample s (setLimits s k lb cl) := by
  obtain ⟨hmem, hctxs, hm⟩ := setLimits_keeps s k lb cl
  exact ⟨hmem, hctxs, by rw [hm], by rw [hm], by rw [hm]⟩

theorem halved_setLimits (s : State) (k : Nat) (lb : KMap (BitVec 16)) (cl : KMap (BitVec 24)) :
    (setLimits s k lb cl).mgmt.halved = s.mgmt.halved := by
  rw [(setLimits_keeps s k lb cl).2.2]

theorem keepsSample_restoreOnce (s : State) : KeepsSample s (restoreOnce s) := by
  have h := keepsSample_setLimits s (s.mgmt.halved - 1) s.mgmt.lbud0 s.mgmt.curlim0
  exact ⟨h.mem, h.ctxs, h.tj, h.samples, h.boot⟩

/-- The values before the first halving are kept. -/
def keepLimits (s : State) : State :=
  if s.mgmt.halved = 0 then updMgmt s fun m => { m with lbud0 := m.lbud, curlim0 := curlims s } else s

/-- One more halving is in force. -/
def countHalving (s : State) : State := updMgmt s fun m => { m with halved := m.halved + 1, cool := 0 }

theorem countHalving_spec (s : State) : KeepsSample s (countHalving s) ∧
    (countHalving s).mgmt.halved = s.mgmt.halved + 1 ∧ (countHalving s).mgmt.cool = 0 :=
  ⟨⟨rfl, rfl, rfl, rfl, rfl⟩, rfl, rfl⟩

theorem halveOnce_eq (s : State) : halveOnce s =
    countHalving (setLimits (keepLimits s) 1 (keepLimits s).mgmt.lbud (curlims (keepLimits s))) := rfl

theorem keepLimits_keeps (s : State) : KeepsSample s (keepLimits s) ∧ (keepLimits s).mgmt.halved = s.mgmt.halved := by
  unfold keepLimits
  split
  · exact ⟨⟨rfl, rfl, rfl, rfl, rfl⟩, rfl⟩
  · exact ⟨.refl s, rfl⟩

/-- One halving more is in force, and the count of cool samples starts again. -/
theorem halveOnce_spec (s : State) : KeepsSample s (halveOnce s) ∧ (halveOnce s).mgmt.halved = s.mgmt.halved + 1 ∧
    (halveOnce s).mgmt.cool = 0 := by
  obtain ⟨first, hhalved⟩ := keepLimits_keeps s
  have limits := keepsSample_setLimits (keepLimits s) 1 (keepLimits s).mgmt.lbud (curlims (keepLimits s))
  have hset := halved_setLimits (keepLimits s) 1 (keepLimits s).mgmt.lbud (curlims (keepLimits s))
  obtain ⟨last, hcount, hcool⟩ :=
    countHalving_spec (setLimits (keepLimits s) 1 (keepLimits s).mgmt.lbud (curlims (keepLimits s)))
  rw [halveOnce_eq]
  exact ⟨first.trans (limits.trans last), by rw [hcount, hset, hhalved], hcool⟩

/-- Is a die at t degrees in sample i? -/
def hotAt (i t : Nat) : Bool := ((List.range 4).map fun d => (d, Config.junction i d)).any fun x => decide (t ≤ x.2.toNat)

theorem hotAt_iff (i t : Nat) : hotAt i t = true ↔ ∃ d, d < 4 ∧ t ≤ (Config.junction i d).toNat := by
  simp [hotAt]

/-- The state in which the sample has been taken. -/
def sampled (s : State) : State :=
  updMgmt s fun m => { m with
    tj := (List.range 4).map fun d => (d, Config.junction s.mgmt.samples d), samples := s.mgmt.samples + 1 }

/-- A sample at or below nine tenths of the limit counts as cool; the tenth in a row undoes a halving. -/
def coolOnce (s : State) : State :=
  let s := updMgmt s fun m => { m with cool := m.cool + 1 }
  if 10 ≤ s.mgmt.cool ∧ 0 < s.mgmt.halved then restoreOnce s else s

/-- What a sample of power p does to the limits. -/
def limited (s : State) (p : Nat) (hot warm : Bool) : State :=
  if decide (s.mgmt.plim.toNat < p) || hot then (halveOnce s).bbAdd 4 0 0 whoNone 0
  else if decide (10 * p ≤ 9 * s.mgmt.plim.toNat) && !warm then coolOnce s
  else updMgmt s fun m => { m with cool := 0 }

/-- The limits after the sample. -/
def ruled (s : State) : State :=
  limited (sampled s) (Config.power s.mgmt.samples) (hotAt s.mgmt.samples 100) (hotAt s.mgmt.samples 91)

theorem exec_powerSample (s : State) : exec .powerSample s = .next (if hotAt s.mgmt.samples 115 then
    updMgmt ((ruled s).bbAdd 4 0 0 whoNone 0) fun m => { m with boot := 4 } else ruled s) := rfl

theorem keepsSample_bbAdd (s : State) (k c : Nat) (i : BitVec 32) (w : Nat) (v : Word) :
    KeepsSample s (s.bbAdd k c i w v) := ⟨rfl, rfl, rfl, rfl, rfl⟩

theorem keepsSample_coolOnce (s : State) : KeepsSample s (coolOnce s) := by
  have counted : KeepsSample s (updMgmt s fun m => { m with cool := m.cool + 1 }) := ⟨rfl, rfl, rfl, rfl, rfl⟩
  unfold coolOnce
  dsimp only
  split
  · exact counted.trans (keepsSample_restoreOnce _)
  · exact counted

theorem keepsSample_limited (s : State) (p : Nat) (hot warm : Bool) : KeepsSample s (limited s p hot warm) := by
  unfold limited
  split
  · exact (halveOnce_spec s).1.trans (keepsSample_bbAdd _ _ _ _ _ _)
  · split
    · exact keepsSample_coolOnce s
    · exact ⟨rfl, rfl, rfl, rfl, rfl⟩

/-- A sample above the limit halves once more. -/
theorem limited_above (s : State) (p : Nat) (hot warm : Bool) (h : s.mgmt.plim.toNat < p) :
    (limited s p hot warm).mgmt.halved = s.mgmt.halved + 1 ∧ (limited s p hot warm).mgmt.cool = 0 := by
  unfold limited
  rw [if_pos (by simp [h])]
  exact (halveOnce_spec s).2

theorem keepsSample_ruled (s : State) : KeepsSample (sampled s) (ruled s) := keepsSample_limited _ _ _ _

/-- R458: a sample counts and stands in TJ; power above PLIM halves the limits; a die of 115 degrees ends all work. -/
theorem powerSample_spec (s : State) : ∃ t, exec .powerSample s = .next t ∧ t.mem = s.mem ∧ t.ctxs = s.ctxs ∧
    t.mgmt.samples = s.mgmt.samples + 1 ∧ (∀ d, d < 4 → KMap.get 0 t.mgmt.tj d = Config.junction s.mgmt.samples d) ∧
    (s.mgmt.plim.toNat < Config.power s.mgmt.samples → t.mgmt.halved = s.mgmt.halved + 1 ∧ t.mgmt.cool = 0) ∧
    ((∃ d, d < 4 ∧ 115 ≤ (Config.junction s.mgmt.samples d).toNat) → t.mgmt.boot = 4) ∧
    ((∀ d, d < 4 → (Config.junction s.mgmt.samples d).toNat < 115) → t.mgmt.boot = s.mgmt.boot) := by
  obtain ⟨hmem, hctxs, htj, hsamples, hboot⟩ := keepsSample_ruled s
  have hover (h : s.mgmt.plim.toNat < Config.power s.mgmt.samples) :
      (ruled s).mgmt.halved = s.mgmt.halved + 1 ∧ (ruled s).mgmt.cool = 0 := limited_above (sampled s) _ _ _ h
  have hget (d : Nat) (hd : d < 4) : KMap.get 0 (ruled s).mgmt.tj d = Config.junction s.mgmt.samples d := by
    rw [htj]
    interval_cases d <;> rfl
  refine ⟨_, exec_powerSample s, ?_⟩
  by_cases hot : ∃ d, d < 4 ∧ 115 ≤ (Config.junction s.mgmt.samples d).toNat
  · rw [if_pos ((hotAt_iff _ _).2 hot)]
    refine ⟨hmem, hctxs, hsamples, hget, hover, fun _ => rfl, fun h => ?_⟩
    obtain ⟨d, hd, hle⟩ := hot
    exact absurd (h d hd) (Nat.not_lt.2 hle)
  · rw [if_neg fun h => hot ((hotAt_iff _ _).1 h)]
    exact ⟨hmem, hctxs, hsamples, hget, hover, fun h => absurd h hot, fun _ => hboot⟩

/-! ## Resets (R164, R445) -/

/-- A map of a key-value list's values. -/
theorem get_map_values {α β : Type} (d : α) (f : α → β) (m : KMap α) (i : Nat) :
    KMap.get (f d) (List.map (fun p : Nat × α => (p.1, f p.2)) m) i = f (KMap.get d m i) := by
  induction m with
  | nil => rfl
  | cons e m ih =>
    obtain ⟨k, v⟩ := e
    rw [List.map_cons, KMap.get, KMap.get, ih]
    split <;> rfl

/-- A link after a warm reset. -/
def linkReset (x : Link) : Link := { Link.reset with nrt := x.nrt }

/-- R164, R459: what a warm reset keeps. -/
theorem warmReset_spec (s : State) : ∃ t, exec .warmReset s = .next t ∧ t.ctxs = [] ∧ t.cores = [] ∧
    t.dist = Dist.reset ∧ t.mgmt.boot = 0 ∧ t.mgmt.warm = true ∧ t.mgmt.bootcnt = s.mgmt.bootcnt ∧
    t.mgmt.nrdrop = s.mgmt.nrdrop ∧ t.bb = s.bb ∧ t.bbseq = s.bbseq ∧ (∀ l, (t.link l).nrt = (s.link l).nrt) ∧
    ∀ a, Memory.read t.mem a = if a + 1 ≤ 0x7FE0000000 then Memory.read s.mem a else 0 := by
  refine ⟨_, rfl, rfl, rfl, rfl, rfl, rfl, rfl, rfl, rfl, rfl, fun l => ?_, fun a => ?_⟩
  · exact (congrArg Link.nrt (get_map_values Link.reset linkReset s.links l) :)
  · refine (read_filter s.mem (fun x => inHbm x 1) a).trans ?_
    simp only [inHbm_one, decide_eq_true_eq]
    rfl

/-! ## The obligation -/

/-- Settles O53, a group of clauses at a time: go words, control block registers, management words, boot, power, resets. -/
theorem managementWork : Obligations.ManagementWork := by
  unfold Obligations.ManagementWork
  refine ⟨goWordWrite_side, fun s n v => ?_, goWordWrite_waits,
    fun s n no v => ⟨controlBlockRegisterWrite_ignored s n no v, fun hm h0 h11 hr =>
      ⟨_, controlBlockRegisterWrite_written s n no v hm h0 h11 hr, ctlWrite_spec s n no v⟩,
      controlBlockRegisterWrite_stopf s n v⟩,
    fun s v i => ⟨fun h => ?_, ?_, fun h => ?_, fun h h8 => ?_, fun h => ?_, registerWrite_nrdrop s v⟩,
    fun s v => ⟨bootlenWrite_starts s v, bootlenWrite_ignored s v, fun h => ?_, fun h => ?_, exec_plimWrite s v,
      exec_svbaseWrite s v⟩,
    fun s h => ⟨bootVerifyDone_long s h, fun _ => bootVerifyDone_verdict s h⟩,
    fun s => ⟨powerSample_spec s, ⟨_, rfl, rfl⟩, warmReset_spec s⟩⟩
  · intro c a hl hq hf hs hr ht h0 h1 hb0 hb1 hn hp
    have endpoints (i : Nat) (hi : i < 2) : ek (a i) = 4 ∧ epBad (a i) [4] = false := by
      interval_cases i
      exacts [⟨h0, hb0⟩, ⟨h1, hb1⟩]
    obtain ⟨t, after, hexec, hmem, hcores, hother, hctx⟩ := goWordWrite_ceCmp s n v hl hq hf hs hr ht endpoints hn hp
    refine ⟨t, plainCmd (sideCtx c 16 v) s.serial 16 5 v after, hexec, hmem, hcores, hother, ?_⟩
    rw [hctx]
    exact ⟨queue_goEntered _ _ _, rfl, rfl, portW_sideCtx c 16 v 0 (by norm_num), portW_sideCtx c 16 v 1 (by norm_num),
      portW_sideCtx c 16 v 2 (by norm_num), rfl, rfl, hp, rfl, rfl, rfl, rfl, fun k hk => by
        rw [hk]
        exact tok_goEntered _ _ _⟩
  · exact ⟨_, registerWrite_lbud s v i h, rfl, rfl, rfl, rfl⟩
  · exact ⟨_, registerWrite_svcnt s v, rfl, rfl, rfl, rfl⟩
  · exact ⟨_, registerWrite_route s v i h, rfl, rfl, rfl, rfl⟩
  · exact ⟨_, registerWrite_pair0 s v i h h8, rfl, rfl, rfl, rfl⟩
  · exact ⟨_, registerWrite_pair1 s v i h, rfl, rfl, rfl, rfl⟩
  · rw [exec_modnWrite, if_pos h]
  · rw [exec_modnWrite, if_neg]
    rintro ⟨k, hk, hm⟩
    rcases h k hk with e | e <;> simp [KeepsModn, e] at hm

end Sys2Proof.Machine
end

section
/-!
PROOFS. Local loads, stores and atomics enter their accesses (O17, O18, O20).
-/

namespace Sys2Proof.Machine

/-! ## Holds and checks that meet nothing (R185, R192) -/

/-- No lateral access makes a local form wait (R192). -/
abbrev NoLatWaits (c : Ctx) (gs : List Seg) (release : Bool) : Prop :=
  ∀ l ∈ c.lats, l.performed = true ∨ (l.acq = false ∧ release = false ∧ sameRow gs l = false)

/-- No local atomic makes a local form wait (R192). -/
abbrev NoAtomWaits (c : Ctx) (gs : List Seg) : Prop := ∀ x ∈ c.accs, atomRow gs x = false

theorem holdLats_eq_nil {c : Ctx} {gs : List Seg} {release : Bool} (h : NoLatWaits c gs release) :
    holdLats c gs release = [] := by
  refine List.filter_eq_nil_iff.2 fun l hl => ?_
  rcases h l hl with hp | ⟨ha, hr, hs⟩
  · simp [hp]
  · simp [ha, hr, hs]

theorem any_atomRow_eq_false {c : Ctx} {gs : List Seg} (h : NoAtomWaits c gs) : c.accs.any (atomRow gs) = false :=
  List.any_eq_false.2 fun x hx => by simp [h x hx]

theorem localHold_quiet {c : Ctx} {gs : List Seg} {release : Bool} (hl : NoLatWaits c gs release)
    (ha : NoAtomWaits c gs) : localHold c gs release = .quiet := by
  simp [localHold, holdLats_eq_nil hl, any_atomRow_eq_false ha, holdIf]

theorem vaultCheck_of_localOk {s : State} {x : Word} {algn size : Nat} {gs : List Seg} {release : Bool}
    (h : LocalOk s x algn size gs release) : vaultCheck s.iss.ctx x true algn size = none := by
  obtain ⟨hwindow, halgn, harena, -, -⟩ := h
  rw [vaultCheck_local, if_neg (Nat.not_le.2 hwindow), if_neg (not_not.2 halgn), if_neg (Nat.not_lt.2 harena)]

theorem vaultCheck_of_windowOk {s : State} {x : Word} {algn size : Nat} (h : WindowOk s x algn size) :
    vaultCheck s.iss.ctx x false algn size = none := by
  obtain ⟨hwindow, hquad, halgn, harena⟩ := h
  have hin : ¬(2 ^ 29 ≤ x.toNat ∨ s.iss.ctx.quads.length ≤ fld x 23 6) := by omega
  unfold vaultCheck
  rw [if_neg (by simp), if_neg (by simpa using hin), if_neg (not_not.2 halgn), if_neg (Nat.not_lt.2 harena)]

theorem firstNote_scopeNote_of_ok {a : Word} (h : ScopeOk a) (l : List Note) :
    firstNote (scopeNote a :: l) = firstNote l := by rw [firstNote_scopeNote, if_pos h]

/-- A plane count of 1 to 24 passes step 2 of R185. -/
theorem firstNote_nplNote {a : Word} (h : 1 ≤ lsNpl a ∧ lsNpl a ≤ 24) : firstNote [nplNote a] = .quiet := by
  rw [nplNote, firstNote_trapIf, decide_eq_false (by omega)]
  rfl

/-! ## Triggers that hold nothing back -/

/-- An access with nothing to wait for lets nothing go. -/
theorem letGo_of_no_waits {c : Ctx} {gs : List Seg} (h : NoAtomWaits c gs) (t : State) (ht : t.iss.ctx = c) :
    letGo gs [] (.next t) = .next t := by
  subst ht
  have hnone : t.iss.ctx.accs.any (fun x => decide (x.fin ≠ .mat) && (atomRow gs x || [].contains x.id)) = false :=
    List.any_eq_false.2 fun x hx => by simp [h x hx]
  unfold letGo
  exact if_neg fun hw => Bool.false_ne_true (hnone.symm.trans hw.2)

/-- `completes` for an access, where what it would hold back is left alone. -/
theorem completes_of_letGo {s : State} {i : Instr} {fu port int w k : Nat} {gs : List Seg} {ls : List LatAcc}
    {blk chk : List Note} {g : BitVec 4} {src : BitVec 9} {eff : Val → State → State} {f : Ctx → Ctx}
    (h : exec i s = letGo gs ls (trigger fu port int w false blk chk g src eff s))
    (hl : ∀ t : State, t.iss = { s.iss with weight := s.iss.weight + w } → letGo gs ls (.next t) = .next t)
    (hb : firstNote blk = .quiet) (hc : firstNote chk = .quiet)
    (he : eff (readCode s src) (charge (consume s src) w) = ((charge (consume s src) w).ser k).updCtx s.iss.n f) :
    Completes s i fu port int w false g src f := by
  intro hr
  have hdid := did_effect s fu port int w k src f
  have hnext : trigger fu port int w false blk chk g src eff s = .next ((((charge (consume s src) w).ser k).updCtx
      s.iss.n f).updCtx s.iss.n fun c => c.hold fu port int) := by
    rw [trigger_quiet s fu port int w false blk chk g src eff hr hb hc, he]
    exact congrArg (fun n => Host.Outcome.next (State.updCtx _ n _)) (charged_n s src w)
  exact ⟨_, h.trans ((congrArg (letGo gs ls) hnext).trans (hl _ hdid.iss)), hdid⟩

/-- Changing the issuing context once a trigger is charged and has taken its serial number. -/
theorem onCtx_charged_ser (s : State) (src : BitVec 9) (w k : Nat) (f : Ctx → Ctx) :
    onCtx f ((charge (consume s src) w).ser k) = ((charge (consume s src) w).ser k).updCtx s.iss.n f :=
  congrArg (fun n => State.updCtx _ n f) (charged_n s src w)

/-! ## Local forms (R186-R188) -/

/-- The place of a local address depends on the latch alone, which a charge leaves. -/
theorem localPA_charged (s : State) (src : BitVec 9) (w k : Nat) (x : Word) :
    localPA ((charge (consume s src) w).ser k) x = localPA s x := by simp [localPA]

/-- What is entered and then counted (R193) is one change of the issuing context. -/
theorem counted_charged (s : State) (src : BitVec 9) (w k : Nat) (ld st : Bool) (f : Ctx → Ctx) :
    onCtx (fun c => countAcc c ld st) (onCtx f ((charge (consume s src) w).ser k)) =
      ((charge (consume s src) w).ser k).updCtx s.iss.n fun c => countAcc (f c) ld st := by
  rw [onCtx_charged_ser, onCtx]
  show State.updCtx _ (charge (consume s src) w).iss.n _ = _
  rw [charged_n, State.updCtx_updCtx]

/-- A local form that passes its checks and waits for nothing completes with what it enters and counts. -/
theorem lsLocal_completes {s : State} {i : Instr} {port int w algn size : Nat} {x : Word} {gs : List Seg} {store : Bool}
    {more : List Note} {g : BitVec 4} {src : BitVec 9} {eff : Val → Nat → State → State} {f : Ctx → Ctx}
    (hi : exec i s = lsLocal port int w x algn size gs store more g src eff s)
    (hm : firstNote more = .quiet) (hs : ScopeOk (s.iss.ctx.portW 8 0))
    (hok : LocalOk s x algn size gs (store && lsOrd (s.iss.ctx.portW 8 0)))
    (he : onCtx (fun c => countAcc c (!store) store)
        (eff (readCode s src) s.serial ((charge (consume s src) w).ser (s.serial + 1))) =
      ((charge (consume s src) w).ser (s.serial + 1)).updCtx s.iss.n f) :
    Completes s i 8 port int w false g src f := by
  obtain ⟨-, -, -, hlats, hatoms⟩ := id hok
  refine completes_of_letGo (k := s.serial + 1) hi (fun t ht => ?_) ?_ ?_ ?_
  · rw [holdLats_eq_nil hlats]
    exact letGo_of_no_waits hatoms t (by rw [ht])
  · rw [localHold_quiet hlats hatoms]
    rfl
  · rw [List.append_assoc, List.singleton_append, firstNote_scopeNote_of_ok hs, firstNote_append _ _ hm,
      vaultCheck_of_localOk hok]
    rfl
  · rw [fresh_charged]
    exact he

/-- Settles O17: each is one local form (`lsLocal_completes`) that enters its bank rows. -/
theorem localAccessesEntered : Obligations.LocalAccessesEntered := by
  unfold Obligations.LocalAccessesEntered
  intro s g src a b T sz scopeOk rows load store
  have hsz : lsSize a = sz := congrArg (2 ^ ·) (fld_zero a 2)
  refine ⟨fun hs hok => ?_, fun hs hok => ?_, fun hs hok => ?_, fun hs hok => ?_, fun hs hok => ?_⟩
  · rw [← hsz] at hok ⊢
    refine lsLocal_completes (execLsLds.eq_def g src s) rfl hs hok ?_
    rw [localPA_charged]
    exact counted_charged s src 4 _ true false _
  · rw [← hsz] at hok ⊢
    refine lsLocal_completes (execLsSts.eq_def g src s) rfl hs hok ?_
    rw [localPA_charged]
    exact counted_charged s src 4 _ false true _
  · refine lsLocal_completes (execLsLdr.eq_def g src s) rfl hs hok ?_
    rw [localPA_charged]
    exact counted_charged s src 4 _ true false _
  · refine lsLocal_completes (execLsStr.eq_def g src s) rfl hs hok ?_
    rw [localPA_charged]
    exact counted_charged s src 4 _ false true _
  · refine lsLocal_completes (execLsLdt.eq_def g src s) rfl hs hok ?_
    rw [localPA_charged]
    exact counted_charged s src 16 _ true false _

/-- The sequencer of a tile store, once its trigger is charged and has taken its serial number. -/
theorem newJob_charged_ser (s : State) (src : BitVec 9) (w k : Nat) (dst : JobDst) (fmt : Word) (id : Nat) :
    newJob ((charge (consume s src) w).ser k) src dst fmt id = newJob s src dst fmt id :=
  newJob_charged s src w dst fmt id

/-- Row 0 of a tile store, read from the latch that a charge leaves (R41). -/
theorem seqRead_zero_charged (s : State) (src : BitVec 9) (w k : Nat) :
    seqRead ((charge (consume s src) w).ser k).iss.ctx (jobSource ((charge (consume s src) w).ser k) src) 0 =
      tileRow (readCode s src).tile 0 :=
  (seqRead_jobSource_zero _ src).trans (congrArg (fun v : Val => tileRow v.tile 0) (readCode_charged s src w))

/-- Settles O18: each is one local form (`lsLocal_completes`); the stores begin their sequencer with row 0. -/
theorem tileAccessesEntered : Obligations.TileAccessesEntered := by
  unfold Obligations.TileAccessesEntered
  intro s g src a b T row0 scopeOk planes span job store
  have hspan : planeSpan a = span := by
    show 96 + 128 * (lsNpl a - 1) + 64 * lsHalf a = 32 + 128 * (lsNpl a - 1) + 64 * lsHalf a + 64
    omega
  refine ⟨fun hs hok => ?_, fun hs hp hok => ?_, fun hs hp hok => ?_⟩
  · refine lsLocal_completes (execLsStt.eq_def g src s) rfl hs hok ?_
    rw [localPA_charged, newJob_charged_ser, seqRead_zero_charged]
    exact counted_charged s src 16 _ false true _
  · rw [← hspan] at hok
    refine lsLocal_completes (execLsLdp.eq_def g src s) (firstNote_nplNote hp) hs hok ?_
    rw [localPA_charged]
    exact counted_charged s src 16 _ true false _
  · rw [← hspan] at hok
    refine lsLocal_completes (execLsStp.eq_def g src s) (firstNote_nplNote hp) hs hok ?_
    rw [localPA_charged, newJob_charged_ser, seqRead_zero_charged]
    simp only [store, List.append_nil]
    exact counted_charged s src 16 _ false true _

/-! ## Atomics (R194, R195) -/

/-- The word that an atomic reaches. -/
abbrev atomSegs (s : State) : List Seg := [⟨windowPA s.iss.ctx s.iss.n (s.iss.ctx.portW 9 0), 8, 0⟩]

/-- An atomic at the own quad is one access at its bank, which waits as a load does (R192). -/
theorem atTrigger_own (s : State) (port : Nat) (g : BitVec 4) (src : BitVec 9)
    (h : fld (s.iss.ctx.portW 9 0) 23 6 = ownQi s.iss.ctx s.iss.n) : atTrigger port g src s =
    letGo (atomSegs s) (holdLats s.iss.ctx (atomSegs s) false) (trigger 9 port 1 4 false
      [localHold s.iss.ctx (atomSegs s) false] [.quiet, trapFlt (vaultCheck s.iss.ctx (s.iss.ctx.portW 9 0) false 8 8)]
      g src (fun v t => onCtx (fun c => countAcc (addAccs [oneAcc t.serial 3 (s.iss.ctx.portW 9 0) (atomSegs s) 0
        (.atom port (s.iss.ctx.portW 9 1) v.word) true true] c) true true) (t.ser (t.serial + 1))) s) := by
  unfold atTrigger
  dsimp only
  rw [decide_eq_false (not_not.2 h)]
  rfl

theorem ownAtomic_completes {s : State} {i : Instr} {port : Nat} {g : BitVec 4} {src : BitVec 9}
    (hi : exec i s = atTrigger port g src s) (hq : fld (s.iss.ctx.portW 9 0) 23 6 = ownQi s.iss.ctx s.iss.n)
    (hok : WindowOk s (s.iss.ctx.portW 9 0) 8 8) (hl : NoLatWaits s.iss.ctx (atomSegs s) false)
    (ha : NoAtomWaits s.iss.ctx (atomSegs s)) : Completes s i 9 port 1 4 false g src fun c =>
      countAcc (addAccs [oneAcc s.serial 3 (s.iss.ctx.portW 9 0) (atomSegs s) 0
        (.atom port (s.iss.ctx.portW 9 1) (trigT s src)) true true] c) true true := by
  refine completes_of_letGo (k := s.serial + 1) (hi.trans (atTrigger_own s port g src hq)) (fun t ht => ?_) ?_ ?_ ?_
  · rw [holdLats_eq_nil hl]
    exact letGo_of_no_waits ha t (by rw [ht])
  · rw [localHold_quiet hl ha]
    rfl
  · rw [vaultCheck_of_windowOk hok]
    rfl
  · rw [charged_serial, onCtx_charged_ser]
    rfl

/-- Settles O20: an atomic at the own quad is one trigger (`atTrigger_own`) whatever its operation. -/
theorem localAtomics : Obligations.LocalAtomics := by
  unfold Obligations.LocalAtomics
  intro s g src a enters
  have own {i : Instr} {port : Nat} (hi : exec i s = atTrigger port g src s) : enters i port := fun hq hok hl ha =>
    ownAtomic_completes hi hq hok (fun l hm => (hl l hm).imp_right fun h => ⟨h.1, rfl, h.2⟩) ha
  exact ⟨own rfl, own rfl, own rfl, own rfl, own rfl, own rfl, own rfl, own rfl, own rfl, own rfl, own rfl⟩

end Sys2Proof.Machine
end

section
/-!
PROOFS. Lateral loads and atomics of another quad (O21).
-/

namespace Sys2Proof.Machine

/-! ## What enters the lateral accesses (R189, R195) -/

theorem clk_charged (s : State) (src : BitVec 9) (w : Nat) : (charge (consume s src) w).clk = s.clk := by
  rw [consume_rest]
  rfl

/-- The access that a lateral load enters (R189). -/
def lateralLoad (s : State) (src : BitVec 9) : LatAcc :=
  let c := s.iss.ctx
  let a := c.portW 8 0
  let pa := windowPA c s.iss.n (trigT s src)
  ⟨s.serial, trigT s src, pa, latBytes a, none, lsOrd a, lsTok a, lsLk a, lsSx a, lsTreg a, lsTrow a, 0, false, false, 0, 0,
    s.clk, latAfter c pa (latBytes a), false⟩

/-- The access that an atomic of another quad enters (R195). -/
def remoteAtomic (s : State) (src : BitVec 9) (op : Nat) : LatAcc :=
  let c := s.iss.ctx
  let a := c.portW 9 0
  let pa := windowPA c s.iss.n a
  ⟨s.serial, a, pa, 8, some (op, c.portW 9 1, trigT s src), false, fld (c.portW 9 2) 0 4, 0, false, 0, 0, c.latSeq, false,
    false, 0, 0, s.clk, latAfter c pa 8, false⟩

/-- A lateral access goes to the tail of the context's lateral accesses, and its token becomes pending. -/
def enterLat (l : LatAcc) (c : Ctx) : Ctx := { c.tokPend l.tok with lats := c.lats ++ [l] }

/-- The lateral load of O21: its checks pass (R185), and nothing holds it before issue (R192). -/
theorem lsLat_completes (s : State) (g : BitVec 4) (src : BitVec 9) (hs : ScopeOk (s.iss.ctx.portW 8 0))
    (hk : lsLk (s.iss.ctx.portW 8 0) ≠ 3) (ht : (s.iss.ctx.tok (lsTok (s.iss.ctx.portW 8 0))).st ≠ .pending)
    (hok : WindowOk s (trigT s src) (if lsLk (s.iss.ctx.portW 8 0) = 0 then lsSize (s.iss.ctx.portW 8 0) else 256)
      (latBytes (s.iss.ctx.portW 8 0))) :
    Completes s (.lsLat g src) 8 12 1 4 false g src fun c => countAcc (enterLat (lateralLoad s src) c) true false := by
  refine completes s _ 8 12 1 4 (s.serial + 1) _ _ _ g src _ _ (execLsLat.eq_def g src s) rfl ?_ ?_
  · rw [firstNote_scopeNote_of_ok hs, firstNote_trapIf, firstNote_trapIf, decide_eq_false hk, decide_eq_false ht]
    exact congrArg (fun o => firstNote [trapFlt o]) (vaultCheck_of_windowOk hok)
  · rw [fresh_charged]
    dsimp only
    rw [onCtx_charged_ser, show ((charge (consume s src) 4).ser (s.serial + 1)).clk = s.clk from clk_charged s src 4]
    rfl

/-- An atomic of another quad waits for a place among four, and lets the local accesses go that an earlier one waits for
(R192, log 49). -/
theorem atTrigger_remote (s : State) (port : Nat) (g : BitVec 4) (src : BitVec 9)
    (h : fld (s.iss.ctx.portW 9 0) 23 6 ≠ ownQi s.iss.ctx s.iss.n) : atTrigger port g src s =
    letGo [] (s.iss.ctx.lats.filter fun l => l.atom.isSome) (trigger 9 port 1 4 false
      [holdIf (decide (4 ≤ remoteCount s.iss.ctx)) 7]
      [trapIf (decide ((s.iss.ctx.tok (fld (s.iss.ctx.portW 9 2) 0 4)).st = .pending)) 0x0B
        (w64 (fld (s.iss.ctx.portW 9 2) 0 4)), trapFlt (vaultCheck s.iss.ctx (s.iss.ctx.portW 9 0) false 8 8)]
      g src (fun v t => onCtx (fun c => countAcc { enterLat { remoteAtomic s src port with
        id := t.serial, wclk := t.clk, atom := some (port, s.iss.ctx.portW 9 1, v.word) } c with
          latSeq := c.latSeq + 1 } true true) (t.ser (t.serial + 1))) s) := by
  unfold atTrigger
  dsimp only
  rw [decide_eq_true h]
  rfl

/-- The remote atomic of O21, in a latch that no move has left held. -/
theorem remoteAtomic_completes {s : State} {i : Instr} {port : Nat} {g : BitVec 4} {src : BitVec 9}
    (hi : exec i s = atTrigger port g src s) (hn : s.iss.note ≠ .hold 7)
    (hq : fld (s.iss.ctx.portW 9 0) 23 6 ≠ ownQi s.iss.ctx s.iss.n) (hok : WindowOk s (s.iss.ctx.portW 9 0) 8 8)
    (ht : (s.iss.ctx.tok (fld (s.iss.ctx.portW 9 2) 0 4)).st ≠ .pending) (hr : remoteCount s.iss.ctx < 4) :
    Completes s i 9 port 1 4 false g src fun c =>
      countAcc { enterLat (remoteAtomic s src port) c with latSeq := c.latSeq + 1 } true true := by
  refine completes_of_letGo (k := s.serial + 1) (hi.trans (atTrigger_remote s port g src hq)) (fun t he => ?_) ?_ ?_ ?_
  · exact letGo_of_not_held _ _ t (by rw [he]; exact hn)
  · rw [decide_eq_false (Nat.not_le.2 hr)]
    rfl
  · rw [firstNote_trapIf, decide_eq_false ht, vaultCheck_of_windowOk hok]
    rfl
  · rw [charged_serial, onCtx_charged_ser, clk_charged]
    rfl

/-! ## A latch that is already held

The second clause of O21 leaves the note of the latch free, where O55 asks for a quiet one. `letGo` reads the note after the
trigger, so in a latch that holds already (`.hold 7`) a remote atomic that completes lets go the local accesses for which an
earlier one waits (log 49). `runSlot` clears the note before it executes a move; under that hypothesis the remote atomics
complete as stated (`remoteAtomic_completes`), and the lateral loads do so in any latch (`lsLat_completes`). -/

/-- A store of one byte on its way to its bank. -/
def storeUnderWay : LocalAcc := oneAcc 7 3 0 [⟨0, 1, 0⟩] 0 .store false true

/-- An earlier remote atomic, unsent as it waits for that store. -/
def unsentAtomic : LatAcc :=
  ⟨8, 0, 0, 8, some (4, 0, 0), false, 1, 0, false, 0, 0, 0, false, false, 0, 0, 0, [7], false⟩

/-- A context of quad 0 whose crew's first quad is quad 1, so that its AT.a names another quad. -/
def remoteCtx : Ctx :=
  { Ctx.reset with
    quads := [1], accs := [storeUnderWay], lats := [unsentAtomic], ctl := { Ctl.reset with arenaSize := 1 } }

/-- A latch of context 0 that holds already. -/
def heldLatch : State :=
  { State.reset.setCtx 0 remoteCtx with iss := { Latch.reset with n := 0, ctx := remoteCtx, note := .hold 7 } }

theorem ready_heldLatch : Ready heldLatch 9 4 false 0 5 where
  guard := rfl
  allowed h := absurd h (by decide)
  idle := rfl
  alone h := absurd h (by decide)
  source := trivial

/-- The exchange lets the store go. -/
theorem atSwap_heldLatch : outGoes (exec (.atSwap 0 5) heldLatch) = true ∧
    ((outState (exec (.atSwap 0 5) heldLatch)).ctx 0).accs = [{ storeUnderWay with wall := true }] := by decide +kernel

/-- Refutes O21: in `heldLatch` an exchange at another quad completes and also marks the store under way, which the stated
effect leaves alone. -/
theorem not_lateralAccessesEntered : ¬ Obligations.LateralAccessesEntered := by
  unfold Obligations.LateralAccessesEntered
  intro h
  obtain ⟨-, hswap, -⟩ := h heldLatch 0 5
  obtain ⟨t, ht, hdid⟩ := hswap (by decide) (by unfold WindowOk; decide) (by decide) (by decide) ready_heldLatch
  obtain ⟨hgoes, hwoken⟩ := atSwap_heldLatch
  have htstate : outState (exec (.atSwap 0 5) heldLatch) = t :=
    Host.Outcome.next.inj ((eq_next_outState _ hgoes).symm.trans ht)
  rw [htstate] at hwoken
  have hkept : (t.ctx 0).accs = [storeUnderWay] := congrArg Ctx.accs hdid.ctx
  exact absurd (hkept.symm.trans hwoken) (by decide)

end Sys2Proof.Machine
end

section
/-!
PROOFS. The release of contexts, command queues and holders (O15).
-/

namespace Sys2Proof.Machine

/-! ## A context is released (R430, R438, R413, R426) -/

theorem releaseCtx_inspect (s : State) (n : Nat) (h : (s.ctx n).st = .inspect) : releaseCtx s n =
    goAgain (s.updCtx n fun c => { c with
      st := c.workSt, readySince := s.clk, kept := 0, ctl := { c.ctl with stopf := false } }) n := by
  simp only [releaseCtx, h]

theorem releaseCtx_fenced (s : State) (n : Nat) (h : (s.ctx n).st = .frozenV)
    (hk : ∃ k ∈ s.dist.kerns, k.kid = (s.ctx n).ctl.kid) : releaseCtx s n =
    goAgain (s.updCtx n fun c => { c with st := c.workSt, fenced := false, readySince := s.clk }) n := by
  have hlive : (s.dist.kerns.any fun k => decide (k.kid = (s.ctx n).ctl.kid)) = true := by simpa using hk
  simp only [releaseCtx, h, hlive, if_true]

theorem releaseCtx_orphan (s : State) (n : Nat) (h : (s.ctx n).st = .frozenV)
    (hk : ∀ k ∈ s.dist.kerns, k.kid ≠ (s.ctx n).ctl.kid) : releaseCtx s n = freeCtx s n := by
  have hgone : (s.dist.kerns.any fun k => decide (k.kid = (s.ctx n).ctl.kid)) = false := by simpa using hk
  simp only [releaseCtx, h, hgone, Bool.false_eq_true, if_false]

theorem releaseCtx_other (s : State) (n : Nat) (hi : (s.ctx n).st ≠ .inspect) (hf : (s.ctx n).st ≠ .frozenV) :
    releaseCtx s n = s := by
  unfold releaseCtx
  dsimp only
  split
  · contradiction
  · contradiction
  · rfl

/-- Does context `n` go on without work of R414 or R212: with its next issue, or at once with nothing to do again? -/
abbrev GoesOnPlain (s : State) (n : Nat) : Prop :=
  (s.ctx n).issuesOn = true ∨ ((s.ctx n).replay = none ∧ heldStep s n = none)

/-- A context that goes on plainly after a change that leaves its work as it is. -/
theorem goAgain_updCtx (s : State) (n : Nat) (f : Ctx → Ctx) (h : GoesOnPlain s n)
    (hi : (f (s.ctx n)).issuesOn = (s.ctx n).issuesOn) (hr : (f (s.ctx n)).replay = (s.ctx n).replay) :
    (∀ j, j ≠ n → (goAgain (s.updCtx n f) n).ctx j = s.ctx j) ∧
      (goAgain (s.updCtx n f) n).ctx n = { f (s.ctx n) with parked := (s.ctx n).issuesOn } := by
  have hplain : GoesOnPlain (s.updCtx n f) n := by
    rw [GoesOnPlain, State.ctx_updCtx, hi, hr]
    exact h
  obtain ⟨-, hothers, hctx⟩ := goAgain_of_idle _ n hplain
  refine ⟨fun j hj => (hothers j hj).trans (State.ctx_updCtx_other _ _ _ _ hj), ?_⟩
  rw [hctx, State.ctx_updCtx, hi]

/-- A release of a context that goes on plainly, or that is freed, changes no other context. -/
theorem ctx_releaseCtx_of_ne (s : State) (n j : Nat) (hj : j ≠ n)
    (h : GoesOnPlain s n ∨ ((s.ctx n).st = .frozenV ∧ ∀ k ∈ s.dist.kerns, k.kid ≠ (s.ctx n).ctl.kid)) :
    (releaseCtx s n).ctx j = s.ctx j := by
  by_cases hi : (s.ctx n).st = .inspect
  · have hplain := h.resolve_right fun hf => absurd (hi.symm.trans hf.1) (by decide)
    rw [releaseCtx_inspect s n hi]
    exact (goAgain_updCtx s n _ hplain rfl rfl).1 j hj
  by_cases hf : (s.ctx n).st = .frozenV
  · by_cases hk : ∃ k ∈ s.dist.kerns, k.kid = (s.ctx n).ctl.kid
    · have hplain := h.resolve_right fun ⟨_, hgone⟩ => hk.elim fun k hk => hgone k hk.1 hk.2
      rw [releaseCtx_fenced s n hf hk]
      exact (goAgain_updCtx s n _ hplain rfl rfl).1 j hj
    · rw [releaseCtx_orphan s n hf fun k hm he => hk ⟨k, hm, he⟩]
      exact ctx_freeCtx_other s n j hj
  · rw [releaseCtx_other s n hi hf]

/-! ## A command queue is released (R279, R426) -/

theorem qfence_passPart (c : Ctx) (q : Cmd) : (c.passPart q).qfence = c.qfence := by
  unfold Ctx.passPart
  dsimp only
  split <;> rfl

theorem qfence_endCmd (c : Ctx) (q : Cmd) (tok : Option Nat) (v : Word) : (c.endCmd q tok v).qfence = c.qfence := by
  have hdrop : ((c.popCmd q.fu).dropPq q).qfence = c.qfence := by
    unfold Ctx.dropPq
    dsimp only
    split <;> rfl
  cases tok <;> exact hdrop

theorem qfence_logFate (s : State) (n : Nat) (ignore : Bool) : ((logFate s n ignore).ctx n).qfence = (s.ctx n).qfence := by
  unfold logFate
  split
  · rfl
  · split
    · rfl
    · split <;> simp

/-- The fate of a queue's command leaves the fences of its context. -/
theorem qfence_commandFate (s : State) (n fu : Nat) (ignore : Bool) (hfu : fu < 1000) :
    ((commandFate s n fu ignore).ctx n).qfence = (s.ctx n).qfence := by
  have hlog : ((if fu = 23 then logFate s n ignore else s).ctx n).qfence = (s.ctx n).qfence := by
    split
    · exact qfence_logFate s n ignore
    · rfl
  unfold commandFate
  rw [if_neg (Nat.not_le.2 hfu)]
  split
  · exact hlog
  · split
    · split
      · rw [State.ctx_updCtx]
        dsimp only
        split
        · rw [Ctx.updCtl_qfence, qfence_endCmd, qfence_passPart]
        · rw [qfence_endCmd, qfence_passPart]
      · rw [State.ctx_updCtx, Ctx.setQueue_qfence]
    · exact hlog

/-- A released queue has no fence. -/
theorem qfence_releaseQueue (s : State) (n fu : Nat) (hfu : fu < 1000) :
    KMap.get false ((releaseQueue s n fu).ctx n).qfence fu = false := by
  unfold releaseQueue
  split
  · rw [qfence_commandFate _ _ _ _ hfu, State.ctx_updCtx]
    exact KMap.get_del_same _ _ _
  · next h => exact Bool.eq_false_iff.2 h

theorem releaseQueue_unfenced (s : State) (n fu : Nat) (h : KMap.get false (s.ctx n).qfence fu = false) :
    releaseQueue s n fu = s := by
  rw [releaseQueue, h, if_neg Bool.false_ne_true]

/-! ## A holder is released (R426) -/

/-- The release of a holder takes its fence from it and puts steps in the calendar. -/
theorem releaseHolder_keeps (s : State) (h : Nat) : (releaseHolder s h).ctxs = s.ctxs ∧
    (releaseHolder s h).holders = (s.updHolder h fun x => { x with fence := false }).holders := by
  unfold releaseHolder
  dsimp only
  split
  · exact ⟨rfl, rfl⟩
  · exact ⟨foldl_keeps State.ctxs _ (fun s e => by split <;> rfl) _ _,
      foldl_keeps State.holders _ (fun s e => by split <;> rfl) _ _⟩

/-- The release of the holder that a code names, if it names one. -/
def releaseNamed (o : Option Nat) (s : State) : State :=
  match o with
  | some h => releaseHolder s h
  | none => s

theorem ctx_releaseNamed (o : Option Nat) (s : State) (n : Nat) : (releaseNamed o s).ctx n = s.ctx n := by
  cases o with
  | none => rfl
  | some h => exact State.ctx_of_ctxs (releaseHolder_keeps s h).1 n

theorem holder_of_holders {s t : State} (h : s.holders = t.holders) (k : Nat) : s.holder k = t.holder k :=
  congrArg (KMap.get Holder.reset · k) h

theorem holder_releaseNamed (h : Nat) (s : State) :
    (releaseNamed (some h) s).holder h = { s.holder h with fence := false } :=
  (holder_of_holders (releaseHolder_keeps s h).2 h).trans (State.holder_updHolder _ _ _)

theorem holder_releaseNamed_other (o : Option Nat) (s : State) (k : Nat) (hk : o ≠ some k) :
    (releaseNamed o s).holder k = s.holder k := by
  cases o with
  | none => rfl
  | some h =>
    refine (holder_of_holders (releaseHolder_keeps s h).2 k).trans (State.holder_updHolder_other _ _ _ _ ?_)
    exact fun e => hk (congrArg some e.symm)

/-! ## The trigger (R436) -/

/-- What `sy.rel` of the word t does once it is charged. -/
def releases (t : Word) (s : State) : State :=
  match fld t 0 3 with
  | 0 => releaseCtx s (fld t 3 12)
  | 1 => releaseQueue s (fld t 3 12) (fld t 15 5)
  | _ => releaseNamed (holderOf (fld t 20 11)) s

theorem exec_syRel (s : State) (g : BitVec 4) (src : BitVec 9) : exec (.syRel g src) s =
    trigger 7 7 1 1 false [] [trapIf (decide (3 ≤ fld (trigT s src) 0 3)) 0x0A (trigT s src)] g src
      (fun v => releases v.word) s := rfl

theorem releases_context (t : Word) (s : State) (h : t.toNat % 8 = 0) :
    releases t s = releaseCtx s (t.toNat / 8 % 4096) := by
  have hf : fld t 0 3 = 0 := (fld_zero t 3).trans h
  rw [releases, hf, fld_eq]
  rfl

theorem releases_queue (t : Word) (s : State) (h : t.toNat % 8 = 1) :
    releases t s = releaseQueue s (t.toNat / 8 % 4096) (fld t 15 5) := by
  have hf : fld t 0 3 = 1 := (fld_zero t 3).trans h
  rw [releases, hf, fld_eq t 3]
  rfl

theorem releases_holder (t : Word) (s : State) (h : t.toNat % 8 = 2) :
    releases t s = releaseNamed (holderOf (fld t 20 11)) s := by
  have hf : fld t 0 3 = 2 := (fld_zero t 3).trans h
  rw [releases, hf]
  rfl

theorem firstNote_release (t : Word) : firstNote [trapIf (decide (3 ≤ fld t 0 3)) 0x0A t] =
    if 3 ≤ t.toNat % 8 then .trap 5 0x0A t else .quiet := by
  rw [firstNote_trapIf, show fld t 0 3 = t.toNat % 8 from fld_zero t 3]
  by_cases h : 3 ≤ t.toNat % 8 <;> simp [h, firstNote]

/-- A ready release answers a state whose contexts and holders are those of its effect. -/
theorem syRel_next {s : State} {g : BitVec 4} {src : BitVec 9} (hr : Ready s 7 7 false g src)
    (ht : (trigT s src).toNat % 8 < 3) : ∃ t, exec (.syRel g src) s = .next t ∧
      (∀ n, t.ctx n = (releases (trigT s src) (charge (consume s src) 1)).ctx n) ∧
      ∀ h, t.holder h = (releases (trigT s src) (charge (consume s src) 1)).holder h := by
  refine ⟨_, (exec_syRel s g src).trans (trigger_quiet s _ _ _ _ _ _ _ _ _ _ hr rfl
    ((firstNote_release _).trans (if_neg (Nat.not_le.2 ht)))), fun n => ?_, fun h => rfl⟩
  dsimp only
  by_cases hn : n = (releases (trigT s src) (charge (consume s src) 1)).iss.n
  · rw [hn]
    exact State.ctx_updCtx _ _ _
  · exact State.ctx_updCtx_other _ _ _ _ hn

/-- A release that finds nothing to do only charges its weight. -/
theorem syRel_idle {s : State} {g : BitVec 4} {src : BitVec 9} (hr : Ready s 7 7 false g src)
    (ht : (trigT s src).toNat % 8 < 3)
    (he : releases (trigT s src) (charge (consume s src) 1) = charge (consume s src) 1) :
    ∃ t, exec (.syRel g src) s = .next t ∧ Did s t 1 (sourced s src) :=
  completes_idle s _ 7 7 1 1 _ _ _ g src _ (exec_syRel s g src) rfl
    ((firstNote_release _).trans (if_neg (Nat.not_le.2 ht))) he hr

/-! ## What a charged release still finds -/

theorem ctx_charged_other (s : State) (src : BitVec 9) (w : Nat) {m : Nat} (h : m ≠ s.iss.n) :
    (charge (consume s src) w).ctx m = s.ctx m := ctx_consume_other s src m h

theorem ctx_charged_issuer (s : State) (src : BitVec 9) (w : Nat) :
    (charge (consume s src) w).ctx s.iss.n = sourced s src := ctx_consume s src

theorem dist_charged (s : State) (src : BitVec 9) (w : Nat) : (charge (consume s src) w).dist = s.dist := by
  rw [charge_dist, consume_rest]

theorem holder_charged (s : State) (src : BitVec 9) (w h : Nat) : (charge (consume s src) w).holder h = s.holder h := by
  refine holder_of_holders ?_ h
  rw [charge_holders, consume_rest]

/-- Reading a source changes the circular buffers of its context alone (R125). -/
theorem sourced_eq (s : State) (src : BitVec 9) :
    sourced s src = { s.ctx s.iss.n with cbs := (sourced s src).cbs } := by
  unfold sourced
  split <;> rfl

theorem sourced_st (s : State) (src : BitVec 9) : (sourced s src).st = (s.ctx s.iss.n).st := by rw [sourced_eq]
theorem sourced_qfence (s : State) (src : BitVec 9) : (sourced s src).qfence = (s.ctx s.iss.n).qfence := by rw [sourced_eq]

theorem qfence_charged (s : State) (src : BitVec 9) (w n : Nat) :
    ((charge (consume s src) w).ctx n).qfence = (s.ctx n).qfence := by
  by_cases hn : n = s.iss.n
  · rw [hn, ctx_charged_issuer, sourced_qfence]
  · rw [ctx_charged_other s src w hn]

/-- A charge leaves the matrix units as they are. -/
theorem matrix_charge (s : State) (w k : Nat) : ((charge s w).core k).matrix = (s.core k).matrix := by
  by_cases hk : k = coreOf s.iss.n
  · rw [hk, core_charge]
  · have hcore : (charge s w).core k = s.core k := KMap.get_put_other _ _ _ _ _ hk
    rw [hcore]

theorem heldStep_charged (s : State) (src : BitVec 9) (w n : Nat) :
    heldStep (charge (consume s src) w) n = heldStep s n := by
  rw [heldStep, matrix_charge, core_consume]
  rfl

/-! ## The kinds of release (R436) -/

section
variable {s : State} {g : BitVec 4} {src : BitVec 9} (hr : Ready s 7 7 false g src)
include hr

/-- A release of another context (R413, R426, R430, R438). -/
theorem syRel_context (h0 : (trigT s src).toNat % 8 = 0) {m : Nat} (hm : (trigT s src).toNat / 8 % 4096 = m)
    (hne : m ≠ s.iss.n) : ∃ t, exec (.syRel g src) s = .next t ∧
      (GoesOnPlain s m → t.ctx s.iss.n = sourced s src) ∧
      (GoesOnPlain s m → (s.ctx m).st = .inspect → t.ctx m =
        { s.ctx m with
          st := (s.ctx m).workSt, readySince := s.clk, kept := 0, parked := (s.ctx m).issuesOn
          ctl := { (s.ctx m).ctl with stopf := false } }) ∧
      (GoesOnPlain s m → (s.ctx m).st = .frozenV → (∃ k ∈ s.dist.kerns, k.kid = (s.ctx m).ctl.kid) → t.ctx m =
        { s.ctx m with st := (s.ctx m).workSt, fenced := false, readySince := s.clk, parked := (s.ctx m).issuesOn }) ∧
      ((s.ctx m).st = .frozenV → (∀ k ∈ s.dist.kerns, k.kid ≠ (s.ctx m).ctl.kid) → (t.ctx m).st = .empty ∧
        t.ctx s.iss.n = sourced s src) ∧
      ((s.ctx m).st = .running ∨ (s.ctx m).st = .draining ∨ (s.ctx m).st = .saving ∨ (s.ctx m).st = .empty →
        t.ctx m = s.ctx m) := by
  obtain ⟨t, he, hctx, -⟩ := syRel_next hr (by omega)
  refine ⟨t, he, ?_⟩
  simp only [hctx, releases_context _ _ h0, hm]
  have hclk := clk_charged s src 1
  have hdist := dist_charged s src 1
  have hissuer := ctx_charged_issuer s src 1
  have hother : (charge (consume s src) 1).ctx m = s.ctx m := ctx_charged_other s src 1 hne
  have hplain : GoesOnPlain s m → GoesOnPlain (charge (consume s src) 1) m := by
    rw [GoesOnPlain, GoesOnPlain, hother, heldStep_charged]
    exact id
  generalize charge (consume s src) 1 = u at hclk hdist hissuer hother hplain
  rw [← hdist, ← hclk, ← hother, ← hissuer]
  refine ⟨fun hp => ctx_releaseCtx_of_ne u m _ hne.symm (.inl (hplain hp)), fun hp hi => ?_, fun hp hf hk => ?_,
    fun hf hk => ⟨?_, ctx_releaseCtx_of_ne u m _ hne.symm (.inr ⟨hf, hk⟩)⟩, fun hst => ?_⟩
  · rw [releaseCtx_inspect u m hi]
    exact (goAgain_updCtx u m _ (hplain hp) rfl rfl).2
  · rw [releaseCtx_fenced u m hf hk]
    exact (goAgain_updCtx u m _ (hplain hp) rfl rfl).2
  · rw [releaseCtx_orphan u m hf hk, ctx_freeCtx]
    rfl
  · rw [releaseCtx_other u m (fun e => by simp [e] at hst) (fun e => by simp [e] at hst)]

/-- A running context that names itself has nothing to go on from. -/
theorem syRel_self (h0 : (trigT s src).toNat % 8 = 0) (hm : (trigT s src).toNat / 8 % 4096 = s.iss.n)
    (hst : (s.ctx s.iss.n).st = .running) : ∃ t, exec (.syRel g src) s = .next t ∧ Did s t 1 (sourced s src) := by
  refine syRel_idle hr (by omega) ?_
  have hrunning : ((charge (consume s src) 1).ctx s.iss.n).st = .running := by
    rw [ctx_charged_issuer, sourced_st, hst]
  rw [releases_context _ _ h0, hm]
  exact releaseCtx_other _ _ (by rw [hrunning]; decide) (by rw [hrunning]; decide)

/-- A release of a command queue (R279, R426). -/
theorem syRel_queue (h1 : (trigT s src).toNat % 8 = 1) {m : Nat} (hm : (trigT s src).toNat / 8 % 4096 = m) :
    ∃ t, exec (.syRel g src) s = .next t ∧ KMap.get false (t.ctx m).qfence (fld (trigT s src) 15 5) = false ∧
      (KMap.get false (s.ctx m).qfence (fld (trigT s src) 15 5) = false → Did s t 1 (sourced s src)) := by
  have hfu : fld (trigT s src) 15 5 < 1000 := by
    rw [fld_eq]
    omega
  have hrel := releases_queue (trigT s src) (charge (consume s src) 1) h1
  rw [hm] at hrel
  obtain ⟨t, he, hctx, -⟩ := syRel_next hr (by omega)
  refine ⟨t, he, ?_, fun hq => ?_⟩
  · rw [hctx, hrel]
    exact qfence_releaseQueue _ _ _ hfu
  · obtain ⟨u, hu, hdid⟩ := syRel_idle hr (by omega) (hrel.trans (releaseQueue_unfenced _ _ _ (by rw [qfence_charged, hq])))
    rwa [Host.Outcome.next.inj (he.symm.trans hu)]

/-- A release of a holder (R426). -/
theorem syRel_holder (h2 : (trigT s src).toNat % 8 = 2) : ∃ t, exec (.syRel g src) s = .next t ∧
    t.ctx s.iss.n = sourced s src ∧
    (∀ h, holderOf (fld (trigT s src) 20 11) = some h → t.holder h = { s.holder h with fence := false }) ∧
    ∀ h, holderOf (fld (trigT s src) 20 11) ≠ some h → t.holder h = s.holder h := by
  obtain ⟨t, he, hctx, hholder⟩ := syRel_next hr (by omega)
  refine ⟨t, he, ?_⟩
  simp only [hctx, hholder, releases_holder _ _ h2]
  refine ⟨(ctx_releaseNamed _ _ _).trans (ctx_charged_issuer s src 1), fun h hh => ?_, fun h hh => ?_⟩
  · rw [hh, holder_releaseNamed, holder_charged]
  · rw [holder_releaseNamed_other _ _ _ hh, holder_charged]

end

/-- Settles O15: `sy.rel` by its kind; a context goes on plainly where `goAgain` has no work of R414 or R212. -/
theorem systemRelease : Obligations.SystemRelease := by
  unfold Obligations.SystemRelease
  refine fun s g src hr => ⟨fun h0 hne => syRel_context hr h0 rfl hne, fun h0 hm hst => ?_,
    fun h1 => syRel_queue hr h1 rfl, fun h2 => syRel_holder hr h2, fun h3 => ?_⟩
  · rw [hm] at hst
    exact syRel_self hr h0 hm hst
  · exact traps s _ 7 7 1 1 _ _ _ g src _ 5 0x0A _ (exec_syRel s g src) hr ((firstNote_release _).trans (if_pos h3))

end Sys2Proof.Machine
end

section
/-!
PROOFS. The moves that write the registers of the matrix unit (O33).
-/

namespace Sys2Proof.Machine

/-! ## Whom the matrix unit admits (R204, R418, R259) -/

/-- The step of the latched context does not stand in its trap frame, and no unpick of it is outstanding. -/
abbrev MatrixFree (s : State) : Prop :=
  (∀ x, s.iss.core.matrix.step = some x → ¬(x.n = s.iss.n ∧ x.held = true)) ∧ ∀ q ∈ s.iss.ctx.queue 23, q.port ≠ 7

theorem matrixBusy_of_free {s : State} (h : MatrixFree s) : matrixBusy s = .quiet := by
  obtain ⟨hstep, hunpick⟩ := h
  unfold matrixBusy
  cases hs : s.iss.core.matrix.step with
  | none => simpa using hunpick
  | some m => simpa using ⟨by simpa using hstep m hs, hunpick⟩

theorem firstNote_matrixBusy_of_free {s : State} (h : MatrixFree s) : firstNote [matrixBusy s] = .quiet := by
  rw [matrixBusy_of_free h]
  rfl

theorem matrixBusy_of_not_free {s : State} (h : ¬MatrixFree s) : matrixBusy s = .trap 3 0x03 (unstated s) := by
  unfold matrixBusy
  refine if_pos (Bool.eq_true_of_not_eq_false fun hidle => h ?_)
  obtain ⟨hheld, hqueued⟩ := Bool.or_eq_false_iff.1 hidle
  refine ⟨fun m hs => ?_, by simpa using hqueued⟩
  simpa [hs] using hheld

theorem ownerNote_eq (s : State) :
    firstNote [ownerNote s] = if s.iss.core.matrix.owner = some s.iss.n then .quiet else .trap 5 0x0F 0 := by
  rw [ownerNote, ownsMatrix, firstNote_trapIf]
  by_cases h : s.iss.core.matrix.owner = some s.iss.n <;> simp [h, firstNote]

/-! ## What the unit's moves do -/

theorem iss_core_charged (s : State) (src : BitVec 9) (w : Nat) : (charge (consume s src) w).iss.core = s.iss.core := by simp

/-- A trigger with quiet checks whose effect is on its core alone completes so. -/
theorem completesCore_alone (s : State) (i : Instr) (fu port int w : Nat) (cb : Bool) (blk chk : List Note) (g : BitVec 4)
    (src : BitVec 9) (eff : Val → State → State) (q : Core → Core)
    (h : exec i s = trigger fu port int w cb blk chk g src eff s) (hb : firstNote blk = .quiet)
    (hc : firstNote chk = .quiet)
    (he : eff (readCode s src) (charge (consume s src) w) = (charge (consume s src) w).updCore (coreOf s.iss.n) q) :
    CompletesCore s i fu port int w cb g src id q := by
  intro hr
  refine ⟨_, h.trans (trigger_quiet s _ _ _ _ _ _ _ _ _ _ hr hb hc), ?_⟩
  dsimp only
  rw [he, State.updCore_iss, charged_n, updCore_updCtx]
  have hdid := did_effectCore s fu port int w s.serial src id q
  rwa [← charged_serial s src w, ser_self, updCore_updCtx, State.updCtx_updCtx] at hdid

theorem onMatrix_charged (s : State) (src : BitVec 9) (w : Nat) (k : Matrix → Matrix) :
    onMatrix k (charge (consume s src) w) = (charge (consume s src) w).updCore (coreOf s.iss.n) fun c =>
      { c with matrix := k c.matrix } := by
  rw [onMatrix, charged_n]

theorem storeWord_eq (i : Nat) (w : BitVec 128) :
    storeWord i w = w &&& (if i < 256 then 2 ^ 50 - 1 else 2 ^ 84 - 1 : BitVec 128) := by
  unfold storeWord
  split <;> rfl

theorem exec_mxMld (s : State) (g : BitVec 4) (src : BitVec 9) : exec (.mxMld g src) s =
    trigger 14 5 1 2 false [matrixBusy s] [] g src (fun v s => onMatrix (fun m => { m with
      ustore := KMap.put m.ustore (fld (s.iss.ctx.portW 14 0) 0 12)
        (storeWord (fld (s.iss.ctx.portW 14 0) 0 12) (v.word ++ s.iss.ctx.portW 14 1)) }) s) s := rfl

theorem exec_mxParm (s : State) (g : BitVec 4) (src : BitVec 9) : exec (.mxParm g src) s =
    trigger 14 6 1 1 false [matrixBusy s] [ownerNote s] g src (fun v s =>
      onCtx (fun c => { c with regs := c.regs.setTag (2000 + fld v.word 0 3) (s.iss.ctx.regs.tag (portTag 14 0 0)) })
        (onMatrix (fun m => { m with mp := KMap.set 0 m.mp (fld v.word 0 3) (s.iss.ctx.portW 14 0) }) s)) s := rfl

theorem exec_scXld (s : State) (g : BitVec 4) (src : BitVec 9) : exec (.scXld g src) s =
    trigger 15 4 1 1 false [matrixBusy s] [ownerNote s] g src
      (fun v => onMatrix fun m => { m with xs := v.word.setWidth 16 }) s := rfl

theorem exec_scXadd (s : State) (g : BitVec 4) (src : BitVec 9) : exec (.scXadd g src) s =
    trigger 15 5 1 2 false [matrixBusy s] [ownerNote s] g src
      (fun v s => onMatrix (fun m => { m with pslX := s.iss.core.matrix.xs, pslP := v.word.setWidth 6 }) s) s := rfl

/-- R210: a microprogram word keeps the bits of its kind, a directory entry's below address 256 and a word's above. -/
theorem mxMld_completes {s : State} (h : MatrixFree s) (g : BitVec 4) (src : BitVec 9) :
    CompletesCore s (.mxMld g src) 14 5 1 2 false g src id fun c => { c with matrix := { c.matrix with
      ustore := KMap.put c.matrix.ustore ((s.iss.ctx.portW 14 0).toNat % 4096)
        ((trigT s src ++ s.iss.ctx.portW 14 1) &&&
          (if (s.iss.ctx.portW 14 0).toNat % 4096 < 256 then 2 ^ 50 - 1 else 2 ^ 84 - 1 : BitVec 128)) } } := by
  refine completesCore_alone s _ 14 5 1 2 _ _ _ g src _ _ (exec_mxMld s g src) (firstNote_matrixBusy_of_free h) rfl ?_
  rw [onMatrix_charged, iss_ctx_charged, fld_zero, storeWord_eq]
  rfl

/-- R210, R240: the mp register takes port a and its tag the tag of that port. -/
theorem mxParm_completes {s : State} (h : MatrixFree s) (ho : s.iss.core.matrix.owner = some s.iss.n) (g : BitVec 4)
    (src : BitVec 9) :
    CompletesCore s (.mxParm g src) 14 6 1 1 false g src
      (fun c => { c with
        regs := c.regs.setTag (2000 + (trigT s src).toNat % 8) (s.iss.ctx.regs.tag (portTag 14 0 0)) })
      fun c => { c with matrix := { c.matrix with
        mp := KMap.set 0 c.matrix.mp ((trigT s src).toNat % 8) (s.iss.ctx.portW 14 0) } } := by
  refine completesCore s _ 14 6 1 1 s.serial _ _ _ g src _ _ _ (exec_mxParm s g src) (firstNote_matrixBusy_of_free h)
    ((ownerNote_eq s).trans (if_pos ho)) ?_
  rw [onMatrix_charged, iss_ctx_charged, fld_zero, onCtx, State.updCore_iss, charged_n, updCore_updCtx]
  conv_rhs => rw [← charged_serial s src 1, ser_self]
  rfl

theorem scXld_completes {s : State} (h : MatrixFree s) (ho : s.iss.core.matrix.owner = some s.iss.n) (g : BitVec 4)
    (src : BitVec 9) :
    CompletesCore s (.scXld g src) 15 4 1 1 false g src id fun c =>
      { c with matrix := { c.matrix with xs := (trigT s src).setWidth 16 } } :=
  completesCore_alone s _ 15 4 1 1 _ _ _ g src _ _ (exec_scXld s g src) (firstNote_matrixBusy_of_free h)
    ((ownerNote_eq s).trans (if_pos ho)) (onMatrix_charged s src 1 _)

/-- R211: the latches take the scale register as it was at issue and the patch of T. -/
theorem scXadd_completes {s : State} (h : MatrixFree s) (ho : s.iss.core.matrix.owner = some s.iss.n) (g : BitVec 4)
    (src : BitVec 9) :
    CompletesCore s (.scXadd g src) 15 5 1 2 false g src id fun c => { c with matrix := { c.matrix with
      pslX := s.iss.core.matrix.xs, pslP := (trigT s src).setWidth 6 } } := by
  refine completesCore_alone s _ 15 5 1 2 _ _ _ g src _ _ (exec_scXadd s g src) (firstNote_matrixBusy_of_free h)
    ((ownerNote_eq s).trans (if_pos ho)) ?_
  rw [onMatrix_charged, iss_core_charged]
  rfl

/-! ## What the unit refuses (R204, R418, R259) -/

section
variable {s : State} {i : Instr} {fu port w : Nat} {chk : List Note} {g : BitVec 4} {src : BitVec 9}
  {eff : Val → State → State}

theorem matrixMove_refused (h : ¬MatrixFree s) (hi : exec i s = trigger fu port 1 w false [matrixBusy s] chk g src eff s)
    (hr : Ready s fu port false g src) : ∃ v, Traps s i 0x03 v :=
  ⟨unstated s, traps s i fu port 1 w _ _ _ g src _ 3 0x03 _ hi hr (by rw [matrixBusy_of_not_free h]; rfl)⟩

theorem matrixMove_unowned (h : MatrixFree s) (ho : s.iss.core.matrix.owner ≠ some s.iss.n)
    (hi : exec i s = trigger fu port 1 w false [matrixBusy s] [ownerNote s] g src eff s)
    (hr : Ready s fu port false g src) : Traps s i 0x0F 0 := by
  refine traps s i fu port 1 w _ _ _ g src _ 5 0x0F 0 hi hr ?_
  rw [matrixBusy_of_free h]
  exact (ownerNote_eq s).trans (if_neg ho)

end

/-- Settles O33: each move writes its register where the unit admits its context, and else meets the first test that
fails, the unit's before the owner's. -/
theorem matrixRegisterWrites : Obligations.MatrixRegisterWrites := by
  unfold Obligations.MatrixRegisterWrites
  refine fun s g src => ⟨fun hf => mxMld_completes hf g src, fun hf ho => mxParm_completes hf ho g src,
    fun hf ho => scXld_completes hf ho g src, fun hf ho => scXadd_completes hf ho g src, fun hf ho => ⟨?_, ?_, ?_⟩,
    fun hf => ⟨?_, ?_, ?_, ?_⟩⟩
  · exact matrixMove_unowned hf ho (exec_mxParm s g src)
  · exact matrixMove_unowned hf ho (exec_scXld s g src)
  · exact matrixMove_unowned hf ho (exec_scXadd s g src)
  · exact matrixMove_refused hf (exec_mxMld s g src)
  · exact matrixMove_refused hf (exec_mxParm s g src)
  · exact matrixMove_refused hf (exec_scXld s g src)
  · exact matrixMove_refused hf (exec_scXadd s g src)

end Sys2Proof.Machine
end

section
/-!
PROOFS. The step that the matrix unit has in flight (O35).
-/

namespace Sys2Proof.Machine

/-! ## The operand read (R209, R212) -/

/-- The operand bytes of a step none of whose bank rows was granted early: those it read before its first resumed clk, else
those of the arena now, erroneous words as 0 where their error is ignored. -/
def operandsOf (s : State) (m : MStep) : List (Nat × Nat × Nat) :=
  if m.early then m.ops else m.words.map (wordData (fun off len =>
    let pa := arenaPA (s.ctx m.n) (quadOf m.n) off
    if m.dead then s.rdDead pa len else s.rd pa len) (s.ctx m.n) m.mp m.bufs)

/-- Without rows granted early an arena range is read as it stands. -/
theorem stepRd_nil (s : State) (n : Nat) (dead : Bool) : stepRd s n dead [] = fun off len =>
    let pa := arenaPA (s.ctx n) (quadOf n) off
    if dead then s.rdDead pa len else s.rd pa len := by
  funext off len
  rw [stepRd]
  exact if_pos rfl

/-- A step that is not recorded changes nothing but its operands when it reads (R246). -/
theorem readStep_unstaged (s : State) (m : MStep) (hs : m.stage = 0) (hg : m.got = []) (he : m.early = false) :
    readStep s m = (s, { m with ops := operandsOf s m }) := by
  rw [readStep, operandsOf, he, hg, stepRd_nil, if_pos hs]
  rfl

/-- One operand read lowers OLD and ends the reading of the step. -/
theorem exec_stepOperandRead (s : State) (c : Nat) (m : MStep) (hm : (s.core c).matrix.step = some m)
    (hr : m.readDone = false) (hs : m.stage = 0) (hg : m.got = []) : exec (.stepOperandRead c) s =
      .next ((s.updCtx m.n fun x => x.updCtl fun l => { l with old := l.old - 1 }).updCore c fun k =>
        { k with matrix := { k.matrix with step := some { m with readDone := true, ops := operandsOf s m } } }) := by
  show execStepOperandRead c s = _
  have hgot : ({ m with readDone := true, ops := operandsOf s m } : MStep) =
      { m with readDone := true, got := [], ops := operandsOf s m } := by rw [← hg]
  rw [hgot, execStepOperandRead, hm]
  dsimp only
  rw [hr, if_neg Bool.false_ne_true]
  cases he : m.early with
  | false =>
    rw [if_neg Bool.false_ne_true, readStep_unstaged s m hs hg he]
    dsimp only
    rw [he]
  | true => rw [if_pos rfl, operandsOf, he, if_pos rfl]

theorem exec_stepOperandRead_of_done (s : State) (c : Nat) (m : MStep) (hm : (s.core c).matrix.step = some m)
    (hr : m.readDone = true) : exec (.stepOperandRead c) s = .next s := by
  show execStepOperandRead c s = _
  rw [execStepOperandRead, hm]
  exact if_pos hr

/-! ## The sample of the latches (R209, R211) -/

theorem exec_latchSample (s : State) (c : Nat) (m : MStep) (hm : (s.core c).matrix.step = some m) (hs : m.stage = 0) :
    exec (.latchSample c) s = .next (s.updCore c fun k => { k with matrix := { k.matrix with step := some { m with
      latchX := (s.core c).matrix.pslX, latchP := (s.core c).matrix.pslP } } }) := by
  show execLatchSample c s = _
  rw [execLatchSample, hm]
  exact congrArg Host.Outcome.next (if_pos hs)

/-! ## The commit (R209, R212) -/

/-- Where an operand of the step stands that reads no buffer. -/
def opndPlace (s : State) (m : MStep) (o : MOpnd) : Nat :=
  arenaPA (s.ctx m.n) (quadOf m.n) (opndOff (s.ctx m.n) m.mp [] o)

/-- What the words of the step, run in order, leave over the accumulators and WB. -/
def stepWork (s : State) (c : Nat) (m : MStep) : Work :=
  runWords m.fmt m.latchX.toInt m.latchP (m.words.zip m.ops) ⟨(s.core c).matrix.acc, (s.core c).matrix.wb, [], 0⟩

/-- The stores of a step in their order. -/
def storeOuts (place : MOpnd → Nat) (l : List (MOpnd × Nat)) (s : State) : State :=
  l.foldl (fun s o => s.wr (place o.1) o.2 o.1.len) s

theorem onlyStores_storeOuts (place : MOpnd → Nat) (l : List (MOpnd × Nat)) (s : State) :
    OnlyStores s (storeOuts place l s) :=
  .foldl (fun s _ => onlyStores_wr s _ _ _) l (.refl s)

theorem core_storeOuts (place : MOpnd → Nat) (l : List (MOpnd × Nat)) (s : State) (k : Nat) :
    (storeOuts place l s).core k = s.core k :=
  (onlyStores_storeOuts place l s).core k

theorem ctx_storeOuts (place : MOpnd → Nat) (l : List (MOpnd × Nat)) (s : State) (n : Nat) :
    (storeOuts place l s).ctx n = s.ctx n :=
  State.ctx_of_ctxs (onlyStores_storeOuts place l s).ctxs n

/-- A byte that is in none of the stored ranges stays. -/
theorem read_storeOuts_off (place : MOpnd → Nat) (a : Nat) (l : List (MOpnd × Nat)) (s : State) (h : Rising s.mem)
    (ha : ∀ o ∈ l, ¬(place o.1 ≤ a ∧ a < place o.1 + o.1.len)) :
    Memory.read (storeOuts place l s).mem a = Memory.read s.mem a := by
  induction l generalizing s with
  | nil => rfl
  | cons o l ih =>
    refine (ih (s.wr (place o.1) o.2 o.1.len) (rising_wr s _ _ _ h) fun p hp => ha p (List.mem_cons_of_mem _ hp)).trans ?_
    rw [read_wr _ _ _ _ _ h, if_neg (ha o List.mem_cons_self)]

theorem read_storeOuts_single (place : MOpnd → Nat) (o : MOpnd × Nat) (s : State) (h : Rising s.mem) (i : Nat)
    (hi : i < o.1.len) : Memory.read (storeOuts place [o] s).mem (place o.1 + i) = BitVec.ofNat 8 (o.2 >>> (8 * i)) := by
  refine (read_wr s _ _ _ _ h).trans ?_
  rw [if_pos ⟨Nat.le_add_right _ _, Nat.add_lt_add_left hi _⟩, Nat.add_sub_cancel_left]

/-- The context of a step as its commit leaves it: its flags, and OST one lower where the step stores. -/
def committed (m : MStep) (flg : Flg) (x : Ctx) : Ctx :=
  { x with ctl := { x.ctl with
    flags := x.ctl.flags ||| flg
    ost := x.ctl.ost - (if (m.words.any fun w => mwMop w = 2 || mwMop w = 4) then 1 else 0) } }

theorem exec_stepCommit (s : State) (c : Nat) (m : MStep) (hm : (s.core c).matrix.step = some m)
    (hr : m.readDone = true) (hb : m.bufs = []) : exec (.stepCommit c) s =
      .next (((storeOuts (opndPlace s m) (stepWork s c m).outs s).updCtx m.n (committed m (stepWork s c m).flg)).updCore c
        fun q => ({ q with matrix := { q.matrix with
          acc := (stepWork s c m).acc, wb := (stepWork s c m).wb, step := none } } : Core).count 0x0D 1) := by
  show execStepCommit c s = _
  rw [execStepCommit, hm]
  dsimp only
  rw [hr, if_pos rfl, hb]
  have hctx : (fun x : Ctx => x.updCtl fun l => { l with
      flags := l.flags ||| (stepWork s c m).flg
      ost := if (m.words.any fun w => mwMop w = 2 || mwMop w = 4) then l.ost - 1 else l.ost }) =
        committed m (stepWork s c m).flg := by
    funext x
    unfold committed Ctx.updCtl
    split <;> simp
  rw [← hctx]
  rfl

/-- Settles O35: the three events of a step in flight, each by its equation; a commit stores before it ends the step. -/
theorem matrixStepInFlight : Obligations.MatrixStepInFlight := by
  unfold Obligations.MatrixStepInFlight
  intro s c m hm
  refine ⟨fun hr hs hg => ⟨_, exec_stepOperandRead s c m hm hr hs hg, rfl, ?_, fun k hk => ?_, fun k hk => ?_, ?_⟩,
    exec_stepOperandRead_of_done s c m hm,
    fun hs => ⟨_, exec_latchSample s c m hm hs, fun _ => rfl, rfl, fun k hk => ?_, ?_⟩,
    fun hr _ hb => ⟨_, exec_stepCommit s c m hm hr hb, ?_, fun j hj => ?_, fun j hj => ?_, ?_, fun hwf a ha => ?_,
      fun o ho hwf i hi => ?_⟩⟩
  · exact (State.ctx_updCore _ _ _ _).trans (State.ctx_updCtx _ _ _)
  · exact (State.ctx_updCore _ _ _ _).trans (State.ctx_updCtx_other _ _ _ _ hk)
  · exact State.core_updCore_other _ _ _ _ hk
  · exact State.core_updCore _ _ _
  · exact State.core_updCore_other _ _ _ _ hk
  · exact State.core_updCore _ _ _
  · rw [State.ctx_updCore, State.ctx_updCtx, ctx_storeOuts]
    rfl
  · rw [State.ctx_updCore, State.ctx_updCtx_other _ _ _ _ hj, ctx_storeOuts]
  · rw [State.core_updCore_other _ _ _ _ hj, State.core_updCtx, core_storeOuts]
  · rw [State.core_updCore, State.core_updCtx, core_storeOuts, Core.count_eq]
    rfl
  · exact read_storeOuts_off _ a _ s (rising_of_inv s hwf) ha
  · have hone : (stepWork s c m).outs = [o] := ho
    show Memory.read (storeOuts (opndPlace s m) (stepWork s c m).outs s).mem (opndPlace s m o.1 + i) = _
    rw [hone]
    exact read_storeOuts_single _ o s (rising_of_inv s hwf) i hi

end Sys2Proof.Machine
end

section
/-!
PROOFS. The commands that the skein unit SK enters (O41).
-/

namespace Sys2Proof.Machine

/-! ## Go moves that complete their command (R264, R265) -/

/-- What is open before a go move does not change while it is charged and takes its serial number. -/
theorem openIds_charged (s : State) (src : BitVec 9) (w k n : Nat) (c : Ctx) :
    openIds ((charge (consume s src) w).ser k) n c = openIds s n c := by
  have hstep : (((charge (consume s src) w).ser k).core (coreOf n)).matrix = (s.core (coreOf n)).matrix :=
    (matrix_charge (consume s src) w (coreOf n)).trans (congrArg Core.matrix (core_consume s src (coreOf n)))
  rw [openIds, openIds, hstep]

/-- What a go move does once it is charged: its command takes a serial number, is completed by `fix` and enters its queue; then
comes its effect `eff`. -/
def enterGo (c : Ctx) (fu port : Nat) (tok : Option Nat) (fix : Val → Cmd → Cmd) (eff : Val → State → State) (v : Val)
    (s : State) : State :=
  let u := s.ser (s.serial + 1)
  eff v (onCtx (fun x => x.enter
    { fix v (newCmd c s.serial fu port v.word) with after := openIds u u.iss.n c ++ c.creqs.map (·.id) } tok) u)

theorem goMove_eq (s : State) (fu port : Nat) (chk : List Note) (tok : Option Nat) (fix : Val → Cmd → Cmd)
    (eff : Val → State → State) (g : BitVec 4) (src : BitVec 9) : goMove fu port [] chk tok fix eff g src s =
      trigger fu port 1 2 true [blockIf (queueFull s.iss.ctx fu)] chk g src (enterGo s.iss.ctx fu port tok fix eff) s := rfl

theorem queueFull_of_open {s : State} {fu : Nat} (h : QueueOpen s fu) : queueFull s.iss.ctx fu = false := by
  obtain ⟨hlen, hfence⟩ := h
  simp [queueFull, hlen, hfence]

/-- The command that a go move of the issuing context captures and `fix` completes. -/
def fixedCmd (s : State) (src : BitVec 9) (fu port : Nat) (fix : Val → Cmd → Cmd) : Cmd :=
  { fix (readCode s src) (newCmd s.iss.ctx s.serial fu port (trigT s src)) with after := (goCmd s src fu port).after }

/-- A charged go move enters that command and has its effect on the issuing context. -/
theorem enterGo_charged (s : State) (src : BitVec 9) (w fu port : Nat) (tok : Option Nat) (fix : Val → Cmd → Cmd)
    (eff : Val → Ctx → Ctx) :
    enterGo s.iss.ctx fu port tok fix (fun v => onCtx (eff v)) (readCode s src) (charge (consume s src) w) =
      ((charge (consume s src) w).ser (s.serial + 1)).updCtx s.iss.n fun c =>
        eff (readCode s src) (c.enter (fixedCmd s src fu port fix) tok) := by
  have hn : ((charge (consume s src) w).ser (s.serial + 1)).iss.n = s.iss.n := charged_n s src w
  unfold enterGo
  dsimp only
  rw [charged_serial, hn, openIds_charged, onCtx_charged_ser]
  exact (congrArg (fun n => State.updCtx _ n _) hn).trans (State.updCtx_updCtx _ _ _ _)

/-- A go move to an open queue whose checks are quiet enters its command and has its effect on its context. -/
theorem goMove_enters {s : State} {i : Instr} {fu port : Nat} {chk : List Note} {tok : Option Nat} {g : BitVec 4}
    {src : BitVec 9} {fix : Val → Cmd → Cmd} {eff : Val → Ctx → Ctx} {q : Cmd}
    (hi : exec i s = goMove fu port [] chk tok fix (fun v => onCtx (eff v)) g src s) (hc : firstNote chk = .quiet)
    (hq : q = fixedCmd s src fu port fix) (hfu : q.fu = fu) (hport : q.port = port) :
    Enters s i g src tok q (eff (readCode s src)) := by
  intro ho
  rw [hfu] at ho
  rw [hfu, hport, hq]
  refine completes s i fu port 1 2 (s.serial + 1) true _ chk g src _ _ (hi.trans (goMove_eq ..)) ?_ hc
    (enterGo_charged s src 2 fu port tok fix eff)
  rw [queueFull_of_open ho]
  rfl

/-- A ready go move to an open queue raises the first of its checks that fails. -/
theorem goMove_traps {s : State} {i : Instr} {fu port code : Nat} {chk : List Note} {tok : Option Nat} {g : BitVec 4}
    {src : BitVec 9} {fix : Val → Cmd → Cmd} {eff : Val → State → State} {v : Word}
    (hi : exec i s = goMove fu port [] chk tok fix eff g src s) (hr : Ready s fu port true g src) (ho : QueueOpen s fu)
    (hn : firstNote chk = .trap 5 code v) : Traps s i code v := by
  refine traps s i fu port 1 2 true _ chk g src _ 5 code v (hi.trans (goMove_eq ..)) hr ?_
  rw [queueFull_of_open ho]
  exact hn

/-! ## The checks of SK (R227) -/

/-- The token of a control word is read alike by the model and by the statements. -/
theorem skTok_eq (w : Word) : skTok w = ctlTok w := by
  rw [skTok, ctlTok, fld_zero]
  rfl

/-- A control word that names a scope and a free token meets nothing. -/
theorem ctlNotes_quiet (s : State) (w : Word) (hs : w.toNat / 32 % 8 < 6) (ht : TokenFree s (ctlTok w)) :
    firstNote (ctlNotes s w) = .quiet := by
  have hscope : skScope w < 6 := (fld_eq w 5 3).trans_lt hs
  have hfree : ((skTok w).any fun k => decide ((s.iss.ctx.tok k).st = .pending)) = false := by
    rw [skTok_eq]
    cases hk : ctlTok w with
    | none => rfl
    | some k => simpa using ht k hk
  rw [ctlNotes, firstNote_trapIf, firstNote_trapIf, hfree, decide_eq_false (Nat.not_le.2 hscope)]
  rfl

/-- The handle that the control word of SK names. -/
abbrev skHandle (s : State) : Nat := (s.iss.ctx.portW 22 2).toNat / 256 % 8

theorem skHnd_eq (w : Word) : skHnd w = w.toNat / 256 % 8 := fld_eq w 8 3

/-- The control word of SK has a scope and a free token. -/
abbrev SkReady (s : State) : Prop :=
  (s.iss.ctx.portW 22 2).toNat / 32 % 8 < 6 ∧ TokenFree s (ctlTok (s.iss.ctx.portW 22 2))

/-- The handle that the control word of SK names is bound. -/
abbrev SkNamed (s : State) : Prop := (s.iss.ctx.sk (skHandle s)).cfg = true

/-- The checks of an SK trigger in their order. -/
def skChecks (s : State) (range : Note) (named : Bool) (more : List Note) : List Note :=
  ctlNotes s (s.iss.ctx.portW 22 2) ++
    (range :: trapIf (named && !(s.iss.ctx.sk (skHandle s)).cfg) 0x0D (w64 (skHandle s)) :: more)

/-- An SK trigger captures the address of the descriptor that its handle names; `sk.open` that which it binds. -/
def skFix (s : State) (port : Nat) (v : Val) (q : Cmd) : Cmd :=
  { q with a3 := if port = 4 then v.word else (s.iss.ctx.sk (skHandle s)).desc.setWidth 64 }

theorem skGo_eq (s : State) (g : BitVec 4) (src : BitVec 9) (port : Nat) (range : Note) (named : Bool) (more : List Note)
    (eff : Word → Ctx → Ctx) : skGo port range named more eff g src s =
      goMove 22 port [] (skChecks s range named more) (ctlTok (s.iss.ctx.portW 22 2)) (skFix s port)
        (fun v => onCtx (eff v.word)) g src s := by
  unfold skGo
  dsimp only
  rw [skTok_eq, skHnd_eq, List.append_assoc]
  rfl

theorem firstNote_skChecks {s : State} (hok : SkReady s) (range : Note) (named : Bool) (more : List Note) :
    firstNote (skChecks s range named more) =
      firstNote (range :: trapIf (named && !(s.iss.ctx.sk (skHandle s)).cfg) 0x0D (w64 (skHandle s)) :: more) :=
  firstNote_append _ _ (ctlNotes_quiet s _ hok.1 hok.2)

/-- The command that an SK trigger enters. -/
abbrev skCmd (s : State) (src : BitVec 9) (port : Nat) : Cmd :=
  { goCmd s src 22 port with a3 := if port = 4 then trigT s src else (s.iss.ctx.sk (skHandle s)).desc.setWidth 64 }

section
variable {s : State} {i : Instr} {g : BitVec 4} {src : BitVec 9} {port : Nat} {range : Note} {named : Bool} {more : List Note}
  {eff : Word → Ctx → Ctx}

/-- An SK trigger whose checks are quiet enters its command. -/
theorem skGo_enters (hi : exec i s = skGo port range named more eff g src s) (hok : SkReady s) (hrange : range = .quiet)
    (hnamed : named = true → SkNamed s) (hmore : firstNote more = .quiet) :
    Enters s i g src (ctlTok (s.iss.ctx.portW 22 2)) (skCmd s src port) (eff (trigT s src)) := by
  have hbound : (named && !(s.iss.ctx.sk (skHandle s)).cfg) = false := by
    cases named
    · rfl
    · simp [hnamed rfl]
  refine goMove_enters (hi.trans (skGo_eq ..)) ?_ rfl rfl rfl
  rw [firstNote_skChecks hok, hrange, hbound]
  exact hmore

/-- An operand out of range is refused before the handle is looked at. -/
theorem skGo_traps_range {code : Nat} {v : Word} (hi : exec i s = skGo port range named more eff g src s) (hok : SkReady s)
    (hr : Ready s 22 port true g src) (ho : QueueOpen s 22) (hrange : range = .trap 5 code v) : Traps s i code v := by
  refine goMove_traps (hi.trans (skGo_eq ..)) hr ho ?_
  rw [firstNote_skChecks hok, hrange]
  rfl

/-- A handle that is not bound is refused. -/
theorem skGo_traps_unbound (hi : exec i s = skGo port range true more eff g src s) (hok : SkReady s)
    (hr : Ready s 22 port true g src) (ho : QueueOpen s 22) (hrange : range = .quiet) (hcfg : ¬SkNamed s) :
    Traps s i 0x0D (w64 (skHandle s)) := by
  refine goMove_traps (hi.trans (skGo_eq ..)) hr ho ?_
  rw [firstNote_skChecks hok, hrange, Bool.eq_false_iff.2 hcfg]
  rfl

end

/-- A count of slots that `sk.res` and `sk.cmt` take. -/
abbrev SkCountOk (n : Word) : Prop := 1 ≤ n.toNat ∧ n.toNat ≤ 4096

/-- A length that `sk.fork` and `sk.cmpt` take. -/
abbrev SkLenOk (n : Word) : Prop := n.toNat < 2 ^ 40

theorem countBad_eq (n : Word) : countBad n = !decide (SkCountOk n) := by
  rw [countBad, ← decide_not, decide_eq_decide]
  omega

theorem lenBad_eq (n : Word) : decide (2 ^ 40 ≤ n.toNat) = !decide (SkLenOk n) := by
  rw [← decide_not, decide_eq_decide, Nat.not_lt]

/-! ## The operations (R228-R233)

Each is one SK trigger, with the check of its operand and what it does to the handles. -/

section
variable (s : State) (g : BitVec 4) (src : BitVec 9)

theorem exec_skOpen : exec (.skOpen g src) s = skGo 4 .quiet false [] (fun v => bindSk (skHandle s) v) g src s := by
  rw [skHandle, ← skHnd_eq]
  rfl

theorem exec_skRes : exec (.skRes g src) s =
    skGo 5 (trapIf (!decide (SkCountOk (trigT s src))) 0x0A (trigT s src)) true [] (fun _ c => c) g src s := by
  rw [← countBad_eq]
  rfl

theorem exec_skCmt : exec (.skCmt g src) s =
    skGo 6 (trapIf (!decide (SkCountOk (s.iss.ctx.portW 22 0))) 0x0A (s.iss.ctx.portW 22 0)) true [] (fun _ c => c) g src s := by
  rw [← countBad_eq]
  rfl

/-- The handle of the child that `sk.fork` makes. -/
abbrev skChild (s : State) : Nat := (s.iss.ctx.portW 22 1).toNat % 8

theorem exec_skFork : exec (.skFork g src) s =
    skGo 7 (trapIf (!decide (SkLenOk (trigT s src))) 0x0A (trigT s src)) true
      [trapIf (decide (skChild s = skHandle s)) 0x0D (w64 (skChild s))]
      (fun _ => bindSk (skChild s) (s.iss.ctx.portW 22 0)) g src s := by
  rw [← lenBad_eq, skHandle, ← skHnd_eq, show skChild s = fld (s.iss.ctx.portW 22 1) 0 3 from (fld_zero _ 3).symm]
  rfl

theorem exec_skRel : exec (.skRel g src) s =
    skGo 8 .quiet true [] (fun _ c => c.setSk (skHandle s) { c.sk (skHandle s) with cfg := false }) g src s := by
  rw [skHandle, ← skHnd_eq]
  rfl

theorem exec_skLen : exec (.skLen g src) s = skGo 9 .quiet true [] (fun _ c => c) g src s := rfl
theorem exec_skPidx : exec (.skPidx g src) s = skGo 10 .quiet false [] (fun _ c => c) g src s := rfl
theorem exec_skPins : exec (.skPins g src) s = skGo 11 .quiet false [] (fun _ c => c) g src s := rfl

theorem exec_skCmpt : exec (.skCmpt g src) s =
    skGo 12 (trapIf (!decide (SkLenOk (s.iss.ctx.portW 22 0))) 0x0A (s.iss.ctx.portW 22 0)) true [] (fun _ c => c) g src s := by
  rw [← lenBad_eq]
  rfl

end

/-- Settles O41: each operation is one SK trigger, which enters its command (`skGo_enters`) or is refused by its operand, then
by its handle. -/
theorem skeinCommands : Obligations.SkeinCommands := by
  unfold Obligations.SkeinCommands
  intro s g src c T a w h h2 tok ok named few q enters bind range unbound
  have inRange {p : Prop} [Decidable p] (hp : p) (v : Word) : trapIf (!decide p) 0x0A v = .quiet := by
    rw [decide_eq_true hp]; rfl
  have outside {p : Prop} [Decidable p] (hp : ¬p) (v : Word) : trapIf (!decide p) 0x0A v = .trap 5 0x0A v := by
    rw [decide_eq_false hp]; rfl
  have unnamed (i : Prop) (hf : false = true) : i := absurd hf Bool.false_ne_true
  have distinct (hne : h2 ≠ h) : firstNote [trapIf (decide (h2 = h)) 0x0D (w64 h2)] = .quiet := by
    rw [decide_eq_false hne]; rfl
  have hopen := exec_skOpen s g src
  have hres := exec_skRes s g src
  have hcmt := exec_skCmt s g src
  have hfork := exec_skFork s g src
  have hrel := exec_skRel s g src
  have hlen := exec_skLen s g src
  have hcmpt := exec_skCmpt s g src
  refine ⟨fun hok => ?_, fun hok hn hf => ?_, fun hok hn hf => ?_, fun hok hn hl hne => ?_, fun hok hn => ?_,
    fun hok hn => ?_, fun hok => ?_, fun hok => ?_, fun hok hn hl => ?_, fun hr ho hok hf => ?_, fun hr ho hok hf => ?_,
    fun hr ho hok hl => ?_, fun hr ho hok hl => ?_, fun hr ho hok hf hn => ?_, fun hr ho hok hf hn => ?_,
    fun hr ho hok hl hn => ?_, fun hr ho hok _ hn => ?_, fun hr ho hok _ hn => ?_, fun hr ho hok hl hn => ?_⟩
  · exact skGo_enters hopen hok rfl (unnamed _) rfl
  · exact skGo_enters hres hok (inRange hf T) (fun _ => hn) rfl
  · exact skGo_enters hcmt hok (inRange hf a) (fun _ => hn) rfl
  · exact skGo_enters hfork hok (inRange hl T) (fun _ => hn) (distinct hne)
  · exact skGo_enters hrel hok rfl (fun _ => hn) rfl
  · exact skGo_enters hlen hok rfl (fun _ => hn) rfl
  · exact skGo_enters (exec_skPidx s g src) hok rfl (unnamed _) rfl
  · exact skGo_enters (exec_skPins s g src) hok rfl (unnamed _) rfl
  · exact skGo_enters hcmpt hok (inRange hl a) (fun _ => hn) rfl
  · exact skGo_traps_range hres hok hr ho (outside hf T)
  · exact skGo_traps_range hcmt hok hr ho (outside hf a)
  · exact skGo_traps_range hfork hok hr ho (outside hl T)
  · exact skGo_traps_range hcmpt hok hr ho (outside hl a)
  · exact skGo_traps_unbound hres hok hr ho (inRange hf T) hn
  · exact skGo_traps_unbound hcmt hok hr ho (inRange hf a) hn
  · exact skGo_traps_unbound hfork hok hr ho (inRange hl T) hn
  · exact skGo_traps_unbound hrel hok hr ho rfl hn
  · exact skGo_traps_unbound hlen hok hr ho rfl hn
  · exact skGo_traps_unbound hcmpt hok hr ho (inRange hl a) hn

end Sys2Proof.Machine
end

section
/-!
PROOFS. Commands in service: their end, their faults, and the requests that they leave behind (R264-R279, R302).
-/

namespace Sys2Proof.Machine

/-! ## The end of a command (R277, R284) -/

/-- The head command of a queue is in service (R264). -/
structure InService (c : Ctx) (fu : Nat) (q : Cmd) (l : List Cmd) : Prop where
  queue : c.queue fu = q :: l
  running : q.st = .running
  unit : q.fu = fu

theorem Ctx.queue_dropPq (c : Ctx) (q : Cmd) (fu : Nat) : (c.dropPq q).queue fu = c.queue fu := by
  unfold Ctx.dropPq; dsimp only; split <;> rfl
theorem Ctx.ctl_dropPq (c : Ctx) (q : Cmd) : (c.dropPq q).ctl = c.ctl := by
  unfold Ctx.dropPq; dsimp only; split <;> rfl
theorem Ctx.regs_dropPq (c : Ctx) (q : Cmd) : (c.dropPq q).regs = c.regs := by
  unfold Ctx.dropPq; dsimp only; split <;> rfl

/-- A command that ends leaves its queue, sets its flags and writes its token. -/
theorem endCmd_spec (c : Ctx) (q : Cmd) (tok : Option Nat) (v : Word) :
    (c.endCmd q tok v).queue q.fu = (c.queue q.fu).tail ∧
      (c.endCmd q tok v).ctl = { c.ctl with flags := c.ctl.flags ||| q.flg } ∧ (c.endCmd q tok v).regs = c.regs ∧
      ∀ k, tok = some k → (c.endCmd q tok v).tok k = ⟨.written, v⟩ := by
  have hqueue : ((c.popCmd q.fu).dropPq q).queue q.fu = (c.queue q.fu).tail :=
    (Ctx.queue_dropPq _ _ _).trans (Ctx.queue_setQueue _ _ _)
  have hctl : ((c.popCmd q.fu).dropPq q).ctl = c.ctl := Ctx.ctl_dropPq _ _
  have hregs : ((c.popCmd q.fu).dropPq q).regs = c.regs := Ctx.regs_dropPq _ _
  unfold Ctx.endCmd
  generalize (c.popCmd q.fu).dropPq q = d at hqueue hctl hregs
  rw [← hqueue, ← hctl, ← hregs]
  cases tok with
  | none => exact ⟨rfl, rfl, rfl, fun _ h => nomatch h⟩
  | some t =>
    refine ⟨rfl, rfl, rfl, fun k hk => ?_⟩
    obtain rfl := Option.some.inj hk
    exact Ctx.tok_setTok _ _ _

section
variable {s : State} {n fu : Nat} {q : Cmd} {l : List Cmd} (h : InService (s.ctx n) fu q l)
include h

theorem inService_eq : inService fu (s.ctx n) = true := by
  simp [inService, h.queue, h.running]

theorem served_eq : served s n fu = some (s.ctx n, q) := by
  simp [served, findImage_of_own s n _ (inService_eq h), h.queue]

theorem onServed_eq (f : Ctx → Ctx) : onServed s n fu f = s.updCtx n f := updImage_of_own s n _ f (inService_eq h)

theorem endServed_eq (tok : Option Nat) (v : Word) : endServed s n fu tok v = s.updCtx n fun c => c.endCmd q tok v := by
  refine (onServed_eq h _).trans (State.updCtx_congr s n _ _ ?_)
  rw [h.queue]
  rfl

theorem updCmd_eq (f : Cmd → Cmd) : (s.ctx n).updCmd fu f = (s.ctx n).setQueue fu (f q :: l) := by
  rw [Ctx.updCmd, h.queue]

end

/-- The context that a command leaves which has ended. -/
theorem InService.endCmd {c : Ctx} {fu : Nat} {q : Cmd} {l : List Cmd} (h : InService c fu q l) (tok : Option Nat) (v : Word) :
    (c.endCmd q tok v).queue fu = l ∧ (c.endCmd q tok v).ctl = { c.ctl with flags := c.ctl.flags ||| q.flg } ∧
      (c.endCmd q tok v).regs = c.regs ∧ ∀ k, tok = some k → (c.endCmd q tok v).tok k = ⟨.written, v⟩ := by
  obtain ⟨hqueue, hrest⟩ := endCmd_spec c q tok v
  rw [h.unit, h.queue] at hqueue
  exact ⟨hqueue, hrest⟩

/-! ## The fault of a command (R279, R417) -/

/-- A fault waits for its delivery where fewer than 16 do and no walk retries its work. -/
theorem deliverFault_waits {s : State} {n fu : Nat} (code : Nat) (v : Word) (hd : (s.ctx n).delivered.length < 16)
    (hw : ∀ p ∈ (s.ctx n).walks, p.1 ≠ fu) : deliverFault s n code v fu =
      s.setCtx n { s.ctx n with delivered := (s.ctx n).delivered ++ [(code, v, fu)] } := by
  have hwalk : ((s.ctx n).walks.any fun p => decide (p.1 = fu)) = false :=
    List.any_eq_false.2 fun p hm => by simpa using hw p hm
  unfold deliverFault
  dsimp only
  rw [decide_eq_true hd, hwalk]
  rfl

/-- A context whose command in service has met a fault. -/
def faultedCtx (fu code : Nat) (v : Word) (q : Cmd) (l : List Cmd) (c : Ctx) : Ctx :=
  { c.setQueue fu ({ q with st := .faulted code v } :: l) with delivered := c.delivered ++ [(code, v, fu)] }

theorem faultServed_eq {s : State} {n fu : Nat} {q : Cmd} {l : List Cmd} (h : InService (s.ctx n) fu q l) {code : Nat}
    (v : Word) (hc : code ≠ 0) (hd : (s.ctx n).delivered.length < 16) (hw : ∀ p ∈ (s.ctx n).walks, p.1 ≠ fu) :
    faultServed s n fu code v = s.updCtx n (faultedCtx fu code v q l) := by
  have hstop : onServed s n fu (fun c => c.updCmd fu fun q => { q with st := .faulted code v }) =
      s.updCtx n fun c => c.setQueue fu ({ q with st := .faulted code v } :: l) :=
    (onServed_eq h _).trans (State.updCtx_congr s n _ _ (updCmd_eq h _))
  unfold faultServed
  rw [if_neg hc, inService_eq h]
  simp only [if_true]
  rw [hstop, deliverFault_waits code v (by rw [State.ctx_updCtx]; exact hd) (by rw [State.ctx_updCtx]; exact hw)]
  exact State.updCtx_updCtx s n (fun c => c.setQueue fu ({ q with st := .faulted code v } :: l))
    fun c => { c with delivered := c.delivered ++ [(code, v, fu)] }

/-! ## Requests that are forgotten (R302)

A source that forgets a request may send its next, which touches no byte of memory and no context. -/

/-- From `s` to `t` no byte of memory and no context changes. -/
structure Spares (s t : State) : Prop where
  mem : t.mem = s.mem
  ctxs : t.ctxs = s.ctxs

theorem Spares.trans {s t u : State} (h : Spares s t) (k : Spares t u) : Spares s u :=
  ⟨k.mem.trans h.mem, k.ctxs.trans h.ctxs⟩

theorem Spares.ctx {s t : State} (h : Spares s t) (n : Nat) : t.ctx n = s.ctx n := State.ctx_of_ctxs h.ctxs n

theorem spares_injectAt (s : State) (h client : Nat) (p : Packet) : Spares s (injectAt s h client p) := ⟨rfl, rfl⟩

theorem spares_enterFabric (s : State) (p : Packet) : Spares s (enterFabric s p) := ⟨rfl, rfl⟩

theorem spares_enterLink (s : State) (l : Nat) (p : Packet) : Spares s (enterLink s l p) := by
  unfold enterLink
  split
  · unfold sendLink
    dsimp only
    split <;> exact ⟨rfl, rfl⟩
  · exact ⟨rfl, rfl⟩

theorem spares_sendFrom (s : State) (h : Nat) (cir : Bool) (p : Packet) : Spares s (sendFrom s h cir p) := by
  unfold sendFrom
  split
  · exact spares_injectAt ..
  · split
    · split
      · exact spares_injectAt ..
      · exact spares_enterLink ..
    · exact spares_enterFabric ..

theorem spares_sendLaunch (s : State) (n : Nat) (q : Cmd) : Spares s (sendLaunch s n q) := by
  unfold sendLaunch
  split <;> exact ⟨rfl, rfl⟩

theorem spares_within (s : State) (lo hi : Nat) (e : Instr) : Spares s (s.within lo hi e) := ⟨rfl, rfl⟩

theorem spares_stepReq (s : State) (id : Nat) (r : Req) : Spares s (stepReq s id r) := by
  unfold stepReq
  split
  · split
    · exact ⟨rfl, rfl⟩
    · dsimp only
      refine .trans (.trans ?_ (spares_sendLaunch _ _ _)) (spares_within _ _ _ _)
      split <;> exact ⟨rfl, rfl⟩
  · dsimp only
    split <;> exact ⟨rfl, rfl⟩

theorem spares_deliverReq (s : State) (id : Nat) (r : Req) : Spares s (deliverReq s id r) := by
  unfold deliverReq
  split
  · split
    · exact spares_stepReq ..
    · split
      · exact spares_injectAt ..
      · exact spares_sendFrom ..
  · exact spares_stepReq ..

theorem spares_sendReq (s : State) (id : Nat) (r : Req) : Spares s (sendReq s id r) := by
  unfold sendReq
  dsimp only
  split
  · exact ⟨rfl, rfl⟩
  · refine .trans ?_ (spares_deliverReq _ _ _)
    exact ⟨rfl, rfl⟩

theorem spares_nextReq (s : State) (sid : Nat) : Spares s (nextReq s sid) := by
  unfold nextReq
  split
  · exact ⟨rfl, rfl⟩
  · split
    · exact spares_sendReq ..
    · exact ⟨rfl, rfl⟩

theorem spares_dropReq (s : State) (id : Nat) : Spares s (dropReq s id) := by
  unfold dropReq
  split
  · exact ⟨rfl, rfl⟩
  · refine .trans ?_ (spares_nextReq _ _)
    exact ⟨rfl, rfl⟩

/-- Replies kept and packets sent change nothing of the memory and the contexts. -/
theorem spares_keepReply (s : State) (r : Req) (x : Reply) : Spares s (keepReply s r x) := ⟨rfl, rfl⟩

/-- The home keeps the reply that it has just given. -/
theorem keptReply_keepReply (s : State) (r : Req) (x : Reply) : keptReply (keepReply s r x) r = some x := by
  simp [keptReply, keepReply]

/-- What is put under a key is listed under it. -/
theorem mem_put {α : Type} (m : KMap α) (i : Nat) (v : α) : (i, v) ∈ KMap.put m i v := by
  induction m with
  | nil => exact List.mem_singleton.2 rfl
  | cons e m ih =>
    obtain ⟨k, w⟩ := e
    rw [KMap.put]
    split
    · exact List.mem_cons_self
    · split
      · exact List.mem_cons_self
      · exact List.mem_cons_of_mem _ ih

/-- A packet that enters the base-die fabric is in transit. -/
theorem mem_transit_enterFabric (s : State) (p : Packet) : (s.serial, (0, p)) ∈ (enterFabric s p).transit :=
  mem_put ..

end Sys2Proof.Machine
end

section
/-!
PROOFS. Work of the engines and of the skein homes (O48).
-/

namespace Sys2Proof.Machine

/-! ## Bytes of a wide read (R3) -/

theorem byteAt_rd (s : State) (a n i : Nat) (h : Rising s.mem) (hi : i < n) :
    byteAt (s.rd a n) i = (Memory.read s.mem (a + i)).toNat := by
  refine Nat.eq_of_testBit_eq fun j => ?_
  rw [State.rd, readN_eq _ _ _ h, byteAt, show 256 = 2 ^ 8 from rfl, Nat.testBit_mod_two_pow, Nat.testBit_shiftRight,
    testBit_packNat _ _ _ _ (by norm_num)]
  by_cases hj : j < 8
  · rw [show (8 * i + j) / 8 = i by omega, show (8 * i + j) % 8 = j by omega, decide_eq_true hj,
      decide_eq_true (by omega : 8 * i + j < 8 * n)]
    rfl
  · rw [decide_eq_false hj, Bool.false_and]
    refine (Nat.testBit_lt_two_pow ((Memory.read s.mem (a + i)).isLt.trans_le ?_)).symm
    exact Nat.pow_le_pow_right (by norm_num) (by omega)

/-- The place of the first byte in which two numbers of n bytes differ, n where none does. -/
def firstDiffByte (x y n : Nat) : Nat := (diffByte x y n).getD n

theorem firstDiffByte_spec (x y n : Nat) : firstDiffByte x y n ≤ n ∧
    (∀ i, i < firstDiffByte x y n → byteAt x i = byteAt y i) ∧
    (firstDiffByte x y n < n → byteAt x (firstDiffByte x y n) ≠ byteAt y (firstDiffByte x y n)) := by
  unfold firstDiffByte
  cases hd : diffByte x y n with
  | none =>
    have hall := List.find?_eq_none.1 hd
    exact ⟨le_rfl, fun i hi => by simpa using hall i (List.mem_range.2 hi), fun h => absurd h (lt_irrefl n)⟩
  | some v =>
    obtain ⟨hne, hv, hlow⟩ := List.find?_range_eq_some.1 hd
    refine ⟨(List.mem_range.1 hv).le, fun i hi => ?_, fun _ => by simpa using hne⟩
    simpa using hlow i hi

/-! ## A compare of physical memory (R267, R271, R276) -/

/-- `m` bytes of HBM at the physical address of an endpoint, within one page and free of errors. -/
structure PhysRange (s : State) (a : Word) (m : Nat) : Prop where
  kind : ek a = 4
  pos : 0 < m
  page : fld a 0 48 % 65536 + m ≤ 65536
  hbm : inHbm (fld a 0 48) m = true
  good : s.badIn (fld a 0 48) m = none

theorem PhysRange.lt {s : State} {a : Word} {m : Nat} (h : PhysRange s a m) : fld a 0 48 + m ≤ 0x7FE0000000 := by
  simpa [inHbm] using h.hbm

theorem PhysRange.touch {s : State} {a : Word} {m : Nat} (h : PhysRange s a m) (pa n : Nat) :
    PhysRange (s.touch pa n) a m := { h with good := (badIn_touch s pa n _ _).trans h.good }

/-- The range is one piece. -/
theorem PhysRange.pieces {s : State} {a : Word} {m : Nat} (h : PhysRange s a m) : epPieces a 0 m = [(0, m)] := by
  have hlt := h.lt
  have hwrap : wrap 64 ((fld a 0 48 : Int) + 0) = fld a 0 48 := by rw [wrap]; omega
  have hcut : min m (65536 - fld a 0 48 % 65536) = m := min_eq_left (by have := h.page; omega)
  have hone : piecesOf (fld a 0 48) m = [(fld a 0 48, m)] := by
    rw [piecesOf, Machine.pieces, if_neg h.pos.ne']
    dsimp only
    rw [hcut, Nat.sub_self, Machine.pieces, if_pos rfl]
  rw [epPieces, h.kind, if_neg (by norm_num), hwrap, hone, List.map_singleton, Nat.sub_self]

theorem PhysRange.outside {s : State} {a : Word} {m : Nat} (h : PhysRange s a m) : inControl (fld a 0 48) = false := by
  have hlt := h.lt
  have hspace : 0x7FE0000000 < ctxSpace := by decide
  simp only [inControl, decide_eq_false_iff_not, not_and, not_lt]
  omega

theorem PhysRange.epAddr_run {s : State} {a : Word} {m : Nat} (h : PhysRange s a m) (g : Agent) (w : Want) :
    (epAddr g a 0 m m w).run s = (.ok (fld a 0 48, w64 (fld a 0 48)), s) := by
  have hzero : ((fld a 0 48 : Int) + 0).toNat = fld a 0 48 := by omega
  have hsign : ¬((fld a 0 48 : Int) + 0 < 0) := by omega
  rw [epAddr, h.kind]
  dsimp only
  rw [hzero, h.outside, h.hbm, decide_eq_false hsign]
  rfl

theorem PhysRange.readPhys_run {s : State} {a : Word} {m : Nat} (h : PhysRange s a m) (x : Word) :
    (readPhys (fld a 0 48) m x).run s = (.ok (s.rd (fld a 0 48) m), s.touch (fld a 0 48) m) := by
  show ((if inControl (fld a 0 48) then pure (spaceRead s (fld a 0 48)).toNat
    else match s.badIn (fld a 0 48) m with
    | some b => throw (0x27, x + w64 b - w64 (fld a 0 48))
    | none => (do set (s.touch (fld a 0 48) m); pure (s.rd (fld a 0 48) m)) : Acc Nat).run s) = _
  rw [h.outside, h.good]
  rfl

/-- Work whose first part answers goes on with the answer. -/
theorem run_bind_ok {α β : Type} {x : Acc α} {f : α → Acc β} {s t : State} {a : α} (h : x.run s = (.ok a, t)) :
    (x >>= f).run s = (f a).run t := by
  show ExceptT.bindCont f (x.run s).1 (x.run s).2 = _
  rw [h]
  rfl

/-- R168: the range is read as it stands. -/
theorem PhysRange.readEp_run {s : State} {a : Word} {m : Nat} (h : PhysRange s a m) (g : Agent) :
    (readEp g a 0 m).run s = (.ok (s.rd (fld a 0 48) m), s.touch (fld a 0 48) m) := by
  have haddr : (epAddr g a (0 + ((0 : Nat) : Int)) m (pieceWidth m (0, m)) .read).run s =
      (.ok (fld a 0 48, w64 (fld a 0 48)), s) := by
    rw [pieceWidth, if_pos rfl]
    exact h.epAddr_run g .read
  rw [readEp, h.pieces, List.foldlM_cons, run_bind_ok (t := s.touch (fld a 0 48) m) (a := s.rd (fld a 0 48) m)]
  · rfl
  · rw [run_bind_ok haddr, run_bind_ok (h.readPhys_run _), Nat.mul_zero, Nat.shiftLeft_zero, Nat.zero_add]
    rfl

/-- The chunk that ends a compare of at most 2,048 bytes. -/
def lastCompare (m v : Nat) : Chunk := ⟨m, 0, true, 0, some v⟩

theorem cmpChunk_run {s : State} {g : Agent} {q : Cmd} {m : Nat} (hm : fld q.a2 0 40 = m) (hle : m ≤ 2048)
    (hdone : q.done = 0) (h0 : PhysRange s q.a0 m) (h1 : PhysRange s q.a1 m) : (cmpChunk g q).run s =
      (.ok (lastCompare m (firstDiffByte (s.rd (fld q.a0 0 48) m) (s.rd (fld q.a1 0 48) m) m)),
        (s.touch (fld q.a0 0 48) m).touch (fld q.a1 0 48) m) := by
  have hmin : min 2048 (m - 0) = m := by omega
  unfold cmpChunk
  dsimp only
  rw [hm, hdone, hmin, Nat.cast_zero, run_bind_ok (h0.readEp_run g), run_bind_ok ((h1.touch _ _).readEp_run g), rd_touch,
    firstDiffByte]
  cases diffByte (s.rd (fld q.a0 0 48) m) (s.rd (fld q.a1 0 48) m) m with
  | none => rw [Nat.zero_add, decide_eq_true (le_refl m)]; rfl
  | some v => dsimp only; rw [Nat.zero_add]; rfl

/-! ## Chunks and their ends (R276, R277) -/

/-- A chunk whose go word names no counter adds nothing. -/
theorem chunkAdd_run (g : Agent) (q : Cmd) (k : Nat) (s : State) (h : fld q.go 3 53 = 0) :
    (chunkAdd g q k).run s = (.ok (), s) := by
  rw [chunkAdd, if_pos (.inl h)]
  rfl

/-- An engine command with a token ends by writing it. -/
theorem endEngine_eq {s : State} {n fu : Nat} {q p : Cmd} {l : List Cmd} (h : InService (s.ctx n) fu p l) (hfu : q.fu = fu)
    {k : Nat} (ht : goTok q.go = some k) (v : Word) :
    endEngine s n q v = s.updCtx n fun c => c.endCmd p (some k) v := by
  rw [endEngine, ht, hfu]
  exact endServed_eq h (some k) v

/-- The next chunk of a command is complete where no write of it to the control space waits. -/
theorem runChunk_eq {s t : State} {n : Nat} {c : Ctx} {q : Cmd} {k : Chunk} (hh : q.held = none)
    (hrun : (nextChunk (cmdAgent n c q) q).run s = (.ok k, t)) (hw : t.ctlw = []) :
    runChunk s n c q = endChunk t n c q k := by
  have hidle : ¬(t.ctlw.any fun w => decide (w.1 = n)) = true := by rw [hw]; exact Bool.false_ne_true
  unfold runChunk
  dsimp only
  rw [hh]
  dsimp only
  rw [hrun]
  exact if_neg hidle

/-- A compare whose last chunk is complete. -/
def comparedCmd (q : Cmd) (m : Nat) : Cmd :=
  { q with done := q.done + m, chunk := q.chunk + 1, flg := q.flg ||| 0, st := .running, held := none }

/-- A context whose compare has its last chunk complete: a compare fills no buffer. -/
def comparedCtx (q : Cmd) (m : Nat) (l : List Cmd) (c : Ctx) : Ctx :=
  { c with walks := c.walks.del q.fu }.setQueue q.fu (comparedCmd q m :: l)

theorem inService_comparedCtx (q : Cmd) (m : Nat) (l : List Cmd) (c : Ctx) :
    InService (comparedCtx q m l c) q.fu (comparedCmd q m) l :=
  ⟨Ctx.queue_setQueue _ _ _, rfl, rfl⟩

theorem fillPp_compare {q : Cmd} (hfu : q.fu = 16) (hport : q.port = 5) (c : Ctx) :
    fillPp q 0 c = { c with walks := c.walks.del q.fu } := by
  simp [fillPp, Ctx.takePq, hfu, hport]

theorem endChunk_compare {s : State} {n : Nat} {q : Cmd} {l : List Cmd} {k m v : Nat} (h : InService (s.ctx n) q.fu q l)
    (hfu : q.fu = 16) (hport : q.port = 5) (ht : goTok q.go = some k) (hadd : fld q.go 3 53 = 0) (hm : m ≠ 0) :
    endChunk s n (s.ctx n) q (lastCompare m v) = (s.updCore (coreOf n) fun c => c.count 0x0E 1).updCtx n fun c =>
      (comparedCtx q m l c).endCmd (comparedCmd q m) (some k) (w64 v) := by
  let t := s.updCore (coreOf n) fun c => c.count 0x0E 1
  have hserved : InService (t.ctx n) q.fu q l := h
  have hcount : chunkCount s n m = t := if_neg hm
  have hmark : onServed t n q.fu (fun c => (fillPp q 0 c).updCmd q.fu fun _ => comparedCmd q m) =
      t.updCtx n (comparedCtx q m l) := by
    refine (onServed_eq hserved _).trans (State.updCtx_congr t n _ _ ?_)
    rw [fillPp_compare hfu hport, Ctx.updCmd]
    show (match (t.ctx n).queue q.fu with | [] => _ | _ :: l => _) = _
    rw [hserved.queue]
    rfl
  have hend : InService ((t.updCtx n (comparedCtx q m l)).ctx n) q.fu (comparedCmd q m) l := by
    rw [State.ctx_updCtx]
    exact inService_comparedCtx q m l _
  unfold endChunk
  rw [chunkAdd_run _ _ _ _ hadd]
  show endEngine (onServed (chunkCount s n m) n q.fu fun c => (fillPp q 0 c).updCmd q.fu fun _ => comparedCmd q m) n
    { comparedCmd q m with st := .waiting } (w64 v) = _
  rw [hcount, hmark]
  exact (endEngine_eq (q := { comparedCmd q m with st := .waiting }) hend rfl ht (w64 v)).trans
    (State.updCtx_updCtx _ _ _ _)

theorem exec_engineChunkComplete {s : State} {n fu : Nat} {q : Cmd} {l : List Cmd} (h : InService (s.ctx n) fu q l)
    (hfu : fu ≠ 19) : exec (.engineChunkComplete n fu) s = .next (runChunk s n (s.ctx n) q) := by
  show execEngineChunkComplete n fu s = _
  rw [execEngineChunkComplete, served_eq h]
  exact if_pos hfu

/-- R271: a compare of physical memory ends with the place of the first byte that differs, or with its length. -/
theorem exec_compare {s : State} {n : Nat} {q : Cmd} {l : List Cmd} {k m : Nat} (h : InService (s.ctx n) 16 q l)
    (hport : q.port = 5) (hdone : q.done = 0) (hheld : q.held = none) (hw : s.ctlw = []) (ht : goTok q.go = some k)
    (hadd : fld q.go 3 53 = 0) (hm : fld q.a2 0 40 = m) (hle : m ≤ 2048) (h0 : PhysRange s q.a0 m)
    (h1 : PhysRange s q.a1 m) : ∃ u, OnlyRead s u ∧ exec (.engineChunkComplete n 16) s =
      .next ((u.updCore (coreOf n) fun c => c.count 0x0E 1).updCtx n fun c =>
        (comparedCtx q m l c).endCmd (comparedCmd q m) (some k)
          (w64 (firstDiffByte (s.rd (fld q.a0 0 48) m) (s.rd (fld q.a1 0 48) m) m))) := by
  have hread : OnlyRead s ((s.touch (fld q.a0 0 48) m).touch (fld q.a1 0 48) m) :=
    (onlyRead_touch _ _ _).trans (onlyRead_touch _ _ _)
  have hnext : nextChunk (cmdAgent n (s.ctx n) q) q = cmpChunk (cmdAgent n (s.ctx n) q) q := by
    rw [nextChunk, h.unit, hport]
    rfl
  have hrun := cmpChunk_run (g := cmdAgent n (s.ctx n) q) hm hle hdone h0 h1
  generalize (s.touch (fld q.a0 0 48) m).touch (fld q.a1 0 48) m = u at hread hrun
  have hctx : u.ctx n = s.ctx n := hread.ctx n
  have hctlw : u.ctlw = [] := by rw [hread]; exact hw
  have hserved : InService (u.ctx n) q.fu q l := by rw [hctx, h.unit]; exact h
  refine ⟨u, hread, ?_⟩
  rw [exec_engineChunkComplete h (by norm_num), runChunk_eq hheld (by rw [hnext]; exact hrun) hctlw, ← hctx,
    endChunk_compare hserved h.unit hport ht hadd h0.pos.ne']

/-! ## A fault of an engine's access (R279) -/

theorem exec_engineAccessFault {s : State} {n fu : Nat} {f : Flt} (hf : headFlt fu (s.ctx n) = some f)
    (hd : (s.ctx n).delivered.length < 16) (hw : ∀ p ∈ (s.ctx n).walks, p.1 ≠ fu) : exec (.engineAccessFault n fu) s =
      .next (s.setCtx n { s.ctx n with delivered := (s.ctx n).delivered ++ [(f.1, f.2, fu)] }) := by
  have own : (headFlt fu (s.ctx n)).isSome = true := by rw [hf]; rfl
  have hfind : (findImage s n fun c => (headFlt fu c).isSome).bind (headFlt fu) = some f := by
    rw [findImage_of_own s n _ own, Option.bind_some, hf]
  show execEngineAccessFault n fu s = _
  unfold execEngineAccessFault
  dsimp only
  rw [hfind]
  exact (if_pos own).trans (congrArg _ (deliverFault_waits _ _ hd hw))

/-! ## Sends (R305) -/

theorem exec_npInjection_ends {s : State} {n : Nat} {q : Cmd} {l : List Cmd} {k : Nat} (h : InService (s.ctx n) 20 q l)
    (hdone : cmdSize q ≤ q.done) (hout : ∀ x ∈ localPackets s (quadOf n), x.np ≠ q.id) (ht : goTok q.go = some k)
    (hadd : fld q.go 3 53 = 0) : exec (.npInjection n) s =
      .next (s.updCtx n fun c => c.endCmd q (some k) (w64 (cmdSize q))) := by
  have hleft : ((localPackets s (quadOf n)).any fun p => decide (p.np = q.id)) = false :=
    List.any_eq_false.2 fun x hx => by simpa using hout x hx
  show execNpInjection n s = _
  unfold execNpInjection
  rw [served_eq h]
  dsimp only
  rw [if_pos hdone, hleft, endSend, chunkAdd_run _ _ _ _ hadd]
  exact congrArg _ (endEngine_eq h h.unit ht _)

theorem exec_npInjection_waits {s : State} {n : Nat} {q : Cmd} {l : List Cmd} (h : InService (s.ctx n) 20 q l)
    (hdone : cmdSize q ≤ q.done) {x : Packet} (hx : x ∈ localPackets s (quadOf n)) (hid : x.np = q.id) :
    exec (.npInjection n) s = .next (s.at (s.clk + 1) false (.npInjection n)) := by
  have hleft : ((localPackets s (quadOf n)).any fun p => decide (p.np = q.id)) = true :=
    List.any_eq_true.2 ⟨x, hx, by simpa using hid⟩
  show execNpInjection n s = _
  unfold execNpInjection
  rw [served_eq h]
  dsimp only
  rw [if_pos hdone, hleft]
  rfl

/-- The packet of `np.row`. -/
def rowPacket (s : State) (n : Nat) (q : Cmd) : Packet := { npPacket s (quadOf n) q 0 q.row.toNat 256 with np := q.id }

/-- A context whose send has `nb` more bytes on their way. -/
def sendsPart (nb : Nat) (c : Ctx) : Ctx :=
  { c.updCmd 20 fun q => { q with done := q.done + nb, chunk := q.chunk + 1 } with walks := c.walks.del 20 }

/-- A router's input takes the packet of a row that no entry of the router takes. -/
theorem injectPacket_none (s : State) (h : Nat) (p : Packet) : injectPacket s h none p = injectAt s h 0 p := rfl

/-- R305: a row without an entry for it goes into the local input of its router. -/
theorem exec_npInjection_row {s : State} {n : Nat} {q : Cmd} {l : List Cmd} (h : InService (s.ctx n) 20 q l)
    (hport : q.port = 5) (hdone : q.done = 0)
    (he : (s.holder (quadOf n)).fence = true ∨ matchEntry (s.holder (quadOf n)) (rowPacket s n q).flow.toNat = none) :
    exec (.npInjection n) s = .next (((injectAt s (quadOf n) 0 (rowPacket s n q)).updCtx n (sendsPart 256)).at (s.clk + 5)
      false (.npInjection n)) := by
  have hsize : cmdSize q = 256 := if_pos hport
  have hone : cmdPacket q = 256 := if_pos hport
  have hentry : (if (s.holder (quadOf n)).fence then none
      else matchEntry (s.holder (quadOf n)) (rowPacket s n q).flow.toNat) = none := by
    rcases he with he | he
    · exact if_pos he
    · rw [he, ite_self]
  have htake : ¬((if (s.holder (quadOf n)).fence then none
      else matchEntry (s.holder (quadOf n)) (rowPacket s n q).flow.toNat).any fun e =>
        !canTake s (quadOf n) e (rowPacket s n q)) = true := by rw [hentry]; exact Bool.false_ne_true
  have hserved : InService ((injectAt s (quadOf n) 0 (rowPacket s n q)).ctx n) 20 q l := h
  show execNpInjection n s = _
  unfold execNpInjection
  rw [served_eq h]
  dsimp only
  rw [if_neg (by rw [hsize, hdone]; norm_num), if_pos hport, hsize, hone, hdone]
  refine (if_neg htake).trans ?_
  show Host.Outcome.next ((onServed (injectPacket s (quadOf n) (if (s.holder (quadOf n)).fence then none
    else matchEntry (s.holder (quadOf n)) (rowPacket s n q).flow.toNat) (rowPacket s n q)) n 20 (sendsPart 256)).at
      (s.clk + 5) false (.npInjection n)) = _
  rw [hentry, injectPacket_none, onServed_eq hserved]

/-! ## The reply to a skein command (R228, R234, R302) -/

/-- The descriptor that a reply brings. -/
def replyDesc : List Word → Option Desc
  | va :: w => some ⟨va, w⟩
  | [] => none

theorem queue_skLearn (q : Cmd) (v : Word) (d : Option Desc) (c : Ctx) (fu : Nat) :
    (skLearn q v d c).queue fu = c.queue fu := by
  unfold skLearn
  dsimp only
  cases d <;> (dsimp only; split <;> split <;> rfl)

section
variable {s : State} {n : Nat} {q : Cmd} {l : List Cmd} (h : InService (s.ctx n) 22 q l)
include h

theorem inService_dropReq (id : Nat) : InService ((dropReq s id).ctx n) 22 q l := by
  rw [(spares_dropReq s id).ctx]
  exact h

/-- A value ends the command: its handles learn from it, and its token is written. -/
theorem skEnd_data (v : Word) (w : List Word) : skEnd s n q (.data v w) =
    (dropReq s q.id).updCtx n fun c => (skLearn q v (replyDesc w) c).endCmd q (skTok q.a2) v := by
  have hcases : skEnd s n q (.data v w) =
      endServed (onServed (dropReq s q.id) n 22 (skLearn q v (replyDesc w))) n 22 (skTok q.a2) v := by cases w <;> rfl
  have hdrop := inService_dropReq h q.id
  have hlearn : InService (((dropReq s q.id).updCtx n (skLearn q v (replyDesc w))).ctx n) 22 q l := by
    rw [State.ctx_updCtx]
    exact { hdrop with queue := (queue_skLearn _ _ _ _ _).trans hdrop.queue }
  rw [hcases, onServed_eq hdrop, endServed_eq hlearn]
  exact State.updCtx_updCtx _ _ _ _

/-- What a value leaves: the queue without the command, and its token written. -/
theorem skEnd_data_spec (v : Word) (w : List Word) : (skEnd s n q (.data v w)).mem = s.mem ∧
    ((skEnd s n q (.data v w)).ctx n).queue 22 = l ∧
      ∀ k, skTok q.a2 = some k → ((skEnd s n q (.data v w)).ctx n).tok k = ⟨.written, v⟩ := by
  have hdrop := inService_dropReq h q.id
  have hlearn : InService (skLearn q v (replyDesc w) ((dropReq s q.id).ctx n)) 22 q l :=
    { hdrop with queue := (queue_skLearn _ _ _ _ _).trans hdrop.queue }
  obtain ⟨hqueue, -, -, htok⟩ := hlearn.endCmd (skTok q.a2) v
  rw [skEnd_data h, State.ctx_updCtx]
  exact ⟨(spares_dropReq s q.id).mem, hqueue, htok⟩

/-- A fault stops the command and waits for its delivery. -/
theorem skEnd_fault {f : Nat} (v : Word) (hf : f ≠ 0) (hd : (s.ctx n).delivered.length < 16)
    (hw : ∀ p ∈ (s.ctx n).walks, p.1 ≠ 22) :
    skEnd s n q (.fault f v) = (dropReq s q.id).updCtx n (faultedCtx 22 f v q l) := by
  have hctx : (dropReq s q.id).ctx n = s.ctx n := (spares_dropReq s q.id).ctx n
  exact faultServed_eq (inService_dropReq h q.id) v hf (by rw [hctx]; exact hd) (by rw [hctx]; exact hw)

end

theorem skReply_of_none {s : State} {n : Nat} {q : Cmd} (x : Reply) (hr : s.req q.id = none) :
    skReply s n q x = skEnd s n q x := by
  rw [skReply, hr]

theorem skReply_of_some {s : State} {n : Nat} {q : Cmd} {r : Req} (x : Reply) (hr : s.req q.id = some r) :
    skReply s n q x = enterFabric (keepReply s r x) (replyPacket s (quadOf n) r) := by
  rw [skReply, hr]

/-- The home keeps the reply to a request, which leaves as a packet. -/
theorem skReply_of_some_spec {s : State} {n : Nat} {q : Cmd} {r : Req} (x : Reply) (hr : s.req q.id = some r) :
    keptReply (skReply s n q x) r = some x ∧
      (s.serial, (0, replyPacket s (quadOf n) r)) ∈ (skReply s n q x).transit ∧ (skReply s n q x).mem = s.mem ∧
      (skReply s n q x).ctxs = s.ctxs := by
  rw [skReply_of_some x hr]
  exact ⟨keptReply_keepReply s r x, mem_transit_enterFabric (keepReply s r x) _, rfl, rfl⟩

/-! ## A skein command at its home (R229, R233, R237) -/

/-- Work whose first part meets a fault ends with it. -/
theorem run_bind_error {α β : Type} {x : Acc α} {f : α → Acc β} {s t : State} {e : Flt} (h : x.run s = (.error e, t)) :
    (x >>= f).run s = (.error e, t) := by
  show ExceptT.bindCont f (x.run s).1 (x.run s).2 = _
  rw [h]
  rfl

theorem keeps_wakeWindows (s : State) : Keeps s (wakeWindows s) :=
  keeps_foldl (fun s (p : Nat × List (Nat × Nat)) => s.at (s.clk + 1) false (.skResWindowGrant p.1))
    (fun s _ => keeps_at s _ _ _) _ s

section
variable {s u : State} {n : Nat} {g : Agent} {q : Cmd}

theorem skFinish_value {v : Word} (hrun : (skPerform g q).run s = (.ok (v, none), u)) :
    skFinish s n g q = skReply (wakeWindows u) n q (.data v []) := by
  rw [skFinish, hrun]

theorem skFinish_fault {f : Flt} (hrun : (skPerform g q).run s = (.error f, u)) :
    skFinish s n g q = skReply s n q (.fault f.1 f.2) := by
  rw [skFinish, hrun]

/-- `sk.len` reads CLEN. -/
theorem skPerform_len (hport : q.port = 9) : skPerform g q = (do let (d, _) ← cmdDesc g.home q; pure (w64 d.clen, none)) := by
  rw [skPerform, hport]
  rfl

/-- `sk.res` answers the base of the slots. -/
theorem skPerform_res (hport : q.port = 5) : skPerform g q = (do let v ← skResAt g.home q; pure (v, none)) := by
  rw [skPerform, hport]
  rfl

theorem skFinish_len {d : Desc} {p : Pool} (hport : q.port = 9) (hrun : (cmdDesc g.home q).run s = (.ok (d, p), u)) :
    skFinish s n g q = skReply (wakeWindows u) n q (.data (w64 d.clen) []) :=
  skFinish_value (by rw [skPerform_len hport, run_bind_ok hrun]; rfl)

theorem skFinish_len_fault {f : Flt} (hport : q.port = 9) (hrun : (cmdDesc g.home q).run s = (.error f, u)) :
    skFinish s n g q = skReply s n q (.fault f.1 f.2) :=
  skFinish_fault (by rw [skPerform_len hport]; exact run_bind_error hrun)

theorem skFinish_res {v : Word} (hport : q.port = 5) (hrun : (skResAt g.home q).run s = (.ok v, u)) :
    skFinish s n g q = skReply (wakeWindows u) n q (.data v []) :=
  skFinish_value (by rw [skPerform_res hport, run_bind_ok hrun]; rfl)

end

section
variable {s : State} {n : Nat} {q : Cmd} {l : List Cmd} (h : InService (s.ctx n) 22 q l)
include h

theorem exec_skCommandComplete_kept {x : Reply} (hx : (s.req q.id).bind (keptReply s) = some x) :
    exec (.skCommandComplete n) s = .next (skReply s n q x) := by
  show execSkCommandComplete n s = _
  unfold execSkCommandComplete
  rw [served_eq h]
  dsimp only
  rw [hx]

theorem exec_skCommandComplete (hx : (s.req q.id).bind (keptReply s) = none) (hport : q.port ≠ 5) :
    exec (.skCommandComplete n) s = .next (skFinish s n (cmdAgent n (s.ctx n) q) q) := by
  show execSkCommandComplete n s = _
  unfold execSkCommandComplete
  rw [served_eq h]
  dsimp only
  rw [hx]
  exact if_pos hport

/-- R229: a reservation that its window holds and behind which none waits is granted on its arrival. -/
theorem exec_skCommandComplete_res (hx : (s.req q.id).bind (keptReply s) = none) (hport : q.port = 5) {w : State}
    (hopen : (skResWindow (cmdAgent n (s.ctx n) q).home q).run s = (.ok true, w))
    (halone : othersWait s (cmdAgent n (s.ctx n) q) q = false) :
    exec (.skCommandComplete n) s = .next (skFinish s n (cmdAgent n (s.ctx n) q) q) := by
  have hgrant : (true && !othersWait s (cmdAgent n (s.ctx n) q) q) = true := by rw [halone]; rfl
  show execSkCommandComplete n s = _
  unfold execSkCommandComplete
  rw [served_eq h]
  dsimp only
  rw [hx]
  refine (if_neg (not_not.2 hport)).trans ?_
  rw [hopen]
  exact if_pos hgrant

/-- R229: the one reservation that waits at a descriptor is granted from its list, which is then empty. -/
theorem exec_skResWindowGrant_one {pa : Nat} (hl : KMap.get [] s.skWait pa = [(n, q.id)]) {w : State}
    (hopen : (skResOpen (cmdAgent n (s.ctx n) q).home q).run s = (.ok true, w)) :
    exec (.skResWindowGrant pa) s = .next { skFinish s n (cmdAgent n (s.ctx n) q) q with
      skWait := (skFinish s n (cmdAgent n (s.ctx n) q) q).skWait.del pa } := by
  show execSkResWindowGrant pa s = _
  unfold execSkResWindowGrant
  rw [hl, grantWindows, served_eq h]
  dsimp only
  rw [hopen]
  exact congrArg _ (if_neg (not_not.2 rfl))

end

end Sys2Proof.Machine
end

section
/-!
PROOFS. Work of the engines and of the skein homes, clause by clause (O48).
-/

namespace Sys2Proof.Machine

/-- R271: the compare changes no byte of memory; it counts one event, and its token holds the place of the first byte in
which the ranges differ. -/
theorem compare_ends {s : State} {n : Nat} {q : Cmd} {l : List Cmd} {k m : Nat} (hinv : s.Inv)
    (h : InService (s.ctx n) 16 q l) (hport : q.port = 5) (hdone : q.done = 0) (hheld : q.held = none) (hw : s.ctlw = [])
    (ht : goTok q.go = some k) (hadd : fld q.go 3 53 = 0) (hm : fld q.a2 0 40 = m) (hle : m ≤ 2048)
    (h0 : PhysRange s q.a0 m) (h1 : PhysRange s q.a1 m) :
    ∃ t v, exec (.engineChunkComplete n 16) s = .next t ∧ t.mem = s.mem ∧
      (∀ c, t.core c = if c = coreOf n then (s.core c).count 0x0E 1 else s.core c) ∧ (t.ctx n).queue 16 = l ∧
      (t.ctx n).tok k = ⟨.written, BitVec.ofNat 64 v⟩ ∧ v ≤ m ∧
      (∀ i, i < v → Memory.read s.mem (fld q.a0 0 48 + i) = Memory.read s.mem (fld q.a1 0 48 + i)) ∧
      (v < m → Memory.read s.mem (fld q.a0 0 48 + v) ≠ Memory.read s.mem (fld q.a1 0 48 + v)) ∧
      (t.ctx n).regs = (s.ctx n).regs ∧ ∀ j, j ≠ n → t.ctx j = s.ctx j := by
  obtain ⟨u, hread, hexec⟩ := exec_compare h hport hdone hheld hw ht hadd hm hle h0 h1
  obtain ⟨hv, heq, hne⟩ := firstDiffByte_spec (s.rd (fld q.a0 0 48) m) (s.rd (fld q.a1 0 48) m) m
  generalize firstDiffByte (s.rd (fld q.a0 0 48) m) (s.rd (fld q.a1 0 48) m) m = v at hexec hv heq hne
  have hbyte (a : Word) (i : Nat) (hi : i < m) :
      byteAt (s.rd (fld a 0 48) m) i = (Memory.read s.mem (fld a 0 48 + i)).toNat :=
    byteAt_rd s _ m i (rising_of_inv s hinv) hi
  have hctx : u.ctx n = s.ctx n := hread.ctx n
  have hcmp := inService_comparedCtx q m l (s.ctx n)
  rw [h.unit] at hcmp
  obtain ⟨hqueue, -, hregs, htok⟩ := hcmp.endCmd (some k) (w64 v)
  refine ⟨_, v, hexec, hread.mem, fun c => ?_, ?_, ?_, hv, fun i hi => ?_, fun hlt hsame => ?_, ?_, fun j hj => ?_⟩
  · rw [State.core_updCtx]
    split
    · next hc => rw [hc, State.core_updCore, hread.core]
    · next hc => rw [State.core_updCore_other _ _ _ _ hc, hread.core]
  · rw [State.ctx_updCtx, State.ctx_updCore, hctx]
    exact hqueue
  · rw [State.ctx_updCtx, State.ctx_updCore, hctx]
    exact htok k rfl
  · refine BitVec.eq_of_toNat_eq ?_
    rw [← hbyte _ i (hi.trans_le hv), ← hbyte _ i (hi.trans_le hv)]
    exact heq i hi
  · refine hne hlt ?_
    rw [hbyte _ v hlt, hbyte _ v hlt, hsame]
  · rw [State.ctx_updCtx, State.ctx_updCore, hctx]
    exact hregs
  · rw [State.ctx_updCtx_other _ _ _ _ hj, State.ctx_updCore, hread.ctx]

/-- R305: a send ends with the bytes that it sent. -/
theorem npInjection_ends {s : State} {n : Nat} {q : Cmd} {l : List Cmd} {k : Nat} (h : InService (s.ctx n) 20 q l)
    (hdone : cmdSize q ≤ q.done) (hout : ∀ x ∈ localPackets s (quadOf n), x.np ≠ q.id) (ht : goTok q.go = some k)
    (hadd : fld q.go 3 53 = 0) : ∃ t, exec (.npInjection n) s = .next t ∧ t.mem = s.mem ∧ (t.ctx n).queue 20 = l ∧
      (t.ctx n).tok k = ⟨.written, w64 (cmdSize q)⟩ ∧
      (t.ctx n).ctl = { (s.ctx n).ctl with flags := (s.ctx n).ctl.flags ||| q.flg } := by
  obtain ⟨hqueue, hctl, -, htok⟩ := h.endCmd (some k) (w64 (cmdSize q))
  refine ⟨_, exec_npInjection_ends h hdone hout ht hadd, rfl, ?_⟩
  rw [State.ctx_updCtx]
  exact ⟨hqueue, htok k rfl, hctl⟩

/-- R305: the packet of a row waits at its router, and the send goes on 5 clks later. -/
theorem npInjection_row {s : State} {n : Nat} {q : Cmd} {l : List Cmd} (h : InService (s.ctx n) 20 q l)
    (hport : q.port = 5) (hdone : q.done = 0)
    (he : (s.holder (quadOf n)).fence = true ∨ matchEntry (s.holder (quadOf n)) (rowPacket s n q).flow.toNat = none) :
    ∃ t, exec (.npInjection n) s = .next t ∧ t.mem = s.mem ∧
      (t.router (quadOf n)).inject = (s.router (quadOf n)).inject ++ [(0, rowPacket s n q, 0, none)] ∧
      (t.ctx n).queue 20 = { q with done := 256, chunk := q.chunk + 1 } :: l ∧
      ⟨s.clk + 5, false, .npInjection n⟩ ∈ t.cal := by
  refine ⟨_, exec_npInjection_row h hport hdone he, rfl, ?_, ?_, State.mem_at _ _ _ _⟩
  · show ((injectAt s (quadOf n) 0 (rowPacket s n q)).router (quadOf n)).inject = _
    rw [injectAt, State.router_updRouter]
  · have hqueue : (sendsPart 256 (s.ctx n)).queue 20 = { q with done := q.done + 256, chunk := q.chunk + 1 } :: l := by
      show ((s.ctx n).updCmd 20 _).queue 20 = _
      rw [updCmd_eq h, Ctx.queue_setQueue]
    rw [hdone] at hqueue
    rw [State.ctx_at, State.ctx_updCtx]
    exact hqueue

theorem queue_faultedCtx (fu code : Nat) (v : Word) (q : Cmd) (l : List Cmd) (c : Ctx) :
    (faultedCtx fu code v q l c).queue fu = { q with st := .faulted code v } :: l :=
  Ctx.queue_setQueue c fu ({ q with st := .faulted code v } :: l)

section
variable {s : State} {n : Nat} {q : Cmd} {l : List Cmd} (h : InService (s.ctx n) 22 q l)
include h

/-- R417: a skein command that faults keeps its place and its token; its fault waits for delivery. -/
theorem skEnd_fault_spec {f : Nat} (v : Word) (hf : f ≠ 0) (hd : (s.ctx n).delivered.length < 16)
    (hw : ∀ p ∈ (s.ctx n).walks, p.1 ≠ 22) :
    let t := skEnd s n q (.fault f v)
    t.mem = s.mem ∧ (t.ctx n).queue 22 = { q with st := .faulted f v } :: l ∧ (t.ctx n).toks = (s.ctx n).toks ∧
      (t.ctx n).delivered = (s.ctx n).delivered ++ [(f, v, 22)] := by
  have hdrop := spares_dropReq s q.id
  intro t
  have ht : t = (dropReq s q.id).updCtx n (faultedCtx 22 f v q l) := skEnd_fault h v hf hd hw
  have hctx : t.ctx n = faultedCtx 22 f v q l (s.ctx n) := by rw [ht, State.ctx_updCtx, hdrop.ctx]
  rw [hctx]
  exact ⟨by rw [ht]; exact hdrop.mem, queue_faultedCtx _ _ _ _ _ _, rfl, rfl⟩

/-- R233: `sk.len` replies with CLEN. -/
theorem skCommandComplete_len {d : Desc} {p : Pool} {u : State} (hx : (s.req q.id).bind (keptReply s) = none)
    (hport : q.port = 9) (hrun : (cmdDesc (cmdAgent n (s.ctx n) q).home q).run s = (.ok (d, p), u)) :
    ∃ t, exec (.skCommandComplete n) s = .next (skReply t n q (.data (w64 d.clen) [])) ∧ t.mem = u.mem :=
  ⟨wakeWindows u,
    (exec_skCommandComplete h hx (by rw [hport]; norm_num)).trans (congrArg _ (skFinish_len hport hrun)),
    (keeps_wakeWindows u).mem⟩

/-- A command whose descriptor faults replies with the fault. -/
theorem skCommandComplete_len_fault {f : Flt} {u : State} (hx : (s.req q.id).bind (keptReply s) = none)
    (hport : q.port = 9) (hrun : (cmdDesc (cmdAgent n (s.ctx n) q).home q).run s = (.error f, u)) :
    exec (.skCommandComplete n) s = .next (skReply s n q (.fault f.1 f.2)) :=
  (exec_skCommandComplete h hx (by rw [hport]; norm_num)).trans (congrArg _ (skFinish_len_fault hport hrun))

/-- R229: a reservation granted on its arrival replies with the base of its slots. -/
theorem skCommandComplete_res {v : Word} {u w : State} (hport : q.port = 5)
    (hrun : (skResAt (cmdAgent n (s.ctx n) q).home q).run s = (.ok v, u)) (hx : (s.req q.id).bind (keptReply s) = none)
    (hopen : (skResWindow (cmdAgent n (s.ctx n) q).home q).run s = (.ok true, w))
    (halone : othersWait s (cmdAgent n (s.ctx n) q).home q = false) :
    ∃ t, exec (.skCommandComplete n) s = .next (skReply t n q (.data v [])) ∧ t.mem = u.mem :=
  ⟨wakeWindows u, (exec_skCommandComplete_res h hx hport hopen halone).trans (congrArg _ (skFinish_res hport hrun)),
    (keeps_wakeWindows u).mem⟩

/-- R229: the reservation granted from the list of a descriptor replies with the base of its slots, and leaves the list. -/
theorem skResWindowGrant_one {v : Word} {u w : State} {pa : Nat} (hport : q.port = 5)
    (hrun : (skResAt (cmdAgent n (s.ctx n) q).home q).run s = (.ok v, u)) (hl : KMap.get [] s.skWait pa = [(n, q.id)])
    (hopen : (skResOpen (cmdAgent n (s.ctx n) q).home q).run s = (.ok true, w)) :
    ∃ t z, exec (.skResWindowGrant pa) s = .next z ∧ KMap.get [] z.skWait pa = [] ∧ t.mem = u.mem ∧
      z = { skReply t n q (.data v []) with skWait := z.skWait } := by
  have hexec := exec_skResWindowGrant_one h hl hopen
  rw [skFinish_res hport hrun] at hexec
  exact ⟨wakeWindows u, _, hexec, KMap.get_del_same _ _ _, (keeps_wakeWindows u).mem, rfl⟩

end

/-- Settles O48: each event is followed from the command in service at the head of its queue to the state that it leaves;
the compare reads both ranges as they stand, since each is one page of physical memory. -/
theorem engineAndSkeinWork : Obligations.EngineAndSkeinWork := by
  unfold Obligations.EngineAndSkeinWork
  refine ⟨?compare, fun s n fu f => exec_engineAccessFault, ?send, ?skein⟩
  case compare =>
    intro s n q l k hinv hq hrun hfu hport hdone hheld hw ht hadd hk0 hk1 p0 p1 m hpos hle hpage0 hpage1 hhbm0 hhbm1
      hgood0 hgood1
    exact compare_ends hinv ⟨hq, hrun, hfu⟩ hport hdone hheld hw ht hadd rfl hle
      ⟨hk0, hpos, hpage0, hhbm0, hgood0⟩ ⟨hk1, hpos, hpage1, hhbm1, hgood1⟩
  case send =>
    intro s n q l hq hrun hfu h p
    have hserved : InService (s.ctx n) 20 q l := ⟨hq, hrun, hfu⟩
    exact ⟨fun k => npInjection_ends hserved, fun x hx hdone => exec_npInjection_waits hserved hdone hx,
      npInjection_row hserved⟩
  case skein =>
    intro s n q l hq hrun hfu g kept told
    have hserved : InService (s.ctx n) 22 q l := ⟨hq, hrun, hfu⟩
    exact ⟨skEnd_data_spec hserved, fun f v => skEnd_fault_spec hserved v,
      fun x => ⟨skReply_of_none x, fun r => skReply_of_some_spec x⟩, fun x => exec_skCommandComplete_kept hserved,
      fun d p u => skCommandComplete_len hserved, fun f u => skCommandComplete_len_fault hserved,
      fun v u w hport hrun => ⟨skCommandComplete_res hserved hport hrun,
        fun pa => skResWindowGrant_one hserved hport hrun⟩⟩

end Sys2Proof.Machine
end

section
/-!
PROOFS. The commands of the baste unit BL (O42).
-/

namespace Sys2Proof.Machine

/-! ## Go moves with any effect (R264, R265) -/

/-- The state in which a go move that has been charged and has entered its command has its effect. -/
def enteredState (s : State) (src : BitVec 9) (fu port : Nat) (tok : Option Nat) (fix : Val → Cmd → Cmd) : State :=
  ((charge (consume s src) 2).ser (s.serial + 1)).updCtx s.iss.n fun c => c.enter (fixedCmd s src fu port fix) tok

section
variable (s : State) (src : BitVec 9) (fu port : Nat) (tok : Option Nat) (fix : Val → Cmd → Cmd)

theorem enterGo_eq (eff : Val → State → State) :
    enterGo s.iss.ctx fu port tok fix eff (readCode s src) (charge (consume s src) 2) =
      eff (readCode s src) (enteredState s src fu port tok fix) := by
  have hn : ((charge (consume s src) 2).ser (s.serial + 1)).iss.n = s.iss.n := charged_n s src 2
  unfold enterGo
  dsimp only
  rw [charged_serial, hn, openIds_charged, onCtx_charged_ser]
  rfl

theorem enteredState_iss :
    (enteredState s src fu port tok fix).iss = { s.iss with weight := s.iss.weight + 2 } := by
  simp [enteredState]

theorem enteredState_n : (enteredState s src fu port tok fix).iss.n = s.iss.n := by
  rw [enteredState_iss]

theorem ctx_enteredState :
    (enteredState s src fu port tok fix).ctx s.iss.n = (sourced s src).enter (fixedCmd s src fu port fix) tok := by
  have hctx : ((charge (consume s src) 2).ser (s.serial + 1)).ctx s.iss.n = sourced s src :=
    (ctx_charge (consume s src) 2 s.iss.n).trans (ctx_consume s src)
  rw [enteredState, State.ctx_updCtx, hctx]

/-- Whether a context records stands in the latch, which a go move that enters its command leaves. -/
theorem recOn_enteredState : recOn (enteredState s src fu port tok fix) = recOn s := by
  simp [recOn, enteredState_iss]

/-- What the effect of an entered go move does to its context is done to what entered the command. -/
theorem onCtx_enteredState (f : Ctx → Ctx) : onCtx f (enteredState s src fu port tok fix) =
    ((charge (consume s src) 2).ser (s.serial + 1)).updCtx s.iss.n
      fun c => f (c.enter (fixedCmd s src fu port fix) tok) := by
  rw [onCtx, enteredState_n, enteredState, State.updCtx_updCtx]

end

/-- A go move to an open queue whose checks are quiet enters its command, and what its effect does to its context follows. -/
theorem goMove_entersBy {s : State} {i : Instr} {fu port : Nat} {chk : List Note} {tok : Option Nat} {g : BitVec 4}
    {src : BitVec 9} {fix : Val → Cmd → Cmd} {eff : Val → State → State} {f : Ctx → Ctx} {q : Cmd}
    (hi : exec i s = goMove fu port [] chk tok fix eff g src s) (hc : firstNote chk = .quiet)
    (hq : q = fixedCmd s src fu port fix) (hfu : q.fu = fu) (hport : q.port = port)
    (he : eff (readCode s src) (enteredState s src fu port tok fix) =
      ((charge (consume s src) 2).ser (s.serial + 1)).updCtx s.iss.n
        fun c => f (c.enter (fixedCmd s src fu port fix) tok)) : Enters s i g src tok q f := by
  intro ho
  rw [hfu] at ho
  rw [hfu, hport, hq]
  refine completes s i fu port 1 2 (s.serial + 1) true _ chk g src _ _ (hi.trans (goMove_eq ..)) ?_ hc
    ((enterGo_eq s src fu port tok fix eff).trans he)
  rw [queueFull_of_open ho]
  rfl

/-! ## The checks of BL (R252, R253) -/

theorem firstNote_logNote (c : Ctx) (l : List Note) : firstNote (logNote c :: l) =
    if (c.sk c.ctl.logsk.toNat).cfg = true then firstNote l else .trap 5 0x0D (w64 c.ctl.logsk.toNat) := by
  rw [logNote, firstNote_trapIf, logHnd]
  cases (c.sk c.ctl.logsk.toNat).cfg <;> rfl

/-- The unit is busy with an unpick, or its context records. -/
theorem unpickBusy_iff (c : Ctx) : (c.ctl.bsRec || (c.queue 23).any fun q => q.port = 7) = true ↔
    c.ctl.bsRec = true ∨ ∃ q ∈ c.queue 23, q.port = 7 := by
  simp

/-! ## The operations (R250, R252, R253) -/

section
variable (s : State) (g : BitVec 4) (src : BitVec 9)

theorem exec_blBast : exec (.blBast g src) s = goMove 23 4 [] [logNote s.iss.ctx] none
    (fun _ q => { q with a3 := logDesc s.iss.ctx })
    (fun _ => onCtx fun x => { x with baste := { x.baste with lrdy := false }, ctl := { x.ctl with bsRec := true } })
    g src s := rfl

theorem exec_blBstop : exec (.blBstop g src) s = goMove 23 5 [] [] none (fun _ q => q)
    (fun _ => onCtx fun x => { x with ctl := { x.ctl with bsRec := false } }) g src s := rfl

theorem exec_blMark : exec (.blMark g src) s = goMove 23 6 [] [] none (fun _ q => q)
    (fun v t => if recOn t then stageMark v.word t else t) g src s := rfl

/-- The checks of `bl.unpk` in their order. -/
def unpkChecks : List Note :=
  ctlNotes s (s.iss.ctx.portW 23 2) ++ [logNote s.iss.ctx,
    trapIf (s.iss.ctx.ctl.bsRec || (s.iss.ctx.queue 23).any fun q => q.port = 7) 0x17 7]

theorem exec_blUnpk : exec (.blUnpk g src) s = goMove 23 7 [] (unpkChecks s) (ctlTok (s.iss.ctx.portW 23 2))
    (fun _ q => { q with a3 := logDesc s.iss.ctx }) (fun _ t => t) g src s := by
  rw [← skTok_eq]
  rfl

theorem firstNote_unpkChecks (hs : (s.iss.ctx.portW 23 2).toNat / 32 % 8 < 6)
    (ht : TokenFree s (ctlTok (s.iss.ctx.portW 23 2)))
    (hlog : (s.iss.ctx.sk s.iss.ctx.ctl.logsk.toNat).cfg = true) :
    firstNote (unpkChecks s) = if s.iss.ctx.ctl.bsRec = true ∨ ∃ q ∈ s.iss.ctx.queue 23, q.port = 7
      then .trap 5 0x17 7 else .quiet := by
  rw [unpkChecks, firstNote_append _ _ (ctlNotes_quiet s _ hs ht), firstNote_logNote, if_pos hlog, firstNote_trapIf]
  simp only [unpickBusy_iff]
  rfl

/-- The header entry that a recorded `bl.mark` stages (R250). -/
def markStage : Stage :=
  { id := s.serial, hdr := [w64 (3 + 2 ^ 32), 0, 0, w64 ((trigT s src).toNat % 2 ^ 32), 0, 0, 0, 0], imgs := []
    raws := [], missing := 0, len := 1, held := false }

/-- A mark is staged under the number of the command that has just entered. -/
theorem stageMark_entered : stageMark (trigT s src) (enteredState s src 23 6 none fun _ q => q) =
    (((charge (consume s src) 2).ser (s.serial + 1)).updCtx s.iss.n fun c =>
      let x := c.enter (goCmd s src 23 6) none
      { x with baste := { x.baste with stages := x.baste.stages ++ [markStage s src] } }).updCore (coreOf s.iss.n)
        fun k => { k with staged := k.staged + 64 } := by
  have hlast : (((enteredState s src 23 6 none fun _ q => q).ctx s.iss.n).queue 23).getLast? =
      some (goCmd s src 23 6) := by
    rw [ctx_enteredState]
    exact (congrArg List.getLast? (Ctx.queue_setQueue ..)).trans List.getLast?_concat
  unfold stageMark
  rw [enteredState_n]
  dsimp only
  rw [hlast, onCtx_enteredState, fld_zero]
  rfl

/-- What `bl.flag` leaves of a context whose registers it leaves as `r`. -/
def flagWritten (x : Ctx) (r : Regs) : Ctx :=
  { x with regs := r, baste := { x.baste with
      fw := w64 ((trigT s src).toNat / 2 ^ 32 % 2 ^ 30), adAB := s.iss.ctx.portW 23 0, adTY := s.iss.ctx.portW 23 1 } }

/-- The tags that a `bl.flag` gives and no other move of its bundle writes. -/
def givenTags : List (Nat × Tag) :=
  (flagTags (trigT s src)).filter fun p => !(bundleTags s).contains p.1

/-- Registers with such tags. -/
def tagged (r : Regs) (l : List (Nat × Tag)) : Regs := l.foldl (fun r p => r.setTag p.1 p.2) r

theorem exec_blFlag : exec (.blFlag g src) s = goMove 23 8 []
    [trapIf ((trigT s src).getLsbD 0 && !(trigT s src).getLsbD 1 && (trigT s src).getLsbD 6) 0x0A (trigT s src)] none
    (fun _ q => q) (fun v t => onCtx (fun x =>
      { x with
        regs := tagged x.regs ((flagTags v.word).filter fun p => !(bundleTags t).contains p.1)
        baste := { x.baste with
          fw := w64 (fld v.word 32 30), adAB := t.iss.ctx.portW 23 0, adTY := t.iss.ctx.portW 23 1 } }) t) g src s := rfl

theorem bundleTags_enteredState (fu port : Nat) (tok : Option Nat) (fix : Val → Cmd → Cmd) :
    bundleTags (enteredState s src fu port tok fix) = bundleTags s := by
  unfold bundleTags guardTrue
  rw [enteredState_iss]

/-- A `bl.flag` that meets nothing gives its tags and writes the flag word. -/
theorem blFlag_enters (h : ((trigT s src).getLsbD 0 && !(trigT s src).getLsbD 1 && (trigT s src).getLsbD 6) = false) :
    Enters s (.blFlag g src) g src none (goCmd s src 23 8) fun x =>
      flagWritten s src x (tagged x.regs (givenTags s src)) := by
  refine goMove_entersBy (exec_blFlag s g src) (by rw [h]; rfl) rfl rfl rfl ?_
  dsimp only
  rw [onCtx_enteredState, bundleTags_enteredState, enteredState_iss, fld_eq]
  rfl

theorem flagTags_none (t : Word) (h0 : t.getLsbD 0 = false) : flagTags t = [] := by
  simp only [flagTags, h0, Bool.not_false, if_true]

theorem flagTags_one (t : Word) (h0 : t.getLsbD 0 = true) (h1 : t.getLsbD 1 = true) : flagTags t =
    [(t.toNat / 4 % 32, BitVec.ofNat 20 (t.toNat / 128 % 4096 * 256 + t.toNat / 2 ^ 19 % 256))] := by
  simp only [flagTags, h0, h1, Bool.not_true, Bool.false_eq_true, if_false, if_true, fld_eq]
  rfl

theorem flagTags_tile (t : Word) (h0 : t.getLsbD 0 = true) (h1 : t.getLsbD 1 = false) : flagTags t =
    (List.range 8).map fun k => (32 + 8 * (t.toNat / 4 % 32) + k,
      BitVec.ofNat 20 (t.toNat / 128 % 4096 * 256 + (t.toNat / 2 ^ 19 % 256 + k) % 256)) := by
  simp only [flagTags, h0, h1, Bool.not_true, Bool.false_eq_true, if_false, fld_eq]
  rfl

end

/-- Settles O42: each operation is one go move of BL, which enters its command (`goMove_enters`, `goMove_entersBy`) or
meets the first of its checks that fails; the tags of `bl.flag` by the case of its word. -/
theorem basteCommands : Obligations.BasteCommands := by
  unfold Obligations.BasteCommands
  intro s g src c T w h log desc q enters busy flagged r gid row
  refine ⟨fun hl => ?_, fun hl hr ho => ?_, goMove_enters (exec_blBstop s g src) rfl rfl rfl rfl, fun hrec => ?_,
    fun hrec ho => ?_, fun hs ht hl hb => ?_, fun hs ht hl hb hr ho => ?_, fun h0 => ?_, fun h0 h1 hn => ?_,
    fun h0 h1 h6 hn => ?_, fun h0 h1 h6 hr ho => ?_⟩
  · exact goMove_enters (exec_blBast s g src) ((firstNote_logNote _ _).trans (if_pos hl)) rfl rfl rfl
  · exact goMove_traps (exec_blBast s g src) hr ho ((firstNote_logNote _ _).trans (if_neg hl))
  · refine goMove_entersBy (exec_blMark s g src) rfl rfl rfl rfl ?_
    rw [recOn_enteredState, hrec]
    rfl
  · refine completesCore s _ 23 6 1 2 (s.serial + 1) true _ [] g src _ _ _
      ((exec_blMark s g src).trans (goMove_eq ..)) ?_ rfl ?_
    · rw [queueFull_of_open ho]
      rfl
    · rw [enterGo_eq, recOn_enteredState, hrec]
      exact stageMark_entered s src
  · exact goMove_entersBy (exec_blUnpk s g src) ((firstNote_unpkChecks s hs ht hl).trans (if_neg hb)) rfl rfl rfl rfl
  · exact goMove_traps (exec_blUnpk s g src) hr ho ((firstNote_unpkChecks s hs ht hl).trans (if_pos hb))
  · have hf := blFlag_enters s g src (by rw [show (trigT s src).getLsbD 0 = false from h0]; rfl)
    rwa [givenTags, flagTags_none _ h0] at hf
  · have hf := blFlag_enters s g src (by rw [show (trigT s src).getLsbD 1 = true from h1]; simp)
    rwa [givenTags, flagTags_one _ h0 h1, List.filter_cons_of_pos (by simpa using hn)] at hf
  · have hf := blFlag_enters s g src (by rw [show (trigT s src).getLsbD 6 = false from h6]; simp)
    have hgiven : givenTags s src = flagTags (trigT s src) := by
      rw [givenTags, hn]
      exact List.filter_eq_self.2 fun _ _ => rfl
    simp only [hgiven, flagTags_tile (trigT s src) h0 h1, tagged, List.foldl_map] at hf
    exact hf
  · exact goMove_traps (exec_blFlag s g src) hr ho (by
      rw [show (trigT s src).getLsbD 0 = true from h0, show (trigT s src).getLsbD 1 = false from h1,
        show (trigT s src).getLsbD 6 = true from h6]
      rfl)

end Sys2Proof.Machine
end

section
/-!
PROOFS. What record mode reads and writes: the issue latch, the flag word and the operands of an entry (R241-R249).
-/

namespace Sys2Proof.Machine

/-! ## Fields of a word -/

theorem getLsbD_setFld (w : Word) (lo len v i : Nat) : (setFld w lo len v).getLsbD i =
    (decide (i < 64) && if lo ≤ i ∧ i < lo + len then v.testBit (i - lo) else w.getLsbD i) := by
  simp only [setFld, w64, BitVec.getLsbD_ofNat, Nat.testBit_or, Nat.testBit_xor, Nat.testBit_and, Nat.testBit_shiftLeft,
    Nat.testBit_two_pow_sub_one, Nat.testBit_mod_two_pow, BitVec.testBit_toNat]
  by_cases h1 : lo ≤ i <;> by_cases h2 : i < lo + len
  · simp [h1, h2, show i - lo < len by omega]
  · simp [h2, show ¬i - lo < len by omega]
  · simp [h1]
  · simp [h1]

theorem testBit_fld (w : Word) (lo len j : Nat) : (fld w lo len).testBit j = (decide (j < len) && w.getLsbD (lo + j)) := by
  rw [fld_eq, Nat.testBit_mod_two_pow, Nat.testBit_div_two_pow, BitVec.testBit_toNat, Nat.add_comm]

theorem fld_setFld_same (w : Word) (lo len v : Nat) (h : lo + len ≤ 64) : fld (setFld w lo len v) lo len = v % 2 ^ len := by
  refine Nat.eq_of_testBit_eq fun j => ?_
  rw [testBit_fld, getLsbD_setFld, Nat.testBit_mod_two_pow]
  by_cases hj : j < len
  · simp [hj, show lo + j < 64 by omega]
  · simp [hj]

theorem fld_setFld_other (w : Word) (lo len v a k : Nat) (h : a + k ≤ lo ∨ lo + len ≤ a) (hw : a + k ≤ 64) :
    fld (setFld w lo len v) a k = fld w a k := by
  refine Nat.eq_of_testBit_eq fun j => ?_
  rw [testBit_fld, testBit_fld, getLsbD_setFld]
  by_cases hj : j < k
  · rw [if_neg (by omega), decide_eq_true (show a + j < 64 by omega), Bool.true_and]
  · simp [hj]

/-- Outside its field a word is left as it was. -/
theorem setFld_and_mask (w m : Word) (lo len v : Nat) (h : ∀ i, lo ≤ i → i < lo + len → m.getLsbD i = false) :
    setFld w lo len v &&& m = w &&& m := by
  refine BitVec.eq_of_getLsbD_eq fun i hi => ?_
  rw [BitVec.getLsbD_and, BitVec.getLsbD_and, getLsbD_setFld, decide_eq_true hi, Bool.true_and]
  split
  · next hr => rw [h i hr.1 hr.2, Bool.and_false, Bool.and_false]
  · rfl

/-! ## The flag word moves on (R243) -/

/-- How the flag word moves on with an operation: a plain one is consumed, a sticky one stays, and one that counts takes
the next row, or the next GID after the last row and after an operation of more than one row. -/
def Moved (old : Word) (oneRow : Bool) (fw : Word) : Prop :=
  (old.getLsbD 8 = false → fw = 0) ∧ (old.getLsbD 8 = true → old.getLsbD 9 = false → fw = old) ∧
  (old.getLsbD 8 = true → old.getLsbD 9 = true → fw &&& ~~~0x3FFFFC00 = old &&& ~~~0x3FFFFC00 ∧
    fw.toNat / 2 ^ 22 % 2 ^ 8 =
      (if oneRow then (old.toNat / 2 ^ 22 % 2 ^ 8 + 1) % 256 else old.toNat / 2 ^ 22 % 2 ^ 8) ∧
    fw.toNat / 2 ^ 10 % 2 ^ 12 = if oneRow ∧ old.toNat / 2 ^ 22 % 2 ^ 8 ≠ 255 then old.toNat / 2 ^ 10 % 2 ^ 12
      else (old.toNat / 2 ^ 10 % 2 ^ 12 + 1) % 4096)

theorem fwFlag_eq (w : Word) (k : Nat) : fwFlag w k = w.toNat / 4 ^ k % 4 := by
  rw [fwFlag, fld_eq, pow_mul]
  rfl
theorem fwRgid_eq (w : Word) : fwRgid w = w.toNat / 2 ^ 10 % 2 ^ 12 := fld_eq w 10 12
theorem fwRrow_eq (w : Word) : fwRrow w = w.toNat / 2 ^ 22 % 2 ^ 8 := fld_eq w 22 8

/-- The mask of R243 has no bit of the row and GID fields. -/
theorem getLsbD_counterMask (i : Nat) (h1 : 10 ≤ i) (h2 : i < 30) : (~~~0x3FFFFC00 : Word).getLsbD i = false := by
  rw [show (0x3FFFFC00 : Word) = BitVec.ofNat 64 ((2 ^ 20 - 1) <<< 10) from rfl, BitVec.getLsbD_not,
    BitVec.getLsbD_ofNat, Nat.testBit_shiftLeft, Nat.testBit_two_pow_sub_one]
  simp [h1, show i < 64 by omega, show i - 10 < 20 by omega]

theorem setRow_and_mask (w : Word) (v : Nat) : setFld w 22 8 v &&& ~~~0x3FFFFC00 = w &&& ~~~0x3FFFFC00 :=
  setFld_and_mask _ _ _ _ _ fun i h1 h2 => getLsbD_counterMask i (by omega) (by omega)

theorem setGid_and_mask (w : Word) (v : Nat) : setFld w 10 12 v &&& ~~~0x3FFFFC00 = w &&& ~~~0x3FFFFC00 :=
  setFld_and_mask _ _ _ _ _ fun i h1 h2 => getLsbD_counterMask i (by omega) (by omega)

theorem fwRgid_setRow (w : Word) (v : Nat) : fwRgid (setFld w 22 8 v) = fwRgid w :=
  fld_setFld_other _ _ _ _ _ _ (by omega) (by omega)
theorem fwRgid_setGid (w : Word) (v : Nat) : fwRgid (setFld w 10 12 v) = v % 4096 := fld_setFld_same _ _ _ _ (by omega)
theorem fwRrow_setRow (w : Word) (v : Nat) : fwRrow (setFld w 22 8 v) = v % 256 := fld_setFld_same _ _ _ _ (by omega)
theorem fwRrow_setGid (w : Word) (v : Nat) : fwRrow (setFld w 10 12 v) = fwRrow w :=
  fld_setFld_other _ _ _ _ _ _ (by omega) (by omega)

theorem fwRrow_lt (w : Word) : fwRrow w < 256 := by
  rw [fwRrow_eq]
  exact Nat.mod_lt _ (by norm_num)

theorem fwRgid_lt (w : Word) : fwRgid w < 4096 := by
  rw [fwRgid_eq]
  exact Nat.mod_lt _ (by norm_num)

theorem moved_nextFw (w : Word) (oneRow : Bool) : Moved w oneRow (nextFw w oneRow) := by
  unfold nextFw fwSticky fwInc
  simp only [Moved, ← fwRrow_eq, ← fwRgid_eq]
  refine ⟨fun h8 => by rw [h8]; rfl, fun h8 h9 => by rw [h8, h9]; rfl, fun h8 h9 => ?_⟩
  rw [h8, h9]
  cases oneRow with
  | false => exact ⟨setGid_and_mask _ _, fwRrow_setGid _ _, fwRgid_setGid _ _⟩
  | true =>
    simp only [Bool.not_true, Bool.false_eq_true, if_false, if_true, true_and]
    split
    · next h =>
      rw [setGid_and_mask, setRow_and_mask, fwRrow_setGid, fwRrow_setRow, fwRgid_setGid, h]
      exact ⟨rfl, rfl, rfl⟩
    · next h =>
      rw [setRow_and_mask, fwRrow_setRow, fwRgid_setRow]
      exact ⟨rfl, rfl, rfl⟩

/-- The tag of a recorded result holds the GID and the row of the flag word (R240). -/
theorem recTag_eq (s : State) (h : recOn s = true) : recTag s =
    BitVec.ofNat 21 (2 ^ 20 + 256 * fwRgid (s.ctx s.iss.n).baste.fw + fwRrow (s.ctx s.iss.n).baste.fw) := by
  have hg := fwRgid_lt (s.ctx s.iss.n).baste.fw
  have hr := fwRrow_lt (s.ctx s.iss.n).baste.fw
  rw [recTag, if_pos h, resultTag]
  refine BitVec.eq_of_toNat_eq ?_
  rw [toNat_append_fields, BitVec.toNat_ofNat, BitVec.toNat_ofNat]
  simp only [BitVec.toNat_ofNat]
  omega

end Sys2Proof.Machine
end

section
/-!
PROOFS. A trial of the memory to come does not depend on the issue latch (R154).
-/

namespace Sys2Proof.Machine

/-- The state with another issue latch. -/
def State.latched (s : State) (l : Latch) : State := { s with iss := l }

section
variable (s : State) (l : Latch)

theorem core_latched (c : Nat) : (s.latched l).core c = s.core c := rfl
theorem updCtx_latched (n : Nat) (f : Ctx → Ctx) : (s.latched l).updCtx n f = (s.updCtx n f).latched l := rfl
theorem updCore_latched (c : Nat) (f : Core → Core) : (s.latched l).updCore c f = (s.updCore c f).latched l := rfl

/-- Two steps of a fold that commute with a change of the state, and so the folds. -/
theorem foldl_latched {α : Type} (f : State → α → State) (h : ∀ s a, f (s.latched l) a = (f s a).latched l) (xs : List α) :
    xs.foldl f (s.latched l) = (xs.foldl f s).latched l := by
  induction xs generalizing s with
  | nil => rfl
  | cons a xs ih => rw [List.foldl_cons, List.foldl_cons, h, ih]

theorem performSeg_latched (a : LocalAcc) (g : Seg) :
    performSeg (s.latched l) a g = ((performSeg s a g).1.latched l, (performSeg s a g).2) := by
  unfold performSeg
  split
  · split <;> rfl
  · split
    · rfl
    · dsimp only
      have hword : (s.latched l).rd64 g.pa = s.rd64 g.pa := rfl
      rw [hword]
      split <;> rfl
  · rfl

theorem performSegs_latched (a : LocalAcc) :
    performSegs (s.latched l) a = ((performSegs s a).1.latched l, (performSegs s a).2) := by
  unfold performSegs
  generalize a.won ++ a.segs = gs
  induction gs generalizing s a with
  | nil => rfl
  | cons g gs ih =>
    rw [List.foldl_cons, List.foldl_cons]
    dsimp only
    rw [performSeg_latched]
    exact ih _ _

theorem readStep_latched (m : MStep) : readStep (s.latched l) m = ((readStep s m).1.latched l, (readStep s m).2) := by
  unfold readStep
  dsimp only
  split <;> rfl

/-- An answer with another issue latch. -/
def Out.latched (l : Latch) : Out → Out
  | .next t => .next (t.latched l)
  | o => o

theorem execLatchSample_latched (c : Nat) : execLatchSample c (s.latched l) = Out.latched l (execLatchSample c s) := by
  unfold execLatchSample
  rw [core_latched]
  dsimp only
  split
  · rfl
  · split <;> rfl

theorem execStepCommit_latched (c : Nat) : execStepCommit c (s.latched l) = Out.latched l (execStepCommit c s) := by
  unfold execStepCommit
  rw [core_latched]
  split
  · rfl
  · next m _ =>
    have hread : (if m.readDone then (s.latched l, m) else readStep (s.latched l) m) =
        ((if m.readDone then (s, m) else readStep s m).1.latched l, (if m.readDone then (s, m) else readStep s m).2) := by
      split
      · rfl
      · exact readStep_latched s l m
    rw [hread]
    generalize (if m.readDone then (s, m) else readStep s m) = r
    have hctx : (r.1.latched l).ctx m.n = r.1.ctx m.n := rfl
    dsimp only
    rw [core_latched, hctx, foldl_latched _ _ _ fun _ _ => rfl, updCtx_latched, updCore_latched]
    rfl

/-- The state that an answer leaves of `s`. -/
def stateAfter (s : State) (o : Out) : State :=
  match o with
  | .next t => t
  | _ => s

theorem stateAfter_latched (o : Out) : stateAfter (s.latched l) (Out.latched l o) = (stateAfter s o).latched l := by
  cases o <;> rfl

/-- A step in flight with its sample and its commit, each where it is due. -/
def stepAhead (m : MStep) (s : State) (c e : Nat) : State :=
  let u := if m.age + e = mdO m.dir then stateAfter s (execLatchSample c s) else s
  if mdS m.dir ≤ m.age + e + 1 then stateAfter u (execStepCommit c u) else u

theorem stepAhead_latched (m : MStep) (c e : Nat) : stepAhead m (s.latched l) c e = (stepAhead m s c e).latched l := by
  have hsample : (if m.age + e = mdO m.dir then stateAfter (s.latched l) (execLatchSample c (s.latched l)) else s.latched l) =
      (if m.age + e = mdO m.dir then stateAfter s (execLatchSample c s) else s).latched l := by
    rw [execLatchSample_latched, stateAfter_latched]
    exact (apply_ite (State.latched · l) ..).symm
  unfold stepAhead
  dsimp only
  rw [hsample, execStepCommit_latched, stateAfter_latched]
  exact (apply_ite (State.latched · l) ..).symm

theorem soonStep_latched (c e : Nat) : soonStep (s.latched l) c e = (soonStep s c e).latched l := by
  cases hm : (s.core c).matrix.step with
  | none => simp only [soonStep, core_latched, hm]
  | some m =>
    have hstep (u : State) (hu : (u.core c).matrix.step = some m) :
        soonStep u c e = if m.held then u else stepAhead m u c e := by
      unfold soonStep stepAhead
      rw [hu]
      refine ite_congr rfl (fun _ => rfl) fun _ => ?_
      by_cases h : m.age + e = mdO m.dir
      · rw [if_pos h, if_pos h]
        rfl
      · rw [if_neg h, if_neg h]
        rfl
    rw [hstep s hm, hstep (s.latched l) hm, stepAhead_latched]
    exact (apply_ite (State.latched · l) ..).symm

theorem soonClk_latched (s0 : State) (k : Latch) (n d : Nat) :
    soonClk (s0.latched k) n d (s.latched l) = (soonClk s0 n d s).latched l := by
  unfold soonClk
  refine foldl_latched s l _ (fun u i => ?_) _
  dsimp only
  rw [← soonStep_latched]
  refine congrArg (soonStep · _ _) (foldl_latched u l _ (fun v a => ?_) _)
  rw [performSegs_latched]
  exact (apply_ite (State.latched · l) ..).symm

/-- What a local load issued now will read does not depend on the latch. -/
theorem soon_latched (n : Nat) : soon (s.latched l) n = (soon s n).latched l :=
  foldl_latched s l _ (fun u d => soonClk_latched u l s l n d) _

end

end Sys2Proof.Machine
end

section
/-!
PROOFS. Record mode: a recorded operation performs as unrecorded and stages one entry (O32).
-/

namespace Sys2Proof.Machine

/-! ## A trigger that completes has met nothing (R48) -/

theorem walkIssue_weight (s : State) (n code : Nat) (v : Word) : (walkIssue s n code v).iss.weight = s.iss.weight := by
  have hskip (u : State) : (skipBundle u n).iss.weight = u.iss.weight := rfl
  unfold walkIssue
  dsimp only
  split
  · split <;> simp only [State.updCtx_iss, hskip, walkCtx_iss, freezeCtx_iss]
  · split
    · rfl
    · split
      · simp only [killKernel_iss, endWork_iss, bbAddL_iss]
      · split <;> simp only [killKernel_iss, endWork_iss, bbAddL_iss, hskip, State.updCtx_iss]

theorem takeTrap_weight (s : State) (n code : Nat) (v : Word) : (takeTrap s n code v).iss.weight = s.iss.weight := by
  unfold takeTrap
  split
  · rw [endMember_iss]
  · split
    · exact congrArg Latch.weight (capture_iss s n)
    · exact walkIssue_weight s n code v

/-- What a bundle meets charges nothing. -/
theorem raiseNote_weight (s : State) (x : Note) : (raiseNote s x).iss.weight = s.iss.weight := by
  cases x with
  | trap r code v => exact takeTrap_weight _ _ _ _
  | quiet => rfl
  | block => rfl
  | hold ev => rfl

/-- A ready trigger that is charged has met nothing. -/
theorem quiet_of_charged {s t : State} {fu port int w : Nat} {cb : Bool} {blk chk : List Note} {g : BitVec 4}
    {src : BitVec 9} {eff : Val → State → State} (hr : Ready s fu port cb g src)
    (ht : trigger fu port int w cb blk chk g src eff s = .next t) (hw : 0 < w)
    (hd : t.iss.weight = s.iss.weight + w) : firstNote (blk ++ chk) = .quiet := by
  by_contra hq
  have hmet := trigger_met s fu port int w cb blk chk g src eff hr _ hq rfl
  have hweight : t.iss.weight = s.iss.weight := by
    rw [← Host.Outcome.next.inj (hmet.symm.trans ht), raiseNote_weight]
  omega

/-! ## The bundle as it would be unrecorded (R242) -/

/-- The state whose bundle issues with record mode off. -/
def unrecorded (s : State) : State :=
  s.latched { s.iss with ctx := { s.iss.ctx with ctl := { s.iss.ctx.ctl with bsRec := false } } }

theorem recOn_unrecorded (s : State) : recOn (unrecorded s) = false := rfl

theorem Ready.unrecorded {s : State} {fu port : Nat} {cb : Bool} {g : BitVec 4} {src : BitVec 9}
    (h : Ready s fu port cb g src) : Ready (unrecorded s) fu port cb g src := by
  obtain ⟨hguard, hallowed, hidle, halone, hsource⟩ := h
  exact ⟨hguard, hallowed, hidle, halone, hsource⟩

/-! ## What an entry keeps of its operands (R244, R246, R247) -/

/-- Slots of the image of a scalar or a row. -/
def rowSlots : Val → Nat
  | .s _ => 1
  | _ => 4

theorem imgSlots_scalar (w : Word) : imgSlots (.s w) = 1 := by norm_num [imgSlots, imgLen]
theorem imgSlots_row (r : Row) : imgSlots (.r r) = 4 := by norm_num [imgSlots, imgLen]

/-- Operand k as it is recorded: whether its adjoint reads it, and where it does its image and its tag. -/
structure Recorded (reads : List Nat) (tag : Nat → Tag) (img : Nat → Val) (k : Nat) (o : Opnd) : Prop where
  used : o.used = decide (k ∈ reads)
  tagOk : o.tagOk = true
  noRefer : o.noRefer = false
  range : o.range = 0
  val : k ∈ reads → o.val = img k
  slots : k ∈ reads → o.slots = rowSlots (img k)
  tag : k ∈ reads → k ≠ 3 → o.tag = tag k

/-- The image of operand k of a one-row operation whose result is `v`. -/
def opndImg (s : State) (src : BitVec 9) (fu : Nat) (v : Val) (k : Nat) : Val :=
  if k = 2 then (if (readCode s src).kind = .s then readCode s src else .r (readCode s src).row)
  else if k = 3 then v
  else match KMap.get none s.iss.ctx.portSk (4 * fu + k) with
    | some u => .s u
    | none => .r (s.iss.ctx.portR fu k)

/-- The tag of operand k of a one-row operation. -/
def opndTag (s : State) (src : BitVec 9) (fu k : Nat) : Tag :=
  if k = 2 then codeTag s src 0 else s.iss.ctx.regs.tag (portTag fu k 0)

section
variable {s : State} {src : BitVec 9} {fu : Nat} {v : Val} {reads : List Nat}

theorem recorded_none {tag : Nat → Tag} {img : Nat → Val} {k : Nat} (h : k ∉ reads) : Recorded reads tag img k Opnd.none :=
  ⟨(decide_eq_false h).symm, rfl, rfl, rfl, fun hk => absurd hk h, fun hk => absurd hk h, fun hk => absurd hk h⟩

theorem recorded_port {k : Nat} {used : Bool} (hu : used = decide (k ∈ reads)) (h2 : k ≠ 2) (h3 : k ≠ 3) :
    Recorded reads (opndTag s src fu) (opndImg s src fu v) k (portOpnd s used fu k) := by
  have himg : (portOpnd s used fu k).val = opndImg s src fu v k := by
    rw [opndImg, if_neg h2, if_neg h3]
    rfl
  refine ⟨hu, rfl, rfl, rfl, fun _ => himg, fun _ => ?_, fun _ _ => (if_neg h2).symm⟩
  rw [← himg, portOpnd]
  dsimp only
  split
  · exact imgSlots_scalar _
  · exact imgSlots_row _

theorem recorded_row {used : Bool} (hu : used = decide (2 ∈ reads)) :
    Recorded reads (opndTag s src fu) (opndImg s src fu v) 2 (rowOpnd s used src) := by
  refine ⟨hu, rfl, rfl, rfl, fun _ => rfl, fun _ => ?_, fun _ _ => rfl⟩
  rw [opndImg, if_pos rfl, rowOpnd]
  dsimp only
  cases readCode s src with
  | s w => exact imgSlots_scalar w
  | r r => exact imgSlots_row r
  | t t => exact imgSlots_row (Val.t t).row

theorem recorded_result {used : Bool} (hu : used = decide (3 ∈ reads)) (r : Row) :
    Recorded reads (opndTag s src fu) (opndImg s src fu (.r r)) 3 (resOpnd used (.r r)) :=
  ⟨hu, rfl, rfl, rfl, fun _ => rfl, fun _ => imgSlots_row r, fun _ h => absurd rfl h⟩

/-- The operands of a one-row operation: its port 0, what it takes in the place of its port 1, T, and its result. -/
def rowOpnds (s : State) (src : BitVec 9) (fu : Nat) (ua : Bool) (b : Opnd) (ut : Bool) (y : Opnd) : Nat → Opnd
  | 0 => portOpnd s ua fu 0
  | 1 => b
  | 2 => rowOpnd s ut src
  | _ => y

theorem recorded_rowOpnds {b y : Opnd} {ua ut : Bool} (hua : ua = decide (0 ∈ reads)) (hut : ut = decide (2 ∈ reads))
    (hb : Recorded reads (opndTag s src fu) (opndImg s src fu v) 1 b)
    (hy : Recorded reads (opndTag s src fu) (opndImg s src fu v) 3 y) (k : Nat) (hk : k < 4) :
    Recorded reads (opndTag s src fu) (opndImg s src fu v) k
      (rowOpnds s src fu ua b ut y k) := by
  match k, hk with
  | 0, _ => exact recorded_port hua (by norm_num) (by norm_num)
  | 1, _ => exact hb
  | 2, _ => exact recorded_row hut
  | 3, _ => exact hy

end

/-! ## The entry of a one-row operation (R246, R247) -/

/-- A recorded one-row operation with its four operands. -/
def rowOp (fu port : Nat) (scw : Word) (o : Nat → Opnd) : RecOp :=
  { fu := fu, port := port, kind := 1, rout := 0, extra := 0, oneRow := true, scw := scw, ops := [o 0, o 1, o 2, o 3] }

/-- Slots of the image of operand k. -/
def entrySlots (fw : Word) (reads : List Nat) (img : Nat → Val) (k : Nat) : Nat :=
  if k ∈ reads then (match fw.toNat / 4 ^ k % 4 with | 0 => rowSlots (img k) | 1 => 1 | _ => 0) else 0

/-- Slots of the entry. -/
def entryLen (fw : Word) (reads : List Nat) (img : Nat → Val) : Nat :=
  1 + entrySlots fw reads img 0 + entrySlots fw reads img 1 + entrySlots fw reads img 2 + entrySlots fw reads img 3

/-- The flag of operand k that its header holds. -/
def entryFlag (fw : Word) (reads : List Nat) (k : Nat) : Nat := if k ∈ reads then fw.toNat / 4 ^ k % 4 else 3

/-- A flag of operand k that may be recorded (R244, R245). -/
def FlagOk (b : Baste) (reads : List Nat) (tag : Nat → Tag) (k : Nat) : Prop :=
  k ∈ reads → b.fw.toNat / 4 ^ k % 4 ≠ 3 ∧ (b.fw.toNat / 4 ^ k % 4 = 1 → k ≠ 3 →
    (tag k).toNat / 256 ≠ 0 ∧ ∃ p ∈ b.prods, p.1.toNat = (tag k).toNat / 256)

section
variable {fw : Word} {b : Baste} {reads : List Nat} {tag : Nat → Tag} {img : Nat → Val} {k : Nat} {x : Opnd}

theorem opndFlag_eq (h : Recorded reads tag img k x) (fw : Word) : opndFlag fw k x = entryFlag fw reads k := by
  rw [opndFlag, entryFlag, h.used, fwFlag_eq]
  simp only [decide_eq_true_eq]

theorem opndSlots_eq (h : Recorded reads tag img k x) (fw : Word) : opndSlots fw k x = entrySlots fw reads img k := by
  rw [opndSlots, opndFlag_eq h, entryFlag, entrySlots]
  by_cases hk : k ∈ reads
  · rw [if_pos hk, if_pos hk, h.slots hk] <;> rfl
  · rw [if_neg hk, if_neg hk] <;> rfl

/-- The GID of a tag names a producer of the context (R239). -/
theorem producerOf_isNone (b : Baste) (t : Tag) : (producerOf b (fld (t.setWidth 64) 8 12)).isNone = false ↔
    t.toNat / 256 ≠ 0 ∧ ∃ p ∈ b.prods, p.1.toNat = t.toNat / 256 := by
  have hgid : fld (t.setWidth 64) 8 12 = t.toNat / 256 := by
    rw [fld_eq, BitVec.toNat_setWidth]
    have := t.isLt
    omega
  rw [hgid, producerOf]
  split
  · next h => simp [h]
  · next h => simp [h, ← Option.not_isSome]

theorem flagBad_iff (h : Recorded reads tag img k x) : flagBad b k x = false ↔ FlagOk b reads tag k := by
  rw [flagBad, FlagOk, h.used, h.noRefer, h.range, fwFlag_eq]
  by_cases hk : k ∈ reads
  · have hlt : b.fw.toNat / 4 ^ k % 4 < 4 := Nat.mod_lt _ (by norm_num)
    rw [decide_eq_true hk, Bool.true_and]
    generalize b.fw.toNat / 4 ^ k % 4 = f at hlt
    match f, hlt with
    | 0, _ | 2, _ | 3, _ => simp [hk]
    | 1, _ =>
      by_cases h3 : k = 3
      · simp [h3]
      · have hprod := producerOf_isNone b (tag k)
        rw [← h.tag hk h3] at hprod ⊢
        simp [hk, h3, hprod, -Option.isNone_eq_false_iff]
  · simp [hk]

end

/-! ## What refuses a recorded operation (R242, R244, R249) -/

/-- The first operand with a property is that of the list of their numbers. -/
theorem firstOpnd_range' (p : Nat → Opnd → Bool) (o : Nat → Opnd) (i n : Nat) :
    firstOpnd p i ((List.range' i n).map o) = (List.range' i n).find? fun k => p k (o k) := by
  induction n generalizing i with
  | zero => rfl
  | succ n ih =>
    rw [List.range'_succ, List.map_cons, firstOpnd, List.find?_cons, ih]
    cases p i (o i) <;> rfl

theorem firstOpnd_four (p : Nat → Opnd → Bool) (o : Nat → Opnd) :
    firstOpnd p 0 [o 0, o 1, o 2, o 3] = (List.range' 0 4).find? fun k => p k (o k) := firstOpnd_range' p o 0 4

/-- The core's staging buffer has room for n slots of an entry, or is empty (R242; log 51). -/
def StagingFits (s : State) (n : Nat) : Prop :=
  s.iss.core.staged = 0 ∨ (s.core (coreOf s.iss.n)).staged + 64 * n ≤ 16384

section
variable {s : State} {r : RecOp}

theorem recHold_quiet (hrec : recOn s = true) (hl : (s.ctx s.iss.n).baste.lrdy = true)
    (hf : StagingFits s (r.len (s.ctx s.iss.n).baste.fw)) : recHold s r = .quiet := by
  have hroom : decide (s.iss.core.staged ≠ 0 ∧
      16384 < (s.core (coreOf s.iss.n)).staged + 64 * r.len (s.ctx s.iss.n).baste.fw) = false := by
    rw [decide_eq_false_iff_not]
    rintro ⟨h0, hfull⟩
    rcases hf with hf | hf <;> omega
  simp only [recHold, hrec, hl, hroom]
  rfl

theorem recHold_holds (hrec : recOn s = true)
    (h : (s.ctx s.iss.n).baste.lrdy = false ∨ ¬StagingFits s (r.len (s.ctx s.iss.n).baste.fw)) :
    recHold s r = .hold 7 := by
  have hfull : (!(s.ctx s.iss.n).baste.lrdy || decide (s.iss.core.staged ≠ 0 ∧
      16384 < (s.core (coreOf s.iss.n)).staged + 64 * r.len (s.ctx s.iss.n).baste.fw)) = true := by
    rcases h with h | h
    · rw [h]; rfl
    · rw [Bool.or_eq_true, decide_eq_true_eq]
      exact .inr ⟨fun h0 => h (.inl h0), Nat.lt_of_not_le fun hle => h (.inr hle)⟩
  simp only [recHold, hrec, hfull]
  rfl

end

section
variable {s : State} {fu port : Nat} {scw : Word} {reads : List Nat} {tag : Nat → Tag} {img : Nat → Val} {o : Nat → Opnd}

theorem len_rowOp (ho : ∀ k, k < 4 → Recorded reads tag img k (o k)) (fw : Word) :
    (rowOp fu port scw o).len fw = entryLen fw reads img := by
  rw [entryLen, ← opndSlots_eq (ho 0 (by norm_num)), ← opndSlots_eq (ho 1 (by norm_num)),
    ← opndSlots_eq (ho 2 (by norm_num)), ← opndSlots_eq (ho 3 (by norm_num))]
  simp only [RecOp.len, rowOp, opndSum, zero_add, Nat.reduceAdd]
  omega

/-- Every operand of a one-row operation has a tag. -/
theorem firstOpnd_tagOk (ho : ∀ k, k < 4 → Recorded reads tag img k (o k)) :
    firstOpnd (fun _ x => !x.tagOk) 0 (rowOp fu port scw o).ops = none := by
  refine (firstOpnd_four _ o).trans ?_
  simp only [List.find?_eq_none, List.mem_range'_1, Nat.zero_le, true_and, zero_add]
  intro k hk
  rw [(ho k hk).tagOk]
  exact Bool.false_ne_true

/-- The first operand whose flag is refused is trapped (R244). -/
theorem recTrap_flag (hrec : recOn s = true) (ho : ∀ k, k < 4 → Recorded reads tag img k (o k)) {k : Nat} (hk : k < 4)
    (hbefore : ∀ j, j < k → FlagOk (s.ctx s.iss.n).baste reads tag j) (hbad : ¬FlagOk (s.ctx s.iss.n).baste reads tag k) :
    recTrap s (rowOp fu port scw o) = .trap 5 0x16 (w64 k) := by
  have hfirst : firstOpnd (flagBad (s.ctx s.iss.n).baste) 0 (rowOp fu port scw o).ops = some k := by
    refine (firstOpnd_four _ o).trans (List.find?_range'_eq_some.2 ⟨?_, ?_, fun j _ hj => ?_⟩)
    · rw [← Bool.not_eq_false, flagBad_iff (ho k hk)]
      exact hbad
    · exact List.mem_range'_1.2 ⟨Nat.zero_le k, by omega⟩
    · rw [(flagBad_iff (ho j (hj.trans hk))).2 (hbefore j hj)]
      rfl
  simp only [recTrap, hrec, firstOpnd_tagOk ho, hfirst]
  rfl

/-- With flags that may be recorded a full log is trapped (R249). -/
theorem recTrap_flagsOk (hrec : recOn s = true) (ho : ∀ k, k < 4 → Recorded reads tag img k (o k))
    (hok : ∀ k, k < 4 → FlagOk (s.ctx s.iss.n).baste reads tag k) : recTrap s (rowOp fu port scw o) =
      if (s.ctx s.iss.n).baste.llim.toNat <
          logNext (s.ctx s.iss.n).baste + entryLen (s.ctx s.iss.n).baste.fw reads img then
        .trap 5 0x18 (w64 (logNext (s.ctx s.iss.n).baste + entryLen (s.ctx s.iss.n).baste.fw reads img))
      else .quiet := by
  have hfirst : firstOpnd (flagBad (s.ctx s.iss.n).baste) 0 (rowOp fu port scw o).ops = none := by
    refine (firstOpnd_four _ o).trans ?_
    simp only [List.find?_eq_none, List.mem_range'_1, Nat.zero_le, true_and, zero_add]
    intro k hk
    rw [(flagBad_iff (ho k hk)).2 (hok k hk)]
    exact Bool.false_ne_true
  simp only [recTrap, hrec, firstOpnd_tagOk ho, hfirst, len_rowOp ho, trapIf, decide_eq_true_eq]
  rfl

end

/-! ## The staged entry (R242, R246) -/

/-- The entry that a recorded operation stages. -/
def entryOf (b : Baste) (r : RecOp) (id : Nat) (fmt : Word) : Stage :=
  { id := id, hdr := recHeader b r fmt
    imgs := (recImages b (logNext b + r.len b.fw - 1) 0 r.ops).filter fun p => r.kind ≠ 2 || 20 ≤ p.1
    raws := r.raws, missing := r.missing b.fw, len := r.len b.fw, held := false }

/-- The images of the operands that are saved are listed under their numbers. -/
theorem mem_recImages (b : Baste) (hs : Nat) (o : Nat → Opnd) (i n k : Nat) (hi : i ≤ k) (hk : k < i + n)
    (hf : opndFlag b.fw k (o k) = 0) : (k, (o k).val) ∈ recImages b hs i ((List.range' i n).map o) := by
  induction n generalizing i with
  | zero => omega
  | succ n ih =>
    rw [List.range'_succ, List.map_cons, recImages, List.mem_append]
    rcases Nat.eq_or_lt_of_le hi with rfl | hlt
    · left
      rw [hf]
      exact List.mem_singleton.2 rfl
    · exact .inr (ih (i + 1) hlt (by omega))

section
variable {b : Baste} {fu port id : Nat} {scw fmt : Word} {reads : List Nat} {tag : Nat → Tag} {img : Nat → Val}
  {o : Nat → Opnd}

/-- The first header word of a one-row operation's entry (R246). -/
def headWord (fw : Word) (fu port : Nat) (reads : List Nat) (img : Nat → Val) : Word :=
  w64 (1 + fu * 2 ^ 4 + port * 2 ^ 9 + fw.toNat / 2 ^ 22 % 2 ^ 8 * 2 ^ 15 +
    (entryFlag fw reads 0 + 4 * entryFlag fw reads 1 + 16 * entryFlag fw reads 2 + 64 * entryFlag fw reads 3) * 2 ^ 24 +
    entryLen fw reads img * 2 ^ 32 + fw.toNat / 2 ^ 10 % 2 ^ 12 * 2 ^ 44)

theorem head_entryOf (ho : ∀ k, k < 4 → Recorded reads tag img k (o k)) :
    (entryOf b (rowOp fu port scw o) id fmt).hdr[0]? = some (headWord b.fw fu port reads img) := by
  have hflags : opndSum (fun i x => opndFlag b.fw i x * 4 ^ i) 0 [o 0, o 1, o 2, o 3] =
      entryFlag b.fw reads 0 + 4 * entryFlag b.fw reads 1 + 16 * entryFlag b.fw reads 2 + 64 * entryFlag b.fw reads 3 := by
    simp only [opndSum, opndFlag_eq (ho 0 (by norm_num)), opndFlag_eq (ho 1 (by norm_num)),
      opndFlag_eq (ho 2 (by norm_num)), opndFlag_eq (ho 3 (by norm_num))]
    omega
  rw [headWord, ← hflags, ← len_rowOp (fu := fu) (port := port) (scw := scw) ho, ← fwRrow_eq, ← fwRgid_eq]
  rfl

theorem missing_rowOp (ho : ∀ k, k < 4 → Recorded reads tag img k (o k)) (fw : Word) :
    (rowOp fu port scw o).missing fw =
      if 3 ∈ reads ∧ (fw.toNat / 4 ^ 3 % 4 = 0 ∨ fw.toNat / 4 ^ 3 % 4 = 2) then 1 else 0 := by
  have hfirst (q : Nat → Opnd → Bool) : firstOpnd (fun i x => decide (i = 3) && q i x) 0 [o 0, o 1, o 2, o 3] =
      if q 3 (o 3) = true then some 3 else none := by
    simp [firstOpnd]
  have hkind : (rowOp fu port scw o).kind = 1 := rfl
  have hrow : (rowOp fu port scw o).oneRow = true := rfl
  have hops : (rowOp fu port scw o).ops = [o 0, o 1, o 2, o 3] := rfl
  rw [RecOp.missing, hkind, hrow, hops]
  simp only [hfirst, opndFlag_eq (ho 3 (by norm_num)), entryFlag]
  by_cases h : 3 ∈ reads <;> simp [h]

theorem mem_imgs_entryOf (ho : ∀ k, k < 4 → Recorded reads tag img k (o k)) {k : Nat} (hk : k < 4) (hr : k ∈ reads)
    (hf : b.fw.toNat / 4 ^ k % 4 = 0) : (k, img k) ∈ (entryOf b (rowOp fu port scw o) id fmt).imgs := by
  have hflag : opndFlag b.fw k (o k) = 0 := by rw [opndFlag_eq (ho k hk), entryFlag, if_pos hr, hf]
  rw [← (ho k hk).val hr]
  exact List.mem_filter.2 ⟨mem_recImages b _ o 0 4 k (Nat.zero_le k) (by omega) hflag, rfl⟩

end

/-! ## Staging (R239, R242, R243) -/

/-- A context that has staged the entry `st` of the operation `r`; `b` is what its unit held. -/
def stagedCtx (b : Baste) (r : RecOp) (st : Stage) (c : Ctx) : Ctx :=
  { c with baste := { c.baste with
      fw := nextFw b.fw r.oneRow
      prods := if fwRgid b.fw = 0 then b.prods else
        (b.prods ++ [(BitVec.ofNat 12 (fwRgid b.fw), BitVec.ofNat 40 (logNext b + r.len b.fw - 1))]).drop
          (b.prods.length + 1 - 16)
      stages := b.stages ++ [st] } }

/-- A context that has staged the entry of an operation and has its result in flight. -/
def recordedCtx (s : State) (fu lat id : Nat) (v : Val) (flg : Flg) (r : RecOp) (c : Ctx) : Ctx :=
  let b := (s.ctx s.iss.n).baste
  (stagedCtx b r (entryOf b r id s.iss.ctx.inf.fmtEff) c).fly lat fu id (.entry v) flg (recTag s)

/-- A core whose staging buffer has taken n more slots. -/
def stagedCore (n : Nat) (k : Core) : Core := { k with staged := k.staged + 64 * n }

theorem recStage_of_on {s : State} (r : RecOp) (id : Nat) (fmt : Word) (h : recOn s = true) : recStage s r id fmt =
    (s.updCtx s.iss.n (stagedCtx (s.ctx s.iss.n).baste r (entryOf (s.ctx s.iss.n).baste r id fmt))).updCore
      (coreOf s.iss.n) (stagedCore (r.len (s.ctx s.iss.n).baste.fw)) := by
  unfold recStage
  rw [h]
  rfl

theorem landTile_of_on {s : State} (fu lat : Nat) (v : Val) (flg : Flg) (r : RecOp) (h : recOn s = true) :
    landTile s fu lat v flg r = ((s.ser (s.serial + 1)).updCtx s.iss.n (recordedCtx s fu lat s.serial v flg r)).updCore
      (coreOf s.iss.n) (stagedCore (r.len (s.ctx s.iss.n).baste.fw)) := by
  have hs : recOn (fresh s).2 = true := h
  unfold landTile
  dsimp only
  rw [recStage_of_on r _ _ hs]
  refine (updCore_updCtx _ _ _ _ _).trans (congrArg (State.updCore · _ _) (State.updCtx_updCtx _ _ _ _))

/-- What an operation does besides, once it is charged: it takes d serial numbers and changes its context as `more` says, which
leaves what is in flight and the unit BL. -/
structure Besides (s : State) (src : BitVec 9) (w d : Nat) (act : State → State) (more : Ctx → Ctx) : Prop where
  serial : (act (charge (consume s src) w)).serial = s.serial + d
  n : (act (charge (consume s src) w)).iss.n = s.iss.n
  latch : (act (charge (consume s src) w)).iss.ctx = s.iss.ctx
  ctx : (act (charge (consume s src) w)).ctx s.iss.n = more (sourced s src)
  inf : ∀ c, (more c).inf = c.inf
  baste : ∀ c, (more c).baste = c.baste
  then_ : ∀ k f, ((act (charge (consume s src) w)).ser k).updCtx s.iss.n f =
    ((charge (consume s src) w).ser k).updCtx s.iss.n fun c => f (more c)

theorem ctx_charged (s : State) (src : BitVec 9) (w : Nat) : (charge (consume s src) w).ctx s.iss.n = sourced s src :=
  (ctx_charge (consume s src) w s.iss.n).trans (ctx_consume s src)

theorem latchCtx_charged (s : State) (src : BitVec 9) (w : Nat) : (charge (consume s src) w).iss.ctx = s.iss.ctx := by simp

theorem sourced_baste (s : State) (src : BitVec 9) : (sourced s src).baste = (s.ctx s.iss.n).baste := by rw [sourced_eq]

theorem besides_nothing (s : State) (src : BitVec 9) (w : Nat) : Besides s src w 0 id id :=
  ⟨charged_serial s src w, charged_n s src w, latchCtx_charged s src w, ctx_charged s src w, fun _ => rfl, fun _ => rfl, fun _ _ => rfl⟩

theorem besides_reads (s : State) (src : BitVec 9) (w : Nat) (rs : List (Nat × Nat)) :
    Besides s src w 1 (readsNow · rs) (addAccs [bankClaim s rs]) := by
  refine ⟨?_, ?_, ?_, ?_, fun _ => rfl, fun _ => rfl, fun k f => ?_⟩
  · rw [readsNow_charged]
    rfl
  · rw [readsNow_charged]
    exact charged_n s src w
  · rw [readsNow_charged]
    exact latchCtx_charged s src w
  · rw [readsNow_charged, State.ctx_updCtx]
    exact congrArg (addAccs _) (ctx_charged s src w)
  · rw [readsNow_charged]
    exact State.updCtx_updCtx ((charge (consume s src) w).ser k) _ _ _

/-! ## A one-row operation (R240, R242) -/

/-- A one-row operation of a tile unit: its own checks, its result, what is recorded of it, and what it does besides. -/
def rowTrigger (fu port lat w : Nat) (chk : List Note) (v : Val) (flg : Flg) (r : RecOp) (act : State → State)
    (g : BitVec 4) (src : BitVec 9) (s : State) : Out :=
  trigger fu port 1 w false [recHold s r] (chk ++ [recTrap s r]) g src (fun _ t => landTile (act t) fu lat v flg r) s

section
variable {s : State} {i : Instr} {fu port lat w d : Nat} {chk : List Note} {g : BitVec 4} {src : BitVec 9} {v : Val}
  {flg : Flg} {r : RecOp} {act : State → State} {more : Ctx → Ctx}

/-- Where nothing is recorded its result lands. -/
theorem rowTrigger_lands (hrec : recOn s = false) (hi : exec i s = rowTrigger fu port lat w chk v flg r act g src s)
    (hb : Besides s src w d act more) (hc : firstNote chk = .quiet) :
    Completes s i fu port 1 w false g src fun c => landing (s.ser (s.serial + d)) lat fu v flg (more c) := by
  refine completes s i fu port 1 w (s.serial + d + 1) _ _ _ g src _ _ hi (firstNote_recHold_of_off s r hrec)
    ((firstNote_recTrap_of_off s r hrec _).trans hc) ?_
  have hoff : recOn (act (charge (consume s src) w)) = false := by
    rw [← hrec, recOn, recOn, hb.latch]
  have hfly (u : State) : flyNew u lat fu v flg 0 =
      (u.ser (u.serial + 1)).updCtx u.iss.n (landing (s.ser u.serial) lat fu v flg) := rfl
  rw [landTile_of_off _ _ _ _ _ _ hoff, hfly, hb.serial, hb.n]
  exact hb.then_ _ _

/-- Two results in flight are one where they leave one context. -/
theorem landing_inj {u u' : State} {v' : Val} {flg' : Flg} {c : Ctx}
    (h : (landing u lat fu v flg c).hold fu port 1 = (landing u' lat fu v' flg' c).hold fu port 1) :
    v = v' ∧ flg = flg' := by
  have hfl := congrArg (fun c : Ctx => c.inf.flights) h
  obtain ⟨_, hlast⟩ := List.append_inj' (show c.inf.flights ++ [_] = c.inf.flights ++ [_] from hfl) rfl
  simp only [List.cons.injEq, Flight.mk.injEq, Landing.entry.injEq, and_true, true_and] at hlast
  exact ⟨hlast.2.1, hlast.2.2⟩

/-- What a ready operation lands where nothing is recorded is its result, and its own checks meet nothing. -/
theorem landed_eq {v' : Val} {flg' : Flg} (hrec : recOn s = false)
    (hi : exec i s = rowTrigger fu port lat w chk v flg r act g src s) (hb : Besides s src w d act more) (hw : 0 < w)
    (hr : Ready s fu port false g src)
    (hv : Completes s i fu port 1 w false g src fun c => landing (s.ser (s.serial + d)) lat fu v' flg' (more c)) :
    firstNote chk = .quiet ∧ v' = v ∧ flg' = flg := by
  obtain ⟨t, ht, hdid⟩ := hv hr
  have hquiet : firstNote chk = .quiet := by
    have h := quiet_of_charged hr (hi.symm.trans ht) hw (by rw [hdid.iss])
    rwa [recHold_of_off s r hrec, List.cons_append, List.nil_append, firstNote, firstNote_recTrap_of_off s r hrec] at h
  obtain ⟨t', ht', hdid'⟩ := rowTrigger_lands hrec hi hb hquiet hr
  obtain rfl := Host.Outcome.next.inj (ht.symm.trans ht')
  exact ⟨hquiet, landing_inj (hdid.ctx.symm.trans hdid'.ctx)⟩

/-- An operation that meets a hold is held. -/
theorem rowTrigger_held (hi : exec i s = rowTrigger fu port lat w chk v flg r act g src s)
    (hr : Ready s fu port false g src) (hhold : recHold s r = .hold 7) :
    exec i s = .next (raiseNote { s with free := s.free + 1 } (.hold 7)) := by
  refine hi.trans (trigger_met s fu port 1 w false _ _ g src _ hr _ (by simp) ?_)
  rw [hhold]
  rfl

/-- One whose recording alone is refused raises that. -/
theorem rowTrigger_traps {code : Nat} {x : Word} (hi : exec i s = rowTrigger fu port lat w chk v flg r act g src s)
    (hr : Ready s fu port false g src) (hc : firstNote chk = .quiet) (hhold : recHold s r = .quiet)
    (htrap : recTrap s r = .trap 5 code x) : Traps s i code x := by
  refine traps s i fu port 1 w false _ _ g src _ 5 code x hi hr ?_
  rw [hhold, List.cons_append, List.nil_append, firstNote, firstNote_append _ _ hc, htrap]
  rfl

/-- A context with the result of a one-row operation in flight and its entry staged. -/
def rowRecorded (s : State) (fu lat id len : Nat) (v : Val) (flg : Flg) (st : Stage) (fw : Word) (more : Ctx → Ctx)
    (c : Ctx) : Ctx :=
  let b := (s.ctx s.iss.n).baste
  { more c with
    inf := { c.inf with flights := c.inf.flights ++ [⟨lat, fu, id, .entry v, flg,
      BitVec.ofNat 21 (2 ^ 20 + 256 * (b.fw.toNat / 2 ^ 10 % 2 ^ 12) + b.fw.toNat / 2 ^ 22 % 2 ^ 8), false⟩] }
    baste := { c.baste with
      fw := fw
      stages := c.baste.stages ++ [st]
      prods := if b.fw.toNat / 2 ^ 10 % 2 ^ 12 = 0 then c.baste.prods else
        (c.baste.prods ++ [(BitVec.ofNat 12 (b.fw.toNat / 2 ^ 10 % 2 ^ 12), BitVec.ofNat 40 (logNext b + len - 1))]).drop
          (c.baste.prods.length + 1 - 16) } }

/-- A completion depends on what it does to the context that has read its source. -/
theorem completesCore_congr {int : Nat} {cb : Bool} {f f' : Ctx → Ctx} {k : Core → Core}
    (h : f (sourced s src) = f' (sourced s src)) (hf : CompletesCore s i fu port int w cb g src f k) :
    CompletesCore s i fu port int w cb g src f' k := by
  rwa [CompletesCore, h] at hf

theorem completesCore_of_ready {int : Nat} {cb : Bool} {f : Ctx → Ctx} {k : Core → Core}
    (h : Ready s fu port cb g src → CompletesCore s i fu port int w cb g src f k) :
    CompletesCore s i fu port int w cb g src f k := fun hr => h hr hr

theorem recordedCtx_eq (hrec : recOn s = true) (hb : Besides s src w d act more) (id : Nat) :
    recordedCtx s fu lat id v flg r (more (sourced s src)) =
      rowRecorded s fu lat id (r.len (s.ctx s.iss.n).baste.fw) v flg
        (entryOf (s.ctx s.iss.n).baste r id s.iss.ctx.inf.fmtEff) (nextFw (s.ctx s.iss.n).baste.fw r.oneRow) more
        (sourced s src) := by
  have hbaste := sourced_baste s src
  have hinf := hb.inf (sourced s src)
  have hmore := hb.baste (sourced s src)
  unfold rowRecorded recordedCtx stagedCtx Ctx.fly Ctx.updInf
  dsimp only
  rw [hmore, hinf, hbaste, recTag_eq s hrec, fwRgid_eq, fwRrow_eq]

/-- A recorded operation that meets nothing completes as unrecorded, and stages its entry. -/
theorem rowTrigger_records (hrec : recOn s = true) (hi : exec i s = rowTrigger fu port lat w chk v flg r act g src s)
    (hb : Besides s src w d act more) (hc : firstNote chk = .quiet) (hhold : recHold s r = .quiet)
    (htrap : recTrap s r = .quiet) :
    CompletesCore s i fu port 1 w false g src
      (rowRecorded s fu lat (s.serial + d) (r.len (s.ctx s.iss.n).baste.fw) v flg
        (entryOf (s.ctx s.iss.n).baste r (s.serial + d) s.iss.ctx.inf.fmtEff)
        (nextFw (s.ctx s.iss.n).baste.fw r.oneRow) more)
      (stagedCore (r.len (s.ctx s.iss.n).baste.fw)) := by
  refine completesCore_congr (f := fun c => recordedCtx s fu lat (s.serial + d) v flg r (more c))
    (recordedCtx_eq hrec hb (s.serial + d)) ?_
  refine completesCore s i fu port 1 w (s.serial + d + 1) _ _ _ g src _ _ _ hi ?_ ?_ ?_
  · rw [hhold]
    rfl
  · rw [firstNote_append _ _ hc, htrap]
    rfl
  · have hon : recOn (act (charge (consume s src) w)) = true := by rw [← hrec, recOn, recOn, hb.latch]
    have hbaste : ((act (charge (consume s src) w)).ctx s.iss.n).baste = (s.ctx s.iss.n).baste := by
      rw [hb.ctx, hb.baste, sourced_baste]
    have htag : recTag (act (charge (consume s src) w)) = recTag s := by
      rw [recTag, recTag, hon, hrec, hb.n, hbaste]
    have hctx : recordedCtx (act (charge (consume s src) w)) fu lat (s.serial + d) v flg r =
        recordedCtx s fu lat (s.serial + d) v flg r := by
      funext c
      rw [recordedCtx, recordedCtx, htag, hb.n, hbaste, hb.latch]
    rw [landTile_of_on _ _ _ _ _ hon, hb.serial, hctx, hb.n, hbaste, hb.then_]

end

/-! ## A go move that records a seam mark (R246, R250) -/

/-- The seam mark of a go move: its header holds the command's operands. -/
def seamMark (c : Ctx) (fu port id : Nat) : Stage :=
  ⟨id, [w64 (4 + fu * 2 ^ 4 + port * 2 ^ 9 + 2 ^ 32), 0, 0, 0, c.portW fu 0, c.portW fu 1, c.portW fu 2, c.portW fu 3],
    [], [], 0, 1, false⟩

/-- A context that has staged a mark; its flag word is consumed. -/
def markedCtx (st : Stage) (fw : Word) (c : Ctx) : Ctx :=
  { c with baste := { c.baste with fw := fw, stages := c.baste.stages ++ [st] } }

theorem seamStage_of_off {s : State} (fu port : Nat) (h : recOn s = false) : seamStage s fu port = s := by
  simp [seamStage, h]

theorem seamStage_of_on {s : State} (fu port : Nat) (h : recOn s = true) : seamStage s fu port =
    ((s.ser (s.serial + 1)).updCtx s.iss.n (markedCtx (seamMark s.iss.ctx fu port s.serial)
      (nextFw (s.ctx s.iss.n).baste.fw false))).updCore (coreOf s.iss.n) (stagedCore 1) := by
  unfold seamStage
  rw [h]
  rfl

theorem recTrap_seamOp {s : State} {fu port : Nat} (hrec : recOn s = true)
    (h : logNext (s.ctx s.iss.n).baste + 1 ≤ (s.ctx s.iss.n).baste.llim.toNat) : recTrap s (seamOp fu port) = .quiet := by
  have hroom : decide ((s.ctx s.iss.n).baste.llim.toNat <
      logNext (s.ctx s.iss.n).baste + (seamOp fu port).len (s.ctx s.iss.n).baste.fw) = false :=
    decide_eq_false (Nat.not_lt.2 h)
  have hops : (seamOp fu port).ops = [] := rfl
  simp only [recTrap, hrec, hops, firstOpnd, hroom]
  rfl

/-- What a go move does after its command has entered: `act` takes the serial number of its access, if it has one, and changes
the context as `more` says. -/
structure Then (s : State) (act : State → State) (more : Nat → Ctx → Ctx) : Prop where
  act_updCtx : ∀ (x : State) (f : Ctx → Ctx) (d : Nat), x.iss.n = s.iss.n → x.serial = s.serial + d →
    (f (x.ctx s.iss.n)).ctl = (s.ctx s.iss.n).ctl →
    ∃ k, act (x.updCtx s.iss.n f) = (x.ser k).updCtx s.iss.n fun c => more d (f c)
  inj : ∀ d c c', more d c = more d c' → c = c'
  baste : ∀ d c b, more d { c with baste := b } = { more d c with baste := b } ∧ (more d c).baste = c.baste

theorem then_nothing (s : State) : Then s id fun _ => id :=
  ⟨fun x _ _ _ _ _ => ⟨x.serial, rfl⟩, fun _ _ _ h => h, fun _ _ _ => ⟨rfl, rfl⟩⟩

theorem addAccs_inj (l : List LocalAcc) (c c' : Ctx) (h : addAccs l c = addAccs l c') : c = c' := by
  have haccs : c.accs = c'.accs := List.append_cancel_right (congrArg Ctx.accs h)
  calc c = { addAccs l c with accs := c.accs } := rfl
    _ = { addAccs l c' with accs := c'.accs } := by rw [h, haccs]
    _ = c' := rfl

theorem then_reads (s : State) (rs : List (Nat × Nat)) :
    Then s (readsNow · rs) fun d => addAccs [oneAcc (s.serial + d) 3 0 (rowSegs s s.iss.n rs) 0 .mat false false] := by
  refine ⟨fun x f d hn hd hctl => ⟨x.serial + 1, ?_⟩, fun d => addAccs_inj _, fun _ _ _ => ⟨rfl, rfl⟩⟩
  have hsegs : rowSegs ((x.ser (x.serial + 1)).updCtx s.iss.n f) s.iss.n rs = rowSegs s s.iss.n rs := by
    rw [rowSegs, State.ctx_updCtx, arenaPA_of_ctl (c := f ((x.ser (x.serial + 1)).ctx s.iss.n)) hctl]
    rfl
  rw [show readsNow (x.updCtx s.iss.n f) rs = ((x.ser (x.serial + 1)).updCtx s.iss.n f).updCtx x.iss.n
    (addAccs [oneAcc x.serial 3 0 (rowSegs ((x.ser (x.serial + 1)).updCtx s.iss.n f) x.iss.n rs) 0 .mat false false])
    from rfl, hn, hsegs, hd]
  exact State.updCtx_updCtx _ _ _ _

/-- A go move that records a seam mark: its own checks, its token, how its command is completed, and what follows. -/
def seamTrigger (fu port : Nat) (chk : List Note) (tok : Option Nat) (fix : Val → Cmd → Cmd) (act : State → State)
    (g : BitVec 4) (src : BitVec 9) (s : State) : Out :=
  goMove fu port [recHold s (seamOp fu port)] (chk ++ [recTrap s (seamOp fu port)]) tok fix
    (fun _ t => act (seamStage t fu port)) g src s

section
variable {s : State} {i : Instr} {fu port : Nat} {chk : List Note} {tok : Option Nat} {fix : Val → Cmd → Cmd}
  {g : BitVec 4} {src : BitVec 9} {act : State → State} {more : Nat → Ctx → Ctx}

theorem seamTrigger_eq : seamTrigger fu port chk tok fix act g src s =
    trigger fu port 1 2 true [blockIf (queueFull s.iss.ctx fu), recHold s (seamOp fu port)]
      (chk ++ [recTrap s (seamOp fu port)]) g src
      (enterGo s.iss.ctx fu port tok fix fun _ t => act (seamStage t fu port)) s := rfl

/-- Entering a command leaves the control registers and the unit BL. -/
theorem enter_ctl (c : Ctx) (q : Cmd) (tok : Option Nat) : (c.enter q tok).ctl = c.ctl := by cases tok <;> rfl
theorem enter_baste (c : Ctx) (q : Cmd) (tok : Option Nat) : (c.enter q tok).baste = c.baste := by cases tok <;> rfl

theorem ctl_entered (q : Cmd) : (((charge (consume s src) 2).ctx s.iss.n).enter q tok).ctl = (s.ctx s.iss.n).ctl := by
  rw [enter_ctl, ctx_charged, sourced_ctl]

/-- Where nothing is recorded the command enters. -/
theorem seamTrigger_enters (hrec : recOn s = false) (hi : exec i s = seamTrigger fu port chk tok fix act g src s)
    (ho : QueueOpen s fu) (hb : Then s act more) (hc : firstNote chk = .quiet) :
    Completes s i fu port 1 2 true g src fun c => more 1 (c.enter (fixedCmd s src fu port fix) tok) := by
  obtain ⟨k, hk⟩ := hb.act_updCtx ((charge (consume s src) 2).ser (s.serial + 1))
    (fun c => c.enter (fixedCmd s src fu port fix) tok) 1 (charged_n s src 2) rfl (ctl_entered _)
  refine completes s i fu port 1 2 k _ _ _ g src _ _ (hi.trans seamTrigger_eq) ?_
    ((firstNote_recTrap_of_off s _ hrec _).trans hc) ?_
  · rw [queueFull_of_open ho, recHold_of_off s _ hrec]
    rfl
  · rw [enterGo_eq, seamStage_of_off _ _ ((recOn_enteredState ..).trans hrec)]
    exact hk

/-- What a ready go move enters where nothing is recorded is its command, and its own checks meet nothing. -/
theorem entered_eq {tok' : Option Nat} {q : Cmd} (hrec : recOn s = false)
    (hi : exec i s = seamTrigger fu port chk tok fix act g src s) (ho : QueueOpen s fu) (hb : Then s act more)
    (hr : Ready s fu port true g src)
    (hv : Completes s i fu port 1 2 true g src fun c => more 1 (c.enter q tok')) :
    firstNote chk = .quiet ∧
      (sourced s src).enter q tok' = (sourced s src).enter (fixedCmd s src fu port fix) tok := by
  obtain ⟨t, ht, hdid⟩ := hv hr
  have hquiet : firstNote chk = .quiet := by
    have h := quiet_of_charged hr ((hi.trans seamTrigger_eq).symm.trans ht) (by norm_num) (by rw [hdid.iss])
    rwa [queueFull_of_open ho, recHold_of_off s _ hrec, blockIf, if_neg Bool.false_ne_true, List.cons_append,
      List.cons_append, List.nil_append, firstNote, firstNote, firstNote_recTrap_of_off s _ hrec] at h
  obtain ⟨t', ht', hdid'⟩ := seamTrigger_enters hrec hi ho hb hquiet hr
  obtain rfl := Host.Outcome.next.inj (ht.symm.trans ht')
  exact ⟨hquiet, hb.inj 1 _ _ (hdid.ctx.symm.trans hdid'.ctx)⟩

/-- A go move that meets nothing enters its command and stages its mark. -/
theorem seamTrigger_records (hrec : recOn s = true) (hi : exec i s = seamTrigger fu port chk tok fix act g src s)
    (ho : QueueOpen s fu) (hb : Then s act more) (hc : firstNote chk = .quiet)
    (hhold : recHold s (seamOp fu port) = .quiet) (htrap : recTrap s (seamOp fu port) = .quiet) :
    CompletesCore s i fu port 1 2 true g src
      (fun c => more 2 (markedCtx (seamMark s.iss.ctx fu port (s.serial + 1)) (nextFw (s.ctx s.iss.n).baste.fw false)
        (c.enter (fixedCmd s src fu port fix) tok)))
      (stagedCore 1) := by
  let mark := markedCtx (seamMark s.iss.ctx fu port (s.serial + 1)) (nextFw (s.ctx s.iss.n).baste.fw false)
  let entered := fun c : Ctx => c.enter (fixedCmd s src fu port fix) tok
  have hbaste : ((enteredState s src fu port tok fix).ctx s.iss.n).baste = (s.ctx s.iss.n).baste := by
    rw [ctx_enteredState, enter_baste, sourced_baste]
  have hlatch : (enteredState s src fu port tok fix).iss.ctx = s.iss.ctx := by rw [enteredState_iss]
  have hstage : seamStage (enteredState s src fu port tok fix) fu port =
      (((charge (consume s src) 2).ser (s.serial + 2)).updCore (coreOf s.iss.n) (stagedCore 1)).updCtx s.iss.n
        fun c => mark (entered c) := by
    rw [seamStage_of_on _ _ ((recOn_enteredState ..).trans hrec), enteredState_n, hbaste, hlatch]
    exact congrArg (State.updCore · (coreOf s.iss.n) (stagedCore 1))
      (State.updCtx_updCtx ((charge (consume s src) 2).ser (s.serial + 2)) s.iss.n entered mark)
  have hctl : (mark (entered ((charge (consume s src) 2).ctx s.iss.n))).ctl = (s.ctx s.iss.n).ctl :=
    ctl_entered (fixedCmd s src fu port fix)
  obtain ⟨k, hk⟩ := hb.act_updCtx
    (((charge (consume s src) 2).ser (s.serial + 2)).updCore (coreOf s.iss.n) (stagedCore 1))
    (fun c => mark (entered c)) 2 (charged_n s src 2) rfl hctl
  refine completesCore s i fu port 1 2 k _ _ _ g src _ _ _ (hi.trans seamTrigger_eq) ?_ ?_ ?_
  · rw [queueFull_of_open ho, hhold]
    rfl
  · rw [firstNote_append _ _ hc, htrap]
    rfl
  · rw [enterGo_eq, hstage, hk]
    rfl

/-- A go move that meets a hold is held. -/
theorem seamTrigger_held (hi : exec i s = seamTrigger fu port chk tok fix act g src s) (ho : QueueOpen s fu)
    (hr : Ready s fu port true g src) (hhold : recHold s (seamOp fu port) = .hold 7) :
    exec i s = .next (raiseNote { s with free := s.free + 1 } (.hold 7)) := by
  refine (hi.trans seamTrigger_eq).trans (trigger_met s fu port 1 2 true _ _ g src _ hr _ (by simp) ?_)
  rw [queueFull_of_open ho, hhold]
  rfl

end

end Sys2Proof.Machine
end

section
/-!
PROOFS. Record mode: a recorded operation performs as unrecorded and stages one entry, clause by clause (O32).
-/

namespace Sys2Proof.Machine

/-- Which of the four operands the adjoint of an operation reads (R244). -/
abbrev Uses (reads : List Nat) (ua ub ut uy : Bool) : Prop :=
  (∀ k ∈ reads, k < 4) ∧ ua = decide (0 ∈ reads) ∧ ub = decide (1 ∈ reads) ∧ ut = decide (2 ∈ reads) ∧
    uy = decide (3 ∈ reads)

theorem rdArena_soon_unrecorded (s : State) (n off k : Nat) :
    (soon (unrecorded s) n).rdArena n off k = (soon s n).rdArena n off k := by
  rw [unrecorded, soon_latched]
  rfl

/-! ## Operations read the same whether recorded or not -/

section
variable (s : State) (src : BitVec 9)

theorem rowOpnds_unrecorded (fu : Nat) (ua ut : Bool) (b y : Opnd) :
    rowOpnds (unrecorded s) src fu ua b ut y = rowOpnds s src fu ua b ut y := by
  funext k
  match k with
  | 0 | 1 | 2 | _ + 3 => rfl

end

/-! ## The operations of TA, TX and TS as one-row operations -/

section
variable (s : State) (g : BitVec 4) (src : BitVec 9) (port : Nat)

/-- The row and the flags of a one-row operation of TA. -/
def taResult (f : LaneFn) (fu : Nat) : Row × Flg :=
  laneRow f s.iss.ctx.inf.fmtEff fu 0 (fld (s.iss.ctx.portW fu 2) 0 3) (s.iss.ctx.portR fu 0) (readCode s src).row
    (s.iss.ctx.portR fu 1)

theorem taRow_eq (f : LaneFn) (ua ub ut : Bool) (u : BitVec 1) : taRow port f ua ub ut g u src s =
    rowTrigger (10 + u.toNat) port 4 8 [] (.r (taResult s src f (10 + u.toNat)).1) (taResult s src f (10 + u.toNat)).2
      (rowOp (10 + u.toNat) port (s.iss.ctx.portW (10 + u.toNat) 2)
        (rowOpnds s src (10 + u.toNat) ua (portOpnd s ub (10 + u.toNat) 1) ut Opnd.none)) id g src s := rfl

theorem taRow_unrecorded (f : LaneFn) (ua ub ut : Bool) (u : BitVec 1) : taRow port f ua ub ut g u src (unrecorded s) =
    rowTrigger (10 + u.toNat) port 4 8 [] (.r (taResult s src f (10 + u.toNat)).1) (taResult s src f (10 + u.toNat)).2
      (rowOp (10 + u.toNat) port (s.iss.ctx.portW (10 + u.toNat) 2)
        (rowOpnds s src (10 + u.toNat) ua (portOpnd s ub (10 + u.toNat) 1) ut Opnd.none)) id g src (unrecorded s) := by
  rw [taRow_eq, rowOpnds_unrecorded]
  rfl

/-- The row and the flags of an operation of TX. -/
def txResult (f : Word → Word → Row → Row × Flg) : Row × Flg :=
  f s.iss.ctx.inf.fmtEff (s.iss.ctx.portW 12 0) (readCode s src).row

/-- What is recorded of an operation of TX whose result is `y`. -/
def txOp (ut uy : Bool) (y : Row) : RecOp :=
  rowOp 12 port (s.iss.ctx.portW 12 0) (rowOpnds s src 12 false Opnd.none ut (resOpnd uy (.r y)))

theorem txTrigger_eq (lat wt : Nat) (ut uy : Bool) (chk : Word → Row → List Note) (f : Word → Word → Row → Row × Flg) :
    txTrigger port lat wt ut uy chk f g src s =
      rowTrigger 12 port lat wt (chk (s.iss.ctx.portW 12 0) (readCode s src).row) (.r (txResult s src f).1)
        (txResult s src f).2 (txOp s src port ut uy (txResult s src f).1) id g src s := rfl

theorem txTrigger_unrecorded (lat wt : Nat) (ut uy : Bool) (chk : Word → Row → List Note)
    (f : Word → Word → Row → Row × Flg) : txTrigger port lat wt ut uy chk f g src (unrecorded s) =
      rowTrigger 12 port lat wt (chk (s.iss.ctx.portW 12 0) (readCode s src).row) (.r (txResult s src f).1)
        (txResult s src f).2 (txOp s src port ut uy (txResult s src f).1) id g src (unrecorded s) := by
  rw [txTrigger_eq, txOp, rowOpnds_unrecorded]
  rfl

/-- What is recorded of a one-row operation of TS. -/
def tsOp (ua ut : Bool) : RecOp :=
  rowOp 13 port (s.iss.ctx.portW 13 1) (rowOpnds s src 13 ua (portOpnd s false 13 1) ut Opnd.none)

theorem tsOp_unrecorded (ua ut : Bool) : tsOp (unrecorded s) src port ua ut = tsOp s src port ua ut := by
  rw [tsOp, rowOpnds_unrecorded]
  rfl

/-- The value and the flags of an operation of TS. -/
def tsResult (f : Word → Ctx → Row → Val × Flg) : Val × Flg := f s.iss.ctx.inf.fmtEff s.iss.ctx (readCode s src).row

theorem tsTrigger_eq (ua ut : Bool) (chk : List Note) (act : State → State) (f : Word → Ctx → Row → Val × Flg) :
    tsTrigger port ua ut chk act f g src s =
      rowTrigger 13 port 6 6 chk (tsResult s src f).1 (tsResult s src f).2 (tsOp s src port ua ut) act g src s := rfl

theorem tsTrigger_unrecorded (ua ut : Bool) (chk : List Note) (act : State → State) (f : Word → Ctx → Row → Val × Flg)
    (hf : tsResult (unrecorded s) src f = tsResult s src f) : tsTrigger port ua ut chk act f g src (unrecorded s) =
      rowTrigger 13 port 6 6 chk (tsResult s src f).1 (tsResult s src f).2 (tsOp s src port ua ut) act g src
        (unrecorded s) := by
  rw [tsTrigger_eq, hf, tsOp_unrecorded]

/-- The row of the bias table that `ts.bias` takes (R146). -/
def biasResult : Word → Ctx → Row → Val × Flg := fun _ c t =>
  rowVal (biasRow ((soon s s.iss.n).rdArena s.iss.n (biasOff c) 16640) (c.portW 13 1) t, 0)

/-- The check of `ts.bias`: its table ends inside the arena. -/
def biasChecks : List Note := [trapIf (decide (arenaBytes s.iss.ctx < biasOff s.iss.ctx + 16640)) 0x20
  (w64 (biasOff s.iss.ctx + 16640))]

theorem exec_tsBias : exec (.tsBias g src) s = tsTrigger 13 false false (biasChecks s)
    (readsNow · (biasReads s.iss.ctx)) (biasResult s) g src s := rfl

theorem biasResult_unrecorded : biasResult (unrecorded s) = biasResult s := by
  funext w c t
  rw [biasResult, rdArena_soon_unrecorded]
  rfl

theorem exec_tsBias_unrecorded : exec (.tsBias g src) (unrecorded s) =
    rowTrigger 13 13 6 6 (biasChecks s) (tsResult s src (biasResult s)).1 (tsResult s src (biasResult s)).2
      (tsOp s src 13 false false) (readsNow · (biasReads s.iss.ctx)) g src (unrecorded s) := by
  rw [exec_tsBias, biasResult_unrecorded]
  exact tsTrigger_unrecorded _ _ _ _ _ _ _ _ _ rfl

end

/-! ## Go moves that record a seam mark -/

section
variable (s : State) (g : BitVec 4) (src : BitVec 9)

/-- The checks of `np.send` (R266, R304). -/
def npSendChecks : List Note :=
  let c := s.iss.ctx
  let fc := fld (c.portW 20 3) 37 4
  goNotes s (trigT s src) ++ [epMode (c.portW 20 0) srcKinds,
    trapIf (decide (fld (c.portW 20 1) 0 20 = 0)) 0x0A (c.portW 20 1),
    trapIf (decide (npSize (c.portW 20 2) = 0 ∨ npSize (c.portW 20 2) % 4 ≠ 0)) 0x0A (c.portW 20 2),
    trapIf (decide (npPayf (c.portW 20 3) = 0 ∨ 16 < npPayf (c.portW 20 3))) 0x0A (c.portW 20 3),
    trapIf (decide (8 < fc)) 0x05 (w64 fc)] ++ epNotes c [(c.portW 20 0, 0, npSize (c.portW 20 2))] 0 []

theorem exec_npSend : exec (.npSend g src) s =
    seamTrigger 20 4 (npSendChecks s src) (goTok (trigT s src)) (fun _ q => q) id g src s := rfl

/-- The checks of `np.row` (R266, R304). -/
def npRowChecks : List Note :=
  let c := s.iss.ctx
  let fc := fld (c.portW 20 0) 0 4
  goNotes s (c.portW 20 3) ++ [trapIf (decide (fld (c.portW 20 1) 0 20 = 0)) 0x0A (c.portW 20 1),
    trapIf (decide (8 < fc)) 0x05 (w64 fc)]

theorem exec_npRow : exec (.npRow g src) s =
    seamTrigger 20 5 (npRowChecks s) (goTok (s.iss.ctx.portW 20 3))
      (fun v q => { q with go := s.iss.ctx.portW 20 3, row := v.row }) id g src s := rfl

/-- The words of the layout pair that `rs.go` reads, where they lie in the arena (R361). -/
def pairWords : Pair :=
  if (arenaOut s.iss.ctx (fld (s.iss.ctx.portW 19 0) 0 23) 256).isNone then pairAt s (s.iss.ctx.portW 19 0) else []

theorem pairWords_unrecorded : pairWords (unrecorded s) = pairWords s := by
  unfold pairWords pairAt
  rw [show (unrecorded s).iss.n = s.iss.n from rfl, rdArena_soon_unrecorded]
  rfl

/-- The checks of `rs.go` of a layout pair (R266, R365). -/
def rsGoChecks (w : Pair) : List Note :=
  let c := s.iss.ctx
  let ef := fld (c.portW 19 3) 20 4
  let code := pairCode w c.ctl.crewn.toNat ef
  let r := c.ctl.rank.toNat
  let z := codeBytes ef
  goNotes s (trigT s src) ++ [epMode (c.portW 19 1) [0, 1], epMode (c.portW 19 2) [0, 1]] ++ pairNotes c (c.portW 19 0) ++
    [trapIf (decide (code ≠ 0)) 0x0A (w64 code)] ++
    epNotes c [(c.portW 19 1, 0, z * shardLen w false r), (c.portW 19 2, 0, z * shardLen w true r)] 0 []

/-- `rs.go` of a layout pair. -/
def rsGoTrigger (w : Pair) : Out :=
  seamTrigger 19 4 (rsGoChecks s src w) (goTok (trigT s src)) (fun _ q => { q with shape := w })
    (readsNow · [((s.iss.ctx.portW 19 0).toNat % 2 ^ 23, 256)]) g src s

theorem exec_rsGo : exec (.rsGo g src) s = rsGoTrigger s g src (pairWords s) := by
  rw [rsGoTrigger, ← fld_zero]
  rfl

theorem exec_rsGo_unrecorded : exec (.rsGo g src) (unrecorded s) = rsGoTrigger (unrecorded s) g src (pairWords s) := by
  rw [exec_rsGo, pairWords_unrecorded]

end

/-- Settles O32: the one-row operations by `rowTrigger_records`, `rowTrigger_held` and `rowTrigger_traps`, the go moves by
`seamTrigger_records` and `seamTrigger_held`; what they perform where nothing is recorded is theirs, since a completion
leaves but one context (`landed_eq`, `entered_eq`). -/
theorem recordedOperations : Obligations.RecordedOperations := by
  unfold Obligations.RecordedOperations
  intro s g src hrec x s0 b flag gid row staged x0 moved held lands probe records seam
  have one {i : Instr} {fu port lat w d : Nat} {reads : List Nat} {more : Ctx → Ctx} {chk : List Note} {v0 : Val}
      {flg0 : Flg} {scw : Word} {o : Nat → Opnd} {act : State → State} (hw : 0 < w) (hreads : ∀ k ∈ reads, k < 4)
      (hi : exec i s = rowTrigger fu port lat w chk v0 flg0 (rowOp fu port scw o) act g src s)
      (hi0 : exec i (unrecorded s) =
        rowTrigger fu port lat w chk v0 flg0 (rowOp fu port scw o) act g src (unrecorded s))
      (hb : Besides s src w d act more) (hb0 : Besides (unrecorded s) src w d act more)
      (ho : ∀ k, k < 4 → Recorded reads (opndTag s src fu) (opndImg s src fu v0) k (o k)) :
      records i fu port lat w reads d more := by
    intro v flg hv img tag slots len ok fl fits
    have hland (hr : Ready s fu port false g src) : firstNote chk = .quiet ∧ v = v0 ∧ flg = flg0 :=
      landed_eq (recOn_unrecorded s) hi0 hb0 hw hr.unrecorded hv
    have hlen := len_rowOp (fu := fu) (port := port) (scw := scw) ho b.fw
    refine ⟨fun hl hf hok hroom => ?_, fun hr hheld => ?_,
      fun hr hl hf => ⟨fun k hk hbefore hbad => ?_, fun hok hfull => ?_⟩⟩
    · by_cases hr : Ready s fu port false g src
      · obtain ⟨hc, rfl, rfl⟩ := hland hr
        have h := rowTrigger_records hrec hi hb hc (recHold_quiet hrec hl (by rw [hlen]; exact hf))
          ((recTrap_flagsOk hrec ho hok).trans (if_neg (Nat.not_lt.2 hroom)))
        rw [hlen] at h
        exact ⟨_, _, rfl, hlen, rfl, missing_rowOp ho _, head_entryOf ho, rfl,
          fun k hk hf => mem_imgs_entryOf ho (hreads k hk) hk hf, moved_nextFw _ _, h⟩
      · exact ⟨⟨s.serial + d, [_, x.inf.fmtEff, 0, 0, 0, 0, 0, 0], reads.map fun k => (k, img k), [], _, len, false⟩,
          nextFw b.fw true, rfl, rfl, rfl, rfl, rfl, rfl, fun k hk _ => List.mem_map_of_mem hk, moved_nextFw _ _,
          fun h => absurd h hr⟩
    · obtain ⟨-, rfl, -⟩ := hland hr
      exact rowTrigger_held hi hr (recHold_holds hrec (by rw [hlen]; exact hheld))
    · obtain ⟨hc, rfl, -⟩ := hland hr
      exact rowTrigger_traps hi hr hc (recHold_quiet hrec hl (by rw [hlen]; exact hf))
        (recTrap_flag hrec ho hk hbefore hbad)
    · obtain ⟨hc, rfl, -⟩ := hland hr
      exact rowTrigger_traps hi hr hc (recHold_quiet hrec hl (by rw [hlen]; exact hf))
        ((recTrap_flagsOk hrec ho hok).trans (if_pos hfull))
  have mark {i : Instr} {fu port : Nat} {chk : List Note} {tok : Option Nat} {fix : Val → Cmd → Cmd}
      {act : State → State} {more : Nat → Ctx → Ctx} (hi : exec i s = seamTrigger fu port chk tok fix act g src s)
      (hi0 : exec i (unrecorded s) = seamTrigger fu port chk tok fix act g src (unrecorded s)) (hb : Then s act more)
      (hb0 : Then (unrecorded s) act more) : seam i fu port more := by
    intro q tok' hfu hport hv ho
    refine ⟨fun hl hf hroom => ⟨nextFw b.fw false, moved_nextFw _ _, completesCore_of_ready fun hr => ?_⟩, fun hr hheld => ?_⟩
    · have hv' := hv (by rw [hfu]; exact ho)
      rw [hfu, hport] at hv'
      obtain ⟨hc, henter⟩ := entered_eq (recOn_unrecorded s) hi0 ho hb0 hr.unrecorded hv'
      refine completesCore_congr ?_ (seamTrigger_records hrec hi ho hb hc (recHold_quiet hrec hl hf)
        (recTrap_seamOp hrec hroom))
      dsimp only
      rw [← (show (sourced s src).enter q tok' = (sourced s src).enter (fixedCmd s src fu port fix) tok from henter),
        markedCtx, (hb.baste 2 _ _).1, (hb.baste 2 _ x.baste).2]
      rfl
    · refine seamTrigger_held hi ho hr (recHold_holds hrec (hheld.imp_right fun h hf => ?_))
      exact hf.elim h.1 (Nat.not_le.2 h.2)
  have ta {u : BitVec 1} {i : Instr} {port : Nat} {f : LaneFn} {ua ub ut : Bool} {reads : List Nat}
      (hi : ∀ t, exec i t = taRow port f ua ub ut g u src t) (hu : Uses reads ua ub ut false) :
      records i (10 + u.toNat) port 4 8 reads 0 id := by
    obtain ⟨hlt, ha, hb, ht, hy⟩ := hu
    exact one (by norm_num) hlt ((hi s).trans (taRow_eq ..)) ((hi _).trans (taRow_unrecorded ..)) (besides_nothing ..) (besides_nothing ..)
      (recorded_rowOpnds (b := portOpnd s ub (10 + u.toNat) 1) ha ht (recorded_port hb (by norm_num) (by norm_num))
        (recorded_none (of_decide_eq_false hy.symm)))
  have tx {i : Instr} {port lat wt : Nat} {chk : Word → Row → List Note} {f : Word → Word → Row → Row × Flg}
      {ut uy : Bool} {reads : List Nat} (hi : ∀ t, exec i t = txTrigger port lat wt ut uy chk f g src t)
      (hw : 0 < wt) (hu : Uses reads false false ut uy) : records i 12 port lat wt reads 0 id := by
    obtain ⟨hlt, ha, hb, ht, hy⟩ := hu
    exact one hw hlt ((hi s).trans (txTrigger_eq ..)) ((hi _).trans (txTrigger_unrecorded ..)) (besides_nothing ..)
      (besides_nothing ..)
      (recorded_rowOpnds ha ht (recorded_none (of_decide_eq_false hb.symm)) (recorded_result hy _))
  have fn {i : Instr} {port lat wt : Nat} {f : Word → Nat → Nat → Nat → BitVec 32 → BitVec 32 × Flg} {ut uy : Bool}
      {ok : Nat → Bool} {reads : List Nat}
      (hi : ∀ t, exec i t = txTrigger port lat wt ut uy (fun a _ => fmtNotes a ok ok) (txLanes f) g src t)
      (hw : 0 < wt) (hu : Uses reads false false ut uy) : records i 12 port lat wt reads 0 id := tx hi hw hu
  have ts {i : Instr} {port : Nat} {f : Word → Ctx → Row → Val × Flg} {ua ut : Bool} {reads : List Nat}
      (hi : ∀ t, exec i t = tsTrigger port ua ut [] id f g src t)
      (hf : tsResult (unrecorded s) src f = tsResult s src f) (hu : Uses reads ua false ut false) :
      records i 13 port 6 6 reads 0 id := by
    obtain ⟨hlt, ha, hb, ht, hy⟩ := hu
    exact one (by norm_num) hlt ((hi s).trans (tsTrigger_eq ..)) ((hi _).trans (tsTrigger_unrecorded _ _ _ _ _ _ _ _ _ hf))
      (besides_nothing ..) (besides_nothing ..)
      (recorded_rowOpnds ha ht (recorded_port hb (by norm_num) (by norm_num))
        (recorded_none (of_decide_eq_false hy.symm)))
  refine ⟨fun u => ?_, ?_, ?_, ?_, ?_, ?_, ?_⟩
  · simp only [List.forall_mem_cons]
    exact ⟨ta (fun _ => rfl) (by decide), ta (fun _ => rfl) (by decide), ta (fun _ => rfl) (by decide),
      ta (fun _ => rfl) (by decide), ta (fun _ => rfl) (by decide), ta (fun _ => rfl) (by decide),
      ta (fun _ => rfl) (by decide), ta (fun _ => rfl) (by decide), ta (fun _ => rfl) (by decide),
      ta (fun _ => rfl) (by decide), ta (fun _ => rfl) (by decide), ta (fun _ => rfl) (by decide),
      ta (fun _ => rfl) (by decide), ta (fun _ => rfl) (by decide), ta (fun _ => rfl) (by decide),
      ta (fun _ => rfl) (by decide), ta (fun _ => rfl) (by decide), ta (fun _ => rfl) (by decide),
      ta (fun _ => rfl) (by decide), ta (fun _ => rfl) (by decide), List.forall_mem_nil _⟩
  · simp only [List.forall_mem_cons]
    exact ⟨fn (fun _ => rfl) (by norm_num) (by decide), tx (fun t => exec_txQnt t g src) (by norm_num) (by decide),
      tx (fun t => exec_txDqnt t g src) (by norm_num) (by decide), fn (fun _ => rfl) (by norm_num) (by decide),
      fn (fun _ => rfl) (by norm_num) (by decide), fn (fun _ => rfl) (by norm_num) (by decide),
      fn (fun _ => rfl) (by norm_num) (by decide), fn (fun _ => rfl) (by norm_num) (by decide),
      fn (fun _ => rfl) (by norm_num) (by decide), fn (fun _ => rfl) (by norm_num) (by decide),
      fn (fun _ => rfl) (by norm_num) (by decide), List.forall_mem_nil _⟩
  · simp only [List.forall_mem_cons]
    exact ⟨ts (fun t => exec_tsPerm t g src) rfl (by decide), ts (fun t => exec_tsRsum t g src) rfl (by decide),
      ts (fun t => exec_tsRmax t g src) rfl (by decide), ts (fun t => exec_tsRmin t g src) rfl (by decide),
      ts (fun t => exec_tsAmax t g src) rfl (by decide), ts (fun t => exec_tsScan t g src) rfl (by decide),
      ts (fun t => exec_tsSmax t g src) rfl (by decide), ts (fun t => exec_tsMask t g src) rfl (by decide),
      List.forall_mem_nil _⟩
  · exact one (by norm_num) (by decide) ((exec_tsBias s g src).trans (tsTrigger_eq ..)) (exec_tsBias_unrecorded s g src)
      (besides_reads ..) (besides_reads ..)
      (recorded_rowOpnds rfl rfl (recorded_port rfl (by norm_num) (by norm_num)) (recorded_none (by decide)))
  · exact mark (exec_npSend s g src) (exec_npSend _ g src) (then_nothing s) (then_nothing _)
  · exact mark (exec_npRow s g src) (exec_npRow _ g src) (then_nothing s) (then_nothing _)
  · exact mark (exec_rsGo s g src) (exec_rsGo_unrecorded s g src) (then_reads ..) (then_reads ..)

end Sys2Proof.Machine
end

section
/-!
PROOFS. What the accesses of the log, of an unpick and of the pattern loader can change (R168, R222, R223, R236).
-/

namespace Sys2Proof.Machine

/-! ## Accesses -/

/-- From `s` to `t` accesses were made: nothing changes but memory with its errors and its trace, the writes that wait for the
control space, the buffers of translations and of blocks, and the count of free values. -/
def OnlyAccess (s t : State) : Prop := t = { s with
  mem := t.mem, bad := t.bad, trace := t.trace, ctlw := t.ctlw, tlb := t.tlb, skb := t.skb, free := t.free }

theorem OnlyAccess.refl (s : State) : OnlyAccess s s := rfl

theorem OnlyAccess.trans {s t u : State} (h : OnlyAccess s t) (k : OnlyAccess t u) : OnlyAccess s u := by
  unfold OnlyAccess at *
  rw [h] at k
  exact k

theorem OnlyAccess.ctxs {s t : State} (h : OnlyAccess s t) : t.ctxs = s.ctxs := by rw [h]
theorem OnlyAccess.ctx {s t : State} (h : OnlyAccess s t) (n : Nat) : t.ctx n = s.ctx n := State.ctx_of_ctxs h.ctxs n
theorem OnlyAccess.core {s t : State} (h : OnlyAccess s t) (k : Nat) : t.core k = s.core k := by rw [h]; rfl
theorem OnlyAccess.clk {s t : State} (h : OnlyAccess s t) : t.clk = s.clk := by rw [h]

theorem OnlyRead.onlyAccess {s t : State} (h : OnlyRead s t) : OnlyAccess s t := by
  unfold OnlyRead at h
  rw [h]
  rfl

/-- Work that makes accesses and changes nothing else, whether it meets a fault or not. -/
structure Accesses {α : Type} (m : Acc α) : Prop where
  only : ∀ s, OnlyAccess s (m.run s).2

theorem Accesses.of_run {α : Type} {m : Acc α} (h : Accesses m) {s t : State} {r : Except Flt α} (hr : m.run s = (r, t)) :
    OnlyAccess s t := by
  have hs := h.only s
  rwa [hr] at hs

theorem ReadsOnly.accesses {α : Type} {m : Acc α} (h : ReadsOnly m) : Accesses m := ⟨fun s => (h s).onlyAccess⟩

theorem accesses_pure {α : Type} (a : α) : Accesses (pure a : Acc α) := ⟨OnlyAccess.refl⟩

theorem accesses_throw {α : Type} (f : Flt) : Accesses (throw f : Acc α) := ⟨OnlyAccess.refl⟩

theorem accesses_bind {α β : Type} {m : Acc α} {f : α → Acc β} (h : Accesses m) (k : ∀ a, Accesses (f a)) :
    Accesses (m >>= f) := by
  refine ⟨fun s => ?_⟩
  have hrun : (m >>= f).run s = ExceptT.bindCont f (m.run s).1 (m.run s).2 := rfl
  have hm := h.only s
  rw [hrun]
  generalize m.run s = r at hm ⊢
  obtain ⟨_ | a, t⟩ := r
  · exact hm
  · exact hm.trans ((k a).only t)

theorem accesses_faultIf (b : Bool) (code : Nat) (v : Word) : Accesses (faultIf b code v) := by
  unfold faultIf
  split
  · exact accesses_throw _
  · exact accesses_pure _

theorem accesses_forM {α : Type} {f : α → Acc PUnit} (h : ∀ a, Accesses (f a)) (l : List α) : Accesses (l.forM f) := by
  induction l with
  | nil => exact accesses_pure _
  | cons a l ih => exact accesses_bind (h a) fun _ => ih

theorem accesses_mapM {α β : Type} {f : α → Acc β} (h : ∀ a, Accesses (f a)) (l : List α) : Accesses (l.mapM f) := by
  induction l with
  | nil => exact accesses_pure _
  | cons a l ih =>
    rw [List.mapM_cons]
    exact accesses_bind (h a) fun _ => accesses_bind ih fun _ => accesses_pure _

theorem accesses_foldlM {α β : Type} {f : β → α → Acc β} (h : ∀ b a, Accesses (f b a)) (l : List α) :
    ∀ b, Accesses (l.foldlM f b) := by
  induction l with
  | nil => exact accesses_pure
  | cons a l ih =>
    intro b
    rw [List.foldlM_cons]
    exact accesses_bind (h b a) ih

/-! ## Memory (R163, R168, R169) -/

theorem accesses_translate (g : Agent) (va : Word) (w : Want) (n : Nat) : Accesses (translate g va w n) :=
  (readsOnly_translate g va w n).accesses

theorem accesses_readPhys (pa n : Nat) (a : Word) : Accesses (readPhys pa n a) := (readsOnly_readPhys pa n a).accesses

theorem accesses_readVirt (g : Agent) (va : Word) (n : Nat) : Accesses (readVirt g va n) := (readsOnly_readVirt g va n).accesses

theorem accesses_writePhys (pa v n : Nat) (a : Word) : Accesses (writePhys pa v n a) := by
  refine ⟨fun s => ?_⟩
  show OnlyAccess s ((if inControl pa then pure ()
    else match partBad s pa n with
    | some b => throw (0x27, a + w64 b - w64 pa)
    | none => set ((s.touch pa n).wr pa v n) : Acc Unit).run s).2
  split
  · exact OnlyAccess.refl s
  · split
    · exact OnlyAccess.refl s
    · exact (onlyRead_touch s pa n).onlyAccess.trans rfl

theorem accesses_writeBy (g : Agent) (pa v n : Nat) (a : Word) : Accesses (writeBy g pa v n a) := by
  refine ⟨fun s => ?_⟩
  show OnlyAccess s ((if hostOnly pa && !g.host then pure ()
    else if inControl pa then
      match blockRefuse s pa (w64 v) with
      | some code => throw (code, a)
      | none => set { s with ctlw := s.ctlw ++ ((spaceEvent pa (w64 v)).map fun e => (if g.host then hostSrc else g.n, e)).toList }
    else writePhys pa v n a : Acc Unit).run s).2
  split
  · exact OnlyAccess.refl s
  · split
    · split <;> exact rfl
    · exact (accesses_writePhys pa v n a).only s

theorem accesses_writeVirt (g : Agent) (va : Word) (v n : Nat) : Accesses (writeVirt g va v n) :=
  accesses_forM (fun _ => accesses_bind (accesses_translate ..) fun _ => accesses_writeBy ..) _

theorem accesses_readWord (g : Agent) (va : Word) : Accesses (readWord g va) :=
  accesses_bind (accesses_readVirt ..) fun _ => accesses_pure _

theorem accesses_writeWord (g : Agent) (va v : Word) : Accesses (writeWord g va v) := accesses_writeVirt ..

theorem accesses_updWord (g : Agent) (va : Word) (f : Word → Word) : Accesses (updWord g va f) :=
  accesses_bind (accesses_readWord ..) fun _ => accesses_writeWord ..

/-! ## Skeins (R220-R223, R380-R382) -/

theorem accesses_readDesc (g : Agent) (va : Word) : Accesses (readDesc g va) :=
  accesses_bind (accesses_faultIf ..) fun _ => accesses_bind (accesses_readVirt ..) fun _ => accesses_pure _

theorem accesses_checkDesc (d : Desc) : Accesses (checkDesc d) :=
  accesses_bind (accesses_faultIf ..) fun _ => accesses_faultIf ..

theorem accesses_loadPool (g : Agent) (d : Desc) : Accesses (loadPool g d) :=
  accesses_bind (accesses_translate ..) fun _ => accesses_bind (accesses_readVirt ..) fun _ => accesses_pure _

theorem accesses_readPool (g : Agent) (d : Desc) : Accesses (readPool g d) :=
  accesses_bind (accesses_loadPool ..) fun _ => accesses_bind (accesses_faultIf ..) fun _ => accesses_pure _

theorem accesses_insertBlock (g : Agent) (p : Pool) (k id j : Nat) (l : List Nat) : Accesses (insertBlock g p k id j l) := by
  induction l with
  | nil =>
    exact accesses_bind (accesses_readWord ..) fun _ => accesses_bind (accesses_updWord ..) fun _ =>
      accesses_bind (accesses_updWord ..) fun _ => accesses_bind (accesses_updWord ..) fun _ => accesses_updWord ..
  | cons q l ih =>
    refine accesses_bind (accesses_readWord ..) fun w1 => ?_
    split
    · exact ih
    · exact accesses_bind (accesses_updWord ..) fun _ => accesses_bind (accesses_updWord ..) fun _ => accesses_updWord ..

theorem accesses_allocBlock (g : Agent) (d : Desc) (p : Pool) (j : Nat) : Accesses (allocBlock g d p j) :=
  accesses_bind (accesses_faultIf ..) fun _ => accesses_bind (accesses_readPhys ..) fun _ =>
    accesses_bind (accesses_writeWord ..) fun _ => accesses_bind (accesses_writeWord ..) fun _ =>
    accesses_bind (accesses_writeWord ..) fun _ => accesses_bind (accesses_updWord ..) fun _ =>
    accesses_bind (accesses_insertBlock ..) fun _ => accesses_bind (accesses_updWord ..) fun _ => accesses_pure _

theorem accesses_allocBlocks (g : Agent) (d : Desc) (n : Nat) : ∀ p j, Accesses (allocBlocks g d n p j) := by
  induction n with
  | zero => exact fun _ _ => accesses_pure _
  | succ n ih => exact fun p j => accesses_bind (accesses_allocBlock ..) fun a => ih a.1 (j + 1)

theorem accesses_readEnt (g : Agent) (p : Pool) (k : Nat) : Accesses (readEnt g p k) :=
  accesses_bind (accesses_readVirt ..) fun _ => accesses_pure _

theorem accesses_blockIs (g : Agent) (p : Pool) (k id j : Nat) : Accesses (blockIs g p k id j) :=
  accesses_bind (accesses_readEnt ..) fun _ => accesses_pure _

theorem accesses_findHash (g : Agent) (p : Pool) (id j h : Nat) (l : List Nat) : Accesses (findHash g p id j h l) := by
  induction l with
  | nil => exact accesses_pure _
  | cons q l ih =>
    refine accesses_bind (accesses_readEnt ..) fun w => ?_
    dsimp only
    split
    · refine accesses_bind (accesses_blockIs ..) fun b => ?_
      split
      · exact accesses_pure _
      · exact ih
    · exact ih

theorem accesses_findOver (g : Agent) (p : Pool) (id j f : Nat) : ∀ k, Accesses (findOver g p id j f k) := by
  induction f with
  | zero => exact fun _ => accesses_pure _
  | succ f ih =>
    intro k
    rw [findOver]
    split
    · exact accesses_pure _
    · refine accesses_bind (accesses_blockIs ..) fun b => ?_
      split
      · exact accesses_pure _
      · exact accesses_bind (accesses_readWord ..) fun _ => ih _

theorem accesses_findBlock (g : Agent) (p : Pool) (id j : Nat) : Accesses (findBlock g p id j) := by
  unfold findBlock
  dsimp only
  split
  · exact accesses_throw _
  · refine accesses_bind (accesses_findHash ..) fun k => ?_
    split
    · exact accesses_pure _
    · refine accesses_bind (accesses_readWord ..) fun _ => accesses_bind (accesses_findOver ..) fun k => ?_
      split
      · exact accesses_pure _
      · exact accesses_throw _

theorem accesses_ownerOf (g : Agent) (d : Desc) (j f : Nat) : ∀ x, Accesses (ownerOf g d j f x) := by
  induction f with
  | zero => exact fun _ => accesses_throw _
  | succ f ih =>
    intro x
    rw [ownerOf]
    split
    · exact accesses_bind (accesses_readDesc ..) fun _ => ih _
    · exact accesses_pure _

theorem accesses_resolve (g : Agent) (d : Desc) (p : Pool) (j : Nat) : Accesses (resolve g d p j) := by
  refine accesses_bind (accesses_ownerOf ..) fun o => accesses_bind ⟨OnlyAccess.refl⟩ fun s => ?_
  split
  · exact accesses_pure _
  · exact accesses_bind (accesses_findBlock ..) fun k => accesses_bind ⟨fun _ => rfl⟩ fun _ => accesses_pure _

theorem accesses_slotPA (g : Agent) (d : Desc) (p : Pool) (i : Nat) : Accesses (slotPA g d p i) :=
  accesses_bind (accesses_resolve ..) fun _ => accesses_bind (accesses_faultIf ..) fun _ => accesses_pure _

theorem accesses_readSlot (g : Agent) (da : Word) (i off n : Nat) : Accesses (readSlot g da i off n) :=
  accesses_bind (accesses_readDesc ..) fun _ => accesses_bind (accesses_faultIf ..) fun _ =>
    accesses_bind (accesses_loadPool ..) fun _ => accesses_bind (accesses_slotPA ..) fun _ => accesses_readPhys ..

/-! ## The log and the gradient map (R246, R248, R254) -/

theorem accesses_writeSlots (g : Agent) (d : Desc) (p : Pool) (v n : Nat) : ∀ i, Accesses (writeSlots g d p v n i) := by
  induction n with
  | zero => exact fun _ => accesses_pure _
  | succ n ih =>
    exact fun i => accesses_bind (accesses_slotPA ..) fun _ => accesses_bind (accesses_writePhys ..) fun _ => ih _

theorem accesses_appendEntry (g : Agent) (da : Word) (known : Nat) (e : Stage) : Accesses (appendEntry g da known e) :=
  accesses_bind (accesses_readDesc ..) fun _ => accesses_bind (accesses_checkDesc _) fun _ =>
    accesses_bind (accesses_faultIf ..) fun _ => accesses_bind (accesses_faultIf ..) fun _ =>
    accesses_bind (accesses_readPool ..) fun _ => accesses_bind (accesses_faultIf ..) fun _ =>
    accesses_bind (accesses_allocBlocks ..) fun _ => accesses_bind (accesses_writeWord ..) fun _ =>
    accesses_bind (accesses_writeSlots ..) fun _ => accesses_writeWord ..

theorem accesses_readLog (g : Agent) (da : Word) (n : Nat) : ∀ slot, Accesses (readLog g da slot n) := by
  induction n with
  | zero => exact fun _ => accesses_pure _
  | succ n ih =>
    exact fun slot => accesses_bind (accesses_readSlot ..) fun _ => accesses_bind (ih _) fun _ => accesses_pure _

theorem accesses_readEntry (g : Agent) (da : Word) (slot : Nat) : Accesses (readEntry g da slot) :=
  accesses_bind (accesses_readLog ..) fun _ => accesses_pure _

theorem accesses_mapRow (g : Agent) (gbase : Word) (gid row : Nat) : Accesses (mapRow g gbase gid row) :=
  accesses_bind (accesses_readVirt ..) fun _ => accesses_bind (accesses_faultIf ..) fun _ => accesses_pure _

/-! ## Pattern images (R267, R336) -/

theorem accesses_epAddr (g : Agent) (a : Word) (off : Int) (n width : Nat) (w : Want) :
    Accesses (epAddr g a off n width w) := by
  unfold epAddr
  split
  · exact accesses_bind (accesses_faultIf ..) fun _ => accesses_bind (accesses_translate ..) fun _ => accesses_pure _
  · split
    · exact accesses_throw _
    · exact accesses_pure _
  · exact accesses_bind (accesses_faultIf ..) fun _ => accesses_bind (accesses_faultIf ..) fun _ => accesses_pure _

theorem accesses_readEp (g : Agent) (a : Word) (off : Int) (n : Nat) : Accesses (readEp g a off n) :=
  accesses_foldlM (fun _ _ => accesses_bind (accesses_epAddr ..) fun _ => accesses_bind (accesses_readPhys ..) fun _ =>
    accesses_pure _) _ _

theorem accesses_readImage (g : Agent) (phys : Bool) (a : Word) : Accesses (readImage g phys a) := by
  have hrd (off n : Nat) : Accesses (if phys then readEp g (w64 (4 * 2 ^ 60 + a.toNat % 2 ^ 48)) off n
      else readVirt g (a + w64 off) n) := by
    split
    · exact accesses_readEp ..
    · exact accesses_readVirt ..
  exact accesses_bind (hrd ..) fun _ => accesses_bind (accesses_mapM (fun _ => accesses_bind (hrd ..) fun _ => accesses_pure _) _)
    fun _ => accesses_bind (accesses_mapM (fun _ => accesses_bind (hrd ..) fun _ => accesses_pure _) _) fun _ => accesses_pure _

end Sys2Proof.Machine
end

section
/-!
PROOFS. The log writer and the unpick at work (R248, R253, R255, R256).
-/

namespace Sys2Proof.Machine

/-! ## Commands that end -/

theorem Ctx.baste_dropPq (c : Ctx) (q : Cmd) : (c.dropPq q).baste = c.baste := by
  unfold Ctx.dropPq; dsimp only; split <;> rfl

theorem baste_endCmd (c : Ctx) (q : Cmd) (tok : Option Nat) (v : Word) : (c.endCmd q tok v).baste = c.baste := by
  have hdrop : ((c.popCmd q.fu).dropPq q).baste = c.baste := Ctx.baste_dropPq _ _
  rw [← hdrop]
  cases tok <;> rfl

theorem Ctx.queue_updCmd {c : Ctx} {fu : Nat} {q : Cmd} {l : List Cmd} (h : c.queue fu = q :: l) (f : Cmd → Cmd) :
    (c.updCmd fu f).queue fu = f q :: l := by
  rw [Ctx.updCmd, h]
  exact Ctx.queue_setQueue _ _ _

theorem Ctx.baste_updCmd (c : Ctx) (fu : Nat) (f : Cmd → Cmd) : (c.updCmd fu f).baste = c.baste := by
  unfold Ctx.updCmd; split <;> rfl

theorem Ctx.ctl_updCmd (c : Ctx) (fu : Nat) (f : Cmd → Cmd) : (c.updCmd fu f).ctl = c.ctl := by
  unfold Ctx.updCmd; split <;> rfl

/-- A command whose words change stays in service. -/
theorem InService.updCmd {c : Ctx} {fu : Nat} {q : Cmd} {l : List Cmd} (h : InService c fu q l) (f : Cmd → Cmd)
    (hst : (f q).st = q.st) (hfu : (f q).fu = q.fu) : InService (c.updCmd fu f) fu (f q) l :=
  ⟨Ctx.queue_updCmd h.queue f, hst.trans h.running, hfu.trans h.unit⟩

/-- What is left of a context whose command in service has ended. -/
structure CmdEnded (c d : Ctx) (fu : Nat) (q : Cmd) (l : List Cmd) (tok : Option Nat) (v : Word) : Prop where
  queue : d.queue fu = l
  ctl : d.ctl = { c.ctl with flags := c.ctl.flags ||| q.flg }
  baste : d.baste = c.baste
  written : ∀ k, tok = some k → d.tok k = ⟨.written, v⟩

theorem InService.ended {c : Ctx} {fu : Nat} {q : Cmd} {l : List Cmd} (h : InService c fu q l) (tok : Option Nat) (v : Word) :
    CmdEnded c (c.endCmd q tok v) fu q l tok v := by
  obtain ⟨hqueue, hctl, -, htok⟩ := h.endCmd tok v
  exact ⟨hqueue, hctl, baste_endCmd c q tok v, htok⟩

section
variable {s : State} {n fu : Nat} {q : Cmd} {l : List Cmd} (h : InService (s.ctx n) fu q l)
include h

theorem ended_endServed (tok : Option Nat) (v : Word) :
    CmdEnded (s.ctx n) ((endServed s n fu tok v).ctx n) fu q l tok v := by
  rw [endServed_eq h, State.ctx_updCtx]
  exact h.ended tok v

theorem mem_endServed (tok : Option Nat) (v : Word) : (endServed s n fu tok v).mem = s.mem := by
  rw [endServed_eq h]
  rfl

/-- A change of the context, then the end of its command. -/
theorem endServed_onServed_eq (f : Ctx → Ctx) (hf : (f (s.ctx n)).queue fu = (s.ctx n).queue fu) (tok : Option Nat) (v : Word) :
    endServed (onServed s n fu f) n fu tok v = s.updCtx n fun c => (f c).endCmd q tok v := by
  have hnow : InService ((s.updCtx n f).ctx n) fu q l := by
    rw [State.ctx_updCtx]
    exact { h with queue := hf.trans h.queue }
  rw [onServed_eq h, endServed_eq hnow]
  exact State.updCtx_updCtx _ _ _ _

theorem ended_endServed_onServed (f : Ctx → Ctx) (hf : (f (s.ctx n)).queue fu = (s.ctx n).queue fu) (tok : Option Nat)
    (v : Word) : CmdEnded (f (s.ctx n)) ((endServed (onServed s n fu f) n fu tok v).ctx n) fu q l tok v := by
  rw [endServed_onServed_eq h f hf, State.ctx_updCtx]
  exact InService.ended { h with queue := hf.trans h.queue } tok v

theorem mem_endServed_onServed (f : Ctx → Ctx) (hf : (f (s.ctx n)).queue fu = (s.ctx n).queue fu) (tok : Option Nat)
    (v : Word) : (endServed (onServed s n fu f) n fu tok v).mem = s.mem := by
  rw [endServed_onServed_eq h f hf]
  rfl

end

/-! ## The log writer (R248, R251) -/

/-- R248: the ready entry is appended; it leaves the staging buffer, and BL.LRLEN counts it. -/
theorem logEntryWrite_appends {s u : State} {n : Nat} {e : Stage} (hs : served s n 23 = none)
    (he : stageReady (s.ctx n) = some e)
    (hrun : (appendEntry (logAgent n (s.ctx n)) (logDesc (s.ctx n)) (s.ctx n).baste.lrlen.toNat e).run s = (.ok (), u)) :
    ∃ t, exec (.logEntryWrite n) s = .next t ∧ t.mem = u.mem ∧
      (t.ctx n).baste = { (s.ctx n).baste with
        stages := (s.ctx n).baste.stages.tail, lrlen := (s.ctx n).baste.lrlen + BitVec.ofNat 40 e.len } ∧
      (t.core (coreOf n)).staged = (s.core (coreOf n)).staged - 64 * e.len := by
  have hu : OnlyAccess s u := (accesses_appendEntry ..).of_run hrun
  have hexec : exec (.logEntryWrite n) s = .next (writeStage s n) := by
    show execLogEntryWrite n s = _
    rw [execLogEntryWrite, hs]
  refine ⟨_, hexec, ?_⟩
  simp only [writeStage, he, hrun]
  refine ⟨rfl, ?_, ?_⟩
  · rw [State.ctx_updCore, State.ctx_updCtx, hu.ctx]
    rfl
  · rw [State.core_updCore, State.core_updCtx, hu.core]

section
variable {s : State} {n : Nat} {q : Cmd} {l : List Cmd} (h : InService (s.ctx n) 23 q l)
include h

/-- R251: a BL command without work at a home ends. -/
theorem logEntryWrite_ends (hport : q.port = 5 ∨ q.port = 6 ∨ q.port = 8) : ∃ t, exec (.logEntryWrite n) s = .next t ∧
    t.mem = s.mem ∧ (t.ctx n).queue 23 = l ∧ (t.ctx n).baste = (s.ctx n).baste := by
  have hexec : exec (.logEntryWrite n) s = .next (endServed s n 23 none 0) := by
    show execLogEntryWrite n s = _
    simp [execLogEntryWrite, served_eq h, hport]
  have hend := ended_endServed h none 0
  exact ⟨_, hexec, mem_endServed h none 0, hend.queue, hend.baste⟩

/-! ## `bl.bast` (R253) -/

/-- R253: the reply makes the recording ready, with the reserved length and the limit of the log. -/
theorem bastEnd_data (r lim : Nat) : (bastEnd s n q (.data (w64 r) [w64 lim])).mem = s.mem ∧
    ((bastEnd s n q (.data (w64 r) [w64 lim])).ctx n).queue 23 = l ∧
    ((bastEnd s n q (.data (w64 r) [w64 lim])).ctx n).baste =
      { (s.ctx n).baste with lrlen := BitVec.ofNat 40 r, llim := BitVec.ofNat 40 lim, lrdy := true } := by
  have hctx : (dropReq s q.id).ctx n = s.ctx n := (spares_dropReq s q.id).ctx n
  have hdrop : InService ((dropReq s q.id).ctx n) 23 q l := hctx ▸ h
  have hwide (m : Nat) : (w64 m).setWidth 40 = BitVec.ofNat 40 m := BitVec.setWidth_ofNat_of_le (by decide) m
  have hend := ended_endServed_onServed hdrop (fun c => c.updBaste fun b =>
    { b with lrlen := (w64 r).setWidth 40, llim := (wordAt [w64 lim] 0).setWidth 40, lrdy := true }) rfl none 0
  refine ⟨(mem_endServed_onServed hdrop _ rfl none 0).trans (spares_dropReq s q.id).mem, hend.queue, hend.baste.trans ?_⟩
  rw [hctx]
  show { (s.ctx n).baste with lrlen := (w64 r).setWidth 40, llim := (w64 lim).setWidth 40, lrdy := true } = _
  rw [hwide, hwide]

/-- R253, R302: work at the log's home ends the command at once, or keeps its reply and sends it as a packet. -/
theorem blBastHomeDone_performs {r lim : Nat} {u : State} (hk : (s.req q.id).bind (keptReply s) = none)
    (hrun : (bastAt (cmdAgent n (s.ctx n) q).home q).run s = (.ok (r, lim), u)) :
    (u.req q.id = none → exec (.blBastHomeDone n) s = .next (bastEnd u n q (.data (w64 r) [w64 lim]))) ∧
      ∀ x, u.req q.id = some x → ∃ t, exec (.blBastHomeDone n) s = .next t ∧ t.mem = u.mem ∧ t.ctxs = u.ctxs ∧
        keptReply t x = some (.data (w64 r) [w64 lim]) ∧
        (u.serial, (0, replyPacket u (quadOf n) x)) ∈ t.transit := by
  refine ⟨fun hx => ?_, fun x hx => ?_⟩
  · show execBlBastHomeDone n s = _
    simp only [execBlBastHomeDone, served_eq h, hk, hrun, hx]
  · have hexec : exec (.blBastHomeDone n) s =
        .next (enterFabric (keepReply u x (.data (w64 r) [w64 lim])) (replyPacket u (quadOf n) x)) := by
      show execBlBastHomeDone n s = _
      simp only [execBlBastHomeDone, served_eq h, hk, hrun, hx]
    exact ⟨_, hexec, rfl, rfl, keptReply_keepReply u x _, mem_transit_enterFabric (keepReply u x _) _⟩

/-! ## The start of an unpick (R255) -/

/-- R255: an unpick that goes on starts at BL.CURSOR, and skips a mark there. -/
theorem unpickEntry_starts (hport : q.port = 7) (hchunk : q.chunk = 0) (hgo : q.a0.getLsbD 0 = true) :
    ∃ t d, exec (.unpickEntry n) s = .next t ∧ 1 ≤ d ∧ d ≤ 29 ∧ ⟨s.clk + d, false, .unpickEntry n⟩ ∈ t.cal ∧
      t.mem = s.mem ∧ (t.ctx n).ctl = { (s.ctx n).ctl with bsRun := true } ∧
      (t.ctx n).queue 23 = { q with chunk := 1 } :: l := by
  let cur := (s.ctx n).ctl.bsCursor.toNat
  have hstart : (unpickStart (cmdAgent n (s.ctx n) q).home q (s.ctx n)).run s = (.ok (some cur), s) := by
    rw [unpickStart, if_pos hgo]
    rfl
  have hexec : exec (.unpickEntry n) s = .next ((setCursor s n cur 1).within 1 29 (.unpickEntry n)) := by
    show execUnpickEntry n s = _
    simp only [execUnpickEntry, served_eq h, hport, hchunk, hstart, hgo]
    rfl
  have hset : setCursor s n cur 1 = s.updCtx n fun c => (c.updCtl fun l =>
      { l with bsRun := true, bsCursor := BitVec.ofNat 40 cur }).updCmd 23 fun q =>
        { q with chunk := 1, aux := if q.chunk = 0 then q.aux else 0 } := onServed_eq h _
  obtain ⟨d, hlo, hhi, hcal⟩ := State.within_cal (setCursor s n cur 1) 1 29 (.unpickEntry n) (by decide)
  refine ⟨_, d, hexec, hlo, hhi, ?_, ?_, ?_, ?_⟩
  · rw [hset] at hcal ⊢
    exact hcal
  · rw [State.within_mem, hset]
    rfl
  · rw [State.ctx_within, hset, State.ctx_updCtx, Ctx.ctl_updCmd]
    show { (s.ctx n).ctl with bsRun := true, bsCursor := BitVec.ofNat 40 cur } = _
    rw [BitVec.ofNat_toNat, BitVec.setWidth_eq]
  · rw [State.ctx_within, hset, State.ctx_updCtx]
    refine (Ctx.queue_updCmd (q := q) (l := l) ?_ _).trans ?_
    · exact h.queue
    · simp only [hchunk, if_true]

end

/-! ## The additions of an unpick (R256) -/

/-- Work that answers has answered in each of its parts. -/
theorem ok_of_run_bind {α β : Type} {x : Acc α} {f : α → Acc β} {s u : State} {b : β} (h : (x >>= f).run s = (.ok b, u)) :
    ∃ a t, x.run s = (.ok a, t) ∧ (f a).run t = (.ok b, u) := by
  rcases hx : x.run s with ⟨_ | a, t⟩
  · rw [run_bind_error hx] at h
    cases h
  · exact ⟨a, t, rfl, run_bind_ok hx ▸ h⟩

/-- R256: an added contribution is stored, and the command in service takes its flags and counts it. -/
theorem addContr_ok {g : Agent} {k : Contr} {s u : State} (h : (addContr g k).run s = (.ok (), u)) :
    ∃ v flg, OnlyAccess s v ∧ u = onServed (onServed v g.n 23 fun c => c.updCmd 23 fun q => { q with flg := q.flg ||| flg })
      g.n 23 fun c => c.updCmd 23 fun q => { q with aux := q.aux + 1 } := by
  obtain ⟨a, s1, h1, h⟩ := ok_of_run_bind h
  obtain ⟨old, s2, h2, h⟩ := ok_of_run_bind h
  obtain ⟨⟨⟩, s3, h3, h⟩ := ok_of_run_bind h
  have hv : OnlyAccess s s3 := (((accesses_mapRow ..).of_run h1).trans ((accesses_readVirt ..).of_run h2)).trans
    ((accesses_writeVirt ..).of_run h3)
  exact ⟨s3, _, hv, (congrArg Prod.snd h).symm⟩

section
variable {s u : State} {n : Nat} {q : Cmd} {l : List Cmd} (h : InService (s.ctx n) 23 q l)
include h

/-- An added contribution leaves the context with its command in service, and the clk, as they were. -/
theorem addContr_spec {g : Agent} {k : Contr} (hg : g.n = n) (hrun : (addContr g k).run s = (.ok (), u)) :
    (∃ p, InService (u.ctx n) 23 p l) ∧ (u.ctx n).baste = (s.ctx n).baste ∧ u.clk = s.clk := by
  subst hg
  obtain ⟨v, flg, hv, rfl⟩ := addContr_ok hrun
  have hin : InService (v.ctx g.n) 23 q l := hv.ctx g.n ▸ h
  have hflg := hin.updCmd (fun q => { q with flg := q.flg ||| flg }) rfl rfl
  have hnow := hflg.updCmd (fun q => { q with aux := q.aux + 1 }) rfl rfl
  rw [onServed_eq hin, onServed_eq (by rw [State.ctx_updCtx]; exact hflg), State.ctx_updCtx, State.ctx_updCtx]
  exact ⟨⟨_, hnow⟩, by rw [Ctx.baste_updCmd, Ctx.baste_updCmd, hv.ctx], hv.clk⟩

/-- R256: one clk of an unpick adds a row; while others are left, it goes on in the next clk. -/
theorem unpickEntry_adds {a : Contr} {r : List Contr} (hport : q.port = 7) (hchunk : q.chunk ≠ 0)
    (hcs : (s.ctx n).baste.contrs = a :: r) (hr : r ≠ []) (hone : rowsPerClk q (a :: r) = 1)
    (hrun : (addContr (cmdAgent n (s.ctx n) q) a).run s = (.ok (), u)) : ∃ t, exec (.unpickEntry n) s = .next t ∧
      t.mem = u.mem ∧ (t.ctx n).baste = { (s.ctx n).baste with contrs := r } ∧
      ⟨s.clk + 1, false, .unpickEntry n⟩ ∈ t.cal := by
  obtain ⟨⟨p, hin⟩, hbaste, hclk⟩ := addContr_spec h rfl hrun
  have hsum : (((a :: r).take 1).forM (addContr (cmdAgent n (s.ctx n) q))).run s = (.ok (), u) := run_bind_ok hrun
  have hset : setContrs u n r = u.updCtx n fun c => c.updBaste fun b => { b with contrs := r } := onServed_eq hin _
  have hadd : addSome s n (cmdAgent n (s.ctx n) q) q (a :: r) = (setContrs u n r).within 1 1 (.unpickEntry n) := by
    simp only [addSome, hone, hsum]
    exact if_pos hr
  have hexec : exec (.unpickEntry n) s = .next ((setContrs u n r).within 1 1 (.unpickEntry n)) := by
    rw [← hadd]
    show execUnpickEntry n s = _
    simp [execUnpickEntry, served_eq h, hport, hchunk, hcs]
  obtain ⟨d, hlo, hhi, hcal⟩ := State.within_cal (setContrs u n r) 1 1 (.unpickEntry n) le_rfl
  obtain rfl : d = 1 := le_antisymm hhi hlo
  refine ⟨_, hexec, ?_, ?_, ?_⟩
  · rw [State.within_mem, hset]
    rfl
  · rw [State.ctx_within, hset, State.ctx_updCtx, ← hbaste]
    rfl
  · rw [hset] at hcal ⊢
    rw [← hclk]
    exact hcal

/-- R255: at the mark that it looks for an unpick ends, with its token and its status. -/
theorem unpickEntry_marks {e : Entry} (hport : q.port = 7) (hchunk : q.chunk = 2) (hcs : (s.ctx n).baste.contrs = [])
    (hrun : (readEntry (cmdAgent n (s.ctx n) q) q.a3 (s.ctx n).ctl.bsCursor.toNat).run s = (.ok e, u)) (hkind : e.kind = 3)
    (hmark : fld (wordAt e.w 3) 0 32 = fld q.go 0 32) : ∃ t, exec (.unpickEntry n) s = .next t ∧ t.mem = u.mem ∧
      (t.ctx n).queue 23 = l ∧
      (t.ctx n).ctl = { (s.ctx n).ctl with bsStat := 1, bsRun := false, flags := (s.ctx n).ctl.flags ||| q.flg } ∧
      ∀ k, skTok q.a2 = some k → (t.ctx n).tok k = ⟨.written, 1⟩ := by
  have hu : OnlyAccess s u := (accesses_readEntry ..).of_run hrun
  have hin : InService (u.ctx n) 23 q l := hu.ctx n ▸ h
  have hone : (unpickOne (cmdAgent n (s.ctx n) q) q (s.ctx n).ctl.bsCursor.toNat true).run s = (.ok (.ends 1, []), u) := by
    rw [unpickOne, run_bind_ok hrun, hkind, hmark]
    simp only [Bool.true_and, decide_true, if_true]
    rfl
  have hexec : exec (.unpickEntry n) s = .next (unpickEnds u n q 1) := by
    show execUnpickEntry n s = _
    simp [execUnpickEntry, served_eq h, hport, hchunk, hcs, hone, walkStep]
  have hend := ended_endServed_onServed hin (fun c => c.updCtl fun l =>
    { l with bsStat := 1, bsRun := false }) rfl (skTok q.a2) 1
  refine ⟨_, hexec, mem_endServed_onServed hin _ rfl _ _, hend.queue, hend.ctl.trans ?_, hend.written⟩
  rw [hu.ctx]
  rfl

end

end Sys2Proof.Machine
end

section
/-!
PROOFS. Pattern commands, the pattern loader and shoot-downs at work (R337, R342, R376, R377).
-/

namespace Sys2Proof.Machine

/-! ## `pt.qry` (R342) -/

/-- R342: `pt.qry` answers a pattern's state, or that there is none. -/
theorem ptCommandComplete_query {s : State} {n : Nat} {q : Cmd} {l : List Cmd} (h : InService (s.ctx n) 25 q l)
    (hport : q.port = 6) : ∃ t, exec (.ptCommandComplete n) s = .next t ∧ t.mem = s.mem ∧ (t.ctx n).queue 25 = l ∧
      ∀ k, ptTok q.a2 = some k → (t.ctx n).tok k = ⟨.written,
        match s.pats.find? fun p => p.pid = BitVec.ofNat 32 (fld q.go 0 32) with
        | some p => w64 (p.st.toNat + 1)
        | none => 0⟩ := by
  have hends (v : Word) (hexec : exec (.ptCommandComplete n) s = .next (endServed s n 25 (ptTok q.a2) v)) :
      ∃ t, exec (.ptCommandComplete n) s = .next t ∧ t.mem = s.mem ∧ (t.ctx n).queue 25 = l ∧
        ∀ k, ptTok q.a2 = some k → (t.ctx n).tok k = ⟨.written, v⟩ :=
    have hend := ended_endServed h (ptTok q.a2) v
    ⟨_, hexec, mem_endServed h _ v, hend.queue, hend.written⟩
  refine hends _ ?_
  show execPtCommandComplete n s = _
  cases hfind : s.pats.find? fun p => p.pid = BitVec.ofNat 32 (fld q.go 0 32) with
  | none => simp only [execPtCommandComplete, served_eq h, hport, hfind]; rfl
  | some p => simp only [execPtCommandComplete, served_eq h, hport, hfind]

/-! ## Shoot-downs (R376, R377) -/

/-- The accesses for which an `xl.sda` still waits: those that it has noted, or at its start those that use an entry it
removes. -/
def sdaLeft (s : State) (n : Nat) (q : Cmd) : List Nat := sdaOpen s (if q.chunk = 1 then q.after else sdaUsers s n q)

section
variable {s : State} {n : Nat} {q : Cmd} {l : List Cmd}

/-- What shoot-downs leave of a context is its own. -/
theorem inService_sdaRemove (h : InService (s.ctx n) 26 q l) : InService ((sdaRemove s n q).ctx n) 26 q l := h

theorem exec_shootdown_range (h : InService (s.ctx n) 26 q l) (hport : q.port = 4) :
    exec (.shootdownComplete n) s = if sdaLeft s n q = [] then .next (endServed (sdaRemove s n q) n 26 (xlTok q.a2) 0)
      else .next ((onServed (sdaRemove s n q) n 26 fun c => c.updCmd 26 fun x =>
        { x with chunk := 1, after := sdaLeft s n q }).at (s.clk + 1) false (.shootdownComplete n)) := by
  show execShootdownComplete n s = _
  simp only [execShootdownComplete, served_eq h, hport]
  exact if_neg (by decide : ¬4 = 5)

/-- R377: once every access that used an entry is performed, the command ends. -/
theorem shootdown_range_ends (h : InService (s.ctx n) 26 q l) (hport : q.port = 4) (hleft : sdaLeft s n q = []) :
    ∃ t, (exec (.shootdownComplete n) s = .next t ∧ (t.ctx n).queue 26 = l ∧
      ∀ k, xlTok q.a2 = some k → (t.ctx n).tok k = ⟨.written, 0⟩) ∧ t.mem = s.mem ∧
      t.tlb = (s.tlb.filter fun e => !sdaHit n q e).map (sdaTrim n q) := by
  have hend := ended_endServed (inService_sdaRemove h) (xlTok q.a2) 0
  refine ⟨_, ⟨(exec_shootdown_range h hport).trans (if_pos hleft), hend.queue, hend.written⟩, ?_⟩
  rw [endServed_eq (inService_sdaRemove h)]
  exact ⟨rfl, rfl⟩

/-- R377: while accesses are left, the entries are gone and the command waits for them. -/
theorem shootdown_range_waits (h : InService (s.ctx n) 26 q l) (hport : q.port = 4) (hleft : sdaLeft s n q ≠ []) :
    ∃ t, exec (.shootdownComplete n) s = .next t ∧ t.mem = s.mem ∧
      t.tlb = (s.tlb.filter fun e => !sdaHit n q e).map (sdaTrim n q) ∧
      ⟨s.clk + 1, false, .shootdownComplete n⟩ ∈ t.cal ∧
      (t.ctx n).queue 26 = { q with chunk := 1, after := sdaLeft s n q } :: l := by
  refine ⟨_, (exec_shootdown_range h hport).trans (if_neg hleft), ?_⟩
  rw [onServed_eq (inService_sdaRemove h)]
  refine ⟨rfl, rfl, State.mem_at _ _ _ _, ?_⟩
  rw [State.ctx_at, State.ctx_updCtx]
  exact Ctx.queue_updCmd h.queue _

/-- R377: a request that uses an entry which the shoot-down removes, and is not yet performed, is waited for. -/
theorem mem_sdaLeft {p : Nat × Req} {b : Nat × BitVec 16} (hchunk : q.chunk ≠ 1) (hp : p ∈ s.reqs)
    (hopen : p.2.performed = false) (hsrc : srcSpace s p.1 p.2.src = some b) (huse : sdaUses s n q b.1 b.2 p.2.va = true)
    (hid : p.1 < 2 ^ 63) : p.1 ∈ sdaLeft s n q := by
  have huser : p.1 ∈ sdaUsers s n q := by
    refine List.mem_append_left _ (List.mem_append_left _ (List.mem_map.2 ⟨p, List.mem_filter.2 ⟨hp, ?_⟩, rfl⟩))
    rw [hopen, hsrc]
    exact huse
  have hwaits : (s.reqs.any fun x => decide (x.1 = p.1) && !x.2.performed) = true :=
    List.any_eq_true.2 ⟨p, hp, by rw [decide_eq_true rfl, hopen]; rfl⟩
  rw [sdaLeft, if_neg hchunk]
  refine List.mem_filter.2 ⟨List.mem_flatMap.2 ⟨p.1, huser, ?_⟩, ?_⟩
  · rw [if_pos hid]
    exact List.mem_singleton_self _
  · dsimp only
    rw [hwaits, Bool.true_or, Bool.or_true]

/-- R376: `xl.sdk` removes the blocks of a pool that it names, and ends. -/
theorem shootdown_blocks {u : State} {pa : Nat} (h : InService (s.ctx n) 26 q l) (hport : q.port = 5)
    (hrun : (translate (cmdAgent n (s.ctx n) q) q.a0 .read 64).run s = (.ok pa, u)) (hu : u.ctxs = s.ctxs) :
    ∃ t, (exec (.shootdownComplete n) s = .next t ∧ (t.ctx n).queue 26 = l ∧
      ∀ k, xlTok q.a2 = some k → (t.ctx n).tok k = ⟨.written, 0⟩) ∧ t.mem = u.mem ∧
      t.skb = u.skb.filter fun e => !sdkHit n pa q e := by
  have hin : InService ((shootBlocks u (sdkHit n pa q)).ctx n) 26 q l := by
    rw [State.ctx_of_ctxs (show (shootBlocks u (sdkHit n pa q)).ctxs = s.ctxs from hu)]
    exact h
  have hexec : exec (.shootdownComplete n) s = .next (endServed (shootBlocks u (sdkHit n pa q)) n 26 (xlTok q.a2) 0) := by
    show execShootdownComplete n s = _
    simp only [execShootdownComplete, served_eq h, hport, hrun, if_true]
  have hend := ended_endServed hin (xlTok q.a2) 0
  refine ⟨_, ⟨hexec, hend.queue, hend.written⟩, ?_⟩
  rw [endServed_eq hin]
  exact ⟨rfl, rfl⟩

end

/-! ## The pattern loader (R337) -/

theorem spares_refl (s : State) : Spares s s := ⟨rfl, rfl⟩

theorem spares_foldl {α : Type} (f : State → α → State) (h : ∀ s a, Spares s (f s a)) (l : List α) :
    ∀ s, Spares s (l.foldl f s) := by
  induction l with
  | nil => exact spares_refl
  | cons a l ih => exact fun s => (h s a).trans (ih (f s a))

theorem spares_postAs (s : State) (id : Nat) (src : ReqSrc) (va : Word) (pa : Nat) (v : Word) :
    Spares s (postAs s id src va pa v) := by
  unfold postAs
  dsimp only
  split
  · exact ⟨rfl, rfl⟩
  · refine .trans ?_ (spares_sendReq _ _ _)
    exact ⟨rfl, rfl⟩

theorem spares_postReq (s : State) (src : ReqSrc) (va : Word) (pa : Nat) (v : Word) : Spares s (postReq s src va pa v).2 :=
  Spares.trans (t := { s with serial := s.serial + 1 }) ⟨rfl, rfl⟩ (spares_postAs ..)

theorem spares_updHolder (s : State) (h : Nat) (f : Holder → Holder) : Spares s (s.updHolder h f) := ⟨rfl, rfl⟩

theorem spares_updRouter (s : State) (h : Nat) (f : Router → Router) : Spares s (s.updRouter h f) := ⟨rfl, rfl⟩

/-- Entries and circuits of an image are installed beside the contexts and the memory. -/
theorem spares_installPattern (s : State) (l : Loader) (i : Image) (pa : Nat) : Spares s (installPattern s l i pa).2 := by
  unfold installPattern
  dsimp only
  refine .trans ?_ (spares_postReq _ _ _ _ _)
  refine .trans (.trans (spares_foldl _ (fun s _ => ?_) _ s) (spares_foldl _ (fun s _ => ?_) _ _)) ⟨rfl, rfl⟩
  · exact spares_updHolder _ _ _
  · split
    · exact spares_updRouter _ _ _
    · exact spares_refl s

/-- The loader leaves every context as it was. -/
theorem ctxs_loadPattern (s : State) (l : Loader) (a : Word) : (loadPattern s l a).2.ctxs = s.ctxs := by
  have hread (g : Agent) : Accesses (do
      let i ← readImage g l.phys a
      let pa ← translate g i.acnt .wait 8
      pure (i, pa)) :=
    accesses_bind (accesses_readImage ..) fun _ => accesses_bind (accesses_translate ..) fun _ => accesses_pure _
  unfold loadPattern
  dsimp only
  split
  · next hrun => exact ((hread _).of_run hrun).ctxs
  · next i pa t hrun =>
    have ht := ((hread _).of_run hrun).ctxs
    split
    · exact ht
    · exact (spares_installPattern t l i pa).ctxs.trans ht

section
variable {s v : State} {l : PatLoad} {rest : List PatLoad}

/-- What the loader makes of a load, for its owner. -/
def loadFor (s : State) (rest : List PatLoad) (l : PatLoad) (owner : Option (BitVec 32)) :
    Except Nat (BitVec 32) × State :=
  loadPattern { s with loads := rest } ⟨owner, l.priv, l.asid, l.ptroot, l.phys⟩ l.image

/-- A load of the host that is refused answers its code. -/
theorem patternValidate_host_refused {tag code : Nat} (hl : s.loads = l :: rest) (ht : l.tag = some tag)
    (hload : loadFor s rest l l.owner = (.error code, v)) : ∃ t, exec .patternValidate s = .next t ∧ t.mem = v.mem ∧
      t.pats = v.pats ∧ t.resps = v.resps ++ [⟨0x86, BitVec.ofNat 16 tag, 2, BitVec.ofNat 8 code, 0, 0, []⟩] := by
  have hexec : exec .patternValidate s = .next (respond v 0x06 tag 2 code 0 []) := by
    show execPatternValidate s = _
    unfold loadFor at hload
    simp only [execPatternValidate, hl, ht, hostLoad, hload]
  exact ⟨_, hexec, rfl, rfl, rfl⟩

/-- A load of the host that passes answers the id of its pattern. -/
theorem patternValidate_host_loads {tag : Nat} {pid : BitVec 32} (hl : s.loads = l :: rest) (ht : l.tag = some tag)
    (hload : loadFor s rest l l.owner = (.ok pid, v)) : ∃ t, exec .patternValidate s = .next t ∧ t.mem = v.mem ∧
      t.pats = v.pats ∧ t.resps = v.resps ++ [⟨0x86, BitVec.ofNat 16 tag, 0, 0, 0, pid.setWidth 64, []⟩] := by
  have hexec : exec .patternValidate s = .next (respond v 0x06 tag 0 0 (pid.setWidth 64) []) := by
    show execPatternValidate s = _
    unfold loadFor at hload
    simp only [execPatternValidate, hl, ht, hostLoad, hload]
  exact ⟨_, hexec, rfl, rfl, rfl⟩

/-- A `pt.load` that passes ends with the id of its pattern. -/
theorem patternValidate_context_loads {n : Nat} {q : Cmd} {r : List Cmd} {pid : BitVec 32} (hl : s.loads = l :: rest)
    (ht : l.tag = none) (hn : l.n = n) (h : InService (s.ctx n) 25 q r) (hid : q.id = l.cmd)
    (hload : loadFor s rest l (some (s.ctx n).ctl.kid) = (.ok pid, v)) : ∃ t, exec .patternValidate s = .next t ∧
      t.mem = v.mem ∧ t.pats = v.pats ∧ (t.ctx n).queue 25 = r ∧
      ∀ k, ptTok q.a2 = some k → (t.ctx n).tok k = ⟨.written, pid.setWidth 64⟩ := by
  subst hn
  have hctxs : v.ctxs = s.ctxs := by
    have := ctxs_loadPattern { s with loads := rest } ⟨some (s.ctx l.n).ctl.kid, l.priv, l.asid, l.ptroot, l.phys⟩ l.image
    unfold loadFor at hload
    rwa [hload] at this
  have hin : InService (v.ctx l.n) 25 q r := by
    rw [State.ctx_of_ctxs hctxs]
    exact h
  have hserved : served { s with loads := rest } l.n 25 = some (s.ctx l.n, q) := served_eq (s := { s with loads := rest }) h
  have hexec : exec .patternValidate s = .next (endServed v l.n 25 (ptTok q.a2) (pid.setWidth 64)) := by
    show execPatternValidate s = _
    unfold loadFor at hload
    simp only [execPatternValidate, hl, ht, contextLoad, hserved, hid, hload, ne_eq, not_true_eq_false, if_false]
  have hend := ended_endServed hin (ptTok q.a2) (pid.setWidth 64)
  refine ⟨_, hexec, ?_, ?_, hend.queue, hend.written⟩
  · exact mem_endServed hin _ _
  · rw [endServed_eq hin]
    rfl

end

end Sys2Proof.Machine
end

section
/-!
PROOFS. Patterns become live and retire, and reshards run their phases (R332, R339, R366).
-/

namespace Sys2Proof.Machine

/-! ## Entries of holders (R322) -/

theorem entry_updEntry (s : State) (h e : Nat) (f : FEntry → FEntry) :
    ((s.updEntry h e f).holder h).entry e = f ((s.holder h).entry e) := by
  unfold State.updEntry
  rw [State.holder_updHolder]
  exact KMap.get_put_same _ _ _ _

theorem entry_updEntry_other (s : State) {h e h' e' : Nat} (f : FEntry → FEntry) (hne : (h', e') ≠ (h, e)) :
    ((s.updEntry h e f).holder h').entry e' = (s.holder h').entry e' := by
  unfold State.updEntry
  by_cases hh : h' = h
  · subst hh
    rw [State.holder_updHolder]
    exact KMap.get_put_other _ _ _ _ _ fun he => hne (he ▸ rfl)
  · rw [State.holder_updHolder_other _ _ _ _ hh]

/-- Each of the entries is changed once, and no other. -/
theorem entry_foldl_updEntry (f : Nat → FEntry → FEntry) (l : List (Nat × Nat)) (hl : l.Nodup) : ∀ s : State,
    let t := l.foldl (fun s e => s.updEntry e.1 e.2 (f e.1)) s
    (∀ e ∈ l, (t.holder e.1).entry e.2 = f e.1 ((s.holder e.1).entry e.2)) ∧
      ∀ e, e ∉ l → (t.holder e.1).entry e.2 = (s.holder e.1).entry e.2 := by
  induction l with
  | nil => exact fun s => ⟨fun e he => absurd he List.not_mem_nil, fun e _ => rfl⟩
  | cons a l ih =>
    obtain ⟨ha, hl⟩ := List.nodup_cons.1 hl
    intro s
    obtain ⟨hin, hout⟩ := ih hl (s.updEntry a.1 a.2 (f a.1))
    have hother (e : Nat × Nat) (hne : e ≠ a) : ((s.updEntry a.1 a.2 (f a.1)).holder e.1).entry e.2 =
        (s.holder e.1).entry e.2 := entry_updEntry_other s _ hne
    refine ⟨fun e he => ?_, fun e he => ?_⟩
    · rcases List.mem_cons.1 he with rfl | he
      · exact (hout e ha).trans (entry_updEntry s _ _ _)
      · rw [← hother e fun h => ha (h ▸ he)]
        exact hin e he
    · rw [← hother e fun h => he (h ▸ List.mem_cons_self)]
      exact hout e fun h => he (List.mem_cons_of_mem a h)

/-! ## Activation (R339) -/

/-- From `s` to `t` no byte of memory, no context, no pattern and no holder changes. -/
structure KeepsFlows (s t : State) : Prop extends Spares s t where
  pats : t.pats = s.pats
  holders : t.holders = s.holders

theorem KeepsFlows.refl (s : State) : KeepsFlows s s := ⟨⟨rfl, rfl⟩, rfl, rfl⟩

theorem KeepsFlows.trans {s t u : State} (h : KeepsFlows s t) (k : KeepsFlows t u) : KeepsFlows s u :=
  ⟨h.toSpares.trans k.toSpares, k.pats.trans h.pats, k.holders.trans h.holders⟩

theorem keepsFlows_foldl {α : Type} (f : State → α → State) (h : ∀ s a, KeepsFlows s (f s a)) (l : List α) :
    ∀ s, KeepsFlows s (l.foldl f s) := by
  induction l with
  | nil => exact KeepsFlows.refl
  | cons a l ih => exact fun s => (h s a).trans (ih (f s a))

theorem keepsFlows_updRouter (s : State) (h : Nat) (f : Router → Router) : KeepsFlows s (s.updRouter h f) :=
  ⟨⟨rfl, rfl⟩, rfl, rfl⟩

/-- The kernels that name a pattern take note that it is live. -/
def noteLive (s : State) (pid : Nat) : State :=
  let named (k : Kern) : Kern :=
    let here := (List.range 4).map fun i =>
      (k.pats[i]?.getD false) || decide (fld (wordAt k.words (20 + i / 2)) (32 * (i % 2)) 32 = pid)
    { k with pats := here }
  { s with dist := { s.dist with kerns := s.dist.kerns.map named } }

/-- Kernels that wait are looked at in the next clk. -/
def lookAgain (s : State) : State :=
  s.dist.kerns.foldl (fun s k => if k.st = .queued then s.at (s.clk + 1) false (.dependenceMet k.kid.toNat) else s) s

theorem keepsFlows_noteLive (s : State) (pid : Nat) : KeepsFlows s (noteLive s pid) := ⟨⟨rfl, rfl⟩, rfl, rfl⟩

theorem keepsFlows_lookAgain (s : State) : KeepsFlows s (lookAgain s) := by
  refine keepsFlows_foldl _ (fun s k => ?_) _ s
  split
  · exact ⟨⟨rfl, rfl⟩, rfl, rfl⟩
  · exact KeepsFlows.refl s

/-- What is put under a key is found under it. -/
theorem find?_put {α : Type} (m : KMap α) (i : Nat) (v : α) : ((KMap.put m i v).find? fun p => p.1 = i) = some (i, v) := by
  induction m with
  | nil => simp [KMap.put]
  | cons e m ih =>
    obtain ⟨k, w⟩ := e
    rw [KMap.put]
    split
    · simp
    · split
      · simp
      · next hne => simpa [Ne.symm hne] using ih

/-- A pattern's own request is posted, and nothing that flows are made of changes. -/
theorem postReq_pattern (s : State) (pid : BitVec 32) (va : Word) (pa : Nat) (v : Word) :
    KeepsFlows s (postReq s (.pattern pid) va pa v).2 ∧ ∃ id r, (postReq s (.pattern pid) va pa v).2.req id = some r ∧
      r.src = .pattern pid ∧ r.pa = pa ∧ r.val = v := by
  unfold postReq postAs
  dsimp only
  split
  · exact ⟨⟨⟨rfl, rfl⟩, rfl, rfl⟩, s.serial, _, congrArg (Option.map _) (find?_put _ _ _), rfl, rfl, rfl⟩
  · exact ⟨⟨⟨rfl, rfl⟩, rfl, rfl⟩, s.serial, _, congrArg (Option.map _) (find?_put _ _ _), rfl, rfl, rfl⟩

/-- The entries of a pattern become live. -/
def entriesLive (s : State) (p : Pattern) : State := p.ents.foldl (fun s e => s.updEntry e.1 e.2 (liveEntry e.1)) s

/-- The circuits of a pattern become live. -/
def circuitsLive (s : State) (p : Pattern) : State :=
  p.circ.foldl (fun s c => s.updRouter c.1 fun r =>
    { r with slots := KMap.put r.slots c.2 (KMap.get 0 r.slots c.2 ||| 0x40) }) s

/-- The registry has the pattern as live. -/
def markLive (s : State) (p : Pattern) : State :=
  { s with pats := listUpd (fun q => q.pid = p.pid) (fun q => { q with st := 1, wasLive := true }) s.pats }

theorem spares_entriesLive (s : State) (p : Pattern) : Spares s (entriesLive s p) :=
  spares_foldl _ (fun s (e : Nat × Nat) => spares_updHolder s e.1 _) _ s

theorem pats_entriesLive (s : State) (p : Pattern) : (entriesLive s p).pats = s.pats :=
  foldl_keeps State.pats (fun s (e : Nat × Nat) => s.updEntry e.1 e.2 (liveEntry e.1)) (fun _ _ => rfl) _ s

theorem keepsFlows_circuitsLive (s : State) (p : Pattern) : KeepsFlows s (circuitsLive s p) :=
  keepsFlows_foldl _ (fun s (c : Nat × Nat) => keepsFlows_updRouter s c.1 _) _ s

/-- R339: a pattern becomes live, its entries with it, and waits for its RVAL. -/
theorem patternActivation_enlivens {s : State} {pid : Nat} {p : Pattern}
    (hfind : (s.pats.find? fun p => p.pid.toNat = pid) = some p) (hst : p.st = 0) (hp : p.ents.Nodup) :
    ∃ t id r, exec (.patternActivation pid) s = .next t ∧ t.mem = s.mem ∧ t.ctxs = s.ctxs ∧
      t.pats = listUpd (fun q => q.pid = p.pid) (fun q => { q with st := 1, wasLive := true }) s.pats ∧
      (∀ e ∈ p.ents, (t.holder e.1).entry e.2 = liveEntry e.1 ((s.holder e.1).entry e.2)) ∧
      t.req id = some r ∧ r.src = .pattern p.pid ∧ r.pa = p.acnt ∧ r.val = p.rval := by
  let live := circuitsLive (entriesLive s p) p
  let told := lookAgain (noteLive (markLive live p) pid)
  have hexec : exec (.patternActivation pid) s = .next (postReq told (.pattern p.pid) 0 p.acnt p.rval).2 := by
    show execPatternActivation pid s = _
    rw [execPatternActivation, hfind]
    exact if_neg (not_not.2 hst)
  obtain ⟨hpost, id, r, hreq, hsrc, hpa, hval⟩ := postReq_pattern told p.pid 0 p.acnt p.rval
  have hents := spares_entriesLive s p
  have hcirc := keepsFlows_circuitsLive (entriesLive s p) p
  have hafter := ((keepsFlows_noteLive _ pid).trans (keepsFlows_lookAgain _)).trans hpost
  refine ⟨_, id, r, hexec, ?_, ?_, ?_, fun e he => ?_, hreq, hsrc, hpa, hval⟩
  · exact hafter.mem.trans (hcirc.mem.trans hents.mem)
  · exact hafter.ctxs.trans (hcirc.ctxs.trans hents.ctxs)
  · rw [hafter.pats, ← pats_entriesLive s p, ← hcirc.pats]
    rfl
  · rw [holder_of_holders (hafter.holders.trans hcirc.holders)]
    exact (entry_foldl_updEntry liveEntry p.ents hp s).1 e he

end Sys2Proof.Machine
end

section
/-!
PROOFS. Patterns retire, and reshards run their phases (R332, R339, R366); the settling of O49.
-/

namespace Sys2Proof.Machine

/-! ## Retirement begins (R339) -/

theorem st_setSt (x : FEntry) : (x.setSt 3).st = 3 := by
  show fld (setFld x.w0 0 2 3) 0 2 = 3
  have hlow : ∀ a, a < 4 → a ||| 3 = 3 := by decide
  rw [fld_zero, setFld, w64, BitVec.toNat_ofNat, Nat.mod_mod_of_dvd _ (by decide), Nat.or_mod_two_pow]
  exact hlow _ (Nat.mod_lt _ (by decide))

/-- A change of the values under one key leaves what is read under any key, or changes it. -/
theorem get_map_at {α : Type} (d : α) (f : α → α) (j i : Nat) (m : KMap α) :
    KMap.get d (m.map fun p => if p.1 = j then (p.1, f p.2) else p) i = KMap.get d m i ∨
      KMap.get d (m.map fun p => if p.1 = j then (p.1, f p.2) else p) i = f (KMap.get d m i) := by
  induction m with
  | nil => exact .inl rfl
  | cons e m ih =>
    obtain ⟨k, w⟩ := e
    rw [List.map_cons]
    by_cases hi : i = k
    · subst hi
      dsimp only
      split
      · exact .inr (by simp [KMap.get])
      · exact .inl (by simp [KMap.get])
    · have hkey : (if k = j then (k, f w) else (k, w)).1 = k := by split <;> rfl
      have hskip (c : Nat × α) (l : KMap α) (hc : c.1 = k) : KMap.get d (c :: l) i = KMap.get d l i := by
        rw [KMap.get, hc, if_neg hi]
      rw [hskip _ _ hkey, hskip _ _ rfl]
      exact ih

theorem get_map_at_listed {α : Type} (d : α) (f : α → α) (i : Nat) (m : KMap α) (h : ∃ x, (i, x) ∈ m) :
    KMap.get d (m.map fun p => if p.1 = i then (p.1, f p.2) else p) i = f (KMap.get d m i) := by
  induction m with
  | nil => simp at h
  | cons e m ih =>
    obtain ⟨k, w⟩ := e
    by_cases hk : i = k
    · subst hk
      simp [KMap.get]
    · obtain ⟨x, hx⟩ := h
      have hx : (i, x) ∈ m := (List.mem_cons.1 hx).resolve_left fun he => hk (congrArg Prod.fst he)
      rw [List.map_cons, if_neg (Ne.symm hk), KMap.get, KMap.get, if_neg hk, if_neg hk]
      exact ih ⟨x, hx⟩

/-- An entry of a pattern begins to retire. -/
def retireEntry (s : State) (e : Nat × Nat) : State := s.updHolder e.1 fun x => x.updEnt e.2 fun y => y.setSt 3

/-- Is an entry in its holder's table? -/
def Listed (s : State) (e : Nat × Nat) : Prop := ∃ x, (e.2, x) ∈ (s.holder e.1).ents

theorem st_retireEntry (s : State) (e : Nat × Nat) (h : Listed s e) : (((retireEntry s e).holder e.1).entry e.2).st = 3 := by
  have hentry : ((retireEntry s e).holder e.1).entry e.2 = ((s.holder e.1).entry e.2).setSt 3 := by
    rw [retireEntry, State.holder_updHolder]
    exact get_map_at_listed FEntry.reset (fun y => y.setSt 3) e.2 (s.holder e.1).ents h
  rw [hentry, st_setSt]

/-- What retires stays so. -/
theorem st_retireEntry_keeps (s : State) (a e : Nat × Nat) (h : ((s.holder e.1).entry e.2).st = 3) :
    (((retireEntry s a).holder e.1).entry e.2).st = 3 := by
  rw [retireEntry]
  by_cases hh : e.1 = a.1
  · rw [hh] at h ⊢
    rw [State.holder_updHolder]
    rcases get_map_at FEntry.reset (fun y => y.setSt 3) a.2 e.2 (s.holder a.1).ents with hsame | hset
    · exact (congrArg FEntry.st hsame).trans h
    · exact (congrArg FEntry.st hset).trans (st_setSt _)
  · rwa [State.holder_updHolder_other _ _ _ _ hh]

theorem listed_retireEntry (s : State) (a e : Nat × Nat) (h : Listed s e) : Listed (retireEntry s a) e := by
  obtain ⟨x, hx⟩ := h
  rw [Listed, retireEntry]
  by_cases hh : e.1 = a.1
  · rw [hh, State.holder_updHolder]
    rw [hh] at hx
    refine ⟨if e.2 = a.2 then x.setSt 3 else x, List.mem_map.2 ⟨_, hx, ?_⟩⟩
    dsimp only
    split <;> rfl
  · rw [State.holder_updHolder_other _ _ _ _ hh]
    exact ⟨x, hx⟩

/-- Every listed entry of a pattern that begins to retire retires. -/
theorem st_foldl_retireEntry (e : Nat × Nat) (l : List (Nat × Nat)) : ∀ s : State,
    ((s.holder e.1).entry e.2).st = 3 ∨ (Listed s e ∧ e ∈ l) →
      (((l.foldl retireEntry s).holder e.1).entry e.2).st = 3 := by
  induction l with
  | nil => exact fun s h => h.resolve_right fun hl => List.not_mem_nil hl.2
  | cons a l ih =>
    rintro s (hst | ⟨hlisted, he⟩)
    · exact ih _ (.inl (st_retireEntry_keeps s a e hst))
    · rcases List.mem_cons.1 he with rfl | he
      · exact ih _ (.inl (st_retireEntry s e hlisted))
      · exact ih _ (.inr ⟨listed_retireEntry s a e hlisted, he⟩)

/-- The registry has the pattern as retiring, its entries retired. -/
def markRetiring (s : State) (p : Pattern) : State :=
  { p.ents.foldl retireEntry s with
    pats := listUpd (fun q => q.pid = p.pid) (fun q => { q with st := 2 }) (p.ents.foldl retireEntry s).pats }

theorem startRetire_eq (s : State) (p : Pattern) :
    startRetire s p = (markRetiring s p).within 1 300 (.patternRetirement p.pid.toNat) := rfl

section
variable {s : State} {pid : Nat} {p : Pattern} (hfind : (s.pats.find? fun p => p.pid.toNat = pid) = some p)
include hfind

theorem exec_patternRetirement : exec (.patternRetirement pid) s = .next (if p.st ≠ 2 then startRetire s p
    else if addsOut s p then s.at (s.clk + 1) false (.patternRetirement pid) else retired s p) := by
  show execPatternRetirement pid s = _
  rw [execPatternRetirement, hfind]

/-- R339: at RVAL the pattern and its entries begin to retire. -/
theorem patternRetirement_starts (hst : p.st ≠ 2) : ∃ t d, exec (.patternRetirement pid) s = .next t ∧ t.mem = s.mem ∧
    t.ctxs = s.ctxs ∧ t.pats = listUpd (fun q => q.pid = p.pid) (fun q => { q with st := 2 }) s.pats ∧
    (∀ e ∈ p.ents, ∀ x, (e.2, x) ∈ (s.holder e.1).ents → ((t.holder e.1).entry e.2).st = 3) ∧
    1 ≤ d ∧ d ≤ 300 ∧ ⟨s.clk + d, false, .patternRetirement p.pid.toNat⟩ ∈ t.cal := by
  have hspares : Spares s (p.ents.foldl retireEntry s) := spares_foldl _ (fun s (e : Nat × Nat) => spares_updHolder s e.1 _) _ s
  have hpats : (p.ents.foldl retireEntry s).pats = s.pats := foldl_keeps State.pats retireEntry (fun _ _ => rfl) _ s
  have hclk : (p.ents.foldl retireEntry s).clk = s.clk := foldl_keeps State.clk retireEntry (fun _ _ => rfl) _ s
  obtain ⟨d, hlo, hhi, hcal⟩ := State.within_cal (markRetiring s p) 1 300 (.patternRetirement p.pid.toNat) (by decide)
  have hexec := (exec_patternRetirement hfind).trans (congrArg _ (if_pos hst))
  rw [startRetire_eq] at hexec
  refine ⟨_, d, hexec, hspares.mem, hspares.ctxs, ?_, fun e he x hx => ?_, hlo, hhi, ?_⟩
  · rw [← hpats]
    rfl
  · exact st_foldl_retireEntry e p.ents s (.inr ⟨⟨x, hx⟩, he⟩)
  · rw [← hclk]
    exact hcal

/-- R332: a pattern whose deliveries have adds to be performed waits for them. -/
theorem patternRetirement_waits (hst : p.st = 2) (hadds : addsOut s p = true) :
    exec (.patternRetirement pid) s = .next (s.at (s.clk + 1) false (.patternRetirement pid)) := by
  rw [exec_patternRetirement hfind, if_neg (not_not.2 hst), if_pos hadds]

theorem exec_patternRetirement_ends (hst : p.st = 2) (hadds : addsOut s p = false) :
    exec (.patternRetirement pid) s = .next (retired s p) := by
  rw [exec_patternRetirement hfind, if_neg (not_not.2 hst), hadds]
  rfl

end

/-! ## Retirement ends (R339) -/

/-- From `s` to `t` no byte of memory, no pattern, and no register or token of a context changes. -/
structure KeepsFiles (s t : State) : Prop where
  mem : t.mem = s.mem
  pats : t.pats = s.pats
  files : ∀ j, (t.ctx j).regs = (s.ctx j).regs ∧ (t.ctx j).toks = (s.ctx j).toks

theorem KeepsFiles.refl (s : State) : KeepsFiles s s := ⟨rfl, rfl, fun _ => ⟨rfl, rfl⟩⟩

theorem KeepsFiles.trans {s t u : State} (h : KeepsFiles s t) (k : KeepsFiles t u) : KeepsFiles s u :=
  ⟨k.mem.trans h.mem, k.pats.trans h.pats, fun j =>
    ⟨(k.files j).1.trans (h.files j).1, (k.files j).2.trans (h.files j).2⟩⟩

theorem keepsFiles_foldl {α : Type} (f : State → α → State) (h : ∀ s a, KeepsFiles s (f s a)) (l : List α) :
    ∀ s, KeepsFiles s (l.foldl f s) := by
  induction l with
  | nil => exact KeepsFiles.refl
  | cons a l ih => exact fun s => (h s a).trans (ih (f s a))

theorem KeepsFlows.keepsFiles {s t : State} (h : KeepsFlows s t) : KeepsFiles s t :=
  ⟨h.mem, h.pats, fun j => by rw [h.toSpares.ctx]; exact ⟨rfl, rfl⟩⟩

theorem keepsFiles_updHolder (s : State) (h : Nat) (f : Holder → Holder) : KeepsFiles s (s.updHolder h f) :=
  ⟨rfl, rfl, fun _ => ⟨rfl, rfl⟩⟩

/-- An entry gives up its buffer, which is none of its context's registers and tokens. -/
theorem leaveCb_keeps (s : State) (h e : Nat) : KeepsFiles s (leaveCb s h e) ∧ (leaveCb s h e).holders = s.holders := by
  unfold leaveCb onFlowCb
  dsimp only
  split
  · unfold updImage
    split
    · refine ⟨⟨rfl, rfl, fun j => ?_⟩, rfl⟩
      by_cases hj : j = ((s.holder h).entry e).ctx
      · subst hj
        rw [State.ctx_updCtx]
        exact ⟨rfl, rfl⟩
      · rw [State.ctx_updCtx_other _ _ _ _ hj]
        exact ⟨rfl, rfl⟩
    · exact ⟨⟨rfl, rfl, fun _ => ⟨rfl, rfl⟩⟩, rfl⟩
  · exact ⟨KeepsFiles.refl s, rfl⟩

theorem keepsFlows_countQuad (s : State) (h ev n : Nat) : KeepsFlows s (s.countQuad h ev n) := by
  unfold State.countQuad
  split
  · exact KeepsFlows.refl s
  · exact ⟨⟨rfl, rfl⟩, rfl, rfl⟩

/-- Counted events change nothing beside the holder. -/
theorem keepsFlows_holderCounts (s : State) (h : Nat) (f : Holder → Holder) :
    KeepsFlows (s.updHolder h f) (s.holderCounts h f) :=
  ((((keepsFlows_countQuad _ _ _ _).trans (keepsFlows_countQuad _ _ _ _)).trans (keepsFlows_countQuad _ _ _ _)).trans
    (keepsFlows_countQuad _ _ _ _)).trans (keepsFlows_countQuad _ _ _ _)

/-- A deletion leaves no entry of its key, and adds none. -/
theorem mem_del {α : Type} {m : KMap α} {i : Nat} {x : Nat × α} (h : x ∈ KMap.del m i) : x.1 ≠ i ∧ x ∈ m := by
  induction m with
  | nil => simp [KMap.del] at h
  | cons e m ih =>
    obtain ⟨k, w⟩ := e
    rw [KMap.del] at h
    split at h
    · exact ⟨(ih h).1, List.mem_cons_of_mem _ (ih h).2⟩
    · next hk =>
      rcases List.mem_cons.1 h with rfl | h
      · exact ⟨Ne.symm hk, List.mem_cons_self⟩
      · exact ⟨(ih h).1, List.mem_cons_of_mem _ (ih h).2⟩

/-- One entry of a retired pattern is freed. -/
def freeEntry (slot : Nat) (s : State) (e : Nat × Nat) : State :=
  (leaveCb s e.1 e.2).holderCounts e.1 fun x =>
    let n := (x.entry e.2).slots.length
    { x with
      ents := x.ents.del e.2, spoolUsed := x.spoolUsed.filter fun u => u.1 ≠ slot
      abnd := (List.range n).foldl (fun a _ => sat32 a) x.abnd }

theorem keepsFiles_freeEntry (slot : Nat) (s : State) (e : Nat × Nat) : KeepsFiles s (freeEntry slot s e) :=
  (leaveCb_keeps s e.1 e.2).1.trans ((keepsFiles_updHolder _ _ _).trans (keepsFlows_holderCounts _ _ _).keepsFiles)

/-- What a freed entry leaves in the tables: no entry of its number at its holder, and nothing new. -/
theorem mem_freeEntry {slot : Nat} {s : State} {e : Nat × Nat} {h : Nat} {x : Nat × FEntry}
    (hx : x ∈ ((freeEntry slot s e).holder h).ents) : x ∈ (s.holder h).ents ∧ (h = e.1 → x.1 ≠ e.2) := by
  rw [freeEntry, holder_of_holders (keepsFlows_holderCounts _ _ _).holders] at hx
  by_cases hh : h = e.1
  · subst hh
    rw [State.holder_updHolder, holder_of_holders (leaveCb_keeps s e.1 e.2).2] at hx
    exact ⟨(mem_del hx).2, fun _ => (mem_del hx).1⟩
  · rw [State.holder_updHolder_other _ _ _ _ hh, holder_of_holders (leaveCb_keeps s e.1 e.2).2] at hx
    exact ⟨hx, fun he => absurd he hh⟩

theorem mem_foldl_freeEntry {slot : Nat} {h : Nat} {x : Nat × FEntry} (l : List (Nat × Nat)) : ∀ s : State,
    x ∈ ((l.foldl (freeEntry slot) s).holder h).ents → x ∈ (s.holder h).ents ∧ ∀ e ∈ l, h = e.1 → x.1 ≠ e.2 := by
  induction l with
  | nil => exact fun s hx => ⟨hx, fun e he => absurd he List.not_mem_nil⟩
  | cons a l ih =>
    intro s hx
    obtain ⟨hstep, hrest⟩ := ih _ hx
    obtain ⟨hmem, hne⟩ := mem_freeEntry hstep
    refine ⟨hmem, fun e he => ?_⟩
    rcases List.mem_cons.1 he with rfl | he
    · exact hne
    · exact hrest e he

/-- The circuits of a retired pattern are freed. -/
def circuitsFreed (s : State) (p : Pattern) : State :=
  p.circ.foldl (fun s c => s.updRouter c.1 fun r => { r with slots := r.slots.del c.2 }) s

theorem keepsFlows_circuitsFreed (s : State) (p : Pattern) : KeepsFlows s (circuitsFreed s p) :=
  keepsFlows_foldl _ (fun s (c : Nat × Nat) => keepsFlows_updRouter s c.1 _) _ s

/-- The registry and the requests without a pattern. -/
def unregistered (s : State) (p : Pattern) : State :=
  let gone := s.reqs.filter fun r => decide (r.2.src = .pattern p.pid)
  { s with
    pats := s.pats.filter fun q => q.pid ≠ p.pid
    oncePats := if p.wasLive then s.oncePats ++ [p.pid] else s.oncePats
    reqs := s.reqs.filter fun r => decide (r.2.src ≠ .pattern p.pid)
    waiters := s.waiters.filter fun i => !(gone.any fun r => r.1 = i) }

theorem retired_eq {s : State} {p : Pattern} (h : p.unloadTok = []) :
    retired s p = unregistered (circuitsFreed (p.ents.foldl (freeEntry p.slot) s) p) p := by
  unfold retired
  rw [h]
  rfl

theorem req_unregistered {s : State} {p : Pattern} {id : Nat} {r : Req} (h : (unregistered s p).req id = some r) :
    r.src ≠ .pattern p.pid := by
  obtain ⟨a, ha, rfl⟩ := Option.map_eq_some_iff.1 h
  exact of_decide_eq_true (List.mem_filter.1 (List.mem_of_find?_eq_some ha)).2

/-- R339: the end of a retirement frees the entries and the requests of the pattern, which leaves the registry. -/
theorem patternRetirement_ends {s : State} {pid : Nat} {p : Pattern}
    (hfind : (s.pats.find? fun p => p.pid.toNat = pid) = some p) (hst : p.st = 2) (hadds : addsOut s p = false)
    (htok : p.unloadTok = []) : ∃ t, exec (.patternRetirement pid) s = .next t ∧
      t.mem = s.mem ∧ (∀ j, (t.ctx j).regs = (s.ctx j).regs ∧ (t.ctx j).toks = (s.ctx j).toks) ∧
      t.pats = (s.pats.filter fun q => q.pid ≠ p.pid) ∧ (∀ id r, t.req id = some r → r.src ≠ .pattern p.pid) ∧
      (p.wasLive = true → p.pid ∈ t.oncePats) ∧ ∀ e ∈ p.ents, ∀ x ∈ (t.holder e.1).ents, x.1 ≠ e.2 := by
  have hcirc := keepsFlows_circuitsFreed (p.ents.foldl (freeEntry p.slot) s) p
  have hkeeps : KeepsFiles s (circuitsFreed (p.ents.foldl (freeEntry p.slot) s) p) :=
    (keepsFiles_foldl _ (keepsFiles_freeEntry p.slot) _ s).trans hcirc.keepsFiles
  refine ⟨_, (exec_patternRetirement_ends hfind hst hadds).trans (congrArg _ (retired_eq htok)), hkeeps.mem, hkeeps.files,
    congrArg _ hkeeps.pats, fun id r hr => req_unregistered hr, fun hlive => ?_, fun e he x hx => ?_⟩
  · show p.pid ∈ if p.wasLive then _ ++ [p.pid] else _
    rw [hlive]
    exact List.mem_append_right _ (List.mem_singleton_self _)
  · have hx : x ∈ ((p.ents.foldl (freeEntry p.slot) s).holder e.1).ents := by
      rw [← holder_of_holders hcirc.holders]
      exact hx
    exact (mem_foldl_freeEntry p.ents s hx).2 e he rfl

/-! ## Reshards (R366) -/

/-- The ranks of a reshard that may advance. -/
def advancingRanks (s : State) (x : Reshard) : List Nat := (x.ready.map (·.1)).filter (mayAdvance s x)

/-- A reshard whose ranks have advanced. -/
def advanced (s : State) (x : Reshard) : Reshard :=
  { x with ready := x.ready.map fun p => if (advancingRanks s x).contains p.1 then (p.1, p.2 + 1) else p }

/-- A rank that has advanced goes on within the bound of its phase. -/
def startPhase (id : Nat) (x : Reshard) (s : State) (r : Nat) : State :=
  match shardCmd s x r, phasesDone x r with
  | some (n, q), some k =>
    s.within 1 (phaseBound s n k q)
      (if (phases q.shape).length ≤ k + 1 then .engineChunkComplete n 19 else .reshardPhaseStart id)
  | _, _ => s

theorem startPhase_keeps (id : Nat) (x : Reshard) (s : State) (r : Nat) :
    Spares s (startPhase id x s r) ∧ (startPhase id x s r).reshards = s.reshards := by
  unfold startPhase
  split
  · exact ⟨⟨rfl, rfl⟩, rfl⟩
  · exact ⟨⟨rfl, rfl⟩, rfl⟩

theorem ready_advanced (s : State) (x : Reshard) :
    (advanced s x).ready = x.ready.map fun p => if mayAdvance s x p.1 then (p.1, p.2 + 1) else p := by
  refine List.map_congr_left fun p hp => ?_
  have hiff : (advancingRanks s x).contains p.1 = mayAdvance s x p.1 := by
    rw [Bool.eq_iff_iff, List.contains_iff_mem]
    exact ⟨fun h => (List.mem_filter.1 h).2, fun h => List.mem_filter.2 ⟨List.mem_map_of_mem hp, h⟩⟩
  rw [hiff]

/-- R366: every participant that may advance has come one phase further. -/
theorem reshardPhaseStart_advances {s : State} {id : Nat} {x : Reshard}
    (hfind : (s.reshards.find? fun p => p.1 = id) = some (id, x)) : ∃ t y, exec (.reshardPhaseStart id) s = .next t ∧
      t.mem = s.mem ∧ t.ctxs = s.ctxs ∧ (id, y) ∈ t.reshards ∧
      y.ready = x.ready.map fun p => if mayAdvance s x p.1 then (p.1, p.2 + 1) else p := by
  have hexec : exec (.reshardPhaseStart id) s = .next ((advancingRanks s x).foldl (startPhase id x)
      { s with reshards := KMap.put s.reshards id (advanced s x) }) := by
    show execReshardPhaseStart id s = _
    rw [execReshardPhaseStart, hfind]
    dsimp only
    rw [updReshard, hfind]
    rfl
  have hspares := spares_foldl (startPhase id x) (fun s r => (startPhase_keeps id x s r).1) (advancingRanks s x)
    { s with reshards := KMap.put s.reshards id (advanced s x) }
  refine ⟨_, advanced s x, hexec, hspares.mem, hspares.ctxs, ?_, ready_advanced s x⟩
  rw [foldl_keeps State.reshards (startPhase id x) fun s r => (startPhase_keeps id x s r).2]
  exact mem_put _ _ _

/-! ## The settling of O49 -/

/-- Settles O49, one clause at a time. -/
theorem baseDieWork : Obligations.BaseDieWork := by
  unfold Obligations.BaseDieWork
  intro s n
  refine ⟨fun e u hs he hrun => logEntryWrite_appends hs he hrun, fun q l hq hst hfu => ?_, fun q l hq hst hfu hport => ?_,
    fun q l hq hst hfu => ?_, fun l rest hl => ?_, fun pid p hfind => ?_, fun id x hfind => reshardPhaseStart_advances hfind⟩
  · have h : InService (s.ctx n) 23 q l := ⟨hq, hst, hfu⟩
    exact ⟨logEntryWrite_ends h, bastEnd_data h, fun r lim u hk hrun => blBastHomeDone_performs h hk hrun, unpickEntry_starts h,
      fun a r u hport hchunk hcs hr hone hrun => unpickEntry_adds h hport hchunk hcs hr hone hrun,
      fun e u hport hchunk hcs hrun hkind hmark => unpickEntry_marks h hport hchunk hcs hrun hkind hmark⟩
  · exact ptCommandComplete_query ⟨hq, hst, hfu⟩ hport
  · have h : InService (s.ctx n) 26 q l := ⟨hq, hst, hfu⟩
    exact ⟨shootdown_range_ends h, shootdown_range_waits h,
      fun hchunk p b hp hopen hsrc huse hid => mem_sdaLeft hchunk hp hopen hsrc huse hid,
      fun pa u hport hrun hu => shootdown_blocks h hport hrun hu⟩
  · refine ⟨fun tag ht => ⟨fun code v hload => patternValidate_host_refused hl ht hload,
      fun pid v hload => patternValidate_host_loads hl ht hload⟩, fun q r ht hn hq hst hfu hid pid v hload => ?_⟩
    exact patternValidate_context_loads hl ht hn ⟨hq, hst, hfu⟩ hid hload
  · exact ⟨fun hst hp => patternActivation_enlivens hfind hst hp, fun hst => patternRetirement_starts hfind hst,
      fun hst hadds => patternRetirement_waits hfind hst hadds,
      fun hst hadds htok => patternRetirement_ends hfind hst hadds htok⟩

end Sys2Proof.Machine
end

section
/-!
PROOFS. Every step keeps the canonical form of memory (O59). Memory is changed by a store of bytes, by the loading of
a range and by the two resets; each of them keeps the form, and so does all that is built of them. A lemma `inv_f` says
so of the function `f` of the model; they stand in the order of the model's files.
-/

namespace Sys2Proof.Machine

set_option Elab.async false

variable {k3 k2 i ch k0 bar nmodm slot : Nat}
  {n c k h l pa code who root fu b w port int lat tag id e off j k4 k5 : Nat} {v va a t da : Word} {s s0 s1 : State}
  {late ignore ut : Bool} {f : Ctx → Ctx} {ev : Instr} {kid : BitVec 32} {p : Packet} {g : BitVec 4} {d : Desc}
  {src : BitVec 9} {chk : List Note} {u : BitVec 1} {r : Req} {gs : List Seg} {o : Out} {m : BarMsg} {q : Cmd}
  {x : Reply} {ns : List Nat} {conf : BitVec 58} {group : BitVec 16} {run : Nat → Acc Result}

/-! ## What keeps the form -/

/-- The outcome keeps the form: the next state has it. -/
structure OutInv (o : Out) : Prop where
  next : ∀ t, o = .next t → t.Inv

/-- Work on the state keeps the form, whether it meets a fault or not. -/
structure AccInv {α : Type} (m : Acc α) : Prop where
  run : ∀ s : State, s.Inv → (m.run s).2.Inv

theorem inv_iff {s : State} : s.Inv ↔ Memory.wf s.mem = true := Iff.rfl

theorem outInv_next {s : State} : OutInv (.next s) ↔ s.Inv :=
  ⟨fun h => h.next s rfl, fun h => ⟨fun t e => by cases e; exact h⟩⟩

theorem outInv_fault {f : Fault} : OutInv (.fault f) := ⟨fun _ e => by cases e⟩

theorem outInv_refused {r : Refusal} : OutInv (.refused r) := ⟨fun _ e => by cases e⟩

/-- What goes on from an outcome to a next state went on from a next state. -/
theorem andThen_eq_next {α β : Type} {o : Host.Outcome α Fault Refusal}
    {f : α → Host.Outcome β Fault Refusal} {x : β} (e : andThen o f = .next x) :
    ∃ t, o = .next t ∧ f t = .next x := by
  cases o with
  | next t => exact ⟨t, rfl, e⟩
  | fault => cases e
  | refused => cases e

theorem inv_andThen {o : Out} {f : State → Out} (h : OutInv o) (hf : ∀ s, s.Inv → OutInv (f s)) :
    OutInv (andThen o f) := by
  refine ⟨fun t e => ?_⟩
  obtain ⟨s, hs, e⟩ := andThen_eq_next e
  exact (hf s (h.next s hs)).next t e

theorem inv_andThen_slots {o : Host.Outcome Slots Fault Refusal} {f : Slots → Out}
    (h : ∀ u, o = .next u → u.st.Inv) (hf : ∀ u, u.st.Inv → OutInv (f u)) : OutInv (andThen o f) := by
  refine ⟨fun t e => ?_⟩
  obtain ⟨u, hu, e⟩ := andThen_eq_next e
  exact (hf u (h u hu)).next t e

theorem inv_foldl {α : Type} {f : State → α → State} {l : List α} {s : State} (h : ∀ s a, s.Inv → (f s a).Inv)
    (hs : s.Inv) : (l.foldl f s).Inv := by
  induction l generalizing s with
  | nil => exact hs
  | cons a l ih => exact ih (h s a hs)

theorem inv_foldl_fst {α β : Type} {f : State × β → α → State × β} {l : List α} {p : State × β}
    (h : ∀ p a, p.1.Inv → (f p a).1.Inv) (hp : p.1.Inv) : (l.foldl f p).1.Inv := by
  induction l generalizing p with
  | nil => exact hp
  | cons a l ih => exact ih (h p a hp)

theorem inv_foldl_snd {α β : Type} {f : β × State → α → β × State} {l : List α} {p : β × State}
    (h : ∀ p a, p.2.Inv → (f p a).2.Inv) (hp : p.2.Inv) : (l.foldl f p).2.Inv := by
  induction l generalizing p with
  | nil => exact hp
  | cons a l ih => exact ih (h p a hp)

/-! ## Accesses -/

theorem accInv_run {α : Type} {m : Acc α} {s : State} (h : AccInv m) (hs : s.Inv) : (m.run s).2.Inv := h.run s hs

theorem accInv_pure {α : Type} {a : α} : AccInv (pure a : Acc α) := ⟨fun _ h => h⟩

theorem accInv_throw {α : Type} {e : Flt} : AccInv (throw e : Acc α) := ⟨fun _ h => h⟩

theorem accInv_set {t : State} (h : t.Inv) : AccInv (set t : Acc PUnit) := ⟨fun _ _ => h⟩

theorem accInv_modify {f : State → State} (h : ∀ s, s.Inv → (f s).Inv) : AccInv (modify f : Acc PUnit) :=
  ⟨fun s hs => h s hs⟩

theorem accInv_bind {α β : Type} {m : Acc α} {f : α → Acc β} (h : AccInv m) (k : ∀ a, AccInv (f a)) :
    AccInv (m >>= f) := by
  refine ⟨fun s hs => ?_⟩
  have e : (m >>= f).run s = ExceptT.bindCont f (m.run s).1 (m.run s).2 := rfl
  have hm := h.run s hs
  rw [e]
  generalize m.run s = r at hm ⊢
  obtain ⟨_ | a, t⟩ := r
  · exact hm
  · exact (k a).run t hm

theorem accInv_get_bind {β : Type} {f : State → Acc β} (k : ∀ s, s.Inv → AccInv (f s)) : AccInv (get >>= f) :=
  ⟨fun s hs => (k s hs).run s hs⟩

theorem accInv_foldlM {α β : Type} {f : β → α → Acc β} (h : ∀ b a, AccInv (f b a)) {l : List α} {b : β} :
    AccInv (l.foldlM f b) := by
  induction l generalizing b with
  | nil => exact accInv_pure
  | cons a l ih => rw [List.foldlM_cons]; exact accInv_bind (h b a) fun _ => ih

theorem accInv_forM {α : Type} {f : α → Acc PUnit} (h : ∀ a, AccInv (f a)) {l : List α} : AccInv (l.forM f) := by
  induction l with
  | nil => exact accInv_pure
  | cons a l ih => exact accInv_bind (h a) fun _ => ih

theorem accInv_mapM {α β : Type} {f : α → Acc β} (h : ∀ a, AccInv (f a)) {l : List α} : AccInv (l.mapM f) := by
  induction l with
  | nil => exact accInv_pure
  | cons a l ih =>
    rw [List.mapM_cons]
    exact accInv_bind (h a) fun _ => accInv_bind ih fun _ => accInv_pure

theorem accInv_anyM {α : Type} {f : α → Acc Bool} (h : ∀ a, AccInv (f a)) {l : List α} : AccInv (l.anyM f) := by
  induction l with
  | nil => exact accInv_pure
  | cons a l ih => exact accInv_bind (h a) fun b => by cases b; exacts [ih, accInv_pure]

/-! ## Stores, and updates that leave memory alone -/

theorem inv_wr {s : State} {pa v n : Nat} (hs : s.Inv) : (s.wr pa v n).Inv := wf_writeN _ _ _ _ hs

theorem inv_setCtx {s : State} {n : Nat} {c : Ctx} (hs : s.Inv) : (s.setCtx n c).Inv := hs

theorem inv_updCtx {s : State} {n : Nat} {f : Ctx → Ctx} (hs : s.Inv) : (s.updCtx n f).Inv := hs

theorem inv_setCore {s : State} {c : Nat} {k : Core} (hs : s.Inv) : (s.setCore c k).Inv := hs

theorem inv_updCore {s : State} {c : Nat} {f : Core → Core} (hs : s.Inv) : (s.updCore c f).Inv := hs

theorem inv_at {s : State} {d : Nat} {late : Bool} {e : Instr} (hs : s.Inv) : (s.at d late e).Inv := hs


/-! ### Machine/State.lean -/

theorem inv_reset : State.reset.Inv := wf_nil

/-! ### Machine/Ops.lean -/

theorem inv_updHolder {f : Holder → Holder} (hs : s.Inv) : (s.updHolder h f).Inv := by
  grind [State.updHolder, inv_iff]

theorem inv_updRouter {f : Router → Router} (hs : s.Inv) : (s.updRouter h f).Inv := by
  grind [State.updRouter, inv_iff]

theorem inv_updLink {f : Link → Link} (hs : s.Inv) : (s.updLink l f).Inv := by
  grind [State.updLink, inv_iff]

theorem inv_drawNat {lo : Nat} {hi : Nat} (hs : s.Inv) : (drawNat s lo hi).2.Inv := by
  grind [drawNat, inv_iff]

theorem inv_drawWord (hs : s.Inv) : (drawWord s).2.Inv := by
  grind [drawWord, inv_iff]

theorem inv_fresh (hs : s.Inv) : (fresh s).2.Inv := by
  grind [fresh, inv_iff]

theorem inv_touch (hs : s.Inv) : (s.touch pa n).Inv := by
  grind [State.touch, inv_foldl, inv_foldl_fst, inv_iff]

theorem inv_within {lo : Nat} {hi : Nat} (hs : s.Inv) : (s.within lo hi ev).Inv := by
  grind [State.within, inv_drawNat, inv_at]

theorem inv_countQuad {ev : Nat} (hs : s.Inv) : (s.countQuad h ev n).Inv := by
  grind [State.countQuad, inv_iff]

theorem inv_holderCounts {f : Holder → Holder} (hs : s.Inv) : (s.holderCounts h f).Inv := by
  grind [State.holderCounts, inv_countQuad, inv_updHolder]

theorem inv_bbAddL {level : Nat} {kind : Nat} (hs : s.Inv) : (s.bbAddL level kind code kid who v).Inv := by
  grind [State.bbAddL, inv_iff]

theorem inv_bbAdd {kind : Nat} (hs : s.Inv) : (s.bbAdd kind code kid who v).Inv := by
  grind [State.bbAdd, inv_bbAddL]

theorem inv_bbOrder (hs : s.Inv) : (bbOrder s).Inv := by
  grind [bbOrder, inv_iff]

theorem inv_wr64 (hs : s.Inv) : (s.wr64 pa v).Inv := by
  grind [State.wr64, inv_wr]

theorem inv_updImage {p : Ctx → Bool} (hs : s.Inv) : (updImage s n p f).Inv := by
  grind [updImage, inv_iff, inv_updCtx]

theorem inv_tlbFill {buf : Nat} {asid : BitVec 16} {root : BitVec 36} (hs : s.Inv) : (tlbFill s buf asid root
    va).Inv := by
  grind [tlbFill, inv_iff]

theorem inv_performSeg {a : LocalAcc} {g : Seg} (hs : s.Inv) : (performSeg s a g).1.Inv := by
  grind [performSeg, inv_iff, inv_wr64, inv_wr]

theorem inv_performSegs {a : LocalAcc} (hs : s.Inv) : (performSegs s a).1.Inv := by
  exact inv_foldl_fst (fun _ _ h => inv_performSeg h) hs

theorem inv_performAcc {a : LocalAcc} (hs : s.Inv) : (performAcc s n a).Inv := by
  grind [performAcc, inv_iff, accInv_run, inv_performSegs, inv_updCtx]

theorem inv_performCounted {a : LocalAcc} (hs : s.Inv) : (performCounted s n a).Inv := by
  grind [performCounted, inv_updCore, inv_performAcc]

theorem inv_performSome {l : List LocalAcc} (hs : s.Inv) : (performSome s n l).Inv := by
  grind [performSome, inv_foldl, inv_foldl_fst, inv_iff, inv_performCounted, inv_updCtx]

theorem inv_performAll (hs : s.Inv) : (performAll s n).Inv := by
  grind [performAll, inv_performSome]

theorem inv_performLat {l : LatAcc} (hs : s.Inv) : (performLat s n l).1.Inv := by
  grind [performLat, accInv_bind, inv_iff, inv_wr64]

theorem inv_performLats (hs : s.Inv) : (performLats s n).Inv := by
  grind [performLats, inv_foldl, inv_foldl_fst, accInv_run, inv_performLat]

theorem inv_withdrawWait (hs : s.Inv) : (withdrawWait s n).Inv := by
  grind [withdrawWait, inv_iff, inv_updCtx]

theorem inv_capture (hs : s.Inv) : (capture s n).Inv := by
  grind [capture, inv_iff, inv_withdrawWait, inv_updCore, inv_performAll, inv_updCtx]

theorem inv_trapEntry {val : Word} {resume : Word} {cls : Nat} {rp : Option Replay} (hs : s.Inv) : (trapEntry s
    n code val resume cls fu rp).Inv := by
  grind [trapEntry, inv_iff, inv_updCore, inv_capture, inv_updCtx]

theorem inv_resetBarrier (hs : s.Inv) : (resetBarrier s n b).Inv := by
  grind [resetBarrier, inv_iff, inv_updCore]

theorem inv_resetBarriers {mask : BitVec 128} (hs : s.Inv) : (resetBarriers s n mask).Inv := by
  grind [resetBarriers, inv_foldl, inv_foldl_fst, inv_resetBarrier]

theorem inv_dropGrant {d : Nat} {w : BitVec 16} (hs : s.Inv) : (dropGrant s d w).Inv := by
  grind [dropGrant, inv_iff, inv_at]

theorem inv_releaseGrant (hs : s.Inv) : (releaseGrant s c).Inv := by
  grind [releaseGrant, inv_iff, inv_updCore, inv_dropGrant]

theorem inv_setFloor (hs : s.Inv) : (setFloor s c).Inv := by
  grind [setFloor, inv_iff, inv_updCore]

theorem inv_dropEvents (hs : s.Inv) : (dropEvents s n).Inv := by
  grind [dropEvents, inv_iff]

theorem inv_dropReqs (hs : s.Inv) : (dropReqs s n).Inv := by
  grind [dropReqs, inv_iff]

theorem inv_withdrawSk (hs : s.Inv) : (withdrawSk s n).Inv := by
  grind [withdrawSk, inv_foldl, inv_foldl_fst, inv_iff, inv_at]

theorem inv_freeCtx (hs : s.Inv) : (freeCtx s n).Inv := by
  grind [freeCtx, inv_iff, inv_setFloor, inv_releaseGrant, inv_updCore, inv_dropReqs, inv_resetBarriers,
    inv_setCtx, inv_withdrawSk, inv_dropEvents]

theorem inv_endMember (hs : s.Inv) : (endMember s n).Inv := by
  grind [endMember, inv_performAll, inv_performLats, inv_freeCtx]

theorem inv_endWork (hs : s.Inv) : (endWork s n).Inv := by
  grind [endWork, inv_iff, inv_updCtx]

theorem inv_freeMember (hs : s.Inv) : (freeMember s n).Inv := by
  grind [freeMember, inv_iff, inv_dropReqs, inv_endMember, inv_updCtx, inv_withdrawSk, inv_dropEvents]

theorem inv_startRetire {p : Pattern} (hs : s.Inv) : (startRetire s p).Inv := by
  grind [startRetire, inv_foldl, inv_foldl_fst, inv_iff, inv_within, inv_updHolder]

theorem inv_retirePatterns (hs : s.Inv) : (retirePatterns s kid).Inv := by
  grind [retirePatterns, inv_foldl, inv_foldl_fst, inv_startRetire]

theorem inv_killOne (hs : s.Inv) : (killOne s kid).Inv := by
  grind [killOne, inv_foldl, inv_foldl_fst, inv_iff, inv_releaseGrant, inv_retirePatterns, inv_freeMember]

theorem inv_killRecorded (hs : s.Inv) : (killRecorded s kid code v).Inv := by
  grind [killRecorded, inv_killOne, inv_bbAdd]

theorem inv_killKernel {parent : Bool} (hs : s.Inv) : (killKernel s kid code v parent).Inv := by
  grind [killKernel, inv_iff, inv_killOne, inv_killRecorded]

theorem inv_walkCtx {lvl : Nat} {soft : Bool} (hs : s.Inv) : (walkCtx s n code lvl v soft).1.Inv := by
  grind [walkCtx, inv_foldl, inv_foldl_fst, inv_iff, inv_bbAddL, inv_killKernel]

theorem inv_eventWalk {owner : Option (BitVec 32)} {lvl : Nat} (hs : s.Inv) : (eventWalk s owner lvl code v
    who).Inv := by
  grind [eventWalk, inv_foldl, inv_foldl_fst, inv_iff, inv_bbAddL, inv_killKernel]

theorem inv_freezeCtx (hs : s.Inv) : (freezeCtx s n code v).Inv := by
  grind [freezeCtx, inv_iff, inv_bbAddL, inv_capture, inv_updCtx]

theorem inv_skipBundle (hs : s.Inv) : (skipBundle s n).Inv := by
  grind [skipBundle, inv_iff, inv_updCtx]

theorem inv_walkIssue (hs : s.Inv) : (walkIssue s n code v).Inv := by
  grind [walkIssue, inv_iff, inv_bbAddL, inv_freezeCtx, inv_walkCtx, inv_skipBundle, inv_killKernel,
    inv_endWork, inv_updCtx]

theorem inv_takeTrap (hs : s.Inv) : (takeTrap s n code v).Inv := by
  grind [takeTrap, inv_walkIssue, inv_trapEntry, inv_endMember]

theorem inv_logFate (hs : s.Inv) : (logFate s n ignore).Inv := by
  grind [logFate, inv_iff, inv_updCore, inv_updCtx]

theorem inv_reqFate (hs : s.Inv) : (reqFate s n fu ignore).Inv := by
  grind [reqFate, inv_iff, inv_at]

theorem inv_commandFate (hs : s.Inv) : (commandFate s n fu ignore).Inv := by
  grind [commandFate, inv_iff, inv_reqFate, inv_logFate, inv_updCtx]

theorem inv_walkRetry (hs : s.Inv) : (walkRetry s n code v fu).Inv := by
  grind [walkRetry, inv_iff, inv_bbAddL, inv_commandFate, inv_killKernel, inv_updCtx]

theorem inv_walkFault (hs : s.Inv) : (walkFault s n code v fu).Inv := by
  grind [walkFault, inv_iff, inv_bbAddL, inv_commandFate, inv_walkCtx, inv_updCtx, inv_walkRetry]

theorem inv_deliverFault (hs : s.Inv) : (deliverFault s n code v fu).Inv := by
  grind [deliverFault, inv_iff, inv_walkFault, inv_setCtx]

theorem inv_deliverImage {p : Ctx → Bool} (hs : s.Inv) : (deliverImage s n p code v fu).Inv := by
  grind [deliverImage, inv_iff, inv_deliverFault, inv_updImage]

theorem inv_trapReturn {fate : Option Bool} (hs : s.Inv) : (trapReturn s n fate).Inv := by
  grind [trapReturn, inv_foldl, inv_foldl_fst, inv_iff, inv_updCore, inv_commandFate, inv_updCtx]

theorem inv_raiseNote {w : Note} (hs : s.Inv) : (raiseNote s w).Inv := by
  have e : ({ s with iss := { s.iss with note := w } } : State).Inv := hs
  unfold raiseNote
  cases w <;> grind [inv_takeTrap, inv_updCtx]

/-! ### Machine/Operands.lean -/

theorem inv_consume (hs : s.Inv) : (consume s src).Inv := by
  grind [consume, inv_iff, inv_updCtx]

theorem inv_charge (hs : s.Inv) : (charge s w).Inv := by
  grind [charge, inv_iff, inv_updCore]

theorem inv_issue {notes : List Note} {eff : State → State} (hs : s.Inv) (heff : ∀ s, s.Inv → (eff s).Inv) :
    OutInv (issue s g notes eff) := by
  grind [issue, outInv_next, inv_iff, inv_raiseNote]

theorem inv_trigger {canBlock : Bool} {blk : List Note} {eff : Val → State → State} (heff : ∀ v s, s.Inv → (eff
    v s).Inv) (hs : s.Inv) : OutInv (trigger fu port int w canBlock blk chk g src eff s) := by
  grind [trigger, inv_issue, inv_updCtx, inv_consume, inv_charge]

theorem inv_onCtx (hs : s.Inv) : (onCtx f s).Inv := by
  grind [onCtx, inv_updCtx]

theorem inv_flyNew {v : Val} {flg : Flg} {tag : OutTag} (hs : s.Inv) : (flyNew s lat fu v flg tag).Inv := by
  grind [flyNew, inv_fresh, inv_updCtx]

/-! ### Machine/Control.lean -/

theorem inv_takeBranch (hs : s.Inv) : (takeBranch t s).Inv := by
  grind [takeBranch, inv_iff, inv_onCtx]

theorem inv_execBrJmp (hs : s.Inv) : OutInv (execBrJmp g src s) := by
  grind [execBrJmp, inv_trigger, inv_takeBranch]

theorem inv_execBrCall (hs : s.Inv) : OutInv (execBrCall g src s) := by
  grind [execBrCall, inv_trigger, inv_flyNew, inv_takeBranch]

theorem inv_execBrRet (hs : s.Inv) : OutInv (execBrRet g src s) := by
  grind [execBrRet, inv_trigger, inv_takeBranch]

theorem inv_execBrJrel (hs : s.Inv) : OutInv (execBrJrel g src s) := by
  grind [execBrJrel, inv_trigger, inv_takeBranch]

theorem inv_execLpLoop (hs : s.Inv) : OutInv (execLpLoop g src s) := by
  grind [execLpLoop, inv_iff, inv_onCtx, inv_trigger]

theorem inv_execLpBrk (hs : s.Inv) : OutInv (execLpBrk g src s) := by
  grind [execLpBrk, inv_iff, inv_onCtx, inv_trigger]

theorem inv_execLpCnt (hs : s.Inv) : OutInv (execLpCnt g src s) := by
  grind [execLpCnt, inv_trigger, inv_flyNew]

theorem inv_execBackEdgeAction (hs : s.Inv) : OutInv (execBackEdgeAction n s) := by
  grind [execBackEdgeAction, outInv_next, inv_iff, inv_raiseNote, inv_updCtx]

theorem inv_ctlWrite {no : Nat} (hs : s.Inv) : (ctlWrite s n no v).Inv := by
  grind [ctlWrite, inv_updCore, inv_updCtx]

theorem inv_execCxRd (hs : s.Inv) : OutInv (execCxRd g src s) := by
  grind [execCxRd, inv_trigger, inv_flyNew]

theorem inv_execCxWr (hs : s.Inv) : OutInv (execCxWr g src s) := by
  grind [execCxWr, inv_ctlWrite, inv_trigger]

theorem inv_execCxFmt (hs : s.Inv) : OutInv (execCxFmt g src s) := by
  grind [execCxFmt, inv_onCtx, inv_trigger]

theorem inv_execCxFlg (hs : s.Inv) : OutInv (execCxFlg g src s) := by
  grind [execCxFlg, inv_iff, inv_onCtx, inv_trigger, inv_flyNew]

theorem inv_execFmtShadowExpiry (hs : s.Inv) : OutInv (execFmtShadowExpiry n s) := by
  grind [execFmtShadowExpiry, outInv_next, inv_updCtx]

/-! ### Machine/Buffer.lean -/

theorem inv_execCbSet (hs : s.Inv) : OutInv (execCbSet g src s) := by
  grind [execCbSet, inv_iff, inv_onCtx, inv_trigger]

theorem inv_execCbAdv (hs : s.Inv) : OutInv (execCbAdv g src s) := by
  grind [execCbAdv, inv_iff, inv_onCtx, inv_trigger]

theorem inv_execCbRel (hs : s.Inv) : OutInv (execCbRel g src s) := by
  grind [execCbRel, inv_onCtx, inv_trigger]

theorem inv_execCbQry (hs : s.Inv) : OutInv (execCbQry g src s) := by
  grind [execCbQry, inv_trigger, inv_flyNew]

theorem inv_execCbAdvPpAdvance (hs : s.Inv) : OutInv (execCbAdvPpAdvance n s) := by
  grind [execCbAdvPpAdvance, outInv_next, inv_updCtx]

/-! ### Machine/Scalar.lean -/

theorem inv_saTrigger {f : Word → Word → Word → Word} (hs : s.Inv) : OutInv (saTrigger port f g u src s) := by
  grind [saTrigger, inv_trigger, inv_flyNew]

theorem inv_smTrigger {f : Word → Word → Word} (hs : s.Inv) : OutInv (smTrigger port lat int w f g src s) := by
  grind [smTrigger, inv_trigger, inv_flyNew]

theorem inv_execScalarRegisterWrite {r : BitVec 5} (hs : s.Inv) : OutInv (execScalarRegisterWrite g r src s) :=
    by
  grind [execScalarRegisterWrite, inv_onCtx, inv_issue, inv_consume]

theorem inv_execGuardWrite {r : BitVec 3} (hs : s.Inv) : OutInv (execGuardWrite g r src s) := by
  grind [execGuardWrite, inv_onCtx, inv_issue, inv_consume]

theorem inv_execTileRowWrite {t : BitVec 4} (hs : s.Inv) : OutInv (execTileRowWrite g t src s) := by
  grind [execTileRowWrite, inv_onCtx, inv_issue, inv_consume]

theorem inv_execWholeTileWrite {t : BitVec 4} (hs : s.Inv) : OutInv (execWholeTileWrite g t src s) := by
  grind [execWholeTileWrite, inv_iff, inv_fresh, inv_onCtx, inv_issue, inv_consume]

theorem inv_execOperandPortWrite {f : BitVec 5} {p : BitVec 2} (hs : s.Inv) : OutInv (execOperandPortWrite g f
    p src s) := by
  grind [execOperandPortWrite, inv_iff, inv_fresh, inv_onCtx, inv_issue, inv_consume]

/-! ### Machine/LoadStore.lean -/

theorem inv_letGo {ls : List LatAcc} (ho : OutInv o) : OutInv (letGo gs ls o) := by
  unfold letGo
  grind [outInv_next, inv_iff, inv_updCtx]

theorem inv_lsLocal {addr : Word} {algn : Nat} {size : Nat} {store : Bool} {more : List Note} {eff : Val → Nat
    → State → State} (heff : ∀ v n s, s.Inv → (eff v n s).Inv) (hs : s.Inv) : OutInv (lsLocal port int w addr
    algn size gs store more g src eff s) := by
  grind [lsLocal, inv_letGo, inv_fresh, inv_onCtx, inv_trigger]

theorem inv_execLsLds (hs : s.Inv) : OutInv (execLsLds g src s) := by
  grind [execLsLds, inv_onCtx, inv_lsLocal]

theorem inv_execLsSts (hs : s.Inv) : OutInv (execLsSts g src s) := by
  grind [execLsSts, inv_onCtx, inv_lsLocal]

theorem inv_execLsLdr (hs : s.Inv) : OutInv (execLsLdr g src s) := by
  grind [execLsLdr, inv_onCtx, inv_lsLocal]

theorem inv_execLsStr (hs : s.Inv) : OutInv (execLsStr g src s) := by
  grind [execLsStr, inv_onCtx, inv_lsLocal]

theorem inv_execLsLdt (hs : s.Inv) : OutInv (execLsLdt g src s) := by
  grind [execLsLdt, inv_onCtx, inv_lsLocal]

theorem inv_execLsStt (hs : s.Inv) : OutInv (execLsStt g src s) := by
  grind [execLsStt, inv_iff, inv_onCtx, inv_lsLocal]

theorem inv_execLsLdp (hs : s.Inv) : OutInv (execLsLdp g src s) := by
  grind [execLsLdp, inv_onCtx, inv_lsLocal]

theorem inv_execLsStp (hs : s.Inv) : OutInv (execLsStp g src s) := by
  grind [execLsStp, inv_iff, inv_onCtx, inv_lsLocal]

theorem inv_sendLat {l : LatAcc} (hs : s.Inv) : (sendLat s n l).Inv := by
  grind [sendLat, inv_drawNat, inv_at]

theorem inv_sendLats_go {o : List Nat} {seen : List LatAcc} {l4 : List LatAcc} (hs : s.Inv) : (sendLats.go n o
    s seen l4).Inv := by
  induction l4 generalizing s seen with grind [sendLats.go, inv_updImage, inv_sendLat]

theorem inv_sendLats (hs : s.Inv) : (sendLats s n).Inv := by
  grind [sendLats, inv_iff, inv_updImage, inv_sendLat, inv_sendLats_go]

theorem inv_execLsLat (hs : s.Inv) : OutInv (execLsLat g src s) := by
  grind [execLsLat, inv_iff, inv_fresh, inv_onCtx, inv_trigger]

theorem inv_atTrigger (hs : s.Inv) : OutInv (atTrigger port g src s) := by
  grind [atTrigger, inv_iff, inv_letGo, inv_fresh, inv_onCtx, inv_trigger]

theorem inv_execLateralPerform (hs : s.Inv) : OutInv (execLateralPerform n id s) := by
  grind [execLateralPerform, outInv_next, inv_iff, accInv_run, inv_touch, inv_updImage, inv_performLat]

theorem inv_execLateralCompletion (hs : s.Inv) : OutInv (execLateralCompletion n id s) := by
  grind [execLateralCompletion, outInv_next, inv_iff, inv_deliverImage, inv_updCore, inv_updImage, inv_at]

/-! ### Machine/Power.lean -/

theorem inv_execPwReq (hs : s.Inv) : OutInv (execPwReq g src s) := by
  grind [execPwReq, inv_iff, inv_releaseGrant, inv_onCtx, inv_updCore, inv_trigger, inv_at]

theorem inv_execPwLim (hs : s.Inv) : OutInv (execPwLim g src s) := by
  grind [execPwLim, inv_iff, inv_updCore, inv_trigger]

theorem inv_grantToken {tk : Nat} {ntk : Bool} {w : BitVec 16} (hs : s.Inv) : (grantToken s n tk ntk w).Inv :=
    by
  grind [grantToken, inv_updImage]

theorem inv_answerLeave {d : Nat} {w : BitVec 16} (hs : s.Inv) : (answerLeave s d c w).Inv := by
  grind [answerLeave, inv_iff, inv_updCore, inv_grantToken, inv_dropGrant]

theorem inv_refuseReqs {d : Nat} {l1 : List LeaveReq} (hs : s.Inv) : (refuseReqs d l1 s).2.Inv := by
  induction l1 generalizing s with grind [refuseReqs, inv_answerLeave]

theorem inv_admitReqs {d : Nat} {l1 : List LeaveReq} (hs : s.Inv) : (admitReqs d l1 s).2.Inv := by
  induction l1 generalizing s with grind [admitReqs, drawNat, inv_at, inv_iff]

theorem inv_execLeaveGrant {d : Nat} (hs : s.Inv) : OutInv (execLeaveGrant d s) := by
  grind [execLeaveGrant, outInv_next, inv_foldl, inv_foldl_fst, inv_iff, inv_admitReqs, inv_answerLeave,
    inv_refuseReqs]

/-! ### Machine/Record.lean -/

theorem inv_recStage {r : RecOp} {fmt : Word} (hs : s.Inv) : (recStage s r id fmt).Inv := by
  grind [recStage, inv_iff, inv_updCore, inv_updCtx]

/-! ### Machine/TileAlu.lean -/

theorem inv_landTile {v : Val} {flg : Flg} {r : RecOp} (hs : s.Inv) : (landTile s fu lat v flg r).Inv := by
  grind [landTile, inv_fresh, inv_recStage, inv_updCtx]

theorem inv_taRow {f : LaneFn} {ua : Bool} {ub : Bool} (hs : s.Inv) : OutInv (taRow port f ua ub ut g u src s)
    := by
  grind [taRow, inv_trigger, inv_landTile]

theorem inv_taTile {used : Bool} (hs : s.Inv) : OutInv (taTile port used g u src s) := by
  grind [taTile, inv_iff, inv_fresh, inv_recStage, inv_trigger, inv_updCtx]

/-! ### Machine/Matrix.lean -/

theorem inv_onMatrix {f : Matrix → Matrix} (hs : s.Inv) : (onMatrix f s).Inv := by
  grind [onMatrix, inv_iff, inv_updCore]

theorem inv_execMxCall (hs : s.Inv) : OutInv (execMxCall g src s) := by
  grind [execMxCall, inv_iff, inv_fresh, inv_onCtx, inv_recStage, inv_onMatrix, inv_trigger]

theorem inv_execMxMld (hs : s.Inv) : OutInv (execMxMld g src s) := by
  grind [execMxMld, inv_iff, inv_onMatrix, inv_trigger]

theorem inv_execMxParm (hs : s.Inv) : OutInv (execMxParm g src s) := by
  grind [execMxParm, inv_iff, inv_onCtx, inv_onMatrix, inv_trigger]

theorem inv_execScXld (hs : s.Inv) : OutInv (execScXld g src s) := by
  grind [execScXld, inv_iff, inv_onMatrix, inv_trigger]

theorem inv_execScXadd (hs : s.Inv) : OutInv (execScXadd g src s) := by
  grind [execScXadd, inv_iff, inv_onMatrix, inv_trigger]

theorem inv_gotRows (hs : s.Inv) : (gotRows s n gs).Inv := by
  grind [gotRows, inv_foldl, inv_foldl_fst, inv_iff, inv_updCore]

theorem inv_readStep {m : MStep} (hs : s.Inv) : (readStep s m).1.Inv := by
  grind [readStep, inv_foldl, inv_foldl_fst, inv_iff, inv_updCtx]

theorem inv_rereadStep (hs : s.Inv) : (rereadStep s c).Inv := by
  grind [rereadStep, inv_iff, inv_updCore, inv_readStep]

theorem inv_startSpill (hs : s.Inv) : (startSpill s c).Inv := by
  grind [startSpill, inv_iff, inv_rereadStep, inv_updCore]

theorem inv_endSpill (hs : s.Inv) : (endSpill s c).Inv := by
  grind [endSpill, inv_iff, inv_updCore, inv_updCtx]

theorem inv_execStepOperandRead (hs : s.Inv) : OutInv (execStepOperandRead c s) := by
  grind [execStepOperandRead, outInv_next, inv_iff, inv_updCore, inv_readStep, inv_updCtx]

theorem inv_execLatchSample (hs : s.Inv) : OutInv (execLatchSample c s) := by
  grind [execLatchSample, outInv_next, inv_iff, inv_updCore, inv_updCtx]

theorem inv_execStepCommit (hs : s.Inv) : OutInv (execStepCommit c s) := by
  grind [execStepCommit, outInv_next, inv_foldl, inv_foldl_fst, inv_iff, inv_updCore, inv_readStep, inv_wr,
    inv_updCtx]

theorem inv_soonStep (hs : s.Inv) : (soonStep s c e).Inv := by
  have ho := (inv_execLatchSample (c := c) hs).next
  have hl (t : State) (h : t.Inv) := (inv_execStepCommit (c := c) h).next
  unfold soonStep
  grind

theorem inv_soonClk {d : Nat} (hs : s.Inv) : (soonClk s0 n d s).Inv := by
  grind [soonClk, inv_foldl, inv_foldl_fst, accInv_run, inv_soonStep, inv_performSegs]

theorem inv_soon (hs : s.Inv) : (soon s n).Inv := by
  grind [soon, inv_foldl, inv_foldl_fst, inv_soonClk]

theorem inv_readsNow {rs : List (Nat × Nat)} (hs : s.Inv) : (readsNow s rs).Inv := by
  grind [readsNow, inv_fresh, inv_onCtx]

/-! ### Machine/Links.lean -/

theorem inv_injectAt {client : Nat} (hs : s.Inv) : (injectAt s h client p).Inv := by
  grind [injectAt, inv_iff, inv_updRouter]

theorem inv_linkHold (hs : s.Inv) : (linkHold s l p).Inv := by
  grind [linkHold, inv_iff, inv_updLink]

theorem inv_sendLink (hs : s.Inv) : (sendLink s l k p).Inv := by
  grind [sendLink, inv_iff, inv_fresh, inv_at, inv_updLink]

theorem inv_enterLink (hs : s.Inv) : (enterLink s l p).Inv := by
  grind [enterLink, inv_iff, inv_sendLink, inv_fresh, inv_at, inv_linkHold]

theorem inv_crossFabric (hs : s.Inv) : (crossFabric s id p).Inv := by
  grind [crossFabric, inv_drawNat, inv_at]

theorem inv_enterFabric (hs : s.Inv) : (enterFabric s p).Inv := by
  grind [enterFabric, inv_iff, inv_fresh, inv_crossFabric]

theorem inv_sendFrom {cir : Bool} (hs : s.Inv) : (sendFrom s h cir p).Inv := by
  grind [sendFrom, inv_iff, inv_injectAt, inv_enterLink, inv_enterFabric]

/-! ### Machine/Counter.lean -/

theorem inv_sendLaunch (hs : s.Inv) : (sendLaunch s n q).Inv := by
  grind [sendLaunch, inv_iff]

theorem inv_stepReq (hs : s.Inv) : (stepReq s id r).Inv := by
  grind [stepReq, inv_iff, inv_within, inv_drawNat, inv_at, inv_sendLaunch]

theorem inv_deliverReq (hs : s.Inv) : (deliverReq s id r).Inv := by
  grind [deliverReq, inv_iff, inv_injectAt, inv_stepReq, inv_sendFrom]

theorem inv_slicePut (hs : s.Inv) : (slicePut s id r).Inv := by
  grind [slicePut, inv_foldl, inv_foldl_fst, inv_iff, inv_at]

theorem inv_homeArrive (hs : s.Inv) : (homeArrive s p).Inv := by
  grind [homeArrive, inv_iff, inv_slicePut, inv_within]

theorem inv_sendReq (hs : s.Inv) : (sendReq s id r).Inv := by
  grind [sendReq, inv_iff, inv_deliverReq, inv_at]

theorem inv_nextReq {sid : Nat} (hs : s.Inv) : (nextReq s sid).Inv := by
  grind [nextReq, inv_iff, inv_sendReq]

theorem inv_postAs {src : ReqSrc} (hs : s.Inv) : (postAs s id src va pa v).Inv := by
  grind [postAs, inv_iff, inv_sendReq]

theorem inv_postReq {src : ReqSrc} (hs : s.Inv) : (postReq s src va pa v).2.Inv := by
  grind [postReq, inv_fresh, inv_postAs]

theorem inv_dropReq (hs : s.Inv) : (dropReq s id).Inv := by
  grind [dropReq, inv_iff, inv_nextReq]

theorem inv_keepReply (hs : s.Inv) : (keepReply s r x).Inv := by
  grind [keepReply, inv_iff]

theorem inv_notifyWaits (hs : s.Inv) : (notifyWaits s pa).Inv := by
  grind [notifyWaits, inv_foldl, inv_foldl_fst, inv_iff, inv_within, inv_enterFabric]

theorem inv_respond {typ : Nat} {status : Nat} {pay : List Byte} (hs : s.Inv) : (respond s typ tag status code
    v pay).Inv := by
  grind [respond, inv_iff]

theorem inv_ctxAddFault (hs : s.Inv) : (ctxAddFault s id n code v fu).Inv := by
  grind [ctxAddFault, inv_iff, inv_deliverFault]

theorem inv_launcherFault (hs : s.Inv) : (launcherFault s kid code v).Inv := by
  grind [launcherFault, inv_iff, inv_eventWalk]

theorem inv_addFault (hs : s.Inv) : (addFault s id r code fu).Inv := by
  grind [addFault, inv_iff, inv_launcherFault, inv_deliverFault, inv_respond, inv_ctxAddFault, inv_eventWalk,
    inv_bbAdd]

theorem inv_addDone (hs : s.Inv) : (addDone s id r).Inv := by
  grind [addDone, inv_iff, inv_updImage, inv_respond, inv_updCtx]

theorem inv_updReq {f : Req → Req} (hs : s.Inv) : (updReq s id f).Inv := by
  grind [updReq, inv_iff]

theorem inv_failReq (hs : s.Inv) : (failReq s id r code).Inv := by
  grind [failReq, inv_iff, inv_updReq, inv_nextReq, inv_addDone, inv_addFault, inv_dropReq]

theorem inv_endFate (hs : s.Inv) : (endFate s id r).Inv := by
  grind [endFate, inv_iff, inv_addDone, inv_updCtx, inv_dropReq, inv_postAs]

theorem inv_performAdd (hs : s.Inv) : (performAdd s r).1.Inv := by
  grind [performAdd, inv_iff, inv_wr64, inv_notifyWaits]

theorem inv_addReply (hs : s.Inv) : (addReply s id r x).Inv := by
  unfold addReply
  grind [inv_iff, inv_failReq, inv_addDone, inv_dropReq]

theorem inv_waitDone (hs : s.Inv) : (waitDone s id r v).Inv := by
  grind [waitDone, inv_iff, inv_respond, inv_at, inv_updCtx, inv_dropReq]

theorem inv_waitAcked (hs : s.Inv) : (waitAcked s id r).Inv := by
  grind [waitAcked, inv_iff, inv_updReq, inv_nextReq, inv_updCtx]

theorem inv_performWait (hs : s.Inv) : (performWait s id r).1.Inv := by
  grind [performWait, inv_iff, inv_updReq]

theorem inv_waitReply (hs : s.Inv) : (waitReply s id r x).Inv := by
  unfold waitReply
  grind [inv_iff, inv_updReq, inv_waitDone, inv_failReq, inv_nextReq, inv_waitAcked, inv_at]

theorem inv_ctrReply (hs : s.Inv) : (ctrReply s id r x).Inv := by
  grind [ctrReply, inv_addReply, inv_waitReply]

theorem inv_sendReply (hs : s.Inv) : (sendReply s id r x).Inv := by
  grind [sendReply, inv_iff, inv_ctrReply, inv_enterFabric]

theorem inv_ctrTake (hs : s.Inv) : (ctrTake s id r).Inv := by
  grind [ctrTake, inv_iff, inv_waitDone, inv_ctrReply]

theorem inv_execCounterAddPerformed (hs : s.Inv) : OutInv (execCounterAddPerformed id s) := by
  grind [execCounterAddPerformed, outInv_next, inv_iff, inv_updReq, inv_performAdd, inv_keepReply,
    inv_sendReply, inv_at]

theorem inv_execCounterWaitPerformed (hs : s.Inv) : OutInv (execCounterWaitPerformed id s) := by
  grind [execCounterWaitPerformed, outInv_next, inv_iff, inv_updReq, inv_performWait, inv_waitDone,
    inv_keepReply, inv_sendReply]

theorem inv_execCounterWaitResend (hs : s.Inv) : OutInv (execCounterWaitResend id s) := by
  grind [execCounterWaitResend, outInv_next, inv_iff, inv_postAs]

theorem inv_sendHead {p : Ctx → Bool} (hs : s.Inv) : (sendHead s n p).Inv := by
  grind [sendHead, inv_iff, inv_updImage, inv_postAs]

theorem inv_beginWalk (ho : OutInv o) : OutInv (beginWalk s o) := by
  unfold beginWalk
  grind [outInv_next, inv_iff, inv_within, inv_updCtx]

theorem inv_execCtAdd (hs : s.Inv) : OutInv (execCtAdd g src s) := by
  grind [execCtAdd, inv_iff, inv_fresh, inv_beginWalk, inv_trigger, inv_updCtx]

theorem inv_beginWait (ho : OutInv o) : OutInv (beginWait s t o) := by
  unfold beginWait
  grind [outInv_next, inv_iff, inv_fresh, inv_updCtx]

theorem inv_execCtWait (hs : s.Inv) : OutInv (execCtWait g src s) := by
  grind [execCtWait, inv_iff, inv_beginWalk, inv_onCtx, inv_trigger, inv_beginWait, inv_flyNew]

theorem inv_execCtOwait (hs : s.Inv) : OutInv (execCtOwait g src s) := by
  grind [execCtOwait, inv_trigger, inv_flyNew]

theorem inv_execCtTwait (hs : s.Inv) : OutInv (execCtTwait g src s) := by
  grind [execCtTwait, inv_trigger, inv_flyNew]

/-! ### Machine/Queues.lean -/

theorem inv_faultIf {b : Bool} : AccInv (faultIf b code v) := by
  grind [faultIf, accInv_pure, accInv_throw]

theorem inv_translate {g : Agent} {w : Want} : AccInv (translate g va w n) := by
  grind [translate, accInv_pure, accInv_throw, accInv_bind, accInv_get_bind, accInv_set, inv_iff, inv_tlbFill]

theorem inv_readPhys : AccInv (readPhys pa n a) := by
  grind [readPhys, accInv_pure, accInv_throw, accInv_bind, accInv_get_bind, accInv_set, inv_iff, inv_touch]

theorem inv_writePhys {v : Nat} : AccInv (writePhys pa v n a) := by
  grind [writePhys, accInv_pure, accInv_throw, accInv_bind, accInv_get_bind, accInv_set, inv_iff, inv_touch,
    inv_wr]

theorem inv_writeBy {g : Agent} {v : Nat} : AccInv (writeBy g pa v n a) := by
  grind [writeBy, accInv_pure, accInv_throw, accInv_bind, accInv_get_bind, accInv_set, inv_iff, inv_writePhys]

theorem inv_readVirt {g : Agent} : AccInv (readVirt g va n) := by
  grind [readVirt, accInv_pure, accInv_bind, accInv_foldlM, inv_readPhys, inv_translate]

theorem inv_writeVirt {g : Agent} {v : Nat} : AccInv (writeVirt g va v n) := by
  grind [writeVirt, accInv_bind, accInv_forM, inv_translate, inv_writeBy]

theorem inv_readWord {g : Agent} : AccInv (readWord g va) := by
  grind [readWord, accInv_pure, accInv_bind, inv_readVirt]

theorem inv_writeWord {g : Agent} : AccInv (writeWord g va v) := by
  grind [writeWord, inv_writeVirt]

theorem inv_epAddr {g : Agent} {off : Int} {width : Nat} {w : Want} : AccInv (epAddr g a off n width w) := by
  grind [epAddr, accInv_pure, accInv_throw, accInv_bind, inv_iff, inv_translate, inv_faultIf]

theorem inv_readEp {g : Agent} {off : Int} : AccInv (readEp g a off n) := by
  grind [readEp, accInv_pure, accInv_bind, accInv_foldlM, inv_readPhys, inv_epAddr]

theorem inv_writeEp {g : Agent} {off : Int} {v : Nat} : AccInv (writeEp g a off v n) := by
  grind [writeEp, accInv_bind, accInv_forM, inv_epAddr, inv_writeBy]

theorem inv_goMove {blk : List Note} {tok : Option Nat} {fix : Val → Cmd → Cmd} {eff : Val → State → State}
    (heff : ∀ v s, s.Inv → (eff v s).Inv) (hs : s.Inv) : OutInv (goMove fu port blk chk tok fix eff g src s) :=
    by
  grind [goMove, inv_iff, inv_fresh, inv_onCtx, inv_trigger]

theorem inv_onServed (hs : s.Inv) : (onServed s n fu f).Inv := by
  grind [onServed, inv_updImage]

theorem inv_endServed {tok : Option Nat} (hs : s.Inv) : (endServed s n fu tok v).Inv := by
  grind [endServed, inv_iff, inv_onServed]

theorem inv_putBack (hs : s.Inv) : (putBack s n fu).Inv := by
  grind [putBack, inv_iff, inv_onServed]

theorem inv_faultServed (hs : s.Inv) : (faultServed s n fu code v).Inv := by
  grind [faultServed, inv_iff, inv_onServed, inv_deliverFault, inv_putBack]

theorem inv_postAdd {g : Agent} {src : ReqSrc} : AccInv (postAdd g src va k) := by
  grind [postAdd, accInv_bind, accInv_get_bind, accInv_set, inv_translate, inv_postReq]

theorem inv_serve (hs : s.Inv) : (serve s n fu).Inv := by
  grind [serve, inv_iff, inv_within, inv_updCtx, inv_postAs]

theorem inv_execRequestTimeout (hs : s.Inv) : OutInv (execRequestTimeout id s) := by
  grind [execRequestTimeout, outInv_next, inv_iff, inv_faultServed, inv_sendReq, inv_failReq, inv_endFate,
    inv_dropReq]

theorem inv_serveEngine (hs : s.Inv) : (serveEngine s c fu).Inv := by
  grind [serveEngine, inv_iff, inv_updCore, inv_serve]

theorem inv_serveCore (hs : s.Inv) : (serveCore s c).Inv := by
  grind [serveCore, inv_foldl, inv_foldl_fst, inv_serveEngine, inv_serve]

/-! ### Machine/Skein.lean -/

theorem inv_readDesc {g : Agent} : AccInv (readDesc g va) := by
  grind [readDesc, accInv_pure, accInv_bind, inv_faultIf, inv_readVirt]

theorem inv_updWord {g : Agent} {f : Word → Word} : AccInv (updWord g va f) := by
  grind [updWord, accInv_bind, inv_readWord, inv_writeWord]

theorem inv_checkStart : AccInv (checkStart d) := by
  grind [checkStart, inv_faultIf]

theorem inv_checkDesc : AccInv (checkDesc d) := by
  grind [checkDesc, accInv_bind, inv_checkStart, inv_faultIf]

theorem inv_loadPool {g : Agent} : AccInv (loadPool g d) := by
  grind [loadPool, accInv_pure, accInv_bind, inv_translate, inv_readVirt]

theorem inv_readPool {g : Agent} : AccInv (readPool g d) := by
  grind [readPool, accInv_pure, accInv_bind, inv_loadPool, inv_faultIf]

theorem inv_readEnt {g : Agent} {p : Pool} : AccInv (readEnt g p k) := by
  grind [readEnt, accInv_pure, accInv_bind, inv_readVirt]

theorem inv_blockIs {g : Agent} {p : Pool} : AccInv (blockIs g p k id j) := by
  grind [blockIs, accInv_pure, accInv_bind, inv_readEnt]

theorem inv_findHash {g : Agent} {p : Pool} {l5 : List Nat} : AccInv (findHash g p id j h l5) := by
  induction l5 with grind [findHash, accInv_pure, accInv_bind, inv_readEnt, inv_blockIs]

theorem inv_findOver {g : Agent} {p : Pool} : AccInv (findOver g p id j k4 k5) := by
  induction k4 generalizing k5 with grind [findOver, accInv_pure, accInv_bind, inv_blockIs, inv_readWord]

theorem inv_findBlock {g : Agent} {p : Pool} : AccInv (findBlock g p id j) := by
  grind [findBlock, accInv_pure, accInv_throw, accInv_bind, inv_iff, inv_readWord, inv_findHash, inv_findOver]

theorem inv_ownerOf {g : Agent} {x4 : Desc} : AccInv (ownerOf g d j k3 x4) := by
  induction k3 generalizing x4 with grind [ownerOf, accInv_pure, accInv_bind, inv_readDesc, accInv_throw]

theorem inv_resolve {g : Agent} {p : Pool} : AccInv (resolve g d p j) := by
  grind [resolve, accInv_pure, accInv_bind, accInv_get_bind, accInv_modify, inv_iff, inv_ownerOf, inv_findBlock]

theorem inv_shootBlocks {hit : SkbEnt → Bool} (hs : s.Inv) : (shootBlocks s hit).Inv := by
  grind [shootBlocks, inv_iff]

theorem inv_insertBlock {g : Agent} {p : Pool} {l5 : List Nat} : AccInv (insertBlock g p k id j l5) := by
  induction l5 with grind [insertBlock, accInv_pure, accInv_bind, inv_readWord, inv_updWord]

theorem inv_allocBlock {g : Agent} {p : Pool} : AccInv (allocBlock g d p j) := by
  unfold allocBlock
  refine accInv_bind inv_faultIf fun _ => accInv_bind inv_readPhys fun _ => accInv_bind inv_writeWord fun _ => ?_
  grind [accInv_pure, accInv_bind, inv_writeWord, inv_updWord, inv_insertBlock]

theorem inv_allocBlocks {g : Agent} {x3 : Pool} : AccInv (allocBlocks g d k2 x3 k4) := by
  induction k2 generalizing x3 k4 with grind [allocBlocks, accInv_pure, accInv_bind, inv_allocBlock]

theorem inv_unlinkOver {g : Agent} {p : Pool} {nx : Nat} : AccInv (unlinkOver g p k nx k4 k5) := by
  induction k4 generalizing k5 with grind [unlinkOver, accInv_pure, accInv_bind, inv_readWord, inv_writeWord]

theorem inv_freeBlock {g : Agent} {o : Desc} {p : Pool} : AccInv (freeBlock g o p k) := by
  unfold freeBlock
  refine accInv_bind inv_readWord fun _ => accInv_bind inv_readWord fun _ => accInv_bind inv_readWord fun _ => ?_
  dsimp only
  split
  · refine accInv_bind inv_readWord fun _ => ?_
    split
    · refine accInv_bind inv_writeWord fun _ => ?_
      grind [accInv_bind, inv_readWord, inv_writeWord, inv_updWord, inv_writePhys]
    · refine accInv_bind inv_unlinkOver fun _ => ?_
      grind [accInv_bind, inv_readWord, inv_writeWord, inv_updWord, inv_writePhys]
  · refine accInv_bind inv_updWord fun _ => ?_
    grind [accInv_bind, inv_readWord, inv_writeWord, inv_updWord, inv_writePhys]

theorem inv_slotPA {g : Agent} {p : Pool} : AccInv (slotPA g d p i) := by
  grind [slotPA, accInv_pure, accInv_bind, inv_resolve, inv_faultIf]

theorem inv_bmapBit {g : Agent} : AccInv (bmapBit g d i) := by
  grind [bmapBit, accInv_pure, accInv_bind, accInv_get_bind, inv_readWord]

theorem inv_readSlot {g : Agent} : AccInv (readSlot g da i off n) := by
  grind [readSlot, accInv_bind, inv_iff, inv_loadPool, inv_readPhys, inv_readDesc, inv_slotPA, inv_faultIf]

theorem inv_fillSlot {g : Agent} {v : Nat} : AccInv (fillSlot g da i off v n) := by
  grind [fillSlot, accInv_bind, inv_iff, inv_loadPool, inv_bmapBit, inv_writePhys, inv_readDesc, inv_slotPA,
    inv_faultIf]

theorem inv_skGo {range : Note} {named : Bool} {more : List Note} {eff : Word → Ctx → Ctx} (hs : s.Inv) :
    OutInv (skGo port range named more eff g src s) := by
  grind [skGo, inv_iff, inv_onCtx, inv_goMove]

theorem inv_execSkOpen (hs : s.Inv) : OutInv (execSkOpen g src s) := by
  grind [execSkOpen, inv_skGo]

theorem inv_execSkRes (hs : s.Inv) : OutInv (execSkRes g src s) := by
  grind [execSkRes, inv_skGo]

theorem inv_execSkCmt (hs : s.Inv) : OutInv (execSkCmt g src s) := by
  grind [execSkCmt, inv_skGo]

theorem inv_execSkFork (hs : s.Inv) : OutInv (execSkFork g src s) := by
  grind [execSkFork, inv_skGo]

theorem inv_execSkRel (hs : s.Inv) : OutInv (execSkRel g src s) := by
  grind [execSkRel, inv_iff, inv_skGo]

theorem inv_execSkLen (hs : s.Inv) : OutInv (execSkLen g src s) := by
  grind [execSkLen, inv_skGo]

theorem inv_execSkPidx (hs : s.Inv) : OutInv (execSkPidx g src s) := by
  grind [execSkPidx, inv_skGo]

theorem inv_execSkPins (hs : s.Inv) : OutInv (execSkPins g src s) := by
  grind [execSkPins, inv_skGo]

theorem inv_execSkCmpt (hs : s.Inv) : OutInv (execSkCmpt g src s) := by
  grind [execSkCmpt, inv_skGo]

theorem inv_cmdDesc {g : Agent} : AccInv (cmdDesc g q) := by
  grind [cmdDesc, accInv_pure, accInv_bind, inv_readPool, inv_readDesc, inv_checkDesc]

theorem inv_skOpenAt {g : Agent} : AccInv (skOpenAt g q) := by
  grind [skOpenAt, accInv_pure, accInv_bind, inv_cmdDesc, inv_faultIf]

theorem inv_skResAt {g : Agent} : AccInv (skResAt g q) := by
  grind [skResAt, accInv_pure, accInv_bind, inv_writeWord, inv_allocBlocks, inv_readPool, inv_readDesc,
    inv_faultIf]

theorem inv_skResOpen {g : Agent} : AccInv (skResOpen g q) := by
  grind [skResOpen, accInv_pure, accInv_bind, inv_readDesc]

theorem inv_skResWindow {g : Agent} : AccInv (skResWindow g q) := by
  grind [skResWindow, accInv_bind, inv_cmdDesc, inv_skResOpen, inv_faultIf]

theorem inv_setBmap {g : Agent} {v : Nat} : AccInv (setBmap g d v i) := by
  grind [setBmap, inv_updWord]

theorem inv_advanceClen {g : Agent} : AccInv (advanceClen g d k2 k3) := by
  induction k2 generalizing k3 with grind [advanceClen, accInv_pure, accInv_bind, inv_bmapBit, inv_setBmap]

theorem inv_skCmtAt {g : Agent} : AccInv (skCmtAt g q) := by
  unfold skCmtAt
  refine accInv_bind inv_cmdDesc fun _ => accInv_bind inv_faultIf fun _ => ?_
  grind [accInv_pure, accInv_bind, accInv_anyM, accInv_forM, inv_bmapBit, inv_faultIf, inv_setBmap, inv_advanceClen,
    inv_writeWord]

theorem inv_addCount {g : Agent} {p : Pool} : AccInv (addCount g p b) := by
  grind [addCount, accInv_bind, inv_readWord, inv_writeWord, inv_faultIf]

theorem inv_skForkAt {g : Agent} : AccInv (skForkAt g q) := by
  unfold skForkAt
  refine accInv_bind inv_readDesc fun _ => accInv_bind inv_checkStart fun _ => accInv_bind inv_readPool fun _ =>
    accInv_bind inv_readDesc fun _ => accInv_bind inv_faultIf fun _ => accInv_bind inv_faultIf fun _ =>
    accInv_bind inv_faultIf fun _ => accInv_bind inv_faultIf fun _ => accInv_bind (accInv_forM fun _ => ?_) fun _ => ?_
  · grind [accInv_bind, inv_resolve, inv_addCount]
  · split
    · refine accInv_bind inv_resolve fun _ => accInv_bind inv_allocBlock fun _ => accInv_bind inv_readPhys fun _ =>
        accInv_bind inv_writePhys fun _ => ?_
      grind [accInv_bind, accInv_pure, inv_writeWord]
    · grind [accInv_bind, accInv_pure, inv_writeWord]

theorem inv_skRelAt {g : Agent} : AccInv (skRelAt g q) := by
  unfold skRelAt
  refine accInv_bind inv_cmdDesc fun _ => accInv_bind inv_faultIf fun _ => ?_
  refine accInv_bind (accInv_forM fun _ => ?_) fun _ => ?_
  · grind [accInv_pure, accInv_bind, accInv_modify, inv_resolve, inv_readWord, inv_writeWord, inv_shootBlocks,
      inv_freeBlock]
  · grind [accInv_bind, accInv_modify, inv_updWord, inv_shootBlocks]

theorem inv_bucketOf {g : Agent} {ix : Word} {key : Word} : AccInv (bucketOf g ix key) := by
  grind [bucketOf, accInv_pure, accInv_bind, inv_readWord, inv_faultIf]

theorem inv_findEntry {g : Agent} {b : Word} {p : List Word → Bool} {l3 : List Nat} : AccInv (findEntry g b p
    l3) := by
  induction l3 with grind [findEntry, accInv_pure, accInv_bind, inv_readVirt]

theorem inv_recordPA {g : Agent} : AccInv (recordPA g t) := by
  grind [recordPA, accInv_pure, accInv_throw, inv_iff]

theorem inv_prefixAt {g : Agent} : AccInv (prefixAt g q) := by
  unfold prefixAt
  refine accInv_bind inv_recordPA fun _ => accInv_bind inv_readPhys fun _ => accInv_bind inv_bucketOf fun _ =>
    accInv_bind inv_findEntry fun _ => ?_
  split
  · grind [accInv_pure, accInv_bind, inv_readWord, inv_writePhys]
  · split
    · grind [accInv_pure, accInv_bind, inv_updWord]
    · split
      · exact accInv_pure
      · refine accInv_bind inv_findEntry fun _ => ?_
        split
        · exact accInv_pure
        · refine accInv_bind inv_writeWord fun _ => ?_
          grind [accInv_pure, accInv_bind, inv_writeWord, inv_updWord]

theorem inv_firstDiff {g : Agent} {b : Word} : AccInv (firstDiff g a b k3 k4) := by
  induction k3 generalizing k4 with grind [firstDiff, accInv_pure, accInv_bind, inv_readVirt]

theorem inv_skCmptAt {g : Agent} : AccInv (skCmptAt g q) := by
  grind [skCmptAt, accInv_pure, accInv_bind, inv_cmdDesc, inv_firstDiff, inv_faultIf]

theorem inv_skPerform {g : Agent} : AccInv (skPerform g q) := by
  grind [skPerform, accInv_pure, accInv_bind, inv_iff, inv_skCmtAt, inv_cmdDesc, inv_skCmptAt, inv_prefixAt,
    inv_skRelAt, inv_skOpenAt, inv_skResAt, inv_skForkAt]

theorem inv_wakeWindows (hs : s.Inv) : (wakeWindows s).Inv := by
  grind [wakeWindows, inv_foldl, inv_foldl_fst, inv_at]

theorem inv_skEnd (hs : s.Inv) : (skEnd s n q x).Inv := by
  unfold skEnd
  grind [inv_iff, inv_onServed, inv_faultServed, inv_endServed, inv_dropReq]

theorem inv_skReply (hs : s.Inv) : (skReply s n q x).Inv := by
  grind [skReply, inv_iff, inv_keepReply, inv_skEnd, inv_enterFabric]

theorem inv_skFinish {g : Agent} (hs : s.Inv) : (skFinish s n g q).Inv := by
  grind [skFinish, inv_iff, accInv_run, inv_wakeWindows, inv_skPerform, inv_skReply]

theorem inv_skEnlist {g : Agent} (hs : s.Inv) : (skEnlist s n g q).Inv := by
  grind [skEnlist, inv_iff, accInv_run, inv_updReq, inv_sendReq, inv_within, inv_translate, inv_putBack,
    inv_skReply, inv_dropReq]

theorem inv_execSkCommandComplete (hs : s.Inv) : OutInv (execSkCommandComplete n s) := by
  grind [execSkCommandComplete, outInv_next, inv_iff, accInv_run, inv_skResWindow, inv_skEnlist, inv_skReply,
    inv_skFinish]

theorem inv_grantWindows {l1 : List (Nat × Nat)} (hs : s.Inv) : (grantWindows pa l1 s).Inv := by
  induction l1 generalizing s with
  | nil => exact hs
  | cons p l ih =>
    unfold grantWindows
    dsimp only
    split
    · exact ih hs
    · split
      · exact ih hs
      · split
        · exact ih (inv_skReply hs)
        · exact ih (inv_skFinish hs)
        · exact hs

theorem inv_execSkResWindowGrant (hs : s.Inv) : OutInv (execSkResWindowGrant pa s) := by
  grind [execSkResWindowGrant, outInv_next, inv_grantWindows]

/-! ### Machine/TileFun.lean -/

theorem inv_txTrigger {wt : Nat} {uy : Bool} {chk : Word → Row → List Note} {f : Word → Word → Row → Row × Flg}
    (hs : s.Inv) : OutInv (txTrigger port lat wt ut uy chk f g src s) := by
  grind [txTrigger, inv_trigger, inv_landTile]

theorem inv_execTxCvt (hs : s.Inv) : OutInv (execTxCvt g src s) := by
  grind [execTxCvt, inv_txTrigger]

theorem inv_execTxQnt (hs : s.Inv) : OutInv (execTxQnt g src s) := by
  grind [execTxQnt, inv_txTrigger]

theorem inv_execTxDqnt (hs : s.Inv) : OutInv (execTxDqnt g src s) := by
  grind [execTxDqnt, inv_iff, inv_txTrigger]

theorem inv_execTxExp (hs : s.Inv) : OutInv (execTxExp g src s) := by
  grind [execTxExp, inv_txTrigger]

theorem inv_execTxLog (hs : s.Inv) : OutInv (execTxLog g src s) := by
  grind [execTxLog, inv_txTrigger]

theorem inv_execTxRcp (hs : s.Inv) : OutInv (execTxRcp g src s) := by
  grind [execTxRcp, inv_txTrigger]

theorem inv_execTxRsq (hs : s.Inv) : OutInv (execTxRsq g src s) := by
  grind [execTxRsq, inv_txTrigger]

theorem inv_execTxSqrt (hs : s.Inv) : OutInv (execTxSqrt g src s) := by
  grind [execTxSqrt, inv_txTrigger]

theorem inv_execTxTanh (hs : s.Inv) : OutInv (execTxTanh g src s) := by
  grind [execTxTanh, inv_txTrigger]

theorem inv_execTxSigm (hs : s.Inv) : OutInv (execTxSigm g src s) := by
  grind [execTxSigm, inv_txTrigger]

theorem inv_execTxErf (hs : s.Inv) : OutInv (execTxErf g src s) := by
  grind [execTxErf, inv_txTrigger]

/-! ### Machine/Engine.lean -/

theorem inv_execCeGo (hs : s.Inv) : OutInv (execCeGo g src s) := by
  grind [execCeGo, inv_iff, inv_goMove, inv_readsNow]

theorem inv_execCeCmp (hs : s.Inv) : OutInv (execCeCmp g src s) := by
  grind [execCeCmp, inv_goMove]

theorem inv_execGeGo (hs : s.Inv) : OutInv (execGeGo g src s) := by
  grind [execGeGo, inv_goMove]

theorem inv_execGeSkg (hs : s.Inv) : OutInv (execGeSkg g src s) := by
  grind [execGeSkg, inv_iff, inv_goMove]

theorem inv_execWeGo (hs : s.Inv) : OutInv (execWeGo g src s) := by
  grind [execWeGo, inv_iff, inv_goMove]

theorem inv_writeCb {g : Agent} {b : Cb} {v : Nat} : AccInv (writeCb g b k off v n) := by
  grind [writeCb, inv_writePhys]

theorem inv_writeDst {g : Agent} {s0 : Nat} {pos : Nat} {off : Int} {v : Nat} : AccInv (writeDst g a s0 pos off
    v n) := by
  grind [writeDst, accInv_bind, accInv_set, accInv_forM, inv_iff, inv_fillSlot, inv_writeCb, inv_writeEp,
    inv_faultIf]

theorem inv_reachCb {g : Agent} {s0 : Nat} {top : Nat} : AccInv (reachCb g q s0 top) := by
  grind [reachCb, accInv_pure, accInv_throw, accInv_bind, inv_faultIf]

theorem inv_alignCheck {off : Int} {z : Nat} : AccInv (alignCheck a off z) := by
  grind [alignCheck, accInv_pure, accInv_throw, accInv_bind, accInv_get_bind, accInv_set, inv_iff]

theorem inv_ceElem {g : Agent} {ds : List Dim} {s0 : Nat} : AccInv (ceElem g q ds s0 w) := by
  unfold ceElem
  refine accInv_bind ?_ fun _ => ?_
  · grind [accInv_pure, accInv_bind, inv_alignCheck, inv_readEp]
  · grind [accInv_pure, accInv_bind, inv_alignCheck, inv_writeDst]

theorem inv_ceChunk {g : Agent} : AccInv (ceChunk g q) := by
  grind [ceChunk, accInv_pure, accInv_bind, accInv_foldlM, inv_ceElem, inv_reachCb]

theorem inv_cmpChunk {g : Agent} : AccInv (cmpChunk g q) := by
  grind [cmpChunk, accInv_pure, accInv_bind, inv_iff, inv_readEp]

theorem inv_gatherFault : AccInv (gatherFault) := by
  grind [gatherFault, accInv_throw, accInv_bind, accInv_get_bind, accInv_set, inv_iff]

theorem inv_gePart {g : Agent} {s0 : Nat} : AccInv (gePart g q s0 i b n) := by
  grind [gePart, accInv_bind, inv_readEp, inv_writeDst, inv_gatherFault]

theorem inv_geChunk {g : Agent} : AccInv (geChunk g q) := by
  grind [geChunk, accInv_pure, accInv_bind, accInv_forM, inv_gePart, inv_reachCb]

theorem inv_skgChunk {g : Agent} : AccInv (skgChunk g q) := by
  grind [skgChunk, accInv_pure, accInv_bind, accInv_forM, inv_writeDst, inv_readSlot, inv_reachCb, inv_writeCb]

theorem inv_weColumn {g : Agent} {patch : Nat} : AccInv (weColumn g q patch n) := by
  grind [weColumn, accInv_pure, inv_iff, inv_readEp]

theorem inv_weChunk {g : Agent} : AccInv (weChunk g q) := by
  grind [weChunk, accInv_pure, accInv_bind, accInv_get_bind, accInv_mapM, inv_weColumn, inv_reachCb,
    inv_writeCb]

theorem inv_nextChunk {g : Agent} : AccInv (nextChunk g q) := by
  grind [nextChunk, inv_iff, inv_ceChunk, inv_geChunk, inv_skgChunk, inv_cmpChunk, inv_weChunk]

theorem inv_chunkAdd {g : Agent} : AccInv (chunkAdd g q n) := by
  grind [chunkAdd, accInv_pure, inv_postAdd]

theorem inv_endEngine (hs : s.Inv) : (endEngine s n q v).Inv := by
  grind [endEngine, inv_iff, inv_onServed, inv_endServed]

theorem inv_stopChunk {f : Flt} (hs : s.Inv) : (stopChunk s n q f).Inv := by
  grind [stopChunk, inv_iff, inv_onServed, inv_at, inv_putBack]

theorem inv_chunkCount (hs : s.Inv) : (chunkCount s n k).Inv := by
  grind [chunkCount, inv_updCore]

theorem inv_endChunk {c : Ctx} {k : Chunk} (hs : s.Inv) : (endChunk s n c q k).Inv := by
  grind [endChunk, inv_iff, accInv_run, inv_onServed, inv_endEngine, inv_stopChunk, inv_chunkCount,
    inv_chunkAdd]

theorem inv_runChunk {c : Ctx} (hs : s.Inv) : (runChunk s n c q).Inv := by
  grind [runChunk, inv_iff, accInv_run, inv_onServed, inv_nextChunk, inv_stopChunk, inv_putBack, inv_endChunk]

theorem inv_execEngineAccessFault (hs : s.Inv) : OutInv (execEngineAccessFault n fu s) := by
  grind [execEngineAccessFault, outInv_next, inv_iff, inv_deliverFault, inv_updImage]

/-! ### Machine/Flow.lean -/

theorem inv_updEntry {f : FEntry → FEntry} (hs : s.Inv) : (s.updEntry h e f).Inv := by
  grind [State.updEntry, inv_iff, inv_updHolder]

theorem inv_patEvent {p : Option Pattern} (hs : s.Inv) : (patEvent s h p code v).Inv := by
  unfold patEvent
  grind [inv_iff, inv_eventWalk]

theorem inv_flowEvent {p : Option Pattern} (hs : s.Inv) : (flowEvent s h p code).Inv := by
  grind [flowEvent, inv_patEvent, inv_drawWord]

theorem inv_stray (hs : s.Inv) : (stray s h p).Inv := by
  grind [stray, inv_iff, inv_patEvent, inv_updHolder, inv_holderCounts, inv_bbAdd]

theorem inv_addCredit (hs : s.Inv) : (addCredit s h e k n).Inv := by
  grind [addCredit, inv_updEntry, inv_at]

theorem inv_returnCredit {x : FEntry} (hs : s.Inv) : (returnCredit s h x i).Inv := by
  grind [returnCredit, inv_iff, inv_addCredit, inv_sendFrom]

theorem inv_freeSlot (hs : s.Inv) : (freeSlot s h e k).Inv := by
  grind [freeSlot, inv_foldl, inv_foldl_fst, inv_iff, inv_returnCredit, inv_updEntry]

theorem inv_discard {x : FEntry} (hs : s.Inv) : (discard s h x i code).Inv := by
  grind [discard, inv_iff, inv_returnCredit, inv_flowEvent, inv_holderCounts]

theorem inv_discardSlot (hs : s.Inv) : (discardSlot s h e k).Inv := by
  grind [discardSlot, inv_iff, inv_freeSlot, inv_flowEvent, inv_holderCounts]

theorem inv_completeSlot (hs : s.Inv) : (completeSlot s h e k).Inv := by
  grind [completeSlot, inv_iff, inv_discardSlot, inv_updEntry, inv_at]

theorem inv_storePacket (hs : s.Inv) : (storePacket s h e i k p).Inv := by
  grind [storePacket, inv_iff, inv_discardSlot, inv_updEntry, inv_completeSlot]

theorem inv_acceptMatched {own : Bool} (hs : s.Inv) : (acceptMatched s h e own p).Inv := by
  grind [acceptMatched, inv_iff, inv_returnCredit, inv_updEntry, inv_flowEvent, inv_holderCounts,
    inv_storePacket, inv_discard]

theorem inv_acceptFlow {a : Arrival} (hs : s.Inv) : (acceptFlow s h a).Inv := by
  grind [acceptFlow, inv_iff, inv_stray, inv_acceptMatched, inv_holderCounts]

theorem inv_execFlowPacketAccept (hs : s.Inv) : OutInv (execFlowPacketAccept h ch s) := by
  grind [execFlowPacketAccept, outInv_next, inv_iff, inv_acceptFlow, inv_updHolder]

theorem inv_execCreditReplyArrival (hs : s.Inv) : OutInv (execCreditReplyArrival h ch s) := by
  grind [execCreditReplyArrival, outInv_next, inv_iff, inv_addCredit, inv_updHolder]

theorem inv_sendCopy {seqn : Nat} (hs : s.Inv) : (sendCopy s h e k seqn p).Inv := by
  grind [sendCopy, inv_acceptFlow, inv_updEntry, inv_sendFrom]

theorem inv_countSent (hs : s.Inv) : (countSent s h e).Inv := by
  grind [countSent, inv_foldl, inv_foldl_fst, inv_iff, inv_updEntry]

theorem inv_emitFrom (hs : s.Inv) : (emitFrom k0 s k2 k3).Inv := by
  induction k0 generalizing s with
    grind [emitFrom, inv_foldl, inv_freeSlot, inv_sendCopy, inv_updEntry, inv_countSent]

theorem inv_execEmission (hs : s.Inv) : OutInv (execEmission h e s) := by
  grind [execEmission, outInv_next, inv_emitFrom]

theorem inv_onFlowCb {p : Ctx → Bool} {f : Cb → Cb} (hs : s.Inv) : (onFlowCb s h e p f).Inv := by
  grind [onFlowCb, inv_updImage]

theorem inv_leaveCb (hs : s.Inv) : (leaveCb s h e).Inv := by
  grind [leaveCb, inv_onFlowCb]

theorem inv_deliverWrite {g : Agent} {x : FEntry} : AccInv (deliverWrite g x i p) := by
  grind [deliverWrite, accInv_pure, accInv_throw, accInv_bind, accInv_forM, inv_iff, inv_fillSlot, inv_writeCb,
    inv_writeEp, inv_faultIf]

theorem inv_deliverFail (hs : s.Inv) : (deliverFail s h e k code v).Inv := by
  grind [deliverFail, inv_iff, inv_leaveCb, inv_patEvent, inv_freeSlot, inv_holderCounts, inv_bbAdd]

theorem inv_deliverOne_write {x : FEntry} {dest : Option (BitVec 32)} (hs : s.Inv) : (deliverOne.write h e k s
    x p dest).Inv := by
  unfold deliverOne.write
  have hd := accInv_run (inv_deliverWrite (g := deliverAgent s h x) (x := x) (i := flowPq h e) (p := p)) hs
  dsimp only
  split <;> rename_i e1 <;> rw [e1] at hd
  · split
    · exact inv_onFlowCb hd
    · exact inv_deliverFail hd
  · have hl (f : Ctx → Ctx) : (leaveCb (State.updCtx _ x.ctx f) h e).Inv := inv_leaveCb (inv_updCtx (f := f) hd)
    have ha (g : Agent) (src : ReqSrc) (w : Word) (k : Nat) :
        AccInv (if fld x.done 3 53 = 0 then pure () else postAdd g src w k : Acc Unit) := by
      split
      · exact accInv_pure
      · exact inv_postAdd
    have hr := fun g src w k f => accInv_run (ha g src w k) (hl f)
    split <;> rename_i e2 <;> have hu := e2 ▸ hr _ _ _ _ _
    · exact inv_deliverFail hu
    · refine inv_at (inv_freeSlot ?_)
      split
      · exact inv_updImage hu
      · exact hu

theorem inv_deliverOne (hs : s.Inv) : (deliverOne s h e k).Inv := by
  grind [deliverOne, inv_iff, accInv_run, inv_leaveCb, inv_deliverFail, inv_postAdd, inv_updImage,
    inv_freeSlot, inv_onFlowCb, inv_at, inv_deliverWrite, inv_updCtx, inv_drawWord, inv_deliverOne_write]

theorem inv_execDeliverChunk (hs : s.Inv) : OutInv (execDeliverChunk h e s) := by
  grind [execDeliverChunk, outInv_next, inv_iff, inv_deliverOne]

/-! ### Machine/Barrier.lean -/

theorem inv_execCtArv (hs : s.Inv) : OutInv (execCtArv g src s) := by
  grind [execCtArv, inv_iff, inv_updCore, inv_trigger, inv_updCtx, inv_flyNew]

theorem inv_execCtBwt (hs : s.Inv) : OutInv (execCtBwt g src s) := by
  grind [execCtBwt, inv_trigger, inv_flyNew]

theorem inv_execCtBcfg (hs : s.Inv) : OutInv (execCtBcfg g src s) := by
  grind [execCtBcfg, inv_updCore, inv_trigger]

theorem inv_postBar {due : Nat} {ev : Nat → Instr} (hs : s.Inv) : (postBar s m due late ev).Inv := by
  grind [postBar, inv_iff, inv_fresh, inv_at]

theorem inv_sendReports (hs : s.Inv) : (sendReports s n).Inv := by
  grind [sendReports, inv_foldl, inv_foldl_fst, inv_iff, inv_updCtx, inv_postBar]

theorem inv_barFault (hs : s.Inv) : (barFault s ns).Inv := by
  grind [barFault, inv_foldl, inv_foldl_fst, inv_deliverImage, inv_drawWord]

theorem inv_completeAt {q : Word} (hs : s.Inv) : (completeAt s ns bar conf q).Inv := by
  grind [completeAt, inv_postBar]

theorem inv_podComplete {q : Word} (hs : s.Inv) : (podComplete s bar group q conf).Inv := by
  grind [podComplete, inv_iff, inv_completeAt]

theorem inv_podSend {mod : Nat} {m : PodMsg} (hs : s.Inv) : (podSend s mod m).Inv := by
  grind [podSend, inv_enterFabric]

theorem inv_rootAnswer {q : Word} {m : Nat} (hs : s.Inv) : (rootAnswer s bar group nmodm q conf m).Inv := by
  grind [rootAnswer, inv_iff, inv_podSend, inv_podComplete]

theorem inv_rootLater {q : Word} {m : Nat} (hs : s.Inv) : (rootLater s bar group nmodm q m).Inv := by
  grind [rootLater, inv_iff, inv_fresh, inv_at]

theorem inv_rootFull {src : Nat} {q : Word} (hs : s.Inv) : (rootFull s bar group src q).Inv := by
  grind [rootFull, inv_iff, inv_barFault, inv_drawWord, inv_eventWalk]

theorem inv_rootReport {src : Nat} {q : Word} (hs : s.Inv) : (rootReport s bar group nmodm src q conf).Inv := by
  grind [rootReport, inv_foldl, inv_foldl_fst, inv_iff, inv_rootLater, inv_rootAnswer, inv_rootFull]

theorem inv_phaseFull (hs : s.Inv) : (phaseFull s m ns).Inv := by
  grind [phaseFull, inv_iff, inv_completeAt, inv_podSend, inv_rootReport]

theorem inv_countReport {x : BarNode} (hs : s.Inv) : (countReport s m x).Inv := by
  grind [countReport, inv_iff, inv_completeAt, inv_barFault, inv_phaseFull]

theorem inv_execBarrierReport (hs : s.Inv) : OutInv (execBarrierReport id s) := by
  grind [execBarrierReport, outInv_next, inv_iff, inv_completeAt, inv_barFault, inv_countReport]

theorem inv_phaseAt (hs : s.Inv) : (phaseAt m s n).Inv := by
  grind [phaseAt, inv_iff, inv_updCore]

theorem inv_execBarrierPhaseUpdate (hs : s.Inv) : OutInv (execBarrierPhaseUpdate id s) := by
  grind [execBarrierPhaseUpdate, outInv_next, inv_foldl, inv_foldl_fst, inv_iff, inv_phaseAt]

theorem inv_execPodBarrierPacket (hs : s.Inv) : OutInv (execPodBarrierPacket id s) := by
  grind [execPodBarrierPacket, outInv_next, inv_iff, inv_rootAnswer, inv_rootReport, inv_podComplete,
    inv_drawWord, inv_eventWalk]

/-! ### Machine/TileShuffle.lean -/

theorem inv_tsTrigger {ua : Bool} {more : State → State} {f : Word → Ctx → Row → Val × Flg} (hmore : ∀ s, s.Inv
    → (more s).Inv) (hs : s.Inv) : OutInv (tsTrigger port ua ut chk more f g src s) := by
  grind [tsTrigger, inv_trigger, inv_landTile]

theorem inv_execTsPerm (hs : s.Inv) : OutInv (execTsPerm g src s) := by
  grind [execTsPerm, inv_tsTrigger]

theorem inv_execTsXpose (hs : s.Inv) : OutInv (execTsXpose g src s) := by
  grind [execTsXpose, inv_iff, inv_fresh, inv_recStage, inv_trigger, inv_updCtx]

theorem inv_execTsRsum (hs : s.Inv) : OutInv (execTsRsum g src s) := by
  grind [execTsRsum, inv_tsTrigger]

theorem inv_execTsRmax (hs : s.Inv) : OutInv (execTsRmax g src s) := by
  grind [execTsRmax, inv_tsTrigger]

theorem inv_execTsRmin (hs : s.Inv) : OutInv (execTsRmin g src s) := by
  grind [execTsRmin, inv_tsTrigger]

theorem inv_execTsAmax (hs : s.Inv) : OutInv (execTsAmax g src s) := by
  grind [execTsAmax, inv_tsTrigger]

theorem inv_execTsScan (hs : s.Inv) : OutInv (execTsScan g src s) := by
  grind [execTsScan, inv_tsTrigger]

theorem inv_execTsSmax (hs : s.Inv) : OutInv (execTsSmax g src s) := by
  grind [execTsSmax, inv_tsTrigger]

theorem inv_execTsMask (hs : s.Inv) : OutInv (execTsMask g src s) := by
  grind [execTsMask, inv_tsTrigger]

theorem inv_execTsBias (hs : s.Inv) : OutInv (execTsBias g src s) := by
  grind [execTsBias, inv_soon, inv_tsTrigger, inv_readsNow]

/-! ### Machine/Baste.lean -/

theorem inv_execBlBast (hs : s.Inv) : OutInv (execBlBast g src s) := by
  grind [execBlBast, inv_iff, inv_onCtx, inv_goMove]

theorem inv_execBlBstop (hs : s.Inv) : OutInv (execBlBstop g src s) := by
  grind [execBlBstop, inv_iff, inv_onCtx, inv_goMove]

theorem inv_stageMark (hs : s.Inv) : (stageMark v s).Inv := by
  grind [stageMark, inv_iff, inv_onCtx, inv_updCore]

theorem inv_execBlMark (hs : s.Inv) : OutInv (execBlMark g src s) := by
  grind [execBlMark, inv_stageMark, inv_goMove]

theorem inv_execBlUnpk (hs : s.Inv) : OutInv (execBlUnpk g src s) := by
  grind [execBlUnpk, inv_iff, inv_goMove]

theorem inv_execBlFlag (hs : s.Inv) : OutInv (execBlFlag g src s) := by
  grind [execBlFlag, inv_foldl, inv_foldl_fst, inv_iff, inv_onCtx, inv_goMove]

theorem inv_writeSlots {g : Agent} {p : Pool} {v : Nat} : AccInv (writeSlots g d p v k4 k5) := by
  induction k4 generalizing k5 with grind [writeSlots, accInv_pure, accInv_bind, inv_slotPA, inv_writePhys]

theorem inv_appendEntry {g : Agent} {known : Nat} {e : Stage} : AccInv (appendEntry g da known e) := by
  unfold appendEntry
  refine accInv_bind inv_readDesc fun _ => accInv_bind inv_checkDesc fun _ => accInv_bind inv_faultIf fun _ =>
    accInv_bind inv_faultIf fun _ => accInv_bind inv_readPool fun _ => ?_
  grind [accInv_bind, inv_faultIf, inv_allocBlocks, inv_writeWord, inv_writeSlots]

theorem inv_writeStage (hs : s.Inv) : (writeStage s n).Inv := by
  grind [writeStage, inv_iff, accInv_run, inv_appendEntry, inv_deliverFault, inv_updCore, inv_updCtx]

theorem inv_execLogEntryWrite (hs : s.Inv) : OutInv (execLogEntryWrite n s) := by
  grind [execLogEntryWrite, outInv_next, inv_iff, inv_endServed, inv_writeStage]

theorem inv_serveLog (hs : s.Inv) : (serveLog s n).Inv := by
  grind [serveLog, inv_at]

theorem inv_bastAt {g : Agent} : AccInv (bastAt g q) := by
  grind [bastAt, accInv_pure, accInv_bind, accInv_get_bind, inv_writeWord, inv_readDesc, inv_checkDesc,
    inv_faultIf]

theorem inv_bastEnd (hs : s.Inv) : (bastEnd s n q x).Inv := by
  unfold bastEnd
  grind [inv_iff, inv_onServed, inv_faultServed, inv_endServed, inv_dropReq]

theorem inv_execBlBastHomeDone (hs : s.Inv) : OutInv (execBlBastHomeDone n s) := by
  unfold execBlBastHomeDone
  split
  · exact outInv_next.2 hs
  · next c q _ =>
    have hb := accInv_run (inv_bastAt (g := (cmdAgent n c q).home) (q := q)) hs
    dsimp only
    split <;> grind [outInv_next, inv_enterFabric, inv_keepReply, inv_bastEnd]

theorem inv_mapRow {g : Agent} {gbase : Word} {gid : Nat} {row : Nat} : AccInv (mapRow g gbase gid row) := by
  grind [mapRow, accInv_pure, accInv_bind, accInv_get_bind, inv_faultIf, inv_readVirt]

theorem inv_readBuf {g : Agent} {gid : Nat} {row : Nat} : AccInv (readBuf g gid row) := by
  grind [readBuf, accInv_pure, accInv_bind, inv_readVirt, inv_mapRow]

theorem inv_cmdFlags {f : Flg} : AccInv (cmdFlags n f) := by
  grind [cmdFlags, accInv_modify, inv_iff, inv_onServed]

theorem inv_addContr {g : Agent} {k : Contr} : AccInv (addContr g k) := by
  grind [addContr, accInv_bind, accInv_get_bind, accInv_modify, inv_iff, inv_cmdFlags, inv_onServed,
    inv_writeVirt, inv_readVirt, inv_mapRow]

theorem inv_readLog {g : Agent} : AccInv (readLog g da slot k3) := by
  induction k3 generalizing slot with grind [readLog, accInv_pure, accInv_bind, inv_readSlot]

theorem inv_readEntry {g : Agent} : AccInv (readEntry g da slot) := by
  grind [readEntry, accInv_pure, accInv_bind, inv_readLog]

theorem inv_readRefer {g : Agent} {crc : Nat} : AccInv (readRefer g slot off n crc) := by
  grind [readRefer, accInv_pure, accInv_throw, accInv_bind, inv_iff, inv_readPhys, inv_faultIf]

theorem inv_fetchOpnd {g : Agent} {e : Entry} {pos : Nat} (hrun : ∀ k, AccInv (run k)) : AccInv (fetchOpnd g da
    root run e i n pos) := by
  unfold fetchOpnd
  grind [accInv_pure, accInv_bind, accInv_throw, inv_readLog, inv_readRefer]

theorem inv_matrixOpnds {g : Agent} {m : Matrix} {e : Entry} {mp : List Word} {fw : List MWord} {reads : Nat →
    Bool} (hrun : ∀ k, AccInv (run k)) : AccInv (matrixOpnds g da root run m e mp fw reads) := by
  grind [matrixOpnds, accInv_pure, accInv_bind, inv_fetchOpnd]

theorem inv_forwardStep {g : Agent} {e : Entry} (hrun : ∀ k, AccInv (run k)) : AccInv (forwardStep g da root
    run e) := by
  grind [forwardStep, accInv_pure, accInv_throw, accInv_bind, accInv_get_bind, accInv_modify, inv_iff,
    inv_readLog, inv_matrixOpnds]

theorem inv_forwardRun {g : Agent} : AccInv (forwardRun g da k2 k3 k4) := by
  induction k3 generalizing k2 k4 with
  | zero => exact accInv_throw
  | succ fuel ih =>
    rw [forwardRun]
    refine accInv_bind inv_readEntry fun p => ?_
    have hf (i : Nat) : AccInv (fetchOpnd g da k2 (fun x => forwardRun g da p.slot fuel x) p i (p.bytes i) (p.pos i)) :=
      inv_fetchOpnd fun _ => ih
    have hs : AccInv (forwardStep g da k2 (fun x => forwardRun g da p.slot fuel x) p) := inv_forwardStep fun _ => ih
    dsimp only
    split
    · grind [accInv_bind, accInv_pure, accInv_throw]
    · exact hs
    · exact accInv_throw

theorem inv_bringBack {g : Agent} {e : Entry} : AccInv (bringBack g da e i) := by
  grind [bringBack, accInv_pure, accInv_bind, inv_forwardRun, inv_fetchOpnd]

theorem inv_tileEntry {g : Agent} {e : Entry} : AccInv (tileEntry g da e) := by
  grind [tileEntry, accInv_pure, accInv_bind, accInv_get_bind, accInv_mapM, inv_cmdFlags, inv_bringBack,
    inv_readBuf]

theorem inv_writeArena {g : Agent} {v : Nat} : AccInv (writeArena g off v n) := by
  grind [writeArena, inv_writePhys]

theorem inv_readArena {g : Agent} : AccInv (readArena g off n) := by
  grind [readArena, inv_readPhys]

theorem inv_matrixEntry {g : Agent} {e : Entry} : AccInv (matrixEntry g da q e) := by
  unfold matrixEntry
  refine accInv_get_bind fun s _ => ?_
  dsimp only
  split
  · exact accInv_pure
  · refine accInv_bind inv_faultIf fun _ => accInv_bind inv_faultIf fun _ => accInv_bind inv_readLog fun _ => ?_
    split
    · exact accInv_throw
    · refine accInv_bind (inv_matrixOpnds fun _ => inv_forwardRun) fun _ =>
        accInv_bind (accInv_forM fun _ => accInv_forM fun _ => ?_) fun _ => ?_
      · exact accInv_bind inv_readBuf fun _ => inv_writeArena
      · refine accInv_bind (accInv_mapM fun _ => ?_) fun _ => ?_
        · refine accInv_bind ?_ fun _ => accInv_bind ?_ fun _ => accInv_bind ?_ fun _ => accInv_pure <;>
            grind [accInv_pure, inv_readArena]
        · refine accInv_bind (accInv_forM fun _ => inv_writeArena) fun _ =>
            accInv_bind (accInv_modify fun _ h => inv_updCore h) fun _ => accInv_bind inv_cmdFlags fun _ => ?_
          grind [accInv_bind, accInv_pure, accInv_mapM, inv_readArena]

theorem inv_unpickOne {g : Agent} {cursor : Nat} {fresh : Bool} : AccInv (unpickOne g q cursor fresh) := by
  grind [unpickOne, accInv_pure, accInv_bind, inv_iff, inv_matrixEntry, inv_tileEntry, inv_readEntry]

theorem inv_unpickEnds {st : Nat} (hs : s.Inv) : (unpickEnds s n q st).Inv := by
  grind [unpickEnds, inv_iff, inv_onServed, inv_endServed]

theorem inv_unpickStart {g : Agent} {c : Ctx} : AccInv (unpickStart g q c) := by
  grind [unpickStart, accInv_pure, accInv_bind, accInv_get_bind, inv_readDesc]

theorem inv_setCursor {cursor : Nat} {chunk : Nat} (hs : s.Inv) : (setCursor s n cursor chunk).Inv := by
  grind [setCursor, inv_iff, inv_onServed]

theorem inv_setContrs {l : List Contr} (hs : s.Inv) : (setContrs s n l).Inv := by
  grind [setContrs, inv_iff, inv_onServed]

theorem inv_walkStep {x3 : Walk} (hs : s.Inv) : (walkStep s n q x3).Inv := by
  unfold walkStep
  grind [inv_within, inv_setCursor, inv_unpickEnds]

theorem inv_addSome {g : Agent} {l : List Contr} (hs : s.Inv) : (addSome s n g q l).Inv := by
  have hw := accInv_run (accInv_forM (fun k => inv_addContr (g := g) (k := k)) (l := l.take (rowsPerClk q l))) hs
  unfold addSome
  dsimp only
  split <;> rename_i e <;> rw [e] at hw
  · exact inv_faultServed (inv_setContrs hw)
  · grind [accInv_run, inv_faultServed, inv_setContrs, inv_walkStep, inv_readEntry, inv_within]

theorem inv_execUnpickEntry (hs : s.Inv) : OutInv (execUnpickEntry n s) := by
  grind [execUnpickEntry, outInv_next, inv_iff, accInv_run, inv_faultServed, inv_unpickOne, inv_addSome,
    inv_within, inv_setContrs, inv_setCursor, inv_unpickStart, inv_unpickEnds, inv_walkStep]

/-! ### Machine/CoreEvents.lean -/

theorem inv_execResultLanding (hs : s.Inv) : OutInv (execResultLanding n s) := by
  grind [execResultLanding, outInv_next, inv_foldl, inv_foldl_fst, inv_iff, inv_updCtx]

theorem inv_execTileSequencerRow (hs : s.Inv) : OutInv (execTileSequencerRow n s) := by
  grind [execTileSequencerRow, outInv_next, inv_foldl, inv_foldl_fst, inv_iff, inv_updCtx]

theorem inv_wallClk (hs : s.Inv) : (wallClk s c).Inv := by
  grind [wallClk, inv_foldl, inv_foldl_fst, inv_setCtx]

theorem inv_grantCore_go {l3 : List Nat} (hs : s.Inv) : (grantCore.go c b s l3).Inv := by
  induction l3 generalizing s with grind [grantCore.go, inv_updCtx]

theorem inv_grantCore (hs : s.Inv) : (grantCore s c b).Inv := by
  grind [grantCore, inv_iff, inv_updCtx, inv_grantCore_go]

theorem inv_grantClaim {key : Nat} {c : BankClaim} (hs : s.Inv) : (grantClaim s key c).Inv := by
  grind [grantClaim, inv_iff]

theorem inv_grantBank {q : Nat} (hs : s.Inv) : (grantBank s q b).Inv := by
  grind [grantBank, inv_iff, inv_grantCore, inv_grantClaim]

theorem inv_arbitrate {q : Nat} (hs : s.Inv) : (arbitrate s q).Inv := by
  grind [arbitrate, inv_foldl, inv_foldl_fst, inv_grantBank]

theorem inv_giveBack (hs : s.Inv) : (giveBack s n).Inv := by
  grind [giveBack, inv_iff, inv_updCtx]

theorem inv_takeDataError {r : Replay} (hs : s.Inv) : (takeDataError s n r v).1.Inv := by
  grind [takeDataError, inv_iff, inv_walkCtx, inv_trapEntry, inv_endMember, inv_updCtx]

theorem inv_dataErrors (hs : s.Inv) : (dataErrors s n).Inv := by
  grind [dataErrors, inv_iff, inv_soon, inv_updCore, inv_takeDataError, inv_updCtx]

theorem inv_bankError {a : LocalAcc} (hs : s.Inv) : ∀ u, bankError s n a = some u → u.1.Inv := by
  grind [bankError, inv_iff, inv_takeDataError, inv_updCtx]

theorem inv_performOne {a : LocalAcc} (hs : s.Inv) : (performOne s n a).Inv := by
  grind [performOne, inv_foldl, inv_foldl_fst, inv_iff, accInv_run, inv_performSeg, inv_updCore, inv_gotRows,
    inv_updCtx]

theorem inv_performWon_go {l2 : List LocalAcc} (hs : s.Inv) : (performWon.go n s l2).Inv := by
  induction l2 generalizing s with
  | nil => exact hs
  | cons a l ih =>
    unfold performWon.go
    split
    · exact ih (inv_performOne hs)
    · have := inv_bankError hs _ ‹_›
      grind [inv_performOne, inv_updCtx]

theorem inv_performWon (hs : s.Inv) : (performWon s n).Inv := by
  grind [performWon, inv_iff, inv_performOne, inv_bankError, inv_updCtx, inv_performWon_go]

theorem inv_execLocalAccessPerform (hs : s.Inv) : OutInv (execLocalAccessPerform c s) := by
  grind [execLocalAccessPerform, outInv_next, inv_foldl, inv_foldl_fst, inv_performWon]

theorem inv_deadReplay (hs : s.Inv) : (deadReplay s n).Inv := by
  grind [deadReplay, inv_iff, inv_updCore, inv_updCtx]

theorem inv_rework (hs : s.Inv) : (rework s n).Inv := by
  grind [rework, inv_foldl, inv_foldl_fst, inv_iff, inv_rereadStep, inv_performCounted, inv_updCtx]

theorem inv_resumeWork (hs : s.Inv) : (resumeWork s n).1.Inv := by
  grind [resumeWork, inv_iff, inv_walkCtx, inv_rework, inv_takeDataError, inv_updCtx, inv_deadReplay]

theorem inv_wake (hs : s.Inv) : (wake s n).Inv := by
  grind [wake, inv_iff, inv_updCore, inv_updCtx]

theorem inv_goAgain (hs : s.Inv) : (goAgain s n).Inv := by
  grind [goAgain, inv_iff, inv_resumeWork, inv_updCtx, inv_wake]

theorem inv_stepError (hs : s.Inv) : ∀ u, stepError s c = some u → u.1.Inv := by
  intro r e
  unfold stepError at e
  split at e
  · cases e
  · split at e
    · cases e
    · obtain ⟨b, _, rfl⟩ := Option.map_eq_some_iff.1 e
      grind [inv_takeDataError, inv_updCore]

theorem inv_execBundleBlock (hs : s.Inv) : OutInv (execBundleBlock s) := by
  grind [execBundleBlock, outInv_next, inv_iff, inv_updCore, inv_updCtx]

theorem inv_execBlockedBundleIssue (hs : s.Inv) : OutInv (execBlockedBundleIssue n s) := by
  grind [execBlockedBundleIssue, outInv_next, inv_iff, inv_updCtx]

theorem inv_execWindowExpiry (hs : s.Inv) : OutInv (execWindowExpiry c s) := by
  grind [execWindowExpiry, outInv_next, inv_iff, inv_updCore]

theorem inv_execTranslationWalk (hs : s.Inv) : OutInv (execTranslationWalk n s) := by
  grind [execTranslationWalk, outInv_next, inv_iff, inv_tlbFill, inv_updCtx]

theorem inv_execFaultDelivery (hs : s.Inv) : OutInv (execFaultDelivery n s) := by
  grind [execFaultDelivery, outInv_next, inv_iff, inv_walkFault, inv_trapEntry, inv_updCtx]

/-! ### Machine/Launch.lean -/

theorem inv_scanImage {w : List Word} : AccInv (scanImage w) := by
  grind [scanImage, accInv_pure, accInv_bind, inv_readVirt]

theorem inv_watchDeps {k : Kern} (hs : s.Inv) : (watchDeps s k).Inv := by
  grind [watchDeps, inv_foldl, inv_foldl_fst, inv_iff, accInv_run, inv_launcherFault, inv_translate,
    inv_postReq]

theorem inv_acceptRecord {l : Launcher} {w : List Word} {aov : Option Word} (hs : s.Inv) : (acceptRecord s l w
    aov).2.Inv := by
  grind [acceptRecord, inv_iff, accInv_run, inv_scanImage, inv_watchDeps, inv_at]

theorem inv_contextLaunch {l : Launch} (hs : s.Inv) : (contextLaunch s l).Inv := by
  unfold contextLaunch
  split
  · exact hs
  · next c q _ =>
    dsimp only
    split
    · exact hs
    · have hv := accInv_run (inv_readVirt (g := { cmdAgent l.n c q with buf := baseBuf }) (va := q.go) (n := 256)) hs
      split <;> rename_i e <;> rw [e] at hv
      · split
        · exact inv_endServed hv
        · exact inv_faultServed hv
      · have ha := fun ln w => inv_acceptRecord (l := ln) (w := w) (aov := l.aov) hv
        split <;> rename_i e <;> have hk := e ▸ ha _ _
        · exact inv_endServed hk
        · split
          · exact inv_endServed hk
          · exact inv_faultServed hk

theorem inv_execRecordAcceptance (hs : s.Inv) : OutInv (execRecordAcceptance s) := by
  grind [execRecordAcceptance, outInv_next, inv_foldl, inv_foldl_fst, inv_iff, inv_contextLaunch, inv_respond,
    inv_acceptRecord]

theorem inv_updKern {f : Kern → Kern} (hs : s.Inv) : (updKern s kid f).Inv := by
  grind [updKern, inv_iff]

theorem inv_execDependenceMet {kid : Nat} (hs : s.Inv) : OutInv (execDependenceMet kid s) := by
  grind [execDependenceMet, outInv_next, inv_iff, inv_updKern]

theorem inv_execLnLnch (hs : s.Inv) : OutInv (execLnLnch g src s) := by
  grind [execLnLnch, inv_goMove]

theorem inv_execLnQuit (hs : s.Inv) : OutInv (execLnQuit g src s) := by
  grind [execLnQuit, inv_iff, inv_onCtx, inv_goMove]

theorem inv_completionAdd {k : Kern} (hs : s.Inv) : (completionAdd s k).Inv := by
  grind [completionAdd, inv_iff, accInv_run, inv_translate, inv_postReq, inv_eventWalk]

theorem inv_captureCheck (hs : s.Inv) : (captureCheck s kid).Inv := by
  grind [captureCheck, inv_iff, inv_at]

theorem inv_retireMember (hs : s.Inv) : (retireMember s n).Inv := by
  grind [retireMember, inv_iff, inv_captureCheck, inv_completionAdd, inv_freeCtx, inv_updKern]

theorem inv_execMemberRetire (hs : s.Inv) : OutInv (execMemberRetire n s) := by
  grind [execMemberRetire, outInv_next, inv_iff, inv_retireMember, inv_updCtx]

/-! ### Machine/Network.lean -/

theorem inv_leaveChan {tail : Bool} (hs : s.Inv) : (leaveChan s h ch tail).Inv := by
  grind [leaveChan, inv_iff, inv_updRouter, inv_at]

theorem inv_execVcCreditReturn (hs : s.Inv) : OutInv (execVcCreditReturn h ch s) := by
  grind [execVcCreditReturn, outInv_next, inv_iff, inv_updRouter]

theorem inv_replyArrive (hs : s.Inv) : (replyArrive s p).Inv := by
  grind [replyArrive, inv_iff, inv_ctrTake, inv_bastEnd, inv_skEnd]

theorem inv_targetReached {after : Nat} (hs : s.Inv) : (targetReached s h after p).Inv := by
  grind [targetReached, inv_iff, inv_replyArrive, inv_updHolder, inv_at]

theorem inv_malformed (hs : s.Inv) : (malformed s h).Inv := by
  grind [malformed, inv_iff, inv_holderCounts, inv_bbAdd]

theorem inv_execPacketHeaderArrival (hs : s.Inv) : OutInv (execPacketHeaderArrival h ch s) := by
  grind [execPacketHeaderArrival, outInv_next, inv_iff, inv_updRouter, inv_targetReached, inv_malformed]

theorem inv_headerAt (hs : s.Inv) : (headerAt s h p).Inv := by
  grind [headerAt, inv_iff, inv_updHolder]

theorem inv_acceptAt (hs : s.Inv) : (acceptAt s h p).Inv := by
  grind [acceptAt, inv_iff, inv_targetReached, inv_updHolder, inv_at, inv_malformed]

theorem inv_gatewayIn (hs : s.Inv) : (gatewayIn s h p).Inv := by
  grind [gatewayIn, inv_iff, inv_sendLink, inv_acceptAt]

theorem inv_gatewayOut {g : Nat} (hs : s.Inv) : (gatewayOut s g p).Inv := by
  grind [gatewayOut, inv_injectAt, inv_acceptAt]

theorem inv_portDrop {p : Nat} (hs : s.Inv) : (portDrop s p).Inv := by
  grind [portDrop, inv_iff, inv_bbAdd]

theorem inv_linkLost (hs : s.Inv) : (linkLost s l).Inv := by
  grind [linkLost, inv_foldl, inv_foldl_fst, inv_iff, inv_portDrop, inv_updLink]

theorem inv_portOutgoing_go {p : Nat} {k : Packet} (hs : s.Inv) : (portOutgoing.go p k s).Inv := by
  grind [portOutgoing.go, inv_enterLink]

theorem inv_portOutgoing {p : Nat} {k : Packet} (hs : s.Inv) : (portOutgoing s p k).Inv := by
  unfold portOutgoing
  grind [inv_iff, inv_portDrop, inv_at, inv_enterLink, inv_portOutgoing_go]

theorem inv_podArrive (hs : s.Inv) : (podArrive s p).Inv := by
  grind [podArrive, inv_iff, inv_fresh, inv_at]

theorem inv_forwardPacket (hs : s.Inv) : (forwardPacket s p).Inv := by
  grind [forwardPacket, inv_iff, inv_homeArrive, inv_acceptAt, inv_podArrive, inv_portOutgoing, inv_enterLink,
    inv_bbAdd]

theorem inv_retryLink (hs : s.Inv) : (retryLink s id l p).Inv := by
  grind [retryLink, inv_iff, inv_sendLink, inv_portDrop, inv_at, inv_linkHold]

theorem inv_execGatewayPacketForward (hs : s.Inv) : OutInv (execGatewayPacketForward id s) := by
  grind [execGatewayPacketForward, outInv_next, inv_iff, inv_gatewayOut, inv_forwardPacket, inv_retryLink]

theorem inv_startRetrain (hs : s.Inv) : (startRetrain s l).Inv := by
  grind [startRetrain, inv_iff, inv_drawNat, inv_at, inv_updLink, inv_bbAdd]

theorem inv_linkDone (hs : s.Inv) : (linkDone s l id).Inv := by
  grind [linkDone, inv_iff, inv_at, inv_updLink, inv_crossFabric]

theorem inv_linkHeader {f : LinkFlit} (hs : s.Inv) : (linkHeader s l f).Inv := by
  grind [linkHeader, inv_iff, inv_headerAt]

theorem inv_linkTake (hs : s.Inv) : (linkTake s l).Inv := by
  grind [linkTake, inv_iff, inv_linkDone, inv_linkHeader, inv_updLink]

theorem inv_linkTakes {k1 : Nat} (hs : s.Inv) : (linkTakes k0 k1 s).Inv := by
  induction k0 generalizing s with grind [linkTakes, inv_linkTake]

theorem inv_linkError (hs : s.Inv) : (linkError s l).Inv := by
  grind [linkError, inv_iff, inv_within, inv_startRetrain, inv_updLink]

theorem inv_execLinkFlitReceive (hs : s.Inv) : OutInv (execLinkFlitReceive l s) := by
  grind [execLinkFlitReceive, outInv_next, inv_linkTakes, inv_at, inv_linkError]

theorem inv_execLinkResend (hs : s.Inv) : OutInv (execLinkResend l s) := by
  grind [execLinkResend, outInv_next, inv_at]

theorem inv_seamDown {d : Nat} (hs : s.Inv) : (seamDown s d).Inv := by
  grind [seamDown, inv_foldl, inv_foldl_fst, inv_iff, inv_bbAddL, inv_killRecorded]

theorem inv_execRetrainComplete (hs : s.Inv) : OutInv (execRetrainComplete l s) := by
  grind [execRetrainComplete, outInv_next, inv_iff, inv_seamDown, inv_startRetrain, inv_drawNat, inv_at,
    inv_updLink, inv_linkLost, inv_bbAdd]

theorem inv_execLossOfLock (hs : s.Inv) : OutInv (execLossOfLock l s) := by
  grind [execLossOfLock, outInv_next, inv_startRetrain]

theorem inv_execLinkTrainingComplete (hs : s.Inv) : OutInv (execLinkTrainingComplete l s) := by
  grind [execLinkTrainingComplete, outInv_next, inv_iff, inv_updLink, inv_linkLost]

theorem inv_pairMismatch (hs : s.Inv) : (pairMismatch s).Inv := by
  grind [pairMismatch, inv_drawWord, inv_eventWalk]

theorem inv_execPairDigestCompare (hs : s.Inv) : OutInv (execPairDigestCompare k s) := by
  grind [execPairDigestCompare, outInv_next, inv_foldl, inv_foldl_fst, inv_iff, inv_pairMismatch]

theorem inv_putFlit {f : Flit} (hs : s.Inv) : (putFlit s h ch w f).Inv := by
  grind [putFlit, inv_iff, inv_updRouter, inv_targetReached]

theorem inv_popFlit (hs : s.Inv) : (popFlit s h ch).Inv := by
  grind [popFlit, inv_iff, inv_updRouter, inv_leaveChan]

theorem inv_takeLocal {v : Nat} {f : Flit} (hs : s.Inv) : (takeLocal s h v f).Inv := by
  grind [takeLocal, inv_iff, inv_gatewayIn, inv_headerAt, inv_updRouter, inv_linkHold]

theorem inv_moveFlit {p : Nat} {v : Nat} (hs : s.Inv) : (moveFlit s h ch p v w).Inv := by
  grind [moveFlit, inv_iff, inv_popFlit, inv_updRouter, inv_putFlit, inv_takeLocal]

theorem inv_execOutputPortGrant {p : Nat} (hs : s.Inv) : OutInv (execOutputPortGrant h p s) := by
  grind [execOutputPortGrant, outInv_next, inv_iff, inv_moveFlit, inv_updRouter]

theorem inv_execCircuitSlot (hs : s.Inv) : OutInv (execCircuitSlot h s) := by
  grind [execCircuitSlot, outInv_next, inv_iff, inv_moveFlit]

theorem inv_consumeFlits (hs : s.Inv) : (consumeFlits s h).Inv := by
  grind [consumeFlits, inv_foldl, inv_foldl_fst, inv_iff, inv_popFlit]

theorem inv_injectFlit {r0 : Router} (hs : s.Inv) : (injectFlit s r0 h).Inv := by
  grind [injectFlit, inv_iff, inv_updRouter, inv_putFlit]

/-! ### Machine/Reshard.lean -/

theorem inv_seamStage (hs : s.Inv) : (seamStage s fu port).Inv := by
  grind [seamStage, inv_iff, inv_fresh, inv_updCore, inv_updCtx]

theorem inv_execRsGo (hs : s.Inv) : OutInv (execRsGo g src s) := by
  grind [execRsGo, inv_iff, inv_goMove, inv_readsNow, inv_seamStage]

theorem inv_execRsQry (hs : s.Inv) : OutInv (execRsQry g src s) := by
  grind [execRsQry, inv_iff, inv_goMove, inv_readsNow]

theorem inv_qryEnd {m : Acc Unit} (hm : AccInv m) (hs : s.Inv) : State.Inv (match m.run s with
    | (.error f, t) => stopChunk t n q f
    | (.ok _, t) =>
      have np := fld (wordAt ws 0) 0 4
      have q' := { q with done := 64, chunk := 1 }
      endEngine (onServed (chunkCount t n 64) n q.fu fun c => c.updCmd q.fu fun _ => q') n q' (w64 np)) := by
  replace hm := hm.run s hs
  split <;> rename_i e <;> rw [e] at hm
  · exact inv_stopChunk hm
  · exact inv_endEngine (inv_onServed (inv_chunkCount hm))

theorem inv_qryChunk {c : Ctx} (hs : s.Inv) : (qryChunk s n c q).Inv := by
  -- The function is unfolded as a whole: its body applied to `s` would have the kernel evaluate the write.
  suffices h : ∀ f, f = @qryChunk → (f s n c q).Inv from h _ rfl
  intro f hf
  delta qryChunk at hf
  subst hf
  beta_reduce
  exact inv_qryEnd (accInv_bind inv_writePhys fun _ => inv_chunkAdd) hs

theorem inv_updReshard {f : Reshard → Reshard} (hs : s.Inv) : (updReshard s id f).Inv := by
  grind [updReshard, inv_iff]

theorem inv_installShard {c : Ctx} (hs : s.Inv) : (installShard s n c q).Inv := by
  grind [installShard, inv_iff, accInv_run, inv_readEp, inv_fresh, inv_onServed, inv_stopChunk, inv_drawNat,
    inv_at, inv_updReshard]

theorem inv_rsChunk {g : Agent} {x : Reshard} : AccInv (rsChunk g q x) := by
  grind [rsChunk, accInv_pure, accInv_bind, accInv_get_bind, inv_writeEp]

theorem inv_endShard {r : Nat} (hs : s.Inv) : (endShard s id r).Inv := by
  grind [endShard, inv_iff, inv_updReshard]

theorem inv_runReshard_rsChunks {x : Reshard} {c : Ctx} {k6 : Nat} (hs : s.Inv) : (runReshard.rsChunks n id x c
    q s k6).Inv := by
  induction k6 generalizing q s with
    grind [runReshard.rsChunks, inv_onServed, accInv_run, accInv_bind, accInv_pure, inv_rsChunk, inv_chunkAdd,
      inv_stopChunk, inv_chunkCount, inv_endEngine, inv_endShard]

theorem inv_runReshard {c : Ctx} (hs : s.Inv) : (runReshard s n c q).Inv := by
  grind [runReshard, inv_iff, accInv_run, inv_onServed, inv_endEngine, inv_rsChunk, inv_stopChunk,
    inv_endShard, inv_installShard, inv_at, inv_chunkCount, inv_chunkAdd, inv_runReshard_rsChunks]

theorem inv_execReshardPhaseStart (hs : s.Inv) : OutInv (execReshardPhaseStart id s) := by
  grind [execReshardPhaseStart, outInv_next, inv_foldl, inv_foldl_fst, inv_iff, inv_within, inv_updReshard]

theorem inv_phasesOver (hs : s.Inv) : (phasesOver s n).Inv := by
  grind [phasesOver, inv_iff, inv_setCtx]

theorem inv_execEngineChunkComplete (hs : s.Inv) : OutInv (execEngineChunkComplete n fu s) := by
  grind [execEngineChunkComplete, outInv_next, inv_iff, inv_runChunk, inv_phasesOver, inv_runReshard,
    inv_qryChunk]

/-! ### Machine/Send.lean -/

theorem inv_execNpSend (hs : s.Inv) : OutInv (execNpSend g src s) := by
  grind [execNpSend, inv_goMove, inv_seamStage]

theorem inv_execNpRow (hs : s.Inv) : OutInv (execNpRow g src s) := by
  grind [execNpRow, inv_iff, inv_goMove, inv_seamStage]

theorem inv_injectPacket {e : Option Nat} (hs : s.Inv) : (injectPacket s h e p).Inv := by
  grind [injectPacket, inv_foldl, inv_foldl_fst, inv_iff, inv_injectAt, inv_countSent, inv_sendCopy]

theorem inv_endSend {c : Ctx} (hs : s.Inv) : (endSend s n c q).Inv := by
  grind [endSend, inv_iff, accInv_run, inv_faultServed, inv_endEngine, inv_chunkAdd]

theorem inv_execNpInjection (hs : s.Inv) : OutInv (execNpInjection n s) := by
  unfold execNpInjection
  split
  · exact outInv_next.2 hs
  · next c q _ =>
    dsimp only
    split
    · grind [outInv_next, inv_at, inv_endSend]
    · have hp (i nb : Nat) :
          AccInv (if q.port = 5 then pure q.row.toNat else readEp (cmdAgent n c q) q.a0 i nb : Acc Nat) := by
        split
        · exact accInv_pure
        · exact inv_readEp
      have hr := fun i nb => accInv_run (hp i nb) hs
      split <;> rename_i e <;> have ht := e ▸ hr _ _
      · exact outInv_next.2 (inv_faultServed ht)
      · grind [outInv_next, inv_at, inv_onServed, inv_injectPacket]

/-! ### Machine/Pattern.lean -/

theorem inv_readImage {g : Agent} {phys : Bool} : AccInv (readImage g phys a) := by
  grind [readImage, accInv_pure, accInv_bind, accInv_mapM, inv_readEp, inv_readVirt]

theorem inv_installPattern {l : Loader} {i : Image} (hs : s.Inv) : (installPattern s l i pa).2.Inv := by
  grind [installPattern, inv_foldl, inv_foldl_fst, inv_iff, inv_updRouter, inv_updHolder, inv_postReq]

theorem inv_loadPattern {l : Loader} (hs : s.Inv) : (loadPattern s l a).2.Inv := by
  have hw (g : Agent) : AccInv (do
      let i ← readImage g l.phys a
      let pa ← translate g i.acnt .wait 8
      pure (i, pa)) := accInv_bind inv_readImage fun _ => accInv_bind inv_translate fun _ => accInv_pure
  have h := accInv_run (hw ⟨0, Ctx.reset, baseBuf, l.asid, l.root, l.priv, false⟩) hs
  unfold loadPattern
  dsimp only
  split <;> rename_i e <;> rw [e] at h
  · exact h
  · split
    · exact h
    · exact inv_installPattern h

theorem inv_ptGo (hs : s.Inv) : OutInv (ptGo port chk g src s) := by
  grind [ptGo, inv_goMove]

theorem inv_ptRefuse (hs : s.Inv) : (ptRefuse s n q code).Inv := by
  grind [ptRefuse, inv_iff, inv_faultServed, inv_endServed]

theorem inv_hostLoad {l : PatLoad} (hs : s.Inv) : (hostLoad s l tag).Inv := by
  grind [hostLoad, inv_iff, inv_loadPattern, inv_respond]

theorem inv_contextLoad {l : PatLoad} (hs : s.Inv) : (contextLoad s l).Inv := by
  grind [contextLoad, inv_iff, inv_loadPattern, inv_endServed, inv_ptRefuse]

theorem inv_execPatternValidate (hs : s.Inv) : OutInv (execPatternValidate s) := by
  grind [execPatternValidate, outInv_next, inv_iff, inv_contextLoad, inv_hostLoad]

theorem inv_copyStrays {g : Agent} {es : List (Packet × BitVec 512)} : AccInv (copyStrays g a es) := by
  grind [copyStrays, accInv_forM, inv_writeEp]

theorem inv_unloadPattern {c : Ctx} (hs : s.Inv) : (unloadPattern s n c q).Inv := by
  grind [unloadPattern, inv_iff, inv_startRetire, inv_ptRefuse]

theorem inv_execPtCommandComplete (hs : s.Inv) : OutInv (execPtCommandComplete n s) := by
  grind [execPtCommandComplete, outInv_next, inv_foldl, inv_foldl_fst, inv_iff, accInv_run, inv_faultServed,
    inv_endServed, inv_unloadPattern, inv_copyStrays, inv_updHolder]

theorem inv_execPatternActivation {pid : Nat} (hs : s.Inv) : OutInv (execPatternActivation pid s) := by
  grind [execPatternActivation, outInv_next, inv_foldl, inv_foldl_fst, inv_iff, inv_updEntry, inv_updRouter,
    inv_postReq, inv_at]

theorem inv_retired {p : Pattern} (hs : s.Inv) : (retired s p).Inv := by
  grind [retired, inv_foldl, inv_foldl_fst, inv_iff, inv_leaveCb, inv_endServed, inv_updRouter,
    inv_holderCounts]

theorem inv_execPatternRetirement {pid : Nat} (hs : s.Inv) : OutInv (execPatternRetirement pid s) := by
  grind [execPatternRetirement, outInv_next, inv_iff, inv_startRetire, inv_retired, inv_at]

/-! ### Machine/System.lean -/

theorem inv_stopNow (hs : s.Inv) : (stopNow s n).Inv := by
  grind [stopNow, inv_iff, inv_updCore, inv_within, inv_capture, inv_endMember, inv_updCtx]

theorem inv_execStopRequest (hs : s.Inv) : OutInv (execStopRequest n s) := by
  grind [execStopRequest, outInv_next, inv_iff, inv_within, inv_stopNow, inv_updCtx]

theorem inv_escalate (hs : s.Inv) : (escalate s n).Inv := by
  grind [escalate, inv_iff, inv_walkFault, inv_trapReturn, inv_bbAddL, inv_freezeCtx, inv_walkCtx,
    inv_killKernel, inv_updCtx]

theorem inv_finishReturn {f : Nat} (hs : s.Inv) : (finishReturn s n f).Inv := by
  grind [finishReturn, inv_escalate, inv_trapReturn]

theorem inv_returnCheck (hs : s.Inv) : (returnCheck s n).Inv := by
  grind [returnCheck, inv_iff, inv_finishReturn]

theorem inv_execSyTrap (hs : s.Inv) : OutInv (execSyTrap g src s) := by
  grind [execSyTrap, inv_trigger, inv_walkCtx, inv_trapEntry]

theorem inv_execSyRfe (hs : s.Inv) : OutInv (execSyRfe g src s) := by
  grind [execSyRfe, inv_iff, inv_onCtx, inv_trigger]

theorem inv_execSyStop (hs : s.Inv) : OutInv (execSyStop g src s) := by
  grind [execSyStop, inv_trigger, inv_at]

theorem inv_releaseCtx (hs : s.Inv) : (releaseCtx s n).Inv := by
  grind [releaseCtx, inv_iff, inv_goAgain, inv_freeCtx, inv_updCtx]

theorem inv_releaseQueue (hs : s.Inv) : (releaseQueue s n fu).Inv := by
  grind [releaseQueue, inv_iff, inv_commandFate, inv_updCtx]

theorem inv_releaseHolder (hs : s.Inv) : (releaseHolder s h).Inv := by
  grind [releaseHolder, inv_foldl, inv_foldl_fst, inv_iff, inv_updHolder, inv_at]

theorem inv_execSyRel (hs : s.Inv) : OutInv (execSyRel g src s) := by
  grind [execSyRel, inv_iff, inv_releaseCtx, inv_trigger, inv_releaseHolder, inv_releaseQueue]

theorem inv_execSySnap (hs : s.Inv) : OutInv (execSySnap g src s) := by
  grind [execSySnap, inv_trigger, inv_flyNew]

/-! ### Machine/Place.lean -/

theorem inv_beginPlace {k : Kern} {t : Target} (hs : s.Inv) : (beginPlace s k t).Inv := by
  grind [beginPlace, inv_iff, inv_within, inv_updKern]

theorem inv_loadRange {len : Nat} {v : Nat} (hs : s.Inv) : (loadRange s pa len v n).Inv := by
  exact inv_wr (s := { s with mem := _, bad := _ }) (wf_filter _ _ hs)

theorem inv_loadRoutines {ws : List (Nat × BitVec 128)} (hs : s.Inv) : (loadRoutines ws s c).Inv := by
  grind [loadRoutines, inv_foldl, inv_foldl_fst, inv_iff, inv_updCore]

theorem inv_readImages {w : List Word} : AccInv (readImages w) := by
  grind [readImages, accInv_pure, accInv_bind, inv_readVirt]

theorem inv_startMember {k : Kern} {r : Nat} {p : Nat × Nat} (hs : s.Inv) : (startMember k r s p).Inv := by
  grind [startMember, inv_iff, inv_setFloor, inv_loadRoutines, inv_updCore, inv_resetBarriers, inv_setCtx]

theorem inv_placeFault {k : Kern} {f : Flt} (hs : s.Inv) : (placeFault s k f).Inv := by
  grind [placeFault, inv_killRecorded, inv_eventWalk]

theorem inv_execMembersStart {kid : Nat} (hs : s.Inv) : OutInv (execMembersStart kid s) := by
  grind [execMembersStart, outInv_next, inv_foldl, inv_foldl_fst, inv_iff, accInv_run, inv_placeFault,
    inv_readImages, inv_loadRange, inv_updKern, inv_startMember]

theorem inv_takeRecord {p : State × List (BitVec 32) × List (BitVec 32)} {k : Kern} (hp : p.1.Inv) :
    (takeRecord p k).1.Inv := by
  unfold takeRecord
  grind [inv_iff, inv_beginPlace]

theorem inv_reserve {t : Target} (hs : s.Inv) : (reserve s kid t).Inv := by
  grind [reserve, inv_iff, inv_updKern]

theorem inv_bypass {passed : List (BitVec 32)} (hs : s.Inv) : (bypass passed s kid).Inv := by
  grind [bypass, inv_iff, inv_reserve, inv_updKern]

theorem inv_askStop (hs : s.Inv) : (askStop s n).Inv := by
  grind [askStop, inv_iff, inv_at, inv_updCtx]

theorem inv_stopVictim {v : Kern} (hs : s.Inv) : (stopVictim s v).Inv := by
  grind [stopVictim, inv_foldl, inv_foldl_fst, inv_iff, inv_askStop, inv_updKern]

theorem inv_makeRoom {waits : List (BitVec 32)} (hs : s.Inv) : (makeRoom s waits).Inv := by
  grind [makeRoom, inv_foldl, inv_foldl_fst, inv_iff, inv_stopVictim]

theorem inv_execSelectionRound (hs : s.Inv) : OutInv (execSelectionRound s) := by
  grind [execSelectionRound, outInv_next, inv_foldl, inv_foldl_fst, inv_makeRoom, inv_askStop, inv_within,
    inv_takeRecord, inv_bypass]

/-! ### Machine/Manage.lean -/

theorem inv_goMeaning (hs : s.Inv) : OutInv (goMeaning fu port s) := by
  unfold goMeaning
  grind [outInv_next, inv_iff, inv_execRsQry, inv_execRsGo, inv_execNpSend, inv_execGeGo, inv_execCeCmp,
    inv_execGeSkg, inv_execWeGo, inv_execNpRow, inv_execCeGo]

theorem inv_execGoWordWrite {v : BitVec 64} (hs : s.Inv) : OutInv (execGoWordWrite n fu port v s) := by
  grind [execGoWordWrite, outInv_next, inv_iff, inv_goMeaning, inv_updCtx, inv_setCtx]

theorem inv_execControlBlockRegisterWrite {no : Nat} {v : BitVec 64} (hs : s.Inv) : OutInv
    (execControlBlockRegisterWrite n no v s) := by
  grind [execControlBlockRegisterWrite, outInv_next, inv_iff, inv_ctlWrite, inv_execStopRequest, inv_updCtx]

theorem inv_updMgmt {f : Mgmt → Mgmt} (hs : s.Inv) : (updMgmt s f).Inv := by
  grind [updMgmt, inv_iff]

theorem inv_execRegisterWrite {v : BitVec 64} (hs : s.Inv) : OutInv (execRegisterWrite off v s) := by
  grind [execRegisterWrite, outInv_next, inv_iff, inv_updMgmt, inv_at]

theorem inv_execBootlenWrite {v : BitVec 64} (hs : s.Inv) : OutInv (execBootlenWrite v s) := by
  grind [execBootlenWrite, outInv_next, inv_iff, inv_updMgmt, inv_within]

theorem inv_imageLimits (hs : s.Inv) : (imageLimits k s).Inv := by
  grind [imageLimits, inv_foldl, inv_foldl_fst, inv_iff, inv_updMgmt, inv_updCore]

theorem inv_bootImage (hs : s.Inv) : (bootImage k s).Inv := by
  have := wf_filter _ (fun c : Host.Cell => !inHbm c.1 1) hs
  grind [bootImage, inv_iff, updMgmt, inv_imageLimits]

theorem inv_execBootVerifyDone (hs : s.Inv) : OutInv (execBootVerifyDone s) := by
  grind [execBootVerifyDone, outInv_next, inv_iff, inv_bootImage, inv_updMgmt]

theorem inv_execModnWrite {v : BitVec 64} (hs : s.Inv) : OutInv (execModnWrite v s) := by
  grind [execModnWrite, outInv_next, inv_iff, inv_updMgmt]

theorem inv_execPlimWrite {v : BitVec 64} (hs : s.Inv) : OutInv (execPlimWrite v s) := by
  grind [execPlimWrite, outInv_next, inv_iff, inv_updMgmt]

theorem inv_execSvbaseWrite {v : BitVec 64} (hs : s.Inv) : OutInv (execSvbaseWrite v s) := by
  unfold execSvbaseWrite
  generalize inHbm _ _ = b
  cases b <;> exact outInv_next.2 hs

theorem inv_msgArrive {m : HostMsg} (hs : s.Inv) : (msgArrive s m).Inv := by
  grind [msgArrive, inv_iff]

theorem inv_msgTaken (hs : s.Inv) : (msgTaken s tag).Inv := by
  grind [msgTaken, inv_iff]

theorem inv_msgReach {m : HostMsg} : AccInv (msgReach s m n) := by
  grind [msgReach, inv_faultIf]

theorem inv_msgCounter {m : HostMsg} {w : Want} : AccInv (msgCounter m w) := by
  grind [msgCounter, accInv_pure, accInv_bind, accInv_get_bind, inv_translate, inv_faultIf]

theorem inv_answer {m : HostMsg} {w : Acc α} {done : State → α → State} (hs : s.Inv) (hw : AccInv w) (hdone : ∀
    s a, s.Inv → (done s a).Inv) : (answer s m w done).Inv := by
  have h := hw.run s hs
  unfold answer
  split <;> rename_i e <;> rw [e] at h
  · exact hdone _ _ (inv_msgTaken h)
  · split
    · exact hs
    · exact inv_respond (inv_msgTaken h)

theorem inv_execYelnakRead (hs : s.Inv) : OutInv (execYelnakRead tag s) := by
  unfold execYelnakRead
  split
  · exact outInv_next.2 hs
  · exact outInv_next.2 (inv_answer hs (accInv_bind (inv_msgReach) fun _ => inv_readEp) fun _ _ h => inv_respond h)

theorem inv_execYelnakWrite (hs : s.Inv) : OutInv (execYelnakWrite tag s) := by
  unfold execYelnakWrite
  split
  · exact outInv_next.2 hs
  · exact outInv_next.2 (inv_answer hs (accInv_bind (inv_msgReach) fun _ => inv_writeEp) fun _ _ h => inv_respond h)

theorem inv_execYelnakLaunch (hs : s.Inv) : OutInv (execYelnakLaunch tag s) := by
  grind [execYelnakLaunch, outInv_next, inv_iff, inv_msgTaken, inv_within]

theorem inv_execYelnakCounterAdd (hs : s.Inv) : OutInv (execYelnakCounterAdd tag s) := by
  grind [execYelnakCounterAdd, outInv_next, inv_iff, accInv_run, inv_msgCounter, inv_answer, inv_postReq]

theorem inv_execYelnakCounterWait (hs : s.Inv) : OutInv (execYelnakCounterWait tag s) := by
  grind [execYelnakCounterWait, outInv_next, inv_iff, accInv_run, inv_msgCounter, inv_answer, inv_postReq]

theorem inv_execYelnakPatternLoad (hs : s.Inv) : OutInv (execYelnakPatternLoad tag s) := by
  grind [execYelnakPatternLoad, outInv_next, inv_iff, inv_msgTaken, inv_within, inv_respond]

theorem inv_execYelnakBlackBoxRead (hs : s.Inv) : OutInv (execYelnakBlackBoxRead tag s) := by
  grind [execYelnakBlackBoxRead, outInv_next, inv_iff, inv_msgTaken, inv_drawWord]

theorem inv_execYelnakAttestation (hs : s.Inv) : OutInv (execYelnakAttestation tag s) := by
  grind [execYelnakAttestation, outInv_next, inv_iff, inv_msgTaken, inv_respond]

theorem inv_setLimits {lb : KMap (BitVec 16)} {cl : KMap (BitVec 24)} (hs : s.Inv) : (setLimits s k lb cl).Inv
    := by
  grind [setLimits, inv_foldl, inv_foldl_fst, inv_iff, inv_updMgmt, inv_updCore, inv_at]

theorem inv_halveOnce (hs : s.Inv) : (halveOnce s).Inv := by
  grind [halveOnce, inv_iff, inv_updMgmt, inv_setLimits]

theorem inv_restoreOnce (hs : s.Inv) : (restoreOnce s).Inv := by
  grind [restoreOnce, inv_iff, inv_updMgmt, inv_setLimits]

theorem inv_execPowerSample (hs : s.Inv) : OutInv (execPowerSample s) := by
  grind [execPowerSample, outInv_next, inv_iff, inv_updMgmt, inv_restoreOnce, inv_halveOnce, inv_bbAdd]

theorem inv_execColdReset : OutInv (execColdReset s) := by
  grind [execColdReset, outInv_next, inv_iff, inv_reset]

theorem inv_execWarmReset (hs : s.Inv) : OutInv (execWarmReset s) := by
  exact outInv_next.2 (wf_filter _ _ hs)

/-! ### Machine/Xlate.lean -/

theorem inv_xlGo {own : List Note} (hs : s.Inv) : OutInv (xlGo port own g src s) := by
  grind [xlGo, inv_goMove]

theorem inv_execXlPrb (hs : s.Inv) : OutInv (execXlPrb g src s) := by
  grind [execXlPrb, inv_tlbFill, inv_trigger, inv_flyNew]

theorem inv_sdaRemove (hs : s.Inv) : (sdaRemove s n q).Inv := by
  grind [sdaRemove, inv_iff]

theorem inv_execShootdownComplete (hs : s.Inv) : OutInv (execShootdownComplete n s) := by
  grind [execShootdownComplete, outInv_next, inv_iff, accInv_run, inv_sdaRemove, inv_onServed, inv_faultServed,
    inv_endServed, inv_shootBlocks, inv_translate, inv_at]

/-! ### Machine/Preempt.lean -/

theorem inv_execEngineQuiesceComplete (hs : s.Inv) : OutInv (execEngineQuiesceComplete n s) := by
  grind [execEngineQuiesceComplete, outInv_next, inv_iff, inv_captureCheck, inv_updCtx, inv_withdrawSk]

theorem inv_writeTiles {m : Saved} (hs : s.Inv) : (writeTiles s m).Inv := by
  grind [writeTiles, inv_foldl, inv_foldl_fst, inv_wr]

theorem inv_writeImages {base : Nat} {p : Nat → Bool} {oq : KMap (List QEnt)} (hs : s.Inv) : (writeImages s
    base p oq).Inv := by
  grind [writeImages, inv_foldl, inv_foldl_fst, inv_wr]

theorem inv_writePorts {a : Nat} {ports : KMap Val} (hs : s.Inv) : (writePorts s a b ports).Inv := by
  grind [writePorts, inv_foldl, inv_foldl_fst, inv_iff, inv_wr]

theorem inv_writeFrame {a : Nat} {c : Ctx} {f : Frame} (hs : s.Inv) : (writeFrame s a c f).Inv := by
  grind [writeFrame, inv_writeImages, inv_wr, inv_writePorts]

theorem inv_writeSave {m : Saved} (hs : s.Inv) : (writeSave s m).Inv := by
  grind [writeSave, inv_foldl, inv_foldl_fst, inv_iff, inv_writeFrame, inv_writeTiles, inv_writeImages, inv_wr,
    inv_writePorts]

theorem inv_settleBars (hs : s.Inv) : (settleBars s ns).Inv := by
  have hr (s : State) (h : s.Inv) (p : Nat × BarMsg) := (inv_execBarrierReport (id := p.1) h).next
  unfold settleBars
  refine inv_iff.2 (inv_iff.1 (inv_foldl (fun s p h => inv_foldl (fun _ _ h => inv_phaseAt h) h) ?_))
  refine inv_foldl (fun s p h => ?_) hs
  grind

theorem inv_saveMember {area : Nat} (hs : s.Inv) : (saveMember s n area).2.Inv := by
  grind [saveMember, inv_iff, inv_writeSave]

theorem inv_leaveCtx (hs : s.Inv) : (leaveCtx s n).Inv := by
  grind [leaveCtx, inv_iff, inv_releaseGrant, inv_updCore, inv_setCtx]

theorem inv_execPreemptionSave {kid : Nat} (hs : s.Inv) : OutInv (execPreemptionSave kid s) := by
  unfold execPreemptionSave
  split
  · exact outInv_next.2 hs
  · dsimp only
    split
    · exact outInv_next.2 hs
    · refine outInv_next.2 (inv_bbAdd (inv_updKern (inv_foldl (fun _ _ h => inv_leaveCtx h) ?_)))
      exact inv_foldl_snd (p := (([] : List Saved), settleBars s _)) (fun _ _ h => inv_saveMember h) (inv_settleBars hs)

theorem inv_execLateProducerSaveWrite {key : Nat} (hs : s.Inv) : OutInv (execLateProducerSaveWrite key s) := by
  grind [execLateProducerSaveWrite, outInv_next, inv_iff, inv_writeTiles, inv_wr64, inv_wr]

theorem inv_moveArenas {k : Kern} (hs : s.Inv) : (moveArenas s k).Inv := by
  grind [moveArenas, inv_foldl, inv_foldl_fst, inv_loadRange]

theorem inv_askGrant {w : BitVec 16} (hs : s.Inv) : (askGrant s n w).Inv := by
  grind [askGrant, inv_iff, inv_updCore, inv_at]

theorem inv_restoreMatrix {x : Matrix} (hs : s.Inv) : (restoreMatrix s n x).Inv := by
  grind [restoreMatrix, inv_foldl, inv_foldl_fst, inv_iff, inv_updCore, inv_at]

theorem inv_restoreMember {k : Kern} {m : Saved} (hs : s.Inv) : (restoreMember k s m).Inv := by
  grind [restoreMember, inv_foldl, inv_foldl_fst, inv_iff, inv_restoreMatrix, inv_setFloor, inv_updCore,
    inv_goAgain, inv_setCtx]

theorem inv_restoreCrew {k : Kern} (hs : s.Inv) : (restoreCrew s k).Inv := by
  grind [restoreCrew, inv_foldl, inv_foldl_fst, inv_iff, inv_restoreMember, inv_updKern]

theorem inv_execResumption {kid : Nat} (hs : s.Inv) : OutInv (execResumption kid s) := by
  grind [execResumption, outInv_next, inv_foldl, inv_foldl_fst, inv_iff, accInv_run, inv_placeFault,
    inv_loadRoutines, inv_moveArenas, inv_restoreCrew, inv_within, inv_askGrant, inv_updKern, inv_readVirt]

/-! ### Machine/Dispatch.lean -/

theorem inv_exec {i : Instr} (hs : s.Inv) : OutInv (exec i s) := by
  cases i with
  | operandPortWrite => exact inv_execOperandPortWrite hs
  | scalarRegisterWrite => exact inv_execScalarRegisterWrite hs
  | guardWrite => exact inv_execGuardWrite hs
  | tileRowWrite => exact inv_execTileRowWrite hs
  | wholeTileWrite => exact inv_execWholeTileWrite hs
  | saAdd | saSub | saAnd | saOr | saXor | saAndn | saShl | saShr | saSra | saRotl | saEq | saNe | saLt | saLtu
    | saLe | saLeu | saMin | saMinu | saMax | saMaxu | saSel | saClz | saCtz | saPopc | saSxt
    | saLea => exact inv_saTrigger hs
  | smMul | smMulh | smMulhu | smDiv | smDivu | smRem | smRemu => exact inv_smTrigger hs
  | brJmp => exact inv_execBrJmp hs
  | brCall => exact inv_execBrCall hs
  | brRet => exact inv_execBrRet hs
  | brJrel => exact inv_execBrJrel hs
  | lpLoop => exact inv_execLpLoop hs
  | lpBrk => exact inv_execLpBrk hs
  | lpCnt => exact inv_execLpCnt hs
  | backEdgeAction => exact inv_execBackEdgeAction hs
  | cxRd => exact inv_execCxRd hs
  | cxWr => exact inv_execCxWr hs
  | cxFmt => exact inv_execCxFmt hs
  | cxFlg => exact inv_execCxFlg hs
  | fmtShadowExpiry => exact inv_execFmtShadowExpiry hs
  | ctAdd => exact inv_execCtAdd hs
  | ctWait => exact inv_execCtWait hs
  | ctOwait => exact inv_execCtOwait hs
  | ctTwait => exact inv_execCtTwait hs
  | ctArv => exact inv_execCtArv hs
  | ctBwt => exact inv_execCtBwt hs
  | ctBcfg => exact inv_execCtBcfg hs
  | syTrap => exact inv_execSyTrap hs
  | syRfe => exact inv_execSyRfe hs
  | syStop => exact inv_execSyStop hs
  | syRel => exact inv_execSyRel hs
  | sySnap => exact inv_execSySnap hs
  | lsLds => exact inv_execLsLds hs
  | lsSts => exact inv_execLsSts hs
  | lsLdr => exact inv_execLsLdr hs
  | lsStr => exact inv_execLsStr hs
  | lsLdt => exact inv_execLsLdt hs
  | lsStt => exact inv_execLsStt hs
  | lsLdp => exact inv_execLsLdp hs
  | lsStp => exact inv_execLsStp hs
  | lsLat => exact inv_execLsLat hs
  | atSwap | atCas | atAdd | atAnd | atOr | atXor | atMin | atMax | atMinu | atMaxu
    | atAaddx => exact inv_atTrigger hs
  | taFadd | taFsub | taFmul | taFma | taFmax | taFmin | taFcmp | taIadd | taIsub | taImul | taImin | taImax | taAnd
    | taOr | taXor | taShl | taShr | taSra | taIcmp | taSel => exact inv_taRow hs
  | taFaddt | taFsubt | taFmult | taFmaxt => exact inv_taTile hs
  | txCvt => exact inv_execTxCvt hs
  | txQnt => exact inv_execTxQnt hs
  | txDqnt => exact inv_execTxDqnt hs
  | txExp => exact inv_execTxExp hs
  | txLog => exact inv_execTxLog hs
  | txRcp => exact inv_execTxRcp hs
  | txRsq => exact inv_execTxRsq hs
  | txSqrt => exact inv_execTxSqrt hs
  | txTanh => exact inv_execTxTanh hs
  | txSigm => exact inv_execTxSigm hs
  | txErf => exact inv_execTxErf hs
  | tsPerm => exact inv_execTsPerm hs
  | tsXpose => exact inv_execTsXpose hs
  | tsRsum => exact inv_execTsRsum hs
  | tsRmax => exact inv_execTsRmax hs
  | tsRmin => exact inv_execTsRmin hs
  | tsAmax => exact inv_execTsAmax hs
  | tsScan => exact inv_execTsScan hs
  | tsSmax => exact inv_execTsSmax hs
  | tsMask => exact inv_execTsMask hs
  | tsBias => exact inv_execTsBias hs
  | mxCall => exact inv_execMxCall hs
  | mxMld => exact inv_execMxMld hs
  | mxParm => exact inv_execMxParm hs
  | scXld => exact inv_execScXld hs
  | scXadd => exact inv_execScXadd hs
  | stepOperandRead => exact inv_execStepOperandRead hs
  | latchSample => exact inv_execLatchSample hs
  | stepCommit => exact inv_execStepCommit hs
  | ceGo => exact inv_execCeGo hs
  | ceCmp => exact inv_execCeCmp hs
  | geGo => exact inv_execGeGo hs
  | geSkg => exact inv_execGeSkg hs
  | weGo => exact inv_execWeGo hs
  | rsGo => exact inv_execRsGo hs
  | rsQry => exact inv_execRsQry hs
  | npSend => exact inv_execNpSend hs
  | npRow => exact inv_execNpRow hs
  | cbSet => exact inv_execCbSet hs
  | cbAdv => exact inv_execCbAdv hs
  | cbRel => exact inv_execCbRel hs
  | cbQry => exact inv_execCbQry hs
  | cbAdvPpAdvance => exact inv_execCbAdvPpAdvance hs
  | skOpen => exact inv_execSkOpen hs
  | skRes => exact inv_execSkRes hs
  | skCmt => exact inv_execSkCmt hs
  | skFork => exact inv_execSkFork hs
  | skRel => exact inv_execSkRel hs
  | skLen => exact inv_execSkLen hs
  | skPidx => exact inv_execSkPidx hs
  | skPins => exact inv_execSkPins hs
  | skCmpt => exact inv_execSkCmpt hs
  | skResWindowGrant => exact inv_execSkResWindowGrant hs
  | skCommandComplete => exact inv_execSkCommandComplete hs
  | blBast => exact inv_execBlBast hs
  | blBstop => exact inv_execBlBstop hs
  | blMark => exact inv_execBlMark hs
  | blUnpk => exact inv_execBlUnpk hs
  | blFlag => exact inv_execBlFlag hs
  | logEntryWrite => exact inv_execLogEntryWrite hs
  | unpickEntry => exact inv_execUnpickEntry hs
  | lnLnch => exact inv_execLnLnch hs
  | lnQuit => exact inv_execLnQuit hs
  | memberRetire => exact inv_execMemberRetire hs
  | ptLoad | ptUnld | ptQry | ptStry | ptClr => exact inv_ptGo hs
  | xlSda | xlSdk => exact inv_xlGo hs
  | xlPrb => exact inv_execXlPrb hs
  | shootdownComplete => exact inv_execShootdownComplete hs
  | pwReq => exact inv_execPwReq hs
  | pwLim => exact inv_execPwLim hs
  | leaveGrant => exact inv_execLeaveGrant hs
  | bundleBlock => exact inv_execBundleBlock hs
  | blockedBundleIssue => exact inv_execBlockedBundleIssue hs
  | resultLanding => exact inv_execResultLanding hs
  | tileSequencerRow => exact inv_execTileSequencerRow hs
  | localAccessPerform => exact inv_execLocalAccessPerform hs
  | lateralPerform => exact inv_execLateralPerform hs
  | lateralCompletion => exact inv_execLateralCompletion hs
  | translationWalk => exact inv_execTranslationWalk hs
  | windowExpiry => exact inv_execWindowExpiry hs
  | faultDelivery => exact inv_execFaultDelivery hs
  | stopRequest => exact inv_execStopRequest hs
  | engineQuiesceComplete => exact inv_execEngineQuiesceComplete hs
  | preemptionSave => exact inv_execPreemptionSave hs
  | lateProducerSaveWrite => exact inv_execLateProducerSaveWrite hs
  | selectionRound => exact inv_execSelectionRound hs
  | resumption => exact inv_execResumption hs
  | recordAcceptance => exact inv_execRecordAcceptance hs
  | dependenceMet => exact inv_execDependenceMet hs
  | engineChunkComplete => exact inv_execEngineChunkComplete hs
  | engineAccessFault => exact inv_execEngineAccessFault hs
  | packetHeaderArrival => exact inv_execPacketHeaderArrival hs
  | outputPortGrant => exact inv_execOutputPortGrant hs
  | vcCreditReturn => exact inv_execVcCreditReturn hs
  | circuitSlot => exact inv_execCircuitSlot hs
  | flowPacketAccept h ch => exact inv_execFlowPacketAccept (ch := ch) hs
  | emission => exact inv_execEmission hs
  | creditReplyArrival h ch => exact inv_execCreditReplyArrival (ch := ch) hs
  | deliverChunk => exact inv_execDeliverChunk hs
  | npInjection => exact inv_execNpInjection hs
  | patternValidate => exact inv_execPatternValidate hs
  | patternActivation => exact inv_execPatternActivation hs
  | patternRetirement => exact inv_execPatternRetirement hs
  | reshardPhaseStart => exact inv_execReshardPhaseStart hs
  | gatewayPacketForward => exact inv_execGatewayPacketForward hs
  | pairDigestCompare => exact inv_execPairDigestCompare hs
  | linkFlitReceive => exact inv_execLinkFlitReceive hs
  | linkResend => exact inv_execLinkResend hs
  | retrainComplete => exact inv_execRetrainComplete hs
  | counterAddPerformed => exact inv_execCounterAddPerformed hs
  | counterWaitPerformed => exact inv_execCounterWaitPerformed hs
  | counterWaitResend => exact inv_execCounterWaitResend hs
  | requestTimeout => exact inv_execRequestTimeout hs
  | barrierReport => exact inv_execBarrierReport hs
  | barrierPhaseUpdate => exact inv_execBarrierPhaseUpdate hs
  | podBarrierPacket => exact inv_execPodBarrierPacket hs
  | goWordWrite => exact inv_execGoWordWrite hs
  | controlBlockRegisterWrite => exact inv_execControlBlockRegisterWrite hs
  | registerWrite => exact inv_execRegisterWrite hs
  | bootlenWrite => exact inv_execBootlenWrite hs
  | bootVerifyDone => exact inv_execBootVerifyDone hs
  | modnWrite => exact inv_execModnWrite hs
  | plimWrite => exact inv_execPlimWrite hs
  | svbaseWrite => exact inv_execSvbaseWrite hs
  | yelnakRead => exact inv_execYelnakRead hs
  | yelnakWrite => exact inv_execYelnakWrite hs
  | yelnakLaunch => exact inv_execYelnakLaunch hs
  | yelnakCounterAdd => exact inv_execYelnakCounterAdd hs
  | yelnakCounterWait => exact inv_execYelnakCounterWait hs
  | yelnakPatternLoad => exact inv_execYelnakPatternLoad hs
  | yelnakBlackBoxRead => exact inv_execYelnakBlackBoxRead hs
  | yelnakAttestation => exact inv_execYelnakAttestation hs
  | powerSample => exact inv_execPowerSample hs
  | coldReset => exact inv_execColdReset
  | warmReset => exact inv_execWarmReset hs
  | lossOfLock => exact inv_execLossOfLock hs
  | linkTrainingComplete => exact inv_execLinkTrainingComplete hs
  | ptCommandComplete => exact inv_execPtCommandComplete hs
  | blBastHomeDone => exact inv_execBlBastHomeDone hs
  | membersStart => exact inv_execMembersStart hs

/-! ### Machine/Clock.lean -/

theorem inv_runAll {l0 : List Instr} (hs : s.Inv) : OutInv (runAll l0 s) := by
  induction l0 generalizing s with grind [runAll, outInv_next, inv_andThen, inv_exec]

theorem inv_forEach {f : Nat → State → Out} {l1 : List Nat} (hf : ∀ n s, s.Inv → OutInv (f n s)) (hs : s.Inv) :
    OutInv (forEach f l1 s) := by
  induction l1 generalizing s with grind [forEach, outInv_next, inv_andThen]

theorem inv_runGated (hs : s.Inv) : OutInv (runGated late k ev s) := by
  unfold runGated
  grind [outInv_next, inv_andThen, inv_iff, inv_exec, inv_at]

theorem inv_runOne (hs : s.Inv) : OutInv (runOne late ev s) := by
  grind [runOne, inv_iff, inv_exec, inv_runGated]

theorem inv_runOnes {l1 : List Instr} (hs : s.Inv) : OutInv (runOnes late l1 s) := by
  induction l1 generalizing s with grind [runOnes, outInv_next, inv_andThen, inv_runOne]

theorem inv_runDue (hs : s.Inv) : OutInv (runDue late s) := by
  grind [runDue, inv_iff, inv_runOnes]

theorem inv_runGranted (hs : s.Inv) : OutInv (runGranted late s) := by
  grind [runGranted, inv_foldl, inv_foldl_fst, inv_iff, inv_runAll]

theorem inv_runPart {p : Instr → Bool} (hs : s.Inv) : OutInv (runPart late p s) := by
  grind [runPart, inv_iff, inv_runOnes]

theorem inv_runLats (hs : s.Inv) : OutInv (runLats s) := by
  unfold runLats
  grind [inv_andThen, inv_iff, inv_runPart, inv_runGranted]

theorem inv_frozenClk {ev : Nat} (hs : s.Inv) : (frozenClk s c ev).Inv := by
  grind [frozenClk, inv_iff, inv_updCore]

theorem inv_stopIfAsked (hs : s.Inv) : (stopIfAsked s n).Inv := by
  grind [stopIfAsked, inv_stopNow]

theorem inv_latch (hs : s.Inv) : (latch s n).Inv := by
  grind [latch, inv_iff]

theorem inv_runSlot {i : Instr} {r : Slots} (hr : r.st.Inv) : ∀ u, runSlot k i r = .next u → u.st.Inv := by
  intro u e
  obtain ⟨t, ht, e⟩ := andThen_eq_next e
  have h := inv_exec (i := i) (s := { r.st with iss := { r.st.iss with slot := k, note := .quiet } }) hr
  rw [ht, outInv_next] at h
  grind

theorem inv_runSlots {l0 : List (Nat × Instr)} {x1 : Slots} (hx1 : x1.st.Inv) : ∀ u, runSlots l0 x1 = .next u →
    u.st.Inv := by
  induction l0 generalizing x1 with
  | nil => grind [runSlots]
  | cons p l ih =>
    intro u e
    obtain ⟨k, i⟩ := p
    rw [runSlots] at e
    obtain ⟨t, ht, e⟩ := andThen_eq_next e
    exact ih (inv_runSlot hx1 t ht) u e

theorem inv_capturePorts (hs : s.Inv) : (capturePorts s).Inv := by
  grind [capturePorts, inv_foldl, inv_foldl_fst, inv_iff]

theorem inv_moveOn (hs : s.Inv) : (moveOn s).Inv := by
  grind [moveOn, inv_iff, inv_updCtx]

theorem inv_runBundle (hs : s.Inv) : ∀ u, runBundle s = .next u → u.st.Inv := by
  intro u e
  obtain ⟨t, ht, e⟩ := andThen_eq_next e
  have h := inv_runSlots (x1 := ⟨moveOn s, []⟩) (inv_moveOn hs) _ ht
  exact inv_runSlots (x1 := ⟨capturePorts t.st, t.met⟩) (inv_capturePorts h) _ e

theorem inv_countIssue (hs : s.Inv) : (countIssue s c n).Inv := by
  grind [countIssue, inv_updCore]

theorem inv_issued (hs : s.Inv) : (issued c n s1 s).Inv := by
  grind [issued, inv_dataErrors, inv_countIssue, inv_stopNow]

theorem inv_classI {w : Note} (hs0 : s0.Inv) (hs1 : s1.Inv) : (classI c n s0 s1 w).Inv := by
  grind [classI, inv_iff, inv_issued, inv_raiseNote, inv_updCore, inv_frozenClk]

theorem inv_keepParked (hs : s.Inv) : (keepParked c n s0 s).Inv := by
  grind [keepParked, inv_iff, inv_updCore, inv_setCtx]

theorem inv_countBlocked (hs : s.Inv) : (countBlocked s c).Inv := by
  grind [countBlocked, inv_updCore]

theorem inv_unissued {x : Nat × Instr × Note} (hs0 : s0.Inv) (hs1 : s1.Inv) : OutInv (unissued c n s0 s1 x) :=
    by
  unfold unissued
  grind [outInv_next, inv_andThen, inv_iff, inv_keepParked, inv_classI, inv_wallClk, inv_exec,
    inv_countBlocked, inv_stopIfAsked, inv_frozenClk]

theorem inv_issueBundle (hs0 : s0.Inv) (hs1 : s1.Inv) : OutInv (issueBundle c n s0 s1) := by
  unfold issueBundle
  dsimp only
  split
  · exact outInv_next.2 (inv_classI hs0 hs1)
  · split
    · exact outInv_next.2 (inv_classI hs0 hs1)
    · split
      · exact outInv_next.2 (inv_issued hs1)
      · refine inv_andThen_slots (inv_runBundle hs1) fun u hu => ?_
        split
        · exact inv_unissued hs0 hs1
        · split
          · exact outInv_next.2 (inv_stopIfAsked (inv_frozenClk hs0))
          · exact outInv_next.2 (inv_issued hu)

theorem inv_turnTo (hs : s.Inv) : (turnTo s c n).Inv := by
  grind [turnTo, inv_iff, inv_updCore]

theorem inv_landCtx (hs : s.Inv) : OutInv (landCtx n s) := by
  grind [landCtx, outInv_next, inv_runAll, inv_updCtx]

theorem inv_sequenceCtx (hs : s.Inv) : OutInv (sequenceCtx n s) := by
  grind [sequenceCtx, outInv_next, inv_exec]

theorem inv_stepClk (hs : s.Inv) : OutInv (stepClk c s) := by
  grind [stepClk, inv_runAll]

theorem inv_unfrozen {p : Option Nat} (hs : s.Inv) : OutInv (unfrozen c p s) := by
  grind [unfrozen, inv_andThen, inv_iff, inv_stepClk, inv_updCore, inv_sequenceCtx, inv_landCtx, inv_forEach,
    inv_latch]

theorem inv_bankStop (hs : s.Inv) : (bankStop s0 c n s).Inv := by
  grind [bankStop, inv_iff, inv_stopNow, inv_updCtx]

theorem inv_drainClk (hs : s.Inv) : OutInv (drainClk c n s) := by
  grind [drainClk, outInv_next, inv_andThen, inv_stepClk, inv_updCore, inv_sequenceCtx, inv_landCtx,
    inv_frozenClk]

theorem inv_spillClk (hs : s.Inv) : (spillClk c s).Inv := by
  grind [spillClk, inv_iff, inv_updCore, inv_stopIfAsked, inv_frozenClk, inv_endSpill]

theorem inv_orSpill {go : State → Out} (hs : s.Inv) (hgo : ∀ s, s.Inv → OutInv (go s)) : OutInv (orSpill c s
    go) := by
  grind [orSpill, outInv_next, inv_startSpill, inv_frozenClk]

theorem inv_issueClk (hs : s.Inv) : OutInv (issueClk c n s) := by
  grind [issueClk, outInv_next, inv_andThen, inv_turnTo, inv_issueBundle, inv_orSpill, inv_bankStop,
    inv_unfrozen, inv_wake]

theorem inv_entryClk (hs : s.Inv) : (entryClk c s).Inv := by
  grind [entryClk, inv_iff, inv_updCore, inv_frozenClk]

theorem inv_resumeClk (hs : s.Inv) : OutInv (resumeClk c n s) := by
  unfold resumeClk
  grind [outInv_next, inv_andThen, inv_turnTo, inv_issueClk, inv_countIssue, inv_resumeWork, inv_entryClk,
    inv_updCtx, inv_unfrozen]

theorem inv_coreClk (hs : s.Inv) : OutInv (coreClk c s) := by
  unfold coreClk
  dsimp only
  split
  · exact outInv_next.2 (inv_updCore (inv_frozenClk hs))
  · split
    · exact outInv_next.2 (inv_spillClk hs)
    · split
      · exact inv_orSpill hs fun _ h => inv_drainClk h
      · split
        · cases e : stepError s c <;> grind [inv_entryClk, outInv_next, inv_stepError]
        · split
          · exact outInv_next.2 (inv_updCore (inv_frozenClk hs))
          · split
            · grind [inv_orSpill, inv_unfrozen, inv_countBlocked, inv_andThen, outInv_next]
            · grind [inv_andThen, outInv_next, inv_exec, inv_entryClk, inv_stopIfAsked, inv_wallClk, inv_frozenClk,
                inv_resumeClk, inv_issueClk]

theorem inv_retest (hs : s.Inv) : OutInv (retest n s) := by
  grind [retest, outInv_next, inv_exec]

theorem inv_advCtx (hs : s.Inv) : OutInv (advCtx n s) := by
  grind [advCtx, outInv_next, inv_exec]

theorem inv_drainFault (hs : s.Inv) : OutInv (drainFault n s) := by
  grind [drainFault, outInv_next, inv_exec]

theorem inv_coreEnd (hs : s.Inv) : OutInv (coreEnd s0 c s) := by
  grind [coreEnd, outInv_next, inv_andThen, inv_foldl, inv_foldl_fst, inv_updCore, inv_giveBack, inv_exec,
    inv_serveCore, inv_drainFault, inv_returnCheck, inv_retest, inv_forEach, inv_runAll, inv_advCtx]

theorem inv_idleEnd (hs : s.Inv) : OutInv (idleEnd c s) := by
  grind [idleEnd, outInv_next, inv_iff, inv_updCore, inv_exec]

theorem inv_sendOf (hs : s.Inv) : (sendOf n s).Inv := by
  grind [sendOf, inv_iff, inv_serveLog, inv_sendReports, inv_sendHead, inv_sendLats]

theorem inv_yelnakOut (hs : s.Inv) : (yelnakOut s).Inv := by
  grind [yelnakOut, inv_iff, inv_fresh, inv_at, inv_updLink]

theorem inv_yelnakIn (hs : s.Inv) : (yelnakIn k0 s).Inv := by
  induction k0 generalizing s with
  | zero => exact hs
  | succ f ih =>
    unfold yelnakIn
    grind [inv_linkError, inv_msgArrive, inv_iff]

theorem inv_takeInput {i : InKind} (hs : s.Inv) : OutInv (takeInput i s) := by
  unfold takeInput
  cases i <;> grind [outInv_next, inv_iff, inv_exec, inv_updLink, inv_malformed, inv_enterFabric]

theorem inv_takeInputs {l0 : List Input} (hs : s.Inv) : OutInv (takeInputs l0 s) := by
  induction l0 generalizing s with
  | nil => exact outInv_next.2 hs
  | cons i l ih => exact inv_andThen (inv_takeInput hs) fun _ h => ih h

theorem inv_hostMsgs {l0 : List (BitVec 16)} (hs : s.Inv) : OutInv (hostMsgs l0 s) := by
  induction l0 generalizing s with
  | nil => exact outInv_next.2 hs
  | cons i l ih =>
    unfold hostMsgs
    grind [outInv_next, inv_andThen, inv_exec]

theorem inv_outside (hs : s.Inv) : OutInv (outside s) := by
  grind [outside, inv_andThen, inv_iff, inv_yelnakIn, inv_takeInputs, inv_hostMsgs]

theorem inv_periodic (hs : s.Inv) : OutInv (periodic s) := by
  grind [periodic, outInv_next, inv_andThen, inv_iff, inv_exec]

theorem inv_routerGrants (hs : s.Inv) : OutInv (routerGrants h s) := by
  grind [routerGrants, inv_runAll]

theorem inv_routerHeaders (hs : s.Inv) : OutInv (routerHeaders h s) := by
  grind [routerHeaders, inv_runAll]

theorem inv_network (hs : s.Inv) : OutInv (network s) := by
  grind [network, inv_andThen, inv_routerHeaders, inv_routerGrants, inv_forEach]

theorem inv_countsEnd (hs : s.Inv) : (countsEnd s).Inv := by
  grind [countsEnd, inv_iff]

theorem inv_wroteEnd (hs : s.Inv) : (wroteEnd s).Inv := by
  grind [wroteEnd, inv_iff]

theorem inv_runCredits (hs : s.Inv) : OutInv (runCredits s) := by
  grind [runCredits, inv_iff, inv_runAll]

theorem inv_routersEnd (hs : s.Inv) : (routersEnd s0 s).Inv := by
  grind [routersEnd, inv_foldl, inv_foldl_fst, inv_injectFlit, inv_consumeFlits]

theorem inv_ctlWrites {l0 : List (Nat × Instr)} {l1 : List Nat} (hs : s.Inv) : OutInv (ctlWrites l0 l1 s) := by
  induction l0 generalizing l1 s with
  | nil => exact outInv_next.2 hs
  | cons i l ih =>
    unfold ctlWrites
    grind [outInv_next, inv_andThen, inv_exec, inv_iff]

theorem inv_emissions (hs : s.Inv) : OutInv (emissions k0 s) := by
  induction k0 generalizing s with
  | zero => exact outInv_next.2 hs
  | succ f ih =>
    unfold emissions
    grind [outInv_next, inv_andThen, inv_runPart]

theorem inv_entriesEnd (hs : s.Inv) : OutInv (entriesEnd s) := by
  grind [entriesEnd, inv_andThen, inv_iff, inv_emissions, inv_runPart]

theorem inv_networkEnd (hs : s.Inv) : OutInv (networkEnd s0 s) := by
  grind [networkEnd, outInv_next, inv_andThen, inv_iff, inv_wroteEnd, inv_runCredits, inv_routersEnd,
    inv_yelnakOut, inv_countsEnd]

theorem inv_workClk (hs : s.Inv) : OutInv (workClk s) := by
  unfold workClk
  refine inv_andThen (inv_runDue hs) fun _ h => inv_andThen (inv_network h) fun _ h => ?_
  refine inv_andThen (inv_runGranted (inv_foldl (fun _ _ h => inv_arbitrate h) h)) fun _ h => ?_
  refine inv_andThen (inv_forEach (fun _ _ h => inv_coreClk h) h) fun _ h => inv_andThen (inv_runLats h) fun _ h => ?_
  refine inv_andThen (inv_forEach (fun _ _ h => inv_coreEnd h) h) fun _ h => ?_
  refine inv_andThen (inv_forEach (fun _ _ h => inv_idleEnd h) h) fun _ h => ?_
  refine inv_andThen (inv_runDue (inv_foldl (fun _ _ h => inv_sendOf h) h)) fun _ h => ?_
  exact inv_andThen (inv_entriesEnd h) fun _ h => inv_networkEnd h

theorem inv_clkStep (hs : s.Inv) : OutInv (clkStep s) := by
  grind [clkStep, outInv_next, inv_andThen, inv_iff, inv_ctlWrites, inv_periodic, inv_exec, inv_bbOrder,
    inv_outside, inv_workClk]

/-! ### Machine/Step.lean -/

theorem inv_step (hs : s.Inv) : OutInv (step s) := by
  grind [step, inv_clkStep]

/-- Settles O59: from the clk's parts, each of which keeps the form. -/
theorem stepKeepsInvariant : Obligations.StepKeepsInvariant := by
  unfold Obligations.StepKeepsInvariant
  exact fun s t hs h => (inv_step hs).next t h

end Sys2Proof.Machine
end

section
/-!
PROOFS. The module after a cold reset (O60), and the power unit PW with the leave arbiter of a die (O38, O39).
-/

namespace Sys2Proof.Machine

/-- Settles O60: the reset state is written out in the model. -/
theorem resetState : Obligations.ResetState :=
  ⟨wf_nil, rfl, rfl, rfl, rfl, rfl, rfl, rfl, rfl, rfl, rfl, rfl, fun _ => rfl, fun _ => rfl, fun _ => rfl, fun _ => rfl⟩

/-! ## Grants and requests of a core (R457) -/

/-- A grant that is given back lessens what its die has granted, and changes no context, core, request or byte. -/
theorem dropGrant_keeps (s : State) (d : Nat) (w : BitVec 16) : (dropGrant s d w).ctxs = s.ctxs ∧
    (dropGrant s d w).cores = s.cores ∧ (dropGrant s d w).leaveReqs = s.leaveReqs ∧ (dropGrant s d w).mem = s.mem ∧
    (dropGrant s d w).iss = s.iss ∧
    ∀ e, KMap.get 0 (dropGrant s d w).mgmt.lheld e = KMap.get 0 s.mgmt.lheld e - (if e = d then w else 0) := by
  unfold dropGrant
  split
  · next h => exact ⟨rfl, rfl, rfl, rfl, rfl, fun e => by simp [h]⟩
  · refine ⟨rfl, rfl, rfl, rfl, rfl, fun e => ?_⟩
    show KMap.get 0 (KMap.set 0 _ _ _) e = _
    by_cases he : e = d
    · rw [he, KMap.get_set_same, if_pos rfl]
    · rw [KMap.get_set_other _ _ _ _ _ he]
      simp [he]

theorem releaseGrant_keeps (s : State) (c : Nat) : (releaseGrant s c).ctxs = s.ctxs ∧ (releaseGrant s c).mem = s.mem ∧
    (releaseGrant s c).iss = s.iss ∧
    ((releaseGrant s c).core c).matrix = { (s.core c).matrix with grant := 0, leave := none } ∧
    (∀ k, k ≠ c → (releaseGrant s c).core k = s.core k) ∧
    ∀ e, KMap.get 0 (releaseGrant s c).mgmt.lheld e =
      KMap.get 0 s.mgmt.lheld e - (if e = c / 256 then (s.core c).matrix.grant else 0) := by
  unfold releaseGrant
  dsimp only
  generalize hu : ({ s with leaveReqs := _ } : State).updCore c _ = u
  obtain ⟨hctxs, hcores, -, hmem, hiss, hheld⟩ := dropGrant_keeps u (c / 256) (s.core c).matrix.grant
  have hcore (k : Nat) : (dropGrant u (c / 256) (s.core c).matrix.grant).core k = u.core k :=
    congrArg (KMap.get Core.reset · k) hcores
  subst hu
  refine ⟨hctxs, hmem, hiss, ?_, fun k hk => ?_, hheld⟩
  · rw [hcore, State.core_updCore]
    rfl
  · rw [hcore, State.core_updCore_other _ _ _ _ hk]
    rfl

/-- A request for the weight 0 gives the core's grant back; one for another weight keeps it. -/
def dropOld (c : Nat) (w : BitVec 16) (s : State) : State := if w = 0 then releaseGrant s c else s

theorem dropOld_keeps (s : State) (c : Nat) (w : BitVec 16) : (dropOld c w s).ctxs = s.ctxs ∧
    (dropOld c w s).mem = s.mem ∧ (dropOld c w s).iss = s.iss ∧
    (∃ l, ((dropOld c w s).core c).matrix = { (s.core c).matrix with
      grant := if w = 0 then 0 else (s.core c).matrix.grant, leave := l }) ∧
    (∀ k, k ≠ c → (dropOld c w s).core k = s.core k) ∧
    ∀ e, KMap.get 0 (dropOld c w s).mgmt.lheld e =
      KMap.get 0 s.mgmt.lheld e - (if e = c / 256 ∧ w = 0 then (s.core c).matrix.grant else 0) := by
  unfold dropOld
  by_cases hw : w = 0
  · obtain ⟨hctxs, hmem, hiss, hcore, hcores, hheld⟩ := releaseGrant_keeps s c
    rw [if_pos hw]
    refine ⟨hctxs, hmem, hiss, ⟨none, by rw [hcore, if_pos hw]⟩, hcores, fun e => ?_⟩
    simpa [hw] using hheld e
  · rw [if_neg hw, if_neg hw]
    exact ⟨rfl, rfl, rfl, ⟨_, rfl⟩, fun _ _ => rfl, fun e => by rw [if_neg fun h => hw h.2, sub_zero]⟩

/-- What the arbiter hears of context n's request for the weight w on core c, whose token is marked already. -/
def askLeave (c n tk : Nat) (ntk : Bool) (w : BitVec 16) (s : State) : State :=
  let s := (dropOld c w s).updCore c fun k => { k with matrix := { k.matrix with leave := some (n, w, tk, ntk) } }
  let l := KMap.get [] s.leaveReqs (c / 256) ++ [⟨c, w, if w = 0 then some (s.clk + 1) else none⟩]
  { s with leaveReqs := KMap.set [] s.leaveReqs (c / 256) l }.at (s.clk + 1) false (.leaveGrant (c / 256))

theorem askLeave_asks (s : State) (c n tk : Nat) (ntk : Bool) (w : BitVec 16) :
    ∃ x ∈ KMap.get [] (askLeave c n tk ntk w s).leaveReqs (c / 256), x.core = c ∧ x.w = w := by
  refine ⟨⟨c, w, if w = 0 then some ((dropOld c w s).clk + 1) else none⟩, ?_, rfl, rfl⟩
  show _ ∈ KMap.get [] (KMap.set [] _ _ _) _
  rw [KMap.get_set_same]
  exact List.mem_append_right _ (List.mem_singleton.2 rfl)

theorem askLeave_core (s : State) (c n tk : Nat) (ntk : Bool) (w : BitVec 16) :
    (askLeave c n tk ntk w s).core = ((dropOld c w s).updCore c fun k =>
      { k with matrix := { k.matrix with leave := some (n, w, tk, ntk) } }).core := rfl

theorem askLeave_matrix (s : State) (c n tk : Nat) (ntk : Bool) (w : BitVec 16) :
    ((askLeave c n tk ntk w s).core c).matrix = { (s.core c).matrix with
      leave := some (n, w, tk, ntk), grant := if w = 0 then 0 else (s.core c).matrix.grant } := by
  obtain ⟨-, -, -, ⟨l, hcore⟩, -, -⟩ := dropOld_keeps s c w
  rw [askLeave_core, State.core_updCore, hcore]

theorem askLeave_keeps (s : State) (c n tk : Nat) (ntk : Bool) (w : BitVec 16) :
    (askLeave c n tk ntk w s).ctxs = s.ctxs ∧ (askLeave c n tk ntk w s).mem = s.mem ∧
    (askLeave c n tk ntk w s).iss = s.iss ∧ (∀ k, k ≠ c → (askLeave c n tk ntk w s).core k = s.core k) ∧
    ∀ e, KMap.get 0 (askLeave c n tk ntk w s).mgmt.lheld e =
      KMap.get 0 s.mgmt.lheld e - (if e = c / 256 ∧ w = 0 then (s.core c).matrix.grant else 0) := by
  obtain ⟨hctxs, hmem, hiss, -, hcores, hheld⟩ := dropOld_keeps s c w
  exact ⟨hctxs, hmem, hiss, fun k hk => by rw [askLeave_core, State.core_updCore_other _ _ _ _ hk, hcores k hk], hheld⟩

/-! ## The power unit (R204, R441-R443) -/

/-- The token of a request is pending from then on, unless the request names none. -/
def askToken (ntk : Bool) (tk : Nat) (s : State) : State := if ntk then s else onCtx (fun x => x.tokPend tk) s

theorem askToken_false (tk : Nat) (s : State) : askToken false tk s = onCtx (fun x => x.tokPend tk) s := rfl

theorem exec_pwReq (s : State) (g : BitVec 4) (src : BitVec 9) : exec (.pwReq g src) s =
    trigger 27 4 1 1 false []
      [trapIf (!ownsMatrix s) 0x0F 0, trapIf (decide (2 ^ 16 ≤ (trigT s src).toNat)) 0x0A (trigT s src),
        trapIf s.iss.core.matrix.leave.isSome 0x11 (trigT s src),
        trapIf (!(s.iss.ctx.portW 27 0).getLsbD 4 &&
          decide ((s.iss.ctx.tok ((s.iss.ctx.portW 27 0).toNat % 16)).st = .pending)) 0x0B
          (w64 ((s.iss.ctx.portW 27 0).toNat % 16))] g src
      (fun v u => askLeave (coreOf s.iss.n) s.iss.n ((s.iss.ctx.portW 27 0).toNat % 16) ((s.iss.ctx.portW 27 0).getLsbD 4)
        (v.word.setWidth 16) (askToken ((s.iss.ctx.portW 27 0).getLsbD 4) ((s.iss.ctx.portW 27 0).toNat % 16) u)) s := rfl

theorem exec_pwLim (s : State) (g : BitVec 4) (src : BitVec 9) : exec (.pwLim g src) s =
    trigger 27 5 1 1 false []
      [trapIf (decide (fld (trigT s src) 0 12 = 0 ∨ 4096 ≤ (trigT s src).toNat)) 0x06 20] g src
      (fun v s => s.updCore (coreOf s.iss.n) fun k => { k with
        curlim := (s.iss.ctx.portW 27 0).setWidth 24, curwin := v.word.setWidth 12, curw := 0, wstart := s.clk + 1 })
      s := rfl

/-- R442: T takes the 12 bits of the window, where it is not 0 and no longer than that. -/
theorem windowBad_iff (T : Word) : (fld T 0 12 = 0 ∨ 4096 ≤ T.toNat) ↔ (T.toNat = 0 ∨ 4096 ≤ T.toNat) := by
  rw [fld_zero]
  omega

theorem pwLim_completes {s : State} {src : BitVec 9} (hpos : 0 < (trigT s src).toNat) (hlt : (trigT s src).toNat < 4096)
    (g : BitVec 4) :
    CompletesCore s (.pwLim g src) 27 5 1 1 false g src id fun k => { k with
      curlim := (s.iss.ctx.portW 27 0).setWidth 24, curwin := (trigT s src).setWidth 12, curw := 0,
      wstart := s.clk + 1 } := by
  have hok : ¬(fld (trigT s src) 0 12 = 0 ∨ 4096 ≤ (trigT s src).toNat) := by
    rw [windowBad_iff]
    omega
  refine completesCore_alone s _ 27 5 1 1 _ _ _ g src _ _ (exec_pwLim s g src) rfl ?_ ?_
  · rw [firstNote_trapIf, decide_eq_false hok]
    rfl
  · rw [iss_ctx_charged, charged_n, show (charge (consume s src) 1).clk = s.clk by rw [consume_rest]; rfl]
    rfl

theorem pwLim_refused {s : State} {src : BitVec 9} {g : BitVec 4} (h : (trigT s src).toNat = 0 ∨ 4096 ≤ (trigT s src).toNat)
    (hr : Ready s 27 5 false g src) : Traps s (.pwLim g src) 0x06 20 := by
  refine traps s _ 27 5 1 1 _ _ _ g src _ 5 0x06 20 (exec_pwLim s g src) hr ?_
  rw [List.nil_append, firstNote_trapIf, decide_eq_true ((windowBad_iff _).2 h)]
  rfl

/-- The notes of `pw.req`, in the order in which R441 and R443 look for them. -/
theorem firstNote_pwReq (own : Prop) [Decidable own] (T : Word) (l : Option (Nat × BitVec 16 × Nat × Bool)) (ntk : Bool)
    (p : Prop) [Decidable p] (v : Word) :
    firstNote [trapIf (!decide own) 0x0F 0, trapIf (decide (2 ^ 16 ≤ T.toNat)) 0x0A T, trapIf l.isSome 0x11 T,
      trapIf (!ntk && decide p) 0x0B v] =
    if ¬own then .trap 5 0x0F 0 else if 2 ^ 16 ≤ T.toNat then .trap 5 0x0A T
      else if l ≠ none then .trap 5 0x11 T else if ntk = false ∧ p then .trap 5 0x0B v else .quiet := by
  simp only [firstNote_trapIf, firstNote, Bool.not_eq_true', decide_eq_false_iff_not, decide_eq_true_eq,
    Option.isSome_iff_ne_none, Bool.and_eq_true]

/-- What a charged `pw.req` has changed before its arbiter hears of it: its context's token, unless it names none. -/
theorem askToken_charged (s : State) (src : BitVec 9) (ntk : Bool) (tk : Nat) :
    let u := askToken ntk tk (charge (consume s src) 1)
    u.iss.n = s.iss.n ∧ u.mem = s.mem ∧ u.mgmt = s.mgmt ∧ u.cores = (charge s 1).cores ∧
      u.ctx s.iss.n = (if ntk then sourced s src else (sourced s src).tokPend tk) ∧
      ∀ m, m ≠ s.iss.n → u.ctx m = s.ctx m := by
  have hmgmt : (charge (consume s src) 1).mgmt = s.mgmt := by rw [consume_rest]; rfl
  cases ntk with
  | true =>
    exact ⟨charged_n s src 1, consume_mem s src, hmgmt, charge_cores s src 1, ctx_consume s src, ctx_consume_other s src⟩
  | false =>
    refine ⟨charged_n s src 1, consume_mem s src, hmgmt, charge_cores s src 1, ?_, fun m hm => ?_⟩
    · rw [askToken_false, onCtx, charged_n, State.ctx_updCtx, ctx_charge, ctx_consume]
      rfl
    · rw [askToken_false, onCtx, charged_n, State.ctx_updCtx_other _ _ _ _ hm, ctx_charge, ctx_consume_other s src m hm]

theorem pwReq_completes {s : State} {g : BitVec 4} {src : BitVec 9} (hr : Ready s 27 4 false g src)
    (hq : firstNote [trapIf (!ownsMatrix s) 0x0F 0, trapIf (decide (2 ^ 16 ≤ (trigT s src).toNat)) 0x0A (trigT s src),
      trapIf s.iss.core.matrix.leave.isSome 0x11 (trigT s src),
      trapIf (!(s.iss.ctx.portW 27 0).getLsbD 4 &&
        decide ((s.iss.ctx.tok ((s.iss.ctx.portW 27 0).toNat % 16)).st = .pending)) 0x0B
        (w64 ((s.iss.ctx.portW 27 0).toNat % 16))] = .quiet) :
    ∃ t, exec (.pwReq g src) s = .next t ∧
      t.ctx s.iss.n = (if (s.iss.ctx.portW 27 0).getLsbD 4 then sourced s src
        else (sourced s src).tokPend ((s.iss.ctx.portW 27 0).toNat % 16)) ∧
      (∀ m, m ≠ s.iss.n → t.ctx m = s.ctx m) ∧
      (t.core (coreOf s.iss.n)).matrix = { (s.core (coreOf s.iss.n)).matrix with
        leave := some (s.iss.n, (trigT s src).setWidth 16, (s.iss.ctx.portW 27 0).toNat % 16,
          (s.iss.ctx.portW 27 0).getLsbD 4)
        grant := if (trigT s src).setWidth 16 = (0 : BitVec 16) then 0 else (s.core (coreOf s.iss.n)).matrix.grant } ∧
      (∀ k, k ≠ coreOf s.iss.n → t.core k = s.core k) ∧ t.mem = s.mem ∧
      (∃ x ∈ KMap.get [] t.leaveReqs (coreOf s.iss.n / 256), x.core = coreOf s.iss.n ∧ x.w = (trigT s src).setWidth 16) ∧
      ∀ e, KMap.get 0 t.mgmt.lheld e = KMap.get 0 s.mgmt.lheld e -
        (if e = coreOf s.iss.n / 256 ∧ (trigT s src).setWidth 16 = (0 : BitVec 16) then
          (s.core (coreOf s.iss.n)).matrix.grant else 0) := by
  refine ⟨_, (exec_pwReq s g src).trans (trigger_quiet s 27 4 1 1 false _ _ g src _ hr rfl hq), ?_⟩
  dsimp only
  generalize (s.iss.ctx.portW 27 0).toNat % 16 = tk
  generalize (s.iss.ctx.portW 27 0).getLsbD 4 = ntk
  rw [show (readCode s src).word = trigT s src from rfl]
  generalize ((trigT s src).setWidth 16 : BitVec 16) = w
  have hasked := askToken_charged s src ntk tk
  generalize askToken ntk tk (charge (consume s src) 1) = u at hasked ⊢
  have hkeeps := askLeave_keeps u (coreOf s.iss.n) s.iss.n tk ntk w
  have hmatrix := askLeave_matrix u (coreOf s.iss.n) s.iss.n tk ntk w
  have hasks := askLeave_asks u (coreOf s.iss.n) s.iss.n tk ntk w
  generalize askLeave (coreOf s.iss.n) s.iss.n tk ntk w u = t at hkeeps hmatrix hasks ⊢
  obtain ⟨hctxs, hmem, hiss, hcores, hheld⟩ := hkeeps
  obtain ⟨hn, hmem', hmgmt, hcores', hctx, hothers⟩ := hasked
  have hc (m : Nat) : t.ctx m = u.ctx m := congrArg (KMap.get Ctx.reset · m) hctxs
  have hk (k : Nat) : u.core k = (charge s 1).core k := congrArg (KMap.get Core.reset · k) hcores'
  have hm : (u.core (coreOf s.iss.n)).matrix = (s.core (coreOf s.iss.n)).matrix := by
    rw [hk, core_charge]
  rw [hiss, hn]
  refine ⟨?_, fun m hm => ?_, ?_, fun k hne => ?_, hmem.trans hmem', hasks, fun e => ?_⟩
  · rw [State.ctx_updCtx, Ctx.hold_one, hc, hctx]
  · rw [State.ctx_updCtx_other _ _ _ _ hm, hc, hothers m hm]
  · rw [← hm]
    exact hmatrix
  · refine (hcores k hne).trans ((hk k).trans ?_)
    exact KMap.get_put_other _ _ _ _ _ hne
  · rw [← hm, ← hmgmt]
    exact hheld e

/-- Settles O38: the requests and their refusals, in the order of the notes, and the two cases of `pw.lim`. -/
theorem powerUnit : Obligations.PowerUnit := by
  unfold Obligations.PowerUnit
  intro s g src
  dsimp only
  have hnote := firstNote_pwReq (s.iss.core.matrix.owner = some s.iss.n) (trigT s src) s.iss.core.matrix.leave
    ((s.iss.ctx.portW 27 0).getLsbD 4) ((s.iss.ctx.tok ((s.iss.ctx.portW 27 0).toNat % 16)).st = .pending)
    (w64 ((s.iss.ctx.portW 27 0).toNat % 16))
  refine ⟨fun hr ho hT hl ht => ?_, fun hr => ⟨fun ho => ?_, fun ho hT => ?_, fun ho hT hl => ?_, fun ho hT hl ht => ?_⟩,
    fun hpos hlt => pwLim_completes hpos hlt g, fun h hr => pwLim_refused h hr⟩
  · refine pwReq_completes hr (hnote.trans ?_)
    rw [if_neg (not_not.2 ho), if_neg (Nat.not_le.2 hT), if_neg (not_not.2 hl), if_neg]
    rintro ⟨hn, hp⟩
    exact ht.elim (fun h => Bool.false_ne_true (hn.symm.trans h)) fun h => h hp
  · exact traps s _ 27 4 1 1 _ _ _ g src _ 5 0x0F 0 (exec_pwReq s g src) hr (hnote.trans (if_pos ho))
  · refine traps s _ 27 4 1 1 _ _ _ g src _ 5 0x0A _ (exec_pwReq s g src) hr (hnote.trans ?_)
    rw [if_neg (not_not.2 ho), if_pos hT]
  · refine traps s _ 27 4 1 1 _ _ _ g src _ 5 0x11 _ (exec_pwReq s g src) hr (hnote.trans ?_)
    rw [if_neg (not_not.2 ho), if_neg (Nat.not_le.2 hT), if_pos hl]
  · obtain ⟨hn, hp⟩ := not_or.1 ht
    refine traps s _ 27 4 1 1 _ _ _ g src _ 5 0x0B _ (exec_pwReq s g src) hr (hnote.trans ?_)
    rw [if_neg (not_not.2 ho), if_neg (Nat.not_le.2 hT), if_neg (not_not.2 hl),
      if_pos ⟨Bool.eq_false_of_not_eq_true hn, not_not.1 hp⟩]

/-! ## The arbiter of a die (R457) -/

theorem grantToken_keeps (s : State) (n tk : Nat) (ntk : Bool) (v : BitVec 16) : (grantToken s n tk ntk v).cores = s.cores ∧
    (grantToken s n tk ntk v).mem = s.mem ∧ (grantToken s n tk ntk v).mgmt = s.mgmt := by
  unfold grantToken updImage
  split
  · exact ⟨rfl, rfl, rfl⟩
  · split <;> exact ⟨rfl, rfl, rfl⟩

/-- A token that waits for its grant takes the weight. -/
theorem grantToken_pending {s : State} {n tk : Nat} (v : BitVec 16) (h : ((s.ctx n).tok tk).st = .pending) :
    ((grantToken s n tk false v).ctx n).tok tk = ⟨.written, v.setWidth 64⟩ := by
  unfold grantToken updImage
  rw [if_neg Bool.false_ne_true, if_pos (decide_eq_true h), State.ctx_updCtx]
  exact Ctx.tok_setTok _ _ _

/-- An answered core's request is over, its grant is the weight where that is not 0, and its token takes it. -/
theorem answerLeave_spec (s : State) (d c n tk : Nat) (w v : BitVec 16) (ntk : Bool)
    (h : (s.core c).matrix.leave = some (n, w, tk, ntk)) : ((answerLeave s d c v).core c).matrix.leave = none ∧
    ((answerLeave s d c v).core c).matrix.grant = (if v = 0 then (s.core c).matrix.grant else v) ∧
    (ntk = false → ((s.ctx n).tok tk).st = .pending →
      ((answerLeave s d c v).ctx n).tok tk = ⟨.written, v.setWidth 64⟩) := by
  obtain ⟨hcores, -, -⟩ := grantToken_keeps s n tk ntk v
  have hcore : (grantToken s n tk ntk v).core c = s.core c := congrArg (KMap.get Core.reset · c) hcores
  unfold answerLeave
  rw [h]
  dsimp only
  generalize hu : (if v = 0 then grantToken s n tk ntk v else dropGrant (grantToken s n tk ntk v) d _) = u
  have hkeep : u.core c = s.core c ∧ u.ctxs = (grantToken s n tk ntk v).ctxs := by
    obtain ⟨kctxs, kcores, -⟩ := dropGrant_keeps (grantToken s n tk ntk v) d ((grantToken s n tk ntk v).core c).matrix.grant
    subst hu
    split
    · exact ⟨hcore, rfl⟩
    · exact ⟨(congrArg (KMap.get Core.reset · c) kcores).trans hcore, kctxs⟩
  obtain ⟨hcore', hctxs⟩ := hkeep
  rw [State.core_updCore, hcore']
  refine ⟨rfl, rfl, fun hn hp => ?_⟩
  subst hn
  rw [← grantToken_pending v hp]
  exact congrArg (fun m => (KMap.get Ctx.reset m n).tok tk) hctxs

theorem answerLeave_mem (s : State) (d c : Nat) (v : BitVec 16) : (answerLeave s d c v).mem = s.mem := by
  unfold answerLeave
  split
  · exact (dropGrant_keeps s d v).2.2.2.1
  · next n _ tk ntk _ =>
    obtain ⟨-, hmem, -⟩ := grantToken_keeps s n tk ntk v
    dsimp only
    split
    · exact hmem
    · exact (dropGrant_keeps _ d _).2.2.2.1.trans hmem

/-- The answer 0 leaves what the die has granted. -/
theorem answerLeave_refusal (s : State) (d c : Nat) : (answerLeave s d c 0).mgmt = s.mgmt := by
  unfold answerLeave
  split
  · rfl
  · next n _ tk ntk _ => exact (grantToken_keeps s n tk ntk 0).2.2

/-- The state once the arbiter of die d has its requests l left. -/
def leftOver (d : Nat) (l : List LeaveReq) (s : State) : State :=
  { s with leaveReqs := KMap.set [] s.leaveReqs d l }

section
variable {s : State} {d : Nat} {r : LeaveReq}

theorem leaveGrant_arrives (h : KMap.get [] s.leaveReqs d = [r]) {k : Nat} (hk : r.due = some k) (hle : k ≤ s.clk) :
    exec (.leaveGrant d) s = .next (leftOver d [] (answerLeave s d r.core r.w)) := by
  show execLeaveGrant d s = _
  unfold execLeaveGrant
  simp [h, hk, hle, refuseReqs, admitReqs, leftOver]

theorem leaveGrant_refuses (h : KMap.get [] s.leaveReqs d = [r]) (hd : r.due = none) (hw : lbudOf s d < r.w) :
    exec (.leaveGrant d) s = .next (leftOver d [] (answerLeave s d r.core 0)) := by
  show execLeaveGrant d s = _
  unfold execLeaveGrant
  simp [h, hd, hw, refuseReqs, admitReqs, leftOver]

theorem leaveGrant_admits (h : KMap.get [] s.leaveReqs d = [r]) (hd : r.due = none) (hw : ¬lbudOf s d < r.w)
    (hfit : (lheldOf s d).toNat + r.w.toNat ≤ (lbudOf s d).toNat) :
    exec (.leaveGrant d) s = .next (leftOver d [{ r with due := some (s.clk + (drawNat s 1 39).1) }]
      ({ (drawNat s 1 39).2 with
        mgmt := { s.mgmt with lheld := KMap.set 0 s.mgmt.lheld d (lheldOf s d + r.w) } }.at
          (s.clk + (drawNat s 1 39).1) false (.leaveGrant d))) := by
  show execLeaveGrant d s = _
  unfold execLeaveGrant
  simp [h, hd, hw, hfit, refuseReqs, admitReqs]
  rfl

theorem leaveGrant_waits (h : KMap.get [] s.leaveReqs d = [r]) (hd : r.due = none) (hw : ¬lbudOf s d < r.w)
    (hfit : ¬(lheldOf s d).toNat + r.w.toNat ≤ (lbudOf s d).toNat) :
    exec (.leaveGrant d) s = .next (leftOver d [r] s) := by
  show execLeaveGrant d s = _
  unfold execLeaveGrant
  simp [h, hd, hw, hfit, refuseReqs, admitReqs, leftOver]

theorem leftOver_leaveReqs (d : Nat) (l : List LeaveReq) (s : State) :
    KMap.get [] (leftOver d l s).leaveReqs d = l := KMap.get_set_same _ _ _ _

end

/-- Settles O39: the arbiter's one request is refused, admitted, kept or answered. -/
theorem leaveArbiter : Obligations.LeaveArbiter := by
  unfold Obligations.LeaveArbiter
  intro s d r h
  dsimp only
  have hlt : lbudOf s d < r.w ↔ (lbudOf s d).toNat < r.w.toNat := Iff.rfl
  refine ⟨fun hd hw => ?_, fun hd hw hfit => ?_, fun hd hw hfit => ?_, fun k hk hle => ?_⟩
  · refine ⟨_, leaveGrant_refuses h hd (hlt.2 hw), ⟨leftOver_leaveReqs d [] _, fun n w tk ntk => ?_⟩, fun e => ?_,
      answerLeave_mem s d r.core 0⟩
    · exact answerLeave_spec s d r.core n tk w 0 ntk
    · show KMap.get 0 (answerLeave s d r.core 0).mgmt.lheld e = _
      rw [answerLeave_refusal]
  · refine ⟨_, (drawNat s 1 39).1, leaveGrant_admits h hd (fun hn => Nat.not_lt.2 hw (hlt.1 hn)) hfit, ?_, ?_,
      leftOver_leaveReqs d _ _, KMap.get_set_same _ _ _ _, fun _ => rfl, fun _ => rfl, rfl⟩
    · exact Nat.lt_of_lt_of_le Nat.one_pos (Nat.le_add_right 1 _)
    · show 1 + Config.freeNat s.free % 39 < 40
      omega
  · exact ⟨_, leaveGrant_waits h hd (fun hn => Nat.not_lt.2 hw (hlt.1 hn)) (Nat.not_le.2 hfit), leftOver_leaveReqs d _ _, rfl,
      fun _ => rfl, fun _ => rfl, rfl⟩
  · exact ⟨_, leaveGrant_arrives h hk hle, ⟨leftOver_leaveReqs d [] _, fun n w tk ntk =>
      answerLeave_spec s d r.core n tk w r.w ntk⟩, answerLeave_mem s d r.core r.w⟩

end Sys2Proof.Machine
end

section
/-!
PROOFS. Entries into a trap handler and returns from it (O12, O13), and the system unit SY (O14).
-/

namespace Sys2Proof.Machine

/-! ## Accesses that a capture performs (R412) -/

/-- What a trap reads of a context and no access of it changes. -/
def Ctx.lasting (c : Ctx) : Regs × BitVec 18 := (c.regs, c.ctl.trapvec)

/-- An access that ends puts its result in flight and lessens OLD and OST. -/
theorem accDone_keeps (c : Ctx) (a : LocalAcc) :
    (accDone c a).lasting = c.lasting ∧ (accDone c a).accs = c.accs := by
  unfold accDone
  cases a.fin with
  | tileRow k => dsimp only; split <;> exact ⟨rfl, rfl⟩
  | ldp npl dst sx =>
    refine Prod.mk.inj (?_ : (_, _) = (c.lasting, c.accs))
    refine foldl_keeps (fun d : Ctx => (d.lasting, d.accs)) _ (fun d k => ?_) (List.range 8) c
    split <;> rfl
  | _ => exact ⟨rfl, rfl⟩

/-- One access of context n as a capture performs it. -/
def performCaptured (n : Nat) (s : State) (a : LocalAcc) : State :=
  if a.fin = .mat then s.updCtx n fun c => accDone { c with accs := c.accs.filter fun x => x ≠ a } a
  else if (segsBad s a (a.won ++ a.segs)).isSome then s.updCtx n fun c => keepReplay c a
  else performCounted s n a

theorem performSome_eq (s : State) (n : Nat) (l : List LocalAcc) : performSome s n l = l.foldl (performCaptured n) s := rfl

theorem performSegs_ctxs (s : State) (a : LocalAcc) : (performSegs s a).1.ctxs = s.ctxs :=
  foldl_keeps (fun r : State × LocalAcc => r.1.ctxs) _ (fun r g => (onlyStores_performSeg r.1 r.2 g).ctxs) _ (s, a)

/-- The access leaves its context's list, and its registers, its trap vector and the other contexts as they were. -/
theorem performCaptured_ctx (n : Nat) (s : State) (a : LocalAcc) :
    ((performCaptured n s a).ctx n).lasting = (s.ctx n).lasting ∧
    ((performCaptured n s a).ctx n).accs = (s.ctx n).accs.filter (· ≠ a) ∧
    ∀ m, m ≠ n → (performCaptured n s a).ctx m = s.ctx m := by
  unfold performCaptured
  split
  · rw [State.ctx_updCtx]
    exact ⟨(accDone_keeps _ a).1, (accDone_keeps _ a).2, fun m hm => State.ctx_updCtx_other _ _ _ _ hm⟩
  · split
    · rw [State.ctx_updCtx]
      exact ⟨rfl, rfl, fun m hm => State.ctx_updCtx_other _ _ _ _ hm⟩
    · unfold performCounted performAcc
      generalize hu : s.updCore _ _ = u
      have hctx (m : Nat) : (performSegs u a).1.ctx m = s.ctx m := by
        rw [State.ctx_of_ctxs (performSegs_ctxs u a), ← hu, State.ctx_updCore]
      dsimp only
      rw [State.ctx_updCtx, hctx]
      exact ⟨(accDone_keeps _ _).1, (accDone_keeps _ _).2,
        fun m hm => by rw [State.ctx_updCtx_other _ _ _ _ hm, hctx]⟩

/-- Every access of the context is performed or kept for its replay; none is left. -/
theorem performAll_ctx (n : Nat) (s : State) : ((performAll s n).ctx n).lasting = (s.ctx n).lasting ∧
    ((performAll s n).ctx n).accs = [] ∧ ∀ m, m ≠ n → (performAll s n).ctx m = s.ctx m := by
  have hfold (l : List LocalAcc) (u : State) : ((l.foldl (performCaptured n) u).ctx n).lasting = (u.ctx n).lasting ∧
      ((l.foldl (performCaptured n) u).ctx n).accs = (u.ctx n).accs.filter (· ∉ l) ∧
      ∀ m, m ≠ n → (l.foldl (performCaptured n) u).ctx m = u.ctx m := by
    induction l generalizing u with
    | nil => exact ⟨rfl, by simp, fun _ _ => rfl⟩
    | cons a l ih =>
      obtain ⟨hlast, haccs, hother⟩ := ih (performCaptured n u a)
      obtain ⟨hlast', haccs', hother'⟩ := performCaptured_ctx n u a
      refine ⟨hlast.trans hlast', ?_, fun m hm => (hother m hm).trans (hother' m hm)⟩
      rw [List.foldl_cons, haccs, haccs', List.filter_filter]
      exact List.filter_congr fun x _ => by simp [Bool.and_comm]
  obtain ⟨hlast, haccs, hother⟩ := hfold (s.ctx n).accs s
  refine ⟨hlast, haccs.trans (List.filter_eq_nil_iff.2 fun x hx => by simpa using hx), hother⟩

/-- A context whose wait has been taken back from its counter. -/
def unwaited (w : WaitSlot) (c : Ctx) : Ctx := { c with wait := none, creqs := c.creqs.filter fun r => r.id ≠ w.id }

theorem withdrawWait_ctxs (s : State) (n : Nat) :
    (withdrawWait s n).ctxs = s.ctxs ∨ ∃ w, (withdrawWait s n).ctxs = (s.updCtx n (unwaited w)).ctxs := by
  unfold withdrawWait
  split
  · exact .inl rfl
  · next w _ => exact .inr ⟨w, rfl⟩

theorem withdrawWait_ctx (s : State) (n : Nat) : (∃ w r, (withdrawWait s n).ctx n = { s.ctx n with wait := w, creqs := r }) ∧
    ∀ m, m ≠ n → (withdrawWait s n).ctx m = s.ctx m := by
  rcases withdrawWait_ctxs s n with h | ⟨w, h⟩
  · exact ⟨⟨_, _, State.ctx_of_ctxs h n⟩, fun m _ => State.ctx_of_ctxs h m⟩
  · exact ⟨⟨_, _, (State.ctx_of_ctxs h n).trans (State.ctx_updCtx s n _)⟩,
      fun m hm => (State.ctx_of_ctxs h m).trans (State.ctx_updCtx_other s n m _ hm)⟩

/-- A captured context is the one whose accesses are performed, without its wait, its due advances made, and all that is
in flight in its snapshot. -/
theorem ctx_capture (s : State) (n : Nat) : ∃ w r b, (capture s n).ctx n = { (performAll s n).ctx n with
    wait := w, creqs := r, cbs := b
    inf := Inflight.snapped { ((performAll s n).ctx n).inf with
      cbAdv := ((performAll s n).ctx n).inf.cbAdv.filter fun p => p.1 ≠ 0 } } := by
  obtain ⟨⟨w, r, hw⟩, -⟩ := withdrawWait_ctx (performAll s n) n
  refine ⟨w, r, (advDue ((withdrawWait (performAll s n) n).ctx n)).cbs, ?_⟩
  rw [capture, State.ctx_updCore, State.ctx_updCtx, hw, advDue_eq, foldl_advanceOne_frame]
  rfl

theorem ctx_capture_other (s : State) {n m : Nat} (h : m ≠ n) : (capture s n).ctx m = s.ctx m := by
  rw [capture, State.ctx_updCore, State.ctx_updCtx_other _ _ _ _ h, (withdrawWait_ctx _ n).2 m h,
    (performAll_ctx n s).2.2 m h]

/-- What an entry leaves of its captured context beyond what its delivery reads (R417-R419). -/
theorem trapEntry_leaves (s : State) (n code : Nat) (v r : Word) (cls fu : Nat) (rp : Option Replay) :
    let c := (capture s n).ctx n
    let d := (trapEntry s n code v r cls fu rp).ctx n
    d.npc = none ∧ d.regs.g = c.regs.g ∧ d.regs.t = c.regs.t ∧ d.oq = [] ∧ d.ports = [] ∧
      d.ctl.lpcnt = 0 ∧ d.ctl.lplen = 0 ∧ d.ctl.lpstart = 0 ∧ d.ctl.lpbrk = false ∧
      d.inf.flights = [] ∧ d.inf.jobs = [] ∧ d.accs = c.accs ∧ d.skip = false := by
  unfold trapEntry
  dsimp only
  rw [State.ctx_updCore, State.ctx_updCtx]
  exact ⟨rfl, rfl, rfl, rfl, rfl, rfl, rfl, rfl, rfl, rfl, rfl, rfl, rfl⟩

/-- A trap of a context with a handler that no walk holds and whose kernel lives is its entry. -/
theorem takeTrap_enters {s : State} {n code : Nat} {v : Word} (hh : hasHandler (s.ctx n) = true)
    (hw : (s.ctx n).walk = none) (hd : (s.ctx n).doomed = false) :
    takeTrap s n code v = trapEntry s n code v s.iss.pc 0 0 none := by
  unfold takeTrap
  rw [hd, if_neg Bool.false_ne_true, hh, hw]
  rfl

/-! ## Returns (R437, R418, R419) -/

/-- The context that goes on with what its frame f holds, where no replay is kept and the return ignores nothing. -/
def returnedCtx (f : Frame) (c : Ctx) : Ctx :=
  { c with
    parked := true, hdep := false, pc := w64 (32 * c.ctl.trappc.toNat)
    npc := if w64 (32 * c.ctl.trappc.toNat) = f.pc then f.npc else none
    frame := none, ports := f.ports, portSk := f.portSk, oq := f.oq
    regs := { c.regs with
      tags := f.portTags.foldl (fun t p => KMap.put t p.1 p.2) (c.regs.tags.filter fun p => p.1 < 256 ∨ 2000 ≤ p.1) }
    inf := { f.inf with fmtEff := c.inf.fmtEff }
    replay := none
    skip := f.skip && decide (w64 (32 * c.ctl.trappc.toNat) = f.pc)
    xwalk := none, rfe := none
    ctl := { c.ctl with
      priv := c.recPriv, lpcnt := f.lpcnt, lplen := f.lplen, lpstart := f.lpstart, lpbrk := f.lpbrk } }

theorem finishReturn_resumes {s : State} {n : Nat} {f : Frame} (hf : (s.ctx n).frame = some f) (hcls : f.cls ≤ 1)
    (hrep : f.replay = none) : finishReturn s n 0 =
      (s.updCtx n (returnedCtx f)).updCore (coreOf n) fun k => { k with icd := 4 } := by
  have h3 : f.cls ≠ 3 := by omega
  have h2 : f.cls ≠ 2 := by omega
  unfold finishReturn trapReturn
  rw [hf, if_neg (by decide)]
  simp only [h3, h2, if_false, decide_false, Bool.false_and]
  rw [State.updCtx_updCtx]
  refine congrArg (State.updCore · (coreOf n) _) (State.updCtx_congr s n _ _ ?_)
  simp [hf, hrep, returnedCtx]

end Sys2Proof.Machine

namespace Sys2Proof

open Machine

/-- Settles O12: the entry of the context as its capture leaves it. -/
theorem trapEntry : Obligations.TrapEntry := by
  unfold Obligations.TrapEntry
  intro s r code v hh hw hd
  dsimp only
  generalize hu : ({ s with iss := { s.iss with note := .trap r code v } } : State) = u
  have hctx (m : Nat) : u.ctx m = s.ctx m := by rw [← hu]; rfl
  have hpc : u.iss.pc = s.iss.pc := by rw [← hu]
  have ht : raiseNote s (.trap r code v) = Machine.trapEntry u s.iss.n code v s.iss.pc 0 0 none := by
    rw [← hpc, ← takeTrap_enters (by rwa [hctx]) (by rwa [hctx]) (by rwa [hctx]), ← hu]
    rfl
  rw [ht]
  obtain ⟨hlast, haccs, -⟩ := performAll_ctx s.iss.n u
  obtain ⟨hregs, hvec⟩ := Prod.mk.inj hlast
  obtain ⟨w, q, b, hcap⟩ := ctx_capture u s.iss.n
  have hcregs : ((capture u s.iss.n).ctx s.iss.n).regs = (s.ctx s.iss.n).regs := by rw [hcap, ← hctx]; exact hregs
  have hcvec : ((capture u s.iss.n).ctx s.iss.n).ctl.trapvec = (s.ctx s.iss.n).ctl.trapvec := by
    rw [hcap, ← hctx]; exact hvec
  have hcaccs : ((capture u s.iss.n).ctx s.iss.n).accs = [] := by rw [hcap]; exact haccs
  obtain ⟨-, hdep, hpc', htrappc, hcode, hval, hpriv, hs, hframe⟩ :=
    entered_trapEntry u s.iss.n code v s.iss.pc 0 0 none
  obtain ⟨hnpc, hg, ht, hoq, hports, hcnt, hlen, hstart, hbrk, hfl, hjobs, ha, hskip⟩ :=
    trapEntry_leaves u s.iss.n code v s.iss.pc 0 0 none
  refine ⟨⟨?_, hnpc, hdep, hpriv, htrappc, hcode, hval, ?_, ?_, ?_, fun fu age => ?_, fun fu p => ?_, hcnt, hlen, hstart,
    hbrk, hfl, hjobs, ha.trans hcaccs⟩, fun hnone => ⟨_, hframe, ?_⟩, hskip, trapEntry_icd .., fun m hm => ?_⟩
  · rw [hpc', hcvec]
  · rw [hs, hcregs]
  · rw [hg, hcregs]
  · rw [ht, hcregs]
  · rw [Ctx.entry, Ctx.image, hoq]
    rfl
  · rw [Ctx.portW, hports]
    rfl
  · have hp : (performAll u s.iss.n).ctx s.iss.n = s.ctx s.iss.n := by
      rw [← hctx, performAll, hctx, hnone]
      exact hctx _
    rw [hcap, hp]
    exact ⟨rfl, rfl, rfl, rfl, rfl, rfl, rfl, rfl, rfl⟩
  · rw [ctx_trapEntry_other _ _ _ _ _ _ _ _ _ hm, ctx_capture_other u hm, hctx]

/-- Settles O13: a return that meets no command's fault and no replay restores the frame. -/
theorem trapReturn : Obligations.TrapReturn := by
  unfold Obligations.TrapReturn
  intro s n f hf hcls hrep
  dsimp only
  rw [finishReturn_resumes hf hcls hrep, State.ctx_updCore, State.ctx_updCtx]
  refine ⟨rfl, rfl, rfl, rfl, rfl, rfl, rfl, rfl, rfl, rfl, rfl, rfl, rfl, rfl, rfl, rfl, rfl, ?_, fun m hm => ?_, rfl⟩
  · rw [State.core_updCore]
  · rw [State.ctx_updCore, State.ctx_updCtx_other _ _ _ _ hm]

end Sys2Proof

namespace Sys2Proof.Machine

/-! ## The system unit SY (R436, R417, R430, R439) -/

/-- An entry from a charged trigger is that of the trapped context, at the bundle that would come next (R417). -/
theorem trapEntry_charged (s : State) (src : BitVec 9) (code : Nat) (v r : Word) :
    let t := (trapEntry (charge (consume s src) 1) s.iss.n code v r 1 0 none).updCtx s.iss.n fun c => c.hold 7 4 1
    (t.ctx s.iss.n).pc = w64 (32 * (s.ctx s.iss.n).ctl.trapvec.toNat) ∧ (t.ctx s.iss.n).hdep = true ∧
      (t.ctx s.iss.n).ctl.trapcode = BitVec.ofNat 8 code ∧ (t.ctx s.iss.n).ctl.trapval = v ∧
      (t.ctx s.iss.n).ctl.trappc = BitVec.ofNat 18 (r.toNat / 32) ∧ (t.core (coreOf s.iss.n)).icd = 4 ∧
      ∀ m, m ≠ s.iss.n → t.ctx m = s.ctx m := by
  dsimp only
  rw [State.ctx_updCtx, Ctx.hold_one]
  generalize hu : charge (consume s src) 1 = u
  have hctx : (u.ctx s.iss.n).ctl = (s.ctx s.iss.n).ctl := by rw [← hu, ctx_charged, sourced_ctl]
  obtain ⟨-, hdep, hpc, htrappc, hcode, hval, -⟩ := entered_trapEntry u s.iss.n code v r 1 0 none
  obtain ⟨hlast, -, -⟩ := performAll_ctx s.iss.n u
  obtain ⟨w, q, b, hcap⟩ := ctx_capture u s.iss.n
  have hvec : ((capture u s.iss.n).ctx s.iss.n).ctl.trapvec = (s.ctx s.iss.n).ctl.trapvec := by
    rw [hcap, ← hctx]
    exact (Prod.mk.inj hlast).2
  refine ⟨hpc.trans (by rw [hvec]), hdep, hcode, hval, htrappc, trapEntry_icd .., fun m hm => ?_⟩
  rw [State.ctx_updCtx_other _ _ _ _ hm, ctx_trapEntry_other _ _ _ _ _ _ _ _ _ hm, ctx_capture_other u hm, ← hu,
    ctx_charged_other s src 1 hm]

/-- A move that changes more of the machine than its context, its core's window and the latch did what these say, where
the rest stands as in `u`. -/
theorem didRest_of {s t u : State} {w : Nat} {src : BitVec 9} (f : Ctx → Ctx)
    (hctxs : t.ctxs = ((consume s src).updCtx s.iss.n f).ctxs) (hcores : t.cores = (charge s w).cores)
    (hiss : t.iss = (charge s w).iss)
    (hrest : t = { u with ctxs := t.ctxs, cores := t.cores, serial := t.serial, iss := t.iss }) :
    DidRest s t w (f (sourced s src)) id u := by
  have h := did_of s { s with ctxs := t.ctxs, cores := t.cores, iss := t.iss } w src f hctxs hcores hiss rfl
  exact ⟨h.ctx, h.others, h.core, h.cores, h.iss, hrest⟩

/-- The entry that a log of walks gains (R439). -/
theorem bbAddL_entry (s : State) (level code : Nat) (kid : BitVec 32) (who : Nat) (v : Word) :
    ∃ e, (s.bbAddL level 1 code kid who v).bb = newest 4096 (s.bb ++ [e]) ∧ e.kind = 1 ∧ e.code = BitVec.ofNat 8 code ∧
      e.kid = kid ∧ e.val = v := ⟨_, rfl, rfl, rfl, rfl, rfl⟩

theorem exec_syTrap (s : State) (g : BitVec 4) (src : BitVec 9) : exec (.syTrap g src) s =
    trigger 7 4 1 1 false [] [] g src (fun v s =>
      if hasHandler (s.ctx s.iss.n) then
        trapEntry s s.iss.n (0x80 + fld v.word 0 7) (s.iss.ctx.portW 7 0) (s.ctx s.iss.n).pc 1 0 none
      else (walkCtx s s.iss.n (0x80 + fld v.word 0 7) 0 (s.iss.ctx.portW 7 0) true).1) s := rfl

theorem exec_syRfe (s : State) (g : BitVec 4) (src : BitVec 9) : exec (.syRfe g src) s =
    trigger 7 5 1 1 false [] [trapIf (decide (fld (trigT s src) 0 2 = 3) || !s.iss.ctx.hdep) 0x0A (trigT s src)] g src
      (fun v s => onCtx (fun c => { c with rfe := some (v.word.setWidth 2) }) s) s := rfl

theorem exec_syStop (s : State) (g : BitVec 4) (src : BitVec 9) : exec (.syStop g src) s =
    trigger 7 6 1 1 false [] [trapIf (decide (4096 ≤ (s.iss.ctx.portW 7 0).toNat)) 0x0A (s.iss.ctx.portW 7 0)] g src
      (fun _ u => u.at (u.clk + 1) true (.stopRequest (s.iss.ctx.portW 7 0).toNat)) s := rfl

/-- The context of the issuing core that number a names (R439), as a charged trigger finds it. -/
theorem inspected_charged (s : State) (src : BitVec 9) (a : Nat) :
    (if 4 * coreOf s.iss.n + a % 4 = s.iss.n then s.iss.ctx
      else (charge (consume s src) 1).ctx (4 * coreOf s.iss.n + a % 4)) =
      if a % 4 = s.iss.n % 4 then s.iss.ctx else s.ctx (4 * coreOf s.iss.n + a % 4) := by
  have hiff : 4 * coreOf s.iss.n + a % 4 = s.iss.n ↔ a % 4 = s.iss.n % 4 := by
    unfold coreOf
    omega
  by_cases h : a % 4 = s.iss.n % 4
  · rw [if_pos (hiff.2 h), if_pos h]
  · rw [if_neg (fun e => h (hiff.1 e)), if_neg h, ctx_charged_other s src 1 (fun e => h (hiff.1 e))]

theorem exec_sySnap (s : State) (g : BitVec 4) (src : BitVec 9) : exec (.sySnap g src) s =
    trigger 7 8 1 1 false [] [] g src (fun v s =>
      flyNew s 2 7 (.s (snapWord (snapOf (if 4 * coreOf s.iss.n + fld (s.iss.ctx.portW 7 0) 0 2 = s.iss.n then s.iss.ctx
        else s.ctx (4 * coreOf s.iss.n + fld (s.iss.ctx.portW 7 0) 0 2))) v.word)) 0 0) s := rfl

section
variable {s : State} {g : BitVec 4} {src : BitVec 9}

theorem hasHandler_charged : hasHandler ((charge (consume s src) 1).ctx s.iss.n) = hasHandler (s.ctx s.iss.n) := by
  rw [ctx_charged, sourced_eq]
  rfl

theorem trapEntry_iss (s : State) (n code : Nat) (v r : Word) (cls fu : Nat) (rp : Option Replay) :
    (trapEntry s n code v r cls fu rp).iss = s.iss := capture_iss s n

theorem syTrap_enters (hr : Ready s 7 4 false g src) (hh : hasHandler (s.ctx s.iss.n) = true) :
    exec (.syTrap g src) s = .next ((trapEntry (charge (consume s src) 1) s.iss.n (0x80 + (trigT s src).toNat % 128)
      (s.iss.ctx.portW 7 0) (s.ctx s.iss.n).pc 1 0 none).updCtx s.iss.n fun c => c.hold 7 4 1) := by
  have hpc : (sourced s src).pc = (s.ctx s.iss.n).pc := by rw [sourced_eq]
  rw [exec_syTrap, trigger_quiet s 7 4 1 1 false _ _ g src _ hr rfl rfl]
  dsimp only
  rw [charged_n, hasHandler_charged, if_pos hh, trapEntry_iss, charged_n, iss_ctx_charged, ctx_charged, hpc, fld_zero]
  rfl

/-- Without a handler, and with the policy to ignore it, `sy.trap` leaves one record of its core level. -/
theorem syTrap_ignored (hr : Ready s 7 4 false g src) (hh : hasHandler (s.ctx s.iss.n) = false)
    (hp : policy (s.ctx s.iss.n).ctl.cpol 0 = .ignore) :
    exec (.syTrap g src) s = .next (((charge (consume s src) 1).bbAddL 0 1 (0x80 + (trigT s src).toNat % 128)
      (s.ctx s.iss.n).ctl.kid s.iss.n (s.iss.ctx.portW 7 0)).updCtx s.iss.n fun c => c.hold 7 4 1) := by
  have hw (code : Nat) (a : Word) : (walkCtx (charge (consume s src) 1) s.iss.n code 0 a true).1 =
      (charge (consume s src) 1).bbAddL 0 1 code (s.ctx s.iss.n).ctl.kid s.iss.n a := by
    unfold walkCtx
    dsimp only
    rw [ctx_charged, sourced_ctl]
    simp [walkLevels, hp]
  rw [exec_syTrap, trigger_quiet s 7 4 1 1 false _ _ g src _ hr rfl rfl]
  dsimp only
  rw [charged_n, hasHandler_charged, if_neg (fun h => Bool.false_ne_true (hh.symm.trans h)), iss_ctx_charged, hw,
    bbAddL_iss, charged_n, fld_zero]
  rfl

theorem syStop_stops (hr : Ready s 7 6 false g src) (ha : (s.iss.ctx.portW 7 0).toNat < 4096) :
    ∃ t, exec (.syStop g src) s = .next t ∧ DidRest s t 1 (sourced s src) id
      (s.at (s.clk + 1) true (.stopRequest (s.iss.ctx.portW 7 0).toNat)) := by
  refine ⟨_, (exec_syStop s g src).trans (trigger_quiet s 7 6 1 1 false _ _ g src _ hr rfl ?_), ?_⟩
  · rw [firstNote_trapIf, decide_eq_false (Nat.not_le.2 ha)]
    rfl
  · dsimp only
    rw [State.at_iss, charged_n]
    refine didRest_of id rfl (charge_cores s src 1) (by simp) ?_
    rw [consume_rest]
    rfl

end

end Sys2Proof.Machine

namespace Sys2Proof

open Machine

/-- Settles O14: the entry or the record of `sy.trap`, and the triggers of the other moves. -/
theorem systemUnit : Obligations.SystemUnit := by
  unfold Obligations.SystemUnit
  intro s g src
  dsimp only
  have hrfe : firstNote [trapIf (decide (fld (trigT s src) 0 2 = 3) || !s.iss.ctx.hdep) 0x0A (trigT s src)] =
      if (trigT s src).toNat % 4 = 3 ∨ s.iss.ctx.hdep = false then .trap 5 0x0A (trigT s src) else .quiet := by
    rw [firstNote_trapIf, fld_zero]
    simp [firstNote]
  refine ⟨fun hr hh => ⟨_, syTrap_enters hr hh, trapEntry_charged s src _ _ _⟩, fun hr hh hp => ?_, fun hT hd => ?_,
    fun hbad hr => ?_, fun ha hr => syStop_stops hr ha, fun ha hr => ?_, ?_⟩
  · obtain ⟨e, hbb, he⟩ := bbAddL_entry (charge (consume s src) 1) 0 (0x80 + (trigT s src).toNat % 128)
      (s.ctx s.iss.n).ctl.kid s.iss.n (s.iss.ctx.portW 7 0)
    obtain ⟨hkind, hcode, hkid, hval⟩ := he
    refine ⟨_, e, syTrap_ignored hr hh hp, ?_, hbb.trans ?_, hkind, hcode, hkid, hval, consume_mem s src⟩
    · rw [State.ctx_updCtx, Ctx.hold_one, State.ctx_bbAddL, ctx_charged]
    · rw [consume_rest]
      rfl
  · refine completes s _ 7 5 1 1 s.serial _ _ _ g src _ _ (exec_syRfe s g src) rfl (hrfe.trans (if_neg ?_)) ?_
    · rintro (h | h)
      · exact hT h
      · exact Bool.false_ne_true (h.symm.trans hd)
    · rw [onCtx_charged, charged_serial]
      rfl
  · exact traps s _ 7 5 1 1 _ _ _ g src _ 5 0x0A _ (exec_syRfe s g src) hr (hrfe.trans (if_pos hbad))
  · refine traps s _ 7 6 1 1 _ _ _ g src _ 5 0x0A _ (exec_syStop s g src) hr ?_
    rw [List.nil_append, firstNote_trapIf, decide_eq_true ha]
    rfl
  · refine completes s _ 7 8 1 1 (s.serial + 1) _ _ _ g src _ _ (exec_sySnap s g src) rfl rfl ?_
    rw [← flyNew_charged_id, iss_ctx_charged, charged_n, fld_zero, show 2 ^ 2 = 4 from rfl, inspected_charged]
    rfl

end Sys2Proof
end

section
/-!
PROOFS. Counter adds and waits of the unit CT (O25, O26).
-/

namespace Sys2Proof.Machine

/-! ## What refuses a counter operand, and what holds it (R401, R402, R403) -/

section
variable {s : State} {w : Want} {l : List Note}

theorem ctScope_eq (a : Word) : ctScope a = a.toNat % 8 := fld_zero a 3

/-- A counter operand that may be used translates to its address. -/
theorem ctXlate_of_ok {pa : Nat} (h : CounterOk s w pa) : ctXlate s (ctAddr (s.iss.ctx.portW 6 0)) w = .ok pa := by
  obtain ⟨-, -, -, e, hleaf, hcheck, rfl⟩ := h
  unfold ctXlate xlate
  rw [show ctAddr (s.iss.ctx.portW 6 0) = s.iss.ctx.portW 6 0 &&& ~~~7 from rfl]
  simp only [hleaf, hcheck]

theorem needWalk_of_ok {pa : Nat} (h : CounterOk s w pa) : needWalk s (ctAddr (s.iss.ctx.portW 6 0)) = false := by
  obtain ⟨-, -, hfound, -⟩ := h
  unfold needWalk
  rcases hfound with hfound | hwalked
  · dsimp only
    rw [show ctAddr (s.iss.ctx.portW 6 0) = s.iss.ctx.portW 6 0 &&& ~~~7 from rfl, ← Option.not_isSome, hfound,
      Bool.not_true, Bool.and_false, Bool.false_and]
  · simp [hwalked]

/-- The notes of a counter operand, in the order of R402. -/
theorem counterNotes_scope (h : 6 ≤ (s.iss.ctx.portW 6 0).toNat % 8) :
    firstNote (counterNotes s w ++ l) = .trap 5 0x09 (w64 ((s.iss.ctx.portW 6 0).toNat % 8)) := by
  rw [counterNotes, List.cons_append, firstNote_trapIf, ctScope_eq, decide_eq_true h]
  rfl

variable (hs : (s.iss.ctx.portW 6 0).toNat % 8 < 6)
include hs

theorem firstNote_counterNotes : firstNote (counterNotes s w ++ l) =
    firstNote ((counterNotes s w).tail ++ l) := by
  rw [counterNotes, List.cons_append, firstNote_trapIf, ctScope_eq, decide_eq_false (Nat.not_le.2 hs)]
  rfl

theorem counterNotes_walk (hw : needWalk s (ctAddr (s.iss.ctx.portW 6 0)) = true) :
    firstNote (counterNotes s w ++ l) = .hold 7 := by
  rw [firstNote_counterNotes hs]
  simp [counterNotes, holdIf, hw, firstNote]

theorem counterNotes_fault (hw : needWalk s (ctAddr (s.iss.ctx.portW 6 0)) = false) {f : Flt}
    (hx : ctXlate s (ctAddr (s.iss.ctx.portW 6 0)) w = .error f) :
    firstNote (counterNotes s w ++ l) = .trap 5 f.1 f.2 := by
  rw [firstNote_counterNotes hs]
  simp [counterNotes, holdIf, hw, hx, trapFlt, firstNote]

theorem counterNotes_ok (hw : needWalk s (ctAddr (s.iss.ctx.portW 6 0)) = false) {pa : Nat}
    (hx : ctXlate s (ctAddr (s.iss.ctx.portW 6 0)) w = .ok pa) :
    firstNote (counterNotes s w ++ l) = if 8 ≤ s.iss.ctx.creqs.length then .hold 7 else firstNote l := by
  rw [firstNote_counterNotes hs]
  by_cases hl : 8 ≤ s.iss.ctx.creqs.length <;> simp [counterNotes, holdIf, hw, hx, hl, firstNote]

end

/-! ## A walk begins (R401) -/

theorem beginWalk_of_found {s : State} (h : needWalk s (ctAddr (s.iss.ctx.portW 6 0)) = false) (o : Out) :
    beginWalk s o = o := by
  cases o <;> simp [beginWalk, h]

theorem beginWalk_of_note {s t : State} (h : t.iss.note ≠ .hold 7) : beginWalk s (.next t) = .next t := by
  simp [beginWalk, h]

/-- An operation whose page the quad's buffer does not hold marks the walk that it waits for, and changes nothing else
that the machine can see before the walk. -/
theorem beginWalk_begins {s t : State} (hn : t.iss.note = .hold 7)
    (hw : needWalk s (ctAddr (s.iss.ctx.portW 6 0)) = true) (hx : (t.ctx t.iss.n).xwalk = none) :
    ∃ u, beginWalk s (.next t) = .next u ∧ u.iss = t.iss ∧ u.ctx t.iss.n = { t.ctx t.iss.n with xwalk := some false } ∧
      (∀ m, m ≠ t.iss.n → u.ctx m = t.ctx m) ∧ u.mem = t.mem := by
  refine ⟨(t.updCtx t.iss.n fun c => { c with xwalk := some false }).within 1 1200 (.translationWalk t.iss.n), ?_, rfl,
    ?_, fun m hm => ?_, rfl⟩
  · simp [beginWalk, hn, hw, hx]
  · rw [State.ctx_within, State.ctx_updCtx]
  · rw [State.ctx_within, State.ctx_updCtx_other _ _ _ _ hm]

/-! ## ct.add (R403) -/

/-- The request of `ct.add` for T at the address of port a, which translates to pa. -/
def addRequest (pa : Nat) (a : Word) (s : State) (T : Word) (c : Ctx) : CReq :=
  ⟨s.serial, false, ctAddr a, pa, T, false, openIds s s.iss.n c⟩

/-! ### What a translation reads -/

section
variable {s t : State} (hm : t.mem = s.mem) (hf : t.free = s.free)
include hm hf

theorem groupEntry_congr (ea : Nat) (e : Word) : groupEntry t ea e = groupEntry s ea e := by
  unfold groupEntry State.rd64 State.rd
  rw [hm, hf]

theorem walkFrom_congr (va : Word) (ps : List TlbPtr) (k a : Nat) : walkFrom t va ps k a = walkFrom s va ps k a := by
  induction k generalizing ps a with
  | zero => rfl
  | succ k ih =>
    unfold walkFrom
    simp only [groupEntry_congr hm hf, ih]
    unfold State.rd64 State.rd
    rw [hm]

/-- A translation reads memory, the translation buffers and, for the pointer that it begins with, a free choice. -/
theorem leafOf_congr (ht : t.tlb = s.tlb) (buf : Nat) (asid : BitVec 16) (root : BitVec 36)
    (va : Word) : leafOf t buf asid root va = leafOf s buf asid root va := by
  unfold leafOf tlbFind walkTables heldPtrs
  simp only [walkFrom_congr hm hf, ht, hf]

theorem ctPA_congr (ht : t.tlb = s.tlb) (hc : t.iss.ctx = s.iss.ctx) (hn : t.iss.n = s.iss.n)
    (w : Want) : ctPA t w = ctPA s w := by
  unfold ctPA ctXlate xlate
  simp only [leafOf_congr hm hf ht, hc, hn]

end

/-- What `ct.add` does to a charged state: one request more. -/
def addEffect (v : Val) (s : State) : State :=
  (s.ser (s.serial + 1)).updCtx s.iss.n fun c => { c with creqs := c.creqs ++
    [⟨s.serial, false, ctAddr (s.iss.ctx.portW 6 0), ctPA (s.ser (s.serial + 1)) .add, v.word, false,
      openIds (s.ser (s.serial + 1)) s.iss.n ((s.ser (s.serial + 1)).ctx s.iss.n)⟩] }

theorem exec_ctAdd (s : State) (g : BitVec 4) (src : BitVec 9) : exec (.ctAdd g src) s =
    beginWalk s (trigger 6 4 1 2 false [] (counterNotes s .add) g src addEffect s) := rfl

theorem ctPA_of_ok {s : State} {w : Want} {pa : Nat} (h : CounterOk s w pa) : ctPA s w = pa := by
  unfold ctPA
  simp only [ctXlate_of_ok h]

theorem addEffect_charged (s : State) (src : BitVec 9) {pa : Nat} (h : CounterOk s .add pa) :
    addEffect (readCode s src) (charge (consume s src) 2) = ((charge (consume s src) 2).ser (s.serial + 1)).updCtx s.iss.n
      fun c => { c with creqs := c.creqs ++ [⟨s.serial, false, ctAddr (s.iss.ctx.portW 6 0), pa, trigT s src, false,
        openIds s s.iss.n c⟩] } := by
  have hrest : (charge (consume s src) 2).tlb = s.tlb ∧ (charge (consume s src) 2).free = s.free := by
    rw [consume_rest]
    exact ⟨rfl, rfl⟩
  have hpa : ctPA ((charge (consume s src) 2).ser (s.serial + 1)) .add = pa := by
    rw [← ctPA_of_ok h]
    generalize hu : charge (consume s src) 2 = u at hrest
    have hmem : u.mem = s.mem := by rw [← hu]; exact consume_mem s src
    have hc : u.iss.ctx = s.iss.ctx := by rw [← hu]; exact iss_ctx_charged s src 2
    have hn : u.iss.n = s.iss.n := by rw [← hu]; exact charged_n s src 2
    exact ctPA_congr (t := u.ser (s.serial + 1)) hmem hrest.2 hrest.1 hc hn .add
  unfold addEffect
  rw [charged_serial, charged_n, iss_ctx_charged, hpa]
  refine State.updCtx_congr _ _ _ _ ?_
  have hctx : ((charge (consume s src) 2).ser (s.serial + 1)).ctx s.iss.n = sourced s src := ctx_consume s src
  rw [hctx, openIds_charged]
  rfl

section
variable {s : State} {g : BitVec 4} {src : BitVec 9}

theorem trigger_ctAdd (hr : Ready s 6 4 false g src) {x : Note} (hx : x ≠ .quiet) (hn : firstNote (counterNotes s .add) = x) :
    exec (.ctAdd g src) s = beginWalk s (.next (raiseNote { s with free := s.free + 1 } x)) := by
  rw [exec_ctAdd, trigger_met s 6 4 1 2 false [] (counterNotes s .add) g src _ hr x hx hn]

theorem ctAdd_traps (hr : Ready s 6 4 false g src) {r code : Nat} {v : Word}
    (hn : firstNote (counterNotes s .add) = .trap r code v) : Traps s (.ctAdd g src) code v := by
  refine ⟨r, (trigger_ctAdd hr (by simp) hn).trans (beginWalk_of_note ?_)⟩
  rw [raiseNote_trap_note]
  simp

/-- A held operation changes its context by the walk that it may begin, and nothing else that runs. -/
theorem ctAdd_held (hr : Ready s 6 4 false g src) (hn : firstNote (counterNotes s .add) = .hold 7)
    (hw : needWalk s (ctAddr (s.iss.ctx.portW 6 0)) = false) :
    exec (.ctAdd g src) s = .next (raiseNote { s with free := s.free + 1 } (.hold 7)) :=
  (trigger_ctAdd hr (by simp) hn).trans (beginWalk_of_found hw _)

theorem ctAdd_walks (hr : Ready s 6 4 false g src) (hs : (s.iss.ctx.portW 6 0).toNat % 8 < 6)
    (hw : needWalk s (ctAddr (s.iss.ctx.portW 6 0)) = true) (hx : (s.ctx s.iss.n).xwalk = none) :
    ∃ t, exec (.ctAdd g src) s = .next t ∧ t.iss.note = .hold 7 ∧
      t.ctx s.iss.n = { s.ctx s.iss.n with xwalk := some false } ∧ (∀ m, m ≠ s.iss.n → t.ctx m = s.ctx m) ∧ t.mem = s.mem := by
  have hn : firstNote (counterNotes s .add) = .hold 7 := by simpa using counterNotes_walk (l := []) hs hw
  obtain ⟨u, hu, hiss, hctx, hothers, hmem⟩ :=
    beginWalk_begins (t := raiseNote { s with free := s.free + 1 } (.hold 7)) rfl hw hx
  exact ⟨u, (trigger_ctAdd hr (by simp) hn).trans hu, by rw [hiss]; rfl, hctx, hothers, hmem⟩

theorem ctAdd_enters {pa : Nat} (h : CounterOk s .add pa) (hl : s.iss.ctx.creqs.length < 8) :
    Completes s (.ctAdd g src) 6 4 1 2 false g src fun c => { c with creqs := c.creqs ++
      [⟨s.serial, false, ctAddr (s.iss.ctx.portW 6 0), pa, trigT s src, false, openIds s s.iss.n c⟩] } := by
  refine completes s _ 6 4 1 2 (s.serial + 1) _ _ _ g src _ _
    ((exec_ctAdd s g src).trans (beginWalk_of_found (needWalk_of_ok h) _)) rfl ?_ (addEffect_charged s src h)
  have := counterNotes_ok (l := []) h.1 (needWalk_of_ok h) (ctXlate_of_ok h)
  rw [List.append_nil, if_neg (Nat.not_le.2 hl)] at this
  exact this

end

/-- Settles O25: the notes of a counter operand decide, and the walk of one that the quad's buffer does not hold. -/
theorem counterAdds : Obligations.CounterAdds := by
  unfold Obligations.CounterAdds
  intro s g src
  dsimp only
  rw [show s.iss.ctx.portW 6 0 &&& ~~~7 = ctAddr (s.iss.ctx.portW 6 0) from rfl]
  generalize hva : ctAddr (s.iss.ctx.portW 6 0) = va
  have hhigh : fld va 56 8 = 0 ↔ va.toNat < 2 ^ 56 := by
    rw [fld_eq]
    omega
  refine ⟨fun pa h hl => by rw [← hva]; exact ctAdd_enters h hl, fun hr hs => ?_, fun hr hs hv => ?_,
    fun hr hs hv e he f hf => ?_, fun hr hs hv he hx hnone => ?_, fun hr ⟨pa, h⟩ hl => ?_⟩
  · exact ctAdd_traps hr (by simpa using counterNotes_scope (l := []) hs)
  · have hne : fld va 56 8 ≠ 0 := fun h => Nat.not_lt.2 hv (hhigh.1 h)
    have := counterNotes_fault (w := .add) (l := []) (f := (0x22, va)) hs (by simp [needWalk, hva, hne])
      (by simp [ctXlate, xlate, leafOf, hva, hne])
    exact ctAdd_traps hr (by simpa using this)
  · have := counterNotes_fault (w := .add) (l := []) (f := f) hs (by simp [needWalk, hva, he])
      (by simp [ctXlate, xlate, leafOf, hva, hhigh.2 hv, he, hf])
    exact ctAdd_traps hr (by simpa using this)
  · exact ctAdd_walks hr hs (by simp [needWalk, hva, hhigh.2 hv, he, hx]) hnone
  · have := counterNotes_ok (l := []) h.1 (needWalk_of_ok h) (ctXlate_of_ok h)
    rw [List.append_nil, if_pos hl] at this
    exact ⟨_, ctAdd_held hr this (needWalk_of_ok h), rfl, rfl, fun _ _ => rfl, rfl⟩

end Sys2Proof.Machine
end

section
/-!
PROOFS. The waits of the unit CT (O26), and its barriers (O27).
-/

namespace Sys2Proof.Machine

/-! ## ct.wait (R404) -/

/-- What a wait whose value has come does: it lands it and gives up the slot. -/
def waitEffect (v : Word) (s : State) : State := flyNew (onCtx (fun c => { c with wait := none }) s) 1 6 (.s v) 0 0

/-- What blocks `ct.wait`: its operand's notes where it takes the slot, and a slot without its value. -/
def waitNotes (s : State) : List Note :=
  (if s.iss.ctx.wait.isNone then counterNotes s .wait else []) ++ [blockIf ((s.iss.ctx.wait.bind (·.got)).isNone)]

theorem exec_ctWait (s : State) (g : BitVec 4) (src : BitVec 9) : exec (.ctWait g src) s =
    beginWait s (trigT s src) (beginWalk s (trigger 6 5 1 1 true
      (waitNotes s) [] g src
      (fun _ => waitEffect ((s.iss.ctx.wait.bind (·.got)).getD 0)) s)) := rfl

theorem beginWait_of_waiting {s : State} {w : WaitSlot} (h : s.iss.ctx.wait = some w) (T : Word) (o : Out) :
    beginWait s T o = o := by
  cases o <;> simp [beginWait, h]

/-- A wait that blocks for the first time takes its context's slot, and enters its request. -/
theorem beginWait_begins {s t : State} (hn : t.iss.note = .block) (hw : s.iss.ctx.wait = none) (T : Word) :
    ∃ u, beginWait s T (.next t) = .next u ∧ u.iss = t.iss ∧ u.ctx t.iss.n = { t.ctx t.iss.n with
        wait := some ⟨t.serial, ctPA s .wait, T, none⟩
        creqs := (t.ctx t.iss.n).creqs ++
          [⟨t.serial, true, ctAddr (s.iss.ctx.portW 6 0), ctPA s .wait, T, false, []⟩] } ∧
      (∀ m, m ≠ t.iss.n → u.ctx m = t.ctx m) ∧ u.mem = t.mem := by
  refine ⟨(t.ser (t.serial + 1)).updCtx t.iss.n fun c => { c with
    wait := some ⟨t.serial, ctPA s .wait, T, none⟩
    creqs := c.creqs ++ [⟨t.serial, true, ctAddr (s.iss.ctx.portW 6 0), ctPA s .wait, T, false, []⟩] }, ?_, rfl, ?_,
    fun m hm => ?_, rfl⟩
  · unfold beginWait
    simp only [hn, hw, Option.isNone_none, Bool.and_true, decide_true, if_true]
    rfl
  · exact State.ctx_updCtx _ _ _
  · exact State.ctx_updCtx_other _ _ _ _ hm

section
variable {s : State} {g : BitVec 4} {src : BitVec 9}

/-- What a block leaves (R21). -/
theorem raiseNote_block (u : State) : (raiseNote u .block).serial = u.serial ∧ (raiseNote u .block).iss.n = u.iss.n ∧
    (raiseNote u .block).ctx u.iss.n = { u.ctx u.iss.n with blocked := true } ∧
    (∀ m, m ≠ u.iss.n → (raiseNote u .block).ctx m = u.ctx m) ∧ (raiseNote u .block).mem = u.mem :=
  ⟨rfl, rfl, State.ctx_updCtx { u with iss := { u.iss with note := .block } } u.iss.n _,
    fun m hm => State.ctx_updCtx_other { u with iss := { u.iss with note := .block } } u.iss.n m _ hm, rfl⟩

theorem ctWait_begins {pa : Nat} (hr : Ready s 6 5 true g src) (hw : s.iss.ctx.wait = none) (hok : CounterOk s .wait pa)
    (hl : s.iss.ctx.creqs.length < 8) : ∃ t, exec (.ctWait g src) s = .next t ∧ t.iss.note = .block ∧
      t.ctx s.iss.n = { s.ctx s.iss.n with
        blocked := true
        wait := some ⟨s.serial, pa, trigT s src, none⟩
        creqs := (s.ctx s.iss.n).creqs ++
          [⟨s.serial, true, ctAddr (s.iss.ctx.portW 6 0), pa, trigT s src, false, []⟩] } ∧
      (∀ m, m ≠ s.iss.n → t.ctx m = s.ctx m) ∧ t.mem = s.mem := by
  have hn : firstNote (waitNotes s ++ []) = .block := by
    rw [List.append_nil, waitNotes, hw, Option.isNone_none, if_pos rfl,
      counterNotes_ok hok.1 (needWalk_of_ok hok) (ctXlate_of_ok hok), if_neg (Nat.not_le.2 hl)]
    rfl
  generalize hu : ({ s with free := s.free + 1 } : State) = u
  have hctx (m : Nat) : u.ctx m = s.ctx m := by rw [← hu]; rfl
  have hun : u.iss.n = s.iss.n := by rw [← hu]
  have hser : u.serial = s.serial := by rw [← hu]
  have humem : u.mem = s.mem := by rw [← hu]
  obtain ⟨hrser, hrn, hrctx, hrothers, hrmem⟩ := raiseNote_block u
  obtain ⟨t, ht, hiss, htn, hothers, hmem⟩ := beginWait_begins (s := s) (t := raiseNote u .block) rfl hw (trigT s src)
  rw [hrn, hun, hrser, hser, ctPA_of_ok hok] at htn
  rw [hun] at hrctx hrothers
  rw [hrn, hun] at hothers
  refine ⟨t, ?_, by rw [hiss]; rfl, ?_, fun m hm => by rw [hothers m hm, hrothers m hm, hctx], hmem.trans (hrmem.trans humem)⟩
  · rw [exec_ctWait, beginWalk_of_found (needWalk_of_ok hok),
      trigger_met s 6 5 1 1 true _ [] g src _ hr .block (by simp) hn, hu]
    exact ht
  · rw [htn, hrctx, hctx]

/-- A wait whose value has not come blocks again. -/
theorem ctWait_blocks {w : WaitSlot} (hw : s.iss.ctx.wait = some w) (hg : w.got = none) (hr : Ready s 6 5 true g src) :
    Blocks s (.ctWait g src) := by
  have hn : firstNote (waitNotes s ++ []) = .block := by
    simp [waitNotes, hw, hg, blockIf, firstNote]
  unfold Blocks
  rw [exec_ctWait, beginWait_of_waiting hw, trigger_met s 6 5 1 1 true _ [] g src _ hr .block (by simp) hn]
  exact beginWalk_of_note (by simp [raiseNote])

theorem ctWait_lands {w : WaitSlot} {v : Word} (hq : s.iss.note = .quiet) (hw : s.iss.ctx.wait = some w)
    (hg : w.got = some v) : Completes s (.ctWait g src) 6 5 1 1 true g src fun c =>
      landing s 1 6 (.s v) 0 { c with wait := none } := by
  intro hr
  have hn : firstNote (waitNotes s) = .quiet := by
    simp [waitNotes, hw, hg, blockIf, firstNote]
  have hv : (s.iss.ctx.wait.bind (·.got)).getD 0 = v := by simp [hw, hg]
  have he : exec (.ctWait g src) s = trigger 6 5 1 1 true (waitNotes s) [] g src (fun _ => waitEffect v) s := by
    rw [exec_ctWait, beginWait_of_waiting hw, hv, trigger_quiet s 6 5 1 1 true _ [] g src _ hr hn rfl]
    refine beginWalk_of_note ?_
    show (charge (consume s src) 1).iss.note ≠ .hold 7
    rw [charge_iss, consume_iss]
    simp [hq]
  exact completes s _ 6 5 1 1 (s.serial + 1) _ _ _ g src _ (fun c => landing s 1 6 (.s v) 0 { c with wait := none }) he hn
    rfl (flyNew_charged s src 1 1 6 _ 0 _) hr

end

/-! ## ct.owait and ct.twait (R405, R406) -/

theorem owaitBlocks_iff (c : Ctx) (a T : Word) : owaitBlocks c a T = true ↔ a.toNat ≤ 2 ∧
    ((a.toNat ≠ 1 ∧ T.toNat < c.ctl.old.toNat) ∨ (a.toNat ≠ 0 ∧ T.toNat < c.ctl.ost.toNat)) := by
  unfold owaitBlocks
  rcases a.toNat with _ | _ | _ | k <;> simp

theorem exec_ctOwait (s : State) (g : BitVec 4) (src : BitVec 9) : exec (.ctOwait g src) s =
    trigger 6 6 1 1 true [blockIf (owaitBlocks s.iss.ctx (s.iss.ctx.portW 6 0) (trigT s src))]
      [trapIf (decide (2 < (s.iss.ctx.portW 6 0).toNat)) 0x0A (s.iss.ctx.portW 6 0)] g src
      (fun _ u => flyNew u 1 6
        (.s (s.iss.ctx.ctl.old.setWidth 64 + (s.iss.ctx.ctl.ost.setWidth 64 <<< 16))) 0 0) s := rfl

theorem exec_ctTwait (s : State) (g : BitVec 4) (src : BitVec 9) : exec (.ctTwait g src) s =
    trigger 6 7 1 1 true
      [blockIf (decide ((trigT s src).toNat ≤ 15) && decide ((s.iss.ctx.tok (trigT s src).toNat).st = .pending))]
      [trapIf (decide (15 < (trigT s src).toNat)) 0x0A (trigT s src),
        trapIf (decide ((s.iss.ctx.tok (trigT s src).toNat).st = .idle)) 0x0C (trigT s src)] g src
      (fun _ u => flyNew u 1 6 (.s (s.iss.ctx.tok (trigT s src).toNat).val) 0 0) s := rfl

/-- A trigger of CT whose effect is one result lands it. -/
theorem ctResult {s : State} {i : Instr} {port : Nat} {blk chk : List Note} {g : BitVec 4} {src : BitVec 9} {v : Word}
    (hi : exec i s = trigger 6 port 1 1 true blk chk g src (fun _ u => flyNew u 1 6 (.s v) 0 0) s)
    (hb : firstNote blk = .quiet) (hc : firstNote chk = .quiet) :
    Completes s i 6 port 1 1 true g src fun c => landing s 1 6 (.s v) 0 c :=
  completes s i 6 port 1 1 (s.serial + 1) true blk chk g src _ _ hi hb hc (flyNew_charged_id s src 1 1 6 _ 0)

/-- Settles O26: the slot of `ct.wait`, and the notes of the two moves that only wait. -/
theorem waits : Obligations.Waits := by
  unfold Obligations.Waits
  intro s g src hq
  dsimp only
  have hob := owaitBlocks_iff s.iss.ctx (s.iss.ctx.portW 6 0) (trigT s src)
  refine ⟨fun pa hr hw hok hl => ctWait_begins hr hw hok hl, fun w hw hg hr => ctWait_blocks hw hg hr,
    fun w v hw hg => ctWait_lands hq hw hg, fun ha hold host => ?_, fun ha hb hr => ?_, fun ha hr => ?_, fun hT hst => ?_,
    fun hT hst hr => ?_, fun hT hst hr => ?_, fun hT hr => ?_⟩
  · refine ctResult (exec_ctOwait s g src) ?_ ?_
    · rw [firstNote_blockIf, if_neg (fun h => (hob.1 h).2.elim hold host)]
      rfl
    · rw [firstNote_trapIf, decide_eq_false (Nat.not_lt.2 ha)]
      rfl
  · refine blocks s _ 6 6 1 1 _ _ _ g src _ (exec_ctOwait s g src) hr ?_
    rw [List.cons_append, firstNote_blockIf, if_pos (hob.2 ⟨ha, hb⟩)]
  · refine traps s _ 6 6 1 1 _ _ _ g src _ 5 0x0A _ (exec_ctOwait s g src) hr ?_
    rw [List.cons_append, firstNote_blockIf, if_neg (fun h => Nat.not_lt.2 (hob.1 h).1 ha), List.nil_append,
      firstNote_trapIf, decide_eq_true ha]
    rfl
  · refine ctResult (exec_ctTwait s g src) ?_ ?_
    · simp [hst, blockIf, firstNote]
    · simp [hst, trapIf, firstNote, Nat.not_lt.2 hT]
  · refine blocks s _ 6 7 1 1 _ _ _ g src _ (exec_ctTwait s g src) hr ?_
    simp [hst, hT, blockIf, firstNote]
  · refine traps s _ 6 7 1 1 _ _ _ g src _ 5 0x0C _ (exec_ctTwait s g src) hr ?_
    simp [hst, blockIf, trapIf, firstNote, Nat.not_lt.2 hT]
  · refine traps s _ 6 7 1 1 _ _ _ g src _ 5 0x0A _ (exec_ctTwait s g src) hr ?_
    simp [hT, blockIf, trapIf, firstNote, Nat.not_le.2 hT]

end Sys2Proof.Machine
end

section
/-!
PROOFS. The barriers of the unit CT (O27).
-/

namespace Sys2Proof.Machine

/-! ## What refuses a barrier operand (R402, R407, R408) -/

theorem firstNote_barrierNotes (s : State) (T : Word) (need : Bool) (l : List Note) :
    firstNote (barrierNotes s T need ++ l) = if 127 < T.toNat then .trap 5 0x0A T
      else if s.iss.ctx.bmask.getLsbD T.toNat = false then .trap 5 0x12 T
      else if need = true ∧ (s.iss.core.bar T.toNat).cfg = false then .trap 5 0x13 T else firstNote l := by
  simp only [barrierNotes, List.cons_append, List.nil_append, firstNote_trapIf, Bool.and_eq_true, Bool.not_eq_true',
    decide_eq_true_eq]

/-- A configuration that names a scope, local arrivals and participants of it (R396). -/
def ConfOk (c : BitVec 58) : Prop := cfScope c < 6 ∧ 0 < cfLcnt c ∧ 0 < cfNpart c ∧
  cfNpart c ≤ [1, 1, 4, 256, 1024, 1024][cfScope c]?.getD 0

theorem cfBad_iff (c : BitVec 58) : cfBad c = true ↔ ¬ConfOk c := by
  have hmax (n : Nat) (h : n < 6) : [1, 1, 4, 256, 1024, 1024][n]?.getD 0 = maxPart n := by
    interval_cases n <;> rfl
  unfold ConfOk cfBad
  simp only [Bool.or_eq_true, decide_eq_true_eq]
  by_cases h6 : cfScope c < 6
  · rw [hmax _ h6]
    omega
  · omega

/-! ## The moves -/

/-- What an arrival reports: the phase q, where it is the last local arrival of it. -/
def arrived (s : State) (T : Nat) (b : Barrier) (c : Ctx) : Ctx :=
  if (b.arrc + 1).toNat / cfLcnt b.conf < b.reported + 1 then c
  else { c with reports := c.reports ++
    [⟨T, b.conf, w64 (b.reported + 1), openIds s s.iss.n c ++ c.creqs.map (·.id)⟩] }

/-- An arrival at the barrier b under the number T. -/
def arriveEffect (T : Nat) (b : Barrier) (s : State) : State :=
  let u := s.updCore (coreOf s.iss.n) fun k => k.setBar T { b with arrc := b.arrc + 1 }
  flyNew (if b.reported + 1 ≤ ({ b with arrc := b.arrc + 1 } : Barrier).reported then
      u.updCtx s.iss.n fun c => { c with reports := c.reports ++
        [⟨T, b.conf, w64 (b.reported + 1),
          openIds u s.iss.n (u.ctx s.iss.n) ++ (u.ctx s.iss.n).creqs.map (·.id)⟩] }
    else u) 1 6 (.s (w64 (b.reported + 1))) 0 0

theorem exec_ctArv (s : State) (g : BitVec 4) (src : BitVec 9) : exec (.ctArv g src) s =
    trigger 6 8 1 1 true
      [blockIf (decide ((trigT s src).toNat ≤ 127) && (s.iss.core.bar (trigT s src).toNat).cfg &&
        decide ((s.iss.core.bar (trigT s src).toNat).phase.toNat + 3 ≤
          (s.iss.core.bar (trigT s src).toNat).reported + 1))]
      (barrierNotes s (trigT s src) true) g src
      (fun _ => arriveEffect (trigT s src).toNat (s.iss.core.bar (trigT s src).toNat)) s := rfl

theorem exec_ctBwt (s : State) (g : BitVec 4) (src : BitVec 9) : exec (.ctBwt g src) s =
    trigger 6 9 1 1 true
      [blockIf (decide ((trigT s src).toNat ≤ 127) && (s.iss.core.bar (trigT s src).toNat).cfg &&
        decide ((s.iss.core.bar (trigT s src).toNat).phase.toNat < (s.iss.ctx.portW 6 0).toNat))]
      (barrierNotes s (trigT s src) true) g src
      (fun _ u => flyNew u 1 6 (.s (s.iss.core.bar (trigT s src).toNat).phase) 0 0) s := rfl

theorem exec_ctBcfg (s : State) (g : BitVec 4) (src : BitVec 9) : exec (.ctBcfg g src) s =
    trigger 6 10 1 1 false []
      (barrierNotes s (trigT s src) false ++ [trapIf (cfBad ((s.iss.ctx.portW 6 0).setWidth 58)) 0x0A (s.iss.ctx.portW 6 0),
        trapIf ((s.iss.core.bar (trigT s src).toNat).cfg && decide ((s.iss.core.bar (trigT s src).toNat).phase.toNat <
          (s.iss.core.bar (trigT s src).toNat).reported)) 0x14 (trigT s src)]) g src
      (fun v u => u.updCore (coreOf u.iss.n) fun k => k.setBar v.word.toNat ⟨true, (s.iss.ctx.portW 6 0).setWidth 58, 0, 0⟩)
      s := rfl

/-- What is open does not depend on the barriers of a core. -/
theorem openIds_setBar (s : State) (k T : Nat) (b : Barrier) (n : Nat) (c : Ctx) :
    openIds (s.updCore k fun x => x.setBar T b) n c = openIds s n c := by
  have hm : ((s.updCore k fun x => x.setBar T b).core (coreOf n)).matrix = (s.core (coreOf n)).matrix := by
    by_cases hk : coreOf n = k
    · rw [hk, State.core_updCore]
      rfl
    · rw [State.core_updCore_other _ _ _ _ hk]
  unfold openIds
  rw [hm]

/-- An arrival changes its barrier, lands its phase and may report it. -/
theorem arriveEffect_charged (s : State) (src : BitVec 9) (T : Nat) (b : Barrier) :
    arriveEffect T b (charge (consume s src) 1) =
      (((charge (consume s src) 1).ser (s.serial + 1)).updCtx s.iss.n
        fun c => landing s 1 6 (.s (w64 (b.reported + 1))) 0 (arrived s T b c)).updCore (coreOf s.iss.n)
        fun k => k.setBar T { b with arrc := b.arrc + 1 } := by
  have hids (c : Ctx) : openIds (charge (consume s src) 1) s.iss.n c = openIds s s.iss.n c :=
    openIds_charged s src 1 (charge (consume s src) 1).serial s.iss.n c
  have hfly (u : State) (q : Core → Core) (v : Val) : flyNew (u.updCore (coreOf s.iss.n) q) 1 6 v 0 0 =
    (flyNew u 1 6 v 0 0).updCore (coreOf s.iss.n) q := rfl
  unfold arriveEffect
  dsimp only
  rw [charged_n, openIds_setBar, State.ctx_updCore, ctx_charged, hids]
  by_cases h : (b.arrc + 1).toNat / cfLcnt b.conf < b.reported + 1
  · rw [if_neg (show ¬b.reported + 1 ≤ ({ b with arrc := b.arrc + 1 } : Barrier).reported from Nat.not_le.2 h)]
    rw [hfly, flyNew_charged_id]
    refine congrArg (fun u : State => u.updCore (coreOf s.iss.n) _) (State.updCtx_congr _ _ _ _ (congrArg _ ?_))
    have hctx : ((charge (consume s src) 1).ser (s.serial + 1)).ctx s.iss.n = sourced s src := ctx_charged s src 1
    rw [hctx]
    exact (if_pos h).symm
  · rw [if_pos (show b.reported + 1 ≤ ({ b with arrc := b.arrc + 1 } : Barrier).reported from Nat.not_lt.1 h)]
    rw [updCore_updCtx, hfly, ← flyNew_charged, onCtx, charged_n]
    refine congrArg (fun u : State => (flyNew u 1 6 _ 0 0).updCore (coreOf s.iss.n) _) (State.updCtx_congr _ _ _ _ ?_)
    rw [ctx_charged]
    exact (if_neg h).symm

/-- Settles O27: the notes of the three moves, and what the two that change their barrier leave of it. -/
theorem barrierUnit : Obligations.BarrierUnit := by
  unfold Obligations.BarrierUnit
  intro s g src
  dsimp only
  have harv := exec_ctArv s g src
  have hbwt := exec_ctBwt s g src
  have hbcfg := exec_ctBcfg s g src
  have hnotes := firstNote_barrierNotes s (trigT s src)
  have heff := arriveEffect_charged s src (trigT s src).toNat (s.iss.core.bar (trigT s src).toNat)
  have hset : (readCode s src).word = trigT s src := rfl
  have hbad := cfBad_iff ((s.iss.ctx.portW 6 0).setWidth 58)
  rw [show (s.iss.core.bar (trigT s src).toNat).arrc.toNat / cfLcnt (s.iss.core.bar (trigT s src).toNat).conf =
    (s.iss.core.bar (trigT s src).toNat).reported from rfl]
  generalize trigT s src = T at *
  generalize s.iss.core.bar T.toNat = b at *
  generalize s.iss.ctx.portW 6 0 = a at *
  have hpass (need : Bool) (l : List Note) (hT : T.toNat ≤ 127) (hm : s.iss.ctx.bmask.getLsbD T.toNat = true)
      (hc : need = true → b.cfg = true) : firstNote (barrierNotes s T need ++ l) = firstNote l := by
    rw [hnotes, if_neg (Nat.not_lt.2 hT), if_neg (by simp [hm]), if_neg (fun h => by simp [hc h.1] at h)]
  have hout (need : Bool) (l : List Note) (hT : 127 < T.toNat) :
      firstNote (barrierNotes s T need ++ l) = .trap 5 0x0A T := (hnotes need l).trans (if_pos hT)
  have hother (need : Bool) (l : List Note) (hT : T.toNat ≤ 127) (hm : ¬s.iss.ctx.bmask.getLsbD T.toNat = true) :
      firstNote (barrierNotes s T need ++ l) = .trap 5 0x12 T := by
    rw [hnotes, if_neg (Nat.not_lt.2 hT), if_pos (Bool.eq_false_of_not_eq_true hm)]
  have hnone (l : List Note) (hT : T.toNat ≤ 127) (hm : s.iss.ctx.bmask.getLsbD T.toNat = true) (hc : b.cfg = false) :
      firstNote (barrierNotes s T true ++ l) = .trap 5 0x13 T := by
    rw [hnotes, if_neg (Nat.not_lt.2 hT), if_neg (by simp [hm]), if_pos ⟨rfl, hc⟩]
  have hfree (c : Bool) (l : List Note) (h : c = false) : firstNote ([blockIf c] ++ l) = firstNote l := by
    rw [h]
    rfl
  refine ⟨fun hT hm hc hq => ?_, fun hT hc hq hr => ?_, fun hT hm hc hq => ?_, fun hT hc hq hr => ?_,
    fun hT hm hok hrun => ?_, fun hT hm hno hr => ?_, fun hT hm hok hc hrun hr => ?_, fun hr => ⟨fun hT => ?_, fun hT hm h => ?_⟩,
    fun hr => ⟨fun hT => ?_, fun hT hm h => ?_⟩, fun hr => ⟨fun hT => ?_, fun hT hm _ => ?_⟩,
    fun hT hm hc => ⟨fun hr => ?_, fun hr => ?_⟩⟩
  · refine completesCore s _ 6 8 1 1 (s.serial + 1) _ _ _ g src _
      (fun c => landing s 1 6 (.s (w64 (b.reported + 1))) 0 (arrived s T.toNat b c)) _ harv ?_ ?_ heff
    · exact hfree _ [] (by simp [Nat.not_le.2 hq])
    · simpa [firstNote] using hpass true [] hT hm fun _ => hc
  · exact blocks s _ 6 8 1 1 _ _ _ g src _ harv hr (by simp [hT, hc, hq, blockIf, firstNote])
  · refine completes s _ 6 9 1 1 (s.serial + 1) _ _ _ g src _ (landing s 1 6 (.s b.phase) 0) hbwt ?_ ?_
      (flyNew_charged_id s src 1 1 6 _ 0)
    · exact hfree _ [] (by simp [Nat.not_lt.2 hq])
    · simpa [firstNote] using hpass true [] hT hm fun _ => hc
  · exact blocks s _ 6 9 1 1 _ _ _ g src _ hbwt hr (by simp [hT, hc, hq, blockIf, firstNote])
  · refine completesCore_alone s _ 6 10 1 1 _ _ _ g src _ _ hbcfg rfl ?_ ?_
    · have hrun' : (b.cfg && decide (b.phase.toNat < b.reported)) = false := by
        cases hc : b.cfg with
        | false => rfl
        | true => simpa using hrun hc
      rw [hpass false _ hT hm (by simp), firstNote_trapIf, if_neg (fun h => hbad.1 h hok), firstNote_trapIf, hrun']
      rfl
    · rw [charged_n, hset]
  · refine traps s _ 6 10 1 1 _ _ _ g src _ 5 0x0A _ hbcfg hr ?_
    rw [List.nil_append, hpass false _ hT hm (by simp), firstNote_trapIf, if_pos (hbad.2 hno)]
  · refine traps s _ 6 10 1 1 _ _ _ g src _ 5 0x14 _ hbcfg hr ?_
    rw [List.nil_append, hpass false _ hT hm (by simp), firstNote_trapIf, if_neg (fun h => hbad.1 h hok), firstNote_trapIf,
      hc, decide_eq_true hrun]
    rfl
  · exact traps s _ 6 8 1 1 _ _ _ g src _ 5 0x0A _ harv hr
      ((hfree _ _ (by simp [Nat.not_le.2 hT])).trans (by simpa using hout true [] hT))
  · refine traps s _ 6 8 1 1 _ _ _ g src _ 5 0x12 _ harv hr
      ((hfree _ _ ?_).trans (by simpa using hother true [] hT hm))
    rcases h with h | ⟨h, -⟩ | h
    · simp [h]
    · simp [Nat.not_le.2 h]
    · cases h
  · exact traps s _ 6 9 1 1 _ _ _ g src _ 5 0x0A _ hbwt hr
      ((hfree _ _ (by simp [Nat.not_le.2 hT])).trans (by simpa using hout true [] hT))
  · refine traps s _ 6 9 1 1 _ _ _ g src _ 5 0x12 _ hbwt hr
      ((hfree _ _ ?_).trans (by simpa using hother true [] hT hm))
    rcases h with h | ⟨-, h⟩ | h
    · simp [h]
    · simp [Nat.not_lt.2 h]
    · cases h
  · exact traps s _ 6 10 1 1 _ _ _ g src _ 5 0x0A _ hbcfg hr (hout false _ hT)
  · exact traps s _ 6 10 1 1 _ _ _ g src _ 5 0x12 _ hbcfg hr (hother false _ hT hm)
  · exact traps s _ 6 8 1 1 _ _ _ g src _ 5 0x13 _ harv hr
      ((hfree _ _ (by simp [hc])).trans (by simpa using hnone [] hT hm hc))
  · exact traps s _ 6 9 1 1 _ _ _ g src _ 5 0x13 _ hbwt hr
      ((hfree _ _ (by simp [hc])).trans (by simpa using hnone [] hT hm hc))

end Sys2Proof.Machine
end

section
/-!
PROOFS. The go moves of CE, GE, WE, RS and NP (O40).
-/

namespace Sys2Proof.Machine

/-! ## Checks that meet nothing (R265-R268) -/

/-- No note of the list is loud. -/
def Silent (l : List Note) : Prop := ∀ x ∈ l, x = .quiet

theorem silent_append {l m : List Note} (hl : Silent l) (hm : Silent m) : Silent (l ++ m) :=
  List.forall_mem_append.2 ⟨hl, hm⟩

theorem silent_nil : Silent [] := fun _ h => absurd h List.not_mem_nil

theorem silent_cons {x : Note} {l : List Note} (hx : x = .quiet) (hl : Silent l) : Silent (x :: l) :=
  List.forall_mem_cons.2 ⟨hx, hl⟩

theorem trapIf_quiet {b : Bool} {code : Nat} {v : Word} (h : b = false) : trapIf b code v = .quiet := by
  rw [h]
  rfl

/-- A go word with a scope, a free token and no reserved bit (R264, R266). -/
def GoOk (s : State) (w : Word) : Prop := w.toNat % 8 < 6 ∧ TokenFree s (goTok w) ∧ w.getLsbD 63 = false

theorem goNotes_silent {s : State} {t : Word} (h : GoOk s t) : Silent (goNotes s t) := by
  obtain ⟨hs, ht, hr⟩ := h
  have hfree : ((goTok t).any fun k => decide ((s.iss.ctx.tok k).st = .pending)) = false := by
    cases hk : goTok t with
    | none => rfl
    | some k => simpa using ht k hk
  have hscope : fld t 0 3 < 6 := (fld_zero t 3).trans_lt hs
  exact silent_cons (trapIf_quiet (decide_eq_false (Nat.not_le.2 hscope)))
    (silent_cons (trapIf_quiet hfree) (silent_cons (trapIf_quiet hr) silent_nil))

/-- What the checks of R266 and R267 ask of an endpoint, of its least slot and of the range that is taken there. -/
structure EndpointFit (c : Ctx) (a : Word) (lo : Int) (n slot : Nat) : Prop where
  phys : ek a = 4 → c.ctl.priv = true
  cb : ek a = 2 → (c.cb (fld a 0 4)).cfg = true ∧ slot ≤ 256 * (c.cb (fld a 0 4)).rps
  sk : ek a = 3 → (c.sk (fld a 56 3)).cfg = true
  range : epOut c a lo n = none

theorem EndpointFit.of_ok {s : State} {a : Word} {ks : List Nat} {lo : Int} {n slot : Nat}
    (h : EndpointOk s a ks lo n slot) : EndpointFit s.iss.ctx a lo n slot := by
  obtain ⟨-, h⟩ := h
  refine ⟨fun e => ?_, fun e => ?_, fun e => ?_, ?_⟩
  · rwa [e] at h
  · rw [e] at h
    rwa [fld_zero]
  · rw [e] at h
    rwa [fld_eq]
  · unfold epOut
    split
    · next e => rwa [e] at h
    · rfl

/-- An endpoint that is no buffer fits whatever slot is asked for. -/
theorem EndpointFit.slot {c : Ctx} {a : Word} {lo : Int} {n k : Nat} (h : EndpointFit c a lo n k) (ha : ek a ≠ 2) (m : Nat) :
    EndpointFit c a lo n m := ⟨h.phys, fun e => absurd e ha, h.sk, h.range⟩

theorem epMode_quiet {s : State} {a : Word} {ks : List Nat} {lo : Int} {n slot : Nat}
    (h : EndpointOk s a ks lo n slot) : epMode a ks = .quiet := trapIf_quiet h.1

/-- The kinds that a checked endpoint may have. -/
theorem ek_mem_of_ok {s : State} {a : Word} {ks : List Nat} {lo : Int} {n slot : Nat}
    (h : EndpointOk s a ks lo n slot) : ek a ∈ ks := by
  have hbad := h.1
  simp only [epBad, Bool.or_eq_false_iff, Bool.not_eq_false', List.contains_iff_mem] at hbad
  exact hbad.1.1

/-- Endpoints that fit meet nothing. -/
theorem epNotes_silent {c : Ctx} {eps : List (Word × Int × Nat)} {need : Nat} {more : List (Option Flt)}
    (h : ∀ e ∈ eps, EndpointFit c e.1 e.2.1 e.2.2 need) (hm : ∀ f ∈ more, f = none) : Silent (epNotes c eps need more) := by
  have hpriv : eps.find? (fun e => ek e.1 = 4 && !c.ctl.priv) = none :=
    List.find?_eq_none.2 fun e he => by simpa using (h e he).phys
  have hbound : eps.find? (fun e =>
      (ek e.1 = 2 && !(c.cb (fld e.1 0 4)).cfg) || (ek e.1 = 3 && !(c.sk (fld e.1 56 3)).cfg)) = none :=
    List.find?_eq_none.2 fun e he => by simpa using ⟨fun hk => ((h e he).cb hk).1, (h e he).sk⟩
  have hslot : eps.find? (fun e => ek e.1 = 2 && decide (256 * (c.cb (fld e.1 0 4)).rps < need)) = none :=
    List.find?_eq_none.2 fun e he => by simpa using fun hk => ((h e he).cb hk).2
  have hrange : (more ++ eps.map fun e => epOut c e.1 e.2.1 e.2.2).filterMap id = [] := by
    rw [List.filterMap_eq_nil_iff]
    intro f hf
    rcases List.mem_append.1 hf with hf | hf
    · exact hm f hf
    · obtain ⟨e, he, rfl⟩ := List.mem_map.1 hf
      exact (h e he).range
  unfold epNotes
  rw [hpriv, hbound, hslot, lowestFlt, hrange]
  exact silent_cons rfl (silent_cons rfl (silent_cons rfl (silent_cons rfl silent_nil)))

/-- A range inside the arena meets nothing. -/
theorem arenaOut_of_le {c : Ctx} {off n : Nat} (h : off + n ≤ arenaBytes c) : arenaOut c off n = none :=
  if_neg (Nat.not_lt.2 h)

/-! ## What a go move enters, and what follows (R264, R265) -/

/-- A go move to an open queue whose checks are quiet enters its command; then comes what `act` does to its context. -/
theorem goMove_entersThen {s : State} {i : Instr} {fu port : Nat} {chk : List Note} {tok : Option Nat} {g : BitVec 4}
    {src : BitVec 9} {fix : Val → Cmd → Cmd} {act : State → State} {more : Nat → Ctx → Ctx} {q : Cmd}
    (hi : exec i s = goMove fu port [] chk tok fix (fun _ => act) g src s) (hb : Then s act more) (hc : Silent chk)
    (hq : q = fixedCmd s src fu port fix) (hfu : q.fu = fu) (hport : q.port = port) :
    Enters s i g src tok q (more 1) := by
  intro ho
  rw [hfu] at ho
  rw [hfu, hport, hq]
  obtain ⟨k, hk⟩ := hb.act_updCtx ((charge (consume s src) 2).ser (s.serial + 1))
    (fun c => c.enter (fixedCmd s src fu port fix) tok) 1 (charged_n s src 2) rfl (ctl_entered _)
  refine completes s i fu port 1 2 k true _ chk g src _ _ (hi.trans (goMove_eq ..)) ?_ (firstNote_of_quiet _ hc)
    ((enterGo_eq s src fu port tok fix (fun _ => act)).trans hk)
  rw [queueFull_of_open ho]
  rfl

/-- The same of a go move that would record a seam mark, where nothing is recorded. -/
theorem seamTrigger_entersThen {s : State} {i : Instr} {fu port : Nat} {chk : List Note} {tok : Option Nat} {g : BitVec 4}
    {src : BitVec 9} {fix : Val → Cmd → Cmd} {act : State → State} {more : Nat → Ctx → Ctx} {q : Cmd}
    (hrec : recOn s = false) (hi : exec i s = seamTrigger fu port chk tok fix act g src s) (hb : Then s act more)
    (hc : Silent chk) (hq : q = fixedCmd s src fu port fix) (hfu : q.fu = fu) (hport : q.port = port) :
    Enters s i g src tok q (more 1) := by
  intro ho
  rw [hfu] at ho
  rw [hfu, hport, hq]
  exact seamTrigger_enters hrec hi ho hb (firstNote_of_quiet _ hc)

theorem prefix_two {α : Type} (l m n : List α) : l <+: l ++ m ++ n :=
  (List.prefix_append l m).trans (List.prefix_append ..)

/-- What the common checks of a go word refuse, in their order (R264, R266, R395). -/
structure GoWordMet (s : State) (i : Instr) (fu port : Nat) (g : BitVec 4) (src : BitVec 9) (w : Word) : Prop where
  full : Ready s fu port true g src → ¬QueueOpen s fu → Blocks s i
  scope : Ready s fu port true g src → QueueOpen s fu → 6 ≤ w.toNat % 8 → Traps s i 0x09 (w64 (w.toNat % 8))
  token : Ready s fu port true g src → QueueOpen s fu → ∀ k, w.toNat % 8 < 6 → goTok w = some k →
    (s.iss.ctx.tok k).st = .pending → Traps s i 0x0B (w64 k)
  reserved : Ready s fu port true g src → QueueOpen s fu → w.toNat % 8 < 6 → TokenFree s (goTok w) →
    w.getLsbD 63 = true → Traps s i 0x0A w

theorem queueFull_of_not_open {s : State} {fu : Nat} (h : ¬QueueOpen s fu) : queueFull s.iss.ctx fu = true := by
  unfold QueueOpen at h
  unfold queueFull
  by_cases hl : (s.iss.ctx.queue fu).length < 16
  · have hf : KMap.get false s.iss.ctx.qfence fu = true := Bool.of_not_eq_false fun hf => h ⟨hl, hf⟩
    rw [hf, Bool.or_true]
  · rw [decide_eq_true (Nat.not_lt.1 hl), Bool.true_or]

theorem firstNote_goNotes (s : State) (w : Word) (l : List Note) : firstNote (goNotes s w ++ l) =
    if 6 ≤ w.toNat % 8 then .trap 5 0x09 (w64 (w.toNat % 8))
    else if ((goTok w).any fun k => decide ((s.iss.ctx.tok k).st = .pending)) = true then .trap 5 0x0B (w64 (fld w 56 4))
    else if w.getLsbD 63 = true then .trap 5 0x0A w else firstNote l := by
  rw [goNotes, List.cons_append, List.cons_append, List.cons_append, List.nil_append, fld_zero w 3, show 2 ^ 3 = 8 from rfl]
  simp only [firstNote_trapIf, decide_eq_true_eq]

theorem goTok_eq_some {w : Word} {k : Nat} (h : goTok w = some k) : fld w 56 4 = k := by
  unfold goTok at h
  split at h
  · cases h
  · exact Option.some.inj h

theorem goMove_met {s : State} {i : Instr} {fu port : Nat} {blk chk : List Note} {tok : Option Nat} {g : BitVec 4}
    {src : BitVec 9} {fix : Val → Cmd → Cmd} {eff : Val → State → State} {w : Word}
    (hi : exec i s = goMove fu port blk chk tok fix eff g src s) (hblk : firstNote blk = .quiet)
    (hchk : goNotes s w <+: chk) : GoWordMet s i fu port g src w := by
  obtain ⟨rest, rfl⟩ := hchk
  unfold goMove at hi
  have trap {code : Nat} {v : Word} (hr : Ready s fu port true g src) (ho : QueueOpen s fu)
      (hn : firstNote (goNotes s w ++ rest) = .trap 5 code v) : Traps s i code v := by
    refine traps s i fu port 1 2 true _ _ g src _ 5 code v hi hr ?_
    rw [queueFull_of_open ho, List.append_assoc, firstNote_append _ _ (by rfl), firstNote_append _ _ hblk]
    exact hn
  refine ⟨fun hr ho => blocks s i fu port 1 2 true _ _ g src _ hi hr ?_, fun hr ho hs => trap hr ho ?_,
    fun hr ho k hs hk hp => trap hr ho ?_, fun hr ho hs ht hw => trap hr ho ?_⟩
  · rw [queueFull_of_not_open ho]
    rfl
  · rw [firstNote_goNotes, if_pos hs]
  · rw [firstNote_goNotes, if_neg (Nat.not_le.2 hs), hk, if_pos (by simpa using hp)]
    rw [goTok_eq_some hk]
  · rw [firstNote_goNotes, if_neg (Nat.not_le.2 hs), if_neg (by simpa [Option.any_eq_true, TokenFree] using ht), if_pos hw]

/-- The same of a go move that would record a seam mark, where nothing is recorded. -/
theorem seamTrigger_met {s : State} {i : Instr} {fu port : Nat} {chk : List Note} {tok : Option Nat} {g : BitVec 4}
    {src : BitVec 9} {fix : Val → Cmd → Cmd} {act : State → State} {w : Word} (hrec : recOn s = false)
    (hi : exec i s = seamTrigger fu port chk tok fix act g src s) (hchk : goNotes s w <+: chk) :
    GoWordMet s i fu port g src w :=
  goMove_met hi (firstNote_recHold_of_off s _ hrec) (hchk.trans (List.prefix_append ..))

/-! ## The moves -/

section
variable {s : State} {g : BitVec 4} {src : BitVec 9}

theorem arenaOut_record {c : Ctx} {a : Word} {n : Nat} (h : a.toNat % 2 ^ 23 + n ≤ arenaBytes c) :
    arenaOut c (fld a 0 23) n = none := arenaOut_of_le (by rwa [fld_zero])

theorem ceRange_quiet {a2 a3 : Word} {w : List Word} (hpm : cePM a3 ≠ 3) (h2 : a2.toNat % 256 = 0)
    (hd : ∀ d ∈ dimsOf w, d.cnt ≠ 0 ∧ (cePM a3 = 0 → d.lo = 0 ∧ d.hi = 0)) : ceRange a2 a3 w true = .quiet := by
  have hbad : (dimsOf w).findIdx? (fun d => decide (d.cnt = 0 ∨ cePM a3 = 0 ∧ (d.lo ≠ 0 ∨ d.hi ≠ 0))) = none := by
    rw [List.findIdx?_eq_none_iff]
    intro d hd'
    obtain ⟨hc, hp⟩ := hd d hd'
    exact decide_eq_false (by tauto)
  have h8 : ¬fld a2 0 8 ≠ 0 := not_not.2 ((fld_zero a2 8).trans h2)
  rw [ceRange, if_neg hpm, if_neg h8]
  dsimp only
  rw [if_pos rfl, hbad]

/-- The record that a go move's bundle reads from the arena of its core (R269). -/
def recordRead (s : State) (a : Word) : Ctx → Ctx :=
  addAccs [oneAcc (s.serial + 1) 3 0 (rowSegs s s.iss.n [(a.toNat % 2 ^ 23, 256)]) 0 .mat false false]

theorem then_readsRecord (s : State) (a : Word) : Then s (readsNow · [(fld a 0 23, 256)]) fun d =>
    addAccs [oneAcc (s.serial + d) 3 0 (rowSegs s s.iss.n [(a.toNat % 2 ^ 23, 256)]) 0 .mat false false] := by
  rw [fld_zero]
  exact then_reads s _

theorem ceGo_enters : let q := goCmd s src 16 4
    let x := ceExtent (dimsOf (shapeAt s q.a2)) q.a3
    GoOk s (trigT s src) → q.a2.toNat % 256 = 0 → q.a2.toNat % 2 ^ 23 + 256 ≤ arenaBytes s.iss.ctx → cePM q.a3 ≠ 3 →
    (∀ d ∈ dimsOf (shapeAt s q.a2), d.cnt ≠ 0 ∧ (cePM q.a3 = 0 → d.lo = 0 ∧ d.hi = 0)) → q.a3.toNat % 16 ≤ 8 →
    q.a3.toNat / 16 % 16 ≤ 8 → EndpointOk s q.a0 [0, 1, 4] x.1.1 x.1.2 0 →
    EndpointOk s q.a1 [0, 1, 2, 3, 4] x.2.1 x.2.2 0 →
    Enters s (.ceGo g src) g src (goTok q.go) { q with shape := shapeAt s q.a2 } (recordRead s q.a2) := by
  intro q x hg h2 ha hpm hd hsf hdf h0 h1
  have hin : arenaOut s.iss.ctx (fld q.a2 0 23) 256 = none := arenaOut_record ha
  have hex : exec (.ceGo g src) s = execCeGo g src s := rfl
  rw [execCeGo] at hex
  rw [show s.iss.ctx.portW 16 2 = q.a2 from rfl, hin] at hex
  refine goMove_entersThen hex (then_readsRecord s q.a2) ?_ rfl rfl rfl
  refine silent_append (silent_append (goNotes_silent hg) (silent_cons (epMode_quiet h0) (silent_cons (epMode_quiet h1)
    (silent_cons (ceRange_quiet hpm h2 hd) (silent_cons (trapIf_quiet ?_) (silent_cons (trapIf_quiet ?_) silent_nil))))))
    (epNotes_silent ?_ ?_)
  · exact decide_eq_false (Nat.not_lt.2 ((fld_zero _ _).trans_le hsf))
  · exact decide_eq_false (Nat.not_lt.2 ((fld_eq _ _ _).trans_le hdf))
  · exact List.forall_mem_cons.2 ⟨.of_ok h0, List.forall_mem_singleton.2 (.of_ok h1)⟩
  · exact List.forall_mem_singleton.2 rfl

theorem ceCmp_enters : let q := goCmd s src 16 5
    let n := q.a2.toNat % 2 ^ 40
    GoOk s (trigT s src) → n ≠ 0 → EndpointOk s q.a0 [0, 1, 4] 0 n 0 → EndpointOk s q.a1 [0, 1, 4] 0 n 0 →
    Enters s (.ceCmp g src) g src (goTok q.go) q id := by
  intro q n hg hn h0 h1
  have hlen : fld (s.iss.ctx.portW 16 2) 0 40 = n := fld_zero _ _
  refine goMove_entersThen (exec_ceCmp s g src) (then_nothing s) ?_ rfl rfl rfl
  rw [ceCmpChecks, hlen]
  refine silent_append (silent_append (goNotes_silent hg) (silent_cons (epMode_quiet h0) (silent_cons (epMode_quiet h1)
    (silent_cons (trapIf_quiet (decide_eq_false hn)) silent_nil)))) (epNotes_silent ?_ fun _ h => absurd h List.not_mem_nil)
  exact List.forall_mem_cons.2 ⟨.of_ok h0, List.forall_mem_singleton.2 (.of_ok h1)⟩

/-- The index width of `ge.go` (R272). -/
theorem geIW_eq (a3 : Word) : geIW a3 = if a3.getLsbD 44 then 8 else 4 := by
  have hbit : fld a3 44 1 = (a3.getLsbD 44).toNat := by
    rw [fld_eq, BitVec.getLsbD, Nat.toNat_testBit, pow_one]
  rw [geIW, hbit]
  cases a3.getLsbD 44 <;> rfl

theorem geGo_enters : let q := goCmd s src 17 4
    let rb := q.a3.toNat % 2 ^ 20
    let n := q.a3.toNat / 2 ^ 20 % 2 ^ 24
    GoOk s (trigT s src) → rb ≠ 0 → rb ≤ 65536 → rb % 4 = 0 → n ≠ 0 →
    EndpointOk s q.a0 [1] 0 (n * if q.a3.getLsbD 44 then 8 else 4) 0 → EndpointOk s q.a1 [0, 1, 2, 3, 4] 0 (rb * n) 0 →
    EndpointOk s q.a2 [0, 1, 4] 0 0 0 → Enters s (.geGo g src) g src (goTok q.go) q id := by
  intro q rb n hg hrb hrb1 hrb4 hn h0 h1 h2
  have hex : exec (.geGo g src) s = execGeGo g src s := rfl
  rw [execGeGo] at hex
  have erb : geRB q.a3 = rb := fld_zero _ _
  have en : geN q.a3 = n := fld_eq _ _ _
  rw [show s.iss.ctx.portW 17 3 = q.a3 from rfl, erb, en, geIW_eq] at hex
  refine goMove_entersThen hex (then_nothing s) ?_ rfl rfl rfl
  refine silent_append (silent_append (goNotes_silent hg) (silent_cons (epMode_quiet h0) (silent_cons (epMode_quiet h1)
    (silent_cons (epMode_quiet h2) (silent_cons (trapIf_quiet (decide_eq_false (by omega))) silent_nil)))))
    (epNotes_silent ?_ fun _ h => absurd h List.not_mem_nil)
  exact List.forall_mem_cons.2 ⟨.of_ok h0, List.forall_mem_cons.2 ⟨.of_ok h1, List.forall_mem_singleton.2 (.of_ok h2)⟩⟩

theorem geSkg_enters : let q := goCmd s src 17 5
    let k := s.iss.ctx.sk (q.a0.toNat % 8)
    let n := q.a2.toNat % 2 ^ 40
    let off := q.a3.toNat % 2 ^ 16
    let len := q.a3.toNat / 2 ^ 16 % 2 ^ 17
    GoOk s (trigT s src) → n ≠ 0 → len % 4 = 0 → k.cfg = true → off + len ≤ 2 ^ (k.shape.toNat % 16 + 6) →
    q.a0.toNat / 256 % 2 ^ 40 + n ≤ k.clen.toNat → EndpointOk s q.a1 [0, 1, 2, 3, 4] 0 (n * len) len →
    Enters s (.geSkg g src) g src (goTok q.go)
      { q with shape := [k.desc.setWidth 64, w64 (8 * 2 ^ (k.shape.toNat / 16 % 4))], bound := k.clen } id := by
  intro q k n off len hg hn hlen hk hslot hclen h1
  have hex : exec (.geSkg g src) s = execGeSkg g src s := rfl
  rw [execGeSkg] at hex
  have ek : s.iss.ctx.sk (fld q.a0 0 3) = k := congrArg s.iss.ctx.sk (fld_zero _ _)
  have en : skgN q.a2 = n := fld_zero _ _
  have eoff : skgOff q.a3 = off := fld_zero _ _
  have elen : skgLen q.a3 = len := fld_eq _ _ _
  have ef : skgF q.a0 = q.a0.toNat / 256 % 2 ^ 40 := fld_eq _ _ _
  have eslot : k.slot = 2 ^ (k.shape.toNat % 16 + 6) := rfl
  have eblk : k.blk = 8 * 2 ^ (k.shape.toNat / 16 % 4) := by
    rw [Sk.blk, bits, Nat.shiftRight_eq_div_pow]
    rfl
  rw [show s.iss.ctx.portW 17 0 = q.a0 from rfl, show s.iss.ctx.portW 17 2 = q.a2 from rfl,
    show s.iss.ctx.portW 17 3 = q.a3 from rfl, ek, en, eoff, elen, ef, eslot, eblk, hk] at hex
  have h1' : EndpointFit s.iss.ctx q.a1 0 (n * len) len := .of_ok h1
  have hep : Silent (epNotes s.iss.ctx [(q.a1, 0, n * len)] len []) :=
    epNotes_silent (List.forall_mem_singleton.2 h1') fun _ h => absurd h List.not_mem_nil
  refine goMove_entersThen hex (then_nothing s) ?_ rfl rfl rfl
  refine silent_append (silent_append (silent_append (goNotes_silent hg) (silent_cons (epMode_quiet h1)
    (silent_cons (trapIf_quiet (decide_eq_false hn)) (silent_cons (trapIf_quiet ?_)
    (silent_cons ?_ (silent_cons rfl silent_nil)))))) hep) (silent_cons (trapIf_quiet ?_) silent_nil)
  · simpa using ⟨hlen, hslot⟩
  · exact hep _ List.mem_cons_self
  · exact decide_eq_false (Nat.not_lt.2 hclen)

/-- The records of a span of patches that `we.go` reads from a vault (R266, R274). -/
def weRange (c : Ctx) : Nat × Nat :=
  match (if ek (c.portW 18 0) = 1 then
    weSpan (c.portW 18 2) (fld (c.portW 18 3) 0 32) (fld (c.portW 18 3) 32 32) else none) with
  | some (a, b) => (a, b - a + 33)
  | none => (0, 0)

theorem weRange_fits {c : Ctx} {n : Nat} (h : ∀ a b, weSpan (c.portW 18 2) (fld (c.portW 18 3) 0 32) (fld (c.portW 18 3) 32 32) =
      some (a, b) → EndpointFit c (c.portW 18 0) a (b - a + 33) n) (h0 : EndpointFit c (c.portW 18 0) 0 0 n) :
    EndpointFit c (c.portW 18 0) (weRange c).1 (weRange c).2 n := by
  unfold weRange
  split
  · next a b hab =>
    split at hab
    · exact h a b hab
    · cases hab
  · exact h0

theorem weGo_enters : let q := goCmd s src 18 4
    GoOk s (trigT s src) → 0 < weH q.a2 → 0 < weW q.a2 → 0 < weG q.a2 → 1 ≤ weOH q.a2 → 1 ≤ weOW q.a2 →
    2 ^ 32 ≤ q.a3.toNat →
    (∀ a b, weSpan q.a2 (q.a3.toNat % 2 ^ 32) (q.a3.toNat / 2 ^ 32) = some (a, b) →
      EndpointOk s q.a0 [0, 1, 4] a (b - a + 33) 0) →
    EndpointOk s q.a0 [0, 1, 4] 0 0 0 → EndpointOk s q.a1 [2] 0 0 1280 →
    Enters s (.weGo g src) g src (goTok q.go) q id := by
  intro q hg hh hw hgr hoh how hn hspan h0 h1
  have hex : exec (.weGo g src) s = execWeGo g src s := rfl
  rw [execWeGo] at hex
  have hcnt : fld q.a3 32 32 = q.a3.toNat / 2 ^ 32 := by
    rw [fld_eq]
    exact Nat.mod_eq_of_lt (by have := q.a3.isLt; omega)
  have hfit : EndpointFit s.iss.ctx q.a0 (weRange s.iss.ctx).1 (weRange s.iss.ctx).2 1280 := by
    have hk : ek q.a0 ≠ 2 := fun h => absurd (ek_mem_of_ok h0) (by rw [h]; decide)
    refine EndpointFit.slot (k := 0) (weRange_fits ?_ (.of_ok h0)) hk 1280
    intro a b h
    exact .of_ok (hspan a b (by rw [← fld_zero, ← hcnt]; exact h))
  have hdims : ¬(weH q.a2 = 0 ∨ weW q.a2 = 0 ∨ weG q.a2 = 0 ∨ weOH q.a2 < 1 ∨ weOW q.a2 < 1) := by omega
  have hsome : ¬fld q.a3 32 32 = 0 := by
    rw [hcnt]
    exact (Nat.div_pos hn (by decide)).ne'
  refine goMove_entersThen hex (then_nothing s) ?_ rfl rfl rfl
  refine silent_append (silent_append (goNotes_silent hg) (silent_cons (epMode_quiet h0) (silent_cons (epMode_quiet h1)
    (silent_cons (trapIf_quiet (decide_eq_false hdims)) (silent_cons (trapIf_quiet (decide_eq_false hsome)) silent_nil)))))
    (epNotes_silent ?_ fun _ h => absurd h List.not_mem_nil)
  exact List.forall_mem_cons.2 ⟨hfit, List.forall_mem_singleton.2 (.of_ok h1)⟩

/-- A layout pair that is read in bounds on a slot's boundary meets nothing (R361). -/
theorem pairNotes_silent {c : Ctx} {a : Word} (h8 : a.toNat % 256 = 0) (h : a.toNat % 2 ^ 23 + 256 ≤ arenaBytes c) :
    Silent (pairNotes c a) :=
  silent_cons (trapIf_quiet (decide_eq_false (not_not.2 ((fld_zero a 8).trans h8))))
    (silent_cons (by rw [arenaOut_record h]; rfl) silent_nil)

theorem rsGo_enters : let q := goCmd s src 19 4
    let w := pairAt s q.a0
    let ef := q.a3.toNat / 2 ^ 20 % 16
    let bytes (dst : Bool) : Nat := codeBytes ef * shardLen w dst s.iss.ctx.ctl.rank.toNat
    recOn s = false → GoOk s (trigT s src) → q.a0.toNat % 256 = 0 → q.a0.toNat % 2 ^ 23 + 256 ≤ arenaBytes s.iss.ctx →
    pairCode w s.iss.ctx.ctl.crewn.toNat ef = 0 → EndpointOk s q.a1 [0, 1] 0 (bytes false) 0 →
    EndpointOk s q.a2 [0, 1] 0 (bytes true) 0 →
    Enters s (.rsGo g src) g src (goTok q.go) { q with shape := w } (recordRead s q.a0) := by
  intro q w ef bytes hrec hg h8 ha hcode h1 h2
  have hw : pairWords s = w := by
    rw [pairWords, show s.iss.ctx.portW 19 0 = q.a0 from rfl, arenaOut_record ha]
    rfl
  have hex : exec (.rsGo g src) s = rsGoTrigger s g src w := (exec_rsGo s g src).trans (by rw [hw])
  have eef : fld (s.iss.ctx.portW 19 3) 20 4 = ef := fld_eq _ _ _
  refine seamTrigger_entersThen hrec hex (then_reads s _) ?_ rfl rfl rfl
  rw [rsGoChecks, eef]
  refine silent_append (silent_append (silent_append (silent_append (goNotes_silent hg) (silent_cons (epMode_quiet h1)
    (silent_cons (epMode_quiet h2) silent_nil))) (pairNotes_silent h8 ha))
    (silent_cons (trapIf_quiet (decide_eq_false (not_not.2 hcode))) silent_nil))
    (epNotes_silent ?_ fun _ h => absurd h List.not_mem_nil)
  exact List.forall_mem_cons.2 ⟨.of_ok h1, List.forall_mem_singleton.2 (.of_ok h2)⟩

theorem rsQry_enters : let q := goCmd s src 19 5
    GoOk s (trigT s src) → q.a0.toNat % 256 = 0 → q.a0.toNat % 2 ^ 23 + 256 ≤ arenaBytes s.iss.ctx →
    q.a2.toNat % 2 ^ 23 + 64 ≤ arenaBytes s.iss.ctx →
    Enters s (.rsQry g src) g src (goTok q.go) { q with shape := pairAt s q.a0 } (recordRead s q.a0) := by
  intro q hg h8 ha h2
  have hex : exec (.rsQry g src) s = execRsQry g src s := rfl
  rw [execRsQry, show s.iss.ctx.portW 19 0 = q.a0 from rfl, show s.iss.ctx.portW 19 2 = q.a2 from rfl,
    arenaOut_record ha, arenaOut_record h2] at hex
  exact goMove_entersThen hex (then_readsRecord s q.a0) (silent_append (silent_append (goNotes_silent hg)
    (pairNotes_silent h8 ha)) (silent_cons rfl silent_nil)) rfl rfl rfl

theorem npSend_enters : let q := goCmd s src 20 4
    let n := q.a2.toNat % 2 ^ 40
    let payf := q.a3.toNat / 2 ^ 32 % 32
    recOn s = false → GoOk s (trigT s src) → q.a1.toNat % 2 ^ 20 ≠ 0 → n ≠ 0 → n % 4 = 0 → payf ≠ 0 → payf ≤ 16 →
    q.a3.toNat / 2 ^ 37 % 16 ≤ 8 → EndpointOk s q.a0 [0, 1, 4] 0 n 0 →
    Enters s (.npSend g src) g src (goTok q.go) q id := by
  intro q n payf hrec hg h1 hn hn4 hp hp16 hfc h0
  have en : npSize (s.iss.ctx.portW 20 2) = n := fld_zero _ _
  have ep : npPayf (s.iss.ctx.portW 20 3) = payf := fld_eq _ _ _
  refine seamTrigger_entersThen hrec (exec_npSend s g src) (then_nothing s) ?_ rfl rfl rfl
  rw [npSendChecks, en, ep]
  refine silent_append (silent_append (goNotes_silent hg) (silent_cons (epMode_quiet h0)
    (silent_cons (trapIf_quiet (decide_eq_false ?_)) (silent_cons (trapIf_quiet (decide_eq_false (by omega)))
    (silent_cons (trapIf_quiet (decide_eq_false (by omega))) (silent_cons (trapIf_quiet (decide_eq_false ?_)) silent_nil))))))
    (epNotes_silent ?_ fun _ h => absurd h List.not_mem_nil)
  · rwa [fld_zero]
  · exact Nat.not_lt.2 ((fld_eq _ _ _).trans_le hfc)
  · exact List.forall_mem_singleton.2 (.of_ok h0)

theorem npRow_enters : let q := goCmd s src 20 5
    recOn s = false → GoOk s q.a3 → q.a1.toNat % 2 ^ 20 ≠ 0 → q.a0.toNat % 16 ≤ 8 →
    Enters s (.npRow g src) g src (goTok q.a3) { q with go := q.a3, row := (readCode s src).row } id := by
  intro q hrec hg h1 hfc
  refine seamTrigger_entersThen hrec (exec_npRow s g src) (then_nothing s) ?_ rfl rfl rfl
  refine silent_append (goNotes_silent hg) (silent_cons (trapIf_quiet (decide_eq_false ?_))
    (silent_cons (trapIf_quiet (decide_eq_false ?_)) silent_nil))
  · rwa [fld_zero]
  · exact Nat.not_lt.2 ((fld_zero _ _).trans_le hfc)

end

/-- Settles O40: each move by the lemma of its checks, what its go word is refused for by `goMove_met`. -/
theorem engineCommands : Obligations.EngineCommands := by
  unfold Obligations.EngineCommands
  intro s g src c T tok goOk enters reads met rd wr
  have htok : tok = goTok := funext fun w => by
    unfold goTok
    rw [fld_eq]
    rfl
  have hgo {w : Word} (h : goOk w) : GoOk s w := by
    rwa [GoOk, ← htok]
  have henter {i : Instr} {q : Cmd} {f : Ctx → Ctx} (h : Enters s i g src (goTok q.go) q f) :
      Enters s i g src (tok q.go) q f := by rwa [htok]
  have hmet {i : Instr} {fu port : Nat} {w : Word} (h : GoWordMet s i fu port g src w) : met i fu port w := by
    intro hr
    rw [htok]
    exact ⟨h.full hr, fun ho => ⟨h.scope hr ho, h.token hr ho, h.reserved hr ho⟩⟩
  have hceGo : exec (.ceGo g src) s = execCeGo g src s := rfl
  have hgeGo : exec (.geGo g src) s = execGeGo g src s := rfl
  have hgeSkg : exec (.geSkg g src) s = execGeSkg g src s := rfl
  have hweGo : exec (.weGo g src) s = execWeGo g src s := rfl
  have hrsQry : exec (.rsQry g src) s = execRsQry g src s := rfl
  rw [execCeGo] at hceGo
  rw [execGeGo] at hgeGo
  rw [execGeSkg] at hgeSkg
  rw [execWeGo] at hweGo
  rw [execRsQry] at hrsQry
  refine ⟨?_, ?_, ?_, ?_, ?_, ?_, ?_, ?_, ?_, ?_, ?_, ?_, ?_, ?_, ?_, fun hrec => ⟨?_, ?_, ?_⟩⟩
  · exact fun hg h2 ha hpm hd hsf hdf h0 h1 => henter (ceGo_enters (hgo hg) h2 ha hpm hd hsf hdf h0 h1)
  · exact fun hg hn h0 h1 => henter (ceCmp_enters (hgo hg) hn h0 h1)
  · exact fun hg hrb hrb1 hrb4 hn h0 h1 h2 => henter (geGo_enters (hgo hg) hrb hrb1 hrb4 hn h0 h1 h2)
  · exact fun hg hn hlen hk hslot hclen h1 => henter (geSkg_enters (hgo hg) hn hlen hk hslot hclen h1)
  · exact fun hg hh hw hgr hoh how hn hspan h0 h1 => henter (weGo_enters (hgo hg) hh hw hgr hoh how hn hspan h0 h1)
  · exact fun hrec hg h8 ha hcode h1 h2 => henter (rsGo_enters hrec (hgo hg) h8 ha hcode h1 h2)
  · exact fun hg h8 ha h2 => henter (rsQry_enters (hgo hg) h8 ha h2)
  · exact fun hrec hg h1 hn hn4 hp hp16 hfc h0 => henter (npSend_enters hrec (hgo hg) h1 hn hn4 hp hp16 hfc h0)
  · exact fun hrec hg h1 hfc => henter (npRow_enters hrec (hgo hg) h1 hfc)
  · exact hmet (goMove_met hceGo rfl (prefix_two ..))
  · exact hmet (goMove_met (exec_ceCmp s g src) rfl (prefix_two ..))
  · exact hmet (goMove_met hgeGo rfl (prefix_two ..))
  · exact hmet (goMove_met hgeSkg rfl
      ((prefix_two ..).trans (List.prefix_append ..)))
  · exact hmet (goMove_met hweGo rfl (prefix_two ..))
  · exact hmet (goMove_met hrsQry rfl (prefix_two ..))
  · exact hmet (seamTrigger_met hrec (exec_rsGo s g src) (((prefix_two ..).trans (List.prefix_append ..)).trans
      (prefix_two ..)))
  · exact hmet (seamTrigger_met hrec (exec_npSend s g src) (prefix_two ..))
  · exact hmet (seamTrigger_met hrec (exec_npRow s g src) (List.prefix_append ..))

end Sys2Proof.Machine
end

section
/-!
PROOFS. The operations of LN, PT and XL (O43).
-/

namespace Sys2Proof.Machine

section
variable {s : State} {g : BitVec 4} {src : BitVec 9}

/-! ## The commands of LN, PT and XL -/

/-- A go move that does no more than to enter its command, whose checks are quiet. -/
theorem goMove_entersPlain {i : Instr} {fu port : Nat} {chk : List Note} {tok : Option Nat}
    (hi : exec i s = goMove fu port [] chk tok (fun _ q => q) (fun _ s => s) g src s) (hc : Silent chk) :
    Enters s i g src tok (goCmd s src fu port) id :=
  goMove_entersThen hi (then_nothing s) hc rfl rfl rfl

/-- The token of a control word is read alike by the units and by the statements. -/
theorem xlTok_eq (w : Word) : xlTok w = ctlTok w := by
  rw [xlTok, ctlTok, fld_zero]
  rfl

/-- The check of a control word's token (R395). -/
def tokNote (s : State) (w : Word) : Note :=
  trapIf ((xlTok w).any fun k => decide ((s.iss.ctx.tok k).st = .pending)) 0x0B (w64 (fld w 0 4))

theorem tokNote_quiet {w : Word} (h : TokenFree s (ctlTok w)) : tokNote s w = .quiet := by
  refine trapIf_quiet ?_
  rw [xlTok_eq]
  cases hk : ctlTok w with
  | none => rfl
  | some k => simpa using h k hk

theorem firstNote_quiet_cons {x : Note} (hx : x = .quiet) (l : List Note) : firstNote (x :: l) = firstNote l := by
  rw [hx]
  rfl

theorem firstNote_trapIf_pos {p : Prop} [Decidable p] (h : p) (code : Nat) (v : Word) (l : List Note) :
    firstNote (trapIf (decide p) code v :: l) = .trap 5 code v := by
  rw [decide_eq_true h]
  rfl

theorem exec_lnLnch : exec (.lnLnch g src) s = goMove 24 4 []
    [tokNote s (s.iss.ctx.portW 24 2), trapIf (decide (fld (trigT s src) 0 8 ≠ 0)) 0x0A (trigT s src)]
    (xlTok (s.iss.ctx.portW 24 2)) (fun _ q => q) (fun _ s => s) g src s := rfl

theorem lnQuit_enters : Enters s (.lnQuit g src) g src none (goCmd s src 24 5)
    fun x => { x with st := .draining, pc := s.iss.pc, npc := s.iss.ctx.npc } := by
  have hex : exec (.lnQuit g src) s = execLnQuit g src s := rfl
  rw [execLnQuit] at hex
  refine goMove_entersBy hex rfl rfl rfl rfl ?_
  rw [onCtx_enteredState, enteredState_iss]

theorem ptGo_enters {i : Instr} {port : Nat} {chk : List Note} (hi : exec i s = ptGo port chk g src s)
    (ht : TokenFree s (ctlTok (s.iss.ctx.portW 25 2))) (hc : Silent chk) :
    Enters s i g src (ctlTok (s.iss.ctx.portW 25 2)) (goCmd s src 25 port) id := by
  rw [← xlTok_eq]
  exact goMove_entersPlain hi (silent_cons (tokNote_quiet ht) hc)

theorem ptGo_traps {i : Instr} {port code : Nat} {chk : List Note} {v : Word} (hi : exec i s = ptGo port chk g src s)
    (ht : TokenFree s (ctlTok (s.iss.ctx.portW 25 2))) (hn : firstNote chk = .trap 5 code v)
    (hr : Ready s 25 port true g src) (ho : QueueOpen s 25) : Traps s i code v := by
  rw [ptGo] at hi
  exact goMove_traps hi hr ho ((firstNote_quiet_cons (tokNote_quiet ht) chk).trans hn)

/-- A holder that is there and a count from 1 to 16 meet nothing (R342). -/
theorem strayNotes_silent {t cnt : Word} (hh : (holderOf (t.toNat % 2048)).isSome = true) (h1 : 1 ≤ cnt.toNat % 32)
    (h16 : cnt.toNat % 32 ≤ 16) : Silent (strayNotes t cnt) := by
  have hcnt : fld cnt 0 5 = cnt.toNat % 32 := fld_zero _ _
  have hhold : (holderOf (fld t 0 11)).isNone = false := by
    rw [fld_zero]
    exact Option.isNone_eq_false_iff.2 hh
  exact silent_cons (trapIf_quiet hhold) (silent_cons (trapIf_quiet (decide_eq_false (by omega))) silent_nil)

theorem strayNotes_holder {t cnt : Word} (hh : ¬(holderOf (t.toNat % 2048)).isSome = true) (l : List Note) :
    firstNote (strayNotes t cnt ++ l) = .trap 5 0x0A t := by
  have hhold : (holderOf (fld t 0 11)).isNone = true := by
    rw [fld_zero]
    exact Option.not_isSome_iff_eq_none.1 hh ▸ rfl
  rw [strayNotes, hhold]
  rfl

theorem xlGo_enters {i : Instr} {port : Nat} {own : List Note} (hi : exec i s = xlGo port own g src s)
    (hs : (s.iss.ctx.portW 26 2).toNat / 32 % 8 < 5) (ht : TokenFree s (ctlTok (s.iss.ctx.portW 26 2))) (hc : Silent own) :
    Enters s i g src (ctlTok (s.iss.ctx.portW 26 2)) (goCmd s src 26 port) id := by
  have hscope : xlScope (s.iss.ctx.portW 26 2) = (s.iss.ctx.portW 26 2).toNat / 32 % 8 := fld_eq _ _ _
  rw [← xlTok_eq]
  refine goMove_entersPlain hi (silent_append (silent_cons (trapIf_quiet (decide_eq_false ?_)) (silent_cons
    (trapIf_quiet (decide_eq_false ?_)) (silent_cons (tokNote_quiet ht) silent_nil))) hc)
  · omega
  · omega

theorem xlGo_traps {i : Instr} {port code : Nat} {own : List Note} {v : Word} (hi : exec i s = xlGo port own g src s)
    (hs : (s.iss.ctx.portW 26 2).toNat / 32 % 8 < 5) (ht : TokenFree s (ctlTok (s.iss.ctx.portW 26 2)))
    (hn : firstNote own = .trap 5 code v) (hr : Ready s 26 port true g src) (ho : QueueOpen s 26) : Traps s i code v := by
  have hscope : xlScope (s.iss.ctx.portW 26 2) = (s.iss.ctx.portW 26 2).toNat / 32 % 8 := fld_eq _ _ _
  rw [xlGo] at hi
  refine goMove_traps hi hr ho ((firstNote_append _ _ (firstNote_of_quiet _ ?_)).trans hn)
  exact silent_cons (trapIf_quiet (decide_eq_false (by omega))) (silent_cons
    (trapIf_quiet (decide_eq_false (by omega))) (silent_cons (tokNote_quiet ht) silent_nil))

theorem xlGo_scope {i : Instr} {port : Nat} {own : List Note} (hi : exec i s = xlGo port own g src s)
    (hs : 5 < (s.iss.ctx.portW 26 2).toNat / 32 % 8) (hr : Ready s 26 port true g src) (ho : QueueOpen s 26) :
    Traps s i 0x09 (w64 ((s.iss.ctx.portW 26 2).toNat / 32 % 8)) := by
  have hscope : xlScope (s.iss.ctx.portW 26 2) = (s.iss.ctx.portW 26 2).toNat / 32 % 8 := fld_eq _ _ _
  rw [← hscope]
  rw [xlGo] at hi
  exact goMove_traps hi hr ho (firstNote_trapIf_pos (by omega) _ _ _)

/-! ## The probe (R379) -/

/-- Does a probe of T start a walk: its fill flag is set and the quad's buffer holds no entry of the page? -/
def probeFills (s : State) (T : Word) : Bool :=
  (s.iss.ctx.portW 26 0).getLsbD 0 && !(tlbFind s (quadOf s.iss.n) s.iss.ctx.ctl.asid T).isSome

/-- What a probe does once it is charged. -/
def probeEffect (s : State) (v : Val) (u : State) : State :=
  flyNew (if (s.iss.ctx.portW 26 0).getLsbD 0 && !(tlbFind u (quadOf u.iss.n) s.iss.ctx.ctl.asid v.word).isSome then
    tlbFill u (quadOf u.iss.n) s.iss.ctx.ctl.asid s.iss.ctx.ctl.ptroot v.word else u) 4 26 (.s (probe u v.word)) 0 0

theorem exec_xlPrb : exec (.xlPrb g src) s = trigger 26 6 1 1 false [] [] g src (probeEffect s) s := rfl

/-- A fill reads memory and the translation buffers alone, and changes but the latter. -/
theorem tlbFill_congr {t : State} (hm : t.mem = s.mem) (hf : t.free = s.free) (ht : t.tlb = s.tlb) (buf : Nat) (asid : BitVec 16)
    (root : BitVec 36) (va : Word) : (tlbFill t buf asid root va).free = (tlbFill s buf asid root va).free ∧
      (tlbFill t buf asid root va).tlb = (tlbFill s buf asid root va).tlb := by
  have hfind : tlbFind t buf asid va = tlbFind s buf asid va := by
    rw [tlbFind, ht, tlbFind]
  have hwalk : walkTables t buf asid root va = walkTables s buf asid root va := by
    unfold walkTables heldPtrs
    simp only [walkFrom_congr hm hf, ht, hf]
  unfold tlbFill
  rw [hfind, hwalk, hf, ht]
  split
  · exact ⟨hf, ht⟩
  · split
    · exact ⟨rfl, rfl⟩
    · exact ⟨hf, ht⟩

theorem charged_tlb : (charge (consume s src) 1).tlb = s.tlb := by
  rw [show (charge (consume s src) 1).tlb = (consume s src).tlb from rfl, consume_rest]

theorem tlbFind_charged (buf : Nat) (asid : BitVec 16) (va : Word) :
    tlbFind (charge (consume s src) 1) buf asid va = tlbFind s buf asid va := by
  rw [tlbFind, charged_tlb, tlbFind]

theorem probe_charged (v : Word) : probe (charge (consume s src) 1) v = probe s v := by
  simp only [probe, tlbFind_charged, charged_n, iss_ctx_charged]

theorem probeEffect_charged : probeEffect s (readCode s src) (charge (consume s src) 1) =
    flyNew (if probeFills s (trigT s src) = true then tlbFill (charge (consume s src) 1) (quadOf s.iss.n) s.iss.ctx.ctl.asid
      s.iss.ctx.ctl.ptroot (trigT s src) else charge (consume s src) 1) 4 26 (.s (probe s (trigT s src))) 0 0 := by
  rw [probeEffect, tlbFind_charged, probe_charged, charged_n]
  rfl

/-- A probe that starts no walk lands what the quad's buffer holds. -/
theorem xlPrb_results (h : probeFills s (trigT s src) = false) :
    Results s (.xlPrb g src) 26 6 4 1 1 g src (.s (probe s (trigT s src))) 0 := by
  refine completes s _ 26 6 1 1 (s.serial + 1) _ _ _ g src _ _ (exec_xlPrb ..) rfl rfl ?_
  rw [probeEffect_charged, h]
  exact flyNew_charged_id s src 1 4 26 _ 0

/-- A probe that starts a walk fills the quad's buffer besides. -/
theorem xlPrb_fills (h : probeFills s (trigT s src) = true) (hr : Ready s 26 6 false g src) :
    ∃ t, exec (.xlPrb g src) s = .next t ∧ DidRest s t 1 (landing s 4 26 (.s (probe s (trigT s src))) 0 (sourced s src)) id
      (tlbFill s (quadOf s.iss.n) s.iss.ctx.ctl.asid s.iss.ctx.ctl.ptroot (trigT s src)) := by
  refine ⟨_, (exec_xlPrb ..).trans (trigger_quiet s 26 6 1 1 false _ _ g src _ hr rfl rfl), ?_⟩
  have hmem : (charge (consume s src) 1).mem = s.mem := by
    rw [show (charge (consume s src) 1).mem = (consume s src).mem from rfl, consume_rest]
  have hfree : (charge (consume s src) 1).free = s.free := by
    rw [show (charge (consume s src) 1).free = (consume s src).free from rfl, consume_rest]
  obtain ⟨hf, ht⟩ := tlbFill_congr hmem hfree charged_tlb (quadOf s.iss.n) s.iss.ctx.ctl.asid s.iss.ctx.ctl.ptroot (trigT s src)
  dsimp only
  rw [probeEffect_charged, h, if_pos rfl, tlbFill_eq, tlbFill_eq s, hf, ht]
  generalize (tlbFill s (quadOf s.iss.n) s.iss.ctx.ctl.asid s.iss.ctx.ctl.ptroot (trigT s src)).free = fr
  generalize (tlbFill s (quadOf s.iss.n) s.iss.ctx.ctl.asid s.iss.ctx.ctl.ptroot (trigT s src)).tlb = tl
  have hfly (v : Val) : (flyNew { charge (consume s src) 1 with free := fr, tlb := tl } 4 26 v 0 0).updCtx
      (flyNew { charge (consume s src) 1 with free := fr, tlb := tl } 4 26 v 0 0).iss.n (·.hold 26 6 1) =
      { ((charge (consume s src) 1).ser (s.serial + 1)).updCtx s.iss.n (landing s 4 26 v 0) with free := fr, tlb := tl } := by
    rw [show (flyNew { charge (consume s src) 1 with free := fr, tlb := tl } 4 26 v 0 0).updCtx
      (flyNew { charge (consume s src) 1 with free := fr, tlb := tl } 4 26 v 0 0).iss.n (·.hold 26 6 1) =
      { (flyNew (charge (consume s src) 1) 4 26 v 0 0).updCtx (charge (consume s src) 1).iss.n (·.hold 26 6 1) with
        free := fr, tlb := tl } from rfl, flyNew_charged_id, charged_n, State.updCtx_updCtx]
    rfl
  rw [hfly]
  refine didRest_of (landing s 4 26 (.s (probe s (trigT s src))) 0) rfl (charge_cores s src 1) (by simp) ?_
  rw [consume_rest]
  rfl

end

/-- What the statements call the entry that a probe lands. -/
theorem probe_eq {s : State} {T : Word} (hT : T.toNat < 2 ^ 56) :
    probe s T = match tlbFind s (quadOf s.iss.n) s.iss.ctx.ctl.asid T with
      | none => 0
      | some e => if s.iss.ctx.ctl.priv then e.leaf else e.leaf &&& 0xFFFF0000000000FF := by
  have hfld : ¬fld T 56 8 ≠ 0 := by
    rw [fld_eq, Nat.div_eq_of_lt hT]
    simp
  rw [probe, if_neg hfld]
  rfl

theorem probe_of_le {s : State} {T : Word} (hT : 2 ^ 56 ≤ T.toNat) : probe s T = 0 := by
  have hfld : fld T 56 8 ≠ 0 := by
    rw [fld_eq]
    have := T.isLt
    omega
  rw [probe]
  exact if_pos hfld

/-- Settles O43: the commands by the checks that their units share, `xl.prb` by whether it starts a walk. -/
theorem managementCommands : Obligations.ManagementCommands := by
  unfold Obligations.ManagementCommands
  intro s g src c T enters lw pw xw pa pb xa scope count holder refused
  refine ⟨fun ht h8 => ?_, fun ht h8 hr ho => ?_, lnQuit_enters, fun ht => ⟨fun h6 => ?_, fun h6 hr ho => ?_, ?_, ?_,
    fun hh hc ha hv => ?_, fun hh hc ha hr ho => ?_, fun hh hc => ?_, fun hh => ⟨fun hr ho => ?_, fun hr ho => ?_⟩⟩,
    fun hs ht => ⟨fun ha h0 hle => ?_, fun ha hr ho => ?_, fun ha hT hr ho => ?_, fun h6 => ?_, fun h6 hr ho => ?_⟩,
    fun hs => ⟨fun hr ho => ?_, fun hr ho => ?_⟩, fun hT hfill => ?_, fun hT hbit hmiss hr => ?_, fun hT hr => ?_⟩
  · rw [← xlTok_eq]
    refine goMove_entersPlain exec_lnLnch (silent_cons (tokNote_quiet ht) (silent_cons (trapIf_quiet ?_) silent_nil))
    exact decide_eq_false (not_not.2 ((fld_zero T 8).trans h8))
  · refine goMove_traps exec_lnLnch hr ho ((firstNote_quiet_cons (tokNote_quiet ht) _).trans (firstNote_trapIf_pos ?_ _ _ _))
    rwa [fld_zero]
  · refine ptGo_enters (show _ = execPtLoad g src s from rfl) ht (silent_cons (trapIf_quiet ?_) silent_nil)
    exact decide_eq_false (not_not.2 ((fld_zero T 6).trans h6))
  · refine ptGo_traps (show _ = execPtLoad g src s from rfl) ht (firstNote_trapIf_pos ?_ _ _ _) hr ho
    rwa [fld_zero]
  · exact ptGo_enters (show _ = execPtUnld g src s from rfl) ht silent_nil
  · exact ptGo_enters (show _ = execPtQry g src s from rfl) ht silent_nil
  · have hlen : fld pb 0 5 = pb.toNat % 32 := fld_zero _ _
    refine ptGo_enters (show _ = execPtStry g src s from rfl) ht (silent_append (strayNotes_silent hh hc.1 hc.2)
      (silent_cons (trapIf_quiet (decide_eq_false (not_not.2 ha))) (silent_cons ?_ silent_nil)))
    rw [hlen, hv]
    rfl
  · exact ptGo_traps (show _ = execPtStry g src s from rfl) ht ((firstNote_append _ _ (firstNote_of_quiet _
      (strayNotes_silent hh hc.1 hc.2))).trans (firstNote_trapIf_pos ha _ _ _)) hr ho
  · exact ptGo_enters (show _ = execPtClr g src s from rfl) ht (strayNotes_silent hh hc.1 hc.2)
  · exact ptGo_traps (show _ = execPtStry g src s from rfl) ht (strayNotes_holder hh _) hr ho
  · exact ptGo_traps (show _ = execPtClr g src s from rfl) ht (strayNotes_holder hh []) hr ho
  · have hhi : fld xa 56 8 = 0 := by
      rw [fld_eq, Nat.div_eq_of_lt ha]
      rfl
    refine xlGo_enters (show _ = execXlSda g src s from rfl) hs ht (silent_cons (trapIf_quiet ?_) (silent_cons
      (trapIf_quiet ?_) silent_nil))
    · exact decide_eq_false (not_not.2 hhi)
    · exact decide_eq_false (not_or.2 ⟨h0, Nat.not_lt.2 hle⟩)
  · refine xlGo_traps (show _ = execXlSda g src s from rfl) hs ht (firstNote_trapIf_pos ?_ _ _ _) hr ho
    have hlt : xa.toNat < 2 ^ 64 := xa.isLt
    have hdiv : 0 < xa.toNat / 2 ^ 56 := Nat.div_pos ha (by decide)
    rw [show s.iss.ctx.portW 26 0 = xa from rfl, fld_eq]
    omega
  · have hhi : fld xa 56 8 = 0 := by
      rw [fld_eq, Nat.div_eq_of_lt ha]
      rfl
    exact xlGo_traps (show _ = execXlSda g src s from rfl) hs ht ((firstNote_quiet_cons (trapIf_quiet
      (decide_eq_false (not_not.2 hhi))) _).trans (firstNote_trapIf_pos hT _ _ _)) hr ho
  · refine xlGo_enters (show _ = execXlSdk g src s from rfl) hs ht (silent_cons (trapIf_quiet ?_) silent_nil)
    exact decide_eq_false (not_not.2 ((fld_zero xa 6).trans h6))
  · refine xlGo_traps (show _ = execXlSdk g src s from rfl) hs ht (firstNote_trapIf_pos ?_ _ _ _) hr ho
    rwa [fld_zero]
  · exact xlGo_scope (show _ = execXlSda g src s from rfl) hs hr ho
  · exact xlGo_scope (show _ = execXlSdk g src s from rfl) hs hr ho
  · have hnone : probeFills s T = false := by
      unfold probeFills
      rcases hfill with h | h
      · rw [show (s.iss.ctx.portW 26 0).getLsbD 0 = false from h, Bool.false_and]
      · rw [show (tlbFind s (quadOf s.iss.n) s.iss.ctx.ctl.asid T).isSome = true from h, Bool.not_true, Bool.and_false]
    have hres := xlPrb_results (g := g) hnone
    rwa [probe_eq hT] at hres
  · have hfills : probeFills s T = true := by
      rw [probeFills, show (s.iss.ctx.portW 26 0).getLsbD 0 = true from hbit,
        show tlbFind s (quadOf s.iss.n) s.iss.ctx.ctl.asid T = none from hmiss]
      rfl
    have hfill := xlPrb_fills hfills hr
    rwa [probe_eq hT, show tlbFind s (quadOf s.iss.n) s.iss.ctx.ctl.asid (trigT s src) = none from hmiss] at hfill
  · have hzero : probe s (trigT s src) = 0 := probe_of_le hT
    cases hf : probeFills s T with
    | false =>
      obtain ⟨t, ht, hdid⟩ := xlPrb_results (g := g) hf hr
      rw [hzero] at hdid
      exact ⟨t, ht, hdid.ctx, by rw [hdid.rest]⟩
    | true =>
      obtain ⟨t, ht, hdid⟩ := xlPrb_fills hf hr
      rw [hzero] at hdid
      exact ⟨t, ht, hdid.ctx, by rw [hdid.rest, tlbFill_eq]⟩

end Sys2Proof.Machine
end

section
/-!
PROOFS. Counter requests and barrier messages at their homes (O47).
-/

namespace Sys2Proof.Machine

/-! ## The table of requests -/

theorem find?_put_other {α : Type} (m : KMap α) (i j : Nat) (v : α) (h : j ≠ i) :
    ((KMap.put m i v).find? fun p => p.1 = j) = m.find? fun p => p.1 = j := by
  induction m with
  | nil => simp [KMap.put, Ne.symm h]
  | cons e m ih =>
    obtain ⟨k, w⟩ := e
    rw [KMap.put]
    split
    · simp [Ne.symm h]
    · split
      · next hk => simp [← hk, Ne.symm h]
      · rw [List.find?_cons, List.find?_cons, ih]

theorem find?_del_same {α : Type} (m : KMap α) (i : Nat) : ((KMap.del m i).find? fun p => p.1 = i) = none :=
  List.find?_eq_none.2 fun _ h => by simpa using (mem_del h).1

theorem find?_del_other {α : Type} (m : KMap α) (i j : Nat) (h : j ≠ i) :
    ((KMap.del m i).find? fun p => p.1 = j) = m.find? fun p => p.1 = j := by
  induction m with
  | nil => rfl
  | cons e m ih =>
    obtain ⟨k, w⟩ := e
    rw [KMap.del]
    split
    · next hk => rw [ih, List.find?_cons, show decide (k = j) = false from decide_eq_false (hk ▸ Ne.symm h)]
    · rw [List.find?_cons, List.find?_cons, ih]

theorem mem_put_of_ne {α : Type} {m : KMap α} {i : Nat} {x : Nat × α} (v : α) (h : x ∈ m) (hne : x.1 ≠ i) :
    x ∈ KMap.put m i v := by
  induction m with
  | nil => exact absurd h List.not_mem_nil
  | cons e m ih =>
    obtain ⟨k, w⟩ := e
    rw [KMap.put]
    split
    · exact List.mem_cons_of_mem _ h
    · split
      · next hk =>
        rcases List.mem_cons.1 h with rfl | h
        · exact absurd hk.symm hne
        · exact List.mem_cons_of_mem _ h
      · rcases List.mem_cons.1 h with rfl | h
        · exact List.mem_cons_self
        · exact List.mem_cons_of_mem _ (ih h)

theorem req_put_same (s : State) (i : Nat) (r : Req) : ({ s with reqs := KMap.put s.reqs i r } : State).req i = some r := by
  rw [State.req, find?_put]
  rfl

theorem req_put_other (s : State) {i j : Nat} (r : Req) (h : j ≠ i) :
    ({ s with reqs := KMap.put s.reqs i r } : State).req j = s.req j := by
  rw [State.req, find?_put_other _ _ _ _ h]
  rfl

theorem req_del_same (s : State) (i : Nat) : ({ s with reqs := s.reqs.del i } : State).req i = none := by
  rw [State.req, find?_del_same]
  rfl

theorem req_del_other (s : State) {i j : Nat} (h : j ≠ i) : ({ s with reqs := s.reqs.del i } : State).req j = s.req j := by
  rw [State.req, find?_del_other _ _ _ h]
  rfl

theorem req_of_reqs {s t : State} (h : t.reqs = s.reqs) (i : Nat) : t.req i = s.req i := by
  rw [State.req, h, State.req]

theorem updReq_of_some {s : State} {id : Nat} {r : Req} (h : s.req id = some r) (f : Req → Req) :
    updReq s id f = { s with reqs := KMap.put s.reqs id (f r) } := by
  rw [updReq, h]

/-! ## What sending leaves (R302) -/

/-- Requests sent from `s` to `t` change neither memory, contexts, cores nor kernels, and not request i. -/
structure Sends (i : Nat) (s t : State) : Prop where
  spares : Spares s t
  cores : t.cores = s.cores
  kerns : t.dist.kerns = s.dist.kerns
  clk : t.clk = s.clk
  req : t.req i = s.req i

section
variable {i : Nat}

theorem Sends.refl (s : State) : Sends i s s := ⟨⟨rfl, rfl⟩, rfl, rfl, rfl, rfl⟩

theorem Sends.trans {s t u : State} (h : Sends i s t) (k : Sends i t u) : Sends i s u :=
  ⟨h.spares.trans k.spares, k.cores.trans h.cores, k.kerns.trans h.kerns, k.clk.trans h.clk, k.req.trans h.req⟩

/-- What leaves the table of requests alone. -/
theorem Sends.of_reqs {s t : State} (hs : Spares s t) (hc : t.cores = s.cores) (hk : t.dist.kerns = s.dist.kerns)
    (hclk : t.clk = s.clk) (hr : t.reqs = s.reqs) : Sends i s t := ⟨hs, hc, hk, hclk, req_of_reqs hr i⟩

theorem sends_put (s : State) {j : Nat} (r : Req) (h : j ≠ i) : Sends i s { s with reqs := KMap.put s.reqs j r } :=
  ⟨⟨rfl, rfl⟩, rfl, rfl, rfl, req_put_other s r (Ne.symm h)⟩

theorem sends_del (s : State) {j : Nat} (h : j ≠ i) : Sends i s { s with reqs := s.reqs.del j } :=
  ⟨⟨rfl, rfl⟩, rfl, rfl, rfl, req_del_other s (Ne.symm h)⟩

theorem sends_at (s : State) (d : Nat) (b : Bool) (e : Instr) : Sends i s (s.at d b e) := ⟨⟨rfl, rfl⟩, rfl, rfl, rfl, rfl⟩

theorem sends_within (s : State) (lo hi : Nat) (e : Instr) : Sends i s (s.within lo hi e) := ⟨⟨rfl, rfl⟩, rfl, rfl, rfl, rfl⟩

theorem sends_injectAt (s : State) (h client : Nat) (p : Packet) : Sends i s (injectAt s h client p) :=
  ⟨⟨rfl, rfl⟩, rfl, rfl, rfl, rfl⟩

theorem sends_enterFabric (s : State) (p : Packet) : Sends i s (enterFabric s p) := ⟨⟨rfl, rfl⟩, rfl, rfl, rfl, rfl⟩

theorem sends_enterLink (s : State) (l : Nat) (p : Packet) : Sends i s (enterLink s l p) := by
  unfold enterLink
  split
  · unfold sendLink
    dsimp only
    split <;> exact ⟨⟨rfl, rfl⟩, rfl, rfl, rfl, rfl⟩
  · exact ⟨⟨rfl, rfl⟩, rfl, rfl, rfl, rfl⟩

theorem sends_sendFrom (s : State) (h : Nat) (cir : Bool) (p : Packet) : Sends i s (sendFrom s h cir p) := by
  unfold sendFrom
  split
  · exact sends_injectAt ..
  · split
    · split
      · exact sends_injectAt ..
      · exact sends_enterLink ..
    · exact sends_enterFabric ..

theorem sends_sendLaunch (s : State) (n : Nat) (q : Cmd) : Sends i s (sendLaunch s n q) := by
  unfold sendLaunch
  split <;> exact ⟨⟨rfl, rfl⟩, rfl, rfl, rfl, rfl⟩

/-- A request that is no command of a queue, and its step. -/
theorem stepReq_eq (s : State) (id : Nat) (r : Req) (h : ∀ n fu, r.src ≠ .queue n fu) : stepReq s id r =
    { s with free := s.free + 1 }.at (sliceFree { s with free := s.free + 1 } (homeSlice r.pa) (s.clk + (drawNat s 1 300).1) s.cal.length)
      r.src.isWait (if r.src.isWait then .counterWaitPerformed id else .counterAddPerformed id) := by
  unfold stepReq
  split
  · next n fu hsrc => exact absurd hsrc (h n fu)
  · cases hw : r.src.isWait <;> rfl

theorem sends_stepReq (s : State) {id : Nat} (r : Req) (h : id ≠ i) : Sends i s (stepReq s id r) := by
  unfold stepReq
  split
  · split
    · exact sends_del s h
    · dsimp only
      refine .trans (.trans ?_ (sends_sendLaunch _ _ _)) (sends_within _ _ _ _)
      split
      · exact (sends_del s h).trans ⟨⟨rfl, rfl⟩, rfl, rfl, rfl, rfl⟩
      · exact sends_del s h
  · dsimp only
    split <;> exact ⟨⟨rfl, rfl⟩, rfl, rfl, rfl, rfl⟩

/-- The delivery of a request that is no command of a queue leaves the whole table. -/
theorem sends_deliverReq_self (s : State) (r : Req) (h : ∀ n fu, r.src ≠ .queue n fu) : Sends i s (deliverReq s i r) := by
  have hstep : Sends i s (stepReq s i r) := by
    rw [stepReq_eq s i r h]
    exact ⟨⟨rfl, rfl⟩, rfl, rfl, rfl, rfl⟩
  unfold deliverReq
  split
  · split
    · exact hstep
    · split
      · exact sends_injectAt ..
      · exact sends_sendFrom ..
  · exact hstep

theorem sends_deliverReq (s : State) {id : Nat} (r : Req) (h : id ≠ i) : Sends i s (deliverReq s id r) := by
  unfold deliverReq
  split
  · split
    · exact sends_stepReq s r h
    · split
      · exact sends_injectAt ..
      · exact sends_sendFrom ..
  · exact sends_stepReq s r h

theorem sends_sendReq (s : State) {id : Nat} (r : Req) (h : id ≠ i) : Sends i s (sendReq s id r) := by
  unfold sendReq
  dsimp only
  split
  · exact (sends_put s _ h).trans (sends_at ..)
  · exact ((sends_put s _ h).trans (sends_at ..)).trans (sends_deliverReq _ _ h)

/-- A source's next request is one that has not been sent. -/
theorem sends_nextReq (s : State) (sid : Nat) (h : ∀ p ∈ s.reqs, p.1 = i → p.2.tries ≠ 0) : Sends i s (nextReq s sid) := by
  unfold nextReq
  split
  · exact .refl s
  · split
    · next p hp =>
      obtain ⟨-, h0⟩ : p.2.src.sid = sid ∧ p.2.tries = 0 := by simpa using List.find?_some hp
      exact sends_sendReq s p.2 fun hi => h p (List.mem_of_find?_eq_some hp) hi h0
    · exact .refl s

/-- A state that has forgotten request i. -/
def forgotten (s : State) (i : Nat) : State := { s with reqs := s.reqs.del i, waiters := s.waiters.filter fun j => j ≠ i }

theorem dropReq_of_some {s : State} {r : Req} (h : s.req i = some r) : dropReq s i = nextReq (forgotten s i) r.src.sid := by
  rw [dropReq, h]
  rfl

theorem sends_dropReq {s : State} {r : Req} (h : s.req i = some r) : Sends i (forgotten s i) (dropReq s i) := by
  rw [dropReq_of_some h]
  exact sends_nextReq _ _ fun p hp hi => absurd hi (mem_del hp).1

theorem req_dropReq {s : State} {r : Req} (h : s.req i = some r) : (dropReq s i).req i = none :=
  (sends_dropReq h).req.trans (req_del_same s i)

end

/-- A request as it is sent in the state's clk. -/
def sentNow (s : State) (r : Req) : Req := { r with sentAt := s.clk, tries := r.tries + 1 }

/-- The state in which a request that is sent is listed, and its time limit runs (R302). -/
def listedReq (s : State) (id : Nat) (r : Req) : State :=
  { s with reqs := KMap.put s.reqs id (sentNow s r) }.at (s.clk + 8192) false (.requestTimeout id)

theorem req_listedReq (s : State) (id : Nat) (r : Req) : (listedReq s id r).req id = some (sentNow s r) := req_put_same s _ _

theorem toHome_of_noQueue {src : ReqSrc} (h : ∀ n fu, src ≠ .queue n fu) : src.toHome = true := by
  unfold ReqSrc.toHome
  split
  · next n fu => exact absurd rfl (h n fu)
  · rfl

/-- A request that is no command of a queue, sent. -/
theorem sendReq_eq (s : State) (id : Nat) (r : Req) (h : ∀ n fu, r.src ≠ .queue n fu) :
    sendReq s id r = deliverReq (listedReq s id r) id (sentNow s r) := by
  unfold sendReq
  dsimp only
  rw [toHome_of_noQueue h]
  rfl

/-- What sending a request that is no command of a queue does to the table. -/
theorem sendReq_spec (s : State) (id : Nat) (r : Req) (h : ∀ n fu, r.src ≠ .queue n fu) :
    Spares s (sendReq s id r) ∧ (sendReq s id r).cores = s.cores ∧ (sendReq s id r).req id = some (sentNow s r) := by
  rw [sendReq_eq s id r h]
  have hsends : Sends id (listedReq s id r) _ := sends_deliverReq_self _ (sentNow s r) h
  exact ⟨⟨hsends.spares.mem, hsends.spares.ctxs⟩, hsends.cores, hsends.req.trans (req_listedReq s id r)⟩

end Sys2Proof.Machine
end


section
/-!
PROOFS. Adds and waits performed at their home slice (O47).
-/

namespace Sys2Proof.Machine

theorem req_updReq_other (s : State) {id j : Nat} (f : Req → Req) (h : j ≠ id) : (updReq s id f).req j = s.req j := by
  cases hr : s.req id with
  | none => rw [updReq, hr]
  | some r => rw [updReq_of_some hr, req_put_other s _ h]

theorem req_updReq_same {s : State} {id : Nat} {r : Req} (h : s.req id = some r) (f : Req → Req) :
    (updReq s id f).req id = some (f r) := by
  rw [updReq_of_some h, req_put_same]

/-- A changed request leaves all but the table. -/
theorem updReq_rest (s : State) (id : Nat) (f : Req → Req) : updReq s id f = { s with reqs := (updReq s id f).reqs } := by
  cases hr : s.req id with
  | none => rw [updReq, hr]
  | some r => rw [updReq_of_some hr]

/-! ## Notices (R393, R394) -/

/-- The notice to wait i of the value that has satisfied it. -/
def notifyOne (v : Word) (s : State) (i : Nat) : State :=
  match s.req i with
  | none => s
  | some r =>
    let s := { s with reqs := KMap.put s.reqs i { r with got := some v } }
    match r.src.place with
    | some h => enterFabric s (replyPacket s h r)
    | none => s.within 1 300 (.counterWaitPerformed i)

theorem notifyOne_rest (v : Word) (s : State) (i : Nat) : Spares s (notifyOne v s i) ∧ (notifyOne v s i).cores = s.cores ∧
    (notifyOne v s i).waiters = s.waiters := by
  unfold notifyOne
  split
  · exact ⟨⟨rfl, rfl⟩, rfl, rfl⟩
  · dsimp only
    split <;> exact ⟨⟨rfl, rfl⟩, rfl, rfl⟩

theorem req_notifyOne_same {s : State} {i : Nat} {x : Req} (v : Word) (h : s.req i = some x) :
    (notifyOne v s i).req i = some { x with got := some v } := by
  unfold notifyOne
  rw [h]
  dsimp only
  split <;> exact req_put_same s _ _

theorem req_notifyOne_other (v : Word) (s : State) {i j : Nat} (h : j ≠ i) : (notifyOne v s i).req j = s.req j := by
  unfold notifyOne
  split
  · rfl
  · dsimp only
    split <;> exact req_put_other s _ h

theorem notify_rest (v : Word) (l : List Nat) (s : State) : Spares s (l.foldl (notifyOne v) s) ∧
    (l.foldl (notifyOne v) s).cores = s.cores ∧ (l.foldl (notifyOne v) s).waiters = s.waiters := by
  induction l generalizing s with
  | nil => exact ⟨⟨rfl, rfl⟩, rfl, rfl⟩
  | cons i l ih =>
    obtain ⟨hs, hc, hw⟩ := notifyOne_rest v s i
    obtain ⟨hs', hc', hw'⟩ := ih (notifyOne v s i)
    exact ⟨hs.trans hs', hc'.trans hc, hw'.trans hw⟩

theorem req_notify_other (v : Word) {j : Nat} {l : List Nat} (h : j ∉ l) (s : State) :
    (l.foldl (notifyOne v) s).req j = s.req j := by
  induction l generalizing s with
  | nil => rfl
  | cons i l ih =>
    have hi : j ≠ i := fun e => h (e ▸ List.mem_cons_self)
    exact (ih (fun hl => h (List.mem_cons_of_mem _ hl)) _).trans (req_notifyOne_other v s hi)

/-- A wait may be listed twice: it is told the same value again. -/
theorem req_notify (v : Word) {j : Nat} {l : List Nat} (hj : j ∈ l) {s : State} {x : Req} (h : s.req j = some x) :
    (l.foldl (notifyOne v) s).req j = some { x with got := some v } := by
  induction l generalizing s x with
  | nil => exact absurd hj List.not_mem_nil
  | cons i l ih =>
    rw [List.foldl_cons]
    by_cases hij : j = i
    · subst hij
      have hone := req_notifyOne_same v h
      by_cases hl : j ∈ l
      · have hagain := ih hl hone
        exact hagain
      · exact (req_notify_other v hl _).trans hone
    · exact ih ((List.mem_cons.1 hj).resolve_left hij) ((req_notifyOne_other v s hij).trans h)

/-- Is a registered wait satisfied by a counter's value? -/
def satisfied (s : State) (pa : Nat) (v : Word) (i : Nat) : Bool :=
  match s.req i with
  | some r => decide (r.pa = pa ∧ r.val.toNat ≤ v.toNat)
  | none => false

theorem notifyWaits_eq (s : State) (pa : Nat) : notifyWaits s pa =
    (s.waiters.filter (satisfied s pa (s.rd64 pa))).foldl (notifyOne (s.rd64 pa))
      { s with waiters := s.waiters.filter fun i => !satisfied s pa (s.rd64 pa) i } := rfl

/-- What the waits on a counter are told, and what that leaves. -/
theorem notifyWaits_spec (s : State) (pa : Nat) {v : Word} (hv : s.rd64 pa = v) :
    Spares s (notifyWaits s pa) ∧ (notifyWaits s pa).cores = s.cores ∧
    (∀ j, j ∉ s.waiters → (notifyWaits s pa).req j = s.req j) ∧
    ∀ j x, j ∈ s.waiters → s.req j = some x → x.pa = pa → x.val.toNat ≤ v.toNat →
      (notifyWaits s pa).req j = some { x with got := some v } ∧ j ∉ (notifyWaits s pa).waiters := by
  rw [notifyWaits_eq, hv]
  obtain ⟨hs, hc, hw⟩ := notify_rest v (s.waiters.filter (satisfied s pa v))
    { s with waiters := s.waiters.filter fun i => !satisfied s pa v i }
  refine ⟨⟨hs.mem, hs.ctxs⟩, hc, fun j hj => ?_, fun j x hj hx hpa hle => ?_⟩
  · exact req_notify_other v (fun h => hj (List.mem_filter.1 h).1) _
  · have hsat : satisfied s pa v j = true := by
      rw [satisfied, hx]
      exact decide_eq_true ⟨hpa, hle⟩
    refine ⟨req_notify v (List.mem_filter.2 ⟨hj, hsat⟩) hx, fun h => ?_⟩
    rw [hw] at h
    have hnot := (List.mem_filter.1 h).2
    rw [hsat] at hnot
    cases hnot

/-! ## Adds (R391) -/

/-- A word stored is read again, and the other bytes stay. -/
theorem wr64_spec {s : State} (h : s.Inv) (pa : Nat) (w : Word) : (s.wr64 pa w).rd64 pa = w ∧
    ∀ a, a < pa ∨ pa + 8 ≤ a → Memory.read (s.wr64 pa w).mem a = Memory.read s.mem a := by
  have hr := rising_of_inv s h
  refine ⟨rd64_of_bytes _ _ _ (rising_wr s pa w.toNat 8 hr) fun x h1 h2 => ?_, fun a ha => ?_⟩
  · exact (read_wr s pa w.toNat 8 x hr).trans (if_pos ⟨h1, h2⟩)
  · exact (read_wr s pa w.toNat 8 a hr).trans (if_neg (by omega))

/-- The state in which an add of sum w has been performed, its waits told, and its reply is kept. -/
def addedState (s : State) (id : Nat) (r : Req) (w : Word) (x : Reply) : State :=
  keepReply (updReq (notifyWaits (s.wr64 r.pa w) r.pa) id fun r => { r with performed := true }) r x

section
variable {s : State} {id : Nat} {r : Req}

theorem addedState_spec (hi : s.Inv) (hr : s.req id = some r) (w : Word) (x : Reply) :
    let u := addedState s id r w x
    u.rd64 r.pa = w ∧ u.cores = s.cores ∧ u.ctxs = s.ctxs ∧
    (∀ a, a < r.pa ∨ r.pa + 8 ≤ a → Memory.read u.mem a = Memory.read s.mem a) ∧
    (id ∉ s.waiters → u.req id = some { r with performed := true }) ∧
    ∀ i y, i ∈ s.waiters → i ≠ id → s.req i = some y → y.pa = r.pa → y.val.toNat ≤ w.toNat →
      u.req i = some { y with got := some w } ∧ i ∉ u.waiters := by
  intro u
  obtain ⟨hrd, hoff⟩ := wr64_spec hi r.pa w
  obtain ⟨hs, hc, hother, hwait⟩ := notifyWaits_spec (s.wr64 r.pa w) r.pa hrd
  have hrest := updReq_rest (notifyWaits (s.wr64 r.pa w) r.pa) id fun r => { r with performed := true }
  have hmem : u.mem = (s.wr64 r.pa w).mem := (congrArg State.mem hrest).trans hs.mem
  refine ⟨?_, ?_, ?_, ?_, fun hn => ?_, fun i y hy hne hreq hpa hle => ?_⟩
  · rw [State.rd64, State.rd, hmem]
    exact hrd
  · exact (congrArg State.cores hrest).trans hc
  · exact (congrArg State.ctxs hrest).trans hs.ctxs
  · rw [hmem]
    exact hoff
  · exact req_updReq_same ((hother id hn).trans hr) _
  · obtain ⟨hgot, hout⟩ := hwait i y hy hreq hpa hle
    refine ⟨(req_updReq_other _ _ hne).trans hgot, ?_⟩
    have hwaiters : u.waiters = (notifyWaits (s.wr64 r.pa w) r.pa).waiters := (congrArg State.waiters hrest).trans rfl
    rwa [hwaiters]

theorem performAdd_sum (hb : s.badIn r.pa 8 = none) (h : (s.rd64 r.pa).toNat + r.val.toNat < 2 ^ 64) :
    performAdd s r = (notifyWaits (s.wr64 r.pa (s.rd64 r.pa + r.val)) r.pa, .done 0) := by
  unfold performAdd
  rw [hb]
  dsimp only
  rw [if_neg (Nat.not_le.2 h)]

theorem performAdd_overflow (hb : s.badIn r.pa 8 = none) (h : 2 ^ 64 ≤ (s.rd64 r.pa).toNat + r.val.toNat) :
    performAdd s r = (notifyWaits (s.wr64 r.pa (BitVec.allOnes 64)) r.pa, .fault 0x2A r.va) := by
  unfold performAdd
  rw [hb]
  dsimp only
  rw [if_pos h]
  rfl

theorem counterAddPerformed_first {w : Word} {x : Reply} (hr : s.req id = some r) (hk : keptReply s r = none)
    (he : earlierAdd s id r = false) (hp : performAdd s r = (notifyWaits (s.wr64 r.pa w) r.pa, x)) :
    exec (.counterAddPerformed id) s = .next (sendReply (addedState s id r w x) id r x) := by
  show execCounterAddPerformed id s = _
  rw [execCounterAddPerformed, hr]
  dsimp only
  rw [he, hk]
  dsimp only
  rw [hp]
  rfl

theorem counterAddPerformed_kept {x : Reply} (hr : s.req id = some r) (hk : keptReply s r = some x)
    (he : earlierAdd s id r = false) : exec (.counterAddPerformed id) s = .next (sendReply s id r x) := by
  show execCounterAddPerformed id s = _
  rw [execCounterAddPerformed, hr]
  dsimp only
  rw [he, hk]
  rfl

/-! ## Waits (R393) -/

/-- A wait performed at its home for the first time: its reply is kept. -/
def waitedState (s : State) (id : Nat) (r : Req) : State :=
  keepReply (updReq (performWait s id r).1 id fun r => { r with performed := true }) r (performWait s id r).2

theorem counterWaitPerformed_first (hr : s.req id = some r) (hg : r.got = none) (hreg : r.registered = false)
    (hk : keptReply s r = none) : exec (.counterWaitPerformed id) s =
      .next (sendReply (waitedState s id r) id r (performWait s id r).2) := by
  show execCounterWaitPerformed id s = _
  rw [execCounterWaitPerformed, hr]
  dsimp only
  rw [hg, hreg, hk, Bool.and_false]
  rfl

theorem performWait_clean (hb : s.badIn r.pa 8 = none) : performWait s id r =
    if r.val.toNat ≤ (s.rd64 r.pa).toNat then (s, .done (s.rd64 r.pa))
    else if 512 ≤ waitersAt s (homeSlice r.pa) then (s, .full)
    else ({ updReq s id fun r => { r with registered := true } with waiters := s.waiters ++ [id] }, .registered) := by
  unfold performWait
  rw [hb]
  rfl

end

end Sys2Proof.Machine
end


section
/-!
PROOFS. Replies at their source, resent requests and requests that time out (O47).
-/

namespace Sys2Proof.Machine

/-- What the end of its request does to a context. -/
def requestEnded (id : Nat) (c : Ctx) : Ctx :=
  { c with creqs := c.creqs.filter fun x => x.id ≠ id, walks := KMap.del c.walks (reqUnit id) }

/-- What the value that has satisfied its wait does to a context. -/
def waitGot (id : Nat) (w : Word) (c : Ctx) : Ctx :=
  { requestEnded id c with wait := c.wait.map fun x => if x.id = id then { x with got := some w } else x }

theorem mem_of_mem_put {α : Type} {m : KMap α} {i : Nat} {v : α} {x : Nat × α} (h : x ∈ KMap.put m i v) :
    x = (i, v) ∨ x ∈ m := by
  induction m with
  | nil => exact .inl (List.mem_singleton.1 h)
  | cons e m ih =>
    obtain ⟨k, w⟩ := e
    rw [KMap.put] at h
    split at h
    · exact List.mem_cons.1 h
    · split at h
      · exact (List.mem_cons.1 h).imp_right (List.mem_cons_of_mem _)
      · rcases List.mem_cons.1 h with rfl | h
        · exact .inr List.mem_cons_self
        · exact (ih h).imp_right (List.mem_cons_of_mem _)

section
variable {s : State} {id n : Nat} {r : Req}

theorem dropReq_spares (hr : s.req id = some r) : Spares s (dropReq s id) :=
  ⟨(sends_dropReq hr).spares.mem, (sends_dropReq hr).spares.ctxs⟩

/-- An add that has its reply ends in the context that made it. -/
theorem addDone_dropped (hr : s.req id = some r) (hn : r.src = .ctxAdd n) (hq : hasReq id (s.ctx n) = true) :
    addDone (dropReq s id) id r = (dropReq s id).updCtx n (requestEnded id) := by
  have hq' : hasReq id ((dropReq s id).ctx n) = true := by
    rw [(dropReq_spares hr).ctx n]
    exact hq
  unfold addDone
  rw [hn]
  exact if_pos hq'

theorem ctrTake_kept {x : Reply} (hg : r.got = none) (ha : r.answered = false) (hk : keptReply s r = some x) :
    ctrTake s id r = ctrReply s id r x := by
  unfold ctrTake
  rw [hg, ha, hk]
  rfl

theorem ctrReply_add (hn : r.src = .ctxAdd n) (x : Reply) : ctrReply s id r x = addReply s id r x := by
  rw [ctrReply, hn]
  rfl

theorem ctrReply_wait (hn : r.src = .ctxWait n) (x : Reply) : ctrReply s id r x = waitReply s id r x := by
  rw [ctrReply, hn]
  rfl

theorem addReply_done (hr : s.req id = some r) (hn : r.src = .ctxAdd n) (hq : hasReq id (s.ctx n) = true) (w : Word) :
    (addReply s id r (.done w)).mem = s.mem ∧ (addReply s id r (.done w)).req id = none ∧
      (addReply s id r (.done w)).ctx n = requestEnded id (s.ctx n) := by
  have hdone : addReply s id r (.done w) = (dropReq s id).updCtx n (requestEnded id) := addDone_dropped hr hn hq
  rw [hdone, State.ctx_updCtx, (dropReq_spares hr).ctx n]
  exact ⟨(dropReq_spares hr).mem, req_dropReq hr, rfl⟩

/-! ## Faults of an add (R391, R417) -/

theorem ctxAddFault_live (code : Nat) (v : Word) (fu : Nat) (hs : ∀ k ∈ s.dist.kerns, k.saved = []) :
    ctxAddFault s id n code v fu = deliverFault s n code v fu := by
  have hnone : (s.dist.kerns.any fun k => k.saved.any fun m => m.adds.contains id) = false :=
    List.any_eq_false.2 fun k hk => by simp [hs k hk]
  unfold ctxAddFault
  rw [hnone]
  rfl

theorem addFault_add (hn : r.src = .ctxAdd n) (code fu : Nat) :
    addFault s id r code fu = ctxAddFault s id n code r.va fu := by
  rw [addFault, hn]

theorem addFault_wait (hn : r.src = .ctxWait n) (code fu : Nat) :
    addFault s id r code fu = deliverFault s n code r.va fu := by
  rw [addFault, hn]

theorem judged_add (hn : r.src = .ctxAdd n) (code : Nat) : r.src.judged code = !isSoft code := by
  unfold ReqSrc.judged
  rw [hn]
  exact Bool.and_true _

theorem judged_wait (hn : r.src = .ctxWait n) (code : Nat) : r.src.judged code = !isSoft code := by
  unfold ReqSrc.judged
  rw [hn]
  exact Bool.and_true _

theorem failReq_soft (hr : s.req id = some r) (hn : r.src = .ctxAdd n) (hq : hasReq id (s.ctx n) = true)
    (hs : ∀ k ∈ s.dist.kerns, k.saved = []) (hd : (s.ctx n).delivered.length < 16) (hw : ∀ p ∈ (s.ctx n).walks, p.1 ≠ 0) :
    (failReq s id r 0x2A).req id = none ∧ (failReq s id r 0x2A).ctx n =
      { requestEnded id (s.ctx n) with delivered := (s.ctx n).delivered ++ [(0x2A, r.va, 0)] } := by
  have hctx : ((dropReq s id).updCtx n (requestEnded id)).ctx n = requestEnded id (s.ctx n) := by
    rw [State.ctx_updCtx, (dropReq_spares hr).ctx n]
  have hfail : failReq s id r 0x2A = deliverFault ((dropReq s id).updCtx n (requestEnded id)) n 0x2A r.va 0 := by
    have hkerns : ∀ k ∈ ((dropReq s id).updCtx n (requestEnded id)).dist.kerns, k.saved = [] := fun k hk =>
      hs k (by rwa [← show (dropReq s id).dist.kerns = s.dist.kerns from (sends_dropReq hr).kerns])
    have hended : failReq s id r 0x2A = addFault (addDone (dropReq s id) id r) id r 0x2A 0 := by
      rw [failReq, judged_add hn]
      dsimp only
      rw [hn]
      rfl
    rw [hended, addDone_dropped hr hn hq, addFault_add hn]
    exact ctxAddFault_live _ _ _ hkerns
  rw [hfail, deliverFault_waits 0x2A r.va (by rw [hctx]; exact hd) (by rw [hctx]; exact fun p hp => hw p (mem_del hp).2),
    State.ctx_setCtx, hctx]
  exact ⟨req_dropReq hr, rfl⟩

theorem tries_of_req (hr : s.req id = some r) (htries : ∀ p ∈ s.reqs, p.1 = id → p.2.tries ≠ 0) : r.tries ≠ 0 := by
  obtain ⟨p, hp, rfl⟩ := Option.map_eq_some_iff.1 hr
  exact htries p (List.mem_of_find?_eq_some hp) (by simpa using List.find?_some hp)

/-- A request that is marked, whose source then may send its next, stands as it was marked. -/
theorem sends_marked (hr : s.req id = some r) (htries : ∀ p ∈ s.reqs, p.1 = id → p.2.tries ≠ 0) {f : Req → Req}
    (hf : (f r).tries = r.tries) :
    Sends id { s with reqs := KMap.put s.reqs id (f r) } (nextReq (updReq s id f) r.src.sid) := by
  rw [updReq_of_some hr]
  refine sends_nextReq _ _ fun p hp hi => ?_
  rcases mem_of_mem_put hp with rfl | hp
  · rw [hf]
    exact tries_of_req hr htries
  · exact htries p hp hi

/-- A request of a context that fails stands answered until its fate is known (R423). -/
theorem failReq_judged {code : Nat} (hr : s.req id = some r) (hn : r.src = .ctxAdd n ∨ r.src = .ctxWait n)
    (hsoft : isSoft code = false) (htries : ∀ p ∈ s.reqs, p.1 = id → p.2.tries ≠ 0)
    (hs : r.src = .ctxAdd n → ∀ k ∈ s.dist.kerns, k.saved = []) (hd : (s.ctx n).delivered.length < 16)
    (hw : ∀ p ∈ (s.ctx n).walks, p.1 ≠ reqUnit id) :
    (failReq s id r code).mem = s.mem ∧ (failReq s id r code).req id = some { r with answered := true, performed := true } ∧
      (failReq s id r code).ctx n = { s.ctx n with delivered := (s.ctx n).delivered ++ [(code, r.va, reqUnit id)] } := by
  have hsends := sends_marked hr htries (f := fun r => { r with answered := true, performed := true }) rfl
  have hctx := hsends.spares.ctx n
  have hfail : failReq s id r code = deliverFault
      (nextReq (updReq s id fun r => { r with answered := true, performed := true }) r.src.sid) n code r.va (reqUnit id) := by
    have hjudged : r.src.judged code = true := by
      rcases hn with hn | hn
      · rw [judged_add hn, hsoft]
        rfl
      · rw [judged_wait hn, hsoft]
        rfl
    rw [failReq, if_pos hjudged]
    rcases hn with hn | hn
    · rw [addFault_add hn]
      exact ctxAddFault_live _ _ _ fun k hk => hs hn k (by rwa [← hsends.kerns])
    · exact addFault_wait hn _ _
  rw [hfail, deliverFault_waits code r.va (by rw [hctx]; exact hd) (by rw [hctx]; exact hw), State.ctx_setCtx, hctx]
  exact ⟨hsends.spares.mem, hsends.req.trans (req_put_same s _ _), rfl⟩

/-! ## Replies to a wait (R393) -/

theorem waitAcked_spec (hr : s.req id = some r) (hn : r.src = .ctxWait n)
    (htries : ∀ p ∈ s.reqs, p.1 = id → p.2.tries ≠ 0) : (waitAcked s id r).req id = some { r with answered := true } ∧
      (waitAcked s id r).mem = s.mem ∧ (waitAcked s id r).ctx n = requestEnded id (s.ctx n) := by
  have hsends := sends_marked hr htries (f := fun r => { r with answered := true }) rfl
  have hacked : waitAcked s id r =
      (nextReq (updReq s id fun r => { r with answered := true }) r.src.sid).updCtx n (requestEnded id) := by
    unfold waitAcked
    rw [hn]
    rfl
  rw [hacked, State.ctx_updCtx, hsends.spares.ctx n]
  exact ⟨hsends.req.trans (req_put_same s _ _), hsends.spares.mem, rfl⟩

theorem waitFull_spec (hr : s.req id = some r) (htries : ∀ p ∈ s.reqs, p.1 = id → p.2.tries ≠ 0) :
    (waitReply s id r .full).req id = some { r with answered := true } ∧ (waitReply s id r .full).ctxs = s.ctxs ∧
      ⟨s.clk + 256, false, .counterWaitResend id⟩ ∈ (waitReply s id r .full).cal := by
  have hsends := sends_marked hr htries (f := fun r => { r with answered := true }) rfl
  have hfull : waitReply s id r .full = (nextReq (updReq s id fun r => { r with answered := true }) r.src.sid).at
      (s.clk + 256) false (.counterWaitResend id) := rfl
  rw [hfull]
  exact ⟨hsends.req.trans (req_put_same s _ _), hsends.spares.ctxs, State.mem_at _ _ _ _⟩

theorem waitDone_spec (hr : s.req id = some r) (hn : r.src = .ctxWait n) (w : Word) :
    (waitDone s id r w).mem = s.mem ∧ (waitDone s id r w).req id = none ∧
      (waitDone s id r w).ctx n = waitGot id w (s.ctx n) := by
  have hdone : waitDone s id r w = (dropReq s id).updCtx n (waitGot id w) := by
    unfold waitDone
    rw [hn]
    rfl
  rw [hdone, State.ctx_updCtx, (dropReq_spares hr).ctx n]
  exact ⟨(dropReq_spares hr).mem, req_dropReq hr, rfl⟩

end

end Sys2Proof.Machine
end


section
/-!
PROOFS. Requests that are sent again, and what a source asks for in the end (O47).
-/

namespace Sys2Proof.Machine

theorem mem_of_mem_calInsert {x t : Timed} {l : List Timed} (h : x ∈ calInsert t l) : x = t ∨ x ∈ l := by
  induction l with
  | nil => exact .inl (List.mem_singleton.1 h)
  | cons y l ih =>
    rw [calInsert] at h
    split at h
    · exact List.mem_cons.1 h
    · rcases List.mem_cons.1 h with rfl | h
      · exact .inr List.mem_cons_self
      · exact (ih h).imp_right (List.mem_cons_of_mem _)

theorem le_sliceFree (s : State) (slice : Nat) (f : Nat) : ∀ t, t ≤ sliceFree s slice t f := by
  induction f with
  | zero => exact fun t => le_rfl
  | succ f ih =>
    intro t
    rw [sliceFree]
    split
    · exact (Nat.le_succ t).trans (ih _)
    · exact le_rfl

/-- A slice with no counter operation ahead is free at once. -/
theorem sliceFree_idle {s : State} (h : ∀ x ∈ s.cal, ∀ i, x.ev ≠ .counterAddPerformed i ∧ x.ev ≠ .counterWaitPerformed i)
    (slice t f : Nat) : sliceFree s slice t f = t := by
  cases f with
  | zero => rfl
  | succ f =>
    have hidle : sliceBusy s slice t = false := by
      refine List.any_eq_false.2 fun x hx => ?_
      rw [Bool.and_eq_true, not_and]
      intro _
      split
      · next i hi => exact absurd hi (h x hx i).1
      · next i hi => exact absurd hi (h x hx i).2
      · exact Bool.false_ne_true
    rw [sliceFree, hidle]
    rfl

/-- A request as its source posts it. -/
def newReq (s : State) (src : ReqSrc) (va : Word) (pa : Nat) (v : Word) : Req :=
  { src := src, va := va, pa := pa, val := v, sentAt := 0, tries := 0, performed := false, registered := false
    seqNo := KMap.get 0 s.srcSeq src.sid, answered := false, got := none, arrived := 0 }

/-- The state in which a source has used a sequence number (R302). -/
def numbered (s : State) (sid : Nat) : State :=
  { s with srcSeq := KMap.set 0 s.srcSeq sid (KMap.get 0 s.srcSeq sid + 1) }

/-- A request of a source with room among its eight is sent at once. -/
theorem postAs_sent {s : State} {src : ReqSrc} (ho : openOf s src.sid < 8) (id : Nat) (va : Word) (pa : Nat) (v : Word) :
    postAs s id src va pa v = sendReq (numbered s src.sid) id (newReq s src va pa v) :=
  if_neg (Nat.not_le.2 ho)

section
variable {s : State} {id : Nat} {r : Req}

theorem noQueue_of_isWait {src : ReqSrc} (h : src.isWait = true) (n fu : Nat) : src ≠ .queue n fu := by
  rintro rfl
  cases h

/-- A wait that found the table full is sent again as a new request (R393). -/
theorem counterWaitResend_spec (hr : s.req id = some r) (hreg : r.registered = false) (hw : r.src.isWait = true)
    (ho : openOf s r.src.sid < 8) :
    let r' := sentNow s (newReq s r.src r.va r.pa r.val)
    ∃ t, exec (.counterWaitResend id) s = .next t ∧ (t.mem = s.mem ∧ t.ctxs = s.ctxs ∧ t.cores = s.cores) ∧
      t.req id = some r' ∧
      (∀ h, r.src.place = some h → h < 256 → (t.router h).inject = (s.router h).inject ++ [(0, reqPacket s h r', 0, none)]) ∧
      (r.src.place = none → ∃ d, 1 ≤ d ∧ ⟨s.clk + d, true, .counterWaitPerformed id⟩ ∈ t.cal ∧
        ((∀ x ∈ s.cal, ∀ i, x.ev ≠ .counterAddPerformed i ∧ x.ev ≠ .counterWaitPerformed i) → d ≤ 300)) := by
  intro r'
  have hq := noQueue_of_isWait hw
  have hhome : r.src.toHome = true := toHome_of_noQueue hq
  let u := listedReq (numbered s r.src.sid) id (newReq s r.src r.va r.pa r.val)
  have hex : exec (.counterWaitResend id) s = .next (deliverReq u id r') := by
    rw [← show sendReq (numbered s r.src.sid) id (newReq s r.src r.va r.pa r.val) = deliverReq u id r' from
      sendReq_eq _ _ (newReq s r.src r.va r.pa r.val) hq, ← postAs_sent ho]
    show execCounterWaitResend id s = _
    rw [execCounterWaitResend, hr]
    dsimp only
    rw [hreg]
    rfl
  have hsends : Sends id u (deliverReq u id r') := sends_deliverReq_self u r' hq
  refine ⟨_, hex, ⟨hsends.spares.mem, hsends.spares.ctxs, hsends.cores⟩, hsends.req.trans (req_listedReq _ _ _),
    fun h hp hh => ?_, fun hp => ?_⟩
  · have hdel : deliverReq u id r' = injectAt u h 0 (reqPacket u h r') := by
      unfold deliverReq
      rw [show r'.src.place = some h from hp]
      dsimp only
      rw [show r'.src.toHome = true from hhome, if_pos hh]
      rfl
    rw [hdel, injectAt, State.router_updRouter]
    rfl
  · have hdel : deliverReq u id r' = stepReq u id r' := by
      unfold deliverReq
      rw [show r'.src.place = none from hp]
    have hdraw : 1 ≤ (drawNat u 1 300).1 ∧ (drawNat u 1 300).1 ≤ 300 := by
      have := Nat.mod_lt (Config.freeNat u.free) (show 0 < 300 - 1 + 1 by decide)
      constructor
      · exact Nat.le_add_right _ _
      · show 1 + Config.freeNat u.free % (300 - 1 + 1) ≤ 300
        omega
    let v : State := { u with free := u.free + 1 }
    have hle := le_sliceFree v (homeSlice r'.pa) u.cal.length (s.clk + (drawNat u 1 300).1)
    refine ⟨sliceFree v (homeSlice r'.pa) (s.clk + (drawNat u 1 300).1) u.cal.length - s.clk, by omega, ?_, fun hidle => ?_⟩
    · rw [hdel, stepReq_eq u id r' hq, show r'.src.isWait = true from hw, Nat.add_sub_cancel' (by omega)]
      exact State.mem_at _ _ _ _
    · rw [sliceFree_idle]
      · omega
      · intro x hx i
        rcases mem_of_mem_calInsert hx with rfl | hx
        · exact ⟨by simp, by simp⟩
        · exact hidle x hx i

theorem requestTimeout_eq (hr : s.req id = some r) (ha : r.answered = false) (ht : 0 < r.tries)
    (hclk : r.sentAt + 8192 ≤ s.clk) (hq : ∀ n fu, r.src ≠ .queue n fu) : exec (.requestTimeout id) s =
      .next (if r.tries < 4 then sendReq s id r else failReq s id r 0x3D) := by
  show execRequestTimeout id s = _
  rw [execRequestTimeout, hr]
  dsimp only
  rw [if_neg ht.ne', ha, decide_eq_false (Nat.not_lt.2 hclk)]
  split
  · next h => cases h
  · split
    · rfl
    · split
      · next n fu hsrc => exact absurd hsrc (hq n fu)
      · rfl

end

end Sys2Proof.Machine
end


section
/-!
PROOFS. Barrier messages at their nodes and packets of pod barriers (O47).
-/

namespace Sys2Proof.Machine

/-! ## Completed phases (R397, R398) -/

/-- From `s` to `t` the reporting contexts ns are told of m's phase: in time, and with no other change of memory, contexts and
cores. -/
structure PhaseTold (s t : State) (m : BarMsg) (ns : List Nat) : Prop where
  msg : (s.serial, (⟨0, m.bar, m.conf, m.phase, ns⟩ : BarMsg)) ∈ t.barMsgs
  due : ⟨s.clk + barDelay (cfScope m.conf), false, .barrierPhaseUpdate s.serial⟩ ∈ t.cal
  mem : t.mem = s.mem
  ctxs : t.ctxs = s.ctxs
  cores : t.cores = s.cores

theorem phaseTold_completeAt (s : State) (m : BarMsg) (ns : List Nat) :
    PhaseTold s (completeAt s ns m.bar m.conf m.phase) m ns :=
  ⟨mem_put .., State.mem_at .., rfl, rfl, rfl⟩

theorem phaseTold_phaseFull (s : State) (m : BarMsg) (ns : List Nat) (h : cfScope m.conf < 5) :
    PhaseTold s (phaseFull s m ns) m ns := by
  unfold phaseFull
  dsimp only
  rw [if_neg h.ne]
  exact ⟨mem_put .., State.mem_at .., rfl, rfl, rfl⟩

theorem listUpd_of_find?_none {α : Type} {p : α → Bool} {l : List α} (h : l.find? p = none) (f : α → α) : listUpd p f l = l :=
  (List.map_congr_left fun x hx => if_neg (List.find?_eq_none.1 h x hx)).trans (List.map_id' l)

/-! ## Reports at their node (R397) -/

/-- Is a key that of message m? -/
def atNode (m : BarMsg) (x : BarNode) : Bool := x.is (cfScope m.conf) (barInst (cfScope m.conf) m.n) m.bar (cfGroup m.conf)

/-- The key that the first report of message m makes at its node. -/
def newNode (m : BarMsg) : BarNode :=
  ⟨cfScope m.conf, barInst (cfScope m.conf) m.n, m.bar, cfGroup m.conf, cfNmodm m.conf, 0, []⟩

theorem atNode_newNode (m : BarMsg) : atNode m (newNode m) = true := by simp [atNode, newNode, BarNode.is]

/-- A node whose key has the counts cs. -/
def countsPut (m : BarMsg) (cs : List BarCount) (s : State) : State :=
  { s with barNodes := listUpd (atNode m) (fun y => { y with counts := cs }) s.barNodes }

section
variable {s : State} {m : BarMsg}

/-- The first report of a phase at its key. -/
theorem countReport_first {x : BarNode} (hd : x.done.toNat < m.phase.toNat)
    (hc : (x.counts.find? fun c => c.phase = m.phase) = none) : countReport s m x =
      if cfNpart m.conf = 1 then phaseFull (countsPut m (x.counts ++ [⟨m.phase, cfNpart m.conf, [m.n], []⟩]) s) m [m.n]
      else countsPut m (x.counts ++ [⟨m.phase, cfNpart m.conf, [m.n], []⟩]) s := by
  unfold countReport
  dsimp only
  rw [if_neg (Nat.not_le.2 hd), hc]
  rfl

/-- The last report of a phase at its key. -/
theorem countReport_last {x : BarNode} {c : BarCount} (hd : x.done.toNat < m.phase.toNat)
    (hc : (x.counts.find? fun c => c.phase = m.phase) = some c) (hp : c.npart = cfNpart m.conf)
    (hl : c.ctxs.length + 1 = c.npart) : countReport s m x =
      phaseFull (countsPut m ((x.counts.filter fun c => c.phase ≠ m.phase) ++ [{ c with ctxs := c.ctxs ++ [m.n] }]) s) m
        (c.ctxs ++ [m.n]) := by
  unfold countReport
  dsimp only
  rw [if_neg (Nat.not_le.2 hd), hc]
  dsimp only
  rw [if_neg (not_not.2 hp), if_pos (by simpa using hl)]
  rfl

variable {id : Nat}

/-- The state in which barrier message `id` has arrived. -/
def barTaken (s : State) (id : Nat) : State := { s with barMsgs := s.barMsgs.del id }

theorem barrierReport_local (hm : (s.barMsgs.find? fun p => p.1 = id) = some (id, m)) (h0 : cfScope m.conf = 0) :
    exec (.barrierReport id) s = .next (completeAt (barTaken s id) [m.n] m.bar m.conf m.phase) := by
  show execBarrierReport id s = _
  rw [execBarrierReport, hm]
  dsimp only [Option.map_some]
  rw [if_pos h0]
  rfl

theorem barrierReport_known {x : BarNode} (hm : (s.barMsgs.find? fun p => p.1 = id) = some (id, m)) (h0 : 0 < cfScope m.conf)
    (hx : s.barNodes.find? (atNode m) = some x) :
    exec (.barrierReport id) s = .next (countReport (barTaken s id) m x) := by
  show execBarrierReport id s = _
  rw [execBarrierReport, hm]
  dsimp only [Option.map_some]
  rw [if_neg h0.ne', show (s.barNodes.find? fun x => x.is (cfScope m.conf) (barInst (cfScope m.conf) m.n) m.bar
    (cfGroup m.conf)) = some x from hx]
  rfl

theorem barrierReport_new (hm : (s.barMsgs.find? fun p => p.1 = id) = some (id, m)) (h0 : 0 < cfScope m.conf)
    (hx : s.barNodes.find? (atNode m) = none) (hroom : (s.barNodes.filter fun x =>
      x.level = cfScope m.conf ∧ x.inst = barInst (cfScope m.conf) m.n).length < nodeCap (cfScope m.conf)) :
    exec (.barrierReport id) s =
      .next (countReport { barTaken s id with barNodes := s.barNodes ++ [newNode m] } m (newNode m)) := by
  show execBarrierReport id s = _
  rw [execBarrierReport, hm]
  dsimp only [Option.map_some]
  rw [if_neg h0.ne', show (s.barNodes.find? fun x => x.is (cfScope m.conf) (barInst (cfScope m.conf) m.n) m.bar
    (cfGroup m.conf)) = none from hx]
  dsimp only
  rw [if_neg (Nat.not_le.2 hroom)]
  rfl

theorem listUpd_newNode (hx : s.barNodes.find? (atNode m) = none) (cs : List BarCount) :
    listUpd (atNode m) (fun y => { y with counts := cs }) (s.barNodes ++ [newNode m]) =
      s.barNodes ++ [{ newNode m with counts := cs }] := by
  have hold := listUpd_of_find?_none hx fun y => { y with counts := cs }
  rw [listUpd] at hold ⊢
  rw [List.map_append, hold, List.map_singleton, if_pos (atNode_newNode m)]

/-! ## Phases that become readable (R398) -/

theorem raisePhase_of_met {b : Barrier} {conf : BitVec 58} {q : Word} (hc : b.cfg = true) (hs : cfScope b.conf = cfScope conf)
    (hg : cfGroup b.conf = cfGroup conf) (hq : b.phase.toNat < q.toNat) : raisePhase b conf q = { b with phase := q } :=
  if_pos ⟨hc, hs, hg, hq⟩

theorem barrierPhaseUpdate_one {n : Nat} (hm : (s.barMsgs.find? fun p => p.1 = id) = some (id, m)) (ht : m.tos = [n])
    (hl : (s.ctx n).live = true) : exec (.barrierPhaseUpdate id) s =
      .next ((barTaken s id).updCore (coreOf n) fun k =>
        ({ k with bars := raiseBar m.bar m.conf m.phase k.bars } : Core).count 0x0F 1) := by
  show execBarrierPhaseUpdate id s = _
  rw [execBarrierPhaseUpdate, hm]
  dsimp only [Option.map_some]
  rw [ht]
  exact congrArg Host.Outcome.next (if_pos hl)

end

/-! ## Pod packets (R399) -/

theorem mem_calInsert_of_mem {x : Timed} (t : Timed) {l : List Timed} (h : x ∈ l) : x ∈ calInsert t l := by
  induction l with
  | nil => exact absurd h List.not_mem_nil
  | cons y l ih =>
    rw [calInsert]
    split
    · exact List.mem_cons_of_mem _ h
    · rcases List.mem_cons.1 h with rfl | h
      · exact List.mem_cons_self
      · exact List.mem_cons_of_mem _ (ih h)

/-- The configuration that a pod packet stands for has the scope of a pod. -/
theorem cfScope_podConf (m : PodMsg) : cfScope (podConf m) = 5 := by
  have hn := m.nmodm.isLt
  have hg := m.group.isLt
  rw [cfScope, podConf, bits, BitVec.toNat_ofNat, Nat.shiftRight_zero]
  omega

section
variable {s : State} {id : Nat} {m : PodMsg}

/-- The state in which pod message `id` has arrived. -/
def podTaken (s : State) (id : Nat) : State := { s with podMsgs := s.podMsgs.del id }

theorem podBarrierPacket_phase (hm : (s.podMsgs.find? fun p => p.1 = id) = some (id, m)) (hd : m.dest = none)
    (hk : m.kind = true) : exec (.podBarrierPacket id) s =
      .next (podComplete (podTaken s id) m.bar.toNat m.group m.phase (podConf m)) := by
  show execPodBarrierPacket id s = _
  rw [execPodBarrierPacket, hm]
  dsimp only [Option.map_some]
  rw [hd, hk]
  rfl

theorem podBarrierPacket_report {x : BarNode} (hm : (s.podMsgs.find? fun p => p.1 = id) = some (id, m)) (hd : m.dest = none)
    (hk : m.kind = false) (hx : (s.barNodes.find? fun x => x.is 6 0 m.bar.toNat m.group) = some x)
    (hn : x.nmodm = m.nmodm.toNat) : exec (.podBarrierPacket id) s =
      .next (rootReport (podTaken s id) m.bar.toNat m.group x.nmodm m.src.toNat m.phase (podConf m)) := by
  have hholds : rootHolds (podTaken s id) m.bar.toNat m.group = some x.nmodm := by
    unfold rootHolds
    rw [show ((podTaken s id).barNodes.find? fun x => x.is 6 0 m.bar.toNat m.group) = some x from hx]
  show execPodBarrierPacket id s = _
  rw [execPodBarrierPacket, hm]
  dsimp only [Option.map_some]
  rw [hd, hk]
  dsimp only
  rw [show rootHolds { s with podMsgs := s.podMsgs.del id } m.bar.toNat m.group = some x.nmodm from hholds]
  exact if_pos hn

theorem podBarrierPacket_send {k : Nat} (hm : (s.podMsgs.find? fun p => p.1 = id) = some (id, m)) (hd : m.dest = some k)
    (hk : k ≠ s.mgmt.modn.toNat) : exec (.podBarrierPacket id) s =
      .next (enterFabric (podTaken s id) (podPacket s k ⟨true, m.bar, m.group, m.nmodm, s.mgmt.modn, m.phase, none⟩)) := by
  show execPodBarrierPacket id s = _
  rw [execPodBarrierPacket, hm]
  dsimp only [Option.map_some]
  rw [hd]
  dsimp only
  rw [rootAnswer, if_neg hk, BitVec.ofNat_toNat, BitVec.ofNat_toNat, BitVec.setWidth_eq, BitVec.setWidth_eq]
  rfl

/-- What a completed phase of a pod does at its own module. -/
theorem podComplete_told {x : BarNode} {bar : Nat} {group : BitVec 16} (q : Word) (conf : BitVec 58)
    (hx : (s.barNodes.find? fun x => x.is 5 0 bar group) = some x) :
    PhaseTold s (podComplete s bar group q conf) ⟨0, bar, conf, q, []⟩ (x.reporters q) := by
  unfold podComplete
  dsimp only
  rw [hx]
  exact ⟨mem_put .., State.mem_at .., rfl, rfl, rfl⟩

/-- The message by which ROOT tells a module later. -/
def laterMsg (s : State) (bar : Nat) (group : BitVec 16) (nmodm : Nat) (q : Word) (k : Nat) : PodMsg :=
  ⟨true, BitVec.ofNat 7 bar, group, BitVec.ofNat 10 nmodm, s.mgmt.modn, q, some k⟩

/-- ROOT tells each module that reported, and nothing else of memory, contexts and cores changes. -/
theorem rootLater_all (bar : Nat) (group : BitVec 16) (nmodm : Nat) (q : Word) (l : List Nat) (s : State) :
    let t := l.foldl (fun s k => rootLater s bar group nmodm q k) s
    (t.mem = s.mem ∧ t.ctxs = s.ctxs ∧ t.cores = s.cores) ∧
    (∀ e ∈ s.cal, e ∈ t.cal) ∧ (∀ p ∈ s.podMsgs, p.1 < s.serial → p ∈ t.podMsgs) ∧
    ∀ k ∈ l, ∃ i, ⟨s.clk + 400, false, .podBarrierPacket i⟩ ∈ t.cal ∧ (i, laterMsg s bar group nmodm q k) ∈ t.podMsgs := by
  induction l generalizing s with
  | nil => exact ⟨⟨rfl, rfl, rfl⟩, fun _ h => h, fun _ h _ => h, fun _ h => absurd h List.not_mem_nil⟩
  | cons k l ih =>
    obtain ⟨⟨hmem, hctxs, hcores⟩, hcal, hmsgs, hall⟩ := ih (rootLater s bar group nmodm q k)
    refine ⟨⟨hmem, hctxs, hcores⟩, fun e he => hcal e (mem_calInsert_of_mem _ he), fun p hp hlt => ?_, fun j hj => ?_⟩
    · exact hmsgs p (mem_put_of_ne _ hp hlt.ne) (Nat.lt_succ_of_lt hlt)
    · rcases List.mem_cons.1 hj with rfl | hj
      · exact ⟨s.serial, hcal _ (State.mem_at ..), hmsgs _ (mem_put ..) (Nat.lt_succ_self _)⟩
      · exact hall j hj

/-- The last module's report at ROOT. -/
theorem rootReport_last {x : BarNode} {c : BarCount} {bar : Nat} {group : BitVec 16} {src : Nat} {q : Word}
    (conf : BitVec 58) (hx : (s.barNodes.find? fun x => x.is 6 0 bar group) = some x) (hd : x.done.toNat < q.toNat)
    (hc : (x.counts.find? fun c => c.phase = q) = some c) (hl : c.mods.length = x.nmodm) (hs : src ∉ c.mods) (nmodm : Nat) :
    rootReport s bar group nmodm src q conf = (c.mods ++ [src]).foldl (fun s k => rootLater s bar group nmodm q k)
      { s with barNodes := listUpd (fun y => y.is 6 0 bar group) (fun y => closePhase y q) s.barNodes } := by
  have hknown : (s.barNodes.any fun x => x.is 6 0 bar group) = true :=
    List.any_eq_true.2 ⟨x, List.mem_of_find?_eq_some hx, List.find?_some (p := fun x : BarNode => x.is 6 0 bar group) hx⟩
  unfold rootReport
  dsimp only
  rw [hknown, Bool.true_or, if_pos rfl, hx]
  dsimp only
  rw [if_neg (Nat.not_le.2 hd), hc]
  dsimp only [Option.map_some, Option.getD_some]
  have hmods : (if c.mods.contains src = true then c.mods else c.mods ++ [src]) = c.mods ++ [src] :=
    if_neg (by simpa using hs)
  have hlen : (c.mods ++ [src]).length = x.nmodm + 1 := by simpa using hl
  simp only [hmods, if_pos hlen]

end

end Sys2Proof.Machine
end


section
/-!
PROOFS. Requests and barrier messages: the statement (O47).
-/

namespace Sys2Proof.Machine

/-- A home slice's reply goes to its source as a packet. -/
theorem sendReply_placed {s : State} {id : Nat} {r : Req} {h : Nat} (x : Reply) (hp : r.src.place = some h) :
    sendReply s id r x = enterFabric s (replyPacket s h r) := by
  rw [sendReply, hp]

/-- A packet that enters the base-die fabric is handed on later. -/
theorem enterFabric_due (s : State) (p : Packet) :
    ∃ d, s.clk < d ∧ ⟨d, false, .gatewayPacketForward s.serial⟩ ∈ (enterFabric s p).cal := by
  refine ⟨_, ?_, State.mem_at ..⟩
  exact (Nat.lt_add_of_pos_right (Nat.add_pos_left Nat.one_pos _)).trans_le (le_max_left _ _)

section
variable {s : State} {id : Nat} {r : Req}

/-- A wait performed for the first time: what its home answers, and what it leaves. -/
theorem counterWaitPerformed_spec (hr : s.req id = some r) (hg : r.got = none) (hreg : r.registered = false)
    (hk : keptReply s r = none) {u0 : State} {x : Reply} {r' : Req}
    (hp : performWait s id r = (u0, x)) (hrest : u0.mem = s.mem ∧ u0.ctxs = s.ctxs ∧ u0.cores = s.cores)
    (hr' : u0.req id = some r') :
    ∃ u, (exec (.counterWaitPerformed id) s = .next (sendReply u id r x) ∧ keptReply u r = some x) ∧
      (u.mem = s.mem ∧ u.ctxs = s.ctxs ∧ u.cores = s.cores) ∧ u.req id = some { r' with performed := true } ∧
      u.waiters = u0.waiters := by
  have hex := counterWaitPerformed_first hr hg hreg hk
  rw [waitedState, hp, updReq_of_some hr'] at hex
  obtain ⟨hmem, hctxs, hcores⟩ := hrest
  exact ⟨_, ⟨hex, keptReply_keepReply _ _ _⟩, ⟨hmem, hctxs, hcores⟩, req_put_same u0 _ _, rfl⟩

end

/-- Settles O47: adds, waits, replies and their failures by what each does to the table of requests, barrier reports by their
node's key, pod packets by what ROOT and a module do with them. -/
theorem requestsAndBarriers : Obligations.RequestsAndBarriers := by
  unfold Obligations.RequestsAndBarriers
  refine ⟨fun s id r hinv hr => ?_, fun s id m hm => ?_, fun s id m hm => ?_⟩
  · intro v asked sum same performs
    refine ⟨fun h x hp => ?_, fun hk he hb => ⟨fun hlt => ?_, fun hle => ?_⟩,
      fun x hk he => counterAddPerformed_kept hr hk he, fun hg hreg hk hb => ⟨fun hle => ?_, fun hlt hroom => ?_, fun hlt hroom => ?_⟩,
      fun hg ha htries => ⟨fun n w hn hk hq => ?_, fun n f w hn hk hq hs hd => ⟨fun hf hw => ?_, fun hf hw => ?_⟩,
        fun n hn => ⟨fun hk => ?_, fun hk => ?_⟩⟩, fun n w hn hw => ?_,
      fun hreg hw ho => ?_, fun ha ht hclk => ⟨fun h4 hq => ?_, fun n h4 hn hd hw htries => ?_⟩⟩
    · obtain ⟨d, hd, hmem⟩ := enterFabric_due s (replyPacket s h r)
      exact ⟨_, d, sendReply_placed x hp, ⟨rfl, rfl, rfl⟩, rfl, mem_transit_enterFabric s _, hd, hmem⟩
    · obtain ⟨hrd, hcores, hctxs, hoff, hself, hwaits⟩ := addedState_spec hinv hr (v + r.val) (.done 0)
      exact ⟨_, ⟨counterAddPerformed_first hr hk he (performAdd_sum hb hlt), keptReply_keepReply _ _ _⟩,
        ⟨hrd, hcores, hctxs, hoff⟩, hself, fun i x hi hne hx hpa hle => hwaits i x hi hne hx hpa hle⟩
    · obtain ⟨hrd, hcores, hctxs, hoff, -⟩ := addedState_spec hinv hr (BitVec.allOnes 64) (.fault 0x2A r.va)
      exact ⟨_, ⟨counterAddPerformed_first hr hk he (performAdd_overflow hb hle), keptReply_keepReply _ _ _⟩,
        hrd, hcores, hctxs, hoff⟩
    · obtain ⟨u, hu, hsame, hreq, -⟩ := counterWaitPerformed_spec hr hg hreg hk
        ((performWait_clean hb).trans (if_pos hle)) ⟨rfl, rfl, rfl⟩ hr
      exact ⟨u, hu, hsame, hreq⟩
    · have hp := (performWait_clean (id := id) hb).trans ((if_neg (Nat.not_le.2 hlt)).trans (if_neg (Nat.not_le.2 hroom)))
      rw [updReq_of_some hr] at hp
      obtain ⟨u, hu, hsame, hreq, hwaiters⟩ := counterWaitPerformed_spec hr hg hreg hk hp ⟨rfl, rfl, rfl⟩ (req_put_same s _ _)
      exact ⟨u, hu, hsame, hwaiters, hreq⟩
    · obtain ⟨u, hu, hsame, -, hwaiters⟩ := counterWaitPerformed_spec hr hg hreg hk
        ((performWait_clean hb).trans ((if_neg (Nat.not_le.2 hlt)).trans (if_pos hroom))) ⟨rfl, rfl, rfl⟩ hr
      exact ⟨u, hu, hsame, hwaiters⟩
    · rw [ctrTake_kept hg ha hk, ctrReply_add hn]
      exact addReply_done hr hn hq w
    · subst hf
      rw [ctrTake_kept hg ha hk, ctrReply_add hn]
      exact failReq_soft hr hn hq hs hd hw
    · subst hf
      rw [ctrTake_kept hg ha hk, ctrReply_add hn]
      exact (failReq_judged hr (.inl hn) rfl htries (fun _ => hs) hd hw).2
    · rw [ctrTake_kept hg ha hk, ctrReply_wait hn]
      exact waitAcked_spec hr hn htries
    · rw [ctrTake_kept hg ha hk, ctrReply_wait hn]
      exact waitFull_spec hr htries
    · have htake : ctrTake s id r = waitDone s id r w := by
        rcases hw with hgot | ⟨hgot, ha, hk⟩
        · rw [ctrTake, hgot]
        · rw [ctrTake_kept hgot ha hk, ctrReply_wait hn]
          rfl
      refine ⟨fun hgot => ?_, ?_⟩
      · rw [htake]
        show execCounterWaitPerformed id s = _
        rw [execCounterWaitPerformed, hr]
        dsimp only
        rw [hgot]
      · rw [htake]
        exact waitDone_spec hr hn w
    · exact counterWaitResend_spec hr hreg hw ho
    · obtain ⟨hspares, hcores, hreq⟩ := sendReq_spec s id r hq
      exact ⟨_, (requestTimeout_eq hr ha ht hclk hq).trans (congrArg _ (if_pos h4)), ⟨hspares.mem, hspares.ctxs, hcores⟩, hreq⟩
    · have hq (m fu : Nat) : r.src ≠ .queue m fu := by
        rw [hn]
        exact fun h => by cases h
      exact ⟨_, (requestTimeout_eq hr ha ht hclk hq).trans (congrArg _ (if_neg (Nat.not_lt.2 h4))),
        failReq_judged hr (.inr hn) rfl htries (fun h => absurd (hn.symm.trans h) (by simp)) hd hw⟩
  · intro sc inst here told
    have tell {t u : State} {ns : List Nat} (h : PhaseTold u t m ns) (hu : u.serial = s.serial ∧ u.clk = s.clk ∧
        u.mem = s.mem ∧ u.ctxs = s.ctxs ∧ u.cores = s.cores) : told t ns := by
      obtain ⟨hserial, hclk, hmem, hctxs, hcores⟩ := hu
      have hmsg := h.msg
      have hdue := h.due
      rw [hserial] at hmsg hdue
      rw [hclk] at hdue
      exact ⟨hmsg, hdue, h.mem.trans hmem, h.ctxs.trans hctxs, h.cores.trans hcores⟩
    refine ⟨fun h0 => ?_, fun h0 h5 hx hph hroom => ⟨fun h1 => ?_, fun h1 => ?_⟩, fun x c h0 h5 hx hd hc hp hl => ?_,
      fun n ht hlive => ?_⟩
    · exact ⟨_, barrierReport_local hm h0, tell (phaseTold_completeAt _ m _) ⟨rfl, rfl, rfl, rfl, rfl⟩, rfl⟩
    · refine ⟨_, (barrierReport_new hm h0 hx hroom).trans (congrArg _ ((countReport_first (x := newNode m) hph rfl).trans (if_pos h1))), ?_⟩
      exact tell (phaseTold_phaseFull _ m _ h5) ⟨rfl, rfl, rfl, rfl, rfl⟩
    · refine ⟨_, (barrierReport_new hm h0 hx hroom).trans (congrArg _ ((countReport_first (x := newNode m) hph rfl).trans (if_neg h1.ne'))),
        rfl, rfl, rfl, rfl, ?_⟩
      exact listUpd_newNode hx _
    · refine ⟨_, (barrierReport_known hm h0 hx).trans (congrArg _ (countReport_last hd hc hp hl)), ?_⟩
      exact tell (phaseTold_phaseFull _ m _ h5) ⟨rfl, rfl, rfl, rfl, rfl⟩
    · intro b hcfg hs hg hph
      refine ⟨_, barrierPhaseUpdate_one hm ht hlive, rfl, rfl, ?_, fun j hj => ?_, fun k hk => ?_⟩
      · rw [State.core_updCore, Core.bar, Core.count_eq, raiseBar, KMap.get_put_same]
        exact raisePhase_of_met hcfg hs hg hph
      · rw [State.core_updCore, Core.bar, Core.count_eq, raiseBar, KMap.get_put_other _ _ _ _ _ hj]
        rfl
      · exact State.core_updCore_other _ _ _ _ hk
  · refine ⟨fun x hd hk hx => ?_, fun x c hd hk hx hn hdone hc hl hs => ?_, fun k hd hk => ?_⟩
    · have h := podComplete_told (s := podTaken s id) m.phase (podConf m) hx
      have hdue := h.due
      rw [show cfScope (⟨0, m.bar.toNat, podConf m, m.phase, []⟩ : BarMsg).conf = 5 from cfScope_podConf m] at hdue
      exact ⟨_, podBarrierPacket_phase hm hd hk, h.mem, h.ctxs, h.cores, h.msg, hdue⟩
    · have hex := podBarrierPacket_report hm hd hk hx hn
      rw [rootReport_last (s := podTaken s id) (podConf m) hx hdone hc hl hs] at hex
      obtain ⟨⟨hmem, hctxs, hcores⟩, -, -, hall⟩ := rootLater_all m.bar.toNat m.group x.nmodm m.phase (c.mods ++ [m.src.toNat])
        { podTaken s id with
          barNodes := listUpd (fun y => y.is 6 0 m.bar.toNat m.group) (fun y => closePhase y m.phase) s.barNodes }
      refine ⟨_, hex, hmem, hctxs, hcores, fun k hk => ?_⟩
      obtain ⟨i, hdue, hmsg⟩ := hall k hk
      have hlater : laterMsg s m.bar.toNat m.group x.nmodm m.phase k =
          ⟨true, m.bar, m.group, m.nmodm, s.mgmt.modn, m.phase, some k⟩ := by
        rw [laterMsg, hn, BitVec.ofNat_toNat, BitVec.ofNat_toNat, BitVec.setWidth_eq, BitVec.setWidth_eq]
      rw [← hlater]
      exact ⟨i, hdue, hmsg⟩
    · obtain ⟨d, hlt, hdue⟩ := enterFabric_due (podTaken s id)
        (podPacket s k ⟨true, m.bar, m.group, m.nmodm, s.mgmt.modn, m.phase, none⟩)
      exact ⟨_, d, podBarrierPacket_send hm hd hk, rfl, rfl, rfl, hlt, mem_transit_enterFabric _ _, hdue⟩

end Sys2Proof.Machine
end

section
/-!
PROOFS. Packets in the routers (O51): headers, grants, slots and credits.
-/

namespace Sys2Proof.Machine

/-! ## Routers, holders and their counts -/

@[simp] theorem Router.chan_setChan (r : Router) (ch : Nat) (c : Chan) : (r.setChan ch c).chan ch = c :=
  KMap.get_set_same _ _ _ _

theorem Router.chan_setChan_other (r : Router) {ch j : Nat} (c : Chan) (h : j ≠ ch) : (r.setChan ch c).chan j = r.chan j :=
  KMap.get_set_other _ _ _ _ _ h

/-- From `s` to `t` nothing but cores changes. -/
def CoresOnly (s t : State) : Prop := t = { s with cores := t.cores }

theorem CoresOnly.trans {s t u : State} (h : CoresOnly s t) (k : CoresOnly t u) : CoresOnly s u := by
  have hu : { t with cores := u.cores } = ({ s with cores := u.cores } : State) := by rw [h]
  exact Eq.trans k hu

theorem coresOnly_countQuad (s : State) (h ev n : Nat) : CoresOnly s (s.countQuad h ev n) := by
  unfold State.countQuad
  split <;> rfl

/-- Counting at a holder changes the holder and its quad's counters alone. -/
theorem coresOnly_holderCounts (s : State) (h : Nat) (f : Holder → Holder) : CoresOnly (s.updHolder h f) (s.holderCounts h f) :=
  ((((coresOnly_countQuad _ _ _ _).trans (coresOnly_countQuad _ _ _ _)).trans (coresOnly_countQuad _ _ _ _)).trans
    (coresOnly_countQuad _ _ _ _)).trans (coresOnly_countQuad _ _ _ _)

theorem holderCounts_eq (s : State) (h : Nat) (f : Holder → Holder) :
    s.holderCounts h f = { s.updHolder h f with cores := (s.holderCounts h f).cores } := coresOnly_holderCounts s h f

/-! ## Headers (R289, R293-R296) -/

/-- From `s` to `t` channel ch of router h becomes c, and no other router, no memory and no context changes. -/
structure ChanTaken (s t : State) (h ch : Nat) (c : Chan) : Prop where
  chan : (t.router h).chan ch = c
  others : ∀ g, g ≠ h → t.router g = s.router g
  mem : t.mem = s.mem
  ctxs : t.ctxs = s.ctxs

/-- The state in which channel ch of router h is c. -/
def chanSet (s : State) (h ch : Nat) (c : Chan) : State := s.updRouter h fun r => r.setChan ch c

theorem chanTaken_chanSet (s : State) (h ch : Nat) (c : Chan) : ChanTaken s (chanSet s h ch c) h ch c where
  chan := by rw [chanSet, State.router_updRouter, Router.chan_setChan]
  others _ hg := State.router_updRouter_other _ _ _ _ hg
  mem := rfl
  ctxs := rfl

/-- What leaves the routers, memory and contexts of a state in which a channel has been taken. -/
theorem ChanTaken.of_routers {s t u : State} {h ch : Nat} {c : Chan} (k : ChanTaken s t h ch c) (hr : u.routers = t.routers)
    (hm : u.mem = t.mem) (hc : u.ctxs = t.ctxs) : ChanTaken s u h ch c where
  chan := by rw [State.router, hr]; exact k.chan
  others g hg := by rw [State.router, hr]; exact k.others g hg
  mem := hm.trans k.mem
  ctxs := hc.trans k.ctxs

theorem malformed_eq (s : State) (h : Nat) : malformed s h =
    { s.updHolder h fun x => { x with malf := sat32 x.malf } with
      cores := (malformed s h).cores, bb := (malformed s h).bb, bbseq := (malformed s h).bbseq } := by
  unfold malformed
  rw [holderCounts_eq]
  rfl

theorem ChanTaken.malformed {s t : State} {h ch : Nat} {c : Chan} (k : ChanTaken s t h ch c) :
    ChanTaken s (Machine.malformed t h) h ch c := by
  rw [malformed_eq]
  exact k.of_routers rfl rfl rfl

theorem malf_malformed (s : State) (h : Nat) : ((malformed s h).holder h).malf = sat32 (s.holder h).malf := by
  rw [malformed_eq]
  exact (congrArg Holder.malf (State.holder_updHolder s h fun x => { x with malf := sat32 x.malf }) :)

/-- A channel whose head packet has been routed (R296). -/
def routedChan (s : State) (c : Chan) (f : Flit) (l : List Flit) : Chan :=
  { c with flits := { f with wclk := s.clk - (if f.early then 2 else 1) } :: l, who := some (f.pkt.flow, f.pkt.snode, f.wclk) }

/-- The state in which a routed channel has the output channel that its port gives it, if it gives one (R296). -/
def allotted (s : State) (h ch port : Nat) (c : Chan) : Option Nat → State
  | none => s
  | some v => (chanSet s h ch { c with out := some (port, v) }).updRouter h fun r =>
      { r with holders := KMap.put r.holders (5 * port + v) true }

section
variable {s : State} {h ch : Nat} {f : Flit} {l : List Flit}

/-- A header that is routed: what becomes of it is decided by its form, its port and its channel. -/
theorem packetHeaderArrival_eq (hfl : ((s.router h).chan ch).flits = f :: l) (h0 : f.i = 0)
    (hout : ((s.router h).chan ch).out = none) (hdrop : ((s.router h).chan ch).drop = false)
    (hw : mustWait (s.router h) s.clk ch f = false) :
    exec (.packetHeaderArrival h ch) s = .next (
      if f.pkt.malformed then malformed (chanSet s h ch { routedChan s ((s.router h).chan ch) f l with drop := true }) h
      else if routePort s h f.pkt = 5 then
        (if isCredit f.pkt then chanSet s h ch { routedChan s ((s.router h).chan ch) f l with drop := true }
          else targetReached (chanSet s h ch { routedChan s ((s.router h).chan ch) f l with drop := true }) h
            (2 + f.pkt.npay.toNat) f.pkt)
      else if chVc ch = 4 then s
      else if routePort s h f.pkt = 0 then chanSet s h ch { routedChan s ((s.router h).chan ch) f l with out := some (0, 0) }
      else allotted s h ch (routePort s h f.pkt) (routedChan s ((s.router h).chan ch) f l)
        (allot (s.router h) (routePort s h f.pkt) (f.pkt.npay.toNat + 1) (escapeVc h (routePort s h f.pkt) f.pkt)
          (decide (2 ≤ chVc ch)))) := by
  have hgo : (f.i ≠ 0 || ((s.router h).chan ch).out.isSome || ((s.router h).chan ch).drop ||
      mustWait (s.router h) s.clk ch f) = false := by
    rw [hout, hdrop, hw, h0]
    rfl
  show execPacketHeaderArrival h ch s = _
  unfold execPacketHeaderArrival
  dsimp only
  rw [hfl]
  dsimp only
  rw [hgo]
  cases hm : f.pkt.malformed with
  | true => rfl
  | false =>
    rw [if_neg Bool.false_ne_true, if_neg Bool.false_ne_true, if_neg Bool.false_ne_true]
    split
    · next h5 =>
      rw [if_pos h5]
      rfl
    · next port hne =>
      rw [if_neg hne]
      split
      · rfl
      · split
        · rfl
        · split
          · next ha =>
            rw [ha]
            rfl
          · next v ha =>
            rw [ha]
            rfl

end

/-- The clk in which a flow packet that reaches its hop target whole after so many clks is accepted: none before those of its
flow and source that stand there. -/
def inboxDue (s : State) (h after : Nat) (p : Packet) : Nat :=
  max (s.clk + after) (listMax (((s.holder h).inbox.filter fun a => decide (a.due ≠ notWhole ∧ a.pkt.flow = p.flow ∧
    a.pkt.snode = p.snode ∧ a.pkt.sdie = p.sdie ∧ a.pkt.smod = p.smod)).map (·.due)))

/-- A flow packet at its hop target stands last in the inbox of its holder. -/
theorem targetReached_flow {s : State} {h after : Nat} {p : Packet} (hp : p.pk = 0) : let t := targetReached s h after p
    (t.routers = s.routers ∧ t.mem = s.mem ∧ t.ctxs = s.ctxs) ∧
      (t.holder h).inbox = (s.holder h).inbox ++ [⟨p, matched s h p, decide (p.np ≠ 0), inboxDue s h after p⟩] ∧
      ⟨inboxDue s h after p, true, .flowPacketAccept h 0⟩ ∈ t.cal := by
  let stand (x : Holder) : Holder :=
    { x with inbox := x.inbox ++ [⟨p, matched s h p, decide (p.np ≠ 0), inboxDue s h after p⟩] }
  let u := s.updHolder h stand
  have ht : targetReached s h after p = u.at (inboxDue s h after p) true (.flowPacketAccept h 0) := by
    unfold targetReached
    rw [hp]
    rfl
  rw [ht]
  exact ⟨⟨rfl, rfl, rfl⟩, congrArg Holder.inbox (State.holder_updHolder s h stand), State.mem_at _ _ _ _⟩

theorem targetReached_reply (s : State) (h after : Nat) (p : Packet) (hp : p.pk = 2) (hc : isCredit p = false) :
    targetReached s h after p = replyArrive s p := by
  unfold targetReached
  rw [hp, hc]
  rfl

/-- A packet that is neither a flow's nor a reply has nothing to do at its hop target. -/
theorem targetReached_other (s : State) (h after : Nat) (p : Packet) (h0 : p.pk ≠ 0) (h2 : p.pk ≠ 2) :
    targetReached s h after p = s := by
  have hn0 : p.pk.toNat ≠ 0 := fun e => h0 (BitVec.eq_of_toNat_eq e)
  have hn2 : p.pk.toNat ≠ 2 := fun e => h2 (BitVec.eq_of_toNat_eq e)
  unfold targetReached
  dsimp only
  split
  · next e => exact absurd e hn0
  · next e => exact absurd e hn2
  · rfl

/-- What a credit reply leaves where it is taken with its header (R329). -/
theorem targetReached_credit (s : State) (h : Nat) (p : Packet) (hc : isCredit p = true) :
    (targetReached s h 0 p).routers = s.routers ∧ (targetReached s h 0 p).mem = s.mem ∧
      (targetReached s h 0 p).ctxs = s.ctxs ∧ ∀ e ∈ s.cal, e ∈ (targetReached s h 0 p).cal := by
  obtain ⟨hp, -⟩ : p.pk = 2 ∧ _ := of_decide_eq_true hc
  have heq : targetReached s h 0 p = (s.updHolder h fun x => { x with inbox := x.inbox ++ [⟨p, matched s h p,
      decide (p.np ≠ 0), max (s.clk + 0) (listMax (((s.holder h).inbox.filter fun a => decide (a.due ≠ notWhole ∧
        a.pkt.flow = p.flow ∧ a.pkt.snode = p.snode ∧ a.pkt.sdie = p.sdie ∧ a.pkt.smod = p.smod)).map (·.due)))⟩] }).at
      s.clk true (.creditReplyArrival h 0) := by
    unfold targetReached
    rw [hp, hc]
    rfl
  rw [heq]
  exact ⟨rfl, rfl, rfl, fun e he => mem_calInsert_of_mem _ he⟩

/-! ## Flits (R296, R297) -/

theorem neighbour_ne {h p : Nat} (h1 : 1 ≤ p) (h4 : p ≤ 4) : neighbour h p ≠ h := by
  interval_cases p
  · show h / 64 * 64 + 8 * (h / 8 % 8) + (h % 8 + 1) % 8 ≠ h
    omega
  · show h / 64 * 64 + 8 * (h / 8 % 8) + (h % 8 + 7) % 8 ≠ h
    omega
  · show h / 64 * 64 + 8 * ((h / 8 % 8 + 1) % 8) + h % 8 ≠ h
    omega
  · show h / 64 * 64 + 8 * ((h / 8 % 8 + 7) % 8) + h % 8 ≠ h
    omega

/-- A flit put into a channel stands at its end, and the other channels and routers are as they were. -/
theorem putFlit_spec (s : State) (h ch w : Nat) (f : Flit) : let t := putFlit s h ch w f
    (t.router h).chan ch = { (s.router h).chan ch with flits := ((s.router h).chan ch).flits ++ [{ f with wclk := w }] } ∧
    (∀ g, g ≠ h → t.router g = s.router g) ∧ t.mem = s.mem ∧ t.ctxs = s.ctxs ∧ ∀ e ∈ s.cal, e ∈ t.cal := by
  intro t
  let c : Chan := { (s.router h).chan ch with flits := ((s.router h).chan ch).flits ++ [{ f with wclk := w }] }
  have hset := chanTaken_chanSet s h ch c
  have ht : t = if f.i = 0 && creditFor (chanSet s h ch c) h f.pkt then targetReached (chanSet s h ch c) h 0 f.pkt
      else chanSet s h ch c := rfl
  rw [ht]
  split
  · next hcredit =>
    obtain ⟨hr, hm, hc, hcal⟩ := targetReached_credit (chanSet s h ch c) h f.pkt (by simp_all [creditFor])
    have k := hset.of_routers hr hm hc
    exact ⟨k.chan, k.others, k.mem, k.ctxs, hcal⟩
  · exact ⟨hset.chan, hset.others, rfl, rfl, fun _ he => he⟩

/-- The state in which the slot of a flit that leaves channel ch of router h is on its way back to the sender. -/
theorem leaveChan_spec (s : State) (h ch : Nat) (tail : Bool) : let t := leaveChan s h ch tail
    (∀ g, (t.router g).chans = (s.router g).chans ∧ (t.router g).free = (s.router g).free) ∧ t.clk = s.clk ∧
      t.mem = s.mem ∧ t.ctxs = s.ctxs ∧ ⟨s.clk + 2, true, .vcCreditReturn h ch⟩ ∈ t.cal := by
  unfold leaveChan
  dsimp only
  split
  · refine ⟨fun g => ?_, rfl, rfl, rfl, State.mem_at _ _ _ _⟩
    by_cases hg : g = (creditHome h ch).1
    · subst hg
      rw [State.router_updRouter]
      exact ⟨rfl, rfl⟩
    · rw [State.router_updRouter_other _ _ _ _ hg]
      exact ⟨rfl, rfl⟩
  · exact ⟨fun g => ⟨rfl, rfl⟩, rfl, rfl, rfl, State.mem_at _ _ _ _⟩

theorem Router.chan_of_chans {r q : Router} (h : q.chans = r.chans) (k : Nat) : q.chan k = r.chan k := by
  rw [Router.chan, h, Router.chan]

theorem Router.freeOf_of_free {r q : Router} (h : q.free = r.free) (k : Nat) : q.freeOf k = r.freeOf k := by
  rw [Router.freeOf, h, Router.freeOf]

/-- A flit that leaves its channel. -/
theorem popFlit_spec {s : State} {h ch : Nat} {f : Flit} {l : List Flit} (hf : ((s.router h).chan ch).flits = f :: l) :
    let t := popFlit s h ch
    ((t.router h).chan ch).flits = l ∧ (∀ k, (t.router h).freeOf k = (s.router h).freeOf k) ∧
      (∀ g k, g ≠ h → (t.router g).chan k = (s.router g).chan k) ∧ t.mem = s.mem ∧ t.ctxs = s.ctxs ∧
      ⟨s.clk + 2, true, .vcCreditReturn h ch⟩ ∈ t.cal := by
  let tail := decide (f.i = f.pkt.npay.toNat)
  let c := (s.router h).chan ch
  let u := chanSet s h ch
    { c with flits := l, out := if tail then none else c.out, drop := c.drop && !tail, who := if tail then none else c.who }
  have hset := chanTaken_chanSet s h ch
    { c with flits := l, out := if tail then none else c.out, drop := c.drop && !tail, who := if tail then none else c.who }
  have hfree : (u.router h).free = (s.router h).free := by
    rw [show u.router h = _ from State.router_updRouter _ _ _]
    rfl
  have hpop : popFlit s h ch = leaveChan u h ch tail := by
    rw [popFlit, hf]
    rfl
  obtain ⟨hr, -, hm, hc, hcal⟩ := leaveChan_spec u h ch tail
  rw [hpop]
  refine ⟨?_, fun k => ?_, fun g k hg => ?_, hm, hc, hcal⟩
  · rw [Router.chan_of_chans (hr h).1, hset.chan]
  · rw [Router.freeOf_of_free (hr h).2, Router.freeOf_of_free hfree]
  · rw [Router.chan_of_chans (hr g).1, hset.others g hg]

/-- A flit that moves through an output port (R294, R296). -/
theorem moveFlit_spec {s : State} {h ch p v : Nat} {f : Flit} {l : List Flit} (h1 : 1 ≤ p) (h4 : p ≤ 4)
    (hf : ((s.router h).chan ch).flits = f :: l) : let t := moveFlit s h ch p v s.clk
    ((t.router h).chan ch).flits = l ∧
      ((t.router (neighbour h p)).chan (5 * farPort p + v)).flits =
        ((s.router (neighbour h p)).chan (5 * farPort p + v)).flits ++ [⟨{ f.pkt with np := 0 }, f.i, s.clk, false⟩] ∧
      (t.router h).freeOf (5 * p + v) = (s.router h).freeOf (5 * p + v) - 1 ∧
      ⟨s.clk + 2, true, .vcCreditReturn h ch⟩ ∈ t.cal ∧ t.mem = s.mem ∧ t.ctxs = s.ctxs := by
  intro t
  have hne := neighbour_ne (h := h) h1 h4
  obtain ⟨hpop, hfree, hother, hm, hc, hcal⟩ := popFlit_spec hf
  let u := (popFlit s h ch).updRouter h fun r =>
    { r with free := KMap.set 8 r.free (5 * p + v) (r.freeOf (5 * p + v) - 1) }
  have ht : t = putFlit u (neighbour h p) (5 * farPort p + v) s.clk ⟨{ f.pkt with np := 0 }, f.i, f.wclk, false⟩ := by
    show moveFlit s h ch p v s.clk = _
    rw [moveFlit, hf]
    dsimp only
    rw [if_neg (Nat.one_le_iff_ne_zero.1 h1)]
  obtain ⟨hput, hrest, hm', hc', hcal'⟩ := putFlit_spec u (neighbour h p) (5 * farPort p + v) s.clk
    ⟨{ f.pkt with np := 0 }, f.i, f.wclk, false⟩
  rw [ht]
  refine ⟨?_, ?_, ?_, hcal' _ hcal, hm'.trans hm, hc'.trans hc⟩
  · rw [hrest h (Ne.symm hne), State.router_updRouter]
    exact hpop
  · rw [hput, State.router_updRouter_other _ _ _ _ hne, hother _ _ hne]
  · rw [hrest h (Ne.symm hne), State.router_updRouter, Router.freeOf, KMap.get_set_same, hfree]

/-- The state in which output port p of router h serves next the channels after ch. -/
def portServed (s : State) (h p ch : Nat) : State :=
  s.updRouter h fun r => { r with rr := KMap.put r.rr p ((ch + 1) % 25) }

section
variable {s : State} {h p ch v i : Nat}

theorem outputPortGrant_eq (hcirc : (circuitMoves s h && (circuitNow (s.router h) s.clk).any fun c => decide (c.2 = p)) = false)
    (hout : ((s.router h).chan ch).out = some (p, v))
    (hfind : ((List.range 25).map fun i => (KMap.get 0 (s.router h).rr p + i) % 25).find? (wantsPort s h p) = some ch) :
    exec (.outputPortGrant h p) s = .next (moveFlit (portServed s h p ch) h ch p v s.clk) := by
  show execOutputPortGrant h p s = _
  rw [execOutputPortGrant]
  dsimp only
  rw [hcirc, if_neg Bool.false_ne_true, hfind]
  show Host.Outcome.next (moveFlit (portServed s h p ch) h ch p ((((s.router h).chan ch).out.map (·.2)).getD 0) s.clk) = _
  rw [hout]
  rfl

theorem circuitSlot_eq (hnow : circuitNow (s.router h) s.clk = some (i, p)) (hmoves : circuitMoves s h = true) :
    exec (.circuitSlot h) s = .next (moveFlit s h (5 * i + 4) p 4 s.clk) := by
  show execCircuitSlot h s = _
  rw [execCircuitSlot, hnow]
  exact if_pos hmoves

/-- Whom a port serves next changes neither channels nor free slots. -/
theorem portServed_router (s : State) (h p ch g : Nat) : (∀ k, ((portServed s h p ch).router g).chan k = (s.router g).chan k) ∧
    ∀ k, ((portServed s h p ch).router g).freeOf k = (s.router g).freeOf k := by
  by_cases hg : g = h
  · subst hg
    rw [portServed, State.router_updRouter]
    exact ⟨fun _ => rfl, fun _ => rfl⟩
  · rw [portServed, State.router_updRouter_other _ _ _ _ hg]
    exact ⟨fun _ => rfl, fun _ => rfl⟩

end

/-! ## Slots that are free again (R294) -/

theorem vcCreditReturn_spec (s : State) (h ch : Nat) : ∃ t, exec (.vcCreditReturn h ch) s = .next t ∧
    (t.router (creditHome h ch).1).freeOf (creditHome h ch).2 =
      min 8 ((s.router (creditHome h ch).1).freeOf (creditHome h ch).2 + 1) ∧
    (∀ g, g ≠ (creditHome h ch).1 → t.router g = s.router g) ∧ t.mem = s.mem ∧ t.ctxs = s.ctxs := by
  have hex : exec (.vcCreditReturn h ch) s = .next (s.updRouter (creditHome h ch).1 fun r =>
      { r with free := KMap.set 8 r.free (creditHome h ch).2 (min 8 (r.freeOf (creditHome h ch).2 + 1)) }) := rfl
  refine ⟨_, hex, ?_, fun g hg => State.router_updRouter_other _ _ _ _ hg, rfl, rfl⟩
  rw [State.router_updRouter, Router.freeOf, KMap.get_set_same]

end Sys2Proof.Machine
end


section
/-!
PROOFS. The flits of links and packets beyond them (O51).
-/

namespace Sys2Proof.Machine

/-! ## What link flits leave (R298, R299) -/

/-- From `s` to `t` only link l, holders, the calendar and free choices may change; nothing leaves the calendar. -/
structure LinkKeeps (l : Nat) (s t : State) : Prop where
  transit : t.transit = s.transit
  clk : t.clk = s.clk
  mem : t.mem = s.mem
  ctxs : t.ctxs = s.ctxs
  others : ∀ j, j ≠ l → t.link j = s.link j
  cal : ∀ e ∈ s.cal, e ∈ t.cal

theorem LinkKeeps.refl (l : Nat) (s : State) : LinkKeeps l s s := ⟨rfl, rfl, rfl, rfl, fun _ _ => rfl, fun _ h => h⟩

theorem LinkKeeps.trans {l : Nat} {s t u : State} (h : LinkKeeps l s t) (k : LinkKeeps l t u) : LinkKeeps l s u :=
  ⟨k.transit.trans h.transit, k.clk.trans h.clk, k.mem.trans h.mem, k.ctxs.trans h.ctxs,
    fun j hj => (k.others j hj).trans (h.others j hj), fun e he => k.cal e (h.cal e he)⟩

theorem linkKeeps_updLink (s : State) (l : Nat) (f : Link → Link) : LinkKeeps l s (s.updLink l f) :=
  ⟨rfl, rfl, rfl, rfl, fun _ hj => State.link_updLink_other _ _ _ _ hj, fun _ h => h⟩

theorem linkHeader_keeps (s : State) (l : Nat) (f : LinkFlit) :
    LinkKeeps l s (linkHeader s l f) ∧ (linkHeader s l f).links = s.links := by
  unfold linkHeader headerAt
  split
  · split
    · split
      · exact ⟨.refl l s, rfl⟩
      · exact ⟨⟨rfl, rfl, rfl, rfl, fun _ _ => rfl, fun _ h => h⟩, rfl⟩
    · exact ⟨.refl l s, rfl⟩
  · exact ⟨.refl l s, rfl⟩

/-- A packet that crosses the base-die fabric is handed on later. -/
theorem crossFabric_due (s : State) (id : Nat) (p : Packet) :
    ∃ d, 1 ≤ d ∧ ⟨s.clk + d, false, .gatewayPacketForward id⟩ ∈ (crossFabric s id p).cal := by
  have hlt : s.clk + 1 ≤ max (s.clk + (drawNat s 1 (40 + seamFlits p)).1) (fabricFloor (drawNat s 1 (40 + seamFlits p)).2 p) :=
    (Nat.add_le_add_left (Nat.le_add_right _ _) _).trans (le_max_left _ _)
  refine ⟨max (s.clk + (drawNat s 1 (40 + seamFlits p)).1) (fabricFloor (drawNat s 1 (40 + seamFlits p)).2 p) - s.clk,
    by omega, ?_⟩
  rw [Nat.add_sub_cancel' (by omega)]
  exact State.mem_at _ _ _ _

/-- The last link flit of a packet lets it go on. -/
theorem linkDone_spec (s : State) (l id : Nat) : LinkKeeps l s (linkDone s l id) ∧
    ((linkDone s l id).link l).retry = (s.link l).retry ∧ ((linkDone s l id).link l).recvSeq = (s.link l).recvSeq ∧
    ∀ x, (s.transit.find? fun y => y.1 = id) = some (id, x) →
      ∃ d, 1 ≤ d ∧ ⟨s.clk + d, false, .gatewayPacketForward id⟩ ∈ (linkDone s l id).cal := by
  cases hfind : s.transit.find? fun y => y.1 = id with
  | none =>
    have hnone : linkDone s l id = s := by rw [linkDone, hfind]; rfl
    rw [hnone]
    exact ⟨.refl l s, rfl, rfl, fun x h => by cases h⟩
  | some y =>
    obtain ⟨i, j, p⟩ := y
    let u := s.updLink l fun k => { k with held := k.held - linkFlits l p }
    have hdone : linkDone s l id = if l < 32 then crossFabric u id p else u.at (u.clk + 1) false (.gatewayPacketForward id) := by
      rw [linkDone, hfind]
      rfl
    have hkeep : LinkKeeps l s u := linkKeeps_updLink s l _
    have hlink : u.link l = { s.link l with held := (s.link l).held - linkFlits l p } := State.link_updLink _ _ _
    rw [hdone]
    split
    · refine ⟨hkeep.trans ⟨rfl, rfl, rfl, rfl, fun _ _ => rfl, fun e he => mem_calInsert_of_mem _ he⟩, ?_, ?_,
        fun x _ => crossFabric_due u id p⟩
      · exact (congrArg Link.retry hlink :)
      · exact (congrArg Link.recvSeq hlink :)
    · refine ⟨hkeep.trans ⟨rfl, rfl, rfl, rfl, fun _ _ => rfl, fun e he => mem_calInsert_of_mem _ he⟩, ?_, ?_,
        fun x _ => ⟨1, le_rfl, State.mem_at _ _ _ _⟩⟩
      · exact (congrArg Link.retry hlink :)
      · exact (congrArg Link.recvSeq hlink :)

/-- One link flit that is received and acknowledged. -/
theorem linkTake_spec {s : State} {l : Nat} {f : LinkFlit} {rest : List LinkFlit} (hr : (s.link l).retry = f :: rest) :
    LinkKeeps l s (linkTake s l) ∧ ((linkTake s l).link l).retry = rest ∧
    ((linkTake s l).link l).recvSeq = (s.link l).recvSeq + 1 ∧
    (f.last = true → ∀ x, (s.transit.find? fun y => y.1 = f.id) = some (f.id, x) →
      ∃ d, 1 ≤ d ∧ ⟨s.clk + d, false, .gatewayPacketForward f.id⟩ ∈ (linkTake s l).cal) := by
  obtain ⟨hhead, hlinks⟩ := linkHeader_keeps s l f
  let u := (linkHeader s l f).updLink l fun k => { k with retry := rest, recvSeq := k.recvSeq + 1 }
  have hu : LinkKeeps l s u := hhead.trans (linkKeeps_updLink _ _ _)
  have hlink : u.link l = { s.link l with retry := rest, recvSeq := (s.link l).recvSeq + 1 } := by
    rw [show u.link l = _ from State.link_updLink _ _ _, State.link, hlinks]
    rfl
  have htake : linkTake s l = if f.last then linkDone u l f.id else u := by
    rw [linkTake, hr]
  rw [htake]
  split
  · obtain ⟨hk, hretry, hseq, hdue⟩ := linkDone_spec u l f.id
    refine ⟨hu.trans hk, hretry.trans (congrArg Link.retry hlink), hseq.trans (congrArg Link.recvSeq hlink), fun _ x hx => ?_⟩
    rw [← hu.clk]
    exact hdue x (by rwa [hu.transit])
  · next hlast => exact ⟨hu, congrArg Link.retry hlink, congrArg Link.recvSeq hlink, fun h => absurd h hlast⟩

theorem linkTake_empty {s : State} {l : Nat} (hr : (s.link l).retry = []) : linkTake s l = s := by
  rw [linkTake, hr]

/-- The link flits that a clk carries. -/
theorem linkTakes_spec (n l : Nat) (s : State) :
    LinkKeeps l s (linkTakes n l s) ∧ ((linkTakes n l s).link l).retry = (s.link l).retry.drop n ∧
    ((linkTakes n l s).link l).recvSeq = (s.link l).recvSeq + BitVec.ofNat 16 (min n (s.link l).retry.length) ∧
    ∀ f x, f ∈ (s.link l).retry.take n → f.last = true → (s.transit.find? fun y => y.1 = f.id) = some (f.id, x) →
      ∃ d, 1 ≤ d ∧ ⟨s.clk + d, false, .gatewayPacketForward f.id⟩ ∈ (linkTakes n l s).cal := by
  induction n generalizing s with
  | zero => exact ⟨.refl l s, rfl, by simp [linkTakes], fun f x h => by simp at h⟩
  | succ n ih =>
    rw [linkTakes]
    cases hr : (s.link l).retry with
    | nil =>
      obtain ⟨hk, hretry, hseq, -⟩ := ih s
      rw [linkTake_empty hr]
      rw [hr] at hretry hseq
      exact ⟨hk, by simpa using hretry, by simpa using hseq, fun f x h => by simp at h⟩
    | cons g rest =>
      obtain ⟨hk, hretry, hseq, hdue⟩ := linkTake_spec hr
      obtain ⟨hk', hretry', hseq', hdue'⟩ := ih (linkTake s l)
      rw [hretry] at hretry' hseq' hdue'
      refine ⟨hk.trans hk', hretry', ?_, fun f x hf hlast hx => ?_⟩
      · have hsucc : BitVec.ofNat 16 (min n rest.length + 1) = BitVec.ofNat 16 (min n rest.length) + 1 := BitVec.ofNat_add _ _
        rw [hseq', hseq, List.length_cons, Nat.succ_min_succ, BitVec.add_assoc, BitVec.add_comm 1, ← hsucc]
      · rw [List.take_succ_cons] at hf
        rcases List.mem_cons.1 hf with rfl | hf
        · obtain ⟨d, hd, hmem⟩ := hdue hlast x hx
          exact ⟨d, hd, hk'.cal _ hmem⟩
        · rw [← hk.clk]
          exact hdue' f x hf hlast (by rwa [hk.transit])

end Sys2Proof.Machine
end


section
/-!
PROOFS. Links that fail, retrain and come up, packets handed on, and paired digests (O51).
-/

namespace Sys2Proof.Machine

/-! ## Links (R298, R451) -/

section
variable {s : State} {l : Nat}

/-- A link that carries link flits: it holds some, and neither retrains nor is down. -/
theorem linkFlitReceive_eq (hr : (s.link l).retry ≠ []) (ht : (s.link (linkBase l)).training = none)
    (hf : (s.link (linkBase l)).fails < 3) : exec (.linkFlitReceive l) s = .next (
      if 0 < (s.link l).crcNext then linkError s l
      else if ((linkTakes (linkRate l s.clk) l s).link l).retry = [] then linkTakes (linkRate l s.clk) l s
      else (linkTakes (linkRate l s.clk) l s).at ((linkTakes (linkRate l s.clk) l s).clk + 1) false (.linkFlitReceive l)) := by
  have hgo : (decide ((s.link l).retry = []) || (s.link (linkBase l)).training.isSome || linkDown s l) = false := by
    rw [decide_eq_false hr, ht, linkDown, decide_eq_false (Nat.not_le.2 hf)]
    rfl
  show execLinkFlitReceive l s = _
  rw [execLinkFlitReceive]
  dsimp only
  rw [hgo]
  split
  · next h => cases h
  · split <;> rfl

theorem linkFlitReceive_spec (hr : (s.link l).retry ≠ []) (ht : (s.link (linkBase l)).training = none)
    (hf : (s.link (linkBase l)).fails < 3) (hc : (s.link l).crcNext = 0) :
    ∃ t, exec (.linkFlitReceive l) s = .next t ∧ LinkKeeps l s t ∧
      (t.link l).retry = (s.link l).retry.drop (linkRate l s.clk) ∧
      (t.link l).recvSeq = (s.link l).recvSeq + BitVec.ofNat 16 (min (linkRate l s.clk) (s.link l).retry.length) ∧
      ((s.link l).retry.drop (linkRate l s.clk) ≠ [] → ⟨s.clk + 1, false, .linkFlitReceive l⟩ ∈ t.cal) ∧
      ∀ f x, f ∈ (s.link l).retry.take (linkRate l s.clk) → f.last = true →
        (s.transit.find? fun y => y.1 = f.id) = some (f.id, x) →
        ∃ d, 1 ≤ d ∧ ⟨s.clk + d, false, .gatewayPacketForward f.id⟩ ∈ t.cal := by
  obtain ⟨hk, hretry, hseq, hdue⟩ := linkTakes_spec (linkRate l s.clk) l s
  have hclk := hk.clk
  refine ⟨_, (linkFlitReceive_eq hr ht hf).trans (congrArg Host.Outcome.next (if_neg (by omega))), ?_⟩
  split
  · next hnil =>
    exact ⟨hk, hretry, hseq, fun h => absurd (hretry.symm.trans hnil) h, hdue⟩
  · refine ⟨hk.trans ⟨rfl, rfl, rfl, rfl, fun _ _ => rfl, fun e he => mem_calInsert_of_mem _ he⟩, hretry, hseq, fun _ => ?_,
      fun f x hf hl hx => ?_⟩
    · rw [hclk]
      exact State.mem_at _ _ _ _
    · obtain ⟨d, hd, hmem⟩ := hdue f x hf hl hx
      exact ⟨d, hd, mem_calInsert_of_mem _ hmem⟩

/-- A link flit with a CRC error, short of the eighth in the window. -/
theorem linkError_spec (he : (((s.link (linkBase l)).errs ++ [s.clk]).filter
      fun c => s.clk < c + 65536).length < 8) : let t := linkError s l
    t.mem = s.mem ∧ t.ctxs = s.ctxs ∧ (∀ j, j ∉ [l, linkBase l] → t.link j = s.link j) ∧
      (t.link l).retry = (s.link l).retry ∧ (t.link l).recvSeq = (s.link l).recvSeq ∧
      (t.link l).crcNext = (s.link l).crcNext - 1 ∧ ∃ d, 1 ≤ d ∧ d ≤ 64 ∧ ⟨s.clk + d, false, .linkResend l⟩ ∈ t.cal := by
  intro t
  let errs := ((s.link (linkBase l)).errs ++ [s.clk]).filter fun c => decide (s.clk < c + 65536)
  let u := s.updLink l fun k => { k with crcNext := k.crcNext - 1 }
  let w := u.updLink (linkBase l) fun k => { k with errs := errs }
  have ht : t = w.within 1 64 (.linkResend l) := if_neg (Nat.not_le.2 he)
  have hu : u.link l = { s.link l with crcNext := (s.link l).crcNext - 1 } := State.link_updLink _ _ _
  have hw : ∃ e, w.link l = { s.link l with crcNext := (s.link l).crcNext - 1, errs := e } := by
    by_cases hb : l = linkBase l
    · refine ⟨errs, ?_⟩
      have hself : w.link (linkBase l) = { u.link (linkBase l) with errs := errs } := State.link_updLink _ _ _
      rw [← hb, hu] at hself
      exact hself
    · exact ⟨(s.link l).errs, (State.link_updLink_other _ _ _ _ hb).trans hu⟩
  obtain ⟨e, hw⟩ := hw
  obtain ⟨d, h1, h64, hmem⟩ := State.within_cal w 1 64 (.linkResend l) (by decide)
  have hlink : t.link l = { s.link l with crcNext := (s.link l).crcNext - 1, errs := e } := by
    rw [ht]
    exact hw
  refine ⟨by rw [ht]; rfl, by rw [ht]; rfl, fun j hj => ?_, (congrArg Link.retry hlink :), (congrArg Link.recvSeq hlink :),
    (congrArg Link.crcNext hlink :), d, h1, h64, ?_⟩
  · rw [ht]
    have hj' : j ≠ l ∧ j ≠ linkBase l := by simpa using hj
    have hwu : w.link j = u.link j := State.link_updLink_other _ _ _ _ hj'.2
    exact hwu.trans (State.link_updLink_other _ _ _ _ hj'.1)
  · rw [ht]
    exact hmem

theorem linkResend_spec (hr : (s.link l).retry ≠ []) :
    exec (.linkResend l) s = .next (s.at (s.clk + 1) false (.linkFlitReceive l)) :=
  if_neg hr

theorem linkBase_of_lt (hl : l < 64) : linkBase l = l := if_neg (Nat.not_le.2 hl)

/-- The state in which a link retrains. -/
def retraining (s : State) (l : Nat) : State :=
  (drawNat s 1 (retrainBound l)).2.updLink l fun k =>
    { k with training := some (s.clk + (drawNat s 1 (retrainBound l)).1), errs := [], nrt := k.nrt + 1, st := 1 }

theorem startRetrain_eq (hl : l < 64) (ht : (s.link l).training = none) (hf : (s.link l).fails < 3) : startRetrain s l =
    ((retraining s l).bbAdd 3 0 0 (linkWho l) 0).at (s.clk + (drawNat s 1 (retrainBound l)).1) false (.retrainComplete l) := by
  have hstart : ¬((s.link l).training.isSome = true ∨ linkDown s l = true) := by
    rw [ht, linkDown, linkBase_of_lt hl, decide_eq_false (Nat.not_le.2 hf)]
    simp
  exact if_neg hstart

/-- A link that starts to retrain. -/
theorem startRetrain_spec (hl : l < 64) (ht : (s.link l).training = none) (hf : (s.link l).fails < 3) :
    let t := startRetrain s l
    t.mem = s.mem ∧ t.ctxs = s.ctxs ∧ (∀ j, j ≠ l → t.link j = s.link j) ∧ ∃ d, 1 ≤ d ∧ d ≤ retrainBound l ∧
      t.link l = { s.link l with training := some (s.clk + d), errs := [], nrt := (s.link l).nrt + 1, st := 1 } ∧
      ⟨s.clk + d, false, .retrainComplete l⟩ ∈ t.cal := by
  intro t
  have hbound : 1 ≤ retrainBound l := by
    unfold retrainBound
    split <;> decide
  have hdraw : 1 ≤ (drawNat s 1 (retrainBound l)).1 ∧ (drawNat s 1 (retrainBound l)).1 ≤ retrainBound l := by
    have := Nat.mod_lt (Config.freeNat s.free) (show 0 < retrainBound l - 1 + 1 by omega)
    refine ⟨Nat.le_add_right _ _, ?_⟩
    show 1 + Config.freeNat s.free % (retrainBound l - 1 + 1) ≤ _
    omega
  have hlink : (retraining s l).link l = { s.link l with
      training := some (s.clk + (drawNat s 1 (retrainBound l)).1), errs := [], nrt := (s.link l).nrt + 1, st := 1 } :=
    State.link_updLink _ _ _
  have hother (j : Nat) (hj : j ≠ l) : (retraining s l).link j = s.link j := State.link_updLink_other _ _ _ _ hj
  rw [show t = _ from startRetrain_eq hl ht hf]
  exact ⟨rfl, rfl, hother, _, hdraw.1, hdraw.2, hlink, State.mem_at _ _ _ _⟩

/-- A first retrain that ends has succeeded, or it is tried again (log 15). -/
theorem retrainComplete_spec {x : Nat} (hl : l < 64) (ht : (s.link l).training = some x) (hf : (s.link l).fails = 0) :
    ∃ t, exec (.retrainComplete l) s = .next t ∧ t.mem = s.mem ∧ t.ctxs = s.ctxs ∧ (∀ j, j ≠ l → t.link j = s.link j) ∧
      ((t.link l = { s.link l with training := none, fails := 0, st := 2 } ∧ ⟨s.clk + 1, false, .linkResend l⟩ ∈ t.cal) ∨
        ((t.link l).fails = 1 ∧ (t.link l).training.isSome = true ∧ (t.link l).nrt = (s.link l).nrt + 1)) := by
  let u := (drawNat s 0 1).2.updLink l fun k => { k with training := none }
  have hu : u.link l = { s.link l with training := none } := State.link_updLink _ _ _
  have hother (j : Nat) (hj : j ≠ l) : u.link j = s.link j := State.link_updLink_other _ _ _ _ hj
  by_cases hb : (drawNat s 0 1).1 = 0
  · let v := u.updLink l fun k => { k with fails := 0, st := 2 }
    have hv : v.link l = { s.link l with training := none, fails := 0, st := 2 } := by
      rw [show v.link l = _ from State.link_updLink _ _ _, hu]
    have hvother (j : Nat) (hj : j ≠ l) : v.link j = s.link j := (State.link_updLink_other _ _ _ _ hj).trans (hother j hj)
    let w := v.at (s.clk + 1) false (.linkResend l)
    have hex : exec (.retrainComplete l) s = .next (if l < 32 then w.at (s.clk + 1) false (.linkResend (64 + l)) else w) := by
      show execRetrainComplete l s = _
      rw [execRetrainComplete, ht]
      exact if_pos hb
    refine ⟨_, hex, ?_⟩
    split
    · exact ⟨rfl, rfl, hvother, .inl ⟨hv, mem_calInsert_of_mem _ (State.mem_at v _ _ _)⟩⟩
    · exact ⟨rfl, rfl, hvother, .inl ⟨hv, State.mem_at _ _ _ _⟩⟩
  · let v := u.updLink l fun k => { k with fails := k.fails + 1 }
    have hv : v.link l = { s.link l with training := none, fails := 1 } := by
      rw [show v.link l = _ from State.link_updLink _ _ _, hu, hf]
    have hvother (j : Nat) (hj : j ≠ l) : v.link j = s.link j := (State.link_updLink_other _ _ _ _ hj).trans (hother j hj)
    have hfails : (v.link l).fails = 1 := congrArg Link.fails hv
    have hex : exec (.retrainComplete l) s = .next (startRetrain v l) := by
      show execRetrainComplete l s = _
      rw [execRetrainComplete, ht]
      exact (if_neg hb).trans (if_neg (show ¬3 ≤ (v.link l).fails by omega))
    obtain ⟨hmem, hctxs, hrest, d, -, -, hlink, -⟩ := startRetrain_spec hl (congrArg Link.training hv) (by omega)
    refine ⟨_, hex, hmem, hctxs, fun j hj => (hrest j hj).trans (hvother j hj), .inr ⟨?_, ?_, ?_⟩⟩
    · rw [hlink]
      exact hfails
    · rw [hlink]
      rfl
    · rw [hlink, hv]

/-! ## Links that come up (R306, R445) -/

theorem portDrop_spec (s : State) (p : Nat) : (portDrop s p).mem = s.mem ∧ (portDrop s p).ctxs = s.ctxs ∧
    (portDrop s p).links = s.links ∧ (portDrop s p).transit = s.transit := ⟨rfl, rfl, rfl, rfl⟩

theorem portDrops_spec {α : Type} (p : Nat) (ids : List α) (s : State) : let t := ids.foldl (fun s _ => portDrop s p) s
    t.mem = s.mem ∧ t.ctxs = s.ctxs ∧ t.links = s.links := by
  induction ids generalizing s with
  | nil => exact ⟨rfl, rfl, rfl⟩
  | cons i ids ih => exact ih (portDrop s p)

theorem link_of_links {s t : State} (h : t.links = s.links) (j : Nat) : t.link j = s.link j := by
  rw [State.link, h, State.link]

/-- A link whose packets are lost holds none (R451). -/
theorem linkLost_spec (s : State) (l : Nat) : (linkLost s l).mem = s.mem ∧ (linkLost s l).ctxs = s.ctxs ∧
    (linkLost s l).link l = { s.link l with retry := [], held := 0 } ∧ ∀ j, j ≠ l → (linkLost s l).link j = s.link j := by
  let ids := ((s.link l).retry.map (·.id)).eraseDups
  let u := ({ s with transit := s.transit.filter fun x => !ids.contains x.1 } : State).updLink l
    fun k => { k with retry := [], held := 0 }
  have hu : u.link l = { s.link l with retry := [], held := 0 } := State.link_updLink _ _ _
  have hother (j : Nat) (hj : j ≠ l) : u.link j = s.link j := State.link_updLink_other _ _ _ _ hj
  have hlost : linkLost s l = if 32 ≤ l ∧ l < 48 then ids.foldl (fun s _ => portDrop s (l - 32)) u else u := rfl
  rw [hlost]
  split
  · obtain ⟨hm, hc, hl⟩ := portDrops_spec (l - 32) ids u
    exact ⟨hm, hc, (link_of_links hl l).trans hu, fun j hj => (link_of_links hl j).trans (hother j hj)⟩
  · exact ⟨rfl, rfl, hu, hother⟩

theorem linkTrainingComplete_spec (s : State) (l : Nat) : ∃ t, exec (.linkTrainingComplete l) s = .next t ∧ t.mem = s.mem ∧
    t.ctxs = s.ctxs ∧ (∀ j, j ∉ [l, 64 + l] → t.link j = s.link j) ∧ t.link l = { s.link l with
      st := 2, sendSeq := 0, recvSeq := 0, retry := [], held := 0, errs := [], training := none, fails := 0 } := by
  obtain ⟨hm, hc, hl, hother⟩ := linkLost_spec s l
  let u := (linkLost s l).updLink l fun k => { k with
    st := 2, sendSeq := 0, recvSeq := 0, errs := [], training := none, fails := 0 }
  have hu : u.link l = { s.link l with
      st := 2, sendSeq := 0, recvSeq := 0, retry := [], held := 0, errs := [], training := none, fails := 0 } := by
    rw [show u.link l = _ from State.link_updLink _ _ _, hl]
  have huother (j : Nat) (hj : j ≠ l) : u.link j = s.link j := (State.link_updLink_other _ _ _ _ hj).trans (hother j hj)
  obtain ⟨hm', hc', -, hother'⟩ := linkLost_spec u (64 + l)
  let w := (linkLost u (64 + l)).updLink (64 + l) fun k => { k with sendSeq := 0, recvSeq := 0 }
  have hwother (j : Nat) (hj : j ≠ 64 + l) : w.link j = u.link j :=
    (State.link_updLink_other _ _ _ _ hj).trans (hother' j hj)
  have hex : exec (.linkTrainingComplete l) s = .next (if l < 32 then w else u) := rfl
  refine ⟨_, hex, ?_⟩
  split
  · refine ⟨hm'.trans hm, hc'.trans hc, fun j hj => ?_, (hwother l (by omega)).trans hu⟩
    have hj' : j ≠ l ∧ j ≠ 64 + l := by simpa using hj
    exact (hwother j hj'.2).trans (huother j hj'.1)
  · exact ⟨hm, hc, fun j hj => huother j fun h => hj (h ▸ List.mem_cons_self), hu⟩

/-! ## Packets handed on (R299, R448, R449) -/

/-- From `s` to `t` a packet has been put onto link l, whose buffers it takes. -/
structure LinkSent (s t : State) (l : Nat) (p : Packet) : Prop where
  mem : t.mem = s.mem
  ctxs : t.ctxs = s.ctxs
  transit : (s.serial, (beyond l, p)) ∈ t.transit
  held : (t.link l).held = (s.link l).held + linkFlits l p
  retry : (t.link l).retry.length = (s.link l).retry.length + linkFlits l p
  due : (s.link l).retry = [] → ⟨s.clk + 1, false, .linkFlitReceive l⟩ ∈ t.cal

theorem linkSent_sendLink (s : State) (l : Nat) (p : Packet) : LinkSent s (sendLink (linkHold s l p) l (beyond l) p) l p := by
  let b := (linkHold s l p).link l
  have hb : b = { s.link l with held := (s.link l).held + linkFlits l p } := State.link_updLink _ _ _
  let new := (List.range (linkFlits l p)).map fun i =>
    (⟨b.sendSeq + BitVec.ofNat 16 i, s.serial, decide (i + 1 = linkFlits l p), linkBytes l p i⟩ : LinkFlit)
  let w : State := ({ linkHold s l p with
    serial := s.serial + 1, transit := KMap.put s.transit s.serial (beyond l, p) } : State).updLink l fun b =>
      { b with retry := b.retry ++ new, sendSeq := b.sendSeq + BitVec.ofNat 16 (linkFlits l p) }
  have hw : w.link l = { b with retry := b.retry ++ new, sendSeq := b.sendSeq + BitVec.ofNat 16 (linkFlits l p) } :=
    State.link_updLink _ _ _
  have hsend : sendLink (linkHold s l p) l (beyond l) p =
      if b.retry = [] then w.at (s.clk + 1) false (.linkFlitReceive l) else w := rfl
  have hheld : (w.link l).held = (s.link l).held + linkFlits l p := by rw [hw, hb]
  have hretry : (w.link l).retry.length = (s.link l).retry.length + linkFlits l p := by
    rw [hw, hb]
    simp [new]
  rw [hsend]
  split
  · exact ⟨rfl, rfl, mem_put .., hheld, hretry, fun _ => State.mem_at _ _ _ _⟩
  · next hne =>
    rw [hb] at hne
    exact ⟨rfl, rfl, mem_put .., hheld, hretry, fun h => absurd h hne⟩

end

section
variable {s : State} {id j : Nat} {p : Packet}

theorem forwardPacket_pod {s : State} {p : Packet} (hmod : p.tmod = s.mgmt.modn) (hpk : p.pk = 3) :
    forwardPacket s p = podArrive s p := by
  rw [forwardPacket, if_neg (not_not.2 hmod), if_pos hpk]

theorem forwardPacket_node {s : State} {p : Packet} (hmod : p.tmod = s.mgmt.modn) (hpk : p.pk ≠ 3) (htk : p.tk = 0) :
    forwardPacket s p = enterLink s (64 + 8 * p.tdie.toNat + p.tnode.toNat / 8) p := by
  rw [forwardPacket, if_neg (not_not.2 hmod), if_neg hpk, htk]
  rfl

theorem forwardPacket_home {s : State} {p : Packet} (hmod : p.tmod = s.mgmt.modn) (hpk : p.pk = 1) (htk : 2 < p.tk.toNat) :
    forwardPacket s p = homeArrive s p := by
  unfold forwardPacket
  rw [if_neg (not_not.2 hmod), if_neg (by rw [hpk]; decide)]
  split
  · omega
  · omega
  · omega
  · exact if_pos hpk

/-- The state in which packet `id` is no longer in transit. -/
def transitTaken (s : State) (id : Nat) : State := { s with transit := s.transit.del id }

theorem gatewayPacketForward_eq (h : (s.transit.find? fun x => x.1 = id) = some (id, (j, p))) :
    exec (.gatewayPacketForward id) s = .next (
      if 200 ≤ j then retryLink s id (j - 200) p
      else if j < 2 then forwardPacket (transitTaken s id) p
      else if j < 100 then { transitTaken s id with portOut := s.portOut ++ [(j - 2, p)] }
      else gatewayOut (transitTaken s id) (j - 100) p) := by
  show execGatewayPacketForward id s = _
  rw [execGatewayPacketForward, h]
  dsimp only [Option.map_some]
  split
  · rfl
  · split
    · rfl
    · split <;> rfl

theorem enterLink_sent {l : Nat} (hr : linkRoom s l p = true) (hn : ∀ x ∈ s.transit, x.2.1 ≠ 200 + l) :
    enterLink s l p = sendLink (linkHold s l p) l (beyond l) p := by
  have hfirst : (s.transit.any fun x => decide (x.2.1 = 200 + l)) = false :=
    List.any_eq_false.2 fun x hx => by simpa using hn x hx
  unfold enterLink
  rw [hr, hfirst]
  rfl

end

/-! ## Paired digests (R460) -/

theorem mem_newest (n : Nat) {α : Type} (l : List α) (e : α) : e ∈ newest (n + 1) (l ++ [e]) := by
  simp [newest]

theorem pairMismatch_spec (s : State) : (pairMismatch s).mem = s.mem ∧ (pairMismatch s).ctxs = s.ctxs ∧
    (pairMismatch s).digests = s.digests ∧ ∃ x ∈ (pairMismatch s).bb, x.kind = 1 ∧ x.code = 0x44 :=
  ⟨rfl, rfl, rfl, _, mem_newest 4095 _ _, rfl, rfl⟩

theorem pairDigestCompare_two {s : State} {k : Nat} {fl : BitVec 20} {sq d e : BitVec 32}
    (h : s.digests = [(k, fl, sq, d, true), (k, fl, sq, e, false)]) : exec (.pairDigestCompare k) s =
      .next (if d = e then { s with digests := [] } else pairMismatch { s with digests := [] }) := by
  show execPairDigestCompare k s = _
  unfold execPairDigestCompare
  rw [h]
  by_cases hde : d = e
  · subst hde
    simp
  · have hed : e ≠ d := Ne.symm hde
    simp [hde, hed]

end Sys2Proof.Machine
end


section
/-!
PROOFS. Transport: the statement (O51).
-/

namespace Sys2Proof.Machine

theorem linkSent_taken {s t : State} {id l : Nat} {p : Packet} (h : LinkSent (transitTaken s id) t l p) : LinkSent s t l p :=
  ⟨h.mem, h.ctxs, h.transit, h.held, h.retry, h.due⟩

/-- Settles O51: headers by the branch that their port and channel choose, grants by what a moved flit leaves, links by their
retry buffers, packets by the place they are handed on to. -/
theorem transportWork : Obligations.TransportWork := by
  unfold Obligations.TransportWork
  refine ⟨fun s h ch f l => ?_, fun s h p ch v f l => ?_, vcCreditReturn_spec, fun s l => ?_, fun s id j p hid => ?_,
    fun s k fl sq d e hd => ?_⟩
  · intro r c p port routed takes before due hfl h0 hout hdrop hw
    have hex := packetHeaderArrival_eq hfl h0 hout hdrop hw
    have take {t : State} {c' : Chan} (he : exec (.packetHeaderArrival h ch) s = .next t) (ht : ChanTaken s t h ch c') :
        takes t c' := ⟨he, ht.chan, ht.others, ht.mem, ht.ctxs⟩
    have set (c' : Chan) := chanTaken_chanSet s h ch c'
    refine ⟨fun hm => ?_, fun hm => ⟨fun h5 hp => ?_, fun h5 hp hc => ?_, fun h5 hp hc => ?_, fun hp hv => ?_, fun hp hv => ?_,
      fun v hp0 hp5 hv ha => ?_⟩⟩
    · rw [if_pos hm] at hex
      exact ⟨_, take hex (set _).malformed, malf_malformed _ h⟩
    · have hcredit : isCredit f.pkt = false := decide_eq_false fun hc => by
        rw [show f.pkt.pk = 0 from hp] at hc
        exact absurd hc.1 (by decide)
      rw [if_neg (show ¬f.pkt.malformed = true by rw [hm]; decide), if_pos h5, hcredit, if_neg Bool.false_ne_true] at hex
      obtain ⟨⟨hr, hmem, hctx⟩, hinbox, hcal⟩ := targetReached_flow (s := chanSet s h ch { routed with drop := true })
        (h := h) (after := 2 + f.pkt.npay.toNat) (p := f.pkt) hp
      exact ⟨_, take hex ((set _).of_routers hr hmem hctx), hinbox, hcal⟩
    · rw [if_neg (show ¬f.pkt.malformed = true by rw [hm]; decide), if_pos h5] at hex
      have hset : (if isCredit f.pkt = true then chanSet s h ch { routed with drop := true }
          else targetReached (chanSet s h ch { routed with drop := true }) h (2 + f.pkt.npay.toNat) f.pkt) =
          chanSet s h ch { routed with drop := true } := by
        split
        · rfl
        · next hnc => exact targetReached_other _ _ _ _ hp (hc.resolve_right hnc)
      exact ⟨_, take (hex.trans (congrArg Host.Outcome.next hset)) (set _), rfl, rfl⟩
    · rw [if_neg (show ¬f.pkt.malformed = true by rw [hm]; decide), if_pos h5, hc, if_neg Bool.false_ne_true,
        targetReached_reply _ _ _ _ hp hc] at hex
      exact hex
    · have hp' : routePort s h f.pkt = 0 := hp
      rw [if_neg (show ¬f.pkt.malformed = true by rw [hm]; decide), if_neg (by rw [hp']; decide), if_neg hv, if_pos hp'] at hex
      exact ⟨_, take hex (set _)⟩
    · rw [if_neg (show ¬f.pkt.malformed = true by rw [hm]; decide), if_neg hp, if_pos hv] at hex
      exact hex
    · rw [if_neg (show ¬f.pkt.malformed = true by rw [hm]; decide), if_neg hp5, if_neg hv, if_neg hp0,
        show allot (s.router h) _ _ _ _ = some v from ha] at hex
      rw [allotted] at hex
      refine ⟨_, ⟨hex, ?_, fun g hg => ?_, rfl, rfl⟩, ?_⟩
      · rw [State.router_updRouter]
        exact (set _).chan
      · rw [State.router_updRouter_other _ _ _ _ hg]
        exact (set _).others g hg
      · rw [State.router_updRouter]
        exact KMap.get_put_same _ _ _ _
  · intro r far grants h1 h4 hf
    refine ⟨fun hcirc hout hfind => ?_, fun i hv hch hnow hmoves => ?_⟩
    · obtain ⟨hchan, hfree⟩ := portServed_router s h p ch h
      have hfar := (portServed_router s h p ch (neighbour h p)).1 (5 * farPort p + v)
      have hspec := moveFlit_spec (s := portServed s h p ch) (v := v) h1 h4 ((congrArg Chan.flits (hchan ch)).trans hf)
      rw [hfar, hfree] at hspec
      exact ⟨_, outputPortGrant_eq hcirc hout hfind, hspec⟩
    · have hex := circuitSlot_eq hnow hmoves
      rw [← hch, ← hv] at hex
      exact ⟨_, hex, moveFlit_spec h1 h4 hf⟩
  · intro k b n leaves
    refine ⟨fun hr ht hf => ⟨fun hc => ?_, fun hc he => ?_⟩,
      fun hr => ⟨_, linkResend_spec hr, rfl, rfl, fun _ _ => rfl, State.mem_at _ _ _ _⟩,
      fun ht hl hf => ?_, fun x hl ht hf => ?_, linkTrainingComplete_spec s l⟩
    · obtain ⟨t, hex, hk, hretry, hseq, hmore, hdue⟩ := linkFlitReceive_spec hr ht hf hc
      exact ⟨t, hex, hk.mem, hk.ctxs, fun j hj => hk.others j (by simpa using hj), hretry, hseq, hmore, hdue⟩
    · obtain ⟨hm, hcx, hothers, hrest⟩ := linkError_spec he
      exact ⟨_, (linkFlitReceive_eq hr ht hf).trans (congrArg Host.Outcome.next (if_pos hc)), hm, hcx, hothers, hrest⟩
    · have hb : linkBase l = l := linkBase_of_lt hl
      obtain ⟨hm, hcx, hothers, hrest⟩ := startRetrain_spec hl (by rw [← hb]; exact ht) hf
      refine ⟨startRetrain s l, ?_, hm, hcx, fun j hj => hothers j (by simpa using hj), hrest⟩
      show execLossOfLock l s = _
      rw [execLossOfLock, hb]
    · obtain ⟨t, hex, hm, hcx, hothers, hrest⟩ := retrainComplete_spec hl ht hf
      exact ⟨t, hex, hm, hcx, fun j hj => hothers j (by simpa using hj), hrest⟩
  · intro goes sent
    have hex := gatewayPacketForward_eq hid
    have goesSent {t : State} {l : Nat} (he : exec (.gatewayPacketForward id) s = .next t) (h : LinkSent s t l p) :
        goes (sent l) := ⟨t, he, h.mem, h.ctxs, h.transit, h.held, h.retry, h.due⟩
    have hopen (hj : 200 ≤ j) (hup : ¬(232 ≤ j ∧ j < 248 ∧ (s.link (j - 200)).st ≠ 2)) :
        ¬(32 ≤ j - 200 ∧ j - 200 < 48 ∧ (s.link (j - 200)).st ≠ 2) :=
      fun ⟨h1, h2, h3⟩ => hup ⟨by omega, by omega, h3⟩
    refine ⟨fun hj hmod hpk => ?_, fun hj hmod hpk htk => ?_, fun h2 hj => ?_, fun h1 hj htk => ?_, fun hj hmod hpk htk => ?_,
      fun h1 h2 hst => ?_, fun hj hup hroom hfirst => ?_, fun hj hup hroom => ?_⟩
    · rw [if_neg (by omega), if_pos hj, forwardPacket_pod (s := transitTaken s id) hmod hpk] at hex
      exact ⟨_, hex, rfl, rfl, rfl, mem_put .., State.mem_at _ _ _ _⟩
    · intro l hroom hnone
      rw [if_neg (by omega), if_pos hj, forwardPacket_node (s := transitTaken s id) hmod hpk htk,
        enterLink_sent (s := transitTaken s id) hroom fun x hx => hnone x (mem_del (m := s.transit) hx).2] at hex
      exact goesSent hex (linkSent_taken (linkSent_sendLink _ _ _))
    · rwa [if_neg (by omega), if_neg (by omega), if_pos hj] at hex
    · rw [if_neg (by omega), if_neg (by omega), if_neg (by omega), gatewayOut, if_neg htk] at hex
      refine ⟨_, hex, rfl, rfl, ?_, rfl, fun g hg => State.router_updRouter_other _ _ _ _ hg⟩
      exact congrArg Router.inject (State.router_updRouter ..)
    · rw [if_neg (by omega), if_pos hj, forwardPacket_home (s := transitTaken s id) hmod hpk htk] at hex
      exact hex
    · rw [if_pos (by omega), retryLink, if_pos ⟨by omega, by omega, hst⟩] at hex
      refine ⟨_, hex, rfl, rfl, rfl, ?_, rfl⟩
      rw [show j - 232 = j - 200 - 32 by omega]
      exact KMap.get_put_same _ _ _ _
    · have hroom' : (linkRoom s (j - 200) p &&
          !(s.transit.any fun x => decide (x.1 < id ∧ x.2.1 = 200 + (j - 200)))) = true := by
        have hany : (s.transit.any fun x => decide (x.1 < id ∧ x.2.1 = 200 + (j - 200))) = false :=
          List.any_eq_false.2 fun x hx => by
            rw [decide_eq_true_eq, Nat.add_sub_cancel' hj]
            exact fun h => hfirst x hx h.1 h.2
        rw [hroom, hany]
        rfl
      rw [if_pos hj, retryLink, if_neg (hopen hj hup), if_pos hroom'] at hex
      exact goesSent hex (linkSent_taken (linkSent_sendLink (transitTaken s id) _ _))
    · rw [if_pos hj, retryLink, if_neg (hopen hj hup), hroom, Bool.false_and, if_neg Bool.false_ne_true] at hex
      exact hex
  · have hex := pairDigestCompare_two hd
    by_cases hde : d = e
    · rw [if_pos hde] at hex
      exact ⟨_, hex, rfl, rfl, rfl, fun _ => rfl, fun hne => absurd hde hne⟩
    · rw [if_neg hde] at hex
      obtain ⟨hm, hc, hdig, hbb⟩ := pairMismatch_spec { s with digests := [] }
      exact ⟨_, hex, hdig, hm, hc, fun h => absurd h hde, fun _ => hbb⟩

end Sys2Proof.Machine
end

section
/-!
PROOFS. Bytes at a physical endpoint (O52, O54).
-/

namespace Sys2Proof.Machine

/-! ## Numbers and their bytes -/

@[simp] theorem length_natBytes (n : Nat) : ∀ v, (natBytes n v).length = n := by
  induction n with
  | zero => exact fun _ => rfl
  | succ n ih => exact fun v => congrArg Nat.succ (ih _)

theorem getElem?_natBytes {n i : Nat} (h : i < n) : ∀ v, (natBytes n v)[i]? = some (BitVec.ofNat 8 (v >>> (8 * i))) := by
  induction n generalizing i with
  | zero => omega
  | succ n ih =>
    intro v
    cases i with
    | zero => rfl
    | succ i =>
      rw [natBytes, List.getElem?_cons_succ, ih (by omega), ← Nat.shiftRight_add, Nat.mul_succ, Nat.add_comm 8]

/-- Byte i of the number that a row of bytes gives. -/
theorem ofNat_bytesNat (l : List Byte) : ∀ i, BitVec.ofNat 8 (bytesNat l >>> (8 * i)) = l[i]?.getD 0 := by
  induction l with
  | nil => exact fun i => by rw [bytesNat, Nat.zero_shiftRight]; rfl
  | cons b l ih =>
    intro i
    have hb := b.isLt
    cases i with
    | zero =>
      refine BitVec.eq_of_toNat_eq ?_
      rw [bytesNat, BitVec.toNat_ofNat, Nat.mul_zero, Nat.shiftRight_zero, Nat.shiftLeft_eq]
      show (b.toNat + bytesNat l * 2 ^ 8) % 2 ^ 8 = b.toNat
      omega
    | succ i =>
      have hstep : bytesNat (b :: l) >>> (8 * (i + 1)) = bytesNat l >>> (8 * i) := by
        have hdrop : bytesNat (b :: l) >>> 8 = bytesNat l := by
          rw [bytesNat, Nat.shiftLeft_eq, Nat.shiftRight_eq_div_pow]
          omega
        rw [Nat.mul_succ, Nat.add_comm, Nat.shiftRight_add, hdrop]
      rw [hstep, ih]
      rfl

/-- A byte below the width of a field of a number is the number's. -/
theorem ofNat_bits_zero {v n i : Nat} (h : i < n) :
    BitVec.ofNat 8 (bits v 0 (8 * n) >>> (8 * i)) = BitVec.ofNat 8 (v >>> (8 * i)) := by
  refine BitVec.eq_of_getLsbD_eq fun j hj => ?_
  rw [BitVec.getLsbD_ofNat, BitVec.getLsbD_ofNat, bits, Nat.shiftRight_zero, Nat.testBit_shiftRight,
    Nat.testBit_mod_two_pow, decide_eq_true (by omega : 8 * i + j < 8 * n), Bool.true_and, Nat.testBit_shiftRight]

/-! ## A range of HBM at an offset from a physical endpoint (R168, R267) -/

/-- `n` bytes of HBM from `lo` on, an offset from a physical endpoint, within one page. -/
structure PhysSpan (a : Word) (off : Int) (lo n : Nat) : Prop where
  kind : ek a = 4
  place : (fld a 0 48 : Int) + off = lo
  page : lo % 65536 + n ≤ 65536
  hbm : inHbm lo n = true

section
variable {s : State} {a : Word} {off : Int} {lo n : Nat}

theorem PhysSpan.lt (h : PhysSpan a off lo n) : lo + n ≤ 0x7FE0000000 := by simpa [inHbm] using h.hbm

theorem PhysSpan.outside (h : PhysSpan a off lo n) : inControl lo = false := by
  have hlt := h.lt
  have hspace : 0x7FE0000000 < ctxSpace := by decide
  simp only [inControl, decide_eq_false_iff_not, not_and, not_lt]
  omega

theorem PhysSpan.notHostOnly (h : PhysSpan a off lo n) : hostOnly lo = false := by
  have hlt := h.lt
  have hspace : 0x7FE0000000 < mgmtSpace := by decide
  simp only [hostOnly, decide_eq_false_iff_not]
  omega

theorem PhysSpan.wraps (h : PhysSpan a off lo n) : wrap 64 ((fld a 0 (if ek a = 0 then 56 else 48) : Int) + off) = lo := by
  have hlt := h.lt
  rw [h.kind, if_neg (by norm_num), h.place, wrap]
  omega

theorem PhysSpan.pieces_zero (h : PhysSpan a off lo 0) : epPieces a off 0 = [] := by
  rw [epPieces, h.wraps]
  rfl

theorem PhysSpan.pieces (h : PhysSpan a off lo n) (hn : n ≠ 0) : epPieces a off n = [(0, n)] := by
  have hcut : min n (65536 - lo % 65536) = n := min_eq_left (by have := h.page; omega)
  have hone : piecesOf lo n = [(lo, n)] := by
    rw [piecesOf, Machine.pieces, if_neg hn]
    dsimp only
    rw [hcut, Nat.sub_self, Machine.pieces, if_pos rfl]
  rw [epPieces, h.wraps, hone, List.map_singleton, Nat.sub_self]

theorem PhysSpan.epAddr_run (h : PhysSpan a off lo n) (g : Agent) (w : Want) (s : State) :
    (epAddr g a (off + ((0 : Nat) : Int)) n (pieceWidth n (0, n)) w).run s = (.ok (lo, w64 lo), s) := by
  have hplace : (fld a 0 48 : Int) + (off + ((0 : Nat) : Int)) = lo := by rw [Nat.cast_zero, add_zero, h.place]
  have hsign : ¬((lo : Int) < 0) := by omega
  rw [epAddr, h.kind]
  dsimp only
  rw [hplace, Int.toNat_natCast, h.outside, h.hbm, decide_eq_false hsign]
  rfl

theorem readPhys_run {pa : Nat} {x : Word} (ho : inControl pa = false) (hg : s.badIn pa n = none) :
    (readPhys pa n x).run s = (.ok (s.rd pa n), s.touch pa n) := by
  show ((if inControl pa then pure (spaceRead s pa).toNat
    else match s.badIn pa n with
    | some b => throw (0x27, x + w64 b - w64 pa)
    | none => (do set (s.touch pa n); pure (s.rd pa n)) : Acc Nat).run s) = _
  rw [ho, hg]
  rfl

theorem writePhys_run {pa v : Nat} {x : Word} (ho : inControl pa = false) (hg : partBad s pa n = none) :
    (writePhys pa v n x).run s = (.ok (), (s.touch pa n).wr pa v n) := by
  show ((if inControl pa then pure ()
    else match partBad s pa n with
    | some b => throw (0x27, x + w64 b - w64 pa)
    | none => set ((s.touch pa n).wr pa v n) : Acc Unit).run s) = _
  rw [ho, hg]
  rfl

/-- R168: the range is read as it stands. -/
theorem PhysSpan.readEp_run (h : PhysSpan a off lo n) (g : Agent) (hs : s.Inv) (hg : s.badIn lo n = none) :
    ∃ t v, (readEp g a off n).run s = (.ok v, t) ∧ OnlyRead s t ∧
      ∀ i, i < n → BitVec.ofNat 8 (v >>> (8 * i)) = Memory.read s.mem (lo + i) := by
  by_cases hn : n = 0
  · subst hn
    rw [readEp, h.pieces_zero]
    exact ⟨s, 0, rfl, OnlyRead.refl s, fun i hi => absurd hi (Nat.not_lt_zero i)⟩
  · refine ⟨s.touch lo n, s.rd lo n, ?_, onlyRead_touch s lo n, fun i hi => BitVec.eq_of_toNat_eq ?_⟩
    · rw [readEp, h.pieces hn, List.foldlM_cons, run_bind_ok (t := s.touch lo n) (a := s.rd lo n)]
      · rfl
      · rw [run_bind_ok (h.epAddr_run g .read s), run_bind_ok (readPhys_run h.outside hg), Nat.mul_zero, Nat.shiftLeft_zero,
          Nat.zero_add]
        rfl
    · rw [BitVec.toNat_ofNat]
      exact byteAt_rd s lo n i (rising_of_inv s hs) hi

/-- From `s` to `t` accesses were made, and in memory the n bytes from `lo` on became those of `v`. -/
structure BytesPut (s t : State) (lo v n : Nat) : Prop where
  only : OnlyAccess s t
  read : ∀ x, Memory.read t.mem x = if lo ≤ x ∧ x < lo + n then BitVec.ofNat 8 (v >>> (8 * (x - lo))) else Memory.read s.mem x

theorem bytesPut_touch_wr (hs : s.Inv) (v : Nat) : BytesPut s ((s.touch lo n).wr lo (bits v 0 (8 * n)) n) lo v n where
  only := (onlyRead_touch s lo n).onlyAccess.trans rfl
  read x := by
    have hmem := (onlyRead_touch s lo n).mem
    rw [read_wr _ _ _ _ _ (by rw [hmem]; exact rising_of_inv s hs), hmem]
    by_cases hx : lo ≤ x ∧ x < lo + n
    · rw [if_pos hx, if_pos hx, ofNat_bits_zero (by omega)]
    · rw [if_neg hx, if_neg hx]

/-- R168: the range is written as one piece. -/
theorem PhysSpan.writeEp_run (h : PhysSpan a off lo n) (g : Agent) (v : Nat) (hs : s.Inv) (hg : partBad s lo n = none) :
    ∃ t, (writeEp g a off v n).run s = (.ok (), t) ∧ BytesPut s t lo v n := by
  by_cases hn : n = 0
  · subst hn
    rw [writeEp, h.pieces_zero]
    exact ⟨s, rfl, OnlyAccess.refl s, fun x => (if_neg (by omega)).symm⟩
  · refine ⟨_, ?_, bytesPut_touch_wr hs v⟩
    have hby : (writeBy g lo (bits v (8 * 0) (8 * n)) n (w64 lo)).run s =
        (.ok (), (s.touch lo n).wr lo (bits v 0 (8 * n)) n) := by
      show ((if hostOnly lo && !g.host then pure ()
        else if inControl lo then
          match blockRefuse s lo (w64 (bits v (8 * 0) (8 * n))) with
          | some code => throw (code, w64 lo)
          | none => set { s with ctlw := s.ctlw ++ ((spaceEvent lo (w64 (bits v (8 * 0) (8 * n)))).map fun e =>
              (if g.host then hostSrc else g.n, e)).toList }
        else writePhys lo (bits v (8 * 0) (8 * n)) n (w64 lo) : Acc Unit).run s) = _
      rw [h.notHostOnly, h.outside]
      exact writePhys_run h.outside hg
    rw [writeEp, h.pieces hn]
    refine (run_bind_ok (a := ()) ?_).trans rfl
    rw [run_bind_ok (h.epAddr_run g .write s)]
    exact hby

end

end Sys2Proof.Machine
end


section
/-!
PROOFS. Packets that are accepted at a holder, and credits that return (O52).
-/

namespace Sys2Proof.Machine

/-! ## What a step at a holder leaves alone -/

/-- From `s` to `t` neither memory, nor a context, nor what stands in the inbox of holder h changes. -/
structure InboxKept (s t : State) (h : Nat) : Prop where
  mem : t.mem = s.mem
  ctxs : t.ctxs = s.ctxs
  inbox : (t.holder h).inbox = (s.holder h).inbox

theorem InboxKept.trans {s t u : State} {h : Nat} (a : InboxKept s t h) (b : InboxKept t u h) : InboxKept s u h :=
  ⟨b.mem.trans a.mem, b.ctxs.trans a.ctxs, b.inbox.trans a.inbox⟩

theorem holder_updEntry (s : State) (h e : Nat) (f : FEntry → FEntry) :
    (s.updEntry h e f).holder h =
      { s.holder h with ents := KMap.put (s.holder h).ents e (f ((s.holder h).entry e)) } := State.holder_updHolder ..

theorem inboxKept_updEntry (s : State) (h e : Nat) (f : FEntry → FEntry) : InboxKept s (s.updEntry h e f) h :=
  ⟨rfl, rfl, by rw [holder_updEntry]⟩

theorem holder_holderCounts (s : State) (h : Nat) (f : Holder → Holder) :
    (s.holderCounts h f).holder h = f (s.holder h) := by
  rw [holderCounts_eq]
  exact State.holder_updHolder s h f

theorem spares_holderCounts (s : State) (h : Nat) (f : Holder → Holder) : Spares s (s.holderCounts h f) := by
  rw [holderCounts_eq]
  exact ⟨rfl, rfl⟩

/-- The state in which an arrival no longer stands in the inbox of its holder. -/
def arrivalTaken (s : State) (h : Nat) (a : Arrival) : State :=
  s.updHolder h fun x => { x with inbox := x.inbox.erase a }

section
variable {s : State} {h e : Nat} {a : Arrival}

theorem holder_arrivalTaken (s : State) (h : Nat) (a : Arrival) :
    (arrivalTaken s h a).holder h = { s.holder h with inbox := (s.holder h).inbox.erase a } := State.holder_updHolder ..

theorem entry_arrivalTaken (s : State) (h e : Nat) (a : Arrival) :
    ((arrivalTaken s h a).holder h).entry e = (s.holder h).entry e := by
  rw [holder_arrivalTaken]
  rfl

theorem flowPacketAccept_eq (hfind : ((s.holder h).inbox.find? fun a => a.pkt.pk = 0 && decide (a.due ≤ s.clk)) = some a)
    (ch : Nat) : exec (.flowPacketAccept h ch) s = .next (acceptFlow (arrivalTaken s h a) h a) := by
  show execFlowPacketAccept h ch s = _
  rw [execFlowPacketAccept, hfind]
  rfl

/-! ## Strays and abandoned packets (R303, R326) -/

/-- A packet of no pattern's flow, where the stray queue has room. -/
theorem stray_spec {p : Packet} (hroom : (s.holder h).strays.length < 16)
    (hnone : ∀ x ∈ s.pats, ¬(x.flo.toNat ≤ p.flow.toNat ∧ p.flow.toNat ≤ x.fhi.toNat)) : let t := stray s h p
    InboxKept s t h ∧ (t.holder h).strays = (s.holder h).strays ++ [({ p with np := 0 }, p.pay.setWidth 512)] ∧
      (t.holder h).ents = (s.holder h).ents := by
  let keep (x : Holder) : Holder := { x with strays := x.strays ++ [({ p with np := 0 }, p.pay.setWidth 512)] }
  let u := (s.updHolder h keep).bbAdd 5 0 0 (whoHolder h) 0
  have hpat : (s.pats.find? fun q => decide (q.flo.toNat ≤ p.flow.toNat ∧ p.flow.toNat ≤ q.fhi.toNat)) = none :=
    List.find?_eq_none.2 fun x hx => by
      rw [decide_eq_true_eq]
      exact hnone x hx
  have hstray : stray s h p = patEvent u h
      (s.pats.find? fun q => decide (q.flo.toNat ≤ p.flow.toNat ∧ p.flow.toNat ≤ q.fhi.toNat)) 0x40
      (wordAt p.header 0) := if_neg (Nat.not_le.2 hroom)
  have hholder : (stray s h p).holder h = keep (s.holder h) := by
    rw [hstray, hpat]
    exact State.holder_updHolder s h keep
  refine ⟨⟨?_, ?_, ?_⟩, ?_, ?_⟩
  · rw [hstray, hpat]
    rfl
  · rw [hstray, hpat]
    rfl
  · rw [hholder]
  · rw [hholder]
  · rw [hholder]

theorem stillLive_arrivalTaken (s : State) (h : Nat) (a : Arrival) (m : Nat × BitVec 32) :
    stillLive (arrivalTaken s h a) h m = stillLive s h m := by
  unfold stillLive
  dsimp only
  rw [entry_arrivalTaken]
  rfl

/-! ## Accepted packets (R327) -/

/-- An entry that has seen a packet of input i. -/
def FEntry.saw (x : FEntry) (i : Nat) (p : Packet) : FEntry := { x with seqs := KMap.put x.seqs i (p.seqn + 1) }

/-- An entry that holds a packet of input i in slot k. -/
def FEntry.stored (x : FEntry) (i k : Nat) (p : Packet) : FEntry :=
  { x with slots := KMap.put x.slots k { x.slot k with chunk := p.chunk, pkts := (x.slot k).pkts ++ [(i, p)] } }

/-- The packet as an entry takes it: with the sequence number that it expects. -/
def expected (x : FEntry) (p : Packet) : Packet :=
  { p with seqn := KMap.get 0 x.seqs (p.flow.toNat % 2 ^ x.iw), np := 0 }

theorem returnCredit_of_invalid {x : FEntry} {i : Nat} (hv : (x.upstream i).valid = false) (s : State) (h : Nat) :
    returnCredit s h x i = s := by
  unfold returnCredit
  dsimp only
  rw [hv]
  rfl

/-- What becomes of a packet of input i that has been seen, by the slot that it is given (R327). -/
def inSlot (s seen : State) (h e i : Nat) (p : Packet) : Option Nat → State
  | none => discard s h ((s.holder h).entry e) i 0x42
  | some k => storePacket seen h e i k p

/-- A packet with the expected sequence number for one of the entry's inputs is seen, and is stored in the slot that it is
given; a DISCARD entry does not store it. -/
theorem acceptMatched_expected {own : Bool} {p : Packet} (hi : p.flow.toNat % 2 ^ ((s.holder h).entry e).iw <
      ((s.holder h).entry e).nin) (hseq : own = true ∨ p.seqn = (expected ((s.holder h).entry e) p).seqn) :
    let x := (s.holder h).entry e
    let i := p.flow.toNat % 2 ^ x.iw
    let seen := s.updEntry h e fun x => x.saw i (expected ((s.holder h).entry e) p)
    acceptMatched s h e own p = if x.act = 9 then returnCredit seen h x i
      else inSlot s seen h e i (expected x p) (slotFor' x i (expected x p)) := by
  intro x i seen
  have hown : (if own = true then KMap.get 0 ((s.holder h).entry e).seqs (p.flow.toNat % 2 ^ ((s.holder h).entry e).iw)
      else p.seqn) = KMap.get 0 ((s.holder h).entry e).seqs (p.flow.toNat % 2 ^ ((s.holder h).entry e).iw) := by
    split
    · rfl
    · next hn => exact hseq.resolve_left hn
  unfold acceptMatched
  dsimp only
  rw [if_neg (Nat.not_le.2 hi), hown, BitVec.sub_self, if_neg (by decide), if_pos (show (0#32).toNat = 0 from rfl)]
  split
  · rfl
  · split
    · next hk =>
      rw [show slotFor' x i (expected x p) = none from hk]
      rfl
    · next k hk =>
      rw [show slotFor' x i (expected x p) = some k from hk]
      rfl

section
variable {i k : Nat} {p : Packet}

theorem slot_stored (x : FEntry) (i k : Nat) (p : Packet) :
    (x.stored i k p).slot k = { x.slot k with chunk := p.chunk, pkts := (x.slot k).pkts ++ [(i, p)] } :=
  KMap.get_put_same _ _ _ _

/-- A packet stored at an entry other than an ALIGNED one. -/
theorem storePacket_eq (hact : ¬(((s.holder h).entry e).act = 2 ∧ ((s.holder h).entry e).cm = true)) :
    storePacket s h e i k p =
      if (((s.holder h).entry e).slot k).pkts.length + 1 = ((s.holder h).entry e).nin then
        completeSlot (s.updEntry h e fun _ => ((s.holder h).entry e).stored i k p) h e k
      else s.updEntry h e fun _ => ((s.holder h).entry e).stored i k p := by
  have hal : (((s.holder h).entry e).act = 2 && ((s.holder h).entry e).cm) = false := by
    by_contra hne
    exact hact (by simpa using hne)
  unfold storePacket
  dsimp only
  rw [hal, if_neg Bool.false_ne_true]
  rfl

/-! ## Slots of one input that are complete (R331, R348) -/

theorem get_of_find?_none {α : Type} (d : α) {m : KMap α} {k : Nat} (hk : (m.find? fun q => decide (q.1 = k)) = none) :
    KMap.get d m k = d := by
  induction m with
  | nil => rfl
  | cons q m ih =>
    obtain ⟨j, v⟩ := q
    rw [List.find?_cons] at hk
    split at hk
    · cases hk
    · next hne =>
      rw [KMap.get, if_neg fun he => (of_decide_eq_false hne) he.symm]
      exact ih hk

/-- An entry of one input stores a packet in a slot that holds nothing. -/
theorem slot_of_slotFor'_single {x : FEntry} (hs : x.single = true) (hk : slotFor' x i p = some k) :
    x.slot k = Slot.reset := by
  rw [slotFor', if_pos hs] at hk
  have hfree : (x.slots.find? fun q => decide (q.1 = k)).isNone = true :=
    List.find?_some (p := fun k => (x.slots.find? fun q => decide (q.1 = k)).isNone) hk
  exact get_of_find?_none _ (Option.isNone_iff_eq_none.1 hfree)

/-- What an entry that copies makes of a packet (R331). -/
def copied (x : FEntry) (sl : Slot) (p : Packet) : Packet :=
  { p with flow := BitVec.ofNat 20 x.eflow, fmtc := BitVec.ofNat 4 x.ef, flg := sl.flg ||| flgAll [p.flg] }

theorem slotOut_copy {x : FEntry} {sl : Slot} (hact : x.act = 0) (hnin : x.nin = 1) (hp : sl.pkts = [(0, p)]) :
    slotOut x sl = some [copied x sl p] := by
  have hin : sl.inputs 1 = [p] := by
    rw [Slot.inputs, hp]
    rfl
  have hcomp : x.computes = false := by
    unfold FEntry.computes
    rw [hact]
    rfl
  unfold slotOut
  rw [hnin, hin]
  dsimp only
  rw [hcomp, Bool.false_and, if_neg Bool.false_ne_true, hact]
  rfl

/-- An entry whose slot k has been processed: what it emits, and from when. -/
def FEntry.processed (x : FEntry) (k : Nat) (out : List Packet) (due : Nat) : FEntry :=
  { x with
    slots := KMap.put x.slots k { x.slot k with outq := out.map fun p => (p, []), due := due }
    ring := x.ring ++ [k] }

theorem completeSlot_of_out {q : Packet} (hact : ((s.holder h).entry e).act = 0)
    (hout : slotOut ((s.holder h).entry e) (((s.holder h).entry e).slot k) = some [q]) :
    completeSlot s h e k = (s.updEntry h e fun x => x.processed k [q] (max s.clk (((s.holder h).entry e).slot k).due)).at
      (max s.clk (((s.holder h).entry e).slot k).due) true (.emission h e) := by
  have halu : aluClks ((s.holder h).entry e) = 0 := by
    unfold aluClks
    rw [hact]
    rfl
  unfold completeSlot
  dsimp only
  rw [hout]
  dsimp only
  rw [halu, hact, Nat.add_zero, if_neg (by norm_num)]
  rfl

/-- The only packet of a slot of an entry that copies: its copy is ready to be emitted at once. -/
theorem storePacket_copy (hact : ((s.holder h).entry e).act = 0) (hnin : ((s.holder h).entry e).nin = 1)
    (hslot : ((s.holder h).entry e).slot k = Slot.reset) :
    let x := (s.holder h).entry e
    storePacket s h e 0 k p = ((s.updEntry h e fun _ => x.stored 0 k p).updEntry h e fun y =>
      y.processed k [copied x Slot.reset p] (max s.clk 0)).at (max s.clk 0) true (.emission h e) := by
  intro x
  let u := s.updEntry h e fun _ => x.stored 0 k p
  have hput : (x.stored 0 k p).slot k = { Slot.reset with chunk := p.chunk, pkts := [(0, p)] } := by
    rw [slot_stored, show x.slot k = Slot.reset from hslot]
    rfl
  have hentry : (u.holder h).entry e = x.stored 0 k p := entry_updEntry ..
  have hout : slotOut ((u.holder h).entry e) (((u.holder h).entry e).slot k) = some [copied x Slot.reset p] := by
    rw [hentry, hput, slotOut_copy (x := x.stored 0 k p) hact hnin rfl]
    rfl
  have hdue : (((u.holder h).entry e).slot k).due = 0 := by rw [hentry, hput]; rfl
  have hcomplete := completeSlot_of_out (by rw [hentry]; exact hact) hout
  rw [hdue] at hcomplete
  rw [storePacket_eq (by rw [hact]; exact fun ⟨h2, _⟩ => absurd h2 (by decide)), if_pos (by rw [hslot, hnin]; rfl)]
  exact hcomplete

end

end

end Sys2Proof.Machine
end


section
/-!
PROOFS. Packets that an entry emits, and credits that reach one (O52).
-/

namespace Sys2Proof.Machine

section
variable {s : State} {h e k : Nat}

/-! ## Credits (R329) -/

theorem creditReplyArrival_eq {a : Arrival} (hfind : ((s.holder h).inbox.find? fun a => a.pkt.pk = 2) = some a)
    (hw : fld (wordAt a.pkt.ext 0) 0 8 = 0xC1) (ch : Nat) : exec (.creditReplyArrival h ch) s =
      .next (addCredit (arrivalTaken s h a) h (fld (wordAt a.pkt.ext 0) 8 9) (fld (wordAt a.pkt.ext 0) 17 3)
        (fld (wordAt a.pkt.ext 0) 20 5)) := by
  show execCreditReplyArrival h ch s = _
  rw [execCreditReplyArrival, hfind]
  exact if_pos hw

theorem addCredit_live (hst : ((s.holder h).entry e).st = 2) (k n : Nat) : addCredit s h e k n =
    (s.updEntry h e fun x => x.setCredit k (x.credit k + n)).at s.clk true (.emission h e) := if_pos hst

/-! ## Emission (R328) -/

theorem chainOf_of_last {y : Holder} (hn : (y.entry e).nxt = none) (f : Nat) : chainOf y (f + 1) e = [e] := by
  rw [chainOf, hn]

/-- An entry that has emitted one more packet. -/
def FEntry.counted (x : FEntry) : FEntry := { x with w1 := setFld x.w1 32 32 (x.scnt + 1) }

/-- An entry whose slot k has emitted all its packets. -/
def FEntry.drained (x : FEntry) (k : Nat) : FEntry := { x with slots := KMap.put x.slots k { x.slot k with outq := [] } }

/-- An entry whose slot k is free again. -/
def FEntry.freed (x : FEntry) (k : Nat) : FEntry := { x with slots := x.slots.del k, ring := x.ring.filter fun i => i ≠ k }

theorem countSent_of_last (hn : ((s.holder h).entry e).nxt = none) : countSent s h e = s.updEntry h e FEntry.counted := by
  rw [countSent, chainOf_of_last hn]
  rfl

theorem freeSlot_of_invalid {j : Nat × Packet} (hp : (((s.holder h).entry e).slot k).pkts = [j])
    (hv : (((s.holder h).entry e).upstream j.1).valid = false) : freeSlot s h e k = s.updEntry h e fun x => x.freed k := by
  unfold freeSlot
  dsimp only
  rw [hp, List.foldl_cons, returnCredit_of_invalid hv]
  rfl

theorem emitFrom_empty (hr : ((s.holder h).entry e).ring = []) (f : Nat) : emitFrom (f + 1) s h e = s := by
  rw [emitFrom]
  dsimp only
  rw [hr]

/-- A slot that has emitted its packets is freed. -/
theorem emitFrom_drained (hact : ((s.holder h).entry e).act ≠ 8) {l : List Nat} (hr : ((s.holder h).entry e).ring = k :: l)
    (hdue : (((s.holder h).entry e).slot k).due ≤ s.clk) (hq : (((s.holder h).entry e).slot k).outq = []) (f : Nat) :
    emitFrom (f + 1) s h e = emitFrom f (freeSlot s h e k) h e := by
  rw [emitFrom]
  dsimp only
  rw [hr]
  dsimp only
  rw [if_neg (fun hor => hor.elim hact (Nat.not_lt.2 hdue)), hq]

/-- The last packet of a slot, with credit for its one copy: the copy is sent. -/
theorem emitFrom_copy {p : Packet} (hact : ((s.holder h).entry e).act ≠ 8) {l : List Nat}
    (hr : ((s.holder h).entry e).ring = k :: l) (hdue : (((s.holder h).entry e).slot k).due ≤ s.clk)
    (hq : (((s.holder h).entry e).slot k).outq = [(p, [])]) (hn : ((s.holder h).entry e).nxt = none)
    (hc : copiesOf h ((s.holder h).entry e) = [0]) (hcr : 0 < ((s.holder h).entry e).credit 0) (f : Nat) :
    emitFrom (f + 1) s h e =
      emitFrom f ((countSent (sendCopy s h e 0 ((s.holder h).entry e).scnt p) h e).updEntry h e fun x => x.drained k) h e := by
  have hall : ((chainOf (s.holder h) 512 e).flatMap fun i => (copiesOf h ((s.holder h).entry i)).map fun c => (i, c)) =
      [(e, 0)] := by
    rw [chainOf_of_last hn, List.flatMap_cons, hc]
    rfl
  have hready : ([(e, 0)].filter fun a => !([] : List Nat).contains (8 * a.1 + a.2) &&
      decide (0 < ((s.holder h).entry a.1).credit a.2)) = [(e, 0)] := by
    rw [List.filter_cons, decide_eq_true hcr]
    rfl
  have hsent : ([(e, 0)].all fun a =>
      (([] : List Nat) ++ [(e, 0)].map fun a : Nat × Nat => 8 * a.1 + a.2).contains (8 * a.1 + a.2)) = true := by
    simp
  rw [emitFrom]
  dsimp only
  rw [hr]
  dsimp only
  rw [if_neg (fun hor => hor.elim hact (Nat.not_lt.2 hdue)), hq]
  dsimp only
  rw [hall, hready]
  rw [if_pos hsent]
  rfl

/-- A copy that is not for the holder itself enters its router for a credit. -/
theorem sendCopy_inject {p : Packet} (hh : h < 256) (hcir : ((s.holder h).entry e).cir = false)
    (hself : targetsSelf s h (copyOf s h ((s.holder h).entry e) 0 ((s.holder h).entry e).scnt p) = false) :
    let x := (s.holder h).entry e
    sendCopy s h e 0 x.scnt p = injectAt (s.updEntry h e fun x => x.setCredit 0 (x.credit 0 - 1)) h
      (if p.np = 0 then 4 else 0) (copyOf s h x 0 x.scnt p) := by
  intro x
  have hsend : sendCopy s h e 0 x.scnt p = sendFrom (s.updEntry h e fun x => x.setCredit 0 (x.credit 0 - 1)) h x.cir
      (copyOf s h x 0 x.scnt p) := if_neg (by rw [Bool.not_eq_true]; exact hself)
  rw [hsend, sendFrom, if_pos hh, show x.cir = false from hcir, show (copyOf s h x 0 x.scnt p).np = p.np from rfl]
  by_cases hp : p.np = 0
  · rw [if_pos hp, if_neg (not_not.2 hp)]
    rfl
  · rw [if_neg hp, if_pos hp]
    rfl

/-- An entry that has sent the one copy of the last packet of slot k. -/
def FEntry.emitted (x : FEntry) (k : Nat) : FEntry :=
  (((x.setCredit 0 (x.credit 0 - 1)).counted).drained k).freed k

/-- The state in which a packet waits to enter the router of holder h and its entry e has emitted slot k. -/
def emittedTo (s : State) (h e k client : Nat) (q : Packet) : State :=
  (((injectAt (s.updEntry h e fun x => x.setCredit 0 (x.credit 0 - 1)) h client q).updEntry h e FEntry.counted).updEntry h e
    fun x => x.drained k).updEntry h e fun x => x.freed k

theorem entry_emittedTo (s : State) (h e k client : Nat) (q : Packet) :
    ((emittedTo s h e k client q).holder h).entry e = ((s.holder h).entry e).emitted k := by
  have hinject (u : State) : ((injectAt u h client q).holder h).entry e = (u.holder h).entry e := rfl
  rw [emittedTo, entry_updEntry, entry_updEntry, entry_updEntry, hinject, entry_updEntry]
  rfl

theorem spares_updEntry (s : State) (h e : Nat) (f : FEntry → FEntry) : Spares s (s.updEntry h e f) := ⟨rfl, rfl⟩

theorem router_updEntry (s : State) (h e g : Nat) (f : FEntry → FEntry) : (s.updEntry h e f).router g = s.router g := rfl

theorem spares_emittedTo (s : State) (h e k client : Nat) (q : Packet) : Spares s (emittedTo s h e k client q) :=
  ((((spares_updEntry ..).trans (spares_injectAt ..)).trans (spares_updEntry ..)).trans (spares_updEntry ..)).trans
    (spares_updEntry ..)

theorem inject_emittedTo (s : State) (h e k client : Nat) (q : Packet) :
    ((emittedTo s h e k client q).router h).inject = (s.router h).inject ++ [(client, q, 0, none)] := by
  rw [emittedTo, router_updEntry, router_updEntry, router_updEntry, injectAt, State.router_updRouter, router_updEntry]

theorem emission_eq {p : Packet} {j : Nat × Packet} (hh : h < 256) (hf : (s.holder h).fence = false)
    (hst : ((s.holder h).entry e).st = 2) (hcont : ((s.holder h).entry e).cont = false)
    (hn : ((s.holder h).entry e).nxt = none) (hact : ((s.holder h).entry e).act ≠ 8)
    (hcir : ((s.holder h).entry e).cir = false) (hr : ((s.holder h).entry e).ring = [k])
    (hdue : (((s.holder h).entry e).slot k).due ≤ s.clk) (hq : (((s.holder h).entry e).slot k).outq = [(p, [])])
    (hp : (((s.holder h).entry e).slot k).pkts = [j]) (hv : (((s.holder h).entry e).upstream j.1).valid = false)
    (hc : copiesOf h ((s.holder h).entry e) = [0]) (hcr : 0 < ((s.holder h).entry e).credit 0)
    (hself : targetsSelf s h (copyOf s h ((s.holder h).entry e) 0 ((s.holder h).entry e).scnt p) = false) :
    let x := (s.holder h).entry e
    exec (.emission h e) s =
      .next (emittedTo s h e k (if p.np = 0 then 4 else 0) (copyOf s h x 0 x.scnt p)) := by
  intro x
  let sent := injectAt (s.updEntry h e fun x => x.setCredit 0 (x.credit 0 - 1)) h (if p.np = 0 then 4 else 0)
    (copyOf s h x 0 x.scnt p)
  let y := ((x.setCredit 0 (x.credit 0 - 1)).counted).drained k
  let u := (sent.updEntry h e FEntry.counted).updEntry h e fun x => x.drained k
  have hsent : (sent.holder h).entry e = x.setCredit 0 (x.credit 0 - 1) :=
    entry_updEntry s h e fun x => x.setCredit 0 (x.credit 0 - 1)
  have hu : (u.holder h).entry e = y := by
    rw [entry_updEntry, entry_updEntry, hsent]
  have hslot : y.slot k = { x.slot k with outq := [] } := KMap.get_put_same _ _ _ _
  have hdone : ((emittedTo s h e k (if p.np = 0 then 4 else 0) (copyOf s h x 0 x.scnt p)).holder h).entry e = x.emitted k :=
    entry_emittedTo ..
  have hring : (x.emitted k).ring = [] := by
    show x.ring.filter _ = []
    rw [show x.ring = [k] from hr]
    simp
  have hemit : emitFrom 300 s h e = emittedTo s h e k (if p.np = 0 then 4 else 0) (copyOf s h x 0 x.scnt p) := by
    rw [emitFrom_copy hact hr hdue hq hn hc hcr, sendCopy_inject hh hcir hself, countSent_of_last (by rw [hsent]; exact hn)]
    rw [emitFrom_drained (s := u) (k := k) (l := []) (by rw [hu]; exact hact) (by rw [hu]; exact hr)
      (by rw [hu, hslot]; exact hdue) (by rw [hu, hslot]), freeSlot_of_invalid (by rw [hu, hslot]; exact hp)
      (by rw [hu]; exact hv)]
    exact emitFrom_empty ((congrArg FEntry.ring hdone).trans hring) _
  show execEmission h e s = _
  unfold execEmission
  rw [if_neg (by rw [hf]; decide)]
  dsimp only
  rw [hcont, if_neg Bool.false_ne_true, if_pos hst, hemit]

end

end Sys2Proof.Machine
end


section
/-!
PROOFS. A chunk delivered to physical memory, and the statement (O52).
-/

namespace Sys2Proof.Machine

section
variable {s : State} {h e k j : Nat} {p : Packet}

/-! ## Deliveries (R332) -/

theorem deliverWrite_phys {x : FEntry} (hk : ek x.ep = 4) (g : Agent) (i : Nat) (p : Packet) : deliverWrite g x i p = (do
    writeEp g x.ep ((p.chunk.toNat * x.stride : Nat) : Int) (p.byte 0 p.nb.toNat) p.nb.toNat
    pure id) := by
  unfold deliverWrite
  dsimp only
  rw [hk]
  rfl

theorem leaveCb_of_kind (hk : ek ((s.holder h).entry e).ep ≠ 2) : leaveCb s h e = s := if_neg fun hand => hk hand.2

theorem deliverChunk_eq (hst : ((s.holder h).entry e).st = 2) (hf : (s.holder h).fence = false)
    (hr : ((s.holder h).entry e).ring = [k]) (hdue : (((s.holder h).entry e).slot k).due ≤ s.clk) :
    exec (.deliverChunk h e) s = .next (deliverOne s h e k) := by
  have hopen : (decide (((s.holder h).entry e).st ≠ 2) || (s.holder h).fence) = false := by
    rw [hf, decide_eq_false (not_not.2 hst)]
    rfl
  show execDeliverChunk h e s = _
  rw [execDeliverChunk, hopen, if_neg Bool.false_ne_true, hr]
  exact if_neg (Nat.not_lt.2 hdue)

theorem deliverOne_phys (hp : (((s.holder h).entry e).slot k).pkts = [(j, p)]) (hk : ek ((s.holder h).entry e).ep = 4)
    (ht : targetKern s ((s.holder h).entry e) = none) :
    deliverOne s h e k = deliverOne.write h e k s ((s.holder h).entry e) p none := by
  unfold deliverOne
  dsimp only
  rw [ht, hk, hp]
  rfl

/-- A physical chunk that is written without an add: its slot is free again. -/
theorem deliverWrite_done {t : State} (hk : ek ((s.holder h).entry e).ep = 4) (hadd : fld ((s.holder h).entry e).done 3 53 = 0)
    (hp : (((s.holder h).entry e).slot k).pkts = [(j, p)]) (hv : (((s.holder h).entry e).upstream j).valid = false)
    (hrun : (deliverWrite (deliverAgent s h ((s.holder h).entry e)) ((s.holder h).entry e) (flowPq h e) p).run s = (.ok id, t))
    (honly : OnlyAccess s t) :
    deliverOne.write h e k s ((s.holder h).entry e) p none =
      (((t.updCtx ((s.holder h).entry e).ctx fun y => if y.live then id y else y).updEntry h e fun x => x.freed k).at
        t.clk true (.deliverChunk h e)) := by
  let u := t.updCtx ((s.holder h).entry e).ctx fun y => if y.live then id y else y
  have hentry : (u.holder h).entry e = (s.holder h).entry e := by
    show (t.holder h).entry e = _
    rw [honly]
    rfl
  have hleave : leaveCb u h e = u := leaveCb_of_kind (by rw [hentry, hk]; decide)
  have hfree : freeSlot u h e k = u.updEntry h e fun x => x.freed k :=
    freeSlot_of_invalid (j := (j, p)) (by rw [hentry]; exact hp) (by rw [hentry]; exact hv)
  unfold deliverOne.write
  dsimp only
  rw [hrun]
  dsimp only
  rw [show leaveCb (t.updCtx ((s.holder h).entry e).ctx fun y => if y.live then id y else y) h e = u from hleave, if_pos hadd]
  show (freeSlot u h e k).at u.clk true (.deliverChunk h e) = _
  rw [hfree]
  rfl

theorem ctx_updCtx_self (t : State) (n m : Nat) : (t.updCtx n fun y => if y.live then id y else y).ctx m = t.ctx m := by
  by_cases hm : m = n
  · subst hm
    rw [State.ctx_updCtx]
    exact ite_self _
  · exact State.ctx_updCtx_other _ _ _ _ hm

/-- R332: a delivery to physical memory writes the packet's bytes and nothing else. -/
theorem deliverChunk_phys {lo : Nat} (hs : s.Inv) (hst : ((s.holder h).entry e).st = 2) (hf : (s.holder h).fence = false)
    (hr : ((s.holder h).entry e).ring = [k]) (hdue : (((s.holder h).entry e).slot k).due ≤ s.clk)
    (hp : (((s.holder h).entry e).slot k).pkts = [(j, p)]) (hv : (((s.holder h).entry e).upstream j).valid = false)
    (hspan : PhysSpan ((s.holder h).entry e).ep ((p.chunk.toNat * ((s.holder h).entry e).stride : Nat) : Int) lo p.nb.toNat)
    (hadd : fld ((s.holder h).entry e).done 3 53 = 0) (ht : targetKern s ((s.holder h).entry e) = none)
    (hg : partBad s lo p.nb.toNat = none) :
    ∃ t, exec (.deliverChunk h e) s = .next t ∧ ((t.holder h).entry e).ring = [] ∧ (∀ m, t.ctx m = s.ctx m) ∧
      ∀ a, Memory.read t.mem a =
        if lo ≤ a ∧ a < lo + p.nb.toNat then BitVec.ofNat 8 (p.byte (a - lo) 1) else Memory.read s.mem a := by
  obtain ⟨t, hwrite, hput⟩ := hspan.writeEp_run (deliverAgent s h ((s.holder h).entry e)) (p.byte 0 p.nb.toNat) hs hg
  have hrun : (deliverWrite (deliverAgent s h ((s.holder h).entry e)) ((s.holder h).entry e) (flowPq h e) p).run s =
      (.ok id, t) := by
    rw [deliverWrite_phys hspan.kind, run_bind_ok hwrite]
    rfl
  have hone := deliverWrite_done hspan.kind hadd hp hv hrun hput.only
  rw [← deliverOne_phys hp hspan.kind ht] at hone
  refine ⟨_, (deliverChunk_eq hst hf hr hdue).trans (congrArg Host.Outcome.next hone), ?_, fun m => ?_, fun a => ?_⟩
  · refine (congrArg FEntry.ring (entry_updEntry _ h e fun x => x.freed k)).trans ?_
    have hring : ((t.holder h).entry e).ring = [k] := by
      rw [hput.only]
      exact hr
    show ((t.holder h).entry e).ring.filter _ = []
    rw [hring]
    simp
  · exact (ctx_updCtx_self t _ m).trans (hput.only.ctx m)
  · refine (hput.read a).trans ?_
    by_cases ha : lo ≤ a ∧ a < lo + p.nb.toNat
    · rw [if_pos ha, if_pos ha, Packet.byte, Nat.mul_zero, ofNat_bits_zero (by omega), Packet.byte, Nat.mul_one, ofNat_bits]
    · rw [if_neg ha, if_neg ha]

end

/-! ## The statement -/

section
variable {s : State} {h e i k : Nat} {x : FEntry} {own : Bool} {p q : Packet} (hx : (s.holder h).entry e = x)
  (hi : p.flow.toNat % 2 ^ x.iw = i) (hlt : i < x.nin) (hq : { p with seqn := KMap.get 0 x.seqs i, np := 0 } = q)
  (hown : own = true ∨ p.seqn = q.seqn)
include hx hi hlt hq hown

theorem acceptMatched_seen : acceptMatched s h e own p =
    if x.act = 9 then returnCredit (s.updEntry h e fun x => x.saw i q) h x i
    else inSlot s (s.updEntry h e fun x => x.saw i q) h e i q (slotFor' x i q) := by
  subst hx hi hq
  exact acceptMatched_expected hlt hown

/-- A DISCARD entry sees the packet and keeps nothing of it. -/
theorem acceptMatched_discarded (hact : x.act = 9) (hv : (x.upstream i).valid = false) :
    acceptMatched s h e own p = s.updEntry h e fun x => x.saw i q := by
  rw [acceptMatched_seen hx hi hlt hq hown, if_pos hact, returnCredit_of_invalid hv]

theorem acceptMatched_stores (hact : x.act ≠ 9) (hk : slotFor' x i q = some k) :
    acceptMatched s h e own p = storePacket (s.updEntry h e fun x => x.saw i q) h e i k q := by
  rw [acceptMatched_seen hx hi hlt hq hown, if_neg hact, hk]
  rfl

theorem acceptMatched_waits (hact : x.act ≠ 9) (hk : slotFor' x i q = some k) (hal : ¬(x.act = 2 ∧ x.cm = true))
    (hmore : (x.slot k).pkts.length + 1 ≠ x.nin) : let t := acceptMatched s h e own p
    InboxKept s t h ∧ (t.holder h).entry e = (x.saw i q).stored i k q := by
  let seen := s.updEntry h e fun x => x.saw i q
  have hseen : (seen.holder h).entry e = x.saw i q :=
    (entry_updEntry s h e fun x => x.saw i q).trans (congrArg (fun x => x.saw i q) hx)
  have hstore : storePacket seen h e i k q = seen.updEntry h e fun _ => (x.saw i q).stored i k q := by
    rw [storePacket_eq (by rw [hseen]; exact hal), hseen]
    exact if_neg hmore
  have ht := (acceptMatched_stores hx hi hlt hq hown hact hk).trans hstore
  dsimp only
  rw [ht]
  exact ⟨(inboxKept_updEntry s h e _).trans (inboxKept_updEntry seen h e _), entry_updEntry ..⟩

/-- A packet that an entry copies: the copy, and when it is emitted. -/
theorem acceptMatched_copied (hact : x.act = 0) (hnin : x.nin = 1) (hk : slotFor' x i q = some k) :
    let t := acceptMatched s h e own p
    InboxKept s t h ∧ ∃ r, ((t.holder h).entry e).ring = x.ring ++ [k] ∧ (((t.holder h).entry e).slot k).outq = [(r, [])] ∧
      (((t.holder h).entry e).slot k).due = max s.clk (x.slot k).due ∧ r.pay = q.pay ∧ r.chunk = q.chunk ∧
      r.nb = q.nb ∧ r.last = q.last ∧ r.flow.toNat = x.eflow ∧ r.flg = q.flg ∧
      ⟨max s.clk (x.slot k).due, true, .emission h e⟩ ∈ t.cal := by
  intro t
  obtain rfl : i = 0 := by omega
  have hslot : x.slot k = Slot.reset := slot_of_slotFor'_single (by
    unfold FEntry.single
    rw [hact]
    rfl) hk
  let u := s.updEntry h e fun x => x.saw 0 q
  have hu : (u.holder h).entry e = x.saw 0 q :=
    (entry_updEntry s h e fun x => x.saw 0 q).trans (congrArg (fun x => x.saw 0 q) hx)
  let y := (x.saw 0 q).stored 0 k q
  let r := copied (x.saw 0 q) Slot.reset q
  have hcopy := storePacket_copy (s := u) (h := h) (e := e) (k := k) (p := q) (by rw [hu]; exact hact)
    (by rw [hu]; exact hnin) (by rw [hu]; exact hslot)
  rw [hu] at hcopy
  have ht : t = ((u.updEntry h e fun _ => y).updEntry h e fun z => z.processed k [r] (max s.clk 0)).at (max s.clk 0) true
      (.emission h e) :=
    (acceptMatched_stores hx hi hlt hq hown (by rw [hact]; decide) hk).trans hcopy
  have hentry : (t.holder h).entry e = y.processed k [r] (max s.clk 0) := by
    rw [ht]
    exact (entry_updEntry _ h e fun z => z.processed k [r] (max s.clk 0)).trans (by rw [entry_updEntry])
  have hdone : (y.processed k [r] (max s.clk 0)).slot k = { y.slot k with outq := [(r, [])], due := max s.clk 0 } :=
    KMap.get_put_same _ _ _ _
  have hdue : (x.slot k).due = 0 := by rw [hslot]; rfl
  refine ⟨?_, r, ?_, ?_, ?_, rfl, rfl, rfl, rfl, ?_, ?_, ?_⟩
  · rw [ht]
    have hkept := ((inboxKept_updEntry s h e fun x => x.saw 0 q).trans (inboxKept_updEntry u h e fun _ => y)).trans
      (inboxKept_updEntry (u.updEntry h e fun _ => y) h e fun z => z.processed k [r] (max s.clk 0))
    exact ⟨hkept.mem, hkept.ctxs, hkept.inbox⟩
  · rw [hentry]
    rfl
  · rw [hentry, hdone]
  · rw [hentry, hdone, hdue]
  · exact Nat.mod_eq_of_lt (Nat.mod_lt _ (by norm_num))
  · show (0 : Flg) ||| ((0 : Flg) ||| q.flg) = q.flg
    rw [show (0 : Flg) = 0#6 from rfl, BitVec.zero_or, BitVec.zero_or]
  · rw [hdue, ht]
    exact State.mem_at _ _ _ _

end

theorem strays_updEntry (s : State) (h e : Nat) (f : FEntry → FEntry) :
    ((s.updEntry h e f).holder h).strays = (s.holder h).strays := by rw [holder_updEntry]

/-- Settles O52: acceptances by what the packet matched and the slot it is given, an emission by the steps of its one copy, a
credit by its entry, a delivery by the one piece that it writes. -/
theorem flowWork : Obligations.FlowWork := by
  unfold Obligations.FlowWork
  refine ⟨fun s h ch a hfind => ?_, fun s h e k p j => ?_,
fun s h ch a hfind => ?_,
    fun s h e k j p hs => ?_⟩
  · intro y leaves
    have hex := flowPacketAccept_eq hfind ch
    let u := arrivalTaken s h a
    have hholder := holder_arrivalTaken s h a
    have hentry (e : Nat) : (u.holder h).entry e = y.entry e := entry_arrivalTaken s h e a
    have leave {t : State} {f : State → Prop} (hacc : acceptFlow u h a = t) (hk : InboxKept u t h) (hf : f t) : leaves f :=
      ⟨t, hex.trans (congrArg Host.Outcome.next hacc), hk.mem, hk.ctxs,
        hk.inbox.trans (congrArg Holder.inbox hholder), hf⟩
    refine ⟨fun hhit hroom hnone => ?_, fun m hhit hgone => ?_, fun m hhit hlive => ?_⟩
    · have hacc : acceptFlow u h a = stray u h a.pkt := by rw [acceptFlow, hhit]
      obtain ⟨hk, hstrays, hents⟩ := stray_spec (s := u) (h := h) (p := a.pkt) (by rw [hholder]; exact hroom) hnone
      rw [hholder] at hstrays hents
      exact leave hacc hk ⟨hstrays, hents⟩
    · let left (x : Holder) : Holder := { x with abnd := sat32 x.abnd }
      have hacc : acceptFlow u h a = u.holderCounts h left := by
        rw [acceptFlow, hhit]
        exact if_neg (by rw [stillLive_arrivalTaken, hgone]; decide)
      have hcount : (u.holderCounts h left).holder h = left (u.holder h) := holder_holderCounts u h left
      have hs := spares_holderCounts u h left
      refine leave hacc ⟨hs.mem, hs.ctxs, (congrArg Holder.inbox hcount :)⟩ ⟨?_, ?_⟩
      · exact (congrArg Holder.abnd hcount).trans (congrArg (fun x => sat32 x.abnd) hholder)
      · exact (congrArg Holder.ents hcount :).trans (congrArg Holder.ents hholder :)
    · intro e x i p hi hown hv
      have hacc : acceptFlow u h a = acceptMatched u h e a.own a.pkt := by
        rw [acceptFlow, hhit]
        exact if_pos (by rw [stillLive_arrivalTaken, hlive])
      refine ⟨fun h9 => ?_, fun k h9 hk => ⟨fun hal hmore => ?_, fun h0 h1 => ?_⟩⟩
      · have ht := acceptMatched_discarded (q := p) (hentry e) rfl hi rfl hown h9 (hv _)
        refine leave (hacc.trans ht) (inboxKept_updEntry ..) ⟨?_, ?_⟩
        · exact (entry_updEntry u h e fun x => x.saw i p).trans (congrArg (fun x => x.saw i p) (hentry e))
        · exact (strays_updEntry u h e _).trans (congrArg Holder.strays hholder :)
      · obtain ⟨hkept, ht⟩ := acceptMatched_waits (q := p) (hentry e) rfl hi rfl hown h9 hk hal hmore
        exact leave hacc hkept ht
      · obtain ⟨hkept, ht⟩ := acceptMatched_copied (q := p) (hentry e) rfl hi rfl hown h0 h1 hk
        exact leave hacc hkept ht
  · intro x hh hf hst hcont hn hact hcir hr hdue hq hp hv hc hcr hself
    have hentry := entry_emittedTo s h e k (if p.np = 0 then 4 else 0) (copyOf s h x 0 x.scnt p)
    refine ⟨_, emission_eq hh hf hst hcont hn hact hcir hr hdue hq hp (hv _) hc hcr hself,
      (spares_emittedTo ..).mem, (spares_emittedTo ..).ctxs, inject_emittedTo .., ?_, ?_, ?_⟩
    · rw [hentry]
      have hlt : x.credit 0 < 2 ^ 5 := Nat.mod_lt _ (by norm_num)
      exact (fld_setFld_same _ _ _ _ (by norm_num)).trans (Nat.mod_eq_of_lt (Nat.lt_of_le_of_lt (Nat.sub_le _ _) hlt))
    · rw [hentry]
      show x.ring.filter _ = []
      rw [show x.ring = [k] from hr]
      simp
    · rw [hentry]
      exact fld_setFld_same _ _ _ _ (by norm_num)
  · intro w e x hw hst
    have hex := creditReplyArrival_eq hfind hw ch
    have hentry := entry_arrivalTaken s h e a
    rw [addCredit_live (by rw [hentry]; exact hst)] at hex
    let returned (x : FEntry) : FEntry := x.setCredit (fld w 17 3) (x.credit (fld w 17 3) + fld w 20 5)
    refine ⟨_, hex, rfl, rfl, ?_, ?_, State.mem_at _ _ _ _⟩
    · exact (entry_updEntry (arrivalTaken s h a) h e returned).trans (congrArg returned hentry)
    · refine (congrArg Holder.inbox (holder_updEntry (arrivalTaken s h a) h e returned)).trans ?_
      exact congrArg Holder.inbox (holder_arrivalTaken s h a)
  · intro x lo n hst hf hr hdue hp hv hk hadd ht hpage hhbm hg
    have hplace : (fld x.ep 0 48 : Int) + ((p.chunk.toNat * x.stride : Nat) : Int) = lo := by push_cast [lo]; rfl
    exact deliverChunk_phys hs hst hf hr hdue hp (hv j) ⟨hk, hplace, hpage, hhbm⟩ hadd ht hg

end Sys2Proof.Machine
end

section
/-!
PROOFS. Messages of the host link (O54).
-/

namespace Sys2Proof.Machine

section
variable {s t : State} {tag : Nat} {m : HostMsg}

/-! ## Answers (R453) -/

theorem tag_of_msgOf (hm : msgOf s tag = some m) : m.tag.toNat = tag := by simpa using List.find?_some hm

theorem ofNat_tag (hm : msgOf s tag = some m) : BitVec.ofNat 16 tag = m.tag := by
  rw [← tag_of_msgOf hm, BitVec.ofNat_toNat, BitVec.setWidth_eq]

/-- From `s` to `t` a message has been answered. -/
structure Answered (s t : State) (m : HostMsg) (typ : BitVec 8) (st code : Nat) (v : Word) (pay : List Byte) : Prop where
  resps : t.resps = s.resps ++ [⟨typ, m.tag, BitVec.ofNat 8 st, BitVec.ofNat 8 code, 0, v, pay⟩]
  host : ∀ x ∈ t.host, x.tag ≠ m.tag
  ctxs : t.ctxs = s.ctxs

theorem answered_respond (hm : msgOf s tag = some m) {typ : Nat} {st code : Nat} {v : Word} {pay : List Byte}
    (hr : t.resps = s.resps) (hc : t.ctxs = s.ctxs) :
    Answered s (respond t typ tag st code v pay) m (BitVec.ofNat 8 (typ + 0x80)) st code v pay where
  resps := by rw [← ofNat_tag hm, ← hr]; rfl
  host x hx ht := by
    have hne : x.tag.toNat ≠ tag := by simpa using (List.mem_filter.1 hx).2
    exact hne (ht ▸ tag_of_msgOf hm)
  ctxs := hc

theorem answer_ok {α : Type} {w : Acc α} {a : α} (hm : msgOf s tag = some m) (hrun : w.run s = (.ok a, t))
    (done : State → α → State) : answer s m w done = done (msgTaken t tag) a := by
  rw [answer, hrun, tag_of_msgOf hm]

theorem answer_fault {α : Type} {w : Acc α} {f : Flt} (hm : msgOf s tag = some m) (hrun : w.run s = (.error f, t))
    (hf : f.1 ≠ 0) (done : State → α → State) :
    answer s m w done = respond (msgTaken t tag) m.typ.toNat tag 1 f.1 f.2 [] := by
  rw [answer, hrun, tag_of_msgOf hm]
  exact if_neg hf

/-! ## Reads and writes of physical memory (R452, R453) -/

theorem physSpan_msgEp (hp : m.phys = true) (hpage : m.addr.toNat % 65536 + m.len.toNat ≤ 65536)
    (hh : inHbm m.addr.toNat m.len.toNat = true) : PhysSpan (msgEp m) 0 m.addr.toNat m.len.toNat := by
  have hlt : m.addr.toNat + m.len.toNat ≤ 0x7FE0000000 := by simpa [inHbm] using hh
  have hep : (msgEp m).toNat = 4 * 2 ^ 60 + m.addr.toNat := by
    rw [msgEp, if_pos hp, w64, BitVec.toNat_ofNat]
    omega
  refine ⟨?_, ?_, hpage, hh⟩
  · rw [ek, fld_eq, hep]
    omega
  · rw [fld_eq, hep]
    omega

theorem msgReach_run (hp : inHbm m.addr.toNat m.len.toNat = true) (hb : s.mgmt.boot = 2) :
    (msgReach s m m.len.toNat).run s = (.ok (), s) := by
  have hlt : m.addr.toNat + m.len.toNat ≤ 0x7FE0000000 := by simpa [inHbm] using hp
  have hsmall : ¬2 ^ 48 ≤ m.addr.toNat := by omega
  rw [msgReach, hb, decide_eq_false hsmall, Bool.false_or, show decide ((2 : BitVec 3) ≠ 2) = false from rfl, Bool.false_and,
    Bool.and_false]
  rfl

/-- A read of physical memory is answered with the bytes that stand there. -/
theorem yelnakRead_spec (hm : msgOf s tag = some m) (hp : m.phys = true) (hb : s.mgmt.boot = 2) (hs : s.Inv)
    (hpage : m.addr.toNat % 65536 + m.len.toNat ≤ 65536) (hh : inHbm m.addr.toNat m.len.toNat = true)
    (hg : s.badIn m.addr.toNat m.len.toNat = none) : ∃ t pay, exec (.yelnakRead tag) s = .next t ∧ t.mem = s.mem ∧
      Answered s t m 0x81 0 0 0 pay ∧ pay.length = m.len.toNat ∧
      ∀ i, i < m.len.toNat → pay[i]? = some (Memory.read s.mem (m.addr.toNat + i)) := by
  obtain ⟨t, v, hrun, honly, hbytes⟩ := (physSpan_msgEp hp hpage hh).readEp_run (hostAgent m) hs hg
  have hwork : (do msgReach s m m.len.toNat; readEp (hostAgent m) (msgEp m) 0 m.len.toNat : Acc Nat).run s = (.ok v, t) := by
    rw [run_bind_ok (msgReach_run hh hb)]
    exact hrun
  have hex : exec (.yelnakRead tag) s = .next (respond (msgTaken t tag) 1 tag 0 0 0 (natBytes m.len.toNat v)) := by
    rw [← answer_ok hm hwork fun t v => respond t 1 tag 0 0 0 (natBytes m.len.toNat v)]
    show execYelnakRead tag s = _
    rw [execYelnakRead, hm]
  refine ⟨_, natBytes m.len.toNat v, hex, honly.mem, ?_, length_natBytes _ _, fun i hi => ?_⟩
  · exact answered_respond hm (by rw [honly]; rfl) (by rw [honly]; rfl)
  · rw [getElem?_natBytes hi, hbytes i hi]

/-- A write of physical memory puts the payload there. -/
theorem yelnakWrite_spec (hm : msgOf s tag = some m) (hp : m.phys = true) (hb : s.mgmt.boot = 2) (hs : s.Inv)
    (hpage : m.addr.toNat % 65536 + m.len.toNat ≤ 65536) (hh : inHbm m.addr.toNat m.len.toNat = true)
    (hg : partBad s m.addr.toNat m.len.toNat = none) : ∃ t, exec (.yelnakWrite tag) s = .next t ∧
      Answered s t m 0x82 0 0 0 [] ∧ ∀ x, Memory.read t.mem x =
        if m.addr.toNat ≤ x ∧ x < m.addr.toNat + m.len.toNat then m.payload[x - m.addr.toNat]?.getD 0
        else Memory.read s.mem x := by
  obtain ⟨t, hrun, hput⟩ := (physSpan_msgEp hp hpage hh).writeEp_run (hostAgent m) (bytesNat m.payload) hs hg
  have hwork : (do
      msgReach s m m.len.toNat
      writeEp (hostAgent m) (msgEp m) 0 (bytesNat m.payload) m.len.toNat : Acc Unit).run s = (.ok (), t) := by
    rw [run_bind_ok (msgReach_run hh hb)]
    exact hrun
  have hex : exec (.yelnakWrite tag) s = .next (respond (msgTaken t tag) 2 tag 0 0 0 []) := by
    rw [← answer_ok hm hwork fun t _ => respond t 2 tag 0 0 0 []]
    show execYelnakWrite tag s = _
    rw [execYelnakWrite, hm]
  refine ⟨_, hex, answered_respond hm (by rw [hput.only]; rfl) (by rw [hput.only]; rfl), fun x => ?_⟩
  rw [← ofNat_bytesNat]
  exact hput.read x

/-! ## Counters (R391, R393) -/

/-- Work that asks a condition that does not hold goes on. -/
theorem faultIf_run_ok {b : Bool} {code : Nat} {v : Word} (h : b = false) : (faultIf b code v).run s = (.ok (), s) := by
  rw [faultIf, h]
  rfl

theorem msgCounter_run (hp : m.phys = true) (ha : m.addr.toNat % 8 = 0) (hh : inHbm m.addr.toNat 8 = true) (w : Want) :
    (msgCounter m w).run s = (.ok m.addr.toNat, s) := by
  rw [msgCounter, if_pos hp]
  dsimp only
  rw [run_bind_ok (faultIf_run_ok (decide_eq_false (not_not.2 ha))), run_bind_ok (faultIf_run_ok (by rw [hh]; rfl))]
  rfl

theorem msgCounter_fault (hp : m.phys = true) (ha : m.addr.toNat % 8 ≠ 0) (w : Want) :
    (msgCounter m w).run s = (.error (0x24, m.addr.setWidth 64), s) := by
  rw [msgCounter, if_pos hp]
  refine run_bind_error ?_
  rw [faultIf, decide_eq_true ha]
  rfl

/-- A request of the host stands in the table, whether it is sent at once or waits. -/
theorem postReq_spec (s : State) {src : ReqSrc} (hq : ∀ n fu, src ≠ .queue n fu) (va : Word) (pa : Nat) (v : Word) :
    let t := (postReq s src va pa v).2
    Spares s t ∧ ∃ r, t.req s.serial = some r ∧ r.src = src ∧ r.pa = pa ∧ r.val = v := by
  let u : State := { s with serial := s.serial + 1 }
  have hspares : Spares s (postReq s src va pa v).2 := spares_postReq s src va pa v
  refine ⟨hspares, ?_⟩
  by_cases ho : 8 ≤ openOf u src.sid
  · have hpost : (postReq s src va pa v).2 =
        { numbered u src.sid with reqs := KMap.put u.reqs s.serial (newReq u src va pa v) } := if_pos ho
    exact ⟨newReq u src va pa v, by rw [hpost]; exact req_put_same _ _ _, rfl, rfl, rfl⟩
  · have hpost : (postReq s src va pa v).2 = sendReq (numbered u src.sid) s.serial (newReq u src va pa v) := if_neg ho
    have hsent := (sendReq_spec (numbered u src.sid) s.serial (newReq u src va pa v) hq).2.2
    exact ⟨_, by rw [hpost]; exact hsent, rfl, rfl, rfl⟩

/-- A counter message of an aligned physical word posts its request. -/
theorem answer_counter (hm : msgOf s tag = some m) (hp : m.phys = true) (ha : m.addr.toNat % 8 = 0)
    (hh : inHbm m.addr.toNat 8 = true) (w : Want) {src : ReqSrc} (hq : ∀ n fu, src ≠ .queue n fu) :
    ∃ t r, answer s m (msgCounter m w) (fun t pa => (postReq t src (m.addr.setWidth 64) pa m.val).2) = t ∧
      t.mem = s.mem ∧ t.ctxs = s.ctxs ∧ t.req s.serial = some r ∧ r.src = src ∧ r.pa = m.addr.toNat ∧ r.val = m.val := by
  obtain ⟨hspares, r, hreq, hr⟩ := postReq_spec (msgTaken s tag) hq (m.addr.setWidth 64) m.addr.toNat m.val
  exact ⟨_, r, answer_ok hm (msgCounter_run hp ha hh w) _, hspares.mem, hspares.ctxs, hreq, hr⟩

/-- A counter message of a physical address that no word has is answered with the fault. -/
theorem answer_misaligned (hm : msgOf s tag = some m) (hp : m.phys = true) (ha : m.addr.toNat % 8 ≠ 0) (w : Want)
    (done : State → Nat → State) : ∃ t, answer s m (msgCounter m w) done = t ∧ t.mem = s.mem ∧
      Answered s t m (m.typ + 0x80) 1 0x24 (m.addr.setWidth 64) [] := by
  have htyp : BitVec.ofNat 8 (m.typ.toNat + 0x80) = m.typ + 0x80 := by
    rw [BitVec.ofNat_add, BitVec.ofNat_toNat, BitVec.setWidth_eq]
    rfl
  refine ⟨_, answer_fault hm (msgCounter_fault hp ha w) (show (0x24 : Nat) ≠ 0 by norm_num) done, rfl, ?_⟩
  rw [← htyp]
  exact answered_respond hm rfl rfl

/-! ## Launches, patterns, the black box and attestation (R311, R343, R455, R459) -/

theorem yelnakLaunch_spec (hm : msgOf s tag = some m) : ∃ t d, exec (.yelnakLaunch tag) s = .next t ∧ t.mem = s.mem ∧
    t.ctxs = s.ctxs ∧ t.dist.arriving = s.dist.arriving ++ [⟨some tag, 0, 0, 0, bytesWords 32 m.payload, none⟩] ∧
    1 ≤ d ∧ d ≤ 300 ∧ ⟨s.clk + d, false, .recordAcceptance⟩ ∈ t.cal := by
  let l : Launch := ⟨some tag, 0, 0, 0, bytesWords 32 m.payload, none⟩
  let u : State := { msgTaken s tag with dist := { s.dist with arriving := s.dist.arriving ++ [l] } }
  have hex : exec (.yelnakLaunch tag) s = .next (u.within 1 300 .recordAcceptance) := by
    show execYelnakLaunch tag s = _
    rw [execYelnakLaunch, hm]
    rfl
  obtain ⟨d, h1, h2, hd⟩ := State.within_cal u 1 300 .recordAcceptance (by norm_num)
  exact ⟨_, d, hex, rfl, rfl, rfl, h1, h2, hd⟩

theorem yelnakPatternLoad_misaligned (hm : msgOf s tag = some m) (ha : m.addr.toNat % 64 ≠ 0) :
    exec (.yelnakPatternLoad tag) s = .next (respond (msgTaken s tag) 6 tag 2 1 0 []) := by
  show execYelnakPatternLoad tag s = _
  rw [execYelnakPatternLoad, hm]
  exact if_pos ha

theorem yelnakPatternLoad_spec (hm : msgOf s tag = some m) (ha : m.addr.toNat % 64 = 0) : ∃ t l d,
    exec (.yelnakPatternLoad tag) s = .next t ∧ t.mem = s.mem ∧ t.loads = s.loads ++ [l] ∧
      l.image = m.addr.setWidth 64 ∧ l.asid = m.asid ∧ l.tag = some tag ∧ l.priv = true ∧ 1 ≤ d ∧ d ≤ 2000 ∧
      ⟨s.clk + d, false, .patternValidate⟩ ∈ t.cal := by
  let l : PatLoad := ⟨none, true, 0, 0, some tag, m.addr.setWidth 64, m.asid, Config.hostRoot m.asid, m.phys⟩
  let u : State := { msgTaken s tag with loads := s.loads ++ [l] }
  have hex : exec (.yelnakPatternLoad tag) s = .next (u.within 1 2000 .patternValidate) := by
    show execYelnakPatternLoad tag s = _
    rw [execYelnakPatternLoad, hm]
    exact if_neg (not_not.2 ha)
  obtain ⟨d, h1, h2, hd⟩ := State.within_cal u 1 2000 .patternValidate (by norm_num)
  exact ⟨_, l, d, hex, rfl, rfl, rfl, rfl, rfl, rfl, h1, h2, hd⟩

/-- The black-box entries that a message asks for (R459). -/
def bboxAsked (s : State) (m : HostMsg) : List BBox := (s.bb.filter fun e => m.val.toNat ≤ e.seqn.toNat).take m.len.toNat

theorem yelnakBlackBoxRead_spec (hm : msgOf s tag = some m) : ∃ t x, exec (.yelnakBlackBoxRead tag) s = .next t ∧
    t.mem = s.mem ∧ t.ctxs = s.ctxs ∧ t.bb = s.bb ∧
      t.resps = s.resps ++ [⟨0x87, m.tag, 0, 0, BitVec.ofNat 8 (bboxAsked s m).length,
        (((bboxAsked s m).head?).map (·.seqn)).getD x, (bboxAsked s m).flatMap bboxBytes⟩] := by
  let x := (drawWord (msgTaken s tag)).1
  let t : State := { (drawWord (msgTaken s tag)).2 with
    resps := s.resps ++ [⟨0x87, m.tag, 0, 0, BitVec.ofNat 8 (bboxAsked s m).length,
      (((bboxAsked s m).head?).map (·.seqn)).getD x, (bboxAsked s m).flatMap bboxBytes⟩]
    host := s.host.filter fun x => x.tag ≠ m.tag }
  have hex : exec (.yelnakBlackBoxRead tag) s = .next t := by
    show execYelnakBlackBoxRead tag s = _
    rw [execYelnakBlackBoxRead, hm]
    rfl
  exact ⟨t, x, hex, rfl, rfl, rfl, rfl⟩

/-- The parts of the attestation report before and after the digest of the image and the challenge (R455). -/
theorem report_parts (s : State) (m : HostMsg) : ∃ head mid tail : List Byte, head.length = 8 ∧ mid.length = 56 ∧
    tail.length = 16720 ∧ report s m = head ++ natBytes 48 s.mgmt.imgHash ++ mid ++ m.payload ++ tail := by
  refine ⟨natBytes 8 (1 + s.mgmt.modn.toNat * 65536),
    natBytes 48 (sha384 microByte 8192) ++ (freeBytes 96 4 ++ natBytes 4 s.mgmt.bootcnt.toNat),
    (List.range 112).map (fun _ => (0 : Byte)) ++ freeBytes (s.free * 65536 + 100) 16608, length_natBytes _ _, ?_, ?_, ?_⟩
  · rw [List.length_append, List.length_append, length_natBytes, length_natBytes, freeBytes, List.length_map,
      List.length_range]
  · rw [List.length_append, freeBytes, List.length_map, List.length_map, List.length_range, List.length_range]
  · rw [report]
    simp only [List.append_assoc]

theorem report_spec (s : State) (hl : m.payload.length = 32) : (report s m).length = 16864 ∧
    ((report s m).drop 8).take 48 = natBytes 48 s.mgmt.imgHash ∧ ((report s m).drop 112).take 32 = m.payload := by
  obtain ⟨head, mid, tail, hhead, hmid, htail, hr⟩ := report_parts s m
  have hhash := length_natBytes 48 s.mgmt.imgHash
  refine ⟨?_, ?_, ?_⟩
  · simp only [hr, List.length_append, hhead, hhash, hmid, hl, htail]
  · rw [hr, List.append_assoc, List.append_assoc, List.append_assoc, List.drop_left' hhead, List.take_left' hhash]
  · rw [hr, List.append_assoc _ m.payload, List.drop_left' (by simp only [List.length_append, hhead, hhash, hmid]),
      List.take_left' hl]

theorem yelnakAttestation_spec (hm : msgOf s tag = some m) : ∃ t, exec (.yelnakAttestation tag) s = .next t ∧
    t.mem = s.mem ∧ Answered s t m 0x88 0 0 0 (report s m) := by
  let u : State := msgTaken { s with free := s.free + 1 } tag
  have hex : exec (.yelnakAttestation tag) s = .next (respond u 8 tag 0 0 0 (report s m)) := by
    show execYelnakAttestation tag s = _
    rw [execYelnakAttestation, hm]
  exact ⟨_, hex, rfl, answered_respond (t := u) hm rfl rfl⟩

end

/-! ## The statement -/

/-- Settles O54: each message by what its work answers. -/
theorem hostMessages : Obligations.HostMessages := by
  unfold Obligations.HostMessages
  intro s tag m hm a n answers
  have gives {t : State} {typ : BitVec 8} {st code : Nat} {v : Word} {pay : List Byte}
      (h : Answered s t m typ st code v pay) : answers t typ st code v pay := ⟨h.resps, h.host, h.ctxs⟩
  refine ⟨fun hp hb hs hpage hh => ⟨fun hg => ?_, fun hg _ => ?_⟩, yelnakLaunch_spec hm, fun hp ha hh => ⟨?_, ?_⟩,
    fun hp ha _ => ⟨?_, ?_⟩, fun ha => ?_, yelnakPatternLoad_spec hm, ?_, fun hl => ?_⟩
  · obtain ⟨t, pay, hex, hmem, hans, hpay⟩ := yelnakRead_spec hm hp hb hs hpage hh hg
    exact ⟨t, pay, hex, hmem, gives hans, hpay⟩
  · obtain ⟨t, hex, hans, hread⟩ := yelnakWrite_spec hm hp hb hs hpage hh hg
    exact ⟨t, hex, gives hans, hread⟩
  · obtain ⟨t, r, ht, hr⟩ := answer_counter hm hp ha hh .add (src := .hostAdd tag) (by simp)
    refine ⟨t, r, ?_, hr⟩
    show execYelnakCounterAdd tag s = _
    rw [execYelnakCounterAdd, hm, ← ht]
  · obtain ⟨t, r, ht, hr⟩ := answer_counter hm hp ha hh .wait (src := .hostWait tag) (by simp)
    refine ⟨t, r, ?_, hr⟩
    show execYelnakCounterWait tag s = _
    rw [execYelnakCounterWait, hm, ← ht]
  · obtain ⟨t, ht, hmem, hans⟩ := answer_misaligned hm hp ha .add fun t pa =>
      (postReq t (.hostAdd tag) (m.addr.setWidth 64) pa m.val).2
    refine ⟨t, ?_, hmem, gives hans⟩
    show execYelnakCounterAdd tag s = _
    rw [execYelnakCounterAdd, hm, ← ht]
  · obtain ⟨t, ht, hmem, hans⟩ := answer_misaligned hm hp ha .wait fun t pa =>
      (postReq t (.hostWait tag) (m.addr.setWidth 64) pa m.val).2
    refine ⟨t, ?_, hmem, gives hans⟩
    show execYelnakCounterWait tag s = _
    rw [execYelnakCounterWait, hm, ← ht]
  · exact ⟨_, yelnakPatternLoad_misaligned hm ha, rfl, gives (answered_respond hm rfl rfl)⟩
  · exact yelnakBlackBoxRead_spec hm
  · obtain ⟨t, hex, hmem, hans⟩ := yelnakAttestation_spec hm
    exact ⟨t, report s m, hex, hmem, gives hans, report_spec s hl⟩

end Sys2Proof.Machine
end
